-- ==== Sys2Proof/Word.lean ====
section
/-!
DEFINITION. The word types of the hub: a byte, a 32-bit register, a 48-byte descriptor payload and a 64-byte
descriptor, and the list of bytes that stands for a frame or a block of memory.
Everything that interprets bits (fields, byte order, check words) is in Machine/Bits.lean.
-/

namespace Sys2Proof

/-- Eight bits. -/
abbrev Byte := BitVec 8

/-- A BAR 0 register: all registers are 32 bits wide (00_scope.md, Register access codes). -/
abbrev Reg := BitVec 32

/-- The 48-byte payload of a descriptor, byte 0 in the least significant bits (R334). -/
abbrev Payload := BitVec 384

/-- A 64-byte descriptor, byte 0 in the least significant bits (R334). -/
abbrev DescWord := BitVec 512

/-- A run of bytes, the first at the lowest offset. -/
abbrev Bytes := List Byte

end Sys2Proof
end

