-- ==== Sys2Proof/Syntax.lean ====
section
/-!
DEFINITION. The commands of the hub: one constructor of Instr for each row of the opcode table, with the operands a
command carries from outside (register accesses, descriptor sources, measured values, received frames, edge stamps).
The hub is a block: these are the indivisible steps that the table lists, and none of them is fetched from a memory.
-/

namespace Sys2Proof

/-- The masters that make register accesses (R353). -/
inductive Master where
  | host | spi | debug
deriving DecidableEq, Repr

/-- Side A or B: a half, a warden, a root, a firmware image, a calibration copy or a converter phase. -/
inductive Side where
  | a | b
deriving DecidableEq, Repr

/-- Where a descriptor comes from: a command ring (R326), one of the four DESC messages a worker runs at once (R276),
or the configuration profile being run (R388). -/
inductive Origin where
  | ring (q : Fin 16)
  | mgr (slot : Fin 4)
  | profile
deriving DecidableEq, Repr

/-- The rings of R326. -/
inductive RingId where
  | cmd (q : Fin 16)
  | cpl (c : Fin 16)
  | tel (t : Fin 4)
  | str (n : Fin 64)
deriving DecidableEq, Repr

/-- The raw stamp of an edge (R73): the root cycle it fell in, counted from the last 1 ms tick of the grid of R491,
and its fine code. `pair`: while a Causeway lane and the lane it serves both stamp the input (R98), the root cycle and fine
code that the other of the two gives the same edge. -/
structure Stamp where
  cyc : Nat
  bin : BitVec 8
  pair : Option (Nat × BitVec 8) := none
deriving DecidableEq, Repr

/-- A 66-bit block of a Ternen line (R228): its sync header and its payload as it is on the line, scrambled, bit 0 sent first. -/
structure Block where
  sync : BitVec 2
  payload : BitVec 64
deriving DecidableEq, Repr

/-- A frame as it is on the line: its blocks, and the 58 scrambled bits before them, which a self-synchronous scrambler goes on from;
bit 0 is the last of these. -/
structure Line where
  before : BitVec 58
  blocks : List Block
deriving DecidableEq, Repr

/-- A front end that R82 can blank: an event input or a reference input. -/
inductive FrontEnd where
  | evt (n : Fin 64)
  | ref (s : Fin 8)
deriving DecidableEq, Repr

/-- The event-status registers whose clear has no further effect of its own (R356). -/
inductive EvtReg where
  | root | rotSat
  | evt (n : Fin 64) | ivu (u : Fin 32) | tdc
  | ref (s : Fin 12)
  | clkout (n : Fin 96) | pls (n : Fin 64)
  | lnk (n : Fin 48) | hier
  | reed | charge
  | shim | cal
  | mon (j : Fin 2)
  | pwr
deriving DecidableEq, Repr

/-- What reading a Shim group finds (R373): no error, one or two bit errors, or more. -/
inductive GroupErr where
  | clean | correctable | uncorrectable
deriving DecidableEq, Repr

/-- How far a journal transaction gets in one command (R376): its record written, its commit mark written, or its
bytes applied and the record retired. -/
inductive JPhase where
  | opened | committed | applied
deriving DecidableEq, Repr

/-- The four kinds of endpoint reset (R325). -/
inductive EpReset where
  | perst | hot | linkDown | flr
deriving DecidableEq, Repr

/-- A core that may hold a reservation (R311). -/
inductive CoreId where
  | reed (n : Fin 192)
  | warden (w : Side)
deriving DecidableEq, Repr

/-- A packet of the interconnect whose ECC found an error (R28): the source code of the block that received it, the master
code of its sender, and whether the error could not be corrected. -/
structure PacketErr where
  receiver : BitVec 12
  sender : BitVec 8
  fatal : Bool
deriving DecidableEq, Repr

/-- Bits that have flipped in one of the three copies of a rotator's accumulator (R19). -/
structure Upset where
  dom : Fin 16
  copy : Fin 3
  bits : BitVec 112
deriving DecidableEq, Repr

/-- The measured values that a 1 ms tick finds: the eight junction sensors in 1/16 °C, VIN in mV, the heater power in
10 mW, the oven deviation in mK, and the averager's relation phase (2^-8 fu) and relation frequency (2^-16 ppt). `sensed`: for
deskew lines, the instant of the edge at the sense point less that of the domain's phase, in fu (R62, R63). `lines`: for Ethernet
ports, the phase of the recovered line clock on the nominal time scale, as the port's LNK_RX lane measures it, in fu (R282). `packets`,
`upsets` and `decayed`: the packet errors, the bit flips and the Shim groups gone bad of the millisecond that ends. -/
structure Meas where
  temps : List Int
  vin : Nat
  heater : Nat
  dev : Int
  relPhase : Nat
  relFreq : Int
  sensed : List (Fin 96 × Int) := []
  lines : List (Fin 48 × Int) := []
  packets : List PacketErr := []
  upsets : List Upset := []
  decayed : List (Nat × GroupErr) := []
deriving DecidableEq, Repr

/-- What a self-test that has run finds (R428): passed or not, the detail code, the lanes that passed, the reeds that
failed (a HALF test), and for each lane its largest bin-edge and bin-width deviation in 2^-8 fu (R100). Of a LANE test only the
deviations count: what passes follows from them and from the comparisons (R98). -/
structure Verdict where
  pass : Bool
  detail : Byte
  lanes : BitVec 6
  reeds : List (Fin 192)
  dev : List (Nat × Nat)
deriving DecidableEq, Repr

/-- The data set an IEEE 1588 Announce carries, as the BMCA compares it (R280). -/
structure PtpData where
  priority1 : Nat
  clockClass : Nat
  accuracy : Nat
  variance : Nat
  priority2 : Nat
  identity : BitVec 64
  stepsRemoved : Nat
  sender : BitVec 64
  senderPort : Nat
deriving DecidableEq, Repr

/-- An event message of an IEEE 1588 port other than a Sync received (R278, R279). A Pdelay_Resp brings the time that its sender held
the request, in fu. -/
inductive PtpEvent where
  | syncSent | delayReqSent | pdelayReqSent | pdelayRespSent
  | delayReqReceived | pdelayReqReceived | pdelayRespReceived (held : Int)
deriving DecidableEq, Repr

/-- A root that locks, and the oven sensor's reading at that moment less its setpoint, in mK. -/
structure RootStart where
  root : Side
  dev : Int
  deriving DecidableEq, Repr

/-- For how many root cycles a DLL's error has exceeded 5 ps, or no edge has reached its sense point (`noEdge`). -/
structure LossSpan where
  held : Nat
  noEdge : Bool
  deriving DecidableEq, Repr

/-- A checkpoint image as written: its bytes, and whether it is complete with a correct CRC-32C. -/
structure ImageSpan where
  size : Nat
  whole : Bool
  deriving DecidableEq, Repr

/-- The commands. `cyc` is always a count of root cycles since the last 1 ms tick (R491). -/
inductive Instr where
  -- descriptors: the next descriptor of its origin is applied
  | nop (o : Origin)
  | readTime (o : Origin) (cyc : Nat)
  | setTime (o : Origin)
  | stepTime (o : Origin)
  | slewTime (o : Origin)
  | domainConfig (o : Origin)
  | domainSteerSet (o : Origin)
  | domainSteerAdd (o : Origin)
  | domainSteerHoTrim (o : Origin)
  | domainModePolicy (o : Origin)
  | domainModeRealign (o : Origin)
  | domainModeClearTracked (o : Origin)
  | domainModeClearStepped (o : Origin)
  | refConfig (o : Origin)
  | refPriority (o : Origin)
  | outputConfig (o : Origin)
  | pulseConfig (o : Origin)
  | pulseAnchorOnce (o : Origin)
  | pulseAnchorTrack (o : Origin)
  | pulseAnchorStop (o : Origin)
  | eventConfig (o : Origin)
  | intervalStartSingle (o : Origin)
  | intervalStartRepeat (o : Origin)
  | intervalStartAbort (o : Origin)
  | linkConfig (o : Origin)
  | linkCalSetExt (o : Origin)
  | linkCalLoopback (o : Origin)
  | linkCalRebase (o : Origin)
  | taskAssign (o : Origin)
  | taskMove (o : Origin)
  | taskParam (o : Origin)
  | shimRead (o : Origin)
  /-- `dma`: the extent list and the bytes as the DMA reads return them, or none when a read failed (R381). -/
  | shimTxnWrite (o : Origin) (dma : Option (Bytes × Bytes))
  | shimTxnVerify (o : Origin)
  | shimTxnInvalidate (o : Origin)
  | shimTxnSettings (o : Origin)
  | peatRead (o : Origin)
  | peatArchiveArm (o : Origin)
  | peatArchiveCommit (o : Origin)
  | monConfig (o : Origin)
  | monSnapshot (o : Origin)
  /-- `descs`: the descriptors as the DMA read returns them (R276). -/
  | hierForward (o : Origin) (descs : List DescWord)
  | hierDiscoverLocal (o : Origin)
  | hierDiscoverPtp (o : Origin)
  | hierDiscoverScan (o : Origin)
  | hierDiscoverAssign (o : Origin)
  | halfPowerOff (o : Origin)
  | halfPowerOn (o : Origin)
  | selftestReed (o : Origin)
  | selftestLane (o : Origin)
  | selftestRoot (o : Origin)
  | selftestHalf (o : Origin)
  | selftestImage (o : Origin)
  | selftestLink (o : Origin)
  | selftestComplete (v : Verdict)
  -- rings, doorbells and the endpoint
  | commandDoorbell (q : Fin 16) (v : Reg) (cyc : Nat)
  | consumerDoorbell (r : RingId) (v : Reg)
  | descriptorFetch (q : Fin 16) (d : DescWord)
  | fastRingDescriptor (q : Fin 16) (d : DescWord) (cyc : Nat)
  | descriptorReadError (q : Fin 16) (addr : BitVec 64) (timeout : Bool)
  | ringEnable (m : Master) (r : RingId) (v : Reg)
  | ringDisable (m : Master) (r : RingId) (v : Reg)
  | commandRingDrained (q : Fin 16)
  | coalesceTimeout (r : RingId)
  | msixUnmask (v : Fin 128)
  | endpointReset (k : EpReset)
  | endpointReady
  -- registers
  | registerWrite (m : Master) (bar off size : Nat) (v : Reg)
  | aliasWrite (m : Master) (off : Nat) (v : Reg)
  | eventStatusAck (m : Master) (r : EvtReg) (v : Reg)
  | clkDllEvtAck (m : Master) (j : Fin 6) (v : Reg)
  | domEvtAck (m : Master) (d : Fin 16) (v : Reg)
  | fltEvtAck (m : Master) (v : Reg)
  | fltSafeAck (m : Master) (v : Reg)
  | fltDegLnkAck (m : Master) (j : Fin 3) (v : Reg)
  | fltPinRelease (m : Master)
  | fltPinHoldWrite (m : Master) (hold : Bool)
  | topVioClr (m : Master) (v : Reg)
  | topResetWrite (m : Master) (v : Reg) (cyc : Nat)
  | mbxReq (m : Master) (i : Fin 4)
  | mbxSnapshotValid (i : Fin 4)
  | mbxData3Read (m : Master) (i : Fin 4)
  | spiReadTransaction (cmd : Reg) (crc : Byte) (clocks : Nat)
  | spiWriteTransaction (cmd : Reg) (crc : Byte) (data : Reg) (dcrc : Byte) (clocks : Nat)
  | shimLdrOfsWrite (m : Master) (v : Reg)
  | shimLdrDataWrite (m : Master) (v : Reg)
  | shimLdrVerify (m : Master)
  | loaderVerifyDone
  -- Shim store
  | journalTransaction (upto : JPhase)
  | scrubGroupRead (e : GroupErr)
  | profileAutostart
  | hourCounterTick
  -- the tick grid and the domains
  | tick1ms (m : Meas)
  | tick1s
  | holdoverTimerExpiry (d : Fin 16)
  | revertiveHoldoffExpiry (d : Fin 16)
  | domainSecondMark (d : Fin 16)
  -- roots, oven, ladders and delay-locked lines
  | rootLock (r : RootStart)
  | rootLockTimeout (r : Side)
  | rootFaultDetected (r : Side) (cause : Fin 4)
  | rootXJump (freq : Int)
  | jumpAttributed (s : Fin 12)
  | jumpAttributionTimeout
  | ovenBandEntry
  | ovenBandExit
  | tbWarmRise
  | ovenWarmupLimit
  | ladderLock (k : Fin 8)
  | ladderLossOfLock (k : Fin 8)
  /-- `err`: the error in fu; `held`: for how many root cycles it has been under 1 ps. -/
  | dllLock (n : Fin 96) (err : Int) (held : Nat)
  | dllLossOfLock (n : Fin 96) (err : Int) (lost : LossSpan)
  -- event inputs and interval units
  | eventEdge (n : Fin 64) (rising : Bool) (st : Stamp)
  | eventWidthEnd (n : Fin 64) (width : Nat)
  | streamRecordDma (n : Fin 64) (burst : Nat)
  | frontEndBlankEnd (f : FrontEnd)
  | ivuStartEdge (u : Fin 32) (rising : Bool) (st : Stamp)
  | ivuStopEdge (u : Fin 32) (rising : Bool) (st : Stamp)
  | ivuWindowTimeout (u : Fin 32)
  | ivuStartWaitExpired (u : Fin 32)
  -- references
  | refPulseEdge (s : Fin 8) (st : Stamp) (width : Nat)
  | todSentence (i : Fin 4) (txt : Bytes) (cyc : Nat)
  | irigFrame (s : Fin 8) (st : Stamp) (widths : List Nat)
  | refqSample (s : Fin 12) (edges : List Stamp)
  | refLossDetected (s : Fin 12)
  | qualifyTimerExpiry (s : Fin 12)
  | requalifyTimerExpiry (s : Fin 12)
  -- outputs
  | outputBoundary (n : Fin 96)
  | pulseGridInstant (n : Fin 64)
  | pulseAnchorEdge (n : Fin 64) (rising : Bool) (st : Stamp)
  | anchorLostTimeout (n : Fin 64)
  | anchorOnceTimeout (n : Fin 64)
  -- links
  | tmarkSend (n : Fin 48) (st : Stamp)
  | techoSend (n : Fin 48) (st : Stamp)
  | statFrameSend (n : Fin 48)
  | mgmtSegmentSend (n : Fin 48)
  | tmarkReceived (n : Fin 48) (frame : Line) (st : Stamp)
  | techoReceived (n : Fin 48) (frame : Line) (st : Stamp)
  | todFrameReceived (n : Fin 48) (frame : Line)
  | statFrameReceived (n : Fin 48) (frame : Line)
  | mgmtSegmentReceived (n : Fin 48) (frame : Line)
  | blockLock (n : Fin 48)
  | blockLockLost (n : Fin 48)
  | receiverSignalLost (n : Fin 48)
  | marksMissingTimeout (n : Fin 48)
  | echoMissing (n : Fin 48)
  | mgmtResendTimeout (n : Fin 48)
  | mgmtMessageTimeout (n : Fin 48)
  | loopbackComplete (n : Fin 48)
  | sbxScan (c : Fin 4) (bits : BitVec 48)
  /-- `data`: the bytes read from device 0 (address 0xA0) or 1 (0xA2), or none when the read failed three times. -/
  | i2cModulePoll (n : Fin 48) (dev : Fin 2) (data : Option Bytes)
  -- hierarchy
  | announceSend
  | announceReceived
  | discoverSend
  | discoverReceived
  | reportSend
  | reportReceived
  | assignReceived
  | descReceived
  | complSend
  | complReceived
  | hierForwardTimeout (tag : BitVec 32)
  | scanComplete
  | managerSilentTimeout
  | lowestTupleTimeout
  -- IEEE 1588 ports
  | ptpEventMessage (n : Fin 48) (e : PtpEvent) (st : Stamp)
  /-- `origin`: the master's time for the Sync, from it or its Follow_Up, in fu since the PTP epoch. `resp`: the receive time, in fu,
  of the Delay_Resp that has come for the last Delay_Req, when one has come since the last Sync. -/
  | ptpSyncReceived (n : Fin 48) (st : Stamp) (origin : Int) (resp : Option Int)
  | ptpSyncTimeout (n : Fin 48)
  | esmcPduSend (n : Fin 48)
  | esmcEventPduSend (n : Fin 48)
  | esmcPduReceived (n : Fin 48) (ql : BitVec 4)
  | esmcAbsentTimeout (n : Fin 48)
  -- reeds, tasks, halves and wardens
  | checkpointWrite (t : Fin 126) (x : ImageSpan)
  | taskMoveAtCheckpoint (t : Fin 126)
  | reedSramError (n : Fin 192)
  | reedHeartbeatTimeout (n : Fin 192)
  | reedTrap (n : Fin 192)
  | reedDebugHalt (n : Fin 192)
  | reedDebugResume (n : Fin 192)
  /-- `bad0`, `bad1`: the newer, the older image holds an uncorrectable error (R297). -/
  | taskRestored (t : Fin 126) (bad0 bad1 : Bool)
  | halfLost (h : Side)
  | halfPowerOffDone
  | halfPowerOnDone
  /-- `fetchErr`: the heartbeat stopped on an uncorrectable error in fetched code (R308). -/
  | wardenHeartbeatTimeout (fetchErr : Bool)
  | wardenRelease (w : Side)
  /-- The wardens that claim charge in one 187.5 MHz cycle (R308). -/
  | chargeClaim (a b : Bool)
  | splitCharge
  | reservationAgeTimeout (c : CoreId)
  | eventTaskRecord (e : Fin 32)
  -- modes, faults and monitors
  | recoveryStabilityTimeout
  | faultMessage
  | collectorOverflowReport
  | faultNTimerExpiry
  | fatalDump
  /-- `bad`: the BAR 0 offsets of the registers whose parity bit the checker finds wrong (R359). -/
  | paritySweep (bad : List Nat)
  | monSample (u : Fin 32)
  | monWindowClose (u : Fin 32)
  -- supply, enable and temperature
  | vinRise (mv : Nat)
  | vinFall (mv : Nat)
  | enHigh
  | enLow
  | railRetryTimeout
  | bootEnd
  | pfailAssert (mv : Nat)
  | pfailDeassert (mv : Nat)
  | vinOvervoltage (mv : Nat)
  | converterPhaseLost (h : Side)
  | thermalWarn (i : Fin 8) (t : Int)
  | thermalTrip (i : Fin 8) (t : Int)
  | thermalAutoRestart (temps : List Int)
  | receiverSignalDetected (n : Fin 48)
  | rootRelationValid
  | pulseEnd (n : Fin 64)
  | thermalWarnClear (temps : List Int)
  | converterPhaseRestored (h : Side)
  | railRetryWaitExpiry
  | vddpBankMeasurement (mv : List Nat)
  | ptpAnnounceReceived (n : Fin 48) (d : PtpData)
  | ptpAnnounceReceiptTimeout (n : Fin 48)
deriving DecidableEq, Repr

end Sys2Proof
end

