-- ==== Sys2Proof/Decode.lean ====
section
/-!
DEFINITION. The decoder of the opcode table. The hub is a block: its table gives no row any bits, so that no word spells a
command, and commands reach the queue as they are.
-/

namespace Sys2Proof

/-- The command that a word of the opcode table spells: none, since the table gives no row bits (spec/opcode_table.json: every
row has an empty list of fields). -/
def decodeTableWord (_nbits _w : Nat) : Option Instr := none

end Sys2Proof
end

