-- ==== Sys2Proof/Machine/Bits.lean ====
section
/-!
DEFINITION. Bits and bytes: bit fields of a payload or a register, little-endian byte runs, saturation and rounding,
an integer square root, the two check words of the manual (CRC-8 of R366, CRC-32C of R230) and SHA-384 (R382).
-/

namespace Sys2Proof.Machine

/-! ## Fields -/

/-- Bits [lo + len - 1 : lo] of v, unsigned. -/
def natBits (v lo len : Nat) : Nat := v / 2 ^ lo % 2 ^ len

/-- Bit b of v. -/
def natBit (v b : Nat) : Bool := v / 2 ^ b % 2 == 1

/-- A field of a payload or register, unsigned. -/
def fld {w : Nat} (p : BitVec w) (lo len : Nat) : Nat := natBits p.toNat lo len

/-- A two's-complement number of len bits. -/
def toSigned (len v : Nat) : Int := if v % 2 ^ len < 2 ^ (len - 1) then (v % 2 ^ len : Nat) else (v % 2 ^ len : Nat) - (2 ^ len : Nat)

/-- A field of a payload or register, signed. -/
def sfld {w : Nat} (p : BitVec w) (lo len : Nat) : Int := toSigned len (fld p lo len)

/-- One bit of a payload or register. -/
def flag {w : Nat} (p : BitVec w) (b : Nat) : Bool := p.getLsbD b

/-- A signed number as len bits of two's complement. -/
def ofSigned (len : Nat) (v : Int) : Nat := (v % (2 ^ len : Nat)).toNat

/-- A value placed at a bit offset in a word under construction. -/
def at_ (lo len v : Nat) : Nat := v % 2 ^ len * 2 ^ lo

/-- A Boolean placed at a bit offset. -/
def atB (lo : Nat) (b : Bool) : Nat := if b then 2 ^ lo else 0

/-- p with the field [lo + len - 1 : lo] replaced by v. -/
def putFld {w : Nat} (p : BitVec w) (lo len v : Nat) : BitVec w :=
  (p &&& ~~~(BitVec.ofNat w ((2 ^ len - 1) * 2 ^ lo))) ||| BitVec.ofNat w (at_ lo len v)

/-- A Boolean as 0 or 1. -/
def b2n (b : Bool) : Nat := if b then 1 else 0

/-! ## Saturation, rounding and roots -/

/-- a + b, not above cap. -/
def satAdd (cap a b : Nat) : Nat := min cap (a + b)

/-- The 32-bit saturating increment of the counters. -/
def satInc32 (a : Nat) : Nat := satAdd 0xFFFFFFFF a 1

/-- v limited to [lo, hi]. -/
def clampI (lo hi v : Int) : Int := max lo (min hi v)

/-- v limited to what len signed bits hold. -/
def satSigned (len : Nat) (v : Int) : Int := clampI (-(2 ^ (len - 1) : Nat)) ((2 ^ (len - 1) : Nat) - 1) v

/-- a / b to the nearest whole number, halves upward, for b above 0. -/
def rdiv (a b : Int) : Int := (2 * a + b).fdiv (2 * b)

/-- The signed value as a 32-bit or 16-bit field, saturating. -/
def satField (len : Nat) (v : Int) : Nat := ofSigned len (satSigned len v)

/-- The greatest acc' ≥ acc that differs from acc only below bit k and whose square is at most n. -/
def isqrtFrom : Nat → Nat → Nat → Nat
  | 0, _, acc => acc
  | k + 1, n, acc => isqrtFrom k n (if (acc + 2 ^ k) * (acc + 2 ^ k) ≤ n then acc + 2 ^ k else acc)

/-- The whole part of the square root. -/
def isqrt (n : Nat) : Nat := isqrtFrom (n.log2 / 2 + 1) n 0

/-- |v|. -/
def absN (v : Int) : Nat := v.natAbs

/-! ## Byte runs -/

/-- The low n bytes of v, least significant first. -/
def leBytes : Nat → Nat → Bytes
  | 0, _ => []
  | n + 1, v => BitVec.ofNat 8 v :: leBytes n (v / 256)

/-- The number that little-endian bytes spell. -/
def leNat : Bytes → Nat
  | [] => 0
  | b :: bs => b.toNat + 256 * leNat bs

/-- The number that big-endian bytes spell. -/
def beNat (b : Bytes) : Nat := b.foldl (fun n x => 256 * n + x.toNat) 0

/-- n bytes of b from offset o, zero past the end. -/
def slice (b : Bytes) (o n : Nat) : Bytes :=
  let s := (b.drop o).take n
  s ++ List.replicate (n - s.length) 0

/-- The little-endian field of n bytes at offset o. -/
def leAt (b : Bytes) (o n : Nat) : Nat := leNat (slice b o n)

/-- Byte o of b. -/
def byteAt (b : Bytes) (o : Nat) : Byte := b.getD o 0

/-! ## Check words -/

/-- One bit of CRC-8 with polynomial 0x07, most significant bit first (R366). -/
def crc8Bit (c : Nat) (b : Bool) : Nat :=
  let c2 := c * 2 % 256
  if natBit c 7 != b then c2 ^^^ 0x07 else c2

/-- CRC-8 of a 32-bit word (R366). -/
def crc8 (w : Reg) : Byte :=
  BitVec.ofNat 8 ((List.range 32).foldl (fun c i => crc8Bit c (w.getLsbD (31 - i))) 0)

/-- One shift of the reflected CRC-32C register. -/
def crc32cShift (c : Nat) : Nat := if c % 2 = 1 then c / 2 ^^^ 0x82F63B78 else c / 2

/-- One byte of CRC-32C (R230). -/
def crc32cByte (c : Nat) (b : Byte) : Nat :=
  (List.range 8).foldl (fun c _ => crc32cShift c) (c ^^^ b.toNat)

/-- CRC-32C: polynomial 0x1EDC_6F41 reflected, initial value and final XOR 0xFFFF_FFFF (R230). -/
def crc32c (b : Bytes) : Nat := b.foldl crc32cByte 0xFFFFFFFF ^^^ 0xFFFFFFFF

/-! ## SHA-384 (named by R382; FIPS 180-4) -/

/-- The eighty round constants. -/
def shaK : List (BitVec 64) :=
  [0x428a2f98d728ae22, 0x7137449123ef65cd, 0xb5c0fbcfec4d3b2f, 0xe9b5dba58189dbbc,
    0x3956c25bf348b538, 0x59f111f1b605d019, 0x923f82a4af194f9b, 0xab1c5ed5da6d8118,
    0xd807aa98a3030242, 0x12835b0145706fbe, 0x243185be4ee4b28c, 0x550c7dc3d5ffb4e2,
    0x72be5d74f27b896f, 0x80deb1fe3b1696b1, 0x9bdc06a725c71235, 0xc19bf174cf692694] ++
  [0xe49b69c19ef14ad2, 0xefbe4786384f25e3, 0x0fc19dc68b8cd5b5, 0x240ca1cc77ac9c65,
    0x2de92c6f592b0275, 0x4a7484aa6ea6e483, 0x5cb0a9dcbd41fbd4, 0x76f988da831153b5,
    0x983e5152ee66dfab, 0xa831c66d2db43210, 0xb00327c898fb213f, 0xbf597fc7beef0ee4,
    0xc6e00bf33da88fc2, 0xd5a79147930aa725, 0x06ca6351e003826f, 0x142929670a0e6e70] ++
  [0x27b70a8546d22ffc, 0x2e1b21385c26c926, 0x4d2c6dfc5ac42aed, 0x53380d139d95b3df,
    0x650a73548baf63de, 0x766a0abb3c77b2a8, 0x81c2c92e47edaee6, 0x92722c851482353b,
    0xa2bfe8a14cf10364, 0xa81a664bbc423001, 0xc24b8b70d0f89791, 0xc76c51a30654be30,
    0xd192e819d6ef5218, 0xd69906245565a910, 0xf40e35855771202a, 0x106aa07032bbd1b8] ++
  [0x19a4c116b8d2d0c8, 0x1e376c085141ab53, 0x2748774cdf8eeb99, 0x34b0bcb5e19b48a8,
    0x391c0cb3c5c95a63, 0x4ed8aa4ae3418acb, 0x5b9cca4f7763e373, 0x682e6ff3d6b2b8a3,
    0x748f82ee5defb2fc, 0x78a5636f43172f60, 0x84c87814a1f0ab72, 0x8cc702081a6439ec,
    0x90befffa23631e28, 0xa4506cebde82bde9, 0xbef9a3f7b2c67915, 0xc67178f2e372532b] ++
  [0xca273eceea26619c, 0xd186b8c721c0c207, 0xeada7dd6cde0eb1e, 0xf57d4f7fee6ed178,
    0x06f067aa72176fba, 0x0a637dc5a2c898a6, 0x113f9804bef90dae, 0x1b710b35131c471b,
    0x28db77f523047d84, 0x32caab7b40c72493, 0x3c9ebe0a15c9bebc, 0x431d67c49c100d4c,
    0x4cc5d4becb3e42b6, 0x597f299cfc657e2a, 0x5fcb6fab3ad6faec, 0x6c44198c4a475817]

/-- The initial hash value of SHA-384. -/
def shaIv : List (BitVec 64) :=
  [0xcbbb9d5dc1059ed8, 0x629a292a367cd507, 0x9159015a3070dd17, 0x152fecd8f70e5939,
    0x67332667ffc00b31, 0x8eb44a8768581511, 0xdb0c2e0d64f98fa7, 0x47b5481dbefa4fa4]

/-- A working state of eight words. -/
structure ShaState where
  a : BitVec 64
  b : BitVec 64
  c : BitVec 64
  d : BitVec 64
  e : BitVec 64
  f : BitVec 64
  g : BitVec 64
  h : BitVec 64
deriving DecidableEq, Repr

/-- The schedule window of sixteen words, the oldest first, extended by one. -/
def shaNext (w : List (BitVec 64)) : BitVec 64 :=
  let x := w.getD 14 0
  let y := w.getD 1 0
  let s1 := x.rotateRight 19 ^^^ x.rotateRight 61 ^^^ (x >>> 6)
  let s0 := y.rotateRight 1 ^^^ y.rotateRight 8 ^^^ (y >>> 7)
  s1 + w.getD 9 0 + s0 + w.getD 0 0

/-- One round with constant k on the state and the window. -/
def shaRound (sw : ShaState × List (BitVec 64)) (k : BitVec 64) : ShaState × List (BitVec 64) :=
  let s := sw.1
  let w := sw.2
  let t1 := s.h + (s.e.rotateRight 14 ^^^ s.e.rotateRight 18 ^^^ s.e.rotateRight 41)
    + ((s.e &&& s.f) ^^^ (~~~s.e &&& s.g)) + k + w.getD 0 0
  let t2 := (s.a.rotateRight 28 ^^^ s.a.rotateRight 34 ^^^ s.a.rotateRight 39)
    + ((s.a &&& s.b) ^^^ (s.a &&& s.c) ^^^ (s.b &&& s.c))
  (⟨t1 + t2, s.a, s.b, s.c, s.d + t1, s.e, s.f, s.g⟩, w.drop 1 ++ [shaNext w])

/-- The sixteen big-endian words of a block. -/
def shaWords (blk : Bytes) : List (BitVec 64) :=
  (List.range 16).map fun i => BitVec.ofNat 64 (beNat (slice blk (8 * i) 8))

/-- One block folded into the hash. -/
def shaBlock (s : ShaState) (blk : Bytes) : ShaState :=
  let r := (shaK.foldl shaRound (s, shaWords blk)).1
  ⟨s.a + r.a, s.b + r.b, s.c + r.c, s.d + r.d, s.e + r.e, s.f + r.f, s.g + r.g, s.h + r.h⟩

/-- A message padded to whole blocks of 128 bytes. -/
def shaPad (m : Bytes) : Bytes :=
  let k := (239 - m.length % 128) % 128
  m ++ [0x80] ++ List.replicate k 0 ++ (leBytes 16 (8 * m.length)).reverse

/-- The first n blocks of 128 bytes. -/
def shaBlocks : Nat → Bytes → List Bytes
  | 0, _ => []
  | n + 1, m => m.take 128 :: shaBlocks n (m.drop 128)

/-- SHA-384 of a run of bytes, as 48 bytes. -/
def sha384 (m : Bytes) : Bytes :=
  let p := shaPad m
  let iv : ShaState := ⟨shaIv.getD 0 0, shaIv.getD 1 0, shaIv.getD 2 0, shaIv.getD 3 0, shaIv.getD 4 0,
    shaIv.getD 5 0, shaIv.getD 6 0, shaIv.getD 7 0⟩
  let s := (shaBlocks (p.length / 128) p).foldl shaBlock iv
  [s.a, s.b, s.c, s.d, s.e, s.f].flatMap fun w => (leBytes 8 w.toNat).reverse

end Sys2Proof.Machine
end

