-- ==== Sys2Proof/Config.lean ====
section
/-!
DEFINITION. What differs from unit to unit, and the values the spec leaves open: constants without a body, so that
nothing can be proved of their value.
-/

namespace Sys2Proof.Config

/-- The hub's 64-bit serial (R261, HIER_SER_LO, HIER_SER_HI). -/
opaque serial : BitVec 64

/-- IDENT_SILICON: major and minor revision, per part. -/
opaque siliconMajor : BitVec 8
opaque siliconMinor : BitVec 8

/-- The part is of the E grade, not of the C grade (R481). -/
opaque gradeE : Bool

/-- The draws of a free value: `random n` is the nth number drawn (nonces of R242 and R424). -/
opaque random : Nat → BitVec 64

/-- The 58 scrambled bits that go before a frame on a port's line: what the scrambler starts from the spec does not give (R228).
`scrambled n k`: port n, with k things sent on the hub's lines before. -/
opaque scrambled : Nat → Nat → BitVec 58

/-- The cause that LINK_DOWN carries when a SELFTEST takes a port out of TIMED: R243 has every exit from TIMED send it and gives no
code for this one. `downCause n`: port n. -/
opaque downCause : Nat → BitVec 8

/-- READ_TIME's field for L minus the doorbell's arrival (R343), when the difference in fu does not fit in its 32 bits. -/
opaque latchOver : Int → BitVec 32

/-- What a crystal's section of the calibration record means (R392 gives its size and not its layout): the nominal
correction C_nom, and C_T at an oven deviation in mK, both in 2^-40 ppt. -/
opaque crystalNom : Bytes → Int
opaque crystalTemp : Bytes → Int → Int

/-- Porelrek's signature check of an image (R383): the first 80 bytes of its header, and r and s. The public key is not
disclosed. -/
opaque signed : Bytes → Bytes → Bool

/-- The bytes of a checkpoint image (R296): what a task's memory holds is its program's, which the spec does not give.
`checkpoint t n i`: byte i of the nth image written by task t. -/
opaque checkpoint : Nat → Nat → Nat → Byte

/-- TOP_BOOT.boot_ms of a BOOT (R456): how long the start-up took, which the spec bounds and does not fix. -/
opaque bootMs : Nat → BitVec 16

/-- Where a journal record lies (R490: its placement is internal): groups of the journal partition, counted within it, that
hold the first copy of the header (part 0), the second copy (part 1) and the new bytes (part 2) of the record with a
sequence number. -/
opaque recordGroups : Nat → Nat → List Nat

end Sys2Proof.Config
end

