-- ==== Sys2Proof/Machine/State.lean ====
section
/-!
DEFINITION. The state of the hub as plain data: every register, FIFO, buffer, counter, mode and pin that the spec names,
grouped by the block that owns it, the queue of waiting commands, and the state after reset.
Each field's docstring ends with its width or kind, the chapter and rule that names it, and its value at reset.
Words in ppt are Q24.16 (R5) held as a count of 2^-16 ppt; a domain's time is counted in 2^-64 rotator steps (R55, R150).
-/

namespace Sys2Proof.Machine

/-! ## Small kinds -/

/-- Hub modes (R33). -/
inductive Mode where
  | off | standby | boot | service | test | recovery | safe | thermalOff
deriving DecidableEq, Repr

/-- Root states (R44). -/
inductive RootState where
  | off | locking | ready | active | faulted
deriving DecidableEq, Repr

/-- Domain states (R10). -/
inductive DomState where
  | nominal | acquire | track | holdover | holdoverOut | manual
deriving DecidableEq, Repr

/-- Reference slot states (R133). -/
inductive SlotState where
  | absent | qualifying | qualified | disqualified
deriving DecidableEq, Repr

/-- Link port states (R242). -/
inductive LinkState where
  | off | down | aligning | syntonised | ranging | timed | ethUp
deriving DecidableEq, Repr

/-- User interval unit states (IVU_STAT.state). -/
inductive IvuState where
  | idle | waitStart | window | rearm
deriving DecidableEq, Repr

/-- Reed states (REED_STAT.state). -/
inductive ReedState where
  | off | free | running | failed | halted | test | loading
deriving DecidableEq, Repr

/-- Task states (R301). -/
inductive TaskState where
  | unplaced | running | moving | restoring | suspended | shed
deriving DecidableEq, Repr

/-- Warden states (TOP_CHARGE.a_state). -/
inductive WardenState where
  | off | booting | shadow | inCharge | held | loader
deriving DecidableEq, Repr

/-- Power states of a half (TOP_HALF). -/
inductive HalfPower where
  | off | on | draining | starting
deriving DecidableEq, Repr

/-- Ring states (R333). -/
inductive RingState where
  | disabled | enabled | draining | error
deriving DecidableEq, Repr

/-- Roles in a management group (R260). -/
inductive Role where
  | unassigned | manager | standby | worker | passive
deriving DecidableEq, Repr

/-- PTP port states of IEEE 1588-2019 (PTP_STAT.state). -/
inductive PtpState where
  | absent | initializing | faulty | disabled | listening | preMaster | master | passive | uncalibrated | slave
deriving DecidableEq, Repr

/-- What a clock output is set to do with its two legs (R198, R199, R216). -/
inductive ClkPin where
  | hiZ | bothLow | low | running
deriving DecidableEq, Repr

/-- What a pulse output's ball does (R205, R216). -/
inductive PlsPin where
  | hiZ | low | high
deriving DecidableEq, Repr

/-- The statuses of a completion (R337). -/
inductive Status where
  | ok | busy | badParam | noResource | domainOff | notInCharge | safeState | timeout | poisoned | denied | aborted
deriving DecidableEq, Repr

/-- The fault kinds (R404). -/
inductive Kind where
  | parity | eccCe | eccUe | lockLost | refLost | timeout | overflow | watchdog | checkword | splitCharge
  | thermalWarn | thermalTrip | supply | linkDown | asymAlarm | lockBroken | poisonRead | holdoverOut | taskFail
  | addrExhausted | oven | queueOverflow | badDescriptor
deriving DecidableEq, Repr

/-- An event-status register: its sticky bits [15:0] and SEQ (R356). -/
structure Evt where
  bits : BitVec 16 := 0
  seq : BitVec 16 := 0
deriving DecidableEq, Repr

/-- A fault message (R402), without the stamp. -/
structure FaultMsg where
  source : BitVec 12
  kind : Kind
  access : BitVec 4
  master : BitVec 8
  address : BitVec 32
deriving DecidableEq, Repr

/-- A fault message with the DOM[0] stamp that the collector adds (R402). -/
structure Stamped where
  msg : FaultMsg
  time : BitVec 64
  epoch : BitVec 16
deriving DecidableEq, Repr

/-- What leaves the hub towards the host: a posted write, or an MSI-X message on a vector. -/
inductive BusOp where
  | write (addr : BitVec 64) (data : Bytes)
  | msix (vector : BitVec 8) (addr : BitVec 64) (data : BitVec 32)
deriving DecidableEq, Repr

/-- What an IEEE 1588 message that leaves a port carries (R278, R280): Announce with the data set, currentUtcOffset and the flags
currentUtcOffsetValid, timeTraceable and frequencyTraceable; the times of event messages and of the general messages that go with
them, in fu; an L1Sync TLV with the port's coherence. -/
inductive PtpSent where
  | announce (d : PtpData) (utc : Int) (utcValid timeTraceable freqTraceable : Bool)
  | sync (t : Int)
  | followUp (t : Int)
  | delayReq
  | delayResp (t : Int)
  | pdelayReq
  | pdelayResp (held : Int)
  | pdelayFollowUp (held : Int)
  | l1sync (rxCoherent : Bool)
deriving DecidableEq, Repr

/-- What leaves the hub on a link port: a Ternen frame after so many IDLE frames, with its blocks (R228, R229), an ESMC PDU (QL,
event flag), or an IEEE 1588 message with its transport and domain number (R284). -/
inductive WireOp where
  | frame (port : Fin 48) (idle : Nat) (data : Bytes) (line : Line)
  | esmc (port : Fin 48) (ql : BitVec 4) (event : Bool)
  | ptp (port : Fin 48) (transport domain : Nat) (msg : PtpSent)
deriving DecidableEq, Repr

/-! ## Supply, enable, temperature and the mode -/

/-- The hub as a whole: mode, pins, start-up, violations and parity. -/
structure Top where
  /-- Hub mode, TOP_MODE.mode. [4 bits; 01 R33, 11 TOP_MODE; reset 0x2 BOOT] -/
  mode : Mode := .boot
  /-- Level of PGOOD. [1 bit; 15 R449; reset 1: hub reset keeps the rails up, DESIGN CHOICE log 1] -/
  pgood : Bool := true
  /-- Level of the EN pin as the hub counts it. [1 bit; 15 R448; reset 1: BOOT needs EN high, DESIGN CHOICE log 1] -/
  en : Bool := true
  /-- PERST# asserted. [1 bit; 10 R325; reset 0, DESIGN CHOICE log 1] -/
  perst : Bool := false
  /-- CHARGE_DEFAULT strap ball. [1 bit; 16 R471; reset 0: internal pull-down] -/
  pinCharge : Bool := false
  /-- AUTOSTART strap ball. [1 bit; 16 R471; reset 0: internal pull-down] -/
  pinAuto : Bool := false
  /-- TOP_STRAP.charge_default, sampled when BOOT begins. [1 bit; 16 R471; reset strap] -/
  strapCharge : Bool := false
  /-- TOP_STRAP.autostart, sampled when BOOT begins. [1 bit; 16 R471; reset strap] -/
  strapAuto : Bool := false
  /-- Steps 2 and 3 of the start-up sequence have run in this BOOT. [1 bit; 15 R456; reset 0, DESIGN CHOICE log 1] -/
  begun : Bool := false
  /-- The Common rails failed to come up and the 100 ms wait runs. [1 bit; 15 R450; reset 0] -/
  railWait : Bool := false
  /-- TOP_BOOT.cause. [4 bits; 15 TOP_BOOT; reset per boot: 0 power-on] -/
  cause : BitVec 4 := 0
  /-- TOP_BOOT.rail_retries. [4 bits, saturating; 15 R450; reset 0 per boot] -/
  railRetries : Nat := 0
  /-- TOP_BOOT.auto_count. [2 bits; 15 R465; reset 0 per boot] -/
  autoCount : Nat := 0
  /-- Milliseconds in SERVICE since the last auto restart, for the 10 minutes of R465. [count; 15 R465; reset 0] -/
  serviceMs : Nat := 0
  /-- TOP_BOOT.boot_ms, 10 µs units. [16 bits, saturating; 15 TOP_BOOT; reset 0 per boot] -/
  bootMs : BitVec 16 := 0
  /-- The hub has entered SERVICE from BOOT with autostart set, and its profile has not been taken up yet. [1 bit; 12 R388; reset 0] -/
  profileDue : Bool := false
  /-- EN was taken low in THERMAL_OFF: the next BOOT is a thermal restart by EN (cause 2). [1 bit; 15 R465; reset 0] -/
  fromThermal : Bool := false
  /-- Milliseconds of the RECOVERY stability timer that have passed. [count; 01 R35; reset 0] -/
  stabMs : Nat := 0
  /-- The master that wrote the first reset key and the root cycle at which it did. [key state; 15 R459; reset none] -/
  resetKey : Option (Master × Nat) := none
  /-- TOP_VIO_CNT0.host. [16 bits, saturating; 11 R355; reset 0] -/
  vioHost : BitVec 16 := 0
  /-- TOP_VIO_CNT0.spi. [16 bits, saturating; 11 R355; reset 0] -/
  vioSpi : BitVec 16 := 0
  /-- TOP_VIO_CNT1.debug. [16 bits, saturating; 11 R355; reset 0] -/
  vioDebug : BitVec 16 := 0
  /-- Quantity 0x01 of HOST: the last violation. [128 bits; 11 R365; reset 0] -/
  vioLastHost : BitVec 128 := 0
  /-- Quantity 0x01 of SPI. [128 bits; 11 R365; reset 0] -/
  vioLastSpi : BitVec 128 := 0
  /-- Quantity 0x01 of DEBUG. [128 bits; 11 R365; reset 0] -/
  vioLastDebug : BitVec 128 := 0
  /-- TOP_PAR.count. [8 bits, saturating; 11 R359; reset 0] -/
  parCount : BitVec 8 := 0
  /-- TOP_PAR.offset. [24 bits; 11 R359; reset 0] -/
  parOffset : BitVec 24 := 0
  /-- BAR 0 offsets of registers whose parity bit is wrong and reported. [set of offsets; 11 R359; reset empty] -/
  parBad : List Nat := []
deriving DecidableEq, Repr

/-- The supply and thermal block. -/
structure Pwr where
  /-- VIN, TOP_SUPPLY.vin. [16 bits, mV; 15 TOP_SUPPLY; reset 0] -/
  vin : Nat := 0
  /-- PFAIL asserted. [1 bit; 15 R451; reset 0] -/
  pfail : Bool := false
  /-- VIN above 41.0 V. [1 bit; 15 R447; reset 0] -/
  ov : Bool := false
  /-- Converter phase of Half A in regulation. [1 bit; 15 TOP_SUPPLY; reset 1] -/
  phaseA : Bool := true
  /-- Converter phase of Half B in regulation. [1 bit; 15 TOP_SUPPLY; reset 1] -/
  phaseB : Bool := true
  /-- Junction sensors TEMP[0] to TEMP[7], 1/16 °C. [16 bits each, signed; 15 TOP_TEMP; reset 0] -/
  temps : Vector Int 8 := Vector.replicate 8 0
  /-- A thermal warning stands, TOP_THERM.warn. [1 bit; 15 R462; reset 0] -/
  warn : Bool := false
  /-- TOP_THERM_CTL.therm_auto. [1 bit; 15 R458; reset 0 at power-on, kept otherwise] -/
  thermAuto : Bool := false
  /-- TOP_THERM_CTL.irq_en. [16 bits; 15 TOP_THERM_CTL; reset 0] -/
  irqEn : BitVec 16 := 0
  /-- TOP_PWR_EVT. [event bits 7, SEQ 16; 15 TOP_PWR_EVT; reset 0] -/
  evt : Evt := {}
  /-- Lowest VIN since the last BOOT, mV. [16 bits; 15 R467; reset 0, DESIGN CHOICE log 1] -/
  vinLow : Nat := 0
  /-- Highest VIN since the last BOOT, mV. [16 bits; 15 R467; reset 0, DESIGN CHOICE log 1] -/
  vinHigh : Nat := 0
  /-- DOM[0] short time of the last PFAIL. [64 bits; 15 R467; reset 0] -/
  pfailTime : BitVec 64 := 0
deriving DecidableEq, Repr

/-! ## Roots, oven, tick grid and delay-locked lines -/

/-- The oven, the roots, their relation, the correction and the tick grid. -/
structure Clk where
  /-- State of ROOT_A. [3 bits; 02 R44; reset 0 OFF] -/
  aState : RootState := .off
  /-- State of ROOT_B. [3 bits; 02 R44; reset 0 OFF] -/
  bState : RootState := .off
  /-- CLK_ROOT_STATE.active: 0 ROOT_A, 1 ROOT_B. [1 bit; 02 R45; reset 0] -/
  activeB : Bool := false
  /-- The root synthesiser of ROOT_A, of ROOT_B, is locked. [2 bits; 02 R45; reset 0] -/
  aLocked : Bool := false
  bLocked : Bool := false
  /-- CLK_ROOT_STATE.last_cause. [3 bits; 02 R46; reset 0] -/
  lastCause : BitVec 3 := 0
  /-- CLK_ROOT_STATE.boot_clk. [1 bit; 02 R24; reset 1] -/
  bootClk : Bool := true
  /-- CLK_ROOT_STATE.relation_valid. [1 bit; 02 R43; reset 0] -/
  relValid : Bool := false
  /-- Relation phase φX, 2^-8 fu. [32 bits; 02 R70; reset 0] -/
  relPhase : Nat := 0
  /-- Relation frequency yX, 2^-16 ppt. [64 bits, signed; 02 R70; reset 0] -/
  relFreq : Int := 0
  /-- CLK_ROOT_EVT. [event bits 10, SEQ 16; 02 CLK_ROOT_EVT; reset 0] -/
  rootEvt : Evt := {}
  /-- A jump on ROOT_X waits for its attribution: the domains hold DOM_FOFS. [1 bit; 02 R47; reset 0] -/
  jumpHeld : Bool := false
  /-- The step of the relation frequency at the jump, 2^-16 ppt. [signed; 02 R47; reset 0] -/
  jumpStep : Int := 0
  /-- Slots qualified at the moment of the jump. [12 bits; 02 R47; reset 0] -/
  jumpSlots : BitVec 12 := 0
  /-- Offset y of each slot at the jump, 2^-16 ppt. [12 signed words; 02 R47; reset 0] -/
  jumpY : Vector Int 12 := Vector.replicate 12 0
  /-- τ0 intervals of each slot's history at the jump. [12 counts; 02 R47; reset 0] -/
  jumpK : Vector Nat 12 := Vector.replicate 12 0
  /-- Tick at which the jump was seen. [ms count; 02 R47; reset 0] -/
  jumpMs : Nat := 0
  /-- Oven in band, CLK_OVEN.in_band. [1 bit; 02 R41; reset 0] -/
  inBand : Bool := false
  /-- TB_WARM. [1 bit; 02 R41; reset 0] -/
  warm : Bool := false
  /-- TB_WARM has been 1 since power-up. [1 bit; 02 R51, R53; reset 0] -/
  everWarm : Bool := false
  /-- Heater limited to 4 W, CLK_OVEN.limited. [1 bit; 02 R42; reset 0] -/
  limited : Bool := false
  /-- CLK_OVEN.heater, 10 mW. [12 bits; 02 R42; reset 0] -/
  heater : Nat := 0
  /-- CLK_OVEN.dev, mK. [16 bits, signed, saturating; 02 R42; reset 0] -/
  dev : Int := 0
  /-- The oven sensor reading less the setpoint, mK, as R51 uses it, unsaturated. [signed; 02 R51; reset 0] -/
  oven : Int := 0
  /-- CLK_OVEN_TIME.secs: seconds in band. [32 bits, saturating; 02 CLK_OVEN_TIME; reset 0] -/
  bandSecs : Nat := 0
  /-- CLK_ROT_SAT. [event bits 16, SEQ 16; 02 R54; reset 0] -/
  rotSat : Evt := {}
  /-- CLK_LADDER.locked. [8 bits; 02 R60; reset 0] -/
  ladders : BitVec 8 := 0
  /-- Root cycle at which each ladder last locked, for the 1 ms of R60. [8 counts; 02 R60; reset 0] -/
  ladderAt : Vector Nat 8 := Vector.replicate 8 0
  /-- Root cycles since the coarse counters were cleared; the coarse counters of R72 are this modulo 2^48.
      [48 bits and wraps; 03 R72; reset 0] -/
  cycles : Nat := 0
  /-- Root cycles since the last 1 ms tick. [0 to 1,500,000; 01 R491; reset 0] -/
  pos : Nat := 0
  /-- 1 ms ticks of the grid. [count; 01 R491; reset 0] -/
  ms : Nat := 0
  /-- The 1 s tick that goes with the last 1 ms tick has not been taken yet. [1 bit; 01 R491; reset 0] -/
  secDue : Bool := false
  /-- Correction C of the active root, 2^-40 ppt. [signed; 02 R51, 12 R397; reset 0] -/
  corr : Int := 0
  /-- Target of C, 2^-40 ppt. [signed; 12 R396, R397; reset 0] -/
  corrTarget : Int := 0
  /-- After a changeover: what C_new differs by from the new crystal's own C_nom + C_T, 2^-40 ppt. [signed; 02 R49; reset 0] -/
  corrInherit : Int := 0
  /-- The nominal time scale: the time of a domain with DOM_FOFS and S zero, 2^-64 step. [count; 04 R125; reset 0] -/
  nomTime : Int := 0
deriving DecidableEq, Repr

/-- One output deskew DLL (CLK_DLL_STAT[n]). -/
structure Dll where
  /-- [1 bit; 02 R63; reset 0] -/
  locked : Bool := false
  /-- [1 bit; 02 R64; reset 0] -/
  frozen : Bool := false
  /-- The SNS pair through which it senses; the pad without one. [5 bits; 02 R62, R68; reset none] -/
  sense : Option (Fin 16) := none
  /-- Last error, fu. [16 bits, signed, saturating; 02 CLK_DLL_STAT; reset 0] -/
  err : Int := 0
  /-- Control value, 10^-5 of a step of 0.3255 ps, from 0 to 4,095 steps. [12 bits of whole steps; 02 R67; reset 0] -/
  pos : Nat := 0
  /-- Delay change limited to 10 ps/s until lock. [1 bit; 02 R66; reset 0] -/
  slow : Bool := false
deriving DecidableEq, Repr

/-! ## Descriptors, rings and the endpoint -/

/-- A descriptor in progress (R342): fetched, its completion not yet written. -/
structure Desc where
  /-- Order of fetch, the name under which blocks remember a descriptor that completes later. -/
  id : Nat
  origin : Origin
  opcode : Byte
  irq : Bool
  fence : Bool
  index : BitVec 16
  tag : BitVec 16
  payload : Payload
  /-- Root cycle at which the doorbell that announced it arrived (R343, R435). -/
  bell : Nat
  /-- It has been applied and waits for its completion (R309, R340). -/
  applied : Bool
  /-- A warden that took charge found it begun (R335 replayed). -/
  replayed : Bool
  /-- Its ring was reset under it: the completion is discarded (R325). -/
  discard : Bool
deriving DecidableEq, Repr

/-- One host ring: command, completion, telemetry or stream (R326, R327, R332). -/
structure Ring where
  /-- [52 bits of a 4 KiB-aligned address; 10 R327, 11 BASE_LO/HI; reset 0] -/
  baseLo : Reg := 0
  baseHi : Reg := 0
  /-- CTL.k. [4 bits; 11 ring CTL; reset 6] -/
  k : BitVec 4 := 6
  /-- CTL.fast. [1 bit; 10 R343; reset 0] -/
  fast : Bool := false
  /-- CTL.cq. [4 bits; 10 R332; reset 0] -/
  cq : BitVec 4 := 0
  /-- CTL.coal_cnt. [8 bits; 10 R351; reset 1] -/
  coalCnt : BitVec 8 := 1
  /-- COAL.coal_us. [10 bits; 10 R351; reset 0] -/
  coalUs : BitVec 10 := 0
  /-- STAT.state. [2 bits; 10 R333; reset DISABLED] -/
  state : RingState := .disabled
  /-- Producer index P. [16 bits; 10 R327; reset 0] -/
  prod : BitVec 16 := 0
  /-- Consumer index C. [16 bits; 10 R327; reset 0] -/
  cons : BitVec 16 := 0
  /-- Entries written since the last interrupt of the ring. [count; 10 R347; reset 0] -/
  unsignalled : Nat := 0
  /-- Root cycle of the first of them. [count; 10 R347; reset 0] -/
  unsigAt : Nat := 0
  /-- Accepted doorbells that announce descriptors not yet fetched, oldest first: P and the root cycle of arrival.
      [list; 10 R343, R489; reset empty] -/
  bells : List (BitVec 16 × Nat) := []
  /-- Telemetry: entries offered. [16 bits; 10 R345; reset 0] -/
  offered : BitVec 16 := 0
  /-- Telemetry: entries dropped since the last entry written. [16 bits, saturating; 10 R345; reset 0] -/
  lost : BitVec 16 := 0
deriving DecidableEq, Repr

/-- One entry of the MSI-X table with its pending bit (R324, R348). -/
structure Msix where
  addr : BitVec 64 := 0
  data : BitVec 32 := 0
  masked : Bool := true
  pend : Bool := false
deriving DecidableEq, Repr

/-- The PCIe endpoint, the rings, the routing table and the descriptors in progress. -/
structure HostIf where
  /-- The endpoint is ready. [1 bit; 10 R323, 15 R457; reset 0: absent until ready, R460] -/
  ready : Bool := false
  /-- HOST_IDX_LO and HOST_IDX_HI. [64 bits; 11 HOST_IDX; reset 0] -/
  idxLo : Reg := 0
  idxHi : Reg := 0
  /-- HOST_DUMP_LO, HOST_DUMP_HI and HOST_DUMP_SIZE. [32, 32, 16 bits; 11 HOST_DUMP; reset 0] -/
  dumpLo : Reg := 0
  dumpHi : Reg := 0
  dumpSize : BitVec 16 := 0
  /-- Command rings. [16 rings; 10 R326; reset DISABLED] -/
  cmd : Vector Ring 16 := Vector.replicate 16 {}
  /-- Completion rings. [16 rings; 10 R326; reset DISABLED] -/
  cpl : Vector Ring 16 := Vector.replicate 16 {}
  /-- Telemetry rings. [4 rings; 10 R326; reset DISABLED] -/
  tel : Vector Ring 4 := Vector.replicate 4 {}
  /-- Stream rings. [64 rings; 10 R326; reset DISABLED] -/
  str : Vector Ring 64 := Vector.replicate 64 {}
  /-- HOST_ROUTE[s].vector. [8 bits each; 11 HOST_ROUTE; reset 0xFF] -/
  vector : Vector (BitVec 8) 167 := Vector.replicate 167 0xFF
  /-- HOST_ROUTE[s].spi. [1 bit each; 11 HOST_ROUTE; reset 0] -/
  spi : Vector Bool 167 := Vector.replicate 167 false
  /-- MSI-X table and pending bits. [128 entries; 10 R324; reset masked, PRESUMED (PCI Express) log 13] -/
  msix : Vector Msix 128 := Vector.replicate 128 {}
  /-- Descriptors in progress, oldest first. [at most 256; 10 R342; reset empty] -/
  inflight : List Desc := []
  /-- Completions due while no warden is in charge, oldest first: descriptor, status, result. [list; 06 R216, 09 R309; reset empty] -/
  held : List (Nat × Status × BitVec 192) := []
  /-- Command ring from which on the warden in charge looks for work next. [4 bits; 10 R340; reset 0, DESIGN CHOICE log 1] -/
  turn : Fin 16 := 0
  /-- Number the next fetched descriptor takes. [count; model's own; reset 0] -/
  nextId : Nat := 0
  /-- Latency of the last completion of each command ring, ns, and of the last OK completion. [2 x 16; 14 R435; reset 0] -/
  hostLat : Vector Nat 16 := Vector.replicate 16 0
  effLat : Vector Nat 16 := Vector.replicate 16 0
  /-- Completions written for each command ring, and those with OK: the events of HOST_LAT and EFFECT_LAT.
      [2 x 16 counts; 14 R435; reset 0] -/
  hostN : Vector Nat 16 := Vector.replicate 16 0
  effN : Vector Nat 16 := Vector.replicate 16 0
deriving DecidableEq, Repr

/-- One mailbox (R361). -/
structure Mbx where
  /-- MBX_SEL.code and MBX_SEL.instance. [8 and 12 bits; 11 MBX_SEL; reset 0] -/
  code : BitVec 8 := 0
  inst : BitVec 12 := 0
  /-- MBX_CTL.valid and err. [1 bit each; 11 MBX_CTL; reset 0] -/
  valid : Bool := false
  err : Bool := false
  /-- The snapshot. [128 bits; 11 MBX_DATA; reset 0] -/
  data : BitVec 128 := 0
  /-- The request in progress: code and instance as they stood at req. [pending request; 11 R362; reset none] -/
  req : Option (BitVec 8 × BitVec 12) := none
deriving DecidableEq, Repr

/-- The SPI management port (R366 to R368). -/
structure Spi where
  /-- Status of the previous transaction. [8 bits; 11 R367; reset 0] -/
  status : Byte := 0
  /-- MISO of the last transaction: status word, its CRC, data word, its CRC. [80 bits; 11 R367; reset 0] -/
  miso : BitVec 80 := 0
deriving DecidableEq, Repr

/-! ## Event channels and interval units -/

/-- One event channel (R83 to R90). -/
structure EvtCh where
  /-- Read-back copy of EVENT_CONFIG. [16 bytes used; 03 R104, R112; reset per R104] -/
  cfg : Payload := 0
  /-- EVT_STAT.enabled. [1 bit; 03 EVT_STAT; reset 0] -/
  enabled : Bool := false
  /-- Edges ignored: the 2 µs of R82 run. [1 bit; 03 R82; reset 0] -/
  blank : Bool := false
  /-- Root cycle of the change that blanks the input. [count; 03 R82; reset 0] -/
  blankAt : Nat := 0
  /-- Descriptors that wait for the blanking to end, for the capture to stop. [descriptor ids; 03 R82, R106; reset none] -/
  blankDesc : List Nat := []
  stopDesc : List Nat := []
  /-- Edges in the capture buffer, EVT_STAT.cap_depth, and the root cycle up to which it has drained.
      [6 bits and a count; 03 R83; reset 0] -/
  cap : Nat := 0
  capAt : Nat := 0
  /-- The last accepted edge, root time in 2^-24 root periods, for the dead time. [count; 03 R81; reset none] -/
  lastEdge : Option Int := none
  /-- The record whose width is being measured, without its width. [128 bits; 03 R90; reset none] -/
  open_ : Option (BitVec 128) := none
  /-- The queue, oldest record first. [at most 4,096 records; 03 R84; reset empty] -/
  queue : List (BitVec 128) := []
  /-- Records lost since the last record that entered the queue. [16 bits, saturating; 03 R85; reset 0] -/
  lostRun : Nat := 0
  /-- EVT_OVF_CNT, EVT_BURST_CNT, EVT_DEAD_CNT. [32 bits each, saturating; 03 R84, R83, R81; reset 0] -/
  ovfCnt : Nat := 0
  burstCnt : Nat := 0
  deadCnt : Nat := 0
  /-- EVT_EDGES. [32 bits; 03 EVT_EDGES; reset 0] -/
  edges : BitVec 32 := 0
  /-- EVT_SEQ.next. [16 bits; 03 R85; reset 0] -/
  seq : BitVec 16 := 0
  /-- EVT_EVT. [event bits 4, SEQ 16; 03 EVT_EVT; reset 0] -/
  evt : Evt := {}
  /-- EVT_STAT.ring_full. [1 bit; 03 R87; reset 0] -/
  ringFull : Bool := false
  /-- Causeway lane that carries the input. [3 bits; 03 EVT_LANE; reset none] -/
  cw : Option (Fin 6) := none
deriving DecidableEq, Repr

/-- One user interval unit (R92 to R97). -/
structure Ivu where
  /-- Read-back copy of INTERVAL_START. [32 bytes used; 03 R107, R112; reset unit number] -/
  cfg : Payload := 0
  /-- IVU_STAT.state. [3 bits; 03 IVU_STAT; reset IDLE] -/
  state : IvuState := .idle
  /-- IVU_STAT.done. [16 bits; 03 IVU_STAT; reset 0] -/
  done : BitVec 16 := 0
  /-- IVU_EVT. [event bits 3, SEQ 16; 03 IVU_EVT; reset 0] -/
  evt : Evt := {}
  /-- Descriptor of the run. [descriptor id; 03 R97; reset none] -/
  desc : Option Nat := none
  /-- Root cycle at which the unit armed for its next start edge. [count; 03 R94; reset 0] -/
  armAt : Nat := 0
  /-- Start stamp in fu of the run's domain. [signed; 03 R93; reset 0] -/
  start : Int := 0
  /-- Early count of the measurement. [16 bits, saturating; 03 R94; reset 0] -/
  early : Nat := 0
  /-- Flags of the last measurement and their OR over the run. [6 bits each; 03 R111; reset 0] -/
  flags : BitVec 16 := 0
  flagsAll : BitVec 16 := 0
  /-- Last interval, fu, and the early count and flags of that measurement. [64, 16, 16 bits; 03 R113; reset 0] -/
  last : Int := 0
  lastEarly : Nat := 0
  lastFlags : BitVec 16 := 0
  /-- Exact sums of the run: sum and sum of squares, least and largest valid result. [signed; 03 R95; reset 0] -/
  sum : Int := 0
  sumSq : Int := 0
  least : Int := 0
  most : Int := 0
  /-- Measurements without and with timeout. [16 bits each; 03 R110; reset 0] -/
  valid : Nat := 0
  timeouts : Nat := 0
  /-- A completion that fell due with no warden in charge. [status and result; 03 R102; reset none] -/
  held : Option (Status × BitVec 192) := none
deriving DecidableEq, Repr

/-- One Causeway lane (TDC_CW[k]). -/
structure Causeway where
  busy : Bool := false
  phase : BitVec 3 := 0
  target : BitVec 8 := 0
deriving DecidableEq, Repr

/-- A lane under SELFTEST (R98): its Causeway lane (none for a test of step 4 only), the step of R98 it is in (6: it has ended),
the root cycle at which that began, the pairs of stamps compared with those that differ and the last one, whether the Causeway
lane carried the input before, whether a comparison failed, and whether the verification has ended, at which seconds of DOM[0]. -/
structure LaneTest where
  lane : Fin 192
  cw : Option (Fin 6)
  step : Nat
  since : Nat
  pairs : Nat := 0
  bad : Nat := 0
  last : Option Int := none
  again : Bool := false
  mismatch : Bool := false
  verified : Bool := false
  secs : BitVec 32 := 0
deriving DecidableEq, Repr

/-- The common part of the time-interval measurement. -/
structure Tdc where
  /-- TDC_CW[0] to TDC_CW[5]. [6 registers; 03 R98; reset 0] -/
  cw : Vector Causeway 6 := Vector.replicate 6 {}
  /-- The lanes under SELFTEST. [at most 6; 03 R98; reset empty] -/
  tests : List LaneTest := []
  /-- The last edge that each lane took, root time in 2^-24 root periods, for the dead time. [192 counts; 03 R81, R92; reset none] -/
  lastEdge : Vector (Option Int) 192 := Vector.replicate 192 none
  /-- Channel from which the DMA engine looks next, in rotation. [6 bits; 03 R86; reset 0] -/
  turn : Fin 64 := 0
  /-- TDC_TEMP[c]: temperature applied, extrap, clamped. [4 registers; 03 R75; reset 0] -/
  temp : Vector Int 4 := Vector.replicate 4 0
  extrap : BitVec 4 := 0
  clamped : BitVec 4 := 0
  /-- TDC_EVT. [event bits 4, SEQ 16; 03 TDC_EVT; reset 0] -/
  evt : Evt := {}
  /-- TDC_AGG.records, and the records written in the present second. [32 bits, saturating; 03 TDC_AGG; reset 0] -/
  agg : Nat := 0
  aggNow : Nat := 0
  /-- Records pushed into the queues since the last 1 ms tick. [count; 03 R86; reset 0] -/
  pushed : Nat := 0
  /-- Quantity 0x32 of each lane. [192 x 128 bits; 03 R113; reset 0] -/
  verify : Vector (BitVec 128) 192 := Vector.replicate 192 0
deriving DecidableEq, Repr

/-! ## References -/

/-- A rung of the Allan estimate (R137). -/
structure Rung where
  /-- Differences taken. -/
  n : Nat := 0
  /-- The mean of d², in fu² times 2^32. -/
  mean : Nat := 0
deriving DecidableEq, Repr

/-- One reference slot (R114 to R134). -/
structure RefSlot where
  /-- Read-back copy of REF_CONFIG. [48 bytes; 04 R142, R147; reset per R142] -/
  cfg : Payload := 0
  /-- The limits, qual_time, requal_wait and irq_en in force: REF_CONFIG as taken up at the last sample, and the descriptors that
      wait for the next. [48 bytes and a list; 04 R144; reset per R142, empty] -/
  set_ : Payload := 0
  setDesc : List Nat := []
  /-- REF_STAT.state. [3 bits; 04 R133; reset ABSENT] -/
  state : SlotState := .absent
  /-- REF_STAT.cause. [4 bits; 04 REF_STAT; reset 0] -/
  cause : BitVec 4 := 0
  /-- REF_STAT.tod_valid. [1 bit; 04 R130; reset 0] -/
  todValid : Bool := false
  /-- REF_STAT.depth. [1 bit; 04 R120; reset 0] -/
  depth : Bool := false
  /-- REF_STAT.leap_pending. [1 bit; 04 R122; reset 0] -/
  leapPending : Bool := false
  /-- REF_STAT.timer: seconds left, and the milliseconds counted towards the next. [16 bits; 04 R133; reset 0] -/
  timer : Nat := 0
  timerMs : Nat := 0
  /-- REF_EVT. [event bits 10, SEQ 16; 04 REF_EVT; reset 0] -/
  evt : Evt := {}
  /-- REF_USERS. [16 bits; 04 R132; reset 0] -/
  users : BitVec 16 := 0
  /-- REF_TAI.offset. [8 bits, signed; 04 REF_TAI; reset 37] -/
  tai : Int := 37
  /-- REF_CNT_MISS, EXTRA, JUMP, TOD, WIDTH. [32 bits each, saturating; 04 REF_CNT; reset 0] -/
  cntMiss : Nat := 0
  cntExtra : Nat := 0
  cntJump : Nat := 0
  cntTod : Nat := 0
  cntWidth : Nat := 0
  /-- REF_CNT_MTIE. [3 x 10 bits, saturating; 04 REF_CNT_MTIE; reset 0] -/
  mtie1 : Nat := 0
  mtie10 : Nat := 0
  mtie100 : Nat := 0
  /-- Edges ignored: the 2 µs of R82 run. [1 bit; 03 R82; reset 0] -/
  blank : Bool := false
  /-- Root cycle of the change that blanks it. [count; 03 R82; reset 0] -/
  blankAt : Nat := 0
  blankDesc : List Nat := []
  /-- A blanking or a restore fell in the present τ0 interval: it gives no sample. [1 bit; 04 R125; reset 0] -/
  voided : Bool := false
  /-- Samples x_k of the history, newest first, none where a τ0 interval gave none, in fu, each with whether it was passed
      on or withheld. [history; 04 R125, R127; reset empty] -/
  hist : List (Option (Int × Bool)) := []
  /-- The z_k formed with each sample, newest first. [history; 04 R128; reset empty] -/
  zs : List (Option Int) := []
  /-- τ0 intervals since the history began. [count; 04 R127, R128; reset 0] -/
  k : Nat := 0
  /-- Frequency offset y, 2^-16 ppt. [signed; 04 R127; reset 0] -/
  y : Int := 0
  /-- Peak M(1), M(10), M(100) and largest |x - x̂|, fu. [32 bits each, saturating; 04 R148; reset 0] -/
  peak1 : Nat := 0
  peak10 : Nat := 0
  peak100 : Nat := 0
  peakJump : Nat := 0
  /-- Allan rungs j = 0 to 24. [25 rungs; 04 R137; reset 0] -/
  rungs : Vector Rung 25 := Vector.replicate 25 {}
  /-- FREQ: nominal-time stamp of the last edge, and reference periods counted since the first.
      [fu and count; 04 R125; reset none, 0] -/
  lastU : Option Int := none
  periods : Int := 0
  /-- Pulse formats: the valid on-time edges of the present τ0 interval, newest first: nominal fu, and the multiple of the
      period nearest its prediction; and the label of the edge. [list and label; 04 R125, R492; reset empty] -/
  pulses : List (Int × Int) := []
  named : Option (Int × Bool) := none
  /-- τ0 intervals that have ended and whose samples are not formed yet, oldest first. [list; 04 R492; reset empty] -/
  closed : List (List (Int × Int) × Option (Int × Bool)) := []
  /-- LINK: the sample that the LINK task delivered, with its instant. [fu pair; 04 R120; reset none] -/
  due : Option (Int × Int) := none
  /-- Last pulse used, nominal fu, and the whole periods from it to the next predicted pulse. [signed, count; 04 R117; reset none] -/
  lastPulse : Option Int := none
  ahead : Option Nat := none
  /-- Last valid on-time edge, used or extra, nominal fu, for the pulse timer. [signed; 04 R131; reset none] -/
  lastOn : Option Int := none
  /-- Nominal fu of the present 10 s windows' invalid and extra pulses, and whether three have fallen into some 10 s since the last
      sample. [lists and 2 bits; 04 R127; reset empty, 0] -/
  badPulses : List Int := []
  extraPulses : List Int := []
  badTrip : Bool := false
  extraTrip : Bool := false
  /-- The label of the next on-time edge: seconds of its calendar date and time, and whether it reads second 60; and the last
      label in TAI seconds. [seconds; 04 R118, R121, R122; reset none] -/
  label : Option (Int × Bool) := none
  lastLabel : Option Int := none
  /-- Consecutive consistent and inconsistent labels, and edges without a label. [counts; 04 R127, R130; reset 0] -/
  goodLabels : Nat := 0
  badLabels : Nat := 0
  noLabel : Nat := 0
  /-- Quantity 0x43: TAI seconds of the last valid label and the short time of its edge. [48 and 64 bits; 04 R148; reset 0] -/
  labelSecs : Nat := 0
  labelTime : BitVec 64 := 0
  /-- Samples passed to the domains since the last 1 s tick: their sum, the sum of their instants, their number.
      [fu sums and count; 05 R155; reset 0] -/
  sumX : Int := 0
  sumT : Int := 0
  sumN : Nat := 0
  /-- A sample was passed to the domains and has not been used yet, with its sample instant (nominal fu).
      [fu pair; 04 R492, 05 R154; reset none] -/
  fresh : Option (Int × Int) := none
  /-- Causeway lane that carries the input. [3 bits; 04 REF_STAT.cw; reset none] -/
  cw : Option (Fin 6) := none
  /-- Change of REF_DELAY that waits for the next τ0 boundary, and the delay in force, fu. [48 bits, signed; 04 R124; reset 0] -/
  delay : Int := 0
  /-- REF_CONFIG descriptors that wait for that boundary. [descriptor ids; 04 R124, R144; reset empty] -/
  delayDesc : List Nat := []
  /-- Edges seen since ABSENT for the FREQ presence test. [count; 04 R133; reset 0] -/
  seen : Nat := 0
  /-- Tick count of the last τ0 interval on the grid that was taken. [count; 04 R492; reset none] -/
  sampledAt : Option Nat := none
deriving DecidableEq, Repr

/-! ## Domains -/

/-- A change of a domain's settings that waits for its next update (R180, R183), or a DOMAIN_STEER that waits for the end of a held
root jump (R47). -/
inductive DomOp where
  | config (desc : Nat) (p : Payload)
  | mode (desc : Nat) (p : Payload)
  | steer (desc : Nat) (p : Payload)
deriving DecidableEq, Repr

/-- What the first error after a change of what a domain follows is used for (R162, R166, R169): nothing pending; entry
to ACQUIRE; a change of slot, membership or weights; the exit from SAFE. -/
inductive Settle where
  | none | enter | switch | resume
deriving DecidableEq, Repr

/-- A corner of the difference between a domain's time and the nominal time scale: the nominal time, the difference there, both in
2^-64 step, and the rates of the rotator and of the nominal time from there on. -/
structure Corner where
  nom : Int
  lead : Int
  rate : Int × Int
deriving DecidableEq, Repr

/-- One timing domain (R149 to R190), with its rotator (R55). -/
structure Dom where
  /-- Read-back copy of DOMAIN_CONFIG. [48 bytes; 05 R178, R189; reset per R178] -/
  cfg : Payload := 0
  /-- Settings in force: DOMAIN_CONFIG as applied at the last update. [48 bytes; 05 R180; reset per R178] -/
  set_ : Payload := 0
  /-- DOM_STATE.policy: 0 SELECT, 1 ENSEMBLE, 2 MANUAL. [2 bits; 05 DOM_STATE; reset 0] -/
  policy : BitVec 2 := 0
  /-- DOM_STATE.state. [3 bits; 05 R168; reset NOMINAL] -/
  state : DomState := .nominal
  /-- Seconds of the domain's time at its last whole-second mark. [48 bits; 05 R150; reset 0] -/
  secs : Nat := 0
  /-- Time since that mark, 2^-64 rotator step. [signed count; 05 R150; reset 0] -/
  sub : Int := 0
  /-- The three copies of the rotator accumulator. [112 bits each; 01 R19, 02 R55; reset 0] -/
  accA : BitVec 112 := 0
  accB : BitVec 112 := 0
  accC : BitVec 112 := 0
  /-- Copies that disagreed have been corrected and are not reported yet: bit 0 by a majority, bit 1 without one.
      [2 bits; 01 R19, 02 R58; reset 0] -/
  voted : BitVec 2 := 0
  /-- DOM_FOFS, 2^-16 ppt. [Q24.16; 05 R149; reset 0] -/
  fofs : Int := 0
  /-- S, 2^-16 ppt. [Q24.16; 05 R163; reset 0] -/
  slope : Int := 0
  /-- rho, 10^-6 fu. [signed; 05 R163; reset 0] -/
  rho : Int := 0
  /-- Integrator i, 2^-16 ppt. [Q24.16; 05 R156; reset 0] -/
  integ : Int := 0
  /-- Residual ep of the last update, 10^-6 fu. [signed; 05 R156; reset 0] -/
  ep : Int := 0
  /-- POFS, fu. [signed; 05 R173; reset 0] -/
  pofs : Int := 0
  /-- Value to which DOM_FOFS is ramped at rmax. [Q24.16; 05 R165, R168; reset none] -/
  ramp : Option Int := none
  /-- The rotator stands at its limit; OVERFLOW was sent for this entry. [1 bit each; 02 R54; reset 0] -/
  limited : Bool := false
  limitSent : Bool := false
  /-- DOM_STATE flags. [1 bit each; 05 DOM_STATE; reset 0, tod_unset 1] -/
  untrusted : Bool := false
  stepped : Bool := false
  todUnset : Bool := true
  aligned : Bool := false
  bwLimited : Bool := false
  intClamp : Bool := false
  /-- What the next error against the followed slots settles. [4 kinds; 05 R162, R166, R169; reset none] -/
  settle : Settle := .none
  /-- The rotator does not act on STEER packets after a loss (R132). [1 bit; 04 R132; reset 0] -/
  lossFreeze : Bool := false
  /-- Slots excluded by a TOD mismatch; DOM_STATE.tod_mismatch is that any is. [12 bits; 05 R166; reset 0] -/
  excluded : BitVec 12 := 0
  /-- DOM_STATE.selected and DOM_MEMBERS.slots. [4 and 12 bits; 05 DOM_STATE, DOM_MEMBERS; reset 0xF, 0] -/
  selected : BitVec 4 := 0xF
  members : BitVec 12 := 0
  /-- Revertive hold-offs: the slots they wait for with the seconds left, DOM_MEMBERS.holdoff the least of these; and the slots whose
      hold-off has ended. [12 x 16 bits, 12 bits; 05 R159; reset empty] -/
  holds : List (Fin 12 × Nat) := []
  holdDue : List (Fin 12) := []
  /-- What the domain followed before the change that the next error settles, with the weights, 2^-16.
      [12 x 17 bits; 05 R162; reset empty] -/
  old : List (Fin 12 × Nat) := []
  /-- The Sluice's run ended in the last update. [1 bit; 05 R163; reset 0] -/
  sluiceEnd : Bool := false
  /-- Corners of the domain's time against the nominal time scale in the last 2 s, newest first. [list; 05 R154; reset empty] -/
  leads : List Corner := []
  /-- DOM_EVT. [event bits 13, SEQ 16; 05 DOM_EVT; reset 0] -/
  evt : Evt := {}
  /-- High half of DOM_FOFS latched by a read of LO. [32 bits; 05 DOM_FOFS_HI; reset 0] -/
  hiLatch : Reg := 0
  /-- Holdover timer, seconds. [32 bits; 05 R171; reset 0] -/
  hoTimer : Nat := 0
  /-- Tracked-time counter, seconds. [32 bits, saturating; 05 R167; reset 0] -/
  tracked : Nat := 0
  /-- ACQUIRE was entered from TRACK. [1 bit; 05 R167; reset 0] -/
  acqFromTrack : Bool := false
  /-- Milliseconds for which the error has stayed within lock_phase. [count; 05 R168; reset 0] -/
  lockMs : Nat := 0
  /-- Sum and number of DOM_FOFS values of the present second. [count; 05 R170; reset 0] -/
  secSum : Int := 0
  secN : Nat := 0
  /-- Per-second means of DOM_FOFS over tracked time, newest first, 2^-16 ppt. [history; 05 R170; reset empty] -/
  secMeans : List Int := []
  /-- 64 s block means over tracked time, newest first, and the present block. [history; 05 R170; reset empty] -/
  blocks : List Int := []
  blkSum : Int := 0
  blkN : Nat := 0
  /-- Holdover model: y0, a_fit and a_ap (2^-16 ppt per 10^6 s), T_j0 (1/128 °C), ms from entry, TE0 (10^-6 fu).
      [model; 05 R170, R171; reset 0] -/
  y0 : Int := 0
  aFit : Int := 0
  aAp : Int := 0
  tj0 : Int := 0
  hoMs : Nat := 0
  te0 : Nat := 0
  /-- y_err, |a| (2^-16 ppt per 10^6 s) and k_T × ΔT (10^-6 fu per s) of the bound. [unsigned; 05 R171, R180; reset 0] -/
  yErr : Nat := 0
  aBound : Nat := 0
  ktDt : Nat := 0
  /-- temp_coef of the model, 0 without temp_en, ppt/K in 2^-8. [signed; 05 R170, R180; reset 0] -/
  tempBy : Int := 0
  /-- Hops of the followed slot, kept at entry to HOLDOVER. [3 bits; 05 R151; reset 0] -/
  hops : BitVec 3 := 0
  /-- Active priority table, and the shadow tables that wait for their tick with their descriptors.
      [24 bytes; 04 R135, R136; reset floor 0, ceiling 1,000] -/
  prio : Payload := 0
  prioQ : List (Nat × Payload) := []
  /-- Active weights and those that wait for the swap, 2^-16. [12 x 17 bits; 04 R138, R139; reset 0] -/
  weights : Vector Nat 12 := Vector.replicate 12 0
  weightsNext : Option (Vector Nat 12) := none
  /-- Changes that wait for the next update, oldest first. [queue; 05 R180, R183; reset empty] -/
  ops : List DomOp := []
  /-- SET_TIME and STEP_TIME that wait for the next whole-second mark, oldest first. [descriptor ids; 05 R174; reset empty] -/
  atMark : List Nat := []
  /-- Nominal fu of the last update with T of R281. [signed; 08 R281; reset none] -/
  lastUpdate : Option Nat := none
deriving DecidableEq, Repr

/-! ## Outputs -/

/-- A change of a clock output that waits for its boundary (R197). -/
structure OutPend where
  desc : Nat
  enable : Bool
  /-- Boundary, domain time in 2^-64 step. -/
  boundary : Int
  late : Bool
deriving DecidableEq, Repr

/-- One clock output. -/
structure ClkOut where
  /-- Read-back copy of OUTPUT_CONFIG. [16 bytes used; 06 R218, R223; reset per R217] -/
  cfg : Payload := 0
  /-- CLKOUT_STAT.enabled. [1 bit; 06 CLKOUT_STAT; reset 0] -/
  enabled : Bool := false
  /-- The pending change. [one; 06 R197; reset none] -/
  pend : Option OutPend := none
  /-- CLKOUT_EVT. [event bits 4, SEQ 16; 06 CLKOUT_EVT; reset 0] -/
  evt : Evt := {}
  /-- The legs. [pin; 06 R216; reset both legs low] -/
  pin : ClkPin := .bothLow
  /-- Next rising edge after a realignment, domain time in 2^-64 step. [instant; 06 R193; reset none] -/
  stretch : Option Int := none
  /-- The last edge before the step was rising: the stretched cycle is in its high time. [1 bit; 06 R193; reset 0] -/
  high : Bool := false
deriving DecidableEq, Repr

/-- Anchor of a pulse output (R211 to R214). -/
inductive Anchor where
  | none | once | track
deriving DecidableEq, Repr

/-- One pulse output. -/
structure Pls where
  /-- Read-back copy of PULSE_CONFIG. [40 bytes; 06 R220, R223; reset per R217] -/
  cfg : Payload := 0
  /-- Settings in force for the pulse train; a change waits for the pulse in progress. [40 bytes; 06 R208; reset per R217] -/
  run : Payload := 0
  /-- PLS_STAT.enabled. [1 bit; 06 PLS_STAT; reset 0] -/
  enabled : Bool := false
  /-- A pulse is in progress. [1 bit; 06 R209; reset 0] -/
  active : Bool := false
  /-- Changes that wait for the pulse's end, oldest first: descriptor, settings, first instant allowed. [list; 06 R208; reset empty] -/
  pend : List (Nat × Payload × Int) := []
  /-- First instant allowed (20 µs rule), and the next grid instant, domain time in 2^-64 step. [instants; 06 R208; reset 0] -/
  from_ : Int := 0
  next : Int := 0
  /-- Leading edge and end of the last pulse, domain time in 2^-64 step. [instants; 06 R209; reset none] -/
  lastStart : Option Int := none
  lastEnd : Option Int := none
  /-- Where the generator placed the trailing edge of the last pulse, domain time in 2^-64 step. [instant; 06 R207; reset none] -/
  trail : Option Int := none
  /-- The domain's time was stepped since the last pulse: it belongs to another grid. [1 bit; 06 R209; reset 0] -/
  moved : Bool := false
  /-- Pulses left before self-disable; 0 unlimited. [32 bits; 06 R208; reset 0] -/
  left : Nat := 0
  /-- PLS_COUNT and PLS_SKIP. [32 bits; 06 PLS_COUNT, PLS_SKIP; reset 0] -/
  count : BitVec 32 := 0
  skip : Nat := 0
  /-- PLS_EVT. [event bits 5, SEQ 16; 06 PLS_EVT; reset 0] -/
  evt : Evt := {}
  /-- Anchor mode, payload and descriptor. [2 bits, 24 bytes; 06 R212, R213; reset none] -/
  anchor : Anchor := .none
  anchorCfg : Payload := 0
  anchorDesc : Option Nat := none
  /-- The first placement of TRACK has been made. [1 bit; 06 R213; reset 0] -/
  placed : Bool := false
  /-- PLS_STAT.anchor_lost. [1 bit; 06 R214; reset 0] -/
  anchorLost : Bool := false
  /-- Root cycle of the last accepted anchor edge, or of the PULSE_ANCHOR. [count; 06 R212, R214; reset 0] -/
  anchorAt : Nat := 0
  /-- Shift of the grid against start, 10^-6 fu. [signed; 06 R213, R224; reset 0] -/
  shift : Int := 0
  /-- Shift at the last placement. [signed; 06 R224; reset 0] -/
  shift0 : Int := 0
  /-- rho (10^-6 fu), S (2^-16 ppt) and the last g - target (fu) of tracking. [signed; 06 R213, R224; reset 0] -/
  rho : Int := 0
  slope : Int := 0
  lastErr : Int := 0
  /-- PLS_STAT.vddp, and the class whose output-path delay is applied. [2 bits each; 16 R478; reset 0] -/
  vddp : BitVec 2 := 0
  delayClass : BitVec 2 := 0
  /-- The ball. [pin; 06 R216; reset driven low] -/
  pin : PlsPin := .low
deriving DecidableEq, Repr

/-! ## Links -/

/-- A management message under way on a port (R248). -/
structure MgmtTx where
  dst : BitVec 12
  src : BitVec 12
  id : BitVec 16
  segs : List Bytes
  /-- Segments sent since the last resend began, segments ever sent, and segments acknowledged. -/
  sent : Nat
  high : Nat
  acked : Nat
deriving DecidableEq, Repr

/-- One link port (R225 to R259). -/
structure Link where
  /-- Read-back copy of LINK_CONFIG. [32 bytes; 07 R254, R258; reset per R254] -/
  cfg : Payload := 0
  /-- LNK_STAT.state. [3 bits; 07 R242; reset OFF] -/
  state : LinkState := .off
  /-- Port nonce. [16 bits; 07 R242; reset 0, DESIGN CHOICE log 1] -/
  nonce : BitVec 16 := 0
  /-- Transmitter squelched. [1 bit; 07 R252; reset 1] -/
  squelch : Bool := true
  /-- The receiver's signal detector sees a signal; block lock. [1 bit each; 07 R242; reset 0] -/
  signal : Bool := false
  blockLock : Bool := false
  /-- Consecutive good marks with consecutive seq and consistent index, and the last one's seq and index.
      [counts; 07 R242; reset 0] -/
  goodMarks : Nat := 0
  rxSeq : Option (BitVec 16) := none
  rxIndex : Nat := 0
  /-- Consecutive marks whose echo is outside the window or missing. [count; 07 R237; reset 0] -/
  missRun : Nat := 0
  /-- Seq of the newest mark whose echo has come or has been counted as missing. [16 bits; 07 R237; reset none] -/
  echoed : Option (BitVec 16) := none
  /-- LNK_STAT.loopback. [1 bit; 07 R242; reset 0] -/
  loopback : Bool := false
  /-- LNK_STAT.windowed. [1 bit; 07 R237; reset 0] -/
  windowed : Bool := false
  /-- LNK_STAT.asym_obs. [1 bit; 07 R246; reset 0] -/
  asymObs : Bool := false
  /-- LNK_EVT. [event bits 11, SEQ 16; 07 LNK_EVT; reset 0] -/
  evt : Evt := {}
  /-- Next mark's seq, the lag of the last mark sent (fu) and its departure. [16 bits, 32 bits; 07 R233, R235; reset 0, none] -/
  txSeq : BitVec 16 := 0
  prevLag : Option Nat := none
  prevMark : Option Int := none
  /-- Where the port's last frame ends on its line, nominal fu; and a STAT frame is due. [fu, 1 bit; 07 R229, R232; reset none, 0] -/
  lineEnd : Option Int := none
  statDue : Bool := false
  /-- Departure stamps of the last 512 marks, newest first: seq and root-time and nominal-time fu. [512; 07 R236; reset empty] -/
  departs : List (BitVec 16 × Int) := []
  /-- Marks received that wait for their echo, oldest first: seq and arrival stamp (nominal fu). [list; 07 R234; reset empty] -/
  echoDue : List (BitVec 16 × Int) := []
  /-- Seq and TA (fu) of the last TECHO sent, and its departure. [16 bits, 48 bits; 07 R234; reset none] -/
  prevEcho : Option (BitVec 16 × Nat × Int) := none
  /-- α that the last value of F was used with, Q2.46. [48 bits; 07 R240, R255; reset 2.0] -/
  alpha : Nat := 0x800000000000
  /-- RT_pred, fu. [signed; 07 R237; reset none] -/
  rtPred : Option Int := none
  /-- Last accepted echo that waits for its TA: seq, RT (fu), arrival. [07 R238; reset none] -/
  rtWait : Option (BitVec 16 × Int × Int) := none
  /-- Usable round trips of this millisecond: RT and TA, fu. [list; 07 R239; reset empty] -/
  usable : List (Int × Int) := []
  /-- Usable round trips so far: the events of LINK_RT. [count; 14 R435; reset 0] -/
  rtN : Nat := 0
  /-- Usable round trips in the last 1 ms, the last RT and the last TA. [32 bits each; 07 R259; reset 0] -/
  usableLast : Nat := 0
  lastRt : Int := 0
  lastTa : Nat := 0
  /-- Values of F with the number of round trips each came from, newest first, 2^-8 fu. [last 100; 07 R242; reset empty] -/
  fs : List (Int × Nat) := []
  /-- F and D, 2^-8 fu, and d_in. [signed; 07 R239; reset 0] -/
  f : Int := 0
  d : Int := 0
  dIn : Int := 0
  /-- y against the peer's grid, 2^-16 ppt. [signed; 07 R239; reset 0] -/
  y : Int := 0
  /-- Mark arrivals of the last 100 ms, newest first: seq count and nominal fu. [list; 07 R239; reset empty] -/
  arrivals : List (Int × Int) := []
  /-- x_j sums of this millisecond: the sum, the sum of arrival stamps, and the number. [07 R240; reset 0] -/
  xSum : Int := 0
  tSum : Int := 0
  xN : Nat := 0
  /-- Last mark received that waits for its lag: seq, index, arrival. [07 R240; reset none] -/
  markWait : Option (BitVec 16 × Nat × Int) := none
  /-- Root cycle of the last good TMARK, for the 30 µs of R242. [count; 07 R242; reset 0] -/
  markAt : Nat := 0
  /-- Seq of the mark of index 0 that the last TOD frame names. [16 bits; 07 R235; reset 0] -/
  todSeq : BitVec 16 := 0
  /-- Seconds of the last TOD frame, and its full time, te_bound (ns) and the count of consistent frames.
      [07 R235, R240, 04 R130; reset none, 0] -/
  todSecs : Option Nat := none
  peerTod : BitVec 128 := 0
  peerTe : Nat := 0
  todGood : Nat := 0
  /-- Peer flags: untrusted, holdover, follows, safe, cal_stale, not_warm. [1 bit each; 07 R244, R245; reset 0] -/
  peerUntrusted : Bool := false
  peerHoldover : Bool := false
  peerFollows : Bool := false
  peerSafe : Bool := false
  /-- From the peer's STAT: received at all, role, hop, address, state, nonce, δtx, δrx, app_delay, app_sec.
      [07 R235, LNK_PEER; reset 0] -/
  statSeen : Bool := false
  peerRole : BitVec 2 := 0
  peerHop : BitVec 4 := 0
  peerAddr : BitVec 12 := 0
  peerState : Byte := 0
  peerNonce : BitVec 16 := 0
  peerDtx : Nat := 0
  peerDrx : Nat := 0
  peerApp : Int := 0
  peerAppSec : BitVec 16 := 0
  /-- Own apparent delay d' (fu) and the low seconds of its measurement, 0 when it has not been measured in the last second.
      [48 and 16 bits; 07 R235, R246; reset 0] -/
  app : Int := 0
  appSec : BitVec 16 := 0
  /-- Seq of the last mark of index 0, its arrival in DOM[0] time (fu), and whether its lag has been taken off it.
      [07 R246; reset none] -/
  mark0 : Option (BitVec 16 × Int × Bool) := none
  /-- Δ0 and Δ (fu); the alarm has been sent and has not re-armed. [signed, 1 bit; 07 R246; reset none, 0] -/
  base : Option Int := none
  delta : Int := 0
  asymSent : Bool := false
  /-- LNK_EXT_TX, LNK_EXT_RX (fu) and split. [32 bits each; 07 R253, R257; reset 0, 0, 500] -/
  extTx : Nat := 0
  extRx : Nat := 0
  split : Nat := 500
  /-- A LOOPBACK in progress: its descriptor and the matched arrivals minus departures. [07 R257; reset none] -/
  loop : Option (Nat × List Int) := none
  /-- Tick count at which that LOOPBACK began. [count; 07 R257; reset 0] -/
  loopAt : Nat := 0
  /-- LNK_CNT_CRC, MISS, MARK, MGMT. [32 bits each, saturating; 07 LNK_CNT; reset 0] -/
  cntCrc : Nat := 0
  cntMiss : Nat := 0
  cntMark : Nat := 0
  cntMgmt : Nat := 0
  /-- LNK_SB: MOD_ABS, TX_FAULT, LOS filtered, and the last raw scan. [3 + 3 bits; 07 R250; reset 1, 0, 1] -/
  modAbs : Bool := true
  txFault : Bool := false
  los : Bool := true
  rawAbs : Bool := true
  rawFault : Bool := false
  rawLos : Bool := true
  /-- TX_DIS as driven. [1 bit; 07 R250; reset 1] -/
  txDis : Bool := true
  /-- Messages waiting to be sent, the one under way first, and the next msg_id. [queue, 16 bits; 07 R247, R248; reset empty, 0] -/
  tx : List MgmtTx := []
  /-- Payload bytes that the rate limit lets pass now, and the root cycle for which that holds. [counts; 07 R249; reset 4,096, 0] -/
  credit : Nat := 4096
  creditAt : Nat := 0
  txId : BitVec 16 := 0
  /-- Message being received: dst, src, id, segments so far. [07 R248; reset none] -/
  rx : Option (BitVec 12 × BitVec 12 × BitVec 16 × List Bytes) := none
  /-- Last in-order segment: msg_id and seg, 0xFFFF none. [16 bits each; 07 R235; reset none] -/
  ackMsg : BitVec 16 := 0
  ackSeg : BitVec 16 := 0xFFFF
  /-- That segment was the last of its message; root cycle at which the message being received began, and at which the peer's
      acknowledgement last advanced. [1 bit, counts; 07 R248; reset 0] -/
  ackLast : Bool := false
  rxAt : Nat := 0
  ackAt : Nat := 0
  /-- Cached module bytes of devices 0xA0 and 0xA2. [256 bytes each; 07 R251, R259; reset not cached] -/
  modA0 : Bytes := []
  modA2 : Bytes := []
  /-- Descriptor that waits for the port to reach DOWN or OFF. [descriptor id; 07 R255; reset none] -/
  desc : Option Nat := none
  /-- LINK_CONFIG descriptors whose α waits for the next value of F. [descriptor ids; 07 R255; reset empty] -/
  alphaDesc : List Nat := []
  /-- The port is held OFF by a SELFTEST. [1 bit; 07 R252; reset 0] -/
  held : Bool := false
deriving DecidableEq, Repr

/-! ## Hierarchy and IEEE 1588 -/

/-- A management message, reassembled (R262), with its port of arrival. -/
structure Msg where
  port : Fin 48
  src : BitVec 12
  dst : BitVec 12
  data : Bytes
deriving DecidableEq, Repr

/-- A hub in the manager's table (R270). -/
structure HubRow where
  serial : BitVec 64
  addr : BitVec 12
  priority : Nat
  cls : Nat
  missed : Nat
  passive : Bool
  confirmed : Bool
deriving DecidableEq, Repr

/-- A HIER_FORWARD that waits for its COMPL (R276). -/
structure Fwd where
  desc : Nat
  tag : BitVec 32
  dst : BitVec 12
  count : Nat
  compl : BitVec 64
  /-- Tick at which the timeout passes. -/
  due : Nat
deriving DecidableEq, Repr

/-- A DESC message being executed (R276). -/
structure DescRun where
  tag : BitVec 32
  replyTo : BitVec 12
  todo : List DescWord
  cur : Option Nat
  done : List (BitVec 256)
deriving DecidableEq, Repr

/-- One PTP port (R278 to R283). -/
structure PtpPort where
  /-- Read-back copy of HIER_DISCOVER PTP. [48 bytes; 08 R284, R288; reset per R284] -/
  cfg : Payload := 0
  /-- PTP_STAT.state. [4 bits; 08 R280; reset 0: the port is no PTP port] -/
  state : PtpState := .absent
  /-- PTP_STAT.rx_ql, esmc_seen. [4 and 1 bits; 08 R283; reset 0] -/
  rxQl : BitVec 4 := 0
  esmcSeen : Bool := false
  /-- The best Announce heard on the port. [data set; 08 R280; reset none] -/
  best : Option PtpData := none
  /-- meanPathDelay and offsetFromMaster, fu, and whether a path delay has been measured. [64 bits each, signed, 1 bit; 08 R281,
      R289; reset 0] -/
  path : Int := 0
  pathOk : Bool := false
  offset : Int := 0
  /-- Phase samples of the present second: sum, arrival sum, number. [08 R281; reset 0] -/
  xSum : Int := 0
  tSum : Int := 0
  xN : Nat := 0
  /-- Stamps of the last event message sent and received, DOM[0] fu. [signed; 08 R279; reset 0] -/
  txStamp : Int := 0
  rxStamp : Int := 0
  /-- Stamp of the Delay_Req or Pdelay_Req sent whose answer has not come. [fu, signed; 08 R278; reset none] -/
  reqStamp : Option Int := none
  /-- Ticks of the last Sync and of the last Announce that counted. [ms; 08 R280, R281; reset 0] -/
  syncMs : Nat := 0
  annMs : Nat := 0
  /-- Ticks of the last ESMC PDU received and of the last information PDU sent. [ms; 08 R283; reset 0, none] -/
  esmcMs : Nat := 0
  infoMs : Option Nat := none
  /-- QL last sent. [4 bits; 08 R283; reset none] -/
  txQl : Option (BitVec 4) := none
  /-- The line phase at the last 1 ms tick, with the nominal time of the tick; Syncs since then (phase, arrival); what Syncs
      show beyond the line phase, with their ticks, newest first, the last second's. [fu; 08 R282; reset empty] -/
  line : Option (Int × Int) := none
  syncs : List (Int × Int) := []
  offsets : List (Nat × Int) := []
deriving DecidableEq, Repr

/-- The hierarchy block (R260 to R289). -/
structure Hier where
  /-- Read-back copy of HIER_DISCOVER LOCAL. [48 bytes; 08 R284, R288; reset per R284] -/
  cfg : Payload := 0
  /-- HIER_STAT.role and addr. [3 and 12 bits; 08 R260, R261; reset UNASSIGNED, 0] -/
  role : Role := .unassigned
  addr : BitVec 12 := 0
  /-- HIER_EVT. [event bits 8, SEQ 16; 08 HIER_EVT; reset 0] -/
  evt : Evt := {}
  /-- HIER_MGR and quantity 0x90: the manager's priority, class, address, serial, and the named standby's serial.
      [08 HIER_MGR, R289; reset 0] -/
  mgrPrio : Nat := 0
  mgrClass : Nat := 0
  mgrAddr : BitVec 12 := 0
  mgrSerial : BitVec 64 := 0
  stbySerial : BitVec 64 := 0
  /-- Tick of the manager's last ANNOUNCE. [ms; 08 R267; reset 0] -/
  mgrMs : Nat := 0
  /-- Tuples received with their ticks: priority, class, serial. [list; 08 R266; reset empty] -/
  heard : List (Nat × Nat × BitVec 64 × Nat) := []
  /-- Tick since which the own tuple has been lowest. [ms; 08 R267; reset none] -/
  lowSince : Option Nat := none
  /-- The manager's table and fixed assignments. [lists; 08 R270; reset empty] -/
  table : List HubRow := []
  fixed : List (BitVec 64 × BitVec 12) := []
  /-- Serials for which ADDR_EXHAUSTED has been sent in this term. [list; 08 R271; reset empty] -/
  exhausted : List (BitVec 64) := []
  /-- Ports recorded for addresses. [list; 08 R264; reset empty] -/
  learned : List (BitVec 12 × Fin 48) := []
  /-- Messages seen: origin, seq, tick. [list; 08 R264; reset empty] -/
  seen : List (BitVec 64 × BitVec 16 × Nat) := []
  /-- HIER_CNT_DROP. [32 bits, saturating; 08 HIER_CNT_DROP; reset 0] -/
  drop : Nat := 0
  /-- Messages delivered to this hub, oldest first. [queue; 08 R264; reset empty] -/
  inbox : List Msg := []
  /-- Next message seq, scan number and DESC tag. [16, 16, 32 bits; 08 R262, R263, R276; reset 0] -/
  seq : BitVec 16 := 0
  scan : BitVec 16 := 0
  tag : BitVec 32 := 0
  /-- Serials that answered the present discovery and the one before, and the tick of the present one. [08 R268, R270; reset empty, 0] -/
  answered : List (BitVec 64) := []
  answeredLast : List (BitVec 64) := []
  discMs : Nat := 0
  /-- Ticks from which the next ANNOUNCE and the next DISCOVER of the manager's own may leave. [ms; 08 R266, R270; reset 0] -/
  annNext : Nat := 0
  discNext : Nat := 0
  /-- REPORTs due, oldest first: scan number, tick, and the address that the DISCOVER came from. [08 R270; reset none] -/
  reportDue : List (BitVec 16 × Nat × BitVec 12) := []
  /-- SCAN descriptors that wait, with their ticks and the hubs new to the table since. [descriptor ids; 08 R284; reset empty] -/
  scans : List (Nat × Nat × Nat) := []
  /-- Pending forwards. [at most 16; 08 R277; reset empty] -/
  fwds : List Fwd := []
  /-- DESC messages being executed (at most four) and those that wait. [08 R276; reset empty] -/
  runs : Vector (Option DescRun) 4 := Vector.replicate 4 none
  runsWait : List DescRun := []
  /-- PTP ports. [48; 08 R278; reset disabled] -/
  ptp : Vector PtpPort 48 := Vector.replicate 48 {}
deriving DecidableEq, Repr

/-! ## Reeds, tasks and wardens -/

/-- One reed (REED_STAT[n]). -/
structure Reed where
  /-- [3 bits; 09 REED_STAT; reset OFF, then LOADING at BOOT] -/
  state : ReedState := .off
  /-- [8 bits; 09 R298; reset 0] -/
  lastCause : Byte := 0
  /-- Task on the reed. [8 bits; 09 REED_STAT; reset 0xFF none] -/
  task : Option (Fin 126) := none
  /-- FAILED or HALTED, while its half is off or being tested. [1 of 2 states; 09 R300; reset none] -/
  bad : Option ReedState := none
deriving DecidableEq, Repr

/-- One EVENT task's parameters and span (R318 to R320). -/
structure EvTask where
  /-- Read-back copy of TASK_PARAM. [16 bytes; 09 R318, R321; reset 0] -/
  cfg : Payload := 0
  /-- A TASK_PARAM has been accepted. [1 bit; 09 R316; reset 0] -/
  accepted : Bool := false
  /-- Copies of channel records not yet taken, oldest first. [queue; 09 R319; reset empty] -/
  inbox : List (BitVec 128) := []
  /-- First record of the present result, the number of records since, the last record, OR of flags.
      [09 R319; reset none, 0] -/
  first : Option (BitVec 128) := none
  n : Nat := 0
  last : Option (BitVec 128) := none
  flags : BitVec 16 := 0
  gap : Bool := false
  /-- Last result: value, count. [64 and 32 bits; 09 R322; reset 0] -/
  value : BitVec 64 := 0
  count : BitVec 32 := 0
  /-- Results so far: the events of EVT_RESULT. [count; 14 R435; reset 0] -/
  results : Nat := 0
  /-- Records skipped, and taken in the present second. [32 bits, saturating; 09 R319; reset 0] -/
  skipped : Nat := 0
  taken : Nat := 0
  skipFlag : Bool := false
deriving DecidableEq, Repr

/-- The state that a task's image holds (R296): what the LINK, REFQ, DOMAIN or EVENT task keeps of its block. A MONITOR task keeps
nothing of its own (R439), and of a HIER task the second one has all (R286). -/
inductive TaskMem where
  | link (l : Link)
  | ref (r : RefSlot)
  | dom (d : Dom)
  | event (e : EvTask)
  | nothing
deriving DecidableEq, Repr

/-- A checkpoint image (R296): the DOM[0] short time and the nominal time (fu) at which it was taken, its size, whether it is
complete with a correct CRC-32C, and the task's state. -/
structure Image where
  time : BitVec 64
  at_ : Int
  size : Nat
  valid : Bool
  mem : TaskMem
deriving DecidableEq, Repr

/-- One task (REED_TASK[t]). -/
structure Task where
  /-- [3 bits; 09 R301; reset UNPLACED] -/
  state : TaskState := .unplaced
  /-- 0 ESSENTIAL, 1 NORMAL, 2 SHEDDABLE. [2 bits; 09 R292, R293; reset per R292] -/
  cls : BitVec 2 := 0
  /-- [1 bit; 09 R293; reset per R293] -/
  home : Side := .a
  /-- [1 bit; 09 R294; reset 0] -/
  away : Bool := false
  /-- [1 bit; 09 R297; reset 0] -/
  cold : Bool := false
  /-- [8 bits; 09 R293; reset 128] -/
  rank : Byte := 128
  /-- [8 bits; 09 REED_TASK; reset 0xFF none] -/
  reed : Option (Fin 192) := none
  /-- The two image buffers, newer first. [2 images; 09 R296; reset empty] -/
  img : List Image := []
  /-- Images written. [32 bits; 09 R322; reset 0] -/
  written : BitVec 32 := 0
  /-- Target reed of a move, and the descriptor that waits for it. [09 R315, R317; reset none] -/
  target : Option (Fin 192) := none
  desc : Option Nat := none
deriving DecidableEq, Repr

/-- A reservation (R311). -/
structure Reservation where
  core : CoreId
  granule : BitVec 32
deriving DecidableEq, Repr

/-- A HALF_POWER in progress (R304, R306), or the one a SELFTEST HALF runs, which names no descriptor (R428). -/
structure HalfJob where
  half : Side
  on : Bool
  desc : Option Nat
deriving DecidableEq, Repr

/-- The halves, wardens, reeds and tasks. -/
structure Comp where
  /-- REED[0] to REED[191]. [192; 09 R290; reset OFF] -/
  reeds : Vector Reed 192 := Vector.replicate 192 {}
  /-- Tasks. [126; 09 R292; reset per R292, R293] -/
  tasks : Vector Task 126 := Vector.replicate 126 {}
  /-- EVENT tasks. [32; 09 R318; reset 0] -/
  evTasks : Vector EvTask 32 := Vector.replicate 32 {}
  /-- REED_EVT. [event bits 9, SEQ 16; 09 REED_EVT; reset 0] -/
  evt : Evt := {}
  /-- REED_CNT. [16 + 16 bits, saturating; 09 REED_CNT; reset 0] -/
  shedCnt : Nat := 0
  takeCnt : Nat := 0
  /-- Root cycles of the takeovers of the last 100 ms, newest first. [list; 01 R34; reset empty] -/
  takeovers : List Nat := []
  /-- TOP_HALF power of each half. [2 bits each; 09 TOP_HALF; reset 1 ON] -/
  aPower : HalfPower := .on
  bPower : HalfPower := .on
  /-- Warden states. [3 bits each; 09 TOP_CHARGE; reset 0 OFF] -/
  aState : WardenState := .off
  bState : WardenState := .off
  /-- TOP_CHARGE.in_charge. [2 bits; 09 R308; reset 0 none] -/
  charge : Option Side := none
  /-- TOP_CHARGE.split. [1 bit; 09 R310; reset 0] -/
  split : Bool := false
  /-- TOP_CHARGE_EVT. [event bits 5, SEQ 16; 09 TOP_CHARGE_EVT; reset 0] -/
  cevt : Evt := {}
  /-- A warden revoked after a fetch error boots from the other image. [1 bit each; 09 R308; reset 0] -/
  aOther : Bool := false
  bOther : Bool := false
  /-- Reservations in the exchange memory. [one per core; 09 R311; reset empty] -/
  resv : List Reservation := []
  /-- The HALF_POWER in progress. [09 R304; reset none] -/
  job : Option HalfJob := none
deriving DecidableEq, Repr

/-! ## Shim store, journal, profiles, calibration -/

/-- A journal transaction: its extents, and what completes when it has been applied (R376). -/
structure Txn where
  seq : Nat
  extents : List (Nat × Bytes)
  /-- The descriptor that waits, and the bytes that a WRITE reports (R381). -/
  desc : Option Nat
  total : Option Nat
  committed : Bool
deriving DecidableEq, Repr

/-- The Shim store and its clients. -/
structure Shim where
  /-- The array. [4 MiB; 12 R371; canonical list, unlisted bytes read 0, DESIGN CHOICE log 5] -/
  mem : List Host.Cell := []
  /-- Poisoned groups, rising. [one bit per group; 12 R374; reset kept, empty] -/
  poison : List Nat := []
  /-- Groups that hold bit errors not yet found. [physical; 12 R373; reset empty] -/
  damage : List (Nat × GroupErr) := []
  /-- Transactions that wait, oldest first, and the one that is open or committed. [12 R376; reset empty, none] -/
  waiting : List Txn := []
  txn : Option Txn := none
  /-- A transaction abandoned on PFAIL: its record is in the journal without a commit mark. [12 R378; reset none] -/
  abandoned : Option Txn := none
  /-- Next journal sequence number. [32 bits; 12 R376; reset 0] -/
  seq : Nat := 0
  /-- No new transaction is opened and the scrubber is stopped (PFAIL, trip). [1 bit; 12 R378; reset 0] -/
  halted : Bool := false
  /-- Wear-spread counters. [256 x 48 bits; 12 R389; kept by every reset] -/
  counters : Vector Nat 256 := Vector.replicate 256 0
  /-- SETTINGS in force and those that wait for the trim tick. [5 bytes; 12 R380, R381, R400; reset 50 and 24] -/
  slew : Nat := 50
  scrubH : Nat := 24
  settings : List (Nat × Nat × Nat) := []
  /-- Read-back copy of SETTINGS. [8 bytes; 12 R400; reset per R380: 50 and 24] -/
  setCopy : BitVec 64 := 24 * 2 ^ 32 + 50
  /-- SHIM_STAT.exec_a, exec_b, boot_image. [1 bit each; 12 SHIM_STAT; reset 0] -/
  execA : Bool := false
  execB : Bool := false
  bootB : Bool := false
  /-- Image booted, if any passed: a warden boots from it. [12 R385; reset 0] -/
  imageOk : Bool := false
  /-- IDENT_FW.loader. [1 bit; 01 R36; reset 0] -/
  loader : Bool := false
  /-- SHIM_EVT. [event bits 8, SEQ 16; 12 SHIM_EVT; reset 0] -/
  evt : Evt := {}
  /-- Next group the scrubber reads. [18 bits; 12 R391; reset 0] -/
  scrub : Nat := 0
  /-- SHIM_PROF: result, slot, failed, first. [2, 2, 12, 10 bits; 12 R388; reset 0] -/
  profResult : BitVec 2 := 0
  profSlot : BitVec 2 := 0
  profFailed : Nat := 0
  profFirst : Nat := 0
  /-- Descriptors of the profile still to apply, the number applied, and the one being applied. [12 R388; reset none] -/
  profRun : Option (List DescWord) := none
  profAt : Nat := 0
  profCur : Option Nat := none
  /-- SHIM_LDR_OFS and SHIM_LDR_STAT. [21 bits, busy and 8 bits; 12 R386; reset 0] -/
  ldrOfs : Reg := 0
  ldrBusy : Bool := false
  ldrReason : Byte := 0
  /-- Quantity 0xB1: time, finder and address of the last uncorrectable group. [128 bits; 12 R401; reset 0] -/
  lastUe : BitVec 128 := 0
  /-- Milliseconds since the end of BOOT or the last whole hour. [count; 12 R389; reset 0] -/
  hourMs : Nat := 0
deriving DecidableEq, Repr

/-- The trim engine and its memory (R392 to R397). -/
structure Cal where
  /-- CAL_STAT: the copy loaded, and which copies are valid. [12 CAL_STAT; reset 0] -/
  loaded : Option Side := none
  aValid : Bool := false
  bValid : Bool := false
  /-- CAL_STAT.degraded. [1 bit; 12 R394; reset 0] -/
  degraded : Bool := false
  /-- The hub runs without a valid record: cal_stale on every value. [1 bit; 12 R394; reset 0] -/
  uncal : Bool := false
  /-- The loaded record, by offset in its copy. [333,568 bytes; 12 R392, R394; reset empty] -/
  record : List Host.Cell := []
  /-- CAL_EVT. [event bits 3, SEQ 16; 12 CAL_EVT; reset 0] -/
  evt : Evt := {}
  /-- CAL_TRIM.ticks. [16 bits; 12 CAL_TRIM; reset 0] -/
  ticks : BitVec 16 := 0
  /-- CAL_TIME. [48 bits; 12 R395; reset per copy] -/
  time : Nat := 0
  /-- Applied bin edges P[0] to P[256] of each lane, 10^-5 of 2^-24 period; empty: uniform bins. [12 R396; reset uniform] -/
  bins : Vector (List Int) 192 := Vector.replicate 192 []
  binTargets : Vector (List Int) 192 := Vector.replicate 192 []
  /-- Applied path delays and link delays, 10^-5 fu: input (88 x 2 x 17), output (96 x 5 and 64 x 4), link (48 x 2 x 3).
      [12 R392, R397; reset zero] -/
  inPath : List Int := []
  outPath : List Int := []
  linkFix : List Int := []
  /-- CAL_STAT.lagging. [16 bits, saturating; 12 CAL_STAT; reset 0] -/
  lagging : Nat := 0
deriving DecidableEq, Repr

/-! ## Faults and monitors -/

/-- A cause that may be active (R417): its latest message, and what it marked. -/
structure Cause where
  msg : Stamped
  /-- The domains and the port that its DEGRADE marked (R411). -/
  doms : BitVec 16
  link : Option (Fin 48)
deriving DecidableEq, Repr

/-- The fault collector. -/
structure Flt where
  /-- Input queue, oldest first. [at most 64; 13 R406; reset empty] -/
  queue : List Stamped := []
  /-- FLT_LOST, and messages lost since the last OVERFLOW. [32 bits, saturating; 13 R406; reset 0] -/
  lost : Nat := 0
  lostRun : Nat := 0
  /-- History, newest first. [at most 256; 13 R407; reset empty] -/
  history : List Stamped := []
  /-- FLT_SEV words. [512 x 8 x 3 bits; 13 R408; reset per R403] -/
  sev : Vector Reg 512 := Vector.replicate 512 0
  /-- The captured message with its stamp and mode. [64 + 64 + 16 + 4 bits; 13 R412; reset none] -/
  cap : Option (Stamped × BitVec 4) := none
  /-- FLT_STAT.ovf. [1 bit; 13 R413; reset 0] -/
  ovf : Bool := false
  /-- FLT_CAP_CNT. [32 bits, saturating; 13 R412; reset 0] -/
  capCnt : Nat := 0
  /-- FLT_EVT. [event bits 11, SEQ 16; 13 FLT_EVT; reset 0] -/
  evt : Evt := {}
  /-- FLT_SAFE_EVT. [event bits 4, SEQ 16; 13 FLT_SAFE_EVT; reset 0] -/
  safeEvt : Evt := {}
  /-- FLT_IRQ.en. [16 bits; 13 FLT_IRQ; reset 0] -/
  irqEn : BitVec 16 := 0
  /-- FLT_PIN_CTL.hold. [1 bit; 13 R415; reset 1] -/
  hold : Bool := true
  /-- FAULT_N driven low; its 25 µs run. [1 bit each; 13 R415; reset 0] -/
  driven : Bool := false
  minLow : Bool := false
  /-- Another device on the net holds FAULT_N low. [pin; 13 R415; reset 0] -/
  extLow : Bool := false
  /-- FLT_DEG_LNK[0] to [2]. [event bits 16, SEQ 16 each; 13 R411; reset 0] -/
  degLnk : Vector Evt 3 := Vector.replicate 3 {}
  /-- Causes whose messages have been handled and may still be active. [list; 13 R417; reset empty] -/
  causes : List Cause := []
  /-- FLT_PEAT: head, ff_count, ff_full. [13, 7, 1 bits; 13 FLT_PEAT; per record: 64, 0, 0] -/
  head : Nat := 64
  ffCount : Nat := 0
  ffFull : Bool := false
  /-- Highest Peat sequence number. [32 bits; 13 R422; per record: 0] -/
  peatSeq : Nat := 0
  /-- Root cycle of the last running-zone message entry; messages not written since the last entry and since reset.
      [13 R421, R434; reset none, 0, 0] -/
  peatAt : Option Nat := none
  peatLost : Nat := 0
  peatLostAll : Nat := 0
  /-- PEAT_ARCHIVE ARM: ring, nonce, tick, and whether a first-fault entry has been written since. [13 R424; reset none] -/
  armed : Option (Origin × BitVec 64 × Nat × Bool) := none
  /-- A fatal message that waits for its dump. [13 R425; reset none] -/
  fatal : Option Stamped := none
  /-- FLT_DUMP: busy, last_ok, dumps. [1, 1, 16 bits; 13 FLT_DUMP; reset 0] -/
  dumpBusy : Bool := false
  dumpOk : Bool := false
  dumps : Nat := 0
  /-- The SELFTEST in progress: its descriptor; and whether the reed or root under test was FAILED or FAULTED before.
      [13 R428; reset none, 0] -/
  selftest : Option Nat := none
  testFailed : Bool := false
deriving DecidableEq, Repr

/-- The accumulators of a monitor window (R436). -/
structure Acc where
  min : Int := 0
  max : Int := 0
  count : Nat := 0
  sum : Int := 0
  underCnt : Nat := 0
  overCnt : Nat := 0
  bins : Vector Nat 64 := Vector.replicate 64 0
  flags : BitVec 16 := 0
  /-- DOM[0] short time and epoch at which the window began. -/
  start : BitVec 64 := 0
  epoch : BitVec 16 := 0
  window : BitVec 16 := 0
deriving DecidableEq, Repr

/-- One monitor unit. -/
structure Mon where
  /-- Read-back copy of MON_CONFIG. [40 bytes; 14 R441, R445; reset per R441] -/
  cfg : Payload := 0
  /-- MON_STAT.enabled. [1 bit; 14 MON_STAT; reset 0] -/
  enabled : Bool := false
  /-- The window in progress, and the result bank. [14 R436, R437; reset 0] -/
  acc : Acc := {}
  bank : Acc := {}
  /-- A closed window waits for its telemetry entry. [1 bit; 14 R439; reset 0] -/
  unwritten : Bool := false
  /-- MON_STAT.skipped. [8 bits, saturating; 14 R439; reset 0] -/
  skipped : Nat := 0
  /-- Number of the event whose sample was taken last, or that stood when the unit was set up. [count; 14 R435; reset none] -/
  seen : Option Nat := none
deriving DecidableEq, Repr

/-- The monitor block. -/
structure Mons where
  /-- MON[0] to MON[31]. [32; 14 R435; reset per R441] -/
  unit : Vector Mon 32 := Vector.replicate 32 {}
  /-- MON_EVT[0], MON_EVT[1]. [event bits 16, SEQ 16 each; 14 R440; reset 0] -/
  evt : Vector Evt 2 := Vector.replicate 2 {}
  /-- MON_IRQ. [32 bits; 14 MON_IRQ; reset 0] -/
  irq : Reg := 0
deriving DecidableEq, Repr

/-! ## The hub -/

/-- Everything but the queue of waiting commands. -/
structure Hub where
  top : Top := {}
  pwr : Pwr := {}
  clk : Clk := {}
  /-- [96; 02 R62; reset 0] -/
  dlls : Vector Dll 96 := Vector.replicate 96 {}
  /-- CLK_DLL_EVT[0] to [5]. [event bits 16, SEQ 16 each; 02 CLK_DLL_EVT; reset 0] -/
  dllEvt : Vector Evt 6 := Vector.replicate 6 {}
  host : HostIf := {}
  mbx : Vector Mbx 4 := Vector.replicate 4 {}
  spi : Spi := {}
  evts : Vector EvtCh 64 := Vector.replicate 64 {}
  ivus : Vector Ivu 32 := Vector.replicate 32 {}
  tdc : Tdc := {}
  refs : Vector RefSlot 12 := Vector.replicate 12 {}
  doms : Vector Dom 16 := Vector.replicate 16 {}
  outs : Vector ClkOut 96 := Vector.replicate 96 {}
  /-- Format of each bank of clock outputs. [3 bits each; 06 R194; reset 0 LVDS] -/
  banks : Vector (BitVec 3) 24 := Vector.replicate 24 0
  plss : Vector Pls 64 := Vector.replicate 64 {}
  links : Vector Link 48 := Vector.replicate 48 {}
  hier : Hier := {}
  comp : Comp := {}
  shim : Shim := {}
  cal : Cal := {}
  flt : Flt := {}
  mons : Mons := {}
  /-- What the hub has issued on PCIe, newest first. [model's own outbox; 10 R331; reset empty] -/
  bus : List BusOp := []
  /-- What the hub has sent on its link ports, newest first. [model's own outbox; 07 R229; reset empty] -/
  wire : List WireOp := []
  /-- Number of free values drawn. [MODEL'S OWN field, not the spec's; reset 0 DESIGN CHOICE log 9] -/
  free : Nat := 0
deriving DecidableEq, Repr

/-- The state: the hub and the commands that wait, first in first out. -/
structure State extends Hub where
  /-- Commands waiting, the next one first. -/
  pending : List Instr
deriving DecidableEq, Repr

/-! ## Reset -/

/-- A bank of n like things, the ith being f i. -/
def bankOf {α : Type} (n : Nat) (f : Nat → α) : Vector α n :=
  ⟨((List.range n).map f).toArray, by simp⟩

/-- A payload built from (bit offset, value) pairs. -/
def payloadOf (fields : List (Nat × Nat)) : Payload :=
  fields.foldl (fun p f => p ||| (BitVec.ofNat 384 f.2 <<< f.1)) 0

/-- EVENT_CONFIG of channel n at reset (R104, R112): hysteresis 10 mV, threshold 1,428. -/
def resetEvtCfg (n : Nat) : Payload := payloadOf [(0, n), (16, 1428), (28, 1)]

/-- INTERVAL_START of unit u at reset (R112). -/
def resetIvuCfg (u : Nat) : Payload := payloadOf [(0, u)]

/-- REF_CONFIG of slot s at reset (R142). -/
def resetRefCfg (s : Nat) : Payload :=
  payloadOf [(0, s), (16, 1), (32, 1428), (51, 1), (72, 37), (80, 10), (96, 60), (128, 655360000000), (224, 200000),
    (256, 1310720), (288, 50), (304, 100), (320, 300)]

/-- The priority table of DOM[m] at reset (R145). -/
def resetPrio (m : Nat) : Payload := payloadOf [(0, m), (32, 1000)]

/-- DOMAIN_CONFIG of DOM[m] at reset (R178). -/
def resetDomCfg (m : Nat) : Payload :=
  payloadOf [(0, m), (8, if m = 0 then 0x2C else 0x0C), (32, 10000), (64, 100), (80, 10), (96, 500), (128, 10000),
    (160, 10), (176, 600), (192, 300), (208, 1024), (224, 655360), (256, 6553600), (304, 1280), (320, 2560),
    (336, 256), (352, 16)]

/-- OUTPUT_CONFIG of CLK[n] at reset (R217, R218). -/
def resetOutCfg (n : Nat) : Payload := payloadOf [(0, n), (8, 4), (32, 149)]

/-- PULSE_CONFIG of PLS[n] at reset (R217, R220): P = 1 s, W = 1 µs. -/
def resetPlsCfg (n : Nat) : Payload := payloadOf [(0, n), (64, 65536000000000), (128, 65536000)]

/-- LINK_CONFIG of LINK[n] at reset (R254). -/
def resetLinkCfg (n : Nat) : Payload :=
  payloadOf [(0, n), (8, 0x18), (32, 65536), (64, 0x800000000000), (128, 13107)]

/-- HIER_DISCOVER LOCAL at reset (R284): priority 255, UTC offset 37. -/
def resetHierCfg : Payload := payloadOf [(8, 255), (24, 37)]

/-- HIER_DISCOVER PTP of LINK[n] at reset (R284). -/
def resetPtpCfg (n : Nat) : Payload := payloadOf [(8, n), (24, 2), (40, 128), (48, 128), (64, 1)]

/-- MON_CONFIG of MON[u] at reset (R441). -/
def resetMonCfg (u : Nat) : Payload := payloadOf [(0, u), (64, 1000), (96, 1)]

/-- Default severity of a source code (R403): 0 IGNORE, 1 LOG, 2 NOTIFY, 3 DEGRADE, 4 SAFE. -/
def defaultSeverity (src : Nat) : Nat :=
  if src ≤ 0x0EF then 2
  else if src < 0x100 then 0
  else if src ≤ 0x15F then 2
  else if src ≤ 0x1FF then 1
  else if src ≤ 0x20B then 2
  else if src < 0x210 then 0
  else if src ≤ 0x221 then 2
  else if src ≤ 0x231 then 3
  else if src < 0x240 then 0
  else if src ≤ 0x247 then 2
  else if src ≤ 0x24D then 1
  else if src < 0x300 then 0
  else if src ≤ 0x302 then 2
  else if src = 0x303 then 4
  else if 0x310 ≤ src ∧ src ≤ 0x312 then 1
  else if 0x320 ≤ src ∧ src ≤ 0x322 then 2
  else if 0x330 ≤ src ∧ src ≤ 0x332 then 2
  else if src = 0x340 ∨ src = 0x350 ∨ src = 0x3FF then 2
  else 0

/-- FLT_SEV[j] at reset: eight severities, four bits apart. -/
def resetSev (j : Nat) : Reg :=
  (List.range 8).foldl (fun r i => r ||| (BitVec.ofNat 32 (defaultSeverity (8 * j + i)) <<< (4 * i))) 0

/-- Default class of task t (R292): 0 ESSENTIAL, 1 NORMAL, 2 SHEDDABLE. -/
def defaultClass (t : Nat) : BitVec 2 :=
  if t < 48 then 1 else if t < 76 then 0 else if t < 124 then 2 else 0

/-- Instance number of task t within its kind (R292). -/
def taskInstance (t : Nat) : Nat :=
  if t < 48 then t else if t < 60 then t - 48 else if t < 76 then t - 60 else if t < 108 then t - 76
  else if t < 124 then t - 108 else t - 124

/-- Task t at reset (R292, R293, R314): unplaced, home Half A for an even instance. -/
def resetTask (t : Nat) : Task :=
  { cls := defaultClass t, home := if taskInstance t % 2 = 0 then .a else .b }

/-- The hub right after reset. -/
def Hub.reset : Hub where
  evts := bankOf 64 fun n => { cfg := resetEvtCfg n }
  ivus := bankOf 32 fun u => { cfg := resetIvuCfg u }
  refs := bankOf 12 fun s => { cfg := resetRefCfg s, set_ := resetRefCfg s }
  doms := bankOf 16 fun m => { cfg := resetDomCfg m, set_ := resetDomCfg m, prio := resetPrio m }
  outs := bankOf 96 fun n => { cfg := resetOutCfg n }
  plss := bankOf 64 fun n => { cfg := resetPlsCfg n, run := resetPlsCfg n }
  links := bankOf 48 fun n => { cfg := resetLinkCfg n }
  hier := { cfg := resetHierCfg, ptp := bankOf 48 fun n => { cfg := resetPtpCfg n } }
  comp := { tasks := bankOf 126 resetTask }
  flt := { sev := bankOf 512 resetSev }
  mons := { unit := bankOf 32 fun u => { cfg := resetMonCfg u } }

/-- The machine right after reset: every register at the value its table gives, no descriptor in progress, no command
waiting. The hub stands at the beginning of BOOT (log 1). -/
def State.reset : State := { Hub.reset with pending := [] }

/-! ## Stops -/

/-- The reasons for which a command could stop the hub. The spec gives none: a hub in any mode takes any command, so
the type is empty, which is safe (nothing can be claimed of a stop). -/
inductive Fault where
deriving DecidableEq, Repr

/-- The reasons for which the model could refuse a command. -/
inductive Refusal where
  /-- A command of the table without a meaning yet; raised by no arm of a finished model. Safe: nothing is claimed of it. -/
  | notModelled (mnemonic : String)
deriving DecidableEq, Repr

end Sys2Proof.Machine
end

