-- ==== Sys2Proof/Machine/Ops.lean ====
section
/-!
DEFINITION. The named operations that the commands share: running an effect on a state, changing one instance of a
bank or one block of the hub, and the byte memory of the Shim store.
-/

namespace Sys2Proof.Machine

/-! ## Running an effect -/

/-- The next state in which f has acted on the hub and the queue is as it was. -/
def run (f : Hub → Hub) (s : State) : Host.Outcome State Fault Refusal :=
  .next { toHub := f s.toHub, pending := s.pending }

/-- f when c holds, nothing otherwise: an event that cannot occur now changes nothing (log 2). -/
def when_ (c : Bool) (f : Hub → Hub) (h : Hub) : Hub := if c then f h else h

/-- Fold an effect over a list of indices. -/
def forEach {α : Type} (l : List α) (f : α → Hub → Hub) (h : Hub) : Hub := l.foldl (fun h x => f x h) h

/-- All instances of a bank, in order. -/
def allFin (n : Nat) : List (Fin n) := List.finRange n

/-! ## Banks -/

/-- v with its ith element changed by f. -/
def upd {α : Type} {n : Nat} (v : Vector α n) (i : Fin n) (f : α → α) : Vector α n := v.set i (f v[i])

/-- Element i of v, or d where i names none. -/
def pick {α : Type} {n : Nat} (v : Vector α n) (i : Nat) (d : α) : α := if h : i < n then v[i] else d

/-- i as an index below n, when it is one. -/
def finOf (n i : Nat) : Option (Fin n) := if h : i < n then some ⟨i, h⟩ else none

/-! ## Blocks of the hub -/

def Hub.onTop (f : Top → Top) (h : Hub) : Hub := { h with top := f h.top }
def Hub.onPwr (f : Pwr → Pwr) (h : Hub) : Hub := { h with pwr := f h.pwr }
def Hub.onClk (f : Clk → Clk) (h : Hub) : Hub := { h with clk := f h.clk }
def Hub.onHost (f : HostIf → HostIf) (h : Hub) : Hub := { h with host := f h.host }
def Hub.onTdc (f : Tdc → Tdc) (h : Hub) : Hub := { h with tdc := f h.tdc }
def Hub.onHier (f : Hier → Hier) (h : Hub) : Hub := { h with hier := f h.hier }
def Hub.onComp (f : Comp → Comp) (h : Hub) : Hub := { h with comp := f h.comp }
def Hub.onShim (f : Shim → Shim) (h : Hub) : Hub := { h with shim := f h.shim }
def Hub.onCal (f : Cal → Cal) (h : Hub) : Hub := { h with cal := f h.cal }
def Hub.onFlt (f : Flt → Flt) (h : Hub) : Hub := { h with flt := f h.flt }
def Hub.onMons (f : Mons → Mons) (h : Hub) : Hub := { h with mons := f h.mons }
def Hub.onDom (m : Fin 16) (f : Dom → Dom) (h : Hub) : Hub := { h with doms := upd h.doms m f }
def Hub.onDoms (f : Dom → Dom) (h : Hub) : Hub := { h with doms := h.doms.map f }
def Hub.onRef (s : Fin 12) (f : RefSlot → RefSlot) (h : Hub) : Hub := { h with refs := upd h.refs s f }
def Hub.onEvt (n : Fin 64) (f : EvtCh → EvtCh) (h : Hub) : Hub := { h with evts := upd h.evts n f }
def Hub.onIvu (u : Fin 32) (f : Ivu → Ivu) (h : Hub) : Hub := { h with ivus := upd h.ivus u f }
def Hub.onDll (n : Fin 96) (f : Dll → Dll) (h : Hub) : Hub := { h with dlls := upd h.dlls n f }
def Hub.onOut (n : Fin 96) (f : ClkOut → ClkOut) (h : Hub) : Hub := { h with outs := upd h.outs n f }
def Hub.onPls (n : Fin 64) (f : Pls → Pls) (h : Hub) : Hub := { h with plss := upd h.plss n f }
def Hub.onLink (n : Fin 48) (f : Link → Link) (h : Hub) : Hub := { h with links := upd h.links n f }
def Hub.onMbx (i : Fin 4) (f : Mbx → Mbx) (h : Hub) : Hub := { h with mbx := upd h.mbx i f }
def Hub.onPtp (n : Fin 48) (f : PtpPort → PtpPort) (h : Hub) : Hub :=
  h.onHier fun r => { r with ptp := upd r.ptp n f }
def Hub.onTask (t : Fin 126) (f : Task → Task) (h : Hub) : Hub :=
  h.onComp fun c => { c with tasks := upd c.tasks t f }
def Hub.onReed (n : Fin 192) (f : Reed → Reed) (h : Hub) : Hub :=
  h.onComp fun c => { c with reeds := upd c.reeds n f }
def Hub.onEvTask (e : Fin 32) (f : EvTask → EvTask) (h : Hub) : Hub :=
  h.onComp fun c => { c with evTasks := upd c.evTasks e f }
def Hub.onMon (u : Fin 32) (f : Mon → Mon) (h : Hub) : Hub :=
  h.onMons fun m => { m with unit := upd m.unit u f }

/-- The warden in charge writes `len` bytes of a read-back copy at a BAR 0 offset: their parity is right again (R359). -/
def copyWritten (off len : Nat) (h : Hub) : Hub :=
  h.onTop fun t => { t with parBad := t.parBad.filter fun o => !(decide (off ≤ o) && decide (o < off + len)) }

/-- The ring that a name stands for. -/
def Hub.ring (h : Hub) : RingId → Ring
  | .cmd q => h.host.cmd[q]
  | .cpl c => h.host.cpl[c]
  | .tel t => h.host.tel[t]
  | .str n => h.host.str[n]

/-- Change one ring. -/
def Hub.onRing (r : RingId) (f : Ring → Ring) (h : Hub) : Hub :=
  h.onHost fun x => match r with
    | .cmd q => { x with cmd := upd x.cmd q f }
    | .cpl c => { x with cpl := upd x.cpl c f }
    | .tel t => { x with tel := upd x.tel t f }
    | .str n => { x with str := upd x.str n f }

/-- Interrupt source of a ring (R347); a command ring has none. -/
def irqOfRing : RingId → Option Nat
  | .cmd _ => none
  | .cpl c => some c
  | .str n => some (16 + n)
  | .tel t => some (80 + t)

/-! ## The byte memory

A canonical list: addresses strictly rising, no listed byte zero, every address below 2^22 (R371). -/

/-- Byte at an address; unlisted bytes read zero (log 5). -/
def memRead : List Host.Cell → Nat → Byte
  | [], _ => 0
  | (b, v) :: m, a => if a = b then v else memRead m a

/-- Put a nonzero byte into a rising list, or take the address out for a zero byte. -/
def memPut : List Host.Cell → Nat → Byte → List Host.Cell
  | [], a, v => if v = 0 then [] else [(a, v)]
  | (b, w) :: m, a, v =>
    if a < b then (if v = 0 then (b, w) :: m else (a, v) :: (b, w) :: m)
    else if a = b then (if v = 0 then m else (a, v) :: m)
    else (b, w) :: memPut m a v

/-- Write one byte; an address outside the 4 MiB array (R371) is not there to be written. -/
def memWrite (m : List Host.Cell) (a : Nat) (v : Byte) : List Host.Cell := if a < 0x400000 then memPut m a v else m

/-- Write a run of bytes from an address up. -/
def memWriteN : List Host.Cell → Nat → Bytes → List Host.Cell
  | m, _, [] => m
  | m, a, b :: bs => memWriteN (memWrite m a b) (a + 1) bs

/-- Read n bytes from an address up. -/
def memReadN (m : List Host.Cell) : Nat → Nat → Bytes
  | _, 0 => []
  | a, n + 1 => memRead m a :: memReadN m (a + 1) n

/-- The canonical form of a byte memory from address lo up. -/
def memWfFrom : Nat → List Host.Cell → Bool
  | _, [] => true
  | lo, (a, v) :: m => decide (lo ≤ a) && decide (a < 0x400000) && v != 0 && memWfFrom (a + 1) m

/-- The memory is canonical: strictly rising addresses inside the array, no entry equal to what an unlisted address reads as. -/
def Memory.wf (m : List Host.Cell) : Bool := memWfFrom 0 m

/-! ## Event-status registers (R356) -/

/-- Event bits rise in one cycle: SEQ goes up by one if at least one of them was 0. -/
def Evt.raise (e : Evt) (b : BitVec 16) : Evt :=
  if b &&& ~~~e.bits = 0 then e else { bits := e.bits ||| b, seq := e.seq + 1 }

/-- The bits among b that were 0. -/
def Evt.rising (e : Evt) (b : BitVec 16) : BitVec 16 := b &&& ~~~e.bits

/-- The written value matches SEQ. -/
def Evt.hits (e : Evt) (v : Reg) : Bool := v.extractLsb' 0 16 == e.seq

/-- A write to the paired _ACK register: clears every event bit when bits [15:0] equal SEQ. -/
def Evt.ack (e : Evt) (v : Reg) : Evt := if e.hits v then { e with bits := 0 } else e

/-- The register as it reads. -/
def Evt.word (e : Evt) : Nat := e.seq.toNat * 65536 + e.bits.toNat

/-- The single event bit b. -/
def bit16 (b : Nat) : BitVec 16 := BitVec.ofNat 16 (2 ^ b)

end Sys2Proof.Machine
end

