-- ==== Sys2Proof/Machine/Time.lean ====
section
/-!
DEFINITION. Time: the codes of the modes and states, the rotators and how they turn (R51 to R55), the domains' time
scales and the time formats (R9 to R14), and the advance of time with the active root (R491, R493).
-/

namespace Sys2Proof.Machine

/-! ## Codes -/

/-- TOP_MODE.mode (R33); OFF has no code. -/
def Mode.code : Mode → Nat
  | .off => 0 | .standby => 1 | .boot => 2 | .service => 3 | .test => 4 | .recovery => 5 | .safe => 6 | .thermalOff => 7

/-- CLK_ROOT_STATE codes (R44). -/
def RootState.code : RootState → Nat
  | .off => 0 | .locking => 1 | .ready => 2 | .active => 3 | .faulted => 4

/-- Domain state codes (R10). -/
def DomState.code : DomState → Nat
  | .nominal => 0 | .acquire => 1 | .track => 2 | .holdover => 3 | .holdoverOut => 4 | .manual => 5

/-- The modes in which the hub runs: BOOT, SERVICE, TEST, RECOVERY, SAFE (R35, R466). -/
def Hub.runs (h : Hub) : Bool :=
  match h.top.mode with
  | .boot | .service | .test | .recovery | .safe => true
  | .off | .standby | .thermalOff => false

/-- The hub is in mode m. -/
def Hub.inMode (h : Hub) (m : Mode) : Bool := h.top.mode == m

/-- A root is ACTIVE. -/
def Hub.rootActive (h : Hub) : Bool := h.clk.aState == .active || h.clk.bState == .active

/-- The wardens have booted: one of them is in charge or in SHADOW. -/
def Hub.wardensBooted (h : Hub) : Bool :=
  [h.comp.aState, h.comp.bState].any fun w => w == .shadow || w == .inCharge

/-- A warden is in charge and runs. -/
def Hub.inCharge (h : Hub) : Bool :=
  match h.comp.charge with
  | some .a => h.comp.aState == .inCharge
  | some .b => h.comp.bState == .inCharge
  | none => false

/-! ## Units -/

/-- One root period in 2^-64 rotator steps: 4,096 steps (R55). -/
def rootU : Int := 4096 * 2 ^ 64

/-- One fu in 2^-64 rotator steps: a root period is 2/3 ns, that is 131,072/3 fu (R4). -/
def fuU : Int := 3 * 2 ^ 59

/-- One second in fu (R4). -/
def secFu : Int := 65536 * 10 ^ 9

/-- One second in 2^-64 steps. -/
def secU : Int := secFu * fuU

/-- One millisecond in fu. -/
def msFu : Int := 65536 * 10 ^ 6

/-- Root cycles in one tick of 1 ms (R491). -/
def tickCycles : Nat := 1500000

/-- 1 ppt as a Q24.16 word (R5). -/
def ppt : Int := 65536

/-! ## Rotators -/

/-- C rounded to Q24.16 (R397). -/
def Hub.corrWord (h : Hub) : Int := rdiv h.clk.corr (2 ^ 24)

/-- DOM_FOFS + S − C before limiting (R51). -/
def Hub.rotRaw (h : Hub) (d : Dom) : Int := d.fofs + d.slope - h.corrWord

/-- The limits of ROT_FOFS (R54). -/
def fofsMin : Int := -(2 ^ 39)
def fofsMax : Int := 2 ^ 39 - 1

/-- ROT_FOFS after limiting (R51, R54). -/
def Hub.rotFofs (h : Hub) (d : Dom) : Int := clampI fofsMin fofsMax (h.rotRaw d)

/-- The advance of an accumulator in one 375 MHz cycle, in 2^-64 steps: 16,384 × w × 10^-12 steps, rounded (R55). -/
def rotInc (w : Int) : Int := rdiv (w * 2 ^ 62) (10 ^ 12)

/-- The advance of the nominal time scale in one 375 MHz cycle beyond the root's, in 2^-64 steps: that of a rotator at DOM_FOFS and S
of zero (R125). -/
def Hub.nomInc (h : Hub) : Int := rotInc (clampI fofsMin fofsMax (-h.corrWord))

/-- The voted accumulator (R19). -/
def Dom.acc (d : Dom) : BitVec 112 := (d.accA &&& d.accB) ||| (d.accA &&& d.accC) ||| (d.accB &&& d.accC)

/-- What the vote of the three copies finds: 0 no disagreement, 1 a copy outvoted, 2 no two copies that agree (R19, R58). -/
def Dom.vote (d : Dom) : BitVec 2 :=
  if d.accA = d.accB ∧ d.accB = d.accC then 0 else if d.accA = d.accB ∨ d.accB = d.accC ∨ d.accA = d.accC then 1 else 2

/-- Turn the accumulator by v (R55, R56). Every copy takes up the voted value, so that a disagreement is gone at the next root
cycle; it is reported at the next tick (R19). -/
def Dom.turn (v : Int) (d : Dom) : Dom :=
  let a := d.acc + BitVec.ofInt 112 v
  { d with accA := a, accB := a, accC := a, voted := d.voted ||| d.vote }

/-- Move the domain's time and its accumulator together (R56). -/
def Dom.shift (v : Int) (d : Dom) : Dom := { d.turn v with sub := d.sub + v }

/-- The difference of the domain's time from nominal time `nom`, 2^-64 step. -/
def Dom.leadNow (d : Dom) (nom : Int) : Int := d.secs * secU + d.sub - nom

/-- The corners of the last 2 s, with the last one before them. -/
def recent (nom : Int) (l : List Corner) : List Corner :=
  let new := l.takeWhile fun c => decide (nom - 2 * secU ≤ c.nom)
  new ++ (l.drop new.length).take 1

/-- The domain goes on from nominal time `nom` at these rates: a new corner where they differ from those before (R154). -/
def Dom.turnsAt (nom : Int) (rate : Int × Int) (d : Dom) : Dom :=
  if d.leads.head?.map Corner.rate = some rate then d
  else { d with leads := { nom, lead := d.leadNow nom, rate } :: recent nom d.leads }

/-- A step of the domain's time at nominal time `nom`: the difference before it and after it. -/
def Dom.stepAt (nom : Int) (v : Int) (d : Dom) : Dom :=
  let c : Corner := { nom, lead := d.leadNow nom, rate := (d.leads.head?.map Corner.rate).getD (0, 0) }
  { d.shift v with leads := { c with lead := c.lead + v } :: c :: d.leads }

/-- The present settings of an active root: advance by n root cycles, of which k end a 375 MHz cycle. -/
def Hub.turnAll (n k : Nat) (h : Hub) : Hub :=
  { h with
    doms := h.doms.map fun d =>
      let inc := rotInc (h.rotFofs d)
      let d := d.turnsAt h.clk.nomTime (inc, h.nomInc)
      { d.turn (inc * k) with sub := d.sub + n * rootU + inc * k }
    clk := { h.clk with
      cycles := h.clk.cycles + n
      pos := h.clk.pos + n
      nomTime := h.clk.nomTime + n * rootU + h.nomInc * k } }

/-- Advance to `cyc` root cycles after the last tick, when that is later than now. No time passes while no root is
ACTIVE (R493), nor in a mode in which nothing runs. -/
def advanceTo (cyc : Nat) (h : Hub) : Hub :=
  if h.runs && h.rootActive && decide (h.clk.pos < cyc) then
    h.turnAll (cyc - h.clk.pos) (cyc / 4 - h.clk.pos / 4)
  else h

/-- The hub when the root cycle count reaches c, where that falls before the next 1 ms tick and a root turns: a timer's command
names the moment, so time advances to it. -/
def reachCyc (c : Nat) (h : Hub) : Option Hub :=
  let n := c - h.clk.cycles
  if n = 0 then some h
  else if h.runs && h.rootActive && decide (h.clk.pos + n ≤ tickCycles) then some (advanceTo (h.clk.pos + n) h)
  else none

/-- The hub when the nominal time reaches t fu, as reachCyc. -/
def reachNom (t : Int) (h : Hub) : Option Hub :=
  let rest := t * fuU - h.clk.nomTime
  if rest ≤ 0 then some h
  else reachCyc (h.clk.cycles + (-((-rest).fdiv (rootU + (h.nomInc).fdiv 4))).toNat) h

/-- f at the moment a timer that runs out at root cycle c ends; nothing while it has longer to run. -/
def atCyc (c : Nat) (f : Hub → Hub) (h : Hub) : Hub :=
  match reachCyc c h with
  | some h => f h
  | none => h

/-! ## Time formats -/

/-- A domain time in 2^-64 steps as it is presented: to the nearest fu (R150). -/
def toFu (t : Int) : Int := rdiv t fuU

/-- The domain's time as it is presented, fu since the PTP epoch (R150). -/
def Dom.fu (d : Dom) : Int := d.secs * secFu + toFu d.sub

/-- Whole seconds of an instant, modulo 2^48 (R9). -/
def secsOf (t : Int) : Nat := (t.fdiv secFu % 2 ^ 48).toNat

/-- Short time of an instant (R13). -/
def shortOf (t : Int) : BitVec 64 := BitVec.ofInt 64 t

/-- Epoch of an instant (R14). -/
def epochOf (t : Int) : BitVec 16 := BitVec.ofInt 16 (t.fdiv (2 ^ 64))

/-- DOM[0] time in fu, its short time and its epoch: the stamp of faults and entries (R402). -/
def Hub.houseFu (h : Hub) : Int := h.doms[(0 : Fin 16)].fu
def Hub.houseShort (h : Hub) : BitVec 64 := shortOf h.houseFu
def Hub.houseEpoch (h : Hub) : BitVec 16 := epochOf h.houseFu

/-- Stamps are not-warm, cal-stale, untrusted as a whole (R11): TB_WARM 0, no calibration, the hub in SAFE. -/
def Hub.notWarm (h : Hub) : Bool := !h.clk.warm
def Hub.calStale (h : Hub) : Bool := h.cal.uncal
def Hub.isSafe (h : Hub) : Bool := h.inMode .safe

/-- Flag bits of a domain's time (R11). -/
def Hub.timeFlags (h : Hub) (d : Dom) : Nat :=
  atB 0 h.notWarm + atB 1 h.calStale + atB 2 (d.untrusted || h.isSafe) + atB 3 d.stepped + atB 5 d.todUnset

/-- Quality byte of a domain (R10). -/
def Dom.quality (d : Dom) : Nat := at_ 5 3 d.state.code + at_ 2 3 d.hops.toNat

/-- A full time value (R9) for instant t of domain m with the given quality and flags. -/
def fullTimeOf (t : Int) (m quality flags : Nat) : BitVec 128 :=
  let r := (t % secFu).toNat
  BitVec.ofNat 128 (at_ 80 48 (secsOf t) + at_ 48 32 (r / 65536) + at_ 32 16 r + at_ 24 8 m + at_ 16 8 quality + at_ 0 16 flags)

/-- The full time of DOM[m] at the present instant (R9 to R12). -/
def Hub.fullTime (h : Hub) (m : Fin 16) : BitVec 128 :=
  fullTimeOf h.doms[m].fu m h.doms[m].quality (h.timeFlags h.doms[m])

/-- The instant that a full time value names, in fu since the PTP epoch. -/
def fullToFu (v : BitVec 128) : Int := (fld v 80 48 : Int) * secFu + (fld v 48 32 * 65536 + fld v 32 16 : Nat)

/-! ## Stamps -/

/-- The root time of a stamp relative to the present instant, in 2^-64 steps, given the place of its edge in the root
period (2^-24 period). -/
def Hub.stampOffset (h : Hub) (cyc : Nat) (frac : Nat) : Int := ((cyc : Int) - h.clk.pos) * rootU + frac * (4096 * 2 ^ 40)

/-- DOM[m]'s time at an instant off (2^-64 steps of root time) from now, in 2^-64 steps: DOM[m] turns at its present rate. -/
def Hub.domAt (h : Hub) (d : Dom) (off : Int) : Int :=
  d.secs * secU + d.sub + off + rotInc (h.rotFofs d) * off.fdiv (4 * rootU)

/-- The nominal time scale at an instant off from now, in fu (R125). -/
def Hub.nomAt (h : Hub) (off : Int) : Int :=
  (h.clk.nomTime + off + h.nomInc * off.fdiv (4 * rootU)).fdiv fuU

/-- The nominal time now, in fu. -/
def Hub.nomFu (h : Hub) : Int := h.clk.nomTime.fdiv fuU

end Sys2Proof.Machine
end

