-- ==== Sys2Proof/Machine/Flags.lean ====
section
/-!
DEFINITION. Every event bit, interrupt and fault message of the hub: MSI-X (R347, R348), the event-status registers
with their interrupts, the fault message and its way into the collector (R402, R406), and the fault sources and kinds.
-/

namespace Sys2Proof.Machine

/-! ## Interrupts -/

/-- Send the MSI-X message of vector v, or set its pending bit while it is masked (R348). -/
def sendMsix (v : Fin 128) (h : Hub) : Hub :=
  let e := h.host.msix[v]
  if e.masked then h.onHost fun x => { x with msix := upd x.msix v fun e => { e with pend := true } }
  else { h with bus := .msix (BitVec.ofNat 8 v) e.addr e.data :: h.bus }

/-- One rise of interrupt source s (R347, R348). Vectors 128 to 255 name none; an endpoint that is not ready sends nothing. -/
def raiseIrq (s : Nat) (h : Hub) : Hub :=
  if h.host.ready then
    match finOf 128 (pick h.host.vector s 0xFF).toNat with
    | some v => sendMsix v h
    | none => h
  else h

/-- raiseIrq when c. -/
def irqIf (c : Bool) (s : Nat) (h : Hub) : Hub := if c then raiseIrq s h else h

/-! ## Event bits by block -/

/-- CLK_ROOT_EVT bits rise; source 161. -/
def raiseRoot (b : BitVec 16) (h : Hub) : Hub :=
  let up := h.clk.rootEvt.rising b
  irqIf (up != 0) 161 (h.onClk fun c => { c with rootEvt := c.rootEvt.raise b })

/-- CLK_ROT_SAT bits rise; source 161. -/
def raiseRotSat (b : BitVec 16) (h : Hub) : Hub :=
  let up := h.clk.rotSat.rising b
  irqIf (up != 0) 161 (h.onClk fun c => { c with rotSat := c.rotSat.raise b })

/-- The bit of CLK[n] in its CLK_DLL_EVT rises; source 161. -/
def raiseDll (n : Fin 96) (h : Hub) : Hub :=
  let j : Fin 6 := ⟨n / 16, by omega⟩
  let up := h.dllEvt[j].rising (bit16 (n % 16))
  irqIf (up != 0) 161 { h with dllEvt := upd h.dllEvt j fun e => e.raise (bit16 (n % 16)) }

/-- EVT_EVT[n] bits rise; source 162. -/
def raiseEvt (n : Fin 64) (b : BitVec 16) (h : Hub) : Hub :=
  let up := h.evts[n].evt.rising b
  irqIf (up != 0) 162 (h.onEvt n fun c => { c with evt := c.evt.raise b })

/-- IVU_EVT[u] bits rise; source 162. -/
def raiseIvu (u : Fin 32) (b : BitVec 16) (h : Hub) : Hub :=
  let up := h.ivus[u].evt.rising b
  irqIf (up != 0) 162 (h.onIvu u fun c => { c with evt := c.evt.raise b })

/-- TDC_EVT bits rise; source 162. -/
def raiseTdc (b : BitVec 16) (h : Hub) : Hub :=
  let up := h.tdc.evt.rising b
  irqIf (up != 0) 162 (h.onTdc fun c => { c with evt := c.evt.raise b })

/-- REF_EVT[s] bits rise; source 84 + s for the bits that irq_en enables (REF_CONFIG byte 8, as in force). -/
def raiseRef (s : Fin 12) (b : BitVec 16) (h : Hub) : Hub :=
  let up := h.refs[s].evt.rising b &&& BitVec.ofNat 16 (fld h.refs[s].set_ 64 4)
  irqIf (up != 0) (84 + s) (h.onRef s fun c => { c with evt := c.evt.raise b })

/-- DOM_EVT[m] bits rise; source 96 + m for the bits that irq_en enables (DOMAIN_CONFIG byte 2). -/
def raiseDom (m : Fin 16) (b : BitVec 16) (h : Hub) : Hub :=
  let up := h.doms[m].evt.rising b &&& BitVec.ofNat 16 (fld h.doms[m].cfg 16 8)
  irqIf (up != 0) (96 + m) (h.onDom m fun c => { c with evt := c.evt.raise b })

/-- DOM[m] is marked untrusted (R176). -/
def distrust (m : Fin 16) (h : Hub) : Hub := raiseDom m (bit16 9) (h.onDom m fun d => { d with untrusted := true })

/-- LNK_EVT[n] bits rise; source 112 + n for the bits that irq_en enables (LINK_CONFIG bytes 2 and 3). -/
def raiseLnk (n : Fin 48) (b : BitVec 16) (h : Hub) : Hub :=
  let up := h.links[n].evt.rising b &&& BitVec.ofNat 16 (fld h.links[n].cfg 16 16)
  irqIf (up != 0) (112 + n) (h.onLink n fun c => { c with evt := c.evt.raise b })

/-- CLKOUT_EVT[n] bits rise; R347 gives them no source. -/
def raiseOut (n : Fin 96) (b : BitVec 16) (h : Hub) : Hub := h.onOut n fun c => { c with evt := c.evt.raise b }

/-- PLS_EVT[n] bits rise; R347 gives them no source. -/
def raisePls (n : Fin 64) (b : BitVec 16) (h : Hub) : Hub := h.onPls n fun c => { c with evt := c.evt.raise b }

/-- HIER_EVT bits rise; source 164 for the bits that irq_en enables (LOCAL bytes 4 and 5). -/
def raiseHier (b : BitVec 16) (h : Hub) : Hub :=
  let up := h.hier.evt.rising b &&& BitVec.ofNat 16 (fld h.hier.cfg 32 16)
  irqIf (up != 0) 164 (h.onHier fun c => { c with evt := c.evt.raise b })

/-- REED_EVT bits rise; source 163. -/
def raiseReed (b : BitVec 16) (h : Hub) : Hub :=
  let up := h.comp.evt.rising b
  irqIf (up != 0) 163 (h.onComp fun c => { c with evt := c.evt.raise b })

/-- TOP_CHARGE_EVT bits rise; source 163. -/
def raiseCharge (b : BitVec 16) (h : Hub) : Hub :=
  let up := h.comp.cevt.rising b
  irqIf (up != 0) 163 (h.onComp fun c => { c with cevt := c.cevt.raise b })

/-- SHIM_EVT and CAL_EVT bits rise; R347 gives them no source. -/
def raiseShim (b : BitVec 16) (h : Hub) : Hub := h.onShim fun c => { c with evt := c.evt.raise b }
def raiseCal (b : BitVec 16) (h : Hub) : Hub := h.onCal fun c => { c with evt := c.evt.raise b }

/-- The bit of MON[u] in MON_EVT rises; source 165 when its bit in MON_IRQ is 1 (R440). -/
def raiseMon (u : Fin 32) (h : Hub) : Hub :=
  let j : Fin 2 := ⟨u / 16, by omega⟩
  let up := h.mons.evt[j].rising (bit16 (u % 16))
  irqIf (up != 0 && h.mons.irq.getLsbD u) 165 (h.onMons fun m => { m with evt := upd m.evt j fun e => e.raise (bit16 (u % 16)) })

/-- TOP_PWR_EVT bits rise; source 166 for the bits that irq_en enables (TOP_THERM_CTL). -/
def raisePwr (b : BitVec 16) (h : Hub) : Hub :=
  let up := h.pwr.evt.rising b &&& h.pwr.irqEn
  irqIf (up != 0) 166 (h.onPwr fun c => { c with evt := c.evt.raise b })

/-- FLT_EVT bits rise; source 160 for the bits that FLT_IRQ enables. -/
def raiseFlt (b : BitVec 16) (h : Hub) : Hub :=
  let up := h.flt.evt.rising b &&& h.flt.irqEn
  irqIf (up != 0) 160 (h.onFlt fun c => { c with evt := c.evt.raise b })

/-- FLT_SAFE_EVT bits rise; a rise of entered raises source 160. -/
def raiseSafe (b : BitVec 16) (h : Hub) : Hub :=
  let up := h.flt.safeEvt.rising b
  irqIf (up.getLsbD 0) 160 (h.onFlt fun c => { c with safeEvt := c.safeEvt.raise b })

/-- The mark of LINK[n] in FLT_DEG_LNK rises (R411). -/
def raiseDegLnk (n : Fin 48) (h : Hub) : Hub :=
  let j : Fin 3 := ⟨n / 16, by omega⟩
  h.onFlt fun c => { c with degLnk := upd c.degLnk j fun e => e.raise (bit16 (n % 16)) }

/-! ## Fault messages -/

/-- Kind codes (R404). -/
def Kind.code : Kind → Nat
  | .parity => 0x01 | .eccCe => 0x02 | .eccUe => 0x03 | .lockLost => 0x04 | .refLost => 0x05 | .timeout => 0x06
  | .overflow => 0x07 | .watchdog => 0x08 | .checkword => 0x09 | .splitCharge => 0x0A | .thermalWarn => 0x0B
  | .thermalTrip => 0x0C | .supply => 0x0D | .linkDown => 0x0E | .asymAlarm => 0x0F | .lockBroken => 0x10
  | .poisonRead => 0x11 | .holdoverOut => 0x12 | .taskFail => 0x13 | .addrExhausted => 0x14 | .oven => 0x15
  | .queueOverflow => 0x16 | .badDescriptor => 0x17

/-- The 64-bit message (R402). -/
def FaultMsg.word (f : FaultMsg) : BitVec 64 :=
  BitVec.ofNat 64 (at_ 52 12 f.source.toNat + at_ 44 8 f.kind.code + at_ 40 4 f.access.toNat + at_ 32 8 f.master.toNat
    + at_ 0 32 f.address.toNat)

/-- Access codes of R405. -/
def accNone : Nat := 0
def accRead : Nat := 1
def accWrite : Nat := 2
def accFetch : Nat := 3
def accRmw : Nat := 4
def accDmaRead : Nat := 5
def accDmaWrite : Nat := 6
def accMsg : Nat := 7

/-- Master codes of R405. -/
def Master.code : Master → Nat
  | .host => 1 | .spi => 2 | .debug => 3

/-- Master code of a warden, and of the warden in charge (Internal while there is none). -/
def wardenCode : Side → Nat
  | .a => 4 | .b => 5

def Hub.chargeCode (h : Hub) : Nat :=
  match h.comp.charge with
  | some w => wardenCode w
  | none => 0

/-- A block sends a fault message. The collector stamps it with DOM[0] time as it reaches its input queue; a message
that finds 64 waiting is lost, counted, and sets FLT_EVT.lost (R402, R406). Nothing is sent where nothing runs. -/
def sendFault (source : Nat) (kind : Kind) (access master address : Nat) (h : Hub) : Hub :=
  if h.runs then
    let m : Stamped :=
      { msg := { source := BitVec.ofNat 12 source, kind, access := BitVec.ofNat 4 access, master := BitVec.ofNat 8 master,
                 address := BitVec.ofNat 32 address }
        time := h.houseShort, epoch := h.houseEpoch }
    if h.flt.queue.length < 64 then h.onFlt fun f => { f with queue := f.queue ++ [m] }
    else raiseFlt (bit16 6) (h.onFlt fun f => { f with lost := satInc32 f.lost, lostRun := satInc32 f.lostRun })
  else h

/-- Master codes of other agents (R405). -/
def mInternal : Nat := 0
def mScrub : Nat := 6
def mDma : Nat := 7
def mMgr : Nat := 8
def mReed (n : Nat) : Nat := 0x40 + n

/-- Sources (R403). -/
def srcReed (n : Nat) : Nat := n
def srcLink (n : Nat) : Nat := 0x0C0 + n
def srcClk (n : Nat) : Nat := 0x100 + n
def srcPls (n : Nat) : Nat := 0x160 + n
def srcEvt (n : Nat) : Nat := 0x1A0 + n
def srcIvu (n : Nat) : Nat := 0x1E0 + n
def srcRef (n : Nat) : Nat := 0x200 + n
def srcDom (n : Nat) : Nat := 0x210 + n
def srcRoot : Side → Nat
  | .a => 0x220 | .b => 0x221
def srcRot (n : Nat) : Nat := 0x222 + n
def srcLadder (n : Nat) : Nat := 0x240 + n
def srcCw (n : Nat) : Nat := 0x248 + n
def srcShim : Nat := 0x300
def srcScrub : Nat := 0x301
def srcJournal : Nat := 0x302
def srcCal : Nat := 0x303
def srcPcie : Nat := 0x310
def srcWarden : Side → Nat
  | .a => 0x320 | .b => 0x321
def srcCharge : Nat := 0x322
def srcThermal : Nat := 0x330
def srcSupply : Nat := 0x331
def srcOven : Nat := 0x332
def srcParity : Nat := 0x340
def srcCkpt : Nat := 0x350
def srcFlt : Nat := 0x3FF

end Sys2Proof.Machine
end

