-- ==== Sys2Proof/Machine/Rings.lean ====
section
/-!
DEFINITION. The host rings as the hub uses them (R326 to R348): entries written, index write-backs, coalesced
interrupts, and the completion of a descriptor towards its ring, its DESC message or its profile.
-/

namespace Sys2Proof.Machine

/-! ## Ring arithmetic -/

/-- The settings word for the ring size: 2^k entries (R327). -/
def Ring.size (r : Ring) : Nat := 2 ^ r.k.toNat

/-- Entries the ring holds: (P − C) mod 65,536 (R327). -/
def Ring.held (r : Ring) : Nat := (r.prod - r.cons).toNat

/-- Free entries. -/
def Ring.room (r : Ring) : Nat := r.size - r.held

/-- Host address of an aligned base register pair. -/
def baseAddr (lo hi : Reg) : BitVec 64 := BitVec.ofNat 64 (hi.toNat * 2 ^ 32 + lo.toNat / 4096 * 4096)

/-- Host address of the entry with a given index (R327). -/
def Ring.entryAddr (r : Ring) (index : BitVec 16) (entry : Nat) : BitVec 64 :=
  baseAddr r.baseLo r.baseHi + BitVec.ofNat 64 (index.toNat % r.size * entry)

/-- Index block base set (HOST_IDX_LO.set). -/
def Hub.idxSet (h : Hub) : Bool := h.host.idxLo.getLsbD 0

/-- Offset of a ring's slot in the index block (R330). -/
def idxOffset : RingId → Nat
  | .cmd q => 0x000 + 4 * q
  | .cpl c => 0x040 + 4 * c
  | .str n => 0x080 + 4 * n
  | .tel t => 0x180 + 4 * t

/-- The hub's own index of a ring: C of a command ring, P otherwise (R330). -/
def ownIndex (r : RingId) (x : Ring) : BitVec 16 :=
  match r with
  | .cmd _ => x.cons
  | .cpl _ => x.prod
  | .tel _ => x.prod
  | .str _ => x.prod

/-- Entry size of a ring (R326). -/
def entrySize : RingId → Nat
  | .cmd _ => 64
  | .cpl _ => 32
  | .str _ => 16
  | .tel _ => 64

/-- A posted write towards the host. -/
def busWrite (a : BitVec 64) (data : Bytes) (h : Hub) : Hub := { h with bus := .write a data :: h.bus }

/-- The index write-back of a ring (R330, R331): bits [31:16] are zero. -/
def idxWriteBack (r : RingId) (h : Hub) : Hub :=
  busWrite (baseAddr h.host.idxLo h.host.idxHi + BitVec.ofNat 64 (idxOffset r)) (leBytes 4 (ownIndex r (h.ring r)).toNat) h

/-- The number of entries at which the ring interrupts; 0 acts as 1. -/
def Ring.coalAt (r : Ring) : Nat := max 1 r.coalCnt.toNat

/-- Signal the entries not yet signalled: the ring's interrupt is raised. -/
def ringSignal (r : RingId) (h : Hub) : Hub :=
  let h := h.onRing r fun x => { x with unsignalled := 0 }
  match irqOfRing r with
  | some s => raiseIrq s h
  | none => h

/-- Count n entries towards the interrupt, and raise it at coal_cnt, or at once when asked or when coal_us is 0 (R347). -/
def ringCount (r : RingId) (n : Nat) (now : Bool) (h : Hub) : Hub :=
  let at_ := h.clk.cycles
  let h := h.onRing r fun x =>
    { x with unsignalled := x.unsignalled + n, unsigAt := if x.unsignalled = 0 then at_ else x.unsigAt }
  if now || (h.ring r).coalUs == 0 || decide ((h.ring r).coalAt ≤ (h.ring r).unsignalled) then ringSignal r h else h

/-- Write one entry at P and advance P; the write-back and the interrupt are separate. -/
def ringPut (r : RingId) (data : Bytes) (h : Hub) : Hub :=
  let h := busWrite ((h.ring r).entryAddr (h.ring r).prod (entrySize r)) data h
  h.onRing r fun x => { x with prod := x.prod + 1 }

/-- Write entries, then the index, then count them towards the interrupt (R331, R348). -/
def ringPost (r : RingId) (entries : List Bytes) (now : Bool) (h : Hub) : Hub :=
  ringCount r entries.length now (idxWriteBack r (forEach entries (ringPut r) h))

/-! ## Telemetry (R345) -/

/-- Offer a telemetry entry: written when its ring is enabled and has room, dropped and counted otherwise. -/
def telOffer (t : Fin 4) (kind : Nat) (body : Bytes) (h : Hub) : Hub :=
  let r := h.ring (.tel t)
  let entry := leBytes 2 kind ++ leBytes 2 r.offered.toNat ++ leBytes 2 h.houseEpoch.toNat ++ leBytes 2 r.lost.toNat
    ++ leBytes 8 h.houseShort.toNat ++ slice body 0 48
  if r.state == .enabled && decide (0 < r.room) then
    ringPost (.tel t) [entry] false (h.onRing (.tel t) fun x => { x with offered := x.offered + 1, lost := 0 })
  else
    h.onRing (.tel t) fun x => { x with offered := x.offered + 1, lost := BitVec.ofNat 16 (satAdd 65535 x.lost.toNat 1) }

/-! ## Completions -/

/-- Status codes (R337). -/
def Status.code : Status → Nat
  | .ok => 0 | .busy => 1 | .badParam => 2 | .noResource => 3 | .domainOff => 4 | .notInCharge => 5 | .safeState => 6
  | .timeout => 7 | .poisoned => 8 | .denied => 9 | .aborted => 10

/-- The command ring of a descriptor as byte 2 of a completion names it; 0 for one that stands on no ring. -/
def ringOf : Origin → Nat
  | .ring q => q
  | .mgr _ => 0
  | .profile => 0

/-- The 32 bytes of a completion (R335). -/
def completionBytes (safe fast : Bool) (d : Desc) (st : Status) (result : BitVec 192) : Bytes :=
  [d.opcode, BitVec.ofNat 8 st.code,
    BitVec.ofNat 8 (at_ 4 4 (ringOf d.origin) + atB 2 safe + atB 1 d.replayed + atB 0 fast), 0]
  ++ leBytes 2 d.index.toNat ++ leBytes 2 d.tag.toNat ++ leBytes 24 result.toNat

/-- Nanoseconds from a doorbell to now, saturating at 16 bits. -/
def Hub.sinceBell (h : Hub) (bell : Nat) : Nat := min 0xFFFF ((h.clk.cycles - bell) * 2 / 3)

/-- Post a completion on the ring's completion ring, and keep its latencies (R435). -/
def postCompletion (q : Fin 16) (fast : Bool) (d : Desc) (st : Status) (result : BitVec 192) (h : Hub) : Hub :=
  let c : Fin 16 := h.host.cmd[q].cq.toFin
  let lat := h.sinceBell d.bell
  let h := ringPost (.cpl c) [completionBytes h.isSafe fast d st result] d.irq h
  h.onHost fun x =>
    { x with
      hostLat := upd x.hostLat q fun _ => lat
      effLat := if st == .ok then upd x.effLat q (fun _ => lat) else x.effLat
      hostN := upd x.hostN q (· + 1), effN := if st == .ok then upd x.effN q (· + 1) else x.effN }

/-- The opcodes of R336. -/
def opcodes : List Nat :=
  [0x01, 0x02, 0x03, 0x04, 0x05, 0x10, 0x11, 0x12, 0x20, 0x21, 0x30, 0x31, 0x32, 0x40, 0x41, 0x50, 0x51, 0x60, 0x61, 0x62,
   0x70, 0x71, 0x72, 0x73, 0x80, 0x81, 0x90, 0x91, 0xA0, 0xF0]

/-- Header fields of a descriptor (R334). -/
def dwOpcode (d : DescWord) : Byte := d.extractLsb' 0 8
def dwIndex (d : DescWord) : BitVec 16 := d.extractLsb' 16 16
def dwPayload (d : DescWord) : Payload := d.extractLsb' 128 384

/-- The opcode is one of R336 and the reserved header bits are zero (R339). -/
def dwHeaderOk (d : DescWord) : Bool :=
  opcodes.contains (dwOpcode d).toNat && fld d 10 6 == 0 && fld d 48 80 == 0

/-- A fetched descriptor. -/
def mkDesc (id : Nat) (o : Origin) (bell : Nat) (d : DescWord) : Desc :=
  { id, origin := o, opcode := dwOpcode d, irq := flag d 9, fence := flag d 8, index := dwIndex d,
    tag := d.extractLsb' 32 16, payload := dwPayload d, bell, applied := false, replayed := false, discard := false }

/-- Put a descriptor in progress. -/
def enterDesc (o : Origin) (bell : Nat) (w : DescWord) (h : Hub) : Hub :=
  h.onHost fun x => { x with inflight := x.inflight ++ [mkDesc x.nextId o bell w], nextId := x.nextId + 1 }

/-- The completion of a descriptor of a DESC message, as COMPL carries it. -/
def complEntry (safe : Bool) (d : Desc) (st : Status) (result : BitVec 192) : BitVec 256 :=
  BitVec.ofNat 256 (leNat (completionBytes safe false d st result))

/-- Split off the leading descriptors whose header is bad: they complete at once with BAD_PARAM. -/
def takeBad : List DescWord → List DescWord × List DescWord
  | [] => ([], [])
  | w :: ws => if dwHeaderOk w then ([], w :: ws) else ((takeBad ws).1.cons w, (takeBad ws).2)

/-- Start the next descriptor of DESC message k, when none of it runs (R276). -/
def mgrNext (k : Fin 4) (h : Hub) : Hub :=
  match h.hier.runs[k] with
  | none => h
  | some r =>
    if r.cur.isSome then h else
    let (bad, rest) := takeBad r.todo
    let done := r.done ++ bad.map fun w => complEntry h.isSafe (mkDesc 0 (.mgr k) 0 w) .badParam 0
    match rest with
    | [] => h.onHier fun x => { x with runs := upd x.runs k fun _ => some { r with todo := [], done } }
    | w :: ws =>
      let id := h.host.nextId
      enterDesc (.mgr k) h.clk.cycles w
        (h.onHier fun x => { x with runs := upd x.runs k fun _ => some { r with todo := ws, done, cur := some id } })

/-- Count a failed descriptor of the profile; `first` keeps the index of the first (SHIM_PROF). -/
def profFail (n : Nat) (s : Shim) : Shim :=
  { s with profFailed := satAdd 0xFFF s.profFailed n, profFirst := if s.profFailed = 0 then s.profAt else s.profFirst }

/-- Start the next descriptor of the profile, when none of it runs; after the last, show the result (R388). -/
def profNext (h : Hub) : Hub :=
  match h.shim.profRun with
  | none => h
  | some todo =>
    if h.shim.profCur.isSome then h else
    let (bad, rest) := takeBad todo
    let h := h.onShim fun s =>
      let s := if bad.isEmpty then s else profFail bad.length s
      { s with profAt := s.profAt + bad.length }
    match rest with
    | [] =>
      let failed := h.shim.profFailed != 0
      let h := h.onShim fun s => { s with profRun := none, profResult := if failed then 2 else 1 }
      if failed then raiseShim (bit16 7) h else h
    | w :: ws =>
      let id := h.host.nextId
      enterDesc .profile h.clk.cycles w (h.onShim fun s => { s with profRun := some ws, profCur := some id })

/-- The profile goes on to its next descriptor: the present one has ended, well or not (R388). -/
def profEnd (id : Nat) (failed : Bool) (h : Hub) : Hub :=
  if h.shim.profCur = some id then
    profNext (h.onShim fun s =>
      let s := if failed then profFail 1 s else s
      { s with profCur := none, profAt := s.profAt + 1 })
  else h

/-- The descriptor in progress with this number. -/
def Hub.desc? (h : Hub) (id : Nat) : Option Desc := h.host.inflight.find? fun d => d.id == id

/-- Write a completion: the descriptor leaves the descriptors in progress, and its completion goes to its ring's completion
ring, to its DESC message, or, for a profile, nowhere (R335, R276, R388). After an endpoint reset it is discarded (R325). -/
def finishDesc (id : Nat) (st : Status) (result : BitVec 192) (h : Hub) : Hub :=
  match h.desc? id with
  | none => h
  | some d =>
    let h := h.onHost fun x => { x with inflight := x.inflight.filter fun e => e.id != id }
    match d.origin with
    | .ring q => if d.discard then h else postCompletion q false d st result h
    | .mgr k =>
      match h.hier.runs[k] with
      | none => h
      | some r =>
        mgrNext k (h.onHier fun x =>
          { x with runs := upd x.runs k fun _ => some { r with cur := none, done := r.done ++ [complEntry h.isSafe d st result] } })
    | .profile => profEnd id (st != .ok) h

/-- Complete a descriptor; while no warden is in charge its completion waits for one (R30, R216, R309). -/
def completeWith (id : Nat) (st : Status) (result : BitVec 192) (h : Hub) : Hub :=
  if h.inCharge then finishDesc id st result h else h.onHost fun x => { x with held := x.held ++ [(id, st, result)] }

/-- A warden has taken charge: the completions that waited are written, oldest first. -/
def flushHeld (h : Hub) : Hub :=
  forEach h.host.held (fun c => finishDesc c.1 c.2.1 c.2.2) (h.onHost fun x => { x with held := [] })

/-- Complete with a status and an empty result field. -/
def complete (id : Nat) (st : Status) (h : Hub) : Hub := completeWith id st 0 h

/-- Complete the descriptor that a block remembers, if it remembers one. -/
def completeOpt (id : Option Nat) (st : Status) (h : Hub) : Hub :=
  match id with
  | some i => complete i st h
  | none => h

/-- A result field from (bit offset, width, value) triples. -/
def resultOf (fields : List (Nat × Nat × Nat)) : BitVec 192 :=
  BitVec.ofNat 192 (fields.foldl (fun n f => n + at_ f.1 f.2.1 f.2.2) 0)

end Sys2Proof.Machine
end

