-- ==== Sys2Proof/Machine/Operands.lean ====
section
/-!
DEFINITION. How a descriptor command finds its descriptor and what is checked before its payload: the descriptor's turn
(R340, R388, R276), the mode (R37, R38), the owner (R274) and the fields of the payload.
-/

namespace Sys2Proof.Machine

/-! ## Whose turn it is -/

/-- Descriptors in progress from an origin, in order of fetch. -/
def Hub.inProgress (h : Hub) (o : Origin) : List Desc := h.host.inflight.filter fun d => d.origin == o

/-- The next descriptor of an origin to be applied: the oldest not applied, and with fence only once it is the oldest
in progress (R334, R340). -/
def Hub.nextDesc (h : Hub) (o : Origin) : Option Desc :=
  match (h.inProgress o).find? fun d => !d.applied with
  | none => none
  | some d => if d.fence && (h.inProgress o).any (fun e => e.applied) then none else some d

/-- Mark a descriptor applied (R309): it stays in progress until its completion. -/
def markApplied (id : Nat) (h : Hub) : Hub :=
  h.onHost fun x => { x with inflight := x.inflight.map fun d => if d.id = id then { d with applied := true } else d }

/-! ## Checks before the payload -/

/-- The diagnostic opcodes, served in SAFE (R38, R336). -/
def diagnostic (op : Nat) : Bool := [0x01, 0x02, 0x70, 0x72, 0x81, 0xF0].contains op

/-- Opcodes that complete with BUSY in RECOVERY (R37): TASK_ASSIGN, TASK_MOVE, HALF_POWER. -/
def recoveryBusy (op : Nat) : Bool := [0x60, 0x61, 0xA0].contains op

/-- Opcodes that a profile cannot run (R388): SHIM_READ, SHIM_TXN, PEAT_READ, HIER_FORWARD. -/
def profileRefused (op : Nat) : Bool := [0x70, 0x71, 0x72, 0x90].contains op

/-- The descriptors whose end a profile does not wait for (R388): INTERVAL_START, PULSE_ANCHOR, SELFTEST. -/
def profileMovesOn (op : Nat) : Bool := [0x41, 0x32, 0xF0].contains op

/-- Ownership mode in force: own_mode of LOCAL while WORKER or STANDBY, LOCAL otherwise (R274). -/
def Hub.ownMode (h : Hub) : Nat :=
  match h.hier.role with
  | .worker | .standby => fld h.hier.cfg 16 2
  | .unassigned | .manager | .passive => 0

/-- The descriptor came from the manager. -/
def fromMgr : Origin → Bool
  | .mgr _ => true
  | .ring _ => false
  | .profile => false

/-- The master of the descriptor owns it (R274). A profile's descriptors have LOCAL ownership (R388). -/
def Hub.owns (h : Hub) (o : Origin) (op : Nat) : Bool :=
  if o == .profile then true
  else if [0x01, 0x02, 0x70, 0x72, 0x81].contains op then true
  else if op == 0x90 then !fromMgr o && h.hier.role == .manager
  else if [0x40, 0x41, 0x80].contains op then (if h.ownMode = 1 then fromMgr o else !fromMgr o)
  else if h.ownMode = 0 then !fromMgr o else fromMgr o

/-- What stops a descriptor before its payload is looked at, in the order mode, origin, owner, RECOVERY (log 20). -/
def Hub.gate (h : Hub) (d : Desc) : Option Status :=
  let op := d.opcode.toNat
  if h.isSafe && !diagnostic op then some .safeState
  else if d.origin == .profile && profileRefused op then some .badParam
  else if fromMgr d.origin && op == 0x90 then some .badParam
  else if !h.owns d.origin op then some .denied
  else if h.inMode .recovery && recoveryBusy op then some .busy
  else none

/-- The warden in charge applies the next descriptor of an origin, when it is the one that the command names: it is
marked applied, completes at once with the status of a failed check, and otherwise has its effect. With no warden in
charge, or another descriptor next, nothing changes (R30, log 2). -/
def serve (o : Origin) (fits : Desc → Bool) (eff : Desc → Hub → Hub) (h : Hub) : Hub :=
  match h.nextDesc o with
  | none => h
  | some d =>
    if fits d && h.inCharge && h.runs then
      match h.gate d with
      | some st => complete d.id st ((if st == .denied then raiseHier (bit16 5) else id) (markApplied d.id h))
      | none =>
        let h := eff d (markApplied d.id h)
        if profileMovesOn d.opcode.toNat then profEnd d.id false h else h
    else h

/-- The descriptor has this opcode. -/
def isOp (op : Nat) (d : Desc) : Bool := d.opcode.toNat == op

/-- The descriptor has this opcode, and `sub` of its payload holds. -/
def isOpSub (op : Nat) (sub : Payload → Bool) (d : Desc) : Bool := isOp op d && sub d.payload

/-! ## Payload fields -/

/-- n bits from bit `bit` of byte `byte`. -/
def pf (p : Payload) (byte bit n : Nat) : Nat := fld p (8 * byte + bit) n

/-- The same as a signed number. -/
def pfs (p : Payload) (byte bit n : Nat) : Int := sfld p (8 * byte + bit) n

/-- Bit `bit` of byte `byte`. -/
def pb (p : Payload) (byte bit : Nat) : Bool := flag p (8 * byte + bit)

/-- Bytes [from, from + n) of a payload, with everything else zero: the bytes a read-back copy holds, its reserved bits as they were
sent (DESIGN CHOICE, log 84). -/
def pbytes (p : Payload) (n : Nat) : Payload := BitVec.ofNat 384 (p.toNat % 2 ^ (8 * n))

/-- v lies in [lo, hi]. -/
def inRange (v lo hi : Nat) : Bool := decide (lo ≤ v) && decide (v ≤ hi)

/-- Act on the instance that a field names; BAD_PARAM where it addresses none (R3). -/
def withFin (n i : Nat) (id : Nat) (f : Fin n → Hub → Hub) (h : Hub) : Hub :=
  match finOf n i with
  | some k => f k h
  | none => complete id .badParam h

end Sys2Proof.Machine
end

