-- ==== Sys2Proof/Machine/Store.lean ====
section
/-!
DEFINITION. The Shim store as its clients use it: partitions (R375), group reads with their check bits and poison
(R372 to R374), the wear-spread counters (R389), journal transactions (R376) and Peat entries (R421, R422).
-/

namespace Sys2Proof.Machine

/-! ## Wear-spread counters (R389) -/

/-- Where counter k saturates: at 2^48 − 1, and at 65,535 for counter 2. -/
def counterMax (k : Fin 256) : Nat := if k.val = 2 then 65535 else 2 ^ 48 - 1

/-- A new value of counter k. -/
def onCounter (k : Fin 256) (f : Nat → Nat) (h : Hub) : Hub := h.onShim fun s => { s with counters := upd s.counters k f }

/-- Increment counter k: a single group write. -/
def bumpCounter (k : Nat) (h : Hub) : Hub :=
  match finOf 256 k with
  | some k => onCounter k (fun c => satAdd (counterMax k) c 1) h
  | none => h

/-! ## Groups -/

/-- Groups of the array. -/
def groupCount : Nat := 262144

/-- The 16-byte group of an address (R372). -/
def groupOf (a : Nat) : Nat := a / 16

/-- The groups that a run of n bytes from a touches. -/
def groupsOf (a n : Nat) : List Nat := (List.range ((a % 16 + n + 15) / 16)).map fun i => groupOf a + i

/-- Insert into a rising list without repeats. -/
def insertRising (x : Nat) : List Nat → List Nat
  | [] => [x]
  | y :: ys => if x < y then x :: y :: ys else if x = y then y :: ys else y :: insertRising x ys

/-- Mark a group poisoned (R374). -/
def poisonGroup (g : Nat) (h : Hub) : Hub := h.onShim fun s => { s with poison := insertRising g s.poison }

/-- What reading group g finds in its check bits (R373); a group not listed has no error. -/
def Shim.damageOf (s : Shim) (g : Nat) : GroupErr :=
  match s.damage.find? fun d => d.1 == g with
  | some d => d.2
  | none => .clean

/-- The group was written back or written whole: its errors are gone. -/
def mendGroup (g : Nat) (h : Hub) : Hub := h.onShim fun s => { s with damage := s.damage.filter fun d => d.1 != g }

/-- Keep the last uncorrectable group for quantity 0xB1 (R401), count it and set SHIM_EVT.ue. -/
def noteUe (finder addr : Nat) (h : Hub) : Hub :=
  bumpCounter 13 (raiseShim (bit16 1) (h.onShim fun s =>
    { s with lastUe := BitVec.ofNat 128 (at_ 64 64 h.houseShort.toNat + at_ 56 8 finder + at_ 0 32 addr) }))

/-- One group is read by an agent: corrected and written back, poisoned, or read as a poisoned group (R373, R374). -/
def readGroup (access master g : Nat) (h : Hub) : Hub :=
  if h.shim.poison.contains g then
    raiseShim (bit16 2) (sendFault srcShim .poisonRead access master (16 * g) h)
  else match h.shim.damageOf g with
    | .clean => h
    | .correctable => bumpCounter 12 (raiseShim (bit16 0) (sendFault srcShim .eccCe access master (16 * g) (mendGroup g h)))
    | .uncorrectable =>
      raiseShim (bit16 2) (sendFault srcShim .poisonRead access master (16 * g)
        (noteUe master (16 * g) (sendFault srcShim .eccUe access master (16 * g) (poisonGroup g (mendGroup g h)))))

/-- A read of n bytes from a by an agent: the checks of every group it touches. -/
def readCheck (access master a n : Nat) (h : Hub) : Hub := forEach (groupsOf a n) (readGroup access master) h

/-- The poisoned groups among those a run touches. -/
def Shim.poisonedIn (s : Shim) (a n : Nat) : List Nat := (groupsOf a n).filter fun g => s.poison.contains g

/-- The bytes of a run as a read returns them: zero for a poisoned group (R374). -/
def Shim.bytes (s : Shim) (a n : Nat) : Bytes :=
  (memReadN s.mem a n).zipIdx.map fun bi => if s.poison.contains (groupOf (a + bi.2)) then 0 else bi.1

/-- The run covers the whole of group g. -/
def coversGroup (a n g : Nat) : Bool := decide (a ≤ 16 * g) && decide (16 * g + 16 ≤ a + n)

/-- The read-modify-write of the groups that a run covers in part (R372): a poisoned one is not touched, and one with an error is
reported and mended or poisoned, as of any read (R373). -/
def modifyCheck (a n : Nat) (h : Hub) : Hub :=
  forEach ((groupsOf a n).filter fun g => !coversGroup a n g)
    (fun g h => if h.shim.poison.contains g then h else readGroup accRmw mInternal g h) h

/-- Write a run of bytes: whole groups are written fresh, which clears their poison; a part of a poisoned group is
never written (R374). -/
def storeRun (a : Nat) (b : Bytes) (h : Hub) : Hub :=
  let n := b.length
  let whole := (groupsOf a n).filter (coversGroup a n)
  (modifyCheck a n h).onShim fun s =>
    let poison := s.poison.filter fun g => !whole.contains g
    let keep := b.zipIdx.map fun bi =>
      if poison.contains (groupOf (a + bi.2)) then memRead s.mem (a + bi.2) else bi.1
    { s with mem := memWriteN s.mem a keep, poison, damage := s.damage.filter fun d => !whole.contains d.1 }

/-! ## Partitions (R375) -/

def imageBase : Side → Nat
  | .a => 0x000000 | .b => 0x100000
def calBase : Side → Nat
  | .a => 0x200000 | .b => 0x260000
def profBase (p : Nat) : Nat := 0x2C0000 + 0x10000 * p
def peatBase : Nat := 0x300000
def shimSize : Nat := 0x400000

/-- Address of an image's state word (R382). -/
def stateWordAt (i : Side) : Nat := imageBase i + 176

/-- The image partition an address lies in. -/
def imageOf (a : Nat) : Option Side := if a < 0x100000 then some .a else if a < 0x200000 then some .b else none

/-- A warden executes from this image. -/
def Shim.exec (s : Shim) : Side → Bool
  | .a => s.execA
  | .b => s.execB

/-- The address is in a partition open to SHIM_READ: all but the counters, the journal and the reserved range. -/
def readable (a : Nat) : Bool := decide (a < 0x380000) || (decide (0x3A0000 ≤ a) && decide (a < 0x3E0000))

/-- The address is in a partition open to SHIM_TXN WRITE: images no warden executes from, profiles, the user area. -/
def Shim.writable (s : Shim) (a : Nat) : Bool :=
  match imageOf a with
  | some i => !s.exec i
  | none => (decide (0x2C0000 ≤ a) && decide (a < 0x300000)) || (decide (0x3A0000 ≤ a) && decide (a < 0x3E0000))

/-! ## The journal (R376) -/

/-- Write every extent of a transaction to its target. -/
def applyTxn (t : Txn) (h : Hub) : Hub := forEach t.extents (fun e => storeRun e.1 e.2) h

/-- Put a transaction in the queue; the journal takes one at a time. -/
def queueTxn (extents : List (Nat × Bytes)) (desc total : Option Nat) (h : Hub) : Hub :=
  h.onShim fun s =>
    { s with waiting := s.waiting ++ [{ seq := s.seq, extents, desc, total, committed := false }], seq := (s.seq + 1) % 2 ^ 32 }

/-- A transaction that the hub makes itself within one command (Peat entries, state words, records): opened,
committed and applied, with the next sequence number. -/
def journalNow (extents : List (Nat × Bytes)) (h : Hub) : Hub :=
  applyTxn { seq := h.shim.seq, extents, desc := none, total := none, committed := true }
    (h.onShim fun s => { s with seq := (s.seq + 1) % 2 ^ 32 })

/-- Set an image's state word: 0 INVALID, 1 VALID (R382). -/
def setImageState (i : Side) (v : Nat) (h : Hub) : Hub := journalNow [(stateWordAt i, leBytes 4 v)] h

/-- An image's state is VALID. -/
def Shim.imageValid (s : Shim) (i : Side) : Bool := leNat (memReadN s.mem (stateWordAt i) 4) == 1

/-- Set an image to INVALID, and SHIM_EVT.image_invalid when it was not (R385). -/
def invalidateImage (i : Side) (h : Hub) : Hub :=
  if h.shim.imageValid i then raiseShim (bit16 3) (setImageState i 0 h) else h

/-! ## Peat entries (R421, R422) -/

/-- TOP_CHARGE (R321 registers). -/
def WardenState.code : WardenState → Nat
  | .off => 0 | .booting => 1 | .shadow => 2 | .inCharge => 3 | .held => 4 | .loader => 5

def Hub.topCharge (h : Hub) : Nat :=
  (match h.comp.charge with
    | none => 0
    | some .a => at_ 30 2 1
    | some .b => at_ 30 2 2)
  + at_ 27 3 h.comp.aState.code + at_ 24 3 h.comp.bState.code + atB 23 h.top.strapCharge + atB 22 h.comp.split

/-- CLK_ROOT_STATE (R44 registers). -/
def Hub.rootState (h : Hub) : Nat :=
  at_ 10 3 h.clk.lastCause.toNat + atB 9 h.clk.bootClk + atB 8 h.clk.warm + atB 7 h.clk.relValid
  + at_ 4 3 h.clk.bState.code + at_ 1 3 h.clk.aState.code + atB 0 h.clk.activeB

/-- Hottest junction sensor reading. -/
def Hub.hottest (h : Hub) : Int := h.pwr.temps.toList.foldl max (h.pwr.temps[(0 : Fin 8)])

/-- The 64 bytes of an entry (R422). -/
def peatBytes (h : Hub) (type : Nat) (first : Bool) (msg : BitVec 64) (t : BitVec 64) (ep : BitVec 16) (detail : Bytes) : Bytes :=
  let d0 := h.doms[(0 : Fin 16)]
  let b := [BitVec.ofNat 8 type,
      BitVec.ofNat 8 (at_ 4 4 h.top.mode.code + atB 3 h.flt.ovf + atB 2 d0.todUnset + atB 1 d0.stepped + atB 0 first)]
    ++ leBytes 2 (min 0xFFFF h.flt.peatLost) ++ leBytes 4 (h.flt.peatSeq + 1) ++ leBytes 8 msg.toNat ++ leBytes 8 t.toNat
    ++ leBytes 2 ep.toNat ++ leBytes 6 (secsOf ((ep.toNat : Int) * 2 ^ 64 + t.toNat)) ++ leBytes 4 (h.shim.counters[(0 : Fin 256)])
    ++ leBytes 4 h.flt.capCnt ++ leBytes 2 (ofSigned 16 h.hottest) ++ leBytes 2 h.pwr.vin
    ++ [BitVec.ofNat 8 (h.topCharge / 2 ^ 24), BitVec.ofNat 8 h.rootState, BitVec.ofNat 8 d0.state.code, 0]
    ++ slice detail 0 12
  b ++ leBytes 4 (crc32c b)

/-- Write an entry at an index, as one journal transaction, with the next sequence number. -/
def peatAtIndex (i : Nat) (b : Bytes) (h : Hub) : Hub :=
  (journalNow [(peatBase + 64 * i, b)] h).onFlt fun f => { f with peatSeq := (f.peatSeq + 1) % 2 ^ 32, peatLost := 0 }

/-- An entry of the running zone, in circular order from FLT_PEAT.head. -/
def peatRunning (type : Nat) (first : Bool) (msg : BitVec 64) (t : BitVec 64) (ep : BitVec 16) (detail : Bytes) (h : Hub) : Hub :=
  let h' := peatAtIndex h.flt.head (peatBytes h type first msg t ep detail) h
  h'.onFlt fun f => { f with head := if f.head ≥ 8191 then 64 else f.head + 1 }

/-- An event entry at the present instant (types 2, 3, 5 to 8), never dropped by the rate limit. -/
def peatEvent (type : Nat) (detail : Bytes) (h : Hub) : Hub :=
  peatRunning type false 0 h.houseShort h.houseEpoch detail h

/-- An entry of the first-fault zone: the lowest empty entry; with the zone full, the running zone with first set. -/
def peatFirst (type : Nat) (m : Stamped) (h : Hub) : Hub :=
  let h := h.onFlt fun f => { f with armed := f.armed.map fun a => (a.1, a.2.1, a.2.2.1, true) }
  if h.flt.ffCount < 64 then
    (peatAtIndex h.flt.ffCount (peatBytes h type true m.msg.word m.time m.epoch []) h).onFlt fun f =>
      { f with ffCount := f.ffCount + 1 }
  else
    raiseFlt (bit16 7) ((peatRunning type true m.msg.word m.time m.epoch [] h).onFlt fun f => { f with ffFull := true })

/-- A message entry of the running zone: at most one in each 100 µs, 150,000 root cycles; the others are counted. -/
def peatMessage (m : Stamped) (h : Hub) : Hub :=
  let free := match h.flt.peatAt with
    | none => true
    | some c => decide (c + 150000 ≤ h.clk.cycles)
  if free then
    (peatRunning 1 false m.msg.word m.time m.epoch [] h).onFlt fun f => { f with peatAt := some h.clk.cycles }
  else h.onFlt fun f => { f with peatLost := satAdd 0xFFFF f.peatLost 1, peatLostAll := satInc32 f.peatLostAll }

end Sys2Proof.Machine
end

