-- ==== Sys2Proof/Machine/Grid.lean ====
section
/-!
DEFINITION. The grids of the outputs: settings of clock and pulse outputs, the grid instants of R192 and R205, the place
that the pulse generator gives an edge (R207), and what a step of a domain's time does to its outputs (R193, R209).
Instants are domain times in 2^-64 steps.
-/

namespace Sys2Proof.Machine

/-! ## Clock outputs (R191, R218) -/

def outDomain (p : Payload) : Fin 16 := ⟨pf p 2 4 4 % 16, Nat.mod_lt _ (by decide)⟩
def outN (p : Payload) : Nat := pf p 4 0 24 + 1
def outFmt (p : Payload) : Nat := pf p 1 4 3
def outRemote (p : Payload) : Bool := pb p 2 3
def outSns (p : Payload) : Nat := pf p 3 0 4

/-- The pin in the disable state (R199). -/
def outDisabled (p : Payload) : ClkPin := if pf p 1 2 2 = 0 then .low else if pf p 1 2 2 = 1 then .bothLow else .hiZ

/-- First multiple of a step at or after t. -/
def gridUp (step t : Int) : Int := -((-t).fdiv step) * step

/-- Period of a clock output. -/
def outPeriod (p : Payload) : Int := outN p * rootU

/-- First rising edge of the grid of R192 after t: a whole multiple of N root periods of domain time. -/
def nextRise (p : Payload) (t : Int) : Int := gridUp (outPeriod p) (t + 1)

/-- First falling edge of that grid after t: an odd multiple of N/2. -/
def nextFall (p : Payload) (t : Int) : Int := nextRise p (t + outPeriod p / 2) - outPeriod p / 2

/-- Between a rising edge of the grid and the falling edge after it. -/
def gridHigh (p : Payload) (t : Int) : Bool := decide (t.fmod (outPeriod p) < outPeriod p / 2)

/-- DOM time now. -/
def Dom.now (d : Dom) : Int := d.secs * secU + d.sub

/-! ## Pulse outputs (R205, R220) -/

def plsDomain (p : Payload) : Fin 16 := ⟨pf p 2 0 4 % 16, Nat.mod_lt _ (by decide)⟩
def plsPeriod (p : Payload) : Nat := pf p 8 0 64
def plsWidth (p : Payload) : Nat := pf p 16 0 64
def plsCount (p : Payload) : Nat := pf p 4 0 32
def plsStart_ (p : Payload) : Int := (pf p 24 0 48 : Int) * secFu + (pf p 30 0 32 * 65536 + pf p 34 0 16 : Nat)
def plsLow (p : Payload) : Bool := pb p 1 6
def plsTerm (p : Payload) : Bool := pb p 1 5

/-- A pulse output with a period below 2 ns (R206). -/
def plsFast (p : Payload) : Bool := decide (plsPeriod p < 131072)

/-- Period in 2^-64 steps. -/
def plsStep (p : Payload) : Int := (max 1 (plsPeriod p) : Nat) * fuU

/-- Origin of the grid with the shift applied (10^-6 fu). -/
def Pls.origin (x : Pls) : Int := plsStart_ x.run * fuU + rdiv (x.shift * fuU) (10 ^ 6)

/-- First grid instant at or after t. -/
def Pls.gridFrom (x : Pls) (t : Int) : Int := x.origin + gridUp (plsStep x.run) (t - x.origin)

/-- The grid instant nearest to t. -/
def Pls.gridNear (x : Pls) (t : Int) : Int := x.origin + rdiv (t - x.origin) (plsStep x.run) * plsStep x.run

/-- End of a pulse that begins at t: W later, or P/2 for a period below 2 ns. -/
def Pls.endOf (x : Pls) (t : Int) : Int :=
  if plsFast x.run then t + plsStep x.run / 2 else t + plsWidth x.run * fuU

/-- The first instant at which R209 lets a pulse begin: the end of the last one, and 1 ns more unless both belong to one grid with
a period below 2 ns. -/
def Pls.freeFrom (x : Pls) : Option Int := x.lastEnd.map fun e => if plsFast x.run && !x.moved then e else e + 65536 * fuU

/-- The next pulse: the first grid instant, from the one that comes next, that R209 does not skip. -/
def Pls.nextPulse (x : Pls) : Int :=
  match x.freeFrom with
  | some e => if x.next < e then x.gridFrom e else x.next
  | none => x.next

/-- The ball between pulses, and within one (R205). -/
def plsIdle (p : Payload) : PlsPin := if plsLow p then .high else .low
def plsActive (p : Payload) : PlsPin := if plsLow p then .low else .high

/-- Drive setting of the calibration record (R392, R478): LVCMOS at the three bank voltages, or the 50 Ω driver. -/
def Pls.driveIndex (x : Pls) : Nat := if plsTerm x.run then 3 else x.delayClass.toNat - 1

/-- Output-path delay of PLS[n] in force, 10^-5 fu. -/
def Hub.plsDelay (h : Hub) (n : Fin 64) : Int := h.cal.outPath.getD (480 + 4 * n + h.plss[n].driveIndex) 0

/-- 10^-5 fu in 2^-64 steps. -/
def fu5U (v : Int) : Int := rdiv (v * fuU) (10 ^ 5)

/-- Where the generator places the edge of a grid instant t (domain time): less the output-path delay, at the nearest of
1,024 places in the root period (R207). -/
def Hub.placed (h : Hub) (n : Fin 64) (t : Int) : Int :=
  let d := h.doms[plsDomain h.plss[n].run]
  let w := h.rotFofs d
  let off := rdiv ((t - d.now) * (2 ^ 16 * 10 ^ 12)) (2 ^ 16 * 10 ^ 12 + w)
  let root := h.clk.cycles * rootU + off - fu5U (h.plsDelay n)
  let moved := rdiv root (2 ^ 66) * 2 ^ 66 - (h.clk.cycles * rootU + off)
  t + moved

/-- 1 ns and 20 µs in 2^-64 steps. -/
def nsU : Int := 65536 * fuU
def usU : Int := 1000 * nsU

/-! ## A step of domain time (R193, R209) -/

/-- The stretched cycle at domain time t, where one is in progress: its next rising edge. -/
def ClkOut.stretching (x : ClkOut) (t : Int) : Option Int := x.stretch.filter fun r => decide (t < r)

/-- The next rising edge of a running output after t (R192, R193). -/
def ClkOut.rise (x : ClkOut) (t : Int) : Int := (x.stretching t).getD (nextRise x.cfg t)

/-- A running output is high at t. In a stretched cycle that began high the falling edge comes N/2 root periods before the next
rising edge; one that began low stays low until then (R193). -/
def ClkOut.isHigh (x : ClkOut) (t : Int) : Bool :=
  match x.stretching t with
  | some r => x.high && decide (t < r - outPeriod x.cfg / 2)
  | none => gridHigh x.cfg t

/-- A running output after a step v of its domain's time, now at `now`: the next rising edge is the first of the new grid at or
after the one that was due, moved with the step. The edge of the instant of the step itself has been made (log 75). -/
def ClkOut.realign (v now : Int) (x : ClkOut) : ClkOut :=
  let was := now - v
  { x with stretch := some (gridUp (outPeriod x.cfg) (x.rise was + v)), high := x.isHigh was, evt := x.evt.raise (bit16 2) }

/-- Each enabled clock output of DOM[m] goes back onto its grid. -/
def realignOuts (m : Fin 16) (v : Int) (h : Hub) : Hub :=
  let now := h.doms[m].now
  { h with outs := h.outs.map fun (x : ClkOut) => if x.enabled && outDomain x.cfg == m then x.realign v now else x }

/-- An enable's boundary lies at most N/2 root periods ahead of t. -/
def ClkOut.lowering (x : ClkOut) (t : Int) : Bool :=
  match x.pend with
  | some q => q.enable && decide (q.boundary - outPeriod x.cfg / 2 ≤ t)
  | none => false

/-- In BOOT both legs stay low until the output's DLL has locked (R38, R68, R216). -/
def Hub.bootHolds (h : Hub) (n : Fin 96) : Bool := h.inMode .boot && !h.dlls[n].locked

/-- What CLK[n] does with its legs when its settings ask for p. -/
def Hub.pinNow (h : Hub) (n : Fin 96) (p : ClkPin) : ClkPin := if h.bootHolds n then .bothLow else p

/-! ## The legs (R198, R199, R216) -/

/-- The two legs of a clock output: logic low is leg P low and leg N high, high the reverse. -/
inductive Legs where
  | hiZ | bothLow | low | high
deriving DecidableEq, Repr

/-- The legs at domain time t: an enable brings logic low N/2 root periods before its boundary (R198). -/
def ClkOut.legs (x : ClkOut) (t : Int) : Legs :=
  match x.pin with
  | .running => if x.isHigh t then .high else .low
  | .hiZ => if x.lowering t then .low else .hiZ
  | .bothLow => if x.lowering t then .low else .bothLow
  | .low => .low

/-- CLK[n] as configured. -/
def Hub.pinSet (h : Hub) (n : Fin 96) : ClkPin := if h.outs[n].enabled then .running else outDisabled h.outs[n].cfg

/-- The legs of CLK[n] now. -/
def Hub.clkLegs (h : Hub) (n : Fin 96) : Legs :=
  if h.bootHolds n && h.outs[n].pin == .bothLow then .bothLow else h.outs[n].legs h.doms[outDomain h.outs[n].cfg].now

/-- The pulse outputs of DOM[m] keep what has happened at its new time, and look for their next grid instant in it. -/
def restepPulses (m : Fin 16) (v : Int) (h : Hub) : Hub :=
  let now := h.doms[m].now
  { h with plss := h.plss.map fun (x : Pls) =>
      if plsDomain x.run == m then
        let x := { x with
          moved := true, from_ := x.from_ + v, lastStart := x.lastStart.map (· + v), lastEnd := x.lastEnd.map (· + v)
          trail := x.trail.map (· + v)
          pend := x.pend.map fun (q : Nat × Payload × Int) => (q.1, q.2.1, q.2.2 + v) }
        { x with next := x.gridFrom (max now x.from_) }
      else x }

end Sys2Proof.Machine
end

