-- ==== Sys2Proof/Machine/Servo.lean ====
section
/-!
DEFINITION. What a DOMAIN task does at an update (R149 to R183): usable slots and policies, the phase error, the servo,
the Sluice, alignment, the states, holdover and its bound, the weights of an ensemble, and the rotator's limit (R54).
Frequencies are counted in 2^-16 ppt, phases in 10^-6 fu.
-/

namespace Sys2Proof.Machine

/-! ## Settings in force (R178) -/

def Dom.keeper (d : Dom) : Bool := pb d.set_ 1 5
def Dom.revertive (d : Dom) : Bool := pb d.set_ 1 4
def Dom.acqStep (d : Dom) : Bool := pb d.set_ 1 3
def Dom.driftEn (d : Dom) : Bool := pb d.set_ 1 2
def Dom.tempEn (d : Dom) : Bool := pb d.set_ 1 1
def Dom.bandwidth (d : Dom) : Nat := pf d.set_ 4 0 32
def Dom.damping (d : Dom) : Nat := pf d.set_ 8 0 16
def Dom.holdoffSet (d : Dom) : Nat := pf d.set_ 10 0 16
def Dom.pmax (d : Dom) : Nat := pf d.set_ 12 0 32
def Dom.rmax (d : Dom) : Nat := pf d.set_ 16 0 32
def Dom.lockTime (d : Dom) : Nat := pf d.set_ 20 0 16
def Dom.hoMinTrack (d : Dom) : Nat := pf d.set_ 22 0 16
def Dom.hoAvg (d : Dom) : Nat := pf d.set_ 24 0 16
def Dom.driftWin (d : Dom) : Nat := pf d.set_ 26 0 16
def Dom.lockPhase (d : Dom) : Nat := pf d.set_ 28 0 32
def Dom.hoLimit (d : Dom) : Nat := pf d.set_ 32 0 48
def Dom.yFloor (d : Dom) : Nat := pf d.set_ 38 0 16
def Dom.aFloor (d : Dom) : Nat := pf d.set_ 40 0 16
def Dom.ktBound (d : Dom) : Nat := pf d.set_ 42 0 16
def Dom.dtBound (d : Dom) : Nat := pf d.set_ 44 0 8
def Dom.tempCoef (d : Dom) : Int := pfs d.set_ 46 0 16

/-- Entry of a slot in the active priority table, weight floor and ceiling (R145). -/
def Dom.prioOf (d : Dom) (s : Fin 12) : Nat := pf d.prio (8 + s) 0 8
def Dom.wFloor (d : Dom) : Nat := pf d.prio 2 0 16
def Dom.wCeil (d : Dom) : Nat := pf d.prio 4 0 16

/-- Fields of REF_CONFIG that the domains need (R142). -/
def RefSlot.format (r : RefSlot) : Nat := pf r.cfg 1 5 3
def RefSlot.enabled (r : RefSlot) : Bool := pb r.cfg 1 4
def RefSlot.nominal (r : RefSlot) : Nat := pf r.cfg 16 0 48
def RefSlot.link (r : RefSlot) : Nat := pf r.cfg 7 0 6

/-- Fields of LINK_CONFIG and of the PTP payload that a LINK slot needs: the port in an Ethernet mode (mode 2 or 3 of
LINK_CONFIG) without synce_rx has τ0 of 1 s (R281). -/
def Link.mode (l : Link) : Nat := pf l.cfg 1 0 3
def PtpPort.synceRx (p : PtpPort) : Bool := pb p.cfg 2 0
def PtpPort.logSync (p : PtpPort) : Int := pfs p.cfg 7 0 8

/-- The port of a LINK slot. -/
def RefSlot.port (r : RefSlot) : Option (Fin 48) := finOf 48 r.link

/-- The port is in an Ethernet mode. -/
def Link.eth (l : Link) : Bool := decide (2 ≤ l.mode)

/-- The slot is a LINK slot on a port in an Ethernet mode. -/
def Hub.onEth (h : Hub) (r : RefSlot) : Bool :=
  r.format == 5 && match r.port with
    | some n => h.links[n].eth
    | none => false

/-- The slot's τ0 is 1 s: pulse formats (R115), and Ethernet slots without synce_rx (R281). -/
def Hub.slow (h : Hub) (r : RefSlot) : Bool :=
  (decide (1 ≤ r.format) && decide (r.format ≤ 4)) ||
  (h.onEth r && match r.port with
    | some n => !h.hier.ptp[n].synceRx
    | none => false)

/-! ## What a domain may follow (R153, R159, R160) -/

/-- A task in this state runs; one that moves still runs on its source reed until its checkpoint (R315). -/
def TaskState.works : TaskState → Bool
  | .running | .moving => true
  | .unplaced | .restoring | .suspended | .shed => false

/-- Task k is absent: no reed runs it or is being loaded with it (R30). -/
def Hub.taskAbsent (h : Hub) (k : Nat) : Bool :=
  match (pick h.comp.tasks k {}).state with
  | .unplaced | .suspended | .shed => true
  | .running | .moving | .restoring => false

/-- The tasks that a slot's samples come from are absent: its REFQ task, or the LINK task of its port (R30). -/
def Hub.refAbsent (h : Hub) (s : Fin 12) : Bool :=
  h.taskAbsent (48 + s) || (h.refs[s].format == 5 && h.taskAbsent h.refs[s].link)

/-- The slot is usable by the domain (R153); a slot whose task is absent is lost to it (R30). -/
def Hub.usable (h : Hub) (d : Dom) (s : Fin 12) : Bool :=
  h.refs[s].state == .qualified && d.prioOf s != 0 && !d.excluded.getLsbD s && !h.refAbsent s

/-- The usable slots, the most preferred first: lower entry, then lower number (R135). -/
def Hub.usableSlots (h : Hub) (d : Dom) : List (Fin 12) :=
  ((allFin 12).filter (h.usable d)).mergeSort fun a b =>
    decide (d.prioOf a < d.prioOf b) || (d.prioOf a == d.prioOf b && decide (a ≤ b))

/-- The slots a domain follows now. -/
def Dom.followed (d : Dom) : List (Fin 12) := (allFin 12).filter fun s => d.members.getLsbD s

/-- The active weight of a slot (R138). -/
def Dom.weight (d : Dom) (s : Fin 12) : Nat := d.weights[s]

/-- A set of slots as a mask. -/
def maskOf (l : List (Fin 12)) : BitVec 12 := l.foldl (fun m s => m ||| BitVec.ofNat 12 (2 ^ s.val)) 0

/-- Bit m of REF_USERS[s] follows the members of DOM[m] (R132). -/
def setUsers (m : Fin 16) (mem : BitVec 12) (h : Hub) : Hub :=
  { h with refs := h.refs.mapFinIdx fun s r _ =>
      { r with users := if mem.getLsbD s then r.users ||| BitVec.ofNat 16 (2 ^ m.val)
                        else r.users &&& ~~~(BitVec.ofNat 16 (2 ^ m.val)) } }

/-- What the domain follows, each slot with its weight; the selected slot has all the weight. -/
def Dom.following (d : Dom) : List (Fin 12 × Nat) :=
  d.followed.map fun s => (s, if d.policy = 1 then d.weight s else 65536)

/-- The slots whose REF_USERS the domain is in: those it follows with a nonzero weight (R132). -/
def Dom.uses (d : Dom) : BitVec 12 := maskOf ((d.following.filter fun p => p.2 != 0).map (·.1))

/-- The domain now follows these slots (none: selected 0xF). -/
def setFollow (m : Fin 16) (sel : Option (Fin 12)) (mem : BitVec 12) (h : Hub) : Hub :=
  let h := h.onDom m fun d =>
    { d with members := mem, selected := match sel with
        | some s => BitVec.ofNat 4 s
        | none => 0xF }
  setUsers m h.doms[m].uses h

/-- Valid TOD for the purposes of alignment and SET_TIME: a labelled slot with valid TOD, or a LINK slot (R154, R172). -/
def RefSlot.absolute (r : RefSlot) : Bool :=
  r.format == 5 || ((r.format == 3 || r.format == 4) && r.todValid)

/-! ## Ensemble weights (R137 to R139) -/

/-- 2π × 10^15 (R156); its error is far below one LSB of any result (log 8). -/
def twoPi15 : Int := 6283185307179586

/-- τ0 of a slot in ms. -/
def Hub.tau0 (h : Hub) (r : RefSlot) : Nat := if h.slow r then 1000 else 1

/-- Bandwidth in use, µHz: at T of 1 s and more, at most 10 mHz × 1 s / T (R157, R281). -/
def Dom.fLoop (d : Dom) (tMs : Nat) : Nat := if tMs < 1000 then d.bandwidth else min d.bandwidth (10000000 / tMs)

/-- Rung nearest to τ_L on a logarithmic scale: the largest j with 2 (τ_L / τ0)² ≥ 4^j (R138). -/
def rungNear (fL tau0 top : Nat) : Nat :=
  (List.range (top + 1)).foldl (fun best j =>
    if 4 ^ j * ((twoPi15.toNat * fL * tau0) ^ 2) ≤ 2 * (10 ^ 24) ^ 2 then max best j else best) 0

/-- A rung is ready after 8 × 2^j differences (R137). -/
def Rung.ready (r : Rung) (j : Nat) : Bool := decide (8 * 2 ^ j ≤ r.n)

/-- σ² of rung j in (2^-16 ppt)², at least 1 (R137, R138). -/
def sigmaSq (r : Rung) (tau0 j : Nat) : Nat := max 1 (r.mean * 10 ^ 24 / (2 * (2 ^ j * tau0 * 65536000000) ^ 2))

/-- Sync interval of an Ethernet slot with τ0 of 1 s, ms; 0 of any other slot. -/
def Hub.syncMs (h : Hub) (r : RefSlot) : Nat :=
  if h.onEth r && h.slow r then
    match r.port with
    | some n =>
      let j := h.hier.ptp[n].logSync
      if 0 ≤ j then 1000 * 2 ^ j.toNat else 1000 / 2 ^ (-j).toNat
    | none => 0
  else 0

/-- Every one of these slots has τ0 of 1 s and a Sync interval above 1 s is among them (R281). -/
def Hub.sparseOf (h : Hub) (l : List (Fin 12)) : Bool :=
  !l.isEmpty && l.all (fun s => h.slow h.refs[s]) && l.any fun s => decide (1000 < h.syncMs h.refs[s])

/-- T of a domain that follows these slots, ms: 1 ms where each has τ0 of 1 ms, else 1 s, and where Syncs are rarer the least time
between samples (R156, R281). -/
def Hub.periodMs (h : Hub) (l : List (Fin 12)) : Nat :=
  if !l.any fun s => h.slow h.refs[s] then 1
  else if h.sparseOf l then (l.map fun s => max 1000 (h.syncMs h.refs[s])).foldl min 128000
  else 1000

/-- The rung a member uses: the nearest, else the highest ready one below it, else the lowest ready one (R138). A rung whose τ_j is
shorter than the Sync interval is never ready (R281). -/
def Hub.rungFor (h : Hub) (r : RefSlot) (near : Nat) : Option Nat :=
  let ok j := (pick r.rungs j {}).ready j && decide (h.syncMs r ≤ 2 ^ j * h.tau0 r)
  match ((List.range (near + 1)).reverse.find? ok) with
  | some j => some j
  | none => (List.range 25).find? ok

/-- The weights in ‰ for given σ²: floor and ceiling respected, λ from the members between them; equal weights where
the bounds cannot be met, or where no member has a rung (R138). -/
def solveWeights (fl ce : Nat) (s2 : List Nat) : List Rat :=
  let n := s2.length
  if n * fl > 1000 ∨ n * ce < 1000 then s2.map fun _ => (1000 : Rat) / n
  else
    let total (lam : Rat) : Rat := (s2.map fun s => min (ce : Rat) (max (fl : Rat) (lam / s))).sum
    let cuts := (s2.flatMap fun s => [fl * s, ce * s]).filter fun b => total b ≤ 1000
    let b := cuts.foldl max 0
    let free s := decide (fl * s ≤ b) && decide (b < ce * s)
    let fixed : Rat := (s2.map fun s => if free s then 0 else min (ce : Rat) (max (fl : Rat) ((b : Rat) / s))).sum
    let inv : Rat := (s2.map fun s => if free s then (1 : Rat) / s else 0).sum
    let lam : Rat := if inv = 0 then b else (1000 - fixed) / inv
    s2.map fun s => min (ce : Rat) (max (fl : Rat) (lam / s))

/-- Weights to 2^-16, rounded down; the remainder goes to the largest strictly between the bounds, or to the largest
(R139). -/
def roundWeights (fl ce : Nat) (w : List Rat) : List Nat :=
  let u := w.map fun x => (x * 65536 / 1000).floor.toNat
  let rest := 65536 - u.sum
  let inner := (w.zip u).map fun p => if (fl : Rat) < p.1 && p.1 < (ce : Rat) then p.2 + 1 else 0
  let pool := if inner.all (· == 0) then u.map (· + 1) else inner
  let top := pool.foldl max 0
  let at_ := pool.findIdx (· == top)
  u.zipIdx.map fun p => if p.2 = at_ then p.1 + rest else p.1

/-- The weight table of a domain for a set of members (R138, R139). A member with no ready rung at all, for which the rules give no
σ², takes σ² of (1 ppt × 2^-16)², the least that R138 allows (DESIGN CHOICE, log 80). -/
def Hub.weightsFor (h : Hub) (d : Dom) (mem : List (Fin 12)) : Vector Nat 12 :=
  let fL := d.fLoop (h.periodMs mem)
  let s2 := mem.map fun s =>
    let r := h.refs[s]
    let t0 := h.tau0 r
    match h.rungFor r (rungNear fL t0 (if t0 = 1 then 24 else 14)) with
    | some j => sigmaSq (pick r.rungs j {}) t0 j
    | none => 1
  let w := roundWeights d.wFloor d.wCeil (solveWeights d.wFloor d.wCeil s2)
  (mem.zip w).foldl (fun v p => v.set p.1 p.2) (Vector.replicate 12 0)

/-- The slot a domain's hops come from: the selected slot, or the member with the largest weight (R151). -/
def Hub.leader (d : Dom) : Option (Fin 12) :=
  if d.policy = 1 then
    d.followed.foldl (fun b s => match b with
      | none => some s
      | some t => if d.weight t < d.weight s then some s else some t) none
  else d.followed.head?

/-- Hops of the slot a domain follows: the upstream's plus one for a link, else 0 (R151). -/
def Hub.hopsOf (h : Hub) (d : Dom) : BitVec 3 :=
  match Hub.leader d with
  | none => 0
  | some s =>
    let r := h.refs[s]
    if r.format = 5 then
      match r.port with
      | some n =>
        if h.links[n].eth then
          BitVec.ofNat 3 (match h.hier.ptp[n].best with
            | some b => min 7 (b.stepsRemoved + 1)
            | none => 0)
        else BitVec.ofNat 3 (min 7 (h.links[n].peerHop.toNat + 1))
      | none => 0
    else 0

/-! ## The phase error (R154, R155) -/

/-- The difference at nominal time t, between two corners in a straight line; `next` is the corner after those listed (nominal time,
difference). -/
def leadAt (t : Int) (next : Int × Int) : List Corner → Int
  | [] => next.2
  | c :: l =>
    if c.nom ≤ t then c.lead + rdiv ((next.2 - c.lead) * (t - c.nom)) (max 1 (next.1 - c.nom))
    else leadAt t (c.nom, c.lead) l

/-- p_k: domain time minus nominal time at an instant of the nominal scale (fu), 10^-6 fu (R154). -/
def Hub.lead (h : Hub) (d : Dom) (instant : Int) : Int :=
  let nom := h.clk.nomTime
  let now := d.leadNow nom
  rdiv ((if nom ≤ instant * fuU then now else leadAt (instant * fuU) (nom, now) d.leads) * 10 ^ 6) fuU

/-- The period P modulo which a format's phase is known, in 10^-6 fu as a numerator and a denominator: 1/f for FREQ; none where it is
not ambiguous (R115, R154). -/
def RefSlot.period (r : RefSlot) : Option (Int × Int) :=
  if r.format = 0 then some (secFu * 10 ^ 6 * 65536, max 1 r.nominal)
  else if r.format = 1 then some (secFu * 10 ^ 6, 1)
  else if r.format = 2 then some (secFu * 10 ^ 5, 1)
  else if r.absolute then none
  else some (secFu * 10 ^ 6, 1)

/-- Wrap into [−P/2, P/2), P = num / den. -/
def wrapTo (p : Int × Int) (e : Int) : Int := rdiv ((2 * e * p.2 + p.1).emod (2 * p.1) - p.1) (2 * p.2)

/-- The error of a sample (x, instant) of a slot against the domain, 10^-6 fu. -/
def Hub.errOf (h : Hub) (d : Dom) (r : RefSlot) (x instant : Int) : Int :=
  let e := h.lead d instant + (x - d.pofs) * 10 ^ 6
  match r.period with
  | some p => wrapTo p e
  | none => e

/-- The sample a slot gives this update: the fresh one, or for a 1 ms slot in an update of 1 s the mean of the second. -/
def Hub.sampleFor (h : Hub) (r : RefSlot) (tMs : Nat) : Option (Int × Int) :=
  if decide (1000 ≤ tMs) && !h.slow r then
    (if r.sumN = 0 then none else some (rdiv r.sumX r.sumN, rdiv r.sumT r.sumN))
  else r.fresh

/-- Errors of the followed slots that give a sample. -/
def Hub.errors (h : Hub) (d : Dom) (tMs : Nat) : List (Fin 12 × Int) :=
  d.followed.filterMap fun s => (h.sampleFor h.refs[s] tMs).map fun xi => (s, h.errOf d h.refs[s] xi.1 xi.2)

/-- The weighted error of slots, the weights scaled to the slots that give a sample (R155, R281). -/
def Hub.errorOf (h : Hub) (d : Dom) (tMs : Nat) (slots : List (Fin 12 × Nat)) : Option Int :=
  let es := slots.filterMap fun p => (h.sampleFor h.refs[p.1] tMs).map fun xi => ((p.2 : Int), h.errOf d h.refs[p.1] xi.1 xi.2)
  let sumW := (es.map (·.1)).sum
  if sumW = 0 then none else some (rdiv (es.map fun p => p.1 * p.2).sum sumW)

/-- The error of the update: of the selected slot, or of the ensemble. -/
def Hub.errorFor (h : Hub) (d : Dom) (tMs : Nat) : Option Int := h.errorOf d tMs d.following

/-- The residual at this update against what the domain followed before a change; where a slot of it gives no sample any more, that
of the last update (R162). -/
def Hub.oldResidual (h : Hub) (d : Dom) (tMs : Nat) : Int :=
  if d.old.all fun p => (h.sampleFor h.refs[p.1] tMs).isSome then
    match h.errorOf d tMs d.old with
    | some e => e - d.rho
    | none => d.ep
  else d.ep

/-! ## Servo and Sluice (R156 to R165) -/

/-- rmax × t in 2^-16 ppt. -/
def Dom.rampStep (d : Dom) (tMs : Nat) : Int := rdiv (d.rmax * 65536 * tMs : Nat) (10 ^ 6)

/-- v moved towards target by at most step. -/
def toward (step target v : Int) : Int := clampI (v - step) (v + step) target

/-- K_p term of f in 2^-16 ppt: 1000 × K_p × ep (R156). -/
def kpTerm (fL : Nat) (ep : Int) : Int := rdiv (twoPi15 * fL * ep) (10 ^ 24)

/-- The integrator's increment in 2^-16 ppt: 1000 × K_i × t × ep (R156). -/
def kiTerm (fL damping tMs : Nat) (ep : Int) : Int :=
  rdiv (twoPi15 ^ 2 * (fL : Int) ^ 2 * 2500 * tMs * ep) ((max 1 damping : Nat) ^ 2 * 10 ^ 48)

/-- The integrator's own clamp, ±8,388,607 ppt. -/
def integMax : Int := 8388607 * 65536

/-- The integrator after an update, and whether R158 or its clamp held it. -/
def integNext (h : Hub) (d : Dom) (fL tMs : Nat) (ep : Int) : Int × Bool :=
  let di := kiTerm fL d.damping tMs ep
  let held := (decide (fofsMax ≤ h.rotRaw d) && decide (di < 0)) || (decide (h.rotRaw d ≤ fofsMin) && decide (0 < di))
  let i := if held then d.integ else d.integ + di
  (clampI (-integMax) integMax i, held || decide (integMax < i) || decide (i < -integMax))

/-- S for the next update and whether the run ends in it (R163). -/
def sluiceNext (d : Dom) (tMs : Nat) : Int × Bool :=
  let smax : Int := d.pmax * 65536
  let brake : Int := (isqrt (4 * (2 * d.rmax * d.rho.natAbs * 65536 / 10 ^ 6)) + 1) / 2
  let mag := min (min smax (d.slope.natAbs + d.rampStep tMs)) brake
  let s := if d.rho < 0 then mag else -mag
  if d.rho.natAbs ≤ s.natAbs * tMs then (rdiv (-d.rho) (max 1 tMs), true) else (s, false)

/-- S and DOM_FOFS held so that their sum moves by at most rmax × t (R164): S first nearer its previous value, then
DOM_FOFS; the third part tells that DOM_FOFS was held. -/
def holdSum (step f0 s0 f1 s1 : Int) : Int × Int × Bool :=
  let lo := f0 + s0 - step
  let hi := f0 + s0 + step
  if lo ≤ f1 + s1 ∧ f1 + s1 ≤ hi then (f1, s1, false)
  else
    let s2 := clampI (min s0 s1) (max s0 s1) (clampI (lo - f1) (hi - f1) s1)
    if lo ≤ f1 + s2 ∧ f1 + s2 ≤ hi then (f1, s2, false) else (clampI (f0 - step) (f0 + step) f1, s0, true)

/-- The Sluice is active (R163). -/
def Dom.sluicing (d : Dom) : Bool := d.rho != 0 || d.slope != 0

/-- DOM_FOFS moved from f0 towards f1 no further than the sum with S, going from s0 to s1, allows (R164), and whether that held it. -/
def holdFofs (step f0 s0 f1 s1 : Int) : Int × Bool :=
  let f := clampI (min f0 f1) (max f0 f1) (clampI (f0 + s0 - step - s1) (f0 + s0 + step - s1) f1)
  (f, f != f1)

/-- One Sluice update with DOM_FOFS candidate f and integrator i: the sum is held per R164, rho loses what S removes. In the update
that ends a run S is as R163 gives it, and DOM_FOFS alone is held (log 82); in the one after, S is zero. The clamp keeps DOM_FOFS
within R5. -/
def sluiceStep (d : Dom) (tMs : Nat) (f i : Int) : Dom :=
  let f := clampI fofsMin fofsMax f
  if d.rho = 0 then { d with fofs := f, slope := 0, integ := i, sluiceEnd := false }
  else
    let sl := sluiceNext d tMs
    if sl.2 then
      let r := holdFofs (d.rampStep tMs) d.fofs d.slope f sl.1
      { d with fofs := r.1, slope := sl.1, rho := 0, integ := if r.2 then d.integ else i, sluiceEnd := true }
    else
      let r := holdSum (d.rampStep tMs) d.fofs d.slope f sl.1
      { d with fofs := r.1, slope := r.2.1, rho := d.rho + r.2.1 * tMs, integ := if r.2.2 then d.integ else i, sluiceEnd := false }

/-- The Sluice alone, DOM_FOFS kept. -/
def sluiceOnly (d : Dom) (tMs : Nat) : Dom := if d.sluicing then sluiceStep d tMs d.fofs d.integ else d

/-- Ramp S to zero and DOM_FOFS to a target, their sum moving by at most rmax × t (R165); while a slew runs, the Sluice gives S. -/
def rampTo (target : Int) (tMs : Nat) (d : Dom) : Dom :=
  let step := d.rampStep tMs
  let d :=
    if d.rho != 0 || d.sluiceEnd then sluiceStep d tMs (toward step target d.fofs) d.integ
    else
      let s := toward step 0 d.slope
      { d with slope := s, fofs := toward (step - (s - d.slope).natAbs) target d.fofs }
  { d with ramp := if d.fofs = target then none else some target }

/-! ## The rotator's limit (R54) -/

/-- Watch ROT_FOFS of DOM[m]: the CLK_ROT_SAT bit at the limit, OVERFLOW once per entry while TB_WARM is 1. -/
def checkRot (m : Fin 16) (h : Hub) : Hub :=
  let d := h.doms[m]
  let raw := h.rotRaw d
  if raw < fofsMin ∨ fofsMax < raw then
    let h := raiseRotSat (bit16 m) (h.onDom m fun d => { d with limited := true })
    if h.clk.warm && !d.limitSent then
      sendFault (srcRot m) .overflow accNone mInternal 0 (h.onDom m fun d => { d with limitSent := true })
    else h
  else h.onDom m fun d => { d with limited := false, limitSent := false }

/-- Watch every rotator. -/
def checkRots (h : Hub) : Hub := forEach (allFin 16) checkRot h

/-! ## States (R168) -/

/-- The DOM_EVT bit of a state. -/
def DomState.evtBit : DomState → Nat
  | .nominal => 0 | .acquire => 1 | .track => 2 | .holdover => 3 | .holdoverOut => 4 | .manual => 5

/-- The servo runs in this state. -/
def DomState.steered : DomState → Bool
  | .acquire | .track => true
  | .nominal | .holdover | .holdoverOut | .manual => false

/-- Enter a state: its DOM_EVT bit is set (R168). Outside ACQUIRE and TRACK no servo runs, so that nothing limits its integrator or
its bandwidth (R157, R158), and no hold-off runs (R159). -/
def enterDom (m : Fin 16) (st : DomState) (h : Hub) : Hub :=
  raiseDom m (bit16 st.evtBit) (h.onDom m fun d =>
    { d with
      state := st, lockMs := 0, intClamp := d.intClamp && st.steered, bwLimited := d.bwLimited && st.steered
      sluiceEnd := d.sluiceEnd && st.steered, holds := if st.steered then d.holds else [], holdDue := if st.steered then d.holdDue else [] })

/-- Tracked time to zero, with the history it gives the holdover model (R167, R170). -/
def Dom.clearTracked (d : Dom) : Dom :=
  { d with tracked := 0, secMeans := [], blocks := [], blkSum := 0, blkN := 0 }

/-- Enter NOMINAL (R165): rho to zero, DOM_FOFS + S ramped to zero. -/
def enterNominal (m : Fin 16) (h : Hub) : Hub :=
  enterDom m .nominal (setFollow m none 0 (h.onDom m fun d =>
    { d.clearTracked with rho := 0, ramp := some 0, hoTimer := 0, settle := .none }))

/-- Enter MANUAL (R161, R165): follows nothing, rho to zero, S ramps to zero, DOM_FOFS keeps its value. -/
def enterManual (m : Fin 16) (h : Hub) : Hub :=
  enterDom m .manual (setFollow m none 0 (h.onDom m fun d =>
    { d.clearTracked with rho := 0, ramp := none, hoTimer := 0, settle := .none }))

/-- What the domain's policy takes from slots in order of preference: the first under SELECT, all of them under ENSEMBLE. -/
def Dom.takes (d : Dom) (us : List (Fin 12)) : List (Fin 12) := if d.policy = 1 then us else us.take 1

/-- Follow what the policy takes from these slots, an ensemble with new weights (R139). -/
def follow (m : Fin 16) (us : List (Fin 12)) (h : Hub) : Hub :=
  let d := h.doms[m]
  let mem := d.takes us
  let h := if d.policy = 1 then h.onDom m fun d => { d with weights := h.weightsFor d mem, weightsNext := none } else h
  setFollow m (if d.policy = 1 then none else mem.head?) (maskOf mem) h

/-- What the domain follows is about to change: the next error settles the difference from what it followed (R162). -/
def Dom.leaving (d : Dom) : Dom := if d.settle == .none then { d with settle := .switch, old := d.following } else d

/-- Enter ACQUIRE from NOMINAL, MANUAL or holdover: integrator at minus DOM_FOFS, first error settled per R162, R166. -/
def enterAcquire (m : Fin 16) (h : Hub) : Hub :=
  enterDom m .acquire (follow m (h.usableSlots h.doms[m]) (h.onDom m fun d =>
    { d with integ := -d.fofs, settle := .enter, ramp := none, hoTimer := 0, acqFromTrack := false }))

/-- ACQUIRE again with one of these slots, or with all of them (R168): DOM_EVT.switch, the difference through the Sluice. -/
def reacquire (m : Fin 16) (us : List (Fin 12)) (h : Hub) : Hub :=
  let fromTrack := h.doms[m].state == .track || h.doms[m].acqFromTrack
  raiseDom m (bit16 6) (enterDom m .acquire (follow m us (h.onDom m fun d =>
    { d.leaving with acqFromTrack := fromTrack, holds := [], holdDue := [] })))

/-- What the policy takes from the usable slots changes while none of those followed is lost, as when a member joins an ensemble: the
domain keeps its state, for which R168 gives no row, with DOM_EVT.switch and the difference through the Sluice (R160, R162; log 83). -/
def regroup (m : Fin 16) (h : Hub) : Hub :=
  let d := h.doms[m]
  let us := h.usableSlots d
  if maskOf (d.takes us) = d.members then follow m us h
  else raiseDom m (bit16 6) (follow m us (h.onDom m Dom.leaving))

/-! ## Holdover (R170, R171) -/

/-- Sum of the eight junction sensors: T_j in 1/128 °C. -/
def Hub.tj (h : Hub) : Int := h.pwr.temps.toList.sum

/-- Mean of a list, rounded. -/
def meanI (l : List Int) : Int := if l.isEmpty then 0 else rdiv l.sum l.length

/-- Least-squares slope of 64 s block means, newest first, in 2^-16 ppt per 10^6 s (R170). -/
def slopeOf (b : List Int) : Int :=
  let n := b.length
  if n < 2 then 0
  else
    let num : Int := (b.zipIdx.map fun p => p.1 * ((n : Int) - 1 - 2 * p.2)).sum
    rdiv (num * 6 * 10 ^ 6) ((n : Int) * ((n : Int) ^ 2 - 1) * 64)

/-- The model frequency now (R170), 2^-16 ppt. -/
def Hub.model (h : Hub) (d : Dom) : Int :=
  clampI fofsMin fofsMax (d.y0 + rdiv (d.aAp * d.hoMs) (10 ^ 9) + d.tempBy * (h.tj - d.tj0) * 2)

/-- TE(t) in 10^-6 fu (R171). -/
def teAt (te0 yErr a ktdt t : Nat) : Nat := te0 + yErr * t * 1000 + a * t * t / 2000 + ktdt * t

/-- TE at the present t of a domain that holds over, 10^-6 fu (R171). -/
def Dom.te (d : Dom) : Nat := teAt d.te0 d.yErr d.aBound d.ktDt (d.hoMs / 1000)

/-- The largest t' ≥ t, differing from t only below bit k, for which TE(t') is at most lim. -/
def teSearch (te0 yErr a ktdt lim : Nat) : Nat → Nat → Nat
  | 0, t => t
  | k + 1, t => teSearch te0 yErr a ktdt lim k (if teAt te0 yErr a ktdt (t + 2 ^ k) ≤ lim then t + 2 ^ k else t)

/-- The holdover timer for a bound: zero when TE0 is already above it, saturating at 32 bits (R171). -/
def hoTimerFor (te0 yErr a ktdt lim : Nat) : Nat := if lim < te0 then 0 else teSearch te0 yErr a ktdt lim 32 0

/-- Enter HOLDOVER (R168 to R171): the model from the tracked history and the settings of now (R180), the timer from the bound. In SAFE y_err grows by
the difference between the frozen frequency and y0 (R169). -/
def enterHoldover (m : Fin 16) (h : Hub) : Hub :=
  let safe := h.isSafe
  let tj := h.tj
  let h := h.onDom m fun d =>
    let means := d.secMeans.take d.hoAvg
    let n := means.length
    let y0 := if n = 0 then d.fofs else meanI means
    let sq := (means.map fun v => (v - y0).natAbs ^ 2).sum
    let yErr := d.yFloor * 256 + (if n = 0 then 0 else isqrt sq / n) + (if safe then (d.fofs - y0).natAbs else 0)
    let blocks := d.blocks.take d.driftWin
    let aFit := slopeOf blocks
    let full := decide (d.driftWin ≤ blocks.length)
    let apply_ := d.driftEn && full
    let aFloor := d.aFloor * 256 * 10 ^ 6 / 86400
    let te0 := d.ep.natAbs + d.rho.natAbs
    let a := if apply_ then aFloor else aFloor + aFit.natAbs
    let ktDt := 16000 * d.ktBound * d.dtBound
    { d with
      y0, aFit, aAp := if apply_ then aFit else 0, tj0 := tj, hoMs := 0, te0, yErr, aBound := a, ktDt
      tempBy := if d.tempEn then d.tempCoef else 0, hoTimer := hoTimerFor te0 yErr a ktDt (d.hoLimit * 10 ^ 6)
      rho := 0, slope := if safe then d.slope else 0, ramp := some y0, settle := .none }
  bumpCounter 3 (bumpCounter (64 + m) (enterDom m .holdover (setFollow m none 0 h)))

/-- Every usable slot is lost in ACQUIRE or TRACK (R168, R169): HOLDOVER for a keeper that has tracked long enough,
NOMINAL otherwise; in SAFE an ORDINARY loss waits for the exit. -/
def loseAll (m : Fin 16) (h : Hub) : Hub :=
  let d := h.doms[m]
  if d.keeper && decide (d.hoMinTrack ≤ d.tracked) then enterHoldover m h
  else if h.isSafe then h
  else enterNominal m h

/-! ## Settings that take effect at an update (R180, R183) -/

/-- A change of policy as R168 gives: to MANUAL from anywhere; from MANUAL to what the usable slots allow. Between SELECT and
ENSEMBLE in ACQUIRE or TRACK, for which R168 has no row, the domain keeps its state and follows what the new policy takes, as any
other change of what it follows (DESIGN CHOICE, log 83). -/
def setPolicy (m : Fin 16) (p : Nat) (h : Hub) : Hub :=
  let old := h.doms[m].policy.toNat
  if p = old then h else
  let was := h.doms[m].following
  let h := h.onDom m fun d => { d with policy := BitVec.ofNat 2 p }
  if p = 2 then enterManual m h
  else if old = 2 then (if (h.usableSlots h.doms[m]).isEmpty then enterNominal m h else enterAcquire m h)
  else match h.doms[m].state with
    | .acquire | .track =>
      if (h.usableSlots h.doms[m]).isEmpty then h
      else
        let pending := h.doms[m].settle != .none
        (regroup m h).onDom m fun d => if pending || d.settle == .none then d else { d with old := was }
    | .nominal | .holdover | .holdoverOut | .manual => h

/-- DOMAIN_CONFIG takes effect (R180). -/
def applyDomConfig (m : Fin 16) (id : Nat) (p : Payload) (h : Hub) : Hub :=
  let d := h.doms[m]
  let p := pbytes p 48
  let h := (copyWritten (0xA000 + 0x200 * m) 48 h).onDom m fun d =>
    { d with
      cfg := p, set_ := p
      ramp := if (pf p 4 0 32 != d.bandwidth || pf p 8 0 16 != d.damping) && (d.state == .acquire || d.state == .track)
        then some d.fofs else d.ramp }
  let h := if pb p 1 5 != d.keeper then
      let h := h.onDom m Dom.clearTracked
      if d.keeper && (d.state == .holdover || d.state == .holdoverOut) then enterNominal m h else h
    else h
  complete id .ok (setPolicy m (pf p 1 6 2) h)

/-- DOMAIN_MODE takes effect, in the order policy, realign, clear_tracked, clear_stepped (R183). -/
def applyDomMode (m : Fin 16) (id : Nat) (p : Payload) (h : Hub) : Hub :=
  let pol := pf p 1 6 2
  let h := if pol = 0 then h else setPolicy m (pol - 1) h
  let h := if pb p 1 4 then h.onDom m fun d => { d with aligned := false, excluded := 0 } else h
  let h := if pb p 1 3 then h.onDom m Dom.clearTracked else h
  let h := if pb p 1 5 then h.onDom m fun d => { d with stepped := false } else h
  complete id .ok h

/-- Op of DOMAIN_STEER (R181). -/
def steerOp (p : Payload) : Nat := pf p 1 0 2

/-- The frequency word of DOMAIN_STEER. -/
def steerWord (p : Payload) : Int := pfs p 8 0 64

/-- The DOM_FOFS that a DOMAIN_STEER with op SET or ADD asks for (R181). -/
def Dom.steerAim (d : Dom) (p : Payload) : Int := if steerOp p = 1 then d.fofs + steerWord p else steerWord p

/-- DOM_FOFS goes to the value asked for, at once or ramped at rmax, in MANUAL only (R182). -/
def steerNow (m : Fin 16) (id : Nat) (p : Payload) (h : Hub) : Hub :=
  let f := h.doms[m].steerAim p
  if h.doms[m].state ≠ .manual then complete id .denied h
  else if f < fofsMin ∨ fofsMax < f then complete id .badParam h
  else
    let h := h.onDom m fun x => if pb p 1 2 then { x with ramp := some f } else { x with fofs := f, ramp := none }
    completeWith id .ok (resultOf [(0, 64, ofSigned 64 f)]) (checkRot m h)

/-- The changes that wait for the domain's next update, oldest first. -/
def applyDomOps (m : Fin 16) (h : Hub) : Hub :=
  let ops := h.doms[m].ops
  forEach ops (fun op => match op with
    | .config id p => applyDomConfig m id p
    | .mode id p => applyDomMode m id p
    | .steer id p => steerNow m id p) (h.onDom m fun d => { d with ops := [] })

/-! ## The update -/

/-- Whole seconds that have gathered in `sub`, or that a step back has taken from it, go to the 48-bit seconds. -/
def Dom.carry (d : Dom) : Dom :=
  { d with secs := ((d.secs + d.sub.fdiv secU) % 2 ^ 48).toNat, sub := d.sub.fmod secU }

/-- Step the domain's time by v (2^-64 step), with the stepped flag and DOM_EVT.step; its outputs go onto their grids in the
new time (R193, R209), and monitor windows carry stepped when the house domain steps (R166, R172, R437). -/
def stepDomain (m : Fin 16) (v : Int) (h : Hub) : Hub :=
  let nom := h.clk.nomTime
  let h := h.onDom m fun d => { (d.stepAt nom v).carry with stepped := true }
  let h := restepPulses m v (realignOuts m v h)
  let h := if m = 0 then h.onMons fun x => { x with unit := x.unit.map fun u =>
      { u with acc := { u.acc with flags := u.acc.flags ||| 0x10 } } } else h
  raiseDom m (bit16 7) h

/-- The aligned domain finds an error of 0.5 s or more against these slots: they are excluded (R166). -/
def excludeSlots (m : Fin 16) (bad : List (Fin 12)) (h : Hub) : Hub :=
  raiseDom m (bit16 8) (h.onDom m fun d => { d with excluded := d.excluded ||| maskOf bad })

/-- Half a second, 10^-6 fu. -/
def halfSec : Int := secFu / 2 * 10 ^ 6

/-- The followed slots whose error an aligned domain does not accept. -/
def Hub.mismatched (h : Hub) (d : Dom) (tMs : Nat) : List (Fin 12) :=
  if d.aligned then
    ((h.errors d tMs).filter fun p => (h.refs[p.1].format == 3 || h.refs[p.1].format == 4 || h.refs[p.1].format == 5)
      && decide (halfSec ≤ p.2.natAbs)).map (·.1)
  else []

/-- What the error e is first used for, and the error that remains for the servo (R162, R166, R169). After a change of what is
followed, rho gains the jump that the change would put into e: where rho is not zero, R162's "the error against the new reference
minus the residual ep against the old" would leave ep changed by rho, and its "the servo sees no jump" would not; the model takes the
latter (DESIGN CHOICE, log 82). -/
def settleError (m : Fin 16) (tMs : Nat) (e : Int) (h : Hub) : Int × Hub :=
  let d := h.doms[m]
  match d.settle with
  | .none => (e, h)
  | .enter =>
    if !d.aligned && d.acqStep then
      let abs_ := match Hub.leader d with
        | some s => h.refs[s].absolute
        | none => false
      let h := stepDomain m (rdiv (-e * fuU) (10 ^ 6)) (h.onDom m fun d => { d with settle := .none, todUnset := d.todUnset && !abs_ })
      (0, h)
    else (e, h.onDom m fun d => { d with settle := .none, rho := d.rho + e })
  | .switch =>
    let jump := e - d.rho - h.oldResidual d tMs
    (e, h.onDom m fun d => { d with settle := .none, old := [], rho := d.rho + jump })
  | .resume => (e, h.onDom m fun d => { d with settle := .none, rho := e })

/-- The servo and the Sluice with an error (R156 to R164). -/
def servoStep (m : Fin 16) (tMs : Nat) (e : Int) (h : Hub) : Hub :=
  let d := h.doms[m]
  let fL := d.fLoop tMs
  let ep := e - d.rho
  let (i, clamped) := integNext h d fL tMs ep
  let f := clampI fofsMin fofsMax (-(kpTerm fL ep + i))
  let f := if d.ramp.isSome then toward (d.rampStep tMs) f d.fofs else f
  let active := d.sluicing
  let h := h.onDom m fun d =>
    let d := { d with ep, ramp := if f = clampI fofsMin fofsMax (-(kpTerm fL ep + i)) then none else d.ramp }
    { (if active then sluiceStep d tMs f i else { d with fofs := f, integ := i }) with intClamp := clamped }
  let h := if clamped && !d.intClamp then raiseDom m (bit16 11) h else h
  let limited := decide (1000 ≤ tMs)
  let h := h.onDom m fun d => { d with bwLimited := limited }
  if limited && !d.bwLimited then raiseDom m (bit16 12) h else h

/-- ACQUIRE becomes TRACK when the Sluice is idle and |e| has stayed within lock_phase for lock_time (R168). -/
def lockStep (m : Fin 16) (tMs : Nat) (e : Int) (h : Hub) : Hub :=
  let d := h.doms[m]
  if d.state == .acquire then
    if !d.sluicing && decide (e.natAbs ≤ d.lockPhase * 10 ^ 6) then
      let t := d.lockMs + tMs
      if d.lockTime * 1000 ≤ t then
        (enterDom m .track h).onDom m fun d => { d with aligned := true, acqFromTrack := false }
      else h.onDom m fun d => { d with lockMs := t }
    else h.onDom m fun d => { d with lockMs := 0 }
  else h

/-- DOM_MEMBERS.holdoff: the seconds left on the hold-off that ends first, 0 where none runs. -/
def Dom.holdoff (d : Dom) : Nat := ((d.holds.map (·.2)).min?).getD 0

/-- The usable slots earlier in the order of R135 than the one a domain follows. -/
def Hub.earlier (h : Hub) (d : Dom) : List (Fin 12) :=
  match d.followed with
  | f :: _ => (h.usableSlots d).takeWhile (· != f)
  | [] => []

/-- The revertive hold-offs: one for each usable slot earlier than the one followed, begun anew when the slot stops being usable, and
ended for good once due (R159). -/
def holdoffStep (m : Fin 16) (h : Hub) : Hub :=
  let d := h.doms[m]
  let e := if d.policy == 0 && d.revertive && d.state.steered then h.earlier d else []
  let due := d.holdDue.filter e.contains
  let wait (s : Fin 12) : Fin 12 × Nat := (d.holds.find? fun p => p.1 == s).getD (s, d.holdoffSet)
  h.onDom m fun d => { d with holdDue := due, holds := (e.filter fun s => !due.contains s).map wait }

/-- The transitions that R168 judges before the error is formed. A revertive change is to the most preferred of the slots whose
hold-off has ended, still usable and still earlier (R159). -/
def judge (m : Fin 16) (h : Hub) : Hub :=
  let d := h.doms[m]
  let us := h.usableSlots d
  match d.state with
  | .manual => h
  | .nominal => if us.isEmpty then h else enterAcquire m h
  | .holdover | .holdoverOut => if us.isEmpty then h else enterAcquire m h
  | .acquire | .track =>
    if us.isEmpty then loseAll m h
    else if d.followed.isEmpty || d.followed.any fun s => !h.usable d s then reacquire m us h
    else if d.state == .track && d.policy == 0 && d.revertive && !((h.earlier d).filter d.holdDue.contains).isEmpty then
      reacquire m ((h.earlier d).filter d.holdDue.contains) h
    else if d.policy = 1 ∧ maskOf us ≠ d.members then regroup m h
    else h

/-- The model drives DOM_FOFS in holdover (R170): ramped at rmax until it is reached; the Sluice gives S where a slew runs (R172). -/
def holdoverStep (m : Fin 16) (tMs : Nat) (h : Hub) : Hub :=
  let y := h.model h.doms[m]
  h.onDom m fun d =>
    if d.ramp.isSome then rampTo y tMs d
    else sluiceStep d tMs y d.integ

/-- What a state does at an update once the transitions are made. -/
def steer (m : Fin 16) (tMs : Nat) (h : Hub) : Hub :=
  let d := h.doms[m]
  match d.state with
  | .nominal | .manual => h.onDom m fun d => rampTo (d.ramp.getD d.fofs) tMs d
  | .holdover | .holdoverOut => holdoverStep m tMs h
  | .acquire | .track =>
    let bad := h.mismatched d tMs
    if !bad.isEmpty then excludeSlots m bad (h.onDom m fun d => sluiceOnly d tMs)
    else match h.errorFor d tMs with
      | none => h.onDom m fun d => sluiceOnly d tMs
      | some e =>
        let r := settleError m tMs e h
        lockStep m tMs r.1 (servoStep m tMs r.1 r.2)

/-- Hops of the quality byte after an update: of the followed slot, kept through holdover, else 0 (R10, R151). -/
def setHops (m : Fin 16) (h : Hub) : Hub :=
  match h.doms[m].state with
  | .acquire | .track => h.onDom m fun d => { d with hops := h.hopsOf d }
  | .holdover | .holdoverOut => h
  | .nominal | .manual => h.onDom m fun d => { d with hops := 0 }

/-- The DOMAIN task of DOM[m] runs. -/
def Hub.domTaskRuns (h : Hub) (m : Fin 16) : Bool := h.comp.tasks[60 + m.val].state.works

/-- One update of DOM[m] with period tMs (R156, R168, R169). In SAFE only a keeper's loss is acted on; while a root jump is held no
update is made, so that DOM_FOFS, S and rho stand still (R47). -/
def domUpdate (m : Fin 16) (tMs : Nat) (h : Hub) : Hub :=
  if !h.domTaskRuns m || h.clk.jumpHeld then h
  else if h.isSafe then
    let d := h.doms[m]
    match d.state with
    | .acquire | .track => if (h.usableSlots d).isEmpty then loseAll m h else h
    | .nominal | .manual | .holdover | .holdoverOut => h
  else
    let h := steer m tMs (judge m (applyDomOps m h))
    checkRot m (setHops m (h.onDom m fun d => { d with lossFreeze := false, lastUpdate := some h.clk.ms }))

/-- The domain updates only in the seconds in which a followed slot gives a sample (R281). -/
def Hub.sparse (h : Hub) (d : Dom) : Bool := h.sparseOf d.followed

/-- The domain updates once a second: a followed slot has τ0 of 1 s (R155, R156). -/
def Hub.bySecond (h : Hub) (d : Dom) : Bool := d.followed.any fun s => h.slow h.refs[s]

end Sys2Proof.Machine
end

