-- ==== Sys2Proof/Machine/Domains.lean ====
section
/-!
DEFINITION. The commands of the timing domains (chapter 05): setting, stepping and slewing time, DOMAIN_CONFIG,
DOMAIN_STEER, DOMAIN_MODE, and the marks and timers of the domains.
-/

namespace Sys2Proof.Machine

/-! ## Reaching an instant of a domain's time -/

/-- Root cycles until DOM time t (2^-64 step) at the present rate; 0 when it has passed. -/
def Hub.cyclesTo (h : Hub) (d : Dom) (t : Int) : Nat :=
  let rest := t - (d.secs * secU + d.sub)
  if rest ≤ 0 then 0
  else (-((-rest).fdiv (rootU + (rotInc (h.rotFofs d)).fdiv 4))).toNat

/-- The hub at the moment DOM[m]'s time reaches t (2^-64 step), when that falls before the next 1 ms tick and a root
turns; the command names the moment, so time advances to it. -/
def reachDom (m : Fin 16) (t : Int) (h : Hub) : Option Hub :=
  let n := h.cyclesTo h.doms[m] t
  if n = 0 then some h
  else if h.runs && h.rootActive && decide (h.clk.pos + n ≤ tickCycles) then some (advanceTo (h.clk.pos + n) h)
  else none

/-! ## Setting and stepping time (R172, R174, R184, R185, R188) -/

/-- How R172 takes a change of time in the domain's present state. -/
inductive TimeRule where
  | free | secondsOnly | denied
deriving DecidableEq, Repr

/-- The row of R172: free in NOMINAL, HOLDOVER, HOLDOVER_OUT and MANUAL; otherwise by what the domain follows. -/
def Hub.timeRule (h : Hub) (d : Dom) : TimeRule :=
  match d.state with
  | .nominal | .holdover | .holdoverOut | .manual => .free
  | .acquire | .track => if d.followed.any (fun s => h.refs[s].absolute) then .denied else .secondsOnly

/-- The result field of R188: the full time in bytes 0 to 15, with ns_range when the value's ns was refused, and the
change applied in bytes 16 to 23. -/
def timeResult (h : Hub) (m : Fin 16) (nsRange : Bool) (change : Int) : BitVec 192 :=
  resultOf [(0, 128, (h.fullTime m).toNat + atB 4 nsRange), (128, 64, ofSigned 64 change)]

/-- The instant lies between the PTP epoch and 2^48 s after it (R172). -/
def inEpoch (t : Int) : Bool := decide (0 ≤ t) && decide (t < 2 ^ 48 * secFu)

/-- Complete with R188's result and no change. -/
def timeRefused (m : Fin 16) (id : Nat) (st : Status) (nsRange : Bool) (h : Hub) : Hub :=
  completeWith id st (timeResult h m nsRange 0) h

/-- Move DOM[m] to time t (2^-64 step) and complete. -/
def timeMove (m : Fin 16) (id : Nat) (t : Int) (set_ : Bool) (h : Hub) : Hub :=
  let d := h.doms[m]
  let v := t - (d.secs * secU + d.sub)
  let h := stepDomain m v h
  let h := if set_ then h.onDom m fun d => { d with todUnset := false, excluded := 0 } else h
  completeWith id .ok (timeResult h m false (rdiv v fuU)) h

/-- The time field of SET_TIME and STEP_TIME: bytes 8 to 23. -/
def timeField (p : Payload) : BitVec 128 := p.extractLsb' 64 128

/-- Apply a SET_TIME now: acceptance by R172, then the change. -/
def applySetTime (m : Fin 16) (id : Nat) (p : Payload) (h : Hub) : Hub :=
  let t := fullToFu (timeField p)
  let d := h.doms[m]
  match h.timeRule d with
  | .denied => timeRefused m id .denied false h
  | .free => if inEpoch t then timeMove m id (t * fuU) true h else timeRefused m id .badParam false h
  | .secondsOnly => timeMove m id (fld (timeField p) 80 48 * secU + (d.secs * secU + d.sub).fmod secU) true h

/-- The signed step of a STEP_TIME in fu. -/
def stepAmount (p : Payload) : Int := if pb p 1 1 then -fullToFu (timeField p) else fullToFu (timeField p)

/-- Apply a STEP_TIME now. -/
def applyStepTime (m : Fin 16) (id : Nat) (p : Payload) (h : Hub) : Hub :=
  let d := h.doms[m]
  if h.timeRule d ≠ .free then timeRefused m id .denied false h
  else if inEpoch (d.fu + stepAmount p) then timeMove m id (d.secs * secU + d.sub + stepAmount p * fuU) false h
  else timeRefused m id .badParam false h

/-- SET_TIME: the payload's checks, then at once or at the next whole-second mark (R174). -/
def setTimeEff (d : Desc) (h : Hub) : Hub :=
  let p := d.payload
  withFin 16 (pf p 0 0 8) d.id (fun m h =>
    if 999999999 < fld (timeField p) 48 32 then timeRefused m d.id .badParam true h
    else if pb p 1 0 then
      if inEpoch (fullToFu (timeField p)) then h.onDom m fun x => { x with atMark := x.atMark ++ [d.id] }
      else timeRefused m d.id .badParam false h
    else applySetTime m d.id p h) h

def setTime (o : Origin) (h : Hub) : Hub := serve o (isOp 0x03) setTimeEff h

/-- STEP_TIME: as SET_TIME, with a signed magnitude (R185). -/
def stepTimeEff (d : Desc) (h : Hub) : Hub :=
  let p := d.payload
  withFin 16 (pf p 0 0 8) d.id (fun m h =>
    if 999999999 < fld (timeField p) 48 32 then timeRefused m d.id .badParam true h
    else if pb p 1 0 then
      if inEpoch (h.doms[m].fu + stepAmount p) then h.onDom m fun x => { x with atMark := x.atMark ++ [d.id] }
      else timeRefused m d.id .badParam false h
    else applyStepTime m d.id p h) h

def stepTime (o : Origin) (h : Hub) : Hub := serve o (isOp 0x04) stepTimeEff h

/-- Predicted duration of a Sluice run for rho (10^-6 fu), in ms, saturating (R165, R187): a trapezoid from
1000 × pmax² / rmax ns up, a triangle below. -/
def sluiceMs (pmax rmax : Nat) (rho : Int) : Nat :=
  let u := rho.natAbs
  let ms := if pmax ^ 2 * (65536 * 10 ^ 6) ≤ u * rmax then u * 10 ^ 6 / (65536 * 10 ^ 6 * pmax) + 10 ^ 6 * pmax / rmax
    else 2 * isqrt (10 ^ 12 * u / (65536 * 10 ^ 6 * rmax))
  min 0xFFFFFFFF ms

/-- The limit of POFS and of one slew: 1 s (R173). -/
def slewMax : Int := 65536000000000

/-- SLEW_TIME: into the Sluice, and into POFS while the domain follows something (R172, R173, R186, R187). -/
def slewTimeEff (d : Desc) (h : Hub) : Hub :=
  let p := d.payload
  withFin 16 (pf p 0 0 8) d.id (fun m h =>
    let amount : Int := if pb p 1 0 then -(pf p 8 0 64 : Int) else pf p 8 0 64
    let x := h.doms[m]
    let follows := x.state == .acquire || x.state == .track
    let pofs := if follows then x.pofs + amount else x.pofs
    if slewMax < amount.natAbs ∨ slewMax < pofs.natAbs then complete d.id .badParam h
    else
      let h := h.onDom m fun x => { x with pofs, rho := x.rho - amount * 10 ^ 6 }
      let x := h.doms[m]
      completeWith d.id .ok (resultOf [(0, 64, ofSigned 64 (rdiv x.rho (10 ^ 6))), (64, 32, sluiceMs x.pmax x.rmax x.rho)]) h) h

def slewTime (o : Origin) (h : Hub) : Hub := serve o (isOp 0x05) slewTimeEff h

/-! ## DOMAIN_CONFIG, DOMAIN_STEER, DOMAIN_MODE -/

/-- The values R178 and R179 refuse. -/
def domConfigBad (p : Payload) : Bool :=
  let m := pf p 0 0 8
  pf p 1 6 2 == 3 || (m == 0 && !pb p 1 5) || (decide (4 ≤ m) && pb p 1 5)
  || !inRange (pf p 4 0 32) 10 10000000 || !inRange (pf p 8 0 16) 50 500 || !inRange (pf p 12 0 32) 1 1000000
  || !inRange (pf p 16 0 32) 1 100000000 || pf p 20 0 16 == 0 || pf p 24 0 16 == 0 || !inRange (pf p 26 0 16) 1 1024

/-- DOMAIN_CONFIG waits for the domain's next update (R180). -/
def domainConfigEff (d : Desc) (h : Hub) : Hub :=
  withFin 16 (pf d.payload 0 0 8) d.id (fun m h =>
    if domConfigBad d.payload then complete d.id .badParam h
    else h.onDom m fun x => { x with ops := x.ops ++ [.config d.id d.payload] }) h

def domainConfig (o : Origin) (h : Hub) : Hub := serve o (isOp 0x10) domainConfigEff h

/-- DOMAIN_STEER with op SET or ADD: at once, or when a held root jump has been attributed (R47, R182). -/
def steerTo (m : Fin 16) (d : Desc) (h : Hub) : Hub :=
  if h.clk.jumpHeld then h.onDom m fun x => { x with ops := x.ops ++ [.steer d.id d.payload] } else steerNow m d.id d.payload h

/-- op SET; the refused op 3 completes with BAD_PARAM. -/
def steerSetEff (d : Desc) (h : Hub) : Hub :=
  withFin 16 (pf d.payload 0 0 8) d.id (fun m h =>
    if steerOp d.payload = 3 then complete d.id .badParam h else steerTo m d h) h

def domainSteerSet (o : Origin) (h : Hub) : Hub :=
  serve o (isOpSub 0x11 fun p => steerOp p == 0 || steerOp p == 3) steerSetEff h

/-- op ADD: to the present DOM_FOFS. -/
def steerAddEff (d : Desc) (h : Hub) : Hub := withFin 16 (pf d.payload 0 0 8) d.id (fun m h => steerTo m d h) h

def domainSteerAdd (o : Origin) (h : Hub) : Hub := serve o (isOpSub 0x11 fun p => steerOp p == 1) steerAddEff h

/-- op HO_TRIM: added to the model frequency and ramped in; the timer is not reloaded (R169, R182). -/
def steerHoTrimEff (d : Desc) (h : Hub) : Hub :=
  withFin 16 (pf d.payload 0 0 8) d.id (fun m h =>
    let x := h.doms[m]
    let y := x.y0 + steerWord d.payload
    if x.state ≠ .holdover ∧ x.state ≠ .holdoverOut then complete d.id .denied h
    else if y < fofsMin ∨ fofsMax < y then complete d.id .badParam h
    else completeWith d.id .ok (resultOf [(0, 64, ofSigned 64 y)])
      (raiseDom m (bit16 10) (h.onDom m fun x => { x with y0 := y, ramp := some y }))) h

def domainSteerHoTrim (o : Origin) (h : Hub) : Hub := serve o (isOpSub 0x11 fun p => steerOp p == 2) steerHoTrimEff h

/-- DOMAIN_MODE waits for the domain's next update (R183). -/
def domainModeEff (d : Desc) (h : Hub) : Hub :=
  withFin 16 (pf d.payload 0 0 8) d.id (fun m h =>
    h.onDom m fun x => { x with ops := x.ops ++ [.mode d.id d.payload] }) h

/-- Each row of the table for DOMAIN_MODE is the descriptor that carries its action; any other action it carries too is
taken in the order of R183 all the same. -/
def domainModePolicy (o : Origin) (h : Hub) : Hub := serve o (isOp 0x12) domainModeEff h
def domainModeRealign (o : Origin) (h : Hub) : Hub := serve o (isOpSub 0x12 fun p => pb p 1 4) domainModeEff h
def domainModeClearTracked (o : Origin) (h : Hub) : Hub := serve o (isOpSub 0x12 fun p => pb p 1 3) domainModeEff h
def domainModeClearStepped (o : Origin) (h : Hub) : Hub := serve o (isOpSub 0x12 fun p => pb p 1 5) domainModeEff h

/-! ## Marks and timers -/

/-- The descriptors that wait for the mark are applied, oldest first (R174). -/
def applyAtMark (m : Fin 16) (h : Hub) : Hub :=
  let ids := h.doms[m].atMark
  forEach ids (fun id h => match h.desc? id with
    | none => h
    | some d => if d.opcode = 0x03 then applySetTime m id d.payload h else applyStepTime m id d.payload h)
    (h.onDom m fun x => { x with atMark := [] })

/-- The domain's time reaches a whole second: hardware adds 1 to seconds and takes the mark as the new origin (R150). -/
def domainSecondMark (m : Fin 16) (h : Hub) : Hub :=
  match reachDom m ((h.doms[m].secs + 1) * secU) h with
  | none => h
  | some h =>
    if h.runs && h.rootActive then
      applyAtMark m (h.onDom m fun d => { d with secs := (d.secs + 1) % 2 ^ 48, sub := d.sub - secU })
    else h

/-- The holdover timer has reached zero: HOLDOVER_OUT, and holdover continues (R168, R171). The message carries the master
code of the reed that runs the DOMAIN task and the domain number. -/
def holdoverTimerExpiry (m : Fin 16) (h : Hub) : Hub :=
  let d := h.doms[m]
  let master := match h.comp.tasks[60 + m.val].reed with
    | some n => mReed n
    | none => mInternal
  when_ (h.runs && d.state == .holdover && d.hoTimer == 0)
    (fun h => sendFault (srcDom m) .holdoverOut accNone master m (bumpCounter (68 + m) (enterDom m .holdoverOut h))) h

/-- A revertive hold-off has ended: where the slot it waited for is still usable and still earlier, a change to it is due (R159). -/
def revertiveHoldoffExpiry (m : Fin 16) (h : Hub) : Hub :=
  let d := h.doms[m]
  let ended := (d.holds.filter fun p => p.2 == 0).map (·.1)
  when_ (h.runs && !ended.isEmpty)
    (fun h => h.onDom m fun d =>
      { d with holdDue := d.holdDue ++ ended.filter (h.earlier d).contains, holds := d.holds.filter fun p => p.2 != 0 }) h

/-! ## Meanings -/

def execSetTime (o : Origin) (s : State) := run (setTime o) s
def execStepTime (o : Origin) (s : State) := run (stepTime o) s
def execSlewTime (o : Origin) (s : State) := run (slewTime o) s
def execDomainConfig (o : Origin) (s : State) := run (domainConfig o) s
def execDomainSteerSet (o : Origin) (s : State) := run (domainSteerSet o) s
def execDomainSteerAdd (o : Origin) (s : State) := run (domainSteerAdd o) s
def execDomainSteerHoTrim (o : Origin) (s : State) := run (domainSteerHoTrim o) s
def execDomainModePolicy (o : Origin) (s : State) := run (domainModePolicy o) s
def execDomainModeRealign (o : Origin) (s : State) := run (domainModeRealign o) s
def execDomainModeClearTracked (o : Origin) (s : State) := run (domainModeClearTracked o) s
def execDomainModeClearStepped (o : Origin) (s : State) := run (domainModeClearStepped o) s
def execHoldoverTimerExpiry (m : Fin 16) (s : State) := run (holdoverTimerExpiry m) s
def execRevertiveHoldoffExpiry (m : Fin 16) (s : State) := run (revertiveHoldoffExpiry m) s
def execDomainSecondMark (m : Fin 16) (s : State) := run (domainSecondMark m) s

end Sys2Proof.Machine
end

