-- ==== Sys2Proof/Machine/Ports.lean ====
section
/-!
DEFINITION. The states of a link port as every block may change them (R242, R250, R252): entering a state with its
LNK_EVT bit, what is cleared on the way down, and the way up from OFF.
-/

namespace Sys2Proof.Machine

/-- LNK_STAT.state (R242). -/
def LinkState.code : LinkState → Nat
  | .off => 0 | .down => 1 | .aligning => 2 | .syntonised => 3 | .ranging => 4 | .timed => 5 | .ethUp => 6

/-- The LNK_EVT bit of a state; OFF and ETH_UP have none. -/
def LinkState.evtBits : LinkState → BitVec 16
  | .off => 0 | .down => 1 | .aligning => 2 | .syntonised => 4 | .ranging => 8 | .timed => 16 | .ethUp => 0

/-- Marks, echoes and management are exchanged above ALIGNING: SYNTONISED, RANGING, TIMED. -/
def LinkState.synced : LinkState → Bool
  | .syntonised | .ranging | .timed => true
  | .off | .down | .aligning | .ethUp => false

/-- ALIGNING or higher. -/
def LinkState.lit : LinkState → Bool
  | .aligning | .syntonised | .ranging | .timed | .ethUp => true
  | .off | .down => false

/-- Enter a state: its LNK_EVT bit is set, and addresses learned on a port that is no longer synchronised are forgotten
(R264). -/
def enterLink (n : Fin 48) (st : LinkState) (h : Hub) : Hub :=
  let h := if st.synced then h else h.onHier fun x => { x with learned := x.learned.filter fun a => a.2 != n }
  raiseLnk n st.evtBits (h.onLink n fun l => { l with state := st })

/-- Ranging cleared: the prediction, the round trips and their results, and the count towards SYNTONISED (R242). -/
def Link.clearRanging (l : Link) : Link :=
  { l with
    goodMarks := 0, rxSeq := none, missRun := 0, echoed := none, windowed := false, rtPred := none, rtWait := none, usable := []
    usableLast := 0, fs := [], f := 0, d := 0, dIn := 0, arrivals := [], xSum := 0, tSum := 0, xN := 0, markWait := none
    asymObs := false, mark0 := none, app := 0, appSec := 0 }

/-- What OFF clears besides: y, the management state, what the peer has told, and the mark stream (R242). -/
def Link.clearAll (l : Link) : Link :=
  { l.clearRanging with
    y := 0, tx := [], txId := 0, rx := none, ackMsg := 0, ackSeg := 0xFFFF, ackLast := false, txSeq := 0, prevLag := none, prevMark := none
    lineEnd := none, statDue := false
    departs := [], echoDue := [], prevEcho := none, todSecs := none, todGood := 0, statSeen := false, loopback := false
    peerUntrusted := false, peerHoldover := false, peerFollows := false, peerSafe := false, blockLock := false }

/-- DOWN becomes ALIGNING with a module present, LOS clear and a signal at the receiver (R242). -/
def linkRise (n : Fin 48) (h : Hub) : Hub :=
  let l := h.links[n]
  if l.state == LinkState.down && l.signal && !l.modAbs && !l.los then enterLink n .aligning h else h

/-- OFF: transmitter squelched, TX_DIS asserted, everything cleared (R242, R250). -/
def linkStop (n : Fin 48) (h : Hub) : Hub :=
  enterLink n .off (h.onLink n fun l => { l.clearAll with squelch := true, txDis := true })

/-- OFF becomes DOWN: TX_DIS released, the transmitter starts; a written mode also draws a new nonce (R242). A port
whose mode is OFF, or that a SELFTEST holds, stays OFF. -/
def linkStart (n : Fin 48) (fresh : Bool) (h : Hub) : Hub :=
  let l := h.links[n]
  if l.mode == 0 || l.held then h
  else
    let h := if fresh then
        { h.onLink n fun l => { l with nonce := (Config.random h.free).truncate 16 } with free := h.free + 1 }
      else h
    linkRise n (enterLink n .down (h.onLink n fun l => { l with squelch := false, txDis := false, statDue := true }))

/-- OFF, STANDBY and THERMAL_OFF: every port is OFF, with its transmitter off (R252). -/
def linksOff (h : Hub) : Hub :=
  { h with links := h.links.map fun l => { l.clearAll with state := .off, squelch := true, txDis := true, held := false, loop := none, desc := none, alphaDesc := [] } }

end Sys2Proof.Machine
end

