-- ==== Sys2Proof/Machine/Images.lean ====
section
/-!
DEFINITION. What a task keeps of its block: what of it is lost with the task (R295, R297), what a checkpoint image holds (R296),
and how a restore puts an image in place of what the block shows now (R297, R299). What is Common's stays: the read-back copies,
the event bits, what the hardware times and counts, and the timers, which go on counting meanwhile (log 88).
-/

namespace Sys2Proof.Machine

/-- Metrics and history of a slot cleared. -/
def RefSlot.clear (r : RefSlot) : RefSlot :=
  { r with
    timer := 0, timerMs := 0, todValid := false, hist := [], zs := [], k := 0, y := 0, peak1 := 0, peak10 := 0,
    peak100 := 0, peakJump := 0, rungs := Vector.replicate 25 {}, lastU := none, periods := 0, pulses := [], due := none,
    named := none, closed := [], lastPulse := none, ahead := none, lastOn := none, badPulses := [], extraPulses := [],
    badTrip := false, extraTrip := false, label := none, lastLabel := none, goodLabels := 0, badLabels := 0, noLabel := 0, sumX := 0, sumT := 0, sumN := 0, fresh := none, seen := 0 }

/-- A slot whose REFQ task has lost its state: as newly created, ABSENT. -/
def RefSlot.forget (r : RefSlot) : RefSlot := { r.clear with state := .absent }

/-- A slot as a restore leaves it: the metrics and the history of the image, with the τ0 intervals since without a sample (R125,
R299). A slot that the hardware has taken to ABSENT meanwhile stays there (R131). -/
def RefSlot.restore (img now : RefSlot) : RefSlot :=
  if now.state == .absent || img.state == .absent then now
  else
    let gone := now.k - img.k
    { now with
      state := img.state, hist := List.replicate gone none ++ img.hist, zs := List.replicate gone none ++ img.zs, k := max now.k img.k, y := img.y, peak1 := img.peak1, peak10 := img.peak10
      peak100 := img.peak100, peakJump := img.peakJump, rungs := img.rungs, goodLabels := img.goodLabels, badLabels := img.badLabels
      noLabel := img.noLabel, todValid := img.todValid, fresh := none, voided := true }

/-- What a LINK task keeps: the round trips and values of F that it collects, and the marks it has not paired. D, F and y are held
(R30). -/
def Link.forget (l : Link) : Link :=
  { l with usable := [], fs := [], arrivals := [], xSum := 0, tSum := 0, xN := 0, markWait := none, rtWait := none, app := 0, appSec := 0 }

/-- A port as a restore of its LINK task leaves it: D and the state of the port are held (the RECOVERY row of chapter 07). -/
def Link.restore (img now : Link) : Link :=
  { now with usable := [], fs := img.fs, arrivals := img.arrivals, xSum := 0, tSum := 0, xN := 0, markWait := none, rtWait := none }

/-- An EVENT task that starts anew: its span and its counts are lost. -/
def EvTask.forget (e : EvTask) : EvTask :=
  { e with inbox := [], first := none, n := 0, last := none, flags := 0, gap := false, skipped := 0, taken := 0, skipFlag := false }

/-- An EVENT task as a restore leaves it: the span of the image, unless TASK_PARAM has been written since; the records since are
lost, so that the next one ends that span (R299, R319). -/
def EvTask.restore (img now : EvTask) : EvTask :=
  if img.cfg = now.cfg then
    { now with
      inbox := [], first := img.first, n := img.n, last := img.last, flags := img.flags, gap := img.gap, value := img.value, count := img.count
      skipped := img.skipped, skipFlag := img.skipFlag }
  else { now with inbox := [] }

/-- A domain as a restore of its DOMAIN task leaves it: the servo of the image, with rho advanced by S over the time since it was
taken (`gone`, fu; R169). What a descriptor has set since stands, and so does then the state that it led to. The rotator, the
time, the timers and the histories are Common's. -/
def Dom.restore (gone : Int) (img now : Dom) : Dom :=
  let rho := if img.rho = 0 then 0 else img.rho + rdiv (now.slope * gone) 65536000000
  if img.policy = now.policy ∧ img.set_ = now.set_ then
    { now with
      state := img.state, rho, integ := img.integ, ep := img.ep, ramp := img.ramp, bwLimited := img.bwLimited, intClamp := img.intClamp
      selected := img.selected, members := img.members, weights := img.weights, lockMs := img.lockMs, hops := img.hops, y0 := img.y0
      aFit := img.aFit, aAp := img.aAp, tj0 := img.tj0, te0 := img.te0, yErr := img.yErr, aBound := img.aBound, ktDt := img.ktDt, tempBy := img.tempBy }
  else { now with rho }

/-- What task t keeps, for its image. -/
def Hub.taskMem (h : Hub) (t : Nat) : TaskMem :=
  match finOf 48 t, finOf 12 (t - 48), finOf 16 (t - 60), finOf 32 (t - 76) with
  | some n, _, _, _ => .link h.links[n]
  | none, some s, _, _ => .ref h.refs[s]
  | none, none, some m, _ => .dom h.doms[m]
  | none, none, none, some e => .event h.comp.evTasks[e]
  | none, none, none, none => .nothing

/-- Task t has lost its state (R295, R297). A DOMAIN task's cold start is R297's own, and a HIER task's state is the other's too. -/
def forgetTask (t : Nat) (h : Hub) : Hub :=
  match finOf 48 t, finOf 12 (t - 48), finOf 32 (t - 76) with
  | some n, _, _ => h.onLink n Link.forget
  | none, some s, _ => h.onRef s RefSlot.forget
  | none, none, some e => if 76 ≤ t then h.onEvTask e EvTask.forget else h
  | none, none, none => h

/-- Put an image of task t in place, taken `gone` fu ago. -/
def restoreMem (t : Nat) (gone : Int) (m : TaskMem) (h : Hub) : Hub :=
  match m with
  | .link l => match finOf 48 t with
    | some n => h.onLink n (Link.restore l)
    | none => h
  | .ref r => match finOf 12 (t - 48) with
    | some s => h.onRef s (RefSlot.restore r)
    | none => h
  | .dom d => match finOf 16 (t - 60) with
    | some k =>
      let h := h.onDom k (Dom.restore gone d)
      setUsers k h.doms[k].uses h
    | none => h
  | .event e => match finOf 32 (t - 76) with
    | some k => h.onEvTask k (EvTask.restore e)
    | none => h
  | .nothing => h

end Sys2Proof.Machine
end

