-- ==== Sys2Proof/Machine/Tasks.lean ====
section
/-!
DEFINITION. Tasks and reeds as the hub's other blocks use them: kinds and instances (R292), placement, shedding and
suspension (R294, R295), moves (R315), takeovers (R299), RECOVERY (R35), and the end of a SELFTEST (R35).
-/

namespace Sys2Proof.Machine

/-! ## The mode machine's shared rows (R35, R38) -/

/-- The hub changes mode (R35). -/
def setMode (m : Mode) (h : Hub) : Hub := h.onTop fun t => { t with mode := m }

/-- The payload of the SELFTEST in progress. -/
def Hub.testPayload (h : Hub) : Option Payload := (h.flt.selftest.bind h.desc?).map (·.payload)

/-- Target, count and indices of a SELFTEST payload (R427). -/
def testTarget (p : Payload) : Nat := pf p 0 0 8
def testCount (p : Payload) : Nat := pf p 1 0 8
def testIndex (p : Payload) (i : Nat) : Nat := pf p (2 + i) 0 8
def testLanes (p : Payload) : List Nat := (List.range (testCount p)).map (testIndex p)

/-- Instance k of a target is under test. -/
def Hub.testing (h : Hub) (target k : Nat) : Bool :=
  match h.testPayload with
  | some p => testTarget p == target && testIndex p 0 == k
  | none => false

/-- A lane is under test. -/
def Hub.laneTested (h : Hub) (l : Nat) : Bool :=
  match h.testPayload with
  | some p => testTarget p == 1 && (testLanes p).contains l
  | none => false

/-- A SELFTEST of a root runs (R428). -/
def Hub.rootTested (h : Hub) (r : Side) : Bool :=
  match h.testPayload with
  | some p => testTarget p == 2 && testIndex p 0 == (match r with | .a => 0 | .b => 1)
  | none => false

/-! ## Kinds, halves, free reeds -/

/-- Kind code of a task index (R292): 1 LINK, 2 REFQ, 3 DOMAIN, 4 EVENT, 5 MONITOR, 6 HIER. -/
def taskKind (t : Nat) : Nat :=
  if t < 48 then 1 else if t < 60 then 2 else if t < 76 then 3 else if t < 108 then 4 else if t < 124 then 5 else 6

/-- Half of a reed (R290). -/
def halfOf (n : Nat) : Side := if n < 96 then .a else .b

/-- The other side. -/
def otherSide : Side → Side
  | .a => .b
  | .b => .a

/-- Power of a half. -/
def Comp.power (c : Comp) : Side → HalfPower
  | .a => c.aPower
  | .b => c.bPower

/-- A half may take tasks: ON, and no power-down of it under way. -/
def Comp.halfOpen (c : Comp) (s : Side) : Bool :=
  c.power s == .on && match c.job with
    | some j => j.on || j.half != s
    | none => true

/-- A reed is FREE and promised to no move. -/
def Comp.freeReed (c : Comp) (n : Fin 192) : Bool :=
  c.reeds[n].state == .free && c.reeds[n].task.isNone && c.halfOpen (halfOf n)

/-- FREE reeds of a half, lowest first. -/
def Comp.freeIn (c : Comp) (s : Side) : List (Fin 192) := (allFin 192).filter fun n => halfOf n == s && c.freeReed n

/-- The reed for a placement in a half: the lowest FREE one outside the reserve of two (R294). -/
def Comp.placeIn (c : Comp) (s : Side) : Option (Fin 192) :=
  let l := c.freeIn s
  if 2 < l.length then l.head? else none

/-- The reed for a placement: home half, then the other half (R294). -/
def Comp.placeFor (c : Comp) (home : Side) : Option (Fin 192) :=
  match c.placeIn home with
  | some n => some n
  | none => c.placeIn (otherSide home)

/-- The reed for a takeover: the lowest FREE one of the half, reserve included, then one of the other half (R299). -/
def Comp.spareFor (c : Comp) (s : Side) : Option (Fin 192) :=
  match (c.freeIn s).head? with
  | some n => some n
  | none => (c.freeIn (otherSide s)).head?

/-- Task t stands on a reed. -/
def Comp.onReedOf (c : Comp) (s : Side) (t : Fin 126) : Bool :=
  match c.tasks[t].reed with
  | some n => halfOf n == s
  | none => false

/-- Task t runs. -/
def Hub.taskRuns (h : Hub) (t : Nat) : Bool := (pick h.comp.tasks t {}).state.works

/-- Fields of TASK_PARAM (R318). -/
def EvTask.telEn (e : EvTask) : Bool := pb e.cfg 1 6
def EvTask.telRing (e : EvTask) : Nat := pf e.cfg 1 4 2
def EvTask.slope (e : EvTask) : Nat := pf e.cfg 1 2 2
def EvTask.quantity (e : EvTask) : Nat := pf e.cfg 1 0 2
def EvTask.channel (e : EvTask) : Nat := pf e.cfg 2 0 8
def EvTask.count_ (e : EvTask) : Nat := pf e.cfg 4 0 32

/-! ## Putting tasks on reeds and taking them off -/

/-- TASK_FAIL with a cause (R298): causes 1 to 4 from the hardware, causes 5 to 8 from the warden in charge; the reed's last cause. -/
def taskFail (reed : Option (Fin 192)) (task : Option (Fin 126)) (cause : Nat) (h : Hub) : Hub :=
  let n := match reed with
    | some n => n.val
    | none => 0
  let t := match task with
    | some t => t.val
    | none => 0xFF
  let h := match reed with
    | some n => h.onReed n fun r => { r with lastCause := BitVec.ofNat 8 cause }
    | none => h
  sendFault (srcReed n) .taskFail accNone (if cause ≤ 4 then mInternal else h.chargeCode) (at_ 16 8 t + at_ 0 8 cause) h

/-- Put task t on reed n in a state. -/
def seat (t : Fin 126) (n : Fin 192) (st : TaskState) (h : Hub) : Hub :=
  (h.onReed n fun r => { r with state := .running, task := some t }).onTask t fun k =>
    { k with state := st, reed := some n, away := halfOf n != k.home }

/-- A reed loses its task and becomes FREE. -/
def freeUp (n : Fin 192) (h : Hub) : Hub :=
  h.onReed n fun r => { r with state := if r.state == .running then .free else r.state, task := none }

/-- Take task t off its reed, if it has one. -/
def unseat (t : Fin 126) (h : Hub) : Hub :=
  match h.comp.tasks[t].reed with
  | some n => (freeUp n h).onTask t fun k => { k with reed := none }
  | none => h

/-- Order of shedding: highest rank, kind code, instance (R295). -/
def shedKey (h : Hub) (t : Fin 126) : Nat := h.comp.tasks[t].rank.toNat * 10000 + taskKind t * 1000 + taskInstance t

/-- The task with the greatest, or the least, key. -/
def maxBy (f : Fin 126 → Nat) (l : List (Fin 126)) : Option (Fin 126) :=
  l.foldl (fun b t => match b with
    | none => some t
    | some u => if f u < f t then some t else some u) none

/-- The SHEDDABLE task that is shed next. -/
def Hub.toShed (h : Hub) : Option (Fin 126) :=
  maxBy (shedKey h) ((allFin 126).filter fun t => h.comp.tasks[t].cls = 2 && h.comp.tasks[t].state == .running)

/-- Shed task t: state and checkpoint discarded, TASK_FAIL with cause 5 (R295, R301). -/
def shed (t : Fin 126) (h : Hub) : Hub :=
  let reed := h.comp.tasks[t].reed
  let h := (unseat t (forgetTask t h)).onTask t fun k => { k with state := .shed, img := [] }
  raiseReed (bit16 2) (taskFail reed (some t) 5 (h.onComp fun c => { c with shedCnt := satAdd 65535 c.shedCnt 1 }))

/-- Suspend task t: its last checkpoint is kept, TASK_FAIL with cause 6 (R295, R301). -/
def suspend (t : Fin 126) (h : Hub) : Hub :=
  let reed := h.comp.tasks[t].reed
  let h := (unseat t h).onTask t fun k => { k with state := .suspended }
  raiseReed (bit16 3) (taskFail reed (some t) 6 h)

/-- Place task t on a reed found per R294 and R295: outside the reserve, else in place of a SHEDDABLE task for an
ESSENTIAL or NORMAL one; else SUSPENDED, or SHED for a SHEDDABLE one. `st` is the state it is placed in. -/
def placeTask (t : Fin 126) (st : TaskState) (h : Hub) : Hub :=
  let k := h.comp.tasks[t]
  match h.comp.placeFor k.home with
  | some n => seat t n st h
  | none =>
    if k.cls = 2 then h.onTask t fun k => { k with state := .shed, reed := none }
    else match h.toShed with
      | some v =>
        match h.comp.tasks[v].reed with
        | some n => seat t n st (shed v h)
        | none => suspend t h
      | none => suspend t h

/-- Create task t, or name it again after it was shed: placed cold (R292, R301). -/
def createTask (t : Nat) (h : Hub) : Hub :=
  match finOf 126 t with
  | none => h
  | some t =>
    match h.comp.tasks[t].state with
    | .unplaced | .shed => (placeTask t .running (h.onTask t fun k => { k with img := [], written := 0 })).onTask t fun k => { k with cold := true }
    | .running | .moving | .restoring | .suspended => h

/-- Task t has found no reed and is SHED: the descriptor that created it completes with NO_RESOURCE (R295). -/
def Hub.taskShed (h : Hub) (t : Nat) : Bool := (pick h.comp.tasks t {}).state == TaskState.shed

/-- Order of resumption: lowest class, rank, kind code, instance (R295). -/
def resumeKey (h : Hub) (t : Fin 126) : Nat := h.comp.tasks[t].cls.toNat * 10000000 + shedKey h t

/-- The SUSPENDED task that resumes next. -/
def Hub.toResume (h : Hub) : Option (Fin 126) :=
  maxBy (fun t => 100000000 - resumeKey h t) ((allFin 126).filter fun t => h.comp.tasks[t].state == .suspended)

/-- Resume SUSPENDED tasks while a reed outside the reserve is FREE, at most k of them (R295). -/
def resumeSome : Nat → Hub → Hub
  | 0, h => h
  | k + 1, h =>
    match h.toResume with
    | none => h
    | some t =>
      match h.comp.placeFor h.comp.tasks[t].home with
      | none => h
      | some n => resumeSome k (raiseReed (bit16 7) (seat t n .restoring h))

/-- A reed became FREE: the SUSPENDED tasks that find a reed now resume. -/
def resumeTasks (h : Hub) : Hub := resumeSome 126 h

/-- Remove task t (R292, R301): reed freed, checkpoints discarded. -/
def removeTask (t : Nat) (h : Hub) : Hub :=
  match finOf 126 t with
  | none => h
  | some t =>
    let h := match h.comp.tasks[t].target with
      | some n => h.onReed n fun r => { r with task := none }
      | none => h
    let id := h.comp.tasks[t].desc
    let h := completeOpt id .aborted (h.onTask t fun k => { k with desc := none })
    resumeTasks ((unseat t (forgetTask t h)).onTask t fun k =>
      { k with state := .unplaced, img := [], written := 0, target := none, away := false, cold := false })

/-- A half answers packets; one that is powered down or draining returns them marked DOMAIN_OFF (R29). -/
def Comp.reaches (c : Comp) (s : Side) : Bool :=
  match c.power s with
  | .on | .starting => true
  | .off | .draining => false

/-- The block with this source code lies in a half that returns its packets (R29): a reed, or a warden. -/
def Comp.returns (c : Comp) (src : Nat) : Bool :=
  if src < 192 then !c.reaches (halfOf src)
  else (src == srcWarden .a && !c.reaches .a) || (src == srcWarden .b && !c.reaches .b)

/-- Promise reed n to a move of task t (R315). -/
def startMove (t : Fin 126) (n : Fin 192) (desc : Option Nat) (h : Hub) : Hub :=
  (h.onReed n fun r => { r with task := some t }).onTask t fun k => { k with state := .moving, target := some n, desc }

/-! ## The end of a SELFTEST, and RECOVERY (R35) -/

/-- A Causeway lane gives back what it carries: the front end stamps with its own lane again. -/
def releaseCw (k : Fin 6) (h : Hub) : Hub :=
  { h with
    tdc := { h.tdc with cw := upd h.tdc.cw k fun _ => {} }
    evts := h.evts.map fun c => if c.cw = some k then { c with cw := none } else c
    refs := h.refs.map fun r => if r.cw = some k then { r with cw := none } else r }

/-- The Causeway lanes of the LANE tests that end before their time return their inputs; one that carried its input before keeps it
(R98). -/
def lanesRelease (h : Hub) : Hub :=
  let h := forEach h.tdc.tests (fun x h => match x.cw with
    | some k => if x.again then h.onTdc fun t => { t with cw := upd t.cw k fun c => { c with phase := 2 } } else releaseCw k h
    | none => h) h
  h.onTdc fun t => { t with tests := [] }

/-- A running SELFTEST gives back what it holds: reeds under test are FREE, with the SUSPENDED tasks that
find one of them (R295), or FAILED or HALTED as they were (R300), a root is LOCKING,
or FAULTED as it was (R45), Causeway lanes return their inputs, and the port held OFF returns to DOWN (R252). -/
def selftestRelease (h : Hub) : Hub :=
  let was := h.flt.testFailed
  let h := h.onComp fun c =>
    { c with reeds := c.reeds.map fun r =>
        if r.state == .test then { r with state := r.bad.getD (if was then .failed else .free), bad := none } else r }
  let h := if was && h.testing 2 0 then h.onClk fun c => { c with aState := .faulted }
    else if was && h.testing 2 1 then h.onClk fun c => { c with bState := .faulted } else h
  let h := resumeTasks (lanesRelease h)
  forEach (allFin 48) (fun n h => if h.links[n].held then linkStart n false (h.onLink n fun l => { l with held := false }) else h) h

/-- A running SELFTEST ends with a status. -/
def selftestEnd (st : Status) (h : Hub) : Hub :=
  match h.flt.selftest with
  | none => h
  | some id => complete id st ((selftestRelease h).onFlt fun f => { f with selftest := none, testFailed := false })

/-- A RECOVERY condition (R35): SERVICE and TEST go to RECOVERY, a running SELFTEST completes with ABORTED, and the 1 s
stability timer starts; in RECOVERY it restarts. SAFE stays SAFE, and BOOT goes on. -/
def enterRecovery (h : Hub) : Hub :=
  match h.top.mode with
  | .service | .test =>
    (setMode .recovery (if h.inMode .test then selftestEnd .aborted h else h)).onTop fun t => { t with stabMs := 0 }
  | .recovery => h.onTop fun t => { t with stabMs := 0 }
  | .off | .standby | .boot | .safe | .thermalOff => h

/-- Whether task t is being moved off a reed under SELFTEST (R429). -/
def sourceTested (t : Fin 126) (h : Hub) : Bool :=
  match h.comp.tasks[t].reed with
  | some n => h.testing 0 n && h.comp.tasks[t].state == TaskState.moving
  | none => false

/-- A move cannot be made, its target reed being gone: the task stays where it runs, and a descriptor that waits for the
move finds no FREE reed (R317), a SELFTEST of the reed included (R429). -/
def moveFails (t : Fin 126) (h : Hub) : Hub :=
  let id := h.comp.tasks[t].desc
  let tested := sourceTested t h
  let h := h.onTask t fun k => { k with state := if k.state == .moving then .running else k.state, target := none, desc := none }
  let h := completeOpt id .noResource h
  if tested then
    let h := selftestEnd .noResource h
    if h.inMode .test then setMode .service h else h
  else h

/-! ## Takeovers (R299) -/

/-- One 100 ms in root cycles. -/
def stormWindow : Nat := 150000000

/-- Count a reed task takeover: REED_EVT.takeover, REED_CNT, counter 10, and a failover storm at eight within 100 ms
(R34, R299). In RECOVERY every takeover restarts the stability timer (R35). -/
def countTakeover (h : Hub) : Hub :=
  let recent := h.clk.cycles :: h.comp.takeovers.filter fun c => decide (h.clk.cycles < c + stormWindow)
  let h := raiseReed (bit16 0) (bumpCounter 10 (h.onComp fun c =>
    { c with takeovers := recent, takeCnt := satAdd 65535 c.takeCnt 1 }))
  let storm := decide (8 ≤ recent.length)
  let h := if storm then raiseReed (bit16 1) h else h
  if storm || h.inMode .recovery then enterRecovery h else h

/-- A reed fault with cause 1 to 4 (R298 to R300): the message, the reed FAILED or HALTED, its task taken over by a spare
or suspended. -/
def reedFault (n : Fin 192) (cause : Nat) (h : Hub) : Hub :=
  let t? := h.comp.reeds[n].task
  let h := taskFail (some n) t? cause h
  let h := h.onReed n fun r =>
    { r with state := if cause = 4 then .halted else .failed, task := none }
  let h := if cause = 4 then h else raiseReed (bit16 6) h
  match t? with
  | none => h
  | some t =>
    if h.comp.tasks[t].reed ≠ some n then
      moveFails t h
    else
      let h := match h.comp.tasks[t].target with
        | some m => (h.onReed m fun r => { r with task := none }).onTask t fun k => { k with target := none }
        | none => h
      let h := h.onTask t fun k => { k with reed := none }
      match h.comp.spareFor (halfOf n) with
      | some m => countTakeover (seat t m .restoring h)
      | none => raiseReed (bit16 3) (taskFail (some n) (some t) 6 (h.onTask t fun k => { k with state := .suspended }))

end Sys2Proof.Machine
end

