-- ==== Sys2Proof/Machine/Stamps.lean ====
section
/-!
DEFINITION. From the raw stamp of a lane to a time (R71 to R77): bin tables, input-path and output-path delays, the
conversion to a domain's time or to the nominal time scale, and the conditions that mark a stamp (R89, R111).
-/

namespace Sys2Proof.Machine

/-! ## Lanes (R71) -/

def laneOfEvt (n : Fin 64) : Fin 192 := ⟨n, by omega⟩
def laneOfRef (s : Fin 8) : Fin 192 := ⟨64 + s, by omega⟩
def laneOfTx (n : Fin 48) : Fin 192 := ⟨72 + n, by omega⟩
def laneOfRx (n : Fin 48) : Fin 192 := ⟨120 + n, by omega⟩
def laneOfSns (k : Fin 16) : Fin 192 := ⟨168 + k, by omega⟩
def laneOfCw (k : Fin 6) : Fin 192 := ⟨186 + k, by omega⟩

/-- The lane that stamps a front end now: a Causeway lane while one carries it (R98). -/
def laneNow (own : Fin 192) (cw : Option (Fin 6)) : Fin 192 :=
  match cw with
  | some k => laneOfCw k
  | none => own

/-- The ladder of a lane. -/
def ladderOf (l : Fin 192) : Fin 8 := ⟨l / 24, by omega⟩

/-- Ladder k is out of lock or relocked less than 1 ms ago (R60, R89). -/
def Hub.ladderDoubt (h : Hub) (k : Fin 8) : Bool :=
  !h.clk.ladders.getLsbD k || decide (h.clk.cycles < h.clk.ladderAt[k] + tickCycles)

/-- Stamps of the lane carry cal_stale (R89): no calibration, its ladder in doubt, or its cluster clamped. -/
def Hub.laneStale (h : Hub) (l : Fin 192) : Bool :=
  h.calStale || h.ladderDoubt (ladderOf l) || h.tdc.clamped.getLsbD (l.val / 48)

/-! ## Positions and delays -/

/-- Lower edge of bin b in an applied table, 10^-5 of 2^-24 period; uniform bins where the table is empty (R74, R394). -/
def binEdge (t : List Int) (b : Nat) : Int := if t.isEmpty then b * 6553600000 else t.getD b 0

/-- Position of an edge of fine code b within the root period: the bin centre, in 2^-64 steps (R74). -/
def Hub.lanePos (h : Hub) (l : Fin 192) (b : Byte) : Int :=
  let t := h.cal.bins[l]
  rdiv ((binEdge t b.toNat + binEdge t (b.toNat + 1)) * 2 ^ 51) (10 ^ 5)

/-- A value interpolated between the 17 threshold points, 256 codes apart, of a front end and a slope (R76, R392). -/
def interp17 (t : List Int) (base code : Nat) : Int :=
  let a := t.getD (base + code / 256) 0
  let b := t.getD (base + code / 256 + 1) 0
  a + rdiv ((b - a) * (code % 256 : Nat)) 256

/-- Input-path delay of front end fe (EVT 0 to 63, REF 64 to 71, SNS 72 to 87), in 10^-5 fu. -/
def Hub.inDelay (h : Hub) (fe : Nat) (rising : Bool) (code : Nat) : Int :=
  interp17 h.cal.inPath ((2 * fe + (if rising then 0 else 1)) * 17) code

/-- δtx and δrx of LINK[n] for a line mode, in 10^-5 fu. -/
def Hub.linkFixed (h : Hub) (n : Fin 48) (rx : Bool) (mode : Nat) : Int := h.cal.linkFix.getD ((2 * n + b2n rx) * 3 + mode) 0

/-! ## Conversion (R77) -/

/-- A position within a root cycle, scaled by 1 + w × 10^-12 for a rate word w. -/
def scaled (w p : Int) : Int := p + rdiv (p * w) (2 ^ 16 * 10 ^ 12)

/-- 375 MHz cycles that end between now and the start of root cycle cyc. -/
def Hub.quarters (h : Hub) (cyc : Nat) : Int := (cyc / 4 : Nat) - (h.clk.pos / 4 : Nat)

/-- DOM time of a stamp of lane l, in 2^-64 steps, before any delay. -/
def Hub.domStamp (h : Hub) (d : Dom) (l : Fin 192) (st : Stamp) : Int :=
  let w := h.rotFofs d
  d.secs * secU + d.sub + ((st.cyc : Int) - h.clk.pos) * rootU + rotInc w * h.quarters st.cyc + scaled w (h.lanePos l st.bin)

/-- Nominal time of a stamp of lane l, in 2^-64 steps, before any delay (R125: ROT_FOFS = −C). -/
def Hub.nomStamp (h : Hub) (l : Fin 192) (st : Stamp) : Int :=
  let w := clampI fofsMin fofsMax (-h.corrWord)
  h.clk.nomTime + ((st.cyc : Int) - h.clk.pos) * rootU + rotInc w * h.quarters st.cyc + scaled w (h.lanePos l st.bin)

/-- A time in 2^-64 steps less a path delay (10^-5 fu) and a channel delay (fu), rounded to the nearest fu (R76, R77). -/
def lessDelay (t path delay : Int) : Int := rdiv (t - fu5U path) fuU - delay

/-- Root time of a stamp in 2^-24 root periods since the coarse counters were cleared. -/
def Hub.rootStamp (h : Hub) (l : Fin 192) (st : Stamp) : Int :=
  ((h.clk.cycles : Int) + st.cyc - h.clk.pos) * 2 ^ 24 + rdiv (h.lanePos l st.bin) (2 ^ 52)

/-! ## Front-end settings (R79, R104, R142) -/

/-- Threshold code, slope (0 rising, 1 falling, 2 both) and delay of an event channel. -/
def EvtCh.code (c : EvtCh) : Nat := pf c.cfg 2 0 12
def EvtCh.slope (c : EvtCh) : Nat := pf c.cfg 1 2 2
def EvtCh.widthEn (c : EvtCh) : Bool := pb c.cfg 1 1
def EvtCh.domain (c : EvtCh) : Fin 16 := ⟨pf c.cfg 5 0 4, Nat.mod_lt _ (by decide)⟩
def EvtCh.delay (c : EvtCh) : Int := pfs c.cfg 8 0 32

/-- Threshold code of a reference input. -/
def RefSlot.code (r : RefSlot) : Nat := pf r.cfg 4 0 12

/-- The settings whose change blanks an input (R82): mode, termination, VTT, threshold, hysteresis. -/
def evtFront (p : Payload) : Nat × Nat × Nat × Nat × Nat := (pf p 1 4 1, pf p 1 5 2, pf p 4 0 8, pf p 2 0 12, pf p 2 12 2)
def refFront (p : Payload) : Nat × Nat × Nat × Nat × Nat := (pf p 2 4 1, pf p 2 5 2, pf p 3 0 8, pf p 4 0 12, pf p 2 0 2)

/-- Front-end values that R104 and R105 refuse. -/
def frontBad (f : Nat × Nat × Nat × Nat × Nat) : Bool :=
  decide (1 < f.2.1) || decide (200 < f.2.2.1) || (f.1 == 1 && !inRange f.2.2.2.1 476 1428)

end Sys2Proof.Machine
end

