-- ==== Sys2Proof/Machine/Lanes.lean ====
section
/-!
DEFINITION. The lanes as all their uses share them: which edges a lane takes (R80 to R82, R92, R102), which Causeway lane
carries an input, and the course of a SELFTEST of a lane with its overlaps and comparisons (R98 to R101).
-/

namespace Sys2Proof.Machine

/-! ## What a lane takes -/

/-- The Causeway lane that delivers the edges of a lane: it carries, verifies or returns (R98, R99). -/
def Hub.carrierOf (h : Hub) (l : Fin 192) : Option (Fin 6) :=
  (allFin 6).find? fun k => h.tdc.cw[k].busy && h.tdc.cw[k].target.toNat == l.val && decide (2 ≤ h.tdc.cw[k].phase.toNat)

/-- The lane that stamps the input of lane l now. -/
def Hub.laneUsed (h : Hub) (l : Fin 192) : Fin 192 := laneNow l (h.carrierOf l)

/-- The channel takes edges of this slope. -/
def EvtCh.selects (c : EvtCh) (rising : Bool) : Bool := c.slope == 2 || (c.slope == 0) == rising

/-- The event channel, the reference input and the SNS pair of a lane. -/
def evtOfLane (l : Fin 192) : Option (Fin 64) := finOf 64 l
def refOfLane (l : Fin 192) : Option (Fin 8) := if 64 ≤ l.val then finOf 8 (l - 64) else none
def snsOfLane (l : Fin 192) : Option (Fin 16) := if 168 ≤ l.val then finOf 16 (l - 168) else none

/-- SNS[k] serves an output (R202). -/
def Hub.snsServes (h : Hub) (k : Fin 16) : Bool := (allFin 96).any fun n => outRemote h.outs[n].cfg && outSns h.outs[n].cfg == k.val

/-- The front end of a lane selects edges of this slope: as its channel or its slot is set, and rising for an SNS pair that an
output senses through (R79, R142, R203). -/
def Hub.laneSelects (h : Hub) (l : Fin 192) (rising : Bool) : Bool :=
  match evtOfLane l, refOfLane l, snsOfLane l with
  | some n, _, _ => h.evts[n].selects rising
  | none, some s, _ => (pf h.refs[(⟨s.val, by omega⟩ : Fin 12)].cfg 2 2 2 == 1) != rising
  | none, none, some k => rising || !h.snsServes k
  | none, none, none => true

/-- The lane ignores all edges: its front end is blanked (R82). -/
def Hub.laneBlank (h : Hub) (l : Fin 192) : Bool :=
  match evtOfLane l, refOfLane l with
  | some n, _ => h.evts[n].blank
  | none, some s => h.refs[(⟨s.val, by omega⟩ : Fin 12)].blank
  | none, none => false

/-- A lane works; in BOOT it starts when its ladder has locked (R102). -/
def Hub.laneUp (h : Hub) (l : Fin 192) : Bool := !h.inMode .boot || h.clk.ladders.getLsbD (ladderOf l)

/-- The input of lane l hears an edge of this slope. -/
def Hub.hears (h : Hub) (l : Fin 192) (rising : Bool) : Bool := h.laneUp (h.laneUsed l) && !h.laneBlank l && h.laneSelects l rising

/-- 1.2 ns in 2^-24 root periods, times 10 (R81): 1.8 periods. -/
def dead10 : Int := 18 * 2 ^ 24

/-- An edge at root time t (2^-24 period) falls in the dead time of the last edge that the lane took, for whichever of its uses
(R81, R92). The same edge may reach several uses. -/
def Hub.laneDead (h : Hub) (l : Fin 192) (t : Int) : Bool :=
  match h.tdc.lastEdge[l] with
  | some t0 => decide (t0 < t) && decide ((t - t0) * 10 < dead10)
  | none => false

/-- The lane takes an edge at root time t. -/
def laneTake (l : Fin 192) (t : Int) (h : Hub) : Hub :=
  h.onTdc fun x => { x with lastEdge := upd x.lastEdge l fun e => match e with
    | some t0 => some (max t0 t)
    | none => some t }

/-- Descriptors of a slot complete once everything that they changed is in force: the blanking is over (R82), the delay and the
limits have been taken up (R124, R144). -/
def refDone (s : Fin 12) (ids : List Nat) (h : Hub) : Hub :=
  forEach ids (fun id h =>
    let r := h.refs[s]
    if (r.blankDesc ++ r.delayDesc ++ r.setDesc).contains id then h else complete id .ok h) h

/-! ## The course of a LANE test (R98) -/

/-- Change the test of lane l. -/
def onTest (l : Fin 192) (f : LaneTest → LaneTest) (h : Hub) : Hub :=
  h.onTdc fun t => { t with tests := t.tests.map fun x => if x.lane = l then f x else x }

/-- The phase that TDC_CW[k] shows. -/
def cwPhase (k : Fin 6) (p : BitVec 3) (h : Hub) : Hub := h.onTdc fun t => { t with cw := upd t.cw k fun c => { c with phase := p } }

/-- Causeway lane k takes over the duties of lane l (step 3). -/
def handOver (l : Fin 192) (k : Fin 6) (h : Hub) : Hub :=
  let h := match evtOfLane l with
    | some n => h.onEvt n fun c => { c with cw := some k }
    | none => h
  match refOfLane l with
  | some s => h.onRef ⟨s.val, by omega⟩ fun r => { r with cw := some k }
  | none => h

/-- Lane l is verified from now on (step 4). -/
def beginVerify (l : Fin 192) (h : Hub) : Hub := onTest l (fun x => { x with step := 4, since := h.clk.cycles, pairs := 0, bad := 0 }) h

/-- More than two of the pairs compared differ by more than 8 ps (step 3). -/
def LaneTest.fails (x : LaneTest) : Bool := decide (2 < x.bad)

/-- A comparison ends (steps 3 and 5). A mismatch ends the test: after the first overlap the lane keeps its duties, after the
second the Causeway lane does. Otherwise the duties change hands. -/
def endOverlap (x : LaneTest) (k : Fin 6) (h : Hub) : Hub :=
  let l := x.lane
  let ended := onTest l fun y => { y with step := 6, mismatch := x.fails }
  if x.step = 2 then
    if x.fails then raiseTdc (bit16 1) (releaseCw k (ended h))
    else beginVerify l (cwPhase k 3 (handOver l k h))
  else if x.fails then raiseTdc (bit16 1) (cwPhase k 2 (ended h))
  else raiseTdc (bit16 0) (releaseCw k (ended h))

/-- Two stamps of one edge differ by more than 8 ps (524.288 fu): the lanes l and m stamped it as st and as (cyc, bin). -/
def Hub.pairDiffers (h : Hub) (l m : Fin 192) (st : Stamp) (cyc : Nat) (bin : Byte) : Bool :=
  let d := ((st.cyc : Int) - cyc) * rootU + h.lanePos l st.bin - h.lanePos m bin
  decide (524288 * fuU < d.natAbs * 1000)

/-- An edge that a lane in overlap takes is stamped by the lane and by its Causeway lane (step 2); 16 pairs end the overlap. -/
def notePair (l : Fin 192) (st : Stamp) (h : Hub) : Hub :=
  match h.tdc.tests.find? (fun x => x.lane == l), st.pair with
  | some x, some (cyc, bin) =>
    match x.cw with
    | none => h
    | some k =>
      let used := h.laneUsed l
      let other := if x.step = 2 then laneOfCw k else l
      let key := h.rootStamp used st
      if (x.step = 2 ∨ x.step = 5) ∧ x.last ≠ some key then
        let y := { x with last := some key, pairs := x.pairs + 1, bad := x.bad + b2n (h.pairDiffers used other st cyc bin) }
        let h := onTest l (fun _ => y) h
        if y.pairs = 16 then endOverlap y k h else h
      else h
  | _, _ => h

/-- Root cycles of an overlap without 16 pairs, 3 s, and of a verification, 400 ms (log 78). -/
def overlapCycles : Nat := 3000 * tickCycles
def verifyCycles : Nat := 400 * tickCycles

/-- A test at a 1 ms tick: an overlap that has lasted 3 s ends with the pairs it has, and a verification that has lasted 400 ms
goes on to the second overlap, or is the end of a test of step 4 only (R98, R101). -/
def laneTick (x : LaneTest) (h : Hub) : Hub :=
  let age := h.clk.cycles - x.since
  match x.cw with
  | some k =>
    if (x.step = 2 ∨ x.step = 5) ∧ overlapCycles ≤ age then endOverlap x k h
    else if x.step = 4 ∧ verifyCycles ≤ age then
      let secs := BitVec.ofNat 32 (secsOf h.houseFu)
      cwPhase k 4 (onTest x.lane (fun x => { x with step := 5, since := h.clk.cycles, last := none, verified := true, secs }) h)
    else h
  | none =>
    if x.step = 4 ∧ verifyCycles ≤ age then
      let secs := BitVec.ofNat 32 (secsOf h.houseFu)
      raiseTdc (bit16 0) (onTest x.lane (fun x => { x with step := 6, verified := true, secs }) h)
    else h

/-- Every LANE test at a 1 ms tick. -/
def laneTicks (h : Hub) : Hub := forEach h.tdc.tests laneTick h

end Sys2Proof.Machine
end

