-- ==== Sys2Proof/Machine/Events.lean ====
section
/-!
DEFINITION. The commands of the event channels, their stream DMA and the user interval units (chapter 03).
-/

namespace Sys2Proof.Machine

/-! ## EVENT_CONFIG (R82, R104 to R106) -/

/-- The values that R104 and R105 refuse for channel n. -/
def eventConfigBad (h : Hub) (n : Fin 64) (p : Payload) : Bool :=
  let c := h.evts[n]
  frontBad (evtFront p) || pf p 1 2 2 == 3 || (pb p 1 1 && pf p 1 2 2 == 2)
  || (pb p 1 0 && (h.ring (.str n)).state != .enabled)
  || (c.enabled && pb p 1 0 && (pf p 5 0 4 != pf c.cfg 5 0 4 || pb p 1 1 != pb c.cfg 1 1))

/-- EVENT_CONFIG: a change of the front end of an enabled input blanks it for 2 µs, and the descriptor completes after
that (R82); a disable completes once the record whose width is still measured has been pushed (R106). -/
def eventConfigEff (d : Desc) (h : Hub) : Hub :=
  let p := d.payload
  withFin 64 (pf p 0 0 8) d.id (fun (n : Fin 64) (h : Hub) =>
    if eventConfigBad h n p then complete d.id .badParam h
    else
      let c := h.evts[n]
      let on_ := pb p 1 0
      let h' := copyWritten (0xC000 + 0x40 * n) 16 (h.onEvt n fun c => { c with cfg := pbytes p 16, enabled := on_ })
      if c.enabled && on_ && evtFront p != evtFront c.cfg then
        let now := h.clk.cycles
        h'.onEvt n fun c => { c with blank := true, blankAt := now, blankDesc := c.blankDesc ++ [d.id] }
      else if c.enabled && !on_ && c.open_.isSome then h'.onEvt n fun c => { c with stopDesc := c.stopDesc ++ [d.id] }
      else complete d.id .ok h') h

def eventConfig (o : Origin) (h : Hub) : Hub := serve o (isOp 0x40) eventConfigEff h

/-! ## Edges and records (R81 to R90) -/

/-- The capture buffer at root cycle c: it drains one edge in 75 root cycles, 20 M edges a second (R83). -/
def drained (cap capAt c : Nat) : Nat × Nat :=
  let n := (c - capAt) / 75
  if cap ≤ n then (0, c) else (cap - n, capAt + 75 * n)

/-- A record as R89 lays it out, with its width part zero. -/
def evtRecord (h : Hub) (n : Fin 64) (rising : Bool) (st : Stamp) (seq : BitVec 16) : BitVec 128 :=
  let c := h.evts[n]
  let d := h.doms[c.domain]
  let lane := laneNow (laneOfEvt n) c.cw
  let t := lessDelay (h.domStamp d lane st) (h.inDelay n rising c.code) c.delay
  BitVec.ofNat 128 (at_ 96 16 seq.toNat + atB 93 c.cw.isSome + atB 92 (d.untrusted || h.isSafe) + atB 91 (h.laneStale lane)
    + atB 89 h.notWarm + atB 88 rising + at_ 80 8 n + at_ 64 16 (epochOf t).toNat + at_ 0 64 (shortOf t).toNat)

/-- Copies of a pushed record go to the EVENT tasks of the channel (R319). -/
def copyToTasks (n : Fin 64) (r : BitVec 128) (h : Hub) : Hub :=
  h.onComp fun c => { c with evTasks := c.evTasks.mapFinIdx fun e x _ =>
    if x.accepted && x.channel == n.val && (pick c.tasks (76 + e) {}).state.works then { x with inbox := x.inbox ++ [r] } else x }

/-- Push a record into the channel's queue, or lose it at a full queue (R84); the first record after a loss carries the
overflow mark and the number lost in place of its width (R85). More than 400,000 pushes in one tick set agg_limit (R86). -/
def pushRecord (n : Fin 64) (r : BitVec 128) (width : Nat) (h : Hub) : Hub :=
  let c := h.evts[n]
  let stale := flag r 91
  let h := if stale then raiseEvt n (bit16 3) h else h
  if 4096 ≤ c.queue.length then
    raiseEvt n (bit16 0) (h.onEvt n fun c => { c with ovfCnt := satInc32 c.ovfCnt, lostRun := satAdd 65535 c.lostRun 1 })
  else
    let r := if c.lostRun = 0 then putFld r 112 16 width else putFld (putFld r 112 16 c.lostRun) 90 1 1
    let h := copyToTasks n r ((h.onEvt n fun c => { c with queue := c.queue ++ [r], lostRun := 0 }).onTdc fun t => { t with pushed := t.pushed + 1 })
    if h.tdc.pushed = 400001 then raiseTdc (bit16 3) h else h

/-- An accepted edge: it takes the next sequence number, and finds room in the capture buffer or is lost there (R83, R85).
With width_en its record waits for the opposite edge (R90). A record enters the queue at once, before its edge has drained: the
overflow mark of an edge lost in the buffer goes to the next accepted edge, and to none that still waited there (log 76). -/
def acceptEdge (n : Fin 64) (rising : Bool) (st : Stamp) (now : Int) (h : Hub) : Hub :=
  let c := h.evts[n]
  let seq := c.seq
  let b := drained c.cap c.capAt h.clk.cycles
  let h := h.onEvt n fun c => { c with seq := c.seq + 1, edges := c.edges + 1, lastEdge := some now, cap := b.1, capAt := b.2 }
  if 32 ≤ b.1 then
    raiseEvt n (bit16 1) (h.onEvt n fun c => { c with burstCnt := satInc32 c.burstCnt, lostRun := satAdd 65535 c.lostRun 1 })
  else
    let r := evtRecord h n rising st seq
    let h := h.onEvt n fun c => { c with cap := b.1 + 1 }
    if c.widthEn then h.onEvt n fun c => { c with open_ := some r } else pushRecord n r 0 h

/-- An edge on an event input. Edges are ignored while the channel does not capture, while its lane hears nothing (R82, R102), and
within the dead time of the last edge that the lane took, which EVT_DEAD_CNT counts (R81). No edge of the selected slope can
come while a width is being measured: the opposite edge ends the measurement first. -/
def eventEdge (n : Fin 64) (rising : Bool) (st : Stamp) (h : Hub) : Hub :=
  let h := advanceTo st.cyc h
  let c := h.evts[n]
  let l := laneOfEvt n
  if h.runs && c.enabled && h.hears l rising && c.open_.isNone then
    let now := h.rootStamp (h.laneUsed l) st
    if h.laneDead l now || c.lastEdge == some now then h.onEvt n fun c => { c with deadCnt := satInc32 c.deadCnt }
    else notePair l st (acceptEdge n rising st now (laneTake l now h))
  else h

/-- The opposite edge has come, or the width has saturated: the record is pushed with its width in 1/16 ns (R90), and a
disable that waited for it completes (R106). -/
def eventWidthEnd (n : Fin 64) (width : Nat) (h : Hub) : Hub :=
  match h.evts[n].open_ with
  | none => h
  | some r =>
    if h.runs then
      let ids := h.evts[n].stopDesc
      let h := pushRecord n r (min 65535 width) (h.onEvt n fun c => { c with open_ := none, stopDesc := [] })
      forEach ids (fun id => complete id .ok) h
    else h

/-- Channel n has records, and its ring has space for them. -/
def Hub.dmaWants (h : Hub) (n : Fin 64) : Bool :=
  !h.evts[n].queue.isEmpty && (h.ring (.str n)).state == .enabled && decide (0 < (h.ring (.str n)).room)

/-- The channel that the DMA engine serves next: the first in rotation that has records and space (R86). -/
def Hub.dmaNext (h : Hub) : Option (Fin 64) := ((allFin 64).map fun i => h.tdc.turn + i).find? h.dmaWants

/-- The DMA engine takes a burst of one to eight records of the channel whose turn it is and writes them to its stream ring, as
far as the queue and the ring go (R86 to R88); a ring that becomes full pauses the channel (R87). -/
def streamRecordDma (n : Fin 64) (burst : Nat) (h : Hub) : Hub :=
  let c := h.evts[n]
  let r := h.ring (.str n)
  let k := min (min burst 8) (min c.queue.length r.room)
  if h.runs && h.host.ready && h.dmaNext == some n && decide (0 < k) then
    let h := h.onEvt n fun c => { c with queue := c.queue.drop k }
    let h := ringPost (.str n) ((c.queue.take k).map fun x => leBytes 16 x.toNat) false h
    let h := h.onTdc fun t => { t with aggNow := satAdd 0xFFFFFFFF t.aggNow k, turn := n + 1 }
    if (h.ring (.str n)).room = 0 then raiseEvt n (bit16 2) (h.onEvt n fun c => { c with ringFull := true }) else h
  else h

/-- 2 µs in root cycles (R82). -/
def blankCycles : Nat := 3000

/-- The 2 µs of R82 have passed: edges count again, and the descriptors that made the change complete. -/
def frontEndBlankEnd (f : FrontEnd) (h : Hub) : Hub :=
  match f with
  | .evt n => when_ (h.runs && h.evts[n].blank) (atCyc (h.evts[n].blankAt + blankCycles) fun h =>
      let ids := h.evts[n].blankDesc
      forEach ids (fun id => complete id .ok) (h.onEvt n fun c => { c with blank := false, blankDesc := [] })) h
  | .ref s =>
    let s : Fin 12 := ⟨s, by omega⟩
    when_ (h.runs && h.refs[s].blank) (atCyc (h.refs[s].blankAt + blankCycles) fun h =>
      let ids := h.refs[s].blankDesc
      refDone s ids (h.onRef s fun c => { c with blank := false, blankDesc := [] })) h

/-! ## Interval units (R92 to R97, R107 to R111) -/

/-- Fields of INTERVAL_START. -/
def ivuMode (p : Payload) : Nat := pf p 1 0 2
def ivuDomain (p : Payload) : Fin 16 := ⟨pf p 4 0 4, Nat.mod_lt _ (by decide)⟩
def ivuCount (p : Payload) : Nat := pf p 6 0 16
def ivuOpen (p : Payload) : Nat := pf p 8 0 64
def ivuClose (p : Payload) : Nat := pf p 16 0 64

/-- start_wait in fu, 0 standing for 10 s (R107), and in whole root cycles. -/
def ivuWait (p : Payload) : Nat := if pf p 24 0 64 = 0 then 655360000000000 else pf p 24 0 64
def ivuWaitCycles (p : Payload) : Nat := (ivuWait p * 3 + 131071) / 131072

/-- Instances of a source kind: EVT, REF, SNS, PLS. -/
def kindCount (k : Nat) : Nat := if k = 0 then 64 else if k = 1 then 8 else if k = 2 then 16 else 64

/-- The values that R107 and R108 refuse for a run. -/
def intervalBad (p : Payload) : Bool :=
  let unit := pf p 0 0 8
  let sk := pf p 2 6 2
  let ek := pf p 3 6 2
  (decide (31 < unit) && unit != 0xFF) || ivuMode p == 3 || pf p 1 6 2 == 3 || (sk != 3 && pf p 1 4 2 == 3) || ek == 3
  || decide (kindCount sk ≤ pf p 2 0 6) || decide (kindCount ek ≤ pf p 3 0 6)
  || (ivuMode p == 1 && ivuCount p == 0) || decide (ivuClose p ≤ ivuOpen p)
  || decide (655360000000000 < ivuClose p) || decide (655360000000000 < pf p 24 0 64)
  || (sk == ek && pf p 2 0 6 == pf p 3 0 6 && decide (ivuOpen p < 78644))

/-- A unit is idle: no run, and no result held for a warden. -/
def Ivu.idle (x : Ivu) : Bool := x.state == IvuState.idle && x.held.isNone

/-- The unit that a run takes: the named one if idle, or for 0xFF the lowest idle one (R96). -/
def Hub.idleUnit (h : Hub) (unit : Nat) : Option (Fin 32) :=
  (allFin 32).find? fun u => (unit == 0xFF || unit == u.val) && h.ivus[u].idle

/-- Start a run (R94 to R96). -/
def intervalStartEff (d : Desc) (h : Hub) : Hub :=
  let p := d.payload
  if intervalBad p then complete d.id .badParam h
  else match h.idleUnit (pf p 0 0 8) with
    | none => complete d.id .noResource h
    | some u =>
      let now := h.clk.cycles
      (copyWritten (0xD000 + 0x40 * u) 32 h).onIvu u fun x =>
        { x with
          cfg := pbytes p 32, state := .waitStart, armAt := now, done := 0, desc := some d.id, early := 0, flagsAll := 0,
          sum := 0, sumSq := 0, least := 0, most := 0, valid := 0, timeouts := 0 }

def intervalStartSingle (o : Origin) (h : Hub) : Hub := serve o (isOpSub 0x41 fun p => ivuMode p == 0 || ivuMode p == 3) intervalStartEff h
def intervalStartRepeat (o : Origin) (h : Hub) : Hub := serve o (isOpSub 0x41 fun p => ivuMode p == 1) intervalStartEff h

/-- The result field of SINGLE (R109). -/
def singleResult (u : Fin 32) (x : Ivu) (interval : Int) : BitVec 192 :=
  resultOf [(0, 64, ofSigned 64 interval), (64, 64, (shortOf x.start).toNat), (128, 16, (epochOf x.start).toNat), (144, 16, x.early),
    (160, 16, x.flags.toNat), (176, 8, u)]

/-- Mean of the valid results in 2^-8 fu, from exact sums (R95). -/
def Ivu.mean8 (x : Ivu) : Int := if x.valid = 0 then 0 else rdiv (x.sum * 256) x.valid

/-- Rms deviation from the mean in 2^-8 fu (R95). -/
def Ivu.rms8 (x : Ivu) : Nat :=
  if x.valid = 0 then 0
  else (isqrt (4 * (65536 * (x.valid * x.sumSq - x.sum ^ 2)).toNat / (x.valid * x.valid)) + 1) / 2

/-- The result field of a run that is not one SINGLE measurement (R110). -/
def repeatResult (u : Fin 32) (x : Ivu) : BitVec 192 :=
  resultOf [(0, 64, ofSigned 64 x.mean8), (64, 32, min 0xFFFFFFFF x.rms8),
    (96, 32, if x.valid = 0 then 0 else min 0xFFFFFFFF (x.most - x.least).toNat), (128, 16, x.valid), (144, 16, x.timeouts),
    (160, 16, x.flagsAll.toNat), (176, 8, u)]

/-- The run ends: the unit is idle, and its descriptor completes, or the result is held while no warden is in charge (R102). -/
def ivuEnd (u : Fin 32) (st : Status) (result : BitVec 192) (h : Hub) : Hub :=
  let id := h.ivus[u].desc
  let h := raiseIvu u (bit16 0) (h.onIvu u fun x => { x with state := .idle })
  if h.inCharge then
    let h := h.onIvu u fun x => { x with desc := none }
    match id with
    | some i => completeWith i st result h
    | none => h
  else h.onIvu u fun x => { x with held := some (st, result) }

/-- ABORT: the run ends with what it has gathered, and the ABORT completes with OK, also on an idle unit (R96). Only its
unit is looked at, which must be 0 to 31 (R107). A measurement that is still open is not among the measurements whose flags the
result combines (log 77). -/
def intervalAbortEff (d : Desc) (h : Hub) : Hub :=
  withFin 32 (pf d.payload 0 0 8) d.id (fun (u : Fin 32) (h : Hub) =>
    if h.ivus[u].state == .idle then complete d.id .ok h
    else complete d.id .ok (raiseIvu u (bit16 2) (ivuEnd u .aborted (repeatResult u h.ivus[u]) h))) h

def intervalStartAbort (o : Origin) (h : Hub) : Hub := serve o (isOpSub 0x41 fun p => ivuMode p == 2) intervalAbortEff h

/-- The lane, carrier, front end, threshold code and channel delay of a lane source (R92, R93). An SNS pair is compared at
0 V, code 952 (log 16). -/
def Hub.source (h : Hub) (kind index : Nat) : Option (Fin 192 × Option (Fin 6) × Nat × Nat × Int) :=
  if kind = 0 then (finOf 64 index).map fun n => (laneOfEvt n, h.evts[n].cw, n.val, h.evts[n].code, h.evts[n].delay)
  else if kind = 1 then (finOf 8 index).map fun (s : Fin 8) =>
    let r := h.refs[(⟨s.val, by omega⟩ : Fin 12)]
    (laneOfRef s, r.cw, 64 + s.val, r.code, r.delay)
  else if kind = 2 then (finOf 16 index).map fun k => (laneOfSns k, h.carrierOf (laneOfSns k), 72 + k.val, 952, 0)
  else none

/-- Flags 1 to 4 of a stamp taken by a lane in a domain (R111). -/
def Hub.stampFlags (h : Hub) (d : Dom) (stale cw : Bool) : BitVec 16 :=
  BitVec.ofNat 16 (atB 1 h.notWarm + atB 2 stale + atB 3 (d.untrusted || h.isSafe) + atB 4 cw)

/-- The stamp and its flags of an edge on a lane source, in the unit's domain. -/
def Hub.ivuStamp (h : Hub) (p : Payload) (kind index : Nat) (rising : Bool) (st : Stamp) : Option (Int × BitVec 16) :=
  (h.source kind index).map fun x =>
    let d := h.doms[ivuDomain p]
    let lane := laneNow x.1 x.2.1
    (lessDelay (h.domStamp d lane st) (h.inDelay x.2.2.1 rising x.2.2.2.1) (if pb p 1 2 then 0 else x.2.2.2.2),
      h.stampFlags d (h.laneStale lane) x.2.1.isSome)

/-- The start stamp of a pulse output: where its generator placed the last leading edge, in the unit's domain, plus the
calibrated output-path delay (R92). -/
def Hub.plsStart (h : Hub) (p : Payload) (index : Nat) : Option (Int × BitVec 16) :=
  match finOf 64 index with
  | none => none
  | some n =>
    let x := h.plss[n]
    x.lastStart.map fun t =>
      let dp := h.doms[plsDomain x.run]
      let d := h.doms[ivuDomain p]
      let off := t - (dp.secs * secU + dp.sub)
      let off := rdiv (off * (2 ^ 16 * 10 ^ 12 + h.rotFofs d)) (2 ^ 16 * 10 ^ 12 + h.rotFofs dp)
      (rdiv (d.secs * secU + d.sub + off + fu5U (h.plsDelay n)) fuU, h.stampFlags d h.calStale false)

/-- An edge filter passes the edge (R107). -/
def edgePasses (filter : Nat) (rising : Bool) : Bool := filter == 0 || (filter == 1) == rising

/-- The lane of a source, when it takes an edge of this slope and stamp: the lane hears it, and it falls in no dead time of any
use of the lane (R81, R82, R92). -/
def Hub.edgeLane (h : Hub) (kind index : Nat) (rising : Bool) (st : Stamp) : Option (Fin 192) :=
  (h.source kind index).bind fun x =>
    if h.hears x.1 rising && !h.laneDead x.1 (h.rootStamp (h.laneUsed x.1) st) then some x.1 else none

/-- The lane takes the edge for a use of its own. -/
def useLane (l : Fin 192) (st : Stamp) (h : Hub) : Hub := notePair l st (laneTake l (h.rootStamp (h.laneUsed l) st) h)

/-- Root cycles since power-up at a stamp. -/
def Hub.cycleOf (h : Hub) (st : Stamp) : Nat := h.clk.cycles + st.cyc - h.clk.pos

/-- A waiting unit opens its window. -/
def ivuOpens (u : Fin 32) (t : Int) (fl : BitVec 16) (h : Hub) : Hub :=
  h.onIvu u fun x => { x with state := .window, start := t, early := 0, flags := fl }

/-- A start edge: a waiting unit opens its window from it, within start_wait; during a measurement it is ignored (R94). -/
def ivuStartEdge (u : Fin 32) (rising : Bool) (st : Stamp) (h : Hub) : Hub :=
  let h := advanceTo st.cyc h
  let x := h.ivus[u]
  let kind := pf x.cfg 2 6 2
  let index := pf x.cfg 2 0 6
  if h.runs && x.state == .waitStart && decide (h.cycleOf st ≤ x.armAt + ivuWaitCycles x.cfg) then
    if kind = 3 then
      match h.plsStart x.cfg index with
      | some (t, fl) => ivuOpens u t fl h
      | none => h
    else match h.edgeLane kind index rising st, h.ivuStamp x.cfg kind index rising st with
      | some l, some (t, fl) => useLane l st (if edgePasses (pf x.cfg 1 4 2) rising then ivuOpens u t fl h else h)
      | _, _ => h
  else h

/-- A measurement ends with its result, or with none on a timeout; a REPEAT run that is not at its count waits for the next
start edge (R94, R95). -/
def ivuMeasured (u : Fin 32) (result : Option Int) (fl : BitVec 16) (h : Hub) : Hub :=
  let v := result.getD 0
  let h := h.onIvu u fun x =>
    let x := { x with
      done := x.done + 1, last := v, lastEarly := x.early, lastFlags := x.flags ||| fl, flags := x.flags ||| fl, flagsAll := x.flagsAll ||| x.flags ||| fl }
    match result with
    | some v =>
      { x with
        valid := x.valid + 1, sum := x.sum + v, sumSq := x.sumSq + v ^ 2,
        least := if x.valid = 0 then v else min x.least v, most := if x.valid = 0 then v else max x.most v }
    | none => { x with timeouts := x.timeouts + 1 }
  let h := if result.isNone then raiseIvu u (bit16 1) h else h
  let x := h.ivus[u]
  if ivuMode x.cfg = 1 then
    if x.done.toNat < ivuCount x.cfg then
      let now := h.clk.cycles
      h.onIvu u fun x => { x with state := .waitStart, armAt := now }
    else ivuEnd u .ok (repeatResult u x) h
  else ivuEnd u .ok (singleResult u x v) h

/-- A stop edge with stamp t: early below open, accepted within the window (R94). -/
def ivuStops (u : Fin 32) (t : Int) (fl : BitVec 16) (h : Hub) : Hub :=
  let x := h.ivus[u]
  let i := t - x.start
  if i < 0 then h
  else if i < ivuOpen x.cfg then h.onIvu u fun x => { x with early := satAdd 65535 x.early 1 }
  else if i < ivuClose x.cfg then ivuMeasured u (some i) fl h
  else h

/-- An edge on the stop lane of a unit whose window is open. -/
def ivuStopEdge (u : Fin 32) (rising : Bool) (st : Stamp) (h : Hub) : Hub :=
  let h := advanceTo st.cyc h
  let x := h.ivus[u]
  let kind := pf x.cfg 3 6 2
  let index := pf x.cfg 3 0 6
  if h.runs && x.state == .window then
    match h.edgeLane kind index rising st, h.ivuStamp x.cfg kind index rising st with
    | some l, some (t, fl) => useLane l st (if edgePasses (pf x.cfg 1 6 2) rising then ivuStops u t fl h else h)
    | _, _ => h
  else h

/-- The domain time reaches start + close without a stop (R94): the measurement ends with the timeout flag. -/
def ivuWindowTimeout (u : Fin 32) (h : Hub) : Hub :=
  let x := h.ivus[u]
  if h.runs && x.state == .window then
    match reachDom (ivuDomain x.cfg) ((x.start + ivuClose x.cfg) * fuU) h with
    | some h => ivuMeasured u none 1 h
    | none => h
  else h

/-- No start edge came within start_wait: the run ends with TIMEOUT (R94, R97). -/
def ivuStartWaitExpired (u : Fin 32) (h : Hub) : Hub :=
  let x := h.ivus[u]
  when_ (h.runs && x.state == .waitStart) (atCyc (x.armAt + ivuWaitCycles x.cfg) fun h =>
    let h := h.onIvu u fun x => { x with flags := x.flags ||| 0x20, flagsAll := x.flagsAll ||| 0x20 }
    ivuEnd u .timeout (repeatResult u h.ivus[u]) h) h

/-! ## Meanings -/

def execEventConfig (o : Origin) (s : State) := run (eventConfig o) s
def execIntervalStartSingle (o : Origin) (s : State) := run (intervalStartSingle o) s
def execIntervalStartRepeat (o : Origin) (s : State) := run (intervalStartRepeat o) s
def execIntervalStartAbort (o : Origin) (s : State) := run (intervalStartAbort o) s
def execEventEdge (n : Fin 64) (rising : Bool) (st : Stamp) (s : State) := run (eventEdge n rising st) s
def execEventWidthEnd (n : Fin 64) (width : Nat) (s : State) := run (eventWidthEnd n width) s
def execStreamRecordDma (n : Fin 64) (burst : Nat) (s : State) := run (streamRecordDma n burst) s
def execFrontEndBlankEnd (f : FrontEnd) (s : State) := run (frontEndBlankEnd f) s
def execIvuStartEdge (u : Fin 32) (rising : Bool) (st : Stamp) (s : State) := run (ivuStartEdge u rising st) s
def execIvuStopEdge (u : Fin 32) (rising : Bool) (st : Stamp) (s : State) := run (ivuStopEdge u rising st) s
def execIvuWindowTimeout (u : Fin 32) (s : State) := run (ivuWindowTimeout u) s
def execIvuStartWaitExpired (u : Fin 32) (s : State) := run (ivuStartWaitExpired u) s

end Sys2Proof.Machine
end

