-- ==== Sys2Proof/Machine/Outputs.lean ====
section
/-!
DEFINITION. The commands of the clock and pulse outputs (chapter 06): OUTPUT_CONFIG and its boundary, PULSE_CONFIG, the
grid instants and ends of pulses, and PULSE_ANCHOR with its edges and timeouts.
-/

namespace Sys2Proof.Machine

/-! ## OUTPUT_CONFIG (R191 to R203, R218, R219) -/

/-- Smallest N of a format (R194). -/
def fmtMinN (fmt : Nat) : Nat := if fmt = 0 then 2 else if fmt = 1 then 6 else 1

/-- Bank of a clock output. -/
def bankOfOut (n : Fin 96) : Fin 24 := ⟨n / 4, by omega⟩

/-- The instant of when 2, fu since the PTP epoch. -/
def outAt (p : Payload) : Int := (pf p 16 0 48 : Int) * secFu + (pf p 22 0 32 * 65536 + pf p 26 0 16 : Nat)

/-- Another output of the bank runs or is about to (R195). -/
def Hub.bankBusy (h : Hub) (n : Fin 96) : Bool :=
  (allFin 96).any fun k => k != n && bankOfOut k == bankOfOut n &&
    (h.outs[k].enabled || match h.outs[k].pend with
      | some q => q.enable
      | none => false)

/-- The values and settings that R219 refuses for CLK[n]. -/
def outputConfigBad (h : Hub) (n : Fin 96) (p : Payload) : Bool :=
  let x := h.outs[n]
  let now := h.doms[outDomain p].fu
  decide (4 < outFmt p) || pf p 1 2 2 == 3 || pf p 1 0 2 == 3 || decide (outN p < fmtMinN (outFmt p))
  || decide (262144 < pf p 8 0 32) || decide (999999999 < pf p 22 0 32)
  || (BitVec.ofNat 3 (outFmt p) != h.banks[bankOfOut n] && h.bankBusy n)
  || (pf p 1 0 2 == 2 && decide (now + 65535 * secFu < outAt p))
  || (x.enabled && (outDomain p != outDomain x.cfg || outN p != outN x.cfg))
  || (outRemote p && (allFin 96).any fun k => k != n && outRemote h.outs[k].cfg && outSns h.outs[k].cfg == outSns p)

/-- The boundary of a change applied now, and whether it is late (R197). -/
def outBoundary (h : Hub) (p : Payload) (enable : Bool) : Int × Bool :=
  let now := h.doms[outDomain p].now
  let per := outPeriod p
  let w := pf p 1 0 2
  let soon := now + usU
  let at_ := outAt p * fuU
  let pastWhen := w == 2 && decide (at_ < soon)
  let first := if w = 0 ∨ pastWhen then gridUp per soon
    else if w = 1 then gridUp per ((now.fdiv secU + 1) * secU)
    else gridUp per at_
  let low := now + per / 2
  if enable ∧ first < low then (gridUp per low, w != 0) else (first, pastWhen)

/-- The sense point that the settings name: a pair, or the pad (R202). -/
def outSense (p : Payload) : Option (Fin 16) := if outRemote p then finOf 16 (outSns p) else none

/-- What the lane of an SNS pair in use is set to: differential with 10 kΩ, a threshold in mV, rising slope (R203). -/
structure SnsLane where
  differential : Bool
  ohms : Nat
  threshold : Int
  rising : Bool
deriving DecidableEq, Repr

/-- The lane of SNS[k], while an output senses through it. -/
def Hub.snsLane (h : Hub) (k : Fin 16) : Option SnsLane :=
  if (allFin 96).any fun n => outSense h.outs[n].cfg == some k then some ⟨true, 10000, 0, true⟩ else none

/-- The DLL takes up the sense point of the settings: a changed one is acquired from the present control value under the limit
of R66. -/
def senseChange (n : Fin 96) (h : Hub) : Hub :=
  let to_ := outSense h.outs[n].cfg
  if h.dlls[n].sense = to_ then h else h.onDll n fun d => { d with sense := to_, slow := true, locked := false }

/-- A change that waits for its boundary is replaced: its descriptor completes with ABORTED (R200). -/
def dropPending (n : Fin 96) (h : Hub) : Hub :=
  match h.outs[n].pend with
  | some q => complete q.desc .aborted (h.onOut n fun x => { x with pend := none })
  | none => h

/-- The result field of OUTPUT_CONFIG and PULSE_CONFIG: a full time of a domain for an instant in 2^-64 steps, with late. -/
def instantResult (h : Hub) (m : Fin 16) (t : Int) (late : Bool) : BitVec 192 :=
  let d := h.doms[m]
  resultOf [(0, 128, (fullTimeOf (toFu t) m d.quality (h.timeFlags d)).toNat), (128, 8, b2n late)]

/-- OUTPUT_CONFIG: settings at once, an enable or disable at its boundary. -/
def outputConfigEff (d : Desc) (h : Hub) : Hub :=
  let p := d.payload
  withFin 96 (pf p 0 0 8) d.id (fun (n : Fin 96) (h : Hub) =>
    if outputConfigBad h n p then complete d.id .badParam h
    else
      let x := h.outs[n]
      let on_ := pb p 1 7
      let h := dropPending n h
      let h := { h with banks := upd h.banks (bankOfOut n) fun _ => BitVec.ofNat 3 (outFmt p) }
      let off := h.pinNow n (outDisabled p)
      let h := (copyWritten (0xE000 + 0x20 * n) 16 h).onOut n fun x => { x with cfg := pbytes p 16, pin := if x.enabled then x.pin else off }
      let h := if x.enabled && on_ then senseChange n h else h
      if x.enabled == on_ then completeWith d.id .ok (instantResult h (outDomain p) h.doms[outDomain p].now false) h
      else
        let b := outBoundary h p on_
        h.onOut n fun x =>
          { x with pend := some { desc := d.id, enable := on_, boundary := b.1, late := b.2 },
                   evt := if b.2 then x.evt.raise (bit16 3) else x.evt }) h

def outputConfig (o : Origin) (h : Hub) : Hub := serve o (isOp 0x30) outputConfigEff h

/-- The boundary falls: the output starts with a rising edge, or goes to its disable state (R198), and the descriptor
completes (R201). The sense point of the settings is taken up after the enable (R68). -/
def outputBoundary (n : Fin 96) (h : Hub) : Hub :=
  match h.outs[n].pend with
  | none => h
  | some q =>
    let m := outDomain h.outs[n].cfg
    match (if h.runs then reachDom m q.boundary h else none) with
    | none => h
    | some h =>
      let pin := h.pinNow n (if q.enable then .running else outDisabled h.outs[n].cfg)
      let h := h.onOut n fun x => { x with enabled := q.enable, pend := none, stretch := none, pin }
      let h := raiseOut n (bit16 (if q.enable then 0 else 1)) h
      let h := if q.enable then senseChange n h else h
      completeWith q.desc .ok (instantResult h m q.boundary q.late) h

/-! ## PULSE_CONFIG (R205 to R210, R220, R222) -/

/-- The values that R206, R208 and R220 refuse for PLS[n]. -/
def pulseConfigBad (h : Hub) (n : Fin 64) (p : Payload) : Bool :=
  let per := plsPeriod p
  let w := plsWidth p
  let x := h.plss[n]
  !inRange per 65536 (2 ^ 56) || (plsFast p && w != 0)
  || (!plsFast p && (!inRange w 65536 (2 ^ 48) || decide (per < w + 65536)))
  || (!plsTerm p && (decide (per < 5 * 65536) || decide (w < 2 * 65536)))
  || decide (999999999 < pf p 30 0 32) || (x.enabled && plsDomain p != plsDomain x.run)

/-- A change that waits for the pulse in progress: disable, period, width, start, polarity (R208). -/
def plsWaits (a b : Payload) : Bool :=
  !pb b 1 7 || plsPeriod a != plsPeriod b || plsWidth a != plsWidth b || plsStart_ a != plsStart_ b || plsLow a != plsLow b

/-- The ball between pulses under the settings p; BOOT drives it low (R216). -/
def Hub.plsRest (h : Hub) (p : Payload) : PlsPin := if h.inMode .boot then .low else plsIdle p

/-- Settings come into force (R208, R214): the pulse train of an enabled output starts at the first grid instant from
`from_`, a changed period or start ends tracking, and a new grid is not exempt from the 1 ns of R209. -/
def plsApply (n : Fin 64) (id : Nat) (p : Payload) (from_ : Int) (h : Hub) : Hub :=
  let x := h.plss[n]
  let regrid := plsPeriod p != plsPeriod x.run || plsStart_ p != plsStart_ x.run
  let on_ := pb p 1 7
  let fresh := on_ && (!x.enabled || plsWaits x.run p)
  let rest := h.plsRest p
  let h := h.onPls n fun x =>
    let x := if regrid then { x with shift := 0, shift0 := 0, rho := 0, slope := 0, anchor := if x.anchor == Anchor.track then .none else x.anchor } else x
    let x := { x with
      run := p, enabled := on_, left := plsCount p, from_ := if fresh then from_ else x.from_
      moved := x.moved || fresh, pin := if x.pin == PlsPin.hiZ || x.active then x.pin else rest }
    if fresh then { x with next := x.gridFrom from_ } else x
  let x := h.plss[n]
  let m := plsDomain p
  completeWith id .ok (if on_ then instantResult h m x.nextPulse false else 0) h

/-- PULSE_CONFIG: at once, or after the pulse in progress. -/
def pulseConfigEff (d : Desc) (h : Hub) : Hub :=
  let p := d.payload
  withFin 64 (pf p 0 0 8) d.id (fun (n : Fin 64) (h : Hub) =>
    if pulseConfigBad h n p then complete d.id .badParam h
    else
      let q := pbytes p 40
      let x := h.plss[n]
      let from_ := h.doms[plsDomain q].now + 20 * usU
      let h := (copyWritten (0xF000 + 0x40 * n) 40 h).onPls n fun x => { x with cfg := q }
      if x.active && (plsWaits x.run q || !x.pend.isEmpty) then h.onPls n fun x => { x with pend := x.pend ++ [(d.id, q, from_)] }
      else plsApply n d.id q from_ h) h

def pulseConfig (o : Origin) (h : Hub) : Hub := serve o (isOp 0x31) pulseConfigEff h

/-! ## The pulse train (R207 to R209) -/

/-- The rule of R209 forbids a pulse at t: one is active, or t comes before the first instant allowed after the last one. -/
def Pls.blocked (x : Pls) (t : Int) : Bool :=
  x.active || match x.freeFrom with
    | none => false
    | some e => decide (t < e)

/-- A grid instant of an enabled output falls: a pulse begins, or the instant is skipped (R209). In BOOT the ball is driven low and
no pulse is emitted (R216). -/
def pulseGridInstant (n : Fin 64) (h : Hub) : Hub :=
  let x := h.plss[n]
  match (if h.runs && !h.inMode .boot && x.enabled then reachDom (plsDomain x.run) x.next h else none) with
  | none => h
  | some h =>
    let t := x.next
    let h := h.onPls n fun x => { x with next := x.gridFrom (t + 1) }
    if x.blocked t then raisePls n (bit16 3) (h.onPls n fun x => { x with skip := satInc32 x.skip })
    else
      let p := h.placed n t
      h.onPls n fun x =>
        { x with
          active := true, lastStart := some p, lastEnd := some (x.endOf t), count := x.count + 1, left := x.left - 1
          pin := if x.pin == PlsPin.hiZ then .hiZ else plsActive x.run, moved := false }

/-- The active pulse ends: its trailing edge is placed as its leading edge was (R207), the ball goes inactive, a counted train that is done disables itself, and the changes that waited
take effect (R208). -/
def pulseEnd (n : Fin 64) (h : Hub) : Hub :=
  let x := h.plss[n]
  match (if h.runs && x.active then reachDom (plsDomain x.run) (x.lastEnd.getD 0) h else none) with
  | none => h
  | some h =>
    let done := plsCount x.run != 0 && x.left == 0
    let pend := x.pend
    let placed := x.lastEnd.map (h.placed n)
    let h := h.onPls n fun x =>
      { x with
        active := false, trail := placed, pend := [], enabled := x.enabled && !done
        pin := if x.pin == PlsPin.hiZ then .hiZ else plsIdle x.run }
    let h := if done then raisePls n (bit16 0) h else h
    forEach pend (fun (q : Nat × Payload × Int) => plsApply n q.1 q.2.1 q.2.2) h

/-! ## PULSE_ANCHOR (R211 to R215, R221, R222) -/

def anchorMode (p : Payload) : Nat := pf p 1 0 2
def anchorOffset (p : Payload) : Int := pfs p 8 0 48
def anchorWindow (p : Payload) : Nat := pf p 16 0 64
def anchorTimeout (p : Payload) : Nat := pf p 4 0 16

/-- The values that R221 and R222 refuse for PLS[n]. -/
def pulseAnchorBad (h : Hub) (n : Fin 64) (p : Payload) : Bool :=
  let x := h.plss[n]
  let kind := pf p 2 6 2
  decide (1 < pf p 1 2 2) || anchorMode p == 3 || decide (1 < kind) || (kind == 1 && decide (7 < pf p 2 0 6))
  || (!x.enabled && anchorMode p != 2) || (anchorMode p == 1 && anchorTimeout p == 0)
  || decide (plsPeriod x.run < 2 * anchorWindow p)

/-- A new PULSE_ANCHOR makes an earlier one that still waits complete with ABORTED (R215). -/
def dropAnchor (n : Fin 64) (h : Hub) : Hub :=
  let id := h.plss[n].anchorDesc
  completeOpt id .aborted (h.onPls n fun x => { x with anchorDesc := none })

/-- ONCE and TRACK wait for the first anchor edge. -/
def anchorStart (mode : Anchor) (d : Desc) (h : Hub) : Hub :=
  let p := d.payload
  withFin 64 (pf p 0 0 8) d.id (fun (n : Fin 64) (h : Hub) =>
    if pulseAnchorBad h n p then complete d.id .badParam h
    else
      let now := h.clk.cycles
      (dropAnchor n h).onPls n fun x =>
        { x with
          anchor := mode, anchorCfg := pbytes p 24, anchorDesc := some d.id, placed := false, anchorLost := false, anchorAt := now
          rho := 0, slope := 0 }) h

def pulseAnchorOnce (o : Origin) (h : Hub) : Hub :=
  serve o (isOpSub 0x32 fun p => anchorMode p == 0 || anchorMode p == 3) (anchorStart .once) h
def pulseAnchorTrack (o : Origin) (h : Hub) : Hub := serve o (isOpSub 0x32 fun p => anchorMode p == 1) (anchorStart .track) h

/-- STOP ends tracking and keeps the grid (R214). -/
def anchorStop (d : Desc) (h : Hub) : Hub :=
  let p := d.payload
  withFin 64 (pf p 0 0 8) d.id (fun (n : Fin 64) (h : Hub) =>
    if pulseAnchorBad h n p then complete d.id .badParam h
    else complete d.id .ok ((dropAnchor n h).onPls n fun x => { x with anchor := .none, rho := 0, slope := 0, anchorLost := false })) h

def pulseAnchorStop (o : Origin) (h : Hub) : Hub := serve o (isOpSub 0x32 fun p => anchorMode p == 2) anchorStop h

/-- The anchor stamp in the output's domain, fu, with the channel's delay (R211). -/
def Hub.anchorStamp (h : Hub) (n : Fin 64) (rising : Bool) (st : Stamp) : Option Int :=
  let x := h.plss[n]
  (h.source (pf x.anchorCfg 2 6 2) (pf x.anchorCfg 2 0 6)).map fun s =>
    lessDelay (h.domStamp h.doms[plsDomain x.run] (laneNow s.1 s.2.1) st) (h.inDelay s.2.2.1 rising s.2.2.2.1) s.2.2.2.2

/-- A placement: the grid is moved by the least shift that puts an instant on the target, the first pulse comes at least
20 µs later, and the descriptor completes (R212, R215). -/
def anchorPlace (n : Fin 64) (stamp : Int) (h : Hub) : Hub :=
  let x := h.plss[n]
  let target := stamp + anchorOffset x.anchorCfg
  let c := rdiv (target * fuU - x.gridNear (target * fuU)) fuU
  let id := x.anchorDesc
  let from_ := h.doms[plsDomain x.run].now + 20 * usU
  let at_ := h.clk.cycles
  let h := h.onPls n fun x =>
    let x := { x with
      moved := true, anchorAt := at_
      shift := x.shift + rdiv ((target * fuU - x.gridNear (target * fuU)) * 10 ^ 6) fuU, anchorDesc := none, placed := true, rho := 0
      slope := 0, anchorLost := false, lastErr := 0, from_, anchor := if x.anchor == Anchor.once then .none else x.anchor }
    { x with shift0 := x.shift, next := x.gridFrom from_ }
  let h := raisePls n (bit16 1) h
  match id with
  | some i => completeWith i .ok (resultOf [(0, 64, (shortOf stamp).toNat), (64, 16, (epochOf stamp).toNat), (128, 64, ofSigned 64 c)]) h
  | none => h

/-- A later anchor edge in TRACK (R213): within the window it refreshes rho, outside it is rejected. SAFE keeps rho. -/
def anchorTrack (n : Fin 64) (stamp : Int) (h : Hub) : Hub :=
  let x := h.plss[n]
  let target := stamp + anchorOffset x.anchorCfg
  let err := rdiv ((x.gridNear (stamp * fuU) - target * fuU) * 10 ^ 6) fuU
  let window : Int := if anchorWindow x.anchorCfg = 0 then (plsPeriod x.run : Int) * 500000 else (anchorWindow x.anchorCfg : Int) * 10 ^ 6
  if err.natAbs ≤ window then
    let at_ := h.clk.cycles
    h.onPls n fun x =>
      { x with rho := if h.isSafe then x.rho else err, lastErr := rdiv err (10 ^ 6), anchorLost := false, anchorAt := at_ }
  else raisePls n (bit16 4) h

/-- An edge on the anchor lane of PLS[n]: of the edge chosen, it places the grid or refreshes the residual. -/
def pulseAnchorEdge (n : Fin 64) (rising : Bool) (st : Stamp) (h : Hub) : Hub :=
  let h := advanceTo st.cyc h
  let x := h.plss[n]
  let kind := pf x.anchorCfg 2 6 2
  let index := pf x.anchorCfg 2 0 6
  if h.runs && x.enabled && x.anchor != Anchor.none && (pf x.anchorCfg 1 2 2 == 0) == rising then
    match h.edgeLane kind index rising st, h.anchorStamp n rising st with
    | some l, some t => useLane l st (if x.placed then anchorTrack n t h else anchorPlace n t h)
    | _, _ => h
  else h

/-- No anchor edge was accepted for timeout ms in TRACK (R214). -/
def anchorLostTimeout (n : Fin 64) (h : Hub) : Hub :=
  let x := h.plss[n]
  when_ (h.runs && x.anchor == Anchor.track && !x.anchorLost) (atCyc (x.anchorAt + anchorTimeout x.anchorCfg * tickCycles) fun h =>
    sendFault (srcPls n) .timeout accNone mInternal 0
      (raisePls n (bit16 2) (h.onPls n fun x => { x with slope := 0, anchorLost := true }))) h

/-- No anchor edge came within 10 s in ONCE: the grid is left as it was (R212). -/
def anchorOnceTimeout (n : Fin 64) (h : Hub) : Hub :=
  let x := h.plss[n]
  when_ (h.runs && x.anchor == Anchor.once) (atCyc (x.anchorAt + 10000 * tickCycles) fun h =>
    completeOpt x.anchorDesc .timeout (h.onPls n fun x => { x with anchor := .none, anchorDesc := none })) h

/-! ## The 1 ms tick of tracking (R213) -/

/-- One update of 1 ms: the Sluice arithmetic of R163 on the output's own rho and S, and the grid, with its next instant,
moved by S × t. SAFE holds S at zero. -/
def plsTick (safe : Bool) (d : Dom) (x : Pls) : Pls :=
  if x.anchor != Anchor.track || !x.placed || x.anchorLost then x
  else if safe || x.rho = 0 then { x with slope := 0 }
  else
    let s := sluiceNext { d with rho := x.rho, slope := x.slope } 1
    let y := { x with slope := s.1, rho := if s.2 then 0 else x.rho + s.1, shift := x.shift + s.1 }
    { y with next := y.gridNear x.next }

/-- Every tracking pulse output at a 1 ms tick. -/
def plsTicks (h : Hub) : Hub :=
  { h with plss := h.plss.map fun (x : Pls) => plsTick h.isSafe h.doms[plsDomain x.run] x }

/-! ## Modes (R216) -/

/-- Entry to SAFE: what is pending completes with ABORTED and is not made. -/
def outputsSafe (h : Hub) : Hub :=
  let h := forEach (allFin 96) dropPending h
  forEach (allFin 64) (fun (n : Fin 64) (h : Hub) =>
    let x := h.plss[n]
    let h := forEach x.pend (fun (q : Nat × Payload × Int) => complete q.1 .aborted) (h.onPls n fun x => { x with pend := [] })
    if x.anchorDesc.isSome then (dropAnchor n h).onPls n fun x => { x with anchor := .none } else h) h

/-- OFF, STANDBY and THERMAL_OFF: every output high impedance, pending changes lost. -/
def outputsOff (h : Hub) : Hub :=
  { h with
    outs := h.outs.map fun (x : ClkOut) => { x with pin := .hiZ, enabled := false, pend := none, stretch := none }
    plss := h.plss.map fun (x : Pls) =>
      { x with pin := .hiZ, enabled := false, active := false, pend := [], anchor := .none, anchorDesc := none } }

/-! ## Meanings -/

def execOutputConfig (o : Origin) (s : State) := run (outputConfig o) s
def execPulseConfig (o : Origin) (s : State) := run (pulseConfig o) s
def execPulseAnchorOnce (o : Origin) (s : State) := run (pulseAnchorOnce o) s
def execPulseAnchorTrack (o : Origin) (s : State) := run (pulseAnchorTrack o) s
def execPulseAnchorStop (o : Origin) (s : State) := run (pulseAnchorStop o) s
def execOutputBoundary (n : Fin 96) (s : State) := run (outputBoundary n) s
def execPulseGridInstant (n : Fin 64) (s : State) := run (pulseGridInstant n) s
def execPulseEnd (n : Fin 64) (s : State) := run (pulseEnd n) s
def execPulseAnchorEdge (n : Fin 64) (rising : Bool) (st : Stamp) (s : State) := run (pulseAnchorEdge n rising st) s
def execAnchorLostTimeout (n : Fin 64) (s : State) := run (anchorLostTimeout n) s
def execAnchorOnceTimeout (n : Fin 64) (s : State) := run (anchorOnceTimeout n) s

end Sys2Proof.Machine
end

