-- ==== Sys2Proof/Machine/Monitors.lean ====
section
/-!
DEFINITION. The monitor units (chapter 14): the quantities of R435, accumulation (R436), windows and results (R437 to
R439), limits (R440), MON_CONFIG and MON_SNAPSHOT.
-/

namespace Sys2Proof.Machine

/-! ## Settings (R441) -/

def Mon.telEn (x : Mon) : Bool := pb x.cfg 1 6
def Mon.telRing (x : Mon) : Fin 4 := ⟨pf x.cfg 1 4 2, by simp only [pf, fld, natBits]; omega⟩
def Mon.limEn (x : Mon) : Bool := pb x.cfg 1 3
def Mon.quantity (x : Mon) : Nat := pf x.cfg 2 0 8
def Mon.inst (x : Mon) : Nat := pf x.cfg 4 0 16
def Mon.windowMs (x : Mon) : Nat := pf x.cfg 8 0 32
def Mon.width (x : Mon) : Nat := pf x.cfg 12 0 32
def Mon.origin (x : Mon) : Int := pfs x.cfg 16 0 64
def Mon.limitLo (x : Mon) : Int := pfs x.cfg 24 0 64
def Mon.limitHi (x : Mon) : Int := pfs x.cfg 32 0 64

/-- Instances of each quantity (R435); 0 for a code that names none. -/
def quantityCount : Nat → Nat
  | 1 => 48 | 2 => 48 | 3 => 12 | 4 => 16 | 5 => 16 | 6 => 32 | 7 => 16 | 8 => 16 | 9 => 8 | 10 => 1 | 11 => 1 | 12 => 64
  | _ => 0

/-! ## Samples (R435) -/

/-- The sample value that quantity q of instance i stands at, where it has one. -/
def Hub.monValue (h : Hub) (q i : Nat) : Option Int :=
  match q with
  | 1 => (finOf 48 i).bind fun n => if h.links[n].fs.isEmpty then none else some (rdiv h.links[n].d 256)
  | 2 => (finOf 48 i).bind fun n => if h.links[n].rtPred.isNone then none else some h.links[n].lastRt
  | 3 => (finOf 12 i).bind fun s => h.refs[s].zs.head?.join
  | 4 => (finOf 16 i).map fun m => rdiv h.doms[m].ep (10 ^ 6)
  | 5 => (finOf 16 i).map fun m => h.doms[m].fofs
  | 6 => (finOf 32 i).map fun e => h.comp.evTasks[e].value.toInt
  | 7 => (finOf 16 i).map fun r => ((h.host.hostLat[r] : Nat) : Int)
  | 8 => (finOf 16 i).map fun r => ((h.host.effLat[r] : Nat) : Int)
  | 9 => (finOf 8 i).map fun s => h.pwr.temps[s]
  | 10 => some h.pwr.vin
  | 11 => some h.clk.heater
  | 12 => (finOf 64 i).map fun n => (h.evts[n].queue.length : Int)
  | _ => none

/-- The number of the event that left the value: a millisecond tick, a microsecond for the depth of a queue, an update of a domain, a
τ0 interval of a slot, a round trip, a result or a completion (R435). -/
def Hub.monEvent (h : Hub) (q i : Nat) : Option Nat :=
  match q with
  | 1 => some h.clk.ms
  | 2 => (finOf 48 i).map fun n => h.links[n].rtN
  | 3 => (finOf 12 i).map fun s => h.refs[s].k
  | 4 => (finOf 16 i).bind fun m => h.doms[m].lastUpdate
  | 5 => (finOf 16 i).bind fun m => h.doms[m].lastUpdate
  | 6 => (finOf 32 i).map fun e => h.comp.evTasks[e].results
  | 7 => (finOf 16 i).map fun r => h.host.hostN[r]
  | 8 => (finOf 16 i).map fun r => h.host.effN[r]
  | 9 => some h.clk.ms
  | 10 => some h.clk.ms
  | 11 => some h.clk.ms
  | 12 => some (h.clk.cycles / 1500)
  | _ => none

/-- The flags not_warm, cal_stale and untrusted of such a sample (R435): a time or a frequency carries the hub's and its
domain's, a temperature, a supply, a power or a count none but that of SAFE. -/
def Hub.monFlags (h : Hub) (q i : Nat) : Nat :=
  let timed := decide (q ≤ 8)
  let dom := (q == 4 || q == 5) && (match finOf 16 i with
    | some m => h.doms[m].untrusted
    | none => false)
  atB 0 (timed && h.notWarm) + atB 1 (timed && h.calStale) + atB 2 (h.isSafe || dom)

/-! ## Accumulation (R436) -/

/-- Bits of the results flags (R438). -/
def flagPartial : BitVec 16 := 0x08
def flagCountSat : BitVec 16 := 0x20
def flagSumSat : BitVec 16 := 0x40
def flagSkipped : BitVec 16 := 0x80

/-- 2^32 − 1. -/
def max32 : Nat := 0xFFFFFFFF

/-- One more sample. -/
def accAdd (a : Acc) (v : Int) (flags width : Nat) (origin : Int) : Acc :=
  let full := decide (max32 ≤ a.count)
  let sum := if full then a.sum else satSigned 64 (a.sum + v)
  let i := (v - origin).fdiv (max 1 width : Nat)
  { a with
    min := if a.count = 0 then v else min a.min v
    max := if a.count = 0 then v else max a.max v
    count := satAdd max32 a.count 1
    sum
    underCnt := if i < 0 then satAdd max32 a.underCnt 1 else a.underCnt
    overCnt := if 63 < i then satAdd max32 a.overCnt 1 else a.overCnt
    bins := match finOf 64 i.toNat with
      | some k => if 0 ≤ i then upd a.bins k (satAdd max32 · 1) else a.bins
      | none => a.bins
    flags := a.flags ||| BitVec.ofNat 16 flags ||| (if full || decide (max32 ≤ a.count + 1) then flagCountSat else 0)
      ||| (if !full && sum != a.sum + v then flagSumSat else 0) }

/-- Empty accumulators of a window that begins now. -/
def Hub.freshAcc (h : Hub) (window flags : BitVec 16) : Acc :=
  { start := h.houseShort, epoch := h.houseEpoch, window, flags }

/-- MON_SAMPLE: the event of its quantity has occurred, and the unit takes the value it left, once for each event. -/
def monSample (u : Fin 32) (h : Hub) : Hub :=
  let x := h.mons.unit[u]
  let n := h.monEvent x.quantity x.inst
  match h.monValue x.quantity x.inst with
  | none => h
  | some v =>
    when_ (h.runs && x.enabled && n.isSome && n != x.seen) (fun h =>
      let fl := h.monFlags x.quantity x.inst
      let h := h.onMon u fun y => { y with acc := accAdd y.acc v fl y.width y.origin, seen := n }
      if x.limEn && (decide (v < x.limitLo) || decide (x.limitHi < v)) then raiseMon u h else h) h

/-! ## Windows (R437 to R439) -/

/-- The MONITOR task that serves a unit. -/
def monTask (u : Fin 32) : Nat := 108 + u / 2

/-- The telemetry body of the result bank (R439). -/
def monBody (u : Fin 32) (x : Mon) : Bytes :=
  let b := x.bank
  [BitVec.ofNat 8 u, BitVec.ofNat 8 x.quantity] ++ leBytes 2 b.flags.toNat ++ leBytes 4 b.count ++ leBytes 8 (ofSigned 64 b.min)
    ++ leBytes 8 (ofSigned 64 b.max) ++ leBytes 8 (ofSigned 64 b.sum) ++ leBytes 8 b.start.toNat ++ leBytes 2 b.epoch.toNat
    ++ leBytes 2 b.window.toNat ++ leBytes 4 (satAdd max32 b.underCnt b.overCnt)

/-- The MONITOR task writes the entry of a closed window, when it runs. -/
def monEntry (u : Fin 32) (h : Hub) : Hub :=
  let x := h.mons.unit[u]
  if x.unwritten && h.taskRuns (monTask u) then
    telOffer x.telRing 2 (monBody u x) (h.onMon u fun y => { y with unwritten := false })
  else h

/-- Close the window: the accumulators go to the bank, and a result not yet written is replaced. -/
def closeWindow (u : Fin 32) (h : Hub) : Hub :=
  let x := h.mons.unit[u]
  let fresh := h.freshAcc (x.acc.window + 1) 0
  let lost := x.unwritten && x.telEn
  monEntry u (h.onMon u fun y =>
    { y with
      bank := { y.acc with flags := y.acc.flags ||| (if lost then flagSkipped else 0) }
      acc := fresh, unwritten := y.telEn, skipped := if lost then satAdd 255 y.skipped 1 else y.skipped })

/-- The boundary at which the window in progress closes, fu: the first whole multiple of L ms after its beginning, or after
now where DOM[0] was stepped back beyond it. -/
def Hub.windowEnd (h : Hub) (x : Mon) : Int :=
  let from_ := min ((x.acc.epoch.toNat : Int) * 2 ^ 64 + x.acc.start.toNat) h.houseFu
  (from_ / (x.windowMs * msFu) + 1) * (x.windowMs * msFu)

/-- MON_WINDOW_CLOSE: DOM[0] reaches the boundary. -/
def monWindowClose (u : Fin 32) (h : Hub) : Hub :=
  let x := h.mons.unit[u]
  if h.runs && x.enabled && x.windowMs != 0 then
    match reachDom 0 (h.windowEnd x * fuU) h with
    | none => h
    | some h => closeWindow u h
  else h

/-! ## MON_CONFIG (R441, R442) -/

/-- Values that R441 and R442 refuse; a code that names no quantity has no instances to check. -/
def monConfigBad (h : Hub) (p : Payload) : Bool :=
  let on_ := pb p 1 7
  let q := pf p 2 0 8
  (quantityCount q == 0 && on_) || (quantityCount q != 0 && decide (quantityCount q ≤ pf p 4 0 16)) || decide (86400000 < pf p 8 0 32) || pf p 12 0 32 == 0
  || (pb p 1 3 && decide (pfs p 32 0 64 < pfs p 24 0 64))
  || (pb p 1 6 && (pick h.host.tel (pf p 1 4 2) {}).state != .enabled)

/-- The unit's settings, with empty accumulators and a partial window. -/
def monSet (u : Fin 32) (p : Payload) (h : Hub) : Hub :=
  let fresh := h.freshAcc h.mons.unit[u].acc.window flagPartial
  let seen := h.monEvent (pf p 2 0 8) (pf p 4 0 16)
  (copyWritten (0x1B000 + 0x40 * u) 40 h).onMon u fun x =>
    { x with cfg := pbytes p 40, enabled := pb p 1 7, acc := fresh, bank := {}, unwritten := false, seen }

/-- The other unit of the same MONITOR task. -/
def monPartner (u : Fin 32) : Fin 32 := ⟨if u.val % 2 = 0 then u + 1 else u - 1, by split <;> omega⟩

def monConfigEff (d : Desc) (h : Hub) : Hub :=
  withFin 32 (pf d.payload 0 0 8) d.id (fun (u : Fin 32) (h : Hub) =>
    if monConfigBad h d.payload then complete d.id .badParam h
    else
      let on_ := pb d.payload 1 7
      let new := on_ && (pick h.comp.tasks (monTask u) {}).state == .unplaced
      let h := if new then createTask (monTask u) h else h
      if new && h.taskShed (monTask u) then complete d.id .noResource h
      else
        let h := monSet u d.payload h
        complete d.id .ok (if !on_ && !h.mons.unit[monPartner u].enabled then removeTask (monTask u) h else h)) h

/-- MON_CONFIG. -/
def monConfig (o : Origin) (h : Hub) : Hub := serve o (isOp 0x80) monConfigEff h

/-! ## MON_SNAPSHOT (R443) -/

/-- The 320-byte record. -/
def monRecord (a : Acc) : Bytes :=
  leBytes 8 (ofSigned 64 a.min) ++ leBytes 8 (ofSigned 64 a.max) ++ leBytes 8 (ofSigned 64 a.sum) ++ leBytes 4 a.count
    ++ leBytes 4 a.underCnt ++ leBytes 4 a.overCnt ++ leBytes 2 a.flags.toNat ++ leBytes 2 a.window.toNat ++ leBytes 8 a.start.toNat
    ++ leBytes 2 a.epoch.toNat ++ List.replicate 14 0 ++ a.bins.toList.flatMap (leBytes 4)

def monSnapshotEff (d : Desc) (h : Hub) : Hub :=
  let p := d.payload
  let host : BitVec 64 := p.extractLsb' 64 64
  withFin 32 (pf p 0 0 8) d.id (fun (u : Fin 32) (h : Hub) =>
    let x := h.mons.unit[u]
    let restart := pb p 1 1
    if !x.enabled || host.toNat % 64 != 0 || (restart && h.isSafe) then complete d.id .badParam h
    else
      let a := if pb p 1 0 then x.bank else x.acc
      let h := if host = 0 then h else busWrite host (monRecord a) h
      let fresh := h.freshAcc x.acc.window flagPartial
      let h := if restart then h.onMon u fun y => { y with acc := fresh } else h
      completeWith d.id .ok (resultOf [(0, 64, ofSigned 64 a.min), (64, 64, ofSigned 64 a.max), (128, 32, a.count),
        (160, 16, a.flags.toNat), (176, 16, a.window.toNat)]) h) h

/-- MON_SNAPSHOT. -/
def monSnapshot (o : Origin) (h : Hub) : Hub := serve o (isOp 0x81) monSnapshotEff h

/-! ## Meanings -/

def execMonConfig (o : Origin) (s : State) := run (monConfig o) s
def execMonSnapshot (o : Origin) (s : State) := run (monSnapshot o) s
def execMonSample (u : Fin 32) (s : State) := run (monSample u) s
def execMonWindowClose (u : Fin 32) (s : State) := run (monWindowClose u) s

end Sys2Proof.Machine
end

