-- ==== Sys2Proof/Machine/Coding.lean ====
section
/-!
DEFINITION. The line coding of a Ternen port (R228 to R230): 66-bit blocks with their sync headers, the self-synchronous
scrambler x^58 + x^39 + 1, the order of the bits, and frames of blocks.
-/

namespace Sys2Proof.Machine

/-! ## The scrambler -/

/-- A bit through the scrambler, or a scrambled bit out of it: the sum with the bits sent 39 and 58 before. Bit i of the state is the
bit sent i + 1 before. -/
def scrBit (st : BitVec 58) (b : Bool) : Bool := b ^^ (st.getLsbD 38 ^^ st.getLsbD 57)

/-- The state once the scrambled bit s has been sent. -/
def scrPush (st : BitVec 58) (s : Bool) : BitVec 58 := (st <<< 1) ||| BitVec.ofNat 58 (b2n s)

def scramble (st : BitVec 58) : List Bool → List Bool
  | [] => []
  | b :: l => scrBit st b :: scramble (scrPush st (scrBit st b)) l

def descramble (st : BitVec 58) : List Bool → List Bool
  | [] => []
  | s :: l => scrBit st s :: descramble (scrPush st s) l

/-! ## Bits, bytes and blocks -/

/-- The bits of bytes as they are sent: byte 0 first, least significant bit first. -/
def bitsOf (b : Bytes) : List Bool := b.flatMap fun x => (List.range 8).map x.getLsbD

/-- The number whose binary digits these are, the least significant first. -/
def natOfBits (l : List Bool) : Nat := l.foldr (fun b n => 2 * n + b2n b) 0

/-- k bytes of the bits received. -/
def bytesOfBits : Nat → List Bool → Bytes
  | 0, _ => []
  | k + 1, l => BitVec.ofNat 8 (natOfBits (l.take 8)) :: bytesOfBits k (l.drop 8)

/-- The sync headers: control block, data block. -/
def syncControl : BitVec 2 := 0b10
def syncData : BitVec 2 := 0b01

/-- k blocks of scrambled bits: the header of a frame is a control block, the others are data blocks (R229). -/
def blocksOf : Nat → BitVec 2 → List Bool → List Block
  | 0, _, _ => []
  | k + 1, sync, l => { sync, payload := BitVec.ofNat 64 (natOfBits (l.take 64)) } :: blocksOf k syncData (l.drop 64)

/-- The bits of a block's payload as they are sent. -/
def blockBits (b : Block) : List Bool := (List.range 64).map b.payload.getLsbD

/-! ## Frames -/

/-- The type codes of R229, with the length in bytes of each type's frames: TMARK, TECHO, TOD, MGMT, STAT, IDLE. A MGMT frame has 24
bytes beside its payload, which is padded to whole blocks (R247). -/
def frameLength (b : Bytes) : Option Nat :=
  match (byteAt b 0).toNat with
  | 0x51 => some 16
  | 0x52 => some 16
  | 0x53 => some 32
  | 0x54 => some (24 + (leAt b 2 2 % 512 + 7) / 8 * 8)
  | 0x55 => some 32
  | 0x5F => some 8
  | _ => none

/-- A frame on the line, after the 58 bits `before`. -/
def lineOf (before : BitVec 58) (b : Bytes) : Line :=
  { before, blocks := blocksOf (b.length / 8) syncControl (scramble before (bitsOf b)) }

/-- The bytes of a frame received; none where it contains an invalid block: a sync header that is neither a data nor a control
block's, or is not that of its place, or a type code that R229 does not give (R228). -/
def lineBytes (x : Line) : Option Bytes :=
  match x.blocks with
  | [] => none
  | c :: l =>
    if c.sync = syncControl ∧ l.all fun d => d.sync = syncData then
      let b := bytesOfBits (8 * x.blocks.length) (descramble x.before (x.blocks.flatMap blockBits))
      if (frameLength b).isSome then some b else none
    else none

/-- A frame with its CRC. -/
def withCrc (b : Bytes) : Bytes := b ++ leBytes 4 (crc32c b)

/-- The last four bytes of a frame are the CRC of the rest, and it has the length of its type. -/
def crcOk (b : Bytes) : Bool :=
  frameLength b == some b.length && leAt b (b.length - 4) 4 == crc32c (b.take (b.length - 4))

/-- The IDLE frame (R235): with nothing else due, the port fills every block slot with it (R229, R232). -/
def idleFrame : Bytes := withCrc [0x5F, 0, 0, 0]

end Sys2Proof.Machine
end

