-- ==== Sys2Proof/Machine/Mgmt.lean ====
section
/-!
DEFINITION. Management messages on their way (R247, R248, R262 to R264): cutting a message into segments, the broadcasts
and unicasts that a hub sends, relays and delivers, and the trust and holdover that a hub sends on its ports
(R244, R245, R265).
-/

namespace Sys2Proof.Machine

/-! ## Ports of the management channel (R249, R260) -/

def Link.mgmtEn (l : Link) : Bool := pb l.cfg 1 3

/-- Management frames may pass on the port. -/
def Link.mgmtOpen (l : Link) : Bool := l.state.synced && l.mgmtEn

/-- The ports of the group. -/
def Hub.mgmtPorts (h : Hub) : List (Fin 48) := (allFin 48).filter fun n => h.links[n].mgmtOpen

/-- Cut a message into segments of 256 bytes, at most k of them. -/
def segments : Nat → Bytes → List Bytes
  | 0, _ => []
  | k + 1, m => if m.isEmpty then [] else m.take 256 :: segments k (m.drop 256)

/-- Queue a message on a port (R248): at most 64 segments, 16 KiB. -/
def sendOn (n : Fin 48) (dst src : BitVec 12) (data : Bytes) (h : Hub) : Hub :=
  if h.links[n].mgmtOpen then
    h.onLink n fun l =>
      { l with tx := l.tx ++ [{ dst, src, id := l.txId, segs := segments 64 data, sent := 0, high := 0, acked := 0 }], txId := l.txId + 1 }
  else h

/-! ## Headers (R262) -/

/-- A message with its header. -/
def mgmtMessage (kind ttl : Nat) (seq : BitVec 16) (origin : BitVec 64) (body : Bytes) : Bytes :=
  [BitVec.ofNat 8 kind, BitVec.ofNat 8 (at_ 0 4 ttl)] ++ leBytes 2 seq.toNat ++ leBytes 2 body.length ++ [0, 0]
    ++ leBytes 8 origin.toNat ++ body

def msgKind (m : Bytes) : Nat := (byteAt m 0).toNat
def msgTtl (m : Bytes) : Nat := fld (byteAt m 1) 0 4
def msgSeq (m : Bytes) : BitVec 16 := BitVec.ofNat 16 (leAt m 2 2)
def msgOrigin (m : Bytes) : BitVec 64 := BitVec.ofNat 64 (leAt m 8 8)
def msgBody (m : Bytes) : Bytes := slice m 16 (leAt m 4 2)

/-- The message with ttl one lower, as it is relayed. -/
def relayed (m : Bytes) : Bytes := m.set 1 (BitVec.ofNat 8 (at_ 0 4 (msgTtl m - 1)))

/-- A message counted as discarded in HIER_CNT_DROP. -/
def dropMsg (h : Hub) : Hub := h.onHier fun x => { x with drop := satInc32 x.drop }

/-- The port last recorded for an address. -/
def Hier.portOf (x : Hier) (a : BitVec 12) : Option (Fin 48) := (x.learned.find? fun p => p.1 == a).map (·.2)

/-- Keep an origin and seq as seen now; what was seen more than 10 s ago is forgotten. -/
def markSeen (origin : BitVec 64) (seq : BitVec 16) (h : Hub) : Hub :=
  h.onHier fun x => { x with seen := (origin, seq, h.clk.ms) :: x.seen.filter fun e => decide (h.clk.ms < e.2.2 + 10000) }

/-- The origin and seq have been seen in the last 10 s. -/
def Hub.hasSeen (h : Hub) (origin : BitVec 64) (seq : BitVec 16) : Bool :=
  h.hier.seen.any fun e => e.1 == origin && e.2.1 == seq && decide (h.clk.ms < e.2.2 + 10000)

/-- The broadcast address. -/
def bcast : BitVec 12 := 0xFFF

/-- Send a message of this hub's own: a broadcast on every management port, a unicast on the port recorded for its
destination, or nowhere when none is. -/
def originate (kind : Nat) (dst : BitVec 12) (body : Bytes) (h : Hub) : Hub :=
  let m := mgmtMessage kind 15 h.hier.seq Config.serial body
  let src := h.hier.addr
  let h := markSeen Config.serial h.hier.seq (h.onHier fun x => { x with seq := x.seq + 1 })
  if dst = bcast then forEach h.mgmtPorts (fun n => sendOn n dst src m) h
  else match h.hier.portOf dst with
    | some n => sendOn n dst src m h
    | none => dropMsg h

/-- A whole message has arrived on a port (R262, R264): its sender's port is learned, and it is delivered, relayed or
discarded. -/
def takeMessage (n : Fin 48) (dst src : BitVec 12) (m : Bytes) (h : Hub) : Hub :=
  let h := if src = 0 then h else h.onHier fun x => { x with learned := (src, n) :: x.learned.filter fun p => p.1 != src }
  if m.length < 16 ∨ m.length < 16 + leAt m 4 2 ∨ !inRange (msgKind m) 1 6 then dropMsg h
  else
    let deliver (h : Hub) : Hub := h.onHier fun x => { x with inbox := x.inbox ++ [{ port := n, src, dst, data := m }] }
    if dst = bcast then
      if h.hasSeen (msgOrigin m) (msgSeq m) then h
      else
        let h := deliver (markSeen (msgOrigin m) (msgSeq m) h)
        if msgTtl m = 0 then h
        else forEach (h.mgmtPorts.filter fun p => p != n) (fun p => sendOn p dst src (relayed m)) h
    else if dst ≠ 0 ∧ dst = h.hier.addr then deliver h
    else match h.hier.portOf dst with
      | some p => if msgTtl m = 0 then dropMsg h else sendOn p dst src (relayed m) h
      | none => dropMsg h

/-! ## Trust, holdover and class (R244, R245, R265) -/

/-- DOM[0]. -/
def Hub.dom0 (h : Hub) : Dom := h.doms[(0 : Fin 16)]

/-- The port of the slot that DOM[0] takes its hops from, when that is a LINK slot. -/
def Hub.leadPort (h : Hub) : Option (Fin 48) :=
  match Hub.leader h.dom0 with
  | some s => if h.refs[s].format = 5 then h.refs[s].port else none
  | none => none

/-- DOM[0] follows this port. -/
def Hub.follows (h : Hub) (n : Fin 48) : Bool :=
  h.dom0.followed.any fun s => h.refs[s].format == 5 && h.refs[s].port == some n

/-- LINK[n] sends untrusted: SAFE, DOM[0] untrusted, or the port marked by a DEGRADE fault (R244, R411). -/
def Hub.sendsUntrusted (h : Hub) (n : Fin 48) : Bool :=
  h.isSafe || h.dom0.untrusted || h.flt.degLnk[(⟨n / 16, by omega⟩ : Fin 3)].bits.getLsbD (n % 16)

/-- DOM[0] is in HOLDOVER or HOLDOVER_OUT. -/
def Hub.dom0Holds (h : Hub) : Bool := h.dom0.state == .holdover || h.dom0.state == .holdoverOut

/-- The holdover flag of the hub's frames (R245). -/
def Hub.sendsHoldover (h : Hub) : Bool :=
  h.dom0Holds || match h.leadPort with
    | some n => !h.links[n].eth && h.links[n].peerHoldover
    | none => false

/-- te_bound in ns (R245): the domain's own TE(t), or the bound inherited from the peer, saturating. -/
def Hub.teSent (h : Hub) : Nat :=
  min 0xFFFFFFFF (if h.dom0Holds then (h.dom0.te + 32768000000) / 65536000000
    else match h.leadPort with
      | some n => if h.links[n].peerHoldover then h.links[n].peerTe else 0
      | none => 0)

/-- The hub's class in an election (R265): the first row that applies. -/
def Hub.hierClass (h : Hub) : Nat :=
  let d := h.dom0
  let tod := d.followed.any fun s => h.refs[s].todValid
  if h.isSafe || d.untrusted then 7
  else if d.state == .holdover || h.sendsHoldover then 3
  else match d.state with
    | .track => if d.hops ≠ 0 then 2 else if tod then 0 else 1
    | .holdover | .holdoverOut | .acquire => 4
    | .nominal | .manual => 5

/-- STAT role field (R260). -/
def Role.stat : Role → Nat
  | .unassigned => 0 | .manager => 1 | .standby => 2 | .worker => 2 | .passive => 3

end Sys2Proof.Machine
end

