-- ==== Sys2Proof/Machine/Qualify.lean ====
section
/-!
DEFINITION. How a reference slot is graded (R125 to R134, R137): the states and their entries, labels and leap seconds,
the metrics of a sample, the Allan rungs, and the passing of a sample to the domains.
-/

namespace Sys2Proof.Machine

/-! ## Settings (R142) -/

def SlotState.code : SlotState → Nat
  | .absent => 0 | .qualifying => 1 | .qualified => 2 | .disqualified => 3

def RefSlot.ts (r : RefSlot) : Nat := pf r.cfg 1 2 2
def RefSlot.todAssoc (r : RefSlot) : Bool := pb r.cfg 1 1
def RefSlot.slopeFalling (r : RefSlot) : Bool := pf r.cfg 2 2 2 == 1
def RefSlot.todPort (r : RefSlot) : Nat := pf r.cfg 6 6 2
def RefSlot.irigCode (r : RefSlot) : Nat := pf r.cfg 6 0 3
def RefSlot.leap (r : RefSlot) : Nat := pf r.cfg 8 4 2
def RefSlot.qualTime (r : RefSlot) : Nat := pf r.set_ 10 0 16
def RefSlot.requalWait (r : RefSlot) : Nat := pf r.set_ 12 0 16
def RefSlot.year (r : RefSlot) : Nat := pf r.cfg 14 0 16
def RefSlot.freqLimit (r : RefSlot) : Nat := pf r.set_ 28 0 32
def RefSlot.jumpLimit (r : RefSlot) : Nat := pf r.set_ 32 0 32
def RefSlot.leapUtc (r : RefSlot) : Int := pf r.cfg 42 0 48

/-- A labelled format: PPS_TOD or IRIGB. -/
def RefSlot.labelled (r : RefSlot) : Bool := r.format == 3 || r.format == 4

/-- One reference period times the nominal word: a second in fu times 2^16 (R125: T = 1/f). -/
def periodNum : Int := secFu * 65536

/-- The nominal word as a divisor. -/
def RefSlot.nomDiv (r : RefSlot) : Int := max 1 r.nominal

/-- Prescaler exponent p: the smallest for which f/2^p is at most 10 MHz (R116). -/
def RefSlot.prescale (r : RefSlot) : Nat :=
  if r.format = 0 then ((List.range 8).find? fun p => decide (r.nominal ≤ 10000000 * 65536 * 2 ^ p)).getD 7 else 0

/-- Period of the pulses in fu: 1 s, or 100 ms for PPS10. -/
def RefSlot.pulsePeriod (r : RefSlot) : Int := if r.format = 2 then secFu / 10 else secFu

/-- 1 µs, 2 µs and 10 s in fu. -/
def usFu : Int := 65536 * 1000

/-- A slot with synce_rx is held ABSENT while the received QL is QL-DNU, or while no ESMC PDU has arrived for 5 s (R283). -/
def PtpPort.synceHeld (p : PtpPort) : Bool := p.synceRx && (!p.esmcSeen || p.rxQl == 0xF)

/-- The link of a LINK slot is TIMED, or its Ethernet port is in SLAVE and its line frequency may be used (R120, R280, R283). -/
def Hub.portTimed (h : Hub) (r : RefSlot) : Bool :=
  match r.port with
  | some n => if h.links[n].eth then h.hier.ptp[n].state == PtpState.slave && !h.hier.ptp[n].synceHeld else h.links[n].state == LinkState.timed
  | none => false

/-- The STAT frames show the upstream of a LINK slot at hop 7 or deeper (R120). -/
def Hub.tooDeep (h : Hub) (r : RefSlot) : Bool :=
  match r.port with
  | some n => !h.links[n].eth && h.links[n].statSeen && decide (7 ≤ h.links[n].peerHop.toNat)
  | none => false

/-- The upstream of a LINK slot is untrusted (R133 cause 12, R244). -/
def Hub.upstreamBad (h : Hub) (r : RefSlot) : Bool :=
  r.format == 5 && match r.port with
    | some n => !h.links[n].eth && h.links[n].peerUntrusted
    | none => false

/-- TOD valid for a LINK slot: two consistent TOD frames (R130); the time of an Ethernet port needs no frame. -/
def Hub.linkTod (h : Hub) (r : RefSlot) : Bool :=
  match r.port with
  | some n => h.links[n].eth || decide (2 ≤ h.links[n].todGood)
  | none => false

/-! ## The REFQ task -/

/-- The REFQ task of slot s runs. -/
def Hub.refqRuns (h : Hub) (s : Fin 12) : Bool := h.comp.tasks[48 + s.val].state.works

/-- Master code of the reed that runs the REFQ task (R134). -/
def Hub.refqMaster (h : Hub) (s : Fin 12) : Nat :=
  match h.comp.tasks[48 + s.val].reed with
  | some n => mReed n
  | none => mInternal

/-! ## States (R133, R134) -/

/-- Enter a state: its REF_EVT bit is set, with `more` bits, and the slot's interrupt follows. -/
def enterSlot (s : Fin 12) (st : SlotState) (more : BitVec 16) (h : Hub) : Hub :=
  raiseRef s (bit16 st.code ||| more) (h.onRef s fun r => { r with state := st })

/-- The rotators of the slot's users stop acting on STEER packets (R132). -/
def freezeUsers (s : Fin 12) (h : Hub) : Hub :=
  { h with doms := h.doms.mapFinIdx fun m d _ => if h.refs[s].users.getLsbD m then { d with lossFreeze := true } else d }

/-- A stamp in fu, less a change c of the delay. -/
def shiftEdge (c : Int) (p : Int × Int) : Int × Int := (p.1 - c, p.2)

/-- A change c of REF_DELAY in all that the slot keeps: the history, the edges and the sample that waits for the domains. The
samples of a LINK slot move and their instants stay (R123, R124). -/
def RefSlot.shiftDelay (c : Int) (r : RefSlot) : RefSlot :=
  let ci := if r.format = 5 then 0 else c
  { r with
    hist := r.hist.map fun x => x.map fun p => (p.1 - c, p.2), zs := r.zs.map fun z => z.map (· - c)
    lastU := r.lastU.map (· - c), lastPulse := r.lastPulse.map (· - c), lastOn := r.lastOn.map (· - c)
    pulses := r.pulses.map (shiftEdge c), closed := r.closed.map fun i => (i.1.map (shiftEdge c), i.2)
    fresh := r.fresh.map fun p => (p.1 - c, p.2 - ci), sumX := r.sumX - c * r.sumN, sumT := r.sumT - ci * r.sumN }

/-- The phase of slot s changes by v fu: the domains that follow it take the change through the Sluice, as much of it as the slot's
weight puts into their error (R124, R162). Where the first error after another change is still to come, that one takes it. -/
def slewUsers (s : Fin 12) (v : Int) (h : Hub) : Hub :=
  { h with doms := h.doms.map fun d =>
      match d.following.find? fun p => p.1 == s with
      | some p => if d.settle == .none then { d with rho := d.rho + rdiv (v * 10 ^ 6 * p.2) 65536 } else d
      | none => d }

/-- A change of REF_DELAY comes into force: what is kept is shifted, and the domains that follow the slot take the change as a
phase change (R124). -/
def applyDelay (s : Fin 12) (h : Hub) : Hub :=
  let r := h.refs[s]
  let v := pfs r.cfg 22 0 48
  let c := v - r.delay
  let ids := r.delayDesc
  let h := h.onRef s fun r => { r.shiftDelay c with delay := v, delayDesc := [] }
  let h := if c = 0 then h else slewUsers s (-c) h
  refDone s ids h

/-- Limits, qual_time, requal_wait and irq_en come into force (R144). -/
def applyLimits (s : Fin 12) (h : Hub) : Hub :=
  let ids := h.refs[s].setDesc
  refDone s ids (h.onRef s fun r => { r with set_ := r.cfg, setDesc := [] })

/-- Go to ABSENT: history cleared, users frozen, and what waited for a sample in force. -/
def toAbsent (s : Fin 12) (more : BitVec 16) (h : Hub) : Hub :=
  applyLimits s (applyDelay s (enterSlot s .absent more ((freezeUsers s h).onRef s RefSlot.clear)))

/-- Loss per R131, seen by hardware: from QUALIFIED, REF_LOST with the cause and master Internal. -/
def slotLost (s : Fin 12) (cause : Nat) (h : Hub) : Hub :=
  match h.refs[s].state with
  | .absent => h
  | .qualifying | .disqualified => (toAbsent s 0 h).onRef s fun r => { r with cause := BitVec.ofNat 4 cause }
  | .qualified =>
    sendFault (srcRef s) .refLost accNone mInternal cause
      ((toAbsent s (bit16 4) h).onRef s fun r => { r with cause := BitVec.ofNat 4 cause })

/-- A metric is violated, or the upstream is untrusted: DISQUALIFIED. In DISQUALIFIED a metric violated again reloads the timer, and
an untrusted upstream does not (R133); no state is entered there, so that neither REF_EVT nor the cause changes (log 35). -/
def disqualify (s : Fin 12) (cause : Nat) (h : Hub) : Hub :=
  let load (r : RefSlot) : RefSlot := { r with timer := r.requalWait, timerMs := 0 }
  let enter (more : BitVec 16) (h : Hub) : Hub :=
    enterSlot s .disqualified more (h.onRef s fun r => { load r with cause := BitVec.ofNat 4 cause })
  match h.refs[s].state with
  | .absent => h
  | .disqualified => if cause = 12 then h else h.onRef s load
  | .qualifying => enter 0 h
  | .qualified => sendFault (srcRef s) .refLost accNone (h.refqMaster s) cause (enter (bit16 4) h)

/-- ABSENT becomes QUALIFYING: metrics and history start anew. -/
def beginQualifying (s : Fin 12) (h : Hub) : Hub :=
  enterSlot s .qualifying 0 (h.onRef s fun r => { r.clear with timer := r.qualTime })

/-- DISQUALIFIED becomes QUALIFYING: the metrics keep their history, the peaks start anew (R128, R148). -/
def requalify (s : Fin 12) (h : Hub) : Hub :=
  enterSlot s .qualifying 0 (h.onRef s fun r =>
    { r with timer := r.qualTime, timerMs := 0, peak1 := 0, peak10 := 0, peak100 := 0, peakJump := 0 })

/-- τ0 intervals in the frequency window W: 16 for the pulse formats, 1,000 otherwise (R127). -/
def RefSlot.window (r : RefSlot) : Nat := if decide (1 ≤ r.format) && decide (r.format ≤ 4) then 16 else 1000

/-- τ0 intervals in W for a slot as it is used: 16 where τ0 is 1 s. -/
def Hub.windowOf (h : Hub) (r : RefSlot) : Nat := if h.slow r then 16 else r.window

/-- QUALIFYING becomes QUALIFIED when its timer has expired, its window is full and TOD is valid where it must be. -/
def tryQualify (s : Fin 12) (h : Hub) : Hub :=
  let r := h.refs[s]
  if r.state == .qualifying && r.timer == 0 && decide (h.windowOf r ≤ r.k) && (r.todValid || decide (r.format < 3)) then
    enterSlot s .qualified 0 h
  else h

/-! ## Labels (R121, R122, R130) -/

/-- The TAI seconds of a label, and the slot after it: a pending leap second is applied at its midnight label, or at the first label
past it, consistent or not (log 79). None for a second 60 that no pending insertion explains. -/
def labelTai (r : RefSlot) (count : Int) (is60 : Bool) : Option Int × RefSlot :=
  if r.ts = 0 then
    if is60 then (if r.leapPending && r.leap = 1 && count == r.leapUtc then some (count + r.tai) else none, r)
    else if r.leapPending && decide (r.leapUtc ≤ count) then
      let tai := if r.leap = 1 then r.tai + 1 else r.tai - 1
      (some (count + tai), { r with tai, leapPending := false })
    else (some (count + r.tai), r)
  else if is60 then (none, r)
  else (some (if r.ts = 2 then count + 19 else count), r)

/-- What a sample of a labelled format makes of its edge's label: the consistent label, if any. Three consecutive
consistent labels make TOD valid, two consecutive inconsistent ones invalid; the first label of all is consistent. -/
def useLabel (s : Fin 12) (u : Int) (label : Option (Int × Bool)) (h : Hub) : Option Int × Hub :=
  let r := h.refs[s]
  match label with
  | none => (none, raiseRef s (bit16 5) (h.onRef s fun r => { r with noLabel := r.noLabel + 1 }))
  | some (count, is60) =>
    let t := labelTai r count is60
    let leapDone := r.leapPending && !t.2.leapPending
    let good := match t.1, r.lastLabel with
      | none, _ => none
      | some v, none => some v
      | some v, some p => if v = p + 1 then some v else none
    let h := h.onRef s fun _ =>
      let r := { t.2 with noLabel := 0, lastLabel := some (t.1.getD (count + t.2.tai)) }
      match good with
      | some v => { r with
          goodLabels := r.goodLabels + 1, badLabels := 0, todValid := r.todValid || decide (2 ≤ r.goodLabels)
          labelSecs := (v % 2 ^ 48).toNat, labelTime := shortOf u }
      | none => { r with goodLabels := 0, badLabels := r.badLabels + 1, todValid := r.todValid && decide (r.badLabels < 1) }
    let h := if leapDone then raiseRef s (bit16 8) h else h
    (good, if good.isNone then raiseRef s (bit16 5) h else h)

/-! ## Metrics (R126 to R128) -/

/-- y as a slope over one τ0 of tau ms, in fu: y × τ0 × 10^-12. -/
def yStep (y : Int) (tau n : Nat) : Int := rdiv (y * (tau * n : Nat)) (10 ^ 6)

/-- The last sample of the history and the intervals since it. -/
def lastSample : List (Option (Int × Bool)) → Option (Int × Nat)
  | [] => none
  | some p :: _ => some (p.1, 1)
  | none :: l => (lastSample l).map fun p => (p.1, p.2 + 1)

/-- The prediction x̂ of the present sample (R126). -/
def Hub.predictX (h : Hub) (r : RefSlot) : Option Int :=
  (lastSample r.hist).map fun p => p.1 + yStep r.y (h.tau0 r) p.2

/-- Least-squares slope of samples, newest first, one τ0 of tau ms apart, in 2^-16 ppt; 0 below two samples. -/
def slopeY (tau : Nat) (l : List (Option (Int × Bool))) : Int :=
  let pts : List (Int × Int) := l.zipIdx.filterMap fun p => p.1.map fun x => (-(p.2 : Int), x.1)
  let n : Int := pts.length
  let st := (pts.map (·.1)).sum
  let sx := (pts.map (·.2)).sum
  let stx := (pts.map fun p => p.1 * p.2).sum
  let stt := (pts.map fun p => p.1 * p.1).sum
  let den := (n * stt - st * st) * tau
  if den = 0 then 0 else rdiv ((n * stx - st * sx) * 10 ^ 6) den

/-- Largest minus smallest of the values present. -/
def spread (l : List (Option Int)) : Nat :=
  match l.filterMap id with
  | [] => 0
  | v :: vs => (vs.foldl max v - vs.foldl min v).toNat

/-- One rung takes a second difference (R137): a running mean up to 32 × m terms, exponential after. -/
def Rung.take (g : Rung) (j : Nat) (d : Int) : Rung :=
  let w := min (g.n + 1) (32 * 2 ^ j)
  { n := satInc32 g.n, mean := ((g.mean : Int) + rdiv (d * d * 2 ^ 32 - g.mean) w).toNat }

/-- Every rung takes the difference that the newest sample of the history gives it; withheld and absent samples give none. -/
def allan (top : Nat) (hist : List (Option (Int × Bool))) (rungs : Vector Rung 25) : Vector Rung 25 :=
  let get (i : Nat) : Option Int := match hist.getD i none with
    | some (x, true) => some x
    | _ => none
  rungs.mapFinIdx fun j g _ =>
    if j ≤ top then
      match get 0, get (2 ^ j), get (2 ^ (j + 1)) with
      | some a, some b, some c => g.take j (a - 2 * b + c)
      | _, _, _ => g
    else g

/-- Of the times kept, those within 10 s of t. -/
def within10s (t : Int) (l : List Int) : List Int := l.filter fun v => decide (t - v ≤ 10 * secFu)

/-- The cause codes of the metrics that a sample violates, in the order of R127, then the untrusted upstream. -/
def Hub.violations (h : Hub) (r : RefSlot) (t : Int) (jump : Option Nat) (m1 m10 m100 : Nat) : List Nat :=
  let cold := if h.clk.warm then 1 else 10
  let above (limit : Nat) (m : Nat) : Bool := h.clk.warm && limit != 0 && decide (limit * 65536 < m)
  let jumped := match jump with
    | none => false
    | some j => r.jumpLimit != 0 &&
        (decide (r.jumpLimit < j) || (r.format == 0 && decide (4 * periodNum < 10 * r.nomDiv * j)))
  [(2, r.freqLimit != 0 && decide (r.freqLimit * 65536 * cold < r.y.natAbs)), (3, jumped),
    (4, above (pf r.set_ 36 0 16) m1), (5, above (pf r.set_ 38 0 16) m10), (6, above (pf r.set_ 40 0 16) m100),
    (7, r.badTrip || decide (3 ≤ (within10s t r.badPulses).length)),
    (8, r.extraTrip || decide (3 ≤ (within10s t r.extraPulses).length)),
    (9, r.labelled && decide (2 ≤ r.badLabels)), (10, r.labelled && r.state == SlotState.qualified && decide (3 ≤ r.noLabel)),
    (12, h.upstreamBad r)].filterMap fun c => if c.2 then some c.1 else none

/-- A τ0 interval without a sample. -/
def noSample (s : Fin 12) (h : Hub) : Hub :=
  h.onRef s fun r => { r with hist := none :: r.hist, zs := none :: r.zs, k := r.k + 1 }

/-- A phase sample x at its instant t (nominal fu): limits that waited for it, history, metrics, state, and on to the domains (R127
to R133, R144). The top rung is 24 for τ0 of 1 ms and 14 for τ0 of 1 s, on an Ethernet port too (log 80). -/
def takeSample (s : Fin 12) (x t : Int) (h : Hub) : Hub :=
  let h := applyLimits s h
  let r := h.refs[s]
  let tau := h.tau0 r
  let xhat := h.predictX r
  let jump := xhat.map fun p => (x - p).natAbs
  let y := slopeY tau ((some (x, true) :: r.hist).take (h.windowOf r))
  let zs := (some (x - yStep y tau r.k) :: r.zs).take (100000 / tau + 1)
  let m1 := spread (zs.take (1000 / tau + 1))
  let m10 := spread (zs.take (10000 / tau + 1))
  let m100 := spread zs
  let h := h.onRef s fun r => { r with y, badPulses := within10s t r.badPulses, extraPulses := within10s t r.extraPulses }
  let bad := h.violations h.refs[s] t jump m1 m10 m100
  let ok := bad.isEmpty
  let top := if tau = 1 then 24 else 14
  let mt (c n : Nat) : Nat := if bad.contains c then satAdd 1023 n 1 else n
  let h := h.onRef s fun r =>
    let hist := (some (x, ok) :: r.hist).take (2 ^ (top + 1) + 1)
    { r with
      hist, zs, k := r.k + 1, badTrip := false, extraTrip := false
      rungs := if ok then allan top hist r.rungs else r.rungs
      peak1 := min 0xFFFFFFFF (max r.peak1 m1), peak10 := min 0xFFFFFFFF (max r.peak10 m10)
      peak100 := min 0xFFFFFFFF (max r.peak100 m100), peakJump := min 0xFFFFFFFF (max r.peakJump (jump.getD 0))
      cntJump := if bad.contains 3 then satInc32 r.cntJump else r.cntJump
      mtie1 := mt 4 r.mtie1, mtie10 := mt 5 r.mtie10, mtie100 := mt 6 r.mtie100 }
  let mtie := bad.any fun c => c == 4 || c == 5 || c == 6
  let evt : BitVec 16 := (if bad.contains 3 then bit16 6 else 0) ||| (if mtie then bit16 7 else 0)
  let h := if evt = 0 then h else raiseRef s evt h
  match bad with
  | c :: _ => disqualify s c h
  | [] =>
    let h := tryQualify s h
    if h.refs[s].state == .qualified then
      h.onRef s fun r => { r with fresh := some (x, t), sumX := r.sumX + x, sumT := r.sumT + t, sumN := r.sumN + 1 }
    else h

/-- Shift the history by a whole number of seconds: the edges are now referred to another label. -/
def shiftHist (v : Int) (r : RefSlot) : RefSlot :=
  { r with hist := r.hist.map fun x => x.map fun p => (p.1 + v, p.2), zs := r.zs.map fun z => z.map (· + v) }

/-- The sample of a labelled edge (u, L): u minus the labelled time once TOD is valid, and until then minus the whole second
nearest the prediction (R125). An edge without a consistent label while TOD is valid is referred to the whole second that
continues the history; when TOD becomes valid or invalid the history moves with the reference (log 17). -/
def labelledSample (s : Fin 12) (u l : Int) (label : Option (Int × Bool)) (h : Hub) : Hub :=
  let was := h.refs[s].todValid
  let p := useLabel s u label h
  let h := p.2
  let r := h.refs[s]
  let xhat := h.predictX r
  let x := if r.todValid then
      match p.1, xhat with
      | some v, _ => u - v * secFu
      | none, some q => u - rdiv (u - q) secFu * secFu
      | none, none => u - l
    else u - l
  let h := if was != r.todValid then
      match xhat with
      | some q => h.onRef s (shiftHist (rdiv (x - q) secFu * secFu))
      | none => h
    else h
  takeSample s x u h

end Sys2Proof.Machine
end

