-- ==== Sys2Proof/Machine/Refs.lean ====
section
/-!
DEFINITION. The commands of the reference slots (chapter 04): REF_CONFIG and REF_PRIORITY, pulses, ZDA sentences,
IRIG-B frames, samples, losses and timers.
-/

namespace Sys2Proof.Machine

/-! ## REF_CONFIG (R142 to R144) -/

/-- The values that R142 and R143 refuse for slot s. -/
def refConfigBad (h : Hub) (s : Fin 12) (p : Payload) : Bool :=
  let fmt := pf p 1 5 3
  let front := decide (s.val < 8) && (frontBad (refFront p) || decide (1 < pf p 2 2 2))
  let portTaken := fmt == 3 && (allFin 12).any fun u =>
    u != s && h.refs[u].enabled && h.refs[u].format == 3 && h.refs[u].todPort == pf p 6 6 2
  decide (5 < fmt) || (decide (s.val < 8) == (fmt == 5)) || pf p 1 2 2 == 3 || front || decide (5 < pf p 6 3 3)
  || pf p 8 4 2 == 3 || decide (47 < pf p 7 0 6) || pf p 10 0 16 == 0 || pf p 12 0 16 == 0
  || (fmt == 0 && !inRange (pf p 16 0 48) (1000 * 65536) (750000000 * 65536))
  || portTaken || (pf p 8 4 2 != 0 && pf p 42 0 48 == 0)

/-- The fields whose change returns the slot to ABSENT: format, nominal, tod_port, link, ts (R133). -/
def refKeys (p : Payload) : Nat × Nat × Nat × Nat × Nat := (pf p 1 5 3, pf p 16 0 48, pf p 6 6 2, pf p 7 0 6, pf p 1 2 2)

/-- The new settings in force, with the leap second they name (R122). -/
def refSettings (p : Payload) (r : RefSlot) : RefSlot :=
  let q := pbytes p 48
  { r with cfg := q, tai := pfs q 9 0 8, leapPending := pf q 1 2 2 == 0 && pf q 8 4 2 != 0, depth := r.depth && pb q 1 4 }

/-- Create or remove the REFQ task with enable (R292). -/
def refTask (s : Fin 12) (was now : Bool) (h : Hub) : Hub :=
  if now && !was then createTask (48 + s) h else if was && !now then removeTask (48 + s) h else h

/-- What a REF_CONFIG changes at the next sample: irq_en, qual_time, requal_wait and the limits (R144). -/
def refLimits (p : Payload) : Nat × Nat × Nat := (pf p 8 0 4, pf p 10 0 32, pf p 28 0 112)

/-- REF_CONFIG: the task made or removed, ABSENT where R133 says so, blanking per R82, a changed REF_DELAY at the next τ0
boundary per R124 and the limits at the next sample per R144; the descriptor completes once all of it is in force. -/
def refConfigEff (d : Desc) (h : Hub) : Hub :=
  let p := d.payload
  withFin 12 (pf p 0 0 8) d.id (fun (s : Fin 12) (h : Hub) =>
    if refConfigBad h s p then complete d.id .badParam h
    else
      let r := h.refs[s]
      let on_ := pb p 1 4
      let absent := !on_ || refKeys p != refKeys r.cfg
      let h := refTask s r.enabled on_ ((copyWritten (0x8000 + 0x100 * s) 48 h).onRef s (refSettings p))
      let more := if r.state == SlotState.qualified then bit16 4 else 0
      let h := if absent && r.state != SlotState.absent then toAbsent s more h else h
      let stays := h.refs[s].state != SlotState.absent
      let h := if stays then h else applyLimits s (applyDelay s h)
      if on_ && !r.enabled && h.taskShed (48 + s) then complete d.id .noResource h
      else
        let blanks := r.enabled && on_ && decide (s.val < 8) && refFront p != refFront r.cfg
        let now := h.clk.cycles
        refDone s [d.id] (h.onRef s fun r =>
          { r with
            blank := r.blank || blanks, blankAt := if blanks then now else r.blankAt, voided := r.voided || blanks
            blankDesc := if blanks then r.blankDesc ++ [d.id] else r.blankDesc
            delayDesc := if pfs p 22 0 48 = r.delay then r.delayDesc else r.delayDesc ++ [d.id]
            setDesc := if refLimits p = refLimits r.set_ then r.setDesc else r.setDesc ++ [d.id] })) h

def refConfig (o : Origin) (h : Hub) : Hub := serve o (isOp 0x20) refConfigEff h

/-! ## REF_PRIORITY (R136, R145, R146) -/

/-- The shadow table waits for the next 1 ms tick; tables of one domain are swapped in order, one a tick. -/
def refPriorityEff (d : Desc) (h : Hub) : Hub :=
  let p := d.payload
  withFin 16 (pf p 0 0 8) d.id (fun (m : Fin 16) (h : Hub) =>
    let fl := pf p 2 0 16
    let ce := pf p 4 0 16
    if 1000 < fl ∨ ce = 0 ∨ 1000 < ce ∨ ce < fl then complete d.id .badParam h
    else h.onDom m fun x => { x with prioQ := x.prioQ ++ [(d.id, pbytes p 24)] }) h

def refPriority (o : Origin) (h : Hub) : Hub := serve o (isOp 0x21) refPriorityEff h

/-! ## Pulses (R117) -/

/-- A reference input of the same number as the slot. -/
def slotOf (s : Fin 8) : Fin 12 := ⟨s.val, by omega⟩

/-- The nominal-time stamp of an edge on REF[s] of the slope in use, less path delay and REF_DELAY (R76, R123). -/
def Hub.refStamp (h : Hub) (s : Fin 8) (st : Stamp) : Int :=
  let r := h.refs[slotOf s]
  lessDelay (h.nomStamp (laneNow (laneOfRef s) r.cw) st) (h.inDelay (64 + s) (!r.slopeFalling) r.code) r.delay

/-- A pulse is as wide as R117 asks: 20 ns to 900 ms, or to 90 ms for PPS10; widths in fu. -/
def widthOk (fmt width : Nat) : Bool := inRange width (20 * 65536) ((if fmt = 2 then 90 else 900) * 65536000000)

/-- n periods, each scaled by the slot's present frequency offset (R117). -/
def RefSlot.periodsOn (r : RefSlot) (n : Nat) : Int := r.pulsePeriod * n + yStep r.y (r.pulsePeriod / msFu).toNat n

/-- The predicted time n periods after the last pulse used, and that of the next pulse (R117). -/
def RefSlot.predictAt (r : RefSlot) (n : Nat) : Option Int := r.lastPulse.map (· + r.periodsOn n)
def RefSlot.prediction (r : RefSlot) : Option Int := r.ahead.bind r.predictAt

/-- The multiple of the period nearest to a prediction (R125). -/
def RefSlot.gridOf (r : RefSlot) (p : Int) : Int := rdiv p r.pulsePeriod * r.pulsePeriod

/-- Of PPS10, the pulse whose label is l is the last of its second (R492). -/
def lastOfSecond (l : Int) : Bool := decide (l.fmod secFu = secFu / 10 * 9)

/-- The present τ0 interval ends: what it has gathered waits for its sample, and a voided one gives none (R125, R492). -/
def RefSlot.close (r : RefSlot) : RefSlot :=
  { r with
    closed := r.closed ++ [if r.voided then ([], none) else (r.pulses, r.named)], pulses := [], named := none, voided := r.blank }

/-- An interval whose pulse has not come ends: of PPS and PPS_TOD the interval of that pulse, of PPS10 the second when the pulse was
its last. A pulse of PPS_TOD that still waited for its label ends first. -/
def RefSlot.missPulse (p : Int) (r : RefSlot) : RefSlot :=
  if r.format = 2 then (if lastOfSecond (r.gridOf p) then r.close else r)
  else if r.pulses.isEmpty then r.close else r.close.close

/-- Pass the predictions whose 1 µs has gone by at nominal time t, at most k of them; each is a missing pulse, unless its
interval is voided (R117, R125). -/
def passPredictions : Nat → Int → RefSlot → RefSlot
  | 0, _, r => r
  | k + 1, t, r =>
    match r.prediction with
    | none => r
    | some p =>
      if p + usFu < t then
        passPredictions k t
          ({ r with ahead := r.ahead.map (· + 1), cntMiss := if r.voided then r.cntMiss else satInc32 r.cntMiss }.missPulse p)
      else r

/-- Pulse formats with predictions. -/
def RefSlot.predicts (r : RefSlot) : Bool := decide (1 ≤ r.format) && decide (r.format ≤ 3)

/-- Two edges a whole number of periods apart, within 1 µs. -/
def periodsApart (p a b : Int) : Bool :=
  let n := rdiv (b - a) p
  decide (1 ≤ n) && decide ((b - a - n * p).natAbs ≤ usFu)

/-- A sentence labels the pulse after it (PPS_TOD with tod_assoc 1), and a frame of IRIG-B its own edge (R118, R119). -/
def RefSlot.labelFirst (r : RefSlot) : Bool := r.format == 4 || (r.format == 3 && r.todAssoc)

/-- An edge at u is used, its prediction having been near: it is kept for the sample with its label where that has come first, and
ends its interval where nothing more is awaited (R117, R125, R492). -/
def RefSlot.useEdge (u near : Int) (r : RefSlot) : RefSlot :=
  let r := if r.format = 2 ∨ r.pulses.isEmpty then r else r.close
  let l := r.gridOf near
  let r := { r with
    pulses := (u, l) :: r.pulses, lastPulse := some u, ahead := some 1
    named := if r.labelFirst then r.label else none, label := if r.labelFirst then none else r.label }
  if r.format = 1 ∨ r.labelFirst ∨ (r.format = 2 ∧ lastOfSecond l) then r.close else r

/-- The prediction nearest to an edge at u, counted from the last pulse used; the edge itself where there is none. -/
def RefSlot.nearPrediction (r : RefSlot) (u : Int) : Int :=
  match r.lastPulse with
  | some a => (r.predictAt (rdiv (u - a) r.pulsePeriod).toNat).getD u
  | none => u

/-- Three of the pulses kept, with u among them, fall into 10 s (R127). -/
def threeIn10s (u : Int) (l : List Int) : Bool := decide (3 ≤ (within10s u l).length)

/-- An extra pulse, and an invalid one (R117, R127). -/
def RefSlot.addExtra (u : Int) (r : RefSlot) : RefSlot :=
  { r with cntExtra := satInc32 r.cntExtra, extraPulses := u :: r.extraPulses, extraTrip := r.extraTrip || threeIn10s u (u :: r.extraPulses) }
def RefSlot.addBad (u : Int) (r : RefSlot) : RefSlot :=
  { r with cntWidth := satInc32 r.cntWidth, badPulses := u :: r.badPulses, badTrip := r.badTrip || threeIn10s u (u :: r.badPulses) }

/-- A valid on-time edge at u: the second of two whole periods apart begins QUALIFYING; after that an edge within 1 µs of its
prediction is used, and any other is an extra pulse (R117, R133). IRIG-B frames have no predictions to miss. -/
def onTimeEdge (s : Fin 12) (u : Int) (h : Hub) : Hub :=
  let r := h.refs[s]
  let h := h.onRef s fun r => { r with lastOn := some u }
  if r.state == SlotState.absent then
    match r.lastPulse with
    | some a =>
      if periodsApart r.pulsePeriod a u then
        let label := r.label
        (beginQualifying s h).onRef s fun r => RefSlot.useEdge u u { r with label, lastOn := some u }
      else h.onRef s fun r => { r with lastPulse := some u }
    | none => h.onRef s fun r => { r with lastPulse := some u }
  else if r.predicts then
    let h := h.onRef s (passPredictions 100 u)
    match h.refs[s].prediction with
    | none => h.onRef s (RefSlot.useEdge u u)
    | some p => if (u - p).natAbs ≤ usFu then h.onRef s (RefSlot.useEdge u p) else h.onRef s (RefSlot.addExtra u)
  else h.onRef s fun r => r.useEdge u (r.nearPrediction u)

/-- A pulse whose leading edge, of the selected slope, is stamped `st` and whose width in fu is measured to the opposite
edge. Nothing is taken while the slot is off, or of an edge that its lane does not take (R81, R82, R102). -/
def refPulseEdge (s : Fin 8) (st : Stamp) (width : Nat) (h : Hub) : Hub :=
  let h := advanceTo st.cyc h
  let k := slotOf s
  let r := h.refs[k]
  let l := laneOfRef s
  let now := h.rootStamp (h.laneUsed l) st
  if h.runs && r.enabled && r.predicts && h.refqRuns k && h.hears l (!r.slopeFalling) && !h.laneDead l now then
    let u := h.refStamp s st
    let h := notePair l st (laneTake l now h)
    if widthOk r.format width then onTimeEdge k u h else h.onRef k (RefSlot.addBad u)
  else h

/-! ## Calendar -/

/-- Leap years of the Gregorian calendar. -/
def leapYear (y : Nat) : Bool := (y % 4 == 0 && y % 100 != 0) || y % 400 == 0

/-- Days of a month. -/
def monthDays (y m : Nat) : Nat := [31, if leapYear y then 29 else 28, 31, 30, 31, 30, 31, 31, 30, 31, 30, 31].getD (m - 1) 0

/-- Days from 1970-01-01 to the first day of year y. -/
def yearDays (y : Nat) : Int :=
  let leaps (n : Nat) : Int := (n / 4 : Nat) - (n / 100 : Nat) + (n / 400 : Nat)
  ((y : Int) - 1970) * 365 + leaps (y - 1) - leaps 1969

/-- Days from the first of January to the first of a month. -/
def daysBefore (y m : Nat) : Nat := ((List.range (m - 1)).map fun i => monthDays y (i + 1)).sum

/-- Seconds of a calendar date and time since 1970-01-01 00:00:00, at 86,400 s a day (R121). -/
def calendarSecs (day : Int) (hh mm ss : Nat) : Int := day * 86400 + (hh * 3600 + mm * 60 + ss : Nat)

/-! ## ZDA sentences (R118) -/

/-- Decimal digit. -/
def digit? (b : Byte) : Option Nat := if inRange b.toNat 0x30 0x39 then some (b.toNat - 0x30) else none

/-- A number written in exactly n decimal digits. -/
def number? (n : Nat) (b : Bytes) : Option Nat :=
  if b.length = n then b.foldl (fun v x => match v, digit? x with
    | some v, some d => some (10 * v + d)
    | _, _ => none) (some 0)
  else none

/-- Hexadecimal digit. -/
def hex? (b : Byte) : Option Nat :=
  let v := b.toNat
  if inRange v 0x30 0x39 then some (v - 0x30) else if inRange v 0x41 0x46 then some (v - 0x37)
  else if inRange v 0x61 0x66 then some (v - 0x57) else none

/-- Split at commas. -/
def commas : Bytes → List Bytes
  | [] => [[]]
  | b :: bs => if b = 0x2C then [] :: commas bs else match commas bs with
    | f :: fs => (b :: f) :: fs
    | [] => [[b]]

/-- A ZDA sentence of any talker: $, two characters, "ZDA,". -/
def isZda (t : Bytes) : Bool := byteAt t 0 == 0x24 && (t.drop 3).take 4 == [0x5A, 0x44, 0x41, 0x2C]

/-- The checksum: two hexadecimal digits after *, the exclusive or of the characters between $ and *. -/
def zdaChecked (t : Bytes) : Option Bytes :=
  let body := (t.drop 1).takeWhile (· != 0x2A)
  let rest := (t.drop 1).drop body.length
  let ends := rest.length == 5 && byteAt rest 0 == 0x2A && byteAt rest 3 == 0x0D && byteAt rest 4 == 0x0A
  let sum := (hex? (byteAt rest 1)).bind fun x => (hex? (byteAt rest 2)).map fun y => BitVec.ofNat 8 (16 * x + y)
  if ends && sum == some (body.foldl (· ^^^ ·) 0) then some body else none

/-- The calendar values of a ZDA sentence's fields, where each is a number of its length: hours, minutes, seconds, day,
month, year, and the fraction of seconds as written. -/
def zdaFields (body : Bytes) : Option (List Nat × Bytes) :=
  let f := commas body
  let time := f.getD 1 []
  let nums := [number? 2 (time.take 2), number? 2 ((time.drop 2).take 2), number? 2 ((time.drop 4).take 2),
    number? 2 (f.getD 2 []), number? 2 (f.getD 3 []), number? 4 (f.getD 4 [])]
  if f.length = 7 ∧ nums.all Option.isSome then some (nums.filterMap id, time.drop 6) else none

/-- The label of a sentence: seconds of its date and time, and whether it reads second 60. None where R118 discards it. -/
def zdaLabel (t : Bytes) : Option (Int × Bool) :=
  if 82 < t.length then none else
  (zdaChecked t).bind fun body => (zdaFields body).bind fun p =>
    let at_ (i : Nat) : Nat := p.1.getD i 0
    let zero := p.2.isEmpty || (byteAt p.2 0 == 0x2E && p.2.tail.all (· == 0x30))
    if zero && decide (at_ 0 ≤ 23) && decide (at_ 1 ≤ 59) && decide (at_ 2 ≤ 60) && inRange (at_ 4) 1 12
        && inRange (at_ 3) 1 (monthDays (at_ 5) (at_ 4)) && decide (1970 ≤ at_ 5) then
      some (calendarSecs (yearDays (at_ 5) + (daysBefore (at_ 5) (at_ 4) + at_ 3 - 1 : Nat)) (at_ 0) (at_ 1) (at_ 2), at_ 2 == 60)
    else none

/-- The PPS_TOD slot that reads TOD[i]. -/
def Hub.todSlot (h : Hub) (i : Fin 4) : Option (Fin 12) :=
  (allFin 12).find? fun s => h.refs[s].enabled && h.refs[s].format == 3 && h.refs[s].todPort == i.val

/-- A sentence ends at root cycle cyc: it labels the pulse before it, or the next one, when it is sound and ends 50 ms to
950 ms after an on-time edge; a discarded ZDA sentence is counted, and other sentences are not read. -/
def todSentence (i : Fin 4) (txt : Bytes) (cyc : Nat) (h : Hub) : Hub :=
  let h := advanceTo cyc h
  match h.todSlot i with
  | none => h
  | some s =>
    if h.runs && h.refqRuns s && isZda txt then
      let r := h.refs[s]
      let inWindow := match r.lastOn with
        | some u => inRange (h.nomFu - u).toNat (50 * 65536000000) (950 * 65536000000)
        | none => false
      match zdaLabel txt with
      | some l =>
        if inWindow then h.onRef s fun r =>
          if r.todAssoc then { r with label := some l } else if r.pulses.isEmpty then r else { r with named := some l }
        else h.onRef s fun r => { r with cntTod := satInc32 r.cntTod }
      | none => h.onRef s fun r => { r with cntTod := satInc32 r.cntTod }
    else h

/-! ## IRIG-B frames (R119; the element places of IRIG Standard 200, log 12) -/

/-- The elements of IRIG-B: 0, 1 or a position identifier; widths in fu. -/
inductive IrigElem where
  | zero | one | mark
deriving DecidableEq, Repr

/-- An element by its width. -/
def irigElem? (w : Nat) : Option IrigElem :=
  let tenths (a b : Nat) : Bool := inRange w (a * 6553600000) (b * 6553600000)
  if tenths 15 25 then some .zero else if tenths 45 55 then some .one else if tenths 75 85 then some .mark else none

/-- All hundred elements decode and the identifiers stand in their places: element 0 and every tenth from 9. -/
def irigFrame? (widths : List Nat) : Option (List IrigElem) :=
  let e := widths.filterMap irigElem?
  if widths.length = 100 ∧ e.length = 100 ∧ (e.zipIdx.all fun p => (p.1 == IrigElem.mark) == (p.2 == 0 || p.2 % 10 == 9)) then some e
  else none

/-- The number that bits of given weights at given elements spell. -/
def irigNum (e : List IrigElem) (bits : List (Nat × Nat)) : Nat :=
  (bits.map fun b => if e.getD b.1 .zero == IrigElem.one then b.2 else 0).sum

def irigSecs (e : List IrigElem) : Nat := irigNum e [(1, 1), (2, 2), (3, 4), (4, 8), (6, 10), (7, 20), (8, 40)]
def irigMins (e : List IrigElem) : Nat := irigNum e [(10, 1), (11, 2), (12, 4), (13, 8), (15, 10), (16, 20), (17, 40)]
def irigHours (e : List IrigElem) : Nat := irigNum e [(20, 1), (21, 2), (22, 4), (23, 8), (25, 10), (26, 20)]
def irigDay (e : List IrigElem) : Nat :=
  irigNum e [(30, 1), (31, 2), (32, 4), (33, 8), (35, 10), (36, 20), (37, 40), (38, 80), (40, 100), (41, 200)]
def irigYear (e : List IrigElem) : Nat := irigNum e [(50, 1), (51, 2), (52, 4), (53, 8), (55, 10), (56, 20), (57, 40), (58, 80)]

/-- The label of a frame: the year from the frame in B004 to B007, from REF_CONFIG otherwise, where 0 gives none. -/
def irigLabel (r : RefSlot) (e : List IrigElem) : Option (Int × Bool) :=
  let y := if 4 ≤ r.irigCode then 2000 + irigYear e else r.year
  if y = 0 then none
  else some (calendarSecs (yearDays y + irigDay e - 1) (irigHours e) (irigMins e) (irigSecs e), irigSecs e == 60)

/-- A frame ends: `st` is the stamp of the on-time edge that began it, counted on the tick grid of one second, 1,000 ticks,
before (log 18), and `widths` are its elements. An invalid frame is counted and its edge is not used. -/
def irigFrame (s : Fin 8) (st : Stamp) (widths : List Nat) (h : Hub) : Hub :=
  let h := advanceTo st.cyc h
  let k := slotOf s
  let r := h.refs[k]
  let l := laneOfRef s
  let began := h.rootStamp (h.laneUsed l) st - 1000 * tickCycles * 2 ^ 24
  if h.runs && r.enabled && r.format == 4 && h.refqRuns k && h.hears l (!r.slopeFalling) && !h.laneDead l began then
    let back := secU + h.nomInc * 375000000
    let u := h.refStamp s st - rdiv back fuU
    let h := laneTake l began h
    match irigFrame? widths with
    | some e => onTimeEdge k u (h.onRef k fun r => { r with label := irigLabel r e })
    | none => h.onRef k fun r => { r.addBad u with cntTod := satInc32 r.cntTod }
  else h

/-! ## Samples (R116, R120, R125, R133, R492) -/

/-- The passed edges of one millisecond of a FREQ slot, in order: whole periods counted by rounding, and the sums that the
mean of u − n × T needs. -/
def freqEdges (r : RefSlot) (us : List Int) : RefSlot × Int :=
  us.foldl (fun (a : RefSlot × Int) (u : Int) =>
    let r := a.1
    let n := match r.lastU with
      | some v => r.periods + rdiv ((u - v) * r.nomDiv) periodNum
      | none => 0
    ({ r with lastU := some u, periods := n }, a.2 + (u * r.nomDiv - n * periodNum))) (r, 0)

/-- The FREQ sample of edges at us: the mean of u − n × T, unwrapped to the value nearest the prediction (R126). -/
def freqSample (s : Fin 12) (us : List Int) (h : Hub) : Hub :=
  let n : Int := us.length
  let a := freqEdges h.refs[s] us
  let h := h.onRef s fun _ => a.1
  let r := h.refs[s]
  let x := rdiv a.2 (r.nomDiv * n)
  let x := match h.predictX r with
    | some q => x - rdiv (rdiv ((x - q) * r.nomDiv) periodNum * periodNum) r.nomDiv
    | none => x
  takeSample s x (rdiv us.sum n) h

/-- A LINK slot takes the sample that the LINK task delivered, less its REF_DELAY (R120, R123). -/
def linkSample (s : Fin 12) (h : Hub) : Hub :=
  match h.refs[s].due with
  | none => noSample s h
  | some (x, t) =>
    let tod := h.linkTod h.refs[s]
    let delay := h.refs[s].delay
    takeSample s (x - delay) t (h.onRef s fun r => { r with due := none, todValid := tod })

/-- An ABSENT LINK slot whose link is TIMED and not too deep begins QUALIFYING. Too deep an upstream shows in depth, in any state
of the link (R120); a slot that is not ABSENT when its upstream becomes too deep is lost with cause 1 (log 81). -/
def linkPresence (s : Fin 12) (h : Hub) : Hub :=
  let r := h.refs[s]
  if r.enabled && r.format == 5 && h.refqRuns s then
    let deep := h.tooDeep r
    let timed := h.portTimed r
    let rise := deep && !r.depth
    let h := h.onRef s fun r => { r with depth := deep }
    let h := if rise then raiseRef s (bit16 9) h else h
    if deep && r.state != SlotState.absent then slotLost s 1 h
    else if timed && !deep && r.state == SlotState.absent then
      let due := r.due
      (beginQualifying s h).onRef s fun r => { r with due }
    else h
  else h

/-- A change of REF_DELAY takes effect at a τ0 boundary (R124). -/
def delayDue (s : Fin 12) (h : Hub) : Hub := if h.refs[s].delay = pfs h.refs[s].cfg 22 0 48 then h else applyDelay s h

/-- The 950 ms in which a sentence may label a pulse of PPS_TOD with tod_assoc 0 are over (R118, R492). -/
def closeInterval (s : Fin 12) (h : Hub) : Hub :=
  let r := h.refs[s]
  match r.pulses with
  | (u, _) :: _ =>
    if r.format = 3 then
      match reachNom (u + 950 * 65536000000) h with
      | some h => h.onRef s RefSlot.close
      | none => h
    else h
  | [] => h

/-- The oldest τ0 interval of a pulse slot that has ended gives its sample, or none (R125, R492). -/
def pulseSample (s : Fin 12) (h : Hub) : Hub :=
  match h.refs[s].closed with
  | [] => h
  | (ps, label) :: rest =>
    let h := h.onRef s fun r => { r with closed := rest }
    let r := h.refs[s]
    delayDue s (match ps with
      | [] => noSample s h
      | (u, l) :: _ =>
        if r.labelled then labelledSample s u l label h
        else if r.format = 2 then
          takeSample s (rdiv (ps.map fun p => p.1 - p.2).sum ps.length) (rdiv (ps.map (·.1)).sum ps.length) h
        else takeSample s (u - l) u h)

/-- The FREQ sample of the edges of a millisecond, or the presence test of an ABSENT slot: 16 edges without a timer expiry (R133). -/
def freqInterval (s : Fin 12) (edges : List Stamp) (h : Hub) : Hub :=
  let r := h.refs[s]
  match finOf 8 s with
  | none => h
  | some i =>
    let us := edges.map (h.refStamp i)
    let seen := r.seen + edges.length * 2 ^ r.prescale
    if r.state == SlotState.absent then
      if 16 ≤ seen ∧ !us.isEmpty then freqSample s us (beginQualifying s h)
      else h.onRef s fun r => { r with seen }
    else if us.isEmpty then noSample s h
    else freqSample s us h

/-- The sample of a LINK slot's interval. -/
def linkInterval (s : Fin 12) (h : Hub) : Hub :=
  let h := linkPresence s h
  if h.refs[s].state == SlotState.absent then h else linkSample s h

/-- The τ0 interval in which tick ms falls, of a slot on the tick grid: a millisecond, or a second (R492, R281). -/
def Hub.gridInterval (h : Hub) (r : RefSlot) (ms : Nat) : Nat := if h.slow r then ms / 1000 else ms

/-- The present interval of a slot on the grid has been taken already. -/
def Hub.taken (h : Hub) (r : RefSlot) (ms : Nat) : Bool := r.sampledAt.map (h.gridInterval r) == some (h.gridInterval r ms)

/-- A τ0 interval of a slot on the tick grid: once in an interval; a voided one gives no sample (R125). -/
def gridSample (s : Fin 12) (edges : List Stamp) (h : Hub) : Hub :=
  let r := h.refs[s]
  let ms := h.clk.ms
  if h.taken r ms then h
  else
    let h := h.onRef s fun r => { r with sampledAt := some ms, voided := r.blank }
    delayDue s (if r.voided then (if r.state == SlotState.absent then h else noSample s (h.onRef s fun r => { r with due := none }))
      else if r.format = 0 then freqInterval s edges h
      else linkInterval s h)

/-- A sample of slot s is formed: of a slot on the tick grid, from the edges of its millisecond (FREQ; stamps counted from the
last tick) or from the LINK task's sample; of a pulse slot, from its oldest interval that has ended. -/
def refqSample (s : Fin 12) (edges : List Stamp) (h : Hub) : Hub :=
  let r := h.refs[s]
  if h.runs && r.enabled && h.refqRuns s then
    if r.format = 0 ∨ r.format = 5 then gridSample s edges h
    else if r.state == SlotState.absent then h
    else pulseSample s (closeInterval s h)
  else h

/-! ## Loss and timers -/

/-- The hub at the moment the hardware timer of a slot expires (R131): 1.5 s after the last valid on-time edge for the pulse formats;
the missing-edge timer of FREQ is stopped while the input is blanked (R125). -/
def lossDue (s : Fin 12) (h : Hub) : Option Hub :=
  let r := h.refs[s]
  if r.format = 0 then (if r.blank then none else some h)
  else if r.format = 5 then some h
  else r.lastOn.bind fun u => reachNom (u + 1500 * 65536000000) h

/-- Hardware detects the loss of a reference (R131); a LINK slot whose link is no longer TIMED has cause 11. An expiry of the
missing-edge timer counts as a missing edge, and in ABSENT starts the presence test anew (R133). -/
def refLossDetected (s : Fin 12) (h : Hub) : Hub :=
  match (if h.runs && h.refs[s].enabled then lossDue s h else none) with
  | none => h
  | some h =>
    let r := h.refs[s]
    let h := if r.format = 0 then h.onRef s fun r =>
        { r with seen := 0, cntMiss := if r.state == SlotState.absent then r.cntMiss else satInc32 r.cntMiss } else h
    slotLost s (if r.format = 5 ∧ !h.portTimed r then 11 else 1) h

/-- The qualify timer has expired: the slot is QUALIFIED if it meets the other conditions already (R133). -/
def qualifyTimerExpiry (s : Fin 12) (h : Hub) : Hub := when_ (h.runs && h.refqRuns s) (tryQualify s) h

/-- The requalify timer has expired. -/
def requalifyTimerExpiry (s : Fin 12) (h : Hub) : Hub :=
  when_ (h.runs && h.refqRuns s && h.refs[s].state == .disqualified && h.refs[s].timer == 0) (requalify s) h

/-! ## The 1 ms tick of a slot -/

/-- One second of a running qualify or requalify timer in a thousand ticks. -/
def RefSlot.tick (r : RefSlot) : RefSlot :=
  if r.timer = 0 then r
  else if r.timerMs < 999 then { r with timerMs := r.timerMs + 1 }
  else { r with timerMs := 0, timer := r.timer - 1 }

/-- A slot at a 1 ms tick: its timer, the predictions that have passed, and for a slot on the grid the end of an interval that gave
no sample, with the boundary at which a changed REF_DELAY takes effect. -/
def refTick (s : Fin 12) (h : Hub) : Hub :=
  let now := h.nomFu
  let ms := h.clk.ms
  let still := !h.refqRuns s || h.refs[s].blank
  let h := h.onRef s fun r =>
    let r := { r.tick with voided := r.voided || still }
    if r.predicts && r.state != SlotState.absent then passPredictions 100 now r else r
  let r := h.refs[s]
  if r.enabled && (r.format == 0 || r.format == 5) && r.state != SlotState.absent
      && decide (h.gridInterval r (ms - 1) ≠ h.gridInterval r ms) then
    delayDue s (if h.taken r (ms - 1) then h else noSample s (h.onRef s fun r => { r with voided := r.blank }))
  else if r.state == SlotState.absent && !(r.setDesc.isEmpty && r.delayDesc.isEmpty) then applyLimits s (applyDelay s h)
  else h

/-! ## Meanings -/

def execRefConfig (o : Origin) (s : State) := run (refConfig o) s
def execRefPriority (o : Origin) (s : State) := run (refPriority o) s
def execRefPulseEdge (k : Fin 8) (st : Stamp) (width : Nat) (s : State) := run (refPulseEdge k st width) s
def execTodSentence (i : Fin 4) (txt : Bytes) (cyc : Nat) (s : State) := run (todSentence i txt cyc) s
def execIrigFrame (k : Fin 8) (st : Stamp) (widths : List Nat) (s : State) := run (irigFrame k st widths) s
def execRefqSample (k : Fin 12) (edges : List Stamp) (s : State) := run (refqSample k edges) s
def execRefLossDetected (k : Fin 12) (s : State) := run (refLossDetected k) s
def execQualifyTimerExpiry (k : Fin 12) (s : State) := run (qualifyTimerExpiry k) s
def execRequalifyTimerExpiry (k : Fin 12) (s : State) := run (requalifyTimerExpiry k) s

end Sys2Proof.Machine
end

