-- ==== Sys2Proof/Machine/Links.lean ====
section
/-!
DEFINITION. The commands of the link ports (chapter 07): LINK_CONFIG and LINK_CAL, the frames sent and received, ranging,
the port states, the sideband and the modules, and what the LINK task does at a tick.
-/

namespace Sys2Proof.Machine

/-! ## Settings and fixed delays (R231, R254) -/

def Link.alphaSet (l : Link) : Nat := pf l.cfg 8 0 48
def Link.stepLimit (l : Link) : Nat := pf l.cfg 4 0 32
def Link.asymLimit (l : Link) : Nat := pf l.cfg 16 0 32
def Link.ternen (l : Link) : Bool := l.mode == 1

/-- δtx and δrx of a port for a line mode, 2^-8 fu: the calibrated delay and the external one (R231). -/
def Hub.dtx8 (h : Hub) (n : Fin 48) : Int := rdiv (h.linkFixed n false (h.links[n].mode - 1) * 256) (10 ^ 5) + 256 * h.links[n].extTx
def Hub.drx8 (h : Hub) (n : Fin 48) : Int := rdiv (h.linkFixed n true (h.links[n].mode - 1) * 256) (10 ^ 5) + 256 * h.links[n].extRx

/-- The enabled LREF slots that name a port. -/
def Hub.lrefs (h : Hub) (n : Fin 48) : List (Fin 12) :=
  (allFin 12).filter fun s => h.refs[s].enabled && h.refs[s].format == 5 && h.refs[s].port == some n

/-- The slots of a port see its loss (R131, R133). -/
def lrefsLost (n : Fin 48) (cause : Nat) (h : Hub) : Hub := forEach (h.lrefs n) (fun s => slotLost s cause) h

/-! ## Leaving TIMED (R243) -/

/-- α as configured is in force, and what waited for it completes (R255). -/
def settleAlpha (n : Fin 48) (h : Hub) : Hub :=
  forEach h.links[n].alphaDesc (fun id => complete id .ok) (h.onLink n fun l => { l with alpha := l.alphaSet, alphaDesc := [] })

/-- An exit from TIMED: LNK_EVT.left_timed, counter 16 + n, LINK_DOWN with its cause unless the mode was written, and the
loss of the port's slots: cause 1 when marks are missing, 11 otherwise. An α that waited is in force. -/
def leaveTimed (n : Fin 48) (cause : Option Nat) (h : Hub) : Hub :=
  let h := raiseLnk n (bit16 5) (bumpCounter (16 + n) (settleAlpha n h))
  let h := match cause with
    | some c => sendFault (srcLink n) .linkDown accNone mInternal c h
    | none => h
  lrefsLost n (if cause = some 3 then 1 else 11) h

/-- Go to a lower state, out of TIMED when the port is there. -/
def fallTo (n : Fin 48) (st : LinkState) (cause : Option Nat) (h : Hub) : Hub :=
  let timed := h.links[n].state == LinkState.timed
  let h := if timed then leaveTimed n cause h else h
  enterLink n st h

/-- An IEEE 1588 port is enabled (R284). -/
def PtpPort.enable (p : PtpPort) : Bool := pb p.cfg 2 7

/-- What a port has heard and measured, forgotten. -/
def PtpPort.quiet (p : PtpPort) : PtpPort :=
  { p with best := none, pathOk := false, reqStamp := none, xSum := 0, tSum := 0, xN := 0, line := none, syncs := [], offsets := [] }

/-- An Ethernet port's PTP state at a change of its link: INITIALIZING in BOOT and until the link is up (R280, R286); slots that its
SLAVE state served are lost. -/
def ptpLink (n : Fin 48) (h : Hub) : Hub :=
  let l := h.links[n]
  let p := h.hier.ptp[n]
  let slave := p.state == PtpState.slave
  let st : PtpState :=
    if !l.eth then .absent else if !p.enable then .disabled
    else if h.inMode .boot || l.state != LinkState.ethUp then .initializing
    else match p.state with
      | .absent | .disabled | .initializing | .faulty => .listening
      | .listening | .preMaster | .master | .passive | .uncalibrated | .slave => p.state
  let h := h.onPtp n fun p => if st == p.state then p else { p.quiet with state := st, annMs := h.clk.ms }
  if slave && st != PtpState.slave then lrefsLost n 11 h else h

/-- Down to DOWN or ALIGNING: ranging cleared; an Ethernet port's PTP state follows. -/
def dropTo (n : Fin 48) (st : LinkState) (cause : Nat) (h : Hub) : Hub :=
  ptpLink n ((fallTo n st (some cause) h).onLink n fun l => { l.clearRanging with blockLock := false })

/-! ## LINK_CONFIG (R254, R255, R242) -/

/-- The values that R254 refuses. -/
def linkConfigBad (p : Payload) : Bool :=
  decide (3 < pf p 1 0 3) || pf p 4 0 32 == 0 || decide (10 * pf p 8 0 48 < 19 * 2 ^ 46) || decide (21 * 2 ^ 46 < 10 * pf p 8 0 48)

/-- A written mode: OFF, and then DOWN for a mode that is not OFF; the LINK task is made or removed (R242, R292). -/
def linkMode (n : Fin 48) (old new : Nat) (h : Hub) : Hub :=
  let h := if old = 0 then createTask n h else if new = 0 then removeTask n h else h
  let h := (fallTo n .off none h).onLink n fun l => { l.clearAll with squelch := true, txDis := true }
  ptpLink n (linkStart n true h)

/-- LINK_CONFIG: completes when the settings are in force, a change of mode once the port is DOWN or OFF, a change of α on a TIMED port
with the next value of F. A LOOPBACK in
progress ends with the mode that it ran in. -/
def linkConfigEff (d : Desc) (h : Hub) : Hub :=
  let p := d.payload
  withFin 48 (pf p 0 0 8) d.id (fun (n : Fin 48) (h : Hub) =>
    if linkConfigBad p then complete d.id .badParam h
    else
      let old := h.links[n].mode
      let new := pf p 1 0 3
      let loop := h.links[n].loop
      let timed := h.links[n].state == LinkState.timed
      let h := (copyWritten (0x10000 + 0x200 * n) 32 h).onLink n fun l => { l with cfg := pbytes p 32, alpha := if timed then l.alpha else pf p 8 0 48 }
      if old = new then
        (if timed && h.links[n].alpha != pf p 8 0 48 then h.onLink n fun l => { l with alphaDesc := l.alphaDesc ++ [d.id] }
          else complete d.id .ok h)
      else
        let h := match loop with
          | some (id, _) => complete id .aborted (h.onLink n fun l => { l with loop := none })
          | none => h
        let h := linkMode n old new h
        complete d.id (if old = 0 && h.taskShed n then .noResource else .ok) h) h

def linkConfig (o : Origin) (h : Hub) : Hub := serve o (isOp 0x50) linkConfigEff h

/-! ## LINK_CAL (R256, R257) -/

def calOp (p : Payload) : Nat := pf p 1 0 2

/-- The values that R256 refuses. -/
def linkCalBad (p : Payload) : Bool :=
  calOp p == 3 || decide (1000 < pf p 2 0 16)
  || (calOp p == 0 && (decide (655360000 < pf p 8 0 32) || decide (655360000 < pf p 12 0 32)))
  || (calOp p == 1 && decide (65536000000 < pf p 16 0 64))

/-- D from F, α and the fixed delays at its two ends (R239), 2^-8 fu. -/
def delayOf (f : Int) (alpha : Nat) (dtxR drxL : Int) : Int := dtxR + rdiv (f * 2 ^ 46) alpha + drxL

/-- The change c (fu) of D is delivered to the port's slots as a change of REF_DELAY (R240, R124). -/
def deliverDelay (n : Fin 48) (c : Int) (h : Hub) : Hub :=
  if c = 0 then h
  else forEach (h.lrefs n) (fun s h =>
    slewUsers s (-c) (h.onRef s (RefSlot.shiftDelay c))) h

/-- Known fixed delays change by these amounts (2^-8 fu) on a port that ranges: F and its history move with them, D is
computed anew, and on a TIMED port the change in D is delivered (R239, R240). -/
def shiftDelays (n : Fin 48) (dF dtxR drxL : Int) (h : Hub) : Hub :=
  let l := h.links[n]
  if l.fs.isEmpty then h
  else
    let f := l.f - dF
    let dIn := rdiv (f * 2 ^ 46) l.alpha
    let d := l.d + dtxR + drxL + (dIn - l.dIn)
    let h := h.onLink n fun l => { l with f, dIn, d, fs := l.fs.map fun v => (v.1 - dF, v.2) }
    if l.state == LinkState.timed then deliverDelay n (rdiv (d - l.d) 256) h else h

/-- Put external delays in force. -/
def setExt (n : Fin 48) (tx rx : Nat) (h : Hub) : Hub :=
  let l := h.links[n]
  let dt : Int := 256 * ((tx : Int) - l.extTx)
  let dr : Int := 256 * ((rx : Int) - l.extRx)
  shiftDelays n (dt + dr) 0 dr (h.onLink n fun l => { l with extTx := tx, extRx := rx })

/-- SET_EXT; the refused op 3 completes with BAD_PARAM. -/
def linkSetExtEff (d : Desc) (h : Hub) : Hub :=
  let p := d.payload
  withFin 48 (pf p 0 0 8) d.id (fun (n : Fin 48) (h : Hub) =>
    if linkCalBad p then complete d.id .badParam h
    else complete d.id .ok (setExt n (pf p 8 0 32) (pf p 12 0 32) h)) h

def linkCalSetExt (o : Origin) (h : Hub) : Hub := serve o (isOpSub 0x51 fun p => calOp p == 0 || calOp p == 3) linkSetExtEff h

/-- LOOPBACK begins: for 1 s the marks that come back are matched to their own departures. Only in TERNEN mode and not
TIMED; a port that is not DENIED for a LOOPBACK already running takes one at a time. -/
def linkLoopbackEff (d : Desc) (h : Hub) : Hub :=
  let p := d.payload
  withFin 48 (pf p 0 0 8) d.id (fun (n : Fin 48) (h : Hub) =>
    let l := h.links[n]
    if linkCalBad p then complete d.id .badParam h
    else if !l.ternen || l.state == LinkState.timed || l.loop.isSome then complete d.id .denied h
    else
      let ms := h.clk.ms
      h.onLink n fun l => { l with loop := some (d.id, []), loopAt := ms }) h

def linkCalLoopback (o : Origin) (h : Hub) : Hub := serve o (isOpSub 0x51 fun p => calOp p == 1) linkLoopbackEff h

/-- REBASE clears the asymmetry baseline. -/
def linkRebaseEff (d : Desc) (h : Hub) : Hub :=
  let p := d.payload
  withFin 48 (pf p 0 0 8) d.id (fun (n : Fin 48) (h : Hub) =>
    if linkCalBad p then complete d.id .badParam h
    else complete d.id .ok (h.onLink n fun l => { l with base := none, delta := 0, asymSent := false })) h

def linkCalRebase (o : Origin) (h : Hub) : Hub := serve o (isOpSub 0x51 fun p => calOp p == 2) linkRebaseEff h

/-- The rms deviation of values from their mean m8 (2^-8 fu), in 2^-8 fu. -/
def rms8 (l : List Int) : Nat :=
  let n := l.length
  let s := l.sum
  if n = 0 then 0 else (isqrt (4 * (65536 * ((n : Int) * (l.map fun v => v * v).sum - s * s)).toNat / (n * n)) + 1) / 2

/-- The second of a LOOPBACK is over (R257). -/
def loopbackComplete (n : Fin 48) (h : Hub) : Hub :=
  let l := h.links[n]
  match l.loop with
  | none => h
  | some (id, ms) =>
    if !h.runs || decide (h.clk.ms < l.loopAt + 1000) then h
    else
      let h := h.onLink n fun l => { l with loop := none }
      let p : Payload := match h.desc? id with
        | some d => d.payload
        | none => 0
      let loopDelay : Int := pf p 16 0 64
      let m8 := if ms.isEmpty then 0 else rdiv (ms.sum * 256) ms.length
      let sum8 := m8 - rdiv ((h.linkFixed n false 0 + h.linkFixed n true 0) * 256) (10 ^ 5) - 256 * loopDelay
      if ms.length < 1000 then complete id .timeout h
      else if sum8 < 0 then complete id .badParam h
      else
        let sum := (rdiv sum8 256).toNat
        let tx := sum * pf p 2 0 16 / 1000
        let rx := sum - tx
        let h := dropTo n .down 1 (h.onLink n fun l => { l with extTx := tx, extRx := rx, split := pf p 2 0 16 })
        let h := linkRise n h
        completeWith id .ok (resultOf [(0, 64, ofSigned 64 m8), (64, 32, tx), (96, 32, rx), (128, 32, min 0xFFFFFFFF (rms8 ms)),
          (160, 32, ms.length)]) h

/-! ## Frames sent (R229 to R235, R244 to R248) -/

/-- A block slot, 6.4 ns, in tenths of a fu (R228). -/
def slot10 : Int := 64 * 65536

/-- Block slots between two instants, fu. -/
def slotsFrom (a b : Int) : Int := rdiv ((b - a) * 10) slot10

/-- The IDLE frames that have filled a port's line up to the instant dep (nominal fu), since its last frame (R232). -/
def Link.idleTo (l : Link) (dep : Int) : Nat :=
  match l.lineEnd with
  | some e => (slotsFrom e dep).toNat
  | none => 0

/-- A frame as it leaves on a port at dep (nominal fu), with its CRC and its blocks. -/
def Hub.frameOp (h : Hub) (n : Fin 48) (dep : Int) (b : Bytes) : WireOp :=
  .frame n (h.links[n].idleTo dep) (withCrc b) (lineOf (Config.scrambled n h.wire.length) (withCrc b))

/-- Send a frame on a port at dep, or once the frame in progress has ended. -/
def sendFrame (n : Fin 48) (dep : Int) (b : Bytes) (h : Hub) : Hub :=
  { h with wire := h.frameOp n dep b :: h.wire }.onLink n fun l =>
    { l with lineEnd := some (max dep (l.lineEnd.getD dep) + rdiv ((b.length + 4) / 8 * slot10) 10) }

/-- A Ternen port transmits: neither OFF nor squelched. -/
def Link.sends (l : Link) : Bool := l.ternen && l.state != LinkState.off && !l.squelch

/-- The flag byte of TMARK. -/
def Hub.markFlags (h : Hub) (n : Fin 48) : Byte :=
  BitVec.ofNat 8 (atB 3 h.calStale + atB 2 h.notWarm + atB 1 h.sendsHoldover + atB 0 (h.sendsUntrusted n))

/-- 10 µs in fu. -/
def markFu : Int := 655360000

/-- The TOD frame that follows the mark of index 0 (R229). -/
def todFrame (h : Hub) (n : Fin 48) (seq : BitVec 16) (grid : Int) : Bytes :=
  [0x53, BitVec.ofNat 8 (atB 1 h.sendsHoldover + atB 0 (h.sendsUntrusted n))] ++ leBytes 2 seq.toNat ++ leBytes 4 h.teSent
    ++ leBytes 16 (fullTimeOf grid 0 h.dom0.quality (h.timeFlags h.dom0)).toNat ++ [0, 0, 0, 0]

/-- A stamp of a lane, or of the Causeway lane that carries it, in DOM[0] time and in nominal time, fu, at the lane's own stamp point
(R99, R231). -/
def Hub.dom0Stamp (h : Hub) (lane : Fin 192) (st : Stamp) : Int := rdiv (h.domStamp h.dom0 (h.laneUsed lane) st) fuU
def Hub.lineStamp (h : Hub) (lane : Fin 192) (st : Stamp) : Int := rdiv (h.nomStamp (h.laneUsed lane) st) fuU

/-- The two slots of the last TMARK and of the last TECHO are over at dep, so that no timing frame is still in progress (R232, R234). -/
def Link.slotFree (l : Link) (dep : Int) : Bool :=
  (match l.prevMark with
    | some p => decide (2 ≤ slotsFrom p dep)
    | none => true) &&
  match l.prevEcho with
  | some (_, _, p) => decide (2 ≤ slotsFrom p dep)
  | none => true

/-- An echo is due in the slot of dep or before it, and may still leave in time: it goes before a TMARK (R232, R234). -/
def Link.echoFirst (l : Link) (dep : Int) : Bool :=
  l.echoDue.any fun e => decide (e.2 + 2000 * 65536 ≤ dep) && decide ((dep - e.2) * 10 < 20128 * 65536)

/-- A TMARK leaves, stamped at st: within 19.2 ns of the grid instant of DOM[0] before it, and not where that instant falls
less than 5 µs after the previous mark's departure (R233), nor in a slot of a TECHO (R232). The mark of index 0 is followed by the TOD
frame. -/
def tmarkSend (n : Fin 48) (st : Stamp) (h : Hub) : Hub :=
  let h := advanceTo st.cyc h
  let l := h.links[n]
  let t := h.dom0Stamp (laneOfTx n) st
  let dep := h.lineStamp (laneOfTx n) st
  let lag := t.emod markFu
  let grid := t - lag
  let early := match l.prevMark with
    | some p => decide (dep - lag - p < markFu / 2)
    | none => false
  if h.runs && h.rootActive && l.sends && !early && decide (lag * 10 < 192 * 65536) && l.slotFree dep && !l.echoFirst dep then
    let index := (grid.emod secFu / markFu).toNat
    let h := sendFrame n dep ([0x51, h.markFlags n] ++ leBytes 2 l.txSeq.toNat ++ leBytes 4 index
      ++ leBytes 4 (l.prevLag.getD 0xFFFFFFFF)) h
    let h := h.onLink n fun l =>
      { l with txSeq := l.txSeq + 1, prevLag := some lag.toNat, prevMark := some dep, departs := ((l.txSeq, dep) :: l.departs).take 512 }
    notePair (laneOfTx n) st (if index = 0 then sendFrame n dep (todFrame h n l.txSeq grid) h else h)
  else h

/-- The marks whose echoes may still leave at dep or after it: turnarounds are less than 2,012.8 ns (R234). -/
def echoesLeft (dep : Int) (l : List (BitVec 16 × Int)) : List (BitVec 16 × Int) :=
  l.filter fun e => decide ((dep - e.2) * 10 < 20128 * 65536)

/-- A TECHO leaves, stamped at st, for the oldest mark that waits: its turnaround is 2,000 ns to 2,012.8 ns (R234). Marks whose time is
past are not echoed any more. -/
def techoSend (n : Fin 48) (st : Stamp) (h : Hub) : Hub :=
  let h := advanceTo st.cyc h
  let l := h.links[n]
  let dep := h.lineStamp (laneOfTx n) st
  match echoesLeft dep l.echoDue with
  | [] => h
  | (seq, arr) :: rest =>
    let ta := dep - arr
    if h.runs && h.rootActive && l.sends && decide (2000 * 65536 ≤ ta) && l.slotFree dep then
      let prev := match l.prevEcho with
        | some (q, v, at_) => if dep - at_ ≤ 3 * markFu then some (q, v) else none
        | none => none
      let body := match prev with
        | some (q, v) => [0x52, 1] ++ leBytes 2 seq.toNat ++ leBytes 2 q.toNat ++ leBytes 6 v
        | none => [0x52, 0] ++ leBytes 2 seq.toNat ++ leBytes 8 0
      notePair (laneOfTx n) st ((sendFrame n dep body h).onLink n fun l =>
        { l with echoDue := rest, prevEcho := some (seq, ta.toNat, dep) })
    else h

/-- The STAT frame (R235). -/
def statFrame (h : Hub) (n : Fin 48) : Bytes :=
  let l := h.links[n]
  [0x55, BitVec.ofNat 8 (at_ 6 2 h.hier.role.stat + atB 2 (h.follows n) + atB 1 h.isSafe + atB 0 (h.sendsUntrusted n))]
    ++ leBytes 2 (at_ 12 4 h.dom0.hops.toNat + h.hier.addr.toNat) ++ [BitVec.ofNat 8 l.state.code, 0] ++ leBytes 2 l.nonce.toNat
    ++ leBytes 4 (rdiv (h.dtx8 n) 256).toNat ++ leBytes 4 (rdiv (h.drx8 n) 256).toNat ++ leBytes 6 (ofSigned 48 l.app)
    ++ leBytes 2 l.appSec.toNat ++ leBytes 2 l.ackMsg.toNat ++ leBytes 2 l.ackSeg.toNat

/-- HIER_EVT.loop: a port both sends and receives the follows bit (R273). -/
def checkLoop (n : Fin 48) (h : Hub) : Hub := if h.follows n && h.links[n].peerFollows then raiseHier (bit16 6) h else h

/-- A frame of this many blocks begun now ends before the slots that are reserved for timing frames: the next grid instant of DOM[0],
and the echoes that are due (R232). -/
def Hub.lineFree (h : Hub) (n : Fin 48) (blocks : Nat) : Bool :=
  let l := h.links[n]
  let start := max h.nomFu (l.lineEnd.getD h.nomFu)
  let len := start - h.nomFu + rdiv (blocks * slot10) 10
  let rest := (-(toFu (h.dom0.secs * secU + h.dom0.sub))).emod markFu
  (rest == 0 || decide (len ≤ rest)) && l.echoDue.all fun e =>
    decide (h.nomFu + len ≤ e.2 + 2000 * 65536) || decide (20128 * 65536 ≤ (h.nomFu - e.2) * 10)

/-- A STAT frame leaves, one every 1 ms (R229). -/
def statFrameSend (n : Fin 48) (h : Hub) : Hub :=
  when_ (h.runs && h.links[n].sends && h.links[n].statDue && h.lineFree n 4)
    (fun h => checkLoop n ((sendFrame n h.nomFu (statFrame h n) h).onLink n fun l => { l with statDue := false })) h

/-- Segments sent and not acknowledged. -/
def unacked (q : List MgmtTx) : Nat := (q.map fun t => t.sent - t.acked).sum

/-- The rate limit's credit at root cycle c: 2,000,000 bytes a second, one in 750 cycles, at most 4 KiB (R249). -/
def Link.creditNow (l : Link) (c : Nat) : Nat := min 4096 (l.credit + (c - l.creditAt) / 750)

/-- A MGMT frame (R247). -/
def mgmtFrame (t : MgmtTx) (seg : Nat) : Bytes :=
  let b := t.segs.getD seg []
  let pad := (8 - b.length % 8) % 8
  [0x54, BitVec.ofNat 8 (atB 1 (seg + 1 == t.segs.length) + atB 0 (seg == 0))] ++ leBytes 2 b.length ++ leBytes 2 t.dst.toNat
    ++ leBytes 2 t.src.toNat ++ leBytes 2 t.id.toNat ++ leBytes 2 seg ++ [0, 0, 0, 0] ++ b ++ List.replicate (pad + 4) 0

/-- The next segment is sent, once no STAT frame is due (R232): at most 32 stand unacknowledged, and the rate limit has room (R248,
R249). A segment sent again is counted. The wait for an acknowledgement begins with the first of them. -/
def mgmtSegmentSend (n : Fin 48) (h : Hub) : Hub :=
  let l := h.links[n]
  match l.tx.findIdx? fun t => decide (t.sent < t.segs.length) with
  | none => h
  | some i =>
    match l.tx[i]? with
    | none => h
    | some t =>
      let len := (t.segs.getD t.sent []).length
      let credit := l.creditNow h.clk.cycles
      let free := !l.statDue && h.lineFree n (3 + (len + 7) / 8)
      if h.runs && l.sends && l.mgmtOpen && free && decide (unacked l.tx < 32) && decide (len ≤ credit) then
        (sendFrame n h.nomFu (mgmtFrame t t.sent) h).onLink n fun l =>
          { l with
            ackAt := if unacked l.tx = 0 then h.clk.cycles else l.ackAt
            tx := l.tx.set i { t with sent := t.sent + 1, high := max t.high (t.sent + 1) }
            cntMgmt := if t.sent < t.high then satInc32 l.cntMgmt else l.cntMgmt
            credit := credit - len, creditAt := h.clk.cycles }
      else h

/-- The acknowledgement has not advanced for 3 ms: everything unacknowledged is sent again (R248). -/
def mgmtResendTimeout (n : Fin 48) (h : Hub) : Hub :=
  let l := h.links[n]
  when_ (h.runs && l.mgmtOpen && decide (0 < unacked l.tx)) (atCyc (l.ackAt + 3 * tickCycles) fun h =>
    let now := h.clk.cycles
    h.onLink n fun l => { l with tx := l.tx.map fun t => { t with sent := t.acked }, ackAt := now }) h

/-! ## Marks received (R234, R237 to R242) -/

/-- A frame with a wrong CRC, or with an invalid block, is discarded whole and counted (R230). -/
def badFrame (n : Fin 48) (h : Hub) : Hub := h.onLink n fun l => { l with cntCrc := satInc32 l.cntCrc }

/-- A Ternen port that takes frames: ALIGNING or above, with block lock. -/
def Hub.receives (h : Hub) (n : Fin 48) : Bool :=
  let l := h.links[n]
  h.runs && l.ternen && l.blockLock && l.state.lit

/-- Serve a frame of this type: its bytes, once its blocks and its CRC are good; good frames of other types, IDLE among them, do
nothing here. -/
def takeFrame (n : Fin 48) (type : Byte) (x : Line) (f : Bytes → Hub → Hub) (h : Hub) : Hub :=
  if h.receives n then
    match lineBytes x with
    | none => badFrame n h
    | some b => if !crcOk b then badFrame n h else if byteAt b 0 = type then f b h else h
  else h

/-- Trust and holdover flags of a good frame (R244): from the first that carries untrusted, the port's slots are
disqualified with cause 12. -/
def peerTrust (n : Fin 48) (untrusted : Bool) (h : Hub) : Hub :=
  let was := h.links[n].peerUntrusted
  let h := h.onLink n fun l => { l with peerUntrusted := untrusted }
  if untrusted && !was then forEach (h.lrefs n) (fun s => disqualify s 12) (raiseLnk n (bit16 7) h) else h

def peerHolds (n : Fin 48) (b : Bool) (h : Hub) : Hub := h.onLink n fun l => { l with peerHoldover := b }

/-- Consecutive seq and consistent index against the mark before (R242). -/
def Link.follows? (l : Link) (seq : BitVec 16) (index : Nat) : Bool :=
  match l.rxSeq with
  | some q => seq == q + 1 && index == (l.rxIndex + 1) % 100000
  | none => false

/-- The lag of the mark before arrives with this one: its x gives a term of the millisecond's mean, and the mark of index
0 its departure (R240, R246). -/
def Link.takeLag (l : Link) (seq : BitVec 16) (lag : Nat) : Link :=
  match l.markWait with
  | some (q, index, t) =>
    if seq = q + 1 ∧ lag ≠ 0xFFFFFFFF then
      let l := match l.todSecs with
        | some s => { l with xSum := l.xSum + (t - (s * secFu + index * markFu + lag)), tSum := l.tSum + t, xN := l.xN + 1 }
        | none => l
      if index = 0 then { l with mark0 := l.mark0.map fun p => if p.2.2 then p else (p.1, p.2.1 - lag, true) } else l
    else l
  | none => l

/-- The last 100 ms of mark arrivals, with the marks counted from the oldest. -/
def Link.takeArrival (l : Link) (seq : BitVec 16) (t : Int) : Link :=
  let k : Int := match l.arrivals, l.rxSeq with
    | (j, _) :: _, some q => j + (seq - q).toNat
    | _, _ => 0
  { l with arrivals := (k, t) :: l.arrivals.filter fun p => decide (t - p.2 < 10000 * markFu) }

/-- A looped-back port matches a mark to its own departure (R257). -/
def Link.takeLoop (l : Link) (seq : BitVec 16) (t : Int) : Link :=
  if l.loopback then
    match l.loop, l.departs.find? fun p => p.1 == seq with
    | some (id, ms), some p => { l with loop := some (id, (t - p.2) :: ms) }
    | _, _ => l
  else l

/-- ALIGNING becomes SYNTONISED after 1,000 consecutive good marks, own nonce not seen (R242). -/
def trySyntonise (n : Fin 48) (h : Hub) : Hub :=
  let l := h.links[n]
  if l.state == LinkState.aligning && l.blockLock && decide (1000 ≤ l.goodMarks) && !l.loopback then enterLink n .syntonised h else h

/-- A good TMARK, stamped at st: counted, kept for its echo, for y and for its lag. -/
def takeMark (n : Fin 48) (b : Bytes) (st : Stamp) (h : Hub) : Hub :=
  let fl := byteAt b 1
  let seq := BitVec.ofNat 16 (leAt b 2 2)
  let index := leAt b 4 3 % 2 ^ 17
  let t := h.lineStamp (laneOfRx n) st
  let t0 := h.dom0Stamp (laneOfRx n) st
  let now := h.clk.cycles
  let h := h.onLink n fun l =>
    let missed := match l.rxSeq with
      | some q => (seq - q - 1).toNat
      | none => 0
    let good := l.follows? seq index
    let l := { (((l.takeLag seq (leAt b 8 4)).takeArrival seq t).takeLoop seq t) with cntMark := satAdd 0xFFFFFFFF l.cntMark missed }
    { l with
      goodMarks := if good then l.goodMarks + 1 else 1, rxSeq := some seq, rxIndex := index, markWait := some (seq, index, t)
      echoDue := l.echoDue ++ [(seq, t)], mark0 := if index = 0 then some (seq, t0, false) else l.mark0, markAt := now }
  trySyntonise n (peerTrust n (fl.getLsbD 0) (peerHolds n (fl.getLsbD 1) h))

def tmarkReceived (n : Fin 48) (frame : Line) (st : Stamp) (h : Hub) : Hub :=
  let h := advanceTo st.cyc h
  takeFrame n 0x51 frame (fun b h => notePair (laneOfRx n) st (takeMark n b st h)) h

/-! ## Echoes received (R236 to R238) -/

/-- 5.0 ms and 50 ns in fu. -/
def rtMax : Int := 327680000000
def echoWindow : Int := 3276800

/-- The coarse phase begins again after 64 marks (R237): a TIMED port goes to RANGING with cause 4. -/
def coarseAgain (n : Fin 48) (h : Hub) : Hub :=
  if 64 ≤ h.links[n].missRun then
    let h := h.onLink n fun l => { l with windowed := false, rtPred := none, missRun := 0, echoed := none }
    if h.links[n].state == LinkState.timed then fallTo n .ranging (some 4) h else h
  else h

/-- The TA that the TECHO carries makes the round trip before it usable (R238). -/
def Link.takeTa (l : Link) (b : Bytes) (t : Int) : Link :=
  match l.rtWait with
  | some (q, rt, a) =>
    if (byteAt b 1).getLsbD 0 && BitVec.ofNat 16 (leAt b 4 2) == q && decide (t - a ≤ 3 * markFu) then
      { l with usable := (rt, (leAt b 6 6 : Int)) :: l.usable, rtN := l.rtN + 1, lastTa := leAt b 6 6, rtWait := none }
    else { l with rtWait := none }
  | none => l

/-- Seq b comes after seq a. -/
def seqAfter (a b : BitVec 16) : Bool := inRange (b - a).toNat 1 32767

/-- The echo of mark seq has been counted. -/
def Link.counted (l : Link) (seq : BitVec 16) : Bool :=
  match l.echoed with
  | some q => !seqAfter q seq
  | none => false

/-- The echo of mark seq has come, or is counted as missing. -/
def Link.noteEcho (l : Link) (seq : BitVec 16) : Link := if l.counted seq then l else { l with echoed := some seq }

/-- A good TECHO, stamped at st: it stops the mark that it names, within the window once there is one. An echo that comes
after its mark was counted as missing is not counted in the run again. -/
def takeEcho (n : Fin 48) (b : Bytes) (st : Stamp) (h : Hub) : Hub :=
  let seq := BitVec.ofNat 16 (leAt b 2 2)
  let t := h.lineStamp (laneOfRx n) st
  let h := h.onLink n fun l => l.takeTa b t
  let l := h.links[n]
  match l.departs.find? fun p => p.1 == seq with
  | none => h
  | some p =>
    let rt := t - p.2
    if !l.state.synced then h
    else match (if l.windowed then l.rtPred else none) with
      | none =>
        if decide (0 ≤ rt) && decide (rt ≤ rtMax) then
          let h := h.onLink n fun l =>
            { l with rtPred := some rt, windowed := true, missRun := 0, echoed := some seq, rtWait := some (seq, rt, t), lastRt := rt }
          if l.state == LinkState.syntonised then enterLink n .ranging h else h
        else h
      | some pred =>
        if (rt - pred).natAbs ≤ echoWindow && decide (rt ≤ rtMax) then
          h.onLink n fun l => { l.noteEcho seq with rtPred := some rt, missRun := 0, rtWait := some (seq, rt, t), lastRt := rt }
        else
          coarseAgain n (h.onLink n fun l =>
            { l.noteEcho seq with cntMiss := satInc32 l.cntMiss, missRun := if l.counted seq then l.missRun else l.missRun + 1 })

def techoReceived (n : Fin 48) (frame : Line) (st : Stamp) (h : Hub) : Hub :=
  let h := advanceTo st.cyc h
  takeFrame n 0x52 frame (fun b h => notePair (laneOfRx n) st (takeEcho n b st h)) h

/-- The oldest mark whose echo has neither come nor been counted as missing: its seq and its departure. -/
def Link.waitsFor (l : Link) : Option (BitVec 16 × Int) := (l.departs.filter fun p => !l.counted p.1).getLast?

/-- An echo has not arrived by 50 ns after its mark's departure and RT_pred (R237). -/
def echoMissing (n : Fin 48) (h : Hub) : Hub :=
  let l := h.links[n]
  match (if l.windowed then l.rtPred else none), l.waitsFor with
  | some pred, some (seq, dep) =>
    if h.runs && l.ternen && l.state.synced then
      match reachNom (dep + pred + echoWindow + 1) h with
      | some h => coarseAgain n (h.onLink n fun l => { l.noteEcho seq with missRun := l.missRun + 1 })
      | none => h
    else h
  | _, _ => h

/-! ## TOD, STAT and MGMT received -/

/-- A good TOD frame: the seconds of the peer's grid, the mark of index 0 that they are the time of, its bound and its flags. Two frames whose seconds follow are
consistent (R130); one that does not follow starts the count anew, so that the slot's TOD is not valid until the next that does
(DESIGN CHOICE, log 79). -/
def takeTod (n : Fin 48) (b : Bytes) (h : Hub) : Hub :=
  let fl := byteAt b 1
  let time : BitVec 128 := BitVec.ofNat 128 (leAt b 8 16)
  let secs := fld time 80 48
  let h := h.onLink n fun l =>
    { l with
      todGood := if l.todSecs = some (secs - 1) ∧ 0 < secs then l.todGood + 1 else 1
      todSecs := some secs, todSeq := BitVec.ofNat 16 (leAt b 2 2), peerTod := time, peerTe := leAt b 4 4 }
  peerTrust n (fl.getLsbD 0) (peerHolds n (fl.getLsbD 1) h)

def todFrameReceived (n : Fin 48) (frame : Line) (h : Hub) : Hub := takeFrame n 0x53 frame (takeTod n) h

/-- The acknowledgement of a STAT frame: messages before the one it names, and that one up to the segment, have arrived. -/
def ackTx (id : BitVec 16) (seg : Nat) (q : List MgmtTx) : List MgmtTx :=
  if seg = 0xFFFF then q
  else match q.findIdx? fun t => t.id == id && decide (seg < t.high) with
    | none => q
    | some i => match q.drop i with
      | t :: rest =>
        if t.segs.length ≤ seg + 1 then rest
        else { t with acked := max t.acked (seg + 1), sent := max t.sent (seg + 1) } :: rest
      | [] => []

/-- The peer has drawn a new nonce: its port was OFF, so that its management state is cleared (R242). What it had acknowledged of the
message under way is sent again, and its next message is taken from its first segment (DESIGN CHOICE, log 85). -/
def Link.peerAnew (l : Link) : Link :=
  { l with tx := l.tx.map (fun t => { t with sent := 0, acked := 0 }), rx := none, ackMsg := 0, ackSeg := 0xFFFF, ackLast := false }

/-- A good STAT frame (R235): the peer's delays, role, nonce, flags and acknowledgement; own nonce seen is a loopback
(R242). Changes of the peer's delays are known changes of F and D. -/
def takeStat (n : Fin 48) (b : Bytes) (h : Hub) : Hub :=
  let fl := byteAt b 1
  let ha := leAt b 2 2
  let nonce := BitVec.ofNat 16 (leAt b 6 2)
  let l := h.links[n]
  let dt : Int := 256 * ((leAt b 8 4 : Int) - l.peerDtx)
  let dr : Int := 256 * ((leAt b 12 4 : Int) - l.peerDrx)
  let now := h.clk.cycles
  let h := h.onLink n fun l =>
    let l := if l.statSeen && nonce != l.peerNonce then l.peerAnew else l
    let tx := ackTx (BitVec.ofNat 16 (leAt b 24 2)) (leAt b 26 2) l.tx
    { l with
      ackAt := if tx = l.tx then l.ackAt else now
      statSeen := true, peerRole := BitVec.ofNat 2 (fld fl 6 2), peerFollows := fl.getLsbD 2, peerSafe := fl.getLsbD 1
      peerHop := BitVec.ofNat 4 (ha / 4096), peerAddr := BitVec.ofNat 12 ha, peerState := byteAt b 4, peerNonce := nonce
      loopback := nonce == l.nonce, peerDtx := leAt b 8 4, peerDrx := leAt b 12 4, peerApp := toSigned 48 (leAt b 16 6)
      peerAppSec := BitVec.ofNat 16 (leAt b 22 2), tx }
  let h := if l.statSeen then shiftDelays n (dt + dr) dt 0 h else h
  trySyntonise n (checkLoop n (peerTrust n (fl.getLsbD 0) h))

def statFrameReceived (n : Fin 48) (frame : Line) (h : Hub) : Hub := takeFrame n 0x55 frame (takeStat n) h

/-- The segment follows the last one in order (R248): the next of its message, or the first of the next message; before any, the first
of a message. -/
def Link.inOrder (l : Link) (id : BitVec 16) (seg : Nat) : Bool :=
  if l.ackSeg = 0xFFFF then seg == 0
  else if l.ackLast then seg == 0 && id == l.ackMsg + 1
  else id == l.ackMsg && seg == l.ackSeg.toNat + 1

/-- A good MGMT segment (R248): one in order is acknowledged and joins its message, unless 100 ms have discarded that; the last delivers
it. Any other is discarded. -/
def takeSegment (n : Fin 48) (b : Bytes) (h : Hub) : Hub :=
  let l := h.links[n]
  let len := leAt b 2 2 % 512
  let dst := BitVec.ofNat 12 (leAt b 4 2)
  let src := BitVec.ofNat 12 (leAt b 6 2)
  let id := BitVec.ofNat 16 (leAt b 8 2)
  let seg := leAt b 10 2
  let data := slice b 16 len
  let last := (byteAt b 1).getLsbD 1
  let first := (byteAt b 1).getLsbD 0
  let now := h.clk.cycles
  if l.mgmtOpen && inRange len 1 256 && (last || len == 256) && decide (seg < 64) && first == (seg == 0) && l.inOrder id seg then
    let rx := if seg = 0 then some (dst, src, id, [data]) else l.rx.map fun m => (m.1, m.2.1, m.2.2.1, m.2.2.2 ++ [data])
    let h := h.onLink n fun l =>
      { l with
        ackMsg := id, ackSeg := BitVec.ofNat 16 seg, ackLast := last, rx := if last then none else rx
        rxAt := if seg = 0 then now else l.rxAt }
    match rx with
    | some m => if last then takeMessage n m.1 m.2.1 m.2.2.2.flatten h else h
    | none => h
  else h

def mgmtSegmentReceived (n : Fin 48) (frame : Line) (h : Hub) : Hub := takeFrame n 0x54 frame (takeSegment n) h

/-- A message has not been completed within 100 ms of its first segment (R248). -/
def mgmtMessageTimeout (n : Fin 48) (h : Hub) : Hub :=
  let l := h.links[n]
  when_ (h.runs && l.rx.isSome) (atCyc (l.rxAt + 100 * tickCycles) fun h => h.onLink n fun l => { l with rx := none }) h

/-! ## Signal, lock, sideband and modules (R242, R250, R251) -/

/-- Block lock: frames are taken, and an Ethernet port is up (R242). -/
def blockLock (n : Fin 48) (h : Hub) : Hub :=
  let l := h.links[n]
  if h.runs && l.state == LinkState.aligning then
    let h := h.onLink n fun l => { l with blockLock := true, prevEcho := none }
    if l.eth then ptpLink n (enterLink n .ethUp h) else trySyntonise n h
  else h

/-- Block lock is lost: above ALIGNING the port goes there, with cause 2 out of TIMED. -/
def blockLockLost (n : Fin 48) (h : Hub) : Hub :=
  let l := h.links[n]
  if !(h.runs && l.blockLock) then h
  else if l.state == LinkState.aligning then h.onLink n fun l => { l with blockLock := false, goodMarks := 0, rxSeq := none, arrivals := [] }
  else when_ l.state.lit (dropTo n .aligning 2) h

/-- No signal at the receiver for 1 µs. -/
def receiverSignalLost (n : Fin 48) (h : Hub) : Hub :=
  when_ h.runs (fun h =>
    let h := h.onLink n fun l => { l with signal := false }
    if h.links[n].state.lit then dropTo n .down 1 h else h) h

/-- Signal at the receiver. -/
def receiverSignalDetected (n : Fin 48) (h : Hub) : Hub :=
  when_ h.runs (fun h => linkRise n (h.onLink n fun l => { l with signal := true })) h

/-- No good TMARK for 30 µs. -/
def marksMissingTimeout (n : Fin 48) (h : Hub) : Hub :=
  when_ (h.runs && h.links[n].state.synced) (atCyc (h.links[n].markAt + 45000) fun h =>
    let lock := h.links[n].blockLock
    (dropTo n .aligning 3 h).onLink n fun l => { l with blockLock := lock }) h

/-- One port's three inputs in a scan: an input has changed when two scans agree (R250). A module inserted or removed, a
rise of TX_FAULT, and LOS or MOD_ABS asserted act as R242 and R243 give. -/
def sbxPort (n : Fin 48) (los fault absent : Bool) (h : Hub) : Hub :=
  let l := h.links[n]
  let los' := if los == l.rawLos then los else l.los
  let fault' := if fault == l.rawFault then fault else l.txFault
  let abs' := if absent == l.rawAbs then absent else l.modAbs
  let h := h.onLink n fun l => { l with rawLos := los, rawFault := fault, rawAbs := absent, los := los', txFault := fault', modAbs := abs' }
  let h := if abs' != l.modAbs then raiseLnk n (bit16 9) h else h
  let h := if fault' && !l.txFault && l.state != LinkState.off then
      sendFault (srcLink n) .linkDown accNone mInternal 6 (raiseLnk n (bit16 8) h)
    else h
  if (los' || abs') && l.state.lit then dropTo n .down 1 h else linkRise n h

/-- A sideband chain shifts its 48 bits. -/
def sbxScan (c : Fin 4) (bits : BitVec 48) (h : Hub) : Hub :=
  when_ h.runs (fun h => forEach (allFin 12) (fun (p : Fin 12) h =>
    sbxPort ⟨12 * c.val + p.val, by omega⟩ (bits.getLsbD (4 * p)) (bits.getLsbD (4 * p + 1)) (bits.getLsbD (4 * p + 2)) h) h) h

/-- The module's bytes go to the cache, or the read failed three times (R251). -/
def i2cModulePoll (n : Fin 48) (dev : Fin 2) (data : Option Bytes) (h : Hub) : Hub :=
  if h.runs && pb h.links[n].cfg 1 4 then
    match data with
    | none => raiseLnk n (bit16 10) h
    | some b => h.onLink n fun l =>
      if dev = 0 then { l with modA0 := slice b 0 256 }
      else { l with modA2 := List.replicate 96 0 ++ slice b 0 16 ++ List.replicate 144 0 }
  else h

/-! ## The LINK task at the 1 ms tick (R239, R240, R242) -/

/-- y from the least-squares slope of arrivals against 10 µs × seq, 2^-16 ppt. -/
def slopeArrivals (l : List (Int × Int)) (old : Int) : Int :=
  let n : Int := l.length
  let sk := (l.map (·.1)).sum
  let st := (l.map (·.2)).sum
  let skt := (l.map fun p => p.1 * p.2).sum
  let skk := (l.map fun p => p.1 * p.1).sum
  let den := n * skk - sk * sk
  if den = 0 then old else rdiv ((n * skt - sk * st - den * markFu) * (2 ^ 16 * 10 ^ 12)) (den * markFu)

/-- F of a millisecond's usable round trips, 2^-8 fu. -/
def fibreRound (l : Link) (fixed : Int) : Int :=
  let k : Int := 2 ^ 16 * 10 ^ 12
  let rt := (l.usable.map (·.1)).sum
  let ta := (l.usable.map (·.2)).sum
  rdiv (256 * (rt * k - ta * (k + l.y))) (l.usable.length * (k + l.y)) - fixed

/-- 20 ps in 2^-8 fu is 335.5: the widest span of whole values (R242). -/
def spanMax : Int := 335

/-- The last 100 values of F allow TIMED. -/
def Link.settled (l : Link) : Bool :=
  l.fs.length == 100 && l.fs.all (fun v => decide (50 ≤ v.2)) && l.statSeen && !l.loopback &&
  match l.fs.map (·.1) with
  | [] => false
  | v :: vs => decide (vs.foldl max v - vs.foldl min v ≤ spanMax)

/-- A new value of F: d_in and D, the step check, and TIMED. A changed α on a TIMED port is in force from it, and its change
of D is delivered. -/
def newF (n : Fin 48) (h : Hub) : Hub :=
  let l := h.links[n]
  let f := fibreRound l (h.dtx8 n + h.drx8 n + 256 * (l.peerDtx + l.peerDrx : Nat))
  let d := delayOf f l.alphaSet (256 * l.peerDtx) (h.drx8 n)
  let step := match l.fs.head? with
    | some p => decide (256 * l.stepLimit < (f - p.1).natAbs)
    | none => false
  let timed := l.state == LinkState.timed
  let change := if timed && l.alpha != l.alphaSet then rdiv (d - delayOf f l.alpha (256 * l.peerDtx) (h.drx8 n)) 256 else 0
  let h := h.onLink n fun l =>
    { l with f, d, dIn := rdiv (f * 2 ^ 46) l.alphaSet, alpha := l.alphaSet, fs := ((f, l.usable.length) :: l.fs).take 100 }
  let h := settleAlpha n (deliverDelay n change h)
  if timed && step then fallTo n .ranging (some 5) h
  else if l.state == LinkState.ranging && h.links[n].settled then
    (enterLink n .timed h).onLink n fun l => { l with base := none, delta := 0, asymSent := false }
  else h

/-- The sample of the millisecond goes to the port's slots while the port is TIMED. -/
def deliverSample (n : Fin 48) (h : Hub) : Hub :=
  let l := h.links[n]
  if l.state == LinkState.timed && decide (0 < l.xN) then
    let x := rdiv (rdiv (256 * l.xSum) l.xN - l.d) 256
    let t := rdiv l.tSum l.xN
    forEach (h.lrefs n) (fun s h => h.onRef s fun r => { r with due := some (x, t) }) h
  else h

/-- The LINK task of a port runs. -/
def Hub.linkRuns (h : Hub) (n : Fin 48) : Bool := h.taskRuns n

/-- One millisecond of a port: a STAT frame is due; and of its LINK task; a task that is being restored holds D and delivers nothing (R252). -/
def linkTick (n : Fin 48) (h : Hub) : Hub :=
  let l := h.links[n]
  let clear (h : Hub) : Hub := h.onLink n fun l => { l with usable := [], xSum := 0, tSum := 0, xN := 0, statDue := l.sends }
  if l.ternen && l.state.synced && h.linkRuns n then
    let h := h.onLink n fun l => { l with usableLast := l.usable.length, y := slopeArrivals l.arrivals l.y }
    let h := if 10 ≤ l.usable.length then newF n h else h
    clear (deliverSample n h)
  else clear h

/-! ## The asymmetry alarm at the 1 s tick (R246) -/

/-- The port measures its apparent delay d′ while TIMED, where a mark of index 0 arrived in the last second, and the TOD frame that
names it; else it has not measured it (R235, R246). -/
def takeApp (n : Fin 48) (h : Hub) : Hub :=
  h.onLink n fun l =>
    let none_ := { l with app := 0, appSec := 0, mark0 := none }
    match l.mark0, l.todSecs with
    | some (q, t, true), some s =>
      if q = l.todSeq ∧ l.state = .timed then
        { l with app := t - s * secFu, appSec := BitVec.ofNat 16 (t.fdiv secFu % 2 ^ 16).toNat, mark0 := none }
      else none_
    | _, _ => none_

/-- The domain state code in the quality byte of the peer's DOM[0] time (R10, R235). -/
def Link.peerDomState (l : Link) : Nat := fld l.peerTod 21 3

/-- The alarm is evaluated: neither end follows the other, both DOM[0] are in TRACK, neither is untrusted, and both ends have measured
(a zero app_delay is none, R235). -/
def Hub.asymReady (h : Hub) (n : Fin 48) : Bool :=
  let l := h.links[n]
  l.state == LinkState.timed && l.statSeen && !h.follows n && !l.peerFollows && h.dom0.state == .track
  && l.todSecs.isSome && l.peerDomState == DomState.track.code && !h.sendsUntrusted n && !l.peerUntrusted && l.app != 0 && l.peerApp != 0

/-- Δ of R246, fu. -/
def Hub.asymDelta (h : Hub) (n : Fin 48) : Int :=
  let l := h.links[n]
  let dOut := h.dtx8 n + rdiv (l.dIn * ((l.alpha : Int) - 2 ^ 46)) (2 ^ 46) + 256 * l.peerDrx
  rdiv (256 * (l.app - l.peerApp) - (l.d - dOut)) 512

/-- One second of a port. -/
def asymTick (n : Fin 48) (h : Hub) : Hub :=
  let h := takeApp n h
  if !h.asymReady n then h.onLink n fun l => { l with asymObs := false }
  else
    let delta := h.asymDelta n
    let l := h.links[n]
    let base := l.base.getD delta
    let off := (delta - base).natAbs
    let alarm := l.asymLimit != 0 && decide (l.asymLimit < off)
    let fire := alarm && !l.asymSent
    let h := h.onLink n fun l =>
      { l with asymObs := true, delta, base := some base, asymSent := alarm || (l.asymSent && decide (l.asymLimit ≤ 2 * off)) }
    if fire then sendFault (srcLink n) .asymAlarm accNone mInternal 0 (raiseLnk n (bit16 6) h) else h

/-! ## Meanings -/

def execLinkConfig (o : Origin) (s : State) := run (linkConfig o) s
def execLinkCalSetExt (o : Origin) (s : State) := run (linkCalSetExt o) s
def execLinkCalLoopback (o : Origin) (s : State) := run (linkCalLoopback o) s
def execLinkCalRebase (o : Origin) (s : State) := run (linkCalRebase o) s
def execTmarkSend (n : Fin 48) (st : Stamp) (s : State) := run (tmarkSend n st) s
def execTechoSend (n : Fin 48) (st : Stamp) (s : State) := run (techoSend n st) s
def execStatFrameSend (n : Fin 48) (s : State) := run (statFrameSend n) s
def execMgmtSegmentSend (n : Fin 48) (s : State) := run (mgmtSegmentSend n) s
def execTmarkReceived (n : Fin 48) (frame : Line) (st : Stamp) (s : State) := run (tmarkReceived n frame st) s
def execTechoReceived (n : Fin 48) (frame : Line) (st : Stamp) (s : State) := run (techoReceived n frame st) s
def execTodFrameReceived (n : Fin 48) (frame : Line) (s : State) := run (todFrameReceived n frame) s
def execStatFrameReceived (n : Fin 48) (frame : Line) (s : State) := run (statFrameReceived n frame) s
def execMgmtSegmentReceived (n : Fin 48) (frame : Line) (s : State) := run (mgmtSegmentReceived n frame) s
def execBlockLock (n : Fin 48) (s : State) := run (blockLock n) s
def execBlockLockLost (n : Fin 48) (s : State) := run (blockLockLost n) s
def execReceiverSignalLost (n : Fin 48) (s : State) := run (receiverSignalLost n) s
def execReceiverSignalDetected (n : Fin 48) (s : State) := run (receiverSignalDetected n) s
def execMarksMissingTimeout (n : Fin 48) (s : State) := run (marksMissingTimeout n) s
def execEchoMissing (n : Fin 48) (s : State) := run (echoMissing n) s
def execMgmtResendTimeout (n : Fin 48) (s : State) := run (mgmtResendTimeout n) s
def execMgmtMessageTimeout (n : Fin 48) (s : State) := run (mgmtMessageTimeout n) s
def execLoopbackComplete (n : Fin 48) (s : State) := run (loopbackComplete n) s
def execSbxScan (c : Fin 4) (bits : BitVec 48) (s : State) := run (sbxScan c bits) s
def execI2cModulePoll (n : Fin 48) (dev : Fin 2) (data : Option Bytes) (s : State) := run (i2cModulePoll n dev data) s

end Sys2Proof.Machine
end

