-- ==== Sys2Proof/Machine/Causes.lean ====
section
/-!
DEFINITION. Severities and active causes: what a message's severity is (R408, R409), which of the messages handled are
still active and which sources count towards FLT_SAFE_STAT.active (R417), and the level of HEALTHY (R416).
-/

namespace Sys2Proof.Machine

/-! ## Severity -/

/-- The severity programmed for a source (R408): a written value of 5 to 7 acts as SAFE. -/
def Flt.sevOf (f : Flt) (source : Nat) : Nat := min 4 (fld (pick f.sev (source / 8) 0) (4 * (source % 8)) 3)

/-- The address lies in the FLT block (R409). -/
def inFlt (a : Nat) : Bool := decide (0x4000 ≤ a) && decide (a ≤ 0x5FFF)

/-- The message comes from a root. -/
def fromRoot (m : FaultMsg) : Bool := m.source == 0x220#12 || m.source == 0x221#12

/-- The cases of R409 that are SAFE whatever FLT_SEV holds. -/
def Hub.forced (h : Hub) (m : FaultMsg) : Bool :=
  m.kind == Kind.splitCharge
  || (m.kind == Kind.parity && inFlt m.address.toNat)
  || (m.kind == Kind.eccUe && m.source == 0x3FF#12)
  || (m.kind == Kind.lockLost && fromRoot m && !h.rootActive)

/-- The severity at which a message is handled (R408, R409): 0 IGNORE to 4 SAFE. -/
def Hub.severity (h : Hub) (m : FaultMsg) : Nat :=
  if h.forced m then 4
  else if m.kind == Kind.eccCe then min 1 (h.flt.sevOf m.source.toNat)
  else h.flt.sevOf m.source.toNat

/-! ## Active causes (R417) -/

/-- Index of a source within a range of source codes. -/
def srcIndex (n base source : Nat) : Option (Fin n) := if base ≤ source then finOf n (source - base) else none

/-- p of the instance that a source names; no instance, no cause. -/
def ofSource (n base source : Nat) (p : Fin n → Bool) : Bool :=
  match srcIndex n base source with
  | some i => p i
  | none => false

/-- LOCK_LOST lasts. -/
def Hub.lockOut (h : Hub) (source : Nat) : Bool :=
  (source == 0x220 && (h.clk.aState == .faulted || !h.rootActive))
  || (source == 0x221 && (h.clk.bState == .faulted || !h.rootActive))
  || ofSource 8 0x240 source (fun k => !h.clk.ladders.getLsbD k)
  || ofSource 96 0x100 source (fun n => h.dlls[n].frozen)

/-- ASYM_ALARM lasts: |Δ − Δ0| is at least half of asym_limit. -/
def Hub.asymOut (h : Hub) (n : Fin 48) : Bool :=
  decide (h.links[n].asymLimit ≤ 2 * (h.links[n].delta - h.links[n].base.getD 0).natAbs)

/-- The condition of R417 for a message's kind; a message of any other kind is active only while it is handled. -/
def Hub.lasts (h : Hub) (m : FaultMsg) : Bool :=
  let s := m.source.toNat
  match m.kind with
  | .lockLost => h.lockOut s
  | .refLost => ofSource 12 0x200 s fun r => h.refs[r].state != .qualified
  | .linkDown => ofSource 48 0x0C0 s fun n => h.links[n].state != .timed
  | .asymAlarm => ofSource 48 0x0C0 s h.asymOut
  | .holdoverOut => ofSource 16 0x210 s fun d => h.doms[d].state == .holdoverOut
  | .timeout => ofSource 64 0x160 s fun n => h.plss[n].anchorLost
  | .checkword => (s == srcCal && h.cal.loaded.isNone) || (s == srcShim && h.shim.loader)
  | .parity => h.top.parBad.contains m.address.toNat
  | .thermalWarn => h.pwr.temps.toList.any fun t => decide (1680 ≤ t)
  | .supply => !h.pwr.phaseA || !h.pwr.phaseB
  | .oven => h.clk.limited || (!h.clk.inBand && h.clk.everWarm)
  | .eccCe | .eccUe | .overflow | .watchdog | .splitCharge | .thermalTrip | .lockBroken | .poisonRead | .taskFail
  | .addrExhausted | .queueOverflow | .badDescriptor => false

/-- Two messages of one cause: the same source, kind and address. -/
def sameCause (a b : FaultMsg) : Bool := a.source == b.source && a.kind == b.kind && a.address == b.address

/-- Keep a handled message as a cause, with what it marked; an earlier message of the same cause gives way to it. -/
def keepCause (m : Stamped) (doms : BitVec 16) (link : Option (Fin 48)) (h : Hub) : Hub :=
  h.onFlt fun f =>
    let old := f.causes.find? fun c => sameCause c.msg.msg m.msg
    let was := match old with
      | some c => c.doms
      | none => 0
    let port := match old with
      | some c => c.link
      | none => none
    { f with causes := { msg := m, doms := was ||| doms, link := link.or port }
        :: f.causes.filter fun c => !sameCause c.msg.msg m.msg }

/-- Drop the causes whose condition has ended. -/
def pruneCauses (h : Hub) : Hub := h.onFlt fun f => { f with causes := f.causes.filter fun c => h.lasts c.msg.msg }

/-- The causes that are active now. -/
def Hub.activeCauses (h : Hub) : List Cause := h.flt.causes.filter fun c => h.lasts c.msg.msg

/-- The active cause counts towards FLT_SAFE_STAT.active: by its severity, a parity error in the FLT block, a root while
none is ACTIVE. -/
def Hub.countsSafe (h : Hub) (c : Cause) : Bool :=
  let m := c.msg.msg
  decide (4 ≤ h.flt.sevOf m.source.toNat)
  || (m.kind == Kind.parity && inFlt m.address.toNat)
  || (m.kind == Kind.lockLost && fromRoot m && !h.rootActive)

/-- The active causes that count. -/
def Hub.safeCauses (h : Hub) : List Cause := h.activeCauses.filter h.countsSafe

/-- The source codes counted, each once. -/
def Hub.safeSources (h : Hub) : List Nat := ((h.safeCauses.map fun c => c.msg.msg.source.toNat).eraseDups)

/-- The least of a list of source codes, 0 for none. -/
def leastNat : List Nat → Nat
  | [] => 0
  | x :: xs => xs.foldl min x

/-- The active cause of the lowest counted source. -/
def Hub.firstCause (h : Hub) : Option Cause :=
  h.safeCauses.find? fun c => c.msg.msg.source.toNat == leastNat h.safeSources

/-- FLT_SAFE_STAT. -/
def Hub.safeStat (h : Hub) : Nat :=
  let s := h.safeSources
  at_ 16 16 (min 0xFFFF s.length) + atB 15 (!s.isEmpty) + at_ 0 12 (leastNat s)

/-- HEALTHY is high: SERVICE with no SAFE condition (R416). -/
def Hub.healthy (h : Hub) : Bool := h.inMode .service && h.safeSources.isEmpty

/-- FAULT_N as sensed at the ball (R415). -/
def Hub.pinLow (h : Hub) : Bool := h.flt.driven || h.flt.extLow

/-- An active cause still marks DOM[m] (R176). -/
def Hub.domMarked (h : Hub) (m : Fin 16) : Bool := h.activeCauses.any fun c => c.doms.getLsbD m

/-- The ports of FLT_DEG_LNK[j] that an active cause still marks. -/
def Hub.linkMarks (h : Hub) (j : Fin 3) : BitVec 16 :=
  h.activeCauses.foldl (fun b c => match c.link with
    | some n => if n / 16 = j.val then b ||| bit16 (n % 16) else b
    | none => b) 0

end Sys2Proof.Machine
end

