-- ==== Sys2Proof/Machine/HostCmds.lean ====
section
/-!
DEFINITION. The commands of the host interface (chapter 10): NOP and READ_TIME, doorbells, descriptor fetch, the fast
path, errors on the bus, drained rings, coalescing, MSI-X masks, endpoint resets.
-/

namespace Sys2Proof.Machine

/-! ## NOP and READ_TIME (R338, R343) -/

def nopEff (d : Desc) (h : Hub) : Hub := complete d.id .ok h

/-- NOP. -/
def nop (o : Origin) (h : Hub) : Hub := serve o (isOp 0x01) nopEff h

/-- L minus the arrival of the doorbell, fu, where it fits in 32 bits; the spec states no value where it does not. -/
def latchField (cycles bell : Nat) : Nat :=
  let fu := rdiv (((cycles : Int) - bell) * 131072) 3
  if 0 ≤ fu ∧ fu < 2 ^ 32 then fu.toNat else (Config.latchOver fu).toNat

/-- The result field of READ_TIME at the present instant, L. -/
def readTimeResult (h : Hub) (d : Desc) : BitVec 192 :=
  let m : Fin 16 := ⟨pf d.payload 0 0 4 % 16, Nat.mod_lt _ (by decide)⟩
  resultOf [(0, 128, (h.fullTime m).toNat), (128, 32, latchField h.clk.cycles d.bell)]

def readTimeEff (cyc : Nat) (d : Desc) (h : Hub) : Hub :=
  let h := advanceTo cyc h
  completeWith d.id .ok (readTimeResult h d) h

/-- READ_TIME on a ring that is not fast. -/
def readTime (o : Origin) (cyc : Nat) (h : Hub) : Hub := serve o (isOp 0x02) (readTimeEff cyc) h

/-! ## Doorbells (R328, R329) -/

/-- BAR 2 offset of a ring's doorbell (R328). -/
def bellOffset : RingId → Nat
  | .cmd q => 0x000 + 4 * q
  | .cpl c => 0x100 + 4 * c
  | .str n => 0x200 + 4 * n
  | .tel t => 0x300 + 4 * t

/-- A ring that takes doorbells: enabled, in ERROR or not. -/
def Ring.open_ (r : Ring) : Bool :=
  match r.state with
  | .enabled | .error => true
  | .disabled | .draining => false

/-- An ignored doorbell: BAD_DESCRIPTOR. -/
def badBell (r : RingId) (h : Hub) : Hub := sendFault srcPcie .badDescriptor accWrite (Master.code .host) (bellOffset r) h

/-- The new index is consistent: command ring. -/
def Ring.takesProd (r : Ring) (v : BitVec 16) : Bool := decide ((v - r.prod).toNat ≤ r.room)

/-- The new index is consistent: hub-produced ring. -/
def Ring.takesCons (r : Ring) (v : BitVec 16) : Bool := decide ((v - r.cons).toNat ≤ r.held)

/-- BAR 2 can be reached: the endpoint is ready. -/
def Hub.linkUp (h : Hub) : Bool := h.runs && h.host.ready

/-- COMMAND_DOORBELL: arrives at root cycle cyc after the last tick. -/
def commandDoorbell (q : Fin 16) (v : Reg) (cyc : Nat) (h : Hub) : Hub :=
  when_ h.linkUp (fun h =>
    let h := advanceTo cyc h
    let p := v.extractLsb' 0 16
    let r := h.ring (.cmd q)
    if r.open_ && r.takesProd p then
      h.onRing (.cmd q) fun x => { x with prod := p, bells := if p = x.prod then x.bells else x.bells ++ [(p, h.clk.cycles)] }
    else badBell (.cmd q) h) h

/-- A stream ring with room again lets its channel go on (R87). -/
def streamRoom (r : RingId) (h : Hub) : Hub :=
  match r with
  | .str n => if 0 < (h.ring r).room then h.onEvt n fun c => { c with ringFull := false } else h
  | .cmd _ => h
  | .cpl _ => h
  | .tel _ => h

/-- The doorbell of a ring that the host consumes. -/
def takeCons (r : RingId) (v : Reg) (h : Hub) : Hub :=
  when_ h.linkUp (fun h =>
    let c := v.extractLsb' 0 16
    let x := h.ring r
    if x.open_ && x.takesCons c then streamRoom r (h.onRing r fun x => { x with cons := c }) else badBell r h) h

/-- CONSUMER_DOORBELL: a command ring has none. -/
def consumerDoorbell (r : RingId) (v : Reg) (h : Hub) : Hub :=
  match r with
  | .cmd _ => h
  | .cpl c => takeCons (.cpl c) v h
  | .tel t => takeCons (.tel t) v h
  | .str n => takeCons (.str n) v h

/-! ## Fetching (R342, R349, R350) -/

/-- Descriptors of command ring q in progress whose completion will be written. -/
def Hub.ringProgress (h : Hub) (q : Fin 16) : Nat := ((h.inProgress (.ring q)).filter fun d => !d.discard).length

/-- Slots of completion ring c promised to descriptors in progress. -/
def Hub.promised (h : Hub) (c : Fin 16) : Nat :=
  ((allFin 16).map fun q => if h.host.cmd[q].cq.toFin = c then h.ringProgress q else 0).sum

/-- A descriptor of ring q may be fetched: the ring is ENABLED with work, its completion ring has a slot, and fewer than 64
and 256 are in progress. -/
def Hub.mayFetch (h : Hub) (q : Fin 16) : Bool :=
  let r := h.ring (.cmd q)
  let c : Fin 16 := r.cq.toFin
  let x := h.ring (.cpl c)
  h.linkUp && r.state == .enabled && decide (0 < r.held) && x.state == .enabled && decide (h.promised c < x.room)
  && decide (h.ringProgress q < 64) && decide (h.host.inflight.length < 256)

/-- The rings that are not fast are fetched by a warden in charge, and not while a profile is to run or runs (R388). -/
def Hub.wardenFetches (h : Hub) : Bool := h.inCharge && !h.top.profileDue && h.shim.profRun.isNone

/-- Arrival of the doorbell that announced the descriptor at C. -/
def Ring.bellOf (r : Ring) : Nat :=
  match r.bells with
  | b :: _ => b.2
  | [] => 0

/-- C moves past one descriptor, and is written back. -/
def takeSlot (q : Fin 16) (h : Hub) : Hub :=
  idxWriteBack (.cmd q) (h.onRing (.cmd q) fun r =>
    { r with cons := r.cons + 1, bells := r.bells.filter fun b => b.1 != r.cons + 1 })

/-- A malformed descriptor: BAD_PARAM and BAD_DESCRIPTOR, and no other effect (R339). -/
def malformed (q : Fin 16) (index : BitVec 16) (fast : Bool) (d : Desc) (h : Hub) : Hub :=
  let h := sendFault srcPcie .badDescriptor accDmaRead (Master.code .host) (at_ 16 4 q + index.toNat) h
  if fast then postCompletion q true d .badParam 0 h
  else
    let id := h.host.nextId
    complete id .badParam (h.onHost fun x =>
      { x with inflight := x.inflight ++ [{ d with id, applied := true }], nextId := id + 1 })

/-- Ring q has work for the warden now: a descriptor to fetch, and none fetched that is still to be applied, as behind a fence. -/
def Hub.hasWork (h : Hub) (q : Fin 16) : Bool :=
  !h.host.cmd[q].fast && h.mayFetch q && (h.inProgress (.ring q)).all (·.applied)

/-- The ring whose turn it is: the rings that have work are served in rotation (R340). -/
def Hub.fetchTurn (h : Hub) : Option (Fin 16) := ((allFin 16).map fun i => h.host.turn + i).find? h.hasWork

/-- DESCRIPTOR_FETCH: `d` is what the read of the descriptor at C returns. -/
def descriptorFetch (q : Fin 16) (d : DescWord) (h : Hub) : Hub :=
  when_ (!h.host.cmd[q].fast && h.mayFetch q && h.wardenFetches && (!h.hasWork q || h.fetchTurn == some q)) (fun h =>
    let r := h.ring (.cmd q)
    let h := takeSlot q (h.onHost fun x => { x with turn := q + 1 })
    if dwHeaderOk d && dwIndex d == r.cons then enterDesc (.ring q) r.bellOf d h
    else malformed q r.cons false (mkDesc 0 (.ring q) r.bellOf d) h) h

/-- The opcodes of a fast ring (R336). -/
def fastOpcode (op : Nat) : Bool := op == 0x01 || op == 0x02

/-- FAST_RING_DESCRIPTOR: the descriptor at C arrives, and L falls at root cycle cyc after the last tick (R343, R344). -/
def fastRingDescriptor (q : Fin 16) (d : DescWord) (cyc : Nat) (h : Hub) : Hub :=
  when_ (h.host.cmd[q].fast && h.mayFetch q) (fun h =>
    let r := h.ring (.cmd q)
    let h := takeSlot q (advanceTo cyc h)
    let x := mkDesc 0 (.ring q) r.bellOf d
    if dwHeaderOk d && dwIndex d == r.cons && fastOpcode (dwOpcode d).toNat then
      postCompletion q true x .ok (if (dwOpcode d).toNat = 0x02 then readTimeResult h x else 0) h
    else malformed q r.cons true x h) h

/-- DESCRIPTOR_READ_ERROR: the read of the descriptor at C, at host address addr, fails or times out. -/
def descriptorReadError (q : Fin 16) (addr : BitVec 64) (timeout : Bool) (h : Hub) : Hub :=
  let r := h.ring (.cmd q)
  when_ (h.mayFetch q && (r.fast || h.wardenFetches) && addr == r.entryAddr r.cons 64)
    (fun h => sendFault srcPcie (if timeout then .timeout else .poisonRead) accDmaRead mDma (addr.toNat % 2 ^ 32)
      (h.onRing (.cmd q) fun x => { x with state := .error })) h

/-- COMMAND_RING_DRAINED: nothing of a draining ring is in progress any more (R333). -/
def commandRingDrained (q : Fin 16) (h : Hub) : Hub :=
  when_ (h.runs && h.host.cmd[q].state == .draining && h.ringProgress q == 0)
    (fun h => h.onRing (.cmd q) fun x => { x with state := .disabled }) h

/-! ## Interrupts (R347, R348) -/

/-- Entries of a ring that wait to be signalled are, when coal_us has passed since the first of them; with no root active the moment is
taken as it comes. -/
def coalesceEnd (r : RingId) (h : Hub) : Hub :=
  let x := h.ring r
  when_ (h.linkUp && decide (0 < x.unsignalled))
    (fun h => if h.rootActive then atCyc (x.unsigAt + 1500 * x.coalUs.toNat) (ringSignal r) h else ringSignal r h) h

/-- COALESCE_TIMEOUT: coal_us has passed since the first entry not yet signalled. -/
def coalesceTimeout (r : RingId) (h : Hub) : Hub :=
  match r with
  | .cmd _ => h
  | .cpl c => coalesceEnd (.cpl c) h
  | .tel t => coalesceEnd (.tel t) h
  | .str n => coalesceEnd (.str n) h

/-- Unmask vector v: a message that waits is sent. -/
def unmask (v : Fin 128) (h : Hub) : Hub :=
  let e := h.host.msix[v]
  let h := h.onHost fun x => { x with msix := upd x.msix v fun e => { e with masked := false, pend := false } }
  if e.pend then sendMsix v h else h

/-- MSIX_UNMASK. -/
def msixUnmask (v : Fin 128) (h : Hub) : Hub := when_ h.linkUp (unmask v) h

/-! ## Endpoint resets (R325, R370) -/

/-- The HOST block, but for the spi bits, and MBX[0] at their reset values; what was fetched runs on with its completion
discarded. -/
def endpointClear (h : Hub) : Hub :=
  let x := h.host
  { h with
    host :=
      { spi := x.spi, nextId := x.nextId, held := x.held, hostLat := x.hostLat, effLat := x.effLat, hostN := x.hostN, effN := x.effN
        inflight := x.inflight.map fun d => match d.origin with
          | .ring _ => { d with discard := true }
          | .mgr _ => d
          | .profile => d }
    mbx := upd h.mbx 0 fun _ => {}
    evts := h.evts.map fun c => { c with ringFull := false } }

/-- ENDPOINT_RESET. PERST# asserted in BOOT only holds the endpoint back (R325, R457). -/
def endpointReset (k : EpReset) (h : Hub) : Hub :=
  let h := match k with
    | .perst => h.onTop fun t => { t with perst := true }
    | .hot => h
    | .linkDown => h
    | .flr => h
  if !h.runs then h
  else if h.inMode .boot && k == .perst then h.onHost fun x => { x with ready := false }
  else endpointClear h

/-- ENDPOINT_READY: PERST# is high, and the endpoint is ready for configuration (R457). -/
def endpointReady (h : Hub) : Hub :=
  when_ (h.runs && !h.host.ready) (fun h => (h.onTop fun t => { t with perst := false }).onHost fun x => { x with ready := true }) h

/-! ## Meanings -/

def execNop (o : Origin) (s : State) := run (nop o) s
def execReadTime (o : Origin) (cyc : Nat) (s : State) := run (readTime o cyc) s
def execCommandDoorbell (q : Fin 16) (v : Reg) (cyc : Nat) (s : State) := run (commandDoorbell q v cyc) s
def execConsumerDoorbell (r : RingId) (v : Reg) (s : State) := run (consumerDoorbell r v) s
def execDescriptorFetch (q : Fin 16) (d : DescWord) (s : State) := run (descriptorFetch q d) s
def execFastRingDescriptor (q : Fin 16) (d : DescWord) (cyc : Nat) (s : State) := run (fastRingDescriptor q d cyc) s
def execDescriptorReadError (q : Fin 16) (addr : BitVec 64) (timeout : Bool) (s : State) := run (descriptorReadError q addr timeout) s
def execCommandRingDrained (q : Fin 16) (s : State) := run (commandRingDrained q) s
def execCoalesceTimeout (r : RingId) (s : State) := run (coalesceTimeout r) s
def execMsixUnmask (v : Fin 128) (s : State) := run (msixUnmask v) s
def execEndpointReset (k : EpReset) (s : State) := run (endpointReset k) s
def execEndpointReady (s : State) := run endpointReady s

end Sys2Proof.Machine
end

