-- ==== Sys2Proof/Machine/Reeds.lean ====
section
/-!
DEFINITION. The commands of the reeds, tasks, halves, wardens and the charge interlock (chapter 09).
-/

namespace Sys2Proof.Machine

/-! ## TASK_ASSIGN, TASK_MOVE, TASK_PARAM (R316 to R318) -/

/-- Reed and state of a task in the result field of TASK_ASSIGN. -/
def TaskState.code : TaskState → Nat
  | .unplaced => 0 | .running => 1 | .moving => 2 | .restoring => 3 | .suspended => 4 | .shed => 5

def reedByte (r : Option (Fin 192)) : Nat :=
  match r with
  | some n => n.val
  | none => 0xFF

def taskResult (h : Hub) (t : Fin 126) : BitVec 192 :=
  resultOf [(0, 8, reedByte h.comp.tasks[t].reed), (8, 8, h.comp.tasks[t].state.code)]

/-- A task's state as a test. -/
def Task.isRunning (k : Task) : Bool := k.state == TaskState.running
def Task.isShed (k : Task) : Bool := k.state == TaskState.shed

/-- TASK_ASSIGN (R316): class, home and rank at once; EVENT tasks created, restarted or removed by enable; a running
task moves only when reed names one. -/
def taskAssignEff (d : Desc) (h : Hub) : Hub :=
  let p := d.payload
  withFin 126 (pf p 0 0 8) d.id (fun (t : Fin 126) (h : Hub) =>
    let cls := pf p 1 6 2
    let kind := taskKind t
    let enable := pb p 1 4
    let reed := pf p 3 0 8
    let k : Task := h.comp.tasks[t]
    let essential := ((allFin 126).filter fun u => h.comp.tasks[u].cls = 0 && u != t).length + (if cls = 0 then 1 else 0)
    let accepted := match finOf 32 (t.val - 76) with
      | some e => h.comp.evTasks[e].accepted
      | none => false
    if cls = 3 ∨ (191 < reed ∧ reed ≠ 0xFF) ∨ (cls = 2 ∧ (kind = 3 ∨ kind = 6)) ∨ (kind = 4 ∧ enable ∧ !accepted) then
      complete d.id .badParam h
    else if 64 < essential then complete d.id .noResource h
    else if (match finOf 192 reed with
        | some n => !h.comp.freeReed n
        | none => false) then complete d.id .noResource h
    else
      let h' := h.onTask t fun k => { k with cls := BitVec.ofNat 2 cls, home := if pb p 1 5 then .b else .a, rank := BitVec.ofNat 8 (pf p 2 0 8) }
      if kind = 4 ∧ !enable then
        let h' := removeTask t h'
        completeWith d.id .ok (taskResult h' t) h'
      else if enable && kind == 4 then
        match k.state with
        | .running | .moving | .restoring | .suspended =>
          -- EVENT restarts: a new span on the reed it has
          let h' := forgetTask t h'
          match finOf 192 reed with
          | some n => if k.isRunning then
              let h' := startMove t n none h'
              completeWith d.id .ok (taskResult h' t) h'
            else completeWith d.id .ok (taskResult h' t) h'
          | none => completeWith d.id .ok (taskResult h' t) h'
        | .unplaced | .shed =>
          let h' := createTask t h'
          let h' := match finOf 192 reed with
            | some n => if (h'.comp.tasks[t]).isRunning && h'.comp.freeReed n then startMove t n none h' else h'
            | none => h'
          if (h'.comp.tasks[t]).isShed then completeWith d.id .noResource (taskResult h' t) h'
          else completeWith d.id .ok (taskResult h' t) h'
      else
        let h' := if enable && k.isShed then createTask t h' else h'
        match finOf 192 reed with
        | some n =>
          let h' := if k.isRunning then startMove t n none h' else h'
          completeWith d.id .ok (taskResult h' t) h'
        | none => completeWith d.id .ok (taskResult h' t) h') h

def taskAssign (o : Origin) (h : Hub) : Hub := serve o (isOp 0x60) taskAssignEff h

/-- TASK_MOVE (R317): completes once the task has resumed on its new reed. -/
def taskMoveEff (d : Desc) (h : Hub) : Hub :=
  let p := d.payload
  withFin 126 (pf p 0 0 8) d.id (fun (t : Fin 126) (h : Hub) =>
    let reed := pf p 2 0 8
    if h.comp.tasks[t].state ≠ .running ∨ (191 < reed ∧ reed ≠ 0xFF) then complete d.id .badParam h
    else
      let side : Side := match finOf 192 reed with
        | some n => halfOf n
        | none => if pb p 1 0 then .b else .a
      if h.comp.power side ≠ .on then complete d.id .denied h
      else
        match (match finOf 192 reed with
          | some n => if h.comp.freeReed n then some n else none
          | none => (h.comp.freeIn side).head?) with
        | some n => startMove t n (some d.id) h
        | none => complete d.id .noResource h) h

def taskMove (o : Origin) (h : Hub) : Hub := serve o (isOp 0x61) taskMoveEff h

/-- A telemetry ring is set up: enabled. -/
def Hub.telUp (h : Hub) (t : Nat) : Bool := (pick h.host.tel t {}).state == .enabled

/-- TASK_PARAM: takes effect at the task's next record, which starts a new span (R318). -/
def taskParamEff (d : Desc) (h : Hub) : Hub :=
  let p := d.payload
  withFin 32 (pf p 0 0 8) d.id (fun (e : Fin 32) (h : Hub) =>
    if 1 < pf p 1 2 2 ∨ pf p 1 0 2 = 3 ∨ 63 < pf p 2 0 8 ∨ !inRange (pf p 4 0 32) 1 1000000
        ∨ (pb p 1 6 ∧ !h.telUp (pf p 1 4 2)) then complete d.id .badParam h
    else complete d.id .ok ((copyWritten (0x18800 + 0x10 * e) 16 h).onEvTask e fun x =>
      { x with cfg := pbytes p 16, accepted := true, inbox := [], first := none, n := 0, last := none, flags := 0, gap := false })) h

def taskParam (o : Origin) (h : Hub) : Hub := serve o (isOp 0x62) taskParamEff h

/-! ## Checkpoints and moves -/

/-- A running task writes its image, with its whole state, to the older of its two buffers (R296). `whole`: complete, with a correct
CRC-32C. -/
def checkpointWrite (t : Fin 126) (size : Nat) (whole : Bool) (h : Hub) : Hub :=
  when_ (h.runs && h.comp.tasks[t].state.works && decide (size ≤ 4096))
    (fun h => h.onTask t fun k =>
      { k with img := ({ time := h.houseShort, at_ := h.nomFu, size, valid := whole, mem := h.taskMem t } :: k.img).take 2, written := k.written + 1 }) h

/-- Tasks that still stand on a half. -/
def Hub.tasksOn (h : Hub) (s : Side) : List (Fin 126) := (allFin 126).filter fun t => h.comp.onReedOf s t

/-- With the last task gone, a half that is to be powered down shows DRAINING (R304). -/
def drainWhenEmpty (h : Hub) : Hub :=
  match h.comp.job with
  | some j =>
    if !j.on && (h.tasksOn j.half).isEmpty then
      h.onComp fun c => { c with
        aPower := if j.half = .a then .draining else c.aPower, bPower := if j.half = .b then .draining else c.bPower }
    else h
  | none => h

/-- The task's next checkpoint of a move (R315): it resumes on the target reed, and the source reed becomes FREE, or is
under test. A descriptor that waits completes with the new reed. -/
def taskMoveAtCheckpoint (t : Fin 126) (h : Hub) : Hub :=
  match h.comp.tasks[t].state, h.comp.tasks[t].target with
  | .moving, some n =>
    if h.runs then
      let id := h.comp.tasks[t].desc
      let source := h.comp.tasks[t].reed
      let h := (unseat t h).onTask t fun k => { k with target := none, desc := none }
      let h := match source with
        | some r => if h.testing 0 r then h.onReed r fun x => { x with state := .test } else h
        | none => h
      let h := drainWhenEmpty (resumeTasks (seat t n .running h))
      match id with
      | some i => completeWith i .ok (resultOf [(0, 8, n)]) h
      | none => h
    else h
  | _, _ => h

/-- The image that a restore loads (R297): the newer valid one, else the other; `bad0` and `bad1`: an uncorrectable error in them. -/
def Task.restorable (k : Task) (bad0 bad1 : Bool) : Option Image :=
  match k.img.head?.filter (·.valid), (k.img.drop 1).head?.filter (·.valid) with
  | some a, two => if bad0 then (if bad1 then none else two) else some a
  | none, two => if bad1 then none else two

/-- How many images with an uncorrectable error a restore reads, for each of which the checkpoint memory sends ECC_UE. -/
def Task.unreadable (k : Task) (bad0 bad1 : Bool) : Nat :=
  match k.img.head?.filter (·.valid), (k.img.drop 1).head?.filter (·.valid) with
  | some _, some _ => if bad0 then (if bad1 then 2 else 1) else 0
  | some _, none => b2n bad0
  | none, some _ => b2n bad1
  | none, none => 0

/-- Hierarchy work that no HIER task has kept starts anew, with its settings, address and fixed assignments. -/
def Hier.forget (x : Hier) : Hier :=
  { x with
    role := .unassigned, mgrPrio := 0, mgrClass := 0, mgrAddr := 0, mgrSerial := 0, stbySerial := 0, heard := [], lowSince := none, table := []
    exhausted := [], inbox := [], answered := [], answeredLast := [], reportDue := [] }

/-- A task starts cold, as if newly created (R297): TASK_FAIL with cause 7. A DOMAIN task enters NOMINAL; a HIER task has the other's
state, when that runs. -/
def coldStart (t : Fin 126) (h : Hub) : Hub :=
  let h := raiseReed (bit16 4) (taskFail h.comp.tasks[t].reed (some t) 7 (forgetTask t h))
  match taskKind t, finOf 16 (t.val - 60) with
  | 3, some m => enterNominal m h
  | 6, _ => if h.taskRuns (if t.val = 124 then 125 else 124) then h else h.onHier Hier.forget
  | _, _ => h

/-- A restore ends (R297, R301): the newer valid image, else the other, else a cold start. The task resumes with the state of its
image (R299). -/
def taskRestored (t : Fin 126) (bad0 bad1 : Bool) (h : Hub) : Hub :=
  if h.runs && h.comp.tasks[t].state == .restoring then
    let k : Task := h.comp.tasks[t]
    let h := forEach (List.range (k.unreadable bad0 bad1)) (fun _ h => sendFault srcCkpt .eccUe accRead mInternal 0 h) h
    let img := k.restorable bad0 bad1
    let h := h.onTask t fun k => { k with state := .running, desc := none, cold := img.isNone, img := if img.isNone then [] else k.img }
    let h := match k.desc with
      | some i => completeWith i .ok (resultOf [(0, 8, reedByte k.reed)]) h
      | none => h
    match img with
    | some i => restoreMem t (h.nomFu - i.at_) i.mem h
    | none => coldStart t h
  else h

/-! ## Reed faults -/

/-- A reed that can fault: powered and not already withdrawn. -/
def Hub.reedLive (h : Hub) (n : Fin 192) : Bool :=
  h.runs && match h.comp.reeds[n].state with
    | .free | .running | .test | .loading => true
    | .off | .failed | .halted => false

/-- Cause 1: an uncorrectable error in the reed's SRAM; ECC_UE is also sent (R298). -/
def reedSramError (n : Fin 192) (h : Hub) : Hub :=
  when_ (h.reedLive n) (fun h => reedFault n 1 (sendFault (srcReed n) .eccUe accNone mInternal 0 h)) h

/-- Cause 2: no task heartbeat for 20 µs. -/
def reedHeartbeatTimeout (n : Fin 192) (h : Hub) : Hub :=
  when_ (h.reedLive n && h.comp.reeds[n].state == .running) (reedFault n 2) h

/-- Cause 3: an illegal instruction or address. -/
def reedTrap (n : Fin 192) (h : Hub) : Hub := when_ (h.reedLive n) (reedFault n 3) h

/-- Cause 4: halted by DEBUG; its reservations are cancelled at once (R300, R312). A halted reed that holds a task faults;
one without a task becomes HALTED. -/
def reedDebugHalt (n : Fin 192) (h : Hub) : Hub :=
  when_ (h.reedLive n) (fun h =>
    let h := h.onComp fun c => { c with resv := c.resv.filter fun r => r.core != .reed n }
    if h.comp.reeds[n].task.isSome then reedFault n 4 h
    else h.onReed n fun r => { r with state := .halted, lastCause := 4 }) h

/-- A HALTED reed is resumed and returns to FREE without a test (R300). -/
def reedDebugResume (n : Fin 192) (h : Hub) : Hub :=
  when_ (h.runs && h.comp.reeds[n].state == .halted)
    (fun h => resumeTasks (h.onReed n fun r => { r with state := .free, task := none })) h

/-! ## Halves (R302 to R306) -/

/-- A reed goes OFF; one that is FAILED or HALTED is so still when its half is on again (R300). -/
def Reed.dark (r : Reed) : Reed :=
  { r with
    state := .off, task := none
    bad := match r.state with
      | .failed => some .failed
      | .halted => some .halted
      | .off | .loading | .test => r.bad
      | .free | .running => none }

/-- Reeds and warden of a half go OFF. -/
def halfDark (s : Side) (h : Hub) : Hub :=
  h.onComp fun c =>
    { c with
      reeds := c.reeds.mapFinIdx fun n r _ => if halfOf n == s then r.dark else r
      aPower := if s = .a then .off else c.aPower, aState := if s = .a then .off else c.aState
      bPower := if s = .b then .off else c.bPower, bState := if s = .b then .off else c.bState }

/-- Tasks of a list with a class, in order of (rank, kind code, instance). -/
def Hub.byRank (h : Hub) (cls : Nat) (l : List (Fin 126)) : List (Fin 126) :=
  (l.filter fun t => h.comp.tasks[t].cls.toNat = cls).mergeSort fun a b => decide (shedKey h a ≤ shedKey h b)

/-- Shed a task of the lost half: no reed remains to be freed. -/
def shedLost (t : Fin 126) (h : Hub) : Hub := shed t h

/-- Restore a task of the lost half on the other half (R303): TASK_FAIL with cause 8, then placed per R294 and R295, or SUSPENDED with
cause 6. -/
def restoreLost (t : Fin 126) (h : Hub) : Hub :=
  let reed := h.comp.tasks[t].reed
  let h := taskFail reed (some t) 8 ((unseat t h).onTask t fun k => { k with target := none })
  let lost (h : Hub) : Hub := raiseReed (bit16 3) (taskFail reed (some t) 6 (h.onTask t fun k => { k with state := .suspended }))
  match h.comp.placeFor h.comp.tasks[t].home with
  | some n => seat t n .restoring h
  | none =>
    match h.toShed with
    | some v =>
      match h.comp.tasks[v].reed with
      | some n => seat t n .restoring (shed v h)
      | none => lost h
    | none => lost h

/-- What a HALF_POWER in progress becomes when half s is lost: one of that half is over, and so is a power-down of the other half, which
stays ON; a power-up of the other half goes on. -/
def jobAfterLoss (s : Side) (h : Hub) : Hub :=
  match h.comp.job with
  | none => h
  | some j =>
    if j.on && j.half != s then h
    else completeOpt j.desc .aborted (h.onComp fun c =>
      { c with
        job := none
        aPower := if c.aPower = .draining then .on else c.aPower
        bPower := if c.bPower = .draining then .on else c.bPower })

/-- A half loses its rails without a command (R302, R303): its reeds and warden show OFF, its SHEDDABLE tasks are shed,
its ESSENTIAL and then NORMAL tasks are restored on the other half, moves to it are over, and RECOVERY begins (R35). -/
def halfLost (s : Side) (h : Hub) : Hub :=
  when_ (h.runs && h.comp.power s != .off) (fun h =>
    let lost := h.tasksOn s
    let h := (jobAfterLoss s h).onComp fun c =>
      { c with
        aPower := if s = .a then .off else c.aPower, aState := if s = .a then .off else c.aState
        bPower := if s = .b then .off else c.bPower, bState := if s = .b then .off else c.bState }
    let h := forEach (h.byRank 2 lost) shedLost h
    let h := forEach (h.byRank 0 lost) restoreLost h
    let h := forEach (h.byRank 1 lost) restoreLost h
    let moving := (allFin 126).filter fun t => match h.comp.tasks[t].target with
      | some n => halfOf n == s
      | none => false
    enterRecovery (raiseReed (bit16 8) (bumpCounter 9 (halfDark s (forEach moving moveFails h))))) h

/-- Move every task of a half to the other half (R304 step 1): ESSENTIAL, NORMAL, SHEDDABLE, with shedding and
suspension per R295; each move is made at the task's next checkpoint. -/
def moveAway (s : Side) (t : Fin 126) (h : Hub) : Hub :=
  if h.comp.tasks[t].state != .running then h
  else match h.comp.placeIn (otherSide s) with
    | some n => startMove t n none h
    | none =>
      if h.comp.tasks[t].cls = 2 then shed t h
      else
        let victims := (allFin 126).filter fun v =>
          h.comp.tasks[v].cls = 2 && h.comp.tasks[v].state == .running && h.comp.onReedOf (otherSide s) v
        match maxBy (shedKey h) victims with
        | some v =>
          match h.comp.tasks[v].reed with
          | some n => startMove t n none (shed v h)
          | none => suspend t h
        | none => suspend t h

/-- Begin a power-down of a half. -/
def beginOff (s : Side) (desc : Option Nat) (h : Hub) : Hub :=
  let h := h.onComp fun c => { c with job := some { half := s, on := false, desc } }
  let on_ := h.tasksOn s
  let h := forEach (h.byRank 0 on_) (moveAway s) h
  let h := forEach (h.byRank 1 on_) (moveAway s) h
  drainWhenEmpty (forEach (h.byRank 2 on_) (moveAway s) h)

/-- Begin a power-up of a half: STARTING, its reeds load the library (R306); outside a SELFTEST those that were FAILED or HALTED stay
so (R300). -/
def beginOn (s : Side) (desc : Option Nat) (h : Hub) : Hub :=
  h.onComp fun c =>
    { c with
      job := some { half := s, on := true, desc }
      reeds := c.reeds.mapFinIdx fun n r _ =>
        if halfOf n == s then { r with state := if desc.isNone then .loading else r.bad.getD .loading, task := none } else r
      aPower := if s = .a then .starting else c.aPower, aState := if s = .a then .booting else c.aState
      bPower := if s = .b then .starting else c.bPower, bState := if s = .b then .booting else c.bState }

/-- The state of a warden. -/
def Comp.warden (c : Comp) : Side → WardenState
  | .a => c.aState
  | .b => c.bState

def setWarden (s : Side) (w : WardenState) (c : Comp) : Comp :=
  { c with aState := if s = .a then w else c.aState, bState := if s = .b then w else c.bState }

/-- A half may be powered down (R304): the other half is ON, and its own warden is not in charge without a shadow. -/
def Hub.mayPowerOff (h : Hub) (s : Side) : Bool :=
  h.comp.power (otherSide s) == .on && (h.comp.charge != some s || h.comp.warden (otherSide s) == .shadow)

/-- The half that HALF_POWER names; 2 to 255 are refused (R488). -/
def halfField (p : Payload) : Option Side :=
  if pf p 0 0 8 = 0 then some .a else if pf p 0 0 8 = 1 then some .b else none

/-- HALF_POWER with op OFF (R304). While another HALF_POWER runs, the half's state does not allow it: DENIED. -/
def halfPowerOffEff (d : Desc) (h : Hub) : Hub :=
  match halfField d.payload with
  | none => complete d.id .badParam h
  | some s =>
    if h.comp.power s = .off then complete d.id .ok h
    else if h.comp.job.isSome ∨ !h.mayPowerOff s then complete d.id .denied h
    else if !(h.tasksOn s).isEmpty ∧ !pb d.payload 1 1 then complete d.id .noResource h
    else beginOff s (some d.id) h

def halfPowerOff (o : Origin) (h : Hub) : Hub := serve o (isOpSub 0xA0 fun p => !pb p 1 0) halfPowerOffEff h

/-- HALF_POWER with op ON (R306): at once for a half already ON. -/
def halfPowerOnEff (d : Desc) (h : Hub) : Hub :=
  match halfField d.payload with
  | none => complete d.id .badParam h
  | some s =>
    if h.comp.power s = .on then complete d.id .ok h
    else if h.comp.job.isSome then complete d.id .denied h
    else beginOn s (some d.id) h

def halfPowerOn (o : Origin) (h : Hub) : Hub := serve o (isOpSub 0xA0 fun p => pb p 1 0) halfPowerOnEff h

/-- A result that an interval unit holds, because no warden was in charge when it fell due, is written (R102). -/
def ivuFlush (u : Fin 32) (h : Hub) : Hub :=
  match h.ivus[u].held, h.ivus[u].desc with
  | some r, some id => completeWith id r.1 r.2 (h.onIvu u fun x => { x with held := none, desc := none })
  | _, _ => h

/-- Charge passes to the warden of a side; descriptors in progress were begun by the other (R309), and results that waited
for a warden are written (R102). -/
def takeCharge (s : Side) (h : Hub) : Hub :=
  forEach (allFin 32) ivuFlush (flushHeld ((h.onComp fun c => setWarden s .inCharge { c with charge := some s }).onHost fun x =>
    { x with inflight := x.inflight.map fun d => { d with replayed := true } }))

/-- The half has drained and its rails switch off (R304 steps 2 to 4); a handover is not a takeover (R305, R308). A
SELFTEST HALF goes on to power it on again. -/
def halfPowerOffDone (h : Hub) : Hub :=
  match h.comp.job with
  | none => h
  | some j =>
    if h.runs && !j.on && (h.tasksOn j.half).isEmpty then
      let h := if h.comp.charge = some j.half then
          raiseCharge (bit16 4) (h.onComp fun c => setWarden (otherSide j.half) .inCharge { c with charge := some (otherSide j.half) })
        else h
      let h := (halfDark j.half h).onComp fun c => { c with job := none }
      match j.desc with
      | some id => complete id .ok h
      | none => if h.flt.selftest.isSome then beginOn j.half none h else h
    else h

/-- The half is up (R306): reeds FREE, or under test for a SELFTEST HALF, its warden in SHADOW; SUSPENDED tasks resume. -/
def halfPowerOnDone (h : Hub) : Hub :=
  match h.comp.job with
  | none => h
  | some j =>
    if h.runs && j.on then
      let testing := j.desc.isNone && h.flt.selftest.isSome
      let h := h.onComp fun c =>
        { c with
          job := none
          reeds := c.reeds.mapFinIdx fun n r _ =>
            if halfOf n == j.half then
              (if testing then { r with state := .test, task := none }
               else if r.state == .loading then { r with state := .free, task := none, bad := none } else { r with bad := none })
            else r
          aPower := if j.half = .a then .on else c.aPower, aState := if j.half = .a then .shadow else c.aState
          bPower := if j.half = .b then .on else c.bPower, bState := if j.half = .b then .shadow else c.bState }
      let h := raiseCharge (bit16 (match j.half with | .a => 2 | .b => 3)) h
      completeOpt j.desc .ok (resumeTasks h)
    else h

/-! ## Wardens and charge (R308 to R310) -/

/-- The image a warden executes: the booted one, or the other after a fetch error. -/
def Hub.imageOfWarden (h : Hub) (s : Side) : Side :=
  let other := match s with
    | .a => h.comp.aOther
    | .b => h.comp.bOther
  if h.shim.bootB != other then .b else .a

/-- SHIM_STAT.exec_a and exec_b: an image is executed while a booted warden runs from it (R400). -/
def refreshExec (h : Hub) : Hub :=
  let runs s := match h.comp.warden s with
    | .shadow | .inCharge => true
    | .off | .booting | .held | .loader => false
  let on_ i := (runs .a && h.imageOfWarden .a == i) || (runs .b && h.imageOfWarden .b == i)
  h.onShim fun x => { x with execA := on_ .a, execB := on_ .b }

/-- The wardens that claim charge in one cycle (R308): the first claim wins, a double claim goes to the half the strap
names; a warden that finds charge held goes into SHADOW. Only a powered, booting or shadowing warden claims. -/
def chargeClaim (a b : Bool) (h : Hub) : Hub :=
  if h.runs then
    let able s := h.comp.power s == .on && (h.comp.warden s == .booting || h.comp.warden s == .shadow)
    let a := a && able .a
    let b := b && able .b
    let h := match h.comp.charge with
      | some _ => h.onComp fun c =>
          { c with aState := if a then .shadow else c.aState, bState := if b then .shadow else c.bState }
      | none =>
        if a && b then
          let w : Side := if h.top.strapCharge then .b else .a
          (takeCharge w h).onComp (setWarden (otherSide w) .shadow)
        else if a then takeCharge .a h
        else if b then takeCharge .b h
        else h
    refreshExec h
  else h

/-- The fetch that stopped a warden: ECC_UE with access Fetch for the damaged group of its image, and the image INVALID
(R373, R385). -/
def fetchError (s : Side) (h : Hub) : Hub :=
  let i := h.imageOfWarden s
  let base := imageBase i
  let h := match h.shim.damage.find? fun d => d.2 == .uncorrectable && decide (base ≤ 16 * d.1) && decide (16 * d.1 < base + 0x100000) with
    | some d => readGroup accFetch (wardenCode s) d.1 h
    | none => sendFault srcShim .eccUe accFetch (wardenCode s) base h
  let h := invalidateImage i h
  h.onComp fun c => { c with aOther := if s = .a then !c.aOther else c.aOther, bOther := if s = .b then !c.bOther else c.bOther }

/-- No heartbeat of the warden in charge for 100 µs (R308): charge is revoked, WATCHDOG sent, and a warden in SHADOW takes
charge, which is a takeover. -/
def wardenHeartbeatTimeout (fetchErr : Bool) (h : Hub) : Hub :=
  match h.comp.charge with
  | none => h
  | some w =>
    if h.runs then
      let h := sendFault srcCharge .watchdog accNone mInternal 0 h
      let h := if fetchErr then fetchError w h else h
      let h := h.onComp fun c =>
        setWarden w (if c.warden w == .off then .off else .held) { c with charge := none }
      let o := otherSide w
      let h := if h.comp.warden o == .shadow then
          enterRecovery (raiseCharge (bit16 0) (bumpCounter 8 (takeCharge o h)))
        else h
      refreshExec h
    else h

/-- A warden leaves reset and boots into SHADOW (R308). -/
def rebootWarden (w : Side) (h : Hub) : Hub :=
  refreshExec (raiseCharge (bit16 (match w with | .a => 2 | .b => 3)) (h.onComp (setWarden w .shadow)))

/-- The revoked warden is released after 1 ms; one that is to boot from an INVALID image stays held (R385), and so does
one held by a split claim (R310). -/
def wardenRelease (w : Side) (h : Hub) : Hub :=
  when_ (h.runs && h.comp.warden w == .held && h.comp.power w == .on && !h.comp.split && h.shim.imageValid (h.imageOfWarden w))
    (rebootWarden w) h

/-- Both wardens assert charge for more than 2 µs (R310): the strap's half keeps it, or the other if that half is not ON;
the other warden is held until the safe status is cleared. -/
def splitCharge (h : Hub) : Hub :=
  let claims s := h.comp.warden s == .inCharge || h.comp.warden s == .shadow
  when_ (h.runs && claims .a && claims .b) (fun h =>
    let named : Side := if h.top.strapCharge then .b else .a
    let w := if h.comp.power named == .on then named else otherSide named
    let h := (takeCharge w h).onComp fun c => setWarden (otherSide w) .held { c with split := true }
    refreshExec (sendFault srcCharge .splitCharge accNone mInternal 0 (raiseCharge (bit16 1) h))) h

/-- A reservation reaches an age of 50 µs (R311, R312): it is broken, LOCK_BROKEN from its holder. -/
def reservationAgeTimeout (c : CoreId) (h : Hub) : Hub :=
  match h.comp.resv.find? fun r => r.core == c with
  | none => h
  | some r =>
    if h.runs then
      let (src, master) := match c with
        | .reed n => (srcReed n, mReed n)
        | .warden w => (srcWarden w, wardenCode w)
      let h := h.onComp fun x => { x with resv := x.resv.filter fun r => r.core != c }
      raiseReed (bit16 5) (sendFault src .lockBroken accRmw master r.granule.toNat h)
    else h

/-! ## EVENT tasks (R319, R320) -/

/-- Sequence number, overflow mark, slope, flags and time of a record (R89). -/
def recSeq (r : BitVec 128) : Nat := fld r 96 16
def recOvf (r : BitVec 128) : Bool := flag r 90
def recRising (r : BitVec 128) : Bool := flag r 88
def recFu (r : BitVec 128) : Nat := fld r 64 16 * 2 ^ 64 + fld r 0 64

/-- not_warm, cal_stale and untrusted of a record at bits 1 to 3 of a result's flags. -/
def recFlags (r : BitVec 128) : BitVec 16 := BitVec.ofNat 16 (atB 1 (flag r 89) + atB 2 (flag r 91) + atB 3 (flag r 92))

/-- The value of a result (R319): PERIOD in 2^-8 fu, FREQ in unsigned Q32.32 Hz, DECIMATE the short time. -/
def evValue (quantity n : Nat) (first last : BitVec 128) : BitVec 64 :=
  let dt := recFu last - recFu first
  if quantity = 0 then BitVec.ofNat 64 (dt * 256 / max 1 n)
  else if quantity = 1 then BitVec.ofNat 64 (n * secFu.toNat * 2 ^ 32 / max 1 dt)
  else BitVec.ofNat 64 (fld last 0 64)

/-- A result is formed: kept for quantity 0xA0, and offered to telemetry with tel_en (R320). -/
def evResult (e : Fin 32) (h : Hub) : Hub :=
  let x := h.comp.evTasks[e]
  match x.first, x.last with
  | some f, some l =>
    let v := evValue x.quantity x.n f l
    let flags : BitVec 16 := x.flags ||| BitVec.ofNat 16 (atB 0 x.gap + atB 4 x.skipFlag)
    let body := [BitVec.ofNat 8 e, BitVec.ofNat 8 x.quantity] ++ leBytes 2 flags.toNat ++ leBytes 4 x.n ++ leBytes 8 v.toNat
      ++ leBytes 8 (fld l 0 64) ++ leBytes 2 (fld l 64 16) ++ leBytes 2 (recSeq l) ++ leBytes 4 x.skipped
    let h := h.onEvTask e fun x =>
      { x with value := v, results := x.results + 1, count := BitVec.ofNat 32 x.n, first := some l, n := 0, flags := recFlags l, gap := false, skipFlag := false }
    match finOf 4 x.telRing with
    | some t => if x.telEn then telOffer t 1 body h else h
    | none => h
  | _, _ => h

/-- The task takes the next record of its channel (R319): records of the other slope only carry the sequence on; a gap or
an overflow mark starts a new span; beyond 5,000,000 records a second a record is skipped, which ends the span. -/
def eventTaskRecord (e : Fin 32) (h : Hub) : Hub :=
  let x := h.comp.evTasks[e]
  match x.inbox with
  | [] => h
  | r :: rest =>
    if h.runs && h.taskRuns (76 + e.val) then
      let h := h.onEvTask e fun x => { x with inbox := rest }
      if 5000000 ≤ x.taken then
        h.onEvTask e fun x => { x with skipped := satInc32 x.skipped, skipFlag := true, first := none, last := none, n := 0, gap := true }
      else
        let broken := recOvf r || match x.last with
          | some l => recSeq r != (recSeq l + 1) % 65536
          | none => false
        let wanted := recRising r == (x.slope == 0)
        let h := h.onEvTask e fun x =>
          let x := { x with taken := x.taken + 1 }
          let x := if broken then { x with first := none, n := 0, gap := x.gap || x.first.isSome, flags := 0 } else x
          if wanted then
            match x.first with
            | none => { x with first := some r, n := if x.quantity = 2 then 1 else 0, last := some r, flags := x.flags ||| recFlags r }
            | some _ => { x with n := x.n + 1, last := some r, flags := x.flags ||| recFlags r }
          else { x with last := some r }
        let x := h.comp.evTasks[e]
        if wanted && decide (x.count_ ≤ x.n) && decide (0 < x.n) then evResult e h else h
    else h

/-! ## Meanings -/

def execTaskAssign (o : Origin) (s : State) := run (taskAssign o) s
def execTaskMove (o : Origin) (s : State) := run (taskMove o) s
def execTaskParam (o : Origin) (s : State) := run (taskParam o) s
def execHalfPowerOff (o : Origin) (s : State) := run (halfPowerOff o) s
def execHalfPowerOn (o : Origin) (s : State) := run (halfPowerOn o) s
def execCheckpointWrite (t : Fin 126) (x : ImageSpan) (s : State) := run (checkpointWrite t x.size x.whole) s
def execTaskMoveAtCheckpoint (t : Fin 126) (s : State) := run (taskMoveAtCheckpoint t) s
def execReedSramError (n : Fin 192) (s : State) := run (reedSramError n) s
def execReedHeartbeatTimeout (n : Fin 192) (s : State) := run (reedHeartbeatTimeout n) s
def execReedTrap (n : Fin 192) (s : State) := run (reedTrap n) s
def execReedDebugHalt (n : Fin 192) (s : State) := run (reedDebugHalt n) s
def execReedDebugResume (n : Fin 192) (s : State) := run (reedDebugResume n) s
def execTaskRestored (t : Fin 126) (bad0 bad1 : Bool) (s : State) := run (taskRestored t bad0 bad1) s
def execHalfLost (x : Side) (s : State) := run (halfLost x) s
def execHalfPowerOffDone (s : State) := run halfPowerOffDone s
def execHalfPowerOnDone (s : State) := run halfPowerOnDone s
def execWardenHeartbeatTimeout (fetchErr : Bool) (s : State) := run (wardenHeartbeatTimeout fetchErr) s
def execWardenRelease (w : Side) (s : State) := run (wardenRelease w) s
def execSplitCharge (s : State) := run splitCharge s
def execReservationAgeTimeout (c : CoreId) (s : State) := run (reservationAgeTimeout c) s
def execEventTaskRecord (e : Fin 32) (s : State) := run (eventTaskRecord e) s

end Sys2Proof.Machine
end

