-- ==== Sys2Proof/Machine/Trim.lean ====
section
/-!
DEFINITION. The calibration record and the trims (R392 to R397): which copy is loaded, the targets of every trim at the
present temperatures (R75, R396), the rate limits (R397), and the trim tick.
-/

namespace Sys2Proof.Machine

/-! ## The record (R392) -/

/-- Length of a record. -/
def calLength : Nat := 333568

/-- A signed byte and a signed word of the loaded record. -/
def rec8 (m : List Host.Cell) (o : Nat) : Int := toSigned 8 (memRead m o).toNat
def rec32 (m : List Host.Cell) (o : Nat) : Int := toSigned 32 (leNat (memReadN m o 4))

/-- A number of n bytes at offset o of a copy in the array. -/
def Shim.calNum (s : Shim) (c : Side) (o n : Nat) : Nat := leNat (memReadN s.mem (calBase c + o) n)

/-- No group of the copy is poisoned. -/
def Shim.calWhole (s : Shim) (c : Side) : Bool :=
  s.poison.all fun g => decide (16 * g + 16 ≤ calBase c) || decide (calBase c + calLength ≤ 16 * g)

/-- A copy is valid (R393): generation, format, length, serial, no poisoned group, check word. -/
def Shim.copyValid (s : Shim) (c : Side) : Bool :=
  s.calNum c 0 4 != 0 && s.calNum c 8 4 == 1 && s.calNum c 12 4 == calLength && s.calNum c 16 8 == Config.serial.toNat
  && s.calWhole c && crc32c (memReadN s.mem (calBase c + 8) (calLength - 8)) == s.calNum c 4 4

/-- The read of a long run by Internal: only groups with errors or poison have any effect (R373, R374). -/
def readLong (access master a n : Nat) (h : Hub) : Hub :=
  let bad := (h.shim.poison ++ h.shim.damage.map (·.1)).filter fun g => decide (a / 16 ≤ g) && decide (16 * g < a + n)
  forEach (bad.foldr insertRising []) (readGroup access master) h

/-! ## Interpolation in temperature (R75) -/

/-- The five calibration temperatures in 1/16 °C. -/
def calTemps : List Int := [-640, 0, 400, 960, 1520]

/-- The limits of extrapolation, −45 °C and 100 °C. -/
def tempLow : Int := -720
def tempHigh : Int := 1600

/-- A value given at the five temperatures, interpolated linearly at t between the two nearest, and held beyond the limits. -/
def atTemp (f : Nat → Int) (t : Int) : Int :=
  let t := clampI tempLow tempHigh t
  let i := if t < 0 then 0 else if t < 400 then 1 else if t < 960 then 2 else 3
  let a := calTemps.getD i 0
  let b := calTemps.getD (i + 1) 0
  f i + rdiv ((f (i + 1) - f i) * (t - a)) (b - a)

/-- Temperature used for cluster c: the mean of sensors 2c and 2c + 1 (R75). -/
def Hub.clusterTemp (h : Hub) (c : Nat) : Int := rdiv (pick h.pwr.temps (2 * c) 0 + pick h.pwr.temps (2 * c + 1) 0) 2

/-- Mean of the eight sensors (R396). -/
def Hub.meanTemp (h : Hub) : Int := rdiv h.tj 8

/-! ## Targets (R396) -/

/-- Sums of the leading elements, from s. -/
def prefixSums : Int → List Int → List Int
  | s, [] => [s]
  | s, x :: xs => s :: prefixSums (s + x) xs

/-- P[0] to P[256] of a lane at calibration temperature i, in 10^-5 of 2^-24 period. -/
def binEdges (m : List Host.Cell) (l i : Nat) : List Int :=
  prefixSums 0 ((List.range 256).map fun b => (65536 + 256 * rec8 m (0x100 + (l * 5 + i) * 256 + b)) * 10 ^ 5)

/-- The bin table of a lane at temperature t. -/
def binTarget (m : List Host.Cell) (l : Nat) (t : Int) : List Int :=
  let e := (List.range 5).map (binEdges m l)
  (List.range 257).map fun b => atTemp (fun i => (e.getD i []).getD b 0) t

/-- Cluster of a front end: that of its own lane (R71). -/
def feCluster (fe : Nat) : Nat := (if fe < 72 then fe else fe + 96) / 48

/-- Input-path delays: front end, slope, threshold point. -/
def inTarget (h : Hub) (m : List Host.Cell) : List Int :=
  (List.range 2992).map fun j =>
    let fe := j / 34
    atTemp (fun i => 10 ^ 5 * rec32 m (0x3C100 + 4 * (((fe * 5 + i) * 2 + j / 17 % 2) * 17 + j % 17))) (h.clusterTemp (feCluster fe))

/-- Output-path delays: 96 clock outputs by 5 formats, then 64 pulse outputs by 4 drive settings. -/
def outTarget (h : Hub) (m : List Host.Cell) : List Int :=
  (List.range 736).map fun j => atTemp (fun i => 10 ^ 5 * rec32 m (0x4AAC0 + 4 * (j * 5 + i))) h.meanTemp

/-- Link fixed delays: port, δtx or δrx, line mode. -/
def linkTarget (h : Hub) (m : List Host.Cell) : List Int :=
  (List.range 288).map fun j => atTemp (fun i => 10 ^ 5 * rec32 m (0x4E440 + 4 * (j * 5 + i))) h.meanTemp

/-- The section of a crystal. -/
def crystalSection (m : List Host.Cell) (r : Side) : Bytes :=
  memReadN m (match r with
    | .a => 0x4FAC0
    | .b => 0x4FED0) 1040

/-- C_nom + C_T of a crystal at the present oven reading; zero without a calibration (R51, R394). -/
def Hub.crystal (h : Hub) (r : Side) : Int :=
  match h.cal.loaded with
  | none => 0
  | some _ => Config.crystalNom (crystalSection h.cal.record r) + Config.crystalTemp (crystalSection h.cal.record r) h.clk.oven

/-- The root in use. -/
def Hub.activeSide (h : Hub) : Side := if h.clk.activeB then .b else .a

/-- The target of C: the active crystal's own value and what a changeover has left (R49, R51). -/
def Hub.corrAim (h : Hub) : Int := h.crystal h.activeSide + h.clk.corrInherit

/-! ## The rate limits (R397) -/

/-- An applied table one tick later: each value moves towards its target by at most `step`; a table not yet there is taken
in full. -/
def slewList (step : Int) (now target : List Int) : List Int :=
  if now.isEmpty then target else (now.zip target).map fun p => toward step p.2 p.1

/-- Values of an applied table that are not at their target. -/
def lagOf (now target : List Int) : Nat := ((now.zip target).filter fun p => p.1 != p.2).length

/-- TRIM_SLEW over 1 s, of bin edges (10^-5 of 2^-24 period) and of delays (10^-5 fu). -/
def binSlew (slew : Nat) : Int := slew * 25165824
def delaySlew (slew : Nat) : Int := slew * 65536

/-- The temperatures of the clusters and what R75 says of them. -/
def applyTemps (h : Hub) : Hub :=
  let ts := (List.range 4).map h.clusterTemp
  let mask f := BitVec.ofNat 4 ((ts.zipIdx.map fun p => if f p.1 then 2 ^ p.2 else 0).sum)
  let clamped := mask fun t => decide (t < tempLow) || decide (tempHigh < t)
  let extrap := mask fun t => (decide (tempLow ≤ t) && decide (t < -640)) || (decide (1520 < t) && decide (t ≤ tempHigh))
  let h := h.onTdc fun t => { t with temp := Vector.ofFn fun c => ts.getD c 0, extrap, clamped }
  if clamped = 0 then h else raiseTdc (bit16 2) h

/-- The tables move to the targets of the present temperatures; at load (`full`) in full (R396, R397). -/
def applyTrims (full : Bool) (h : Hub) : Hub :=
  match h.cal.loaded with
  | none => h
  | some _ =>
    let m := h.cal.record
    let slew := h.shim.slew
    let bt : Vector (List Int) 192 := Vector.ofFn fun (l : Fin 192) => binTarget m l (h.clusterTemp (l / 48))
    let it := inTarget h m
    let ot := outTarget h m
    let lt := linkTarget h m
    h.onCal fun c =>
      let bins := if full then bt else Vector.ofFn fun (l : Fin 192) => slewList (binSlew slew) c.bins[l] bt[l]
      let inPath := if full then it else slewList (delaySlew slew) c.inPath it
      let outPath := if full then ot else slewList (delaySlew slew) c.outPath ot
      let linkFix := if full then lt else slewList (delaySlew slew) c.linkFix lt
      { c with
        bins, binTargets := bt, inPath, outPath, linkFix
        lagging := ((allFin 192).map fun l => lagOf bins[l] bt[l]).sum + lagOf inPath it + lagOf outPath ot + lagOf linkFix lt }

/-- C at a trim tick: in full until TB_WARM has been 1 (R53), and a new target for the 1 ms ramp after that (R397). -/
def aimCorr (full : Bool) (h : Hub) : Hub :=
  let c := h.corrAim
  h.onClk fun k => { k with corrTarget := c, corr := if full || !k.everWarm then c else k.corr }

/-- The 1 ms step of C: 10^-5 ppt, in 2^-40 ppt. -/
def corrStep : Int := 10995116

/-- C moves towards its target at a 1 ms tick (R397). -/
def rampCorr (h : Hub) : Hub := h.onClk fun k => { k with corr := toward corrStep k.corrTarget k.corr }

/-- SETTINGS that wait take effect at a trim tick and complete (R381). -/
def applySettings (h : Hub) : Hub :=
  forEach h.shim.settings (fun s h => complete s.1 .ok (h.onShim fun x => { x with slew := s.2.1, scrubH := s.2.2 }))
    (h.onShim fun x => { x with settings := [] })

/-- The trim tick (R396): settings, tables, C, and the path-delay class of each pulse output (R478). -/
def trimTick (h : Hub) : Hub :=
  let h := aimCorr false (applyTrims false (applyTemps (applySettings h)))
  { (h.onCal fun c => { c with ticks := c.ticks + 1 }) with plss := h.plss.map fun p => { p with delayClass := p.vddp } }

/-! ## The load in BOOT (R394) -/

/-- The copy that is loaded: the valid one with the higher generation, A when they are equal. -/
def Shim.bestCopy (s : Shim) : Option Side :=
  if s.copyValid .a && (!s.copyValid .b || decide (s.calNum .b 0 4 ≤ s.calNum .a 0 4)) then some .a
  else if s.copyValid .b then some .b
  else none

/-- Load the calibration. -/
def loadCal (h : Hub) : Hub :=
  let h := readLong accRead mInternal (calBase .b) calLength (readLong accRead mInternal (calBase .a) calLength h)
  let s := h.shim
  let av := s.copyValid .a
  let bv := s.copyValid .b
  match s.bestCopy with
  | none =>
    sendFault srcCal .checkword accNone mInternal 0 (raiseCal (bit16 1) (h.onCal fun c =>
      { c with loaded := none, aValid := false, bValid := false, degraded := true, uncal := true, record := [], time := 0,
               bins := Vector.replicate 192 [], binTargets := Vector.replicate 192 [], inPath := [], outPath := [], linkFix := [],
               lagging := 0 }))
  | some c =>
    let base := calBase c
    let rec_ := (s.mem.filter fun x => decide (base ≤ x.1) && decide (x.1 < base + calLength)).map fun x => (x.1 - base, x.2)
    let h := h.onCal fun k =>
      { k with loaded := some c, aValid := av, bValid := bv, degraded := !(av && bv), uncal := false, record := rec_
               time := s.calNum c 24 6 }
    let h := applyTrims true (applyTemps h)
    if av && bv then h else raiseCal (bit16 0) h

end Sys2Proof.Machine
end

