-- ==== Sys2Proof/Machine/ShimCmds.lean ====
section
/-!
DEFINITION. The commands of the Shim store (chapter 12) and the reads of the Peat record (R423, R424): SHIM_READ,
SHIM_TXN, the journal's phases, firmware images, the scrubber, profiles, the hour counter and the loader's own work.
-/

namespace Sys2Proof.Machine

/-! ## Images (R382, R383) -/

/-- A number of n bytes at offset o of an image. -/
def Shim.imageNum (s : Shim) (i : Side) (o n : Nat) : Nat := leNat (memReadN s.mem (imageBase i + o) n)

/-- A run of the array holds a poisoned group. -/
def Shim.poisonRun (s : Shim) (a n : Nat) : Bool :=
  s.poison.any fun g => decide (a / 16 ≤ g) && decide (16 * g < a + n)

/-- Body length, build and version of an image's header. -/
def Shim.imageLength (s : Shim) (i : Side) : Nat := s.imageNum i 12 4
def Shim.imageBuild (s : Shim) (i : Side) : Nat := s.imageNum i 4 4
def Shim.imageVersion (s : Shim) (i : Side) : Nat := s.imageNum i 8 3

/-- The reason code of the first check of R383 that an image's header fails; 0 when it passes. -/
def Shim.headerReason (s : Shim) (i : Side) : Nat :=
  if s.poisonRun (imageBase i) 512 then 4
  else if s.imageNum i 0 4 != 1 || s.imageBuild i == 0 || !inRange (s.imageLength i) 1 1048064 then 1
  else if Config.siliconMajor.toNat < s.imageNum i 16 1 then 5
  else 0

/-- The reason code of the first check of R383 that an image fails; 0 when it passes. -/
def Shim.imageReason (s : Shim) (i : Side) : Nat :=
  let base := imageBase i
  if s.headerReason i != 0 then s.headerReason i
  else if s.poisonRun (base + 512) (s.imageLength i) then 4
  else if sha384 (memReadN s.mem (base + 512) (s.imageLength i)) != memReadN s.mem (base + 32) 48 then 2
  else if !Config.signed (memReadN s.mem base 80) (memReadN s.mem (base + 80) 96) then 3
  else 0

/-- Reading an image to check it, by an agent: its header, and its body when the header passes (R383). -/
def readImage (master : Nat) (i : Side) (h : Hub) : Hub :=
  let h := readLong accRead master (imageBase i) 512 h
  if h.shim.headerReason i = 0 then readLong accRead master (imageBase i + 512) (h.shim.imageLength i) h else h

/-- Reading every group of an image (R428). -/
def readWholeImage (master : Nat) (i : Side) (h : Hub) : Hub := readLong accRead master (imageBase i) 0x100000 h

/-! ## SHIM_READ (R379) -/

def shimAddr (p : Payload) : Nat := pf p 0 0 32
def shimLen (p : Payload) : Nat := pf p 4 0 16
def shimHost (p : Payload) : BitVec 64 := p.extractLsb' 64 64

/-- The range overlaps a transaction that is being applied: the read waits (R376). -/
def Shim.applying (s : Shim) (a n : Nat) : Bool :=
  match s.txn with
  | some t => t.committed && t.extents.any fun e => decide (a < e.1 + e.2.length) && decide (e.1 < a + n)
  | none => false

/-- Every byte of a range lies in a partition open to reads. The partitions closed to reads end on the bounds tried. -/
def readableRun (a n : Nat) : Bool :=
  readable a && readable (a + n - 1) && !(decide (a < 0x380000) && decide (0x380000 < a + n))
  && !(decide (a < 0x3E0000) && decide (0x3E0000 < a + n))

/-- The result of a read that met poison: their number, and the address of the first. -/
def poisonResult (bad : List Nat) : BitVec 192 := resultOf [(0, 32, bad.length), (32, 32, 16 * bad.headD 0)]

def shimReadEff (d : Desc) (h : Hub) : Hub :=
  let a := shimAddr d.payload
  let n := shimLen d.payload
  if !inRange n 1 4096 || decide (shimSize < a + n) then complete d.id .badParam h
  else if !readableRun a n then complete d.id .denied h
  else
    let h := readCheck accRead h.chargeCode a n h
    let bad := h.shim.poisonedIn a n
    let h := busWrite (shimHost d.payload) (h.shim.bytes a n) h
    if bad.isEmpty then complete d.id .ok h else completeWith d.id .poisoned (poisonResult bad) h

/-- SHIM_READ. -/
def shimRead (o : Origin) (h : Hub) : Hub :=
  serve o (fun d => isOp 0x70 d && !h.shim.applying (shimAddr d.payload) (shimLen d.payload)) shimReadEff h

/-! ## SHIM_TXN (R380, R381, R384) -/

def txnOp (p : Payload) : Nat := pf p 0 0 8
def txnCount (p : Payload) : Nat := pf p 1 0 8

/-- Extents of a list with the bytes that belong to them, in order. -/
def extentsOf : Nat → Bytes → Bytes → List (Nat × Bytes)
  | 0, _, _ => []
  | k + 1, list, data =>
    let n := leAt list 4 2
    (leAt list 0 4, slice data 0 n) :: extentsOf k (list.drop 16) (data.drop n)

/-- Two extents overlap. -/
def extentsMeet (e f : Nat × Bytes) : Bool := decide (e.1 < f.1 + f.2.length) && decide (f.1 < e.1 + e.2.length)

/-- Some two extents of a list overlap. -/
def anyMeet : List (Nat × Bytes) → Bool
  | [] => false
  | e :: es => es.any (extentsMeet e) || anyMeet es

/-- Bytes of all extents. -/
def totalOf (es : List (Nat × Bytes)) : Nat := (es.map fun e => e.2.length).sum

/-- Values of a WRITE that R381 refuses. -/
def extentsBad (es : List (Nat × Bytes)) : Bool :=
  es.any (fun e => !inRange e.2.length 1 4096 || decide (shimSize < e.1 + e.2.length)) || decide (4096 < totalOf es) || anyMeet es

/-- The images that extents touch. -/
def imagesTouched (es : List (Nat × Bytes)) : List Side :=
  [Side.a, Side.b].filter fun i => es.any fun e => decide (e.1 < imageBase i + 0x100000) && decide (imageBase i < e.1 + e.2.length)

/-- Some extent reaches a partition closed to writes, an image that a warden executes, or both images are touched. -/
def Shim.extentsDenied (s : Shim) (es : List (Nat × Bytes)) : Bool :=
  es.any (fun e => !s.writable e.1 || !s.writable (e.1 + e.2.length - 1)
    || (decide (e.1 < 0x200000) && decide (0x200000 < e.1 + e.2.length))
    || (decide (e.1 < 0x300000) && decide (0x300000 < e.1 + e.2.length))
    || (decide (e.1 < 0x3E0000) && decide (0x3E0000 < e.1 + e.2.length)))
  || decide (1 < (imagesTouched es).length)

/-- Some extent covers a part of a poisoned group. -/
def Shim.partPoison (s : Shim) (es : List (Nat × Bytes)) : Bool :=
  es.any fun e => (s.poisonedIn e.1 e.2.length).any fun g => !(decide (e.1 ≤ 16 * g) && decide (16 * g + 16 ≤ e.1 + e.2.length))

def shimTxnWriteEff (dma : Option (Bytes × Bytes)) (d : Desc) (h : Hub) : Hub :=
  let p := d.payload
  let list := pf p 8 0 64
  if txnOp p != 0 || !inRange (txnCount p) 1 16 || list % 16 != 0 then complete d.id .badParam h
  else match dma with
    | none => complete d.id .aborted (sendFault srcPcie .poisonRead accDmaRead mDma (list % 2 ^ 32) h)
    | some (l, data) =>
      let es := extentsOf (txnCount p) l data
      if extentsBad es then complete d.id .badParam h
      else if h.shim.extentsDenied es then complete d.id .denied h
      else if h.shim.partPoison es then complete d.id .poisoned h
      else queueTxn (es ++ (imagesTouched es).map fun i => (stateWordAt i, [0, 0, 0, 0])) (some d.id) (some (totalOf es)) h

/-- SHIM_TXN WRITE, and the ops that R380 refuses. -/
def shimTxnWrite (o : Origin) (dma : Option (Bytes × Bytes)) (h : Hub) : Hub :=
  serve o (isOpSub 0x71 fun p => txnOp p == 0 || decide (3 < txnOp p)) (shimTxnWriteEff dma) h

/-- The image that VERIFY or INVALIDATE names. -/
def txnImage (p : Payload) : Option Side := if txnCount p = 0 then some .a else if txnCount p = 1 then some .b else none

/-- Act on the image named, refused while a warden executes from it. -/
def onImage (f : Side → Hub → Hub) (d : Desc) (h : Hub) : Hub :=
  match txnImage d.payload with
  | none => complete d.id .badParam h
  | some i => if h.shim.exec i then complete d.id .denied h else f i h

def shimTxnVerifyEff (d : Desc) (h : Hub) : Hub :=
  onImage (fun i h =>
    let h := readImage h.chargeCode i h
    let r := h.shim.imageReason i
    if r = 0 then
      completeWith d.id .ok (resultOf [(0, 32, h.shim.imageBuild i), (32, 32, h.shim.imageVersion i)]) (bumpCounter 14 (setImageState i 1 h))
    else completeWith d.id .denied (resultOf [(64, 8, r)]) (invalidateImage i h)) d h

/-- SHIM_TXN VERIFY. -/
def shimTxnVerify (o : Origin) (h : Hub) : Hub := serve o (isOpSub 0x71 fun p => txnOp p == 1) shimTxnVerifyEff h

def shimTxnInvalidateEff (d : Desc) (h : Hub) : Hub :=
  onImage (fun i h => queueTxn [(stateWordAt i, [0, 0, 0, 0])] (some d.id) none h) d h

/-- SHIM_TXN INVALIDATE. -/
def shimTxnInvalidate (o : Origin) (h : Hub) : Hub := serve o (isOpSub 0x71 fun p => txnOp p == 2) shimTxnInvalidateEff h

def shimTxnSettingsEff (d : Desc) (h : Hub) : Hub :=
  let slew := pf d.payload 16 0 32
  let hours := pf d.payload 20 0 8
  if !inRange slew 1 10000 || !inRange hours 1 168 then complete d.id .badParam h
  else (copyWritten 0x19000 8 h).onShim fun s =>
    { s with settings := s.settings ++ [(d.id, slew, hours)], setCopy := d.payload.extractLsb' 128 64 }

/-- SHIM_TXN SETTINGS: in force, and complete, at the next trim tick. -/
def shimTxnSettings (o : Origin) (h : Hub) : Hub := serve o (isOpSub 0x71 fun p => txnOp p == 3) shimTxnSettingsEff h

/-! ## The journal's phases (R376) -/

/-- Open the next transaction, when none is open. -/
def journalOpen (h : Hub) : Hub :=
  match h.shim.txn, h.shim.waiting with
  | none, t :: ts => h.onShim fun s => { s with txn := some t, waiting := ts }
  | none, [] => h
  | some _, _ => h

/-- Write the commit mark of the open transaction. -/
def journalCommit (h : Hub) : Hub := h.onShim fun s => { s with txn := s.txn.map fun t => { t with committed := true } }

/-- Set SHIM_EVT.image_invalid when an image that was VALID is not VALID any more. -/
def noteInvalid (before : Shim) (h : Hub) : Hub :=
  if [Side.a, Side.b].any (fun i => before.imageValid i && !h.shim.imageValid i) then raiseShim (bit16 3) h else h

/-- Apply the committed transaction, retire it, and complete its descriptor. -/
def journalApply (h : Hub) : Hub :=
  match h.shim.txn with
  | none => h
  | some t =>
    if !t.committed then h
    else
      let h := noteInvalid h.shim (applyTxn t (h.onShim fun s => { s with txn := none }))
      match t.desc with
      | none => h
      | some id => completeWith id .ok (match t.total with
        | some n => resultOf [(0, 32, t.seq), (32, 16, n)]
        | none => 0) h

/-- JOURNAL_TRANSACTION: the transaction at the head of the journal goes as far as the phase named. After PFAIL or a trip no new
transaction is opened (R378). -/
def journalTransaction (upto : JPhase) (h : Hub) : Hub :=
  if !h.runs then h
  else
    let h := if h.shim.halted then h else journalOpen h
    match upto with
    | .opened => h
    | .committed => journalCommit h
    | .applied => journalApply (journalCommit h)

/-! ## The Peat record (R423, R424) -/

def peatReadEff (d : Desc) (h : Hub) : Hub :=
  let first := pf d.payload 0 0 16
  let count := pf d.payload 2 0 16
  let host := shimHost d.payload
  if decide (8191 < first) || !inRange count 1 64 || decide (8192 < first + count) || host.toNat % 64 != 0 then complete d.id .badParam h
  else
    let a := peatBase + 64 * first
    let h := readCheck accRead h.chargeCode a (64 * count) h
    let bad := h.shim.poisonedIn a (64 * count)
    completeWith d.id (if bad.isEmpty then .ok else .poisoned)
      (resultOf [(0, 32, h.flt.peatSeq), (32, 16, h.flt.head), (48, 8, h.flt.ffCount)])
      (busWrite host (h.shim.bytes a (64 * count)) h)

/-- PEAT_READ. -/
def peatRead (o : Origin) (h : Hub) : Hub := serve o (isOp 0x72) peatReadEff h

def archiveOp (p : Payload) : Nat := pf p 0 0 8

def peatArchiveArmEff (d : Desc) (h : Hub) : Hub :=
  if archiveOp d.payload != 0 then complete d.id .badParam h
  else
    let nonce := Config.random h.free
    let h := ({ h with free := h.free + 1 } : Hub).onFlt fun f => { f with armed := some (d.origin, nonce, h.clk.ms, false) }
    completeWith d.id .ok (resultOf [(0, 64, nonce.toNat)]) h

/-- PEAT_ARCHIVE ARM, and the ops above 1. -/
def peatArchiveArm (o : Origin) (h : Hub) : Hub := serve o (isOpSub 0x73 fun p => archiveOp p != 1) peatArchiveArmEff h

/-- CRC of the first-fault zone as stored. -/
def Hub.zoneCrc (h : Hub) : Nat := crc32c (h.shim.bytes peatBase 4096)

/-- The COMMIT meets all four conditions of R424. -/
def Hub.archiveOk (h : Hub) (d : Desc) : Bool :=
  match h.flt.armed with
  | none => false
  | some (o, nonce, ms, written) =>
    o == d.origin && nonce == shimHost d.payload && decide (h.clk.ms ≤ ms + 60000) && !written && pf d.payload 16 0 32 == h.zoneCrc

def peatArchiveCommitEff (d : Desc) (h : Hub) : Hub :=
  let okay := h.archiveOk d
  let crc := h.zoneCrc
  let n := h.flt.ffCount
  let h := h.onFlt fun f => { f with armed := none }
  if !okay then complete d.id .denied h
  else
    let h := (journalNow [(peatBase, List.replicate 4096 0)] h).onFlt fun f => { f with ffCount := 0, ffFull := false }
    let h := raiseFlt (bit16 10) (peatEvent 7 ([BitVec.ofNat 8 n, 0, 0, 0] ++ leBytes 4 crc) h)
    completeWith d.id .ok (resultOf [(0, 8, n)]) h

/-- PEAT_ARCHIVE COMMIT. -/
def peatArchiveCommit (o : Origin) (h : Hub) : Hub := serve o (isOpSub 0x73 fun p => archiveOp p == 1) peatArchiveCommitEff h

/-! ## Journal records in the array (R490) -/

/-- Groups of the array that a part of a journal record occupies: 0 and 1 the copies of its header, 2 its bytes. -/
def recordGroups (seq part : Nat) : List Nat := (Config.recordGroups seq part).map fun x => 0x39000 + x % 4096

/-- A part of a record holds a poisoned group. -/
def Shim.recordBad (s : Shim) (seq part : Nat) : Bool := (recordGroups seq part).any s.poison.contains

/-- A record without a commit mark, or with no readable header, is discarded. -/
def rollBack (h : Hub) : Hub := raiseShim (bit16 5) h

/-- A record neither of whose headers can be read. -/
def loseHeader (h : Hub) : Hub := rollBack (sendFault srcJournal .eccUe accRead mInternal 0 h)

/-- A committed record that holds a poisoned group: every target group is poisoned (R377). -/
def loseRecord (t : Txn) (h : Hub) : Hub :=
  sendFault srcJournal .eccUe accRead mInternal ((t.extents.map (·.1)).headD 0)
    (forEach (t.extents.flatMap fun e => groupsOf e.1 e.2.length) poisonGroup h)

/-- The scrubber has poisoned a group of the journal: the committed record that is still needed is lost with it, and its descriptor
completes with POISONED (DESIGN CHOICE, log 49). -/
def journalFound (h : Hub) : Hub :=
  match h.shim.txn with
  | none => h
  | some t =>
    let noHeader := h.shim.recordBad t.seq 0 && h.shim.recordBad t.seq 1
    if t.committed && (noHeader || h.shim.recordBad t.seq 2) then
      completeOpt t.desc .poisoned ((if noHeader then loseHeader else loseRecord t) (h.onShim fun s => { s with txn := none }))
    else h

/-! ## Counters with poisoned groups (R390) -/

/-- The groups of counter k's cells that cannot be read: poisoned, or to be found uncorrectable when they are. -/
def Shim.counterBad (s : Shim) (k : Nat) : List Nat :=
  (List.range 16).filter fun i =>
    let g := 0x38000 + 16 * k + i
    s.poison.contains g || s.damageOf g == .uncorrectable

/-- The largest value consistent with the cells that can be read: increments from v on wrote cells v mod 64 onwards in turn, and
those of an unreadable group may have been written (R390; DEDUCED, log 48). -/
def largestCount (v : Nat) (bad : List Nat) : Nat :=
  v + ((List.range (4 * bad.length)).takeWhile fun j => bad.contains ((v + j) % 64 / 4)).length

/-- A group of a counter was found poisoned: alone, it is rewritten whole and the value stays exact; with others, the counter goes on
from the largest consistent value. -/
def counterFound (g : Nat) (h : Hub) : Hub :=
  let k : Fin 256 := ⟨g / 16 % 256, Nat.mod_lt _ (by decide)⟩
  let bad := h.shim.counterBad k
  if bad.length ≤ 1 then h.onShim fun s => { s with poison := s.poison.filter fun x => x != g }
  else onCounter k (fun v => min (counterMax k) (largestCount v bad)) h

/-! ## The scrubber (R391) -/

/-- What follows an uncorrectable group, by partition. -/
def scrubFound (g : Nat) (h : Hub) : Hub :=
  let a := 16 * g
  let copy (c : Side) (h : Hub) : Hub :=
    raiseCal (bit16 2) ((journalNow [(calBase c, [0, 0, 0, 0])] h).onCal fun k =>
      { k with degraded := true, aValid := k.aValid && c != .a, bValid := k.bValid && c != .b })
  match imageOf a with
  | some i => invalidateImage i h
  | none =>
    if a < calBase .b then copy .a h
    else if a < profBase 0 then copy .b h
    else if inRange a 0x380000 0x38FFFF then counterFound g h
    else if inRange a 0x390000 0x39FFFF then journalFound h
    else h

/-- The scrubber reads the group that is next. -/
def scrubGroup (e : GroupErr) (h : Hub) : Hub :=
  let g := h.shim.scrub
  if h.shim.poison.contains g then h
  else match (if e == .clean then h.shim.damageOf g else e) with
    | .clean => h
    | .correctable =>
      bumpCounter 12 (raiseShim (bit16 0) (sendFault srcScrub .eccCe accRead mScrub (16 * g) (mendGroup g h)))
    | .uncorrectable =>
      scrubFound g (noteUe mScrub (16 * g) (sendFault srcScrub .eccUe accRead mScrub (16 * g) (poisonGroup g (mendGroup g h))))

/-- SCRUB_GROUP_READ: `e` is what the read finds. The scrubber starts at the end of BOOT and stops on PFAIL. -/
def scrubGroupRead (e : GroupErr) (h : Hub) : Hub :=
  when_ (h.runs && !h.inMode .boot && !h.shim.halted) (fun h =>
    let h := scrubGroup e h
    if h.shim.scrub + 1 < groupCount then h.onShim fun s => { s with scrub := s.scrub + 1 }
    else bumpCounter 11 (raiseShim (bit16 6) (h.onShim fun s => { s with scrub := 0 }))) h

/-! ## Profiles (R387, R388) -/

/-- A number of n bytes at offset o of profile slot p. -/
def Shim.profNum (s : Shim) (p o n : Nat) : Nat := leNat (memReadN s.mem (profBase p + o) n)

/-- Slot p is valid. -/
def Shim.profValid (s : Shim) (p : Nat) : Bool :=
  let n := s.profNum p 8 2
  s.profNum p 0 4 == 1 && s.profNum p 4 4 != 0 && inRange n 1 1023 && !s.poisonRun (profBase p) (64 + 64 * n)
  && crc32c (memReadN s.mem (profBase p) 60 ++ memReadN s.mem (profBase p + 64) (64 * n)) == s.profNum p 60 4

/-- The slot that an autostart takes: valid, eligible, of the highest generation, the lowest where they are equal. -/
def Shim.profBest (s : Shim) : Option (Fin 4) :=
  ((allFin 4).filter fun (p : Fin 4) => s.profValid p && natBit (s.profNum p 10 1) 0).foldl (fun b p => match b with
    | none => some p
    | some q => if s.profNum q 4 4 < s.profNum p 4 4 then some p else some q) none

/-- The descriptors of a slot. -/
def Shim.profDescs (s : Shim) (p : Nat) : List DescWord :=
  (List.range (s.profNum p 8 2)).map fun i => BitVec.ofNat 512 (leNat (memReadN s.mem (profBase p + 64 + 64 * i) 64))

/-- PROFILE_AUTOSTART: the warden in charge takes up the profile. -/
def profileAutostart (h : Hub) : Hub :=
  when_ (h.inMode .service && h.top.profileDue && h.inCharge) (fun h =>
    let h := forEach [0, 1, 2, 3] (fun p h => readLong accRead h.chargeCode (profBase p) (64 + 64 * min 1023 (h.shim.profNum p 8 2)) h)
      (h.onTop fun t => { t with profileDue := false })
    match h.shim.profBest with
    | none => raiseShim (bit16 7) (h.onShim fun s => { s with profResult := 3 })
    | some p =>
      let ds := h.shim.profDescs p
      profNext (bumpCounter 15 (h.onShim fun s =>
        { s with profSlot := BitVec.ofNat 2 p, profFailed := 0, profFirst := 0, profResult := 0, profRun := some ds, profAt := 0,
                 profCur := none }))) h

/-! ## Hours (R389) -/

/-- HOUR_COUNTER_TICK: a whole hour has passed since the end of BOOT or the last one. -/
def hourCounterTick (h : Hub) : Hub :=
  when_ (h.runs && decide (3600000 ≤ h.shim.hourMs))
    (fun h => bumpCounter 1 (h.onShim fun s => { s with hourMs := s.hourMs - 3600000 })) h

/-! ## The resident loader's array writes (R386) -/

/-- The image that SHIM_LDR_OFS names, and the offset. -/
def Shim.ldrImage (s : Shim) : Side := if s.ldrOfs.getLsbD 20 then .b else .a
def Shim.ldrOffset (s : Shim) : Nat := fld s.ldrOfs 0 20

/-- SHIM_LDR_OFS: image and offset, bits [1:0] of the offset zero. -/
def ldrOfs (v : Reg) (h : Hub) : Hub := h.onShim fun s => { s with ldrOfs := BitVec.ofNat 32 (fld v 2 19 * 4) }

/-- SHIM_LDR_DATA: the word is stored at the offset, which goes on by 4 within the image. The state word is the hub's own (R382):
the image being loaded is INVALID. -/
def ldrData (v : Reg) (h : Hub) : Hub :=
  let i := h.shim.ldrImage
  let o := h.shim.ldrOffset
  let h := if o = 176 then h else storeRun (imageBase i + o) (leBytes 4 v.toNat) h
  (storeRun (stateWordAt i) [0, 0, 0, 0] h).onShim fun s =>
    { s with ldrOfs := BitVec.ofNat 32 (at_ 20 1 (b2n (i == .b)) + (o + 4) % 2 ^ 20) }

/-- SHIM_LDR_CTL.verify: the check runs until LOADER_VERIFY_DONE. -/
def ldrVerify (h : Hub) : Hub := h.onShim fun s => { s with ldrBusy := true }

/-! ## Meanings -/

def execShimRead (o : Origin) (s : State) := run (shimRead o) s
def execShimTxnWrite (o : Origin) (dma : Option (Bytes × Bytes)) (s : State) := run (shimTxnWrite o dma) s
def execShimTxnVerify (o : Origin) (s : State) := run (shimTxnVerify o) s
def execShimTxnInvalidate (o : Origin) (s : State) := run (shimTxnInvalidate o) s
def execShimTxnSettings (o : Origin) (s : State) := run (shimTxnSettings o) s
def execPeatRead (o : Origin) (s : State) := run (peatRead o) s
def execPeatArchiveArm (o : Origin) (s : State) := run (peatArchiveArm o) s
def execPeatArchiveCommit (o : Origin) (s : State) := run (peatArchiveCommit o) s
def execJournalTransaction (upto : JPhase) (s : State) := run (journalTransaction upto) s
def execScrubGroupRead (e : GroupErr) (s : State) := run (scrubGroupRead e) s
def execProfileAutostart (s : State) := run profileAutostart s
def execHourCounterTick (s : State) := run hourCounterTick s

end Sys2Proof.Machine
end

