-- ==== Sys2Proof/Machine/Hierarchy.lean ====
section
/-!
DEFINITION. The commands of the management group (chapter 08): roles and election, discovery and addresses, forwarded
descriptors, and the HIER_DISCOVER and HIER_FORWARD descriptors. A message that has been delivered waits at the head of
the inbox until the command of its kind takes it.
-/

namespace Sys2Proof.Machine

/-! ## Roles (R260, R265) -/

def Hier.priority (x : Hier) : Nat := pf x.cfg 1 0 8

/-- A hub of priority 0 to 254 is capable (R265). -/
def Hier.capable (x : Hier) : Bool := decide (x.priority ≤ 254)

/-- One tuple is lower than another, field by field. -/
def tupleLt (a b : Nat × Nat × BitVec 64) : Bool :=
  decide (a.1 < b.1) || (a.1 == b.1 && (decide (a.2.1 < b.2.1) || (a.2.1 == b.2.1 && decide (a.2.2.toNat < b.2.2.toNat))))

/-- The hub's own tuple, its class taken afresh. -/
def Hub.ownTuple (h : Hub) : Nat × Nat × BitVec 64 := (h.hier.priority, h.hierClass, Config.serial)

/-- The manager's tuple as last announced; none without a manager. -/
def Hier.mgrTuple (x : Hier) : Option (Nat × Nat × BitVec 64) :=
  if x.mgrAddr = 0 ∧ x.mgrSerial = 0 then none else some (x.mgrPrio, x.mgrClass, x.mgrSerial)

/-- The manager has sent no ANNOUNCE for 3 s. -/
def Hub.mgrSilent (h : Hub) : Bool := decide (h.hier.mgrMs + 3000 ≤ h.clk.ms)

/-- No manager is known. -/
def Hier.forgetManager (x : Hier) : Hier := { x with mgrPrio := 0, mgrClass := 0, mgrAddr := 0, mgrSerial := 0, stbySerial := 0 }

/-- Own tuple lower than every tuple received in the last 3 s (R266). -/
def Hub.lowest (h : Hub) : Bool :=
  h.hier.heard.all fun e => decide (e.2.2.2 + 3000 ≤ h.clk.ms) || tupleLt h.ownTuple (e.1, e.2.1, e.2.2.1)

/-- The HIER tasks that have a reed in a half. -/
def Hub.hierIn (h : Hub) (s : Side) : List Nat :=
  [124, 125].filter fun t => match (pick h.comp.tasks t {}).reed with
    | some n => halfOf n.val == s
    | none => false

/-- The HIER tasks that hierarchy work runs in (R286): the one in the half of the warden in charge; where none stands in that half,
the other. -/
def Hub.hierTasks (h : Hub) : List Nat :=
  match h.comp.charge with
  | none => []
  | some s => if (h.hierIn s).isEmpty then h.hierIn (otherSide s) else h.hierIn s

/-- Hierarchy work runs (R286). A task that moves still runs on its source reed. -/
def Hub.hierRuns (h : Hub) : Bool :=
  h.runs && h.hierTasks.any h.taskRuns

/-- Change the role, with HIER_EVT.role_change. -/
def setRole (r : Role) (h : Hub) : Hub :=
  if h.hier.role == r then h else raiseHier (bit16 0) (h.onHier fun x => { x with role := r })

/-- Change the own address, with HIER_EVT.addr_change. -/
def setAddr (a : BitVec 12) (h : Hub) : Hub :=
  if h.hier.addr = a then h else raiseHier (bit16 2) (h.onHier fun x => { x with addr := a })

/-- The lowest address from 0x001 to 0xFFE that neither the manager nor, apart from hub `self`, its table holds. -/
def Hub.lowestFree (h : Hub) (self : BitVec 64) : Option (BitVec 12) :=
  let used := h.hier.addr :: ((h.hier.table.filter fun r => r.serial != self).map (·.addr))
  ((List.range 4094).find? fun i => !used.contains (BitVec.ofNat 12 (i + 1))).map fun i => BitVec.ofNat 12 (i + 1)

/-- The hub becomes MANAGER (R267): it keeps its address, or takes the lowest free one; a new term begins. -/
def becomeManager (h : Hub) : Hub :=
  let h := h.onHier fun x =>
    { x with
      mgrPrio := x.priority, mgrSerial := Config.serial, stbySerial := 0, table := [], exhausted := [], answered := [], answeredLast := []
      annNext := h.clk.ms, discNext := h.clk.ms, lowSince := none }
  let h := if h.hier.addr = 0 then setAddr ((h.lowestFree 0).getD 1) h else h
  let cls := h.hierClass
  setRole .manager (h.onHier fun x => { x with mgrAddr := x.addr, mgrClass := cls })

/-- The manager steps down (R267): pending HIER_FORWARD and SCAN complete with ABORTED, the fixed assignments and its table
are cleared. -/
def stepDown (h : Hub) : Hub :=
  let fw := h.hier.fwds
  let sc := h.hier.scans
  let h := h.onHier fun x => { x with fwds := [], scans := [], fixed := [], table := [], answered := [], answeredLast := [] }
  let h := forEach fw (fun f => complete f.desc .aborted) h
  let h := forEach sc (fun s => complete s.1 .aborted) h
  setRole .worker (raiseHier (bit16 1) h)

/-- What the hub knows of its manager. -/
def setManager (t : Nat × Nat × BitVec 64) (a : BitVec 12) (stby : BitVec 64) (h : Hub) : Hub :=
  h.onHier fun x => { x with mgrPrio := t.1, mgrClass := t.2.1, mgrSerial := t.2.2, mgrAddr := a, stbySerial := stby, mgrMs := h.clk.ms }

/-- Take the message at the head of the inbox when it is of this kind and hierarchy work runs. -/
def takeInbox (kind : Nat) (f : Msg → Hub → Hub) (h : Hub) : Hub :=
  match h.hier.inbox with
  | m :: rest => if h.hierRuns && msgKind m.data == kind then f m (h.onHier fun x => { x with inbox := rest }) else h
  | [] => h

/-! ## ANNOUNCE (R266 to R268) -/

/-- The hubs that answered the last discovery: the present one once its REPORTs are in, 1 s after its DISCOVER, and till then the one
before (log 87). -/
def Hub.reported (h : Hub) : List (BitVec 64) :=
  if h.hier.discMs + 1000 ≤ h.clk.ms then h.hier.answered else h.hier.answeredLast

/-- The standby that the manager names: the capable hub with the lowest tuple among the REPORTs of its last discovery. -/
def Hub.nextStandby (h : Hub) : BitVec 64 :=
  let rows := h.hier.table.filter fun r => h.reported.contains r.serial && decide (r.priority ≤ 254) && !r.passive
  match rows.foldl (fun (b : Option HubRow) r => match b with
    | none => some r
    | some v => if tupleLt (r.priority, r.cls, r.serial) (v.priority, v.cls, v.serial) then some r else some v) none with
  | some r => r.serial
  | none => 0

/-- The hub announces now (R266): a capable MANAGER or STANDBY, or a capable hub that is not PASSIVE and whose tuple is the
lowest. -/
def Hub.announces (h : Hub) : Bool :=
  h.hier.capable && match h.hier.role with
    | .manager | .standby => true
    | .unassigned | .worker => h.lowest
    | .passive => false

/-- ANNOUNCE leaves, once a second. -/
def announceSend (h : Hub) : Hub :=
  when_ (h.hierRuns && h.announces && decide (h.hier.annNext ≤ h.clk.ms)) (fun h =>
    let mgr := h.hier.role == .manager
    let cls := h.hierClass
    let stby := h.nextStandby
    let h := h.onHier fun x => { x with annNext := h.clk.ms + 1000 }
    let h := if mgr then h.onHier fun x => { x with mgrPrio := x.priority, mgrClass := cls, stbySerial := stby } else h
    originate 1 bcast ([BitVec.ofNat 8 h.hier.priority, BitVec.ofNat 8 cls] ++ leBytes 2 (if mgr then h.hier.addr.toNat else 0)
      ++ leBytes 8 (if mgr then stby.toNat else 0) ++ [0, 0, 0, 0]) h) h

/-- An ANNOUNCE from a MANAGER at a hub that is not one: it is followed when it is the manager known, when none is known or
that one has been silent for 3 s, or when its tuple is lower (log 23). -/
def followManager (t : Nat × Nat × BitVec 64) (a : BitVec 12) (stby : BitVec 64) (h : Hub) : Hub :=
  let x := h.hier
  let accept := match x.mgrTuple with
    | none => true
    | some v => x.mgrSerial == t.2.2 || h.mgrSilent || tupleLt t v
  if !accept then h
  else
    let h := setManager t a stby h
    match h.hier.role with
    | .unassigned => if h.hier.addr = 0 then h else setRole .worker h
    | .worker => if stby == Config.serial && h.hier.capable then setRole .standby h else h
    | .standby => if stby == Config.serial then h else setRole .worker h
    | .manager | .passive => h

/-- An ANNOUNCE arrives (R267). Every tuple received in the last 3 s is kept (R266). -/
def takeAnnounce (m : Msg) (h : Hub) : Hub :=
  let b := msgBody m.data
  let t := ((byteAt b 0).toNat, (byteAt b 1).toNat, msgOrigin m.data)
  let a := BitVec.ofNat 12 (leAt b 2 2)
  let h := h.onHier fun x =>
    { x with heard := (t.1, t.2.1, t.2.2, h.clk.ms) :: x.heard.filter fun e => decide (h.clk.ms < e.2.2.2 + 3000) && e != (t.1, t.2.1, t.2.2, h.clk.ms) }
  if a = 0 then h
  else if h.hier.role == .manager then
    if tupleLt t h.ownTuple then setManager t a (BitVec.ofNat 64 (leAt b 4 8)) (stepDown h) else h
  else followManager t a (BitVec.ofNat 64 (leAt b 4 8)) h

def announceReceived (h : Hub) : Hub := takeInbox 1 takeAnnounce h

/-- A hub's manager has fallen silent: UNASSIGNED, with the address kept. -/
def loseManager (h : Hub) : Hub := setRole .unassigned (raiseHier (bit16 3) (h.onHier Hier.forgetManager))

/-- No ANNOUNCE from the manager for 3 s (R267). -/
def managerSilentTimeout (h : Hub) : Hub :=
  let due := h.hierRuns && h.mgrSilent
  match h.hier.role with
  | .standby => when_ due (fun h => if h.hier.capable then becomeManager h else loseManager h) h
  | .worker | .passive => when_ due loseManager h
  | .unassigned | .manager => h

/-- A capable hub's tuple has been lower than every tuple received, the manager's included, for 3 s without a break. -/
def lowestTupleTimeout (h : Hub) : Hub :=
  let due := h.hierRuns && h.hier.capable && match h.hier.lowSince with
    | some t => decide (t + 3000 ≤ h.clk.ms)
    | none => false
  match h.hier.role with
  | .unassigned | .worker | .standby => when_ due becomeManager h
  | .manager | .passive => h

/-- What is kept at each 1 ms tick, also while the HIER task is being restored (R286): since when the own tuple has been the lowest,
the manager's own tuple included. An UNASSIGNED hub that has heard a manager forgets it when it falls silent. -/
def hierTick (h : Hub) : Hub :=
  let h := if h.hier.role == .unassigned && h.mgrSilent then h.onHier Hier.forgetManager else h
  let low := !h.inMode .boot && h.hier.capable && h.lowest && (match h.hier.mgrTuple with
    | none => true
    | some v => v.2.2 == Config.serial || tupleLt h.ownTuple v)
  h.onHier fun x => { x with lowSince := if low then some (x.lowSince.getD h.clk.ms) else none }

/-! ## Discovery and addresses (R270, R271) -/

/-- Send ASSIGN. -/
def sendAssign (serial : BitVec 64) (a : BitVec 12) (h : Hub) : Hub :=
  originate 4 bcast (leBytes 8 serial.toNat ++ leBytes 2 a.toNat ++ List.replicate 6 0) h

/-- Put a row into the table in place of the hub's row before. -/
def putRow (r : HubRow) (h : Hub) : Hub := h.onHier fun x => { x with table := r :: x.table.filter fun e => e.serial != r.serial }

/-- Passive hubs take the free addresses, lowest serial first. -/
def assignPassive (h : Hub) : Hub :=
  let rows := (h.hier.table.filter (·.passive)).mergeSort fun a b => decide (a.serial.toNat ≤ b.serial.toNat)
  forEach rows (fun r h => match h.lowestFree r.serial with
    | some a => sendAssign r.serial a (putRow { r with addr := a, passive := false, confirmed := false } h)
    | none => h) h

/-- A discovery begins: hubs that did not answer the last one are aged, and removed after three; DISCOVER leaves. -/
def discover (h : Hub) : Hub :=
  let h := h.onHier fun x =>
    { x with
      table := (x.table.map fun r => if x.answered.contains r.serial then { r with missed := 0 } else { r with missed := r.missed + 1 }).filter
        fun r => decide (r.missed < 3)
      answered := [], answeredLast := x.answered, discMs := h.clk.ms, scan := x.scan + 1 }
  assignPassive (originate 2 bcast (leBytes 2 h.hier.scan.toNat ++ List.replicate 6 0) h)

/-- DISCOVER leaves the manager, every 10 s from its taking the role. -/
def discoverSend (h : Hub) : Hub :=
  when_ (h.hierRuns && h.hier.role == .manager && decide (h.hier.discNext ≤ h.clk.ms))
    (fun h => discover (h.onHier fun x => { x with discNext := h.clk.ms + 10000 })) h

/-- A DISCOVER arrives: a REPORT is due (serial modulo 256) ms later. -/
def takeDiscover (m : Msg) (h : Hub) : Hub :=
  h.onHier fun x =>
    { x with reportDue := x.reportDue ++ [(BitVec.ofNat 16 (leAt (msgBody m.data) 0 2), h.clk.ms + Config.serial.toNat % 256, m.src)] }

def discoverReceived (h : Hub) : Hub := takeInbox 2 takeDiscover h

/-- The body of a REPORT (R263). -/
def reportBody (h : Hub) (scan : BitVec 16) : Bytes :=
  leBytes 2 scan.toNat ++ [BitVec.ofNat 8 h.hier.priority, BitVec.ofNat 8 h.hierClass, BitVec.ofNat 8 (pf h.hier.cfg 2 0 2),
    BitVec.ofNat 8 h.dom0.hops.toNat, BitVec.ofNat 8 (atB 0 h.isSafe + atB 1 h.dom0.untrusted), 0]
  ++ h.links.toList.map fun l => BitVec.ofNat 8 l.state.code

/-- The oldest REPORT that is due leaves. -/
def reportSend (h : Hub) : Hub :=
  match h.hier.reportDue with
  | (scan, t, dst) :: rest =>
    if h.hierRuns && decide (t ≤ h.clk.ms) then originate 3 dst (reportBody h scan) (h.onHier fun x => { x with reportDue := rest }) else h
  | [] => h

/-- Another hub's row holds the address. -/
def Hier.heldBy (x : Hier) (self : BitVec 64) (a : BitVec 12) : Bool := x.table.any fun r => r.serial != self && r.addr == a

/-- The address chosen for a hub (R270): its fixed assignment, the one that it reports, or the lowest free one; none when all
are held. -/
def Hub.chooseAddr (h : Hub) (serial : BitVec 64) (reported : BitVec 12) : Option (BitVec 12) :=
  match h.hier.fixed.find? fun f => f.1 == serial with
  | some f => some f.2
  | none =>
    if reported ≠ 0 ∧ reported ≠ bcast ∧ reported ≠ h.hier.addr ∧ !h.hier.heldBy serial reported then some reported else h.lowestFree serial

/-- A hub is refused an address (R271): ADDR_EXHAUSTED once for its serial in a term. -/
def refuseAddr (serial : BitVec 64) (h : Hub) : Hub :=
  if h.hier.exhausted.contains serial then h
  else
    let src := match h.hierTasks.head?.bind fun t => (pick h.comp.tasks t {}).reed with
      | some n => n.val
      | none => 0
    sendFault (srcReed src) .addrExhausted accNone (mReed src) (serial.toNat % 2 ^ 32)
      (raiseHier (bit16 4) (h.onHier fun x => { x with exhausted := serial :: x.exhausted }))

/-- A REPORT arrives at the manager (R270). -/
def takeReport (m : Msg) (h : Hub) : Hub :=
  if h.hier.role != .manager then h
  else
    let b := msgBody m.data
    let serial := msgOrigin m.data
    let old := h.hier.table.find? fun r => r.serial == serial
    let h := h.onHier fun x =>
      { x with
        answered := if BitVec.ofNat 16 (leAt b 0 2) = x.scan ∧ !x.answered.contains serial then serial :: x.answered else x.answered
        scans := if old.isNone then x.scans.map fun c => (c.1, c.2.1, c.2.2 + 1) else x.scans }
    let row (a : BitVec 12) (passive confirmed : Bool) : HubRow :=
      { serial, addr := a, priority := (byteAt b 2).toNat, cls := (byteAt b 3).toNat, missed := 0, passive, confirmed }
    match h.chooseAddr serial m.src with
    | some a =>
      -- a fixed assignment takes its address from any hub that holds it
      let h := if h.hier.addr = a then setAddr ((h.lowestFree 0).getD 0) h else h
      let h := h.onHier fun x => { x with
        mgrAddr := x.addr, table := x.table.map fun r => if r.serial != serial && r.addr == a then { r with addr := 0, confirmed := false } else r }
      let same := m.src == a && (match old with
        | some r => r.addr == a
        | none => false)
      let h := putRow (row a false same) h
      if same then h else sendAssign serial a h
    | none =>
      let known := match old with
        | some r => r.passive
        | none => false
      sendAssign serial 0 (refuseAddr serial (putRow (row 0 true known) h))

def reportReceived (h : Hub) : Hub := takeInbox 3 takeReport h

/-- An ASSIGN for this hub's serial (R267, R271): the address is taken, 0x000 makes the hub PASSIVE. A manager takes none. -/
def takeAssign (m : Msg) (h : Hub) : Hub :=
  let b := msgBody m.data
  let a := BitVec.ofNat 12 (leAt b 8 2)
  if BitVec.ofNat 64 (leAt b 0 8) ≠ Config.serial ∨ h.hier.role == .manager then h
  else
    let h := setAddr a (h.onHier fun x => { x with mgrMs := if x.role == .unassigned then h.clk.ms else x.mgrMs })
    if a = 0 then setRole .passive h
    else match h.hier.role with
      | .unassigned | .passive => setRole .worker h
      | .worker | .standby | .manager => h

def assignReceived (h : Hub) : Hub := takeInbox 4 takeAssign h

/-! ## Forwarded descriptors (R275 to R277) -/

/-- The descriptors of a DESC body. -/
def descWords : Nat → Bytes → List DescWord
  | 0, _ => []
  | n + 1, b => BitVec.ofNat 512 (leAt b 0 64) :: descWords n (b.drop 64)

/-- Start a waiting DESC message in a free place of the four. -/
def startRuns (h : Hub) : Hub :=
  forEach (allFin 4) (fun k h =>
    if h.hier.runs[k].isSome then h
    else match h.hier.runsWait with
      | r :: rest => mgrNext k (h.onHier fun x => { x with runs := upd x.runs k fun _ => some r, runsWait := rest })
      | [] => h) h

/-- A DESC message arrives (R276): at most four run at once, others wait in order. A PASSIVE hub discards it (R272). -/
def takeDesc (m : Msg) (h : Hub) : Hub :=
  let b := msgBody m.data
  let count := leAt b 4 2
  if h.hier.role == .passive || !inRange count 1 128 || decide (b.length < 16 + 64 * count) then h
  else
    let r : DescRun := { tag := BitVec.ofNat 32 (leAt b 0 4), replyTo := m.src, todo := descWords count (b.drop 16), cur := none, done := [] }
    startRuns (h.onHier fun x => { x with runsWait := x.runsWait ++ [r] })

def descReceived (h : Hub) : Hub := takeInbox 5 takeDesc h

/-- A DESC message has run to its end. -/
def DescRun.over (r : DescRun) : Bool := r.todo.isEmpty && r.cur.isNone

/-- COMPL leaves for the first DESC message that is done, and the next one that waits starts. -/
def complSend (h : Hub) : Hub :=
  match (allFin 4).find? fun k => match h.hier.runs[k] with
      | some r => r.over
      | none => false with
  | none => h
  | some k =>
    match h.hier.runs[k] with
    | none => h
    | some r =>
      if h.hierRuns then
        let h := originate 6 r.replyTo (leBytes 4 r.tag.toNat ++ leBytes 2 r.done.length ++ List.replicate 10 0
          ++ r.done.flatMap fun c => leBytes 32 c.toNat) h
        startRuns (h.onHier fun x => { x with runs := upd x.runs k fun _ => none })
      else h

/-- A COMPL arrives (R277): its completions are written in order, then the HIER_FORWARD completes. -/
def takeCompl (m : Msg) (h : Hub) : Hub :=
  let b := msgBody m.data
  let tag := BitVec.ofNat 32 (leAt b 0 4)
  match h.hier.fwds.find? fun f => f.tag == tag with
  | none => h
  | some f =>
    let n := min (leAt b 4 2) f.count
    let serial := msgOrigin m.data
    let h := h.onHier fun x => { x with fwds := x.fwds.filter fun e => e.tag != tag }
    let h := forEach (List.range n) (fun i => busWrite (f.compl + BitVec.ofNat 64 (32 * i)) (slice b (16 + 32 * i) 32)) h
    completeWith f.desc .ok (resultOf [(0, 16, n), (16, 16, f.dst.toNat), (32, 64, serial.toNat)]) h

def complReceived (h : Hub) : Hub := takeInbox 6 takeCompl h

/-- The values that R275 and R277 refuse. -/
def forwardBad (h : Hub) (p : Payload) : Bool :=
  let dst := BitVec.ofNat 12 (pf p 0 0 12)
  dst == 0 || dst == bcast || dst == h.hier.addr || !inRange (pf p 2 0 16) 1 128 || !inRange (pf p 4 0 32) 1 60000
  || pf p 8 0 6 != 0 || pf p 16 0 5 != 0

/-- HIER_FORWARD: the descriptors, as the DMA read returns them, go to the worker in one DESC message with a new tag, and the
timeout starts (R276). -/
def hierForwardEff (descs : List DescWord) (d : Desc) (h : Hub) : Hub :=
  let p := d.payload
  let dst := BitVec.ofNat 12 (pf p 0 0 12)
  if forwardBad h p then complete d.id .badParam h
  else if !(h.hier.table.any fun r => r.addr == dst) || decide (16 ≤ h.hier.fwds.length) then complete d.id .noResource h
  else
    let tag := h.hier.tag
    let count := pf p 2 0 16
    let ds := descs.take count
    let h := h.onHier fun x =>
      { x with
        tag := x.tag + 1
        fwds := x.fwds ++ [{ desc := d.id, tag, dst, count, compl := BitVec.ofNat 64 (pf p 16 0 64), due := h.clk.ms + pf p 4 0 32 }] }
    originate 5 dst (leBytes 4 tag.toNat ++ leBytes 2 ds.length ++ List.replicate 10 0 ++ ds.flatMap fun w => leBytes 64 w.toNat) h

def hierForward (o : Origin) (descs : List DescWord) (h : Hub) : Hub := serve o (isOp 0x90) (hierForwardEff descs) h

/-- No COMPL has arrived within timeout: nothing is written to compl_addr (R277). -/
def hierForwardTimeout (tag : BitVec 32) (h : Hub) : Hub :=
  match h.hier.fwds.find? fun f => f.tag == tag with
  | none => h
  | some f =>
    when_ (h.runs && decide (f.due ≤ h.clk.ms)) (fun h =>
      complete f.desc .timeout (raiseHier (bit16 7) (h.onHier fun x => { x with fwds := x.fwds.filter fun e => e.tag != tag }))) h

/-! ## HIER_DISCOVER (R284, R285) -/

def discOp (p : Payload) : Nat := pf p 0 0 2

/-- LOCAL. A STANDBY whose priority becomes 255 is a WORKER (R265, log 87). -/
def discoverLocalEff (d : Desc) (h : Hub) : Hub :=
  if pf d.payload 2 0 2 = 3 then complete d.id .badParam h
  else
    let h := copyWritten 0x1C000 48 (h.onHier fun x => { x with cfg := d.payload })
    complete d.id .ok (if h.hier.role == .standby && !h.hier.capable then setRole .worker h else h)

def hierDiscoverLocal (o : Origin) (h : Hub) : Hub := serve o (isOpSub 0x91 fun p => discOp p == 0) discoverLocalEff h

/-- SCAN: on a manager, a discovery whose REPORTs are waited for. -/
def discoverScanEff (d : Desc) (h : Hub) : Hub :=
  if h.hier.role != .manager then complete d.id .denied h
  else discover (h.onHier fun x => { x with scans := x.scans ++ [(d.id, h.clk.ms, 0)] })

def hierDiscoverScan (o : Origin) (h : Hub) : Hub := serve o (isOpSub 0x91 fun p => discOp p == 2) discoverScanEff h

/-- Addressed and passive hubs in the manager's table. -/
def Hier.addressed (x : Hier) : Nat := (x.table.filter fun r => r.addr != 0).length
def Hier.passives (x : Hier) : Nat := (x.table.filter (·.passive)).length

/-- A SCAN completes 1 s after its DISCOVER. -/
def scanComplete (h : Hub) : Hub :=
  match h.hier.scans with
  | (id, t, fresh) :: rest =>
    when_ (h.runs && decide (t + 1000 ≤ h.clk.ms)) (fun h =>
      completeWith id .ok (resultOf [(0, 16, h.hier.addressed), (16, 16, h.hier.passives), (32, 16, fresh)])
        (h.onHier fun x => { x with scans := rest })) h
  | [] => h

/-- ASSIGN makes or removes a fixed assignment; an address is fixed for one serial at a time. -/
def discoverAssignEff (d : Desc) (h : Hub) : Hub :=
  let p := d.payload
  let a := BitVec.ofNat 12 (pf p 2 0 12)
  let serial := BitVec.ofNat 64 (pf p 8 0 64)
  let rest := h.hier.fixed.filter fun f => f.1 != serial
  if a = bcast then complete d.id .badParam h
  else if h.hier.role != .manager then complete d.id .denied h
  else if a = 0 then complete d.id .ok (h.onHier fun x => { x with fixed := rest })
  else
    let others := rest.filter fun f => f.2 != a
    if 256 ≤ others.length then complete d.id .noResource h
    else complete d.id .ok (h.onHier fun x => { x with fixed := others ++ [(serial, a)] })

def hierDiscoverAssign (o : Origin) (h : Hub) : Hub := serve o (isOpSub 0x91 fun p => discOp p == 3) discoverAssignEff h

/-! ## Meanings -/

def execAnnounceSend (s : State) := run announceSend s
def execAnnounceReceived (s : State) := run announceReceived s
def execManagerSilentTimeout (s : State) := run managerSilentTimeout s
def execLowestTupleTimeout (s : State) := run lowestTupleTimeout s
def execDiscoverSend (s : State) := run discoverSend s
def execDiscoverReceived (s : State) := run discoverReceived s
def execReportSend (s : State) := run reportSend s
def execReportReceived (s : State) := run reportReceived s
def execAssignReceived (s : State) := run assignReceived s
def execDescReceived (s : State) := run descReceived s
def execComplSend (s : State) := run complSend s
def execComplReceived (s : State) := run complReceived s
def execHierForward (o : Origin) (descs : List DescWord) (s : State) := run (hierForward o descs) s
def execHierForwardTimeout (tag : BitVec 32) (s : State) := run (hierForwardTimeout tag) s
def execHierDiscoverLocal (o : Origin) (s : State) := run (hierDiscoverLocal o) s
def execHierDiscoverScan (o : Origin) (s : State) := run (hierDiscoverScan o) s
def execHierDiscoverAssign (o : Origin) (s : State) := run (hierDiscoverAssign o) s
def execScanComplete (s : State) := run scanComplete s

end Sys2Proof.Machine
end

