-- ==== Sys2Proof/Machine/Ptp.lean ====
section
/-!
DEFINITION. The IEEE 1588 ports and ESMC (R278 to R285): HIER_DISCOVER PTP, Announce and the best master, Sync and its
samples, time stamps of event messages, and quality levels. What the standards fix and the manual only names (the data set
comparison, the clock accuracy codes, the port state codes) is PRESUMED (log 12).
-/

namespace Sys2Proof.Machine

/-! ## Settings (R284, R285) -/

def PtpPort.esmcEn (p : PtpPort) : Bool := pb p.cfg 3 7
def PtpPort.qlTrack (p : PtpPort) : Nat := pf p.cfg 3 0 4

/-- The values that R284 and R285 refuse. -/
def ptpBad (p : Payload) : Bool :=
  let transport := pf p 2 3 2
  let profile := pf p 2 1 2
  decide (47 < pf p 1 0 8) || transport == 3 || decide (2 ≤ profile) || (profile == 1 && pb p 2 5)
  || (transport != 0 && pf p 16 0 128 == 0)
  || !(decide (-7 ≤ pfs p 7 0 8) && decide (pfs p 7 0 8 ≤ 4)) || !(decide (0 ≤ pfs p 8 0 8) && decide (pfs p 8 0 8 ≤ 4))
  || !(decide (-7 ≤ pfs p 9 0 8) && decide (pfs p 9 0 8 ≤ 5))

/-! ## The hub's own data set (R280) -/

/-- clockAccuracy codes with their bounds in 0.1 ps (IEEE 1588-2019). -/
def accuracyBounds : List (Nat × Nat) :=
  [(0x17, 10), (0x18, 25), (0x19, 100), (0x1A, 250), (0x1B, 1000), (0x1C, 2500), (0x1D, 10 ^ 4), (0x1E, 25000), (0x1F, 10 ^ 5),
   (0x20, 250000), (0x21, 10 ^ 6), (0x22, 2500000), (0x23, 10 ^ 7), (0x24, 25000000), (0x25, 10 ^ 8), (0x26, 25 * 10 ^ 7),
   (0x27, 10 ^ 9), (0x28, 25 * 10 ^ 8), (0x29, 10 ^ 10), (0x2A, 25 * 10 ^ 9), (0x2B, 10 ^ 11), (0x2C, 25 * 10 ^ 10),
   (0x2D, 10 ^ 12), (0x2E, 25 * 10 ^ 11), (0x2F, 10 ^ 13), (0x30, 10 ^ 14)]

/-- The smallest enumeration that covers a bound in 10^-6 fu: 65,536,000 of these make a picosecond. -/
def accuracyFor (te : Nat) : Nat :=
  match accuracyBounds.find? fun a => decide (te ≤ a.2 * 6553600) with
  | some a => a.1
  | none => 0x31

/-- What a MASTER port serves by DOM[0] (the table of R280): clockClass, clockAccuracy, timeTraceable. -/
def Hub.clockQuality (h : Hub) : Nat × Nat × Bool :=
  let d := h.dom0
  if h.hierClass = 7 then (248, 0xFE, false)
  else match d.state with
    | .track =>
      if d.followed.any (fun s => h.refs[s].todValid || h.refs[s].format == 5) then (6, 0x21, true) else (248, 0xFE, false)
    | .holdover => (7, accuracyFor d.te, true)
    | .holdoverOut => (187, 0xFE, false)
    | .nominal | .acquire | .manual => (248, 0xFE, false)

/-- An enabled LREF slot names an Ethernet port, so that DOM[0] may take its time from there. -/
def Hub.mayFollowPtp (h : Hub) : Bool := (allFin 48).any fun n => h.links[n].eth && !(h.lrefs n).isEmpty

/-- The hub's own data set, as the choice of the best master compares it on a port: with the class that a MASTER port serves, but
248 where an LREF slot names an Ethernet port, since a clock of class 127 or below is never a slave (log 86). -/
def Hub.ownData (h : Hub) (n : Fin 48) : PtpData :=
  let p := h.hier.ptp[n]
  let q := if h.mayFollowPtp then (248, 0xFE, false) else h.clockQuality
  { priority1 := pf p.cfg 5 0 8, clockClass := q.1, accuracy := q.2.1, variance := 0xFFFF
    priority2 := pf p.cfg 6 0 8, identity := Config.serial, stepsRemoved := 0, sender := Config.serial, senderPort := n + 1 }

/-- The parent: the best master heard on the SLAVE port. -/
def Hub.ptpParent (h : Hub) : Option PtpData :=
  ((allFin 48).find? fun n => h.hier.ptp[n].state == PtpState.slave).bind fun n => h.hier.ptp[n].best

/-- The data set that a MASTER port announces: the quality of DOM[0]'s time, with the parent's grandmaster one step further where a
port is SLAVE. -/
def Hub.announced (h : Hub) (n : Fin 48) : PtpData :=
  let own := { h.ownData n with clockClass := h.clockQuality.1, accuracy := h.clockQuality.2.1 }
  match h.ptpParent with
  | none => own
  | some e => { own with priority1 := e.priority1, priority2 := e.priority2, identity := e.identity, stepsRemoved := e.stepsRemoved + 1 }

/-- Send an IEEE 1588 message on a port, with the port's transport and domain number. -/
def sendPtp (n : Fin 48) (m : PtpSent) (h : Hub) : Hub :=
  let p := h.hier.ptp[n]
  { h with wire := .ptp n (pf p.cfg 2 3 2) (pf p.cfg 4 0 8) m :: h.wire }

/-- Announce, with currentUtcOffset, valid unless DOM[0] has tod_unset, and frequencyTraceable in TRACK and HOLDOVER (R280). -/
def sendAnnounce (n : Fin 48) (h : Hub) : Hub :=
  let d := h.dom0
  sendPtp n (.announce (h.announced n) (pfs h.hier.cfg 3 0 8) (!d.todUnset) h.clockQuality.2.2
    (d.state == .track || d.state == .holdover)) h

/-! ## The best master (R280) -/

/-- Lists of numbers, compared field by field. -/
def lexLt : List Nat → List Nat → Bool
  | a :: as, b :: bs => decide (a < b) || (a == b && lexLt as bs)
  | _, _ => false

/-- One data set is better than another. -/
def ptpBetter (a b : PtpData) : Bool :=
  if a.identity = b.identity then lexLt [a.stepsRemoved, a.sender.toNat, a.senderPort] [b.stepsRemoved, b.sender.toNat, b.senderPort]
  else lexLt [a.priority1, a.clockClass, a.accuracy, a.variance, a.priority2, a.identity.toNat]
    [b.priority1, b.clockClass, b.accuracy, b.variance, b.priority2, b.identity.toNat]

/-- A port takes part in the choice. -/
def PtpState.live : PtpState → Bool
  | .listening | .preMaster | .master | .passive | .uncalibrated | .slave => true
  | .absent | .initializing | .faulty | .disabled => false

/-- The best data set heard on any port, with its port. -/
def Hub.bestHeard (h : Hub) : Option (Fin 48 × PtpData) :=
  (allFin 48).foldl (fun b n =>
    let p := h.hier.ptp[n]
    if !p.state.live then b
    else match p.best, b with
      | some e, some v => if ptpBetter e v.2 then some (n, e) else b
      | some e, none => some (n, e)
      | none, _ => b) none

/-- The state the choice gives a port. -/
def Hub.bmcaState (h : Hub) (n : Fin 48) : PtpState :=
  let p := h.hier.ptp[n]
  let own := h.ownData n
  if !p.state.live then p.state
  else match p.best with
    | none => if p.state == .listening then .listening else .master
    | some e =>
      if own.clockClass ≤ 127 then (if ptpBetter own e then .master else .passive)
      else match h.bestHeard with
        | none => .master
        | some v =>
          if ptpBetter own v.2 then .master
          else if v.1 = n then .slave
          else if v.2.identity = e.identity then .passive else .master

/-- A port takes its state; leaving SLAVE is the loss of its slots. -/
def ptpState (n : Fin 48) (st : PtpState) (h : Hub) : Hub :=
  let was := h.hier.ptp[n].state
  let h := h.onPtp n fun p =>
    if st == p.state then p else { p.quiet with state := st, best := p.best, syncMs := h.clk.ms }
  if was == PtpState.slave && st != PtpState.slave then lrefsLost n 11 h else h

/-- Every port takes the state that the best master gives it. -/
def bmca (h : Hub) : Hub :=
  let sts := (allFin 48).map fun n => (n, h.bmcaState n)
  forEach sts (fun v => ptpState v.1 v.2) h

/-! ## HIER_DISCOVER PTP -/

/-- Slots of a port with synce_rx that are held ABSENT now are lost, with cause 1 (R283, log 86). -/
def esmcHold (n : Fin 48) (h : Hub) : Hub := if h.hier.ptp[n].synceHeld then lrefsLost n 1 h else h

/-- PTP settings: the port's state follows enable, and the best master is chosen again; the slots of a port whose line frequency may
not be used are held ABSENT (R283). -/
def discoverPtpEff (d : Desc) (h : Hub) : Hub :=
  let p := d.payload
  withFin 48 (pf p 1 0 8) d.id (fun (n : Fin 48) (h : Hub) =>
    if ptpBad p then complete d.id .badParam h
    else complete d.id .ok (copyWritten (0x1C400 + 0x40 * n) 48
      (esmcHold n (bmca (ptpLink n (h.onPtp n fun x => { x with cfg := p })))))) h

def hierDiscoverPtp (o : Origin) (h : Hub) : Hub := serve o (isOpSub 0x91 fun p => pf p 0 0 2 == 1) discoverPtpEff h

/-- An Ethernet port that is up and enabled. -/
def Hub.ptpUp (h : Hub) (n : Fin 48) : Bool :=
  h.runs && h.links[n].eth && h.links[n].state == LinkState.ethUp && h.hier.ptp[n].state.live

/-- An Announce arrives: it takes the place of its sender's last one or of a worse one. Announces of the hub itself and with
255 steps or more are not used. -/
def ptpAnnounceReceived (n : Fin 48) (d : PtpData) (h : Hub) : Hub :=
  when_ (h.ptpUp n && d.sender != Config.serial && decide (d.stepsRemoved < 255)) (fun h =>
    bmca (h.onPtp n fun p =>
      let takes := match p.best with
        | some e => (e.sender == d.sender && e.senderPort == d.senderPort) || ptpBetter d e
        | none => true
      if takes then { p with best := some d, annMs := h.clk.ms } else p)) h

/-- The announce receipt timeout: three announce intervals (the standard's default, log 12), in ms. -/
def PtpPort.announceLimit (p : PtpPort) : Nat := 3000 * 2 ^ pf p.cfg 8 0 8

/-- No Announce within the announce receipt timeout: the port's master is gone, and the port is MASTER unless the choice
gives otherwise. -/
def ptpAnnounceReceiptTimeout (n : Fin 48) (h : Hub) : Hub :=
  when_ (h.ptpUp n && decide (h.hier.ptp[n].annMs + h.hier.ptp[n].announceLimit ≤ h.clk.ms)) (fun h => bmca (ptpState n .master (h.onPtp n fun p => { p with best := none }))) h

/-! ## Stamps and samples (R279, R281, R282) -/

/-- δtx and δrx in fu. -/
def Hub.dtxFu (h : Hub) (n : Fin 48) : Int := rdiv (h.dtx8 n) 256
def Hub.drxFu (h : Hub) (n : Fin 48) : Int := rdiv (h.drx8 n) 256

/-- A message of the peer delay mechanism passes on a port with p2p, one of the delay request mechanism on a port without (R278). -/
def PtpPort.p2p (p : PtpPort) : Bool := pb p.cfg 2 5

/-- A port sends its event messages in two steps, with the time in a Follow_Up. -/
def PtpPort.twoStep (p : PtpPort) : Bool := pb p.cfg 2 6

/-- What a port does with an event message at its stamp t (R278): a MASTER port sends Sync with its time, or with zero and the time
in a Follow_Up, and answers a Delay_Req; a SLAVE port keeps when its Delay_Req left; a port with p2p answers a Pdelay_Req
with the time that it held it, and has the path delay with the answer to its own. -/
def ptpEventAt (n : Fin 48) (e : PtpEvent) (t : Int) (h : Hub) : Hub :=
  let p := h.hier.ptp[n]
  let master := p.state == PtpState.master
  let sent (h : Hub) : Hub := h.onPtp n fun p => { p with txStamp := t }
  let received (h : Hub) : Hub := h.onPtp n fun p => { p with rxStamp := t }
  match e with
  | .syncSent =>
    if master then sent (if p.twoStep then sendPtp n (.followUp t) (sendPtp n (.sync 0) h) else sendPtp n (.sync t) h) else h
  | .delayReqSent =>
    if p.state == PtpState.slave && !p.p2p then sent ((sendPtp n .delayReq h).onPtp n fun p => { p with reqStamp := some t }) else h
  | .pdelayReqSent => if p.p2p then sent ((sendPtp n .pdelayReq h).onPtp n fun p => { p with reqStamp := some t }) else h
  | .pdelayRespSent =>
    if p.p2p then
      let held := t - p.rxStamp
      sent (if p.twoStep then sendPtp n (.pdelayFollowUp held) (sendPtp n (.pdelayResp 0) h) else sendPtp n (.pdelayResp held) h)
    else h
  | .delayReqReceived => received (if master && !p.p2p then sendPtp n (.delayResp t) h else h)
  | .pdelayReqReceived => received h
  | .pdelayRespReceived held =>
    received (match p.reqStamp with
      | some t1 => if p.p2p then h.onPtp n fun p => { p with path := rdiv (t - t1 - held) 2, pathOk := true, reqStamp := none } else h
      | none => h)

/-- An event message is sent by the port's LNK_TX lane or received by its LNK_RX lane. -/
def eventSent : PtpEvent → Bool
  | .syncSent | .delayReqSent | .pdelayReqSent | .pdelayRespSent => true
  | .delayReqReceived | .pdelayReqReceived | .pdelayRespReceived _ => false

/-- An event message is stamped in DOM[0] time at the fibre reference plane (R279). -/
def ptpEventMessage (n : Fin 48) (e : PtpEvent) (st : Stamp) (h : Hub) : Hub :=
  let h := advanceTo st.cyc h
  if h.ptpUp n then
    ptpEventAt n e (if eventSent e then h.dom0Stamp (laneOfTx n) st + h.dtxFu n else h.dom0Stamp (laneOfRx n) st - h.drxFu n) h
  else h

/-- The mean path delay of the delay request mechanism (R278): half of what a Sync took and what the last Delay_Req took, when the
answer to it has come. -/
def PtpPort.pathBy (p : PtpPort) (t2 t1 : Int) (resp : Option Int) : PtpPort :=
  match p.reqStamp, resp with
  | some t3, some t4 => if p.p2p then p else { p with path := rdiv ((t2 - t1) + (t4 - t3)) 2, pathOk := true, reqStamp := none }
  | _, _ => p

/-- A Sync on a SLAVE port: a phase sample from its arrival, the master's time for it and the mean path delay, once the delay has been
measured (R281). -/
def ptpSyncReceived (n : Fin 48) (st : Stamp) (origin : Int) (resp : Option Int) (h : Hub) : Hub :=
  let h := advanceTo st.cyc h
  if h.ptpUp n && h.hier.ptp[n].state == PtpState.slave then
    let t := h.lineStamp (laneOfRx n) st - h.drxFu n
    let t0 := h.dom0Stamp (laneOfRx n) st - h.drxFu n
    h.onPtp n fun p =>
      let p := { p.pathBy t0 origin resp with rxStamp := t0, syncMs := h.clk.ms }
      let x := t - (origin + p.path)
      if p.pathOk then
        { p with offset := t0 - (origin + p.path), xSum := p.xSum + x, tSum := p.tSum + t, xN := p.xN + 1, syncs := (x, t) :: p.syncs }
      else p
  else h

/-- Three Sync intervals or 3 s, whichever is longer, in ms (R281). -/
def PtpPort.syncLimit (p : PtpPort) : Nat := 3000 * 2 ^ (pfs p.cfg 7 0 8).toNat

/-- No Sync for three Sync intervals or 3 s: a loss of the port's slots, the port being in SLAVE still (R133, R281). -/
def ptpSyncTimeout (n : Fin 48) (h : Hub) : Hub :=
  when_ (h.ptpUp n && h.hier.ptp[n].state == PtpState.slave && decide (h.hier.ptp[n].syncMs + h.hier.ptp[n].syncLimit ≤ h.clk.ms))
    (lrefsLost n 1) h

/-- Announce leaves a MASTER port in the seconds that are multiples of its interval, and an L1Sync TLV every second a port of the high
accuracy profile, coherent while the recovered line clock is used (R278, R280, log 12). -/
def ptpGeneral (n : Fin 48) (h : Hub) : Hub :=
  let p := h.hier.ptp[n]
  if !h.ptpUp n then h
  else
    let h := if p.state == PtpState.master && (h.clk.ms / 1000) % 2 ^ pf p.cfg 8 0 8 == 0 then sendAnnounce n h else h
    if pf p.cfg 2 1 2 = 1 then sendPtp n (.l1sync (p.synceRx && !p.synceHeld)) h else h

/-- At the 1 s tick: the messages of the second; without synce_rx the mean of the second's samples is delivered (R281). -/
def ptpSecond (n : Fin 48) (h : Hub) : Hub :=
  let h := ptpGeneral n h
  let p := h.hier.ptp[n]
  let h := if p.state == PtpState.slave && !p.synceRx && decide (0 < p.xN) then
      forEach (h.lrefs n) (fun s h => h.onRef s fun r => { r with due := some (rdiv p.xSum p.xN, rdiv p.tSum p.xN) }) h
    else h
  h.onPtp n fun p => { p with xSum := 0, tSum := 0, xN := 0 }

/-- The line phase at nominal time t, between the readings (x0, t0) and (x1, t1). -/
def lineAt (x0 t0 x1 t1 t : Int) : Int := if t1 = t0 then x1 else x0 + rdiv ((x1 - x0) * (t - t0)) (t1 - t0)

/-- A reading of the line phase is taken: what the Syncs since the reading before show beyond the line phase is kept for 1 s, and the
newest of it for as long as no other comes. -/
def PtpPort.takeLine (x t : Int) (ms : Nat) (p : PtpPort) : PtpPort :=
  let l := p.line.getD (x, t)
  let fresh := p.syncs.map fun s => (ms, s.1 - lineAt l.1 l.2 x t s.2)
  let all := fresh ++ p.offsets
  let kept := all.filter fun o => decide (ms < o.1 + 1000)
  { p with line := some (x, t), syncs := [], offsets := if kept.isEmpty then all.take 1 else kept }

/-- With synce_rx a sample is delivered at each 1 ms tick: the line phase that the LNK_RX lane measures, corrected by the mean over 1 s
of what PTP shows beyond it (R282, log 86). `lines`: the readings of this tick. -/
def ptpMilli (lines : List (Fin 48 × Int)) (n : Fin 48) (h : Hub) : Hub :=
  match lines.find? fun l => l.1 == n with
  | none => h.onPtp n fun p => { p with line := none, syncs := [] }
  | some (_, x) =>
    let t := h.nomFu
    let ms := h.clk.ms
    let h := h.onPtp n (PtpPort.takeLine x t ms)
    let p := h.hier.ptp[n]
    if p.state == PtpState.slave && p.synceRx && !p.synceHeld && !p.offsets.isEmpty then
      let y := x + rdiv (p.offsets.map (·.2)).sum p.offsets.length
      forEach (h.lrefs n) (fun s h => h.onRef s fun r => { r with due := some (y, t) }) h
    else h

/-! ## ESMC (R283) -/

/-- The QL that a port sends. -/
def Hub.qlSent (h : Hub) (n : Fin 48) : BitVec 4 :=
  if h.follows n || h.hierClass == 7 then 0xF
  else if h.dom0.state == .track then
    match h.leadPort with
    | some m => if h.links[m].eth then h.hier.ptp[m].rxQl else BitVec.ofNat 4 h.hier.ptp[n].qlTrack
    | none => BitVec.ofNat 4 h.hier.ptp[n].qlTrack
  else 0xB

/-- ESMC PDUs leave the port. -/
def Hub.esmcUp (h : Hub) (n : Fin 48) : Bool := h.runs && h.links[n].eth && h.links[n].state == LinkState.ethUp && h.hier.ptp[n].esmcEn

/-- Send an ESMC PDU. -/
def sendEsmc (n : Fin 48) (event : Bool) (h : Hub) : Hub :=
  let ql := h.qlSent n
  { (h.onPtp n fun p => { p with txQl := some ql }) with wire := .esmc n ql event :: h.wire }

/-- The information PDU, once a second. -/
def esmcPduSend (n : Fin 48) (h : Hub) : Hub :=
  when_ (h.esmcUp n && (match h.hier.ptp[n].infoMs with
    | some t => decide (t + 1000 ≤ h.clk.ms)
    | none => true)) (fun h => (sendEsmc n false h).onPtp n fun p => { p with infoMs := some h.clk.ms }) h

/-- The event PDU, after a change of QL. -/
def esmcEventPduSend (n : Fin 48) (h : Hub) : Hub :=
  when_ (h.esmcUp n && h.hier.ptp[n].txQl != some (h.qlSent n)) (sendEsmc n true) h

/-- An ESMC PDU arrives with a QL. -/
def esmcPduReceived (n : Fin 48) (ql : BitVec 4) (h : Hub) : Hub :=
  when_ (h.runs && h.links[n].eth && h.links[n].state == LinkState.ethUp)
    (fun h => esmcHold n (h.onPtp n fun p => { p with rxQl := ql, esmcSeen := true, esmcMs := h.clk.ms })) h

/-- No ESMC PDU for 5 s. -/
def esmcAbsentTimeout (n : Fin 48) (h : Hub) : Hub :=
  when_ (h.runs && h.links[n].eth && decide (h.hier.ptp[n].esmcMs + 5000 ≤ h.clk.ms)) (fun h => esmcHold n (h.onPtp n fun p => { p with esmcSeen := false })) h

/-! ## Meanings -/

def execHierDiscoverPtp (o : Origin) (s : State) := run (hierDiscoverPtp o) s
def execPtpEventMessage (n : Fin 48) (e : PtpEvent) (st : Stamp) (s : State) := run (ptpEventMessage n e st) s
def execPtpSyncReceived (n : Fin 48) (st : Stamp) (origin : Int) (resp : Option Int) (s : State) := run (ptpSyncReceived n st origin resp) s
def execPtpSyncTimeout (n : Fin 48) (s : State) := run (ptpSyncTimeout n) s
def execEsmcPduSend (n : Fin 48) (s : State) := run (esmcPduSend n) s
def execEsmcEventPduSend (n : Fin 48) (s : State) := run (esmcEventPduSend n) s
def execEsmcPduReceived (n : Fin 48) (ql : BitVec 4) (s : State) := run (esmcPduReceived n ql) s
def execEsmcAbsentTimeout (n : Fin 48) (s : State) := run (esmcAbsentTimeout n) s
def execPtpAnnounceReceived (n : Fin 48) (d : PtpData) (s : State) := run (ptpAnnounceReceived n d) s
def execPtpAnnounceReceiptTimeout (n : Fin 48) (s : State) := run (ptpAnnounceReceiptTimeout n) s

end Sys2Proof.Machine
end

