-- ==== Sys2Proof/Machine/Roots.lean ====
section
/-!
DEFINITION. The oven (R40 to R42), the roots and their faults (R43 to R50), the phase ladders (R59 to R61) and the output
deskew lines (R62 to R68).
-/

namespace Sys2Proof.Machine

/-! ## Roots -/

/-- State and lock of a root. -/
def Clk.root (c : Clk) : Side → RootState
  | .a => c.aState
  | .b => c.bState
def Clk.rootLocked (c : Clk) : Side → Bool
  | .a => c.aLocked
  | .b => c.bLocked

/-- Put a root in a state, its synthesiser locked or not. -/
def setRoot (r : Side) (st : RootState) (locked : Bool) (c : Clk) : Clk :=
  { c with
    aState := if r = .a then st else c.aState, aLocked := if r = .a then locked else c.aLocked
    bState := if r = .b then st else c.bState, bLocked := if r = .b then locked else c.bLocked }

/-- Fault bit of a root in CLK_ROOT_EVT. -/
def rootFaultBit : Side → BitVec 16
  | .a => bit16 1
  | .b => bit16 2

/-- Start a root's synthesiser (R45). -/
def rootStart (r : Side) (h : Hub) : Hub := h.onClk (setRoot r .locking false)

/-- A root becomes ACTIVE with none before it: the coarse counters are cleared and the tick grid begins (R72, R491), the
wardens and the Shim store change to its clocks (R24), and C is the active crystal's own (R51). -/
def activate (r : Side) (h : Hub) : Hub :=
  aimCorr true (h.onClk fun c =>
    { setRoot r .active true c with
      activeB := r == .b, bootClk := false, cycles := 0, pos := 0, ms := 0, secDue := false, corrInherit := 0 })

/-- A locked root becomes ACTIVE where the table of R45 lets it: ROOT_A at once, ROOT_B once ROOT_A is no longer LOCKING. That
is while the start-up runs, or in the SAFE of the loader: where BOOT has ended without an ACTIVE root, only a reset starts the
roots again, and a SELFTEST that passes does not. -/
def tryActivate (r : Side) (h : Hub) : Hub :=
  let c := h.clk
  if (h.inMode .boot || h.shim.loader) && !h.rootActive && c.root r == .locking && c.rootLocked r && (r == .a || c.aState != .locking) then
    activate r h
  else h

/-- ROOT_LOCK: the synthesiser of a LOCKING root locks, the oven sensor reading `dev`. A root under SELFTEST does not leave
LOCKING before the test has ended. -/
def rootLock (r : Side) (dev : Int) (h : Hub) : Hub :=
  when_ (h.runs && h.clk.root r == .locking && !h.clk.rootLocked r && !h.rootTested r)
    (fun h => tryActivate r (h.onClk fun c => { setRoot r .locking true c with oven := dev, dev := satSigned 16 dev })) h

/-- LOCK_LOST of a root with its cause in the address field (R46). -/
def rootLost (r : Side) (cause : Nat) (h : Hub) : Hub :=
  sendFault (srcRoot r) .lockLost accNone mInternal cause (h.onClk fun c => { c with lastCause := BitVec.ofNat 3 cause })

/-- ROOT_LOCK_TIMEOUT: a root not locked 5 ms after its start is FAULTED with cause 1; a locked ROOT_B then takes over. -/
def rootLockTimeout (r : Side) (h : Hub) : Hub :=
  when_ (h.runs && h.clk.root r == .locking && !h.clk.rootLocked r && !h.rootTested r)
    (fun h => tryActivate (otherSide r) (raiseRoot (rootFaultBit r) (rootLost r 1 (h.onClk (setRoot r .faulted false))))) h

/-- ROOT_RELATION_VALID: the standby root has been locked for 10 ms beside an ACTIVE one (R43). -/
def rootRelationValid (h : Hub) : Hub :=
  let s := otherSide h.activeSide
  when_ (h.runs && h.rootActive && h.clk.root s == .locking && h.clk.rootLocked s && !h.rootTested s)
    (fun h => h.onClk fun c => { setRoot s .ready true c with relValid := true }) h

/-- φX in 2^-64 step. -/
def Hub.phiX (h : Hub) : Int := h.clk.relPhase * (3 * 2 ^ 51)

/-- The changeover of R48 and R49 to the other root, which is READY; the old one goes to `old`. Every accumulator loses
φX from A to B and gains it from B to A; the grid of root edges moves by φX against the domains' time, so that no domain's
time moves; C takes up yX, and what it differs by from the new crystal's own value stays with it. -/
def changeover (old : RootState) (h : Hub) : Hub :=
  let was := h.activeSide
  let new := otherSide was
  let phi := if was == .a then h.phiX else -h.phiX
  let y := if was == .a then h.clk.relFreq else -h.clk.relFreq
  let corr := h.clk.corr + y * 2 ^ 24
  let h : Hub := { h with doms := h.doms.map fun d => { d.turn (-phi) with sub := d.sub + phi } }
  let h := h.onClk fun c =>
    { setRoot was old false (setRoot new .active true c) with
      activeB := new == .b, relValid := false, corr, corrTarget := corr, corrInherit := corr - h.crystal new
      nomTime := c.nomTime + phi, jumpHeld := false }
  bumpCounter 7 (raiseRoot (bit16 0) h)

/-- A fault of a READY or ACTIVE root (R45, R46). -/
def rootFault (r : Side) (cause : Nat) (h : Hub) : Hub :=
  match h.clk.root r with
  | .ready =>
    raiseRoot (rootFaultBit r) (rootLost r cause (h.onClk fun c => { setRoot r .faulted false c with relValid := false, jumpHeld := false }))
  | .active =>
    if h.clk.root (otherSide r) == .ready then
      checkRots (changeover .faulted (raiseRoot (rootFaultBit r) (rootLost r cause h)))
    else raiseRoot (rootFaultBit r ||| bit16 9) (rootLost r cause h)
  | .off | .locking | .faulted => h

/-- ROOT_FAULT_DETECTED: the detector of cause 1 to 4 fires. Cause 4 is suspended while the OVN lane 185 is under test (R428). -/
def rootFaultDetected (r : Side) (cause : Fin 4) (h : Hub) : Hub :=
  when_ (h.runs && !(cause == 3 && h.laneTested 185)) (rootFault r (cause + 1)) h

/-! ## Jumps (R47) -/

/-- 2,000 ppt. -/
def jumpLimitX : Int := 2000 * 65536

/-- Slots qualified now. -/
def Hub.qualifiedMask (h : Hub) : BitVec 12 := maskOf ((allFin 12).filter fun s => h.refs[s].state == .qualified)

/-- A jump is attributed, to the active or to the standby root: that root faults with cause 3, and the domains steer again. -/
def attributeJump (toActive : Bool) (h : Hub) : Hub :=
  let r := if toActive then h.activeSide else otherSide h.activeSide
  rootFault r 3 (h.onClk fun c => { c with jumpHeld := false })

/-- ROOT_X_JUMP: the relation frequency has changed by more than 2,000 ppt to `freq`. -/
def rootXJump (freq : Int) (h : Hub) : Hub :=
  let step := freq - h.clk.relFreq
  when_ (h.runs && h.clk.relValid && !h.clk.jumpHeld && decide (jumpLimitX < step.natAbs))
    (fun h =>
      let q := h.qualifiedMask
      let ys := h.refs.map fun r => r.y
      let ks := h.refs.map fun r => r.k
      let h := h.onClk fun c =>
        { c with relFreq := freq, jumpHeld := true, jumpStep := step, jumpSlots := q, jumpY := ys, jumpK := ks, jumpMs := c.ms }
      if q = 0 then attributeJump false (raiseRoot (bit16 3 ||| bit16 4) h) else raiseRoot (bit16 3) h) h

/-- Slot s has given a result that spans the jump: a sample has come since. -/
def Hub.spansJump (h : Hub) (s : Fin 12) : Bool :=
  h.clk.jumpSlots.getLsbD s && decide (h.clk.jumpK[s] < h.refs[s].k) && match h.refs[s].hist.head? with
    | some x => x.isSome
    | none => false

/-- JUMP_ATTRIBUTED: slot s, qualified at the jump, gives the first result that spans it. Its offset over the newest interval
is set against its offset at the jump. -/
def jumpAttributed (s : Fin 12) (h : Hub) : Hub :=
  when_ (h.runs && h.clk.jumpHeld && h.spansJump s)
    (fun h =>
      let moved := slopeY (h.tau0 h.refs[s]) (h.refs[s].hist.take 2) - h.clk.jumpY[s]
      attributeJump (decide (h.clk.jumpStep.natAbs ≤ 2 * moved.natAbs)) h) h

/-- JUMP_ATTRIBUTION_TIMEOUT: 2 s have passed without such a result. -/
def jumpAttributionTimeout (h : Hub) : Hub :=
  when_ (h.runs && h.clk.jumpHeld && decide (h.clk.jumpMs + 2000 ≤ h.clk.ms)) (fun h => attributeJump false (raiseRoot (bit16 4) h)) h

/-! ## The oven -/

/-- The OVEN fault with CLK_ROOT_EVT.oven. -/
def ovenFault (h : Hub) : Hub := sendFault srcOven .oven accNone mInternal 0 (raiseRoot (bit16 7) h)

/-- The total heater power of a limited oven, 4 W in units of 10 mW (R42). -/
def heaterLimit : Nat := 400

/-- OVEN_BAND_ENTRY: the sensor reads within ±0.05 K (R41). The spec does not say when the limit of R42 ends: the model keeps a
limited heater limited until the rails go off (log 73). -/
def ovenBandEntry (h : Hub) : Hub :=
  when_ (h.runs && !h.clk.inBand) (fun h => h.onClk fun c => { c with inBand := true, bandSecs := 0 }) h

/-- OVEN_BAND_EXIT: TB_WARM falls at once; a fault once the hub has been warm (R41, R42). -/
def ovenBandExit (h : Hub) : Hub :=
  when_ (h.runs && h.clk.inBand)
    (fun h =>
      let warm := h.clk.warm
      let h := h.onClk fun c => { c with inBand := false, warm := false, bandSecs := 0 }
      let h := if warm then raiseRoot (bit16 6) h else h
      if h.clk.everWarm then ovenFault h else h) h

/-- OVERFLOW of the rotators that stand at their limit as TB_WARM rises (R54). -/
def warmOverflow (m : Fin 16) (h : Hub) : Hub :=
  if h.doms[m].limited && !h.doms[m].limitSent then
    sendFault (srcRot m) .overflow accNone mInternal 0 (h.onDom m fun d => { d with limitSent := true })
  else h

/-- TB_WARM_RISE: the oven has been in band for 120 s, as CLK_OVEN_TIME counts them (R41). -/
def tbWarmRise (h : Hub) : Hub :=
  when_ (h.runs && h.clk.inBand && !h.clk.warm && decide (120 ≤ h.clk.bandSecs))
    (fun h => forEach (allFin 16) warmOverflow
      (raiseRoot (bit16 5) (h.onClk fun c => { c with warm := true, everWarm := true }))) h

/-- OVEN_WARMUP_LIMIT: ten minutes of warm-up without reaching the band (R42). -/
def ovenWarmupLimit (h : Hub) : Hub :=
  when_ (h.runs && !h.clk.inBand && !h.clk.everWarm && !h.clk.limited)
    (fun h => ovenFault (h.onClk fun c => { c with limited := true, heater := min heaterLimit c.heater })) h

/-! ## Ladders (R60) -/

/-- LADDER_LOCK. -/
def ladderLock (k : Fin 8) (h : Hub) : Hub :=
  when_ (h.runs && h.rootActive && !h.clk.ladders.getLsbD k)
    (fun h => h.onClk fun c =>
      { c with ladders := c.ladders ||| BitVec.ofNat 8 (2 ^ k.val), ladderAt := upd c.ladderAt k fun _ => c.cycles }) h

/-- LADDER_LOSS_OF_LOCK. -/
def ladderLossOfLock (k : Fin 8) (h : Hub) : Hub :=
  when_ (h.runs && h.clk.ladders.getLsbD k)
    (fun h => sendFault (srcLadder k) .lockLost accNone mInternal 0
      (raiseRoot (bit16 8) (h.onClk fun c => { c with ladders := c.ladders &&& ~~~(BitVec.ofNat 8 (2 ^ k.val)) }))) h

/-! ## Deskew lines (R63 to R67) -/

/-- Control value in whole steps, and the rail bit (R67). -/
def Dll.ctrl (d : Dll) : Nat := d.pos / 10 ^ 5
def dllTop : Nat := 4095 * 10 ^ 5
def Dll.rail (d : Dll) : Bool := d.pos == 0 || d.pos == dllTop

/-- Senses through an SNS pair. -/
def Dll.remote (d : Dll) : Bool := d.sense.isSome

/-- The DLL of CLK[n] works: a root is ACTIVE and the line is not frozen (R64, R68). -/
def Hub.dllActs (h : Hub) (n : Fin 96) : Bool := h.runs && h.rootActive && !h.dlls[n].frozen

/-- The error that the DLL of CLK[n] sees: through an SNS pair, less the calibrated delay of the lane's path at 0 V on a rising
edge, and less sense_delay (R203). -/
def Hub.dllErr (h : Hub) (n : Fin 96) (raw : Int) : Int :=
  match h.dlls[n].sense with
  | none => raw
  | some k => raw - rdiv (h.inDelay (72 + k) true 952) (10 ^ 5) - pf h.outs[n].cfg 8 0 32

/-- Bandwidth of the loop in 2^-24 Hz: 2 Hz, or one fiftieth of the output frequency where that is less (R63, R65). -/
def dllBand (n : Nat) : Nat := if n ≤ 15000 then 2 * 2 ^ 24 else min (2 * 2 ^ 24) (30000000 * 2 ^ 24 / n)

/-- The most that the delay changes in 1 ms, 10^-5 step: 100 ps/s, or 10 ps/s (R63, R66). -/
def Dll.slew (d : Dll) : Int := if d.slow then 3072 else 30720

/-- What the first-order loop takes off the delay in 1 ms for an error in fu, 10^-5 step: one fu is 3/64 step, and the factor
is 2π times the bandwidth (R63; "about 2 Hz" is taken as 2 Hz, log 74). -/
def Dll.move (d : Dll) (band : Nat) (err : Int) : Int :=
  clampI (-d.slew) d.slew (rdiv (err * 3 * 10 ^ 5 * twoPi15 * band) (64 * 1000 * 10 ^ 15 * 2 ^ 24))

/-- A DLL tracks for one millisecond (R63, R67): its control stops at 0 and at 4,095 steps. -/
def dllTrack (n : Fin 96) (raw : Int) (h : Hub) : Hub :=
  if h.dllActs n then
    let err := h.dllErr n raw
    let band := dllBand (outN h.outs[n].cfg)
    h.onDll n fun d => { d with err, pos := (clampI 0 dllTop (d.pos - d.move band err)).toNat }
  else h

/-- Root cycles for which the error must have been under 1 ps: 1 ms, or 100 edges of an output of N above 15,000 (R63, R65). -/
def dllLockCycles (n : Nat) : Nat := if n ≤ 15000 then 1500000 else 100 * n

/-- Root cycles for which it must have exceeded 5 ps: 100 µs, or 10 edges (R64, R65). -/
def dllLossCycles (n : Nat) : Nat := if n ≤ 15000 then 150000 else 10 * n

/-- Root cycles without an edge: 100 µs, or three output periods where that is longer (R64, R65). -/
def dllEdgeCycles (n : Nat) : Nat := if n ≤ 15000 then 150000 else max 150000 (3 * n)

/-- In BOOT the legs of CLK[n] leave logic low on both when its DLL has locked (R38, R216). -/
def bootRelease (n : Fin 96) (h : Hub) : Hub := when_ (h.inMode .boot) (fun h => h.onOut n fun x => { x with pin := h.pinSet n }) h

/-- DLL_LOCK: the error has been under 1 ps (65.536 fu) for long enough. -/
def dllLock (n : Fin 96) (err : Int) (held : Nat) (h : Hub) : Hub :=
  when_ (h.dllActs n && !h.dlls[n].locked && decide (err.natAbs ≤ 65) && decide (dllLockCycles (outN h.outs[n].cfg) ≤ held))
    (fun h => bootRelease n (h.onDll n fun d => { d with err, locked := true, slow := false })) h

/-- What DLL_LOSS_OF_LOCK reports is a loss: an error above 5 ps (327.68 fu) for long enough, or no edge for long enough, which
a short period counts at an SNS lane only (R64, R65). -/
def Hub.dllLoses (h : Hub) (n : Fin 96) (err : Int) (held : Nat) (noEdge : Bool) : Bool :=
  let per := outN h.outs[n].cfg
  if noEdge then (h.dlls[n].remote || decide (15000 < per)) && decide (dllEdgeCycles per ≤ held)
  else decide (328 ≤ err.natAbs) && decide (dllLossCycles per ≤ held)

/-- DLL_LOSS_OF_LOCK of a locked DLL, or of one at its rail (R67): the control value is frozen, with the bit of CLK_DLL_EVT
and LOCK_LOST (R64). -/
def dllLossOfLock (n : Fin 96) (err : Int) (held : Nat) (noEdge : Bool) (h : Hub) : Hub :=
  when_ (h.dllActs n && (h.dlls[n].locked || h.dlls[n].rail) && h.dllLoses n err held noEdge)
    (fun h => sendFault (srcClk n) .lockLost accNone mInternal 0
      (raiseDll n (h.onDll n fun d => { d with err := if noEdge then d.err else err, locked := false, frozen := true }))) h

/-- A DLL whose bit in CLK_DLL_EVT has been cleared tracks again, slowly (R66). -/
def rearmDll (n : Fin 96) (h : Hub) : Hub :=
  h.onDll n fun d => if d.frozen then { d with frozen := false, slow := true } else d

/-- In BOOT each DLL starts from its calibrated output-path delay, in the bank's format (R68). -/
def dllStarts (h : Hub) : Hub :=
  { h with dlls := Vector.ofFn fun (n : Fin 96) =>
      { h.dlls[n] with pos := (clampI 0 dllTop (rdiv (h.cal.outPath.getD (5 * n + h.banks[(⟨n / 4, by omega⟩ : Fin 24)].toNat) 0 * 3) 64)).toNat } }

/-! ## Meanings -/

def execRootFaultDetected (r : Side) (cause : Fin 4) (s : State) := run (rootFaultDetected r cause) s
def execRootXJump (freq : Int) (s : State) := run (rootXJump freq) s
def execJumpAttributed (k : Fin 12) (s : State) := run (jumpAttributed k) s
def execJumpAttributionTimeout (s : State) := run jumpAttributionTimeout s
def execOvenBandEntry (s : State) := run ovenBandEntry s
def execOvenBandExit (s : State) := run ovenBandExit s
def execTbWarmRise (s : State) := run tbWarmRise s
def execOvenWarmupLimit (s : State) := run ovenWarmupLimit s
def execLadderLock (k : Fin 8) (s : State) := run (ladderLock k) s
def execLadderLossOfLock (k : Fin 8) (s : State) := run (ladderLossOfLock k) s
def execDllLock (n : Fin 96) (err : Int) (held : Nat) (s : State) := run (dllLock n err held) s
def execDllLossOfLock (n : Fin 96) (err : Int) (lost : LossSpan) (s : State) :=
  run (dllLossOfLock n err lost.held lost.noEdge) s
def execRootRelationValid (s : State) := run rootRelationValid s

end Sys2Proof.Machine
end

