-- ==== Sys2Proof/Machine/Ticks.lean ====
section
/-!
DEFINITION. The tick grid (R491): what the hub does at each 1 ms tick and at each 1 s tick.
-/

namespace Sys2Proof.Machine

/-! ## Measurements -/

/-- The values measured at a tick: temperatures, VIN with its extremes (R467), the oven, and the averager's relation while
a standby root is locked (R43). -/
def takeMeas (m : Meas) (h : Hub) : Hub :=
  let standby := h.clk.rootLocked (otherSide h.activeSide)
  (h.onPwr fun p =>
    { p with
      temps := Vector.ofFn fun (i : Fin 8) => m.temps.getD i p.temps[i]
      vin := m.vin, ov := p.ov && decide (41000 < m.vin), vinLow := if p.vinLow = 0 then m.vin else min p.vinLow m.vin, vinHigh := max p.vinHigh m.vin }).onClk fun c =>
    { c with
      heater := if h.pwr.pfail then 0 else if c.limited then min heaterLimit m.heater else m.heater
      dev := satSigned 16 m.dev, oven := m.dev
      relPhase := if standby then m.relPhase else c.relPhase
      relFreq := if standby then m.relFreq else c.relFreq }

/-! ## Tables of the domains (R136, R139) -/

/-- One priority table that waits becomes active, and its descriptor completes. -/
def swapPrio (m : Fin 16) (h : Hub) : Hub :=
  match h.doms[m].prioQ with
  | [] => h
  | (id, p) :: q => complete id .ok (copyWritten (0x8C00 + 0x40 * m) 24 (h.onDom m fun d => { d with prio := p, prioQ := q }))

/-- The weight table that waits becomes active: a change of what an ensemble follows (R160, R162). -/
def swapWeights (m : Fin 16) (h : Hub) : Hub :=
  match h.doms[m].weightsNext with
  | none => h
  | some w =>
    let h := h.onDom m fun d =>
      { (if d.policy == 1 && d.state.steered then d.leaving else d) with weights := w, weightsNext := none }
    setUsers m h.doms[m].uses h

/-- DOM_FOFS of this millisecond counts towards the mean of the second (R170). -/
def Dom.sampleFofs (d : Dom) : Dom := { d with secSum := d.secSum + d.fofs, secN := d.secN + 1 }

/-- Milliseconds since the entry to HOLDOVER (R170). -/
def Dom.holdMs (d : Dom) : Dom :=
  { d with hoMs := if d.state == .holdover || d.state == .holdoverOut then d.hoMs + 1 else d.hoMs }

/-- A domain at a 1 ms tick: its tables, its hold-offs, and its update where its slots have τ0 of 1 ms. -/
def domMilli (m : Fin 16) (h : Hub) : Hub :=
  let h := holdoffStep m ((swapWeights m (swapPrio m h)).onDom m Dom.holdMs)
  (if h.bySecond h.doms[m] then h else domUpdate m 1 h).onDom m Dom.sampleFofs

/-- Samples of slots with τ0 of 1 ms have been used. -/
def usedMilli (h : Hub) : Hub :=
  { h with refs := h.refs.map fun r => if h.slow r then r else { r with fresh := none } }

/-! ## The 1 s tick -/

/-- The domain counts tracked time (R167). -/
def Hub.counting (h : Hub) (d : Dom) : Bool := (d.state == .track || (d.state == .acquire && d.acqFromTrack)) && !h.isSafe

/-- Close the second in the history of DOM_FOFS: its mean, and every 64 s a block mean (R170). -/
def Dom.closeSecond (d : Dom) : Dom :=
  if d.secN = 0 then d
  else
    let mean := rdiv d.secSum d.secN
    let d := { d with secSum := 0, secN := 0, secMeans := (mean :: d.secMeans).take 65535, blkSum := d.blkSum + mean, blkN := d.blkN + 1 }
    if d.blkN < 64 then d else { d with blocks := (rdiv d.blkSum 64 :: d.blocks).take 65535, blkSum := 0, blkN := 0 }

/-- Tracked time, the timers and the weights of a domain at a 1 s tick (R139, R159, R167, R171). -/
def domCounts (m : Fin 16) (h : Hub) : Hub :=
  let on_ := h.counting h.doms[m]
  let h := h.onDom m fun d =>
    let d := if on_ then { d.closeSecond with tracked := satInc32 d.tracked } else { d with secSum := 0, secN := 0 }
    { d with hoTimer := if d.state == .holdover then d.hoTimer - 1 else d.hoTimer
             holds := d.holds.map fun p => (p.1, p.2 - 1) }
  let d := h.doms[m]
  if d.policy == 1 && (d.state == .acquire || d.state == .track) && !h.isSafe && h.domTaskRuns m then
    let w := h.weightsFor d d.followed
    h.onDom m fun d => { d with weightsNext := some w }
  else h

/-- The update of a domain that updates once a second, or, where its Syncs are rarer, in the seconds with a sample (R156,
R281). -/
def domSecond (m : Fin 16) (h : Hub) : Hub :=
  let d := h.doms[m]
  if !h.bySecond d then h
  else if h.sparse d then
    if d.followed.any fun s => h.refs[s].fresh.isSome then
      domUpdate m (match d.lastUpdate with
        | some t => max 1000 (h.clk.ms - t)
        | none => 1000) h
    else h
  else domUpdate m 1000 h

/-- The samples of the second have been used. -/
def usedSecond (h : Hub) : Hub :=
  { h with refs := h.refs.map fun r => { r with fresh := none, sumX := 0, sumT := 0, sumN := 0 } }

/-- The 1 s tick. -/
def second (h : Hub) : Hub :=
  let h := h.onClk fun c => { c with secDue := false, bandSecs := if c.inBand then satInc32 c.bandSecs else 0 }
  let h := usedSecond (forEach (allFin 16) domSecond h)
  let h := forEach (allFin 16) domCounts h
  let h := forEach (allFin 48) ptpSecond h
  let h := h.onTdc fun t => { t with agg := t.aggNow, aggNow := 0 }
  let h := h.onComp fun c => { c with evTasks := c.evTasks.map fun e => { e with taken := 0 } }
  checkRots (forEach (allFin 48) asymTick (trimTick h))

/-- TICK_1S. -/
def tick1s (h : Hub) : Hub := when_ (h.runs && h.rootActive && h.clk.secDue) second h

/-! ## The 1 ms tick -/

/-- Millisecond counts: the RECOVERY stability timer, SERVICE for the auto restarts, hours since BOOT. -/
def milliCounts (h : Hub) : Hub :=
  (h.onTop fun t =>
    { t with
      stabMs := if t.mode == .recovery then t.stabMs + 1 else t.stabMs
      serviceMs := if t.mode == .service then t.serviceMs + 1 else t.serviceMs }).onShim fun s =>
    { s with hourMs := if h.inMode .boot then s.hourMs else s.hourMs + 1 }

/-- Bits flip in one copy of a rotator's accumulator. -/
def flip (u : Upset) (h : Hub) : Hub :=
  h.onDom u.dom fun d =>
    if u.copy = 0 then { d with accA := d.accA ^^^ u.bits }
    else if u.copy = 1 then { d with accB := d.accB ^^^ u.bits }
    else { d with accC := d.accC ^^^ u.bits }

/-- The vote of one rotator's accumulator copies (R19, R58): copies that disagree take the voted value, and a disagreement
is reported, with ECC_CE, or with ECC_UE and the domain untrusted where no two of them agreed. -/
def voteRot (m : Fin 16) (h : Hub) : Hub :=
  let found := h.doms[m].voted ||| h.doms[m].vote
  let h := h.onDom m fun d => { d with accA := d.acc, accB := d.acc, accC := d.acc, voted := 0 }
  let h := if found.getLsbD 0 then sendFault (srcRot m) .eccCe accNone mInternal 0 h else h
  if found.getLsbD 1 then distrust m (sendFault (srcRot m) .eccUe accNone mInternal 0 h) else h

/-- A packet whose ECC found an error (R28): delivered corrected, with ECC_CE from the receiving block; or not acted on, with
ECC_UE of access type Message and the sender's master code; a half that is off or draining receives none (R29). The sender sends
it again, so that what the packet does is done all the same. -/
def packetError (e : PacketErr) (h : Hub) : Hub :=
  if h.comp.returns e.receiver.toNat then h
  else if e.fatal then sendFault e.receiver.toNat .eccUe accMsg e.sender.toNat 0 h
  else sendFault e.receiver.toNat .eccCe accMsg e.sender.toNat 0 h

/-- Bits of a group of the Shim array have failed (R372): what the next read of it finds. -/
def decay (w : Nat × GroupErr) (h : Hub) : Hub :=
  if w.1 < groupCount && w.2 != .clean && h.shim.damageOf w.1 != .uncorrectable then
    (mendGroup w.1 h).onShim fun s => { s with damage := w :: s.damage }
  else h

/-- TICK_1MS: time advances to the tick; then C, the links and PTP ports, the slots, the domains, the pulse outputs and the
counts. A 1 s tick that is due from an earlier tick comes first. -/
def tick1ms (m : Meas) (h : Hub) : Hub :=
  when_ (h.runs && h.rootActive) (fun h =>
    let h := takeMeas m (advanceTo tickCycles (tick1s h))
    let h := forEach m.packets packetError (forEach (allFin 16) voteRot (forEach m.upsets flip (forEach m.decayed decay h)))
    let h := laneTicks (forEach m.sensed (fun x h => dllTrack x.1 x.2 h) h)
    let h := h.onClk fun c => { c with pos := 0, ms := c.ms + 1, secDue := decide ((c.ms + 1) % 1000 = 0) }
    let h := forEach (allFin 48) linkTick (rampCorr h)
    let h := forEach (allFin 48) (ptpMilli m.lines) h
    let h := forEach (allFin 12) (fun s h => refTick s (linkPresence s h)) h
    let h := usedMilli (forEach (allFin 16) domMilli h)
    let h := forEach (allFin 32) monEntry ((plsTicks h).onTdc fun t => { t with pushed := 0 })
    pruneCauses (milliCounts (hierTick (checkRots h)))) h

/-! ## Meanings -/

def execTick1ms (m : Meas) (s : State) := run (tick1ms m) s
def execTick1s (s : State) := run tick1s s

end Sys2Proof.Machine
end

