-- ==== Sys2Proof/Machine/RegMap.lean ====
section
/-!
DEFINITION. BAR 0 as it reads (chapter 11 and the register tables of chapters 2 to 15): every register at its offset,
with its fields. A paired _ACK register and every WP field read zero.
-/

namespace Sys2Proof.Machine

/-! ## Codes that only registers show -/

def IvuState.code : IvuState → Nat
  | .idle => 0 | .waitStart => 1 | .window => 2 | .rearm => 3

def ReedState.code : ReedState → Nat
  | .off => 0 | .free => 1 | .running => 2 | .failed => 3 | .halted => 4 | .test => 5 | .loading => 6

def HalfPower.code : HalfPower → Nat
  | .off => 0 | .on => 1 | .draining => 2 | .starting => 3

def RingState.code : RingState → Nat
  | .disabled => 0 | .enabled => 1 | .draining => 2 | .error => 3

/-- HIER_STAT.role (R260). -/
def Role.code : Role → Nat
  | .unassigned => 0 | .manager => 1 | .standby => 2 | .worker => 3 | .passive => 4

/-- PTP port state codes of IEEE 1588-2019 (PRESUMED, log 12); 0 for a port that is no PTP port. -/
def PtpState.code : PtpState → Nat
  | .absent => 0 | .initializing => 1 | .faulty => 2 | .disabled => 3 | .listening => 4 | .preMaster => 5 | .master => 6
  | .passive => 7 | .uncalibrated => 8 | .slave => 9

def Anchor.code : Anchor → Nat
  | .none => 0 | .once => 1 | .track => 2

/-! ## Finding a register -/

/-- The instance of a bank from `base`, `stride` bytes apart, that an offset falls in, with the offset within it. -/
def inBank (base stride n off : Nat) : Option (Fin n × Nat) :=
  if base ≤ off then (finOf n ((off - base) / stride)).map fun i => (i, (off - base) % stride) else none

/-- A word of a read-back copy of `len` bytes (R354). -/
def copyWord (p : Payload) (len o : Nat) : Option Nat := if o < len then some (fld p (8 * o) 32) else none

/-- Words at an offset and the one after it, or an event-status register with its _ACK register. -/
def evtPair (e : Evt) (at0 o : Nat) : Option Nat := if o = at0 then some e.word else if o = at0 + 4 then some 0 else none

/-- The first of two readings that is there. -/
def orRead (x y : Option Nat) : Option Nat := x.orElse fun _ => y

/-! ## IDENT and TOP (chapters 9, 11, 15) -/

/-- IDENT_FW: the image of the warden in charge, the loader, and the image's version. -/
def Hub.identFw (h : Hub) : Nat :=
  match h.comp.charge with
  | some w => atB 31 (h.imageOfWarden w == .b) + atB 30 h.shim.loader + at_ 0 24 (h.shim.imageVersion (h.imageOfWarden w))
  | none => atB 30 h.shim.loader

/-- The identifiers that the endpoint shows in its configuration space (R481): constants of the part. -/
structure PciIds where
  vendor : BitVec 16
  device : BitVec 16
  subVendor : BitVec 16
  subsystem : BitVec 16
  revision : BitVec 8
deriving DecidableEq, Repr

def pciIds : PciIds :=
  { vendor := 0x1F5B, device := 0x9192, subVendor := 0x1F5B, subsystem := if Config.gradeE then 0x0001 else 0x0002,
    revision := Config.siliconMajor }

def Hub.readIdent (h : Hub) (off : Nat) : Option Nat :=
  if off = 0x00 then some 0x0EF19192
  else if off = 0x04 then some (at_ 24 8 Config.siliconMajor.toNat + at_ 16 8 Config.siliconMinor.toNat)
  else if off = 0x08 then some h.identFw
  else if off = 0x10 then some (at_ 24 8 192 + at_ 16 8 48 + at_ 8 8 96 + at_ 0 8 64)
  else if off = 0x14 then some (at_ 24 8 64 + at_ 16 8 8 + at_ 8 8 12 + at_ 0 8 16)
  else if off = 0x18 then some (at_ 24 8 4 + at_ 16 8 32 + at_ 8 8 32 + at_ 0 8 16)
  else if off = 0x1C then some (at_ 24 8 6 + at_ 16 8 192 + at_ 12 4 2 + at_ 8 4 4 + at_ 4 4 4 + at_ 0 4 8)
  else if off = 0x20 then some (at_ 24 8 16 + at_ 16 8 16 + at_ 8 8 4 + at_ 0 8 128)
  else if off = 0x24 then some 4096
  else none

/-- Number of the hottest sensor: the lowest of those that read highest. -/
def Hub.hottestAt (h : Hub) : Nat := h.pwr.temps.toList.findIdx fun t => t == h.hottest

def Hub.readTop (h : Hub) (off : Nat) : Option Nat :=
  let t := h.top
  let p := h.pwr
  if off = 0x1000 then some (atB 7 h.flt.driven + atB 6 h.healthy + at_ 0 4 t.mode.code)
  else if off = 0x1004 then some (atB 1 t.strapAuto + atB 0 t.strapCharge)
  else if off = 0x1010 then some (at_ 16 16 t.vioSpi.toNat + at_ 0 16 t.vioHost.toNat)
  else if off = 0x1014 then some t.vioDebug.toNat
  else if off = 0x1018 then some 0
  else if off = 0x1020 then some (at_ 24 8 t.parCount.toNat + at_ 0 24 t.parOffset.toNat)
  else if off = 0x1040 then some h.topCharge
  else if off = 0x1044 then some h.comp.cevt.word
  else if off = 0x1048 then some 0
  else if off = 0x1050 then some (at_ 30 2 h.comp.aPower.code + at_ 28 2 h.comp.bPower.code
    + at_ 8 8 (h.tasksOn .a).length + at_ 0 8 (h.tasksOn .b).length)
  else if off = 0x1080 then some (at_ 16 16 p.irqEn.toNat + atB 0 p.thermAuto)
  else if off = 0x1084 then some (atB 31 p.warn + at_ 28 3 h.hottestAt + at_ 0 16 (ofSigned 16 h.hottest))
  else if off = 0x1090 then some (atB 31 p.pfail + atB 30 p.phaseA + atB 29 p.phaseB + atB 28 p.ov + at_ 0 16 p.vin)
  else if off = 0x1094 then some p.evt.word
  else if off = 0x1098 then some 0
  else if off = 0x10A0 then some 0
  else if off = 0x10A4 then some (at_ 28 4 t.cause.toNat + at_ 24 4 t.railRetries + at_ 22 2 t.autoCount + at_ 0 16 t.bootMs.toNat)
  else (inBank 0x10C0 4 8 off).bind fun (x : Fin 8 × Nat) => some (ofSigned 16 p.temps[x.1])

/-! ## HOST and MBX (chapter 11) -/

/-- One of a ring's four registers. -/
def Hub.readRing (h : Hub) (r : RingId) (o : Nat) : Option Nat :=
  let x := h.ring r
  if o = 0x0 then some x.baseLo.toNat
  else if o = 0x4 then some x.baseHi.toNat
  else if o = 0x8 then some (atB 31 x.open_ + atB 30 x.fast + at_ 20 4 x.cq.toNat + at_ 12 8 x.coalCnt.toNat + at_ 0 4 x.k.toNat)
  else if o = 0xC then
    let busy := match r with
      | .cmd q => h.ringProgress q
      | .cpl _ => 0
      | .tel _ => 0
      | .str _ => 0
    some (at_ 16 16 (ownIndex r x).toNat + at_ 8 8 busy + at_ 0 2 x.state.code)
  else none

/-- The ring whose register block an offset falls in, and the offset in the block. -/
def ringAt (off : Nat) : Option (RingId × Nat) :=
  match inBank 0x2100 0x10 16 off with
  | some (q, o) => some (.cmd q, o)
  | none => match inBank 0x2200 0x10 16 off with
    | some (c, o) => some (.cpl c, o)
    | none => match inBank 0x2300 0x10 4 off with
      | some (t, o) => some (.tel t, o)
      | none => match inBank 0x2400 0x10 64 off with
        | some (n, o) => some (.str n, o)
        | none => none

/-- The hub-produced ring of a COAL register: completion, telemetry, stream. -/
def coalRing (r : Fin 84) : RingId :=
  if h : r.val < 16 then .cpl ⟨r, h⟩
  else if h2 : r.val < 20 then .tel ⟨r - 16, by omega⟩
  else .str ⟨r - 20, by omega⟩

def Hub.readHost (h : Hub) (off : Nat) : Option Nat :=
  let x := h.host
  if off = 0x2000 then some x.idxLo.toNat
  else if off = 0x2004 then some x.idxHi.toNat
  else if off = 0x2008 then some x.dumpLo.toNat
  else if off = 0x200C then some x.dumpHi.toNat
  else if off = 0x2010 then some x.dumpSize.toNat
  else match ringAt off with
    | some (r, o) => h.readRing r o
    | none => match inBank 0x2800 4 167 off with
      | some (s, _) => some (atB 8 x.spi[s] + at_ 0 8 x.vector[s].toNat)
      | none => (inBank 0x2C00 4 84 off).bind fun (y : Fin 84 × Nat) => some (h.ring (coalRing y.1)).coalUs.toNat

/-- A mailbox register (R361): the data reads zero while valid is 0. -/
def Mbx.read (x : Mbx) (o : Nat) : Option Nat :=
  if o = 0x00 then some (at_ 16 8 x.code.toNat + at_ 0 12 x.inst.toNat)
  else if o = 0x04 then some (atB 31 x.valid + atB 30 x.err)
  else if 0x10 ≤ o ∧ o < 0x20 then some (if x.valid then fld x.data (8 * (o - 0x10)) 32 else 0)
  else none

/-! ## FLT (chapter 13) -/

/-- The captured message and its stamp, zero while none is captured. -/
def Flt.capWord (f : Flt) : Nat := match f.cap with
  | some c => c.1.msg.word.toNat
  | none => 0
def Flt.capTime (f : Flt) : Nat := match f.cap with
  | some c => c.1.time.toNat
  | none => 0
def Flt.capEpoch (f : Flt) : Nat := match f.cap with
  | some c => c.1.epoch.toNat
  | none => 0
def Flt.capMode (f : Flt) : Nat := match f.cap with
  | some c => c.2.toNat
  | none => 0

def Hub.readFlt (h : Hub) (off : Nat) : Option Nat :=
  let f := h.flt
  if off = 0x4000 then some (atB 31 f.cap.isSome + atB 30 f.ovf + atB 29 h.pinLow + atB 28 f.driven + at_ 24 4 f.capMode)
  else if off = 0x4004 then some f.evt.word
  else if off = 0x4008 then some 0
  else if off = 0x4010 then some (f.capWord % 2 ^ 32)
  else if off = 0x4014 then some (f.capWord / 2 ^ 32)
  else if off = 0x4018 then some (f.capTime % 2 ^ 32)
  else if off = 0x401C then some (f.capTime / 2 ^ 32)
  else if off = 0x4020 then some f.capEpoch
  else if off = 0x4024 then some f.capCnt
  else if off = 0x4030 then some (b2n f.hold)
  else if off = 0x4034 then some f.irqEn.toNat
  else if off = 0x4040 then some f.safeEvt.word
  else if off = 0x4044 then some 0
  else if off = 0x4048 then some h.safeStat
  else if off = 0x4070 then some (atB 31 f.ffFull + at_ 24 7 f.ffCount + at_ 0 13 f.head)
  else if off = 0x4078 then some (atB 31 f.dumpBusy + atB 30 f.dumpOk + at_ 0 16 f.dumps)
  else if off = 0x407C then some f.lost
  else match inBank 0x4050 8 3 off with
    | some (j, o) => evtPair f.degLnk[j] 0 o
    | none => (inBank 0x5000 4 512 off).bind fun (x : Fin 512 × Nat) => some f.sev[x.1].toNat

/-! ## CLK (chapter 2) -/

/-- CLK_DLL_LOCK[j]. -/
def Hub.dllLocks (h : Hub) (j : Nat) : Nat := ((List.range 32).map fun i => atB i (pick h.dlls (32 * j + i) {}).locked).sum

def Dll.word (d : Dll) : Nat :=
  atB 31 d.locked + atB 30 d.frozen + atB 29 d.rail + atB 28 d.remote + at_ 12 16 (satField 16 d.err) + at_ 0 12 d.ctrl

def Hub.readClk (h : Hub) (off : Nat) : Option Nat :=
  let c := h.clk
  if off = 0x6000 then some h.rootState
  else if off = 0x6004 then some c.rootEvt.word
  else if off = 0x6008 then some 0
  else if off = 0x600C then some (atB 30 c.limited + atB 29 c.inBand + atB 28 c.warm + at_ 16 12 c.heater + at_ 0 16 (satField 16 c.dev))
  else if off = 0x6010 then some c.bandSecs
  else if off = 0x6014 then some c.rotSat.word
  else if off = 0x6018 then some 0
  else if off = 0x601C then some c.ladders.toNat
  else match inBank 0x6040 4 3 off with
    | some (j, _) => some (h.dllLocks j)
    | none => match inBank 0x6080 8 6 off with
      | some (j, o) => evtPair h.dllEvt[j] 0 o
      | none => (inBank 0x6200 4 96 off).bind fun (x : Fin 96 × Nat) => some h.dlls[x.1].word

/-! ## REF and DOM (chapters 4, 5) -/

def RefSlot.read (r : RefSlot) (o : Nat) : Option Nat :=
  if o < 0x30 then copyWord r.cfg 48 o
  else if o = 0x40 then some (at_ 16 16 r.timer + at_ 12 4 r.cause.toNat + atB 11 r.todValid + atB 10 r.cw.isSome + atB 9 r.depth
    + atB 8 r.leapPending + at_ 4 3 r.prescale + at_ 0 3 r.state.code)
  else if o = 0x44 then some r.evt.word
  else if o = 0x48 then some 0
  else if o = 0x4C then some r.users.toNat
  else if o = 0x50 then some (ofSigned 8 r.tai)
  else if o = 0x54 then some r.cntMiss
  else if o = 0x58 then some r.cntExtra
  else if o = 0x5C then some r.cntJump
  else if o = 0x60 then some r.cntTod
  else if o = 0x64 then some (at_ 20 10 r.mtie100 + at_ 10 10 r.mtie10 + at_ 0 10 r.mtie1)
  else if o = 0x68 then some r.cntWidth
  else none

def Hub.readRef (h : Hub) (off : Nat) : Option Nat :=
  match inBank 0x8000 0x100 12 off with
  | some (s, o) => h.refs[s].read o
  | none => match inBank 0x8C00 0x40 16 off with
    | some (m, o) => copyWord h.doms[m].prio 24 o
    | none => none

/-- DOM_STATE. -/
def Hub.domState (h : Hub) (d : Dom) : Nat :=
  atB 31 d.untrusted + atB 30 d.stepped + atB 29 d.todUnset + atB 28 d.aligned + atB 27 (d.lossFreeze || h.isSafe)
  + atB 26 d.sluicing + atB 25 d.bwLimited + atB 24 d.intClamp + atB 23 (d.excluded != 0) + at_ 16 4 d.selected.toNat
  + at_ 14 2 d.policy.toNat + atB 13 d.keeper + at_ 0 3 d.state.code

def Hub.readDom1 (h : Hub) (d : Dom) (o : Nat) : Option Nat :=
  if o < 0x30 then copyWord d.cfg 48 o
  else if o = 0x40 then some (h.domState d)
  else if o = 0x44 then some d.evt.word
  else if o = 0x48 then some 0
  else if o = 0x4C then some (ofSigned 64 d.fofs % 2 ^ 32)
  else if o = 0x50 then some d.hiLatch.toNat
  else if o = 0x54 then some (if d.state == .holdover then d.hoTimer else 0)
  else if o = 0x58 then some d.tracked
  else if o = 0x5C then some (at_ 16 16 d.holdoff + at_ 0 12 d.members.toNat)
  else none

def Hub.readDom (h : Hub) (off : Nat) : Option Nat :=
  (inBank 0xA000 0x200 16 off).bind fun (x : Fin 16 × Nat) => h.readDom1 h.doms[x.1] x.2

/-! ## EVT, IVU and TDC (chapter 3) -/

/-- `depth`: the edges that the capture buffer holds now. -/
def EvtCh.read (c : EvtCh) (lane depth o : Nat) : Option Nat :=
  if o < 0x10 then copyWord c.cfg 16 o
  else if o = 0x10 then some (atB 31 c.enabled + atB 30 c.ringFull + atB 29 c.cw.isSome + at_ 16 6 depth + at_ 0 13 c.queue.length)
  else if o = 0x14 then some c.ovfCnt
  else if o = 0x18 then some c.burstCnt
  else if o = 0x1C then some c.deadCnt
  else if o = 0x20 then some c.edges.toNat
  else if o = 0x24 then some c.seq.toNat
  else if o = 0x28 then some c.evt.word
  else if o = 0x2C then some 0
  else if o = 0x30 then some lane
  else none

def Ivu.read (x : Ivu) (o : Nat) : Option Nat :=
  if o < 0x20 then copyWord x.cfg 32 o
  else if o = 0x20 then some (at_ 16 16 x.done.toNat + at_ 0 3 x.state.code)
  else if o = 0x24 then some x.evt.word
  else if o = 0x28 then some 0
  else none

def Hub.readTdc (h : Hub) (off : Nat) : Option Nat :=
  let t := h.tdc
  match inBank 0xD000 0x40 32 off with
  | some (u, o) => h.ivus[u].read o
  | none => match inBank 0xD800 4 6 off with
    | some (k, _) => some (atB 31 t.cw[k].busy + at_ 28 3 t.cw[k].phase.toNat + at_ 0 8 t.cw[k].target.toNat)
    | none => match inBank 0xD820 4 4 off with
      | some (c, _) => some (atB 31 (t.extrap.getLsbD c) + atB 30 (t.clamped.getLsbD c) + at_ 0 16 (ofSigned 16 t.temp[c]))
      | none => if off = 0xD838 then some t.agg else evtPair t.evt 0xD830 off

def Hub.readEvt (h : Hub) (off : Nat) : Option Nat :=
  (inBank 0xC000 0x40 64 off).bind fun (x : Fin 64 × Nat) =>
    let c := h.evts[x.1]
    c.read (laneNow (laneOfEvt x.1) c.cw) (drained c.cap c.capAt h.clk.cycles).1 x.2

/-! ## CLKOUT and PLS (chapter 6) -/

def ClkOut.read (x : ClkOut) (fmt o : Nat) : Option Nat :=
  if o < 0x10 then copyWord x.cfg 16 o
  else if o = 0x10 then some (atB 31 x.enabled + atB 30 x.pend.isSome + at_ 27 3 fmt)
  else if o = 0x14 then some x.evt.word
  else if o = 0x18 then some 0
  else none

/-- Lane of the anchor (PLS_STAT.src): EVT[n] is lane n and REF[s] lane 64 + s; 0 without an anchor. -/
def Pls.srcLane (x : Pls) : Nat :=
  if x.anchor == .none then 0 else 64 * pf x.anchorCfg 2 6 2 + pf x.anchorCfg 2 0 6

def Pls.read (x : Pls) (o : Nat) : Option Nat :=
  if o < 0x28 then copyWord x.cfg 40 o
  else if o = 0x28 then some (atB 31 x.enabled + at_ 29 2 x.anchor.code + atB 28 x.anchorLost + atB 27 (x.rho != 0 || x.slope != 0)
    + at_ 25 2 x.vddp.toNat + at_ 0 7 x.srcLane)
  else if o = 0x2C then some x.count.toNat
  else if o = 0x30 then some x.evt.word
  else if o = 0x34 then some 0
  else if o = 0x38 then some x.skip
  else none

def Hub.readOut (h : Hub) (off : Nat) : Option Nat :=
  match inBank 0xE000 0x20 96 off with
  | some (n, o) => h.outs[n].read h.banks[bankOfOut n].toNat o
  | none => (inBank 0xF000 0x40 64 off).bind fun (x : Fin 64 × Nat) => h.plss[x.1].read x.2

/-! ## LNK (chapter 7) -/

def Link.read (l : Link) (sendsUntrusted : Bool) (o : Nat) : Option Nat :=
  if o < 0x20 then copyWord l.cfg 32 o
  else if o = 0x40 then some (at_ 29 3 l.state.code + atB 28 l.peerUntrusted + atB 27 l.peerHoldover + atB 26 l.peerFollows
    + atB 25 l.asymObs + atB 24 sendsUntrusted + atB 23 l.loopback + atB 22 l.windowed)
  else if o = 0x44 then some l.evt.word
  else if o = 0x48 then some 0
  else if o = 0x4C then some (at_ 30 2 l.peerRole.toNat + at_ 26 4 l.peerHop.toNat + at_ 12 12 l.peerAddr.toNat)
  else if o = 0x50 then some l.extTx
  else if o = 0x54 then some l.extRx
  else if o = 0x58 then some l.cntCrc
  else if o = 0x5C then some l.cntMiss
  else if o = 0x60 then some l.cntMark
  else if o = 0x64 then some l.cntMgmt
  else if o = 0x68 then some (atB 3 l.modAbs + atB 2 l.txFault + atB 1 l.los + atB 0 l.txDis)
  else none

def Hub.readLnk (h : Hub) (off : Nat) : Option Nat :=
  (inBank 0x10000 0x200 48 off).bind fun (x : Fin 48 × Nat) => h.links[x.1].read (h.sendsUntrusted x.1) x.2

/-! ## REED (chapter 9) -/

def Reed.word (r : Reed) : Nat :=
  at_ 29 3 r.state.code + at_ 16 8 r.lastCause.toNat + at_ 0 8 (match r.task with
    | some t => t.val
    | none => 0xFF)

def Task.word (t : Task) : Nat :=
  at_ 29 3 t.state.code + at_ 27 2 t.cls.toNat + atB 26 (t.home == .b) + atB 25 t.away + atB 24 t.cold + at_ 16 8 t.rank.toNat
  + at_ 0 8 (reedByte t.reed)

def Hub.readReed (h : Hub) (off : Nat) : Option Nat :=
  let c := h.comp
  if off = 0x18C08 then some (at_ 16 16 c.shedCnt + at_ 0 16 c.takeCnt)
  else match inBank 0x18000 4 192 off with
    | some (n, _) => some c.reeds[n].word
    | none => match inBank 0x18400 4 126 off with
      | some (t, _) => some c.tasks[t].word
      | none => match inBank 0x18800 0x10 32 off with
        | some (e, o) => copyWord c.evTasks[e].cfg 16 o
        | none => evtPair c.evt 0x18C00 off

/-! ## SHIM and CAL (chapter 12) -/

/-- Progress of the scrub pass in %. -/
def Shim.scrubPct (s : Shim) : Nat := s.scrub * 100 / groupCount

def Hub.shimStat (h : Hub) : Nat :=
  let s := h.shim
  atB 31 s.txn.isSome + atB 30 s.execA + atB 29 s.execB + atB 28 (s.imageValid .a) + atB 27 (s.imageValid .b) + atB 26 s.bootB
  + at_ 0 8 s.scrubPct

/-- Image or copy i of a pair. -/
def pairSide (i : Fin 2) : Side := if i = 0 then .a else .b

def Hub.readShim (h : Hub) (off : Nat) : Option Nat :=
  let s := h.shim
  if off = 0x19000 then some (fld s.setCopy 0 32)
  else if off = 0x19004 then some (fld s.setCopy 32 32)
  else if off = 0x19040 then some h.shimStat
  else if off = 0x19044 then some s.evt.word
  else if off = 0x19048 then some 0
  else if off = 0x19060 then some s.poison.length
  else if off = 0x19068 then some (at_ 30 2 s.profResult.toNat + at_ 28 2 s.profSlot.toNat + at_ 16 12 s.profFailed + at_ 0 10 s.profFirst)
  else if off = 0x19100 then some s.ldrOfs.toNat
  else if off = 0x19104 then some 0
  else if off = 0x19108 then some 0
  else if off = 0x1910C then some (atB 31 s.ldrBusy + at_ 0 8 s.ldrReason.toNat)
  else match inBank 0x19050 4 2 off with
    | some (i, _) => some (if s.imageValid (pairSide i) then s.imageBuild (pairSide i) else 0)
    | none => (inBank 0x19058 4 2 off).bind fun (x : Fin 2 × Nat) =>
        some (atB 31 (s.imageValid (pairSide x.1)) + at_ 0 24 (s.imageVersion (pairSide x.1)))

/-- Trims not at their target (CAL_STAT.lagging): the delay trims as of the last tick, and C. -/
def Hub.calLagging (h : Hub) : Nat := min 0xFFFF (h.cal.lagging + b2n (h.clk.corr != h.clk.corrTarget))

def Cal.copyOk (c : Cal) : Side → Bool
  | .a => c.aValid
  | .b => c.bValid

def Hub.readCal (h : Hub) (off : Nat) : Option Nat :=
  let c := h.cal
  if off = 0x1A000 then some (atB 31 c.loaded.isSome + atB 30 c.degraded + atB 29 (c.loaded == some .b) + atB 28 c.aValid
    + atB 27 c.bValid + at_ 0 16 h.calLagging)
  else if off = 0x1A004 then some c.evt.word
  else if off = 0x1A008 then some 0
  else if off = 0x1A00C then some (h.shim.counters[(2 : Fin 256)] % 2 ^ 16)
  else if off = 0x1A010 then some (c.time % 2 ^ 32)
  else if off = 0x1A014 then some (c.time / 2 ^ 32 % 2 ^ 16)
  else if off = 0x1A020 then some (at_ 16 16 h.shim.slew + at_ 0 16 c.ticks.toNat)
  else (inBank 0x1A018 4 2 off).bind fun (x : Fin 2 × Nat) =>
    some (if c.copyOk (pairSide x.1) then h.shim.calNum (pairSide x.1) 0 4 else 0)

/-! ## MON (chapter 14) and HIER (chapter 8) -/

def Hub.readMon (h : Hub) (off : Nat) : Option Nat :=
  if off = 0x1B920 then some h.mons.irq.toNat
  else match inBank 0x1B000 0x40 32 off with
    | some (u, o) => copyWord h.mons.unit[u].cfg 40 o
    | none => match inBank 0x1B800 4 32 off with
      | some (u, _) =>
        let x := h.mons.unit[u]
        some (atB 31 x.enabled + atB 30 (!h.taskRuns (108 + u / 2)) + at_ 22 8 x.skipped + at_ 0 16 x.acc.window.toNat)
      | none => match inBank 0x1B900 8 2 off with
        | some (j, o) => evtPair h.mons.evt[j] 0 o
        | none => none

/-- PTP_STAT: steps is that of the parent, 0 on a port that takes no part; synce while a slot takes its samples from the line. -/
def Hub.ptpStat (h : Hub) (n : Fin 48) : Nat :=
  let p := h.hier.ptp[n]
  let steps := match h.ptpParent with
    | some d => if p.state.live then d.stepsRemoved else 0
    | none => 0
  at_ 28 4 p.state.code + at_ 24 4 p.rxQl.toNat + atB 23 p.esmcSeen
  + atB 22 (p.synceRx && !p.synceHeld && p.state == .slave && !(h.lrefs n).isEmpty) + at_ 0 16 steps

def Hub.readHier (h : Hub) (off : Nat) : Option Nat :=
  let x := h.hier
  if off = 0x1C040 then some (at_ 29 3 x.role.code + at_ 27 2 h.ownMode + at_ 20 4 h.hierClass + at_ 0 12 x.addr.toNat)
  else if off = 0x1C044 then some x.evt.word
  else if off = 0x1C048 then some 0
  else if off = 0x1C04C then some (at_ 24 8 x.mgrPrio + at_ 20 4 x.mgrClass + at_ 0 12 x.mgrAddr.toNat)
  else if off = 0x1C050 then some (Config.serial.toNat % 2 ^ 32)
  else if off = 0x1C054 then some (Config.serial.toNat / 2 ^ 32)
  else if off = 0x1C058 then some (at_ 16 16 x.passives + at_ 0 16 x.addressed)
  else if off = 0x1C05C then some x.drop
  else if off < 0x1C030 then copyWord x.cfg 48 (off - 0x1C000)
  else match inBank 0x1C100 4 48 off with
    | some (n, _) => some (h.ptpStat n)
    | none => (inBank 0x1C400 0x40 48 off).bind fun (y : Fin 48 × Nat) => copyWord x.ptp[y.1].cfg 48 y.2

/-! ## The whole map (R352) -/

/-- The register at an aligned BAR 0 offset below the reserved range, as it reads; none where nothing is mapped. -/
def Hub.regRead (h : Hub) (off : Nat) : Option Nat :=
  if off % 4 ≠ 0 then none
  else if off < 0x1000 then h.readIdent off
  else if off < 0x2000 then h.readTop off
  else if off < 0x3000 then h.readHost off
  else if off < 0x4000 then (inBank 0x3000 0x40 4 off).bind fun (x : Fin 4 × Nat) => h.mbx[x.1].read x.2
  else if off < 0x6000 then h.readFlt off
  else if off < 0x8000 then h.readClk off
  else if off < 0xA000 then h.readRef off
  else if off < 0xC000 then h.readDom off
  else if off < 0xD000 then h.readEvt off
  else if off < 0xE000 then h.readTdc off
  else if off < 0x10000 then h.readOut off
  else if off < 0x18000 then h.readLnk off
  else if off < 0x19000 then h.readReed off
  else if off < 0x1A000 then h.readShim off
  else if off < 0x1B000 then h.readCal off
  else if off < 0x1C000 then h.readMon off
  else if off < 0x1D000 then h.readHier off
  else none

end Sys2Proof.Machine
end

