-- ==== Sys2Proof/Machine/Quantities.lean ====
section
/-!
DEFINITION. The mailbox quantities (R362 to R365 and the quantity tables of chapters 2 to 15): a snapshot of 128 bits for
a code and an instance, or none where the pair names nothing.
-/

namespace Sys2Proof.Machine

/-! ## Building a snapshot -/

/-- A snapshot from (bit offset, width, value) triples. -/
def snapOf (fields : List (Nat × Nat × Nat)) : BitVec 128 :=
  BitVec.ofNat 128 (fields.foldl (fun n f => n + at_ f.1 f.2.1 f.2.2) 0)

/-- Two signed 64-bit values, the first above. -/
def snap2 (hi lo : Int) : BitVec 128 := snapOf [(64, 64, ofSigned 64 hi), (0, 64, ofSigned 64 lo)]

/-- 10^-6 fu as whole fu. -/
def microFu (v : Int) : Int := rdiv v (10 ^ 6)

/-- f of instance i of n, none where i names none. -/
def snapFin (n i : Nat) (f : Fin n → BitVec 128) : Option (BitVec 128) := (finOf n i).map f

/-- v for instance 0 only. -/
def snapOne (i : Nat) (v : BitVec 128) : Option (BitVec 128) := if i = 0 then some v else none

/-! ## The quantities -/

/-- R365: the last violation of a master. -/
def Hub.snapViolation (h : Hub) (i : Nat) : Option (BitVec 128) :=
  if i = 1 then some h.top.vioLastHost else if i = 2 then some h.top.vioLastSpi else if i = 3 then some h.top.vioLastDebug else none

/-- R70: relation, accumulators, correction. -/
def Hub.snapRoot (h : Hub) (code i : Nat) : Option (BitVec 128) :=
  match code with
  | 0x20 => snapOne i (snapOf [(64, 32, h.clk.relPhase), (0, 64, ofSigned 64 h.clk.relFreq)])
  | 0x21 => snapFin 16 i fun m => snapOf [(0, 112, h.doms[m].acc.toNat)]
  | 0x22 => snapFin 16 i fun m => snap2 h.corrWord (h.rotFofs h.doms[m])
  | _ => none

/-- R113: interval units and lane verifications. -/
def Hub.snapTdc (h : Hub) (code i : Nat) : Option (BitVec 128) :=
  match code with
  | 0x30 => snapFin 32 i fun u =>
      let x := h.ivus[u]
      snapOf [(80, 16, x.lastFlags.toNat), (64, 16, x.lastEarly), (0, 64, ofSigned 64 x.last)]
  | 0x32 => snapFin 192 i fun l => h.tdc.verify[l]
  | _ => none

/-- σ(τ_j) of a rung in 2^-16 ppt (R137). -/
def Rung.sigma (g : Rung) (tau0 j : Nat) : Nat := isqrt (g.mean * 10 ^ 24 / (2 * (2 ^ j * tau0 * 65536000000) ^ 2))

/-- The newest sample of a history. -/
def RefSlot.lastX (r : RefSlot) : Int := match lastSample r.hist with
  | some x => x.1
  | none => 0

/-- R148: samples, peaks, the Allan ladder, labels and weights. -/
def Hub.snapRef (h : Hub) (code i : Nat) : Option (BitVec 128) :=
  match code with
  | 0x40 => snapFin 12 i fun s => snap2 h.refs[s].lastX h.refs[s].y
  | 0x41 => snapFin 12 i fun s =>
      let r := h.refs[s]
      snapOf [(96, 32, r.peak100), (64, 32, r.peak10), (32, 32, r.peak1), (0, 32, r.peakJump)]
  | 0x42 => snapFin 12 (i / 32) fun s =>
      match finOf 25 (i % 32) with
      | none => 0
      | some j =>
        let g := h.refs[s].rungs[j]
        snapOf [(127, 1, b2n (g.ready j)), (64, 32, min 0xFFFFFFFF g.n), (0, 64, g.sigma (h.tau0 h.refs[s]) j)]
  | 0x43 => snapFin 12 i fun s => snapOf [(80, 48, h.refs[s].labelSecs), (0, 64, h.refs[s].labelTime.toNat)]
  | 0x44 => snapFin 16 (i / 2) fun m =>
      snapOf ((List.range 6).map fun k => (20 * k, 20, pick h.doms[m].weights (6 * (i % 2) + k) 0))
  | _ => none

/-- R190: time, servo and holdover of a domain. -/
def Hub.snapDom (h : Hub) (code i : Nat) : Option (BitVec 128) :=
  match code with
  | 0x50 => snapFin 16 i h.fullTime
  | 0x51 => snapFin 16 i fun m => snap2 (microFu h.doms[m].rho) (microFu h.doms[m].ep)
  | 0x52 => snapFin 16 i fun m => snap2 h.doms[m].slope h.doms[m].integ
  | 0x53 => snapFin 16 i fun m =>
      let d := h.doms[m]
      snapOf [(64, 64, ofSigned 64 d.y0), (32, 32, satField 32 (rdiv (d.aAp * 86400) (10 ^ 6))), (0, 32, min 0xFFFFFFFF (d.te0 / 10 ^ 6))]
  | _ => none

/-- Full time of the next pulse of PLS[n]. -/
def Hub.nextPulse (h : Hub) (n : Fin 64) : BitVec 128 :=
  let x := h.plss[n]
  let m := plsDomain x.run
  if x.enabled then fullTimeOf (toFu x.nextPulse) m h.doms[m].quality (h.timeFlags h.doms[m]) else 0

/-- R224: tracking and the next pulse of a pulse output. -/
def Hub.snapPls (h : Hub) (code i : Nat) : Option (BitVec 128) :=
  match code with
  | 0x60 => snapFin 64 i fun n => snap2 (microFu h.plss[n].rho) h.plss[n].slope
  | 0x61 => snapFin 64 i fun n => snap2 (microFu (h.plss[n].shift - h.plss[n].shift0)) h.plss[n].lastErr
  | 0x62 => snapFin 64 i h.nextPulse
  | _ => none

/-- R259: ranging, asymmetry and module bytes of a port. -/
def Hub.snapLink (h : Hub) (code i : Nat) : Option (BitVec 128) :=
  match code with
  | 0x70 => snapFin 48 i fun n => snap2 h.links[n].d h.links[n].f
  | 0x71 => snapFin 48 i fun n =>
      let l := h.links[n]
      snapOf [(64, 64, ofSigned 64 l.y), (32, 32, l.lastTa), (0, 32, l.usableLast)]
  | 0x72 => snapFin 48 i fun n =>
      match h.links[n].base with
      | some b => snap2 (h.links[n].delta - b) b
      | none => 0
  | 0x73 => snapFin 48 (i / 32) fun n =>
      let dev := if i / 16 % 2 = 0 then h.links[n].modA0 else h.links[n].modA2
      BitVec.ofNat 128 (leNat (slice dev (16 * (i % 16)) 16))
  | _ => none

/-- What a monitor's quantities read: the result bank, or the window in progress when L is 0 (R446). -/
def Mon.shown (x : Mon) : Acc := if x.windowMs = 0 then x.acc else x.bank

/-- R446: the results of a monitor. -/
def Hub.snapMon (h : Hub) (code i : Nat) : Option (BitVec 128) :=
  match code with
  | 0x80 => snapFin 32 i fun u => snap2 h.mons.unit[u].shown.max h.mons.unit[u].shown.min
  | 0x81 => snapFin 32 i fun u =>
      let a := h.mons.unit[u].shown
      snapOf [(64, 64, ofSigned 64 a.sum), (0, 32, a.count)]
  | 0x82 => snapFin 32 (i / 16) fun u =>
      snapOf ((List.range 4).map fun k => (32 * k, 32, pick h.mons.unit[u].shown.bins (4 * (i % 16) + k) 0))
  | 0x83 => snapFin 32 i fun u =>
      let a := h.mons.unit[u].shown
      snapOf [(96, 32, a.overCnt), (64, 32, a.underCnt), (16, 16, a.flags.toNat), (0, 16, a.window.toNat)]
  | _ => none

/-- Quantity 0x91: the port recorded for an address, and on a manager the hub that holds it, this one included. -/
def Hub.snapAddr (h : Hub) (a : BitVec 12) : BitVec 128 :=
  let x := h.hier
  let port := match x.portOf a with
    | some n => n.val
    | none => 0xFFFF
  let row := if x.role == .manager then x.table.find? fun r => r.addr == a else none
  match row with
  | some r => snapOf [(80, 8, r.missed), (64, 16, port), (0, 64, r.serial.toNat)]
  | none => snapOf [(64, 16, port), (0, 64, if x.role == .manager ∧ x.addr = a then Config.serial.toNat else 0)]

/-- R289: the hierarchy and the PTP ports. -/
def Hub.snapHier (h : Hub) (code i : Nat) : Option (BitVec 128) :=
  match code with
  | 0x90 => snapOne i (snapOf [(64, 64, h.hier.stbySerial.toNat), (0, 64, h.hier.mgrSerial.toNat)])
  | 0x91 => if inRange i 1 4094 then some (h.snapAddr (BitVec.ofNat 12 i)) else none
  | 0x92 => snapFin 48 i fun n => snap2 h.hier.ptp[n].path h.hier.ptp[n].offset
  | _ => none

/-- R322: EVENT tasks and checkpoint images. -/
def Hub.snapTask (h : Hub) (code i : Nat) : Option (BitVec 128) :=
  match code with
  | 0xA0 => snapFin 32 i fun e =>
      let x := h.comp.evTasks[e]
      snapOf [(64, 64, x.value.toNat), (32, 32, x.count.toNat), (0, 32, x.skipped)]
  | 0xA1 => snapFin 126 i fun t =>
      let k := h.comp.tasks[t]
      match k.img.find? fun g => g.valid with
      | some g => snapOf [(64, 64, g.time.toNat), (32, 32, g.size), (0, 32, k.written.toNat)]
      | none => snapOf [(0, 32, k.written.toNat)]
  | _ => none

/-- Distances between target and applied bin edges of a lane, 10^-5 of 2^-24 period. -/
def Hub.binLag (h : Hub) (l : Fin 192) : List Nat := (h.cal.bins[l].zip h.cal.binTargets[l]).map fun p => (p.1 - p.2).natAbs

/-- R401: counters, the last uncorrectable group and the trim of a lane. -/
def Hub.snapShim (h : Hub) (code i : Nat) : Option (BitVec 128) :=
  match code with
  | 0xB0 => snapFin 256 i fun k => snapOf [(0, 48, h.shim.counters[k])]
  | 0xB1 => snapOne i h.shim.lastUe
  | 0xB2 => snapFin 192 i fun l =>
      let d := h.binLag l
      snapOf [(32, 32, min 0xFFFFFFFF ((d.foldl max 0) * 2 / 300000)), (0, 32, (d.filter fun v => v != 0).length)]
  | _ => none

/-- R434: the history of messages and the Peat record. -/
def Hub.snapFault (h : Hub) (code i : Nat) : Option (BitVec 128) :=
  match code with
  | 0xC0 => snapFin 256 i fun k => match h.flt.history[k.val]? with
      | some m => snapOf [(64, 16, m.epoch.toNat), (0, 64, m.msg.word.toNat)]
      | none => 0
  | 0xC1 => snapFin 256 i fun k => match h.flt.history[k.val]? with
      | some m => snapOf [(0, 64, m.time.toNat)]
      | none => 0
  | 0xC2 => snapOne i (snapOf [(96, 32, h.flt.peatSeq), (64, 32, h.flt.peatLostAll)])
  | _ => none

/-- R467: temperatures and the supply. -/
def Hub.snapPower (h : Hub) (code i : Nat) : Option (BitVec 128) :=
  match code with
  | 0xD0 => snapOne i (snapOf ((List.range 8).map fun k => (16 * k, 16, ofSigned 16 (pick h.pwr.temps k 0))))
  | 0xD1 => snapOne i (snapOf [(112, 16, h.pwr.vinLow), (96, 16, h.pwr.vinHigh), (80, 16, h.clk.heater), (0, 64, h.pwr.pfailTime.toNat)])
  | _ => none

/-- The snapshot of a quantity at the present instant (R362, R364). -/
def Hub.quantity (h : Hub) (code i : Nat) : Option (BitVec 128) :=
  if code = 1 then h.snapViolation i
  else match code / 16 with
    | 2 => h.snapRoot code i
    | 3 => h.snapTdc code i
    | 4 => h.snapRef code i
    | 5 => h.snapDom code i
    | 6 => h.snapPls code i
    | 7 => h.snapLink code i
    | 8 => h.snapMon code i
    | 9 => h.snapHier code i
    | 10 => h.snapTask code i
    | 11 => h.snapShim code i
    | 12 => h.snapFault code i
    | 13 => h.snapPower code i
    | _ => none

end Sys2Proof.Machine
end

