-- ==== Sys2Proof/Machine/Selftest.lean ====
section
/-!
DEFINITION. SELFTEST (R427 to R429): what each target needs before its test, and how the test ends. A test runs until
SELFTEST_COMPLETE brings what it found; the hub is in TEST meanwhile, or stays in BOOT or SAFE (R37).
-/

namespace Sys2Proof.Machine

/-! ## Beginning -/

/-- The test begins: SERVICE goes to TEST (R35). -/
def testBegin (id : Nat) (wasFailed : Bool) (h : Hub) : Hub :=
  let h := h.onFlt fun f => { f with selftest := some id, testFailed := wasFailed }
  if h.inMode .service then setMode .test h else h

/-- One SELFTEST at a time: BUSY in TEST, in RECOVERY, and while one runs (R37). -/
def testing_ (f : Desc → Hub → Hub) (d : Desc) (h : Hub) : Hub :=
  if h.inMode .test || h.inMode .recovery || h.flt.selftest.isSome then complete d.id .busy h else f d h

/-- REED n, and the targets that R427 refuses: the task on the reed moves first (R315). The packet to a reed of a half that is off or
draining comes back (R29, R429). -/
def selftestReedEff (d : Desc) (h : Hub) : Hub :=
  if testTarget d.payload != 0 then complete d.id .badParam h
  else withFin 192 (testIndex d.payload 0) d.id (fun (n : Fin 192) (h : Hub) =>
    let r := h.comp.reeds[n]
    if !h.comp.reaches (halfOf n) then complete d.id .domainOff h
    else match r.state, r.task with
      | .halted, _ => complete d.id .denied h
      | .running, some t =>
        if h.comp.tasks[t].state != .running || h.comp.tasks[t].reed != some n then complete d.id .busy h
        else match h.comp.spareFor (halfOf n) with
          | none => complete d.id .noResource h
          | some m => startMove t m none (testBegin d.id false h)
      | .free, none => (testBegin d.id false h).onReed n fun r => { r with state := .test }
      | .failed, _ => (testBegin d.id true h).onReed n fun r => { r with state := .test }
      | .off, _ => complete d.id .domainOff h
      | .free, some _ => complete d.id .busy h
      | .running, none => complete d.id .busy h
      | .test, _ => complete d.id .busy h
      | .loading, _ => complete d.id .busy h) h

/-- SELFTEST REED, and the targets above LINK. -/
def selftestReed (o : Origin) (h : Hub) : Hub :=
  serve o (isOpSub 0xF0 fun p => testTarget p == 0 || decide (5 < testTarget p)) (testing_ selftestReedEff) h

/-- The lane runs step 4 only: the OVN lane 185 and the Causeway lanes (R101, R428). -/
def laneAlone (l : Nat) : Bool := decide (185 ≤ l)

/-- The Causeway lane that carries lane l now. -/
def Hub.carrier (h : Hub) (l : Nat) : Option (Fin 6) :=
  (allFin 6).find? fun k => h.tdc.cw[k].busy && h.tdc.cw[k].target.toNat == l

/-- A Causeway lane is free: it carries nothing and is not itself under test. -/
def Hub.cwFree (h : Hub) (k : Fin 6) : Bool := !h.tdc.cw[k].busy && !h.laneTested (186 + k)

/-- The test of a lane begins. -/
def laneBegin (x : LaneTest) (h : Hub) : Hub := h.onTdc fun t => { t with tests := t.tests ++ [x] }

/-- Begin the test of lane l (R98): the lowest free Causeway lane is attached, in overlap; a lane that one carries already, and a
lane of step 4 only, goes on to its verification (R98 step 5, R101). -/
def carry (l : Nat) (h : Hub) : Hub :=
  match finOf 192 l with
  | none => h
  | some l =>
    let now := h.clk.cycles
    if laneAlone l then laneBegin { lane := l, cw := none, step := 4, since := now } h
    else match h.carrier l with
      | some k => cwPhase k 3 (laneBegin { lane := l, cw := some k, step := 4, since := now, again := true } h)
      | none =>
        match (allFin 6).find? h.cwFree with
        | none => h
        | some k =>
          (laneBegin { lane := l, cw := some k, step := 2, since := now } h).onTdc fun t =>
            { t with cw := upd t.cw k fun _ => { busy := true, phase := 1, target := BitVec.ofNat 8 l } }

/-- A list repeats nothing. -/
def noRepeat : List Nat → Bool
  | [] => true
  | x :: xs => !xs.contains x && noRepeat xs

/-- LANE: each input goes over to a Causeway lane, and the lanes are verified (R98). A Causeway lane that carries an input
is not tested. -/
def selftestLaneEff (d : Desc) (h : Hub) : Hub :=
  let ls := testLanes d.payload
  if !inRange (testCount d.payload) 1 6 || ls.any (fun l => decide (191 < l)) || !noRepeat ls then complete d.id .badParam h
  else if (allFin 6).any (fun (k : Fin 6) => ls.contains (186 + k.val) && h.tdc.cw[k].busy) then complete d.id .denied h
  else
    let need := (ls.filter fun l => !laneAlone l && (h.carrier l).isNone).length
    let free := ((allFin 6).filter fun (k : Fin 6) => !h.tdc.cw[k].busy && !ls.contains (186 + k.val)).length
    if free < need then complete d.id .noResource h
    else forEach ls carry (testBegin d.id false h)

/-- SELFTEST LANE. -/
def selftestLane (o : Origin) (h : Hub) : Hub := serve o (isOpSub 0xF0 fun p => testTarget p == 1) (testing_ selftestLaneEff) h

/-- The side that index 0 or 1 names. -/
def sideOf (p : Payload) : Option Side := if testIndex p 0 = 0 then some .a else if testIndex p 0 = 1 then some .b else none

/-- ROOT: an active root changes over first; the root under test shows LOCKING, or stays FAULTED until its test has passed
(R45), and the relation is no longer valid. -/
def selftestRootEff (d : Desc) (h : Hub) : Hub :=
  match sideOf d.payload with
  | none => complete d.id .badParam h
  | some r =>
    if h.clk.root r == .active then
      if h.clk.root (otherSide r) == .ready then checkRots (changeover .locking (testBegin d.id false h))
      else complete d.id .denied h
    else
      let was := h.clk.root r == .faulted
      (testBegin d.id was h).onClk fun c =>
        { setRoot r (if was then .faulted else .locking) false c with relValid := false, jumpHeld := false }

/-- SELFTEST ROOT. -/
def selftestRoot (o : Origin) (h : Hub) : Hub := serve o (isOpSub 0xF0 fun p => testTarget p == 2) (testing_ selftestRootEff) h

/-- HALF: the conditions of R304, then power off with force 1 and on again. -/
def selftestHalfEff (d : Desc) (h : Hub) : Hub :=
  match sideOf d.payload with
  | none => complete d.id .badParam h
  | some s =>
    if h.comp.job.isSome || !h.mayPowerOff s then complete d.id .denied h
    else if h.comp.power s == .off then beginOn s none (testBegin d.id false h)
    else beginOff s none (testBegin d.id false h)

/-- SELFTEST HALF. -/
def selftestHalf (o : Origin) (h : Hub) : Hub := serve o (isOpSub 0xF0 fun p => testTarget p == 3) (testing_ selftestHalfEff) h

/-- IMAGE: the executing image may be tested. -/
def selftestImageEff (d : Desc) (h : Hub) : Hub :=
  match sideOf d.payload with
  | none => complete d.id .badParam h
  | some _ => testBegin d.id false h

/-- SELFTEST IMAGE. -/
def selftestImage (o : Origin) (h : Hub) : Hub := serve o (isOpSub 0xF0 fun p => testTarget p == 4) (testing_ selftestImageEff) h

/-- LINK: the port is held OFF (R252), which is an exit from TIMED where it was there (R243). -/
def selftestLinkEff (d : Desc) (h : Hub) : Hub :=
  withFin 48 (testIndex d.payload 0) d.id (fun (n : Fin 48) (h : Hub) =>
    let timed := h.links[n].state == LinkState.timed
    let h := testBegin d.id false h
    let h := if timed then leaveTimed n (some (Config.downCause n).toNat) h else h
    ptpLink n (linkStop n (h.onLink n fun l => { l with held := true }))) h

/-- SELFTEST LINK. -/
def selftestLink (o : Origin) (h : Hub) : Hub := serve o (isOpSub 0xF0 fun p => testTarget p == 5) (testing_ selftestLinkEff) h

/-! ## Ending -/

/-- The result field: byte 0 passed, byte 1 the detail of a failure, byte 2 the lanes that passed. -/
def testResult (pass : Bool) (detail lanes : Nat) : BitVec 192 :=
  resultOf [(0, 8, b2n pass), (8, 8, if pass then 0 else detail), (16, 8, lanes)]

/-- The test has ended: TEST goes back to SERVICE, and the SELFTEST completes with its result. -/
def testEnd (pass : Bool) (detail lanes : Nat) (h : Hub) : Hub :=
  match h.flt.selftest with
  | none => h
  | some id =>
    let h := h.onFlt fun f => { f with selftest := none, testFailed := false }
    completeWith id .ok (testResult pass detail lanes) (if h.inMode .test then setMode .service h else h)

/-- Reeds that were under test: those of the list FAILED, the others FREE. -/
def reedsTested (bad : List (Fin 192)) (h : Hub) : Hub :=
  let failed := (allFin 192).any fun n => h.comp.reeds[n].state == .test && bad.contains n
  let h := h.onComp fun c =>
    { c with reeds := c.reeds.mapFinIdx fun n r p =>
        if r.state == .test then { r with state := if bad.contains ⟨n, p⟩ then .failed else .free, task := none, bad := none } else r }
  resumeTasks (if failed then raiseReed (bit16 6) h else h)

/-- 1.0 ps in 2^-8 fu (R100): 65.536 fu. -/
def verifyLimit : Nat := 16777

/-- A lane has passed: no comparison failed, and no bin edge deviates by more than 1.0 ps. -/
def LaneTest.passes (x : LaneTest) (d : Nat × Nat) : Bool := !x.mismatch && decide (d.1 ≤ verifyLimit)

/-- What the verification of a lane found, for quantity 0x32: the seconds at its end, the deviations of a bin edge and of a bin
width in 2^-8 fu, and the 2^24 hits of R98. -/
def noteVerify (x : LaneTest) (d : Nat × Nat) (h : Hub) : Hub :=
  let w := BitVec.ofNat 128 (at_ 96 32 x.secs.toNat + at_ 64 32 (min 0xFFFFFFFF d.1) + at_ 32 32 (min 0xFFFFFFFF d.2) + at_ 0 32 (2 ^ 24))
  h.onTdc fun t => { t with verify := upd t.verify x.lane fun _ => w }

/-- A root that has failed its test is FAULTED; with no locked standby the relation is not valid (R43, R428). -/
def withdraw (r : Side) (c : Clk) : Clk := { setRoot r .faulted false c with relValid := false, jumpHeld := false }

/-- SELFTEST_COMPLETE: the test in progress ends with what it found. An image's result is that of R383, which the hub's own
store decides. -/
def selftestComplete (v : Verdict) (h : Hub) : Hub :=
  match h.testPayload with
  | none => h
  | some p =>
    let i0 := testIndex p 0
    let detail := v.detail.toNat
    match testTarget p with
    | 0 => match finOf 192 i0 with
      | some n => if h.comp.reeds[n].state == .test then testEnd v.pass detail 0 (reedsTested (if v.pass then [] else [n]) h) else h
      | none => h
    | 1 =>
      let found := h.tdc.tests.zipIdx.map fun x => (x.1, v.dev.getD x.2 (0, 0))
      if found.any fun x => x.1.step != 6 then h
      else
        let h := forEach found (fun x h => if x.1.verified then noteVerify x.1 x.2 h else h) h
        let good (x : LaneTest × Nat × Nat) : Bool := x.1.passes x.2
        let lanes := (found.zipIdx.map fun x => atB x.2 (good x.1)).sum
        let detail := if found.any fun x => x.1.mismatch then 1 else 2
        testEnd (found.all good) detail lanes (h.onTdc fun t => { t with tests := [] })
    | 2 =>
      let r : Side := if i0 = 0 then .a else .b
      let h := if v.pass then
          (if h.clk.root r == .locking || h.clk.root r == .faulted then h.onClk (setRoot r .locking false) else h)
        else if v.detail == 1 then raiseRoot (rootFaultBit r) (rootLost r 1 (h.onClk (withdraw r)))
        else h.onClk (withdraw r)
      testEnd v.pass detail 0 h
    | 3 =>
      let s : Side := if i0 = 0 then .a else .b
      if h.comp.job.isSome || h.comp.power s != .on then h
      else
        let pass := v.pass && v.reeds.isEmpty
        testEnd pass 1 0 (reedsTested v.reeds h)
    | 4 =>
      let i : Side := if i0 = 0 then .a else .b
      let h := readWholeImage h.chargeCode i h
      let r := h.shim.imageReason i
      testEnd (r == 0) r 0 (if r = 0 then h else invalidateImage i h)
    | _ => match finOf 48 i0 with
      | some n => testEnd v.pass detail 0 (linkStart n false (h.onLink n fun l => { l with held := false }))
      | none => h

/-! ## Meanings -/

def execSelftestReed (o : Origin) (s : State) := run (selftestReed o) s
def execSelftestLane (o : Origin) (s : State) := run (selftestLane o) s
def execSelftestRoot (o : Origin) (s : State) := run (selftestRoot o) s
def execSelftestHalf (o : Origin) (s : State) := run (selftestHalf o) s
def execSelftestImage (o : Origin) (s : State) := run (selftestImage o) s
def execSelftestLink (o : Origin) (s : State) := run (selftestLink o) s
def execSelftestComplete (v : Verdict) (s : State) := run (selftestComplete v) s

end Sys2Proof.Machine
end

