-- ==== Sys2Proof/Machine/Faults.lean ====
section
/-!
DEFINITION. The fault collector (chapter 13): what a message does at its severity (R410), capture (R412, R413), DEGRADE
marks (R411), FAULT_N (R415), entry to SAFE and exit from it (R418 to R420), RECOVERY's end (R35) and the fatal dump
(R425, R426).
-/

namespace Sys2Proof.Machine

/-! ## DEGRADE marks (R411) -/

/-- What a task's fault marks: DOM[m] of a DOMAIN task, LINK[n] of a LINK task, the users of a REFQ task's slot. -/
def Hub.taskMarks (h : Hub) (t : Nat) : BitVec 16 × Option (Fin 48) :=
  if t < 48 then (0, finOf 48 t)
  else if t < 60 then ((pick h.refs (t - 48) {}).users, none)
  else if t < 76 then (bit16 (t - 60), none)
  else (0, none)

/-- Domains and port that a message at DEGRADE marks; none for a source that marks nothing. -/
def Hub.marks (h : Hub) (m : FaultMsg) : Option (BitVec 16 × Option (Fin 48)) :=
  let s := m.source.toNat
  if s < 0x0C0 then
    if m.kind == .taskFail then some (h.taskMarks (fld m.address 16 8))
    else match (pick h.comp.reeds s {}).task with
      | some t => some (h.taskMarks t)
      | none => some (0, none)
  else if s < 0x0F0 then some (0, finOf 48 (s - 0x0C0))
  else if inRange s 0x100 0x15F then some (bit16 (outDomain (pick h.outs (s - 0x100) {}).cfg), none)
  else if inRange s 0x160 0x19F then some (bit16 (plsDomain (pick h.plss (s - 0x160) {}).run), none)
  else if inRange s 0x200 0x20B then some ((pick h.refs (s - 0x200) {}).users, none)
  else if inRange s 0x210 0x21F then some (bit16 (s - 0x210), none)
  else if inRange s 0x222 0x231 then some (bit16 (s - 0x222), none)
  else if s == 0x220 || s == 0x221 || inRange s 0x240 0x247 || s == srcCal || s == srcThermal || s == srcSupply || s == srcOven then
    some (0xFFFF, none)
  else none

/-- Mark the domains of a set. -/
def distrustAll (doms : BitVec 16) (h : Hub) : Hub :=
  forEach (allFin 16) (fun m h => if doms.getLsbD m then distrust m h else h) h

/-- Mark what a DEGRADE message marks, and set FLT_EVT.degrade; a source that marks nothing acts as NOTIFY. -/
def degrade (m : Stamped) (h : Hub) : Hub :=
  match h.marks m.msg with
  | none => h
  | some (doms, port) =>
    let h := keepCause m doms port h
    let h := match port with
      | some n => raiseDegLnk n h
      | none => h
    raiseFlt (bit16 2) (distrustAll doms h)

/-! ## History and capture (R407, R412, R413) -/

/-- Keep a message of LOG or above in the history and capture or count it. -/
def record (m : Stamped) (h : Hub) : Hub :=
  let h := h.onFlt fun f => { f with history := (m :: f.history).take 256 }
  match h.flt.cap with
  | none => raiseFlt (bit16 4 ||| bit16 0) (h.onFlt fun f => { f with cap := some (m, BitVec.ofNat 4 h.top.mode.code) })
  | some _ =>
    if h.inMode .service then raiseFlt (bit16 0) (h.onFlt fun f => { f with capCnt := satInc32 f.capCnt })
    else raiseFlt (bit16 5 ||| bit16 0) (h.onFlt fun f => { f with ovf := true })

/-! ## FAULT_N (R415) -/

/-- A message of NOTIFY or above drives FAULT_N low and starts its 25 µs anew. -/
def driveFault (h : Hub) : Hub := raiseFlt (bit16 1) (h.onFlt fun f => { f with driven := true, minLow := true })

/-- FAULT_N_TIMER_EXPIRY: the 25 µs have passed. -/
def faultNTimerExpiry (h : Hub) : Hub :=
  when_ (h.runs && h.flt.minLow) (fun h => h.onFlt fun f => { f with minLow := false, driven := f.hold }) h

/-! ## SAFE (R418, R419) -/

/-- The buffer of R425 is set and large enough, and the endpoint is ready. -/
def Hub.dumpReady (h : Hub) : Bool := h.host.dumpLo.getLsbD 0 && decide (16 ≤ h.host.dumpSize.toNat) && h.host.ready

/-- A fault is fatal (R419). -/
def fatalKind (m : FaultMsg) : Bool :=
  m.kind == Kind.splitCharge || (m.kind == Kind.watchdog && m.source == 0x322#12)
  || (m.kind == Kind.eccUe && (m.source == 0x320#12 || m.source == 0x321#12))

/-- A dump summary entry (R422 type 6). -/
def dumpSummary (m : Stamped) (sections : Nat) (done : Bool) (h : Hub) : Hub :=
  peatRunning 6 false m.msg.word h.houseShort h.houseEpoch
    (leBytes 4 h.flt.dumps ++ leBytes 2 sections ++ [if done then 1 else 0]) h

/-- No dump of this fatal fault is written. -/
def dumpMissed (m : Stamped) (h : Hub) : Hub := raiseFlt (bit16 9) (dumpSummary m 0 false h)

/-- A fatal fault asks for a dump; during a dump it only sets dump_missed. -/
def askDump (m : Stamped) (h : Hub) : Hub :=
  match h.flt.fatal with
  | some _ => dumpMissed m h
  | none => h.onFlt fun f => { f with fatal := some m, dumpBusy := h.dumpReady }

/-- S is zero and the rotators do not steer (R69, R169); a SELFTEST ends; pulse and clock changes that wait end (R216). -/
def freeze (h : Hub) : Hub :=
  checkRots (outputsSafe (selftestEnd .aborted (h.onDoms fun d => { d with slope := 0 })))

/-- SAFE-entry entry (R422 type 2). -/
def safeEntry (m : Stamped) (h : Hub) : Hub := peatRunning 2 false m.msg.word h.houseShort h.houseEpoch [] h

/-- Entry to SAFE with the message that causes it, when there is one. -/
def enterSafe (m : Option Stamped) (forced fromBoot : Bool) (h : Hub) : Hub :=
  let fatal := match m with
    | some x => fatalKind x.msg
    | none => false
  let h := freeze (setMode .safe h)
  let h := raiseSafe (bit16 0 ||| (if fatal then bit16 1 else 0) ||| (if forced then bit16 2 else 0) ||| (if fromBoot then bit16 3 else 0)) h
  let h := match m with
    | some x => safeEntry x (peatFirst 1 x h)
    | none => peatEvent 2 [] h
  let h := bumpCounter 4 h
  match m with
  | some x => if fatal then askDump x h else h
  | none => h

/-- A SAFE message takes the hub into SAFE from these modes (R35); in BOOT it counts at the end of BOOT. -/
def Hub.leavable (h : Hub) : Bool := h.inMode .service || h.inMode .test || h.inMode .recovery

/-! ## FAULT_MESSAGE (R408 to R410) -/

/-- The actions of a message of LOG or above. -/
def act (m : Stamped) (sev : Nat) (h : Hub) : Hub :=
  let trip := m.msg.kind == Kind.thermalTrip
  let forced := h.forced m.msg
  let takes := decide (4 ≤ sev) && !trip && h.leavable
  let h := record m h
  let h := if 2 ≤ sev then driveFault h else h
  let h := if 3 ≤ sev then degrade m h else h
  let h := if decide (2 ≤ sev) && !takes && !trip then peatMessage m h else h
  let h := if 4 ≤ sev then raiseFlt (bit16 3) h else h
  if takes then enterSafe (some m) forced false h else h

/-- The collector handles one message. -/
def handle (m : Stamped) (h : Hub) : Hub :=
  let sev := h.severity m.msg
  let h := if m.msg.kind == Kind.thermalTrip then peatFirst 4 m h else h
  let h := keepCause m 0 none h
  pruneCauses (if sev = 0 then h else act m sev h)

/-- FAULT_MESSAGE: the message at the head of the queue. -/
def faultMessage (h : Hub) : Hub :=
  match h.flt.queue with
  | [] => h
  | m :: q => when_ h.runs (fun h => handle m (h.onFlt fun f => { f with queue := q })) h

/-- COLLECTOR_OVERFLOW_REPORT (R406). -/
def collectorOverflowReport (h : Hub) : Hub :=
  when_ (h.runs && h.flt.queue.isEmpty && decide (0 < h.flt.lostRun))
    (fun h => sendFault srcFlt .overflow accNone mInternal h.flt.lostRun (h.onFlt fun f => { f with lostRun := 0 })) h

/-- RECOVERY_STABILITY_TIMEOUT: one second without a takeover or a loss (R35). -/
def recoveryStabilityTimeout (h : Hub) : Hub := when_ (h.inMode .recovery && decide (1000 ≤ h.top.stabMs)) (setMode .service) h

/-! ## Leaving SAFE (R420) -/

/-- A warden held by the interlock boots into SHADOW again, when its half is powered and its image valid. -/
def releaseHeld (w : Side) (h : Hub) : Hub :=
  if h.comp.warden w == .held && h.comp.power w == .on && h.shim.imageValid (h.imageOfWarden w) then rebootWarden w h else h

/-- The hub leaves SAFE for SERVICE: domains resume (R169), a warden held by a split is released, a type 3 entry. -/
def leaveSafe (h : Hub) : Hub :=
  let h := (setMode .service h).onDoms fun d =>
    { d with settle := if (d.state == .acquire || d.state == .track) && d.settle != .enter then .resume else d.settle }
  let split := h.comp.split
  let h := h.onComp fun c => { c with split := false }
  let h := if split then releaseHeld .b (releaseHeld .a h) else h
  peatEvent 3 [] h

/-! ## The fatal dump (R425, R426) -/

/-- n registers from an offset, as DEBUG reads them, four bytes each. -/
def Hub.regBytes (h : Hub) (off n : Nat) : Bytes := (List.range n).flatMap fun i => leBytes 4 ((h.regRead (off + 4 * i)).getD 0)

/-- A quantity as 16 bytes. -/
def Hub.quantityBytes (h : Hub) (code i : Nat) : Bytes := leBytes 16 ((h.quantity code i).getD 0).toNat

/-- The 24 bytes of a history record. -/
def historyRecord (m : Option Stamped) : Bytes :=
  match m with
  | some m => leBytes 8 m.msg.word.toNat ++ leBytes 8 m.time.toNat ++ leBytes 8 m.epoch.toNat
  | none => List.replicate 24 0

/-- A descriptor as it was fetched (R334). -/
def Desc.bytes (d : Desc) : Bytes :=
  [d.opcode, BitVec.ofNat 8 (atB 1 d.irq + atB 0 d.fence)] ++ leBytes 2 d.index.toNat ++ leBytes 2 d.tag.toNat
  ++ List.replicate 10 0 ++ leBytes 48 d.payload.toNat

/-- The entry of one task in section 5. -/
def Hub.checkpointEntry (h : Hub) (t : Fin 126) : Bytes :=
  let k := h.comp.tasks[t]
  let img := k.img.find? fun g => g.valid
  let body := match img with
    | some g => (List.range (min 4096 g.size)).map fun i => Config.checkpoint t k.written.toNat i
    | none => []
  leBytes 4 k.word ++ leBytes 4 (match img with
    | some g => g.size
    | none => 0) ++ leBytes 8 (match img with
    | some g => g.time.toNat
    | none => 0) ++ slice body 0 4096

/-- The seven sections. -/
def Hub.dumpSections (h : Hub) : List Bytes :=
  [ h.regBytes 0x4000 64 ++ h.regBytes 0x5000 512 ++ (List.range 256).flatMap (fun i => historyRecord h.flt.history[i]?),
    (List.range 16).flatMap fun m =>
      slice (h.regBytes (0xA000 + 0x200 * m) 24 ++ [0x50, 0x51, 0x52, 0x53].flatMap fun c => h.quantityBytes c m) 0 256,
    (List.range 12).flatMap fun s =>
      slice (h.regBytes (0x8000 + 0x100 * s) 27 ++ [0x40, 0x41].flatMap fun c => h.quantityBytes c s) 0 256,
    (List.range 48).flatMap fun n =>
      slice (h.regBytes (0x10000 + 0x200 * n) 27 ++ [0x70, 0x71, 0x72].flatMap fun c => h.quantityBytes c n) 0 256,
    (allFin 126).flatMap h.checkpointEntry,
    h.regBytes 0x2000 852 ++ h.host.inflight.flatMap fun d => leBytes 2 (ringOf d.origin) ++ leBytes 2 d.index.toNat ++ d.bytes,
    h.regBytes 0 29696 ]

/-- Offsets of the sections: each on the next 4 KiB boundary. -/
def sectionOffsets : Nat → List Bytes → List Nat
  | _, [] => []
  | at0, s :: ss => at0 :: sectionOffsets ((at0 + s.length + 4095) / 4096 * 4096) ss

/-- The directory: type, flags, offset and length of each section. -/
def dumpDirectory (secs : List Bytes) : Bytes :=
  (secs.zip (sectionOffsets 4096 secs)).zipIdx.flatMap fun x =>
    leBytes 2 (x.2 + 1) ++ leBytes 2 0 ++ leBytes 4 x.1.2 ++ leBytes 4 x.1.1.length

/-- The 256-byte header. -/
def Hub.dumpHeader (h : Hub) (m : Stamped) (secs : List Bytes) (complete_ : Bool) : Bytes :=
  slice (leBytes 4 1 ++ leBytes 4 (256 + (secs.map List.length).sum) ++ leBytes 8 Config.serial.toNat ++ leBytes 8 m.msg.word.toNat
    ++ leBytes 8 m.time.toNat ++ leBytes 2 m.epoch.toNat ++ leBytes 2 7 ++ leBytes 4 (h.flt.dumps + 1) ++ leBytes 4 h.identFw
    ++ [BitVec.ofNat 8 h.chargeCode, if complete_ then 1 else 0] ++ List.replicate 18 0 ++ dumpDirectory secs) 0 256

/-- MBX[3] as the warden leaves it after the sections: it asked for quantity 0x72 of the last port and has read the value (R363). -/
def dumpMailbox (h : Hub) : Hub := h.onMbx 3 fun x => { x with code := 0x72, inst := 47, req := none, valid := false, err := false }

/-- The warden in charge writes header, sections and header again. -/
def writeDump (m : Stamped) (h : Hub) : Hub :=
  let base := baseAddr h.host.dumpLo h.host.dumpHi
  let secs := h.dumpSections
  let h' := forEach (secs.zip (sectionOffsets 4096 secs)) (fun x => busWrite (base + BitVec.ofNat 64 x.2) x.1)
    (busWrite base (h.dumpHeader m secs false) h)
  let h' := (busWrite base (h.dumpHeader m secs true) h').onFlt fun f =>
    { f with dumps := satAdd 0xFFFF f.dumps 1, dumpOk := true, dumpBusy := false, fatal := none }
  raiseFlt (bit16 8) (dumpSummary m 7 true (dumpMailbox h'))

/-- FATAL_DUMP: the dump of the fatal fault that waits, or its absence. -/
def fatalDump (h : Hub) : Hub :=
  match h.flt.fatal with
  | none => h
  | some m =>
    if h.runs then
      if h.dumpReady && h.inCharge then writeDump m h
      else dumpMissed m (h.onFlt fun f => { f with fatal := none, dumpBusy := false })
    else h

/-! ## Meanings -/

def execFaultMessage (s : State) := run faultMessage s
def execCollectorOverflowReport (s : State) := run collectorOverflowReport s
def execFaultNTimerExpiry (s : State) := run faultNTimerExpiry s
def execFatalDump (s : State) := run fatalDump s
def execRecoveryStabilityTimeout (s : State) := run recoveryStabilityTimeout s

end Sys2Proof.Machine
end

