-- ==== Sys2Proof/Machine/Power.lean ====
section
/-!
DEFINITION. Supply, enable, start-up, reset and thermal limits (chapter 15): the modes in which nothing runs, what each
kind of reset keeps (R458), the start-up sequence (R456) with journal recovery (R377, R490) and the image choice (R385),
PFAIL (R451, R453), the thermal limits (R462 to R465), and the bank supplies of the pulse outputs (R478).
-/

namespace Sys2Proof.Machine

/-! ## What every reset keeps (R458) -/

/-- Auto restarts that count as following one another: ten minutes in SERVICE end the run of them (R465). -/
def Top.autoRun (t : Top) : Nat := if 600000 ≤ t.serviceMs then 0 else t.autoCount

/-- The hub at its reset values, with the Shim store, the pins, the supply as measured and THERM_AUTO kept. The oven is as at
reset. -/
def Hub.fresh (h : Hub) : Hub :=
  { Hub.reset with
    top := { en := h.top.en, perst := h.top.perst, pinCharge := h.top.pinCharge, pinAuto := h.top.pinAuto,
             autoCount := h.top.autoRun, fromThermal := h.top.fromThermal }
    pwr := { vin := h.pwr.vin, pfail := h.pwr.pfail, ov := h.pwr.ov, phaseA := h.pwr.phaseA, phaseB := h.pwr.phaseB
             thermAuto := h.pwr.thermAuto }
    shim := { mem := h.shim.mem, poison := h.shim.poison, damage := h.shim.damage, txn := h.shim.txn, abandoned := h.shim.abandoned
              seq := h.shim.seq, counters := h.shim.counters, halted := h.pwr.pfail }
    flt := { Hub.reset.flt with extLow := h.flt.extLow }
    bus := h.bus, wire := h.wire, free := h.free }

/-- OFF, STANDBY and THERMAL_OFF: everything but the standby circuit is off (R33, R460). -/
def goDark (m : Mode) (h : Hub) : Hub :=
  ((outputsOff h.fresh).onTop fun t => { t with mode := m, pgood := false }).onPwr fun p =>
    { p with pfail := false, ov := false, phaseA := true, phaseB := true }

/-- BOOT begins (R456): straps sampled (R471), counter 0, VIN extremes restarted (R467). Steps 1 to 3 follow when the first of
their consequences is commanded (`ensureBegun`). -/
def enterBoot (cause : Nat) (h : Hub) : Hub :=
  let h := (h.onTop fun t =>
    { t with
      mode := .boot, begun := false, railWait := false, cause := BitVec.ofNat 4 cause, strapCharge := t.pinCharge
      strapAuto := t.pinAuto, fromThermal := false }).onPwr fun p => { p with vinLow := p.vin, vinHigh := p.vin }
  bumpCounter 0 h

/-- A start from a mode in which the rails were off. -/
def coldBoot (cause : Nat) (h : Hub) : Hub :=
  let h := enterBoot cause h.fresh
  { h with
    top := { h.top with pgood := false }
    outs := h.outs.map fun x => { x with pin := .bothLow }
    plss := h.plss.map fun x => { x with pin := .low } }

/-- A hub reset (R457, R459): a committed transaction is applied first, the rails stay up and the oven goes on regulating. -/
def hubReset (cause : Nat) (h : Hub) : Hub :=
  let h := journalApply h
  let k := h.clk
  (enterBoot cause h.fresh).onClk fun c =>
    { c with inBand := k.inBand, heater := k.heater, dev := k.dev, oven := k.oven, bandSecs := k.bandSecs, everWarm := k.everWarm, limited := k.limited }

/-! ## Journal recovery (R377, R490) -/

/-- Read a part of a record: some group of it is uncorrectable. -/
def readRecord (seq part : Nat) (h : Hub) : Bool × Hub :=
  let h := forEach (recordGroups seq part) (readGroup accRead mInternal) h
  (h.shim.recordBad seq part, h)

/-- Recover a committed record. -/
def replay (t : Txn) (h : Hub) : Hub :=
  let (bad0, h) := readRecord t.seq 0 h
  let (bad1, h) := readRecord t.seq 1 h
  if bad0 && bad1 then loseHeader h
  else
    let (bad, h) := readRecord t.seq 2 h
    raiseShim (bit16 4) (if bad then loseRecord t h else noteInvalid h.shim (applyTxn t h))

/-- Journal recovery: the committed record that is not retired, then the records without a commit mark. -/
def recoverJournal (h : Hub) : Hub :=
  let txn := h.shim.txn
  let gone := h.shim.abandoned.isSome
  let h := h.onShim fun s => { s with txn := none, abandoned := none }
  let h := match txn with
    | some t => if t.committed then replay t h else rollBack h
    | none => h
  if gone then rollBack h else h

/-! ## The Peat record at BOOT (R421, R422) -/

/-- The bytes of entry i. -/
def Shim.peatEntry (s : Shim) (i : Nat) : Bytes := s.bytes (peatBase + 64 * i) 64

/-- An entry's sequence number, when the entry is valid: nonzero, with a correct check word. -/
def peatSeqOf (b : Bytes) : Option Nat :=
  if leAt b 4 4 != 0 && crc32c (b.take 60) == leAt b 60 4 then some (leAt b 4 4) else none

/-- The entries among i to j that any byte is stored for: an entry of zeros is never valid. -/
def Shim.usedEntries (s : Shim) : List Nat :=
  (s.mem.filterMap fun c => if peatBase ≤ c.1 ∧ c.1 < peatBase + 0x80000 then some ((c.1 - peatBase) / 64) else none).eraseDups

/-- Valid entries: index and sequence number. -/
def Shim.validEntries (s : Shim) : List (Nat × Nat) :=
  s.usedEntries.filterMap fun i => (peatSeqOf (s.peatEntry i)).map fun q => (i, q)

/-- The pair with the highest sequence number. -/
def highest (l : List (Nat × Nat)) : Option (Nat × Nat) :=
  l.foldl (fun b x => match b with
    | none => some x
    | some y => if y.2 < x.2 then some x else some y) none

/-- FLT_PEAT and the sequence number from the record: the running zone goes on after its newest entry; ff_full stands when a
first-fault entry was written to the running zone after the last archive. -/
def scanPeat (h : Hub) : Hub :=
  let v := h.shim.validEntries
  let run_ := v.filter fun x => decide (64 ≤ x.1)
  let seq := match highest v with
    | some x => x.2
    | none => 0
  let head := match highest run_ with
    | some x => if x.1 ≥ 8191 then 64 else x.1 + 1
    | none => 64
  let ff := v.filter fun x => decide (x.1 < 64)
  let of_ (p : Bytes → Bool) : Nat := match highest (run_.filter fun x => p (h.shim.peatEntry x.1)) with
    | some x => x.2
    | none => 0
  let full := decide (of_ (fun b => (byteAt b 0).toNat == 7) < of_ fun b => (byteAt b 1).getLsbD 0)
  h.onFlt fun f => { f with peatSeq := seq, head, ffCount := (ff.map fun x => x.1 + 1).foldl max 0, ffFull := full }

/-! ## Steps 1 to 3 of the start-up (R456) -/

/-- Verify an image whose state is VALID: it passes, or becomes INVALID (R385). -/
def checkImage (i : Side) (h : Hub) : Bool × Hub :=
  if h.shim.imageValid i then
    let h := readImage mInternal i h
    if h.shim.imageReason i = 0 then (true, h) else (false, invalidateImage i h)
  else (false, h)

/-- The image to boot: the highest build among those that pass, A when the builds are equal. -/
def chooseImage (h : Hub) : Option Side × Hub :=
  let (a, h) := checkImage .a h
  let (b, h) := checkImage .b h
  (if a && (!b || decide (h.shim.imageBuild .b ≤ h.shim.imageBuild .a)) then some .a else if b then some .b else none, h)

/-- The wardens of powered halves take a state. -/
def startWardens (w : WardenState) (c : Comp) : Comp :=
  { c with
    aState := if c.aPower == .on then w else c.aState
    bState := if c.bPower == .on then w else c.bState
    reeds := c.reeds.map fun r => { r with state := .loading } }

/-- No image passes: the wardens run their resident loader, and the hub goes to SAFE (R35, R36). -/
def startLoader (h : Hub) : Hub :=
  let h := (h.onShim fun s => { s with loader := true }).onComp (startWardens .loader)
  enterSafe none false true (sendFault srcShim .checkword accNone mInternal 0 h)

/-- Steps 2 and 3, and the starts of steps 4 and 6. -/
def bootBegin (h : Hub) : Hub :=
  let h := recoverJournal (h.onTop fun t => { t with begun := true, pgood := true })
  let h := if h.top.railRetries = 0 then h else raisePwr (bit16 5) h
  let h := if h.top.cause = 3 then raisePwr (bit16 6) h else h
  let (img, h) := chooseImage (dllStarts (loadCal (scanPeat h)))
  let h := rootStart .b (rootStart .a h)
  match img with
  | none => startLoader h
  | some i => (h.onShim fun s => { s with imageOk := true, bootB := i == .b }).onComp (startWardens .booting)

/-- The start-up's first steps have run, when a command needs what follows them: they take no command of their own. -/
def ensureBegun (h : Hub) : Hub :=
  if h.inMode .boot && !h.top.begun && !h.top.railWait then bootBegin h else h

/-- Common runs: in a mode that runs, and not before its rails are up. -/
def Hub.awake (h : Hub) : Bool := h.runs && (h.top.begun || !h.inMode .boot)

/-! ## The steps that follow -/

/-- ROOT_LOCK, from the start of the roots on. -/
def bootRootLock (r : Side) (dev : Int) (h : Hub) : Hub := rootLock r dev (ensureBegun h)

/-- ROOT_LOCK_TIMEOUT. -/
def bootRootLockTimeout (r : Side) (h : Hub) : Hub := rootLockTimeout r (ensureBegun h)

/-- CHARGE_CLAIM; in BOOT, with a warden in charge, the reeds of its programs are FREE (R456 step 6). -/
def bootChargeClaim (a b : Bool) (h : Hub) : Hub :=
  let h := chargeClaim a b (ensureBegun h)
  if h.inMode .boot && h.inCharge then
    h.onComp fun c => { c with reeds := c.reeds.map fun r => if r.state == .loading then { r with state := .free } else r }
  else h

/-- A domain at the end of BOOT (R151). -/
def Dom.zeroTime (d : Dom) : Dom := { d with secs := 0, sub := 0, todUnset := true }

/-- The pins at the end of BOOT (R216): disabled clock outputs in their disable state, pulse outputs at their idle level. Without
an ACTIVE root they stay low (R45). -/
def bootPins (h : Hub) : Hub :=
  if h.rootActive then
    { h with
      outs := Vector.ofFn fun n => { h.outs[n] with pin := h.pinSet n }
      plss := h.plss.map fun x => if x.pin == .low && !x.active then { x with pin := plsIdle x.run } else x }
  else h

/-- The messages that wait in the collector are handled. -/
def drainFaults (h : Hub) : Hub := forEach h.flt.queue handle (h.onFlt fun f => { f with queue := [] })

/-- Both parallel branches of the start-up are done: a warden is in charge, and a root is ACTIVE or both have failed. -/
def Hub.bootDone (h : Hub) : Bool :=
  h.inMode .boot && h.top.begun && h.inCharge && (h.rootActive || (h.clk.aState == .faulted && h.clk.bState == .faulted))

/-- The time of DOM[m] starts at zero (R151): its pulse outputs keep their distance from the start. -/
def startTime (m : Fin 16) (h : Hub) : Hub :=
  let was := h.doms[m].now
  restepPulses m (-was) (h.onDom m Dom.zeroTime)

/-- Step 7: time starts, the DOMAIN and HIER tasks stand, a type 8 entry, and SERVICE or SAFE (R35, R45, R151, R292). -/
def bootFinish (h : Hub) : Hub :=
  let h := bootPins (forEach (allFin 16) startTime (drainFaults h))
  let h := forEach ((List.range 16).map (60 + ·) ++ [124, 125]) createTask h
  let h := ({ h with free := h.free + 1 } : Hub).onTop fun t => { t with bootMs := Config.bootMs h.free }
  let h := (peatEvent 8 [] h).onShim fun s => { s with hourMs := 0 }
  match h.firstCause with
  | some c => forEach (allFin 48) ptpLink (enterSafe (some c.msg) (h.forced c.msg.msg) true h)
  | none => forEach (allFin 48) ptpLink ((setMode .service h).onTop fun t => { t with profileDue := t.strapAuto })

/-- BOOT_END. -/
def bootEnd (h : Hub) : Hub :=
  let h := ensureBegun h
  if h.bootDone then bootFinish h else h

/-- RAIL_RETRY_TIMEOUT: the Common rails are not in regulation 5 ms after their start: they are switched off (R450). -/
def railRetryTimeout (h : Hub) : Hub :=
  when_ (h.inMode .boot && !h.top.begun && !h.top.railWait) (fun h => h.onTop fun t => { t with railWait := true, pgood := false }) h

/-- RAIL_RETRY_WAIT_EXPIRY: 100 ms later they are started again. -/
def railRetryWaitExpiry (h : Hub) : Hub :=
  when_ (h.inMode .boot && h.top.railWait)
    (fun h => h.onTop fun t => { t with railWait := false, railRetries := satAdd 15 t.railRetries 1 }) h

/-! ## VIN and EN (R447, R448, R35) -/

/-- The cause of a BOOT that a rise of EN starts. -/
def Hub.enCause (h : Hub) : Nat := if h.top.fromThermal then 2 else 1

/-- VIN_RISE: VIN passes the rising threshold of 5.7 V. -/
def vinRise (mv : Nat) (h : Hub) : Hub :=
  if decide (5700 < mv) && (h.inMode .off || h.inMode .standby) then
    let off := h.inMode .off
    let h := h.onPwr fun p => { p with vin := mv, thermAuto := p.thermAuto && !off }
    if h.top.en then coldBoot (if off then 0 else h.enCause) h else h.onTop fun t => { t with mode := .standby }
  else h

/-- VIN_FALL: VIN passes the falling threshold of 5.4 V. -/
def vinFall (mv : Nat) (h : Hub) : Hub :=
  when_ (decide (mv < 5400) && !h.inMode .off)
    (fun h => (goDark .off (h.onPwr fun p => { p with vin := mv })).onTop fun t => { t with autoCount := 0, fromThermal := false }) h

/-- EN_HIGH. -/
def enHigh (h : Hub) : Hub :=
  let h := h.onTop fun t => { t with en := true }
  if h.inMode .standby && decide (5700 < h.pwr.vin) then coldBoot h.enCause h else h

/-- EN_LOW: EN has been low for 10 µs. -/
def enLow (h : Hub) : Hub :=
  let h := h.onTop fun t => { t with en := false }
  if h.inMode .off || h.inMode .standby then h
  else
    let hot := h.inMode .thermalOff
    (goDark .standby h).onTop fun t => { t with fromThermal := hot }

/-! ## PFAIL (R378, R451, R453) -/

/-- What PFAIL and a trip do to the journal: no new transaction, a committed one applied, one not committed abandoned (R378). -/
def haltJournal (h : Hub) : Hub :=
  let h := journalApply (h.onShim fun s => { s with halted := true })
  h.onShim fun s => { s with abandoned := if s.txn.isSome then s.txn else s.abandoned, txn := none }

/-- PFAIL_ASSERT: VIN falls below 5.5 V. -/
def pfailAssert (mv : Nat) (h : Hub) : Hub :=
  let h := ensureBegun h
  when_ (h.awake && !h.pwr.pfail && decide (mv < 5500))
    (fun h =>
      let h := (h.onPwr fun p => { p with vin := mv, pfail := true, pfailTime := h.houseShort }).onClk fun c => { c with heater := 0 }
      peatEvent 5 [] (haltJournal (raisePwr (bit16 1) h))) h

/-- SUPPLY of source 0x331 with its cause (R454). -/
def supplyFault (cause : Nat) (h : Hub) : Hub := sendFault srcSupply .supply accNone mInternal cause h

/-- PFAIL_DEASSERT: VIN has been above 5.6 V for 1 ms: the record of an abandoned transaction is discarded. -/
def pfailDeassert (mv : Nat) (h : Hub) : Hub :=
  when_ (h.awake && h.pwr.pfail && decide (5600 < mv))
    (fun h =>
      let id := h.shim.abandoned.bind (·.desc)
      let h := (h.onPwr fun p => { p with vin := mv, pfail := false }).onShim fun s => { s with halted := false, abandoned := none }
      completeOpt id .aborted (supplyFault 4 (raisePwr (bit16 2) h))) h

/-- VIN_OVERVOLTAGE: VIN rises above 41.0 V (R447). -/
def vinOvervoltage (mv : Nat) (h : Hub) : Hub :=
  when_ (h.awake && !h.pwr.ov && decide (41000 < mv))
    (fun h => supplyFault 3 (raisePwr (bit16 4) (h.onPwr fun p => { p with vin := mv, ov := true, vinHigh := max p.vinHigh mv }))) h

/-- The converter phase of a half in regulation. -/
def Pwr.phase (p : Pwr) : Side → Bool
  | .a => p.phaseA
  | .b => p.phaseB
def setPhase (s : Side) (v : Bool) (p : Pwr) : Pwr :=
  match s with
  | .a => { p with phaseA := v }
  | .b => { p with phaseB := v }

/-- CONVERTER_PHASE_LOST: Common runs on with the other phase (R17). -/
def converterPhaseLost (s : Side) (h : Hub) : Hub :=
  when_ (h.awake && h.pwr.phase s)
    (fun h => supplyFault (match s with | .a => 1 | .b => 2) (raisePwr (bit16 3) (h.onPwr (setPhase s false)))) h

/-- CONVERTER_PHASE_RESTORED. -/
def converterPhaseRestored (s : Side) (h : Hub) : Hub := when_ (h.awake && !h.pwr.phase s) (fun h => h.onPwr (setPhase s true)) h

/-! ## Temperature (R462 to R465) -/

/-- The address field of THERMAL_WARN and THERMAL_TRIP. -/
def thermalAddr (i : Fin 8) (t : Int) : Nat := at_ 16 16 (ofSigned 16 t) + at_ 0 8 i

/-- Sensor i reads t. -/
def setTemp (i : Fin 8) (t : Int) (h : Hub) : Hub := h.onPwr fun p => { p with temps := upd p.temps i fun _ => t }

/-- Eight readings. -/
def setTemps (l : List Int) (h : Hub) : Hub :=
  h.onPwr fun p => { p with temps := Vector.ofFn fun (i : Fin 8) => l.getD i p.temps[i] }

/-- THERMAL_WARN: a sensor rises to 110 °C (R462). -/
def thermalWarn (i : Fin 8) (t : Int) (h : Hub) : Hub :=
  when_ (h.awake && !h.pwr.warn && decide (1760 ≤ t))
    (fun h => bumpCounter 6 (raisePwr (bit16 0) (sendFault srcThermal .thermalWarn accNone mInternal (thermalAddr i t)
      ((setTemp i t h).onPwr fun p => { p with warn := true })))) h

/-- THERMAL_WARN_CLEAR: every sensor has fallen below 105 °C. -/
def thermalWarnClear (temps : List Int) (h : Hub) : Hub :=
  when_ (h.awake && h.pwr.warn && temps.all fun t => decide (t < 1680))
    (fun h => (setTemps temps h).onPwr fun p => { p with warn := false }) h

/-- THERMAL_TRIP: a sensor reaches 125 °C (R463): the journal is settled, a first-fault entry carries the message, and the hub is
in THERMAL_OFF. Before the rails are up there is no record to write to. -/
def thermalTrip (i : Fin 8) (t : Int) (h : Hub) : Hub :=
  let h := ensureBegun h
  when_ (h.runs && decide (2000 ≤ t))
    (fun h =>
      let h := setTemp i t h
      let m : Stamped :=
        { msg := { source := BitVec.ofNat 12 srcThermal, kind := .thermalTrip, access := 0, master := 0
                   address := BitVec.ofNat 32 (thermalAddr i t) }
          time := h.houseShort, epoch := h.houseEpoch }
      goDark .thermalOff (bumpCounter 5 (if h.awake then peatFirst 4 m (haltJournal h) else h))) h

/-- THERMAL_AUTO_RESTART: every sensor reads below 100 °C with THERM_AUTO set; refused after three in a row (R465). -/
def thermalAutoRestart (temps : List Int) (h : Hub) : Hub :=
  when_ (h.inMode .thermalOff && h.pwr.thermAuto && decide (h.top.autoCount < 3) && temps.all fun t => decide (t < 1600))
    (fun h => coldBoot 3 (h.onTop fun t => { t with autoCount := t.autoCount + 1 })) h

/-! ## Bank supplies (R477, R478) -/

/-- The class of a bank supply: 0 off, then 1.8 V, 2.5 V and 3.3 V. -/
def vddpClass (mv : Nat) : BitVec 2 := if mv < 1600 then 0 else if mv < 2150 then 1 else if mv < 2900 then 2 else 3

/-- A pulse output with its bank at a class: high impedance while the bank is off, and driven again when it is not. -/
def Pls.supplied (boot : Bool) (c : BitVec 2) (x : Pls) : Pls :=
  { x with
    vddp := c
    pin := if c = 0 then .hiZ
      else if x.pin != PlsPin.hiZ then x.pin
      else if x.active then plsActive x.run
      else if boot then .low else plsIdle x.run }

/-- VDDP_BANK_MEASUREMENT: the eight bank supplies in mV. -/
def vddpBankMeasurement (mv : List Nat) (h : Hub) : Hub :=
  when_ h.awake (fun h =>
    { h with plss := h.plss.mapFinIdx fun n x _ => x.supplied (h.inMode .boot || !h.rootActive) (vddpClass (mv.getD (n / 8) 0)) }) h

/-! ## The resident loader's verification (R386) -/

/-- LOADER_VERIFY_DONE: the image named passes, is VALID, and the hub resets; or the reason code is shown. -/
def loaderVerifyDone (h : Hub) : Hub :=
  when_ (h.runs && h.shim.loader && h.shim.ldrBusy)
    (fun h =>
      let i := h.shim.ldrImage
      let h := readImage mInternal i h
      let r := h.shim.imageReason i
      let h := h.onShim fun s => { s with ldrBusy := false, ldrReason := BitVec.ofNat 8 r }
      if r = 0 then hubReset 5 (bumpCounter 14 (setImageState i 1 h)) else h) h

/-! ## Meanings -/

def execRootLock (r : RootStart) (s : State) := run (bootRootLock r.root r.dev) s
def execRootLockTimeout (r : Side) (s : State) := run (bootRootLockTimeout r) s
def execChargeClaim (a b : Bool) (s : State) := run (bootChargeClaim a b) s
def execVinRise (mv : Nat) (s : State) := run (vinRise mv) s
def execVinFall (mv : Nat) (s : State) := run (vinFall mv) s
def execEnHigh (s : State) := run enHigh s
def execEnLow (s : State) := run enLow s
def execRailRetryTimeout (s : State) := run railRetryTimeout s
def execRailRetryWaitExpiry (s : State) := run railRetryWaitExpiry s
def execBootEnd (s : State) := run bootEnd s
def execPfailAssert (mv : Nat) (s : State) := run (pfailAssert mv) s
def execPfailDeassert (mv : Nat) (s : State) := run (pfailDeassert mv) s
def execVinOvervoltage (mv : Nat) (s : State) := run (vinOvervoltage mv) s
def execConverterPhaseLost (x : Side) (s : State) := run (converterPhaseLost x) s
def execConverterPhaseRestored (x : Side) (s : State) := run (converterPhaseRestored x) s
def execThermalWarn (i : Fin 8) (t : Int) (s : State) := run (thermalWarn i t) s
def execThermalWarnClear (temps : List Int) (s : State) := run (thermalWarnClear temps) s
def execThermalTrip (i : Fin 8) (t : Int) (s : State) := run (thermalTrip i t) s
def execThermalAutoRestart (temps : List Int) (s : State) := run (thermalAutoRestart temps) s
def execVddpBankMeasurement (mv : List Nat) (s : State) := run (vddpBankMeasurement mv) s
def execLoaderVerifyDone (s : State) := run loaderVerifyDone s

end Sys2Proof.Machine
end

