-- ==== Sys2Proof/Machine/Regs.lean ====
section
/-!
DEFINITION. Register accesses (chapters 10, 11, 12, 13): who may access what (R353, R354), violations (R355), clearing
status by sequence (R356, R357), bit aliases (R358), parity (R359), ring set-up (R332, R333), mailboxes (R361 to R363), the
SPI port (R366 to R369), TOP_RESET (R459) and the loader registers (R386).
-/

namespace Sys2Proof.Machine

/-! ## Who answers, and violations (R33, R355) -/

/-- The registers answer a master: in BOOT once the wardens have booted, and in SERVICE, TEST, RECOVERY and SAFE; HOST comes
through the endpoint. -/
def Hub.answers (h : Hub) (m : Master) : Bool :=
  (match h.top.mode with
    | .boot => h.wardensBooted
    | .service | .test | .recovery | .safe => true
    | .off | .standby | .thermalOff => false) && (m != .host || h.host.ready)

/-- The record of a violation (R365). -/
def vioRecord (time : BitVec 64) (bar off access : Nat) : BitVec 128 :=
  BitVec.ofNat 128 (at_ 64 64 time.toNat + at_ 32 32 off + at_ 28 4 bar + at_ 24 4 access)

/-- 16 bits, saturating. -/
def inc16 (n : BitVec 16) : BitVec 16 := if n = 0xFFFF then n else n + 1

/-- A violation: counted and recorded, with no message and no interrupt. -/
def violation (m : Master) (bar off access : Nat) (h : Hub) : Hub :=
  let r := vioRecord h.houseShort bar off access
  match m with
  | .host => h.onTop fun t => { t with vioHost := inc16 t.vioHost, vioLastHost := r }
  | .spi => h.onTop fun t => { t with vioSpi := inc16 t.vioSpi, vioLastSpi := r }
  | .debug => h.onTop fun t => { t with vioDebug := inc16 t.vioDebug, vioLastDebug := r }

/-! ## _ACK registers (R356, R357) -/

/-- The event-status registers with their clears. -/
inductive AckReg where
  | plain (r : EvtReg)
  | dll (j : Fin 6)
  | dom (m : Fin 16)
  | flt
  | safe
  | degLnk (j : Fin 3)
deriving DecidableEq, Repr

/-- Clear a plain event-status register. Bits whose cause stands rise again: rotators at their limit, clamped clusters, a
loop of the hierarchy. -/
def ackPlain (r : EvtReg) (v : Reg) (h : Hub) : Hub :=
  match r with
  | .root => h.onClk fun c => { c with rootEvt := c.rootEvt.ack v }
  | .rotSat =>
    if h.clk.rotSat.hits v then
      raiseRotSat (maskOf16 fun m => h.doms[m].limited) (h.onClk fun c => { c with rotSat := c.rotSat.ack v })
    else h
  | .evt n => h.onEvt n fun c => { c with evt := c.evt.ack v }
  | .ivu u => h.onIvu u fun c => { c with evt := c.evt.ack v }
  | .tdc =>
    if h.tdc.evt.hits v then
      let h := h.onTdc fun t => { t with evt := t.evt.ack v }
      if h.tdc.clamped = 0 then h else raiseTdc (bit16 2) h
    else h
  | .ref s => h.onRef s fun c => { c with evt := c.evt.ack v }
  | .clkout n => h.onOut n fun c => { c with evt := c.evt.ack v }
  | .pls n => h.onPls n fun c => { c with evt := c.evt.ack v }
  | .lnk n => h.onLink n fun c => { c with evt := c.evt.ack v }
  | .hier =>
    if h.hier.evt.hits v then
      let h := h.onHier fun c => { c with evt := c.evt.ack v }
      if (allFin 48).any fun n => h.links[n].sends && h.follows n && h.links[n].peerFollows then raiseHier (bit16 6) h else h
    else h
  | .reed => h.onComp fun c => { c with evt := c.evt.ack v }
  | .charge => h.onComp fun c => { c with cevt := c.cevt.ack v }
  | .shim => h.onShim fun c => { c with evt := c.evt.ack v }
  | .cal => h.onCal fun c => { c with evt := c.evt.ack v }
  | .mon j => h.onMons fun m => { m with evt := upd m.evt j fun e => e.ack v }
  | .pwr => h.onPwr fun p => { p with evt := p.evt.ack v }
where
  /-- The set of domains for which p holds, as sixteen bits. -/
  maskOf16 (p : Fin 16 → Bool) : BitVec 16 := (allFin 16).foldl (fun b m => if p m then b ||| bit16 m else b) 0

/-- CLK_DLL_EVT[j]: the DLLs whose bits clear track again (R66). -/
def ackDll (j : Fin 6) (v : Reg) (h : Hub) : Hub :=
  if h.dllEvt[j].hits v then
    let bits := h.dllEvt[j].bits
    forEach (allFin 96) (fun n h => if n / 16 = j.val && bits.getLsbD (n % 16) then rearmDll n h else h)
      { h with dllEvt := upd h.dllEvt j fun e => e.ack v }
  else h

/-- DOM_EVT[m]: the mark goes when no cause of it stays, and rises again while one does (R176). -/
def ackDom (m : Fin 16) (v : Reg) (h : Hub) : Hub :=
  if h.doms[m].evt.hits v then
    let h := h.onDom m fun d => { d with evt := d.evt.ack v, untrusted := false }
    if h.domMarked m then distrust m h else h
  else h

/-- FLT_EVT: with captured, the capture and the overflow flag clear (R414). -/
def ackFlt (v : Reg) (h : Hub) : Hub :=
  if h.flt.evt.hits v then
    let captured := h.flt.evt.bits.getLsbD 4
    h.onFlt fun f =>
      let f := { f with evt := f.evt.ack v }
      if captured then { f with cap := none, ovf := false, capCnt := 0 } else f
  else h

/-- FLT_SAFE_EVT: only with no source counted; in SAFE the hub leaves SAFE, which the resident loader does not (R36, R420). -/
def ackSafe (v : Reg) (h : Hub) : Hub :=
  if h.flt.safeEvt.hits v && h.safeSources.isEmpty then
    let h := h.onFlt fun f => { f with safeEvt := f.safeEvt.ack v }
    if h.isSafe && !h.shim.loader then leaveSafe h else h
  else h

/-- FLT_DEG_LNK[j]: marks go when no cause of them stays (R411). -/
def ackDegLnk (j : Fin 3) (v : Reg) (h : Hub) : Hub :=
  if h.flt.degLnk[j].hits v then
    let marks := h.linkMarks j
    h.onFlt fun f => { f with degLnk := upd f.degLnk j fun e => (e.ack v).raise marks }
  else h

/-- A write to an _ACK register. -/
def ackReg (r : AckReg) (v : Reg) (h : Hub) : Hub :=
  match r with
  | .plain r => ackPlain r v h
  | .dll j => ackDll j v h
  | .dom m => ackDom m v h
  | .flt => ackFlt v h
  | .safe => ackSafe v h
  | .degLnk j => ackDegLnk j v h

/-- The instance whose register at offset o of a bank's block an address names. -/
def bankAt (base stride n o off : Nat) : Option (Fin n) :=
  (inBank base stride n off).bind fun x => if x.2 = o then some x.1 else none

/-- The event-status register whose _ACK register stands at a BAR 0 offset. -/
def ackAt (off : Nat) : Option AckReg :=
  if off = 0x1048 then some (.plain .charge)
  else if off = 0x1098 then some (.plain .pwr)
  else if off = 0x4008 then some .flt
  else if off = 0x4044 then some .safe
  else if off = 0x6008 then some (.plain .root)
  else if off = 0x6018 then some (.plain .rotSat)
  else if off = 0xD834 then some (.plain .tdc)
  else if off = 0x18C04 then some (.plain .reed)
  else if off = 0x19048 then some (.plain .shim)
  else if off = 0x1A008 then some (.plain .cal)
  else if off = 0x1C048 then some (.plain .hier)
  else if off < 0x6000 then (bankAt 0x4050 8 3 4 off).map .degLnk
  else if off < 0x8000 then (bankAt 0x6080 8 6 4 off).map .dll
  else if off < 0xA000 then (bankAt 0x8000 0x100 12 0x48 off).map fun s => .plain (.ref s)
  else if off < 0xC000 then (bankAt 0xA000 0x200 16 0x48 off).map .dom
  else if off < 0xD000 then (bankAt 0xC000 0x40 64 0x2C off).map fun n => .plain (.evt n)
  else if off < 0xD800 then (bankAt 0xD000 0x40 32 0x28 off).map fun u => .plain (.ivu u)
  else if off < 0xF000 then (bankAt 0xE000 0x20 96 0x18 off).map fun n => .plain (.clkout n)
  else if off < 0x10000 then (bankAt 0xF000 0x40 64 0x34 off).map fun n => .plain (.pls n)
  else if off < 0x18000 then (bankAt 0x10000 0x200 48 0x48 off).map fun n => .plain (.lnk n)
  else (bankAt 0x1B900 8 2 4 off).map fun j => .plain (.mon j)

/-! ## Rights (R354) -/

/-- The mailbox that a BAR 0 offset lies in. -/
def mbxAt (off : Nat) : Option (Fin 4 × Nat) := if off < 0x4000 then inBank 0x3000 0x40 4 off else none

/-- A master may read, may write, mailbox i (R354, R363). -/
def mbxReads : Master → Fin 4 → Bool
  | .host, i => i == 0
  | .spi, i => i == 1
  | .debug, _ => true
def mbxWrites : Master → Fin 4 → Bool
  | .host, i => i == 0
  | .spi, i => i == 1
  | .debug, i => i != 3

/-- A master may read the register at an offset. -/
def mayRead (m : Master) (off : Nat) : Bool :=
  match mbxAt off with
  | some (i, _) => mbxReads m i
  | none => true

/-- The offset is that of a loader register that takes writes. -/
def ldrReg (off : Nat) : Bool := off == 0x19100 || off == 0x19104 || off == 0x19108

/-- A master may write the register at an offset (R354, R386). -/
def Hub.mayWrite (h : Hub) (m : Master) (off : Nat) : Bool :=
  match mbxAt off with
  | some (i, _) => mbxWrites m i
  | none =>
    if ldrReg off then h.shim.loader && m != .host
    else if inRange off 0x2000 0x2FFF && !inRange off 0x2800 0x2BFF then m != .spi
    else true

/-! ## Ring set-up (R332, R333) -/

/-- Some ring is enabled: HOST_IDX is locked. -/
def Hub.anyRingOpen (h : Hub) : Bool :=
  h.host.cmd.toList.any Ring.open_ || h.host.cpl.toList.any Ring.open_ || h.host.tel.toList.any Ring.open_ || h.host.str.toList.any Ring.open_

/-- The fields of CTL but enable. -/
def Ring.withCtl (v : Reg) (r : Ring) : Ring :=
  { r with k := v.extractLsb' 0 4, coalCnt := v.extractLsb' 12 8, cq := v.extractLsb' 20 4, fast := v.getLsbD 30 }

/-- The condition to enable a ring with the settings of a CTL word. -/
def Hub.mayEnable (h : Hub) (r : RingId) (v : Reg) : Bool :=
  h.idxSet && decide (6 ≤ fld v 0 4) && match r with
    | .cmd _ => (h.ring (.cpl (v.extractLsb' 20 4).toFin)).state == RingState.enabled
    | .cpl _ => true
    | .tel _ => true
    | .str _ => true

/-- A unit writes to telemetry ring t: an EVENT task or an enabled monitor unit with telemetry on it. -/
def Hub.telWriters (h : Hub) (t : Fin 4) : Bool :=
  ((allFin 32).any fun e => (pick h.comp.tasks (76 + e) {}).state != TaskState.unplaced && h.comp.evTasks[e].telEn
    && h.comp.evTasks[e].telRing == t.val)
  || (allFin 32).any fun u => h.mons.unit[u].enabled && h.mons.unit[u].telEn && h.mons.unit[u].telRing == t

/-- The condition to disable a ring. -/
def Hub.mayDisable (h : Hub) (r : RingId) : Bool :=
  match r with
  | .cmd _ => true
  | .cpl c => (allFin 16).all fun q => h.host.cmd[q].state == RingState.disabled || h.host.cmd[q].cq.toFin != c
  | .tel t => !h.telWriters t
  | .str n => !h.evts[n].enabled && h.evts[n].queue.isEmpty

/-- Enable a ring: both indices are 0. -/
def enableRing (r : RingId) (v : Reg) (h : Hub) : Hub :=
  streamRoom r (h.onRing r fun x => { x.withCtl v with state := .enabled, prod := 0, cons := 0, unsignalled := 0, bells := [] })

/-- Disable a ring: a command ring with descriptors in progress drains. -/
def disableRing (r : RingId) (v : Reg) (h : Hub) : Hub :=
  let drains := match r with
    | .cmd q => decide (0 < h.ringProgress q)
    | .cpl _ => false
    | .tel _ => false
    | .str _ => false
  h.onRing r fun x => { x.withCtl v with state := if drains then .draining else .disabled, bells := [] }

/-- A write changes a locked field of CTL. -/
def Ring.ctlLocked (r : Ring) (v : Reg) : Bool := r.k != v.extractLsb' 0 4 || r.cq != v.extractLsb' 20 4 || r.fast != v.getLsbD 30

/-- A write of CTL; none for a violation. -/
def ctlWrite (r : RingId) (v : Reg) (h : Hub) : Option Hub :=
  let x := h.ring r
  if x.open_ then
    if x.ctlLocked v then none
    else if v.getLsbD 31 then some (h.onRing r (Ring.withCtl v))
    else if h.mayDisable r then some (disableRing r v h) else none
  else if v.getLsbD 31 then
    if h.mayEnable r v then some (enableRing r v h) else none
  else some (h.onRing r (Ring.withCtl v))

/-- A value in force of a field that is locked under a condition: none where the write would change it. -/
def lockable (locked changes : Bool) (h : Hub) : Option Hub := if locked && changes then none else some h

/-- A write of a ring's base; none for a violation. -/
def baseWrite (r : RingId) (hi : Bool) (v : Reg) (h : Hub) : Option Hub :=
  let x := h.ring r
  if hi then lockable x.open_ (x.baseHi != v) (h.onRing r fun x => { x with baseHi := v })
  else
    let v := v &&& 0xFFFFF000
    lockable x.open_ (x.baseLo != v) (h.onRing r fun x => { x with baseLo := v })

/-! ## TOP, FLT, MON and the loader's registers -/

/-- TOP_VIO_CLR. -/
def vioClr (v : Reg) (h : Hub) : Hub :=
  h.onTop fun t =>
    { t with
      vioHost := if v.getLsbD 0 then 0 else t.vioHost
      vioSpi := if v.getLsbD 1 then 0 else t.vioSpi
      vioDebug := if v.getLsbD 2 then 0 else t.vioDebug }

/-- TOP_RESET (R459): the second key within 1 ms of the first, by the same master, resets the hub. -/
def resetKeyWrite (m : Master) (v : Reg) (h : Hub) : Hub :=
  let key := fld v 0 16
  let done := match h.top.resetKey with
    | some (m', at0) => key == 0xC3A5 && m' == m && decide (h.clk.cycles ≤ at0 + 1500000)
    | none => false
  if done then hubReset 4 h
  else h.onTop fun t => { t with resetKey := if key = 0x5A3C then some (m, h.clk.cycles) else none }

/-- FLT_PIN_CTL (R415). -/
def pinCtl (release hold : Bool) (h : Hub) : Hub :=
  h.onFlt fun f => { f with hold, driven := f.driven && (f.minLow || (!release && hold)) }

/-- A write of a TOP register. -/
def putTop (m : Master) (off : Nat) (v : Reg) (h : Hub) : Option Hub :=
  if off = 0x1018 then some (vioClr v h)
  else if off = 0x1080 then some (h.onPwr fun p => { p with thermAuto := v.getLsbD 0, irqEn := v.extractLsb' 16 16 })
  else if off = 0x10A0 then some (resetKeyWrite m v h)
  else none

/-- A write of a FLT register. -/
def putFlt (off : Nat) (v : Reg) (h : Hub) : Option Hub :=
  if off = 0x4030 then some (pinCtl (v.getLsbD 1) (v.getLsbD 0) h)
  else if off = 0x4034 then some (h.onFlt fun f => { f with irqEn := v.extractLsb' 0 16 })
  else (bankAt 0x5000 4 512 0 off).map fun j => h.onFlt fun f => { f with sev := upd f.sev j fun _ => v &&& 0x77777777 }

/-- A write of a HOST register. -/
def putHost (off : Nat) (v : Reg) (h : Hub) : Option Hub :=
  if off = 0x2000 then
    let v := v &&& 0xFFFFF001
    lockable h.anyRingOpen (h.host.idxLo != v) (h.onHost fun x => { x with idxLo := v })
  else if off = 0x2004 then lockable h.anyRingOpen (h.host.idxHi != v) (h.onHost fun x => { x with idxHi := v })
  else if off = 0x2008 then some (h.onHost fun x => { x with dumpLo := v &&& 0xFFFFF001 })
  else if off = 0x200C then some (h.onHost fun x => { x with dumpHi := v })
  else if off = 0x2010 then some (h.onHost fun x => { x with dumpSize := v.extractLsb' 0 16 })
  else match ringAt off with
    | some (r, o) =>
      if o = 0x0 then baseWrite r false v h
      else if o = 0x4 then baseWrite r true v h
      else if o = 0x8 then ctlWrite r v h
      else none
    | none => match bankAt 0x2800 4 167 0 off with
      | some s => some (h.onHost fun x =>
          { x with vector := upd x.vector s fun _ => v.extractLsb' 0 8, spi := upd x.spi s fun _ => v.getLsbD 8 })
      | none => (bankAt 0x2C00 4 84 0 off).map fun r => h.onRing (coalRing r) fun x => { x with coalUs := v.extractLsb' 0 10 }

/-- MBX_CTL.req: a request for the quantity that MBX_SEL names, dropping one that is pending (R361, R362). -/
def requestSnapshot (i : Fin 4) (h : Hub) : Hub := h.onMbx i fun x => { x with req := some (x.code, x.inst), valid := false, err := false }

/-- A write of a mailbox register. -/
def putMbx (i : Fin 4) (o : Nat) (v : Reg) (h : Hub) : Option Hub :=
  if o = 0x00 then some (h.onMbx i fun x => { x with code := v.extractLsb' 16 8, inst := v.extractLsb' 0 12 })
  else if o = 0x04 then some (if v.getLsbD 0 then requestSnapshot i h else h)
  else none

/-- A write of a loader register. -/
def putLdr (off : Nat) (v : Reg) (h : Hub) : Option Hub :=
  if off = 0x19100 then some (ldrOfs v h)
  else if off = 0x19104 then some (ldrData v h)
  else if off = 0x19108 then some (if v.getLsbD 0 then ldrVerify h else h)
  else none

/-- A write of the register at an aligned offset below the reserved range; none for a violation. -/
def putReg (m : Master) (off : Nat) (v : Reg) (h : Hub) : Option Hub :=
  match ackAt off with
  | some r => some (ackReg r v h)
  | none =>
    if off = 0x1B920 then some (h.onMons fun x => { x with irq := v })
    else match mbxAt off with
      | some (i, o) => putMbx i o v h
      | none =>
        if inRange off 0x1000 0x1FFF then putTop m off v h
        else if inRange off 0x2000 0x2FFF then putHost off v h
        else if inRange off 0x4000 0x5FFF then putFlt off v h
        else putLdr off v h

/-! ## Writes in BAR 0 (R353 to R359) -/

/-- The RW bits of the register at an offset. -/
def rwMask (off : Nat) : Nat :=
  if off = 0x1080 then 0xFFFF0001
  else if off = 0x2000 ∨ off = 0x2008 then 0xFFFFF001
  else if off = 0x2004 ∨ off = 0x200C then 0xFFFFFFFF
  else if off = 0x2010 then 0xFFFF
  else if off = 0x4030 then 1
  else if off = 0x4034 then 0xFFFF
  else if off = 0x1B920 then 0xFFFFFFFF
  else if off = 0x19100 then 0x1FFFFC
  else match mbxAt off with
    | some (_, o) => if o = 0 then 0xFF0FFF else 0
    | none =>
      if inRange off 0x5000 0x57FF then 0x77777777
      else if inRange off 0x2800 (0x2800 + 4 * 167 - 1) then 0x1FF
      else if inRange off 0x2C00 (0x2C00 + 4 * 84 - 1) then 0x3FF
      else match ringAt off with
        | some (_, o) => if o = 0x0 then 0xFFFFF000 else if o = 0x4 then 0xFFFFFFFF else if o = 0x8 then 0xC0FFF00F else 0
        | none => 0

/-- A single aligned write of a register by a master: it takes effect and restores the register's parity, or is a violation. -/
def writeReg (m : Master) (off : Nat) (v : Reg) (h : Hub) : Hub :=
  match (if h.mayWrite m off then putReg m off v h else none) with
  | some h' => copyWritten off 4 h'
  | none => violation m 0 off accWrite h

/-- Register and bit of an alias (R358). -/
def aliasReg (off : Nat) : Nat := (off - 0x400000) / 128 * 4
def aliasBit (off : Nat) : Nat := (off - 0x400000) % 128 / 4

/-- The register at an offset takes writes of this master. -/
def Hub.takesWrites (h : Hub) (m : Master) (off : Nat) : Bool :=
  h.mayWrite m off && ((ackAt off).isSome || rwMask off != 0 || off == 0x1018 || off == 0x10A0 || ldrReg off
    || match mbxAt off with
      | some (_, o) => o == 4
      | none => false)

/-- A write in the alias window: one RW bit of a register, whose parity is not restored; other bits are left as they are. -/
def writeAlias (m : Master) (off : Nat) (v : Reg) (h : Hub) : Hub :=
  let r := aliasReg off
  let b := aliasBit off
  if off % 4 ≠ 0 || !h.takesWrites m r then violation m 0 off accWrite h
  else if natBit (rwMask r) b then
    let old := (h.regRead r).getD 0 % 2 ^ 32
    let word := BitVec.ofNat 32 (at_ 0 b old + at_ b 1 (b2n (v.getLsbD 0)) + at_ (b + 1) 32 (old / 2 ^ (b + 1)))
    match putReg m r word h with
    | some h' => h'
    | none => violation m 0 off accWrite h
  else h

/-! ## BAR 2 and BAR 4 (R324, R328) -/

/-- The ring of a doorbell offset. -/
def bellRing (off : Nat) : Option RingId :=
  if off % 4 ≠ 0 then none
  else if off < 0x40 then (finOf 16 (off / 4)).map .cmd
  else match bankAt 0x100 4 16 0 off with
    | some c => some (.cpl c)
    | none => match bankAt 0x200 4 64 0 off with
      | some n => some (.str n)
      | none => (bankAt 0x300 4 4 0 off).map .tel

/-- What BAR 2 reads: the index last accepted for the ring; none where there is no doorbell. -/
def Hub.bellRead (h : Hub) (off : Nat) : Option Nat :=
  (bellRing off).map fun r => match r with
    | .cmd q => h.host.cmd[q].prod.toNat
    | .cpl c => h.host.cpl[c].cons.toNat
    | .tel t => h.host.tel[t].cons.toNat
    | .str n => h.host.str[n].cons.toNat

/-- What BAR 4 reads: the MSI-X table of 128 entries, and the pending-bit array. -/
def Hub.msixRead (h : Hub) (off : Nat) : Option Nat :=
  if off % 4 ≠ 0 then none
  else match finOf 128 (off / 16) with
    | some v =>
      let e := h.host.msix[v]
      some (match off % 16 with
        | 0 => e.addr.toNat % 2 ^ 32
        | 4 => e.addr.toNat / 2 ^ 32
        | 8 => e.data.toNat
        | _ => b2n e.masked)
    | none => if inRange off 0x1000 0x100F then
        some ((List.range 32).map fun b => atB b (pick h.host.msix ((off - 0x1000) * 8 + b) {}).pend).sum
      else none

/-- A doorbell write that arrives now. -/
def writeBell (off : Nat) (v : Reg) (h : Hub) : Hub :=
  match bellRing off with
  | some (.cmd q) => commandDoorbell q v h.clk.pos h
  | some (.cpl c) => consumerDoorbell (.cpl c) v h
  | some (.tel t) => consumerDoorbell (.tel t) v h
  | some (.str n) => consumerDoorbell (.str n) v h
  | none => violation .host 2 off accWrite h

/-- One word of a vector's entry in the MSI-X table. -/
def writeMsix (n : Fin 128) (o : Nat) (v : Reg) (h : Hub) : Hub :=
  if o = 12 && !v.getLsbD 0 then unmask n h
  else h.onHost fun x => { x with msix := upd x.msix n fun e =>
    if o = 0 then { e with addr := BitVec.ofNat 64 (e.addr.toNat / 2 ^ 32 * 2 ^ 32 + v.toNat) }
    else if o = 4 then { e with addr := BitVec.ofNat 64 (v.toNat * 2 ^ 32 + e.addr.toNat % 2 ^ 32) }
    else if o = 8 then { e with data := v }
    else { e with masked := true } }

/-- A write in BAR 4: the table, or the pending-bit array, which writes do not change. -/
def writeTable (off : Nat) (v : Reg) (h : Hub) : Hub :=
  match finOf 128 (off / 16) with
  | some n => writeMsix n (off % 16) v h
  | none => if inRange off 0x1000 0x100F then h else violation .host 4 off accWrite h

/-- REGISTER_WRITE: a write access of a master to a BAR. Only HOST reaches BAR 2 and BAR 4. -/
def registerWrite (m : Master) (bar off size : Nat) (v : Reg) (h : Hub) : Hub :=
  when_ (h.answers m) (fun h =>
    if bar = 0 then
      if size ≠ 4 || off % 4 ≠ 0 then violation m 0 off accWrite h
      else if inRange off 0x400000 0x7FFFFF then writeAlias m off v h
      else writeReg m off v h
    else if m == .host && (bar == 2 || bar == 4) then
      if size ≠ 4 || off % 4 ≠ 0 then violation m bar off accWrite h
      else if bar = 2 then writeBell off v h
      else writeTable off v h
    else h) h

/-- ALIAS_WRITE. -/
def aliasWrite (m : Master) (off : Nat) (v : Reg) (h : Hub) : Hub :=
  when_ (h.answers m && inRange off 0x400000 0x7FFFFF) (writeAlias m off v) h

/-! ## The rows of single registers -/

/-- BAR 0 offset of a ring's CTL. -/
def ctlOffset : RingId → Nat
  | .cmd q => 0x2108 + 0x10 * q
  | .cpl c => 0x2208 + 0x10 * c
  | .tel t => 0x2308 + 0x10 * t
  | .str n => 0x2408 + 0x10 * n

/-- RING_ENABLE: CTL is written with enable 1. -/
def ringEnable (m : Master) (r : RingId) (v : Reg) (h : Hub) : Hub :=
  when_ (h.answers m) (writeReg m (ctlOffset r) (v ||| 0x80000000)) h

/-- RING_DISABLE: CTL is written with enable 0. -/
def ringDisable (m : Master) (r : RingId) (v : Reg) (h : Hub) : Hub :=
  when_ (h.answers m) (writeReg m (ctlOffset r) (v &&& 0x7FFFFFFF)) h

/-- Writes of the _ACK registers: open to every master. -/
def eventStatusAck (m : Master) (r : EvtReg) (v : Reg) (h : Hub) : Hub := when_ (h.answers m) (ackPlain r v) h
def clkDllEvtAck (m : Master) (j : Fin 6) (v : Reg) (h : Hub) : Hub := when_ (h.answers m) (ackDll j v) h
def domEvtAck (m : Master) (d : Fin 16) (v : Reg) (h : Hub) : Hub := when_ (h.answers m) (ackDom d v) h
def fltEvtAck (m : Master) (v : Reg) (h : Hub) : Hub := when_ (h.answers m) (ackFlt v) h
def fltSafeAck (m : Master) (v : Reg) (h : Hub) : Hub := when_ (h.answers m) (ackSafe v) h
def fltDegLnkAck (m : Master) (j : Fin 3) (v : Reg) (h : Hub) : Hub := when_ (h.answers m) (ackDegLnk j v) h

/-- FLT_PIN_RELEASE: release is written 1, hold as it is. -/
def fltPinRelease (m : Master) (h : Hub) : Hub := when_ (h.answers m) (fun h => writeReg m 0x4030 (if h.flt.hold then 3 else 2) h) h

/-- FLT_PIN_HOLD_WRITE: hold is written, release 0. -/
def fltPinHoldWrite (m : Master) (hold : Bool) (h : Hub) : Hub := when_ (h.answers m) (writeReg m 0x4030 (if hold then 1 else 0)) h

/-- TOP_VIO_CLR. -/
def topVioClr (m : Master) (v : Reg) (h : Hub) : Hub := when_ (h.answers m) (writeReg m 0x1018 v) h

/-- TOP_RESET_WRITE, cyc root cycles after the last tick. -/
def topResetWrite (m : Master) (v : Reg) (cyc : Nat) (h : Hub) : Hub :=
  when_ (h.answers m) (fun h => writeReg m 0x10A0 v (advanceTo cyc h)) h

/-- Writes of the loader registers (R386). -/
def shimLdrOfsWrite (m : Master) (v : Reg) (h : Hub) : Hub := when_ (h.answers m) (writeReg m 0x19100 v) h
def shimLdrDataWrite (m : Master) (v : Reg) (h : Hub) : Hub := when_ (h.answers m) (writeReg m 0x19104 v) h
def shimLdrVerify (m : Master) (h : Hub) : Hub := when_ (h.answers m) (writeReg m 0x19108 1) h

/-! ## Mailboxes (R361 to R363) -/

/-- MBX_REQ. -/
def mbxReq (m : Master) (i : Fin 4) (h : Hub) : Hub := when_ (h.answers m) (writeReg m (0x3004 + 0x40 * i) 1) h

/-- MBX_SNAPSHOT_VALID: the snapshot of the newest request is taken. -/
def mbxSnapshotValid (i : Fin 4) (h : Hub) : Hub :=
  match h.mbx[i].req with
  | none => h
  | some (c, n) => when_ h.runs (fun h =>
      match h.quantity c.toNat n.toNat with
      | some d => h.onMbx i fun x => { x with req := none, valid := true, err := false, data := d }
      | none => h.onMbx i fun x => { x with req := none, valid := true, err := true, data := 0 }) h

/-- MBX_DATA3_READ: the read clears valid, but not for DEBUG (R360, R361). -/
def mbxData3Read (m : Master) (i : Fin 4) (h : Hub) : Hub :=
  when_ (h.answers m) (fun h =>
    if mbxReads m i then if m == .debug then h else h.onMbx i fun x => { x with valid := false }
    else violation m 0 (0x301C + 0x40 * i) accRead h) h

/-! ## Reads with their effects (R353 to R360) -/

/-- Effects of a read: MBX_DATA[3] clears valid, DOM_FOFS_LO latches DOM_FOFS_HI. -/
def readEffect (m : Master) (off : Nat) (h : Hub) : Hub :=
  match mbxAt off with
  | some (i, o) => if o = 0x1C && m != .debug then h.onMbx i fun x => { x with valid := false } else h
  | none => match (if off < 0xC000 then bankAt 0xA000 0x200 16 0x4C off else none) with
    | some d => h.onDom d fun x => { x with hiLatch := BitVec.ofInt 32 (x.fofs.fdiv (2 ^ 32)) }
    | none => h

/-- A read of a BAR 0 word by a master: the word, and the state after it. -/
def readWord (m : Master) (off : Nat) (h : Hub) : Nat × Hub :=
  if inRange off 0x800000 0xFFFFFF && off % 4 == 0 then (0, h)
  else if inRange off 0x400000 0x7FFFFF && off % 4 == 0 && mayRead m (aliasReg off) then
    match h.regRead (aliasReg off) with
    | some w => (natBits w (aliasBit off) 1, h)
    | none => (0, violation m 0 off accRead h)
  else if mayRead m off then
    match h.regRead off with
    | some w => (w % 2 ^ 32, readEffect m off h)
    | none => (0, violation m 0 off accRead h)
  else (0, violation m 0 off accRead h)

/-! ## SPI (R366 to R368) -/

/-- What MISO carries in a transaction: the status word of the one before it, and the data frame. -/
def Hub.spiMiso (h : Hub) (data : Reg) (dataCrc : Byte) : BitVec 80 :=
  let st : Reg := BitVec.ofNat 32 (at_ 24 8 h.spi.status.toNat + atB 16 h.mbx[(1 : Fin 4)].valid)
  BitVec.ofNat 80 (at_ 48 32 st.toNat + at_ 40 8 (crc8 st).toNat + at_ 8 32 data.toNat + at_ 0 8 dataCrc.toNat)

/-- A transaction ends with a status. -/
def spiEnd (status : Nat) (miso : BitVec 80) (h : Hub) : Hub := { h with spi := { status := BitVec.ofNat 8 status, miso } }

/-- SPI_READ_TRANSACTION: the read is made at the 40th clock under a correct command CRC; otherwise the data frame is zero with
its CRC inverted. -/
def spiReadTransaction (cmd : Reg) (crc : Byte) (clocks : Nat) (h : Hub) : Hub :=
  when_ (h.answers .spi && !cmd.getLsbD 31) (fun h =>
    if clocks < 40 then spiEnd 3 (h.spiMiso 0 (crc8 0)) h
    else if crc8 cmd != crc then spiEnd 1 (h.spiMiso 0 (~~~crc8 0)) h
    else
      let (w, h') := readWord .spi (fld cmd 0 24) h
      spiEnd (if clocks = 80 then 0 else 3) (h.spiMiso (BitVec.ofNat 32 w) (crc8 (BitVec.ofNat 32 w))) h') h

/-- SPI_WRITE_TRANSACTION: the write is made at the rise of CS_N, when both CRCs are correct and 80 clocks have been received. -/
def spiWriteTransaction (cmd : Reg) (crc : Byte) (data : Reg) (dcrc : Byte) (clocks : Nat) (h : Hub) : Hub :=
  when_ (h.answers .spi && cmd.getLsbD 31) (fun h =>
    let miso := h.spiMiso 0 (crc8 0)
    if clocks < 40 then spiEnd 3 miso h
    else if crc8 cmd != crc then spiEnd 1 miso h
    else if clocks ≠ 80 then spiEnd 3 miso h
    else if crc8 data != dcrc then spiEnd 2 miso h
    else registerWrite .spi 0 (fld cmd 0 24) 4 data (spiEnd 0 miso h)) h

/-- An event bit that raises source s stands (R369). -/
def Hub.standing (h : Hub) (s : Nat) : Bool :=
  if inRange s 84 95 then (pick h.refs (s - 84) {}).evt.bits &&& BitVec.ofNat 16 (fld (pick h.refs (s - 84) {}).cfg 64 4) != 0
  else if inRange s 96 111 then (pick h.doms (s - 96) {}).evt.bits &&& BitVec.ofNat 16 (fld (pick h.doms (s - 96) {}).cfg 16 8) != 0
  else if inRange s 112 159 then (pick h.links (s - 112) {}).evt.bits &&& BitVec.ofNat 16 (fld (pick h.links (s - 112) {}).cfg 16 16) != 0
  else if s = 160 then h.flt.evt.bits &&& h.flt.irqEn != 0 || h.flt.safeEvt.bits.getLsbD 0
  else if s = 161 then h.clk.rootEvt.bits != 0 || h.clk.rotSat.bits != 0 || h.dllEvt.toList.any fun e => e.bits != 0
  else if s = 162 then (h.evts.toList.any fun c => c.evt.bits != 0) || (h.ivus.toList.any fun c => c.evt.bits != 0) || h.tdc.evt.bits != 0
  else if s = 163 then h.comp.evt.bits != 0 || h.comp.cevt.bits != 0
  else if s = 164 then h.hier.evt.bits &&& BitVec.ofNat 16 (fld h.hier.cfg 32 16) != 0
  else if s = 165 then (allFin 32).any fun u => (pick h.mons.evt (u / 16) {}).bits.getLsbD (u % 16) && h.mons.irq.getLsbD u
  else if s = 166 then h.pwr.evt.bits &&& h.pwr.irqEn != 0
  else false

/-- IRQ_N is low: a source from 84 to 166 that is routed to it stands raised (R369). -/
def Hub.irqLow (h : Hub) : Bool := h.runs && (List.range 167).any fun s => decide (84 ≤ s) && pick h.host.spi s false && h.standing s

/-! ## Parity (R359) -/

/-- The offset is that of a word of a read-back copy. -/
def copyAt (off : Nat) : Bool :=
  let inCopy base stride n len := (inBank base stride n off).any fun x => decide (x.2 < len)
  inCopy 0x8000 0x100 12 0x30 || inCopy 0x8C00 0x40 16 24 || inCopy 0xA000 0x200 16 0x30 || inCopy 0xC000 0x40 64 0x10
  || inCopy 0xD000 0x40 32 0x20 || inCopy 0xE000 0x20 96 0x10 || inCopy 0xF000 0x40 64 0x28 || inCopy 0x10000 0x200 48 0x20
  || inCopy 0x18800 0x10 32 0x10 || inCopy 0x19000 8 1 8 || inCopy 0x1B000 0x40 32 40 || inCopy 0x1C000 0x30 1 0x30
  || inCopy 0x1C400 0x40 48 0x30

/-- The register at an offset carries a parity bit. -/
def hasParity (off : Nat) : Bool := off % 4 == 0 && (rwMask off != 0 || copyAt off)

/-- A mismatch found by the sweep, reported once. -/
def parityFound (off : Nat) (h : Hub) : Hub :=
  if !hasParity off || h.top.parBad.contains off then h
  else
    sendFault srcParity .parity accNone mInternal off (h.onTop fun t =>
      { t with
        parBad := t.parBad ++ [off], parOffset := BitVec.ofNat 24 off
        parCount := if t.parCount = 0xFF then t.parCount else t.parCount + 1 })

/-- PARITY_SWEEP: it runs in every mode in which the registers answer (R370). -/
def paritySweep (bad : List Nat) (h : Hub) : Hub := when_ (h.answers .debug) (forEach bad parityFound) h

/-! ## Meanings -/

def execRegisterWrite (m : Master) (bar off size : Nat) (v : Reg) (s : State) := run (registerWrite m bar off size v) s
def execAliasWrite (m : Master) (off : Nat) (v : Reg) (s : State) := run (aliasWrite m off v) s
def execRingEnable (m : Master) (r : RingId) (v : Reg) (s : State) := run (ringEnable m r v) s
def execRingDisable (m : Master) (r : RingId) (v : Reg) (s : State) := run (ringDisable m r v) s
def execEventStatusAck (m : Master) (r : EvtReg) (v : Reg) (s : State) := run (eventStatusAck m r v) s
def execClkDllEvtAck (m : Master) (j : Fin 6) (v : Reg) (s : State) := run (clkDllEvtAck m j v) s
def execDomEvtAck (m : Master) (d : Fin 16) (v : Reg) (s : State) := run (domEvtAck m d v) s
def execFltEvtAck (m : Master) (v : Reg) (s : State) := run (fltEvtAck m v) s
def execFltSafeAck (m : Master) (v : Reg) (s : State) := run (fltSafeAck m v) s
def execFltDegLnkAck (m : Master) (j : Fin 3) (v : Reg) (s : State) := run (fltDegLnkAck m j v) s
def execFltPinRelease (m : Master) (s : State) := run (fltPinRelease m) s
def execFltPinHoldWrite (m : Master) (hold : Bool) (s : State) := run (fltPinHoldWrite m hold) s
def execTopVioClr (m : Master) (v : Reg) (s : State) := run (topVioClr m v) s
def execTopResetWrite (m : Master) (v : Reg) (cyc : Nat) (s : State) := run (topResetWrite m v cyc) s
def execMbxReq (m : Master) (i : Fin 4) (s : State) := run (mbxReq m i) s
def execMbxSnapshotValid (i : Fin 4) (s : State) := run (mbxSnapshotValid i) s
def execMbxData3Read (m : Master) (i : Fin 4) (s : State) := run (mbxData3Read m i) s
def execSpiReadTransaction (cmd : Reg) (crc : Byte) (clocks : Nat) (s : State) := run (spiReadTransaction cmd crc clocks) s
def execSpiWriteTransaction (cmd : Reg) (crc : Byte) (data : Reg) (dcrc : Byte) (clocks : Nat) (s : State) :=
  run (spiWriteTransaction cmd crc data dcrc clocks) s
def execShimLdrOfsWrite (m : Master) (v : Reg) (s : State) := run (shimLdrOfsWrite m v) s
def execShimLdrDataWrite (m : Master) (v : Reg) (s : State) := run (shimLdrDataWrite m v) s
def execShimLdrVerify (m : Master) (s : State) := run (shimLdrVerify m) s
def execParitySweep (bad : List Nat) (s : State) := run (paritySweep bad) s

end Sys2Proof.Machine
end

