-- ==== Sys2Proof/Machine/Dispatch.lean ====
section
/-!
DEFINITION. What each command does: one arm for each constructor, calling that command's meaning.
-/

namespace Sys2Proof.Machine

def exec (i : Instr) (s : State) : Host.Outcome State Fault Refusal :=
  match i with
  | .nop o => Sys2Proof.Machine.execNop o s
  | .readTime o cyc => Sys2Proof.Machine.execReadTime o cyc s
  | .setTime o => Sys2Proof.Machine.execSetTime o s
  | .stepTime o => Sys2Proof.Machine.execStepTime o s
  | .slewTime o => Sys2Proof.Machine.execSlewTime o s
  | .domainConfig o => Sys2Proof.Machine.execDomainConfig o s
  | .domainSteerSet o => Sys2Proof.Machine.execDomainSteerSet o s
  | .domainSteerAdd o => Sys2Proof.Machine.execDomainSteerAdd o s
  | .domainSteerHoTrim o => Sys2Proof.Machine.execDomainSteerHoTrim o s
  | .domainModePolicy o => Sys2Proof.Machine.execDomainModePolicy o s
  | .domainModeRealign o => Sys2Proof.Machine.execDomainModeRealign o s
  | .domainModeClearTracked o => Sys2Proof.Machine.execDomainModeClearTracked o s
  | .domainModeClearStepped o => Sys2Proof.Machine.execDomainModeClearStepped o s
  | .refConfig o => Sys2Proof.Machine.execRefConfig o s
  | .refPriority o => Sys2Proof.Machine.execRefPriority o s
  | .outputConfig o => Sys2Proof.Machine.execOutputConfig o s
  | .pulseConfig o => Sys2Proof.Machine.execPulseConfig o s
  | .pulseAnchorOnce o => Sys2Proof.Machine.execPulseAnchorOnce o s
  | .pulseAnchorTrack o => Sys2Proof.Machine.execPulseAnchorTrack o s
  | .pulseAnchorStop o => Sys2Proof.Machine.execPulseAnchorStop o s
  | .eventConfig o => Sys2Proof.Machine.execEventConfig o s
  | .intervalStartSingle o => Sys2Proof.Machine.execIntervalStartSingle o s
  | .intervalStartRepeat o => Sys2Proof.Machine.execIntervalStartRepeat o s
  | .intervalStartAbort o => Sys2Proof.Machine.execIntervalStartAbort o s
  | .linkConfig o => Sys2Proof.Machine.execLinkConfig o s
  | .linkCalSetExt o => Sys2Proof.Machine.execLinkCalSetExt o s
  | .linkCalLoopback o => Sys2Proof.Machine.execLinkCalLoopback o s
  | .linkCalRebase o => Sys2Proof.Machine.execLinkCalRebase o s
  | .taskAssign o => Sys2Proof.Machine.execTaskAssign o s
  | .taskMove o => Sys2Proof.Machine.execTaskMove o s
  | .taskParam o => Sys2Proof.Machine.execTaskParam o s
  | .shimRead o => Sys2Proof.Machine.execShimRead o s
  | .shimTxnWrite o dma => Sys2Proof.Machine.execShimTxnWrite o dma s
  | .shimTxnVerify o => Sys2Proof.Machine.execShimTxnVerify o s
  | .shimTxnInvalidate o => Sys2Proof.Machine.execShimTxnInvalidate o s
  | .shimTxnSettings o => Sys2Proof.Machine.execShimTxnSettings o s
  | .peatRead o => Sys2Proof.Machine.execPeatRead o s
  | .peatArchiveArm o => Sys2Proof.Machine.execPeatArchiveArm o s
  | .peatArchiveCommit o => Sys2Proof.Machine.execPeatArchiveCommit o s
  | .monConfig o => Sys2Proof.Machine.execMonConfig o s
  | .monSnapshot o => Sys2Proof.Machine.execMonSnapshot o s
  | .hierForward o descs => Sys2Proof.Machine.execHierForward o descs s
  | .hierDiscoverLocal o => Sys2Proof.Machine.execHierDiscoverLocal o s
  | .hierDiscoverPtp o => Sys2Proof.Machine.execHierDiscoverPtp o s
  | .hierDiscoverScan o => Sys2Proof.Machine.execHierDiscoverScan o s
  | .hierDiscoverAssign o => Sys2Proof.Machine.execHierDiscoverAssign o s
  | .halfPowerOff o => Sys2Proof.Machine.execHalfPowerOff o s
  | .halfPowerOn o => Sys2Proof.Machine.execHalfPowerOn o s
  | .selftestReed o => Sys2Proof.Machine.execSelftestReed o s
  | .selftestLane o => Sys2Proof.Machine.execSelftestLane o s
  | .selftestRoot o => Sys2Proof.Machine.execSelftestRoot o s
  | .selftestHalf o => Sys2Proof.Machine.execSelftestHalf o s
  | .selftestImage o => Sys2Proof.Machine.execSelftestImage o s
  | .selftestLink o => Sys2Proof.Machine.execSelftestLink o s
  | .selftestComplete v => Sys2Proof.Machine.execSelftestComplete v s
  | .commandDoorbell q v cyc => Sys2Proof.Machine.execCommandDoorbell q v cyc s
  | .consumerDoorbell r v => Sys2Proof.Machine.execConsumerDoorbell r v s
  | .descriptorFetch q d => Sys2Proof.Machine.execDescriptorFetch q d s
  | .fastRingDescriptor q d cyc => Sys2Proof.Machine.execFastRingDescriptor q d cyc s
  | .descriptorReadError q addr timeout => Sys2Proof.Machine.execDescriptorReadError q addr timeout s
  | .ringEnable m r v => Sys2Proof.Machine.execRingEnable m r v s
  | .ringDisable m r v => Sys2Proof.Machine.execRingDisable m r v s
  | .commandRingDrained q => Sys2Proof.Machine.execCommandRingDrained q s
  | .coalesceTimeout r => Sys2Proof.Machine.execCoalesceTimeout r s
  | .msixUnmask v => Sys2Proof.Machine.execMsixUnmask v s
  | .endpointReset k => Sys2Proof.Machine.execEndpointReset k s
  | .endpointReady => Sys2Proof.Machine.execEndpointReady s
  | .registerWrite m bar off size v => Sys2Proof.Machine.execRegisterWrite m bar off size v s
  | .aliasWrite m off v => Sys2Proof.Machine.execAliasWrite m off v s
  | .eventStatusAck m r v => Sys2Proof.Machine.execEventStatusAck m r v s
  | .clkDllEvtAck m j v => Sys2Proof.Machine.execClkDllEvtAck m j v s
  | .domEvtAck m d v => Sys2Proof.Machine.execDomEvtAck m d v s
  | .fltEvtAck m v => Sys2Proof.Machine.execFltEvtAck m v s
  | .fltSafeAck m v => Sys2Proof.Machine.execFltSafeAck m v s
  | .fltDegLnkAck m j v => Sys2Proof.Machine.execFltDegLnkAck m j v s
  | .fltPinRelease m => Sys2Proof.Machine.execFltPinRelease m s
  | .fltPinHoldWrite m hold => Sys2Proof.Machine.execFltPinHoldWrite m hold s
  | .topVioClr m v => Sys2Proof.Machine.execTopVioClr m v s
  | .topResetWrite m v cyc => Sys2Proof.Machine.execTopResetWrite m v cyc s
  | .mbxReq m ix => Sys2Proof.Machine.execMbxReq m ix s
  | .mbxSnapshotValid ix => Sys2Proof.Machine.execMbxSnapshotValid ix s
  | .mbxData3Read m ix => Sys2Proof.Machine.execMbxData3Read m ix s
  | .spiReadTransaction cmd crc clocks => Sys2Proof.Machine.execSpiReadTransaction cmd crc clocks s
  | .spiWriteTransaction cmd crc data dcrc clocks => Sys2Proof.Machine.execSpiWriteTransaction cmd crc data dcrc clocks s
  | .shimLdrOfsWrite m v => Sys2Proof.Machine.execShimLdrOfsWrite m v s
  | .shimLdrDataWrite m v => Sys2Proof.Machine.execShimLdrDataWrite m v s
  | .shimLdrVerify m => Sys2Proof.Machine.execShimLdrVerify m s
  | .loaderVerifyDone => Sys2Proof.Machine.execLoaderVerifyDone s
  | .journalTransaction upto => Sys2Proof.Machine.execJournalTransaction upto s
  | .scrubGroupRead e => Sys2Proof.Machine.execScrubGroupRead e s
  | .profileAutostart => Sys2Proof.Machine.execProfileAutostart s
  | .hourCounterTick => Sys2Proof.Machine.execHourCounterTick s
  | .tick1ms m => Sys2Proof.Machine.execTick1ms m s
  | .tick1s => Sys2Proof.Machine.execTick1s s
  | .holdoverTimerExpiry d => Sys2Proof.Machine.execHoldoverTimerExpiry d s
  | .revertiveHoldoffExpiry d => Sys2Proof.Machine.execRevertiveHoldoffExpiry d s
  | .domainSecondMark d => Sys2Proof.Machine.execDomainSecondMark d s
  | .rootLock r => Sys2Proof.Machine.execRootLock r s
  | .rootLockTimeout r => Sys2Proof.Machine.execRootLockTimeout r s
  | .rootFaultDetected r cause => Sys2Proof.Machine.execRootFaultDetected r cause s
  | .rootXJump freq => Sys2Proof.Machine.execRootXJump freq s
  | .jumpAttributed k => Sys2Proof.Machine.execJumpAttributed k s
  | .jumpAttributionTimeout => Sys2Proof.Machine.execJumpAttributionTimeout s
  | .ovenBandEntry => Sys2Proof.Machine.execOvenBandEntry s
  | .ovenBandExit => Sys2Proof.Machine.execOvenBandExit s
  | .tbWarmRise => Sys2Proof.Machine.execTbWarmRise s
  | .ovenWarmupLimit => Sys2Proof.Machine.execOvenWarmupLimit s
  | .ladderLock k => Sys2Proof.Machine.execLadderLock k s
  | .ladderLossOfLock k => Sys2Proof.Machine.execLadderLossOfLock k s
  | .dllLock n err held => Sys2Proof.Machine.execDllLock n err held s
  | .dllLossOfLock n err lost => Sys2Proof.Machine.execDllLossOfLock n err lost s
  | .eventEdge n rising st => Sys2Proof.Machine.execEventEdge n rising st s
  | .eventWidthEnd n width => Sys2Proof.Machine.execEventWidthEnd n width s
  | .streamRecordDma n burst => Sys2Proof.Machine.execStreamRecordDma n burst s
  | .frontEndBlankEnd f => Sys2Proof.Machine.execFrontEndBlankEnd f s
  | .ivuStartEdge u rising st => Sys2Proof.Machine.execIvuStartEdge u rising st s
  | .ivuStopEdge u rising st => Sys2Proof.Machine.execIvuStopEdge u rising st s
  | .ivuWindowTimeout u => Sys2Proof.Machine.execIvuWindowTimeout u s
  | .ivuStartWaitExpired u => Sys2Proof.Machine.execIvuStartWaitExpired u s
  | .refPulseEdge k st width => Sys2Proof.Machine.execRefPulseEdge k st width s
  | .todSentence ix txt cyc => Sys2Proof.Machine.execTodSentence ix txt cyc s
  | .irigFrame k st widths => Sys2Proof.Machine.execIrigFrame k st widths s
  | .refqSample k edges => Sys2Proof.Machine.execRefqSample k edges s
  | .refLossDetected k => Sys2Proof.Machine.execRefLossDetected k s
  | .qualifyTimerExpiry k => Sys2Proof.Machine.execQualifyTimerExpiry k s
  | .requalifyTimerExpiry k => Sys2Proof.Machine.execRequalifyTimerExpiry k s
  | .outputBoundary n => Sys2Proof.Machine.execOutputBoundary n s
  | .pulseGridInstant n => Sys2Proof.Machine.execPulseGridInstant n s
  | .pulseAnchorEdge n rising st => Sys2Proof.Machine.execPulseAnchorEdge n rising st s
  | .anchorLostTimeout n => Sys2Proof.Machine.execAnchorLostTimeout n s
  | .anchorOnceTimeout n => Sys2Proof.Machine.execAnchorOnceTimeout n s
  | .tmarkSend n st => Sys2Proof.Machine.execTmarkSend n st s
  | .techoSend n st => Sys2Proof.Machine.execTechoSend n st s
  | .statFrameSend n => Sys2Proof.Machine.execStatFrameSend n s
  | .mgmtSegmentSend n => Sys2Proof.Machine.execMgmtSegmentSend n s
  | .tmarkReceived n frame st => Sys2Proof.Machine.execTmarkReceived n frame st s
  | .techoReceived n frame st => Sys2Proof.Machine.execTechoReceived n frame st s
  | .todFrameReceived n frame => Sys2Proof.Machine.execTodFrameReceived n frame s
  | .statFrameReceived n frame => Sys2Proof.Machine.execStatFrameReceived n frame s
  | .mgmtSegmentReceived n frame => Sys2Proof.Machine.execMgmtSegmentReceived n frame s
  | .blockLock n => Sys2Proof.Machine.execBlockLock n s
  | .blockLockLost n => Sys2Proof.Machine.execBlockLockLost n s
  | .receiverSignalLost n => Sys2Proof.Machine.execReceiverSignalLost n s
  | .marksMissingTimeout n => Sys2Proof.Machine.execMarksMissingTimeout n s
  | .echoMissing n => Sys2Proof.Machine.execEchoMissing n s
  | .mgmtResendTimeout n => Sys2Proof.Machine.execMgmtResendTimeout n s
  | .mgmtMessageTimeout n => Sys2Proof.Machine.execMgmtMessageTimeout n s
  | .loopbackComplete n => Sys2Proof.Machine.execLoopbackComplete n s
  | .sbxScan c bits => Sys2Proof.Machine.execSbxScan c bits s
  | .i2cModulePoll n dev data => Sys2Proof.Machine.execI2cModulePoll n dev data s
  | .announceSend => Sys2Proof.Machine.execAnnounceSend s
  | .announceReceived => Sys2Proof.Machine.execAnnounceReceived s
  | .discoverSend => Sys2Proof.Machine.execDiscoverSend s
  | .discoverReceived => Sys2Proof.Machine.execDiscoverReceived s
  | .reportSend => Sys2Proof.Machine.execReportSend s
  | .reportReceived => Sys2Proof.Machine.execReportReceived s
  | .assignReceived => Sys2Proof.Machine.execAssignReceived s
  | .descReceived => Sys2Proof.Machine.execDescReceived s
  | .complSend => Sys2Proof.Machine.execComplSend s
  | .complReceived => Sys2Proof.Machine.execComplReceived s
  | .hierForwardTimeout tag => Sys2Proof.Machine.execHierForwardTimeout tag s
  | .scanComplete => Sys2Proof.Machine.execScanComplete s
  | .managerSilentTimeout => Sys2Proof.Machine.execManagerSilentTimeout s
  | .lowestTupleTimeout => Sys2Proof.Machine.execLowestTupleTimeout s
  | .ptpEventMessage n e st => Sys2Proof.Machine.execPtpEventMessage n e st s
  | .ptpSyncReceived n st origin resp => Sys2Proof.Machine.execPtpSyncReceived n st origin resp s
  | .ptpSyncTimeout n => Sys2Proof.Machine.execPtpSyncTimeout n s
  | .esmcPduSend n => Sys2Proof.Machine.execEsmcPduSend n s
  | .esmcEventPduSend n => Sys2Proof.Machine.execEsmcEventPduSend n s
  | .esmcPduReceived n ql => Sys2Proof.Machine.execEsmcPduReceived n ql s
  | .esmcAbsentTimeout n => Sys2Proof.Machine.execEsmcAbsentTimeout n s
  | .checkpointWrite t x => Sys2Proof.Machine.execCheckpointWrite t x s
  | .taskMoveAtCheckpoint t => Sys2Proof.Machine.execTaskMoveAtCheckpoint t s
  | .reedSramError n => Sys2Proof.Machine.execReedSramError n s
  | .reedHeartbeatTimeout n => Sys2Proof.Machine.execReedHeartbeatTimeout n s
  | .reedTrap n => Sys2Proof.Machine.execReedTrap n s
  | .reedDebugHalt n => Sys2Proof.Machine.execReedDebugHalt n s
  | .reedDebugResume n => Sys2Proof.Machine.execReedDebugResume n s
  | .taskRestored t bad0 bad1 => Sys2Proof.Machine.execTaskRestored t bad0 bad1 s
  | .halfLost h => Sys2Proof.Machine.execHalfLost h s
  | .halfPowerOffDone => Sys2Proof.Machine.execHalfPowerOffDone s
  | .halfPowerOnDone => Sys2Proof.Machine.execHalfPowerOnDone s
  | .wardenHeartbeatTimeout fetchErr => Sys2Proof.Machine.execWardenHeartbeatTimeout fetchErr s
  | .wardenRelease w => Sys2Proof.Machine.execWardenRelease w s
  | .chargeClaim a b => Sys2Proof.Machine.execChargeClaim a b s
  | .splitCharge => Sys2Proof.Machine.execSplitCharge s
  | .reservationAgeTimeout c => Sys2Proof.Machine.execReservationAgeTimeout c s
  | .eventTaskRecord e => Sys2Proof.Machine.execEventTaskRecord e s
  | .recoveryStabilityTimeout => Sys2Proof.Machine.execRecoveryStabilityTimeout s
  | .faultMessage => Sys2Proof.Machine.execFaultMessage s
  | .collectorOverflowReport => Sys2Proof.Machine.execCollectorOverflowReport s
  | .faultNTimerExpiry => Sys2Proof.Machine.execFaultNTimerExpiry s
  | .fatalDump => Sys2Proof.Machine.execFatalDump s
  | .paritySweep bad => Sys2Proof.Machine.execParitySweep bad s
  | .monSample u => Sys2Proof.Machine.execMonSample u s
  | .monWindowClose u => Sys2Proof.Machine.execMonWindowClose u s
  | .vinRise mv => Sys2Proof.Machine.execVinRise mv s
  | .vinFall mv => Sys2Proof.Machine.execVinFall mv s
  | .enHigh => Sys2Proof.Machine.execEnHigh s
  | .enLow => Sys2Proof.Machine.execEnLow s
  | .railRetryTimeout => Sys2Proof.Machine.execRailRetryTimeout s
  | .bootEnd => Sys2Proof.Machine.execBootEnd s
  | .pfailAssert mv => Sys2Proof.Machine.execPfailAssert mv s
  | .pfailDeassert mv => Sys2Proof.Machine.execPfailDeassert mv s
  | .vinOvervoltage mv => Sys2Proof.Machine.execVinOvervoltage mv s
  | .converterPhaseLost h => Sys2Proof.Machine.execConverterPhaseLost h s
  | .thermalWarn ix t => Sys2Proof.Machine.execThermalWarn ix t s
  | .thermalTrip ix t => Sys2Proof.Machine.execThermalTrip ix t s
  | .thermalAutoRestart temps => Sys2Proof.Machine.execThermalAutoRestart temps s
  | .receiverSignalDetected n => Sys2Proof.Machine.execReceiverSignalDetected n s
  | .rootRelationValid => Sys2Proof.Machine.execRootRelationValid s
  | .pulseEnd n => Sys2Proof.Machine.execPulseEnd n s
  | .thermalWarnClear temps => Sys2Proof.Machine.execThermalWarnClear temps s
  | .converterPhaseRestored h => Sys2Proof.Machine.execConverterPhaseRestored h s
  | .railRetryWaitExpiry => Sys2Proof.Machine.execRailRetryWaitExpiry s
  | .vddpBankMeasurement mv => Sys2Proof.Machine.execVddpBankMeasurement mv s
  | .ptpAnnounceReceived n d => Sys2Proof.Machine.execPtpAnnounceReceived n d s
  | .ptpAnnounceReceiptTimeout n => Sys2Proof.Machine.execPtpAnnounceReceiptTimeout n s

end Sys2Proof.Machine
end

