-- ==== Sys2Proof/Safety.lean ====
section
/-!
DEFINITION. What a safe step and a well-kept hub are, in the terms the statements use: the Shim store's memory in canonical
form inside its 4 MiB, the bounded queues within their bounds, the steps that answer, and what a command may touch: the
parts of the hub, and the instances of its banks, outside which nothing changes.
-/

namespace Sys2Proof.Machine

/-- The Shim store's memory is in canonical form (R371). -/
def Hub.shimOk (h : Hub) : Prop := Memory.wf h.shim.mem = true

/-- The collector's input queue holds at most 64 messages and its history at most 256 (R406, R407). -/
def Hub.collectorOk (h : Hub) : Prop := h.flt.queue.length ≤ 64 ∧ h.flt.history.length ≤ 256

/-- Every event channel's queue holds at most 4,096 records (R84). -/
def Hub.queuesOk (h : Hub) : Prop := ∀ n : Fin 64, h.evts[n].queue.length ≤ 4096

/-- The descriptors in progress stand in the order of their numbers, all of them below the next number to be given. -/
def Hub.idsOk (h : Hub) : Prop :=
  (h.host.inflight.map (·.id)).Pairwise (· < ·) ∧ ∀ d ∈ h.host.inflight, d.id < h.host.nextId

/-- The warden in charge is about to apply descriptor d of origin o: it is the next of its origin, and none of the checks
before its payload stops it (R37, R38, R274, R340). -/
structure Hub.Serves (h : Hub) (o : Origin) (d : Desc) : Prop where
  ids : h.idsOk
  next : h.nextDesc o = some d
  charge : h.inCharge = true
  runs : h.runs = true
  gate : h.gate d = none

/-- The completion of descriptor d of ring q has been written: d is no longer in progress, and its 32 bytes with status st
and result r are among what the hub wrote to the host (R335). -/
def Hub.Posted (t : Hub) (d : Desc) (st : Status) (r : BitVec 192) : Prop :=
  (∀ e ∈ t.host.inflight, e.id ≠ d.id) ∧ ∃ a, BusOp.write a (completionBytes t.isSafe false d st r) ∈ t.bus

/-- The event-status register that a name stands for (R356). -/
def Hub.evtOf (h : Hub) : EvtReg → Evt
  | .root => h.clk.rootEvt | .rotSat => h.clk.rotSat | .evt n => h.evts[n].evt | .ivu u => h.ivus[u].evt | .tdc => h.tdc.evt
  | .ref k => h.refs[k].evt | .clkout n => h.outs[n].evt | .pls n => h.plss[n].evt | .lnk n => h.links[n].evt
  | .hier => h.hier.evt | .reed => h.comp.evt | .charge => h.comp.cevt | .shim => h.shim.evt | .cal => h.cal.evt
  | .mon j => h.mons.evt[j] | .pwr => h.pwr.evt

/-- A step answers a next state: it neither faults nor refuses. -/
def Answers (s : State) : Prop := ∃ t, step s = .next t

/-! ## The parts of the hub -/

/-- The parts of the hub that are no bank of instances. `now` is the count of time; `books` the descriptors in progress,
what is kept of them, and whose turn it is; `parity` what the parity checker keeps; `runs` the DESC messages being run; `store` the bytes of the Shim store with their poison and
errors; `profile` the profile being run; `collector` the queue of fault messages and what was lost. -/
inductive Part where
  | top | parity | pwr | now | clk | dllEvt
  | hostRegs | cmdRings | cplRings | telRings | strRings | msix | books
  | spi | tdc | banks | hier | hierEvt | runs | comp
  | store | counters | profile | shimEvt | shim | cal
  | collector | fltEvt | flt | mons | bus | wire | free
deriving DecidableEq, Repr

/-- What a command may change: parts, and instances of the banks. -/
structure Touch where
  parts : List Part := []
  evts : Fin 64 → Prop := fun _ => False
  ivus : Fin 32 → Prop := fun _ => False
  refs : Fin 12 → Prop := fun _ => False
  doms : Fin 16 → Prop := fun _ => False
  outs : Fin 96 → Prop := fun _ => False
  plss : Fin 64 → Prop := fun _ => False
  links : Fin 48 → Prop := fun _ => False
  dlls : Fin 96 → Prop := fun _ => False
  mbx : Fin 4 → Prop := fun _ => False
  tasks : Fin 126 → Prop := fun _ => False
  reeds : Fin 192 → Prop := fun _ => False
  evTasks : Fin 32 → Prop := fun _ => False
  ptp : Fin 48 → Prop := fun _ => False
  units : Fin 32 → Prop := fun _ => False

/-- Every instance of a bank. -/
def any {n : Nat} : Fin n → Prop := fun _ => True

/-- What a part holds: `store` of the Shim block, and so on for the parts that share a block; `rest` is the block with its
other parts blanked. -/
def Top.rest (x : Top) : Top := { x with parCount := 0, parOffset := 0, parBad := [] }
def Clk.rest (c : Clk) : Clk := { c with cycles := 0, pos := 0, nomTime := 0 }
def HostIf.regs (x : HostIf) : Bool × Reg × Reg × Reg × Reg × BitVec 16 × Vector (BitVec 8) 167 × Vector Bool 167 :=
  (x.ready, x.idxLo, x.idxHi, x.dumpLo, x.dumpHi, x.dumpSize, x.vector, x.spi)
def HostIf.books (x : HostIf) :
    List Desc × List (Nat × Status × BitVec 192) × Nat × Vector Nat 16 × Vector Nat 16 × Vector Nat 16 × Vector Nat 16 × Fin 16 :=
  (x.inflight, x.held, x.nextId, x.hostLat, x.effLat, x.hostN, x.effN, x.turn)
def Hier.rest (x : Hier) : Hier := { x with evt := {}, runs := Vector.replicate 4 none, runsWait := [], ptp := Vector.replicate 48 {} }
def Comp.rest (x : Comp) : Comp :=
  { x with reeds := Vector.replicate 192 {}, tasks := Vector.replicate 126 {}, evTasks := Vector.replicate 32 {} }
def Shim.store (x : Shim) : List Host.Cell × List Nat × List (Nat × GroupErr) := (x.mem, x.poison, x.damage)
def Shim.profile (x : Shim) : BitVec 2 × BitVec 2 × Nat × Nat × Option (List DescWord) × Nat × Option Nat :=
  (x.profResult, x.profSlot, x.profFailed, x.profFirst, x.profRun, x.profAt, x.profCur)
def Shim.rest (x : Shim) : Shim :=
  { x with
    mem := [], poison := [], damage := [], counters := Vector.replicate 256 0, profResult := 0, profSlot := 0, profFailed := 0
    profFirst := 0, profRun := none, profAt := 0, profCur := none, evt := {} }
def Flt.collector (x : Flt) : List Stamped × Nat × Nat := (x.queue, x.lost, x.lostRun)
def Flt.rest (x : Flt) : Flt := { x with queue := [], lost := 0, lostRun := 0, evt := {} }
def Mons.rest (x : Mons) : Vector Evt 2 × Reg := (x.evt, x.irq)

/-- t differs from h only in what A names. -/
structure Only (A : Touch) (h t : Hub) : Prop where
  top : .top ∈ A.parts ∨ t.top.rest = h.top.rest
  parity : .parity ∈ A.parts ∨ (t.top.parCount, t.top.parOffset, t.top.parBad) = (h.top.parCount, h.top.parOffset, h.top.parBad)
  pwr : .pwr ∈ A.parts ∨ t.pwr = h.pwr
  now : .now ∈ A.parts ∨ (t.clk.cycles, t.clk.pos, t.clk.nomTime) = (h.clk.cycles, h.clk.pos, h.clk.nomTime)
  clk : .clk ∈ A.parts ∨ t.clk.rest = h.clk.rest
  dllEvt : .dllEvt ∈ A.parts ∨ t.dllEvt = h.dllEvt
  hostRegs : .hostRegs ∈ A.parts ∨ t.host.regs = h.host.regs
  cmdRings : .cmdRings ∈ A.parts ∨ t.host.cmd = h.host.cmd
  cplRings : .cplRings ∈ A.parts ∨ t.host.cpl = h.host.cpl
  telRings : .telRings ∈ A.parts ∨ t.host.tel = h.host.tel
  strRings : .strRings ∈ A.parts ∨ t.host.str = h.host.str
  msix : .msix ∈ A.parts ∨ t.host.msix = h.host.msix
  books : .books ∈ A.parts ∨ t.host.books = h.host.books
  spi : .spi ∈ A.parts ∨ t.spi = h.spi
  tdc : .tdc ∈ A.parts ∨ t.tdc = h.tdc
  banks : .banks ∈ A.parts ∨ t.banks = h.banks
  hier : .hier ∈ A.parts ∨ t.hier.rest = h.hier.rest
  hierEvt : .hierEvt ∈ A.parts ∨ t.hier.evt = h.hier.evt
  runs : .runs ∈ A.parts ∨ (t.hier.runs, t.hier.runsWait) = (h.hier.runs, h.hier.runsWait)
  comp : .comp ∈ A.parts ∨ t.comp.rest = h.comp.rest
  store : .store ∈ A.parts ∨ t.shim.store = h.shim.store
  counters : .counters ∈ A.parts ∨ t.shim.counters = h.shim.counters
  profile : .profile ∈ A.parts ∨ t.shim.profile = h.shim.profile
  shimEvt : .shimEvt ∈ A.parts ∨ t.shim.evt = h.shim.evt
  shim : .shim ∈ A.parts ∨ t.shim.rest = h.shim.rest
  cal : .cal ∈ A.parts ∨ t.cal = h.cal
  collector : .collector ∈ A.parts ∨ t.flt.collector = h.flt.collector
  fltEvt : .fltEvt ∈ A.parts ∨ t.flt.evt = h.flt.evt
  flt : .flt ∈ A.parts ∨ t.flt.rest = h.flt.rest
  mons : .mons ∈ A.parts ∨ t.mons.rest = h.mons.rest
  bus : .bus ∈ A.parts ∨ t.bus = h.bus
  wire : .wire ∈ A.parts ∨ t.wire = h.wire
  free : .free ∈ A.parts ∨ t.free = h.free
  evts : ∀ k, A.evts k ∨ t.evts[k] = h.evts[k]
  ivus : ∀ k, A.ivus k ∨ t.ivus[k] = h.ivus[k]
  refs : ∀ k, A.refs k ∨ t.refs[k] = h.refs[k]
  doms : ∀ k, A.doms k ∨ t.doms[k] = h.doms[k]
  outs : ∀ k, A.outs k ∨ t.outs[k] = h.outs[k]
  plss : ∀ k, A.plss k ∨ t.plss[k] = h.plss[k]
  links : ∀ k, A.links k ∨ t.links[k] = h.links[k]
  dlls : ∀ k, A.dlls k ∨ t.dlls[k] = h.dlls[k]
  mbx : ∀ k, A.mbx k ∨ t.mbx[k] = h.mbx[k]
  tasks : ∀ k, A.tasks k ∨ t.comp.tasks[k] = h.comp.tasks[k]
  reeds : ∀ k, A.reeds k ∨ t.comp.reeds[k] = h.comp.reeds[k]
  evTasks : ∀ k, A.evTasks k ∨ t.comp.evTasks[k] = h.comp.evTasks[k]
  ptp : ∀ k, A.ptp k ∨ t.hier.ptp[k] = h.hier.ptp[k]
  units : ∀ k, A.units k ∨ t.mons.unit[k] = h.mons.unit[k]

/-- What a command does in every state: it answers, takes nothing from the queue, and touches only what A names. -/
def Frame (c : Instr) (A : Touch) : Prop :=
  ∀ s : State, ∃ t, exec c s = .next t ∧ t.pending = s.pending ∧ Only A s.toHub t.toHub

/-- The parts in which a descriptor is applied and completed, wherever it comes from: a refusal may set HIER_EVT.denied. -/
def descParts : List Part := [.cplRings, .msix, .books, .hierEvt, .runs, .profile, .shimEvt, .bus]

/-- The part that a ring belongs to. -/
def ringPart : RingId → Part
  | .cmd _ => .cmdRings
  | .cpl _ => .cplRings
  | .tel _ => .telRings
  | .str _ => .strRings

end Sys2Proof.Machine
end

