-- ==== Sys2Proof/Certificates/Slice0/Obligations.lean ====
section
/-!
DEFINITION. The statements about the hub: what each command does where the spec says it executes, what it leaves alone,
and what every step keeps. A statement of a command's effect concludes that exec answers a next state, under hypotheses on
the state and the operands alone. Frame, Only and Touch are in Safety.lean.
-/

set_option Elab.async false

open Sys2Proof Sys2Proof.Machine

/-! ## The host interface (chapter 10) -/

/-- R338, R343: the warden in charge completes a NOP, and a READ_TIME with the time of its domain at L, the cycle the row
carries; the completion goes to the ring the descriptor stood on. R342, R334, R340: the descriptor at C of an enabled ring is
taken, on the ring's turn, when its index is C's and its header is good: it is in progress, newest, C has moved by one and been
written back, and the turn goes to the next ring. R343, R344: a NOP or READ_TIME of a fast ring completes at once, with no warden,
its fast bit set. Each of nop, readTime, descriptorFetch and fastRingDescriptor is so said to complete. Of the model's own choices
it rests on logs 4, 20 and 64. -/
def Obligations.HostDescriptorsFetchedAndServed : Prop :=
 (∀ (o : Origin) (d : Desc) (s : State), s.Serves o d → d.opcode = 0x01 →
    ∃ t, exec (.nop o) s = .next t ∧ ∀ q, o = .ring q → d.discard = false → t.Posted d .ok 0) ∧
 (∀ (o : Origin) (d : Desc) (s : State) (cyc : Nat) (m : Fin 16), s.Serves o d → d.opcode = 0x02 →
    fld d.payload 0 4 = m.val →
    ∃ t, exec (.readTime o cyc) s = .next t ∧ ∀ q, o = .ring q → d.discard = false →
      ∃ r, t.Posted d .ok r ∧ r.extractLsb' 0 128 = (advanceTo cyc s.toHub).fullTime m) ∧
 (∀ (s : State) (q : Fin 16) (d : DescWord), s.mayFetch q = true → s.host.cmd[q].fast = false → s.wardenFetches = true →
    (s.hasWork q = true → s.fetchTurn = some q) → dwHeaderOk d = true → dwIndex d = s.host.cmd[q].cons →
    ∃ t, exec (.descriptorFetch q d) s = .next t ∧ t.host.cmd[q].cons = s.host.cmd[q].cons + 1 ∧
      t.host.inflight = s.host.inflight ++ [mkDesc s.host.nextId (.ring q) s.host.cmd[q].bellOf d] ∧
      t.host.nextId = s.host.nextId + 1 ∧ t.host.turn = q + 1 ∧
      t.bus = .write (baseAddr s.host.idxLo s.host.idxHi + BitVec.ofNat 64 (4 * q.val))
        (leBytes 4 (s.host.cmd[q].cons + 1).toNat) :: s.bus) ∧
 (∀ (s : State) (q : Fin 16) (d : DescWord) (cyc : Nat), s.mayFetch q = true → s.host.cmd[q].fast = true →
    dwHeaderOk d = true → dwIndex d = s.host.cmd[q].cons → (dwOpcode d = 0x01 ∨ dwOpcode d = 0x02) →
    ∃ t, exec (.fastRingDescriptor q d cyc) s = .next t ∧ t.host.cmd[q].cons = s.host.cmd[q].cons + 1 ∧
      t.host.inflight = s.host.inflight ∧
      ∃ a r, BusOp.write a (completionBytes t.isSafe true (mkDesc 0 (.ring q) s.host.cmd[q].bellOf d) .ok r) ∈ t.bus ∧
        (dwOpcode d = 0x01 → r = 0) ∧
        ∀ m : Fin 16, dwOpcode d = 0x02 → fld (dwPayload d) 0 4 = m.val →
          r.extractLsb' 0 128 = (advanceTo cyc s.toHub).fullTime m)

/-- R328, R329: a doorbell with a consistent index moves the ring's index; a command ring's keeps when it arrived. R329: an
inconsistent doorbell of an open ring changes no ring, and BAD_DESCRIPTOR with the doorbell's offset goes to the collector. Each of
commandDoorbell and consumerDoorbell is so said to complete. Of the model's own choices it rests on log 64. -/
def Obligations.DoorbellsMoveIndexes : Prop :=
 (∀ (s : State) (v : Reg), s.linkUp = true →
    (∀ (q : Fin 16) (cyc : Nat), s.host.cmd[q].open_ = true → s.host.cmd[q].takesProd (v.extractLsb' 0 16) = true →
      ∃ t, exec (.commandDoorbell q v cyc) s = .next t ∧ t.host.cmd[q].prod = v.extractLsb' 0 16 ∧
        t.host.cmd[q].cons = s.host.cmd[q].cons ∧ (∀ k, k ≠ q → t.host.cmd[k] = s.host.cmd[k]) ∧
        (v.extractLsb' 0 16 ≠ s.host.cmd[q].prod →
          t.host.cmd[q].bells = s.host.cmd[q].bells ++ [(v.extractLsb' 0 16, t.clk.cycles)])) ∧
    (∀ r : RingId, (∀ q, r ≠ .cmd q) → (s.ring r).open_ = true → (s.ring r).takesCons (v.extractLsb' 0 16) = true →
      ∃ t, exec (.consumerDoorbell r v) s = .next t ∧ (t.ring r).cons = v.extractLsb' 0 16 ∧
        (t.ring r).prod = (s.ring r).prod ∧ ∀ k, k ≠ r → t.ring k = s.ring k)) ∧
 (∀ (s : State) (v : Reg) (q : Fin 16), s.linkUp = true → s.flt.queue.length < 64 →
    s.host.cmd[q].takesProd (v.extractLsb' 0 16) = false →
      ∃ t, exec (.commandDoorbell q v 0) s = .next t ∧ t.host.cmd = s.host.cmd ∧
        ∃ m, t.flt.queue = s.flt.queue ++ [m] ∧
          m.msg = { source := 0x310, kind := .badDescriptor, access := 2, master := 1, address := BitVec.ofNat 32 (4 * q.val) })

/-- R349, R333, R347, R348: a failed descriptor read stops its ring in ERROR and reports the address; a drained ring becomes
DISABLED; when coal_us has passed since the first entry that waits to be signalled, those that wait are signalled on the vector of
the ring's interrupt source; an unmasked vector sends its pending message. R325, R457: an endpoint reset clears the host block, so
that every ring is DISABLED, and the descriptors in progress run on with their ring completions discarded; the interrupt pins' spi
bits stay. ENDPOINT_READY opens the endpoint again. Each of descriptorReadError, commandRingDrained, coalesceTimeout, msixUnmask,
endpointReset and endpointReady is so said to complete. Of the model's own choices it rests on logs 64 and 65. -/
def Obligations.RingsAndEndpoint : Prop :=
 (∀ (s : State) (q : Fin 16) (a : BitVec 64) (b : Bool), s.mayFetch q = true →
    (s.host.cmd[q].fast = true ∨ s.wardenFetches = true) → a = s.host.cmd[q].entryAddr s.host.cmd[q].cons 64 →
    s.flt.queue.length < 64 →
    ∃ t, exec (.descriptorReadError q a b) s = .next t ∧ t.host.cmd[q] = { s.host.cmd[q] with state := .error } ∧
      ∃ m, t.flt.queue = s.flt.queue ++ [m] ∧ m.msg.source = 0x310 ∧
        m.msg.kind = (if b then .timeout else .poisonRead) ∧ m.msg.address = BitVec.ofNat 32 (a.toNat % 2 ^ 32)) ∧
 (∀ (s : State) (q : Fin 16), s.runs = true → s.host.cmd[q].state = .draining → s.ringProgress q = 0 →
    ∃ t, exec (.commandRingDrained q) s = .next t ∧ t.host.cmd[q] = { s.host.cmd[q] with state := .disabled } ∧
      ∀ k, k ≠ q → t.host.cmd[k] = s.host.cmd[k]) ∧
 (∀ (s : State) (r : RingId) (h : Hub), (∀ q, r ≠ .cmd q) → s.linkUp = true → 0 < (s.ring r).unsignalled →
    (s.rootActive = false ∧ h = s.toHub ∨
      s.rootActive = true ∧ reachCyc ((s.ring r).unsigAt + 1500 * (s.ring r).coalUs.toNat) s.toHub = some h) →
    ∃ t, exec (.coalesceTimeout r) s = .next t ∧ t.ring r = { s.ring r with unsignalled := 0 } ∧
      ∀ (i : Nat) (v : Fin 128), irqOfRing r = some i → (pick s.host.vector i 0xFF).toNat = v.val →
        (s.host.msix[v].masked = true → t.host.msix[v].pend = true) ∧
        (s.host.msix[v].masked = false → t.bus = .msix (BitVec.ofNat 8 v.val) s.host.msix[v].addr s.host.msix[v].data :: s.bus)) ∧
 (∀ (s : State) (v : Fin 128), s.linkUp = true →
    ∃ t, exec (.msixUnmask v) s = .next t ∧ t.host.msix[v] = { s.host.msix[v] with masked := false, pend := false } ∧
      t.bus = (if s.host.msix[v].pend then [BusOp.msix (BitVec.ofNat 8 v.val) s.host.msix[v].addr s.host.msix[v].data] else [])
        ++ s.bus) ∧
 (∀ (s : State) (k : EpReset), s.runs = true → s.inMode .boot = false →
    ∃ t, exec (.endpointReset k) s = .next t ∧ t.host.ready = false ∧ (∀ q : Fin 16, t.host.cmd[q] = {}) ∧
      (∀ c : Fin 16, t.host.cpl[c] = {}) ∧ t.host.spi = s.host.spi ∧ t.mbx[(0 : Fin 4)] = {} ∧
      (∀ d ∈ t.host.inflight, ∀ q, d.origin = .ring q → d.discard = true) ∧
      t.host.inflight.length = s.host.inflight.length) ∧
 (∀ s : State, s.runs = true → s.host.ready = false →
    ∃ t, exec .endpointReady s = .next t ∧ t.host.ready = true ∧ t.top.perst = false)

/-! ## Time and the timing domains (chapters 01 and 05) -/

/-- R12, R13: no full time carries more than 999,999,999 ns; a SET_TIME or STEP_TIME that does is refused with BAD_PARAM and
ns_range in its result; short time is the same instant counted in fu modulo 2^64. -/
def Obligations.TimeValues : Prop :=
  (∀ (i : Int) (m q f : Nat), fld (fullTimeOf i m q f) 48 32 ≤ 999999999 ∧
    (shortOf i).toNat = ((fld (fullTimeOf i m q f) 80 48 * 1000000000 + fld (fullTimeOf i m q f) 48 32) * 65536 +
      fld (fullTimeOf i m q f) 32 16) % 2 ^ 64) ∧
  (∀ (o : Origin) (d : Desc) (s : State) (m : Fin 16) (c : Instr), s.Serves o d → pf d.payload 0 0 8 = m.val →
    999999999 < fld (timeField d.payload) 48 32 → (d.opcode = 0x03 ∧ c = .setTime o ∨ d.opcode = 0x04 ∧ c = .stepTime o) →
    ∃ t, exec c s = .next t ∧ t.doms = s.doms ∧
      ∀ q, o = .ring q → d.discard = false → ∃ r, t.Posted d .badParam r ∧ r.getLsbD 4 = true)

/-- R172, R184, R185: SET_TIME, taken at once where the domain's time is free to change, sets the time, clears tod_unset and the
excluded slots; STEP_TIME moves the time by the signed step. Both mark the domain stepped and leave every other domain alone.
R174: with at_mark a SET_TIME or STEP_TIME whose payload is good waits for the domain's next whole-second mark, behind those
that wait already. Each of setTime and stepTime is so said to complete. Of the model's own choices it rests on log 11. -/
def Obligations.TimeSetAndStepped : Prop :=
 (∀ (o : Origin) (d : Desc) (s : State) (m : Fin 16), s.Serves o d → pf d.payload 0 0 8 = m.val →
    fld (timeField d.payload) 48 32 ≤ 999999999 → pb d.payload 1 0 = false → s.timeRule s.doms[m] = .free →
    (d.opcode = 0x03 → inEpoch (fullToFu (timeField d.payload)) = true →
      ∃ t, exec (.setTime o) s = .next t ∧ t.doms[m].fu = fullToFu (timeField d.payload) ∧
        t.doms[m].todUnset = false ∧ t.doms[m].excluded = 0 ∧ t.doms[m].stepped = true ∧
        (∀ k, k ≠ m → t.doms[k] = s.doms[k]) ∧
        ∀ q, o = .ring q → d.discard = false → ∃ r, t.Posted d .ok r) ∧
    (d.opcode = 0x04 → inEpoch (s.doms[m].fu + stepAmount d.payload) = true →
      0 ≤ s.doms[m].secs * secU + s.doms[m].sub + stepAmount d.payload * fuU →
      ∃ t, exec (.stepTime o) s = .next t ∧ t.doms[m].fu = s.doms[m].fu + stepAmount d.payload ∧
        t.doms[m].todUnset = s.doms[m].todUnset ∧ t.doms[m].stepped = true ∧ (∀ k, k ≠ m → t.doms[k] = s.doms[k]) ∧
        ∀ q, o = .ring q → d.discard = false → ∃ r, t.Posted d .ok r)) ∧
 (∀ (o : Origin) (d : Desc) (s : State) (m : Fin 16), s.Serves o d → pf d.payload 0 0 8 = m.val →
    fld (timeField d.payload) 48 32 ≤ 999999999 → pb d.payload 1 0 = true →
    (d.opcode = 0x03 → inEpoch (fullToFu (timeField d.payload)) = true →
      ∃ t, exec (.setTime o) s = .next t ∧ t.doms[m] = { s.doms[m] with atMark := s.doms[m].atMark ++ [d.id] } ∧
        ∀ k, k ≠ m → t.doms[k] = s.doms[k]) ∧
    (d.opcode = 0x04 → inEpoch (s.doms[m].fu + stepAmount d.payload) = true →
      ∃ t, exec (.stepTime o) s = .next t ∧ t.doms[m] = { s.doms[m] with atMark := s.doms[m].atMark ++ [d.id] } ∧
        ∀ k, k ≠ m → t.doms[k] = s.doms[k]))

/-- R172, R173, R186: SLEW_TIME puts its amount into the Sluice, and into POFS while the domain follows something, as long as
neither passes 1 s. R181, R182: DOMAIN_STEER SET and ADD move DOM_FOFS of a MANUAL domain, at once or by a ramp; R47: while a
root jump is held they wait for the domain's update; HO_TRIM in holdover adds to the model frequency, which is ramped in, and
sets DOM_EVT bit 10. R180, R183: DOMAIN_CONFIG with values in range, and DOMAIN_MODE with any of its actions, wait for the
domain's next update, behind those that wait already; nothing else of the domain changes. Each of slewTime, domainSteerSet,
domainSteerAdd, domainSteerHoTrim, domainConfig, domainModePolicy, domainModeRealign, domainModeClearTracked and
domainModeClearStepped is so said to complete. Of the model's own choices it rests on logs 22 and 72. -/
def Obligations.FrequencySteered : Prop :=
 (∀ (o : Origin) (d : Desc) (s : State) (m : Fin 16) (amount pofs : Int), s.Serves o d → d.opcode = 0x05 →
    pf d.payload 0 0 8 = m.val → amount = (if pb d.payload 1 0 then -(pf d.payload 8 0 64 : Int) else pf d.payload 8 0 64) →
    pofs = (if s.doms[m].state = .acquire ∨ s.doms[m].state = .track then s.doms[m].pofs + amount else s.doms[m].pofs) →
    amount.natAbs ≤ slewMax → pofs.natAbs ≤ slewMax →
      ∃ t, exec (.slewTime o) s = .next t ∧
        t.doms[m] = { s.doms[m] with pofs := pofs, rho := s.doms[m].rho - amount * 10 ^ 6 } ∧
        (∀ k, k ≠ m → t.doms[k] = s.doms[k]) ∧ ∀ q, o = .ring q → d.discard = false → ∃ r, t.Posted d .ok r) ∧
 (∀ (o : Origin) (d : Desc) (s : State) (m : Fin 16), s.Serves o d → d.opcode = 0x11 → pf d.payload 0 0 8 = m.val →
    (∀ (f : Int) (c : Instr), s.clk.jumpHeld = false → s.doms[m].state = .manual → fofsMin ≤ f → f ≤ fofsMax →
      (c = .domainSteerSet o ∧ steerOp d.payload = 0 ∧ f = steerWord d.payload ∨
        c = .domainSteerAdd o ∧ steerOp d.payload = 1 ∧ f = s.doms[m].fofs + steerWord d.payload) →
      ∃ t, exec c s = .next t ∧ (pb d.payload 1 2 = false → t.doms[m].fofs = f ∧ t.doms[m].ramp = none) ∧
        (pb d.payload 1 2 = true → t.doms[m].fofs = s.doms[m].fofs ∧ t.doms[m].ramp = some f) ∧ t.doms[m].state = .manual ∧
        (∀ k, k ≠ m → t.doms[k] = s.doms[k]) ∧ ∀ q, o = .ring q → d.discard = false → ∃ r, t.Posted d .ok r) ∧
    (∀ c : Instr, s.clk.jumpHeld = true →
      (c = .domainSteerSet o ∧ steerOp d.payload = 0 ∨ c = .domainSteerAdd o ∧ steerOp d.payload = 1) →
      ∃ t, exec c s = .next t ∧ t.doms[m] = { s.doms[m] with ops := s.doms[m].ops ++ [.steer d.id d.payload] } ∧
        ∀ k, k ≠ m → t.doms[k] = s.doms[k]) ∧
    (∀ y : Int, (s.doms[m].state = .holdover ∨ s.doms[m].state = .holdoverOut) → steerOp d.payload = 2 →
      y = s.doms[m].y0 + steerWord d.payload → fofsMin ≤ y → y ≤ fofsMax →
      ∃ t, exec (.domainSteerHoTrim o) s = .next t ∧ t.doms[m].y0 = y ∧ t.doms[m].ramp = some y ∧
        t.doms[m].evt.bits.getLsbD 10 = true ∧ t.doms[m].hoTimer = s.doms[m].hoTimer ∧
        (∀ k, k ≠ m → t.doms[k] = s.doms[k]) ∧ ∀ q, o = .ring q → d.discard = false → ∃ r, t.Posted d .ok r)) ∧
 (∀ (o : Origin) (d : Desc) (s : State) (m : Fin 16), s.Serves o d → pf d.payload 0 0 8 = m.val →
    (d.opcode = 0x10 → domConfigBad d.payload = false →
      ∃ t, exec (.domainConfig o) s = .next t ∧
        t.doms[m] = { s.doms[m] with ops := s.doms[m].ops ++ [.config d.id d.payload] } ∧
        ∀ k, k ≠ m → t.doms[k] = s.doms[k]) ∧
    (d.opcode = 0x12 → ∀ c : Instr,
      (c = .domainModePolicy o ∨ c = .domainModeRealign o ∧ pb d.payload 1 4 = true ∨
        c = .domainModeClearTracked o ∧ pb d.payload 1 3 = true ∨ c = .domainModeClearStepped o ∧ pb d.payload 1 5 = true) →
      ∃ t, exec c s = .next t ∧ t.doms[m] = { s.doms[m] with ops := s.doms[m].ops ++ [.mode d.id d.payload] } ∧
        ∀ k, k ≠ m → t.doms[k] = s.doms[k]))

/-- R150, R159, R171: the holdover timer's end is HOLDOVER_OUT with its message; the end of a revertive hold-off makes a change to
its slot due, if that is still usable and still earlier than the one followed; a second mark, where none waits for it, adds one
to the seconds. Each of holdoverTimerExpiry, revertiveHoldoffExpiry and domainSecondMark is so said to complete. Of the model's own
choices it rests on logs 4, 11 and 28. -/
def Obligations.DomainTimers : Prop :=
  (∀ (s : State) (m : Fin 16), s.runs = true → s.doms[m].state = .holdover → s.doms[m].hoTimer = 0 → s.flt.queue.length < 64 →
      ∃ t, exec (.holdoverTimerExpiry m) s = .next t ∧ t.doms[m].state = .holdoverOut ∧
        t.doms[m].evt.bits.getLsbD 4 = true ∧
        ∃ x, t.flt.queue = s.flt.queue ++ [x] ∧ x.msg.kind = .holdoverOut ∧ x.msg.address = BitVec.ofNat 32 m.val) ∧
  (∀ (s : State) (m : Fin 16), s.runs = true → (∃ p ∈ s.doms[m].holds, p.2 = 0) →
      ∃ t, exec (.revertiveHoldoffExpiry m) s = .next t ∧ (∀ k, k ≠ m → t.doms[k] = s.doms[k]) ∧
        t.doms[m].holds = s.doms[m].holds.filter (fun p => p.2 != 0) ∧
        (∀ k : Fin 12, k ∈ t.doms[m].holdDue ↔
          k ∈ s.doms[m].holdDue ∨ (k, 0) ∈ s.doms[m].holds ∧ k ∈ s.earlier s.doms[m]) ∧
        { t.doms[m] with holds := s.doms[m].holds, holdDue := s.doms[m].holdDue } = s.doms[m]) ∧
  (∀ (s : State) (m : Fin 16) (h : Hub), reachDom m ((s.doms[m].secs + 1) * secU) s.toHub = some h → h.runs = true →
    h.rootActive = true → h.doms[m].atMark = [] →
      ∃ t, exec (.domainSecondMark m) s = .next t ∧ t.doms[m].secs = (h.doms[m].secs + 1) % 2 ^ 48 ∧
        t.doms[m].sub = h.doms[m].sub - secU)

/-! ## References (chapter 04) -/

/-- R142, R133, R82, R124, R136, R144: a REF_CONFIG that R142 and R143 do not refuse puts all 48 bytes in force for its slot, and
changes no other slot unless it makes the slot's task, which may shed another: a slot whose enable ends is ABSENT, a changed
front end of an enabled input blanks it and the descriptor waits for that, changed limits of a slot that is not ABSENT wait for its
next sample and the descriptor with them, and a slot that stays ABSENT as it was takes the new REF_DELAY and completes.
REF_PRIORITY's table waits for its swap. R131, R133, R134: the loss of a QUALIFIED reference makes its slot ABSENT with cause 1,
sets REF_EVT bits 0 and 4 and sends REF_LOST; an expired qualify timer makes a slot with a full window QUALIFIED; an expired
requalify timer begins QUALIFYING again with the history kept. Each of refConfig, refPriority, refLossDetected,
qualifyTimerExpiry and requalifyTimerExpiry is so said to complete. Of the model's own choices it rests on logs 28 and 35. -/
def Obligations.ReferenceSlots : Prop :=
 (∀ (o : Origin) (d : Desc) (s : State), s.Serves o d →
    (∀ k : Fin 12, d.opcode = 0x20 → pf d.payload 0 0 8 = k.val → refConfigBad s.toHub k d.payload = false →
      ∃ t, exec (.refConfig o) s = .next t ∧ t.refs[k].cfg = pbytes d.payload 48 ∧
        (s.refs[k].enabled = true ∨ pb d.payload 1 4 = false → ∀ j, j ≠ k → t.refs[j] = s.refs[j]) ∧
        (pb d.payload 1 4 = false → t.refs[k].state = .absent) ∧
        (s.refs[k].enabled = true → pb d.payload 1 4 = true →
          (k.val < 8 → refFront d.payload ≠ refFront s.refs[k].cfg →
            t.refs[k].blank = true ∧ t.refs[k].blankDesc = s.refs[k].blankDesc ++ [d.id]) ∧
          (s.refs[k].state ≠ .absent → refKeys d.payload = refKeys s.refs[k].cfg →
            refLimits d.payload ≠ refLimits s.refs[k].set_ →
            t.refs[k].set_ = s.refs[k].set_ ∧ t.refs[k].setDesc = s.refs[k].setDesc ++ [d.id])) ∧
        (s.refs[k].enabled = pb d.payload 1 4 → s.refs[k].state = .absent → d.id ∉ s.refs[k].blankDesc →
          (k.val < 8 → refFront d.payload = refFront s.refs[k].cfg) →
          t.refs[k].delay = pfs d.payload 22 0 48 ∧ ∀ q, o = .ring q → d.discard = false → ∃ r, t.Posted d .ok r)) ∧
    (∀ m : Fin 16, d.opcode = 0x21 → pf d.payload 0 0 8 = m.val → pf d.payload 2 0 16 ≤ pf d.payload 4 0 16 →
      1 ≤ pf d.payload 4 0 16 → pf d.payload 4 0 16 ≤ 1000 →
      ∃ t, exec (.refPriority o) s = .next t ∧
        t.doms[m] = { s.doms[m] with prioQ := s.doms[m].prioQ ++ [(d.id, pbytes d.payload 24)] } ∧
        ∀ j, j ≠ m → t.doms[j] = s.doms[j])) ∧
 (∀ (s : State) (k : Fin 12), s.runs = true →
    (∀ h : Hub, s.refs[k].enabled = true → s.refs[k].format ≠ 5 → s.refs[k].state = .qualified → s.flt.queue.length < 64 →
      lossDue k s.toHub = some h →
      ∃ t, exec (.refLossDetected k) s = .next t ∧ t.refs[k].state = .absent ∧ t.refs[k].cause = 1 ∧
        t.refs[k].evt.bits.getLsbD 0 = true ∧ t.refs[k].evt.bits.getLsbD 4 = true ∧ t.refs[k].hist = [] ∧
        ∃ m, t.flt.queue = s.flt.queue ++ [m] ∧
          m.msg = { source := BitVec.ofNat 12 (0x200 + k.val), kind := .refLost, access := 0, master := 0, address := 1 }) ∧
    (s.refqRuns k = true → s.refs[k].state = .qualifying → s.refs[k].timer = 0 → s.windowOf s.refs[k] ≤ s.refs[k].k →
      (s.refs[k].todValid = true ∨ s.refs[k].format < 3) →
      ∃ t, exec (.qualifyTimerExpiry k) s = .next t ∧ t.refs[k].state = .qualified ∧ t.refs[k].evt.bits.getLsbD 2 = true ∧
        ∀ j, j ≠ k → t.refs[j] = s.refs[j]) ∧
    (s.refqRuns k = true → s.refs[k].state = .disqualified → s.refs[k].timer = 0 →
      ∃ t, exec (.requalifyTimerExpiry k) s = .next t ∧ t.refs[k].state = .qualifying ∧ t.refs[k].timer = s.refs[k].qualTime ∧
        t.refs[k].hist = s.refs[k].hist ∧ t.refs[k].evt.bits.getLsbD 1 = true ∧ ∀ j, j ≠ k → t.refs[j] = s.refs[j]))

/-- R117, R81, R82: of the pulses that a reference input hears outside its lane's dead time, one of a bad width is counted and not
used; of the others, one within 1 µs of its prediction is used, one before that is an extra pulse, and one after it has let a
missing pulse pass. R118, R119: a sound ZDA sentence that ends 50 ms to 950 ms after an on-time edge labels the pulse before it, or
the next one, of the slot that reads its port, and a discarded one is counted there; an IRIG-B frame that decodes labels its own
edge, and of one that does not the edge is counted and not used. Each of refPulseEdge, todSentence and irigFrame is so said to
complete. Of the model's own choices it rests on logs 18 and 35. -/
def Obligations.ReferencePulsesAndLabels : Prop :=
 (∀ (s : State) (i : Fin 8) (st : Stamp) (width : Nat) (k : Fin 12) (h : Hub) (u : Int), k = slotOf i → s.runs = true →
    h = advanceTo st.cyc s.toHub → s.refs[k].enabled = true → s.refs[k].predicts = true → s.refqRuns k = true →
    h.hears (laneOfRef i) (!s.refs[k].slopeFalling) = true →
    h.laneDead (laneOfRef i) (h.rootStamp (h.laneUsed (laneOfRef i)) st) = false → u = h.refStamp i st →
    ∃ t, exec (.refPulseEdge i st width) s = .next t ∧
      (∀ j, j ≠ k → { t.refs[j] with cw := s.refs[j].cw } = s.refs[j]) ∧
      (widthOk s.refs[k].format width = false → { t.refs[k] with cw := s.refs[k].cw } = s.refs[k].addBad u) ∧
      (widthOk s.refs[k].format width = true → s.refs[k].state ≠ .absent → ∀ p, s.refs[k].prediction = some p →
        ((u - p).natAbs ≤ usFu →
          { t.refs[k] with cw := s.refs[k].cw } = RefSlot.useEdge u p { s.refs[k] with lastOn := some u }) ∧
        (u < p - usFu → { t.refs[k] with cw := s.refs[k].cw } = RefSlot.addExtra u { s.refs[k] with lastOn := some u }) ∧
        (p + usFu < u → s.refs[k].voided = false → s.refs[k].cntMiss < 0xFFFFFFFF → s.refs[k].cntMiss < t.refs[k].cntMiss))) ∧
 (∀ (s : State) (i : Fin 4) (txt : Bytes) (cyc : Nat) (k : Fin 12) (h : Hub), s.runs = true → s.todSlot i = some k →
    h = advanceTo cyc s.toHub → s.refqRuns k = true → isZda txt = true →
    (zdaLabel txt = none →
      ∃ t, exec (.todSentence i txt cyc) s = .next t ∧ t.refs[k] = { s.refs[k] with cntTod := satInc32 s.refs[k].cntTod } ∧
        ∀ j, j ≠ k → t.refs[j] = s.refs[j]) ∧
    (∀ (l : Int × Bool) (u : Int), zdaLabel txt = some l → s.refs[k].lastOn = some u →
      u + 50 * msFu ≤ h.nomFu → h.nomFu ≤ u + 950 * msFu →
      ∃ t, exec (.todSentence i txt cyc) s = .next t ∧ (∀ j, j ≠ k → t.refs[j] = s.refs[j]) ∧
        (s.refs[k].todAssoc = true → t.refs[k] = { s.refs[k] with label := some l }) ∧
        (s.refs[k].todAssoc = false → s.refs[k].pulses ≠ [] → t.refs[k] = { s.refs[k] with named := some l }))) ∧
 (∀ (s : State) (i : Fin 8) (st : Stamp) (widths : List Nat) (k : Fin 12) (h : Hub) (u : Int), k = slotOf i → s.runs = true →
    h = advanceTo st.cyc s.toHub → s.refs[k].enabled = true → s.refs[k].format = 4 → s.refqRuns k = true →
    h.hears (laneOfRef i) (!s.refs[k].slopeFalling) = true →
    h.laneDead (laneOfRef i) (h.rootStamp (h.laneUsed (laneOfRef i)) st - 1000 * tickCycles * 2 ^ 24) = false →
    u = h.refStamp i st - rdiv (secU + h.nomInc * 375000000) fuU →
    ∃ t, exec (.irigFrame i st widths) s = .next t ∧ (∀ j, j ≠ k → t.refs[j] = s.refs[j]) ∧
      (irigFrame? widths = none →
        t.refs[k] = { s.refs[k].addBad u with cntTod := satInc32 s.refs[k].cntTod }) ∧
      (∀ e r, irigFrame? widths = some e → s.refs[k].state ≠ .absent →
        r = { s.refs[k] with label := irigLabel s.refs[k] e, lastOn := some u } → t.refs[k] = r.useEdge u (r.nearPrediction u)))

/-- R125, R133: a τ0 interval of a PPS slot that has ended takes its kept edge as the sample, which stands newest in the history
with whether it was passed on; an interval without one gives none. Without an ended interval, and in an interval of the tick grid
that has been sampled, nothing changes. refqSample is so said to complete. Of the model's own choices it rests on logs 18 and 35. -/
def Obligations.SampleEntersHistory : Prop :=
 (∀ (s : State) (k : Fin 12) (ps : List (Int × Int)) (label : Option (Int × Bool)) (rest : List (List (Int × Int) × Option (Int × Bool))),
    s.runs = true → s.refs[k].enabled = true → s.refs[k].format = 1 → s.refqRuns k = true → s.refs[k].state ≠ .absent →
    s.refs[k].closed = (ps, label) :: rest → s.refs[k].delay = pfs s.refs[k].cfg 22 0 48 →
    ∃ t, exec (.refqSample k []) s = .next t ∧ t.refs[k].k = s.refs[k].k + 1 ∧ (∀ j, j ≠ k → t.refs[j] = s.refs[j]) ∧
      (ps = [] → t.refs[k].hist = none :: s.refs[k].hist ∧ t.refs[k].state = s.refs[k].state ∧ t.refs[k].closed = rest) ∧
      (∀ u l ps', ps = (u, l) :: ps' → ∃ b, t.refs[k].hist.head? = some (some (u - l, b)))) ∧
 (∀ (s : State) (k : Fin 12) (edges : List Stamp), s.runs = true → s.refs[k].enabled = true → s.refqRuns k = true →
    (s.refs[k].format = 1 ∧ s.refs[k].closed = [] ∨
      (s.refs[k].format = 0 ∨ s.refs[k].format = 5) ∧ s.taken s.refs[k] s.clk.ms = true) →
    exec (.refqSample k edges) s = .next s)

/-! ## Event channels and interval units (chapter 03) -/

/-- R104, R82, R106: an EVENT_CONFIG that R104 and R105 do not refuse puts its 16 bytes in force for its channel and no other. A
changed front end of an enabled input blanks it, a disable waits for a width that is still measured, and any other completes at
once. 2 µs after the change, of an event input or a reference input, edges count again. R84, R85, R86, R87, R90: a measured width
ends its record, which enters the queue, after a loss with the overflow mark and the number lost in place of the width, and at a
full queue is lost and counted; a disable that waited for it completes; the DMA engine takes up to eight of the oldest records of
the channel whose turn it is and moves the stream ring's producer index by as many, and the turn goes on. Each of eventConfig,
frontEndBlankEnd, eventWidthEnd and streamRecordDma is so said to complete. Of the model's own choices it rests on log 33. -/
def Obligations.EventChannels : Prop :=
 (∀ (o : Origin) (d : Desc) (s : State) (n : Fin 64) (changes stops : Bool), s.Serves o d → d.opcode = 0x40 →
    pf d.payload 0 0 8 = n.val → eventConfigBad s.toHub n d.payload = false →
    changes = (s.evts[n].enabled && pb d.payload 1 0 && evtFront d.payload != evtFront s.evts[n].cfg) →
    stops = (s.evts[n].enabled && !pb d.payload 1 0 && s.evts[n].open_.isSome) →
      ∃ t, exec (.eventConfig o) s = .next t ∧ t.evts[n].cfg = pbytes d.payload 16 ∧ t.evts[n].enabled = pb d.payload 1 0 ∧
        t.evts[n].queue = s.evts[n].queue ∧ (∀ j, j ≠ n → t.evts[j] = s.evts[j]) ∧
        (changes = true → t.evts[n].blank = true ∧ t.evts[n].blankDesc = s.evts[n].blankDesc ++ [d.id]) ∧
        (stops = true → t.evts[n].blank = s.evts[n].blank ∧ t.evts[n].stopDesc = s.evts[n].stopDesc ++ [d.id]) ∧
        (changes = false → stops = false → ∀ q, o = .ring q → d.discard = false → ∃ r, t.Posted d .ok r)) ∧
 (∀ (s : State) (n : Fin 64) (h : Hub), s.runs = true → s.evts[n].blank = true →
    reachCyc (s.evts[n].blankAt + 3000) s.toHub = some h →
      ∃ t, exec (.frontEndBlankEnd (.evt n)) s = .next t ∧ t.evts[n] = { s.evts[n] with blank := false, blankDesc := [] } ∧
        ∀ j, j ≠ n → t.evts[j] = s.evts[j]) ∧
 (∀ (s : State) (i : Fin 8) (h : Hub), s.runs = true → s.refs[slotOf i].blank = true →
    reachCyc (s.refs[slotOf i].blankAt + 3000) s.toHub = some h →
      ∃ t, exec (.frontEndBlankEnd (.ref i)) s = .next t ∧
        t.refs[slotOf i] = { s.refs[slotOf i] with blank := false, blankDesc := [] } ∧ ∀ j, j ≠ slotOf i → t.refs[j] = s.refs[j]) ∧
 (∀ (s : State) (n : Fin 64) (width : Nat) (r : BitVec 128), s.runs = true → s.evts[n].open_ = some r →
    ∃ t, exec (.eventWidthEnd n width) s = .next t ∧ t.evts[n].open_ = none ∧ t.evts[n].stopDesc = [] ∧
      (∀ j, j ≠ n → t.evts[j] = s.evts[j]) ∧
      (4096 ≤ s.evts[n].queue.length → t.evts[n].queue = s.evts[n].queue ∧
        t.evts[n].ovfCnt = satInc32 s.evts[n].ovfCnt ∧ t.evts[n].lostRun = satAdd 65535 s.evts[n].lostRun 1 ∧
        t.evts[n].evt.bits.getLsbD 0 = true) ∧
      (s.evts[n].queue.length < 4096 → t.evts[n].lostRun = 0 ∧
        t.evts[n].queue = s.evts[n].queue ++
          [if s.evts[n].lostRun = 0 then putFld r 112 16 (min 65535 width)
           else putFld (putFld r 112 16 s.evts[n].lostRun) 90 1 1]) ∧
      ∀ e q, s.inCharge = true → s.idsOk → e.id ∈ s.evts[n].stopDesc → e ∈ s.host.inflight → e.origin = .ring q →
        e.discard = false → t.Posted e .ok 0) ∧
 (∀ (s : State) (n : Fin 64) (burst k : Nat), s.runs = true → s.host.ready = true → s.dmaNext = some n →
    k = min (min burst 8) (min s.evts[n].queue.length (s.ring (.str n)).room) → 0 < k →
    ∃ t, exec (.streamRecordDma n burst) s = .next t ∧ t.evts[n].queue = s.evts[n].queue.drop k ∧
      t.host.str[n].prod = s.host.str[n].prod + BitVec.ofNat 16 k ∧ t.host.str[n].cons = s.host.str[n].cons ∧
      t.tdc.turn = n + 1 ∧ (∀ j, j ≠ n → t.evts[j] = s.evts[j] ∧ t.host.str[j] = s.host.str[j]))

/-- R81, R83, R85, R89, R90, R92, R102: an edge of the selected slope that the channel's lane hears, outside the dead time of the
last edge that the lane took, is accepted: it takes the next sequence number, and its record enters the queue of its channel, or
waits for its width; an edge within the dead time is only counted. R83: an accepted edge that finds the capture buffer full is
lost: it takes its sequence number and its place in EVT_BURST_CNT, sets EVT_EVT bit 1, and enters no queue. Of the other channels
at most the lane that stamps them changes, as when a LANE test ends (R98). eventEdge is so said to complete. Of the model's own
choices it rests on logs 4 and 18. -/
def Obligations.EdgesMakeRecords : Prop :=
  ∀ (s : State) (n : Fin 64) (rising : Bool) (st : Stamp) (h : Hub) (now : Int) (r : BitVec 128), s.runs = true →
    h = advanceTo st.cyc s.toHub → s.evts[n].enabled = true → h.hears (laneOfEvt n) rising = true → s.evts[n].open_ = none →
    now = h.rootStamp (h.laneUsed (laneOfEvt n)) st → r = evtRecord h n rising st s.evts[n].seq →
    (h.laneDead (laneOfEvt n) now = true ∨ s.evts[n].lastEdge = some now →
      ∃ t, exec (.eventEdge n rising st) s = .next t ∧ t.evts[n] = { s.evts[n] with deadCnt := satInc32 s.evts[n].deadCnt } ∧
        ∀ j, j ≠ n → t.evts[j] = s.evts[j]) ∧
    (h.laneDead (laneOfEvt n) now = false → s.evts[n].lastEdge ≠ some now →
      ∃ t, exec (.eventEdge n rising st) s = .next t ∧ t.evts[n].seq = s.evts[n].seq + 1 ∧
        t.evts[n].edges = s.evts[n].edges + 1 ∧ t.evts[n].lastEdge = some now ∧
        (∀ j, j ≠ n → { t.evts[j] with cw := s.evts[j].cw } = s.evts[j]) ∧
        ((drained s.evts[n].cap s.evts[n].capAt h.clk.cycles).1 < 32 →
          (s.evts[n].widthEn = true → t.evts[n].open_ = some r ∧ t.evts[n].queue = s.evts[n].queue) ∧
          (s.evts[n].widthEn = false → s.evts[n].queue.length < 4096 → s.evts[n].lostRun = 0 →
            t.evts[n].queue = s.evts[n].queue ++ [putFld r 112 16 0])) ∧
        (32 ≤ (drained s.evts[n].cap s.evts[n].capAt h.clk.cycles).1 →
          t.evts[n].burstCnt = satInc32 s.evts[n].burstCnt ∧ t.evts[n].queue = s.evts[n].queue ∧
          t.evts[n].open_ = none ∧ t.evts[n].evt.bits.getLsbD 1 = true))

/-- R94, R96, R97, R107: an INTERVAL_START that R107 and R108 do not refuse takes the named unit if it is idle, or the lowest
idle one, and the unit waits for its start edge. ABORT completes with OK; the run it ends completes with ABORTED and leaves its
unit idle, with IVU_EVT bits 0 and 2. R94, R95, R109, R92: a start edge that its lane takes within start_wait opens the window from
its stamp, and one of the other slope does not; a stop edge below `open` is counted as early, and one in the window ends a SINGLE
run, which completes with the interval. R94, R97: a window whose end the domain's time can reach closes with the timeout flag, and
a run whose start_wait passes ends with TIMEOUT and flag 5. Each of intervalStartSingle, intervalStartRepeat, intervalStartAbort,
ivuStartEdge, ivuStopEdge, ivuWindowTimeout and ivuStartWaitExpired is so said to complete. Of the model's own choices it rests on
logs 4 and 32. -/
def Obligations.IntervalUnits : Prop :=
 (∀ (o : Origin) (d : Desc) (s : State) (u : Fin 32), s.Serves o d → d.opcode = 0x41 →
    (∀ c : Instr, (c = .intervalStartSingle o ∧ ivuMode d.payload = 0 ∨ c = .intervalStartRepeat o ∧ ivuMode d.payload = 1) →
      intervalBad d.payload = false → s.idleUnit (pf d.payload 0 0 8) = some u →
      ∃ t, exec c s = .next t ∧ t.ivus[u].state = .waitStart ∧ t.ivus[u].cfg = pbytes d.payload 32 ∧
        t.ivus[u].desc = some d.id ∧ t.ivus[u].done = 0 ∧ t.ivus[u].armAt = s.clk.cycles ∧
        ∀ j, j ≠ u → t.ivus[j] = s.ivus[j]) ∧
    (ivuMode d.payload = 2 → pf d.payload 0 0 8 = u.val →
      ∃ t, exec (.intervalStartAbort o) s = .next t ∧ t.ivus[u].state = .idle ∧ (∀ j, j ≠ u → t.ivus[j] = s.ivus[j]) ∧
        (s.ivus[u].state = .idle → t.ivus[u] = s.ivus[u] ∧
          ∀ q, o = .ring q → d.discard = false → ∃ r, t.Posted d .ok r) ∧
        (s.ivus[u].state ≠ .idle → t.ivus[u].evt.bits.getLsbD 0 = true ∧ t.ivus[u].evt.bits.getLsbD 2 = true ∧
          ∀ e q, s.ivus[u].desc = some e.id → e ∈ s.host.inflight → e.id ≠ d.id → e.origin = .ring q → e.discard = false →
            t.Posted e .aborted (repeatResult u s.ivus[u])))) ∧
 (∀ (s : State) (u : Fin 32) (rising : Bool) (st : Stamp) (h : Hub) (at' : Int) (fl : BitVec 16), s.runs = true →
    h = advanceTo st.cyc s.toHub →
    (s.ivus[u].state = .waitStart → h.cycleOf st ≤ s.ivus[u].armAt + ivuWaitCycles s.ivus[u].cfg →
      (if pf s.ivus[u].cfg 2 6 2 = 3 then h.plsStart s.ivus[u].cfg (pf s.ivus[u].cfg 2 0 6)
        else (h.edgeLane (pf s.ivus[u].cfg 2 6 2) (pf s.ivus[u].cfg 2 0 6) rising st).bind fun _ =>
          h.ivuStamp s.ivus[u].cfg (pf s.ivus[u].cfg 2 6 2) (pf s.ivus[u].cfg 2 0 6) rising st) = some (at', fl) →
      ∃ t, exec (.ivuStartEdge u rising st) s = .next t ∧ (∀ j, j ≠ u → t.ivus[j] = s.ivus[j]) ∧
        t.ivus[u] = (if pf s.ivus[u].cfg 2 6 2 = 3 ∨ edgePasses (pf s.ivus[u].cfg 1 4 2) rising = true
          then { s.ivus[u] with state := .window, start := at', early := 0, flags := fl } else s.ivus[u])) ∧
    (s.ivus[u].state = .window → edgePasses (pf s.ivus[u].cfg 1 6 2) rising = true →
      (h.edgeLane (pf s.ivus[u].cfg 3 6 2) (pf s.ivus[u].cfg 3 0 6) rising st).isSome = true →
      h.ivuStamp s.ivus[u].cfg (pf s.ivus[u].cfg 3 6 2) (pf s.ivus[u].cfg 3 0 6) rising st = some (at', fl) →
      s.ivus[u].start ≤ at' →
      ∃ t, exec (.ivuStopEdge u rising st) s = .next t ∧ (∀ j, j ≠ u → t.ivus[j] = s.ivus[j]) ∧
        (at' - s.ivus[u].start < ivuOpen s.ivus[u].cfg →
          t.ivus[u] = { s.ivus[u] with early := satAdd 65535 s.ivus[u].early 1 }) ∧
        (ivuOpen s.ivus[u].cfg ≤ at' - s.ivus[u].start → at' - s.ivus[u].start < ivuClose s.ivus[u].cfg →
          ivuMode s.ivus[u].cfg = 0 → t.ivus[u].state = .idle ∧ t.ivus[u].last = at' - s.ivus[u].start ∧
          t.ivus[u].lastEarly = s.ivus[u].early ∧ t.ivus[u].done = s.ivus[u].done + 1 ∧
          t.ivus[u].valid = s.ivus[u].valid + 1 ∧ t.ivus[u].evt.bits.getLsbD 0 = true ∧
          ∀ e q, s.inCharge = true → s.idsOk → s.ivus[u].desc = some e.id → e ∈ s.host.inflight → e.origin = .ring q →
            e.discard = false → t.Posted e .ok (singleResult u t.ivus[u] (at' - s.ivus[u].start))))) ∧
 (∀ (s : State) (u : Fin 32), s.runs = true →
    (∀ h : Hub, s.ivus[u].state = .window →
      reachDom (ivuDomain s.ivus[u].cfg) ((s.ivus[u].start + ivuClose s.ivus[u].cfg) * fuU) s.toHub = some h →
      ∃ t, exec (.ivuWindowTimeout u) s = .next t ∧ t.ivus[u].timeouts = s.ivus[u].timeouts + 1 ∧
        t.ivus[u].flags = s.ivus[u].flags ||| 1 ∧ t.ivus[u].evt.bits.getLsbD 1 = true ∧
        (ivuMode s.ivus[u].cfg = 0 → t.ivus[u].state = .idle) ∧ ∀ j, j ≠ u → t.ivus[j] = s.ivus[j]) ∧
    (∀ h : Hub, s.ivus[u].state = .waitStart → reachCyc (s.ivus[u].armAt + ivuWaitCycles s.ivus[u].cfg) s.toHub = some h →
      ∃ t, exec (.ivuStartWaitExpired u) s = .next t ∧ t.ivus[u].state = .idle ∧
        t.ivus[u].flags = s.ivus[u].flags ||| 0x20 ∧ t.ivus[u].evt.bits.getLsbD 0 = true ∧
        (∀ j, j ≠ u → t.ivus[j] = s.ivus[j]) ∧
        ∀ e q, s.inCharge = true → s.idsOk → s.ivus[u].desc = some e.id → e ∈ s.host.inflight → e.origin = .ring q →
          e.discard = false → ∃ r, t.Posted e .timeout r))

/-! ## Outputs (chapter 06) -/

/-- R195, R197, R198, R201, R218: an OUTPUT_CONFIG that R219 does not refuse puts its 16 bytes in force for its output and sets
the format of its bank; without a change of enable it completes at once, and with one it waits for its boundary, where the
output starts or goes to its disable state; R38, R216: in BOOT both legs stay low until the output's DLL has locked. R208, R220: a
PULSE_CONFIG that R220 does not refuse is kept for its output, and comes into force at once, or after the pulse in progress,
behind the changes that wait already. Each of outputConfig, outputBoundary and pulseConfig is so said to complete. Of the model's
own choices it rests on log 4. -/
def Obligations.OutputsConfigured : Prop :=
 (∀ (o : Origin) (d : Desc) (s : State) (n : Fin 96), s.Serves o d → d.opcode = 0x30 → pf d.payload 0 0 8 = n.val →
    outputConfigBad s.toHub n d.payload = false → s.outs[n].pend = none →
    ∃ t, exec (.outputConfig o) s = .next t ∧ t.outs[n].cfg = pbytes d.payload 16 ∧ t.outs[n].enabled = s.outs[n].enabled ∧
      t.banks[bankOfOut n] = BitVec.ofNat 3 (outFmt d.payload) ∧ (∀ j, j ≠ bankOfOut n → t.banks[j] = s.banks[j]) ∧
      (∀ j, j ≠ n → t.outs[j] = s.outs[j]) ∧
      (s.outs[n].enabled = pb d.payload 1 7 → t.outs[n].pend = none ∧
        ∀ q, o = .ring q → d.discard = false → ∃ r, t.Posted d .ok r) ∧
      (s.outs[n].enabled ≠ pb d.payload 1 7 → t.outs[n].pend = some
        { desc := d.id, enable := pb d.payload 1 7, boundary := (outBoundary s.toHub d.payload (pb d.payload 1 7)).1
          late := (outBoundary s.toHub d.payload (pb d.payload 1 7)).2 })) ∧
 (∀ (s : State) (n : Fin 96) (w : OutPend) (h : Hub), s.runs = true → s.outs[n].pend = some w →
    reachDom (outDomain s.outs[n].cfg) w.boundary s.toHub = some h →
    ∃ t, exec (.outputBoundary n) s = .next t ∧ t.outs[n].enabled = w.enable ∧ t.outs[n].pend = none ∧
      t.outs[n].cfg = s.outs[n].cfg ∧
      t.outs[n].pin = (if s.inMode .boot = true ∧ s.dlls[n].locked = false then .bothLow
        else if w.enable then .running else outDisabled s.outs[n].cfg) ∧
      t.outs[n].evt.bits.getLsbD (if w.enable then 0 else 1) = true ∧ (∀ j, j ≠ n → t.outs[j] = s.outs[j]) ∧
      ∀ e q, s.inCharge = true → s.idsOk → w.desc = e.id → e ∈ s.host.inflight → e.origin = .ring q → e.discard = false →
        ∃ r, t.Posted e .ok r) ∧
 (∀ (o : Origin) (d : Desc) (s : State) (n : Fin 64) (waits : Bool), s.Serves o d → d.opcode = 0x31 →
    pf d.payload 0 0 8 = n.val → pulseConfigBad s.toHub n d.payload = false →
    waits = (s.plss[n].active && (plsWaits s.plss[n].run (pbytes d.payload 40) || !s.plss[n].pend.isEmpty)) →
    ∃ t, exec (.pulseConfig o) s = .next t ∧ t.plss[n].cfg = pbytes d.payload 40 ∧ (∀ j, j ≠ n → t.plss[j] = s.plss[j]) ∧
      (waits = true → t.plss[n].run = s.plss[n].run ∧ t.plss[n].enabled = s.plss[n].enabled ∧
        ∃ i, t.plss[n].pend = s.plss[n].pend ++ [(d.id, pbytes d.payload 40, i)]) ∧
      (waits = false → t.plss[n].run = pbytes d.payload 40 ∧ t.plss[n].enabled = pb d.payload 1 7 ∧
        ∀ q, o = .ring q → d.discard = false → ∃ r, t.Posted d .ok r))

/-- R208, R209, R216: outside BOOT a grid instant of an enabled pulse output begins a pulse, or is skipped and counted where the
rule of R209 forbids one, and in BOOT none is begun; the end of a pulse makes the ball inactive, and ends a counted train that is
done, with PLS_EVT bit 0. Each of pulseGridInstant and pulseEnd is so said to complete. Of the model's own choices it rests on
logs 4 and 36. -/
def Obligations.PulseTrainRuns : Prop :=
  ∀ (s : State) (n : Fin 64), s.runs = true →
    (s.inMode .boot = true → exec (.pulseGridInstant n) s = .next s) ∧
    (∀ h : Hub, s.inMode .boot = false → s.plss[n].enabled = true →
      reachDom (plsDomain s.plss[n].run) s.plss[n].next s.toHub = some h →
      ∃ t, exec (.pulseGridInstant n) s = .next t ∧ t.plss[n].next = s.plss[n].gridFrom (s.plss[n].next + 1) ∧
        (∀ j, j ≠ n → t.plss[j] = s.plss[j]) ∧
        (s.plss[n].blocked s.plss[n].next = true → t.plss[n].skip = satInc32 s.plss[n].skip ∧
          t.plss[n].evt.bits.getLsbD 3 = true ∧ t.plss[n].count = s.plss[n].count ∧ t.plss[n].pin = s.plss[n].pin) ∧
        (s.plss[n].blocked s.plss[n].next = false → t.plss[n].active = true ∧ t.plss[n].count = s.plss[n].count + 1 ∧
          t.plss[n].left = s.plss[n].left - 1 ∧ t.plss[n].skip = s.plss[n].skip ∧
          (s.plss[n].pin ≠ .hiZ → t.plss[n].pin = plsActive s.plss[n].run))) ∧
    (∀ h : Hub, s.plss[n].active = true → s.plss[n].pend = [] →
      reachDom (plsDomain s.plss[n].run) (s.plss[n].lastEnd.getD 0) s.toHub = some h →
      ∃ t, exec (.pulseEnd n) s = .next t ∧ t.plss[n].active = false ∧ (∀ j, j ≠ n → t.plss[j] = s.plss[j]) ∧
        (s.plss[n].pin ≠ .hiZ → t.plss[n].pin = plsIdle s.plss[n].run) ∧
        (plsCount s.plss[n].run ≠ 0 → s.plss[n].left = 0 → t.plss[n].enabled = false ∧ t.plss[n].evt.bits.getLsbD 0 = true) ∧
        (plsCount s.plss[n].run = 0 ∨ s.plss[n].left ≠ 0 → t.plss[n].enabled = s.plss[n].enabled))

/-- R211, R214, R215, R221: PULSE_ANCHOR ONCE and TRACK, where R221 does not refuse them, wait for the first anchor edge in
place of any earlier anchor; STOP ends it, keeps the grid and completes. R212, R213, R214, R81: the first anchor edge that the lane
takes places the grid, the shift moved by the way from its nearest instant to the target, sets PLS_EVT bit 1 and completes the
descriptor; a later one in the window refreshes the residual that is tracked, outside SAFE, and one outside the window sets bit 4
and changes nothing else of the output; no edge for `timeout` sets bit 2, holds the slope at 0 and sends TIMEOUT; ONCE without an
edge for 10 s completes with TIMEOUT and leaves the grid. Each of pulseAnchorOnce, pulseAnchorTrack, pulseAnchorStop,
pulseAnchorEdge, anchorLostTimeout and anchorOnceTimeout is so said to complete. Of the model's own choices it rests on logs 11
and 36. -/
def Obligations.PulseAnchors : Prop :=
 (∀ (o : Origin) (d : Desc) (s : State) (n : Fin 64), s.Serves o d → d.opcode = 0x32 → pf d.payload 0 0 8 = n.val →
    pulseAnchorBad s.toHub n d.payload = false →
    (∀ (c : Instr) (a : Anchor), (c = .pulseAnchorOnce o ∧ anchorMode d.payload = 0 ∧ a = .once ∨
        c = .pulseAnchorTrack o ∧ anchorMode d.payload = 1 ∧ a = .track) →
      ∃ t, exec c s = .next t ∧ t.plss[n] = { s.plss[n] with
          anchor := a, anchorCfg := pbytes d.payload 24, anchorDesc := some d.id, placed := false, anchorLost := false
          anchorAt := s.clk.cycles, rho := 0, slope := 0 } ∧ ∀ j, j ≠ n → t.plss[j] = s.plss[j]) ∧
    (anchorMode d.payload = 2 → s.plss[n].anchorDesc ≠ some d.id →
      ∃ t, exec (.pulseAnchorStop o) s = .next t ∧ t.plss[n] = { s.plss[n] with
          anchor := .none, anchorDesc := none, rho := 0, slope := 0, anchorLost := false } ∧
        (∀ j, j ≠ n → t.plss[j] = s.plss[j]) ∧ ∀ q, o = .ring q → d.discard = false → ∃ r, t.Posted d .ok r)) ∧
 (∀ (s : State) (n : Fin 64), s.runs = true →
    (∀ (rising : Bool) (st : Stamp) (h : Hub) (l : Fin 192) (edge target : Int), h = advanceTo st.cyc s.toHub → s.plss[n].enabled = true →
      s.plss[n].anchor ≠ .none → (pf s.plss[n].anchorCfg 1 2 2 = 0 ↔ rising = true) →
      h.edgeLane (pf s.plss[n].anchorCfg 2 6 2) (pf s.plss[n].anchorCfg 2 0 6) rising st = some l →
      h.anchorStamp n rising st = some edge → target = edge + anchorOffset s.plss[n].anchorCfg →
      ∃ t, exec (.pulseAnchorEdge n rising st) s = .next t ∧ (∀ j, j ≠ n → t.plss[j] = s.plss[j]) ∧
        (s.plss[n].placed = false → t.plss[n].placed = true ∧ t.plss[n].anchorDesc = none ∧ t.plss[n].evt.bits.getLsbD 1 = true ∧
          t.plss[n].shift = s.plss[n].shift + rdiv ((target * fuU - s.plss[n].gridNear (target * fuU)) * 10 ^ 6) fuU ∧
          t.plss[n].anchor = (if s.plss[n].anchor = .once then .none else s.plss[n].anchor) ∧
          ∀ e q, s.inCharge = true → s.idsOk → s.plss[n].anchorDesc = some e.id → e ∈ s.host.inflight → e.origin = .ring q →
            e.discard = false → ∃ r, t.Posted e .ok r) ∧
        (s.plss[n].placed = true → ∀ err window : Int,
          err = rdiv ((s.plss[n].gridNear (edge * fuU) - target * fuU) * 10 ^ 6) fuU →
          window = (if anchorWindow s.plss[n].anchorCfg = 0 then (plsPeriod s.plss[n].run : Int) * 500000
            else (anchorWindow s.plss[n].anchorCfg : Int) * 10 ^ 6) →
          ((err.natAbs : Int) ≤ window → s.isSafe = false → t.plss[n] =
            { s.plss[n] with rho := err, lastErr := rdiv err (10 ^ 6), anchorLost := false, anchorAt := h.clk.cycles }) ∧
          (window < err.natAbs → t.plss[n] = { s.plss[n] with evt := s.plss[n].evt.raise (bit16 4) }))) ∧
    (∀ h : Hub, s.plss[n].anchor = .track → s.plss[n].anchorLost = false → s.flt.queue.length < 64 →
      reachCyc (s.plss[n].anchorAt + anchorTimeout s.plss[n].anchorCfg * tickCycles) s.toHub = some h →
      ∃ t, exec (.anchorLostTimeout n) s = .next t ∧ t.plss[n].anchorLost = true ∧ t.plss[n].slope = 0 ∧
        t.plss[n].evt.bits.getLsbD 2 = true ∧ t.plss[n].shift = s.plss[n].shift ∧
        ∃ m, t.flt.queue = s.flt.queue ++ [m] ∧ m.msg.source = BitVec.ofNat 12 (0x160 + n.val) ∧ m.msg.kind = .timeout) ∧
    (∀ h : Hub, s.plss[n].anchor = .once → reachCyc (s.plss[n].anchorAt + 10000 * tickCycles) s.toHub = some h →
      ∃ t, exec (.anchorOnceTimeout n) s = .next t ∧ t.plss[n] = { s.plss[n] with anchor := .none, anchorDesc := none } ∧
        ∀ e q, s.inCharge = true → s.idsOk → s.plss[n].anchorDesc = some e.id → e ∈ s.host.inflight → e.origin = .ring q →
          e.discard = false → ∃ r, t.Posted e .timeout r))

/-- R146, R195: REF_PRIORITY with a domain above 15, a floor above 1,000, a ceiling of 0 or above 1,000, or a floor above the
ceiling completes with BAD_PARAM and changes nothing; so does an OUTPUT_CONFIG of another format than its bank's while another
output of the bank is enabled or has an enable pending, and an accepted one gives the bank its format. -/
def Obligations.SettingsRefused : Prop :=
  (∀ (o : Origin) (d : Desc) (s : State), s.Serves o d → d.opcode = 0x21 →
    (15 < pf d.payload 0 0 8 ∨ 1000 < pf d.payload 2 0 16 ∨ pf d.payload 4 0 16 = 0 ∨ 1000 < pf d.payload 4 0 16 ∨
      pf d.payload 4 0 16 < pf d.payload 2 0 16) →
    ∃ t, exec (.refPriority o) s = .next t ∧ t.doms = s.doms ∧ t.refs = s.refs ∧
      ∀ q, o = .ring q → d.discard = false → t.Posted d .badParam 0) ∧
  (∀ (o : Origin) (d : Desc) (s : State) (n : Fin 96), s.Serves o d → d.opcode = 0x30 → pf d.payload 0 0 8 = n.val →
    BitVec.ofNat 3 (outFmt d.payload) ≠ s.banks[bankOfOut n] →
    ((∃ k : Fin 96, k ≠ n ∧ bankOfOut k = bankOfOut n ∧
        (s.outs[k].enabled = true ∨ ∃ w, s.outs[k].pend = some w ∧ w.enable = true)) →
      ∃ t, exec (.outputConfig o) s = .next t ∧ t.outs = s.outs ∧ t.banks = s.banks ∧
        ∀ q, o = .ring q → d.discard = false → t.Posted d .badParam 0) ∧
    (outputConfigBad s.toHub n d.payload = false → ∃ t, exec (.outputConfig o) s = .next t ∧
      t.banks[bankOfOut n] = BitVec.ofNat 3 (outFmt d.payload)))

/-! ## Links (chapter 07) -/

/-- R254, R255, R242: a LINK_CONFIG that R254 does not refuse puts its 32 bytes in force for its port and, unless it makes the
port's task, which may shed another, no other port; with the mode unchanged the port keeps its state and the descriptor completes,
but with a changed alpha of a TIMED port only with the next value of F; a written mode takes the port OFF, and from there, for a
mode that is not OFF, to DOWN, or straight to ALIGNING where R242 lets it rise. R256, R257: SET_EXT puts external delays in
force; LOOPBACK of a TERNEN port that is not TIMED and runs none begins, and changes nothing yet; REBASE clears the baseline; a
LOOPBACK whose second is over and that matched 1,000 marks sets the external delays to the shares of the measured sum, one that
measured less than the fixed delays completes with BAD_PARAM, and one that did not match them with TIMEOUT, both without a change.
Each of linkConfig, linkCalSetExt, linkCalLoopback, linkCalRebase and loopbackComplete is so said to complete. Of the model's own
choices it rests on log 42. -/
def Obligations.LinkSettings : Prop :=
 (∀ (o : Origin) (d : Desc) (s : State) (n : Fin 48), s.Serves o d → d.opcode = 0x50 → pf d.payload 0 0 8 = n.val →
    linkConfigBad d.payload = false →
    ∃ t, exec (.linkConfig o) s = .next t ∧ t.links[n].cfg = pbytes d.payload 32 ∧
      (s.links[n].mode = pf d.payload 1 0 3 ∨ s.links[n].mode ≠ 0 → ∀ j, j ≠ n → t.links[j] = s.links[j]) ∧
      (s.links[n].mode = pf d.payload 1 0 3 → t.links[n].state = s.links[n].state ∧
        t.links[n].alpha = (if s.links[n].state = .timed then s.links[n].alpha else pf d.payload 8 0 48) ∧
        (s.links[n].state = .timed → s.links[n].alpha ≠ pf d.payload 8 0 48 →
          t.links[n].alphaDesc = s.links[n].alphaDesc ++ [d.id]) ∧
        (s.links[n].state ≠ .timed ∨ s.links[n].alpha = pf d.payload 8 0 48 →
          ∀ q, o = .ring q → d.discard = false → ∃ r, t.Posted d .ok r)) ∧
      (s.links[n].mode ≠ pf d.payload 1 0 3 → s.links[n].held = false →
        t.links[n].loop = none ∧ t.links[n].fs = [] ∧
        t.links[n].squelch = (pf d.payload 1 0 3 == 0) ∧
        t.links[n].state = (if pf d.payload 1 0 3 = 0 then .off
          else if s.links[n].signal && !s.links[n].modAbs && !s.links[n].los then .aligning else .down))) ∧
 (∀ (o : Origin) (d : Desc) (s : State) (n : Fin 48), s.Serves o d → d.opcode = 0x51 → pf d.payload 0 0 8 = n.val →
    linkCalBad d.payload = false →
    (calOp d.payload = 0 →
      ∃ t, exec (.linkCalSetExt o) s = .next t ∧ t.links[n].extTx = pf d.payload 8 0 32 ∧
        t.links[n].extRx = pf d.payload 12 0 32 ∧ (∀ j, j ≠ n → t.links[j] = s.links[j]) ∧
        ∀ q, o = .ring q → d.discard = false → ∃ r, t.Posted d .ok r) ∧
    (calOp d.payload = 1 → s.links[n].ternen = true → s.links[n].state ≠ .timed → s.links[n].loop = none →
      ∃ t, exec (.linkCalLoopback o) s = .next t ∧
        t.links[n] = { s.links[n] with loop := some (d.id, []), loopAt := s.clk.ms } ∧
        ∀ j, j ≠ n → t.links[j] = s.links[j]) ∧
    (calOp d.payload = 2 →
      ∃ t, exec (.linkCalRebase o) s = .next t ∧
        t.links[n] = { s.links[n] with base := none, delta := 0, asymSent := false } ∧
        (∀ j, j ≠ n → t.links[j] = s.links[j]) ∧ ∀ q, o = .ring q → d.discard = false → ∃ r, t.Posted d .ok r)) ∧
 (∀ (s : State) (n : Fin 48) (e : Desc) (q : Fin 16) (ms : List Int) (sum8 : Int) (tx : Nat), s.runs = true → s.inCharge = true →
    s.idsOk → e ∈ s.host.inflight → e.origin = .ring q → e.discard = false → s.links[n].loop = some (e.id, ms) →
    s.links[n].loopAt + 1000 ≤ s.clk.ms →
    sum8 = (if ms = [] then 0 else rdiv (ms.sum * 256) ms.length)
      - rdiv ((s.linkFixed n false 0 + s.linkFixed n true 0) * 256) (10 ^ 5) - 256 * (pf e.payload 16 0 64 : Int) →
    tx = (rdiv sum8 256).toNat * pf e.payload 2 0 16 / 1000 →
    (ms.length < 1000 →
      ∃ t, exec (.loopbackComplete n) s = .next t ∧ t.links[n] = { s.links[n] with loop := none } ∧ ∃ r, t.Posted e .timeout r) ∧
    (1000 ≤ ms.length → sum8 < 0 →
      ∃ t, exec (.loopbackComplete n) s = .next t ∧ t.links[n] = { s.links[n] with loop := none } ∧ ∃ r, t.Posted e .badParam r) ∧
    (1000 ≤ ms.length → 0 ≤ sum8 →
      ∃ t, exec (.loopbackComplete n) s = .next t ∧ t.links[n].loop = none ∧ t.links[n].extTx = tx ∧
        t.links[n].extRx = (rdiv sum8 256).toNat - tx ∧ t.links[n].split = pf e.payload 2 0 16 ∧ ∃ r, t.Posted e .ok r))

/-- R229, R232, R233, R234, R235: a TMARK within 19.2 ns of its grid instant, with no echo due before it, a TECHO within its
turnaround, and a STAT that is due, in slots that no timing frame needs, leave on a port that transmits, the mark and the echo with
the fields that R235 gives and with the IDLE frames that have filled the line before; the mark's seq moves on, the echo takes the
oldest mark that waits. R228: what a frame's blocks hold once received is the frame, whatever bits the line carried before it.
R234, R235, R236, R237: a good TMARK waits for its echo with its arrival; a good TECHO of a mark that left gives a SYNTONISED port
its first round trip and takes it to RANGING; a TOD frame gives the seconds of the peer's grid, and a STAT frame what it says of
the peer. R230: a frame of any kind with an invalid block or a wrong CRC is discarded and counted, and changes nothing else of the
port; a good frame of another type does nothing to the ports. Each of tmarkSend, techoSend, statFrameSend, tmarkReceived,
techoReceived, todFrameReceived, statFrameReceived and mgmtSegmentReceived is so said to complete. Of the model's own choices it
rests on
logs 6, 18, 41 and 89. -/
def Obligations.TimingFrames : Prop :=
 (∀ (s : State) (n : Fin 48) (st : Stamp) (h : Hub) (lag dep : Int), s.runs = true → s.links[n].sends = true →
    h = advanceTo st.cyc s.toHub → dep = h.lineStamp (laneOfTx n) st → s.rootActive = true → s.links[n].slotFree dep = true →
    (lag = (h.dom0Stamp (laneOfTx n) st).emod markFu → lag * 10 < 192 * 65536 → s.links[n].echoFirst dep = false →
      (∀ p, s.links[n].prevMark = some p → markFu / 2 ≤ dep - lag - p) →
      ∃ t, exec (.tmarkSend n st) s = .next t ∧ t.links[n].txSeq = s.links[n].txSeq + 1 ∧ t.links[n].prevMark = some dep ∧
        t.links[n].prevLag = some lag.toNat ∧ (∀ j, j ≠ n → t.links[j] = s.links[j]) ∧
        h.frameOp n dep ([0x51, h.markFlags n] ++ leBytes 2 s.links[n].txSeq.toNat
          ++ leBytes 4 (((h.dom0Stamp (laneOfTx n) st - lag).emod secFu) / markFu).toNat
          ++ leBytes 4 (s.links[n].prevLag.getD 0xFFFFFFFF)) ∈ t.wire) ∧
    (∀ seq arr rest, echoesLeft dep s.links[n].echoDue = (seq, arr) :: rest → 2000 * 65536 ≤ dep - arr →
      ∃ t, exec (.techoSend n st) s = .next t ∧ t.links[n].echoDue = rest ∧
        t.links[n].prevEcho = some (seq, (dep - arr).toNat, dep) ∧ (∀ j, j ≠ n → t.links[j] = s.links[j]) ∧
        (s.links[n].prevEcho = none → t.wire = h.frameOp n dep ([0x52, 0] ++ leBytes 2 seq.toNat ++ leBytes 8 0) :: s.wire) ∧
        ∀ p ta at', s.links[n].prevEcho = some (p, ta, at') → dep - at' ≤ 3 * markFu →
          t.wire = h.frameOp n dep ([0x52, 1] ++ leBytes 2 seq.toNat ++ leBytes 2 p.toNat ++ leBytes 6 ta) :: s.wire)) ∧
 (∀ (s : State) (n : Fin 48), s.runs = true → s.links[n].sends = true → s.links[n].statDue = true → s.lineFree n 4 = true →
    ∃ t, exec (.statFrameSend n) s = .next t ∧ t.wire = s.frameOp n s.nomFu (statFrame s.toHub n) :: s.wire ∧
      t.links[n].statDue = false ∧ ∀ j, j ≠ n → t.links[j] = s.links[j]) ∧
 (∀ (before : BitVec 58) (b : Bytes), b.length % 8 = 0 → b ≠ [] → (frameLength b).isSome = true →
    lineBytes (lineOf before b) = some b) ∧
 (∀ (s : State) (n : Fin 48) (x : Line) (b : Bytes) (st : Stamp) (h : Hub), s.receives n = true → h = advanceTo st.cyc s.toHub →
    lineBytes x = some b → crcOk b = true →
    (byteAt b 0 = 0x51 →
      ∃ t, exec (.tmarkReceived n x st) s = .next t ∧
        t.links[n].echoDue = s.links[n].echoDue ++ [(BitVec.ofNat 16 (leAt b 2 2), h.lineStamp (laneOfRx n) st)] ∧
        t.links[n].rxSeq = some (BitVec.ofNat 16 (leAt b 2 2)) ∧ t.links[n].peerUntrusted = (byteAt b 1).getLsbD 0 ∧
        t.links[n].peerHoldover = (byteAt b 1).getLsbD 1 ∧ ∀ j, j ≠ n → t.links[j] = s.links[j]) ∧
    (∀ p rt, byteAt b 0 = 0x52 → s.links[n].state = .syntonised → s.links[n].windowed = false →
      (s.links[n].departs.find? fun p => p.1 == BitVec.ofNat 16 (leAt b 2 2)) = some p →
      rt = h.lineStamp (laneOfRx n) st - p.2 → 0 ≤ rt → rt ≤ rtMax →
      ∃ t, exec (.techoReceived n x st) s = .next t ∧ t.links[n].state = .ranging ∧ t.links[n].rtPred = some rt ∧
        t.links[n].windowed = true ∧ t.links[n].evt.bits.getLsbD 3 = true ∧ ∀ j, j ≠ n → t.links[j] = s.links[j]) ∧
    (byteAt b 0 = 0x53 →
      ∃ t, exec (.todFrameReceived n x) s = .next t ∧
        t.links[n].todSecs = some (fld (BitVec.ofNat 128 (leAt b 8 16)) 80 48) ∧ t.links[n].peerTe = leAt b 4 4 ∧
        t.links[n].todSeq = BitVec.ofNat 16 (leAt b 2 2) ∧
        t.links[n].peerUntrusted = (byteAt b 1).getLsbD 0 ∧ ∀ j, j ≠ n → t.links[j] = s.links[j]) ∧
    (byteAt b 0 = 0x55 →
      ∃ t, exec (.statFrameReceived n x) s = .next t ∧ t.links[n].statSeen = true ∧
        t.links[n].peerAddr = BitVec.ofNat 12 (leAt b 2 2) ∧ t.links[n].peerNonce = BitVec.ofNat 16 (leAt b 6 2) ∧
        t.links[n].loopback = (BitVec.ofNat 16 (leAt b 6 2) == s.links[n].nonce) ∧ t.links[n].peerDtx = leAt b 8 4 ∧
        t.links[n].peerDrx = leAt b 12 4 ∧ ∀ j, j ≠ n → t.links[j] = s.links[j])) ∧
 (∀ (s : State) (n : Fin 48) (x : Line) (st : Stamp) (c : Instr) (type : Byte), s.receives n = true →
    (c = .tmarkReceived n x st ∧ type = 0x51 ∨ c = .techoReceived n x st ∧ type = 0x52 ∨ c = .todFrameReceived n x ∧ type = 0x53 ∨
      c = .mgmtSegmentReceived n x ∧ type = 0x54 ∨ c = .statFrameReceived n x ∧ type = 0x55) →
    ((∀ b, lineBytes x = some b → crcOk b = false) →
      ∃ t, exec c s = .next t ∧ t.links[n] = { s.links[n] with cntCrc := satInc32 s.links[n].cntCrc } ∧
        ∀ j, j ≠ n → t.links[j] = s.links[j]) ∧
    (∀ b, lineBytes x = some b → crcOk b = true → byteAt b 0 ≠ type → ∃ t, exec c s = .next t ∧ t.links = s.links))

/-- R232, R247, R248, R249: with no STAT due and the line free of timing frames, the oldest message with a segment left sends it when
the window, the credit and the port allow, and counts it as sent; an acknowledgement that has not advanced for 3 ms makes what is
not acknowledged be sent again, and 100 ms after its first segment an unfinished message is forgotten; the first segment of a
message and the next one of a message under way are taken and acknowledged, and one out of order is discarded. Each of
mgmtSegmentSend, mgmtResendTimeout, mgmtMessageTimeout and mgmtSegmentReceived is so said to complete. Of the model's own choices it
rests on
logs 14 and 40. -/
def Obligations.ManagementSegments : Prop :=
 (∀ (s : State) (n : Fin 48) (x : MgmtTx) (rest : List MgmtTx), s.runs = true → s.links[n].tx = x :: rest →
    x.sent < x.segs.length → s.links[n].sends = true → s.links[n].mgmtOpen = true → s.links[n].statDue = false →
    s.lineFree n (3 + ((x.segs.getD x.sent []).length + 7) / 8) = true → unacked s.links[n].tx < 32 →
    (x.segs.getD x.sent []).length ≤ s.links[n].creditNow s.clk.cycles →
    ∃ t, exec (.mgmtSegmentSend n) s = .next t ∧ t.wire = s.frameOp n s.nomFu (mgmtFrame x x.sent) :: s.wire ∧
      t.links[n].tx = { x with sent := x.sent + 1, high := max x.high (x.sent + 1) } :: rest ∧
      t.links[n].cntMgmt = (if x.sent < x.high then satInc32 s.links[n].cntMgmt else s.links[n].cntMgmt) ∧
      ∀ j, j ≠ n → t.links[j] = s.links[j]) ∧
 (∀ (s : State) (n : Fin 48) (h : Hub), s.runs = true → s.links[n].mgmtOpen = true → 0 < unacked s.links[n].tx →
    reachCyc (s.links[n].ackAt + 3 * tickCycles) s.toHub = some h →
    ∃ t, exec (.mgmtResendTimeout n) s = .next t ∧
      t.links[n] = { s.links[n] with tx := s.links[n].tx.map fun x => { x with sent := x.acked }, ackAt := h.clk.cycles } ∧
      ∀ j, j ≠ n → t.links[j] = s.links[j]) ∧
 (∀ (s : State) (n : Fin 48) (h : Hub), s.runs = true → s.links[n].rx.isSome = true →
    reachCyc (s.links[n].rxAt + 100 * tickCycles) s.toHub = some h →
    ∃ t, exec (.mgmtMessageTimeout n) s = .next t ∧ t.links[n] = { s.links[n] with rx := none } ∧
      ∀ j, j ≠ n → t.links[j] = s.links[j]) ∧
 (∀ (s : State) (n : Fin 48) (x : Line) (b : Bytes) (id : BitVec 16), s.receives n = true → lineBytes x = some b →
    crcOk b = true → byteAt b 0 = 0x54 → s.links[n].mgmtOpen = true → id = BitVec.ofNat 16 (leAt b 8 2) →
    (leAt b 2 2 % 512 = 256 → (byteAt b 1).getLsbD 0 = true → (byteAt b 1).getLsbD 1 = false → leAt b 10 2 = 0 →
      s.links[n].inOrder id 0 = true →
      ∃ t, exec (.mgmtSegmentReceived n x) s = .next t ∧ t.links[n] = { s.links[n] with
          ackMsg := id, ackSeg := 0, ackLast := false, rxAt := s.clk.cycles
          rx := some (BitVec.ofNat 12 (leAt b 4 2), BitVec.ofNat 12 (leAt b 6 2), id, [slice b 16 256]) } ∧
        ∀ j, j ≠ n → t.links[j] = s.links[j]) ∧
    (∀ m, leAt b 2 2 % 512 = 256 → (byteAt b 1).getLsbD 0 = false → (byteAt b 1).getLsbD 1 = false → 0 < leAt b 10 2 →
      leAt b 10 2 < 64 → s.links[n].inOrder id (leAt b 10 2) = true → s.links[n].rx = some m →
      ∃ t, exec (.mgmtSegmentReceived n x) s = .next t ∧ t.links[n] = { s.links[n] with
          ackMsg := id, ackSeg := BitVec.ofNat 16 (leAt b 10 2), ackLast := false
          rx := some (m.1, m.2.1, m.2.2.1, m.2.2.2 ++ [slice b 16 256]) } ∧
        ∀ j, j ≠ n → t.links[j] = s.links[j]) ∧
    (s.links[n].inOrder id (leAt b 10 2) = false → exec (.mgmtSegmentReceived n x) s = .next s))

/-- R242, R243: the ways up: a signal with a module and no LOS takes DOWN to ALIGNING, block lock an Ethernet port to ETH_UP.
The ways down, which clear the ranging: lost block lock to ALIGNING, a lost signal to DOWN, no mark for 30 µs to ALIGNING. A port
that leaves TIMED so sends LINK_DOWN with the cause. R237, R250, R251: an echo that has not come 50 ns after its prediction is
counted, and the 64th in a row begins the coarse phase again, a TIMED port going to RANGING; two scans of the sideband that agree
change what the port holds of MOD_ABS, TX_FAULT and LOS; a module's bytes replace those in the cache, and a read that failed sets
LNK_EVT bit 10. Each of receiverSignalDetected, blockLock, blockLockLost, receiverSignalLost, marksMissingTimeout, echoMissing,
sbxScan and i2cModulePoll is so said to complete. Of the model's own choices it rests on logs 11 and 39. -/
def Obligations.LinkStates : Prop :=
 (∀ (s : State) (n : Fin 48), s.runs = true →
    (s.links[n].state = .down → s.links[n].modAbs = false → s.links[n].los = false →
      ∃ t, exec (.receiverSignalDetected n) s = .next t ∧ t.links[n].state = .aligning ∧ t.links[n].signal = true ∧
        t.links[n].evt.bits.getLsbD 1 = true ∧ ∀ j, j ≠ n → t.links[j] = s.links[j]) ∧
    (s.links[n].state = .aligning →
      ∃ t, exec (.blockLock n) s = .next t ∧ t.links[n].blockLock = true ∧ (∀ j, j ≠ n → t.links[j] = s.links[j]) ∧
        (s.links[n].eth = true → t.links[n].state = .ethUp) ∧
        (s.links[n].eth = false → s.links[n].goodMarks < 1000 → t.links[n].state = .aligning)) ∧
    (∀ (c : Instr) (st : LinkState) (cause : Nat), s.links[n].state.lit = true →
      (c = .blockLockLost n ∧ s.links[n].blockLock = true ∧ s.links[n].state ≠ .aligning ∧ st = .aligning ∧ cause = 2 ∨
        c = .receiverSignalLost n ∧ st = .down ∧ cause = 1 ∨
        c = .marksMissingTimeout n ∧ s.links[n].state.synced = true ∧ (reachCyc (s.links[n].markAt + 45000) s.toHub).isSome = true ∧
          st = .aligning ∧ cause = 3) →
      ∃ t, exec c s = .next t ∧ t.links[n].state = st ∧ t.links[n].fs = [] ∧ t.links[n].windowed = false ∧
        t.links[n].goodMarks = 0 ∧ (∀ j, j ≠ n → t.links[j] = s.links[j]) ∧
        (s.links[n].state = .timed → s.flt.queue.length < 64 → t.links[n].evt.bits.getLsbD 5 = true ∧
          ∃ m l, t.flt.queue = s.flt.queue ++ m :: l ∧ m.msg.source = BitVec.ofNat 12 (0x0C0 + n.val) ∧
            m.msg.kind = .linkDown ∧ m.msg.address = BitVec.ofNat 32 cause))) ∧
 (∀ (s : State) (n : Fin 48) (pred dep : Int) (seq : BitVec 16) (h : Hub), s.runs = true → s.links[n].ternen = true →
    s.links[n].windowed = true → s.links[n].state.synced = true → s.links[n].rtPred = some pred →
    s.links[n].waitsFor = some (seq, dep) → reachNom (dep + pred + 3276801) s.toHub = some h →
    ∃ t, exec (.echoMissing n) s = .next t ∧ (∀ j, j ≠ n → t.links[j] = s.links[j]) ∧
      (s.links[n].missRun < 63 → t.links[n] = { s.links[n].noteEcho seq with missRun := s.links[n].missRun + 1 }) ∧
      (63 ≤ s.links[n].missRun → t.links[n].windowed = false ∧ t.links[n].rtPred = none ∧ t.links[n].missRun = 0 ∧
        (s.links[n].state = .timed → t.links[n].state = .ranging))) ∧
 (∀ (s : State) (c : Fin 4) (p : Fin 12) (n : Fin 48) (bits : BitVec 48), s.runs = true → n.val = 12 * c.val + p.val →
    ∃ t, exec (.sbxScan c bits) s = .next t ∧ t.links[n].rawLos = bits.getLsbD (4 * p) ∧
      t.links[n].rawFault = bits.getLsbD (4 * p + 1) ∧ t.links[n].rawAbs = bits.getLsbD (4 * p + 2) ∧
      t.links[n].los = (if s.links[n].rawLos = bits.getLsbD (4 * p) then bits.getLsbD (4 * p) else s.links[n].los) ∧
      t.links[n].txFault = (if s.links[n].rawFault = bits.getLsbD (4 * p + 1) then bits.getLsbD (4 * p + 1) else s.links[n].txFault) ∧
      t.links[n].modAbs = (if s.links[n].rawAbs = bits.getLsbD (4 * p + 2) then bits.getLsbD (4 * p + 2) else s.links[n].modAbs)) ∧
 (∀ (s : State) (n : Fin 48), s.runs = true → pb s.links[n].cfg 1 4 = true →
    (∀ b : Bytes, ∃ t, exec (.i2cModulePoll n 0 (some b)) s = .next t ∧ t.links[n] = { s.links[n] with modA0 := slice b 0 256 }) ∧
    (∀ b : Bytes, ∃ t, exec (.i2cModulePoll n 1 (some b)) s = .next t ∧ t.links[n].modA0 = s.links[n].modA0 ∧
      (t.links[n].modA2.drop 96).take 16 = slice b 0 16) ∧
    (∀ dev, ∃ t, exec (.i2cModulePoll n dev none) s = .next t ∧ t.links[n].modA0 = s.links[n].modA0 ∧
      t.links[n].evt.bits.getLsbD 10 = true))

/-! ## The hierarchy, PTP and ESMC (chapter 08) -/

/-- R266, R267, R268: once a second the ANNOUNCE of a hub that announces stands on every management port with its priority and class, and for
a MANAGER its address and standby. A MANAGER that hears a lower tuple steps down to WORKER, with HIER_EVT bit 1, and follows it;
a hub without a manager follows the one it hears. R267: three seconds without an ANNOUNCE make a capable STANDBY the MANAGER and a
WORKER or PASSIVE hub UNASSIGNED, with HIER_EVT bit 3 (a STANDBY with priority 255, log 87, too); three seconds in which a capable hub's tuple was the lowest make it the
MANAGER. A hub that becomes MANAGER without an address takes the lowest free one. R263, R270, R271: a MANAGER's discovery, every 10 s,
takes the next scan number and sends DISCOVER; a hub that hears it reports, to each DISCOVER in turn, after (serial modulo 256) ms; the MANAGER enters a hub that
reports in its table under the address it chooses; an ASSIGN for this hub's serial gives it its address, and 0x000 makes it
PASSIVE. Each of announceSend, announceReceived, managerSilentTimeout, lowestTupleTimeout, discoverSend, discoverReceived,
reportSend, reportReceived and assignReceived is so said to complete. Of the model's own choices it rests on logs 23, 40, 43 and 87. -/
def Obligations.ElectionAndAddresses : Prop :=
 ((∀ s : State, s.hierRuns = true → s.announces = true → s.hier.annNext ≤ s.clk.ms →
    ∃ t, exec .announceSend s = .next t ∧ t.hier.seq = s.hier.seq + 1 ∧ t.hier.role = s.hier.role ∧
      t.hier.annNext = s.clk.ms + 1000 ∧
      ∀ n : Fin 48, s.links[n].mgmtOpen = true → ∃ x, t.links[n].tx = s.links[n].tx ++ [x] ∧ x.dst = 0xFFF ∧ x.sent = 0 ∧
        x.segs = segments 64 (mgmtMessage 1 15 s.hier.seq Config.serial
          ([BitVec.ofNat 8 s.hier.priority, BitVec.ofNat 8 s.hierClass]
            ++ leBytes 2 (if s.hier.role = .manager then s.hier.addr.toNat else 0)
            ++ leBytes 8 (if s.hier.role = .manager then s.nextStandby.toNat else 0) ++ [0, 0, 0, 0]))) ∧
  (∀ (s : State) (m : Msg) (rest : List Msg) (tup : Nat × Nat × BitVec 64), s.hierRuns = true → s.hier.inbox = m :: rest →
    msgKind m.data = 1 → tup = ((byteAt (msgBody m.data) 0).toNat, (byteAt (msgBody m.data) 1).toNat, msgOrigin m.data) →
    BitVec.ofNat 12 (leAt (msgBody m.data) 2 2) ≠ 0 →
    (s.hier.role = .manager ∧ tupleLt tup s.ownTuple = true ∨ s.hier.role ≠ .manager ∧ s.hier.mgrTuple = none) →
    ∃ t, exec .announceReceived s = .next t ∧ t.hier.inbox = rest ∧ t.hier.mgrSerial = tup.2.2 ∧ t.hier.mgrPrio = tup.1 ∧
      t.hier.mgrAddr = BitVec.ofNat 12 (leAt (msgBody m.data) 2 2) ∧ t.hier.mgrMs = s.clk.ms ∧
      (s.hier.role = .manager → t.hier.role = .worker ∧ t.hier.evt.bits.getLsbD 1 = true ∧ t.hier.fwds = [] ∧ t.hier.table = []))) ∧
 (∀ s : State, s.hierRuns = true →
    (s.hier.mgrMs + 3000 ≤ s.clk.ms → s.hier.role = .standby → s.hier.capable = true →
      ∃ t, exec .managerSilentTimeout s = .next t ∧ t.hier.role = .manager ∧ t.hier.mgrSerial = Config.serial ∧ t.hier.table = [] ∧
        t.hier.evt.bits.getLsbD 0 = true ∧ (s.hier.addr = 0 → t.hier.addr = 1) ∧ (s.hier.addr ≠ 0 → t.hier.addr = s.hier.addr)) ∧
    (s.hier.mgrMs + 3000 ≤ s.clk.ms →
      s.hier.role = .worker ∨ s.hier.role = .passive ∨ s.hier.role = .standby ∧ s.hier.capable = false →
      ∃ t, exec .managerSilentTimeout s = .next t ∧ t.hier.role = .unassigned ∧ t.hier.mgrSerial = 0 ∧ t.hier.addr = s.hier.addr ∧
        t.hier.evt.bits.getLsbD 3 = true ∧ t.hier.evt.bits.getLsbD 0 = true) ∧
    (∀ since, s.hier.capable = true → s.hier.lowSince = some since → since + 3000 ≤ s.clk.ms →
      s.hier.role = .unassigned ∨ s.hier.role = .worker ∨ s.hier.role = .standby →
      ∃ t, exec .lowestTupleTimeout s = .next t ∧ t.hier.role = .manager ∧ t.hier.mgrSerial = Config.serial)) ∧
 ((∀ s : State, s.hierRuns = true → s.hier.role = .manager → s.hier.discNext ≤ s.clk.ms →
    ∃ t, exec .discoverSend s = .next t ∧ t.hier.discNext = s.clk.ms + 10000 ∧ t.hier.scan = s.hier.scan + 1 ∧ t.hier.answered = [] ∧
      ∀ n : Fin 48, s.links[n].mgmtOpen = true → ∃ x l, t.links[n].tx = s.links[n].tx ++ x :: l ∧ x.dst = 0xFFF ∧
        x.segs = segments 64 (mgmtMessage 2 15 s.hier.seq Config.serial
          (leBytes 2 (s.hier.scan + 1).toNat ++ List.replicate 6 0))) ∧
  (∀ (s : State) (m : Msg) (rest : List Msg), s.hierRuns = true → s.hier.inbox = m :: rest → msgKind m.data = 2 →
    ∃ t, exec .discoverReceived s = .next t ∧ t.hier.inbox = rest ∧ t.hier.reportDue =
      s.hier.reportDue ++ [(BitVec.ofNat 16 (leAt (msgBody m.data) 0 2), s.clk.ms + Config.serial.toNat % 256, m.src)]) ∧
  (∀ (s : State) (scan : BitVec 16) (due : Nat) (dst : BitVec 12)
    (rest : List (BitVec 16 × Nat × BitVec 12)) (n : Fin 48), s.hierRuns = true →
    s.hier.reportDue = (scan, due, dst) :: rest → due ≤ s.clk.ms → dst ≠ 0xFFF → s.hier.portOf dst = some n →
    s.links[n].mgmtOpen = true →
    ∃ t, exec .reportSend s = .next t ∧ t.hier.reportDue = rest ∧ ∃ x, t.links[n].tx = s.links[n].tx ++ [x] ∧ x.dst = dst ∧
      x.segs = segments 64 (mgmtMessage 3 15 s.hier.seq Config.serial (reportBody s.toHub scan))) ∧
  (∀ (s : State) (m : Msg) (rest : List Msg), s.hierRuns = true → s.hier.inbox = m :: rest → msgKind m.data = 3 →
    s.hier.role = .manager →
    ∃ t, exec .reportReceived s = .next t ∧ t.hier.inbox = rest ∧
      (∀ a, s.chooseAddr (msgOrigin m.data) m.src = some a →
        ∃ r ∈ t.hier.table, r.serial = msgOrigin m.data ∧ r.addr = a ∧ r.passive = false) ∧
      (s.chooseAddr (msgOrigin m.data) m.src = none →
        ∃ r ∈ t.hier.table, r.serial = msgOrigin m.data ∧ r.addr = 0 ∧ r.passive = true)) ∧
  (∀ (s : State) (m : Msg) (rest : List Msg) (a : BitVec 12), s.hierRuns = true → s.hier.inbox = m :: rest →
    msgKind m.data = 4 → BitVec.ofNat 64 (leAt (msgBody m.data) 0 8) = Config.serial → s.hier.role ≠ .manager →
    a = BitVec.ofNat 12 (leAt (msgBody m.data) 8 2) →
    ∃ t, exec .assignReceived s = .next t ∧ t.hier.inbox = rest ∧ t.hier.addr = a ∧
      (s.hier.addr ≠ a → t.hier.evt.bits.getLsbD 2 = true) ∧
      t.hier.role = (if a = 0 then .passive else if s.hier.role = .unassigned ∨ s.hier.role = .passive then .worker else s.hier.role)))

/-- R275, R276, R277: HIER_FORWARD keeps a pending forward with a new tag; a DESC message starts in a free place, and waits when
all four are taken; the end of a DESC message frees its place; a COMPL ends its forward, whose descriptor completes with OK, with
the number of completions, the worker's address and the serial that sent the COMPL, and so does its timeout, with TIMEOUT and HIER_EVT bit 7. R284, R285: HIER_DISCOVER LOCAL puts its 48 bytes in force; a STANDBY whose
priority becomes 255 is a WORKER (log 87); SCAN on a MANAGER begins a discovery and waits, and completes 1 s later with the hubs
that have an address, the passive ones and the new ones; ASSIGN makes a fixed assignment, for one serial at a time, or removes
one. Each of hierForward, descReceived, complSend, complReceived, hierForwardTimeout, hierDiscoverLocal, hierDiscoverScan,
hierDiscoverAssign and scanComplete is so said to complete. Of the model's own choices it rests on logs 31 and 87. -/
def Obligations.GroupDescriptors : Prop :=
 ((∀ (o : Origin) (ws : List DescWord) (d : Desc) (s : State), s.Serves o d → d.opcode = 0x90 →
    forwardBad s.toHub d.payload = false → (s.hier.table.any fun r => r.addr == BitVec.ofNat 12 (pf d.payload 0 0 12)) = true →
    s.hier.fwds.length < 16 →
    ∃ t, exec (.hierForward o ws) s = .next t ∧ t.hier.tag = s.hier.tag + 1 ∧ t.hier.fwds = s.hier.fwds ++
      [{ desc := d.id, tag := s.hier.tag, dst := BitVec.ofNat 12 (pf d.payload 0 0 12), count := pf d.payload 2 0 16,
         compl := BitVec.ofNat 64 (pf d.payload 16 0 64), due := s.clk.ms + pf d.payload 4 0 32 }]) ∧
  (∀ (s : State) (m : Msg) (rest : List Msg), s.hierRuns = true → s.hier.inbox = m :: rest → msgKind m.data = 5 →
    s.hier.role ≠ .passive → inRange (leAt (msgBody m.data) 4 2) 1 128 = true →
    16 + 64 * leAt (msgBody m.data) 4 2 ≤ (msgBody m.data).length →
    ∃ t, exec .descReceived s = .next t ∧ t.hier.inbox = rest ∧
      (s.hier.runsWait = [] → s.hier.runs[(0 : Fin 4)] = none → ∃ r, t.hier.runs[(0 : Fin 4)] = some r ∧
        r.tag = BitVec.ofNat 32 (leAt (msgBody m.data) 0 4) ∧ r.replyTo = m.src) ∧
      ((∀ k : Fin 4, s.hier.runs[k].isSome = true) → t.hier.runs = s.hier.runs ∧ ∃ r, t.hier.runsWait = s.hier.runsWait ++ [r] ∧
        r.tag = BitVec.ofNat 32 (leAt (msgBody m.data) 0 4))) ∧
  (∀ (s : State) (r : DescRun), s.hierRuns = true → s.hier.runs[(0 : Fin 4)] = some r → r.over = true → s.hier.runsWait = [] →
    ∃ t, exec .complSend s = .next t ∧ t.hier.runs[(0 : Fin 4)] = none ∧ t.hier.seq = s.hier.seq + 1 ∧
      ∀ k : Fin 4, k ≠ 0 → t.hier.runs[k] = s.hier.runs[k]) ∧
  (∀ (s : State) (m : Msg) (rest : List Msg) (f : Fwd), s.hierRuns = true → s.hier.inbox = m :: rest → msgKind m.data = 6 →
    (s.hier.fwds.find? fun x => x.tag == BitVec.ofNat 32 (leAt (msgBody m.data) 0 4)) = some f →
    ∃ t, exec .complReceived s = .next t ∧ t.hier.inbox = rest ∧ (∀ x, x ∈ t.hier.fwds ↔ x ∈ s.hier.fwds ∧ x.tag ≠ f.tag) ∧
      ∀ e q, s.inCharge = true → s.idsOk → f.desc = e.id → e ∈ s.host.inflight → e.origin = .ring q → e.discard = false →
        t.Posted e .ok (resultOf [(0, 16, min (leAt (msgBody m.data) 4 2) f.count), (16, 16, f.dst.toNat),
          (32, 64, (msgOrigin m.data).toNat)])) ∧
  (∀ (s : State) (tag : BitVec 32) (f : Fwd), s.runs = true → (s.hier.fwds.find? fun x => x.tag == tag) = some f →
    f.due ≤ s.clk.ms →
    ∃ t, exec (.hierForwardTimeout tag) s = .next t ∧ (∀ x, x ∈ t.hier.fwds ↔ x ∈ s.hier.fwds ∧ x.tag ≠ tag) ∧
      t.hier.evt.bits.getLsbD 7 = true ∧
      ∀ e q, s.inCharge = true → s.idsOk → f.desc = e.id → e ∈ s.host.inflight → e.origin = .ring q → e.discard = false →
        ∃ r, t.Posted e .timeout r)) ∧
 ((∀ (o : Origin) (d : Desc) (s : State), s.Serves o d → d.opcode = 0x91 →
    (discOp d.payload = 0 → pf d.payload 2 0 2 ≠ 3 →
      ∃ t, exec (.hierDiscoverLocal o) s = .next t ∧ t.hier.cfg = d.payload ∧
        t.hier.role = (if s.hier.role = .standby ∧ pf d.payload 1 0 8 = 255 then .worker else s.hier.role) ∧
        ∀ q, o = .ring q → d.discard = false → ∃ r, t.Posted d .ok r) ∧
    (discOp d.payload = 2 → s.hier.role = .manager →
      ∃ t, exec (.hierDiscoverScan o) s = .next t ∧ t.hier.scans = s.hier.scans ++ [(d.id, s.clk.ms, 0)] ∧
        t.hier.scan = s.hier.scan + 1) ∧
    (∀ a serial, discOp d.payload = 3 → s.hier.role = .manager → a = BitVec.ofNat 12 (pf d.payload 2 0 12) →
      serial = BitVec.ofNat 64 (pf d.payload 8 0 64) → a ≠ 0xFFF → s.hier.fixed.length < 256 →
      ∃ t, exec (.hierDiscoverAssign o) s = .next t ∧
        (a = 0 → ∀ x, x ∈ t.hier.fixed ↔ x ∈ s.hier.fixed ∧ x.1 ≠ serial) ∧
        (a ≠ 0 → ∀ x, x ∈ t.hier.fixed ↔ x = (serial, a) ∨ x ∈ s.hier.fixed ∧ x.1 ≠ serial ∧ x.2 ≠ a) ∧
        ∀ q, o = .ring q → d.discard = false → ∃ r, t.Posted d .ok r)) ∧
  (∀ (s : State) (e : Desc) (began fresh : Nat) (rest : List (Nat × Nat × Nat)) (q : Fin 16), s.runs = true → s.inCharge = true → s.idsOk →
    s.hier.scans = (e.id, began, fresh) :: rest → began + 1000 ≤ s.clk.ms → e ∈ s.host.inflight → e.origin = .ring q →
    e.discard = false →
    ∃ t, exec .scanComplete s = .next t ∧ t.hier.scans = rest ∧
      t.Posted e .ok (resultOf [(0, 16, s.hier.addressed), (16, 16, s.hier.passives), (32, 16, fresh)])))

/-- R278, R279, R280: HIER_DISCOVER PTP puts its 48 bytes in force for its port; event messages are stamped at the fibre reference
plane; a MASTER port sends Sync with its time, or with its time in a Follow_Up, and answers a Delay_Req; a SLAVE port without p2p
sends Delay_Req; a port with p2p sends Pdelay_Req, answers one with the time that it held it, and has the path delay with the
answer to its own. R281: a Sync on a SLAVE port gives the path delay with the answer to its Delay_Req, and adds its sample once a
path delay has been measured. R280: an Announce is kept where its port had none; without Announces for the receipt timeout the
master that the port heard is forgotten. R281, R283, R131: no Sync is the loss of the port's slots. ESMC PDUs leave an Ethernet
port that is up with the quality level of R283, once a second, and the event PDU where that level changed; a received level is
kept; without a PDU for 5 s none has been seen. Each of hierDiscoverPtp, ptpEventMessage, ptpSyncReceived, ptpAnnounceReceived,
ptpAnnounceReceiptTimeout, ptpSyncTimeout, esmcPduSend, esmcEventPduSend, esmcPduReceived and esmcAbsentTimeout is so said to
complete. Of the model's own choices it rests on logs 12 and 86. -/
def Obligations.PtpAndEsmc : Prop :=
 ((∀ (o : Origin) (d : Desc) (s : State) (n : Fin 48), s.Serves o d → d.opcode = 0x91 → discOp d.payload = 1 →
    pf d.payload 1 0 8 = n.val → ptpBad d.payload = false →
    ∃ t, exec (.hierDiscoverPtp o) s = .next t ∧ t.hier.ptp[n].cfg = d.payload ∧
      ∀ j, j ≠ n → t.hier.ptp[j].cfg = s.hier.ptp[j].cfg) ∧
  (∀ (s : State) (n : Fin 48) (st : Stamp) (h : Hub) (p : PtpPort) (tx rx : Int) (w : PtpSent → WireOp), s.ptpUp n = true →
    h = advanceTo st.cyc s.toHub → p = s.hier.ptp[n] → tx = h.dom0Stamp (laneOfTx n) st + h.dtxFu n →
    rx = h.dom0Stamp (laneOfRx n) st - h.drxFu n → w = .ptp n (pf p.cfg 2 3 2) (pf p.cfg 4 0 8) →
    (p.state = .master →
      ∃ t, exec (.ptpEventMessage n .syncSent st) s = .next t ∧ t.hier.ptp[n] = { p with txStamp := tx } ∧
        t.wire = (if p.twoStep = true then [w (.followUp tx), w (.sync 0)] else [w (.sync tx)]) ++ s.wire) ∧
    (p.state = .slave → p.p2p = false →
      ∃ t, exec (.ptpEventMessage n .delayReqSent st) s = .next t ∧ t.wire = w .delayReq :: s.wire ∧
        t.hier.ptp[n] = { p with txStamp := tx, reqStamp := some tx }) ∧
    (p.p2p = true →
      (∃ t, exec (.ptpEventMessage n .pdelayReqSent st) s = .next t ∧ t.wire = w .pdelayReq :: s.wire ∧
        t.hier.ptp[n] = { p with txStamp := tx, reqStamp := some tx }) ∧
      (∃ t, exec (.ptpEventMessage n .pdelayRespSent st) s = .next t ∧ t.hier.ptp[n] = { p with txStamp := tx } ∧
        t.wire = (if p.twoStep = true then [w (.pdelayFollowUp (tx - p.rxStamp)), w (.pdelayResp 0)]
          else [w (.pdelayResp (tx - p.rxStamp))]) ++ s.wire) ∧
      (∀ held t1, p.reqStamp = some t1 →
        ∃ t, exec (.ptpEventMessage n (.pdelayRespReceived held) st) s = .next t ∧ t.wire = s.wire ∧
          t.hier.ptp[n] = { p with path := rdiv (rx - t1 - held) 2, pathOk := true, reqStamp := none, rxStamp := rx })) ∧
    (∃ t, exec (.ptpEventMessage n .delayReqReceived st) s = .next t ∧ t.hier.ptp[n] = { p with rxStamp := rx } ∧
      t.wire = (if p.state = .master ∧ p.p2p = false then [w (.delayResp rx)] else []) ++ s.wire) ∧
    (∃ t, exec (.ptpEventMessage n .pdelayReqReceived st) s = .next t ∧ t.hier.ptp[n] = { p with rxStamp := rx } ∧
      t.wire = s.wire) ∧
    (∀ origin resp q, p.state = .slave → q = p.pathBy rx origin resp →
      ∃ t, exec (.ptpSyncReceived n st origin resp) s = .next t ∧ t.hier.ptp[n].path = q.path ∧ t.hier.ptp[n].pathOk = q.pathOk ∧
        t.hier.ptp[n].rxStamp = rx ∧ t.hier.ptp[n].syncMs = s.clk.ms ∧
        (∀ t4 t3, p.p2p = false → p.reqStamp = some t3 → resp = some t4 →
          q.path = rdiv ((rx - origin) + (t4 - t3)) 2 ∧ q.pathOk = true) ∧
        (q.pathOk = true → t.hier.ptp[n].offset = rx - (origin + q.path) ∧ t.hier.ptp[n].xN = p.xN + 1 ∧
          t.hier.ptp[n].xSum = p.xSum + (h.lineStamp (laneOfRx n) st - h.drxFu n - (origin + q.path))) ∧
        (q.pathOk = false → t.hier.ptp[n].offset = p.offset ∧ t.hier.ptp[n].xN = p.xN ∧ t.hier.ptp[n].xSum = p.xSum)) ∧
    (∀ d : PtpData, d.sender ≠ Config.serial → d.stepsRemoved < 255 → p.best = none →
      ∃ t, exec (.ptpAnnounceReceived n d) s = .next t ∧ t.hier.ptp[n].best = some d ∧ t.hier.ptp[n].annMs = s.clk.ms) ∧
    (p.annMs + p.announceLimit ≤ s.clk.ms →
      ∃ t, exec (.ptpAnnounceReceiptTimeout n) s = .next t ∧ t.hier.ptp[n].best = none))) ∧
 (∀ (s : State) (n : Fin 48) (p : PtpPort), s.runs = true → s.links[n].eth = true → s.links[n].state = .ethUp →
    p = s.hier.ptp[n] →
    (∀ k : Fin 12, s.ptpUp n = true → p.state = .slave → s.lrefs n = [k] → p.syncMs + p.syncLimit ≤ s.clk.ms →
      ∃ t, exec (.ptpSyncTimeout n) s = .next t ∧ t.refs[k].state = .absent ∧ ∀ j, j ≠ k → t.refs[j].state = s.refs[j].state) ∧
    (p.esmcEn = true → (∀ last, p.infoMs = some last → last + 1000 ≤ s.clk.ms) →
      ∃ t, exec (.esmcPduSend n) s = .next t ∧ t.wire = .esmc n (s.qlSent n) false :: s.wire ∧
        t.hier.ptp[n] = { p with txQl := some (s.qlSent n), infoMs := some s.clk.ms }) ∧
    (p.esmcEn = true → p.txQl ≠ some (s.qlSent n) →
      ∃ t, exec (.esmcEventPduSend n) s = .next t ∧ t.wire = .esmc n (s.qlSent n) true :: s.wire ∧
        t.hier.ptp[n] = { p with txQl := some (s.qlSent n) }) ∧
    (∀ ql, ∃ t, exec (.esmcPduReceived n ql) s = .next t ∧
      t.hier.ptp[n] = { p with rxQl := ql, esmcSeen := true, esmcMs := s.clk.ms }) ∧
    (p.esmcMs + 5000 ≤ s.clk.ms →
      ∃ t, exec (.esmcAbsentTimeout n) s = .next t ∧ t.hier.ptp[n] = { p with esmcSeen := false }))

/-! ## Reeds, tasks and wardens (chapter 09) -/

/-- R316, R317, R318: a TASK_ASSIGN that R316 does not refuse sets class, home and rank of its task, and removes an EVENT task
whose enable is 0; a TASK_MOVE to a FREE reed of a half that is ON makes its task MOVING towards it; a TASK_PARAM that R318 does
not refuse puts its 16 bytes in force and starts a new span. R319: a record of the task's slope that follows the last one counts
towards the span, and the one that makes it full gives the result and begins the next span; a record that begins a span is its
first; beyond 5,000,000 records a second a record is skipped and ends the span. Each of taskAssign, taskMove, taskParam and
eventTaskRecord is so said to complete. Of the model's own choices it rests on log 38. -/
def Obligations.TasksAssigned : Prop :=
 (∀ (o : Origin) (d : Desc) (s : State), s.Serves o d →
    (∀ k : Fin 126, d.opcode = 0x60 → pf d.payload 0 0 8 = k.val → pf d.payload 1 6 2 ≠ 3 →
      (pf d.payload 3 0 8 ≤ 191 ∨ pf d.payload 3 0 8 = 0xFF) →
      (pf d.payload 1 6 2 = 2 → taskKind k ≠ 3 ∧ taskKind k ≠ 6) →
      (∀ e : Fin 32, taskKind k = 4 → pb d.payload 1 4 = true → k.val = 76 + e.val → s.comp.evTasks[e].accepted = true) →
      ((allFin 126).filter fun u => s.comp.tasks[u].cls = 0 && u != k).length + (if pf d.payload 1 6 2 = 0 then 1 else 0) ≤ 64 →
      (∀ n : Fin 192, pf d.payload 3 0 8 = n.val → s.comp.freeReed n = true) →
      ∃ t, exec (.taskAssign o) s = .next t ∧ t.comp.tasks[k].cls = BitVec.ofNat 2 (pf d.payload 1 6 2) ∧
        t.comp.tasks[k].home = (if pb d.payload 1 5 then .b else .a) ∧
        t.comp.tasks[k].rank = BitVec.ofNat 8 (pf d.payload 2 0 8) ∧
        (taskKind k = 4 → pb d.payload 1 4 = false → t.comp.tasks[k].state = .unplaced ∧ t.comp.tasks[k].reed = none) ∧
        (taskKind k ≠ 4 → pf d.payload 3 0 8 = 0xFF → s.comp.tasks[k].state = .running → t.comp.tasks[k].state = .running ∧
          t.comp.tasks[k].reed = s.comp.tasks[k].reed ∧ ∀ q, o = .ring q → d.discard = false → ∃ r, t.Posted d .ok r)) ∧
    (∀ (k : Fin 126) (n : Fin 192), d.opcode = 0x61 → pf d.payload 0 0 8 = k.val → s.comp.tasks[k].state = .running →
      s.comp.power (halfOf n) = .on → s.comp.freeReed n = true → pf d.payload 2 0 8 = n.val →
      ∃ t, exec (.taskMove o) s = .next t ∧
        t.comp.tasks[k] = { s.comp.tasks[k] with state := .moving, target := some n, desc := some d.id } ∧
        t.comp.reeds[n] = { s.comp.reeds[n] with task := some k } ∧ (∀ j, j ≠ k → t.comp.tasks[j] = s.comp.tasks[j]) ∧
        ∀ j, j ≠ n → t.comp.reeds[j] = s.comp.reeds[j]) ∧
    (∀ e : Fin 32, d.opcode = 0x62 → pf d.payload 0 0 8 = e.val → pf d.payload 1 2 2 ≤ 1 → pf d.payload 1 0 2 ≠ 3 →
      pf d.payload 2 0 8 ≤ 63 → 1 ≤ pf d.payload 4 0 32 → pf d.payload 4 0 32 ≤ 1000000 →
      (pb d.payload 1 6 = true → s.telUp (pf d.payload 1 4 2) = true) →
      ∃ t, exec (.taskParam o) s = .next t ∧ t.comp.evTasks[e].cfg = pbytes d.payload 16 ∧ t.comp.evTasks[e].accepted = true ∧
        t.comp.evTasks[e].first = none ∧ t.comp.evTasks[e].inbox = [] ∧ (∀ j, j ≠ e → t.comp.evTasks[j] = s.comp.evTasks[j]) ∧
        ∀ q, o = .ring q → d.discard = false → ∃ r, t.Posted d .ok r)) ∧
 (∀ (s : State) (e : Fin 32) (r : BitVec 128) (rest : List (BitVec 128)), s.runs = true → s.taskRuns (76 + e.val) = true →
    s.comp.evTasks[e].inbox = r :: rest →
    ∃ t, exec (.eventTaskRecord e) s = .next t ∧ t.comp.evTasks[e].inbox = rest ∧
      (∀ j, j ≠ e → t.comp.evTasks[j] = s.comp.evTasks[j]) ∧
      (5000000 ≤ s.comp.evTasks[e].taken → t.comp.evTasks[e].skipped = satInc32 s.comp.evTasks[e].skipped ∧
        t.comp.evTasks[e].first = none ∧ t.comp.evTasks[e].gap = true) ∧
      (s.comp.evTasks[e].taken < 5000000 → recOvf r = false → (recRising r == (s.comp.evTasks[e].slope == 0)) = true →
        (∀ l, s.comp.evTasks[e].last = some l → recSeq r = (recSeq l + 1) % 65536) →
        (s.comp.evTasks[e].first = none → s.comp.evTasks[e].quantity ≠ 2 →
          t.comp.evTasks[e].first = some r ∧ t.comp.evTasks[e].n = 0) ∧
        (∀ f, s.comp.evTasks[e].first = some f →
          (s.comp.evTasks[e].n + 1 < s.comp.evTasks[e].count_ → t.comp.evTasks[e].n = s.comp.evTasks[e].n + 1 ∧
            t.comp.evTasks[e].first = some f ∧ t.comp.evTasks[e].last = some r) ∧
          (s.comp.evTasks[e].count_ ≤ s.comp.evTasks[e].n + 1 → t.comp.evTasks[e].n = 0 ∧ t.comp.evTasks[e].first = some r ∧
            t.comp.evTasks[e].value = evValue s.comp.evTasks[e].quantity (s.comp.evTasks[e].n + 1) f r))))

/-- R296, R315, R297, R299: a checkpoint, with all that its task keeps, is the newest of the two images of a task that runs; one
that is not complete, or whose CRC is wrong, is not valid. At its next checkpoint a moving task resumes on its target reed and its
descriptor completes with that reed. A task is restored from the newer valid image without errors, else from the other: it runs
warm, and a LINK, REFQ, EVENT or DOMAIN task goes on with what that image holds; with no such image it starts cold, with TASK_FAIL
cause 7 and REED_EVT bit 4. Each of checkpointWrite, taskMoveAtCheckpoint and taskRestored is so said to complete. Of the model's
own choices it rests on logs 11 and 88. -/
def Obligations.CheckpointsMovesRestores : Prop :=
  ∀ (s : State) (k : Fin 126), s.runs = true →
    (∀ size whole, s.comp.tasks[k].state = .running ∨ s.comp.tasks[k].state = .moving → size ≤ 4096 →
      ∃ t, exec (.checkpointWrite k ⟨size, whole⟩) s = .next t ∧ t.comp.tasks[k] = { s.comp.tasks[k] with
          img := ({ time := s.houseShort, at_ := s.nomFu, size, valid := whole, mem := s.taskMem k } :: s.comp.tasks[k].img).take 2
          written := s.comp.tasks[k].written + 1 } ∧ ∀ j, j ≠ k → t.comp.tasks[j] = s.comp.tasks[j]) ∧
    (∀ n, s.comp.tasks[k].state = .moving → s.comp.tasks[k].target = some n →
      ∃ t, exec (.taskMoveAtCheckpoint k) s = .next t ∧ t.comp.tasks[k].state = .running ∧ t.comp.tasks[k].reed = some n ∧
        t.comp.tasks[k].target = none ∧ t.comp.reeds[n].state = .running ∧ t.comp.reeds[n].task = some k ∧
        ∀ e q, s.inCharge = true → s.idsOk → s.comp.tasks[k].desc = some e.id → e ∈ s.host.inflight → e.origin = .ring q →
          e.discard = false → t.Posted e .ok (resultOf [(0, 8, n.val)])) ∧
    (∀ bad0 bad1, s.comp.tasks[k].state = .restoring →
      (∀ (i j : Image) (rest : List Image),
        (s.comp.tasks[k].img = i :: rest → i.valid = true → bad0 = false → s.comp.tasks[k].restorable bad0 bad1 = some i) ∧
        (s.comp.tasks[k].img = i :: j :: rest → i.valid = false ∨ bad0 = true → j.valid = true → bad1 = false →
          s.comp.tasks[k].restorable bad0 bad1 = some j)) ∧
      (∀ i, s.comp.tasks[k].restorable bad0 bad1 = some i →
        ∃ t, exec (.taskRestored k bad0 bad1) s = .next t ∧ t.comp.tasks[k].state = .running ∧ t.comp.tasks[k].cold = false ∧
          t.comp.tasks[k].img = s.comp.tasks[k].img ∧
          (∀ (n : Fin 48) (l : Link), k.val = n.val → i.mem = .link l → t.links[n] = Link.restore l s.links[n]) ∧
          (∀ (n : Fin 12) (r : RefSlot), k.val = 48 + n.val → i.mem = .ref r → t.refs[n] = RefSlot.restore r s.refs[n]) ∧
          (∀ (n : Fin 16) (d : Dom), k.val = 60 + n.val → i.mem = .dom d →
            t.doms[n] = Dom.restore (s.nomFu - i.at_) d s.doms[n]) ∧
          (∀ (n : Fin 32) (e : EvTask), k.val = 76 + n.val → i.mem = .event e →
            t.comp.evTasks[n] = EvTask.restore e s.comp.evTasks[n])) ∧
      (s.comp.tasks[k].restorable bad0 bad1 = none → s.flt.queue.length < 62 →
        ∃ t, exec (.taskRestored k bad0 bad1) s = .next t ∧ t.comp.tasks[k].state = .running ∧ t.comp.tasks[k].cold = true ∧
          t.comp.tasks[k].img = [] ∧ t.comp.evt.bits.getLsbD 4 = true ∧
          (∀ n : Fin 32, k.val = 76 + n.val → t.comp.evTasks[n] = (s.comp.evTasks[n]).forget) ∧
          ∃ m ∈ t.flt.queue, m.msg.kind = .taskFail ∧ m.msg.address = BitVec.ofNat 32 (k.val * 2 ^ 16 + 7)))

/-- R298, R299, R300: a faulted reed is FAILED, or HALTED for cause 4, with its cause, and sends TASK_FAIL; its task is restored
on the spare, counted as a takeover with REED_EVT bit 0; a reed without a task that DEBUG halts is HALTED, and FREE again once
resumed. Each of reedSramError, reedHeartbeatTimeout, reedTrap, reedDebugHalt and reedDebugResume is so said to complete. Of the
model's own choices it rests on logs 24 and 25. -/
def Obligations.ReedFaultsAndTakeovers : Prop :=
  ∀ (s : State) (n : Fin 192),
    (∀ (c : Instr) (cause : Nat), s.reedLive n = true → s.flt.queue.length < 63 →
      (c = .reedSramError n ∧ cause = 1 ∨ c = .reedHeartbeatTimeout n ∧ s.comp.reeds[n].state = .running ∧ cause = 2 ∨
        c = .reedTrap n ∧ cause = 3 ∨ c = .reedDebugHalt n ∧ s.comp.reeds[n].task.isSome = true ∧ cause = 4) →
      ∃ t, exec c s = .next t ∧ t.comp.reeds[n].state = (if cause = 4 then .halted else .failed) ∧
        t.comp.reeds[n].lastCause = BitVec.ofNat 8 cause ∧ t.comp.reeds[n].task = none ∧
        (∃ m ∈ t.flt.queue, m.msg.source = BitVec.ofNat 12 n.val ∧ m.msg.kind = .taskFail) ∧
        ∀ k spare, s.comp.reeds[n].task = some k → s.comp.tasks[k].reed = some n → s.comp.tasks[k].target = none →
          s.comp.spareFor (halfOf n) = some spare →
          t.comp.tasks[k].reed = some spare ∧ t.comp.tasks[k].state = .restoring ∧ t.comp.reeds[spare].task = some k ∧
          t.comp.takeCnt = satAdd 65535 s.comp.takeCnt 1 ∧ t.comp.evt.bits.getLsbD 0 = true) ∧
    (s.reedLive n = true → s.comp.reeds[n].task = none →
      ∃ t, exec (.reedDebugHalt n) s = .next t ∧ t.comp.reeds[n] = { s.comp.reeds[n] with state := .halted, lastCause := 4 } ∧
        (∀ r ∈ t.comp.resv, r.core ≠ .reed n) ∧ ∀ j, j ≠ n → t.comp.reeds[j] = s.comp.reeds[j]) ∧
    (s.runs = true → s.comp.reeds[n].state = .halted → s.toResume = none →
      ∃ t, exec (.reedDebugResume n) s = .next t ∧ t.comp.reeds[n] = { s.comp.reeds[n] with state := .free, task := none } ∧
        ∀ j, j ≠ n → t.comp.reeds[j] = s.comp.reeds[j])

/-- R302, R303, R304, R305, R306: HALF_POWER OFF begins where R304 allows it, and a half without tasks drains at once; when it
has drained, its rails are off, its reeds and warden OFF, and charge has gone to the other warden. HALF_POWER ON begins with
STARTING, in which its reeds load but for those that were FAILED or HALTED (R300), and ends ON with the warden in SHADOW. A half that loses its rails is OFF at once, which is a RECOVERY condition.
R308, R310: the warden in charge whose heartbeat stops is held, with WATCHDOG, and the one in SHADOW takes charge, a takeover
that ends SERVICE; the first claim wins charge, a double claim goes by the strap, a later one finds SHADOW; a released warden
boots into SHADOW; a split claim is settled for the strap's half if it is ON, the other warden held. R311, R312: a reservation
that reaches its age is broken, with LOCK_BROKEN from its holder and REED_EVT bit 5. Each of halfPowerOff,
halfPowerOn, halfPowerOffDone, halfPowerOnDone, halfLost, wardenHeartbeatTimeout, chargeClaim, wardenRelease, splitCharge and
reservationAgeTimeout is so said to complete. Of the model's own choices it rests on logs 27 and 37. -/
def Obligations.HalvesAndWardens : Prop :=
 ((∀ (o : Origin) (d : Desc) (s : State) (x : Side), s.Serves o d → d.opcode = 0xA0 → halfField d.payload = some x →
    s.comp.job = none →
    (pb d.payload 1 0 = false → s.comp.power x ≠ .off → s.mayPowerOff x = true →
      (s.tasksOn x = [] ∨ pb d.payload 1 1 = true) →
      ∃ t, exec (.halfPowerOff o) s = .next t ∧ t.comp.job = some { half := x, on := false, desc := some d.id } ∧
        (s.tasksOn x = [] → t.comp.power x = .draining)) ∧
    (pb d.payload 1 0 = true → s.comp.power x ≠ .on →
      ∃ t, exec (.halfPowerOn o) s = .next t ∧ t.comp.job = some { half := x, on := true, desc := some d.id } ∧
        t.comp.power x = .starting ∧ t.comp.warden x = .booting ∧
        ∀ n : Fin 192, t.comp.reeds[n].state =
          (if halfOf n = x then s.comp.reeds[n].bad.getD .loading else s.comp.reeds[n].state))) ∧
  (∀ (s : State) (j : HalfJob), s.runs = true → s.comp.job = some j →
    (j.on = false → s.tasksOn j.half = [] → j.desc.isSome = true →
      ∃ t, exec .halfPowerOffDone s = .next t ∧ t.comp.job = none ∧ t.comp.power j.half = .off ∧ t.comp.warden j.half = .off ∧
        (∀ n : Fin 192, halfOf n = j.half → t.comp.reeds[n].state = .off) ∧
        (s.comp.charge = some j.half → t.comp.charge = some (otherSide j.half) ∧
          t.comp.warden (otherSide j.half) = .inCharge ∧ t.comp.cevt.bits.getLsbD 4 = true) ∧
        (s.comp.charge ≠ some j.half → t.comp.charge = s.comp.charge)) ∧
    (j.on = true → j.desc.isSome = true →
      ∃ t, exec .halfPowerOnDone s = .next t ∧ t.comp.job = none ∧ t.comp.power j.half = .on ∧ t.comp.warden j.half = .shadow ∧
        t.comp.cevt.bits.getLsbD (match j.half with | .a => 2 | .b => 3) = true ∧
        ∀ e q, s.inCharge = true → s.comp.charge ≠ some j.half → s.idsOk → j.desc = some e.id → e ∈ s.host.inflight →
          e.origin = .ring q → e.discard = false → ∃ r, t.Posted e .ok r)) ∧
  (∀ (s : State) (x : Side), s.runs = true → s.comp.power x ≠ .off →
    ∃ t, exec (.halfLost x) s = .next t ∧ t.comp.power x = .off ∧ t.comp.warden x = .off ∧
      (t.comp.job = match s.comp.job with
        | some j => if j.on && j.half != x then some j else none
        | none => none) ∧
      (∀ n : Fin 192, halfOf n = x → t.comp.reeds[n].state = .off ∧ t.comp.reeds[n].task = none) ∧
      t.comp.evt.bits.getLsbD 8 = true ∧ (s.inMode .service = true → t.top.mode = .recovery))) ∧
 (∀ s : State, s.runs = true →
    (∀ (w : Side) (b : Bool), s.comp.charge = some w → s.comp.warden w ≠ .off → s.flt.queue.length < 64 →
      ∃ t, exec (.wardenHeartbeatTimeout b) s = .next t ∧ t.comp.warden w = .held ∧
        (∃ m l, t.flt.queue = s.flt.queue ++ m :: l ∧ m.msg.source = 0x322 ∧ m.msg.kind = .watchdog) ∧
        (s.comp.warden (otherSide w) = .shadow → t.comp.charge = some (otherSide w) ∧
          t.comp.warden (otherSide w) = .inCharge ∧ t.comp.cevt.bits.getLsbD 0 = true ∧
          (s.inMode .service = true → t.top.mode = .recovery)) ∧
        (s.comp.warden (otherSide w) ≠ .shadow → t.comp.charge = none)) ∧
    (∀ w : Side, s.awake = true → s.comp.power w = .on → (s.comp.warden w = .booting ∨ s.comp.warden w = .shadow) →
      ∃ t, exec (.chargeClaim (w == .a) (w == .b)) s = .next t ∧
        (s.comp.charge = none → t.comp.charge = some w ∧ t.comp.warden w = .inCharge) ∧
        (s.comp.charge ≠ none → t.comp.charge = s.comp.charge ∧ t.comp.warden w = .shadow)) ∧
    (∀ w : Side, s.awake = true → w = (if s.top.strapCharge then .b else .a) → s.comp.power .a = .on → s.comp.power .b = .on →
      s.comp.warden .a = .booting → s.comp.warden .b = .booting → s.comp.charge = none →
      ∃ t, exec (.chargeClaim true true) s = .next t ∧ t.comp.charge = some w ∧ t.comp.warden w = .inCharge ∧
        t.comp.warden (otherSide w) = .shadow) ∧
    (∀ w : Side, s.comp.warden w = .held → s.comp.power w = .on → s.comp.split = false →
      s.shim.imageValid (s.imageOfWarden w) = true →
      ∃ t, exec (.wardenRelease w) s = .next t ∧ t.comp.warden w = .shadow ∧
        t.comp.cevt.bits.getLsbD (match w with | .a => 2 | .b => 3) = true) ∧
    (∀ named w : Side, (∀ x, s.comp.warden x = .inCharge ∨ s.comp.warden x = .shadow) → s.flt.queue.length < 64 →
      named = (if s.top.strapCharge then .b else .a) → w = (if s.comp.power named = .on then named else otherSide named) →
      ∃ t, exec .splitCharge s = .next t ∧ t.comp.charge = some w ∧ t.comp.warden w = .inCharge ∧
        t.comp.warden (otherSide w) = .held ∧ t.comp.split = true ∧ t.comp.cevt.bits.getLsbD 1 = true ∧
        ∃ m l, t.flt.queue = s.flt.queue ++ m :: l ∧ m.msg.source = 0x322 ∧ m.msg.kind = .splitCharge)) ∧
 (∀ (s : State) (c : CoreId) (r : Reservation), s.runs = true → s.flt.queue.length < 64 →
    (s.comp.resv.find? fun x => x.core == c) = some r →
    ∃ t, exec (.reservationAgeTimeout c) s = .next t ∧ (∀ x, x ∈ t.comp.resv ↔ x ∈ s.comp.resv ∧ x.core ≠ c) ∧
      t.comp.evt.bits.getLsbD 5 = true ∧ ∃ m, t.flt.queue = s.flt.queue ++ [m] ∧ m.msg.kind = .lockBroken ∧ m.msg.access = 4 ∧
        m.msg.address = r.granule)

/-! ## SELFTEST (chapter 13) -/

/-- R427, R428, R429, R35: a SELFTEST whose target R427 lets be tested begins: its descriptor is the one under test, SERVICE
becomes TEST, and the target is withdrawn: a FREE or FAILED reed is under test, the task of a running one moves to the spare, a
root that is not ACTIVE locks anew, or stays FAULTED until its test has passed (R45), an ACTIVE one changes over to the READY one,
a half is powered down or up, a port is held OFF; lanes and images need no more than R98 and R427 ask. R29: for a reed of a half
that is off or draining it completes with DOMAIN_OFF. R428, R35: SELFTEST_COMPLETE ends the test in progress, once its
target is ready to be judged: TEST becomes SERVICE and the SELFTEST completes with OK and what was found. A reed that failed is
FAILED, with REED_EVT bit 6; a root that failed is FAULTED, and the relation is not valid (R43); a port is no longer held. Each of
selftestReed, selftestLane, selftestRoot, selftestHalf, selftestImage, selftestLink and selftestComplete is so said to complete. Of
the model's own choices it rests on logs 29 and 30. -/
def Obligations.Selftests : Prop :=
 (∀ (o : Origin) (d : Desc) (s : State) (i : Nat), s.Serves o d → d.opcode = 0xF0 → s.inMode .test = false →
    s.inMode .recovery = false → s.flt.selftest = none → i = testIndex d.payload 0 →
    (∀ n : Fin 192, testTarget d.payload = 0 → i = n.val → s.comp.reaches (halfOf n) = true →
      (s.comp.reeds[n].state = .free ∧ s.comp.reeds[n].task = none ∨ s.comp.reeds[n].state = .failed) →
      ∃ t, exec (.selftestReed o) s = .next t ∧ t.flt.selftest = some d.id ∧ (s.inMode .service = true → t.top.mode = .test) ∧
        t.comp.reeds[n] = { s.comp.reeds[n] with state := .test } ∧ (∀ j, j ≠ n → t.comp.reeds[j] = s.comp.reeds[j])) ∧
    (∀ (n m : Fin 192) (k : Fin 126), testTarget d.payload = 0 → i = n.val → s.comp.reaches (halfOf n) = true →
      s.comp.reeds[n].state = .running → s.comp.reeds[n].task = some k → s.comp.tasks[k].state = .running →
      s.comp.tasks[k].reed = some n → s.comp.spareFor (halfOf n) = some m →
      ∃ t, exec (.selftestReed o) s = .next t ∧ t.flt.selftest = some d.id ∧ (s.inMode .service = true → t.top.mode = .test) ∧
        t.comp.tasks[k] = { s.comp.tasks[k] with state := .moving, target := some m, desc := none } ∧
        t.comp.reeds[m].task = some k) ∧
    (∀ n : Fin 192, testTarget d.payload = 0 → i = n.val → s.comp.power (halfOf n) = .off ∨ s.comp.power (halfOf n) = .draining →
      ∃ t, exec (.selftestReed o) s = .next t ∧ t.comp.reeds = s.comp.reeds ∧ t.flt.selftest = none ∧
        ∀ q, o = .ring q → d.discard = false → ∃ r, t.Posted d .domainOff r) ∧
    (testTarget d.payload = 1 → inRange (testCount d.payload) 1 6 = true → noRepeat (testLanes d.payload) = true →
      (∀ l ∈ testLanes d.payload, l ≤ 191) →
      (∀ k : Fin 6, 186 + k.val ∈ testLanes d.payload → s.tdc.cw[k].busy = false) →
      ((testLanes d.payload).filter fun l => !laneAlone l && (s.carrier l).isNone).length ≤
        ((allFin 6).filter fun (k : Fin 6) => !s.tdc.cw[k].busy && !(testLanes d.payload).contains (186 + k.val)).length →
      ∃ t, exec (.selftestLane o) s = .next t ∧ t.flt.selftest = some d.id ∧ (s.inMode .service = true → t.top.mode = .test)) ∧
    (∀ x, testTarget d.payload = 2 → sideOf d.payload = some x → s.clk.root x ≠ .active →
      ∃ t, exec (.selftestRoot o) s = .next t ∧ t.flt.selftest = some d.id ∧ (s.inMode .service = true → t.top.mode = .test) ∧
        t.clk.root x = (if s.clk.root x = .faulted then .faulted else .locking) ∧ t.clk.relValid = false ∧
        t.clk.root (otherSide x) = s.clk.root (otherSide x)) ∧
    (∀ x, testTarget d.payload = 2 → sideOf d.payload = some x → s.clk.root x = .active → s.clk.root (otherSide x) = .ready →
      s.activeSide = x →
      ∃ t, exec (.selftestRoot o) s = .next t ∧ t.flt.selftest = some d.id ∧ (s.inMode .service = true → t.top.mode = .test) ∧
        t.clk.root x = .locking ∧ t.clk.root (otherSide x) = .active) ∧
    (∀ x, testTarget d.payload = 3 → sideOf d.payload = some x → s.comp.job = none → s.mayPowerOff x = true →
      ∃ t, exec (.selftestHalf o) s = .next t ∧ t.flt.selftest = some d.id ∧ (s.inMode .service = true → t.top.mode = .test) ∧
        t.comp.job = some { half := x, on := s.comp.power x == .off, desc := none }) ∧
    (∀ x, testTarget d.payload = 4 → sideOf d.payload = some x →
      ∃ t, exec (.selftestImage o) s = .next t ∧ t.flt.selftest = some d.id ∧ (s.inMode .service = true → t.top.mode = .test)) ∧
    (∀ n : Fin 48, testTarget d.payload = 5 → i = n.val →
      ∃ t, exec (.selftestLink o) s = .next t ∧ t.flt.selftest = some d.id ∧ (s.inMode .service = true → t.top.mode = .test) ∧
        t.links[n].state = .off ∧ t.links[n].held = true ∧ t.links[n].squelch = true ∧ ∀ j, j ≠ n → t.links[j] = s.links[j])) ∧
 (∀ (v : Verdict) (s : State) (e : Desc) (i : Nat), s.flt.selftest = some e.id → e ∈ s.host.inflight → s.idsOk →
    i = testIndex e.payload 0 → testTarget e.payload ≤ 5 →
    (testTarget e.payload = 0 → ∃ n : Fin 192, i = n.val ∧ s.comp.reeds[n].state = .test) →
    (testTarget e.payload = 1 → ∀ x ∈ s.tdc.tests, x.step = 6) →
    (testTarget e.payload = 3 → s.comp.job = none ∧ s.comp.power (if i = 0 then .a else .b) = .on) →
    (testTarget e.payload = 5 → i < 48) →
    ∃ t, exec (.selftestComplete v) s = .next t ∧ t.flt.selftest = none ∧
      (s.inMode .test = true → t.top.mode = .service) ∧ (s.inMode .test = false → t.top.mode = s.top.mode) ∧
      (∀ q, s.inCharge = true → e.origin = .ring q → e.discard = false → ∃ r, t.Posted e .ok r) ∧
      (∀ n : Fin 192, testTarget e.payload = 0 → i = n.val → v.pass = false →
        t.comp.reeds[n].state = .failed ∧ t.comp.evt.bits.getLsbD 6 = true) ∧
      (∀ x : Side, testTarget e.payload = 2 → x = (if i = 0 then .a else .b) → v.pass = false →
        t.clk.root x = .faulted ∧ t.clk.relValid = false) ∧
      (∀ n : Fin 48, testTarget e.payload = 5 → i = n.val → t.links[n].held = false))

/-! ## The Shim store and the Peat record (chapters 12 and 13) -/

/-- R374, R379, R423: a SHIM_READ in the partitions open to it, and a PEAT_READ, write the stored bytes to the host and complete
with OK where no group they touch has errors or poison; with a poisoned group among them they complete with POISONED. Each of
shimRead and peatRead is so said to complete. Of the model's own choices it rests on log 47. -/
def Obligations.StoreReads : Prop :=
  ∀ (o : Origin) (d : Desc) (s : State) (a n : Nat), s.Serves o d →
    (∀ c : Instr,
      (c = .shimRead o ∧ d.opcode = 0x70 ∧ a = shimAddr d.payload ∧ n = shimLen d.payload ∧ inRange n 1 4096 = true ∧
          a + n ≤ 0x400000 ∧ readableRun a n = true ∧ s.shim.applying a n = false ∨
        c = .peatRead o ∧ d.opcode = 0x72 ∧ a = 0x300000 + 64 * pf d.payload 0 0 16 ∧ n = 64 * pf d.payload 2 0 16 ∧
          pf d.payload 0 0 16 + pf d.payload 2 0 16 ≤ 8192 ∧ inRange (pf d.payload 2 0 16) 1 64 = true ∧
          (shimHost d.payload).toNat % 64 = 0) →
      ∃ t, exec c s = .next t ∧ t.shim.mem = s.shim.mem ∧
        ((∀ g ∈ groupsOf a n, s.shim.damageOf g = .clean ∧ g ∉ s.shim.poison) → t.shim = s.shim ∧
          BusOp.write (shimHost d.payload) (memReadN s.shim.mem a n) ∈ t.bus ∧
          ∀ q, o = .ring q → d.discard = false → ∃ r, t.Posted d .ok r) ∧
        ((∃ g ∈ groupsOf a n, g ∈ s.shim.poison) →
          ∀ q, o = .ring q → d.discard = false → ∃ r, t.Posted d .poisoned r))

/-- R376, R380, R381, R385: a WRITE that R381 does not refuse, and an INVALIDATE, queue one transaction with the next sequence
number, the WRITE with the state word of the image it touches; SETTINGS wait for the trim tick. R383, R384, R385: VERIFY of an
image that no warden executes makes it VALID and completes with OK when it passes every check of R383, and completes with DENIED
when it does not; stated for a store without undetected errors. R376: the journal takes the oldest transaction that waits:
opened, committed, or applied, when its bytes stand at its addresses, every byte outside its extents is as it was, and its
descriptor completes. Each of shimTxnWrite, shimTxnInvalidate, shimTxnSettings, shimTxnVerify and journalTransaction is so said to
complete. Of the model's own choices it rests on log 51. -/
def Obligations.StoreTransactions : Prop :=
 (∀ (o : Origin) (d : Desc) (s : State), s.Serves o d → d.opcode = 0x71 →
    (∀ (l data : Bytes) (es : List (Nat × Bytes)), txnOp d.payload = 0 → inRange (txnCount d.payload) 1 16 = true →
      pf d.payload 8 0 64 % 16 = 0 → es = extentsOf (txnCount d.payload) l data → extentsBad es = false →
      s.shim.extentsDenied es = false → s.shim.partPoison es = false →
      ∃ t, exec (.shimTxnWrite o (some (l, data))) s = .next t ∧ t.shim.mem = s.shim.mem ∧
        t.shim.seq = (s.shim.seq + 1) % 2 ^ 32 ∧ t.shim.waiting = s.shim.waiting ++
          [{ seq := s.shim.seq, extents := es ++ (imagesTouched es).map fun i => (stateWordAt i, [0, 0, 0, 0])
             desc := some d.id, total := some (totalOf es), committed := false }]) ∧
    (∀ i, txnOp d.payload = 2 → txnImage d.payload = some i → s.shim.exec i = false →
      ∃ t, exec (.shimTxnInvalidate o) s = .next t ∧ t.shim.mem = s.shim.mem ∧ t.shim.waiting = s.shim.waiting ++
          [{ seq := s.shim.seq, extents := [(stateWordAt i, [0, 0, 0, 0])], desc := some d.id, total := none
             committed := false }]) ∧
    (txnOp d.payload = 3 → inRange (pf d.payload 16 0 32) 1 10000 = true → inRange (pf d.payload 20 0 8) 1 168 = true →
      ∃ t, exec (.shimTxnSettings o) s = .next t ∧
        t.shim.settings = s.shim.settings ++ [(d.id, pf d.payload 16 0 32, pf d.payload 20 0 8)] ∧
        t.shim.setCopy = d.payload.extractLsb' 128 64 ∧ t.shim.slew = s.shim.slew ∧ t.shim.scrubH = s.shim.scrubH)) ∧
 (∀ (o : Origin) (d : Desc) (s : State) (i : Side), s.Serves o d → d.opcode = 0x71 → txnOp d.payload = 1 →
    txnImage d.payload = some i → s.shim.exec i = false → s.shim.damage = [] →
    ∃ t, exec (.shimTxnVerify o) s = .next t ∧
      (s.shim.imageReason i = 0 → t.shim.imageValid i = true ∧
        (∀ a, (a < stateWordAt i ∨ stateWordAt i + 4 ≤ a) → memRead t.shim.mem a = memRead s.shim.mem a) ∧
        ∀ q, o = .ring q → d.discard = false → ∃ r, t.Posted d .ok r) ∧
      (s.shim.imageReason i ≠ 0 → ∀ q, o = .ring q → d.discard = false → ∃ r, t.Posted d .denied r)) ∧
 (∀ (s : State) (x : Txn) (xs : List Txn), s.runs = true → s.shim.halted = false → s.shim.txn = none → s.shim.waiting = x :: xs →
    (∃ t, exec (.journalTransaction .opened) s = .next t ∧ t.shim = { s.shim with txn := some x, waiting := xs }) ∧
    (∃ t, exec (.journalTransaction .committed) s = .next t ∧
      t.shim = { s.shim with txn := some { x with committed := true }, waiting := xs }) ∧
    (∃ t, exec (.journalTransaction .applied) s = .next t ∧ t.shim.txn = none ∧ t.shim.waiting = xs ∧
      (∀ a, (∀ e ∈ x.extents, a < e.1 ∨ e.1 + e.2.length ≤ a) → memRead t.shim.mem a = memRead s.shim.mem a) ∧
      (∀ a b, x.extents = [(a, b)] → a + b.length ≤ 0x400000 →
        (∀ g ∈ groupsOf a b.length, g ∉ s.shim.poison ∧ s.shim.damageOf g ≠ .uncorrectable) →
        memReadN t.shim.mem a b.length = b) ∧
      ∀ e q, s.inCharge = true → s.idsOk → x.desc = some e.id → e ∈ s.host.inflight → e.origin = .ring q →
        e.discard = false → ∃ r, t.Posted e .ok r))

/-- R424: ARM draws a nonce for its ring and completes; a COMMIT that meets the conditions of R424 erases the first-fault zone
and its count, sets FLT_EVT bit 10 and completes with OK; one that does not completes with DENIED and leaves the store. R421,
R422: the handling of a fault, a dump and the way out of SAFE write nothing of the Shim store but entries of the Peat record. Each
of peatArchiveArm and peatArchiveCommit is so said to complete. Of the model's own choices it rests on log 58. -/
def Obligations.PeatRecord : Prop :=
 (∀ (o : Origin) (d : Desc) (s : State), s.Serves o d → d.opcode = 0x73 →
    (archiveOp d.payload = 0 →
      ∃ t nonce, exec (.peatArchiveArm o) s = .next t ∧ t.flt.armed = some (o, nonce, s.clk.ms, false) ∧
        t.shim.mem = s.shim.mem ∧ ∀ q, o = .ring q → d.discard = false → ∃ r, t.Posted d .ok r) ∧
    (archiveOp d.payload = 1 →
      ∃ t, exec (.peatArchiveCommit o) s = .next t ∧ t.flt.armed = none ∧
        (s.archiveOk d = true → 64 ≤ s.flt.head → t.flt.ffCount = 0 ∧ t.flt.ffFull = false ∧ t.flt.evt.bits.getLsbD 10 = true ∧
          (∀ a, 0x300000 ≤ a → a < 0x301000 → memRead t.shim.mem a = 0) ∧
          ∀ q, o = .ring q → d.discard = false → ∃ r, t.Posted d .ok r) ∧
        (s.archiveOk d = false → t.shim.mem = s.shim.mem ∧ t.flt.ffCount = s.flt.ffCount ∧
          ∀ q, o = .ring q → d.discard = false → ∃ r, t.Posted d .denied r))) ∧
 (∀ (s : State) (c : Instr), s.flt.head ≤ 8191 → s.flt.ffCount ≤ 64 →
    (c = .faultMessage ∨ c = .fatalDump ∨ (∃ m v, c = .fltSafeAck m v) ∨ (∃ o, c = .peatArchiveCommit o)) →
    ∃ t, exec c s = .next t ∧ ∀ a, (a < 0x300000 ∨ 0x380000 ≤ a) → memRead t.shim.mem a = memRead s.shim.mem a)

/-- R373, R391, R389, R388: the scrubber mends a correctable group, with ECC_CE and counter 12, and goes on to the next group;
an hour counts in counter 1; the profile of the best valid slot is taken up, with counter 15, and where no slot is valid
SHIM_PROF shows 3 with SHIM_EVT bit 7. Each of scrubGroupRead, hourCounterTick and profileAutostart is so said to complete. Of the
model's own choices it rests on logs 47 and 52. -/
def Obligations.ScrubHoursProfiles : Prop :=
  (∀ (s : State) (e : GroupErr), s.runs = true → s.inMode .boot = false → s.shim.halted = false →
    s.shim.scrub + 1 < 0x40000 → s.shim.scrub ∉ s.shim.poison →
    (e = .clean → s.shim.damageOf s.shim.scrub = .clean →
      ∃ t, exec (.scrubGroupRead e) s = .next t ∧ t.shim = { s.shim with scrub := s.shim.scrub + 1 }) ∧
    (e = .correctable → s.flt.queue.length < 64 →
      ∃ t, exec (.scrubGroupRead e) s = .next t ∧ t.shim.scrub = s.shim.scrub + 1 ∧ t.shim.mem = s.shim.mem ∧
        t.shim.damageOf s.shim.scrub = .clean ∧ t.shim.counters[(12 : Fin 256)] = satAdd (2 ^ 48 - 1) s.shim.counters[(12 : Fin 256)] 1 ∧
        t.shim.evt.bits.getLsbD 0 = true ∧ ∃ m, t.flt.queue = s.flt.queue ++ [m] ∧ m.msg.source = 0x301 ∧ m.msg.kind = .eccCe)) ∧
  (∀ s : State, s.runs = true → 3600000 ≤ s.shim.hourMs →
    ∃ t, exec .hourCounterTick s = .next t ∧ t.shim.hourMs = s.shim.hourMs - 3600000 ∧
      t.shim.counters[(1 : Fin 256)] = satAdd (2 ^ 48 - 1) s.shim.counters[(1 : Fin 256)] 1 ∧
      ∀ k : Fin 256, k ≠ 1 → t.shim.counters[k] = s.shim.counters[k]) ∧
  (∀ s : State, s.inMode .service = true → s.top.profileDue = true → s.inCharge = true → s.shim.damage = [] →
    ∃ t, exec .profileAutostart s = .next t ∧ t.top.profileDue = false ∧
      (s.shim.profBest = none → t.shim.profResult = 3 ∧ t.shim.evt.bits.getLsbD 7 = true) ∧
      (∀ p, s.shim.profBest = some p → t.shim.profSlot = BitVec.ofNat 2 p.val ∧
        t.shim.counters[(15 : Fin 256)] = satAdd (2 ^ 48 - 1) s.shim.counters[(15 : Fin 256)] 1))

/-! ## Roots, oven, ladders and deskew lines (chapter 02) -/

/-- R45, R46, R43, R72: ROOT_A locks and is ACTIVE at once, with the coarse counters cleared, when no root is, and ROOT_B once
ROOT_A is no longer LOCKING; a root that does not lock is FAULTED with cause 1; beside an ACTIVE root the locked one becomes
READY and the relation is valid. R45, R46, R48, R49: a READY root whose fault is detected is FAULTED and the relation no longer
valid; the fault of the ACTIVE one beside a READY one is a changeover: the other root is ACTIVE, each rotator accumulator moves
by φX and C by yX; with no other root ready, CLK_ROOT_EVT bit 9 is set and the root stays. Each fault sends LOCK_LOST with its
cause. A root under SELFTEST keeps its state until the test ends. Each of rootLock, rootLockTimeout, rootRelationValid and
rootFaultDetected is so said to complete. Of the model's own choices it rests on logs 44 and 54. -/
def Obligations.RootsStartAndFault : Prop :=
 (∀ (s : State) (x : Side), s.awake = true → s.clk.root x = .locking → s.rootTested x = false →
    (s.clk.rootLocked x = false →
      (∀ dev, ∃ t, exec (.rootLock ⟨x, dev⟩) s = .next t ∧ t.clk.rootLocked x = true ∧ t.clk.oven = dev ∧
        t.clk.root (otherSide x) = s.clk.root (otherSide x) ∧
        (s.rootActive = false → (s.inMode .boot = true ∨ s.shim.loader = true) → (x = .a ∨ s.clk.aState ≠ .locking) →
          t.clk.root x = .active ∧ t.activeSide = x ∧ t.clk.cycles = 0 ∧ t.clk.pos = 0 ∧ t.clk.ms = 0) ∧
        (s.rootActive = true → t.clk.root x = .locking)) ∧
      (s.flt.queue.length < 64 →
        ∃ t, exec (.rootLockTimeout x) s = .next t ∧ t.clk.root x = .faulted ∧ t.clk.lastCause = 1 ∧
          t.clk.rootEvt.bits.getLsbD (match x with | .a => 1 | .b => 2) = true ∧
          ∃ m, t.flt.queue = s.flt.queue ++ [m] ∧ m.msg.source = (match x with | .a => 0x220 | .b => 0x221) ∧
            m.msg.kind = .lockLost ∧ m.msg.address = 1)) ∧
    (s.clk.rootLocked x = true → s.rootActive = true → x = otherSide s.activeSide →
      ∃ t, exec .rootRelationValid s = .next t ∧ t.clk.root x = .ready ∧ t.clk.relValid = true ∧
        t.clk.root (otherSide x) = s.clk.root (otherSide x))) ∧
 (∀ (s : State) (x : Side) (c : Fin 4), s.runs = true → (c ≠ 3 ∨ s.laneTested 185 = false) → s.flt.queue.length < 64 →
    (s.clk.root x = .ready ∨ s.clk.root x = .active) → (s.clk.root x = .active → s.activeSide = x) →
    ∃ t, exec (.rootFaultDetected x c) s = .next t ∧ t.clk.lastCause = BitVec.ofNat 3 (c.val + 1) ∧
      t.clk.rootEvt.bits.getLsbD (match x with | .a => 1 | .b => 2) = true ∧
      (∃ m l, t.flt.queue = s.flt.queue ++ m :: l ∧ m.msg.source = (match x with | .a => 0x220 | .b => 0x221) ∧
        m.msg.kind = .lockLost ∧ m.msg.address = BitVec.ofNat 32 (c.val + 1)) ∧
      (s.clk.root x = .ready → t.clk.root x = .faulted ∧ t.clk.relValid = false ∧ t.doms = s.doms) ∧
      (s.clk.root x = .active → s.clk.root (otherSide x) = .ready →
        t.clk.root x = .faulted ∧ t.clk.root (otherSide x) = .active ∧ t.activeSide = otherSide x ∧
        t.clk.corr = s.clk.corr + (if x = .a then s.clk.relFreq else -s.clk.relFreq) * 2 ^ 24 ∧
        t.clk.rootEvt.bits.getLsbD 0 = true ∧
        ∀ m : Fin 16, t.doms[m].accA = s.doms[m].acc + BitVec.ofInt 112 (if x = .a then -s.phiX else s.phiX)) ∧
      (s.clk.root x = .active → s.clk.root (otherSide x) ≠ .ready →
        t.clk.root x = .active ∧ t.clk.rootEvt.bits.getLsbD 9 = true ∧ t.doms = s.doms))

/-- R47: a jump of more than 2,000 ppt on ROOT_X holds the domains until it is attributed, CLK_ROOT_EVT bit 3 set; with no slot
qualified it is attributed to the standby root at once, with bit 4; the first slot's result that spans it attributes it by
whether the slot saw half of it, and 2 s without one attribute it to the standby root. The root it is attributed to faults with
cause 3. Each of rootXJump, jumpAttributionTimeout and jumpAttributed is so said to complete. Of the model's own choices it rests
on log 44. -/
def Obligations.JumpsAttributed : Prop :=
  ∀ (s : State), s.runs = true → s.clk.root (otherSide s.activeSide) = .ready → s.clk.root s.activeSide = .active →
    (∀ f : Int, s.clk.relValid = true → s.clk.jumpHeld = false → jumpLimitX < (f - s.clk.relFreq).natAbs →
      ∃ t, exec (.rootXJump f) s = .next t ∧ t.clk.relFreq = f ∧ t.clk.rootEvt.bits.getLsbD 3 = true ∧
        (s.qualifiedMask ≠ 0 → t.clk.jumpHeld = true ∧ t.clk.jumpStep = f - s.clk.relFreq ∧ t.clk.jumpSlots = s.qualifiedMask) ∧
        (s.qualifiedMask = 0 → t.clk.jumpHeld = false ∧ t.clk.rootEvt.bits.getLsbD 4 = true ∧ t.clk.lastCause = 3 ∧
          t.clk.root (otherSide s.activeSide) = .faulted)) ∧
    (s.clk.jumpHeld = true →
      (s.clk.jumpMs + 2000 ≤ s.clk.ms → ∃ t, exec .jumpAttributionTimeout s = .next t ∧ t.clk.jumpHeld = false ∧ t.clk.lastCause = 3 ∧
        t.clk.rootEvt.bits.getLsbD 4 = true ∧ t.clk.root (otherSide s.activeSide) = .faulted ∧
        t.clk.root s.activeSide = .active) ∧
      (∀ (k : Fin 12) (moved : Int), s.clk.jumpSlots.getLsbD k = true → s.clk.jumpK[k] < s.refs[k].k →
        (∃ z l, s.refs[k].hist = some z :: l) →
        moved = slopeY (s.tau0 s.refs[k]) (s.refs[k].hist.take 2) - s.clk.jumpY[k] →
        ∃ t, exec (.jumpAttributed k) s = .next t ∧ t.clk.jumpHeld = false ∧ t.clk.lastCause = 3 ∧
          (s.clk.jumpStep.natAbs ≤ 2 * moved.natAbs → t.clk.root s.activeSide = .faulted ∧
            t.clk.root (otherSide s.activeSide) = .active) ∧
          (2 * moved.natAbs < s.clk.jumpStep.natAbs → t.clk.root (otherSide s.activeSide) = .faulted ∧
            t.clk.root s.activeSide = .active)))

/-- R41, R42: the oven enters the band; TB_WARM rises after 120 s there, with CLK_ROOT_EVT bit 5; leaving the band ends both,
with bit 6, and is the OVEN fault with bit 7 once the hub has been warm; ten minutes of warm-up without the band limit the
heater to 4 W, with the same fault. R60, R63, R64, R66, R67: a ladder locks and shows it; one that loses lock sends LOCK_LOST, with
CLK_ROOT_EVT bit 8; a deskew line locks once its error has been under 1 ps for its time (R65 at a long period); one that loses lock,
or stands at its rail, freezes at its control value, with its bit in CLK_DLL_EVT and LOCK_LOST. R63, R66: a line that tracks moves
in a millisecond by no more than 100 ps/s, or 10 ps/s, and stays within its steps. Each of ovenBandEntry, tbWarmRise, ovenBandExit,
ovenWarmupLimit, ladderLock, ladderLossOfLock, dllLock and dllLossOfLock is so said to complete. Of the model's own choices it
rests on logs 11, 73 and 74. -/
def Obligations.OvenLaddersDeskew : Prop :=
 (∀ s : State, s.runs = true →
    (s.clk.inBand = false →
      ∃ t, exec .ovenBandEntry s = .next t ∧ t.clk = { s.clk with inBand := true, bandSecs := 0 }) ∧
    (s.clk.inBand = true → s.clk.warm = false → 120 ≤ s.clk.bandSecs →
      ∃ t, exec .tbWarmRise s = .next t ∧ t.clk.warm = true ∧ t.clk.everWarm = true ∧ t.clk.rootEvt.bits.getLsbD 5 = true) ∧
    (s.clk.inBand = true → s.flt.queue.length < 64 →
      ∃ t, exec .ovenBandExit s = .next t ∧ t.clk.inBand = false ∧ t.clk.warm = false ∧ t.clk.bandSecs = 0 ∧
        (s.clk.warm = true → t.clk.rootEvt.bits.getLsbD 6 = true) ∧
        (s.clk.everWarm = true → t.clk.rootEvt.bits.getLsbD 7 = true ∧
          ∃ m, t.flt.queue = s.flt.queue ++ [m] ∧ m.msg.source = 0x332 ∧ m.msg.kind = .oven) ∧
        (s.clk.everWarm = false → t.flt.queue = s.flt.queue)) ∧
    (s.clk.inBand = false → s.clk.everWarm = false → s.clk.limited = false → s.flt.queue.length < 64 →
      ∃ t, exec .ovenWarmupLimit s = .next t ∧ t.clk.limited = true ∧ t.clk.heater = min heaterLimit s.clk.heater ∧ t.clk.rootEvt.bits.getLsbD 7 = true ∧
        ∃ m, t.flt.queue = s.flt.queue ++ [m] ∧ m.msg.source = 0x332 ∧ m.msg.kind = .oven)) ∧
 (∀ s : State, s.runs = true →
    (∀ k : Fin 8, s.rootActive = true → s.clk.ladders.getLsbD k = false →
      ∃ t, exec (.ladderLock k) s = .next t ∧ t.clk.ladders.getLsbD k = true ∧ t.clk.ladderAt[k] = s.clk.cycles ∧
        ∀ j : Fin 8, j ≠ k → t.clk.ladders.getLsbD j = s.clk.ladders.getLsbD j) ∧
    (∀ k : Fin 8, s.clk.ladders.getLsbD k = true → s.flt.queue.length < 64 →
      ∃ t, exec (.ladderLossOfLock k) s = .next t ∧ t.clk.ladders.getLsbD k = false ∧
        (∀ j : Fin 8, j ≠ k → t.clk.ladders.getLsbD j = s.clk.ladders.getLsbD j) ∧ t.clk.rootEvt.bits.getLsbD 8 = true ∧
        ∃ m, t.flt.queue = s.flt.queue ++ [m] ∧ m.msg.source = BitVec.ofNat 12 (0x240 + k.val) ∧ m.msg.kind = .lockLost) ∧
    (∀ (n : Fin 96) (err : Int) (held : Nat), s.rootActive = true → s.dlls[n].frozen = false → s.dlls[n].locked = false →
      err.natAbs ≤ 65 → dllLockCycles (outN s.outs[n].cfg) ≤ held →
      ∃ t, exec (.dllLock n err held) s = .next t ∧ t.dlls[n] = { s.dlls[n] with err, locked := true, slow := false } ∧
        ∀ j, j ≠ n → t.dlls[j] = s.dlls[j]) ∧
    (∀ (n : Fin 96) (err : Int) (held : Nat) (noEdge : Bool), s.rootActive = true → s.dlls[n].frozen = false →
      s.dlls[n].locked = true ∨ s.dlls[n].rail = true → s.dllLoses n err held noEdge = true → s.flt.queue.length < 64 →
      ∃ t, exec (.dllLossOfLock n err ⟨held, noEdge⟩) s = .next t ∧ t.dlls[n] = { s.dlls[n] with
          err := if noEdge then s.dlls[n].err else err, locked := false, frozen := true } ∧
        t.dllEvt[(⟨n.val / 16, by omega⟩ : Fin 6)].bits.getLsbD (n.val % 16) = true ∧
        (∀ j, j ≠ n → t.dlls[j] = s.dlls[j]) ∧
        ∃ m, t.flt.queue = s.flt.queue ++ [m] ∧ m.msg.source = BitVec.ofNat 12 (0x100 + n.val) ∧ m.msg.kind = .lockLost)) ∧
 (∀ (h : Hub) (n : Fin 96) (raw : Int), h.dllActs n = true → h.dlls[n].pos ≤ dllTop →
    (dllTrack n raw h).dlls[n].pos ≤ dllTop ∧ (dllTrack n raw h).dlls[n].err = h.dllErr n raw ∧
      (((dllTrack n raw h).dlls[n].pos : Int) - h.dlls[n].pos).natAbs ≤ (if h.dlls[n].slow then 3072 else 30720) ∧
      ∀ j, j ≠ n → (dllTrack n raw h).dlls[j] = h.dlls[j])

/-! ## Monitors and ticks (chapters 14 and 02) -/

/-- R436: an enabled unit takes a sample of its quantity: minimum and maximum, a count and a sum that stop at their limits, the
sum with sum_sat and not while the count is saturated, and the histogram with under and over. With lim_en, a sample outside the
limits sets the unit's bit in MON_EVT; no other unit changes. R435: there is one sample for each event of the quantity. monSample is so
said to complete. -/
def Obligations.MonitorsSample : Prop :=
  ∀ (s : State) (u : Fin 32) (x : Mon), x = s.mons.unit[u] → s.runs = true → x.enabled = true →
    ∀ (v : Int) (n : Nat), s.monValue x.quantity x.inst = some v → 0 < x.width → s.monEvent x.quantity x.inst = some n →
      x.seen ≠ some n →
      ∃ t a, exec (.monSample u) s = .next t ∧ t.mons.unit[u] = { x with acc := a, seen := some n } ∧
        (x.acc.count = 0 → a.min = v ∧ a.max = v) ∧
        (0 < x.acc.count → a.min = min x.acc.min v ∧ a.max = max x.acc.max v) ∧
        a.count = satAdd (2 ^ 32 - 1) x.acc.count 1 ∧ (x.acc.count = 2 ^ 32 - 1 → a.sum = x.acc.sum) ∧
        (x.acc.count < 2 ^ 32 - 1 → -(2 ^ 63) ≤ x.acc.sum + v → x.acc.sum + v < 2 ^ 63 → a.sum = x.acc.sum + v) ∧
        (x.acc.count < 2 ^ 32 - 1 → 2 ^ 63 ≤ x.acc.sum + v → a.sum = 2 ^ 63 - 1 ∧ a.flags.getLsbD 6 = true) ∧
        (x.acc.count < 2 ^ 32 - 1 → x.acc.sum + v < -(2 ^ 63) → a.sum = -(2 ^ 63) ∧ a.flags.getLsbD 6 = true) ∧
        a.underCnt = (if v < x.origin then satAdd (2 ^ 32 - 1) x.acc.underCnt 1 else x.acc.underCnt) ∧
        a.overCnt = (if x.origin + 64 * x.width ≤ v then satAdd (2 ^ 32 - 1) x.acc.overCnt 1 else x.acc.overCnt) ∧
        (∀ k : Fin 64, a.bins[k] =
          if x.origin + k.val * x.width ≤ v ∧ v < x.origin + (k.val + 1) * x.width then satAdd (2 ^ 32 - 1) x.acc.bins[k] 1
          else x.acc.bins[k]) ∧
        (x.limEn = true → (v < x.limitLo ∨ x.limitHi < v) →
          t.mons.evt[(⟨u.val / 16, by omega⟩ : Fin 2)].bits.getLsbD (u.val % 16) = true) ∧
        ((x.limEn = false ∨ (x.limitLo ≤ v ∧ v ≤ x.limitHi)) → t.mons.evt = s.mons.evt) ∧
        ∀ k, k ≠ u → t.mons.unit[k] = s.mons.unit[k]

/-- R442, R443: an accepted MON_CONFIG sets the unit and clears its accumulators and result bank in a window marked partial;
MON_SNAPSHOT of an enabled unit answers with the window in progress or the last result, writes its record to the host when asked
to, and with restart clears the accumulators. R437: at its boundary an enabled unit's accumulators go to the result bank, a new
empty window begins with the next number, and no other unit changes. Each of monConfig, monSnapshot and monWindowClose is so said
to complete. Of the model's own choices it rests on logs 4 and 53. -/
def Obligations.MonitorCommands : Prop :=
 (∀ (o : Origin) (d : Desc) (s : State) (u : Fin 32) (x : Mon), s.Serves o d → pf d.payload 0 0 8 = u.val → x = s.mons.unit[u] →
    (d.opcode = 0x80 → monConfigBad s.toHub d.payload = false → pb d.payload 1 7 = true →
      (pick s.comp.tasks (monTask u) {}).state ≠ .unplaced →
      ∃ t, exec (.monConfig o) s = .next t ∧
        t.mons.unit[u] = { x with cfg := pbytes d.payload 40, enabled := true, bank := {}, unwritten := false
                                  seen := s.monEvent (pf d.payload 2 0 8) (pf d.payload 4 0 16)
                                  acc := { start := s.houseShort, epoch := s.houseEpoch, window := x.acc.window, flags := flagPartial } } ∧
        (∀ k, k ≠ u → t.mons.unit[k] = s.mons.unit[k]) ∧
        ∀ q, o = .ring q → d.discard = false → ∃ r, t.Posted d .ok r) ∧
    (d.opcode = 0x80 → monConfigBad s.toHub d.payload = true →
      ∃ t, exec (.monConfig o) s = .next t ∧ t.mons = s.mons ∧
        ∀ q, o = .ring q → d.discard = false → ∃ r, t.Posted d .badParam r) ∧
    (d.opcode = 0x81 → x.enabled = true → (d.payload.extractLsb' 64 64).toNat % 64 = 0 →
      (pb d.payload 1 1 = true → s.isSafe = false) →
      ∃ t a, exec (.monSnapshot o) s = .next t ∧ a = (if pb d.payload 1 0 then x.bank else x.acc) ∧
        (d.payload.extractLsb' 64 64 ≠ 0 → BusOp.write (d.payload.extractLsb' 64 64) (monRecord a) ∈ t.bus) ∧
        (pb d.payload 1 1 = false → t.mons = s.mons) ∧
        (pb d.payload 1 1 = true → t.mons.unit[u] =
          { x with acc := { start := s.houseShort, epoch := s.houseEpoch, window := x.acc.window, flags := flagPartial } }) ∧
        (∀ k, k ≠ u → t.mons.unit[k] = s.mons.unit[k]) ∧
        ∀ q, o = .ring q → d.discard = false →
          t.Posted d .ok (resultOf [(0, 64, ofSigned 64 a.min), (64, 64, ofSigned 64 a.max), (128, 32, a.count),
            (160, 16, a.flags.toNat), (176, 16, a.window.toNat)]))) ∧
 (∀ (s : State) (u : Fin 32) (x : Mon), x = s.mons.unit[u] → s.runs = true → x.enabled = true →
    ∀ h : Hub, x.windowMs ≠ 0 → reachDom 0 (s.windowEnd x * fuU) s.toHub = some h →
      ∃ t, exec (.monWindowClose u) s = .next t ∧
        t.mons.unit[u].bank = { x.acc with flags := x.acc.flags ||| (if x.unwritten && x.telEn then flagSkipped else 0) } ∧
        t.mons.unit[u].acc = { start := h.houseShort, epoch := h.houseEpoch, window := x.acc.window + 1 } ∧
        t.mons.unit[u].enabled = true ∧ t.mons.unit[u].cfg = x.cfg ∧ ∀ k, k ≠ u → t.mons.unit[k] = s.mons.unit[k])

/-- R491, R467, R84: at the 1 ms tick the root has turned to the end of its millisecond, C's place in it is 0 again, a second is
due after every thousandth tick, VIN and its extremes are as measured and the edges of the millisecond start from none; the 1 s
tick closes the second. R42: the heater power is as measured, at most 4 W while limited, and none during PFAIL. R28, R29: a packet
whose ECC found an error sends ECC_CE from its receiver, or ECC_UE with the sender's code, but not where the receiver's half returns
its packets. R19: after the vote the three copies of a rotator's accumulator hold the voted value. Each of tick1ms and tick1s is so
said to complete. Of the model's own choices it rests on
logs 4, 18 and 61. -/
def Obligations.TicksTurn : Prop :=
  (∀ (s : State) (m : Meas), s.runs = true → s.rootActive = true → s.clk.secDue = false → s.clk.pos ≤ tickCycles →
    ∃ t, exec (.tick1ms m) s = .next t ∧ t.clk.pos = 0 ∧ t.clk.cycles = s.clk.cycles + (tickCycles - s.clk.pos) ∧
      t.clk.ms = s.clk.ms + 1 ∧ (t.clk.secDue = true ↔ (s.clk.ms + 1) % 1000 = 0) ∧ t.pwr.vin = m.vin ∧
      t.pwr.vinLow = (if s.pwr.vinLow = 0 then m.vin else min s.pwr.vinLow m.vin) ∧ t.pwr.vinHigh = max s.pwr.vinHigh m.vin ∧
      t.clk.heater = (if s.pwr.pfail then 0 else if s.clk.limited then min heaterLimit m.heater else m.heater) ∧
      t.tdc.pushed = 0) ∧
  (∀ (h : Hub) (e : PacketErr), (h.comp.returns e.receiver.toNat = true → packetError e h = h) ∧
    (h.comp.returns e.receiver.toNat = false → h.runs = true → h.flt.queue.length < 64 →
      ∃ m, (packetError e h).flt.queue = h.flt.queue ++ [m] ∧ m.msg.source = e.receiver ∧ m.msg.access = 7 ∧
        m.msg.master = e.sender ∧ m.msg.kind = (if e.fatal then .eccUe else .eccCe))) ∧
  (∀ (h : Hub) (k : Fin 16), (voteRot k h).doms[k].accA = h.doms[k].acc ∧ (voteRot k h).doms[k].accB = h.doms[k].acc ∧
    (voteRot k h).doms[k].accC = h.doms[k].acc) ∧
  (∀ s : State, s.runs = true → s.rootActive = true → s.clk.secDue = true →
    ∃ t, exec .tick1s s = .next t ∧ t.clk.secDue = false ∧ t.tdc.agg = s.tdc.aggNow ∧ t.tdc.aggNow = 0 ∧
      ∀ k : Fin 12, t.refs[k].fresh = none)

/-! ## The fault collector (chapter 13) -/

/-- R407, R410, R411, R412, R413, R415, R418: the collector handles the message at the head of its queue by its severity: IGNORE
leaves no trace; LOG records it, and captures it, counts it or notes the overflow; NOTIFY drives FAULT_N; DEGRADE marks its
domains untrusted; SAFE takes a hub in SERVICE, TEST or RECOVERY into SAFE. faultMessage is so said to complete. Of the model's
own choices it rests on logs 55 and 56. -/
def Obligations.MessagesHandled : Prop :=
  ∀ (s : State) (m : Stamped) (q : List Stamped) (sev : Nat), s.runs = true → s.flt.queue = m :: q → sev = s.severity m.msg →
    m.msg.kind ≠ .thermalTrip →
    ∃ t, exec .faultMessage s = .next t ∧
      (sev = 0 → t.flt.queue = q ∧ t.flt.history = s.flt.history ∧ t.flt.cap = s.flt.cap ∧ t.flt.driven = s.flt.driven ∧
        t.flt.evt = s.flt.evt ∧ t.doms = s.doms ∧ t.top = s.top) ∧
      (1 ≤ sev → t.flt.history = (m :: s.flt.history).take 256 ∧ t.flt.evt.bits.getLsbD 0 = true) ∧
      (1 ≤ sev → s.flt.cap = none → t.flt.cap = some (m, BitVec.ofNat 4 s.top.mode.code) ∧ t.flt.evt.bits.getLsbD 4 = true) ∧
      (1 ≤ sev → s.flt.cap.isSome = true → t.flt.cap = s.flt.cap ∧
        (s.inMode .service = true → t.flt.capCnt = satInc32 s.flt.capCnt) ∧
        (s.inMode .service = false → t.flt.ovf = true ∧ t.flt.evt.bits.getLsbD 5 = true)) ∧
      (sev = 1 → t.flt.queue = q ∧ t.flt.driven = s.flt.driven ∧ t.doms = s.doms ∧ t.top = s.top) ∧
      (2 ≤ sev → t.flt.driven = true ∧ t.flt.minLow = true ∧ t.flt.evt.bits.getLsbD 1 = true) ∧
      (3 ≤ sev → ∀ doms port, s.marks m.msg = some (doms, port) → t.flt.evt.bits.getLsbD 2 = true ∧
        (∀ k : Fin 16, doms.getLsbD k = true → t.doms[k].untrusted = true) ∧
        ∀ n : Fin 48, port = some n →
          t.flt.degLnk[(⟨n.val / 16, by omega⟩ : Fin 3)].bits.getLsbD (n.val % 16) = true) ∧
      (sev ≤ 3 → t.top = s.top) ∧
      (4 ≤ sev → t.flt.evt.bits.getLsbD 3 = true ∧
        (s.leavable = true → t.top.mode = .safe ∧ t.flt.safeEvt.bits.getLsbD 0 = true ∧
          t.shim.counters[(4 : Fin 256)] = satAdd (2 ^ 48 - 1) s.shim.counters[(4 : Fin 256)] 1) ∧
        (s.leavable = false → t.top = s.top))

/-- R406, R415, R35: a message that finds 64 waiting is lost, counted, with FLT_EVT.lost; the empty queue then reports how many;
after its 25 µs FAULT_N stays low only while hold is 1; RECOVERY ends in SERVICE after its second without a loss. R425, R426:
the warden in charge writes the dump of a fatal fault, its header last with complete 1, to a buffer that is set, with dump_done;
without the buffer or a warden nothing is written to the host and dump_missed rises. R363: the warden has then used MBX[3]. Each
of collectorOverflowReport, faultNTimerExpiry, recoveryStabilityTimeout and fatalDump is so said to complete. Of the model's own
choices it rests on logs 59, 67 and 71. -/
def Obligations.CollectorPinAndDump : Prop :=
 ((∀ (s : State) (mv : Nat), s.awake = true → s.pwr.ov = false → 41000 < mv → s.flt.queue.length = 64 →
    ∃ t, exec (.vinOvervoltage mv) s = .next t ∧ t.flt.queue = s.flt.queue ∧ t.flt.lost = satInc32 s.flt.lost ∧
      t.flt.lostRun = satInc32 s.flt.lostRun ∧ t.flt.evt.bits.getLsbD 6 = true) ∧
  (∀ s : State, s.runs = true → s.flt.queue = [] → 0 < s.flt.lostRun →
    ∃ t m, exec .collectorOverflowReport s = .next t ∧ t.flt = { s.flt with queue := [m], lostRun := 0 } ∧
      m.msg = { source := 0x3FF, kind := .overflow, access := 0, master := 0, address := BitVec.ofNat 32 s.flt.lostRun } ∧
      m.time = s.houseShort ∧ m.epoch = s.houseEpoch) ∧
  (∀ s : State, s.runs = true → s.flt.minLow = true →
    ∃ t, exec .faultNTimerExpiry s = .next t ∧ t.flt = { s.flt with minLow := false, driven := s.flt.hold }) ∧
  (∀ s : State, s.inMode .recovery = true → 1000 ≤ s.top.stabMs →
    ∃ t, exec .recoveryStabilityTimeout s = .next t ∧ t.top = { s.top with mode := .service })) ∧
 (∀ (s : State) (m : Stamped), s.runs = true → s.flt.fatal = some m →
    (s.dumpReady = true → s.inCharge = true →
      ∃ t, exec .fatalDump s = .next t ∧ t.flt.fatal = none ∧ t.flt.dumps = satAdd 0xFFFF s.flt.dumps 1 ∧ t.flt.dumpOk = true ∧
        t.flt.dumpBusy = false ∧ t.flt.evt.bits.getLsbD 8 = true ∧
        t.mbx[(3 : Fin 4)] = { s.mbx[(3 : Fin 4)] with code := 0x72, inst := 47, req := none, valid := false, err := false } ∧
        BusOp.write (baseAddr s.host.dumpLo s.host.dumpHi) (s.dumpHeader m s.dumpSections true) ∈ t.bus ∧
        ∀ x ∈ s.dumpSections.zip (sectionOffsets 4096 s.dumpSections),
          BusOp.write (baseAddr s.host.dumpLo s.host.dumpHi + BitVec.ofNat 64 x.2) x.1 ∈ t.bus) ∧
    ((s.dumpReady = false ∨ s.inCharge = false) →
      ∃ t, exec .fatalDump s = .next t ∧ t.flt.fatal = none ∧ t.flt.dumps = s.flt.dumps ∧ t.flt.evt.bits.getLsbD 9 = true ∧
        ∀ a b, BusOp.write a b ∈ t.bus → BusOp.write a b ∈ s.bus))

/-! ## Supply, start-up and temperature (chapter 15) -/

/-- R33, R35, R447, R448, R458: VIN and EN take the hub between OFF, STANDBY and BOOT; a start loses everything but what R458
keeps: the Shim store with its counters, of which counter 0 counts the BOOT. R450, R456, R35, R151: rails that fail to come up
are switched off and started again 100 ms later; BOOT ends in SERVICE, with every domain's time at 0 and not set, when a warden
is in charge, a root is ACTIVE and no cause of SAFE stands. Each of vinRise, vinFall, enHigh, enLow, railRetryTimeout,
railRetryWaitExpiry and bootEnd is so said to complete. Of the model's own choices it rests on logs 62 and 63. -/
def Obligations.SupplyEnableStartUp : Prop :=
 ((∀ (s : State) (mv c : Nat), 5700 < mv → (s.inMode .off = true ∨ s.inMode .standby = true) →
    c = (if s.inMode .off then 0 else s.enCause) →
    ∃ t, exec (.vinRise mv) s = .next t ∧ t.pwr.vin = mv ∧ t.shim.mem = s.shim.mem ∧
      (s.top.en = false → t.top.mode = .standby) ∧
      (s.top.en = true → t.top.mode = .boot ∧ t.top.begun = false ∧ t.top.cause = BitVec.ofNat 4 c ∧ t.host = Hub.reset.host ∧
        t.doms = Hub.reset.doms ∧ t.shim.counters[(0 : Fin 256)] = satAdd (2 ^ 48 - 1) s.shim.counters[(0 : Fin 256)] 1)) ∧
  (∀ (s : State) (mv : Nat), mv < 5400 → s.inMode .off = false →
    ∃ t, exec (.vinFall mv) s = .next t ∧ t.top.mode = .off ∧ t.pwr.vin = mv ∧ t.top.en = s.top.en ∧ t.top.autoCount = 0 ∧
      t.shim.mem = s.shim.mem ∧ t.shim.counters = s.shim.counters ∧ t.host = Hub.reset.host ∧ ∀ n : Fin 64, t.plss[n].pin = .hiZ) ∧
  (∀ s : State, s.inMode .standby = true → 5700 < s.pwr.vin →
    ∃ t, exec .enHigh s = .next t ∧ t.top.en = true ∧ t.top.mode = .boot ∧ t.top.begun = false ∧
      t.top.cause = (if s.top.fromThermal then 2 else 1) ∧ t.shim.mem = s.shim.mem) ∧
  (∀ s : State, s.inMode .off = false → s.inMode .standby = false →
    ∃ t, exec .enLow s = .next t ∧ t.top.en = false ∧ t.top.mode = .standby ∧ t.top.pgood = false ∧
      t.top.fromThermal = s.inMode .thermalOff ∧ t.shim.mem = s.shim.mem ∧ t.shim.counters = s.shim.counters ∧
      t.host = Hub.reset.host ∧ ∀ n : Fin 96, t.outs[n].pin = .hiZ)) ∧
 ((∀ s : State, s.inMode .boot = true → s.top.begun = false → s.top.railWait = false →
    ∃ t, exec .railRetryTimeout s = .next t ∧ t.top = { s.top with railWait := true, pgood := false } ∧ t.shim = s.shim) ∧
  (∀ s : State, s.inMode .boot = true → s.top.railWait = true →
    ∃ t, exec .railRetryWaitExpiry s = .next t ∧
      t.top = { s.top with railWait := false, railRetries := satAdd 15 s.top.railRetries 1 }) ∧
  (∀ s : State, s.bootDone = true → s.flt.queue = [] → s.flt.causes = [] →
    ∃ t, exec .bootEnd s = .next t ∧ t.top.mode = .service ∧ t.top.profileDue = s.top.strapAuto ∧
      ∀ m : Fin 16, t.doms[m].secs = 0 ∧ t.doms[m].sub = 0 ∧ t.doms[m].todUnset = true))

/-- R378, R451, R453, R454, R447, R17: PFAIL stops the journal, which keeps no open transaction, and switches the heater off;
its end, an overvoltage and a lost converter phase each send SUPPLY with their cause. R462, R463, R464, R465: a sensor at 110 °C
warns once, until every sensor is below 105 °C; one at 125 °C trips the hub into THERMAL_OFF; with THERM_AUTO, and fewer than
three restarts in a row, a hub below 100 °C boots again with cause 3. R477, R478: each pulse output takes the class of its
bank's supply; a bank below 1.6 V is off and its outputs are at high impedance. Each of pfailAssert, pfailDeassert,
vinOvervoltage, converterPhaseLost, converterPhaseRestored, thermalWarn, thermalWarnClear, thermalTrip, thermalAutoRestart and
vddpBankMeasurement is so said to complete. Of the model's own choices it rests on log 62. -/
def Obligations.SupplyAndThermalEvents : Prop :=
 (∀ (s : State) (mv : Nat), s.awake = true →
    (s.pwr.pfail = false → mv < 5500 →
      ∃ t, exec (.pfailAssert mv) s = .next t ∧ t.pwr.pfail = true ∧ t.pwr.vin = mv ∧ t.clk.heater = 0 ∧ t.shim.halted = true ∧
        t.pwr.evt.bits.getLsbD 1 = true ∧ t.shim.txn = none ∧
        ∀ x, s.shim.txn = some x → x.committed = false → t.shim.abandoned = some x) ∧
    (s.flt.queue.length < 64 →
      (s.pwr.pfail = true → 5600 < mv →
        ∃ t m, exec (.pfailDeassert mv) s = .next t ∧ t.pwr.pfail = false ∧ t.shim.halted = false ∧ t.shim.abandoned = none ∧
          t.pwr.evt.bits.getLsbD 2 = true ∧ t.flt.queue = s.flt.queue ++ [m] ∧ m.msg.source = 0x331 ∧ m.msg.kind = .supply ∧
          m.msg.address = 4) ∧
      (s.pwr.ov = false → 41000 < mv →
        ∃ t m, exec (.vinOvervoltage mv) s = .next t ∧ t.pwr.ov = true ∧ t.pwr.evt.bits.getLsbD 4 = true ∧
          t.flt.queue = s.flt.queue ++ [m] ∧ m.msg.source = 0x331 ∧ m.msg.kind = .supply ∧ m.msg.address = 3) ∧
      (∀ x : Side, s.pwr.phase x = true →
        ∃ t m, exec (.converterPhaseLost x) s = .next t ∧ t.pwr.phase x = false ∧
          t.pwr.phase (otherSide x) = s.pwr.phase (otherSide x) ∧ t.pwr.evt.bits.getLsbD 3 = true ∧
          t.flt.queue = s.flt.queue ++ [m] ∧ m.msg.source = 0x331 ∧ m.msg.kind = .supply ∧
          m.msg.address = (match x with | .a => 1 | .b => 2))) ∧
    (∀ x : Side, s.pwr.phase x = false →
      ∃ t, exec (.converterPhaseRestored x) s = .next t ∧ t.pwr.phase x = true ∧
        t.pwr.phase (otherSide x) = s.pwr.phase (otherSide x) ∧ t.flt = s.flt)) ∧
 ((∀ (s : State) (i : Fin 8) (c : Int), s.awake = true → s.pwr.warn = false → 1760 ≤ c → s.flt.queue.length < 64 →
    ∃ t m, exec (.thermalWarn i c) s = .next t ∧ t.pwr.warn = true ∧ t.pwr.temps[i] = c ∧ t.pwr.evt.bits.getLsbD 0 = true ∧
      t.shim.counters[(6 : Fin 256)] = satAdd (2 ^ 48 - 1) s.shim.counters[(6 : Fin 256)] 1 ∧
      t.flt.queue = s.flt.queue ++ [m] ∧ m.msg.source = 0x330 ∧ m.msg.kind = .thermalWarn) ∧
  (∀ (s : State) (temps : List Int), s.awake = true → s.pwr.warn = true → (∀ c ∈ temps, c < 1680) →
    ∃ t, exec (.thermalWarnClear temps) s = .next t ∧ t.pwr.warn = false ∧ t.pwr.evt = s.pwr.evt) ∧
  (∀ (s : State) (i : Fin 8) (c : Int), s.awake = true → 2000 ≤ c →
    ∃ t, exec (.thermalTrip i c) s = .next t ∧ t.top.mode = .thermalOff ∧ t.top.pgood = false ∧ t.shim.txn = none ∧
      t.shim.counters[(5 : Fin 256)] = satAdd (2 ^ 48 - 1) s.shim.counters[(5 : Fin 256)] 1 ∧ t.host = Hub.reset.host) ∧
  (∀ (s : State) (temps : List Int), s.inMode .thermalOff = true → s.pwr.thermAuto = true → s.top.autoCount < 3 →
    (∀ c ∈ temps, c < 1600) →
    ∃ t, exec (.thermalAutoRestart temps) s = .next t ∧ t.top.mode = .boot ∧ t.top.cause = 3 ∧ t.shim.mem = s.shim.mem ∧
      (s.top.serviceMs < 600000 → t.top.autoCount = s.top.autoCount + 1))) ∧
 (∀ (s : State) (mv : List Nat), s.awake = true →
    ∃ t, exec (.vddpBankMeasurement mv) s = .next t ∧ ∀ (n : Fin 64) (v : Nat), v = mv.getD (n.val / 8) 0 →
      (v < 1600 → t.plss[n].vddp = 0 ∧ t.plss[n].pin = .hiZ) ∧ (1600 ≤ v → v < 2150 → t.plss[n].vddp = 1) ∧
      (2150 ≤ v → v < 2900 → t.plss[n].vddp = 2) ∧ (2900 ≤ v → t.plss[n].vddp = 3) ∧
      (1600 ≤ v → s.plss[n].pin ≠ .hiZ → t.plss[n].pin = s.plss[n].pin) ∧ t.plss[n].cfg = s.plss[n].cfg)

/-! ## Registers (chapters 10, 11, 12, 13) -/

/-- R354, R355, R356: a single aligned write by a master that may make it sets the register's writable fields; any other access
is a violation, counted and recorded, that changes nothing but its counters. R324, R328, R358: a write of HOST in BAR 2 is the
doorbell that its offset names; a write in the alias window changes one RW bit of its register and leaves the register's parity
as it was. Each of registerWrite and aliasWrite is so said to complete. Of the model's own choices it rests on logs 19 and 68. -/
def Obligations.RegistersWritten : Prop :=
 (∀ (s : State) (m : Master) (v : Reg), s.answers m = true →
    (∀ j : Fin 512, ∃ t, exec (.registerWrite m 0 (0x5000 + 4 * j.val) 4 v) s = .next t ∧ t.flt.sev[j] = v &&& 0x77777777 ∧
      ∀ k, k ≠ j → t.flt.sev[k] = s.flt.sev[k]) ∧
    (∃ t, exec (.registerWrite m 0 0x4034 4 v) s = .next t ∧ t.flt = { s.flt with irqEn := v.extractLsb' 0 16 }) ∧
    (∃ t, exec (.registerWrite m 0 0x1B920 4 v) s = .next t ∧ t.mons = { s.mons with irq := v }) ∧
    (∃ t, exec (.registerWrite m 0 0x1080 4 v) s = .next t ∧
      t.pwr = { s.pwr with thermAuto := v.getLsbD 0, irqEn := v.extractLsb' 16 16 }) ∧
    (∀ i : Fin 4, mbxWrites m i = true →
      ∃ t, exec (.registerWrite m 0 (0x3000 + 0x40 * i.val) 4 v) s = .next t ∧
        t.mbx[i] = { s.mbx[i] with code := v.extractLsb' 16 8, inst := v.extractLsb' 0 12 } ∧ ∀ k, k ≠ i → t.mbx[k] = s.mbx[k]) ∧
    (∀ x : Fin 167, ∃ t, exec (.registerWrite m 0 (0x2800 + 4 * x.val) 4 v) s = .next t ∧
      t.host.vector[x] = v.extractLsb' 0 8 ∧ t.host.spi[x] = v.getLsbD 8) ∧
    (∀ off size : Nat, (size ≠ 4 ∨ off % 4 ≠ 0) → ∃ t, exec (.registerWrite m 0 off size v) s = .next t ∧
      { t.toHub with top := s.top } = s.toHub ∧
      (m = .host → t.top = { s.top with vioHost := inc16 s.top.vioHost, vioLastHost := vioRecord s.houseShort 0 off 2 }) ∧
      (m = .spi → t.top = { s.top with vioSpi := inc16 s.top.vioSpi, vioLastSpi := vioRecord s.houseShort 0 off 2 }) ∧
      (m = .debug → t.top = { s.top with vioDebug := inc16 s.top.vioDebug, vioLastDebug := vioRecord s.houseShort 0 off 2 }))) ∧
 (∀ (s : State) (v : Reg),
    (s.answers .host = true →
      (∀ q : Fin 16, exec (.registerWrite .host 2 (4 * q.val) 4 v) s = exec (.commandDoorbell q v s.clk.pos) s) ∧
      (∀ c : Fin 16, exec (.registerWrite .host 2 (0x100 + 4 * c.val) 4 v) s = exec (.consumerDoorbell (.cpl c) v) s) ∧
      (∀ n : Fin 64, exec (.registerWrite .host 2 (0x200 + 4 * n.val) 4 v) s = exec (.consumerDoorbell (.str n) v) s) ∧
      (∀ k : Fin 4, exec (.registerWrite .host 2 (0x300 + 4 * k.val) 4 v) s = exec (.consumerDoorbell (.tel k) v) s)) ∧
    (∀ (m : Master) (b : Fin 32), s.answers m = true →
      ∃ t, exec (.aliasWrite m (0x400000 + 32 * 0x1B920 + 4 * b.val) v) s = .next t ∧ t.top = s.top ∧
        ∀ k : Fin 32, t.mons.irq.getLsbD k = if k = b then v.getLsbD 0 else s.mons.irq.getLsbD k))

/-- R356: an event-status register holds its event bits in [15:0] and SEQ in [31:16]; SEQ rises by one where at least one bit
rises, and a bit that is 1 already changes nothing; a write to the paired _ACK register clears the bits, and not SEQ, when its
value is the present SEQ, but for bits whose cause stands, and any other value changes nothing and is no violation. Each of
eventStatusAck, clkDllEvtAck, domEvtAck, fltEvtAck and fltDegLnkAck is so said to complete. -/
def Obligations.EventRegisters : Prop :=
  (∀ (e : Evt) (b : BitVec 16), e.word % 65536 = e.bits.toNat ∧ e.word / 65536 = e.seq.toNat ∧
    (b &&& ~~~e.bits ≠ 0 → e.raise b = { bits := e.bits ||| b, seq := e.seq + 1 }) ∧ (b &&& ~~~e.bits = 0 → e.raise b = e)) ∧
  ∀ (s : State) (m : Master) (v : Reg), s.answers m = true →
    (∀ r : EvtReg, v.extractLsb' 0 16 ≠ (s.evtOf r).seq → exec (.eventStatusAck m r v) s = .next s) ∧
    (∀ r : EvtReg, v.extractLsb' 0 16 = (s.evtOf r).seq →
      (r = .rotSat → ∀ k : Fin 16, s.doms[k].limited = false) → (r = .tdc → s.tdc.clamped = 0) →
      (r = .hier → ∀ n : Fin 48, (s.links[n].sends && s.follows n && s.links[n].peerFollows) = false) →
      ∃ t, exec (.eventStatusAck m r v) s = .next t ∧ t.evtOf r = { bits := 0, seq := (s.evtOf r).seq } ∧ t.top = s.top ∧
        ∀ k, k ≠ r → t.evtOf k = s.evtOf k) ∧
    (∀ j : Fin 6, s.dllEvt[j].hits v = false → exec (.clkDllEvtAck m j v) s = .next s) ∧
    (∀ n : Fin 16, s.doms[n].evt.hits v = false → exec (.domEvtAck m n v) s = .next s) ∧
    (s.flt.evt.hits v = false → exec (.fltEvtAck m v) s = .next s) ∧
    (∀ j : Fin 3, s.flt.degLnk[j].hits v = false → exec (.fltDegLnkAck m j v) s = .next s)

/-- R66, R176, R411, R414: with the sequence write that clears their event bits, DLLs whose bits were set track again, a
domain's and a port's mark goes unless a cause of it is left, and captured takes the capture and the overflow with it. -/
def Obligations.EventsAcknowledged : Prop :=
  ∀ (s : State) (m : Master) (v : Reg), s.answers m = true →
    (∀ j : Fin 6, s.dllEvt[j].hits v = true → ∃ t, exec (.clkDllEvtAck m j v) s = .next t ∧ t.dllEvt[j].bits = 0 ∧
      ∀ n : Fin 96, t.dlls[n] =
        if n.val / 16 = j.val ∧ s.dllEvt[j].bits.getLsbD (n.val % 16) = true ∧ s.dlls[n].frozen = true then
          { s.dlls[n] with frozen := false, slow := true } else s.dlls[n]) ∧
    (∀ n : Fin 16, s.doms[n].evt.hits v = true → ∃ t, exec (.domEvtAck m n v) s = .next t ∧
      t.doms[n].untrusted = s.domMarked n ∧ (s.domMarked n = false → t.doms[n].evt.bits = 0) ∧
      ∀ k, k ≠ n → t.doms[k] = s.doms[k]) ∧
    (s.flt.evt.hits v = true → ∃ t, exec (.fltEvtAck m v) s = .next t ∧ t.flt.evt.bits = 0 ∧ t.flt.evt.seq = s.flt.evt.seq ∧
      (s.flt.evt.bits.getLsbD 4 = true → t.flt.cap = none ∧ t.flt.ovf = false ∧ t.flt.capCnt = 0) ∧
      (s.flt.evt.bits.getLsbD 4 = false → t.flt.cap = s.flt.cap ∧ t.flt.ovf = s.flt.ovf ∧ t.flt.capCnt = s.flt.capCnt)) ∧
    (∀ j : Fin 3, s.flt.degLnk[j].hits v = true → ∃ t, exec (.fltDegLnkAck m j v) s = .next t ∧
      t.flt.degLnk[j].bits = s.linkMarks j ∧ ∀ k : Fin 3, k ≠ j → t.flt.degLnk[k] = s.flt.degLnk[k])

/-- R420: a sequence write to FLT_SAFE_ACK whose value matches clears the event bits only while no source counts, and takes a
hub in SAFE to SERVICE, which the resident loader does not leave this way (R36); otherwise it changes nothing. fltSafeAck is so
said to complete. Of the model's own choices it rests on log 60. -/
def Obligations.SafeLeft : Prop :=
  ∀ (s : State) (m : Master) (v : Reg), s.answers m = true →
    (s.flt.safeEvt.hits v = true → s.safeSources = [] →
      ∃ t, exec (.fltSafeAck m v) s = .next t ∧ t.flt.safeEvt = { bits := 0, seq := s.flt.safeEvt.seq } ∧
        (s.isSafe = true → s.shim.loader = false → t.top = { s.top with mode := .service }) ∧
        ((s.isSafe = false ∨ s.shim.loader = true) → t.top = s.top) ∧ t.flt.driven = s.flt.driven) ∧
    ((s.flt.safeEvt.hits v = false ∨ s.safeSources ≠ []) → exec (.fltSafeAck m v) s = .next s)

/-- R332, R333: a ring that may be enabled starts empty, with the settings of its CTL; one that may not is a violation, and so
is disabling a ring that may not be; a command ring with descriptors in progress drains. Each of ringEnable and ringDisable is so
said to complete. Of the model's own choices it rests on log 65. -/
def Obligations.RingsEnabledAndDisabled : Prop :=
  ∀ (s : State) (m : Master) (r : RingId) (v : Reg), s.answers m = true → m ≠ .spi →
    ((s.ring r).open_ = false → s.mayEnable r (v ||| 0x80000000) = true →
      ∃ t, exec (.ringEnable m r v) s = .next t ∧ t.ring r = { s.ring r with
          k := v.extractLsb' 0 4, coalCnt := v.extractLsb' 12 8, cq := v.extractLsb' 20 4, fast := v.getLsbD 30
          state := .enabled, prod := 0, cons := 0, unsignalled := 0, bells := [] } ∧ ∀ k, k ≠ r → t.ring k = s.ring k) ∧
    ((s.ring r).open_ = false → s.mayEnable r (v ||| 0x80000000) = false →
      ∃ t, exec (.ringEnable m r v) s = .next t ∧ t.host = s.host ∧
        (m = .host → t.top.vioHost = inc16 s.top.vioHost) ∧ (m = .debug → t.top.vioDebug = inc16 s.top.vioDebug)) ∧
    ((s.ring r).open_ = true → (s.ring r).ctlLocked (v &&& 0x7FFFFFFF) = false → s.mayDisable r = true →
      ∃ t, exec (.ringDisable m r v) s = .next t ∧ (t.ring r).bells = [] ∧
        (t.ring r).state = (match r with
          | .cmd q => if 0 < s.ringProgress q then .draining else .disabled
          | .cpl _ => .disabled | .tel _ => .disabled | .str _ => .disabled) ∧ ∀ k, k ≠ r → t.ring k = s.ring k) ∧
    ((s.ring r).open_ = true → s.mayDisable r = false →
      ∃ t, exec (.ringDisable m r v) s = .next t ∧ t.host = s.host)

/-- R360, R361, R362, R363: a request keeps the quantity MBX_SEL names and clears valid; the snapshot sets valid, with err for a
quantity or instance that is none; reading the last data word clears valid, but not for DEBUG; another master's mailbox is a
violation. Each of mbxReq, mbxSnapshotValid and mbxData3Read is so said to complete. Of the model's own choices it rests on log
67. -/
def Obligations.Mailboxes : Prop :=
  ∀ (s : State) (m : Master) (i : Fin 4),
    (s.answers m = true → mbxWrites m i = true →
      ∃ t, exec (.mbxReq m i) s = .next t ∧
        t.mbx[i] = { s.mbx[i] with req := some (s.mbx[i].code, s.mbx[i].inst), valid := false, err := false } ∧
        ∀ k, k ≠ i → t.mbx[k] = s.mbx[k]) ∧
    (s.answers .host = true → i ≠ 0 →
      (∃ t, exec (.mbxReq .host i) s = .next t ∧ t.mbx = s.mbx ∧ t.top.vioHost = inc16 s.top.vioHost) ∧
      (∃ t, exec (.mbxData3Read .host i) s = .next t ∧ t.mbx = s.mbx ∧ t.top.vioHost = inc16 s.top.vioHost)) ∧
    (∀ c n, s.runs = true → s.mbx[i].req = some (c, n) →
      ∃ t, exec (.mbxSnapshotValid i) s = .next t ∧ t.mbx[i] = { s.mbx[i] with
          req := none, valid := true, err := (s.quantity c.toNat n.toNat).isNone, data := (s.quantity c.toNat n.toNat).getD 0 } ∧
        ∀ k, k ≠ i → t.mbx[k] = s.mbx[k]) ∧
    (s.answers m = true → mbxReads m i = true →
      ∃ t, exec (.mbxData3Read m i) s = .next t ∧
        t.mbx[i].valid = (if m = .debug then s.mbx[i].valid else false) ∧ t.mbx[i].data = s.mbx[i].data ∧
        ∀ k, k ≠ i → t.mbx[k] = s.mbx[k])

/-- R366, R367, R368: a read under a correct command CRC carries the register's word with its CRC-8 in the data frame; a write
is made, as the register write of SPI, when both CRCs are correct and 80 clocks were given; a transaction that fails a check has
no effect but its status. Each of spiReadTransaction and spiWriteTransaction is so said to complete. Of the model's own choices it
rests on log 66. -/
def Obligations.SpiTransactions : Prop :=
  ∀ (s : State) (cmd data : Reg) (crc dcrc : Byte) (clocks : Nat), s.answers .spi = true →
    (cmd.getLsbD 31 = false →
      (∀ (a w : Nat), crc8 cmd = crc → clocks = 80 → a = fld cmd 0 24 → a < 0x400000 → mayRead .spi a = true →
        s.regRead a = some w →
        ∃ t, exec (.spiReadTransaction cmd crc clocks) s = .next t ∧ t.spi.status = 0 ∧
          t.spi.miso = s.spiMiso (BitVec.ofNat 32 w) (crc8 (BitVec.ofNat 32 w))) ∧
      (clocks < 40 → ∃ t, exec (.spiReadTransaction cmd crc clocks) s = .next t ∧ t.spi.status = 3 ∧
        { t.toHub with spi := s.spi } = s.toHub) ∧
      (40 ≤ clocks → crc8 cmd ≠ crc → ∃ t, exec (.spiReadTransaction cmd crc clocks) s = .next t ∧
        t.spi = { status := 1, miso := s.spiMiso 0 (~~~crc8 0) } ∧ { t.toHub with spi := s.spi } = s.toHub) ∧
      (40 ≤ clocks → crc8 cmd = crc → fld cmd 0 24 = 0x305C → ∃ t, exec (.spiReadTransaction cmd crc clocks) s = .next t ∧
        t.mbx[(1 : Fin 4)].valid = false)) ∧
    (cmd.getLsbD 31 = true →
      (clocks = 80 → crc8 cmd = crc → crc8 data = dcrc →
        exec (.spiWriteTransaction cmd crc data dcrc clocks) s =
          exec (.registerWrite .spi 0 (fld cmd 0 24) 4 data) { s with spi := { status := 0, miso := s.spiMiso 0 (crc8 0) } }) ∧
      ((clocks ≠ 80 ∨ crc8 cmd ≠ crc ∨ crc8 data ≠ dcrc) →
        ∃ t, exec (.spiWriteTransaction cmd crc data dcrc clocks) s = .next t ∧ { t.toHub with spi := s.spi } = s.toHub ∧
          t.spi.status = (if clocks < 40 then 3 else if crc8 cmd ≠ crc then 1 else if clocks ≠ 80 then 3 else 2)))

/-- R386: the resident loader takes its registers' writes from SPI and DEBUG: an offset, a word stored at it, every other byte
but those of the image's state word unchanged, and the check of the image, which makes a good one VALID and resets the hub.
R359, R370, R415, R459: TOP_VIO_CLR clears the counts it names; FAULT_N is released or held by FLT_PIN_CTL once its 25 µs have
passed; the second key of TOP_RESET within 1 ms of the first resets the hub with cause 4; a parity mismatch is reported once. Each
of shimLdrOfsWrite, shimLdrVerify, shimLdrDataWrite, loaderVerifyDone, topVioClr, fltPinRelease, fltPinHoldWrite, topResetWrite and
paritySweep is so said to complete. Of the model's own choices it rests on logs 51, 60 and 68. -/
def Obligations.LoaderAndTopControls : Prop :=
 (∀ (s : State) (m : Master) (v : Reg), s.answers m = true → m ≠ .host → s.shim.loader = true →
    (∃ t, exec (.shimLdrOfsWrite m v) s = .next t ∧ t.shim = { s.shim with ldrOfs := v &&& 0x1FFFFC }) ∧
    (∃ t, exec (.shimLdrVerify m) s = .next t ∧ t.shim = { s.shim with ldrBusy := true }) ∧
    (∀ (i : Side) (o : Nat), i = s.shim.ldrImage → o = s.shim.ldrOffset → o % 4 = 0 →
      (∀ g ∈ [groupOf (imageBase i + o), groupOf (stateWordAt i)],
        g ∉ s.shim.poison ∧ s.shim.damageOf g ≠ .uncorrectable) →
      ∃ t, exec (.shimLdrDataWrite m v) s = .next t ∧ t.shim.imageValid i = false ∧ t.shim.ldrOffset = (o + 4) % 2 ^ 20 ∧
        t.shim.ldrImage = i ∧ (o ≠ 176 → memReadN t.shim.mem (imageBase i + o) 4 = leBytes 4 v.toNat) ∧
        ∀ a, (a < imageBase i + o ∨ imageBase i + o + 4 ≤ a) → (a < stateWordAt i ∨ stateWordAt i + 4 ≤ a) →
          memRead t.shim.mem a = memRead s.shim.mem a) ∧
    (∀ i : Side, s.runs = true → s.shim.ldrBusy = true → i = s.shim.ldrImage → s.shim.damage = [] → s.shim.txn = none →
      ∃ t, exec .loaderVerifyDone s = .next t ∧
        (s.shim.imageReason i = 0 → t.top.mode = .boot ∧ t.top.cause = 5 ∧ t.shim.imageValid i = true ∧ t.shim.loader = false ∧
          ∀ a, (a < stateWordAt i ∨ stateWordAt i + 4 ≤ a) → memRead t.shim.mem a = memRead s.shim.mem a) ∧
        (s.shim.imageReason i ≠ 0 → t.top = s.top ∧ t.shim.ldrBusy = false ∧
          t.shim.ldrReason = BitVec.ofNat 8 (s.shim.imageReason i) ∧ t.shim.mem = s.shim.mem))) ∧
 (∀ (s : State) (m : Master), s.answers m = true →
    (∀ v, ∃ t, exec (.topVioClr m v) s = .next t ∧ t.top.vioHost = (if v.getLsbD 0 then 0 else s.top.vioHost) ∧
      t.top.vioSpi = (if v.getLsbD 1 then 0 else s.top.vioSpi) ∧ t.top.vioDebug = (if v.getLsbD 2 then 0 else s.top.vioDebug) ∧
      t.top.vioLastHost = s.top.vioLastHost ∧ t.top.mode = s.top.mode) ∧
    (∃ t, exec (.fltPinRelease m) s = .next t ∧ t.flt = { s.flt with driven := s.flt.driven && s.flt.minLow }) ∧
    (∀ b, ∃ t, exec (.fltPinHoldWrite m b) s = .next t ∧
      t.flt = { s.flt with hold := b, driven := s.flt.driven && (s.flt.minLow || b) }) ∧
    (∀ (v : Reg) (cyc : Nat) (h : Hub), h = advanceTo cyc s.toHub →
      (fld v 0 16 = 0x5A3C →
        ∃ t, exec (.topResetWrite m v cyc) s = .next t ∧ t.top.resetKey = some (m, h.clk.cycles) ∧ t.top.mode = s.top.mode) ∧
      (∀ c, fld v 0 16 = 0xC3A5 → s.top.resetKey = some (m, c) → h.clk.cycles ≤ c + 1500000 → s.shim.txn = none →
        ∃ t, exec (.topResetWrite m v cyc) s = .next t ∧ t.top.mode = .boot ∧ t.top.cause = 4 ∧ t.top.begun = false ∧
          t.shim.mem = s.shim.mem ∧ t.host = Hub.reset.host ∧ t.clk.inBand = s.clk.inBand) ∧
      (∀ m' c, fld v 0 16 = 0xC3A5 → s.top.resetKey = some (m', c) → (m' ≠ m ∨ c + 1500000 < h.clk.cycles) →
        ∃ t, exec (.topResetWrite m v cyc) s = .next t ∧ t.top.resetKey = none ∧ t.top.mode = s.top.mode)) ∧
    (∀ off : Nat, s.runs = true → hasParity off = true → off ∉ s.top.parBad → s.flt.queue.length < 64 →
      ∃ t x, exec (.paritySweep [off]) s = .next t ∧ t.top.parBad = s.top.parBad ++ [off] ∧
        t.top.parOffset = BitVec.ofNat 24 off ∧ t.flt.queue = s.flt.queue ++ [x] ∧ x.msg.source = 0x340 ∧
        x.msg.kind = .parity ∧ x.msg.address = BitVec.ofNat 32 off ∧ exec (.paritySweep [off]) t = .next t))

/-! ## Reset, steps and what they keep -/

/-- R103, R177, R217, R253: what a hub reset leaves, stated for the one that the second key of TOP_RESET makes: every event
channel, interval unit, domain, output and port at its reset values. -/
def Obligations.HubResetValues : Prop :=
  ∀ (s : State) (m : Master) (c : Nat) (v : Reg), s.answers m = true → fld v 0 16 = 0xC3A5 → s.top.resetKey = some (m, c) →
    s.clk.cycles ≤ c + 1500000 →
    ∃ t, exec (.topResetWrite m v s.clk.pos) s = .next t ∧
      (∀ n : Fin 64, t.evts[n].cfg = resetEvtCfg n ∧ t.evts[n].enabled = false ∧ t.evts[n].queue = [] ∧ t.evts[n].ovfCnt = 0 ∧
        t.evts[n].burstCnt = 0 ∧ t.evts[n].deadCnt = 0 ∧ t.evts[n].edges = 0 ∧ t.evts[n].seq = 0) ∧
      (∀ u : Fin 32, t.ivus[u].state = .idle ∧ t.ivus[u].done = 0) ∧
      (∀ k : Fin 16, t.doms[k].state = .nominal ∧ t.doms[k].aligned = false ∧ t.doms[k].cfg = resetDomCfg k ∧
        t.doms[k].rho = 0 ∧ t.doms[k].slope = 0 ∧ t.doms[k].pofs = 0 ∧ t.doms[k].integ = 0 ∧ t.doms[k].tracked = 0 ∧
        t.doms[k].secs = 0 ∧ t.doms[k].sub = 0 ∧ t.doms[k].todUnset = true) ∧
      (∀ n : Fin 96, t.outs[n].enabled = false ∧ t.outs[n].pin = .bothLow ∧ outDomain t.outs[n].cfg = 0 ∧
        outN t.outs[n].cfg = 150 ∧ outRemote t.outs[n].cfg = false) ∧ (∀ b : Fin 24, t.banks[b] = 0) ∧
      (∀ n : Fin 64, t.plss[n].enabled = false ∧ t.plss[n].active = false ∧ plsLow t.plss[n].run = false ∧
        plsDomain t.plss[n].run = 0 ∧ plsTerm t.plss[n].run = false ∧ plsStart_ t.plss[n].run = 0 ∧ t.plss[n].anchor = .none ∧ plsPeriod t.plss[n].run = 65536000000000 ∧
        plsWidth t.plss[n].run = 65536000 ∧ plsCount t.plss[n].run = 0 ∧ t.plss[n].count = 0 ∧ t.plss[n].skip = 0) ∧
      (∀ n : Fin 48, t.links[n].state = .off ∧ t.links[n].cfg = resetLinkCfg n ∧ t.links[n].extTx = 0 ∧ t.links[n].extRx = 0 ∧
        t.links[n].split = 500 ∧ t.links[n].cntCrc = 0 ∧ t.links[n].cntMiss = 0 ∧ t.links[n].cntMark = 0 ∧ t.links[n].cntMgmt = 0)

/-- Log 3: step takes the command at the front of the queue and runs it on the state with the queue's rest; on an empty queue
the hub idles. The model's choice of interface. -/
def Obligations.StepRunsFrontCommand : Prop :=
  (∀ (c : Instr) (s : State), step { s with pending := c :: s.pending } = exec c s) ∧
  ∀ s : State, s.pending = [] → step s = .next s

/-- Every step answers, and takes exactly one command from the queue; and every command completes in every state, with the queue as
it was. Of the model's own choices it rests on logs 2 and 3. -/
def Obligations.EveryStepAnswers : Prop :=
  (∀ s : State, ∃ t, step s = .next t ∧ t.pending = s.pending.tail) ∧
  ∀ (c : Instr) (s : State), ∃ t, exec c s = .next t ∧ t.pending = s.pending

/-- The state after reset keeps what every step keeps: the Shim store's memory in canonical form, the collector's and the event
channels' queues within their bounds, the descriptors in order. Log 1 names its values. -/
def Obligations.ResetIsKept : Prop :=
  Hub.shimOk State.reset.toHub ∧ Hub.collectorOk State.reset.toHub ∧ Hub.queuesOk State.reset.toHub ∧ Hub.idsOk State.reset.toHub

/-- R371: whatever the command, a step keeps the Shim store's memory in canonical form, every byte inside the 4 MiB array. -/
def Obligations.StepKeepsShimStore : Prop := ∀ s t : State, s.shimOk → step s = .next t → t.shimOk

/-- R84, R406, R407: whatever the command, a step keeps the collector's queue at 64 messages and its history at 256, and every
event channel's queue at 4,096 records. R340: whatever the command, the descriptors in progress stay in the order in which they
were fetched, each under a number of its own. -/
def Obligations.StepKeepsQueues : Prop :=
 (∀ s t : State, s.collectorOk → s.queuesOk → step s = .next t → t.collectorOk ∧ t.queuesOk) ∧
 (∀ s t : State, s.idsOk → step s = .next t → t.idsOk)

/-! ## What each command leaves alone -/

/-- What a descriptor touches, in every state, served or refused: beside the parts in which descriptors are applied and
completed, only those named here; no other register, ring, queue, bank instance or byte of the Shim store changes. Of the
model's own choices it rests on log 2. -/
def Obligations.DescriptorsTouch : Prop :=
  (∀ o, Frame (.nop o) { parts := descParts }) ∧
  (∀ o cyc, Frame (.readTime o cyc) { parts := descParts ++ [.now], doms := any }) ∧
  (∀ o, ∀ c ∈ [Instr.setTime o, .stepTime o], Frame c
    { parts := descParts, doms := any, outs := any, plss := any, units := any }) ∧
  (∀ o, ∀ c ∈ [Instr.slewTime o, .domainConfig o, .domainSteerHoTrim o, .domainModePolicy o, .domainModeRealign o,
    .domainModeClearTracked o, .domainModeClearStepped o, .refPriority o], Frame c { parts := descParts, doms := any }) ∧
  (∀ o, ∀ c ∈ [Instr.domainSteerSet o, .domainSteerAdd o], Frame c
    { parts := descParts ++ [.clk, .collector, .fltEvt], doms := any }) ∧
  (∀ o, Frame (.refConfig o)
    { parts := descParts ++ [.parity, .comp, .collector, .fltEvt], refs := any, doms := any, links := any, tasks := any
      reeds := any, evTasks := any }) ∧
  (∀ o, Frame (.outputConfig o) { parts := descParts ++ [.parity, .banks], outs := any, dlls := any }) ∧
  (∀ o, Frame (.pulseConfig o) { parts := descParts ++ [.parity], plss := any }) ∧
  (∀ o, ∀ c ∈ [Instr.pulseAnchorOnce o, .pulseAnchorTrack o, .pulseAnchorStop o], Frame c { parts := descParts, plss := any }) ∧
  (∀ o, Frame (.eventConfig o) { parts := descParts ++ [.parity], evts := any }) ∧
  (∀ o, ∀ c ∈ [Instr.intervalStartSingle o, .intervalStartRepeat o], Frame c { parts := descParts ++ [.parity], ivus := any }) ∧
  (∀ o, Frame (.intervalStartAbort o) { parts := descParts, ivus := any }) ∧
  (∀ o, Frame (.linkConfig o)
    { parts := descParts ++ [.parity, .hier, .comp, .counters, .collector, .fltEvt, .free], refs := any, doms := any
      links := any, tasks := any, reeds := any, evTasks := any, ptp := any }) ∧
  (∀ o, Frame (.linkCalSetExt o) { parts := descParts, refs := any, doms := any, links := any }) ∧
  (∀ o, ∀ c ∈ [Instr.linkCalLoopback o, .linkCalRebase o], Frame c { parts := descParts, links := any }) ∧
  (∀ o, ∀ c ∈ [Instr.taskAssign o, .halfPowerOff o], Frame c
    { parts := descParts ++ [.comp, .collector, .fltEvt], refs := any, links := any, tasks := any, reeds := any
      evTasks := any }) ∧
  (∀ o, Frame (.taskMove o) { parts := descParts, tasks := any, reeds := any }) ∧
  (∀ o, Frame (.taskParam o) { parts := descParts ++ [.parity], evTasks := any }) ∧
  (∀ o, ∀ c ∈ [Instr.shimRead o, .shimTxnVerify o, .peatRead o], Frame c
    { parts := descParts ++ [.store, .counters, .shim, .collector, .fltEvt] }) ∧
  (∀ o, Frame (.shimTxnInvalidate o) { parts := descParts ++ [.shim] }) ∧
  (∀ o, Frame (.shimTxnSettings o) { parts := descParts ++ [.parity, .shim] }) ∧
  (∀ o, Frame (.peatArchiveArm o) { parts := descParts ++ [.flt, .free] }) ∧
  (∀ o, Frame (.peatArchiveCommit o) { parts := descParts ++ [.store, .counters, .shim, .collector, .fltEvt, .flt] }) ∧
  (∀ o, Frame (.monConfig o)
    { parts := descParts ++ [.parity, .comp, .collector, .fltEvt], refs := any, links := any, tasks := any, reeds := any
      evTasks := any, units := any }) ∧
  (∀ o, Frame (.monSnapshot o) { parts := descParts, units := any }) ∧
  (∀ o descs, Frame (.hierForward o descs) { parts := descParts ++ [.hier], links := any }) ∧
  (∀ o, Frame (.hierDiscoverScan o) { parts := descParts ++ [.hier], links := any }) ∧
  (∀ o, Frame (.hierDiscoverLocal o) { parts := descParts ++ [.parity, .hier] }) ∧
  (∀ o, Frame (.hierDiscoverPtp o)
    { parts := descParts ++ [.parity, .collector, .fltEvt], refs := any, doms := any, ptp := any }) ∧
  (∀ o, Frame (.hierDiscoverAssign o) { parts := descParts ++ [.hier] }) ∧
  (∀ o, Frame (.halfPowerOn o) { parts := descParts ++ [.comp], reeds := any }) ∧
  (∀ o, Frame (.selftestReed o) { parts := descParts ++ [.top, .flt], tasks := any, reeds := any }) ∧
  (∀ o, Frame (.selftestLane o) { parts := descParts ++ [.top, .tdc, .flt] }) ∧
  (∀ o, Frame (.selftestRoot o) { parts := descParts ++ [.top, .now, .clk, .counters, .collector, .fltEvt, .flt], doms := any }) ∧
  (∀ o, Frame (.selftestHalf o)
    { parts := descParts ++ [.top, .comp, .collector, .fltEvt, .flt], refs := any, links := any, tasks := any
      reeds := any, evTasks := any }) ∧
  (∀ o, Frame (.selftestImage o) { parts := descParts ++ [.top, .flt] }) ∧
  (∀ o, Frame (.selftestLink o)
    { parts := descParts ++ [.top, .hier, .counters, .collector, .fltEvt, .flt], refs := any, doms := any, links := any
      ptp := any }) ∧
  (∀ o dma, Frame (.shimTxnWrite o dma) { parts := descParts ++ [.shim, .collector, .fltEvt] })

/-- What the events of the link ports, of the management group and of the PTP ports touch: nothing but the parts and the
instances named here. What the events of domains, references, event channels, interval units, outputs, roots, rings and ticks
touch: nothing but the parts and the instances named here. Of the model's own choices it rests on log 2. -/
def Obligations.EventsTouch : Prop :=
 ((∀ n st, ∀ c ∈ [Instr.tmarkSend n st, .techoSend n st], Frame c
     { parts := [.now, .msix, .tdc, .bus, .wire], evts := any, refs := any, doms := any, links := (· = n) }) ∧
   (∀ n, Frame (.statFrameSend n) { parts := [.msix, .hierEvt, .bus, .wire], links := (· = n) }) ∧
   (∀ n, Frame (.mgmtSegmentSend n) { parts := [.wire], links := (· = n) }) ∧
   (∀ n frame st, Frame (.tmarkReceived n frame st)
     { parts := [.now, .msix, .tdc, .hier, .collector, .fltEvt, .bus], evts := any, refs := any, doms := any
       links := (· = n) }) ∧
   (∀ n frame st, Frame (.techoReceived n frame st)
     { parts := [.now, .cplRings, .msix, .books, .tdc, .hier, .runs, .counters, .profile, .shimEvt, .collector, .fltEvt, .bus]
       evts := any, refs := any, doms := any, links := (· = n) }) ∧
   (∀ n frame, Frame (.todFrameReceived n frame) { parts := [.msix, .collector, .fltEvt, .bus], refs := any, links := (· = n) }) ∧
   (∀ n frame, Frame (.statFrameReceived n frame)
     { parts := [.msix, .hier, .hierEvt, .collector, .fltEvt, .bus], refs := any, doms := any, links := (· = n) }) ∧
   (∀ n frame, Frame (.mgmtSegmentReceived n frame) { parts := [.hier], links := any }) ∧
   (∀ c ∈ [Instr.announceSend, .discoverSend, .reportSend], Frame c { parts := [.hier], links := any }) ∧
   (∀ n, Frame (.blockLock n)
     { parts := [.cplRings, .msix, .books, .hier, .runs, .profile, .shimEvt, .collector, .fltEvt, .bus], refs := any
       doms := any, links := (· = n), ptp := (· = n) }) ∧
   (∀ n, ∀ c ∈ [Instr.blockLockLost n, .receiverSignalLost n, .loopbackComplete n], Frame c
     { parts := [.cplRings, .msix, .books, .hier, .runs, .counters, .profile, .shimEvt, .collector, .fltEvt, .bus]
       refs := any, doms := any, links := (· = n), ptp := (· = n) }) ∧
   (∀ n, Frame (.marksMissingTimeout n)
     { parts := [.now, .cplRings, .msix, .books, .hier, .runs, .counters, .profile, .shimEvt, .collector, .fltEvt, .bus]
       refs := any, doms := any, links := (· = n), ptp := (· = n) }) ∧
   (∀ n, Frame (.echoMissing n)
     { parts := [.now, .cplRings, .msix, .books, .hier, .runs, .counters, .profile, .shimEvt, .collector, .fltEvt, .bus]
       refs := any, doms := any, links := (· = n) }) ∧
   (∀ n, ∀ c ∈ [Instr.mgmtResendTimeout n, .mgmtMessageTimeout n], Frame c { parts := [.now], doms := any, links := (· = n) }) ∧
   (∀ c bits, Frame (.sbxScan c bits)
     { parts := [.cplRings, .msix, .books, .hier, .runs, .counters, .profile, .shimEvt, .collector, .fltEvt, .bus]
       refs := any, doms := any, links := any, ptp := any }) ∧
   (∀ n dev data, Frame (.i2cModulePoll n dev data) { parts := [.msix, .bus], links := (· = n) }) ∧
   (Frame .announceReceived { parts := descParts ++ [.hier] }) ∧
   (∀ tag, Frame (.hierForwardTimeout tag) { parts := descParts ++ [.hier] }) ∧
   (Frame .discoverReceived { parts := [.hier] }) ∧
   (Frame .reportReceived { parts := [.msix, .hier, .hierEvt, .collector, .fltEvt, .bus], links := any }) ∧
   (∀ c ∈ [Instr.assignReceived, .managerSilentTimeout, .lowestTupleTimeout], Frame c
     { parts := [.msix, .hier, .hierEvt, .bus] }) ∧
   (Frame .descReceived { parts := [.books, .hier, .runs] }) ∧
   (Frame .complSend { parts := [.books, .hier, .runs], links := any }) ∧
   (∀ c ∈ [Instr.complReceived, .scanComplete], Frame c
     { parts := [.cplRings, .msix, .books, .hier, .runs, .profile, .shimEvt, .bus] }) ∧
   (∀ n e st, Frame (.ptpEventMessage n e st) { parts := [.now, .wire], doms := any, ptp := (· = n) }) ∧
   (∀ n st origin resp, Frame (.ptpSyncReceived n st origin resp) { parts := [.now], doms := any, ptp := (· = n) }) ∧
   (∀ n, Frame (.ptpSyncTimeout n)
     { parts := [.cplRings, .msix, .books, .runs, .profile, .shimEvt, .collector, .fltEvt, .bus], refs := any, doms := any }) ∧
   (∀ n, ∀ c ∈ [Instr.esmcPduSend n, .esmcEventPduSend n], Frame c { parts := [.wire], ptp := (· = n) }) ∧
   (∀ n ql, Frame (.esmcPduReceived n ql)
     { parts := [.cplRings, .msix, .books, .runs, .profile, .shimEvt, .collector, .fltEvt, .bus], refs := any, doms := any
       ptp := (· = n) }) ∧
   (∀ n, Frame (.esmcAbsentTimeout n)
     { parts := [.cplRings, .msix, .books, .runs, .profile, .shimEvt, .collector, .fltEvt, .bus], refs := any, doms := any
       ptp := (· = n) }) ∧
   (∀ n, Frame (.receiverSignalDetected n) { parts := [.msix, .hier, .bus], links := (· = n) }) ∧
   (∀ n d, Frame (.ptpAnnounceReceived n d)
     { parts := [.cplRings, .msix, .books, .runs, .profile, .shimEvt, .collector, .fltEvt, .bus], refs := any, doms := any
       ptp := any }) ∧
   (∀ n, Frame (.ptpAnnounceReceiptTimeout n)
     { parts := [.cplRings, .msix, .books, .runs, .profile, .shimEvt, .collector, .fltEvt, .bus], refs := any, doms := any
       ptp := any })) ∧
 ((∀ q v cyc, Frame (.commandDoorbell q v cyc) { parts := [.now, .cmdRings, .msix, .collector, .fltEvt, .bus], doms := any }) ∧
   (∀ r v, Frame (.consumerDoorbell r v)
     { parts := [.cplRings, .telRings, .strRings, .msix, .collector, .fltEvt, .bus], evts := any }) ∧
   (∀ q d, Frame (.descriptorFetch q d)
     { parts := [.cmdRings, .cplRings, .msix, .books, .runs, .profile, .shimEvt, .collector, .fltEvt, .bus] }) ∧
   (∀ q d cyc, Frame (.fastRingDescriptor q d cyc)
     { parts := [.now, .cmdRings, .cplRings, .msix, .books, .runs, .profile, .shimEvt, .collector, .fltEvt, .bus]
       doms := any }) ∧
   (∀ q addr timeout, Frame (.descriptorReadError q addr timeout) { parts := [.cmdRings, .msix, .collector, .fltEvt, .bus] }) ∧
   (∀ q, Frame (.commandRingDrained q) { parts := [.cmdRings] }) ∧
   (∀ r, Frame (.coalesceTimeout r) { parts := [.now, .cplRings, .telRings, .strRings, .msix, .bus], doms := any }) ∧
   (∀ v, Frame (.msixUnmask v) { parts := [.msix, .bus] }) ∧
   (∀ k, Frame (.endpointReset k)
     { parts := [.top, .hostRegs, .cmdRings, .cplRings, .telRings, .strRings, .msix, .books], evts := any, mbx := any }) ∧
   (Frame .endpointReady { parts := [.top, .hostRegs] }) ∧
   (∀ m, Frame (.tick1ms m)
     { parts := [.top, .parity, .pwr, .now, .clk, .cplRings, .telRings, .msix, .books, .tdc, .hier, .runs, .store, .counters, .profile, .shimEvt, .shim, .cal, .collector, .fltEvt, .flt, .bus, .wire]
       evts := any, refs := any, doms := any, outs := any, plss := any, links := any, dlls := any, evTasks := any
       ptp := any, units := any }) ∧
   (Frame .tick1s
     { parts := [.parity, .clk, .cplRings, .msix, .books, .tdc, .runs, .counters, .profile, .shimEvt, .shim, .cal, .collector, .fltEvt, .bus, .wire]
       refs := any, doms := any, outs := any, plss := any, links := any, evTasks := any, ptp := any, units := any }) ∧
   (∀ d, Frame (.holdoverTimerExpiry d) { parts := [.msix, .counters, .collector, .fltEvt, .bus], doms := (· = d) }) ∧
   (∀ d, Frame (.revertiveHoldoffExpiry d) { doms := (· = d) }) ∧
   (∀ d, Frame (.domainSecondMark d)
     { parts := [.now, .cplRings, .msix, .books, .runs, .profile, .shimEvt, .bus], doms := any, outs := any, plss := any
       units := any }) ∧
   (∀ r cause, Frame (.rootFaultDetected r cause)
     { parts := [.now, .clk, .msix, .counters, .collector, .fltEvt, .bus], doms := any }) ∧
   (∀ freq, Frame (.rootXJump freq) { parts := [.now, .clk, .msix, .counters, .collector, .fltEvt, .bus], doms := any }) ∧
   (∀ k, Frame (.jumpAttributed k) { parts := [.now, .clk, .msix, .counters, .collector, .fltEvt, .bus], doms := any }) ∧
   (Frame .jumpAttributionTimeout { parts := [.now, .clk, .msix, .counters, .collector, .fltEvt, .bus], doms := any }) ∧
   (∀ c ∈ [Instr.ovenBandEntry, .rootRelationValid], Frame c { parts := [.clk] }) ∧
   (∀ k, Frame (.ladderLock k) { parts := [.clk] }) ∧
   (∀ c ∈ [Instr.ovenBandExit, .ovenWarmupLimit], Frame c { parts := [.clk, .msix, .collector, .fltEvt, .bus] }) ∧
   (∀ k, Frame (.ladderLossOfLock k) { parts := [.clk, .msix, .collector, .fltEvt, .bus] }) ∧
   (Frame .tbWarmRise { parts := [.clk, .msix, .collector, .fltEvt, .bus], doms := any }) ∧
   (∀ n err held, Frame (.dllLock n err held) { outs := (· = n), dlls := (· = n) }) ∧
   (∀ n err lost, Frame (.dllLossOfLock n err lost)
     { parts := [.dllEvt, .msix, .collector, .fltEvt, .bus], dlls := (· = n) }) ∧
   (∀ n rising st, Frame (.eventEdge n rising st)
     { parts := [.now, .msix, .tdc, .bus], evts := any, refs := any, doms := any, evTasks := any }) ∧
   (∀ n width, Frame (.eventWidthEnd n width)
     { parts := [.cplRings, .msix, .books, .tdc, .runs, .profile, .shimEvt, .bus], evts := (· = n), evTasks := any }) ∧
   (∀ n burst, Frame (.streamRecordDma n burst) { parts := [.strRings, .msix, .tdc, .bus], evts := (· = n) }) ∧
   (∀ f, Frame (.frontEndBlankEnd f)
     { parts := [.now, .cplRings, .msix, .books, .runs, .profile, .shimEvt, .bus], evts := any, refs := any, doms := any }) ∧
   (∀ u rising st, Frame (.ivuStartEdge u rising st)
     { parts := [.now, .msix, .tdc, .bus], evts := any, ivus := (· = u), refs := any, doms := any }) ∧
   (∀ u rising st, Frame (.ivuStopEdge u rising st)
     { parts := [.now, .cplRings, .msix, .books, .tdc, .runs, .profile, .shimEvt, .bus], evts := any, ivus := (· = u)
       refs := any, doms := any }) ∧
   (∀ u, ∀ c ∈ [Instr.ivuWindowTimeout u, .ivuStartWaitExpired u], Frame c
     { parts := [.now, .cplRings, .msix, .books, .runs, .profile, .shimEvt, .bus], ivus := (· = u), doms := any }) ∧
   (∀ k st width, Frame (.refPulseEdge k st width) { parts := [.now, .msix, .tdc, .bus], evts := any, refs := any, doms := any }) ∧
   (∀ ix txt cyc, Frame (.todSentence ix txt cyc) { parts := [.now], refs := any, doms := any }) ∧
   (∀ k st widths, Frame (.irigFrame k st widths) { parts := [.now, .msix, .tdc, .bus], refs := any, doms := any }) ∧
   (∀ k edges, Frame (.refqSample k edges)
     { parts := [.now, .cplRings, .msix, .books, .runs, .profile, .shimEvt, .collector, .fltEvt, .bus], refs := (· = k)
       doms := any }) ∧
   (∀ k, Frame (.refLossDetected k)
     { parts := [.now, .cplRings, .msix, .books, .runs, .profile, .shimEvt, .collector, .fltEvt, .bus], refs := (· = k)
       doms := any }) ∧
   (∀ k, ∀ c ∈ [Instr.qualifyTimerExpiry k, .requalifyTimerExpiry k], Frame c { parts := [.msix, .bus], refs := (· = k) }) ∧
   (∀ n, Frame (.outputBoundary n)
     { parts := [.now, .cplRings, .msix, .books, .runs, .profile, .shimEvt, .bus], doms := any, outs := (· = n)
       dlls := (· = n) }) ∧
   (∀ n, Frame (.pulseGridInstant n) { parts := [.now], doms := any, plss := (· = n) }) ∧
   (∀ n rising st, Frame (.pulseAnchorEdge n rising st)
     { parts := [.now, .cplRings, .msix, .books, .tdc, .runs, .profile, .shimEvt, .bus], evts := any, refs := any
       doms := any, plss := (· = n) }) ∧
   (∀ n, Frame (.anchorLostTimeout n) { parts := [.now, .msix, .collector, .fltEvt, .bus], doms := any, plss := (· = n) }) ∧
   (∀ n, ∀ c ∈ [Instr.anchorOnceTimeout n, .pulseEnd n], Frame c
     { parts := [.now, .cplRings, .msix, .books, .runs, .profile, .shimEvt, .bus], doms := any, plss := (· = n) }))

/-- What the events of reeds and wardens, of the Shim store, the fault collector, the monitors and the supply, the sequence
writes and the mailboxes touch: nothing but the parts and the instances named here. Of the model's own choices it rests on log
2. -/
def Obligations.UpkeepTouches : Prop :=
  (∀ v, Frame (.selftestComplete v)
    { parts := [.top, .clk, .cplRings, .msix, .books, .tdc, .hier, .runs, .comp, .store, .counters, .profile, .shimEvt, .shim, .collector, .fltEvt, .flt, .bus, .free]
      links := any, tasks := any, reeds := any }) ∧
  (∀ m r v, Frame (.eventStatusAck m r v)
    { parts := [.pwr, .clk, .msix, .tdc, .hierEvt, .comp, .shimEvt, .cal, .mons, .bus], evts := any, ivus := any
      refs := any, outs := any, plss := any, links := any }) ∧
  (∀ m j v, Frame (.clkDllEvtAck m j v) { parts := [.dllEvt], dlls := any }) ∧
  (∀ m d v, Frame (.domEvtAck m d v) { parts := [.msix, .bus], doms := (· = d) }) ∧
  (∀ m v, Frame (.fltEvtAck m v) { parts := [.fltEvt, .flt] }) ∧
  (∀ m v, Frame (.fltSafeAck m v)
    { parts := [.top, .msix, .comp, .store, .counters, .shimEvt, .shim, .collector, .fltEvt, .flt, .bus], doms := any }) ∧
  (∀ m j v, Frame (.fltDegLnkAck m j v) { parts := [.flt] }) ∧
  (Frame .faultNTimerExpiry { parts := [.flt] }) ∧
  (∀ ix, Frame (.mbxSnapshotValid ix) { mbx := (· = ix) }) ∧
  (∀ m ix, Frame (.mbxData3Read m ix) { parts := [.top], mbx := (· = ix) }) ∧
  (∀ cmd crc clocks, Frame (.spiReadTransaction cmd crc clocks) { parts := [.top, .spi], doms := any, mbx := any }) ∧
  (∀ upto, Frame (.journalTransaction upto)
    { parts := [.cplRings, .msix, .books, .runs, .store, .counters, .profile, .shimEvt, .shim, .collector, .fltEvt, .bus] }) ∧
  (∀ e, Frame (.scrubGroupRead e)
    { parts := [.cplRings, .msix, .books, .runs, .store, .counters, .profile, .shimEvt, .shim, .cal, .collector, .fltEvt, .bus] }) ∧
  (Frame .profileAutostart
    { parts := [.top, .msix, .books, .store, .counters, .profile, .shimEvt, .shim, .collector, .fltEvt, .bus] }) ∧
  (Frame .hourCounterTick { parts := [.counters, .shim] }) ∧
  (∀ r, Frame (.rootLock r)
    { parts := [.top, .pwr, .now, .clk, .cplRings, .msix, .books, .tdc, .hier, .runs, .comp, .store, .counters, .profile, .shimEvt, .shim, .cal, .collector, .fltEvt, .flt, .bus, .free]
      evts := any, refs := any, doms := any, outs := any, plss := any, links := any, dlls := any, tasks := any
      reeds := any }) ∧
  (∀ r, Frame (.rootLockTimeout r)
    { parts := [.top, .pwr, .now, .clk, .cplRings, .msix, .books, .tdc, .hier, .runs, .comp, .store, .counters, .profile, .shimEvt, .shim, .cal, .collector, .fltEvt, .flt, .bus, .free]
      evts := any, refs := any, doms := any, outs := any, plss := any, links := any, dlls := any, tasks := any
      reeds := any }) ∧
  (∀ t x, Frame (.checkpointWrite t x) { tasks := (· = t) }) ∧
  (∀ t, Frame (.taskMoveAtCheckpoint t)
    { parts := [.cplRings, .msix, .books, .runs, .comp, .profile, .shimEvt, .bus], tasks := any, reeds := any }) ∧
  (Frame .halfPowerOnDone
    { parts := [.cplRings, .msix, .books, .runs, .comp, .profile, .shimEvt, .bus], tasks := any, reeds := any }) ∧
  (∀ n, ∀ c ∈ [Instr.reedSramError n, .reedHeartbeatTimeout n, .reedTrap n, .reedDebugHalt n], Frame c
    { parts := [.top, .clk, .cplRings, .msix, .books, .tdc, .hier, .runs, .comp, .counters, .profile, .shimEvt, .collector, .fltEvt, .flt, .bus, .free]
      evts := any, refs := any, links := any, tasks := any, reeds := any }) ∧
  (∀ n, Frame (.reedDebugResume n) { parts := [.msix, .comp, .bus], tasks := any, reeds := any }) ∧
  (∀ t bad0 bad1, Frame (.taskRestored t bad0 bad1)
    { parts := [.cplRings, .msix, .books, .hier, .runs, .comp, .profile, .shimEvt, .collector, .fltEvt, .bus], refs := any
      doms := any, links := any, tasks := (· = t), reeds := any, evTasks := any }) ∧
  (∀ h, Frame (.halfLost h)
    { parts := [.top, .clk, .cplRings, .msix, .books, .tdc, .hier, .runs, .comp, .counters, .profile, .shimEvt, .collector, .fltEvt, .flt, .bus, .free]
      evts := any, refs := any, links := any, tasks := any, reeds := any, evTasks := any }) ∧
  (Frame .halfPowerOffDone { parts := [.cplRings, .msix, .books, .runs, .comp, .profile, .shimEvt, .bus], reeds := any }) ∧
  (∀ fetchErr, Frame (.wardenHeartbeatTimeout fetchErr)
    { parts := [.top, .clk, .cplRings, .msix, .books, .tdc, .hier, .runs, .comp, .store, .counters, .profile, .shimEvt, .shim, .collector, .fltEvt, .flt, .bus, .free]
      evts := any, ivus := any, refs := any, links := any, tasks := any, reeds := any }) ∧
  (∀ w, Frame (.wardenRelease w) { parts := [.msix, .comp, .shim, .bus] }) ∧
  (∀ a b, Frame (.chargeClaim a b)
    { parts := [.top, .pwr, .clk, .cplRings, .msix, .books, .tdc, .hier, .runs, .comp, .store, .counters, .profile, .shimEvt, .shim, .cal, .collector, .fltEvt, .flt, .bus, .free]
      evts := any, ivus := any, refs := any, doms := any, outs := any, plss := any, links := any, dlls := any
      tasks := any, reeds := any }) ∧
  (Frame .splitCharge
    { parts := [.cplRings, .msix, .books, .runs, .comp, .profile, .shimEvt, .shim, .collector, .fltEvt, .bus], ivus := any }) ∧
  (∀ c, Frame (.reservationAgeTimeout c) { parts := [.msix, .comp, .collector, .fltEvt, .bus] }) ∧
  (∀ e, Frame (.eventTaskRecord e) { parts := [.telRings, .msix, .bus], evTasks := (· = e) }) ∧
  (∀ c ∈ [Instr.recoveryStabilityTimeout, .railRetryTimeout, .railRetryWaitExpiry], Frame c { parts := [.top] }) ∧
  (Frame .faultMessage
    { parts := [.top, .clk, .cplRings, .msix, .books, .tdc, .hier, .runs, .comp, .store, .counters, .profile, .shimEvt, .shim, .collector, .fltEvt, .flt, .bus, .free]
      evts := any, refs := any, doms := any, outs := any, plss := any, links := any, tasks := any, reeds := any }) ∧
  (Frame .collectorOverflowReport { parts := [.msix, .collector, .fltEvt, .bus] }) ∧
  (Frame .fatalDump { parts := [.msix, .store, .counters, .shimEvt, .shim, .collector, .fltEvt, .flt, .bus], mbx := any }) ∧
  (∀ bad, Frame (.paritySweep bad) { parts := [.parity, .msix, .collector, .fltEvt, .bus] }) ∧
  (∀ u, Frame (.monSample u) { parts := [.msix, .mons, .bus], units := (· = u) }) ∧
  (∀ u, Frame (.monWindowClose u) { parts := [.now, .telRings, .msix, .bus], doms := any, units := (· = u) }) ∧
  (Frame .bootEnd
    { parts := [.top, .pwr, .clk, .cplRings, .msix, .books, .tdc, .hier, .runs, .comp, .store, .counters, .profile, .shimEvt, .shim, .cal, .collector, .fltEvt, .flt, .bus, .free]
      evts := any, refs := any, doms := any, outs := any, plss := any, links := any, dlls := any, tasks := any
      reeds := any, evTasks := any, ptp := any }) ∧
  (∀ mv, Frame (.pfailAssert mv)
    { parts := [.top, .pwr, .clk, .cplRings, .msix, .books, .tdc, .hier, .runs, .comp, .store, .counters, .profile, .shimEvt, .shim, .cal, .collector, .fltEvt, .flt, .bus, .free]
      evts := any, refs := any, doms := any, outs := any, plss := any, links := any, dlls := any, tasks := any
      reeds := any }) ∧
  (∀ mv, Frame (.pfailDeassert mv)
    { parts := [.pwr, .cplRings, .msix, .books, .runs, .profile, .shimEvt, .shim, .collector, .fltEvt, .bus] }) ∧
  (∀ mv, Frame (.vinOvervoltage mv) { parts := [.pwr, .msix, .collector, .fltEvt, .bus] }) ∧
  (∀ h, Frame (.converterPhaseLost h) { parts := [.pwr, .msix, .collector, .fltEvt, .bus] }) ∧
  (∀ ix t, Frame (.thermalWarn ix t) { parts := [.pwr, .msix, .counters, .collector, .fltEvt, .bus] }) ∧
  (∀ temps, Frame (.thermalWarnClear temps) { parts := [.pwr] }) ∧
  (∀ h, Frame (.converterPhaseRestored h) { parts := [.pwr] }) ∧
  (∀ mv, Frame (.vddpBankMeasurement mv) { plss := any })
end

