-- ==== Sys2Proof/Laws/Coding.lean ====
section
/-!
SUPPORT. The line coding: what the scrambler does, the receiver's descrambler undoes.
-/

set_option Elab.async false

namespace Sys2Proof.Machine

/-- A bit scrambled and descrambled in one state is the bit. -/
@[simp] theorem scrBit_scrBit (st : BitVec 58) (b : Bool) : scrBit st (scrBit st b) = b := by
  unfold scrBit
  cases b <;> cases st.getLsbD 38 <;> cases st.getLsbD 57 <;> rfl

/-- With the same 58 bits before, the descrambler gives back what was scrambled. -/
theorem descramble_scramble (l : List Bool) : ∀ st : BitVec 58, descramble st (scramble st l) = l := by
  induction l with
  | nil => exact fun _ => rfl
  | cons b l ih =>
    intro st
    simp only [scramble, descramble, scrBit_scrBit, ih]

@[simp] theorem scramble_length (l : List Bool) : ∀ st : BitVec 58, (scramble st l).length = l.length := by
  induction l with
  | nil => exact fun _ => rfl
  | cons b l ih =>
    intro st
    simp only [scramble, List.length_cons, ih]

end Sys2Proof.Machine
end

