-- ==== Sys2Proof/Laws/Memory.lean ====
section
/-!
SUPPORT. The Shim store's byte memory (R371): a read after a write, and the canonical form that every write keeps.
-/

set_option Elab.async false

namespace Sys2Proof.Machine

/-! ## Reads -/

theorem memRead_memPut (m : List Host.Cell) (a : Nat) (v : Byte) (b : Nat) (lo : Nat) (hw : memWfFrom lo m = true) :
    memRead (memPut m a v) b = if b = a then v else memRead m b := by
  induction m generalizing lo with
  | nil => by_cases hv : v = 0#8 <;> simp [memPut, memRead, hv]
  | cons c m ih =>
    obtain ⟨x, w⟩ := c
    simp only [memWfFrom, Bool.and_eq_true, decide_eq_true_eq] at hw
    obtain ⟨⟨⟨hlo, hx⟩, hwz⟩, hm⟩ := hw
    have below : ∀ (l : List Host.Cell) (k : Nat), memWfFrom k l = true → ∀ y, y < k → memRead l y = 0 := by
      intro l
      induction l with
      | nil => intros; rfl
      | cons c l ih =>
        intro k hk y hy
        obtain ⟨z, u⟩ := c
        simp only [memWfFrom, Bool.and_eq_true, decide_eq_true_eq] at hk
        obtain ⟨⟨⟨hz, -⟩, -⟩, hl⟩ := hk
        have : y ≠ z := by omega
        simp only [memRead, this, if_false]
        exact ih (z + 1) hl y (by omega)
    simp only [memPut]
    split
    · rename_i hlt
      have hra : ∀ y, y = a → memRead ((x, w) :: m) y = 0 := by
        intro y hy; subst hy
        exact below ((x, w) :: m) x (by simp [memWfFrom, hx, hm, (by simpa using hwz : ¬w = 0#8)]) y hlt
      split
      · rename_i hv
        by_cases hb : b = a
        · simp [hb, hv, hra a rfl]
        · simp [hb]
      · by_cases hb : b = a <;> simp [memRead, hb]
    · split
      · rename_i _ hax
        split
        · rename_i hv
          by_cases hb : b = a
          · subst hb; subst hax
            simp [hv, below m (b + 1) hm b (by omega)]
          · have : b ≠ x := by omega
            simp [memRead, hb, this]
        · by_cases hb : b = a
          · simp [memRead, hb]
          · have : b ≠ x := by omega
            simp [memRead, hb, this]
      · rename_i h1 h2
        by_cases hbx : b = x
        · have : b ≠ a := by omega
          simp only [memRead, hbx, if_pos]; rw [if_neg (by omega)]
        · simp [memRead, hbx, ih (x + 1) hm]

/-! ## Canonical form -/

theorem memWfFrom_mono (m : List Host.Cell) (lo lo' : Nat) (h : lo' ≤ lo) (hw : memWfFrom lo m = true) :
    memWfFrom lo' m = true := by
  cases m with
  | nil => rfl
  | cons c m =>
    simp only [memWfFrom, Bool.and_eq_true, decide_eq_true_eq] at hw ⊢
    exact ⟨⟨⟨by omega, hw.1.1.2⟩, hw.1.2⟩, hw.2⟩

theorem memPut_wf (m : List Host.Cell) (lo a : Nat) (v : Byte) (ha : lo ≤ a) (hb : a < 0x400000)
    (hw : memWfFrom lo m = true) : memWfFrom lo (memPut m a v) = true := by
  induction m generalizing lo with
  | nil => by_cases hv : v = 0#8 <;> simp [memPut, memWfFrom, hv, ha, hb]
  | cons c m ih =>
    obtain ⟨x, w⟩ := c
    have hw' := hw
    simp only [memWfFrom, Bool.and_eq_true, decide_eq_true_eq] at hw
    obtain ⟨⟨⟨hlo, hx⟩, hwz⟩, hm⟩ := hw
    simp only [memPut]
    split
    · split
      · exact hw'
      · rename_i hlt hv
        replace hv : ¬v = 0#8 := hv
        have : memWfFrom (a + 1) ((x, w) :: m) = true := by
          simp only [memWfFrom, Bool.and_eq_true, decide_eq_true_eq]
          exact ⟨⟨⟨by omega, hx⟩, hwz⟩, hm⟩
        show memWfFrom lo ((a, v) :: (x, w) :: m) = true
        rw [memWfFrom]
        simp [ha, hb, hv, this]
    · split
      · rename_i _ hax
        split
        · exact memWfFrom_mono m (x + 1) lo (by omega) hm
        · rename_i hv
          replace hv : ¬v = 0#8 := hv
          subst hax
          simp [memWfFrom, ha, hb, hv, hm]
      · rename_i h1 h2
        simp only [memWfFrom, Bool.and_eq_true, decide_eq_true_eq]
        exact ⟨⟨⟨hlo, hx⟩, hwz⟩, ih (x + 1) (by omega) hm⟩

/-- One byte written keeps the canonical form. -/
theorem memWrite_wf (m : List Host.Cell) (a : Nat) (v : Byte) (hw : Memory.wf m = true) : Memory.wf (memWrite m a v) = true := by
  unfold memWrite
  split
  · rename_i ha
    exact memPut_wf m 0 a v (Nat.zero_le a) ha hw
  · exact hw

/-- A run of bytes written keeps the canonical form. -/
theorem memWriteN_wf (m : List Host.Cell) (a : Nat) (bs : Bytes) (hw : Memory.wf m = true) : Memory.wf (memWriteN m a bs) = true := by
  induction bs generalizing m a with
  | nil => exact hw
  | cons b bs ih => exact ih _ _ (memWrite_wf m a b hw)

/-- A byte reads as written, and every other byte as before. -/
theorem memRead_memWrite (m : List Host.Cell) (a : Nat) (v : Byte) (b : Nat) (hw : Memory.wf m = true) :
    memRead (memWrite m a v) b = if b = a ∧ a < 0x400000 then v else memRead m b := by
  unfold memWrite
  split
  · rename_i ha
    rw [memRead_memPut m a v b 0 hw]
    by_cases hb : b = a <;> simp [hb, ha]
  · rename_i ha
    simp [ha]

/-- A run of bytes leaves every address outside it as it was. -/
theorem memRead_memWriteN_other (m : List Host.Cell) (a : Nat) (bs : Bytes) (b : Nat) (hw : Memory.wf m = true)
    (hb : b < a ∨ a + bs.length ≤ b) : memRead (memWriteN m a bs) b = memRead m b := by
  induction bs generalizing m a with
  | nil => rfl
  | cons x bs ih =>
    simp only [List.length_cons] at hb
    rw [memWriteN, ih _ _ (memWrite_wf m a x hw) (by omega), memRead_memWrite m a x b hw]
    have : ¬(b = a ∧ a < 0x400000) := by omega
    simp [this]

/-- A run of bytes inside the array reads as written. -/
theorem memReadN_memWriteN (m : List Host.Cell) (a : Nat) (bs : Bytes) (hw : Memory.wf m = true)
    (ha : a + bs.length ≤ 0x400000) : memReadN (memWriteN m a bs) a bs.length = bs := by
  induction bs generalizing m a with
  | nil => rfl
  | cons x bs ih =>
    simp only [List.length_cons] at ha
    simp only [memWriteN, List.length_cons, memReadN]
    rw [ih _ _ (memWrite_wf m a x hw) (by omega),
      memRead_memWriteN_other _ _ _ _ (memWrite_wf m a x hw) (by omega), memRead_memWrite m a x a hw]
    simp; omega

end Sys2Proof.Machine
end

