-- ==== Sys2Proof/Laws/State.lean ====
section
/-!
SUPPORT. What each named update of the hub changes and what it leaves: one lemma per update and field, so that no proof
unfolds a record update.
-/

set_option Elab.async false

namespace Sys2Proof.Machine

variable (h : Hub)

@[simp] theorem Hub.onTop_top (f : Top → Top) : (h.onTop f).top = f h.top := rfl
@[simp] theorem Hub.onTop_pwr (f : Top → Top) : (h.onTop f).pwr = h.pwr := rfl
@[simp] theorem Hub.onTop_clk (f : Top → Top) : (h.onTop f).clk = h.clk := rfl
@[simp] theorem Hub.onTop_dlls (f : Top → Top) : (h.onTop f).dlls = h.dlls := rfl
@[simp] theorem Hub.onTop_dllEvt (f : Top → Top) : (h.onTop f).dllEvt = h.dllEvt := rfl
@[simp] theorem Hub.onTop_host (f : Top → Top) : (h.onTop f).host = h.host := rfl
@[simp] theorem Hub.onTop_mbx (f : Top → Top) : (h.onTop f).mbx = h.mbx := rfl
@[simp] theorem Hub.onTop_spi (f : Top → Top) : (h.onTop f).spi = h.spi := rfl
@[simp] theorem Hub.onTop_evts (f : Top → Top) : (h.onTop f).evts = h.evts := rfl
@[simp] theorem Hub.onTop_ivus (f : Top → Top) : (h.onTop f).ivus = h.ivus := rfl
@[simp] theorem Hub.onTop_tdc (f : Top → Top) : (h.onTop f).tdc = h.tdc := rfl
@[simp] theorem Hub.onTop_refs (f : Top → Top) : (h.onTop f).refs = h.refs := rfl
@[simp] theorem Hub.onTop_doms (f : Top → Top) : (h.onTop f).doms = h.doms := rfl
@[simp] theorem Hub.onTop_outs (f : Top → Top) : (h.onTop f).outs = h.outs := rfl
@[simp] theorem Hub.onTop_banks (f : Top → Top) : (h.onTop f).banks = h.banks := rfl
@[simp] theorem Hub.onTop_plss (f : Top → Top) : (h.onTop f).plss = h.plss := rfl
@[simp] theorem Hub.onTop_links (f : Top → Top) : (h.onTop f).links = h.links := rfl
@[simp] theorem Hub.onTop_hier (f : Top → Top) : (h.onTop f).hier = h.hier := rfl
@[simp] theorem Hub.onTop_comp (f : Top → Top) : (h.onTop f).comp = h.comp := rfl
@[simp] theorem Hub.onTop_shim (f : Top → Top) : (h.onTop f).shim = h.shim := rfl
@[simp] theorem Hub.onTop_cal (f : Top → Top) : (h.onTop f).cal = h.cal := rfl
@[simp] theorem Hub.onTop_flt (f : Top → Top) : (h.onTop f).flt = h.flt := rfl
@[simp] theorem Hub.onTop_mons (f : Top → Top) : (h.onTop f).mons = h.mons := rfl
@[simp] theorem Hub.onTop_bus (f : Top → Top) : (h.onTop f).bus = h.bus := rfl
@[simp] theorem Hub.onTop_wire (f : Top → Top) : (h.onTop f).wire = h.wire := rfl
@[simp] theorem Hub.onTop_free (f : Top → Top) : (h.onTop f).free = h.free := rfl

@[simp] theorem Hub.onPwr_top (f : Pwr → Pwr) : (h.onPwr f).top = h.top := rfl
@[simp] theorem Hub.onPwr_pwr (f : Pwr → Pwr) : (h.onPwr f).pwr = f h.pwr := rfl
@[simp] theorem Hub.onPwr_clk (f : Pwr → Pwr) : (h.onPwr f).clk = h.clk := rfl
@[simp] theorem Hub.onPwr_dlls (f : Pwr → Pwr) : (h.onPwr f).dlls = h.dlls := rfl
@[simp] theorem Hub.onPwr_dllEvt (f : Pwr → Pwr) : (h.onPwr f).dllEvt = h.dllEvt := rfl
@[simp] theorem Hub.onPwr_host (f : Pwr → Pwr) : (h.onPwr f).host = h.host := rfl
@[simp] theorem Hub.onPwr_mbx (f : Pwr → Pwr) : (h.onPwr f).mbx = h.mbx := rfl
@[simp] theorem Hub.onPwr_spi (f : Pwr → Pwr) : (h.onPwr f).spi = h.spi := rfl
@[simp] theorem Hub.onPwr_evts (f : Pwr → Pwr) : (h.onPwr f).evts = h.evts := rfl
@[simp] theorem Hub.onPwr_ivus (f : Pwr → Pwr) : (h.onPwr f).ivus = h.ivus := rfl
@[simp] theorem Hub.onPwr_tdc (f : Pwr → Pwr) : (h.onPwr f).tdc = h.tdc := rfl
@[simp] theorem Hub.onPwr_refs (f : Pwr → Pwr) : (h.onPwr f).refs = h.refs := rfl
@[simp] theorem Hub.onPwr_doms (f : Pwr → Pwr) : (h.onPwr f).doms = h.doms := rfl
@[simp] theorem Hub.onPwr_outs (f : Pwr → Pwr) : (h.onPwr f).outs = h.outs := rfl
@[simp] theorem Hub.onPwr_banks (f : Pwr → Pwr) : (h.onPwr f).banks = h.banks := rfl
@[simp] theorem Hub.onPwr_plss (f : Pwr → Pwr) : (h.onPwr f).plss = h.plss := rfl
@[simp] theorem Hub.onPwr_links (f : Pwr → Pwr) : (h.onPwr f).links = h.links := rfl
@[simp] theorem Hub.onPwr_hier (f : Pwr → Pwr) : (h.onPwr f).hier = h.hier := rfl
@[simp] theorem Hub.onPwr_comp (f : Pwr → Pwr) : (h.onPwr f).comp = h.comp := rfl
@[simp] theorem Hub.onPwr_shim (f : Pwr → Pwr) : (h.onPwr f).shim = h.shim := rfl
@[simp] theorem Hub.onPwr_cal (f : Pwr → Pwr) : (h.onPwr f).cal = h.cal := rfl
@[simp] theorem Hub.onPwr_flt (f : Pwr → Pwr) : (h.onPwr f).flt = h.flt := rfl
@[simp] theorem Hub.onPwr_mons (f : Pwr → Pwr) : (h.onPwr f).mons = h.mons := rfl
@[simp] theorem Hub.onPwr_bus (f : Pwr → Pwr) : (h.onPwr f).bus = h.bus := rfl
@[simp] theorem Hub.onPwr_wire (f : Pwr → Pwr) : (h.onPwr f).wire = h.wire := rfl
@[simp] theorem Hub.onPwr_free (f : Pwr → Pwr) : (h.onPwr f).free = h.free := rfl

@[simp] theorem Hub.onClk_top (f : Clk → Clk) : (h.onClk f).top = h.top := rfl
@[simp] theorem Hub.onClk_pwr (f : Clk → Clk) : (h.onClk f).pwr = h.pwr := rfl
@[simp] theorem Hub.onClk_clk (f : Clk → Clk) : (h.onClk f).clk = f h.clk := rfl
@[simp] theorem Hub.onClk_dlls (f : Clk → Clk) : (h.onClk f).dlls = h.dlls := rfl
@[simp] theorem Hub.onClk_dllEvt (f : Clk → Clk) : (h.onClk f).dllEvt = h.dllEvt := rfl
@[simp] theorem Hub.onClk_host (f : Clk → Clk) : (h.onClk f).host = h.host := rfl
@[simp] theorem Hub.onClk_mbx (f : Clk → Clk) : (h.onClk f).mbx = h.mbx := rfl
@[simp] theorem Hub.onClk_spi (f : Clk → Clk) : (h.onClk f).spi = h.spi := rfl
@[simp] theorem Hub.onClk_evts (f : Clk → Clk) : (h.onClk f).evts = h.evts := rfl
@[simp] theorem Hub.onClk_ivus (f : Clk → Clk) : (h.onClk f).ivus = h.ivus := rfl
@[simp] theorem Hub.onClk_tdc (f : Clk → Clk) : (h.onClk f).tdc = h.tdc := rfl
@[simp] theorem Hub.onClk_refs (f : Clk → Clk) : (h.onClk f).refs = h.refs := rfl
@[simp] theorem Hub.onClk_doms (f : Clk → Clk) : (h.onClk f).doms = h.doms := rfl
@[simp] theorem Hub.onClk_outs (f : Clk → Clk) : (h.onClk f).outs = h.outs := rfl
@[simp] theorem Hub.onClk_banks (f : Clk → Clk) : (h.onClk f).banks = h.banks := rfl
@[simp] theorem Hub.onClk_plss (f : Clk → Clk) : (h.onClk f).plss = h.plss := rfl
@[simp] theorem Hub.onClk_links (f : Clk → Clk) : (h.onClk f).links = h.links := rfl
@[simp] theorem Hub.onClk_hier (f : Clk → Clk) : (h.onClk f).hier = h.hier := rfl
@[simp] theorem Hub.onClk_comp (f : Clk → Clk) : (h.onClk f).comp = h.comp := rfl
@[simp] theorem Hub.onClk_shim (f : Clk → Clk) : (h.onClk f).shim = h.shim := rfl
@[simp] theorem Hub.onClk_cal (f : Clk → Clk) : (h.onClk f).cal = h.cal := rfl
@[simp] theorem Hub.onClk_flt (f : Clk → Clk) : (h.onClk f).flt = h.flt := rfl
@[simp] theorem Hub.onClk_mons (f : Clk → Clk) : (h.onClk f).mons = h.mons := rfl
@[simp] theorem Hub.onClk_bus (f : Clk → Clk) : (h.onClk f).bus = h.bus := rfl
@[simp] theorem Hub.onClk_wire (f : Clk → Clk) : (h.onClk f).wire = h.wire := rfl
@[simp] theorem Hub.onClk_free (f : Clk → Clk) : (h.onClk f).free = h.free := rfl

@[simp] theorem Hub.onHost_top (f : HostIf → HostIf) : (h.onHost f).top = h.top := rfl
@[simp] theorem Hub.onHost_pwr (f : HostIf → HostIf) : (h.onHost f).pwr = h.pwr := rfl
@[simp] theorem Hub.onHost_clk (f : HostIf → HostIf) : (h.onHost f).clk = h.clk := rfl
@[simp] theorem Hub.onHost_dlls (f : HostIf → HostIf) : (h.onHost f).dlls = h.dlls := rfl
@[simp] theorem Hub.onHost_dllEvt (f : HostIf → HostIf) : (h.onHost f).dllEvt = h.dllEvt := rfl
@[simp] theorem Hub.onHost_host (f : HostIf → HostIf) : (h.onHost f).host = f h.host := rfl
@[simp] theorem Hub.onHost_mbx (f : HostIf → HostIf) : (h.onHost f).mbx = h.mbx := rfl
@[simp] theorem Hub.onHost_spi (f : HostIf → HostIf) : (h.onHost f).spi = h.spi := rfl
@[simp] theorem Hub.onHost_evts (f : HostIf → HostIf) : (h.onHost f).evts = h.evts := rfl
@[simp] theorem Hub.onHost_ivus (f : HostIf → HostIf) : (h.onHost f).ivus = h.ivus := rfl
@[simp] theorem Hub.onHost_tdc (f : HostIf → HostIf) : (h.onHost f).tdc = h.tdc := rfl
@[simp] theorem Hub.onHost_refs (f : HostIf → HostIf) : (h.onHost f).refs = h.refs := rfl
@[simp] theorem Hub.onHost_doms (f : HostIf → HostIf) : (h.onHost f).doms = h.doms := rfl
@[simp] theorem Hub.onHost_outs (f : HostIf → HostIf) : (h.onHost f).outs = h.outs := rfl
@[simp] theorem Hub.onHost_banks (f : HostIf → HostIf) : (h.onHost f).banks = h.banks := rfl
@[simp] theorem Hub.onHost_plss (f : HostIf → HostIf) : (h.onHost f).plss = h.plss := rfl
@[simp] theorem Hub.onHost_links (f : HostIf → HostIf) : (h.onHost f).links = h.links := rfl
@[simp] theorem Hub.onHost_hier (f : HostIf → HostIf) : (h.onHost f).hier = h.hier := rfl
@[simp] theorem Hub.onHost_comp (f : HostIf → HostIf) : (h.onHost f).comp = h.comp := rfl
@[simp] theorem Hub.onHost_shim (f : HostIf → HostIf) : (h.onHost f).shim = h.shim := rfl
@[simp] theorem Hub.onHost_cal (f : HostIf → HostIf) : (h.onHost f).cal = h.cal := rfl
@[simp] theorem Hub.onHost_flt (f : HostIf → HostIf) : (h.onHost f).flt = h.flt := rfl
@[simp] theorem Hub.onHost_mons (f : HostIf → HostIf) : (h.onHost f).mons = h.mons := rfl
@[simp] theorem Hub.onHost_bus (f : HostIf → HostIf) : (h.onHost f).bus = h.bus := rfl
@[simp] theorem Hub.onHost_wire (f : HostIf → HostIf) : (h.onHost f).wire = h.wire := rfl
@[simp] theorem Hub.onHost_free (f : HostIf → HostIf) : (h.onHost f).free = h.free := rfl

@[simp] theorem Hub.onTdc_top (f : Tdc → Tdc) : (h.onTdc f).top = h.top := rfl
@[simp] theorem Hub.onTdc_pwr (f : Tdc → Tdc) : (h.onTdc f).pwr = h.pwr := rfl
@[simp] theorem Hub.onTdc_clk (f : Tdc → Tdc) : (h.onTdc f).clk = h.clk := rfl
@[simp] theorem Hub.onTdc_dlls (f : Tdc → Tdc) : (h.onTdc f).dlls = h.dlls := rfl
@[simp] theorem Hub.onTdc_dllEvt (f : Tdc → Tdc) : (h.onTdc f).dllEvt = h.dllEvt := rfl
@[simp] theorem Hub.onTdc_host (f : Tdc → Tdc) : (h.onTdc f).host = h.host := rfl
@[simp] theorem Hub.onTdc_mbx (f : Tdc → Tdc) : (h.onTdc f).mbx = h.mbx := rfl
@[simp] theorem Hub.onTdc_spi (f : Tdc → Tdc) : (h.onTdc f).spi = h.spi := rfl
@[simp] theorem Hub.onTdc_evts (f : Tdc → Tdc) : (h.onTdc f).evts = h.evts := rfl
@[simp] theorem Hub.onTdc_ivus (f : Tdc → Tdc) : (h.onTdc f).ivus = h.ivus := rfl
@[simp] theorem Hub.onTdc_tdc (f : Tdc → Tdc) : (h.onTdc f).tdc = f h.tdc := rfl
@[simp] theorem Hub.onTdc_refs (f : Tdc → Tdc) : (h.onTdc f).refs = h.refs := rfl
@[simp] theorem Hub.onTdc_doms (f : Tdc → Tdc) : (h.onTdc f).doms = h.doms := rfl
@[simp] theorem Hub.onTdc_outs (f : Tdc → Tdc) : (h.onTdc f).outs = h.outs := rfl
@[simp] theorem Hub.onTdc_banks (f : Tdc → Tdc) : (h.onTdc f).banks = h.banks := rfl
@[simp] theorem Hub.onTdc_plss (f : Tdc → Tdc) : (h.onTdc f).plss = h.plss := rfl
@[simp] theorem Hub.onTdc_links (f : Tdc → Tdc) : (h.onTdc f).links = h.links := rfl
@[simp] theorem Hub.onTdc_hier (f : Tdc → Tdc) : (h.onTdc f).hier = h.hier := rfl
@[simp] theorem Hub.onTdc_comp (f : Tdc → Tdc) : (h.onTdc f).comp = h.comp := rfl
@[simp] theorem Hub.onTdc_shim (f : Tdc → Tdc) : (h.onTdc f).shim = h.shim := rfl
@[simp] theorem Hub.onTdc_cal (f : Tdc → Tdc) : (h.onTdc f).cal = h.cal := rfl
@[simp] theorem Hub.onTdc_flt (f : Tdc → Tdc) : (h.onTdc f).flt = h.flt := rfl
@[simp] theorem Hub.onTdc_mons (f : Tdc → Tdc) : (h.onTdc f).mons = h.mons := rfl
@[simp] theorem Hub.onTdc_bus (f : Tdc → Tdc) : (h.onTdc f).bus = h.bus := rfl
@[simp] theorem Hub.onTdc_wire (f : Tdc → Tdc) : (h.onTdc f).wire = h.wire := rfl
@[simp] theorem Hub.onTdc_free (f : Tdc → Tdc) : (h.onTdc f).free = h.free := rfl

@[simp] theorem Hub.onHier_top (f : Hier → Hier) : (h.onHier f).top = h.top := rfl
@[simp] theorem Hub.onHier_pwr (f : Hier → Hier) : (h.onHier f).pwr = h.pwr := rfl
@[simp] theorem Hub.onHier_clk (f : Hier → Hier) : (h.onHier f).clk = h.clk := rfl
@[simp] theorem Hub.onHier_dlls (f : Hier → Hier) : (h.onHier f).dlls = h.dlls := rfl
@[simp] theorem Hub.onHier_dllEvt (f : Hier → Hier) : (h.onHier f).dllEvt = h.dllEvt := rfl
@[simp] theorem Hub.onHier_host (f : Hier → Hier) : (h.onHier f).host = h.host := rfl
@[simp] theorem Hub.onHier_mbx (f : Hier → Hier) : (h.onHier f).mbx = h.mbx := rfl
@[simp] theorem Hub.onHier_spi (f : Hier → Hier) : (h.onHier f).spi = h.spi := rfl
@[simp] theorem Hub.onHier_evts (f : Hier → Hier) : (h.onHier f).evts = h.evts := rfl
@[simp] theorem Hub.onHier_ivus (f : Hier → Hier) : (h.onHier f).ivus = h.ivus := rfl
@[simp] theorem Hub.onHier_tdc (f : Hier → Hier) : (h.onHier f).tdc = h.tdc := rfl
@[simp] theorem Hub.onHier_refs (f : Hier → Hier) : (h.onHier f).refs = h.refs := rfl
@[simp] theorem Hub.onHier_doms (f : Hier → Hier) : (h.onHier f).doms = h.doms := rfl
@[simp] theorem Hub.onHier_outs (f : Hier → Hier) : (h.onHier f).outs = h.outs := rfl
@[simp] theorem Hub.onHier_banks (f : Hier → Hier) : (h.onHier f).banks = h.banks := rfl
@[simp] theorem Hub.onHier_plss (f : Hier → Hier) : (h.onHier f).plss = h.plss := rfl
@[simp] theorem Hub.onHier_links (f : Hier → Hier) : (h.onHier f).links = h.links := rfl
@[simp] theorem Hub.onHier_hier (f : Hier → Hier) : (h.onHier f).hier = f h.hier := rfl
@[simp] theorem Hub.onHier_comp (f : Hier → Hier) : (h.onHier f).comp = h.comp := rfl
@[simp] theorem Hub.onHier_shim (f : Hier → Hier) : (h.onHier f).shim = h.shim := rfl
@[simp] theorem Hub.onHier_cal (f : Hier → Hier) : (h.onHier f).cal = h.cal := rfl
@[simp] theorem Hub.onHier_flt (f : Hier → Hier) : (h.onHier f).flt = h.flt := rfl
@[simp] theorem Hub.onHier_mons (f : Hier → Hier) : (h.onHier f).mons = h.mons := rfl
@[simp] theorem Hub.onHier_bus (f : Hier → Hier) : (h.onHier f).bus = h.bus := rfl
@[simp] theorem Hub.onHier_wire (f : Hier → Hier) : (h.onHier f).wire = h.wire := rfl
@[simp] theorem Hub.onHier_free (f : Hier → Hier) : (h.onHier f).free = h.free := rfl

@[simp] theorem Hub.onComp_top (f : Comp → Comp) : (h.onComp f).top = h.top := rfl
@[simp] theorem Hub.onComp_pwr (f : Comp → Comp) : (h.onComp f).pwr = h.pwr := rfl
@[simp] theorem Hub.onComp_clk (f : Comp → Comp) : (h.onComp f).clk = h.clk := rfl
@[simp] theorem Hub.onComp_dlls (f : Comp → Comp) : (h.onComp f).dlls = h.dlls := rfl
@[simp] theorem Hub.onComp_dllEvt (f : Comp → Comp) : (h.onComp f).dllEvt = h.dllEvt := rfl
@[simp] theorem Hub.onComp_host (f : Comp → Comp) : (h.onComp f).host = h.host := rfl
@[simp] theorem Hub.onComp_mbx (f : Comp → Comp) : (h.onComp f).mbx = h.mbx := rfl
@[simp] theorem Hub.onComp_spi (f : Comp → Comp) : (h.onComp f).spi = h.spi := rfl
@[simp] theorem Hub.onComp_evts (f : Comp → Comp) : (h.onComp f).evts = h.evts := rfl
@[simp] theorem Hub.onComp_ivus (f : Comp → Comp) : (h.onComp f).ivus = h.ivus := rfl
@[simp] theorem Hub.onComp_tdc (f : Comp → Comp) : (h.onComp f).tdc = h.tdc := rfl
@[simp] theorem Hub.onComp_refs (f : Comp → Comp) : (h.onComp f).refs = h.refs := rfl
@[simp] theorem Hub.onComp_doms (f : Comp → Comp) : (h.onComp f).doms = h.doms := rfl
@[simp] theorem Hub.onComp_outs (f : Comp → Comp) : (h.onComp f).outs = h.outs := rfl
@[simp] theorem Hub.onComp_banks (f : Comp → Comp) : (h.onComp f).banks = h.banks := rfl
@[simp] theorem Hub.onComp_plss (f : Comp → Comp) : (h.onComp f).plss = h.plss := rfl
@[simp] theorem Hub.onComp_links (f : Comp → Comp) : (h.onComp f).links = h.links := rfl
@[simp] theorem Hub.onComp_hier (f : Comp → Comp) : (h.onComp f).hier = h.hier := rfl
@[simp] theorem Hub.onComp_comp (f : Comp → Comp) : (h.onComp f).comp = f h.comp := rfl
@[simp] theorem Hub.onComp_shim (f : Comp → Comp) : (h.onComp f).shim = h.shim := rfl
@[simp] theorem Hub.onComp_cal (f : Comp → Comp) : (h.onComp f).cal = h.cal := rfl
@[simp] theorem Hub.onComp_flt (f : Comp → Comp) : (h.onComp f).flt = h.flt := rfl
@[simp] theorem Hub.onComp_mons (f : Comp → Comp) : (h.onComp f).mons = h.mons := rfl
@[simp] theorem Hub.onComp_bus (f : Comp → Comp) : (h.onComp f).bus = h.bus := rfl
@[simp] theorem Hub.onComp_wire (f : Comp → Comp) : (h.onComp f).wire = h.wire := rfl
@[simp] theorem Hub.onComp_free (f : Comp → Comp) : (h.onComp f).free = h.free := rfl

@[simp] theorem Hub.onShim_top (f : Shim → Shim) : (h.onShim f).top = h.top := rfl
@[simp] theorem Hub.onShim_pwr (f : Shim → Shim) : (h.onShim f).pwr = h.pwr := rfl
@[simp] theorem Hub.onShim_clk (f : Shim → Shim) : (h.onShim f).clk = h.clk := rfl
@[simp] theorem Hub.onShim_dlls (f : Shim → Shim) : (h.onShim f).dlls = h.dlls := rfl
@[simp] theorem Hub.onShim_dllEvt (f : Shim → Shim) : (h.onShim f).dllEvt = h.dllEvt := rfl
@[simp] theorem Hub.onShim_host (f : Shim → Shim) : (h.onShim f).host = h.host := rfl
@[simp] theorem Hub.onShim_mbx (f : Shim → Shim) : (h.onShim f).mbx = h.mbx := rfl
@[simp] theorem Hub.onShim_spi (f : Shim → Shim) : (h.onShim f).spi = h.spi := rfl
@[simp] theorem Hub.onShim_evts (f : Shim → Shim) : (h.onShim f).evts = h.evts := rfl
@[simp] theorem Hub.onShim_ivus (f : Shim → Shim) : (h.onShim f).ivus = h.ivus := rfl
@[simp] theorem Hub.onShim_tdc (f : Shim → Shim) : (h.onShim f).tdc = h.tdc := rfl
@[simp] theorem Hub.onShim_refs (f : Shim → Shim) : (h.onShim f).refs = h.refs := rfl
@[simp] theorem Hub.onShim_doms (f : Shim → Shim) : (h.onShim f).doms = h.doms := rfl
@[simp] theorem Hub.onShim_outs (f : Shim → Shim) : (h.onShim f).outs = h.outs := rfl
@[simp] theorem Hub.onShim_banks (f : Shim → Shim) : (h.onShim f).banks = h.banks := rfl
@[simp] theorem Hub.onShim_plss (f : Shim → Shim) : (h.onShim f).plss = h.plss := rfl
@[simp] theorem Hub.onShim_links (f : Shim → Shim) : (h.onShim f).links = h.links := rfl
@[simp] theorem Hub.onShim_hier (f : Shim → Shim) : (h.onShim f).hier = h.hier := rfl
@[simp] theorem Hub.onShim_comp (f : Shim → Shim) : (h.onShim f).comp = h.comp := rfl
@[simp] theorem Hub.onShim_shim (f : Shim → Shim) : (h.onShim f).shim = f h.shim := rfl
@[simp] theorem Hub.onShim_cal (f : Shim → Shim) : (h.onShim f).cal = h.cal := rfl
@[simp] theorem Hub.onShim_flt (f : Shim → Shim) : (h.onShim f).flt = h.flt := rfl
@[simp] theorem Hub.onShim_mons (f : Shim → Shim) : (h.onShim f).mons = h.mons := rfl
@[simp] theorem Hub.onShim_bus (f : Shim → Shim) : (h.onShim f).bus = h.bus := rfl
@[simp] theorem Hub.onShim_wire (f : Shim → Shim) : (h.onShim f).wire = h.wire := rfl
@[simp] theorem Hub.onShim_free (f : Shim → Shim) : (h.onShim f).free = h.free := rfl

@[simp] theorem Hub.onCal_top (f : Cal → Cal) : (h.onCal f).top = h.top := rfl
@[simp] theorem Hub.onCal_pwr (f : Cal → Cal) : (h.onCal f).pwr = h.pwr := rfl
@[simp] theorem Hub.onCal_clk (f : Cal → Cal) : (h.onCal f).clk = h.clk := rfl
@[simp] theorem Hub.onCal_dlls (f : Cal → Cal) : (h.onCal f).dlls = h.dlls := rfl
@[simp] theorem Hub.onCal_dllEvt (f : Cal → Cal) : (h.onCal f).dllEvt = h.dllEvt := rfl
@[simp] theorem Hub.onCal_host (f : Cal → Cal) : (h.onCal f).host = h.host := rfl
@[simp] theorem Hub.onCal_mbx (f : Cal → Cal) : (h.onCal f).mbx = h.mbx := rfl
@[simp] theorem Hub.onCal_spi (f : Cal → Cal) : (h.onCal f).spi = h.spi := rfl
@[simp] theorem Hub.onCal_evts (f : Cal → Cal) : (h.onCal f).evts = h.evts := rfl
@[simp] theorem Hub.onCal_ivus (f : Cal → Cal) : (h.onCal f).ivus = h.ivus := rfl
@[simp] theorem Hub.onCal_tdc (f : Cal → Cal) : (h.onCal f).tdc = h.tdc := rfl
@[simp] theorem Hub.onCal_refs (f : Cal → Cal) : (h.onCal f).refs = h.refs := rfl
@[simp] theorem Hub.onCal_doms (f : Cal → Cal) : (h.onCal f).doms = h.doms := rfl
@[simp] theorem Hub.onCal_outs (f : Cal → Cal) : (h.onCal f).outs = h.outs := rfl
@[simp] theorem Hub.onCal_banks (f : Cal → Cal) : (h.onCal f).banks = h.banks := rfl
@[simp] theorem Hub.onCal_plss (f : Cal → Cal) : (h.onCal f).plss = h.plss := rfl
@[simp] theorem Hub.onCal_links (f : Cal → Cal) : (h.onCal f).links = h.links := rfl
@[simp] theorem Hub.onCal_hier (f : Cal → Cal) : (h.onCal f).hier = h.hier := rfl
@[simp] theorem Hub.onCal_comp (f : Cal → Cal) : (h.onCal f).comp = h.comp := rfl
@[simp] theorem Hub.onCal_shim (f : Cal → Cal) : (h.onCal f).shim = h.shim := rfl
@[simp] theorem Hub.onCal_cal (f : Cal → Cal) : (h.onCal f).cal = f h.cal := rfl
@[simp] theorem Hub.onCal_flt (f : Cal → Cal) : (h.onCal f).flt = h.flt := rfl
@[simp] theorem Hub.onCal_mons (f : Cal → Cal) : (h.onCal f).mons = h.mons := rfl
@[simp] theorem Hub.onCal_bus (f : Cal → Cal) : (h.onCal f).bus = h.bus := rfl
@[simp] theorem Hub.onCal_wire (f : Cal → Cal) : (h.onCal f).wire = h.wire := rfl
@[simp] theorem Hub.onCal_free (f : Cal → Cal) : (h.onCal f).free = h.free := rfl

@[simp] theorem Hub.onFlt_top (f : Flt → Flt) : (h.onFlt f).top = h.top := rfl
@[simp] theorem Hub.onFlt_pwr (f : Flt → Flt) : (h.onFlt f).pwr = h.pwr := rfl
@[simp] theorem Hub.onFlt_clk (f : Flt → Flt) : (h.onFlt f).clk = h.clk := rfl
@[simp] theorem Hub.onFlt_dlls (f : Flt → Flt) : (h.onFlt f).dlls = h.dlls := rfl
@[simp] theorem Hub.onFlt_dllEvt (f : Flt → Flt) : (h.onFlt f).dllEvt = h.dllEvt := rfl
@[simp] theorem Hub.onFlt_host (f : Flt → Flt) : (h.onFlt f).host = h.host := rfl
@[simp] theorem Hub.onFlt_mbx (f : Flt → Flt) : (h.onFlt f).mbx = h.mbx := rfl
@[simp] theorem Hub.onFlt_spi (f : Flt → Flt) : (h.onFlt f).spi = h.spi := rfl
@[simp] theorem Hub.onFlt_evts (f : Flt → Flt) : (h.onFlt f).evts = h.evts := rfl
@[simp] theorem Hub.onFlt_ivus (f : Flt → Flt) : (h.onFlt f).ivus = h.ivus := rfl
@[simp] theorem Hub.onFlt_tdc (f : Flt → Flt) : (h.onFlt f).tdc = h.tdc := rfl
@[simp] theorem Hub.onFlt_refs (f : Flt → Flt) : (h.onFlt f).refs = h.refs := rfl
@[simp] theorem Hub.onFlt_doms (f : Flt → Flt) : (h.onFlt f).doms = h.doms := rfl
@[simp] theorem Hub.onFlt_outs (f : Flt → Flt) : (h.onFlt f).outs = h.outs := rfl
@[simp] theorem Hub.onFlt_banks (f : Flt → Flt) : (h.onFlt f).banks = h.banks := rfl
@[simp] theorem Hub.onFlt_plss (f : Flt → Flt) : (h.onFlt f).plss = h.plss := rfl
@[simp] theorem Hub.onFlt_links (f : Flt → Flt) : (h.onFlt f).links = h.links := rfl
@[simp] theorem Hub.onFlt_hier (f : Flt → Flt) : (h.onFlt f).hier = h.hier := rfl
@[simp] theorem Hub.onFlt_comp (f : Flt → Flt) : (h.onFlt f).comp = h.comp := rfl
@[simp] theorem Hub.onFlt_shim (f : Flt → Flt) : (h.onFlt f).shim = h.shim := rfl
@[simp] theorem Hub.onFlt_cal (f : Flt → Flt) : (h.onFlt f).cal = h.cal := rfl
@[simp] theorem Hub.onFlt_flt (f : Flt → Flt) : (h.onFlt f).flt = f h.flt := rfl
@[simp] theorem Hub.onFlt_mons (f : Flt → Flt) : (h.onFlt f).mons = h.mons := rfl
@[simp] theorem Hub.onFlt_bus (f : Flt → Flt) : (h.onFlt f).bus = h.bus := rfl
@[simp] theorem Hub.onFlt_wire (f : Flt → Flt) : (h.onFlt f).wire = h.wire := rfl
@[simp] theorem Hub.onFlt_free (f : Flt → Flt) : (h.onFlt f).free = h.free := rfl

@[simp] theorem Hub.onMons_top (f : Mons → Mons) : (h.onMons f).top = h.top := rfl
@[simp] theorem Hub.onMons_pwr (f : Mons → Mons) : (h.onMons f).pwr = h.pwr := rfl
@[simp] theorem Hub.onMons_clk (f : Mons → Mons) : (h.onMons f).clk = h.clk := rfl
@[simp] theorem Hub.onMons_dlls (f : Mons → Mons) : (h.onMons f).dlls = h.dlls := rfl
@[simp] theorem Hub.onMons_dllEvt (f : Mons → Mons) : (h.onMons f).dllEvt = h.dllEvt := rfl
@[simp] theorem Hub.onMons_host (f : Mons → Mons) : (h.onMons f).host = h.host := rfl
@[simp] theorem Hub.onMons_mbx (f : Mons → Mons) : (h.onMons f).mbx = h.mbx := rfl
@[simp] theorem Hub.onMons_spi (f : Mons → Mons) : (h.onMons f).spi = h.spi := rfl
@[simp] theorem Hub.onMons_evts (f : Mons → Mons) : (h.onMons f).evts = h.evts := rfl
@[simp] theorem Hub.onMons_ivus (f : Mons → Mons) : (h.onMons f).ivus = h.ivus := rfl
@[simp] theorem Hub.onMons_tdc (f : Mons → Mons) : (h.onMons f).tdc = h.tdc := rfl
@[simp] theorem Hub.onMons_refs (f : Mons → Mons) : (h.onMons f).refs = h.refs := rfl
@[simp] theorem Hub.onMons_doms (f : Mons → Mons) : (h.onMons f).doms = h.doms := rfl
@[simp] theorem Hub.onMons_outs (f : Mons → Mons) : (h.onMons f).outs = h.outs := rfl
@[simp] theorem Hub.onMons_banks (f : Mons → Mons) : (h.onMons f).banks = h.banks := rfl
@[simp] theorem Hub.onMons_plss (f : Mons → Mons) : (h.onMons f).plss = h.plss := rfl
@[simp] theorem Hub.onMons_links (f : Mons → Mons) : (h.onMons f).links = h.links := rfl
@[simp] theorem Hub.onMons_hier (f : Mons → Mons) : (h.onMons f).hier = h.hier := rfl
@[simp] theorem Hub.onMons_comp (f : Mons → Mons) : (h.onMons f).comp = h.comp := rfl
@[simp] theorem Hub.onMons_shim (f : Mons → Mons) : (h.onMons f).shim = h.shim := rfl
@[simp] theorem Hub.onMons_cal (f : Mons → Mons) : (h.onMons f).cal = h.cal := rfl
@[simp] theorem Hub.onMons_flt (f : Mons → Mons) : (h.onMons f).flt = h.flt := rfl
@[simp] theorem Hub.onMons_mons (f : Mons → Mons) : (h.onMons f).mons = f h.mons := rfl
@[simp] theorem Hub.onMons_bus (f : Mons → Mons) : (h.onMons f).bus = h.bus := rfl
@[simp] theorem Hub.onMons_wire (f : Mons → Mons) : (h.onMons f).wire = h.wire := rfl
@[simp] theorem Hub.onMons_free (f : Mons → Mons) : (h.onMons f).free = h.free := rfl

@[simp] theorem Hub.onDoms_top (f : Dom → Dom) : (h.onDoms f).top = h.top := rfl
@[simp] theorem Hub.onDoms_pwr (f : Dom → Dom) : (h.onDoms f).pwr = h.pwr := rfl
@[simp] theorem Hub.onDoms_clk (f : Dom → Dom) : (h.onDoms f).clk = h.clk := rfl
@[simp] theorem Hub.onDoms_dlls (f : Dom → Dom) : (h.onDoms f).dlls = h.dlls := rfl
@[simp] theorem Hub.onDoms_dllEvt (f : Dom → Dom) : (h.onDoms f).dllEvt = h.dllEvt := rfl
@[simp] theorem Hub.onDoms_host (f : Dom → Dom) : (h.onDoms f).host = h.host := rfl
@[simp] theorem Hub.onDoms_mbx (f : Dom → Dom) : (h.onDoms f).mbx = h.mbx := rfl
@[simp] theorem Hub.onDoms_spi (f : Dom → Dom) : (h.onDoms f).spi = h.spi := rfl
@[simp] theorem Hub.onDoms_evts (f : Dom → Dom) : (h.onDoms f).evts = h.evts := rfl
@[simp] theorem Hub.onDoms_ivus (f : Dom → Dom) : (h.onDoms f).ivus = h.ivus := rfl
@[simp] theorem Hub.onDoms_tdc (f : Dom → Dom) : (h.onDoms f).tdc = h.tdc := rfl
@[simp] theorem Hub.onDoms_refs (f : Dom → Dom) : (h.onDoms f).refs = h.refs := rfl
@[simp] theorem Hub.onDoms_doms (f : Dom → Dom) : (h.onDoms f).doms = h.doms.map f := rfl
@[simp] theorem Hub.onDoms_outs (f : Dom → Dom) : (h.onDoms f).outs = h.outs := rfl
@[simp] theorem Hub.onDoms_banks (f : Dom → Dom) : (h.onDoms f).banks = h.banks := rfl
@[simp] theorem Hub.onDoms_plss (f : Dom → Dom) : (h.onDoms f).plss = h.plss := rfl
@[simp] theorem Hub.onDoms_links (f : Dom → Dom) : (h.onDoms f).links = h.links := rfl
@[simp] theorem Hub.onDoms_hier (f : Dom → Dom) : (h.onDoms f).hier = h.hier := rfl
@[simp] theorem Hub.onDoms_comp (f : Dom → Dom) : (h.onDoms f).comp = h.comp := rfl
@[simp] theorem Hub.onDoms_shim (f : Dom → Dom) : (h.onDoms f).shim = h.shim := rfl
@[simp] theorem Hub.onDoms_cal (f : Dom → Dom) : (h.onDoms f).cal = h.cal := rfl
@[simp] theorem Hub.onDoms_flt (f : Dom → Dom) : (h.onDoms f).flt = h.flt := rfl
@[simp] theorem Hub.onDoms_mons (f : Dom → Dom) : (h.onDoms f).mons = h.mons := rfl
@[simp] theorem Hub.onDoms_bus (f : Dom → Dom) : (h.onDoms f).bus = h.bus := rfl
@[simp] theorem Hub.onDoms_wire (f : Dom → Dom) : (h.onDoms f).wire = h.wire := rfl
@[simp] theorem Hub.onDoms_free (f : Dom → Dom) : (h.onDoms f).free = h.free := rfl

@[simp] theorem Hub.onDom_top (n : Fin 16) (f : Dom → Dom) : (h.onDom n f).top = h.top := rfl
@[simp] theorem Hub.onDom_pwr (n : Fin 16) (f : Dom → Dom) : (h.onDom n f).pwr = h.pwr := rfl
@[simp] theorem Hub.onDom_clk (n : Fin 16) (f : Dom → Dom) : (h.onDom n f).clk = h.clk := rfl
@[simp] theorem Hub.onDom_dlls (n : Fin 16) (f : Dom → Dom) : (h.onDom n f).dlls = h.dlls := rfl
@[simp] theorem Hub.onDom_dllEvt (n : Fin 16) (f : Dom → Dom) : (h.onDom n f).dllEvt = h.dllEvt := rfl
@[simp] theorem Hub.onDom_host (n : Fin 16) (f : Dom → Dom) : (h.onDom n f).host = h.host := rfl
@[simp] theorem Hub.onDom_mbx (n : Fin 16) (f : Dom → Dom) : (h.onDom n f).mbx = h.mbx := rfl
@[simp] theorem Hub.onDom_spi (n : Fin 16) (f : Dom → Dom) : (h.onDom n f).spi = h.spi := rfl
@[simp] theorem Hub.onDom_evts (n : Fin 16) (f : Dom → Dom) : (h.onDom n f).evts = h.evts := rfl
@[simp] theorem Hub.onDom_ivus (n : Fin 16) (f : Dom → Dom) : (h.onDom n f).ivus = h.ivus := rfl
@[simp] theorem Hub.onDom_tdc (n : Fin 16) (f : Dom → Dom) : (h.onDom n f).tdc = h.tdc := rfl
@[simp] theorem Hub.onDom_refs (n : Fin 16) (f : Dom → Dom) : (h.onDom n f).refs = h.refs := rfl
@[simp] theorem Hub.onDom_doms (n : Fin 16) (f : Dom → Dom) : (h.onDom n f).doms = upd h.doms n f := rfl
@[simp] theorem Hub.onDom_outs (n : Fin 16) (f : Dom → Dom) : (h.onDom n f).outs = h.outs := rfl
@[simp] theorem Hub.onDom_banks (n : Fin 16) (f : Dom → Dom) : (h.onDom n f).banks = h.banks := rfl
@[simp] theorem Hub.onDom_plss (n : Fin 16) (f : Dom → Dom) : (h.onDom n f).plss = h.plss := rfl
@[simp] theorem Hub.onDom_links (n : Fin 16) (f : Dom → Dom) : (h.onDom n f).links = h.links := rfl
@[simp] theorem Hub.onDom_hier (n : Fin 16) (f : Dom → Dom) : (h.onDom n f).hier = h.hier := rfl
@[simp] theorem Hub.onDom_comp (n : Fin 16) (f : Dom → Dom) : (h.onDom n f).comp = h.comp := rfl
@[simp] theorem Hub.onDom_shim (n : Fin 16) (f : Dom → Dom) : (h.onDom n f).shim = h.shim := rfl
@[simp] theorem Hub.onDom_cal (n : Fin 16) (f : Dom → Dom) : (h.onDom n f).cal = h.cal := rfl
@[simp] theorem Hub.onDom_flt (n : Fin 16) (f : Dom → Dom) : (h.onDom n f).flt = h.flt := rfl
@[simp] theorem Hub.onDom_mons (n : Fin 16) (f : Dom → Dom) : (h.onDom n f).mons = h.mons := rfl
@[simp] theorem Hub.onDom_bus (n : Fin 16) (f : Dom → Dom) : (h.onDom n f).bus = h.bus := rfl
@[simp] theorem Hub.onDom_wire (n : Fin 16) (f : Dom → Dom) : (h.onDom n f).wire = h.wire := rfl
@[simp] theorem Hub.onDom_free (n : Fin 16) (f : Dom → Dom) : (h.onDom n f).free = h.free := rfl

@[simp] theorem Hub.onRef_top (n : Fin 12) (f : RefSlot → RefSlot) : (h.onRef n f).top = h.top := rfl
@[simp] theorem Hub.onRef_pwr (n : Fin 12) (f : RefSlot → RefSlot) : (h.onRef n f).pwr = h.pwr := rfl
@[simp] theorem Hub.onRef_clk (n : Fin 12) (f : RefSlot → RefSlot) : (h.onRef n f).clk = h.clk := rfl
@[simp] theorem Hub.onRef_dlls (n : Fin 12) (f : RefSlot → RefSlot) : (h.onRef n f).dlls = h.dlls := rfl
@[simp] theorem Hub.onRef_dllEvt (n : Fin 12) (f : RefSlot → RefSlot) : (h.onRef n f).dllEvt = h.dllEvt := rfl
@[simp] theorem Hub.onRef_host (n : Fin 12) (f : RefSlot → RefSlot) : (h.onRef n f).host = h.host := rfl
@[simp] theorem Hub.onRef_mbx (n : Fin 12) (f : RefSlot → RefSlot) : (h.onRef n f).mbx = h.mbx := rfl
@[simp] theorem Hub.onRef_spi (n : Fin 12) (f : RefSlot → RefSlot) : (h.onRef n f).spi = h.spi := rfl
@[simp] theorem Hub.onRef_evts (n : Fin 12) (f : RefSlot → RefSlot) : (h.onRef n f).evts = h.evts := rfl
@[simp] theorem Hub.onRef_ivus (n : Fin 12) (f : RefSlot → RefSlot) : (h.onRef n f).ivus = h.ivus := rfl
@[simp] theorem Hub.onRef_tdc (n : Fin 12) (f : RefSlot → RefSlot) : (h.onRef n f).tdc = h.tdc := rfl
@[simp] theorem Hub.onRef_refs (n : Fin 12) (f : RefSlot → RefSlot) : (h.onRef n f).refs = upd h.refs n f := rfl
@[simp] theorem Hub.onRef_doms (n : Fin 12) (f : RefSlot → RefSlot) : (h.onRef n f).doms = h.doms := rfl
@[simp] theorem Hub.onRef_outs (n : Fin 12) (f : RefSlot → RefSlot) : (h.onRef n f).outs = h.outs := rfl
@[simp] theorem Hub.onRef_banks (n : Fin 12) (f : RefSlot → RefSlot) : (h.onRef n f).banks = h.banks := rfl
@[simp] theorem Hub.onRef_plss (n : Fin 12) (f : RefSlot → RefSlot) : (h.onRef n f).plss = h.plss := rfl
@[simp] theorem Hub.onRef_links (n : Fin 12) (f : RefSlot → RefSlot) : (h.onRef n f).links = h.links := rfl
@[simp] theorem Hub.onRef_hier (n : Fin 12) (f : RefSlot → RefSlot) : (h.onRef n f).hier = h.hier := rfl
@[simp] theorem Hub.onRef_comp (n : Fin 12) (f : RefSlot → RefSlot) : (h.onRef n f).comp = h.comp := rfl
@[simp] theorem Hub.onRef_shim (n : Fin 12) (f : RefSlot → RefSlot) : (h.onRef n f).shim = h.shim := rfl
@[simp] theorem Hub.onRef_cal (n : Fin 12) (f : RefSlot → RefSlot) : (h.onRef n f).cal = h.cal := rfl
@[simp] theorem Hub.onRef_flt (n : Fin 12) (f : RefSlot → RefSlot) : (h.onRef n f).flt = h.flt := rfl
@[simp] theorem Hub.onRef_mons (n : Fin 12) (f : RefSlot → RefSlot) : (h.onRef n f).mons = h.mons := rfl
@[simp] theorem Hub.onRef_bus (n : Fin 12) (f : RefSlot → RefSlot) : (h.onRef n f).bus = h.bus := rfl
@[simp] theorem Hub.onRef_wire (n : Fin 12) (f : RefSlot → RefSlot) : (h.onRef n f).wire = h.wire := rfl
@[simp] theorem Hub.onRef_free (n : Fin 12) (f : RefSlot → RefSlot) : (h.onRef n f).free = h.free := rfl

@[simp] theorem Hub.onEvt_top (n : Fin 64) (f : EvtCh → EvtCh) : (h.onEvt n f).top = h.top := rfl
@[simp] theorem Hub.onEvt_pwr (n : Fin 64) (f : EvtCh → EvtCh) : (h.onEvt n f).pwr = h.pwr := rfl
@[simp] theorem Hub.onEvt_clk (n : Fin 64) (f : EvtCh → EvtCh) : (h.onEvt n f).clk = h.clk := rfl
@[simp] theorem Hub.onEvt_dlls (n : Fin 64) (f : EvtCh → EvtCh) : (h.onEvt n f).dlls = h.dlls := rfl
@[simp] theorem Hub.onEvt_dllEvt (n : Fin 64) (f : EvtCh → EvtCh) : (h.onEvt n f).dllEvt = h.dllEvt := rfl
@[simp] theorem Hub.onEvt_host (n : Fin 64) (f : EvtCh → EvtCh) : (h.onEvt n f).host = h.host := rfl
@[simp] theorem Hub.onEvt_mbx (n : Fin 64) (f : EvtCh → EvtCh) : (h.onEvt n f).mbx = h.mbx := rfl
@[simp] theorem Hub.onEvt_spi (n : Fin 64) (f : EvtCh → EvtCh) : (h.onEvt n f).spi = h.spi := rfl
@[simp] theorem Hub.onEvt_evts (n : Fin 64) (f : EvtCh → EvtCh) : (h.onEvt n f).evts = upd h.evts n f := rfl
@[simp] theorem Hub.onEvt_ivus (n : Fin 64) (f : EvtCh → EvtCh) : (h.onEvt n f).ivus = h.ivus := rfl
@[simp] theorem Hub.onEvt_tdc (n : Fin 64) (f : EvtCh → EvtCh) : (h.onEvt n f).tdc = h.tdc := rfl
@[simp] theorem Hub.onEvt_refs (n : Fin 64) (f : EvtCh → EvtCh) : (h.onEvt n f).refs = h.refs := rfl
@[simp] theorem Hub.onEvt_doms (n : Fin 64) (f : EvtCh → EvtCh) : (h.onEvt n f).doms = h.doms := rfl
@[simp] theorem Hub.onEvt_outs (n : Fin 64) (f : EvtCh → EvtCh) : (h.onEvt n f).outs = h.outs := rfl
@[simp] theorem Hub.onEvt_banks (n : Fin 64) (f : EvtCh → EvtCh) : (h.onEvt n f).banks = h.banks := rfl
@[simp] theorem Hub.onEvt_plss (n : Fin 64) (f : EvtCh → EvtCh) : (h.onEvt n f).plss = h.plss := rfl
@[simp] theorem Hub.onEvt_links (n : Fin 64) (f : EvtCh → EvtCh) : (h.onEvt n f).links = h.links := rfl
@[simp] theorem Hub.onEvt_hier (n : Fin 64) (f : EvtCh → EvtCh) : (h.onEvt n f).hier = h.hier := rfl
@[simp] theorem Hub.onEvt_comp (n : Fin 64) (f : EvtCh → EvtCh) : (h.onEvt n f).comp = h.comp := rfl
@[simp] theorem Hub.onEvt_shim (n : Fin 64) (f : EvtCh → EvtCh) : (h.onEvt n f).shim = h.shim := rfl
@[simp] theorem Hub.onEvt_cal (n : Fin 64) (f : EvtCh → EvtCh) : (h.onEvt n f).cal = h.cal := rfl
@[simp] theorem Hub.onEvt_flt (n : Fin 64) (f : EvtCh → EvtCh) : (h.onEvt n f).flt = h.flt := rfl
@[simp] theorem Hub.onEvt_mons (n : Fin 64) (f : EvtCh → EvtCh) : (h.onEvt n f).mons = h.mons := rfl
@[simp] theorem Hub.onEvt_bus (n : Fin 64) (f : EvtCh → EvtCh) : (h.onEvt n f).bus = h.bus := rfl
@[simp] theorem Hub.onEvt_wire (n : Fin 64) (f : EvtCh → EvtCh) : (h.onEvt n f).wire = h.wire := rfl
@[simp] theorem Hub.onEvt_free (n : Fin 64) (f : EvtCh → EvtCh) : (h.onEvt n f).free = h.free := rfl

@[simp] theorem Hub.onIvu_top (n : Fin 32) (f : Ivu → Ivu) : (h.onIvu n f).top = h.top := rfl
@[simp] theorem Hub.onIvu_pwr (n : Fin 32) (f : Ivu → Ivu) : (h.onIvu n f).pwr = h.pwr := rfl
@[simp] theorem Hub.onIvu_clk (n : Fin 32) (f : Ivu → Ivu) : (h.onIvu n f).clk = h.clk := rfl
@[simp] theorem Hub.onIvu_dlls (n : Fin 32) (f : Ivu → Ivu) : (h.onIvu n f).dlls = h.dlls := rfl
@[simp] theorem Hub.onIvu_dllEvt (n : Fin 32) (f : Ivu → Ivu) : (h.onIvu n f).dllEvt = h.dllEvt := rfl
@[simp] theorem Hub.onIvu_host (n : Fin 32) (f : Ivu → Ivu) : (h.onIvu n f).host = h.host := rfl
@[simp] theorem Hub.onIvu_mbx (n : Fin 32) (f : Ivu → Ivu) : (h.onIvu n f).mbx = h.mbx := rfl
@[simp] theorem Hub.onIvu_spi (n : Fin 32) (f : Ivu → Ivu) : (h.onIvu n f).spi = h.spi := rfl
@[simp] theorem Hub.onIvu_evts (n : Fin 32) (f : Ivu → Ivu) : (h.onIvu n f).evts = h.evts := rfl
@[simp] theorem Hub.onIvu_ivus (n : Fin 32) (f : Ivu → Ivu) : (h.onIvu n f).ivus = upd h.ivus n f := rfl
@[simp] theorem Hub.onIvu_tdc (n : Fin 32) (f : Ivu → Ivu) : (h.onIvu n f).tdc = h.tdc := rfl
@[simp] theorem Hub.onIvu_refs (n : Fin 32) (f : Ivu → Ivu) : (h.onIvu n f).refs = h.refs := rfl
@[simp] theorem Hub.onIvu_doms (n : Fin 32) (f : Ivu → Ivu) : (h.onIvu n f).doms = h.doms := rfl
@[simp] theorem Hub.onIvu_outs (n : Fin 32) (f : Ivu → Ivu) : (h.onIvu n f).outs = h.outs := rfl
@[simp] theorem Hub.onIvu_banks (n : Fin 32) (f : Ivu → Ivu) : (h.onIvu n f).banks = h.banks := rfl
@[simp] theorem Hub.onIvu_plss (n : Fin 32) (f : Ivu → Ivu) : (h.onIvu n f).plss = h.plss := rfl
@[simp] theorem Hub.onIvu_links (n : Fin 32) (f : Ivu → Ivu) : (h.onIvu n f).links = h.links := rfl
@[simp] theorem Hub.onIvu_hier (n : Fin 32) (f : Ivu → Ivu) : (h.onIvu n f).hier = h.hier := rfl
@[simp] theorem Hub.onIvu_comp (n : Fin 32) (f : Ivu → Ivu) : (h.onIvu n f).comp = h.comp := rfl
@[simp] theorem Hub.onIvu_shim (n : Fin 32) (f : Ivu → Ivu) : (h.onIvu n f).shim = h.shim := rfl
@[simp] theorem Hub.onIvu_cal (n : Fin 32) (f : Ivu → Ivu) : (h.onIvu n f).cal = h.cal := rfl
@[simp] theorem Hub.onIvu_flt (n : Fin 32) (f : Ivu → Ivu) : (h.onIvu n f).flt = h.flt := rfl
@[simp] theorem Hub.onIvu_mons (n : Fin 32) (f : Ivu → Ivu) : (h.onIvu n f).mons = h.mons := rfl
@[simp] theorem Hub.onIvu_bus (n : Fin 32) (f : Ivu → Ivu) : (h.onIvu n f).bus = h.bus := rfl
@[simp] theorem Hub.onIvu_wire (n : Fin 32) (f : Ivu → Ivu) : (h.onIvu n f).wire = h.wire := rfl
@[simp] theorem Hub.onIvu_free (n : Fin 32) (f : Ivu → Ivu) : (h.onIvu n f).free = h.free := rfl

@[simp] theorem Hub.onDll_top (n : Fin 96) (f : Dll → Dll) : (h.onDll n f).top = h.top := rfl
@[simp] theorem Hub.onDll_pwr (n : Fin 96) (f : Dll → Dll) : (h.onDll n f).pwr = h.pwr := rfl
@[simp] theorem Hub.onDll_clk (n : Fin 96) (f : Dll → Dll) : (h.onDll n f).clk = h.clk := rfl
@[simp] theorem Hub.onDll_dlls (n : Fin 96) (f : Dll → Dll) : (h.onDll n f).dlls = upd h.dlls n f := rfl
@[simp] theorem Hub.onDll_dllEvt (n : Fin 96) (f : Dll → Dll) : (h.onDll n f).dllEvt = h.dllEvt := rfl
@[simp] theorem Hub.onDll_host (n : Fin 96) (f : Dll → Dll) : (h.onDll n f).host = h.host := rfl
@[simp] theorem Hub.onDll_mbx (n : Fin 96) (f : Dll → Dll) : (h.onDll n f).mbx = h.mbx := rfl
@[simp] theorem Hub.onDll_spi (n : Fin 96) (f : Dll → Dll) : (h.onDll n f).spi = h.spi := rfl
@[simp] theorem Hub.onDll_evts (n : Fin 96) (f : Dll → Dll) : (h.onDll n f).evts = h.evts := rfl
@[simp] theorem Hub.onDll_ivus (n : Fin 96) (f : Dll → Dll) : (h.onDll n f).ivus = h.ivus := rfl
@[simp] theorem Hub.onDll_tdc (n : Fin 96) (f : Dll → Dll) : (h.onDll n f).tdc = h.tdc := rfl
@[simp] theorem Hub.onDll_refs (n : Fin 96) (f : Dll → Dll) : (h.onDll n f).refs = h.refs := rfl
@[simp] theorem Hub.onDll_doms (n : Fin 96) (f : Dll → Dll) : (h.onDll n f).doms = h.doms := rfl
@[simp] theorem Hub.onDll_outs (n : Fin 96) (f : Dll → Dll) : (h.onDll n f).outs = h.outs := rfl
@[simp] theorem Hub.onDll_banks (n : Fin 96) (f : Dll → Dll) : (h.onDll n f).banks = h.banks := rfl
@[simp] theorem Hub.onDll_plss (n : Fin 96) (f : Dll → Dll) : (h.onDll n f).plss = h.plss := rfl
@[simp] theorem Hub.onDll_links (n : Fin 96) (f : Dll → Dll) : (h.onDll n f).links = h.links := rfl
@[simp] theorem Hub.onDll_hier (n : Fin 96) (f : Dll → Dll) : (h.onDll n f).hier = h.hier := rfl
@[simp] theorem Hub.onDll_comp (n : Fin 96) (f : Dll → Dll) : (h.onDll n f).comp = h.comp := rfl
@[simp] theorem Hub.onDll_shim (n : Fin 96) (f : Dll → Dll) : (h.onDll n f).shim = h.shim := rfl
@[simp] theorem Hub.onDll_cal (n : Fin 96) (f : Dll → Dll) : (h.onDll n f).cal = h.cal := rfl
@[simp] theorem Hub.onDll_flt (n : Fin 96) (f : Dll → Dll) : (h.onDll n f).flt = h.flt := rfl
@[simp] theorem Hub.onDll_mons (n : Fin 96) (f : Dll → Dll) : (h.onDll n f).mons = h.mons := rfl
@[simp] theorem Hub.onDll_bus (n : Fin 96) (f : Dll → Dll) : (h.onDll n f).bus = h.bus := rfl
@[simp] theorem Hub.onDll_wire (n : Fin 96) (f : Dll → Dll) : (h.onDll n f).wire = h.wire := rfl
@[simp] theorem Hub.onDll_free (n : Fin 96) (f : Dll → Dll) : (h.onDll n f).free = h.free := rfl

@[simp] theorem Hub.onOut_top (n : Fin 96) (f : ClkOut → ClkOut) : (h.onOut n f).top = h.top := rfl
@[simp] theorem Hub.onOut_pwr (n : Fin 96) (f : ClkOut → ClkOut) : (h.onOut n f).pwr = h.pwr := rfl
@[simp] theorem Hub.onOut_clk (n : Fin 96) (f : ClkOut → ClkOut) : (h.onOut n f).clk = h.clk := rfl
@[simp] theorem Hub.onOut_dlls (n : Fin 96) (f : ClkOut → ClkOut) : (h.onOut n f).dlls = h.dlls := rfl
@[simp] theorem Hub.onOut_dllEvt (n : Fin 96) (f : ClkOut → ClkOut) : (h.onOut n f).dllEvt = h.dllEvt := rfl
@[simp] theorem Hub.onOut_host (n : Fin 96) (f : ClkOut → ClkOut) : (h.onOut n f).host = h.host := rfl
@[simp] theorem Hub.onOut_mbx (n : Fin 96) (f : ClkOut → ClkOut) : (h.onOut n f).mbx = h.mbx := rfl
@[simp] theorem Hub.onOut_spi (n : Fin 96) (f : ClkOut → ClkOut) : (h.onOut n f).spi = h.spi := rfl
@[simp] theorem Hub.onOut_evts (n : Fin 96) (f : ClkOut → ClkOut) : (h.onOut n f).evts = h.evts := rfl
@[simp] theorem Hub.onOut_ivus (n : Fin 96) (f : ClkOut → ClkOut) : (h.onOut n f).ivus = h.ivus := rfl
@[simp] theorem Hub.onOut_tdc (n : Fin 96) (f : ClkOut → ClkOut) : (h.onOut n f).tdc = h.tdc := rfl
@[simp] theorem Hub.onOut_refs (n : Fin 96) (f : ClkOut → ClkOut) : (h.onOut n f).refs = h.refs := rfl
@[simp] theorem Hub.onOut_doms (n : Fin 96) (f : ClkOut → ClkOut) : (h.onOut n f).doms = h.doms := rfl
@[simp] theorem Hub.onOut_outs (n : Fin 96) (f : ClkOut → ClkOut) : (h.onOut n f).outs = upd h.outs n f := rfl
@[simp] theorem Hub.onOut_banks (n : Fin 96) (f : ClkOut → ClkOut) : (h.onOut n f).banks = h.banks := rfl
@[simp] theorem Hub.onOut_plss (n : Fin 96) (f : ClkOut → ClkOut) : (h.onOut n f).plss = h.plss := rfl
@[simp] theorem Hub.onOut_links (n : Fin 96) (f : ClkOut → ClkOut) : (h.onOut n f).links = h.links := rfl
@[simp] theorem Hub.onOut_hier (n : Fin 96) (f : ClkOut → ClkOut) : (h.onOut n f).hier = h.hier := rfl
@[simp] theorem Hub.onOut_comp (n : Fin 96) (f : ClkOut → ClkOut) : (h.onOut n f).comp = h.comp := rfl
@[simp] theorem Hub.onOut_shim (n : Fin 96) (f : ClkOut → ClkOut) : (h.onOut n f).shim = h.shim := rfl
@[simp] theorem Hub.onOut_cal (n : Fin 96) (f : ClkOut → ClkOut) : (h.onOut n f).cal = h.cal := rfl
@[simp] theorem Hub.onOut_flt (n : Fin 96) (f : ClkOut → ClkOut) : (h.onOut n f).flt = h.flt := rfl
@[simp] theorem Hub.onOut_mons (n : Fin 96) (f : ClkOut → ClkOut) : (h.onOut n f).mons = h.mons := rfl
@[simp] theorem Hub.onOut_bus (n : Fin 96) (f : ClkOut → ClkOut) : (h.onOut n f).bus = h.bus := rfl
@[simp] theorem Hub.onOut_wire (n : Fin 96) (f : ClkOut → ClkOut) : (h.onOut n f).wire = h.wire := rfl
@[simp] theorem Hub.onOut_free (n : Fin 96) (f : ClkOut → ClkOut) : (h.onOut n f).free = h.free := rfl

@[simp] theorem Hub.onPls_top (n : Fin 64) (f : Pls → Pls) : (h.onPls n f).top = h.top := rfl
@[simp] theorem Hub.onPls_pwr (n : Fin 64) (f : Pls → Pls) : (h.onPls n f).pwr = h.pwr := rfl
@[simp] theorem Hub.onPls_clk (n : Fin 64) (f : Pls → Pls) : (h.onPls n f).clk = h.clk := rfl
@[simp] theorem Hub.onPls_dlls (n : Fin 64) (f : Pls → Pls) : (h.onPls n f).dlls = h.dlls := rfl
@[simp] theorem Hub.onPls_dllEvt (n : Fin 64) (f : Pls → Pls) : (h.onPls n f).dllEvt = h.dllEvt := rfl
@[simp] theorem Hub.onPls_host (n : Fin 64) (f : Pls → Pls) : (h.onPls n f).host = h.host := rfl
@[simp] theorem Hub.onPls_mbx (n : Fin 64) (f : Pls → Pls) : (h.onPls n f).mbx = h.mbx := rfl
@[simp] theorem Hub.onPls_spi (n : Fin 64) (f : Pls → Pls) : (h.onPls n f).spi = h.spi := rfl
@[simp] theorem Hub.onPls_evts (n : Fin 64) (f : Pls → Pls) : (h.onPls n f).evts = h.evts := rfl
@[simp] theorem Hub.onPls_ivus (n : Fin 64) (f : Pls → Pls) : (h.onPls n f).ivus = h.ivus := rfl
@[simp] theorem Hub.onPls_tdc (n : Fin 64) (f : Pls → Pls) : (h.onPls n f).tdc = h.tdc := rfl
@[simp] theorem Hub.onPls_refs (n : Fin 64) (f : Pls → Pls) : (h.onPls n f).refs = h.refs := rfl
@[simp] theorem Hub.onPls_doms (n : Fin 64) (f : Pls → Pls) : (h.onPls n f).doms = h.doms := rfl
@[simp] theorem Hub.onPls_outs (n : Fin 64) (f : Pls → Pls) : (h.onPls n f).outs = h.outs := rfl
@[simp] theorem Hub.onPls_banks (n : Fin 64) (f : Pls → Pls) : (h.onPls n f).banks = h.banks := rfl
@[simp] theorem Hub.onPls_plss (n : Fin 64) (f : Pls → Pls) : (h.onPls n f).plss = upd h.plss n f := rfl
@[simp] theorem Hub.onPls_links (n : Fin 64) (f : Pls → Pls) : (h.onPls n f).links = h.links := rfl
@[simp] theorem Hub.onPls_hier (n : Fin 64) (f : Pls → Pls) : (h.onPls n f).hier = h.hier := rfl
@[simp] theorem Hub.onPls_comp (n : Fin 64) (f : Pls → Pls) : (h.onPls n f).comp = h.comp := rfl
@[simp] theorem Hub.onPls_shim (n : Fin 64) (f : Pls → Pls) : (h.onPls n f).shim = h.shim := rfl
@[simp] theorem Hub.onPls_cal (n : Fin 64) (f : Pls → Pls) : (h.onPls n f).cal = h.cal := rfl
@[simp] theorem Hub.onPls_flt (n : Fin 64) (f : Pls → Pls) : (h.onPls n f).flt = h.flt := rfl
@[simp] theorem Hub.onPls_mons (n : Fin 64) (f : Pls → Pls) : (h.onPls n f).mons = h.mons := rfl
@[simp] theorem Hub.onPls_bus (n : Fin 64) (f : Pls → Pls) : (h.onPls n f).bus = h.bus := rfl
@[simp] theorem Hub.onPls_wire (n : Fin 64) (f : Pls → Pls) : (h.onPls n f).wire = h.wire := rfl
@[simp] theorem Hub.onPls_free (n : Fin 64) (f : Pls → Pls) : (h.onPls n f).free = h.free := rfl

@[simp] theorem Hub.onLink_top (n : Fin 48) (f : Link → Link) : (h.onLink n f).top = h.top := rfl
@[simp] theorem Hub.onLink_pwr (n : Fin 48) (f : Link → Link) : (h.onLink n f).pwr = h.pwr := rfl
@[simp] theorem Hub.onLink_clk (n : Fin 48) (f : Link → Link) : (h.onLink n f).clk = h.clk := rfl
@[simp] theorem Hub.onLink_dlls (n : Fin 48) (f : Link → Link) : (h.onLink n f).dlls = h.dlls := rfl
@[simp] theorem Hub.onLink_dllEvt (n : Fin 48) (f : Link → Link) : (h.onLink n f).dllEvt = h.dllEvt := rfl
@[simp] theorem Hub.onLink_host (n : Fin 48) (f : Link → Link) : (h.onLink n f).host = h.host := rfl
@[simp] theorem Hub.onLink_mbx (n : Fin 48) (f : Link → Link) : (h.onLink n f).mbx = h.mbx := rfl
@[simp] theorem Hub.onLink_spi (n : Fin 48) (f : Link → Link) : (h.onLink n f).spi = h.spi := rfl
@[simp] theorem Hub.onLink_evts (n : Fin 48) (f : Link → Link) : (h.onLink n f).evts = h.evts := rfl
@[simp] theorem Hub.onLink_ivus (n : Fin 48) (f : Link → Link) : (h.onLink n f).ivus = h.ivus := rfl
@[simp] theorem Hub.onLink_tdc (n : Fin 48) (f : Link → Link) : (h.onLink n f).tdc = h.tdc := rfl
@[simp] theorem Hub.onLink_refs (n : Fin 48) (f : Link → Link) : (h.onLink n f).refs = h.refs := rfl
@[simp] theorem Hub.onLink_doms (n : Fin 48) (f : Link → Link) : (h.onLink n f).doms = h.doms := rfl
@[simp] theorem Hub.onLink_outs (n : Fin 48) (f : Link → Link) : (h.onLink n f).outs = h.outs := rfl
@[simp] theorem Hub.onLink_banks (n : Fin 48) (f : Link → Link) : (h.onLink n f).banks = h.banks := rfl
@[simp] theorem Hub.onLink_plss (n : Fin 48) (f : Link → Link) : (h.onLink n f).plss = h.plss := rfl
@[simp] theorem Hub.onLink_links (n : Fin 48) (f : Link → Link) : (h.onLink n f).links = upd h.links n f := rfl
@[simp] theorem Hub.onLink_hier (n : Fin 48) (f : Link → Link) : (h.onLink n f).hier = h.hier := rfl
@[simp] theorem Hub.onLink_comp (n : Fin 48) (f : Link → Link) : (h.onLink n f).comp = h.comp := rfl
@[simp] theorem Hub.onLink_shim (n : Fin 48) (f : Link → Link) : (h.onLink n f).shim = h.shim := rfl
@[simp] theorem Hub.onLink_cal (n : Fin 48) (f : Link → Link) : (h.onLink n f).cal = h.cal := rfl
@[simp] theorem Hub.onLink_flt (n : Fin 48) (f : Link → Link) : (h.onLink n f).flt = h.flt := rfl
@[simp] theorem Hub.onLink_mons (n : Fin 48) (f : Link → Link) : (h.onLink n f).mons = h.mons := rfl
@[simp] theorem Hub.onLink_bus (n : Fin 48) (f : Link → Link) : (h.onLink n f).bus = h.bus := rfl
@[simp] theorem Hub.onLink_wire (n : Fin 48) (f : Link → Link) : (h.onLink n f).wire = h.wire := rfl
@[simp] theorem Hub.onLink_free (n : Fin 48) (f : Link → Link) : (h.onLink n f).free = h.free := rfl

@[simp] theorem Hub.onMbx_top (n : Fin 4) (f : Mbx → Mbx) : (h.onMbx n f).top = h.top := rfl
@[simp] theorem Hub.onMbx_pwr (n : Fin 4) (f : Mbx → Mbx) : (h.onMbx n f).pwr = h.pwr := rfl
@[simp] theorem Hub.onMbx_clk (n : Fin 4) (f : Mbx → Mbx) : (h.onMbx n f).clk = h.clk := rfl
@[simp] theorem Hub.onMbx_dlls (n : Fin 4) (f : Mbx → Mbx) : (h.onMbx n f).dlls = h.dlls := rfl
@[simp] theorem Hub.onMbx_dllEvt (n : Fin 4) (f : Mbx → Mbx) : (h.onMbx n f).dllEvt = h.dllEvt := rfl
@[simp] theorem Hub.onMbx_host (n : Fin 4) (f : Mbx → Mbx) : (h.onMbx n f).host = h.host := rfl
@[simp] theorem Hub.onMbx_mbx (n : Fin 4) (f : Mbx → Mbx) : (h.onMbx n f).mbx = upd h.mbx n f := rfl
@[simp] theorem Hub.onMbx_spi (n : Fin 4) (f : Mbx → Mbx) : (h.onMbx n f).spi = h.spi := rfl
@[simp] theorem Hub.onMbx_evts (n : Fin 4) (f : Mbx → Mbx) : (h.onMbx n f).evts = h.evts := rfl
@[simp] theorem Hub.onMbx_ivus (n : Fin 4) (f : Mbx → Mbx) : (h.onMbx n f).ivus = h.ivus := rfl
@[simp] theorem Hub.onMbx_tdc (n : Fin 4) (f : Mbx → Mbx) : (h.onMbx n f).tdc = h.tdc := rfl
@[simp] theorem Hub.onMbx_refs (n : Fin 4) (f : Mbx → Mbx) : (h.onMbx n f).refs = h.refs := rfl
@[simp] theorem Hub.onMbx_doms (n : Fin 4) (f : Mbx → Mbx) : (h.onMbx n f).doms = h.doms := rfl
@[simp] theorem Hub.onMbx_outs (n : Fin 4) (f : Mbx → Mbx) : (h.onMbx n f).outs = h.outs := rfl
@[simp] theorem Hub.onMbx_banks (n : Fin 4) (f : Mbx → Mbx) : (h.onMbx n f).banks = h.banks := rfl
@[simp] theorem Hub.onMbx_plss (n : Fin 4) (f : Mbx → Mbx) : (h.onMbx n f).plss = h.plss := rfl
@[simp] theorem Hub.onMbx_links (n : Fin 4) (f : Mbx → Mbx) : (h.onMbx n f).links = h.links := rfl
@[simp] theorem Hub.onMbx_hier (n : Fin 4) (f : Mbx → Mbx) : (h.onMbx n f).hier = h.hier := rfl
@[simp] theorem Hub.onMbx_comp (n : Fin 4) (f : Mbx → Mbx) : (h.onMbx n f).comp = h.comp := rfl
@[simp] theorem Hub.onMbx_shim (n : Fin 4) (f : Mbx → Mbx) : (h.onMbx n f).shim = h.shim := rfl
@[simp] theorem Hub.onMbx_cal (n : Fin 4) (f : Mbx → Mbx) : (h.onMbx n f).cal = h.cal := rfl
@[simp] theorem Hub.onMbx_flt (n : Fin 4) (f : Mbx → Mbx) : (h.onMbx n f).flt = h.flt := rfl
@[simp] theorem Hub.onMbx_mons (n : Fin 4) (f : Mbx → Mbx) : (h.onMbx n f).mons = h.mons := rfl
@[simp] theorem Hub.onMbx_bus (n : Fin 4) (f : Mbx → Mbx) : (h.onMbx n f).bus = h.bus := rfl
@[simp] theorem Hub.onMbx_wire (n : Fin 4) (f : Mbx → Mbx) : (h.onMbx n f).wire = h.wire := rfl
@[simp] theorem Hub.onMbx_free (n : Fin 4) (f : Mbx → Mbx) : (h.onMbx n f).free = h.free := rfl

@[simp] theorem Hub.onPtp_top (n : Fin 48) (f : PtpPort → PtpPort) : (h.onPtp n f).top = h.top := rfl
@[simp] theorem Hub.onPtp_pwr (n : Fin 48) (f : PtpPort → PtpPort) : (h.onPtp n f).pwr = h.pwr := rfl
@[simp] theorem Hub.onPtp_clk (n : Fin 48) (f : PtpPort → PtpPort) : (h.onPtp n f).clk = h.clk := rfl
@[simp] theorem Hub.onPtp_dlls (n : Fin 48) (f : PtpPort → PtpPort) : (h.onPtp n f).dlls = h.dlls := rfl
@[simp] theorem Hub.onPtp_dllEvt (n : Fin 48) (f : PtpPort → PtpPort) : (h.onPtp n f).dllEvt = h.dllEvt := rfl
@[simp] theorem Hub.onPtp_host (n : Fin 48) (f : PtpPort → PtpPort) : (h.onPtp n f).host = h.host := rfl
@[simp] theorem Hub.onPtp_mbx (n : Fin 48) (f : PtpPort → PtpPort) : (h.onPtp n f).mbx = h.mbx := rfl
@[simp] theorem Hub.onPtp_spi (n : Fin 48) (f : PtpPort → PtpPort) : (h.onPtp n f).spi = h.spi := rfl
@[simp] theorem Hub.onPtp_evts (n : Fin 48) (f : PtpPort → PtpPort) : (h.onPtp n f).evts = h.evts := rfl
@[simp] theorem Hub.onPtp_ivus (n : Fin 48) (f : PtpPort → PtpPort) : (h.onPtp n f).ivus = h.ivus := rfl
@[simp] theorem Hub.onPtp_tdc (n : Fin 48) (f : PtpPort → PtpPort) : (h.onPtp n f).tdc = h.tdc := rfl
@[simp] theorem Hub.onPtp_refs (n : Fin 48) (f : PtpPort → PtpPort) : (h.onPtp n f).refs = h.refs := rfl
@[simp] theorem Hub.onPtp_doms (n : Fin 48) (f : PtpPort → PtpPort) : (h.onPtp n f).doms = h.doms := rfl
@[simp] theorem Hub.onPtp_outs (n : Fin 48) (f : PtpPort → PtpPort) : (h.onPtp n f).outs = h.outs := rfl
@[simp] theorem Hub.onPtp_banks (n : Fin 48) (f : PtpPort → PtpPort) : (h.onPtp n f).banks = h.banks := rfl
@[simp] theorem Hub.onPtp_plss (n : Fin 48) (f : PtpPort → PtpPort) : (h.onPtp n f).plss = h.plss := rfl
@[simp] theorem Hub.onPtp_links (n : Fin 48) (f : PtpPort → PtpPort) : (h.onPtp n f).links = h.links := rfl
@[simp] theorem Hub.onPtp_hier (n : Fin 48) (f : PtpPort → PtpPort) : (h.onPtp n f).hier = { h.hier with ptp := upd h.hier.ptp n f } := rfl
@[simp] theorem Hub.onPtp_comp (n : Fin 48) (f : PtpPort → PtpPort) : (h.onPtp n f).comp = h.comp := rfl
@[simp] theorem Hub.onPtp_shim (n : Fin 48) (f : PtpPort → PtpPort) : (h.onPtp n f).shim = h.shim := rfl
@[simp] theorem Hub.onPtp_cal (n : Fin 48) (f : PtpPort → PtpPort) : (h.onPtp n f).cal = h.cal := rfl
@[simp] theorem Hub.onPtp_flt (n : Fin 48) (f : PtpPort → PtpPort) : (h.onPtp n f).flt = h.flt := rfl
@[simp] theorem Hub.onPtp_mons (n : Fin 48) (f : PtpPort → PtpPort) : (h.onPtp n f).mons = h.mons := rfl
@[simp] theorem Hub.onPtp_bus (n : Fin 48) (f : PtpPort → PtpPort) : (h.onPtp n f).bus = h.bus := rfl
@[simp] theorem Hub.onPtp_wire (n : Fin 48) (f : PtpPort → PtpPort) : (h.onPtp n f).wire = h.wire := rfl
@[simp] theorem Hub.onPtp_free (n : Fin 48) (f : PtpPort → PtpPort) : (h.onPtp n f).free = h.free := rfl

@[simp] theorem Hub.onTask_top (n : Fin 126) (f : Task → Task) : (h.onTask n f).top = h.top := rfl
@[simp] theorem Hub.onTask_pwr (n : Fin 126) (f : Task → Task) : (h.onTask n f).pwr = h.pwr := rfl
@[simp] theorem Hub.onTask_clk (n : Fin 126) (f : Task → Task) : (h.onTask n f).clk = h.clk := rfl
@[simp] theorem Hub.onTask_dlls (n : Fin 126) (f : Task → Task) : (h.onTask n f).dlls = h.dlls := rfl
@[simp] theorem Hub.onTask_dllEvt (n : Fin 126) (f : Task → Task) : (h.onTask n f).dllEvt = h.dllEvt := rfl
@[simp] theorem Hub.onTask_host (n : Fin 126) (f : Task → Task) : (h.onTask n f).host = h.host := rfl
@[simp] theorem Hub.onTask_mbx (n : Fin 126) (f : Task → Task) : (h.onTask n f).mbx = h.mbx := rfl
@[simp] theorem Hub.onTask_spi (n : Fin 126) (f : Task → Task) : (h.onTask n f).spi = h.spi := rfl
@[simp] theorem Hub.onTask_evts (n : Fin 126) (f : Task → Task) : (h.onTask n f).evts = h.evts := rfl
@[simp] theorem Hub.onTask_ivus (n : Fin 126) (f : Task → Task) : (h.onTask n f).ivus = h.ivus := rfl
@[simp] theorem Hub.onTask_tdc (n : Fin 126) (f : Task → Task) : (h.onTask n f).tdc = h.tdc := rfl
@[simp] theorem Hub.onTask_refs (n : Fin 126) (f : Task → Task) : (h.onTask n f).refs = h.refs := rfl
@[simp] theorem Hub.onTask_doms (n : Fin 126) (f : Task → Task) : (h.onTask n f).doms = h.doms := rfl
@[simp] theorem Hub.onTask_outs (n : Fin 126) (f : Task → Task) : (h.onTask n f).outs = h.outs := rfl
@[simp] theorem Hub.onTask_banks (n : Fin 126) (f : Task → Task) : (h.onTask n f).banks = h.banks := rfl
@[simp] theorem Hub.onTask_plss (n : Fin 126) (f : Task → Task) : (h.onTask n f).plss = h.plss := rfl
@[simp] theorem Hub.onTask_links (n : Fin 126) (f : Task → Task) : (h.onTask n f).links = h.links := rfl
@[simp] theorem Hub.onTask_hier (n : Fin 126) (f : Task → Task) : (h.onTask n f).hier = h.hier := rfl
@[simp] theorem Hub.onTask_comp (n : Fin 126) (f : Task → Task) : (h.onTask n f).comp = { h.comp with tasks := upd h.comp.tasks n f } := rfl
@[simp] theorem Hub.onTask_shim (n : Fin 126) (f : Task → Task) : (h.onTask n f).shim = h.shim := rfl
@[simp] theorem Hub.onTask_cal (n : Fin 126) (f : Task → Task) : (h.onTask n f).cal = h.cal := rfl
@[simp] theorem Hub.onTask_flt (n : Fin 126) (f : Task → Task) : (h.onTask n f).flt = h.flt := rfl
@[simp] theorem Hub.onTask_mons (n : Fin 126) (f : Task → Task) : (h.onTask n f).mons = h.mons := rfl
@[simp] theorem Hub.onTask_bus (n : Fin 126) (f : Task → Task) : (h.onTask n f).bus = h.bus := rfl
@[simp] theorem Hub.onTask_wire (n : Fin 126) (f : Task → Task) : (h.onTask n f).wire = h.wire := rfl
@[simp] theorem Hub.onTask_free (n : Fin 126) (f : Task → Task) : (h.onTask n f).free = h.free := rfl

@[simp] theorem Hub.onReed_top (n : Fin 192) (f : Reed → Reed) : (h.onReed n f).top = h.top := rfl
@[simp] theorem Hub.onReed_pwr (n : Fin 192) (f : Reed → Reed) : (h.onReed n f).pwr = h.pwr := rfl
@[simp] theorem Hub.onReed_clk (n : Fin 192) (f : Reed → Reed) : (h.onReed n f).clk = h.clk := rfl
@[simp] theorem Hub.onReed_dlls (n : Fin 192) (f : Reed → Reed) : (h.onReed n f).dlls = h.dlls := rfl
@[simp] theorem Hub.onReed_dllEvt (n : Fin 192) (f : Reed → Reed) : (h.onReed n f).dllEvt = h.dllEvt := rfl
@[simp] theorem Hub.onReed_host (n : Fin 192) (f : Reed → Reed) : (h.onReed n f).host = h.host := rfl
@[simp] theorem Hub.onReed_mbx (n : Fin 192) (f : Reed → Reed) : (h.onReed n f).mbx = h.mbx := rfl
@[simp] theorem Hub.onReed_spi (n : Fin 192) (f : Reed → Reed) : (h.onReed n f).spi = h.spi := rfl
@[simp] theorem Hub.onReed_evts (n : Fin 192) (f : Reed → Reed) : (h.onReed n f).evts = h.evts := rfl
@[simp] theorem Hub.onReed_ivus (n : Fin 192) (f : Reed → Reed) : (h.onReed n f).ivus = h.ivus := rfl
@[simp] theorem Hub.onReed_tdc (n : Fin 192) (f : Reed → Reed) : (h.onReed n f).tdc = h.tdc := rfl
@[simp] theorem Hub.onReed_refs (n : Fin 192) (f : Reed → Reed) : (h.onReed n f).refs = h.refs := rfl
@[simp] theorem Hub.onReed_doms (n : Fin 192) (f : Reed → Reed) : (h.onReed n f).doms = h.doms := rfl
@[simp] theorem Hub.onReed_outs (n : Fin 192) (f : Reed → Reed) : (h.onReed n f).outs = h.outs := rfl
@[simp] theorem Hub.onReed_banks (n : Fin 192) (f : Reed → Reed) : (h.onReed n f).banks = h.banks := rfl
@[simp] theorem Hub.onReed_plss (n : Fin 192) (f : Reed → Reed) : (h.onReed n f).plss = h.plss := rfl
@[simp] theorem Hub.onReed_links (n : Fin 192) (f : Reed → Reed) : (h.onReed n f).links = h.links := rfl
@[simp] theorem Hub.onReed_hier (n : Fin 192) (f : Reed → Reed) : (h.onReed n f).hier = h.hier := rfl
@[simp] theorem Hub.onReed_comp (n : Fin 192) (f : Reed → Reed) : (h.onReed n f).comp = { h.comp with reeds := upd h.comp.reeds n f } := rfl
@[simp] theorem Hub.onReed_shim (n : Fin 192) (f : Reed → Reed) : (h.onReed n f).shim = h.shim := rfl
@[simp] theorem Hub.onReed_cal (n : Fin 192) (f : Reed → Reed) : (h.onReed n f).cal = h.cal := rfl
@[simp] theorem Hub.onReed_flt (n : Fin 192) (f : Reed → Reed) : (h.onReed n f).flt = h.flt := rfl
@[simp] theorem Hub.onReed_mons (n : Fin 192) (f : Reed → Reed) : (h.onReed n f).mons = h.mons := rfl
@[simp] theorem Hub.onReed_bus (n : Fin 192) (f : Reed → Reed) : (h.onReed n f).bus = h.bus := rfl
@[simp] theorem Hub.onReed_wire (n : Fin 192) (f : Reed → Reed) : (h.onReed n f).wire = h.wire := rfl
@[simp] theorem Hub.onReed_free (n : Fin 192) (f : Reed → Reed) : (h.onReed n f).free = h.free := rfl

@[simp] theorem Hub.onEvTask_top (n : Fin 32) (f : EvTask → EvTask) : (h.onEvTask n f).top = h.top := rfl
@[simp] theorem Hub.onEvTask_pwr (n : Fin 32) (f : EvTask → EvTask) : (h.onEvTask n f).pwr = h.pwr := rfl
@[simp] theorem Hub.onEvTask_clk (n : Fin 32) (f : EvTask → EvTask) : (h.onEvTask n f).clk = h.clk := rfl
@[simp] theorem Hub.onEvTask_dlls (n : Fin 32) (f : EvTask → EvTask) : (h.onEvTask n f).dlls = h.dlls := rfl
@[simp] theorem Hub.onEvTask_dllEvt (n : Fin 32) (f : EvTask → EvTask) : (h.onEvTask n f).dllEvt = h.dllEvt := rfl
@[simp] theorem Hub.onEvTask_host (n : Fin 32) (f : EvTask → EvTask) : (h.onEvTask n f).host = h.host := rfl
@[simp] theorem Hub.onEvTask_mbx (n : Fin 32) (f : EvTask → EvTask) : (h.onEvTask n f).mbx = h.mbx := rfl
@[simp] theorem Hub.onEvTask_spi (n : Fin 32) (f : EvTask → EvTask) : (h.onEvTask n f).spi = h.spi := rfl
@[simp] theorem Hub.onEvTask_evts (n : Fin 32) (f : EvTask → EvTask) : (h.onEvTask n f).evts = h.evts := rfl
@[simp] theorem Hub.onEvTask_ivus (n : Fin 32) (f : EvTask → EvTask) : (h.onEvTask n f).ivus = h.ivus := rfl
@[simp] theorem Hub.onEvTask_tdc (n : Fin 32) (f : EvTask → EvTask) : (h.onEvTask n f).tdc = h.tdc := rfl
@[simp] theorem Hub.onEvTask_refs (n : Fin 32) (f : EvTask → EvTask) : (h.onEvTask n f).refs = h.refs := rfl
@[simp] theorem Hub.onEvTask_doms (n : Fin 32) (f : EvTask → EvTask) : (h.onEvTask n f).doms = h.doms := rfl
@[simp] theorem Hub.onEvTask_outs (n : Fin 32) (f : EvTask → EvTask) : (h.onEvTask n f).outs = h.outs := rfl
@[simp] theorem Hub.onEvTask_banks (n : Fin 32) (f : EvTask → EvTask) : (h.onEvTask n f).banks = h.banks := rfl
@[simp] theorem Hub.onEvTask_plss (n : Fin 32) (f : EvTask → EvTask) : (h.onEvTask n f).plss = h.plss := rfl
@[simp] theorem Hub.onEvTask_links (n : Fin 32) (f : EvTask → EvTask) : (h.onEvTask n f).links = h.links := rfl
@[simp] theorem Hub.onEvTask_hier (n : Fin 32) (f : EvTask → EvTask) : (h.onEvTask n f).hier = h.hier := rfl
@[simp] theorem Hub.onEvTask_comp (n : Fin 32) (f : EvTask → EvTask) : (h.onEvTask n f).comp = { h.comp with evTasks := upd h.comp.evTasks n f } := rfl
@[simp] theorem Hub.onEvTask_shim (n : Fin 32) (f : EvTask → EvTask) : (h.onEvTask n f).shim = h.shim := rfl
@[simp] theorem Hub.onEvTask_cal (n : Fin 32) (f : EvTask → EvTask) : (h.onEvTask n f).cal = h.cal := rfl
@[simp] theorem Hub.onEvTask_flt (n : Fin 32) (f : EvTask → EvTask) : (h.onEvTask n f).flt = h.flt := rfl
@[simp] theorem Hub.onEvTask_mons (n : Fin 32) (f : EvTask → EvTask) : (h.onEvTask n f).mons = h.mons := rfl
@[simp] theorem Hub.onEvTask_bus (n : Fin 32) (f : EvTask → EvTask) : (h.onEvTask n f).bus = h.bus := rfl
@[simp] theorem Hub.onEvTask_wire (n : Fin 32) (f : EvTask → EvTask) : (h.onEvTask n f).wire = h.wire := rfl
@[simp] theorem Hub.onEvTask_free (n : Fin 32) (f : EvTask → EvTask) : (h.onEvTask n f).free = h.free := rfl

@[simp] theorem Hub.onMon_top (n : Fin 32) (f : Mon → Mon) : (h.onMon n f).top = h.top := rfl
@[simp] theorem Hub.onMon_pwr (n : Fin 32) (f : Mon → Mon) : (h.onMon n f).pwr = h.pwr := rfl
@[simp] theorem Hub.onMon_clk (n : Fin 32) (f : Mon → Mon) : (h.onMon n f).clk = h.clk := rfl
@[simp] theorem Hub.onMon_dlls (n : Fin 32) (f : Mon → Mon) : (h.onMon n f).dlls = h.dlls := rfl
@[simp] theorem Hub.onMon_dllEvt (n : Fin 32) (f : Mon → Mon) : (h.onMon n f).dllEvt = h.dllEvt := rfl
@[simp] theorem Hub.onMon_host (n : Fin 32) (f : Mon → Mon) : (h.onMon n f).host = h.host := rfl
@[simp] theorem Hub.onMon_mbx (n : Fin 32) (f : Mon → Mon) : (h.onMon n f).mbx = h.mbx := rfl
@[simp] theorem Hub.onMon_spi (n : Fin 32) (f : Mon → Mon) : (h.onMon n f).spi = h.spi := rfl
@[simp] theorem Hub.onMon_evts (n : Fin 32) (f : Mon → Mon) : (h.onMon n f).evts = h.evts := rfl
@[simp] theorem Hub.onMon_ivus (n : Fin 32) (f : Mon → Mon) : (h.onMon n f).ivus = h.ivus := rfl
@[simp] theorem Hub.onMon_tdc (n : Fin 32) (f : Mon → Mon) : (h.onMon n f).tdc = h.tdc := rfl
@[simp] theorem Hub.onMon_refs (n : Fin 32) (f : Mon → Mon) : (h.onMon n f).refs = h.refs := rfl
@[simp] theorem Hub.onMon_doms (n : Fin 32) (f : Mon → Mon) : (h.onMon n f).doms = h.doms := rfl
@[simp] theorem Hub.onMon_outs (n : Fin 32) (f : Mon → Mon) : (h.onMon n f).outs = h.outs := rfl
@[simp] theorem Hub.onMon_banks (n : Fin 32) (f : Mon → Mon) : (h.onMon n f).banks = h.banks := rfl
@[simp] theorem Hub.onMon_plss (n : Fin 32) (f : Mon → Mon) : (h.onMon n f).plss = h.plss := rfl
@[simp] theorem Hub.onMon_links (n : Fin 32) (f : Mon → Mon) : (h.onMon n f).links = h.links := rfl
@[simp] theorem Hub.onMon_hier (n : Fin 32) (f : Mon → Mon) : (h.onMon n f).hier = h.hier := rfl
@[simp] theorem Hub.onMon_comp (n : Fin 32) (f : Mon → Mon) : (h.onMon n f).comp = h.comp := rfl
@[simp] theorem Hub.onMon_shim (n : Fin 32) (f : Mon → Mon) : (h.onMon n f).shim = h.shim := rfl
@[simp] theorem Hub.onMon_cal (n : Fin 32) (f : Mon → Mon) : (h.onMon n f).cal = h.cal := rfl
@[simp] theorem Hub.onMon_flt (n : Fin 32) (f : Mon → Mon) : (h.onMon n f).flt = h.flt := rfl
@[simp] theorem Hub.onMon_mons (n : Fin 32) (f : Mon → Mon) : (h.onMon n f).mons = { h.mons with unit := upd h.mons.unit n f } := rfl
@[simp] theorem Hub.onMon_bus (n : Fin 32) (f : Mon → Mon) : (h.onMon n f).bus = h.bus := rfl
@[simp] theorem Hub.onMon_wire (n : Fin 32) (f : Mon → Mon) : (h.onMon n f).wire = h.wire := rfl
@[simp] theorem Hub.onMon_free (n : Fin 32) (f : Mon → Mon) : (h.onMon n f).free = h.free := rfl

@[simp] theorem Hub.onRing_top (r : RingId) (f : Ring → Ring) : (h.onRing r f).top = h.top := rfl
@[simp] theorem Hub.onRing_pwr (r : RingId) (f : Ring → Ring) : (h.onRing r f).pwr = h.pwr := rfl
@[simp] theorem Hub.onRing_clk (r : RingId) (f : Ring → Ring) : (h.onRing r f).clk = h.clk := rfl
@[simp] theorem Hub.onRing_dlls (r : RingId) (f : Ring → Ring) : (h.onRing r f).dlls = h.dlls := rfl
@[simp] theorem Hub.onRing_dllEvt (r : RingId) (f : Ring → Ring) : (h.onRing r f).dllEvt = h.dllEvt := rfl
@[simp] theorem Hub.onRing_mbx (r : RingId) (f : Ring → Ring) : (h.onRing r f).mbx = h.mbx := rfl
@[simp] theorem Hub.onRing_spi (r : RingId) (f : Ring → Ring) : (h.onRing r f).spi = h.spi := rfl
@[simp] theorem Hub.onRing_evts (r : RingId) (f : Ring → Ring) : (h.onRing r f).evts = h.evts := rfl
@[simp] theorem Hub.onRing_ivus (r : RingId) (f : Ring → Ring) : (h.onRing r f).ivus = h.ivus := rfl
@[simp] theorem Hub.onRing_tdc (r : RingId) (f : Ring → Ring) : (h.onRing r f).tdc = h.tdc := rfl
@[simp] theorem Hub.onRing_refs (r : RingId) (f : Ring → Ring) : (h.onRing r f).refs = h.refs := rfl
@[simp] theorem Hub.onRing_doms (r : RingId) (f : Ring → Ring) : (h.onRing r f).doms = h.doms := rfl
@[simp] theorem Hub.onRing_outs (r : RingId) (f : Ring → Ring) : (h.onRing r f).outs = h.outs := rfl
@[simp] theorem Hub.onRing_banks (r : RingId) (f : Ring → Ring) : (h.onRing r f).banks = h.banks := rfl
@[simp] theorem Hub.onRing_plss (r : RingId) (f : Ring → Ring) : (h.onRing r f).plss = h.plss := rfl
@[simp] theorem Hub.onRing_links (r : RingId) (f : Ring → Ring) : (h.onRing r f).links = h.links := rfl
@[simp] theorem Hub.onRing_hier (r : RingId) (f : Ring → Ring) : (h.onRing r f).hier = h.hier := rfl
@[simp] theorem Hub.onRing_comp (r : RingId) (f : Ring → Ring) : (h.onRing r f).comp = h.comp := rfl
@[simp] theorem Hub.onRing_shim (r : RingId) (f : Ring → Ring) : (h.onRing r f).shim = h.shim := rfl
@[simp] theorem Hub.onRing_cal (r : RingId) (f : Ring → Ring) : (h.onRing r f).cal = h.cal := rfl
@[simp] theorem Hub.onRing_flt (r : RingId) (f : Ring → Ring) : (h.onRing r f).flt = h.flt := rfl
@[simp] theorem Hub.onRing_mons (r : RingId) (f : Ring → Ring) : (h.onRing r f).mons = h.mons := rfl
@[simp] theorem Hub.onRing_bus (r : RingId) (f : Ring → Ring) : (h.onRing r f).bus = h.bus := rfl
@[simp] theorem Hub.onRing_wire (r : RingId) (f : Ring → Ring) : (h.onRing r f).wire = h.wire := rfl
@[simp] theorem Hub.onRing_free (r : RingId) (f : Ring → Ring) : (h.onRing r f).free = h.free := rfl

@[simp] theorem copyWritten_pwr (a n : Nat) : (copyWritten a n h).pwr = h.pwr := rfl
@[simp] theorem copyWritten_clk (a n : Nat) : (copyWritten a n h).clk = h.clk := rfl
@[simp] theorem copyWritten_dlls (a n : Nat) : (copyWritten a n h).dlls = h.dlls := rfl
@[simp] theorem copyWritten_dllEvt (a n : Nat) : (copyWritten a n h).dllEvt = h.dllEvt := rfl
@[simp] theorem copyWritten_host (a n : Nat) : (copyWritten a n h).host = h.host := rfl
@[simp] theorem copyWritten_mbx (a n : Nat) : (copyWritten a n h).mbx = h.mbx := rfl
@[simp] theorem copyWritten_spi (a n : Nat) : (copyWritten a n h).spi = h.spi := rfl
@[simp] theorem copyWritten_evts (a n : Nat) : (copyWritten a n h).evts = h.evts := rfl
@[simp] theorem copyWritten_ivus (a n : Nat) : (copyWritten a n h).ivus = h.ivus := rfl
@[simp] theorem copyWritten_tdc (a n : Nat) : (copyWritten a n h).tdc = h.tdc := rfl
@[simp] theorem copyWritten_refs (a n : Nat) : (copyWritten a n h).refs = h.refs := rfl
@[simp] theorem copyWritten_doms (a n : Nat) : (copyWritten a n h).doms = h.doms := rfl
@[simp] theorem copyWritten_outs (a n : Nat) : (copyWritten a n h).outs = h.outs := rfl
@[simp] theorem copyWritten_banks (a n : Nat) : (copyWritten a n h).banks = h.banks := rfl
@[simp] theorem copyWritten_plss (a n : Nat) : (copyWritten a n h).plss = h.plss := rfl
@[simp] theorem copyWritten_links (a n : Nat) : (copyWritten a n h).links = h.links := rfl
@[simp] theorem copyWritten_hier (a n : Nat) : (copyWritten a n h).hier = h.hier := rfl
@[simp] theorem copyWritten_comp (a n : Nat) : (copyWritten a n h).comp = h.comp := rfl
@[simp] theorem copyWritten_shim (a n : Nat) : (copyWritten a n h).shim = h.shim := rfl
@[simp] theorem copyWritten_cal (a n : Nat) : (copyWritten a n h).cal = h.cal := rfl
@[simp] theorem copyWritten_flt (a n : Nat) : (copyWritten a n h).flt = h.flt := rfl
@[simp] theorem copyWritten_mons (a n : Nat) : (copyWritten a n h).mons = h.mons := rfl
@[simp] theorem copyWritten_bus (a n : Nat) : (copyWritten a n h).bus = h.bus := rfl
@[simp] theorem copyWritten_wire (a n : Nat) : (copyWritten a n h).wire = h.wire := rfl
@[simp] theorem copyWritten_free (a n : Nat) : (copyWritten a n h).free = h.free := rfl
@[simp] theorem copyWritten_mode (a n : Nat) : (copyWritten a n h).top.mode = h.top.mode := rfl

/-! ## Banks -/

@[simp] theorem upd_same {α : Type} {n : Nat} (v : Vector α n) (i : Fin n) (f : α → α) :
    (upd v i f)[(i : Nat)] = f v[(i : Nat)] := by
  simp [upd]

theorem upd_other {α : Type} {n : Nat} (v : Vector α n) (i j : Fin n) (f : α → α) (hij : j ≠ i) :
    (upd v i f)[(j : Nat)] = v[(j : Nat)] := by
  have hne : (i : Nat) ≠ (j : Nat) := fun e => hij (Fin.ext e.symm)
  simp [upd, Vector.getElem_set_ne _ _ hne]

/-- Element j of a changed bank, whichever element was changed. -/
theorem upd_get {α : Type} {n : Nat} (v : Vector α n) (i j : Fin n) (f : α → α) :
    (upd v i f)[(j : Nat)] = if j = i then f v[(j : Nat)] else v[(j : Nat)] := by
  by_cases e : j = i
  · subst e; simp
  · simp [e, upd_other v i j f e]

/-! ## Running an effect -/

@[simp] theorem run_eq (f : Hub → Hub) (s : State) : run f s = .next { toHub := f s.toHub, pending := s.pending } := rfl

@[simp] theorem when_true (f : Hub → Hub) : when_ true f h = f h := rfl
@[simp] theorem when_false (f : Hub → Hub) : when_ false f h = h := rfl

/-- A guarded effect: the effect, under its guard, or nothing. -/
theorem when_cases (c : Bool) (f : Hub → Hub) : (c = true ∧ when_ c f h = f h) ∨ (c = false ∧ when_ c f h = h) := by
  cases c <;> simp

end Sys2Proof.Machine
end

