-- ==== Sys2Proof/Laws/Kept.lean ====
section
/-!
SUPPORT. What every effect of the hub keeps. `Kept A h t` says that t differs from h only in what A names, and keeps the
canonical form of the Shim store's memory and the bounds of the collector's queue and history and of the event channels'
queues. This file gives its rules for the shapes an effect is built from; the files after it give one lemma for each effect.
-/

set_option Elab.async false

namespace Sys2Proof.Machine

/-! ## What a command may touch -/

/-- A names all of L. -/
def Touch.has (A : Touch) (L : List Part) : Prop := ∀ p ∈ L, p ∈ A.parts

theorem Touch.has.of {A : Touch} {L M : List Part} (h : A.has L) (e : M.all (fun p => L.contains p) = true) : A.has M :=
  fun p hp => h p (by simpa using (List.all_eq_true.mp e) p hp)

theorem Touch.has.mem {A : Touch} {L : List Part} {p : Part} (h : A.has L) (e : L.contains p = true) : p ∈ A.parts :=
  h p (by simpa using e)

theorem ringPart_mem {A : Touch} {L : List Part} (h : A.has L)
    (e : [Part.cmdRings, .cplRings, .telRings, .strRings].all (fun p => L.contains p) = true) (r : RingId) :
    ringPart r ∈ A.parts := by
  have h' := h.of e
  cases r <;> exact h'.mem rfl

theorem Only.refl (A : Touch) (h : Hub) : Only A h h := by
  constructor <;> first | exact .inr rfl | exact fun _ => .inr rfl

theorem Only.trans {A : Touch} {a b c : Hub} (x : Only A a b) (y : Only A b c) : Only A a c := by
  constructor
  · exact x.top.elim .inl fun e => y.top.imp id (·.trans e)
  · exact x.parity.elim .inl fun e => y.parity.imp id (·.trans e)
  · exact x.pwr.elim .inl fun e => y.pwr.imp id (·.trans e)
  · exact x.now.elim .inl fun e => y.now.imp id (·.trans e)
  · exact x.clk.elim .inl fun e => y.clk.imp id (·.trans e)
  · exact x.dllEvt.elim .inl fun e => y.dllEvt.imp id (·.trans e)
  · exact x.hostRegs.elim .inl fun e => y.hostRegs.imp id (·.trans e)
  · exact x.cmdRings.elim .inl fun e => y.cmdRings.imp id (·.trans e)
  · exact x.cplRings.elim .inl fun e => y.cplRings.imp id (·.trans e)
  · exact x.telRings.elim .inl fun e => y.telRings.imp id (·.trans e)
  · exact x.strRings.elim .inl fun e => y.strRings.imp id (·.trans e)
  · exact x.msix.elim .inl fun e => y.msix.imp id (·.trans e)
  · exact x.books.elim .inl fun e => y.books.imp id (·.trans e)
  · exact x.spi.elim .inl fun e => y.spi.imp id (·.trans e)
  · exact x.tdc.elim .inl fun e => y.tdc.imp id (·.trans e)
  · exact x.banks.elim .inl fun e => y.banks.imp id (·.trans e)
  · exact x.hier.elim .inl fun e => y.hier.imp id (·.trans e)
  · exact x.hierEvt.elim .inl fun e => y.hierEvt.imp id (·.trans e)
  · exact x.runs.elim .inl fun e => y.runs.imp id (·.trans e)
  · exact x.comp.elim .inl fun e => y.comp.imp id (·.trans e)
  · exact x.store.elim .inl fun e => y.store.imp id (·.trans e)
  · exact x.counters.elim .inl fun e => y.counters.imp id (·.trans e)
  · exact x.profile.elim .inl fun e => y.profile.imp id (·.trans e)
  · exact x.shimEvt.elim .inl fun e => y.shimEvt.imp id (·.trans e)
  · exact x.shim.elim .inl fun e => y.shim.imp id (·.trans e)
  · exact x.cal.elim .inl fun e => y.cal.imp id (·.trans e)
  · exact x.collector.elim .inl fun e => y.collector.imp id (·.trans e)
  · exact x.fltEvt.elim .inl fun e => y.fltEvt.imp id (·.trans e)
  · exact x.flt.elim .inl fun e => y.flt.imp id (·.trans e)
  · exact x.mons.elim .inl fun e => y.mons.imp id (·.trans e)
  · exact x.bus.elim .inl fun e => y.bus.imp id (·.trans e)
  · exact x.wire.elim .inl fun e => y.wire.imp id (·.trans e)
  · exact x.free.elim .inl fun e => y.free.imp id (·.trans e)
  · exact fun k => (x.evts k).elim .inl fun e => (y.evts k).imp id (·.trans e)
  · exact fun k => (x.ivus k).elim .inl fun e => (y.ivus k).imp id (·.trans e)
  · exact fun k => (x.refs k).elim .inl fun e => (y.refs k).imp id (·.trans e)
  · exact fun k => (x.doms k).elim .inl fun e => (y.doms k).imp id (·.trans e)
  · exact fun k => (x.outs k).elim .inl fun e => (y.outs k).imp id (·.trans e)
  · exact fun k => (x.plss k).elim .inl fun e => (y.plss k).imp id (·.trans e)
  · exact fun k => (x.links k).elim .inl fun e => (y.links k).imp id (·.trans e)
  · exact fun k => (x.dlls k).elim .inl fun e => (y.dlls k).imp id (·.trans e)
  · exact fun k => (x.mbx k).elim .inl fun e => (y.mbx k).imp id (·.trans e)
  · exact fun k => (x.tasks k).elim .inl fun e => (y.tasks k).imp id (·.trans e)
  · exact fun k => (x.reeds k).elim .inl fun e => (y.reeds k).imp id (·.trans e)
  · exact fun k => (x.evTasks k).elim .inl fun e => (y.evTasks k).imp id (·.trans e)
  · exact fun k => (x.ptp k).elim .inl fun e => (y.ptp k).imp id (·.trans e)
  · exact fun k => (x.units k).elim .inl fun e => (y.units k).imp id (·.trans e)

/-- What A allows, a wider A' allows. -/
theorem Only.mono {A B : Touch} {h t : Hub} (x : Only A h t) (hp : ∀ p ∈ A.parts, p ∈ B.parts)
    (ce : ∀ k, A.evts k → B.evts k)
    (ci : ∀ k, A.ivus k → B.ivus k)
    (cr : ∀ k, A.refs k → B.refs k)
    (cd : ∀ k, A.doms k → B.doms k)
    (co : ∀ k, A.outs k → B.outs k)
    (cp : ∀ k, A.plss k → B.plss k)
    (cl : ∀ k, A.links k → B.links k)
    (cy : ∀ k, A.dlls k → B.dlls k)
    (cm : ∀ k, A.mbx k → B.mbx k)
    (ct : ∀ k, A.tasks k → B.tasks k)
    (cn : ∀ k, A.reeds k → B.reeds k)
    (cv : ∀ k, A.evTasks k → B.evTasks k)
    (cq : ∀ k, A.ptp k → B.ptp k)
    (cu : ∀ k, A.units k → B.units k) : Only B h t := by
  constructor
  · exact x.top.imp (hp _) id
  · exact x.parity.imp (hp _) id
  · exact x.pwr.imp (hp _) id
  · exact x.now.imp (hp _) id
  · exact x.clk.imp (hp _) id
  · exact x.dllEvt.imp (hp _) id
  · exact x.hostRegs.imp (hp _) id
  · exact x.cmdRings.imp (hp _) id
  · exact x.cplRings.imp (hp _) id
  · exact x.telRings.imp (hp _) id
  · exact x.strRings.imp (hp _) id
  · exact x.msix.imp (hp _) id
  · exact x.books.imp (hp _) id
  · exact x.spi.imp (hp _) id
  · exact x.tdc.imp (hp _) id
  · exact x.banks.imp (hp _) id
  · exact x.hier.imp (hp _) id
  · exact x.hierEvt.imp (hp _) id
  · exact x.runs.imp (hp _) id
  · exact x.comp.imp (hp _) id
  · exact x.store.imp (hp _) id
  · exact x.counters.imp (hp _) id
  · exact x.profile.imp (hp _) id
  · exact x.shimEvt.imp (hp _) id
  · exact x.shim.imp (hp _) id
  · exact x.cal.imp (hp _) id
  · exact x.collector.imp (hp _) id
  · exact x.fltEvt.imp (hp _) id
  · exact x.flt.imp (hp _) id
  · exact x.mons.imp (hp _) id
  · exact x.bus.imp (hp _) id
  · exact x.wire.imp (hp _) id
  · exact x.free.imp (hp _) id
  · exact fun k => (x.evts k).imp (ce k) id
  · exact fun k => (x.ivus k).imp (ci k) id
  · exact fun k => (x.refs k).imp (cr k) id
  · exact fun k => (x.doms k).imp (cd k) id
  · exact fun k => (x.outs k).imp (co k) id
  · exact fun k => (x.plss k).imp (cp k) id
  · exact fun k => (x.links k).imp (cl k) id
  · exact fun k => (x.dlls k).imp (cy k) id
  · exact fun k => (x.mbx k).imp (cm k) id
  · exact fun k => (x.tasks k).imp (ct k) id
  · exact fun k => (x.reeds k).imp (cn k) id
  · exact fun k => (x.evTasks k).imp (cv k) id
  · exact fun k => (x.ptp k).imp (cq k) id
  · exact fun k => (x.units k).imp (cu k) id

/-- t keeps the well-kept parts of h, and touches only what A names: R371 (memory), R406 (64 messages), R407 (256 records),
R84 (4,096 records), and the order of the descriptors in progress. -/
structure Kept (A : Touch) (h t : Hub) : Prop where
  only : Only A h t
  mem : h.shimOk → t.shimOk
  flt : h.collectorOk → t.collectorOk
  evts : h.queuesOk → t.queuesOk
  ids : h.idsOk → t.idsOk

variable {A : Touch} {h0 h t : Hub}

theorem Kept.refl (h : Hub) : Kept A h h := ⟨.refl A h, id, id, id, id⟩

theorem Kept.trans {a b c : Hub} (h1 : Kept A a b) (h2 : Kept A b c) : Kept A a c :=
  ⟨h1.only.trans h2.only, h2.mem ∘ h1.mem, h2.flt ∘ h1.flt, h2.evts ∘ h1.evts, h2.ids ∘ h1.ids⟩

/-- Numbers that stay are in order still. -/
theorem ids_map (hi : t.host.inflight.map (·.id) = h.host.inflight.map (·.id)) (hn : t.host.nextId = h.host.nextId)
    (x : h.idsOk) : t.idsOk := by
  refine ⟨hi ▸ x.1, fun d hd => ?_⟩
  have : d.id ∈ h.host.inflight.map (·.id) := hi ▸ List.mem_map_of_mem hd
  obtain ⟨e, he, e'⟩ := List.mem_map.mp this
  rw [hn, ← e']
  exact x.2 e he

/-- Descriptors that leave take nothing from the order. -/
theorem ids_sub (hi : t.host.inflight.Sublist h.host.inflight) (hn : t.host.nextId = h.host.nextId) (x : h.idsOk) :
    t.idsOk :=
  ⟨x.1.sublist (hi.map _), fun d hd => hn ▸ x.2 d (hi.subset hd)⟩

/-- A new descriptor takes the next number. -/
theorem ids_new {d : Desc} (hd : d.id = h.host.nextId) (hi : t.host.inflight = h.host.inflight ++ [d])
    (hn : t.host.nextId = h.host.nextId + 1) (x : h.idsOk) : t.idsOk := by
  constructor
  · rw [hi, List.map_append, List.pairwise_append]
    refine ⟨x.1, by simp, fun a ha b hb => ?_⟩
    obtain ⟨e, he, rfl⟩ := List.mem_map.mp ha
    have hb' : b = d.id := by simpa using hb
    exact hb' ▸ hd ▸ x.2 e he
  · intro e he
    rw [hi] at he
    rcases List.mem_append.mp he with he | he
    · exact hn ▸ Nat.lt_succ_of_lt (x.2 e he)
    · rw [List.mem_singleton.mp he, hd, hn]
      exact Nat.lt_succ_self _

/-- An effect that touches none of the kept parts. -/
theorem Kept.same (o : Only A h t) (H : Kept A h0 h) (hm : t.shim.mem = h.shim.mem) (hq : t.flt.queue = h.flt.queue)
    (hh : t.flt.history = h.flt.history) (he : ∀ k : Fin 64, t.evts[k].queue = h.evts[k].queue)
    (hi : t.host.inflight.map (·.id) = h.host.inflight.map (·.id)) (hn : t.host.nextId = h.host.nextId) : Kept A h0 t where
  only := H.only.trans o
  mem := fun x => by unfold Hub.shimOk; rw [hm]; exact H.mem x
  flt := fun x => by unfold Hub.collectorOk; rw [hq, hh]; exact H.flt x
  evts := fun x k => by rw [he]; exact H.evts x k
  ids := fun x => ids_map hi hn (H.ids x)

/-! ## The shapes of an effect -/

theorem Kept.letK {v : Hub} {b : Hub → Hub} (hv : Kept A h0 v) (hb : ∀ x, Kept A h0 x → Kept A h0 (b x)) :
    Kept A h0 (let x := v; b x) := hb v hv

theorem Kept.letV {α : Type} {v : α} {b : α → Hub} (hb : ∀ x, Kept A h0 (b x)) : Kept A h0 (let x := v; b x) := hb v

theorem Kept.letP {α : Type} {v : α × Hub} {b : α × Hub → Hub} (hv : Kept A h0 v.2)
    (hb : ∀ x, Kept A h0 x.2 → Kept A h0 (b x)) : Kept A h0 (let x := v; b x) := hb v hv

theorem Kept.letFn1 {f : Hub → Hub} {b : (Hub → Hub) → Hub} (hf : ∀ x, Kept A h0 x → Kept A h0 (f x))
    (hb : ∀ g : Hub → Hub, (∀ x, Kept A h0 x → Kept A h0 (g x)) → Kept A h0 (b g)) : Kept A h0 (let x := f; b x) := hb f hf

theorem Kept.letFn2 {α : Type} {f : α → Hub → Hub} {b : (α → Hub → Hub) → Hub}
    (hf : ∀ a x, Kept A h0 x → Kept A h0 (f a x))
    (hb : ∀ g : α → Hub → Hub, (∀ a x, Kept A h0 x → Kept A h0 (g a x)) → Kept A h0 (b g)) : Kept A h0 (let x := f; b x) := hb f hf

theorem Kept.ite {c : Prop} [Decidable c] {a b : Hub} (ha : Kept A h0 a) (hb : Kept A h0 b) : Kept A h0 (if c then a else b) := by
  split <;> assumption

theorem Kept.dite {c : Prop} [Decidable c] {a : c → Hub} {b : ¬c → Hub} (ha : ∀ x, Kept A h0 (a x)) (hb : ∀ x, Kept A h0 (b x)) :
    Kept A h0 (if x : c then a x else b x) := by
  split
  · exact ha _
  · exact hb _

theorem Kept.iteF {c : Prop} [Decidable c] {f g : Hub → Hub} (ha : Kept A h0 (f h)) (hb : Kept A h0 (g h)) :
    Kept A h0 ((if c then f else g) h) := by
  split <;> assumption

theorem Kept.pairM {α : Type} {p : α × Hub} {b : α → Hub → Hub} (hp : Kept A h0 p.2) (hb : ∀ a x, Kept A h0 x → Kept A h0 (b a x)) :
    Kept A h0 (match (generalizing := false) p with | (a, x) => b a x) := hb p.1 p.2 hp

/-- An effect that may be turned away: what it gives, when it gives something, keeps what h has. -/
def OptKept (A : Touch) (h0 : Hub) (o : Option Hub) : Prop := ∀ x, o = some x → Kept A h0 x

theorem OptKept.some (H : Kept A h0 h) : OptKept A h0 (some h) := fun _ e => Option.some.inj e ▸ H

theorem OptKept.none : OptKept A h0 none := fun _ e => nomatch e

theorem OptKept.ite {c : Prop} [Decidable c] {a b : Option Hub} (ha : OptKept A h0 a) (hb : OptKept A h0 b) :
    OptKept A h0 (if c then a else b) := by
  split <;> assumption

theorem OptKept.map {α : Type} {o : Option α} {f : α → Hub} (hf : ∀ a, Kept A h0 (f a)) : OptKept A h0 (o.map f) := by
  cases o with
  | none => exact .none
  | some a => exact .some (hf a)

theorem Kept.optN {o : Option Hub} {n : Hub} {b : Hub → Hub} (ho : OptKept A h0 o) (hn : Kept A h0 n)
    (hb : ∀ x, Kept A h0 x → Kept A h0 (b x)) : Kept A h0 (match (generalizing := false) o with | none => n | some x => b x) := by
  cases o with
  | none => exact hn
  | some x => exact hb x (ho x rfl)

theorem Kept.optS {o : Option Hub} {n : Hub} {b : Hub → Hub} (ho : OptKept A h0 o) (hb : ∀ x, Kept A h0 x → Kept A h0 (b x))
    (hn : Kept A h0 n) : Kept A h0 (match (generalizing := false) o with | some x => b x | none => n) := by
  cases o with
  | none => exact hn
  | some x => exact hb x (ho x rfl)

theorem Kept.foldl {α : Type} {l : List α} {f : Hub → α → Hub} (H : Kept A h0 h) (hf : ∀ x a, Kept A h0 x → Kept A h0 (f x a)) :
    Kept A h0 (l.foldl f h) := by
  induction l generalizing h with
  | nil => exact H
  | cons a l ih => exact ih (hf h a H)

theorem when_kept {c : Bool} {f : Hub → Hub} (H : Kept A h0 h) (hf : ∀ x, Kept A h0 x → Kept A h0 (f x)) :
    Kept A h0 (when_ c f h) := by
  cases c
  · exact H
  · exact hf h H

theorem forEach_kept {α : Type} {l : List α} {f : α → Hub → Hub} (H : Kept A h0 h)
    (hf : ∀ a x, Kept A h0 x → Kept A h0 (f a x)) : Kept A h0 (forEach l f h) := Kept.foldl H fun x a => hf a x

/-! ## The named updates -/

theorem Hub.onTop_kept {f : Top → Top} (H : Kept A h0 h)
    (top : .top ∈ A.parts ∨ (f h.top).rest = h.top.rest := by exact .inr rfl)
    (parity : .parity ∈ A.parts ∨ ((f h.top).parCount, (f h.top).parOffset, (f h.top).parBad) = (h.top.parCount, h.top.parOffset, h.top.parBad) := by exact .inr rfl) :
    Kept A h0 (h.onTop f) where
  only := H.only.trans (by constructor <;> first | assumption | exact .inr rfl | exact fun _ => .inr rfl)
  mem := H.mem
  flt := H.flt
  evts := H.evts
  ids := H.ids

theorem Hub.onClk_kept {f : Clk → Clk} (H : Kept A h0 h)
    (now : .now ∈ A.parts ∨ ((f h.clk).cycles, (f h.clk).pos, (f h.clk).nomTime) = (h.clk.cycles, h.clk.pos, h.clk.nomTime) := by exact .inr rfl)
    (clk : .clk ∈ A.parts ∨ (f h.clk).rest = h.clk.rest := by exact .inr rfl) :
    Kept A h0 (h.onClk f) where
  only := H.only.trans (by constructor <;> first | assumption | exact .inr rfl | exact fun _ => .inr rfl)
  mem := H.mem
  flt := H.flt
  evts := H.evts
  ids := H.ids

theorem Hub.onHost_kept {f : HostIf → HostIf} (H : Kept A h0 h)
    (hostRegs : .hostRegs ∈ A.parts ∨ (f h.host).regs = h.host.regs := by exact .inr rfl)
    (cmdRings : .cmdRings ∈ A.parts ∨ (f h.host).cmd = h.host.cmd := by exact .inr rfl)
    (cplRings : .cplRings ∈ A.parts ∨ (f h.host).cpl = h.host.cpl := by exact .inr rfl)
    (telRings : .telRings ∈ A.parts ∨ (f h.host).tel = h.host.tel := by exact .inr rfl)
    (strRings : .strRings ∈ A.parts ∨ (f h.host).str = h.host.str := by exact .inr rfl)
    (msix : .msix ∈ A.parts ∨ (f h.host).msix = h.host.msix := by exact .inr rfl)
    (books : .books ∈ A.parts ∨ (f h.host).books = h.host.books := by exact .inr rfl)
    (hi : h.idsOk → (h.onHost f).idsOk := by exact id) :
    Kept A h0 (h.onHost f) where
  only := H.only.trans (by constructor <;> first | assumption | exact .inr rfl | exact fun _ => .inr rfl)
  mem := H.mem
  flt := H.flt
  evts := H.evts
  ids := fun x => hi (H.ids x)

theorem Hub.onHier_kept {f : Hier → Hier} (H : Kept A h0 h)
    (hier : .hier ∈ A.parts ∨ (f h.hier).rest = h.hier.rest := by exact .inr rfl)
    (hierEvt : .hierEvt ∈ A.parts ∨ (f h.hier).evt = h.hier.evt := by exact .inr rfl)
    (runs : .runs ∈ A.parts ∨ ((f h.hier).runs, (f h.hier).runsWait) = (h.hier.runs, h.hier.runsWait) := by exact .inr rfl)
    (ptp : ∀ k, A.ptp k ∨ (f h.hier).ptp[k] = h.hier.ptp[k] := by exact fun _ => .inr rfl) :
    Kept A h0 (h.onHier f) where
  only := H.only.trans (by constructor <;> first | assumption | exact .inr rfl | exact fun _ => .inr rfl)
  mem := H.mem
  flt := H.flt
  evts := H.evts
  ids := H.ids

theorem Hub.onComp_kept {f : Comp → Comp} (H : Kept A h0 h)
    (comp : .comp ∈ A.parts ∨ (f h.comp).rest = h.comp.rest := by exact .inr rfl)
    (tasks : ∀ k, A.tasks k ∨ (f h.comp).tasks[k] = h.comp.tasks[k] := by exact fun _ => .inr rfl)
    (reeds : ∀ k, A.reeds k ∨ (f h.comp).reeds[k] = h.comp.reeds[k] := by exact fun _ => .inr rfl)
    (evTasks : ∀ k, A.evTasks k ∨ (f h.comp).evTasks[k] = h.comp.evTasks[k] := by exact fun _ => .inr rfl) :
    Kept A h0 (h.onComp f) where
  only := H.only.trans (by constructor <;> first | assumption | exact .inr rfl | exact fun _ => .inr rfl)
  mem := H.mem
  flt := H.flt
  evts := H.evts
  ids := H.ids

theorem Hub.onShim_kept {f : Shim → Shim} (H : Kept A h0 h)
    (store : .store ∈ A.parts ∨ (f h.shim).store = h.shim.store := by exact .inr rfl)
    (counters : .counters ∈ A.parts ∨ (f h.shim).counters = h.shim.counters := by exact .inr rfl)
    (profile : .profile ∈ A.parts ∨ (f h.shim).profile = h.shim.profile := by exact .inr rfl)
    (shimEvt : .shimEvt ∈ A.parts ∨ (f h.shim).evt = h.shim.evt := by exact .inr rfl)
    (shim : .shim ∈ A.parts ∨ (f h.shim).rest = h.shim.rest := by exact .inr rfl)
    (hm : h.shimOk → (h.onShim f).shimOk := by exact id) :
    Kept A h0 (h.onShim f) where
  only := H.only.trans (by constructor <;> first | assumption | exact .inr rfl | exact fun _ => .inr rfl)
  mem := fun x => hm (H.mem x)
  flt := H.flt
  evts := H.evts
  ids := H.ids

theorem Hub.onFlt_kept {f : Flt → Flt} (H : Kept A h0 h)
    (collector : .collector ∈ A.parts ∨ (f h.flt).collector = h.flt.collector := by exact .inr rfl)
    (fltEvt : .fltEvt ∈ A.parts ∨ (f h.flt).evt = h.flt.evt := by exact .inr rfl)
    (flt : .flt ∈ A.parts ∨ (f h.flt).rest = h.flt.rest := by exact .inr rfl)
    (hq : (f h.flt).queue = h.flt.queue := by rfl) (hh : (f h.flt).history = h.flt.history := by rfl) :
    Kept A h0 (h.onFlt f) where
  only := H.only.trans (by constructor <;> first | assumption | exact .inr rfl | exact fun _ => .inr rfl)
  mem := H.mem
  flt := fun x => by show (f h.flt).queue.length ≤ 64 ∧ (f h.flt).history.length ≤ 256; rw [hq, hh]; exact H.flt x
  evts := H.evts
  ids := H.ids

theorem Hub.onMons_kept {f : Mons → Mons} (H : Kept A h0 h)
    (mons : .mons ∈ A.parts ∨ (f h.mons).rest = h.mons.rest := by exact .inr rfl)
    (units : ∀ k, A.units k ∨ (f h.mons).unit[k] = h.mons.unit[k] := by exact fun _ => .inr rfl) :
    Kept A h0 (h.onMons f) where
  only := H.only.trans (by constructor <;> first | assumption | exact .inr rfl | exact fun _ => .inr rfl)
  mem := H.mem
  flt := H.flt
  evts := H.evts
  ids := H.ids

theorem Hub.onPwr_kept {f : Pwr → Pwr} (c : .pwr ∈ A.parts) (H : Kept A h0 h) : Kept A h0 (h.onPwr f) where
  only := H.only.trans (by constructor <;> first | exact .inl c | exact .inr rfl | exact fun _ => .inr rfl)
  mem := H.mem
  flt := H.flt
  evts := H.evts
  ids := H.ids

theorem Hub.onTdc_kept {f : Tdc → Tdc} (c : .tdc ∈ A.parts) (H : Kept A h0 h) : Kept A h0 (h.onTdc f) where
  only := H.only.trans (by constructor <;> first | exact .inl c | exact .inr rfl | exact fun _ => .inr rfl)
  mem := H.mem
  flt := H.flt
  evts := H.evts
  ids := H.ids

theorem Hub.onCal_kept {f : Cal → Cal} (c : .cal ∈ A.parts) (H : Kept A h0 h) : Kept A h0 (h.onCal f) where
  only := H.only.trans (by constructor <;> first | exact .inl c | exact .inr rfl | exact fun _ => .inr rfl)
  mem := H.mem
  flt := H.flt
  evts := H.evts
  ids := H.ids

/-- An instance of a bank other than the one updated is as it was. -/
theorem upd_ne {α : Type} {n : Nat} {P : Fin n → Prop} {v : Vector α n} {i : Fin n} {f : α → α} (hi : P i) (k : Fin n) :
    P k ∨ (upd v i f)[k] = v[k] := by
  by_cases e : k = i
  · exact .inl (e ▸ hi)
  · exact .inr (upd_other v i k f e)

theorem Hub.onDom_kept {n : Fin 16} {f : Dom → Dom} (c : A.doms n) (H : Kept A h0 h) : Kept A h0 (h.onDom n f) where
  only := H.only.trans (by constructor <;> first | exact upd_ne c | exact .inr rfl | exact fun _ => .inr rfl)
  mem := H.mem
  flt := H.flt
  evts := H.evts
  ids := H.ids

theorem Hub.onRef_kept {n : Fin 12} {f : RefSlot → RefSlot} (c : A.refs n) (H : Kept A h0 h) : Kept A h0 (h.onRef n f) where
  only := H.only.trans (by constructor <;> first | exact upd_ne c | exact .inr rfl | exact fun _ => .inr rfl)
  mem := H.mem
  flt := H.flt
  evts := H.evts
  ids := H.ids

theorem Hub.onEvt_kept {n : Fin 64} {f : EvtCh → EvtCh} (c : A.evts n) (H : Kept A h0 h)
    (hf : ∀ c : EvtCh, c.queue.length ≤ 4096 → (f c).queue.length ≤ 4096 := by exact fun _ => id) : Kept A h0 (h.onEvt n f) where
  only := H.only.trans (by constructor <;> first | exact upd_ne c | exact .inr rfl | exact fun _ => .inr rfl)
  mem := H.mem
  flt := H.flt
  evts := fun x k => by
    rw [Hub.onEvt_evts, Fin.getElem_fin, upd_get]
    split
    · exact hf _ (H.evts x k)
    · exact H.evts x k
  ids := H.ids

theorem Hub.onIvu_kept {n : Fin 32} {f : Ivu → Ivu} (c : A.ivus n) (H : Kept A h0 h) : Kept A h0 (h.onIvu n f) where
  only := H.only.trans (by constructor <;> first | exact upd_ne c | exact .inr rfl | exact fun _ => .inr rfl)
  mem := H.mem
  flt := H.flt
  evts := H.evts
  ids := H.ids

theorem Hub.onDll_kept {n : Fin 96} {f : Dll → Dll} (c : A.dlls n) (H : Kept A h0 h) : Kept A h0 (h.onDll n f) where
  only := H.only.trans (by constructor <;> first | exact upd_ne c | exact .inr rfl | exact fun _ => .inr rfl)
  mem := H.mem
  flt := H.flt
  evts := H.evts
  ids := H.ids

theorem Hub.onOut_kept {n : Fin 96} {f : ClkOut → ClkOut} (c : A.outs n) (H : Kept A h0 h) : Kept A h0 (h.onOut n f) where
  only := H.only.trans (by constructor <;> first | exact upd_ne c | exact .inr rfl | exact fun _ => .inr rfl)
  mem := H.mem
  flt := H.flt
  evts := H.evts
  ids := H.ids

theorem Hub.onPls_kept {n : Fin 64} {f : Pls → Pls} (c : A.plss n) (H : Kept A h0 h) : Kept A h0 (h.onPls n f) where
  only := H.only.trans (by constructor <;> first | exact upd_ne c | exact .inr rfl | exact fun _ => .inr rfl)
  mem := H.mem
  flt := H.flt
  evts := H.evts
  ids := H.ids

theorem Hub.onLink_kept {n : Fin 48} {f : Link → Link} (c : A.links n) (H : Kept A h0 h) : Kept A h0 (h.onLink n f) where
  only := H.only.trans (by constructor <;> first | exact upd_ne c | exact .inr rfl | exact fun _ => .inr rfl)
  mem := H.mem
  flt := H.flt
  evts := H.evts
  ids := H.ids

theorem Hub.onMbx_kept {n : Fin 4} {f : Mbx → Mbx} (c : A.mbx n) (H : Kept A h0 h) : Kept A h0 (h.onMbx n f) where
  only := H.only.trans (by constructor <;> first | exact upd_ne c | exact .inr rfl | exact fun _ => .inr rfl)
  mem := H.mem
  flt := H.flt
  evts := H.evts
  ids := H.ids

theorem Hub.onPtp_kept {n : Fin 48} {f : PtpPort → PtpPort} (c : A.ptp n) (H : Kept A h0 h) : Kept A h0 (h.onPtp n f) where
  only := H.only.trans (by constructor <;> first | exact upd_ne c | exact .inr rfl | exact fun _ => .inr rfl)
  mem := H.mem
  flt := H.flt
  evts := H.evts
  ids := H.ids

theorem Hub.onTask_kept {n : Fin 126} {f : Task → Task} (c : A.tasks n) (H : Kept A h0 h) : Kept A h0 (h.onTask n f) where
  only := H.only.trans (by constructor <;> first | exact upd_ne c | exact .inr rfl | exact fun _ => .inr rfl)
  mem := H.mem
  flt := H.flt
  evts := H.evts
  ids := H.ids

theorem Hub.onReed_kept {n : Fin 192} {f : Reed → Reed} (c : A.reeds n) (H : Kept A h0 h) : Kept A h0 (h.onReed n f) where
  only := H.only.trans (by constructor <;> first | exact upd_ne c | exact .inr rfl | exact fun _ => .inr rfl)
  mem := H.mem
  flt := H.flt
  evts := H.evts
  ids := H.ids

theorem Hub.onEvTask_kept {n : Fin 32} {f : EvTask → EvTask} (c : A.evTasks n) (H : Kept A h0 h) : Kept A h0 (h.onEvTask n f) where
  only := H.only.trans (by constructor <;> first | exact upd_ne c | exact .inr rfl | exact fun _ => .inr rfl)
  mem := H.mem
  flt := H.flt
  evts := H.evts
  ids := H.ids

theorem Hub.onMon_kept {n : Fin 32} {f : Mon → Mon} (c : A.units n) (H : Kept A h0 h) : Kept A h0 (h.onMon n f) where
  only := H.only.trans (by constructor <;> first | exact upd_ne c | exact .inr rfl | exact fun _ => .inr rfl)
  mem := H.mem
  flt := H.flt
  evts := H.evts
  ids := H.ids

theorem Hub.onDoms_kept {f : Dom → Dom} (c : ∀ m, A.doms m) (H : Kept A h0 h) : Kept A h0 (h.onDoms f) :=
  .same (by constructor <;> first | exact .inr rfl | exact fun _ => .inr rfl | exact fun k => .inl (c k)) H rfl rfl rfl
    (fun _ => rfl) rfl rfl

theorem Hub.onRing_kept {r : RingId} {f : Ring → Ring} (c : ringPart r ∈ A.parts) (H : Kept A h0 h) :
    Kept A h0 (h.onRing r f) := by
  cases r
  · exact Hub.onHost_kept H (cmdRings := .inl c)
  · exact Hub.onHost_kept H (cplRings := .inl c)
  · exact Hub.onHost_kept H (telRings := .inl c)
  · exact Hub.onHost_kept H (strRings := .inl c)

end Sys2Proof.Machine
end

