-- ==== Sys2Proof/Laws/KeptShared.lean ====
section
/-!
SUPPORT. What `Kept` says of the operations every command shares: one lemma for each effect.
-/

set_option Elab.async false

namespace Sys2Proof.Machine

theorem copyWritten_kept {A : Touch} {h0 h : Hub} {a0 a1} (c : A.has [.parity]) (H : Kept A h0 h) : Kept A h0
    (copyWritten a0 a1 h) := by
  unfold copyWritten
  exact Hub.onTop_kept (parity := .inl (c.mem rfl)) H

theorem Hub.turnAll_kept {A : Touch} {h0 h : Hub} {a0 a1} (c : A.has [.now]) (cd : ∀ k, A.doms k) (H : Kept A h0 h) :
    Kept A h0 (Hub.turnAll a0 a1 h) := by
  unfold Hub.turnAll
  extract_lets x1_0
  exact .same
    (by
      constructor <;> first | exact fun k => .inl (cd k) | exact .inr rfl | exact fun _ => .inr rfl | exact .inl (c.mem rfl))
    H rfl rfl rfl
    (fun _ => rfl) rfl rfl

theorem advanceTo_kept {A : Touch} {h0 h : Hub} {a0} (c : A.has [.now]) (cd : ∀ k, A.doms k) (H : Kept A h0 h) : Kept
    A h0 (advanceTo a0 h) := by
  unfold advanceTo
  exact .ite (Hub.turnAll_kept c cd H) H

theorem reachCyc_kept {A : Touch} {h0 h : Hub} {a0} (c : A.has [.now]) (cd : ∀ k, A.doms k) (H : Kept A h0 h) :
    OptKept A h0 (reachCyc a0 h) := by
  unfold reachCyc
  exact .ite (.some H) (.ite (.some (advanceTo_kept c cd H)) .none)

theorem reachNom_kept {A : Touch} {h0 h : Hub} {a0} (c : A.has [.now]) (cd : ∀ k, A.doms k) (H : Kept A h0 h) :
    OptKept A h0 (reachNom a0 h) := by
  unfold reachNom
  exact .ite (.some H) (reachCyc_kept c cd H)

theorem atCyc_kept {A : Touch} {h0 h : Hub} {c0 : Nat} {f : Hub → Hub} (c : A.has [.now]) (cd : ∀ k, A.doms k) (H :
    Kept A h0 h)
    (hf : ∀ x, Kept A h0 x → Kept A h0 (f x)) : Kept A h0 (atCyc c0 f h) := by
  unfold atCyc
  exact .optS (reachCyc_kept c cd H) hf H

theorem sendMsix_kept {A : Touch} {h0 h : Hub} {a0} (c : A.has [.msix, .bus]) (H : Kept A h0 h) : Kept A h0 (sendMsix
    a0 h) := by
  unfold sendMsix
  extract_lets x1_0
  (try clear_value x1_0)
  exact .ite
    (Hub.onHost_kept (msix := .inl (c.mem rfl)) H)
    (.same
      (by
        constructor <;> first | exact .inr rfl | exact fun _ => .inr rfl | exact .inl (c.mem rfl)) H rfl rfl rfl
      (fun _ => rfl) rfl rfl)

theorem raiseIrq_kept {A : Touch} {h0 h : Hub} {a0} (c : A.has [.msix, .bus]) (H : Kept A h0 h) : Kept A h0 (raiseIrq
    a0 h) := by
  unfold raiseIrq
  exact .ite (by split; exact (sendMsix_kept c H); exact H) H

theorem irqIf_kept {A : Touch} {h0 h : Hub} {a0 a1} (c : A.has [.msix, .bus]) (H : Kept A h0 h) : Kept A h0 (irqIf a0
    a1 h) := by
  unfold irqIf
  exact .ite (raiseIrq_kept c H) H

theorem raiseRoot_kept {A : Touch} {h0 h : Hub} {a0} (c : A.has [.clk, .msix, .bus]) (H : Kept A h0 h) : Kept A h0
    (raiseRoot a0 h) := by
  unfold raiseRoot
  extract_lets x1_0
  (try clear_value x1_0)
  exact irqIf_kept (c.of rfl) (Hub.onClk_kept (clk := .inl (c.mem rfl)) H)

theorem raiseRotSat_kept {A : Touch} {h0 h : Hub} {a0} (c : A.has [.clk, .msix, .bus]) (H : Kept A h0 h) : Kept A h0
    (raiseRotSat a0 h) := by
  unfold raiseRotSat
  extract_lets x1_0
  (try clear_value x1_0)
  exact irqIf_kept (c.of rfl) (Hub.onClk_kept (clk := .inl (c.mem rfl)) H)

theorem raiseDll_kept {A : Touch} {h0 h : Hub} {a0} (c : A.has [.dllEvt, .msix, .bus]) (H : Kept A h0 h) : Kept A h0
    (raiseDll a0 h) := by
  unfold raiseDll
  extract_lets x1_0 x1_1
  (try clear_value x1_0 x1_1)
  exact irqIf_kept
    (c.of rfl)
    (.same
      (by
        constructor <;> first | exact .inr rfl | exact fun _ => .inr rfl | exact .inl (c.mem rfl)) H rfl rfl rfl
      (fun _ => rfl) rfl rfl)

theorem raiseEvt_kept {A : Touch} {h0 h : Hub} {a0 a1} (c : A.has [.msix, .bus]) (ce : A.evts a0) (H : Kept A h0 h) :
    Kept A h0 (raiseEvt a0 a1 h) := by
  unfold raiseEvt
  extract_lets x1_0
  (try clear_value x1_0)
  exact irqIf_kept c (Hub.onEvt_kept ce H)

theorem raiseIvu_kept {A : Touch} {h0 h : Hub} {a0 a1} (c : A.has [.msix, .bus]) (ci : A.ivus a0) (H : Kept A h0 h) :
    Kept A h0 (raiseIvu a0 a1 h) := by
  unfold raiseIvu
  extract_lets x1_0
  (try clear_value x1_0)
  exact irqIf_kept c (Hub.onIvu_kept ci H)

theorem raiseTdc_kept {A : Touch} {h0 h : Hub} {a0} (c : A.has [.msix, .tdc, .bus]) (H : Kept A h0 h) : Kept A h0
    (raiseTdc a0 h) := by
  unfold raiseTdc
  extract_lets x1_0
  (try clear_value x1_0)
  exact irqIf_kept (c.of rfl) (Hub.onTdc_kept (c.mem rfl) H)

theorem raiseRef_kept {A : Touch} {h0 h : Hub} {a0 a1} (c : A.has [.msix, .bus]) (cr : A.refs a0) (H : Kept A h0 h) :
    Kept A h0 (raiseRef a0 a1 h) := by
  unfold raiseRef
  extract_lets x1_0
  (try clear_value x1_0)
  exact irqIf_kept c (Hub.onRef_kept cr H)

theorem raiseDom_kept {A : Touch} {h0 h : Hub} {a0 a1} (c : A.has [.msix, .bus]) (cd : A.doms a0) (H : Kept A h0 h) :
    Kept A h0 (raiseDom a0 a1 h) := by
  unfold raiseDom
  extract_lets x1_0
  (try clear_value x1_0)
  exact irqIf_kept c (Hub.onDom_kept cd H)

theorem distrust_kept {A : Touch} {h0 h : Hub} {a0} (c : A.has [.msix, .bus]) (cd : A.doms a0) (H : Kept A h0 h) :
    Kept A h0 (distrust a0 h) := by
  unfold distrust
  exact raiseDom_kept c cd (Hub.onDom_kept cd H)

theorem raiseLnk_kept {A : Touch} {h0 h : Hub} {a0 a1} (c : A.has [.msix, .bus]) (cl : A.links a0) (H : Kept A h0 h) :
    Kept A h0 (raiseLnk a0 a1 h) := by
  unfold raiseLnk
  extract_lets x1_0
  (try clear_value x1_0)
  exact irqIf_kept c (Hub.onLink_kept cl H)

theorem raiseOut_kept {A : Touch} {h0 h : Hub} {a0 a1} (co : A.outs a0) (H : Kept A h0 h) : Kept A h0 (raiseOut a0 a1
    h) := by
  unfold raiseOut
  exact Hub.onOut_kept co H

theorem raisePls_kept {A : Touch} {h0 h : Hub} {a0 a1} (cp : A.plss a0) (H : Kept A h0 h) : Kept A h0 (raisePls a0 a1
    h) := by
  unfold raisePls
  exact Hub.onPls_kept cp H

theorem raiseHier_kept {A : Touch} {h0 h : Hub} {a0} (c : A.has [.msix, .hierEvt, .bus]) (H : Kept A h0 h) : Kept A h0
    (raiseHier a0 h) := by
  unfold raiseHier
  extract_lets x1_0
  (try clear_value x1_0)
  exact irqIf_kept (c.of rfl) (Hub.onHier_kept (hierEvt := .inl (c.mem rfl)) H)

theorem raiseReed_kept {A : Touch} {h0 h : Hub} {a0} (c : A.has [.msix, .comp, .bus]) (H : Kept A h0 h) : Kept A h0
    (raiseReed a0 h) := by
  unfold raiseReed
  extract_lets x1_0
  (try clear_value x1_0)
  exact irqIf_kept (c.of rfl) (Hub.onComp_kept (comp := .inl (c.mem rfl)) H)

theorem raiseCharge_kept {A : Touch} {h0 h : Hub} {a0} (c : A.has [.msix, .comp, .bus]) (H : Kept A h0 h) : Kept A h0
    (raiseCharge a0 h) := by
  unfold raiseCharge
  extract_lets x1_0
  (try clear_value x1_0)
  exact irqIf_kept (c.of rfl) (Hub.onComp_kept (comp := .inl (c.mem rfl)) H)

theorem raiseShim_kept {A : Touch} {h0 h : Hub} {a0} (c : A.has [.shimEvt]) (H : Kept A h0 h) : Kept A h0 (raiseShim
    a0 h) := by
  unfold raiseShim
  exact Hub.onShim_kept (shimEvt := .inl (c.mem rfl)) H

theorem raiseCal_kept {A : Touch} {h0 h : Hub} {a0} (c : A.has [.cal]) (H : Kept A h0 h) : Kept A h0 (raiseCal a0 h)
    := by
  unfold raiseCal
  exact Hub.onCal_kept (c.mem rfl) H

theorem raiseMon_kept {A : Touch} {h0 h : Hub} {a0} (c : A.has [.msix, .mons, .bus]) (H : Kept A h0 h) : Kept A h0
    (raiseMon a0 h) := by
  unfold raiseMon
  extract_lets x1_0 x1_1
  (try clear_value x1_0 x1_1)
  exact irqIf_kept (c.of rfl) (Hub.onMons_kept (mons := .inl (c.mem rfl)) H)

theorem raisePwr_kept {A : Touch} {h0 h : Hub} {a0} (c : A.has [.pwr, .msix, .bus]) (H : Kept A h0 h) : Kept A h0
    (raisePwr a0 h) := by
  unfold raisePwr
  extract_lets x1_0
  (try clear_value x1_0)
  exact irqIf_kept (c.of rfl) (Hub.onPwr_kept (c.mem rfl) H)

theorem raiseFlt_kept {A : Touch} {h0 h : Hub} {a0} (c : A.has [.msix, .fltEvt, .bus]) (H : Kept A h0 h) : Kept A h0
    (raiseFlt a0 h) := by
  unfold raiseFlt
  extract_lets x1_0
  (try clear_value x1_0)
  exact irqIf_kept (c.of rfl) (Hub.onFlt_kept (fltEvt := .inl (c.mem rfl)) H)

theorem raiseSafe_kept {A : Touch} {h0 h : Hub} {a0} (c : A.has [.msix, .flt, .bus]) (H : Kept A h0 h) : Kept A h0
    (raiseSafe a0 h) := by
  unfold raiseSafe
  extract_lets x1_0
  (try clear_value x1_0)
  exact irqIf_kept (c.of rfl) (Hub.onFlt_kept (flt := .inl (c.mem rfl)) H)

theorem raiseDegLnk_kept {A : Touch} {h0 h : Hub} {a0} (c : A.has [.flt]) (H : Kept A h0 h) : Kept A h0 (raiseDegLnk
    a0 h) := by
  unfold raiseDegLnk
  extract_lets x1_0
  (try clear_value x1_0)
  exact Hub.onFlt_kept (flt := .inl (c.mem rfl)) H

/-- Room in the queue is looked at before a message is put into it (R406). -/
theorem sendFault_kept {A : Touch} {h0 h : Hub} {a0 a1 a2 a3 a4} (c : A.has [.msix, .collector, .fltEvt, .bus]) (H :
    Kept A h0 h) : Kept A h0 (sendFault a0 a1 a2 a3 a4 h) := by
  unfold sendFault
  split
  · dsimp only
    split
    · rename_i hlt
      exact ⟨H.only.trans (by constructor <;> first | exact .inr rfl | exact fun _ => .inr rfl | exact .inl (c.mem rfl)), H.mem,
        fun x => ⟨by have := hlt; simp [Hub.onFlt]; omega, (H.flt x).2⟩, H.evts, H.ids⟩
    · exact raiseFlt_kept (c.of rfl) (Hub.onFlt_kept (collector := .inl (c.mem rfl)) H)
  · exact H

theorem busWrite_kept {A : Touch} {h0 h : Hub} {a0 a1} (c : A.has [.bus]) (H : Kept A h0 h) : Kept A h0 (busWrite a0
    a1 h) := by
  unfold busWrite
  exact .same
    (by
      constructor <;> first | exact .inr rfl | exact fun _ => .inr rfl | exact .inl (c.mem rfl)) H rfl rfl rfl
    (fun _ => rfl) rfl rfl

theorem idxWriteBack_kept {A : Touch} {h0 h : Hub} {a0} (c : A.has [.bus]) (H : Kept A h0 h) : Kept A h0 (idxWriteBack
    a0 h) := by
  unfold idxWriteBack
  exact busWrite_kept c H

theorem ringSignal_kept {A : Touch} {h0 h : Hub} {a0} (c : A.has [.msix, .bus]) (cg : ringPart a0 ∈ A.parts) (H : Kept
    A h0 h) : Kept A h0 (ringSignal a0 h) := by
  unfold ringSignal
  extract_lets x1_0
  have h1_0 : Kept A h0 x1_0 := Hub.onRing_kept cg H
  (try clear_value x1_0)
  split
  · exact raiseIrq_kept c h1_0
  · exact h1_0

theorem ringCount_kept {A : Touch} {h0 h : Hub} {a0 a1 a2} (c : A.has [.msix, .bus]) (cg : ringPart a0 ∈ A.parts) (H :
    Kept A h0 h) : Kept A h0 (ringCount a0 a1 a2 h) := by
  unfold ringCount
  extract_lets x1_0 x1_1
  (try clear_value x1_0)
  have h1_1 : Kept A h0 x1_1 := Hub.onRing_kept cg H
  (try clear_value x1_1)
  exact .ite (ringSignal_kept c cg h1_1) h1_1

theorem ringPut_kept {A : Touch} {h0 h : Hub} {a0 a1} (c : A.has [.bus]) (cg : ringPart a0 ∈ A.parts) (H : Kept A h0
    h) : Kept A h0 (ringPut a0 a1 h) := by
  unfold ringPut
  extract_lets x1_0
  have h1_0 : Kept A h0 x1_0 := busWrite_kept c H
  (try clear_value x1_0)
  exact Hub.onRing_kept cg h1_0

theorem ringPost_kept {A : Touch} {h0 h : Hub} {a0 a1 a2} (c : A.has [.msix, .bus]) (cg : ringPart a0 ∈ A.parts) (H :
    Kept A h0 h) : Kept A h0 (ringPost a0 a1 a2 h) := by
  unfold ringPost
  exact ringCount_kept c cg
    (idxWriteBack_kept (c.of rfl) (forEach_kept H (fun _ _ k1 => (ringPut_kept (c.of rfl) cg k1))))

theorem telOffer_kept {A : Touch} {h0 h : Hub} {a0 a1 a2} (c : A.has [.telRings, .msix, .bus]) (H : Kept A h0 h) :
    Kept A h0 (telOffer a0 a1 a2 h) := by
  unfold telOffer
  extract_lets x1_0 x1_1
  (try clear_value x1_0 x1_1)
  exact .ite (ringPost_kept (c.of rfl) (c.mem rfl) (Hub.onRing_kept (c.mem rfl) H)) (Hub.onRing_kept (c.mem rfl) H)

theorem postCompletion_kept {A : Touch} {h0 h : Hub} {a0 a1 a2 a3 a4} (c : A.has [.cplRings, .msix, .books, .bus]) (H
    : Kept A h0 h) : Kept A h0 (postCompletion a0 a1 a2 a3 a4 h) := by
  unfold postCompletion
  extract_lets x1_0 x1_1 x1_2
  (try clear_value x1_0 x1_1)
  have h1_2 : Kept A h0 x1_2 := ringPost_kept (c.of rfl) (c.mem rfl) H
  (try clear_value x1_2)
  exact Hub.onHost_kept (books := .inl (c.mem rfl)) h1_2

theorem enterDesc_kept {A : Touch} {h0 h : Hub} {a0 a1 a2} (c : A.has [.books]) (H : Kept A h0 h) : Kept A h0
    (enterDesc a0 a1 a2 h) := by
  unfold enterDesc
  exact Hub.onHost_kept (books := .inl (c.mem rfl)) (hi := ids_new rfl rfl rfl) H

theorem mgrNext_kept {A : Touch} {h0 h : Hub} {a0} (c : A.has [.books, .runs]) (H : Kept A h0 h) : Kept A h0 (mgrNext
    a0 h) := by
  unfold mgrNext
  extract_lets x1_0
  (try clear_value x1_0)
  split
  · exact H
  · exact .ite H
      (by
        split
        · extract_lets x4_0
          (try clear_value x4_0)
          split
          · exact Hub.onHier_kept (runs := .inl (c.mem rfl)) H
          · exact enterDesc_kept (c.of rfl) (Hub.onHier_kept (runs := .inl (c.mem rfl)) H))

theorem profNext_kept {A : Touch} {h0 h : Hub} (c : A.has [.books, .profile, .shimEvt]) (H : Kept A h0 h) : Kept A h0
    (profNext h) := by
  unfold profNext
  split
  · exact H
  · exact .ite H
      (by
        split
        · extract_lets x4_0 x4_1 x4_2 x4_3
          (try clear_value x4_1 x4_3)
          have h4_0 : Kept A h0 x4_0 :=
            Hub.onShim_kept H
              (store := .inr
                (by
                  dsimp only
                  split <;> rfl))
              (counters := .inr
                (by
                  dsimp only
                  split <;> rfl))
              (profile := .inl (c.mem rfl))
              (shimEvt := .inr
                (by
                  dsimp only
                  split <;> rfl))
              (shim := .inr
                (by
                  dsimp only
                  split <;> rfl))
              (hm := fun x => by
                unfold Hub.shimOk Hub.onShim
                dsimp only
                split <;> exact x)
          (try clear_value x4_0)
          have h4_2 : Kept A h0 x4_2 := Hub.onShim_kept (profile := .inl (c.mem rfl)) h4_0
          (try clear_value x4_2)
          split
          · exact .ite (raiseShim_kept (c.of rfl) h4_2) h4_2
          · exact enterDesc_kept (c.of rfl) (Hub.onShim_kept (profile := .inl (c.mem rfl)) h4_0))

theorem profEnd_kept {A : Touch} {h0 h : Hub} {a0 a1} (c : A.has [.books, .profile, .shimEvt]) (H : Kept A h0 h) :
    Kept A h0 (profEnd a0 a1 h) := by
  unfold profEnd
  exact .ite
    (profNext_kept c
      (Hub.onShim_kept H
        (store := .inr
          (by
            dsimp only
            split <;> rfl))
        (counters := .inr
          (by
            dsimp only
            split <;> rfl))
        (profile := .inl (c.mem rfl))
        (shimEvt := .inr
          (by
            dsimp only
            split <;> rfl))
        (shim := .inr
          (by
            dsimp only
            split <;> rfl))
        (hm := fun x => by
          unfold Hub.shimOk Hub.onShim
          dsimp only
          split <;> exact x))) H

theorem finishDesc_kept {A : Touch} {h0 h : Hub} {a0 a1 a2} (c : A.has [.cplRings, .msix, .books, .runs, .profile,
    .shimEvt, .bus]) (H : Kept A h0 h) : Kept A h0 (finishDesc a0 a1 a2 h) := by
  unfold finishDesc
  extract_lets x1_0
  have h1_0 : Kept A h0 x1_0 := Hub.onHost_kept (books := .inl (c.mem rfl)) (hi := ids_sub List.filter_sublist rfl) H
  (try clear_value x1_0)
  split
  · exact H
  · split
    · exact .ite h1_0 (postCompletion_kept (c.of rfl) h1_0)
    · split
      · exact h1_0
      · exact mgrNext_kept (c.of rfl) (Hub.onHier_kept (runs := .inl (c.mem rfl)) h1_0)
    · exact profEnd_kept (c.of rfl) h1_0

theorem completeWith_kept {A : Touch} {h0 h : Hub} {a0 a1 a2} (c : A.has [.cplRings, .msix, .books, .runs, .profile,
    .shimEvt, .bus]) (H : Kept A h0 h) : Kept A h0 (completeWith a0 a1 a2 h) := by
  unfold completeWith
  exact .ite (finishDesc_kept c H) (Hub.onHost_kept (books := .inl (c.mem rfl)) H)

theorem flushHeld_kept {A : Touch} {h0 h : Hub} (c : A.has [.cplRings, .msix, .books, .runs, .profile, .shimEvt,
    .bus]) (H : Kept A h0 h) : Kept A h0 (flushHeld h) := by
  unfold flushHeld
  exact forEach_kept (Hub.onHost_kept (books := .inl (c.mem rfl)) H) (fun _ _ k1 => (finishDesc_kept c k1))

theorem complete_kept {A : Touch} {h0 h : Hub} {a0 a1} (c : A.has [.cplRings, .msix, .books, .runs, .profile,
    .shimEvt, .bus]) (H : Kept A h0 h) : Kept A h0 (complete a0 a1 h) := by
  unfold complete
  exact completeWith_kept c H

theorem completeOpt_kept {A : Touch} {h0 h : Hub} {a0 a1} (c : A.has [.cplRings, .msix, .books, .runs, .profile,
    .shimEvt, .bus]) (H : Kept A h0 h) : Kept A h0 (completeOpt a0 a1 h) := by
  unfold completeOpt
  split
  · exact complete_kept c H
  · exact H

theorem markApplied_kept {A : Touch} {h0 h : Hub} {a0} (c : A.has [.books]) (H : Kept A h0 h) : Kept A h0 (markApplied
    a0 h) := by
  unfold markApplied
  exact Hub.onHost_kept
    (books := .inl (c.mem rfl))
    (hi := ids_map
      (by
        simp only [Hub.onHost_host, List.map_map]
        exact List.map_congr_left (fun d _ => (by dsimp only [Function.comp]; split <;> rfl))) rfl) H

theorem serve_kept {A : Touch} {h0 h : Hub} {o : Origin} {fits : Desc → Bool} {eff : Desc → Hub → Hub} (c : A.has
    [.cplRings, .msix, .books, .hierEvt, .runs, .profile, .shimEvt, .bus]) (H : Kept A h0 h)
    (hf : ∀ d x, Kept A h0 x → Kept A h0 (eff d x)) : Kept A h0 (serve o fits eff h) := by
  unfold serve
  split
  · exact H
  · exact .ite
      (by
        split
        · exact complete_kept
            (c.of rfl)
            (.iteF (raiseHier_kept (c.of rfl) (markApplied_kept (c.of rfl) H)) (markApplied_kept (c.of rfl) H))
        · extract_lets x
          have hx : Kept A h0 x := hf _ _ (markApplied_kept (c.of rfl) H)
          exact .ite (profEnd_kept (c.of rfl) hx) hx) H

theorem withFin_kept {A : Touch} {h0 h : Hub} {n i id : Nat} {f : Fin n → Hub → Hub} (c : A.has [.cplRings, .msix,
    .books, .runs, .profile, .shimEvt, .bus]) (H : Kept A h0 h)
    (hf : ∀ k x, Kept A h0 x → Kept A h0 (f k x)) : Kept A h0 (withFin n i id f h) := by
  unfold withFin
  split
  · exact hf _ _ H
  · exact complete_kept c H

theorem onCounter_kept {A : Touch} {h0 h : Hub} {a0 a1} (c : A.has [.counters]) (H : Kept A h0 h) : Kept A h0
    (onCounter a0 a1 h) := by
  unfold onCounter
  exact Hub.onShim_kept (counters := .inl (c.mem rfl)) H

theorem bumpCounter_kept {A : Touch} {h0 h : Hub} {a0} (c : A.has [.counters]) (H : Kept A h0 h) : Kept A h0
    (bumpCounter a0 h) := by
  unfold bumpCounter
  split
  · exact onCounter_kept c H
  · exact H

theorem poisonGroup_kept {A : Touch} {h0 h : Hub} {a0} (c : A.has [.store]) (H : Kept A h0 h) : Kept A h0 (poisonGroup
    a0 h) := by
  unfold poisonGroup
  exact Hub.onShim_kept (store := .inl (c.mem rfl)) H

theorem mendGroup_kept {A : Touch} {h0 h : Hub} {a0} (c : A.has [.store]) (H : Kept A h0 h) : Kept A h0 (mendGroup a0
    h) := by
  unfold mendGroup
  exact Hub.onShim_kept (store := .inl (c.mem rfl)) H

theorem onLastUe_kept {A : Touch} {h0 h : Hub} {g : Shim → BitVec 128} (c : A.has [.shim]) (H : Kept A h0 h) :
    Kept A h0 (h.onShim fun s => { s with lastUe := g s }) :=
  Hub.onShim_kept H (shim := .inl (c.mem rfl))

theorem noteUe_kept {A : Touch} {h0 h : Hub} {a0 a1} (c : A.has [.counters, .shimEvt, .shim]) (H : Kept A h0 h) : Kept
    A h0 (noteUe a0 a1 h) := by
  unfold noteUe
  exact bumpCounter_kept (c.of rfl) (raiseShim_kept (c.of rfl) (onLastUe_kept (c.of rfl) H))

theorem readGroup_kept {A : Touch} {h0 h : Hub} {a0 a1 a2} (c : A.has [.msix, .store, .counters, .shimEvt, .shim,
    .collector, .fltEvt, .bus]) (H : Kept A h0 h) : Kept A h0 (readGroup a0 a1 a2 h) := by
  unfold readGroup
  exact .ite
    (raiseShim_kept (c.of rfl) (sendFault_kept (c.of rfl) H))
    (by
      split
      · exact H
      · exact bumpCounter_kept
          (c.of rfl)
          (raiseShim_kept (c.of rfl) (sendFault_kept (c.of rfl) (mendGroup_kept (c.of rfl) H)))
      · exact raiseShim_kept
          (c.of rfl)
          (sendFault_kept
            (c.of rfl)
            (noteUe_kept
              (c.of rfl)
              (sendFault_kept (c.of rfl) (poisonGroup_kept (c.of rfl) (mendGroup_kept (c.of rfl) H))))))

theorem readCheck_kept {A : Touch} {h0 h : Hub} {a0 a1 a2 a3} (c : A.has [.msix, .store, .counters, .shimEvt, .shim,
    .collector, .fltEvt, .bus]) (H : Kept A h0 h) : Kept A h0 (readCheck a0 a1 a2 a3 h) := by
  unfold readCheck
  exact forEach_kept H (fun _ _ k1 => (readGroup_kept c k1))

theorem modifyCheck_kept {A : Touch} {h0 h : Hub} {a0 a1} (c : A.has [.msix, .store, .counters, .shimEvt, .shim,
    .collector, .fltEvt, .bus]) (H : Kept A h0 h) : Kept A h0 (modifyCheck a0 a1 h) := by
  unfold modifyCheck
  exact forEach_kept H (fun _ _ k1 => (.ite k1 (readGroup_kept c k1)))

theorem storeRun_kept {A : Touch} {h0 h : Hub} {a0 a1} (c : A.has [.msix, .store, .counters, .shimEvt, .shim,
    .collector, .fltEvt, .bus]) (H : Kept A h0 h) : Kept A h0 (storeRun a0 a1 h) := by
  unfold storeRun
  extract_lets n whole
  have h1 : Kept A h0 (modifyCheck a0 n h) := modifyCheck_kept c H
  generalize modifyCheck a0 n h = x at h1 ⊢
  exact ⟨h1.only.trans (by constructor <;> first | exact .inr rfl | exact fun _ => .inr rfl | exact .inl (c.mem rfl)),
    fun y => memWriteN_wf _ _ _ (h1.mem y), h1.flt, h1.evts, h1.ids⟩

theorem applyTxn_kept {A : Touch} {h0 h : Hub} {a0} (c : A.has [.msix, .store, .counters, .shimEvt, .shim, .collector,
    .fltEvt, .bus]) (H : Kept A h0 h) : Kept A h0 (applyTxn a0 h) := by
  unfold applyTxn
  exact forEach_kept H (fun _ _ k1 => (storeRun_kept c k1))

theorem queueTxn_kept {A : Touch} {h0 h : Hub} {a0 a1 a2} (c : A.has [.shim]) (H : Kept A h0 h) : Kept A h0 (queueTxn
    a0 a1 a2 h) := by
  unfold queueTxn
  exact Hub.onShim_kept (shim := .inl (c.mem rfl)) H

theorem journalNow_kept {A : Touch} {h0 h : Hub} {a0} (c : A.has [.msix, .store, .counters, .shimEvt, .shim,
    .collector, .fltEvt, .bus]) (H : Kept A h0 h) : Kept A h0 (journalNow a0 h) := by
  unfold journalNow
  exact applyTxn_kept c (Hub.onShim_kept (shim := .inl (c.mem rfl)) H)

theorem setImageState_kept {A : Touch} {h0 h : Hub} {a0 a1} (c : A.has [.msix, .store, .counters, .shimEvt, .shim,
    .collector, .fltEvt, .bus]) (H : Kept A h0 h) : Kept A h0 (setImageState a0 a1 h) := by
  unfold setImageState
  exact journalNow_kept c H

theorem invalidateImage_kept {A : Touch} {h0 h : Hub} {a0} (c : A.has [.msix, .store, .counters, .shimEvt, .shim,
    .collector, .fltEvt, .bus]) (H : Kept A h0 h) : Kept A h0 (invalidateImage a0 h) := by
  unfold invalidateImage
  exact .ite (raiseShim_kept (c.of rfl) (setImageState_kept c H)) H

theorem peatAtIndex_kept {A : Touch} {h0 h : Hub} {a0 a1} (c : A.has [.msix, .store, .counters, .shimEvt, .shim,
    .collector, .fltEvt, .flt, .bus]) (H : Kept A h0 h) : Kept A h0 (peatAtIndex a0 a1 h) := by
  unfold peatAtIndex
  exact Hub.onFlt_kept (flt := .inl (c.mem rfl)) (journalNow_kept (c.of rfl) H)

theorem peatRunning_kept {A : Touch} {h0 h : Hub} {a0 a1 a2 a3 a4 a5} (c : A.has [.msix, .store, .counters, .shimEvt,
    .shim, .collector, .fltEvt, .flt, .bus]) (H : Kept A h0 h) : Kept A h0 (peatRunning a0 a1 a2 a3 a4 a5 h) := by
  unfold peatRunning
  extract_lets x1_0
  have h1_0 : Kept A h0 x1_0 := peatAtIndex_kept c H
  (try clear_value x1_0)
  exact Hub.onFlt_kept (flt := .inl (c.mem rfl)) h1_0

theorem peatEvent_kept {A : Touch} {h0 h : Hub} {a0 a1} (c : A.has [.msix, .store, .counters, .shimEvt, .shim,
    .collector, .fltEvt, .flt, .bus]) (H : Kept A h0 h) : Kept A h0 (peatEvent a0 a1 h) := by
  unfold peatEvent
  exact peatRunning_kept c H

theorem peatFirst_kept {A : Touch} {h0 h : Hub} {a0 a1} (c : A.has [.msix, .store, .counters, .shimEvt, .shim,
    .collector, .fltEvt, .flt, .bus]) (H : Kept A h0 h) : Kept A h0 (peatFirst a0 a1 h) := by
  unfold peatFirst
  extract_lets x1_0
  have h1_0 : Kept A h0 x1_0 := Hub.onFlt_kept (flt := .inl (c.mem rfl)) H
  (try clear_value x1_0)
  exact .ite
    (Hub.onFlt_kept (flt := .inl (c.mem rfl)) (peatAtIndex_kept c h1_0))
    (raiseFlt_kept (c.of rfl) (Hub.onFlt_kept (flt := .inl (c.mem rfl)) (peatRunning_kept c h1_0)))

theorem peatMessage_kept {A : Touch} {h0 h : Hub} {a0} (c : A.has [.msix, .store, .counters, .shimEvt, .shim,
    .collector, .fltEvt, .flt, .bus]) (H : Kept A h0 h) : Kept A h0 (peatMessage a0 h) := by
  unfold peatMessage
  extract_lets x1_0
  (try clear_value x1_0)
  exact .ite
    (Hub.onFlt_kept (flt := .inl (c.mem rfl)) (peatRunning_kept c H))
    (Hub.onFlt_kept (flt := .inl (c.mem rfl)) H)

end Sys2Proof.Machine
end

