-- ==== Sys2Proof/Laws/KeptDomains.lean ====
section
/-!
SUPPORT. What `Kept` says of the grids, the servo, the domains and the ports: one lemma for each effect.
-/

set_option Elab.async false

namespace Sys2Proof.Machine

theorem realignOuts_kept {A : Touch} {h0 h : Hub} {a0 a1} (co : ∀ k, A.outs k) (H : Kept A h0 h) : Kept A h0
    (realignOuts a0 a1 h) := by
  unfold realignOuts
  extract_lets x1_0
  (try clear_value x1_0)
  exact .same
    (by
      constructor <;> first | exact fun k => .inl (co k) | exact .inr rfl | exact fun _ => .inr rfl) H rfl rfl rfl
    (fun _ => rfl) rfl rfl

theorem restepPulses_kept {A : Touch} {h0 h : Hub} {a0 a1} (cp : ∀ k, A.plss k) (H : Kept A h0 h) : Kept A h0
    (restepPulses a0 a1 h) := by
  unfold restepPulses
  extract_lets x1_0
  (try clear_value x1_0)
  exact .same
    (by
      constructor <;> first | exact fun k => .inl (cp k) | exact .inr rfl | exact fun _ => .inr rfl) H rfl rfl rfl
    (fun _ => rfl) rfl rfl

theorem setUsers_kept {A : Touch} {h0 h : Hub} {a0 a1} (cr : ∀ k, A.refs k) (H : Kept A h0 h) : Kept A h0 (setUsers a0
    a1 h) := by
  unfold setUsers
  exact .same
    (by
      constructor <;> first | exact fun k => .inl (cr k) | exact .inr rfl | exact fun _ => .inr rfl) H rfl rfl rfl
    (fun _ => rfl) rfl rfl

theorem setFollow_kept {A : Touch} {h0 h : Hub} {a0 a1 a2} (cr : ∀ k, A.refs k) (cd : A.doms a0) (H : Kept A h0 h) :
    Kept A h0 (setFollow a0 a1 a2 h) := by
  unfold setFollow
  extract_lets x1_0
  have h1_0 : Kept A h0 x1_0 := Hub.onDom_kept cd H
  (try clear_value x1_0)
  exact setUsers_kept cr h1_0

theorem checkRot_kept {A : Touch} {h0 h : Hub} {a0} (c : A.has [.clk, .msix, .collector, .fltEvt, .bus]) (cd : A.doms
    a0) (H : Kept A h0 h) : Kept A h0 (checkRot a0 h) := by
  unfold checkRot
  extract_lets x1_0 x1_1 x1_2
  (try clear_value x1_0 x1_1)
  have h1_2 : Kept A h0 x1_2 := raiseRotSat_kept (c.of rfl) (Hub.onDom_kept cd H)
  (try clear_value x1_2)
  exact .ite (.ite (sendFault_kept (c.of rfl) (Hub.onDom_kept cd h1_2)) h1_2) (Hub.onDom_kept cd H)

theorem checkRots_kept {A : Touch} {h0 h : Hub} (c : A.has [.clk, .msix, .collector, .fltEvt, .bus]) (cd : ∀ k, A.doms
    k) (H : Kept A h0 h) : Kept A h0 (checkRots h) := by
  unfold checkRots
  exact forEach_kept H (fun _ _ k1 => (checkRot_kept c (cd _) k1))

theorem enterDom_kept {A : Touch} {h0 h : Hub} {a0 a1} (c : A.has [.msix, .bus]) (cd : A.doms a0) (H : Kept A h0 h) :
    Kept A h0 (enterDom a0 a1 h) := by
  unfold enterDom
  exact raiseDom_kept c cd (Hub.onDom_kept cd H)

theorem enterNominal_kept {A : Touch} {h0 h : Hub} {a0} (c : A.has [.msix, .bus]) (cr : ∀ k, A.refs k) (cd : A.doms
    a0) (H : Kept A h0 h) : Kept A h0 (enterNominal a0 h) := by
  unfold enterNominal
  exact enterDom_kept c cd (setFollow_kept cr cd (Hub.onDom_kept cd H))

theorem enterManual_kept {A : Touch} {h0 h : Hub} {a0} (c : A.has [.msix, .bus]) (cr : ∀ k, A.refs k) (cd : A.doms a0)
    (H : Kept A h0 h) : Kept A h0 (enterManual a0 h) := by
  unfold enterManual
  exact enterDom_kept c cd (setFollow_kept cr cd (Hub.onDom_kept cd H))

theorem follow_kept {A : Touch} {h0 h : Hub} {a0 a1} (cr : ∀ k, A.refs k) (cd : A.doms a0) (H : Kept A h0 h) : Kept A
    h0 (follow a0 a1 h) := by
  unfold follow
  extract_lets x1_0 x1_1 x1_2
  (try clear_value x1_0 x1_1)
  have h1_2 : Kept A h0 x1_2 := .ite (Hub.onDom_kept cd H) H
  (try clear_value x1_2)
  exact setFollow_kept cr cd h1_2

theorem enterAcquire_kept {A : Touch} {h0 h : Hub} {a0} (c : A.has [.msix, .bus]) (cr : ∀ k, A.refs k) (cd : A.doms
    a0) (H : Kept A h0 h) : Kept A h0 (enterAcquire a0 h) := by
  unfold enterAcquire
  exact enterDom_kept c cd (follow_kept cr cd (Hub.onDom_kept cd H))

theorem reacquire_kept {A : Touch} {h0 h : Hub} {a0 a1} (c : A.has [.msix, .bus]) (cr : ∀ k, A.refs k) (cd : A.doms
    a0) (H : Kept A h0 h) : Kept A h0 (reacquire a0 a1 h) := by
  unfold reacquire
  extract_lets x1_0
  (try clear_value x1_0)
  exact raiseDom_kept c cd (enterDom_kept c cd (follow_kept cr cd (Hub.onDom_kept cd H)))

theorem regroup_kept {A : Touch} {h0 h : Hub} {a0} (c : A.has [.msix, .bus]) (cr : ∀ k, A.refs k) (cd : A.doms a0) (H
    : Kept A h0 h) : Kept A h0 (regroup a0 h) := by
  unfold regroup
  extract_lets x1_0 x1_1
  (try clear_value x1_0 x1_1)
  exact .ite (follow_kept cr cd H) (raiseDom_kept c cd (follow_kept cr cd (Hub.onDom_kept cd H)))

theorem enterHoldover_kept {A : Touch} {h0 h : Hub} {a0} (c : A.has [.msix, .counters, .bus]) (cr : ∀ k, A.refs k) (cd
    : A.doms a0) (H : Kept A h0 h) : Kept A h0 (enterHoldover a0 h) := by
  unfold enterHoldover
  extract_lets x1_0 x1_1 x1_2
  (try clear_value x1_0 x1_1)
  have h1_2 : Kept A h0 x1_2 := Hub.onDom_kept cd H
  (try clear_value x1_2)
  exact bumpCounter_kept
    (c.of rfl)
    (bumpCounter_kept (c.of rfl) (enterDom_kept (c.of rfl) cd (setFollow_kept cr cd h1_2)))

theorem loseAll_kept {A : Touch} {h0 h : Hub} {a0} (c : A.has [.msix, .counters, .bus]) (cr : ∀ k, A.refs k) (cd :
    A.doms a0) (H : Kept A h0 h) : Kept A h0 (loseAll a0 h) := by
  unfold loseAll
  extract_lets x1_0
  (try clear_value x1_0)
  exact .ite (enterHoldover_kept c cr cd H) (.ite H (enterNominal_kept (c.of rfl) cr cd H))

theorem setPolicy_kept {A : Touch} {h0 h : Hub} {a0 a1} (c : A.has [.msix, .bus]) (cr : ∀ k, A.refs k) (cd : A.doms
    a0) (H : Kept A h0 h) : Kept A h0 (setPolicy a0 a1 h) := by
  unfold setPolicy
  extract_lets x1_0 x1_1 x1_2 x1_3
  (try clear_value x1_0 x1_1 x1_3)
  have h1_2 : Kept A h0 x1_2 := Hub.onDom_kept cd H
  (try clear_value x1_2)
  exact .ite H
    (.ite
      (enterManual_kept c cr cd h1_2)
      (.ite
        (.ite (enterNominal_kept c cr cd h1_2) (enterAcquire_kept c cr cd h1_2))
        (by
          split
          · exact .ite h1_2 (Hub.onDom_kept cd (regroup_kept c cr cd h1_2))
          · exact .ite h1_2 (Hub.onDom_kept cd (regroup_kept c cr cd h1_2))
          · exact h1_2
          · exact h1_2
          · exact h1_2
          · exact h1_2)))

theorem applyDomConfig_kept {A : Touch} {h0 h : Hub} {a0 a1 a2} (c : A.has [.parity, .cplRings, .msix, .books, .runs,
    .profile, .shimEvt, .bus]) (cr : ∀ k, A.refs k) (cd : A.doms a0) (H : Kept A h0 h) : Kept A h0 (applyDomConfig a0
    a1 a2 h) := by
  unfold applyDomConfig
  extract_lets x1_0 x1_1 x1_2 x1_3 x1_4
  (try clear_value x1_0 x1_1)
  have h1_2 : Kept A h0 x1_2 := Hub.onDom_kept cd (copyWritten_kept (c.of rfl) H)
  (try clear_value x1_2)
  have h1_3 : Kept A h0 x1_3 := Hub.onDom_kept cd h1_2
  (try clear_value x1_3)
  have h1_4 : Kept A h0 x1_4 := .ite (.ite (enterNominal_kept (c.of rfl) cr cd h1_3) h1_3) h1_2
  (try clear_value x1_4)
  exact complete_kept (c.of rfl) (setPolicy_kept (c.of rfl) cr cd h1_4)

theorem applyDomMode_kept {A : Touch} {h0 h : Hub} {a0 a1 a2} (c : A.has [.cplRings, .msix, .books, .runs, .profile,
    .shimEvt, .bus]) (cr : ∀ k, A.refs k) (cd : A.doms a0) (H : Kept A h0 h) : Kept A h0 (applyDomMode a0 a1 a2 h) :=
    by
  unfold applyDomMode
  extract_lets x1_0 x1_1 x1_2 x1_3 x1_4
  (try clear_value x1_0)
  have h1_1 : Kept A h0 x1_1 := .ite H (setPolicy_kept (c.of rfl) cr cd H)
  (try clear_value x1_1)
  have h1_2 : Kept A h0 x1_2 := .ite (Hub.onDom_kept cd h1_1) h1_1
  (try clear_value x1_2)
  have h1_3 : Kept A h0 x1_3 := .ite (Hub.onDom_kept cd h1_2) h1_2
  (try clear_value x1_3)
  have h1_4 : Kept A h0 x1_4 := .ite (Hub.onDom_kept cd h1_3) h1_3
  (try clear_value x1_4)
  exact complete_kept c h1_4

theorem steerNow_kept {A : Touch} {h0 h : Hub} {a0 a1 a2} (c : A.has [.clk, .cplRings, .msix, .books, .runs, .profile,
    .shimEvt, .collector, .fltEvt, .bus]) (cd : A.doms a0) (H : Kept A h0 h) : Kept A h0 (steerNow a0 a1 a2 h) := by
  unfold steerNow
  extract_lets x1_0 x1_1
  (try clear_value x1_0)
  have h1_1 : Kept A h0 x1_1 := Hub.onDom_kept cd H
  (try clear_value x1_1)
  exact .ite
    (complete_kept (c.of rfl) H)
    (.ite (complete_kept (c.of rfl) H) (completeWith_kept (c.of rfl) (checkRot_kept (c.of rfl) cd h1_1)))

theorem applyDomOps_kept {A : Touch} {h0 h : Hub} {a0} (c : A.has [.parity, .clk, .cplRings, .msix, .books, .runs,
    .profile, .shimEvt, .collector, .fltEvt, .bus]) (cr : ∀ k, A.refs k) (cd : A.doms a0) (H : Kept A h0 h) : Kept A
    h0 (applyDomOps a0 h) := by
  unfold applyDomOps
  extract_lets x1_0
  (try clear_value x1_0)
  exact forEach_kept
    (Hub.onDom_kept cd H)
    (fun _ _ k2 => by
      split
      · exact applyDomConfig_kept (c.of rfl) cr cd k2
      · exact applyDomMode_kept (c.of rfl) cr cd k2
      · exact steerNow_kept (c.of rfl) cd k2)

theorem stepDomain_kept {A : Touch} {h0 h : Hub} {a0 a1} (c : A.has [.msix, .bus]) (cd : A.doms a0) (co : ∀ k, A.outs
    k) (cp : ∀ k, A.plss k) (cu : ∀ k, A.units k) (H : Kept A h0 h) : Kept A h0 (stepDomain a0 a1 h) := by
  unfold stepDomain
  extract_lets x1_0 x1_1 x1_2 x1_3
  (try clear_value x1_0)
  have h1_1 : Kept A h0 x1_1 := Hub.onDom_kept cd H
  (try clear_value x1_1)
  have h1_2 : Kept A h0 x1_2 := restepPulses_kept cp (realignOuts_kept co h1_1)
  (try clear_value x1_2)
  have h1_3 : Kept A h0 x1_3 := .ite (Hub.onMons_kept (units := fun k => .inl (cu k)) h1_2) h1_2
  (try clear_value x1_3)
  exact raiseDom_kept c cd h1_3

theorem excludeSlots_kept {A : Touch} {h0 h : Hub} {a0 a1} (c : A.has [.msix, .bus]) (cd : A.doms a0) (H : Kept A h0
    h) : Kept A h0 (excludeSlots a0 a1 h) := by
  unfold excludeSlots
  exact raiseDom_kept c cd (Hub.onDom_kept cd H)

theorem servoStep_kept {A : Touch} {h0 h : Hub} {a0 a1 a2} (c : A.has [.msix, .bus]) (cd : A.doms a0) (H : Kept A h0
    h) : Kept A h0 (servoStep a0 a1 a2 h) := by
  unfold servoStep
  extract_lets x1_0 x1_1 x1_2 x1_3 x1_4
  (try clear_value x1_0 x1_1 x1_2 x1_3 x1_4)
  split
  · extract_lets x2_0 x2_1 x2_2 x2_3 x2_4
    (try clear_value x2_0 x2_1)
    have h2_2 : Kept A h0 x2_2 := Hub.onDom_kept cd H
    (try clear_value x2_2)
    have h2_3 : Kept A h0 x2_3 := .ite (raiseDom_kept c cd h2_2) h2_2
    (try clear_value x2_3)
    have h2_4 : Kept A h0 x2_4 := Hub.onDom_kept cd h2_3
    (try clear_value x2_4)
    exact .ite (raiseDom_kept c cd h2_4) h2_4

theorem lockStep_kept {A : Touch} {h0 h : Hub} {a0 a1 a2} (c : A.has [.msix, .bus]) (cd : A.doms a0) (H : Kept A h0 h)
    : Kept A h0 (lockStep a0 a1 a2 h) := by
  unfold lockStep
  extract_lets x1_0 x1_1
  (try clear_value x1_0 x1_1)
  exact .ite (.ite (.ite (Hub.onDom_kept cd (enterDom_kept c cd H)) (Hub.onDom_kept cd H)) (Hub.onDom_kept cd H)) H

theorem settleError_kept {A : Touch} {h0 h : Hub} {a0 a1 a2} (c : A.has [.msix, .bus]) (cd : A.doms a0) (co : ∀ k,
    A.outs k) (cp : ∀ k, A.plss k) (cu : ∀ k, A.units k) (H : Kept A h0 h) : Kept A h0 (settleError a0 a1 a2 h).2 :=
    by
  unfold settleError
  dsimp only
  split
  · exact H
  · split
    · exact stepDomain_kept c cd co cp cu (Hub.onDom_kept cd H)
    · exact Hub.onDom_kept cd H
  · exact Hub.onDom_kept cd H
  · exact Hub.onDom_kept cd H

theorem holdoffStep_kept {A : Touch} {h0 h : Hub} {a0} (cd : A.doms a0) (H : Kept A h0 h) : Kept A h0 (holdoffStep a0
    h) := by
  unfold holdoffStep
  extract_lets x1_0 x1_1 x1_2 x1_3
  (try clear_value x1_0 x1_1 x1_2 x1_3)
  exact Hub.onDom_kept cd H

theorem judge_kept {A : Touch} {h0 h : Hub} {a0} (c : A.has [.msix, .counters, .bus]) (cr : ∀ k, A.refs k) (cd :
    A.doms a0) (H : Kept A h0 h) : Kept A h0 (judge a0 h) := by
  unfold judge
  extract_lets x1_0 x1_1
  (try clear_value x1_0 x1_1)
  split
  · exact H
  · exact .ite H (enterAcquire_kept (c.of rfl) cr cd H)
  · exact .ite H (enterAcquire_kept (c.of rfl) cr cd H)
  · exact .ite H (enterAcquire_kept (c.of rfl) cr cd H)
  · exact .ite
      (loseAll_kept c cr cd H)
      (.ite
        (reacquire_kept (c.of rfl) cr cd H)
        (.ite (reacquire_kept (c.of rfl) cr cd H) (.ite (regroup_kept (c.of rfl) cr cd H) H)))
  · exact .ite
      (loseAll_kept c cr cd H)
      (.ite
        (reacquire_kept (c.of rfl) cr cd H)
        (.ite (reacquire_kept (c.of rfl) cr cd H) (.ite (regroup_kept (c.of rfl) cr cd H) H)))

theorem holdoverStep_kept {A : Touch} {h0 h : Hub} {a0 a1} (cd : A.doms a0) (H : Kept A h0 h) : Kept A h0
    (holdoverStep a0 a1 h) := by
  unfold holdoverStep
  extract_lets x1_0
  (try clear_value x1_0)
  exact Hub.onDom_kept cd H

theorem steer_kept {A : Touch} {h0 h : Hub} {a0 a1} (c : A.has [.msix, .bus]) (cd : A.doms a0) (co : ∀ k, A.outs k)
    (cp : ∀ k, A.plss k) (cu : ∀ k, A.units k) (H : Kept A h0 h) : Kept A h0 (steer a0 a1 h) := by
  unfold steer
  extract_lets x1_0 x1_1
  (try clear_value x1_0 x1_1)
  split
  · exact Hub.onDom_kept cd H
  · exact Hub.onDom_kept cd H
  · exact holdoverStep_kept cd H
  · exact holdoverStep_kept cd H
  · exact .ite
      (excludeSlots_kept c cd (Hub.onDom_kept cd H))
      (by
        split
        · exact Hub.onDom_kept cd H
        · extract_lets x4_0
          have h4_0 : Kept A h0 x4_0.2 := settleError_kept c cd co cp cu H
          exact lockStep_kept c cd (servoStep_kept c cd h4_0))
  · exact .ite
      (excludeSlots_kept c cd (Hub.onDom_kept cd H))
      (by
        split
        · exact Hub.onDom_kept cd H
        · extract_lets x7_0
          have h7_0 : Kept A h0 x7_0.2 := settleError_kept c cd co cp cu H
          exact lockStep_kept c cd (servoStep_kept c cd h7_0))

theorem setHops_kept {A : Touch} {h0 h : Hub} {a0} (cd : A.doms a0) (H : Kept A h0 h) : Kept A h0 (setHops a0 h) := by
  unfold setHops
  split
  · exact Hub.onDom_kept cd H
  · exact Hub.onDom_kept cd H
  · exact H
  · exact H
  · exact Hub.onDom_kept cd H
  · exact Hub.onDom_kept cd H

theorem domUpdate_kept {A : Touch} {h0 h : Hub} {a0 a1} (c : A.has [.parity, .clk, .cplRings, .msix, .books, .runs,
    .counters, .profile, .shimEvt, .collector, .fltEvt, .bus]) (cr : ∀ k, A.refs k) (cd : A.doms a0) (co : ∀ k, A.outs
    k) (cp : ∀ k, A.plss k) (cu : ∀ k, A.units k) (H : Kept A h0 h) : Kept A h0 (domUpdate a0 a1 h) := by
  unfold domUpdate
  extract_lets x1_0 x1_1
  (try clear_value x1_0)
  have h1_1 : Kept A h0 x1_1 :=
    steer_kept (c.of rfl) cd co cp cu (judge_kept (c.of rfl) cr cd (applyDomOps_kept (c.of rfl) cr cd H))
  (try clear_value x1_1)
  exact .ite H
    (.ite
      (by
        split
        · exact .ite (loseAll_kept (c.of rfl) cr cd H) H
        · exact .ite (loseAll_kept (c.of rfl) cr cd H) H
        · exact H
        · exact H
        · exact H
        · exact H)
      (checkRot_kept (c.of rfl) cd (setHops_kept cd (Hub.onDom_kept cd h1_1))))

theorem timeRefused_kept {A : Touch} {h0 h : Hub} {a0 a1 a2 a3} (c : A.has [.cplRings, .msix, .books, .runs, .profile,
    .shimEvt, .bus]) (H : Kept A h0 h) : Kept A h0 (timeRefused a0 a1 a2 a3 h) := by
  unfold timeRefused
  exact completeWith_kept c H

theorem reachDom_kept {A : Touch} {h0 h : Hub} {a0 a1} (c : A.has [.now]) (cd : ∀ k, A.doms k) (H : Kept A h0 h) :
    OptKept A h0 (reachDom a0 a1 h) := by
  unfold reachDom
  exact .ite (.some H) (.ite (.some (advanceTo_kept c cd H)) .none)

theorem timeMove_kept {A : Touch} {h0 h : Hub} {a0 a1 a2 a3} (c : A.has [.cplRings, .msix, .books, .runs, .profile,
    .shimEvt, .bus]) (cd : A.doms a0) (co : ∀ k, A.outs k) (cp : ∀ k, A.plss k) (cu : ∀ k, A.units k) (H : Kept A h0
    h) : Kept A h0 (timeMove a0 a1 a2 a3 h) := by
  unfold timeMove
  extract_lets x1_0 x1_1 x1_2 x1_3
  (try clear_value x1_0 x1_1)
  have h1_2 : Kept A h0 x1_2 := stepDomain_kept (c.of rfl) cd co cp cu H
  (try clear_value x1_2)
  have h1_3 : Kept A h0 x1_3 := .ite (Hub.onDom_kept cd h1_2) h1_2
  (try clear_value x1_3)
  exact completeWith_kept c h1_3

theorem applySetTime_kept {A : Touch} {h0 h : Hub} {a0 a1 a2} (c : A.has [.cplRings, .msix, .books, .runs, .profile,
    .shimEvt, .bus]) (cd : A.doms a0) (co : ∀ k, A.outs k) (cp : ∀ k, A.plss k) (cu : ∀ k, A.units k) (H : Kept A h0
    h) : Kept A h0 (applySetTime a0 a1 a2 h) := by
  unfold applySetTime
  extract_lets x1_0 x1_1
  (try clear_value x1_0 x1_1)
  split
  · exact timeRefused_kept c H
  · exact .ite (timeMove_kept c cd co cp cu H) (timeRefused_kept c H)
  · exact timeMove_kept c cd co cp cu H

theorem applyStepTime_kept {A : Touch} {h0 h : Hub} {a0 a1 a2} (c : A.has [.cplRings, .msix, .books, .runs, .profile,
    .shimEvt, .bus]) (cd : A.doms a0) (co : ∀ k, A.outs k) (cp : ∀ k, A.plss k) (cu : ∀ k, A.units k) (H : Kept A h0
    h) : Kept A h0 (applyStepTime a0 a1 a2 h) := by
  unfold applyStepTime
  extract_lets x1_0
  (try clear_value x1_0)
  exact .ite (timeRefused_kept c H) (.ite (timeMove_kept c cd co cp cu H) (timeRefused_kept c H))

theorem setTimeEff_kept {A : Touch} {h0 h : Hub} {a0} (c : A.has [.cplRings, .msix, .books, .runs, .profile, .shimEvt,
    .bus]) (cd : ∀ k, A.doms k) (co : ∀ k, A.outs k) (cp : ∀ k, A.plss k) (cu : ∀ k, A.units k) (H : Kept A h0 h) :
    Kept A h0 (setTimeEff a0 h) := by
  unfold setTimeEff
  extract_lets x1_0
  (try clear_value x1_0)
  exact withFin_kept c H
    (fun _ _ k2 =>
      (.ite
        (timeRefused_kept c k2)
        (.ite (.ite (Hub.onDom_kept (cd _) k2) (timeRefused_kept c k2)) (applySetTime_kept c (cd _) co cp cu k2))))

theorem setTime_kept {A : Touch} {h0 h : Hub} {a0} (c : A.has [.cplRings, .msix, .books, .hierEvt, .runs, .profile,
    .shimEvt, .bus]) (cd : ∀ k, A.doms k) (co : ∀ k, A.outs k) (cp : ∀ k, A.plss k) (cu : ∀ k, A.units k) (H : Kept A
    h0 h) : Kept A h0 (setTime a0 h) := by
  unfold setTime
  exact serve_kept c H (fun _ _ k1 => (setTimeEff_kept (c.of rfl) cd co cp cu k1))

theorem stepTimeEff_kept {A : Touch} {h0 h : Hub} {a0} (c : A.has [.cplRings, .msix, .books, .runs, .profile,
    .shimEvt, .bus]) (cd : ∀ k, A.doms k) (co : ∀ k, A.outs k) (cp : ∀ k, A.plss k) (cu : ∀ k, A.units k) (H : Kept A
    h0 h) : Kept A h0 (stepTimeEff a0 h) := by
  unfold stepTimeEff
  extract_lets x1_0
  (try clear_value x1_0)
  exact withFin_kept c H
    (fun _ _ k2 =>
      (.ite
        (timeRefused_kept c k2)
        (.ite (.ite (Hub.onDom_kept (cd _) k2) (timeRefused_kept c k2)) (applyStepTime_kept c (cd _) co cp cu k2))))

theorem stepTime_kept {A : Touch} {h0 h : Hub} {a0} (c : A.has [.cplRings, .msix, .books, .hierEvt, .runs, .profile,
    .shimEvt, .bus]) (cd : ∀ k, A.doms k) (co : ∀ k, A.outs k) (cp : ∀ k, A.plss k) (cu : ∀ k, A.units k) (H : Kept A
    h0 h) : Kept A h0 (stepTime a0 h) := by
  unfold stepTime
  exact serve_kept c H (fun _ _ k1 => (stepTimeEff_kept (c.of rfl) cd co cp cu k1))

theorem slewTimeEff_kept {A : Touch} {h0 h : Hub} {a0} (c : A.has [.cplRings, .msix, .books, .runs, .profile,
    .shimEvt, .bus]) (cd : ∀ k, A.doms k) (H : Kept A h0 h) : Kept A h0 (slewTimeEff a0 h) := by
  unfold slewTimeEff
  extract_lets x1_0 x1_1
  (try clear_value x1_0 x1_1)
  exact withFin_kept c H
    (fun _ _ k2 => by
      extract_lets x3_0 x3_1 x3_2 x3_3 x3_4
      (try clear_value x3_0 x3_1 x3_2 x3_4)
      have h3_3 : Kept A h0 x3_3 := Hub.onDom_kept (cd _) k2
      (try clear_value x3_3)
      exact .ite (complete_kept c k2) (completeWith_kept c h3_3))

theorem slewTime_kept {A : Touch} {h0 h : Hub} {a0} (c : A.has [.cplRings, .msix, .books, .hierEvt, .runs, .profile,
    .shimEvt, .bus]) (cd : ∀ k, A.doms k) (H : Kept A h0 h) : Kept A h0 (slewTime a0 h) := by
  unfold slewTime
  exact serve_kept c H (fun _ _ k1 => (slewTimeEff_kept (c.of rfl) cd k1))

theorem domainConfigEff_kept {A : Touch} {h0 h : Hub} {a0} (c : A.has [.cplRings, .msix, .books, .runs, .profile,
    .shimEvt, .bus]) (cd : ∀ k, A.doms k) (H : Kept A h0 h) : Kept A h0 (domainConfigEff a0 h) := by
  unfold domainConfigEff
  exact withFin_kept c H (fun _ _ k1 => (.ite (complete_kept c k1) (Hub.onDom_kept (cd _) k1)))

theorem domainConfig_kept {A : Touch} {h0 h : Hub} {a0} (c : A.has [.cplRings, .msix, .books, .hierEvt, .runs,
    .profile, .shimEvt, .bus]) (cd : ∀ k, A.doms k) (H : Kept A h0 h) : Kept A h0 (domainConfig a0 h) := by
  unfold domainConfig
  exact serve_kept c H (fun _ _ k1 => (domainConfigEff_kept (c.of rfl) cd k1))

theorem steerTo_kept {A : Touch} {h0 h : Hub} {a0 a1} (c : A.has [.clk, .cplRings, .msix, .books, .runs, .profile,
    .shimEvt, .collector, .fltEvt, .bus]) (cd : A.doms a0) (H : Kept A h0 h) : Kept A h0 (steerTo a0 a1 h) := by
  unfold steerTo
  exact .ite (Hub.onDom_kept cd H) (steerNow_kept c cd H)

theorem steerSetEff_kept {A : Touch} {h0 h : Hub} {a0} (c : A.has [.clk, .cplRings, .msix, .books, .runs, .profile,
    .shimEvt, .collector, .fltEvt, .bus]) (cd : ∀ k, A.doms k) (H : Kept A h0 h) : Kept A h0 (steerSetEff a0 h) := by
  unfold steerSetEff
  exact withFin_kept (c.of rfl) H (fun _ _ k1 => (.ite (complete_kept (c.of rfl) k1) (steerTo_kept c (cd _) k1)))

theorem domainSteerSet_kept {A : Touch} {h0 h : Hub} {a0} (c : A.has [.clk, .cplRings, .msix, .books, .hierEvt, .runs,
    .profile, .shimEvt, .collector, .fltEvt, .bus]) (cd : ∀ k, A.doms k) (H : Kept A h0 h) : Kept A h0 (domainSteerSet
    a0 h) := by
  unfold domainSteerSet
  exact serve_kept (c.of rfl) H (fun _ _ k1 => (steerSetEff_kept (c.of rfl) cd k1))

theorem steerAddEff_kept {A : Touch} {h0 h : Hub} {a0} (c : A.has [.clk, .cplRings, .msix, .books, .runs, .profile,
    .shimEvt, .collector, .fltEvt, .bus]) (cd : ∀ k, A.doms k) (H : Kept A h0 h) : Kept A h0 (steerAddEff a0 h) := by
  unfold steerAddEff
  exact withFin_kept (c.of rfl) H (fun _ _ k1 => (steerTo_kept c (cd _) k1))

theorem domainSteerAdd_kept {A : Touch} {h0 h : Hub} {a0} (c : A.has [.clk, .cplRings, .msix, .books, .hierEvt, .runs,
    .profile, .shimEvt, .collector, .fltEvt, .bus]) (cd : ∀ k, A.doms k) (H : Kept A h0 h) : Kept A h0 (domainSteerAdd
    a0 h) := by
  unfold domainSteerAdd
  exact serve_kept (c.of rfl) H (fun _ _ k1 => (steerAddEff_kept (c.of rfl) cd k1))

theorem steerHoTrimEff_kept {A : Touch} {h0 h : Hub} {a0} (c : A.has [.cplRings, .msix, .books, .runs, .profile,
    .shimEvt, .bus]) (cd : ∀ k, A.doms k) (H : Kept A h0 h) : Kept A h0 (steerHoTrimEff a0 h) := by
  unfold steerHoTrimEff
  exact withFin_kept c H
    (fun _ _ k2 => by
      extract_lets x3_0 x3_1
      (try clear_value x3_0 x3_1)
      exact .ite
        (complete_kept c k2)
        (.ite
          (complete_kept c k2)
          (completeWith_kept c (raiseDom_kept (c.of rfl) (cd _) (Hub.onDom_kept (cd _) k2)))))

theorem domainSteerHoTrim_kept {A : Touch} {h0 h : Hub} {a0} (c : A.has [.cplRings, .msix, .books, .hierEvt, .runs,
    .profile, .shimEvt, .bus]) (cd : ∀ k, A.doms k) (H : Kept A h0 h) : Kept A h0 (domainSteerHoTrim a0 h) := by
  unfold domainSteerHoTrim
  exact serve_kept c H (fun _ _ k1 => (steerHoTrimEff_kept (c.of rfl) cd k1))

theorem domainModeEff_kept {A : Touch} {h0 h : Hub} {a0} (c : A.has [.cplRings, .msix, .books, .runs, .profile,
    .shimEvt, .bus]) (cd : ∀ k, A.doms k) (H : Kept A h0 h) : Kept A h0 (domainModeEff a0 h) := by
  unfold domainModeEff
  exact withFin_kept c H (fun _ _ k1 => (Hub.onDom_kept (cd _) k1))

theorem domainModePolicy_kept {A : Touch} {h0 h : Hub} {a0} (c : A.has [.cplRings, .msix, .books, .hierEvt, .runs,
    .profile, .shimEvt, .bus]) (cd : ∀ k, A.doms k) (H : Kept A h0 h) : Kept A h0 (domainModePolicy a0 h) := by
  unfold domainModePolicy
  exact serve_kept c H (fun _ _ k1 => (domainModeEff_kept (c.of rfl) cd k1))

theorem domainModeRealign_kept {A : Touch} {h0 h : Hub} {a0} (c : A.has [.cplRings, .msix, .books, .hierEvt, .runs,
    .profile, .shimEvt, .bus]) (cd : ∀ k, A.doms k) (H : Kept A h0 h) : Kept A h0 (domainModeRealign a0 h) := by
  unfold domainModeRealign
  exact serve_kept c H (fun _ _ k1 => (domainModeEff_kept (c.of rfl) cd k1))

theorem domainModeClearTracked_kept {A : Touch} {h0 h : Hub} {a0} (c : A.has [.cplRings, .msix, .books, .hierEvt,
    .runs, .profile, .shimEvt, .bus]) (cd : ∀ k, A.doms k) (H : Kept A h0 h) : Kept A h0 (domainModeClearTracked a0 h)
    := by
  unfold domainModeClearTracked
  exact serve_kept c H (fun _ _ k1 => (domainModeEff_kept (c.of rfl) cd k1))

theorem domainModeClearStepped_kept {A : Touch} {h0 h : Hub} {a0} (c : A.has [.cplRings, .msix, .books, .hierEvt,
    .runs, .profile, .shimEvt, .bus]) (cd : ∀ k, A.doms k) (H : Kept A h0 h) : Kept A h0 (domainModeClearStepped a0 h)
    := by
  unfold domainModeClearStepped
  exact serve_kept c H (fun _ _ k1 => (domainModeEff_kept (c.of rfl) cd k1))

theorem applyAtMark_kept {A : Touch} {h0 h : Hub} {a0} (c : A.has [.cplRings, .msix, .books, .runs, .profile,
    .shimEvt, .bus]) (cd : A.doms a0) (co : ∀ k, A.outs k) (cp : ∀ k, A.plss k) (cu : ∀ k, A.units k) (H : Kept A h0
    h) : Kept A h0 (applyAtMark a0 h) := by
  unfold applyAtMark
  extract_lets x1_0
  (try clear_value x1_0)
  exact forEach_kept
    (Hub.onDom_kept cd H)
    (fun _ _ k2 => by
      split
      · exact k2
      · exact .ite (applySetTime_kept c cd co cp cu k2) (applyStepTime_kept c cd co cp cu k2))

theorem domainSecondMark_kept {A : Touch} {h0 h : Hub} {a0} (c : A.has [.now, .cplRings, .msix, .books, .runs,
    .profile, .shimEvt, .bus]) (cd : ∀ k, A.doms k) (co : ∀ k, A.outs k) (cp : ∀ k, A.plss k) (cu : ∀ k, A.units k) (H
    : Kept A h0 h) : Kept A h0 (domainSecondMark a0 h) := by
  unfold domainSecondMark
  exact .optN
    (reachDom_kept (c.of rfl) cd H) H
    fun _ k1 => (.ite (applyAtMark_kept (c.of rfl) (cd _) co cp cu (Hub.onDom_kept (cd _) k1)) k1)

theorem holdoverTimerExpiry_kept {A : Touch} {h0 h : Hub} {a0} (c : A.has [.msix, .counters, .collector, .fltEvt,
    .bus]) (cd : A.doms a0) (H : Kept A h0 h) : Kept A h0 (holdoverTimerExpiry a0 h) := by
  unfold holdoverTimerExpiry
  extract_lets x1_0 x1_1
  (try clear_value x1_0 x1_1)
  exact when_kept H
    (fun _ k2 => (sendFault_kept (c.of rfl) (bumpCounter_kept (c.of rfl) (enterDom_kept (c.of rfl) cd k2))))

theorem revertiveHoldoffExpiry_kept {A : Touch} {h0 h : Hub} {a0} (cd : A.doms a0) (H : Kept A h0 h) : Kept A h0
    (revertiveHoldoffExpiry a0 h) := by
  unfold revertiveHoldoffExpiry
  extract_lets x1_0 x1_1
  (try clear_value x1_0 x1_1)
  exact when_kept H (fun _ k2 => (Hub.onDom_kept cd k2))

theorem enterLink_kept {A : Touch} {h0 h : Hub} {a0 a1} (c : A.has [.msix, .hier, .bus]) (cl : A.links a0) (H : Kept A
    h0 h) : Kept A h0 (enterLink a0 a1 h) := by
  unfold enterLink
  extract_lets x1_0
  have h1_0 : Kept A h0 x1_0 := .ite H (Hub.onHier_kept (hier := .inl (c.mem rfl)) H)
  (try clear_value x1_0)
  exact raiseLnk_kept (c.of rfl) cl (Hub.onLink_kept cl h1_0)

theorem linkRise_kept {A : Touch} {h0 h : Hub} {a0} (c : A.has [.msix, .hier, .bus]) (cl : A.links a0) (H : Kept A h0
    h) : Kept A h0 (linkRise a0 h) := by
  unfold linkRise
  extract_lets x1_0
  (try clear_value x1_0)
  exact .ite (enterLink_kept c cl H) H

theorem linkStop_kept {A : Touch} {h0 h : Hub} {a0} (c : A.has [.msix, .hier, .bus]) (cl : A.links a0) (H : Kept A h0
    h) : Kept A h0 (linkStop a0 h) := by
  unfold linkStop
  exact enterLink_kept c cl (Hub.onLink_kept cl H)

theorem linkStart_kept {A : Touch} {h0 h : Hub} {a0 a1} (c : A.has [.msix, .hier, .bus, .free]) (cl : A.links a0) (H :
    Kept A h0 h) : Kept A h0 (linkStart a0 a1 h) := by
  unfold linkStart
  extract_lets x1_0 x1_1 x1_2
  (try clear_value x1_0)
  have h1_1 : Kept A h0 x1_1 := Hub.onLink_kept cl H
  (try clear_value x1_1)
  have h1_2 : Kept A h0 x1_2 :=
    .ite
      (.same
        (by
          constructor <;> first | exact .inr rfl | exact fun _ => .inr rfl | exact .inl (c.mem rfl)) h1_1 rfl rfl rfl
        (fun _ => rfl) rfl rfl) H
  (try clear_value x1_2)
  exact .ite H (linkRise_kept (c.of rfl) cl (enterLink_kept (c.of rfl) cl (Hub.onLink_kept cl h1_2)))

theorem linksOff_kept {A : Touch} {h0 h : Hub} (cl : ∀ k, A.links k) (H : Kept A h0 h) : Kept A h0 (linksOff h) := by
  unfold linksOff
  exact .same
    (by
      constructor <;> first | exact fun k => .inl (cl k) | exact .inr rfl | exact fun _ => .inr rfl) H rfl rfl rfl
    (fun _ => rfl) rfl rfl

end Sys2Proof.Machine
end

