-- ==== Sys2Proof/Laws/KeptInputs.lean ====
section
/-!
SUPPORT. What `Kept` says of tasks, event channels, interval units, references: one lemma for each effect.
-/

set_option Elab.async false

namespace Sys2Proof.Machine

theorem forgetTask_kept {A : Touch} {h0 h : Hub} {a0} (cr : ∀ k, A.refs k) (cl : ∀ k, A.links k) (cv : ∀ k, A.evTasks
    k) (H : Kept A h0 h) : Kept A h0 (forgetTask a0 h) := by
  unfold forgetTask
  split
  · exact Hub.onLink_kept (cl _) H
  · exact Hub.onRef_kept (cr _) H
  · exact .ite (Hub.onEvTask_kept (cv _) H) H
  · exact H

theorem restoreMem_kept {A : Touch} {h0 h : Hub} {a0 a1 a2} (cr : ∀ k, A.refs k) (cd : ∀ k, A.doms k) (cl : ∀ k,
    A.links k) (cv : ∀ k, A.evTasks k) (H : Kept A h0 h) : Kept A h0 (restoreMem a0 a1 a2 h) := by
  unfold restoreMem
  split
  · split
    · exact Hub.onLink_kept (cl _) H
    · exact H
  · split
    · exact Hub.onRef_kept (cr _) H
    · exact H
  · split
    · extract_lets x3_0
      have h3_0 : Kept A h0 x3_0 := Hub.onDom_kept (cd _) H
      (try clear_value x3_0)
      exact setUsers_kept cr h3_0
    · exact H
  · split
    · exact Hub.onEvTask_kept (cv _) H
    · exact H
  · exact H

theorem setMode_kept {A : Touch} {h0 h : Hub} {a0} (c : A.has [.top]) (H : Kept A h0 h) : Kept A h0 (setMode a0 h) :=
    by
  unfold setMode
  exact Hub.onTop_kept (top := .inl (c.mem rfl)) H

theorem taskFail_kept {A : Touch} {h0 h : Hub} {a0 a1 a2} (c : A.has [.msix, .collector, .fltEvt, .bus]) (cn : ∀ k,
    A.reeds k) (H : Kept A h0 h) : Kept A h0 (taskFail a0 a1 a2 h) := by
  unfold taskFail
  extract_lets x1_0 x1_1 x1_2
  (try clear_value x1_0 x1_1)
  have h1_2 : Kept A h0 x1_2 := by
    unfold x1_2
    split
    · exact Hub.onReed_kept (cn _) H
    · exact H
  (try clear_value x1_2)
  exact sendFault_kept c h1_2

theorem seat_kept {A : Touch} {h0 h : Hub} {a0 a1 a2} (ct : A.tasks a0) (cn : A.reeds a1) (H : Kept A h0 h) : Kept A
    h0 (seat a0 a1 a2 h) := by
  unfold seat
  exact Hub.onTask_kept ct (Hub.onReed_kept cn H)

theorem freeUp_kept {A : Touch} {h0 h : Hub} {a0} (cn : A.reeds a0) (H : Kept A h0 h) : Kept A h0 (freeUp a0 h) := by
  unfold freeUp
  exact Hub.onReed_kept cn H

theorem unseat_kept {A : Touch} {h0 h : Hub} {a0} (ct : A.tasks a0) (cn : ∀ k, A.reeds k) (H : Kept A h0 h) : Kept A
    h0 (unseat a0 h) := by
  unfold unseat
  split
  · exact Hub.onTask_kept ct (freeUp_kept (cn _) H)
  · exact H

theorem shed_kept {A : Touch} {h0 h : Hub} {a0} (c : A.has [.msix, .comp, .collector, .fltEvt, .bus]) (cr : ∀ k,
    A.refs k) (cl : ∀ k, A.links k) (ct : A.tasks a0) (cn : ∀ k, A.reeds k) (cv : ∀ k, A.evTasks k) (H : Kept A h0 h)
    : Kept A h0 (shed a0 h) := by
  unfold shed
  extract_lets x1_0 x1_1
  (try clear_value x1_0)
  have h1_1 : Kept A h0 x1_1 := Hub.onTask_kept ct (unseat_kept ct cn (forgetTask_kept cr cl cv H))
  (try clear_value x1_1)
  exact raiseReed_kept (c.of rfl) (taskFail_kept (c.of rfl) cn (Hub.onComp_kept (comp := .inl (c.mem rfl)) h1_1))

theorem suspend_kept {A : Touch} {h0 h : Hub} {a0} (c : A.has [.msix, .comp, .collector, .fltEvt, .bus]) (ct : A.tasks
    a0) (cn : ∀ k, A.reeds k) (H : Kept A h0 h) : Kept A h0 (suspend a0 h) := by
  unfold suspend
  extract_lets x1_0 x1_1
  (try clear_value x1_0)
  have h1_1 : Kept A h0 x1_1 := Hub.onTask_kept ct (unseat_kept ct cn H)
  (try clear_value x1_1)
  exact raiseReed_kept (c.of rfl) (taskFail_kept (c.of rfl) cn h1_1)

theorem placeTask_kept {A : Touch} {h0 h : Hub} {a0 a1} (c : A.has [.msix, .comp, .collector, .fltEvt, .bus]) (cr : ∀
    k, A.refs k) (cl : ∀ k, A.links k) (ct : ∀ k, A.tasks k) (cn : ∀ k, A.reeds k) (cv : ∀ k, A.evTasks k) (H : Kept A
    h0 h) : Kept A h0 (placeTask a0 a1 h) := by
  unfold placeTask
  extract_lets x1_0
  (try clear_value x1_0)
  split
  · exact seat_kept (ct _) (cn _) H
  · exact .ite
      (Hub.onTask_kept (ct _) H)
      (by
        split
        · split
          · exact seat_kept (ct _) (cn _) (shed_kept c cr cl (ct _) cn cv H)
          · exact suspend_kept c (ct _) cn H
        · exact suspend_kept c (ct _) cn H)

theorem createTask_kept {A : Touch} {h0 h : Hub} {a0} (c : A.has [.msix, .comp, .collector, .fltEvt, .bus]) (cr : ∀ k,
    A.refs k) (cl : ∀ k, A.links k) (ct : ∀ k, A.tasks k) (cn : ∀ k, A.reeds k) (cv : ∀ k, A.evTasks k) (H : Kept A h0
    h) : Kept A h0 (createTask a0 h) := by
  unfold createTask
  split
  · exact H
  · split
    · exact Hub.onTask_kept (ct _) (placeTask_kept c cr cl ct cn cv (Hub.onTask_kept (ct _) H))
    · exact Hub.onTask_kept (ct _) (placeTask_kept c cr cl ct cn cv (Hub.onTask_kept (ct _) H))
    · exact H
    · exact H
    · exact H
    · exact H

theorem resumeSome_kept {A : Touch} {h0 h : Hub} {k : Nat} (c : A.has [.comp, .msix, .bus]) (ct : ∀ k, A.tasks k) (cn
    : ∀ k, A.reeds k) (H : Kept A h0 h) : Kept A h0 (resumeSome k h) := by
  induction k generalizing h with
  | zero => exact H
  | succ k ih =>
    unfold resumeSome
    split
    · exact H
    · split
      · exact H
      · exact ih (raiseReed_kept (c.of rfl) (seat_kept (ct _) (cn _) H))

theorem resumeTasks_kept {A : Touch} {h0 h : Hub} (c : A.has [.msix, .comp, .bus]) (ct : ∀ k, A.tasks k) (cn : ∀ k,
    A.reeds k) (H : Kept A h0 h) : Kept A h0 (resumeTasks h) := by
  unfold resumeTasks
  exact resumeSome_kept (c.of rfl) ct cn H

theorem removeTask_kept {A : Touch} {h0 h : Hub} {a0} (c : A.has [.cplRings, .msix, .books, .runs, .comp, .profile,
    .shimEvt, .bus]) (cr : ∀ k, A.refs k) (cl : ∀ k, A.links k) (ct : ∀ k, A.tasks k) (cn : ∀ k, A.reeds k) (cv : ∀ k,
    A.evTasks k) (H : Kept A h0 h) : Kept A h0 (removeTask a0 h) := by
  unfold removeTask
  split
  · exact H
  · extract_lets x2_0 x2_1 x2_2
    (try clear_value x2_1)
    have h2_0 : Kept A h0 x2_0 := by
      unfold x2_0
      split
      · exact Hub.onReed_kept (cn _) H
      · exact H
    (try clear_value x2_0)
    have h2_2 : Kept A h0 x2_2 := completeOpt_kept (c.of rfl) (Hub.onTask_kept (ct _) h2_0)
    (try clear_value x2_2)
    exact resumeTasks_kept
      (c.of rfl) ct cn
      (Hub.onTask_kept (ct _) (unseat_kept (ct _) cn (forgetTask_kept cr cl cv h2_2)))

theorem startMove_kept {A : Touch} {h0 h : Hub} {a0 a1 a2} (ct : A.tasks a0) (cn : A.reeds a1) (H : Kept A h0 h) :
    Kept A h0 (startMove a0 a1 a2 h) := by
  unfold startMove
  exact Hub.onTask_kept ct (Hub.onReed_kept cn H)

theorem releaseCw_kept {A : Touch} {h0 h : Hub} {a0} (c : A.has [.tdc]) (ce : ∀ k, A.evts k) (cr : ∀ k, A.refs k) (H :
    Kept A h0 h) : Kept A h0 (releaseCw a0 h) := by
  refine .same ?_ H rfl rfl rfl (fun k => ?_) rfl rfl
  · constructor <;> first | exact .inr rfl | exact fun _ => .inr rfl | exact .inl (c.mem rfl) | exact fun k => .inl (ce k) | exact fun k => .inl (cr k)
  · unfold releaseCw
    simp only [Fin.getElem_fin, Vector.getElem_map]
    split <;> rfl

theorem lanesRelease_kept {A : Touch} {h0 h : Hub} (c : A.has [.tdc]) (ce : ∀ k, A.evts k) (cr : ∀ k, A.refs k) (H :
    Kept A h0 h) : Kept A h0 (lanesRelease h) := by
  unfold lanesRelease
  extract_lets x1_0
  have h1_0 : Kept A h0 x1_0 :=
    forEach_kept H
      (fun _ _ k2 => by
        split
        · exact .ite (Hub.onTdc_kept (c.mem rfl) k2) (releaseCw_kept c ce cr k2)
        · exact k2)
  (try clear_value x1_0)
  exact Hub.onTdc_kept (c.mem rfl) h1_0

theorem selftestRelease_kept {A : Touch} {h0 h : Hub} (c : A.has [.clk, .msix, .tdc, .hier, .comp, .bus, .free]) (ce :
    ∀ k, A.evts k) (cr : ∀ k, A.refs k) (cl : ∀ k, A.links k) (ct : ∀ k, A.tasks k) (cn : ∀ k, A.reeds k) (H : Kept A
    h0 h) : Kept A h0 (selftestRelease h) := by
  unfold selftestRelease
  extract_lets x1_0 x1_1 x1_2 x1_3
  (try clear_value x1_0)
  have h1_1 : Kept A h0 x1_1 := Hub.onComp_kept (reeds := fun k => .inl (cn k)) H
  (try clear_value x1_1)
  have h1_2 : Kept A h0 x1_2 :=
    .ite (Hub.onClk_kept (clk := .inl (c.mem rfl)) h1_1) (.ite (Hub.onClk_kept (clk := .inl (c.mem rfl)) h1_1) h1_1)
  (try clear_value x1_2)
  have h1_3 : Kept A h0 x1_3 := resumeTasks_kept (c.of rfl) ct cn (lanesRelease_kept (c.of rfl) ce cr h1_2)
  (try clear_value x1_3)
  exact forEach_kept h1_3 (fun _ _ k2 => (.ite (linkStart_kept (c.of rfl) (cl _) (Hub.onLink_kept (cl _) k2)) k2))

theorem selftestEnd_kept {A : Touch} {h0 h : Hub} {a0} (c : A.has [.clk, .cplRings, .msix, .books, .tdc, .hier, .runs,
    .comp, .profile, .shimEvt, .flt, .bus, .free]) (ce : ∀ k, A.evts k) (cr : ∀ k, A.refs k) (cl : ∀ k, A.links k) (ct
    : ∀ k, A.tasks k) (cn : ∀ k, A.reeds k) (H : Kept A h0 h) : Kept A h0 (selftestEnd a0 h) := by
  unfold selftestEnd
  split
  · exact H
  · have h1 := selftestRelease_kept (c.of rfl) ce cr cl ct cn H
    generalize selftestRelease h = x at h1
    exact complete_kept (c.of rfl) (Hub.onFlt_kept (flt := .inl (c.mem rfl)) h1)

theorem enterRecovery_kept {A : Touch} {h0 h : Hub} (c : A.has [.top, .clk, .cplRings, .msix, .books, .tdc, .hier,
    .runs, .comp, .profile, .shimEvt, .flt, .bus, .free]) (ce : ∀ k, A.evts k) (cr : ∀ k, A.refs k) (cl : ∀ k, A.links
    k) (ct : ∀ k, A.tasks k) (cn : ∀ k, A.reeds k) (H : Kept A h0 h) : Kept A h0 (enterRecovery h) := by
  unfold enterRecovery
  split
  · exact Hub.onTop_kept
      (top := .inl (c.mem rfl))
      (setMode_kept (c.of rfl) (.ite (selftestEnd_kept (c.of rfl) ce cr cl ct cn H) H))
  · exact Hub.onTop_kept
      (top := .inl (c.mem rfl))
      (setMode_kept (c.of rfl) (.ite (selftestEnd_kept (c.of rfl) ce cr cl ct cn H) H))
  · exact Hub.onTop_kept (top := .inl (c.mem rfl)) H
  · exact H
  · exact H
  · exact H
  · exact H
  · exact H

theorem moveFails_kept {A : Touch} {h0 h : Hub} {a0} (c : A.has [.top, .clk, .cplRings, .msix, .books, .tdc, .hier,
    .runs, .comp, .profile, .shimEvt, .flt, .bus, .free]) (ce : ∀ k, A.evts k) (cr : ∀ k, A.refs k) (cl : ∀ k, A.links
    k) (ct : ∀ k, A.tasks k) (cn : ∀ k, A.reeds k) (H : Kept A h0 h) : Kept A h0 (moveFails a0 h) := by
  unfold moveFails
  extract_lets x1_0 x1_1 x1_2 x1_3 x1_4
  (try clear_value x1_0 x1_1)
  have h1_2 : Kept A h0 x1_2 := Hub.onTask_kept (ct _) H
  (try clear_value x1_2)
  have h1_3 : Kept A h0 x1_3 := completeOpt_kept (c.of rfl) h1_2
  (try clear_value x1_3)
  have h1_4 : Kept A h0 x1_4 := selftestEnd_kept (c.of rfl) ce cr cl ct cn h1_3
  (try clear_value x1_4)
  exact .ite (.ite (setMode_kept (c.of rfl) h1_4) h1_4) h1_3

theorem countTakeover_kept {A : Touch} {h0 h : Hub} (c : A.has [.top, .clk, .cplRings, .msix, .books, .tdc, .hier,
    .runs, .comp, .counters, .profile, .shimEvt, .flt, .bus, .free]) (ce : ∀ k, A.evts k) (cr : ∀ k, A.refs k) (cl : ∀
    k, A.links k) (ct : ∀ k, A.tasks k) (cn : ∀ k, A.reeds k) (H : Kept A h0 h) : Kept A h0 (countTakeover h) := by
  unfold countTakeover
  extract_lets x1_0 x1_1 x1_2 x1_3
  (try clear_value x1_0 x1_2)
  have h1_1 : Kept A h0 x1_1 :=
    raiseReed_kept (c.of rfl) (bumpCounter_kept (c.of rfl) (Hub.onComp_kept (comp := .inl (c.mem rfl)) H))
  (try clear_value x1_1)
  have h1_3 : Kept A h0 x1_3 := .ite (raiseReed_kept (c.of rfl) h1_1) h1_1
  (try clear_value x1_3)
  exact .ite (enterRecovery_kept (c.of rfl) ce cr cl ct cn h1_3) h1_3

theorem reedFault_kept {A : Touch} {h0 h : Hub} {a0 a1} (c : A.has [.top, .clk, .cplRings, .msix, .books, .tdc, .hier,
    .runs, .comp, .counters, .profile, .shimEvt, .collector, .fltEvt, .flt, .bus, .free]) (ce : ∀ k, A.evts k) (cr : ∀
    k, A.refs k) (cl : ∀ k, A.links k) (ct : ∀ k, A.tasks k) (cn : ∀ k, A.reeds k) (H : Kept A h0 h) : Kept A h0
    (reedFault a0 a1 h) := by
  unfold reedFault
  extract_lets x1_0 x1_1 x1_2 x1_3
  (try clear_value x1_0)
  have h1_1 : Kept A h0 x1_1 := taskFail_kept (c.of rfl) cn H
  (try clear_value x1_1)
  have h1_2 : Kept A h0 x1_2 := Hub.onReed_kept (cn _) h1_1
  (try clear_value x1_2)
  have h1_3 : Kept A h0 x1_3 := .ite h1_2 (raiseReed_kept (c.of rfl) h1_2)
  (try clear_value x1_3)
  split
  · exact h1_3
  · extract_lets x2_0 x2_1
    have h2_0 : Kept A h0 x2_0 := by
      unfold x2_0
      split
      · exact Hub.onTask_kept (ct _) (Hub.onReed_kept (cn _) h1_3)
      · exact h1_3
    (try clear_value x2_0)
    have h2_1 : Kept A h0 x2_1 := Hub.onTask_kept (ct _) h2_0
    (try clear_value x2_1)
    exact .ite
      (moveFails_kept (c.of rfl) ce cr cl ct cn h1_3)
      (by
        split
        · exact countTakeover_kept (c.of rfl) ce cr cl ct cn (seat_kept (ct _) (cn _) h2_1)
        · exact raiseReed_kept (c.of rfl) (taskFail_kept (c.of rfl) cn (Hub.onTask_kept (ct _) h2_1)))

theorem laneTake_kept {A : Touch} {h0 h : Hub} {a0 a1} (c : A.has [.tdc]) (H : Kept A h0 h) : Kept A h0 (laneTake a0
    a1 h) := by
  unfold laneTake
  exact Hub.onTdc_kept (c.mem rfl) H

theorem refDone_kept {A : Touch} {h0 h : Hub} {a0 a1} (c : A.has [.cplRings, .msix, .books, .runs, .profile, .shimEvt,
    .bus]) (H : Kept A h0 h) : Kept A h0 (refDone a0 a1 h) := by
  unfold refDone
  exact forEach_kept H
    (fun _ _ k2 => by
      extract_lets x3_0
      (try clear_value x3_0)
      exact .ite k2 (complete_kept c k2))

theorem onTest_kept {A : Touch} {h0 h : Hub} {a0 a1} (c : A.has [.tdc]) (H : Kept A h0 h) : Kept A h0 (onTest a0 a1 h)
    := by
  unfold onTest
  exact Hub.onTdc_kept (c.mem rfl) H

theorem cwPhase_kept {A : Touch} {h0 h : Hub} {a0 a1} (c : A.has [.tdc]) (H : Kept A h0 h) : Kept A h0 (cwPhase a0 a1
    h) := by
  unfold cwPhase
  exact Hub.onTdc_kept (c.mem rfl) H

theorem handOver_kept {A : Touch} {h0 h : Hub} {a0 a1} (ce : ∀ k, A.evts k) (cr : ∀ k, A.refs k) (H : Kept A h0 h) :
    Kept A h0 (handOver a0 a1 h) := by
  unfold handOver
  extract_lets x1_0
  have h1_0 : Kept A h0 x1_0 := by
    unfold x1_0
    split
    · exact Hub.onEvt_kept (ce _) H
    · exact H
  (try clear_value x1_0)
  split
  · exact Hub.onRef_kept (cr _) h1_0
  · exact h1_0

theorem beginVerify_kept {A : Touch} {h0 h : Hub} {a0} (c : A.has [.tdc]) (H : Kept A h0 h) : Kept A h0 (beginVerify
    a0 h) := by
  unfold beginVerify
  exact onTest_kept c H

theorem endOverlap_kept {A : Touch} {h0 h : Hub} {a0 a1} (c : A.has [.msix, .tdc, .bus]) (ce : ∀ k, A.evts k) (cr : ∀
    k, A.refs k) (H : Kept A h0 h) : Kept A h0 (endOverlap a0 a1 h) := by
  unfold endOverlap
  extract_lets x1_0 x1_1
  (try clear_value x1_0)
  have h1_1 : ∀ x, Kept A h0 x → Kept A h0 (x1_1 x) := (fun _ h1_1 => (onTest_kept (c.of rfl) h1_1))
  exact .ite
    (.ite
      (raiseTdc_kept c (releaseCw_kept (c.of rfl) ce cr (h1_1 _ H)))
      (beginVerify_kept (c.of rfl) (cwPhase_kept (c.of rfl) (handOver_kept ce cr H))))
    (.ite
      (raiseTdc_kept c (cwPhase_kept (c.of rfl) (h1_1 _ H)))
      (raiseTdc_kept c (releaseCw_kept (c.of rfl) ce cr (h1_1 _ H))))

theorem notePair_kept {A : Touch} {h0 h : Hub} {a0 a1} (c : A.has [.msix, .tdc, .bus]) (ce : ∀ k, A.evts k) (cr : ∀ k,
    A.refs k) (H : Kept A h0 h) : Kept A h0 (notePair a0 a1 h) := by
  unfold notePair
  extract_lets x1_0 x1_1
  (try clear_value x1_0 x1_1)
  split
  · split
    · exact H
    · extract_lets x3_0 x3_1 x3_2
      (try clear_value x3_0 x3_1)
      have h3_2 : Kept A h0 x3_2 := onTest_kept (c.of rfl) H
      (try clear_value x3_2)
      exact .ite (.ite (endOverlap_kept c ce cr h3_2) h3_2) H
  · exact H

theorem laneTick_kept {A : Touch} {h0 h : Hub} {a0} (c : A.has [.msix, .tdc, .bus]) (ce : ∀ k, A.evts k) (cr : ∀ k,
    A.refs k) (H : Kept A h0 h) : Kept A h0 (laneTick a0 h) := by
  unfold laneTick
  extract_lets x1_0 x1_1
  (try clear_value x1_0 x1_1)
  split
  · exact .ite (endOverlap_kept c ce cr H) (.ite (cwPhase_kept (c.of rfl) (onTest_kept (c.of rfl) H)) H)
  · exact .ite (raiseTdc_kept c (onTest_kept (c.of rfl) H)) H

theorem laneTicks_kept {A : Touch} {h0 h : Hub} (c : A.has [.msix, .tdc, .bus]) (ce : ∀ k, A.evts k) (cr : ∀ k, A.refs
    k) (H : Kept A h0 h) : Kept A h0 (laneTicks h) := by
  unfold laneTicks
  exact forEach_kept H (fun _ _ k1 => (laneTick_kept c ce cr k1))

theorem eventConfigEff_kept {A : Touch} {h0 h : Hub} {a0} (c : A.has [.parity, .cplRings, .msix, .books, .runs,
    .profile, .shimEvt, .bus]) (ce : ∀ k, A.evts k) (H : Kept A h0 h) : Kept A h0 (eventConfigEff a0 h) := by
  unfold eventConfigEff
  extract_lets x1_0 x1_1
  (try clear_value x1_0 x1_1)
  exact withFin_kept
    (c.of rfl) H
    (fun _ _ k2 => by
      extract_lets x3_0 x3_1 x3_2
      (try clear_value x3_0 x3_2)
      have h3_1 : Kept A h0 x3_1 := copyWritten_kept (c.of rfl) (Hub.onEvt_kept (ce _) k2)
      (try clear_value x3_1)
      exact .ite
        (complete_kept (c.of rfl) k2)
        (.ite (Hub.onEvt_kept (ce _) h3_1) (.ite (Hub.onEvt_kept (ce _) h3_1) (complete_kept (c.of rfl) h3_1))))

theorem eventConfig_kept {A : Touch} {h0 h : Hub} {a0} (c : A.has [.parity, .cplRings, .msix, .books, .hierEvt, .runs,
    .profile, .shimEvt, .bus]) (ce : ∀ k, A.evts k) (H : Kept A h0 h) : Kept A h0 (eventConfig a0 h) := by
  unfold eventConfig
  exact serve_kept (c.of rfl) H (fun _ _ k1 => (eventConfigEff_kept (c.of rfl) ce k1))

theorem copyToTasks_kept {A : Touch} {h0 h : Hub} {a0 a1} (cv : ∀ k, A.evTasks k) (H : Kept A h0 h) : Kept A h0
    (copyToTasks a0 a1 h) := by
  unfold copyToTasks
  exact Hub.onComp_kept (evTasks := fun k => .inl (cv k)) H

theorem raiseEvt_queue {n k : Fin 64} {b : BitVec 16} {h : Hub} : (raiseEvt n b h).evts[k].queue = h.evts[k].queue :=
    by
  have irq : ∀ (c : Bool) (s : Nat) (x : Hub), (irqIf c s x).evts = x.evts := by
    intro c s x
    unfold irqIf raiseIrq
    split
    · split
      · split
        · unfold sendMsix; dsimp only; split <;> rfl
        · rfl
      · rfl
    · rfl
  simp only [raiseEvt, irq, Hub.onEvt_evts, Fin.getElem_fin, upd_get]
  split <;> rfl

/-- A full queue takes no record (R84). -/
theorem pushRecord_kept {A : Touch} {h0 h : Hub} {a0 : Fin 64} {r : BitVec 128} {w : Nat} (c : A.has [.msix, .tdc,
    .bus]) (ce : A.evts a0) (cv : ∀ k, A.evTasks k) (H : Kept A h0 h) : Kept A h0 (pushRecord a0 r w h) := by
  have put : ∀ (x : Hub) (r : BitVec 128), Kept A h0 x → x.evts[a0].queue = h.evts[a0].queue → ¬4096 ≤ h.evts[a0].queue.length →
      Kept A h0 (x.onEvt a0 fun c => { c with queue := c.queue ++ [r], lostRun := 0 }) := by
    intro x r hx hq hlt
    refine ⟨hx.only.trans (by constructor <;> first | exact upd_ne ce | exact .inr rfl | exact fun _ => .inr rfl), hx.mem, hx.flt,
      fun ok k => ?_, hx.ids⟩
    rw [Hub.onEvt_evts, Fin.getElem_fin, upd_get]
    split
    · rename_i e
      subst e
      simp only [Fin.getElem_fin] at hq hlt
      simp only [List.length_append, hq, List.length_cons, List.length_nil]; omega
    · exact hx.evts ok k
  unfold pushRecord
  extract_lets ch stale x1 r2 x3
  have hx : x1.evts[a0].queue = h.evts[a0].queue := by
    unfold x1; split
    · exact raiseEvt_queue
    · rfl
  have h1 : Kept A h0 x1 := .ite (raiseEvt_kept (c.of rfl) ce H) H
  split
  · exact raiseEvt_kept (c.of rfl) ce (Hub.onEvt_kept ce h1)
  · rename_i hlt
    have h3 : Kept A h0 x3 := copyToTasks_kept cv (Hub.onTdc_kept (c.mem rfl) (put x1 r2 h1 hx hlt))
    exact .ite (raiseTdc_kept c h3) h3

theorem acceptEdge_kept {A : Touch} {h0 h : Hub} {a0 a1 a2 a3} (c : A.has [.msix, .tdc, .bus]) (ce : A.evts a0) (cv :
    ∀ k, A.evTasks k) (H : Kept A h0 h) : Kept A h0 (acceptEdge a0 a1 a2 a3 h) := by
  unfold acceptEdge
  extract_lets x1_0 x1_1 x1_2 x1_3 x1_4 x1_5
  (try clear_value x1_0 x1_1 x1_2 x1_4)
  have h1_3 : Kept A h0 x1_3 := Hub.onEvt_kept ce H
  (try clear_value x1_3)
  have h1_5 : Kept A h0 x1_5 := Hub.onEvt_kept ce h1_3
  (try clear_value x1_5)
  exact .ite
    (raiseEvt_kept (c.of rfl) ce (Hub.onEvt_kept ce h1_3))
    (.ite (Hub.onEvt_kept ce h1_5) (pushRecord_kept c ce cv h1_5))

theorem eventEdge_kept {A : Touch} {h0 h : Hub} {a0 a1 a2} (c : A.has [.now, .msix, .tdc, .bus]) (ce : ∀ k, A.evts k)
    (cr : ∀ k, A.refs k) (cd : ∀ k, A.doms k) (cv : ∀ k, A.evTasks k) (H : Kept A h0 h) : Kept A h0 (eventEdge a0 a1
    a2 h) := by
  unfold eventEdge
  extract_lets x1_0 x1_1 x1_2 x1_3
  (try clear_value x1_1 x1_2 x1_3)
  have h1_0 : Kept A h0 x1_0 := advanceTo_kept (c.of rfl) cd H
  (try clear_value x1_0)
  exact .ite
    (.ite
      (Hub.onEvt_kept (ce _) h1_0)
      (notePair_kept (c.of rfl) ce cr (acceptEdge_kept (c.of rfl) (ce _) cv (laneTake_kept (c.of rfl) h1_0)))) h1_0

theorem eventWidthEnd_kept {A : Touch} {h0 h : Hub} {a0 a1} (c : A.has [.cplRings, .msix, .books, .tdc, .runs,
    .profile, .shimEvt, .bus]) (ce : A.evts a0) (cv : ∀ k, A.evTasks k) (H : Kept A h0 h) : Kept A h0 (eventWidthEnd
    a0 a1 h) := by
  unfold eventWidthEnd
  extract_lets x1_0
  (try clear_value x1_0)
  split
  · exact H
  · extract_lets x2_0
    have h2_0 : Kept A h0 x2_0 := pushRecord_kept (c.of rfl) ce cv (Hub.onEvt_kept ce H)
    (try clear_value x2_0)
    exact .ite (forEach_kept h2_0 (fun _ _ k3 => (complete_kept (c.of rfl) k3))) H

theorem streamRecordDma_kept {A : Touch} {h0 h : Hub} {a0 a1} (c : A.has [.strRings, .msix, .tdc, .bus]) (ce : A.evts
    a0) (H : Kept A h0 h) : Kept A h0 (streamRecordDma a0 a1 h) := by
  unfold streamRecordDma
  extract_lets ch r k x1 x2 x3
  have h1 : Kept A h0 x1 := Hub.onEvt_kept ce H (hf := fun c hc => by simp only [List.length_drop]; omega)
  have h2 : Kept A h0 x2 := ringPost_kept (c.of rfl) (c.mem rfl) h1
  have h3 : Kept A h0 x3 := Hub.onTdc_kept (c.mem rfl) h2
  exact .ite (.ite (raiseEvt_kept (c.of rfl) ce (Hub.onEvt_kept ce h3)) h3) H

theorem frontEndBlankEnd_kept {A : Touch} {h0 h : Hub} {a0} (c : A.has [.now, .cplRings, .msix, .books, .runs,
    .profile, .shimEvt, .bus]) (ce : ∀ k, A.evts k) (cr : ∀ k, A.refs k) (cd : ∀ k, A.doms k) (H : Kept A h0 h) : Kept
    A h0 (frontEndBlankEnd a0 h) := by
  unfold frontEndBlankEnd
  split
  · exact when_kept H
      (fun _ k3 =>
        (atCyc_kept
          (c.of rfl) cd k3
          (fun _ k5 => by
            extract_lets x6_0
            (try clear_value x6_0)
            exact forEach_kept (Hub.onEvt_kept (ce _) k5) (fun _ _ k7 => (complete_kept (c.of rfl) k7)))))
  · extract_lets x8_0
    (try clear_value x8_0)
    exact when_kept H
      (fun _ k9 =>
        (atCyc_kept
          (c.of rfl) cd k9
          (fun _ k11 => by
            extract_lets x12_0
            (try clear_value x12_0)
            exact refDone_kept (c.of rfl) (Hub.onRef_kept (cr _) k11))))

theorem intervalStartEff_kept {A : Touch} {h0 h : Hub} {a0} (c : A.has [.parity, .cplRings, .msix, .books, .runs,
    .profile, .shimEvt, .bus]) (ci : ∀ k, A.ivus k) (H : Kept A h0 h) : Kept A h0 (intervalStartEff a0 h) := by
  unfold intervalStartEff
  extract_lets x1_0 x1_1
  (try clear_value x1_0 x1_1)
  exact .ite
    (complete_kept (c.of rfl) H)
    (by
      split
      · exact complete_kept (c.of rfl) H
      · exact Hub.onIvu_kept (ci _) (copyWritten_kept (c.of rfl) H))

theorem intervalStartSingle_kept {A : Touch} {h0 h : Hub} {a0} (c : A.has [.parity, .cplRings, .msix, .books,
    .hierEvt, .runs, .profile, .shimEvt, .bus]) (ci : ∀ k, A.ivus k) (H : Kept A h0 h) : Kept A h0
    (intervalStartSingle a0 h) := by
  unfold intervalStartSingle
  exact serve_kept (c.of rfl) H (fun _ _ k1 => (intervalStartEff_kept (c.of rfl) ci k1))

theorem intervalStartRepeat_kept {A : Touch} {h0 h : Hub} {a0} (c : A.has [.parity, .cplRings, .msix, .books,
    .hierEvt, .runs, .profile, .shimEvt, .bus]) (ci : ∀ k, A.ivus k) (H : Kept A h0 h) : Kept A h0
    (intervalStartRepeat a0 h) := by
  unfold intervalStartRepeat
  exact serve_kept (c.of rfl) H (fun _ _ k1 => (intervalStartEff_kept (c.of rfl) ci k1))

theorem ivuEnd_kept {A : Touch} {h0 h : Hub} {a0 a1 a2} (c : A.has [.cplRings, .msix, .books, .runs, .profile,
    .shimEvt, .bus]) (ci : A.ivus a0) (H : Kept A h0 h) : Kept A h0 (ivuEnd a0 a1 a2 h) := by
  unfold ivuEnd
  extract_lets x1_0 x1_1 x1_2
  (try clear_value x1_0)
  have h1_1 : Kept A h0 x1_1 := raiseIvu_kept (c.of rfl) ci (Hub.onIvu_kept ci H)
  (try clear_value x1_1)
  have h1_2 : Kept A h0 x1_2 := Hub.onIvu_kept ci h1_1
  (try clear_value x1_2)
  exact .ite
    (by
      split
      · exact completeWith_kept c h1_2
      · exact h1_2)
    (Hub.onIvu_kept ci h1_1)

theorem intervalAbortEff_kept {A : Touch} {h0 h : Hub} {a0} (c : A.has [.cplRings, .msix, .books, .runs, .profile,
    .shimEvt, .bus]) (ci : ∀ k, A.ivus k) (H : Kept A h0 h) : Kept A h0 (intervalAbortEff a0 h) := by
  unfold intervalAbortEff
  exact withFin_kept c H
    (fun _ _ k1 =>
      (.ite (complete_kept c k1) (complete_kept c (raiseIvu_kept (c.of rfl) (ci _) (ivuEnd_kept c (ci _) k1)))))

theorem intervalStartAbort_kept {A : Touch} {h0 h : Hub} {a0} (c : A.has [.cplRings, .msix, .books, .hierEvt, .runs,
    .profile, .shimEvt, .bus]) (ci : ∀ k, A.ivus k) (H : Kept A h0 h) : Kept A h0 (intervalStartAbort a0 h) := by
  unfold intervalStartAbort
  exact serve_kept c H (fun _ _ k1 => (intervalAbortEff_kept (c.of rfl) ci k1))

theorem useLane_kept {A : Touch} {h0 h : Hub} {a0 a1} (c : A.has [.msix, .tdc, .bus]) (ce : ∀ k, A.evts k) (cr : ∀ k,
    A.refs k) (H : Kept A h0 h) : Kept A h0 (useLane a0 a1 h) := by
  unfold useLane
  exact notePair_kept c ce cr (laneTake_kept (c.of rfl) H)

theorem ivuOpens_kept {A : Touch} {h0 h : Hub} {a0 a1 a2} (ci : A.ivus a0) (H : Kept A h0 h) : Kept A h0 (ivuOpens a0
    a1 a2 h) := by
  unfold ivuOpens
  exact Hub.onIvu_kept ci H

theorem ivuStartEdge_kept {A : Touch} {h0 h : Hub} {a0 a1 a2} (c : A.has [.now, .msix, .tdc, .bus]) (ce : ∀ k, A.evts
    k) (ci : A.ivus a0) (cr : ∀ k, A.refs k) (cd : ∀ k, A.doms k) (H : Kept A h0 h) : Kept A h0 (ivuStartEdge a0 a1 a2
    h) := by
  unfold ivuStartEdge
  extract_lets x1_0 x1_1 x1_2 x1_3
  (try clear_value x1_1 x1_2 x1_3)
  have h1_0 : Kept A h0 x1_0 := advanceTo_kept (c.of rfl) cd H
  (try clear_value x1_0)
  exact .ite
    (.ite
      (by
        split
        · exact ivuOpens_kept ci h1_0
        · exact h1_0)
      (by
        split
        · exact useLane_kept (c.of rfl) ce cr (.ite (ivuOpens_kept ci h1_0) h1_0)
        · exact h1_0)) h1_0

theorem ivuMeasured_kept {A : Touch} {h0 h : Hub} {a0 a1 a2} (c : A.has [.cplRings, .msix, .books, .runs, .profile,
    .shimEvt, .bus]) (ci : A.ivus a0) (H : Kept A h0 h) : Kept A h0 (ivuMeasured a0 a1 a2 h) := by
  unfold ivuMeasured
  extract_lets x1_0 x1_1 x1_2 x1_3 x1_4
  (try clear_value x1_0 x1_3 x1_4)
  have h1_1 : Kept A h0 x1_1 := Hub.onIvu_kept ci H
  (try clear_value x1_1)
  have h1_2 : Kept A h0 x1_2 := .ite (raiseIvu_kept (c.of rfl) ci h1_1) h1_1
  (try clear_value x1_2)
  exact .ite (.ite (Hub.onIvu_kept ci h1_2) (ivuEnd_kept c ci h1_2)) (ivuEnd_kept c ci h1_2)

theorem ivuStops_kept {A : Touch} {h0 h : Hub} {a0 a1 a2} (c : A.has [.cplRings, .msix, .books, .runs, .profile,
    .shimEvt, .bus]) (ci : A.ivus a0) (H : Kept A h0 h) : Kept A h0 (ivuStops a0 a1 a2 h) := by
  unfold ivuStops
  extract_lets x1_0 x1_1
  (try clear_value x1_0 x1_1)
  exact .ite H (.ite (Hub.onIvu_kept ci H) (.ite (ivuMeasured_kept c ci H) H))

theorem ivuStopEdge_kept {A : Touch} {h0 h : Hub} {a0 a1 a2} (c : A.has [.now, .cplRings, .msix, .books, .tdc, .runs,
    .profile, .shimEvt, .bus]) (ce : ∀ k, A.evts k) (ci : A.ivus a0) (cr : ∀ k, A.refs k) (cd : ∀ k, A.doms k) (H :
    Kept A h0 h) : Kept A h0 (ivuStopEdge a0 a1 a2 h) := by
  unfold ivuStopEdge
  extract_lets x1_0 x1_1 x1_2 x1_3
  (try clear_value x1_1 x1_2 x1_3)
  have h1_0 : Kept A h0 x1_0 := advanceTo_kept (c.of rfl) cd H
  (try clear_value x1_0)
  exact .ite
    (by
      split
      · exact useLane_kept (c.of rfl) ce cr (.ite (ivuStops_kept (c.of rfl) ci h1_0) h1_0)
      · exact h1_0) h1_0

theorem ivuWindowTimeout_kept {A : Touch} {h0 h : Hub} {a0} (c : A.has [.now, .cplRings, .msix, .books, .runs,
    .profile, .shimEvt, .bus]) (ci : A.ivus a0) (cd : ∀ k, A.doms k) (H : Kept A h0 h) : Kept A h0 (ivuWindowTimeout
    a0 h) := by
  unfold ivuWindowTimeout
  extract_lets x1_0
  (try clear_value x1_0)
  exact .ite (.optS (reachDom_kept (c.of rfl) cd H) (fun _ k2 => (ivuMeasured_kept (c.of rfl) ci k2)) H) H

theorem ivuStartWaitExpired_kept {A : Touch} {h0 h : Hub} {a0} (c : A.has [.now, .cplRings, .msix, .books, .runs,
    .profile, .shimEvt, .bus]) (ci : A.ivus a0) (cd : ∀ k, A.doms k) (H : Kept A h0 h) : Kept A h0
    (ivuStartWaitExpired a0 h) := by
  unfold ivuStartWaitExpired
  extract_lets x1_0
  (try clear_value x1_0)
  exact when_kept H
    (fun _ k2 =>
      (atCyc_kept
        (c.of rfl) cd k2
        (fun _ k4 => by
          extract_lets x5_0
          have h5_0 : Kept A h0 x5_0 := Hub.onIvu_kept ci k4
          (try clear_value x5_0)
          exact ivuEnd_kept (c.of rfl) ci h5_0)))

theorem sendOn_kept {A : Touch} {h0 h : Hub} {a0 a1 a2 a3} (cl : A.links a0) (H : Kept A h0 h) : Kept A h0 (sendOn a0
    a1 a2 a3 h) := by
  unfold sendOn
  exact .ite (Hub.onLink_kept cl H) H

theorem dropMsg_kept {A : Touch} {h0 h : Hub} (c : A.has [.hier]) (H : Kept A h0 h) : Kept A h0 (dropMsg h) := by
  unfold dropMsg
  exact Hub.onHier_kept (hier := .inl (c.mem rfl)) H

theorem markSeen_kept {A : Touch} {h0 h : Hub} {a0 a1} (c : A.has [.hier]) (H : Kept A h0 h) : Kept A h0 (markSeen a0
    a1 h) := by
  unfold markSeen
  exact Hub.onHier_kept (hier := .inl (c.mem rfl)) H

theorem originate_kept {A : Touch} {h0 h : Hub} {a0 a1 a2} (c : A.has [.hier]) (cl : ∀ k, A.links k) (H : Kept A h0 h)
    : Kept A h0 (originate a0 a1 a2 h) := by
  unfold originate
  extract_lets x1_0 x1_1 x1_2
  (try clear_value x1_0 x1_1)
  have h1_2 : Kept A h0 x1_2 := markSeen_kept c (Hub.onHier_kept (hier := .inl (c.mem rfl)) H)
  (try clear_value x1_2)
  exact .ite
    (forEach_kept h1_2 (fun _ _ k2 => (sendOn_kept (cl _) k2)))
    (by
      split
      · exact sendOn_kept (cl _) h1_2
      · exact dropMsg_kept c h1_2)

theorem takeMessage_kept {A : Touch} {h0 h : Hub} {a0 a1 a2 a3} (c : A.has [.hier]) (cl : ∀ k, A.links k) (H : Kept A
    h0 h) : Kept A h0 (takeMessage a0 a1 a2 a3 h) := by
  unfold takeMessage
  extract_lets x1_0 x1_1 x1_2
  have h1_0 : Kept A h0 x1_0 := .ite H (Hub.onHier_kept (hier := .inl (c.mem rfl)) H)
  (try clear_value x1_0)
  have h1_1 : ∀ x, Kept A h0 x → Kept A h0 (x1_1 x) :=
    (fun _ h1_1 => (Hub.onHier_kept (hier := .inl (c.mem rfl)) h1_1))
  have h1_2 : Kept A h0 x1_2 := h1_1 _ (markSeen_kept c h1_0)
  (try clear_value x1_2)
  exact .ite
    (dropMsg_kept c h1_0)
    (.ite
      (.ite h1_0 (.ite h1_2 (forEach_kept h1_2 (fun _ _ k2 => (sendOn_kept (cl _) k2)))))
      (.ite
        (h1_1 _ h1_0)
        (by
          split
          · exact .ite (dropMsg_kept c h1_0) (sendOn_kept (cl _) h1_0)
          · exact dropMsg_kept c h1_0)))

theorem enterSlot_kept {A : Touch} {h0 h : Hub} {a0 a1 a2} (c : A.has [.msix, .bus]) (cr : A.refs a0) (H : Kept A h0
    h) : Kept A h0 (enterSlot a0 a1 a2 h) := by
  unfold enterSlot
  exact raiseRef_kept c cr (Hub.onRef_kept cr H)

theorem freezeUsers_kept {A : Touch} {h0 h : Hub} {a0} (cd : ∀ k, A.doms k) (H : Kept A h0 h) : Kept A h0 (freezeUsers
    a0 h) := by
  unfold freezeUsers
  exact .same
    (by
      constructor <;> first | exact fun k => .inl (cd k) | exact .inr rfl | exact fun _ => .inr rfl) H rfl rfl rfl
    (fun _ => rfl) rfl rfl

theorem slewUsers_kept {A : Touch} {h0 h : Hub} {a0 a1} (cd : ∀ k, A.doms k) (H : Kept A h0 h) : Kept A h0 (slewUsers
    a0 a1 h) := by
  unfold slewUsers
  exact .same
    (by
      constructor <;> first | exact fun k => .inl (cd k) | exact .inr rfl | exact fun _ => .inr rfl) H rfl rfl rfl
    (fun _ => rfl) rfl rfl

theorem applyDelay_kept {A : Touch} {h0 h : Hub} {a0} (c : A.has [.cplRings, .msix, .books, .runs, .profile, .shimEvt,
    .bus]) (cr : A.refs a0) (cd : ∀ k, A.doms k) (H : Kept A h0 h) : Kept A h0 (applyDelay a0 h) := by
  unfold applyDelay
  extract_lets x1_0 x1_1 x1_2 x1_3 x1_4 x1_5
  (try clear_value x1_0 x1_1 x1_2 x1_3)
  have h1_4 : Kept A h0 x1_4 := Hub.onRef_kept cr H
  (try clear_value x1_4)
  have h1_5 : Kept A h0 x1_5 := .ite h1_4 (slewUsers_kept cd h1_4)
  (try clear_value x1_5)
  exact refDone_kept c h1_5

theorem applyLimits_kept {A : Touch} {h0 h : Hub} {a0} (c : A.has [.cplRings, .msix, .books, .runs, .profile,
    .shimEvt, .bus]) (cr : A.refs a0) (H : Kept A h0 h) : Kept A h0 (applyLimits a0 h) := by
  unfold applyLimits
  extract_lets x1_0
  (try clear_value x1_0)
  exact refDone_kept c (Hub.onRef_kept cr H)

theorem toAbsent_kept {A : Touch} {h0 h : Hub} {a0 a1} (c : A.has [.cplRings, .msix, .books, .runs, .profile,
    .shimEvt, .bus]) (cr : A.refs a0) (cd : ∀ k, A.doms k) (H : Kept A h0 h) : Kept A h0 (toAbsent a0 a1 h) := by
  unfold toAbsent
  exact applyLimits_kept c cr
    (applyDelay_kept c cr cd (enterSlot_kept (c.of rfl) cr (Hub.onRef_kept cr (freezeUsers_kept cd H))))

theorem slotLost_kept {A : Touch} {h0 h : Hub} {a0 a1} (c : A.has [.cplRings, .msix, .books, .runs, .profile,
    .shimEvt, .collector, .fltEvt, .bus]) (cr : A.refs a0) (cd : ∀ k, A.doms k) (H : Kept A h0 h) : Kept A h0
    (slotLost a0 a1 h) := by
  unfold slotLost
  split
  · exact H
  · exact Hub.onRef_kept cr (toAbsent_kept (c.of rfl) cr cd H)
  · exact Hub.onRef_kept cr (toAbsent_kept (c.of rfl) cr cd H)
  · exact sendFault_kept (c.of rfl) (Hub.onRef_kept cr (toAbsent_kept (c.of rfl) cr cd H))

theorem disqualify_kept {A : Touch} {h0 h : Hub} {a0 a1} (c : A.has [.msix, .collector, .fltEvt, .bus]) (cr : A.refs
    a0) (H : Kept A h0 h) : Kept A h0 (disqualify a0 a1 h) := by
  unfold disqualify
  extract_lets x1_0 x1_1
  (try clear_value x1_0)
  have h1_1 : ∀ a0 x, Kept A h0 x → Kept A h0 (x1_1 a0 x) :=
    (fun _ _ h1_1 => (enterSlot_kept (c.of rfl) cr (Hub.onRef_kept cr h1_1)))
  split
  · exact H
  · exact .ite H (Hub.onRef_kept cr H)
  · exact h1_1 _ _ H
  · exact sendFault_kept c (h1_1 _ _ H)

theorem beginQualifying_kept {A : Touch} {h0 h : Hub} {a0} (c : A.has [.msix, .bus]) (cr : A.refs a0) (H : Kept A h0
    h) : Kept A h0 (beginQualifying a0 h) := by
  unfold beginQualifying
  exact enterSlot_kept c cr (Hub.onRef_kept cr H)

theorem requalify_kept {A : Touch} {h0 h : Hub} {a0} (c : A.has [.msix, .bus]) (cr : A.refs a0) (H : Kept A h0 h) :
    Kept A h0 (requalify a0 h) := by
  unfold requalify
  exact enterSlot_kept c cr (Hub.onRef_kept cr H)

theorem tryQualify_kept {A : Touch} {h0 h : Hub} {a0} (c : A.has [.msix, .bus]) (cr : A.refs a0) (H : Kept A h0 h) :
    Kept A h0 (tryQualify a0 h) := by
  unfold tryQualify
  extract_lets x1_0
  (try clear_value x1_0)
  exact .ite (enterSlot_kept c cr H) H

theorem noSample_kept {A : Touch} {h0 h : Hub} {a0} (cr : A.refs a0) (H : Kept A h0 h) : Kept A h0 (noSample a0 h) :=
    by
  unfold noSample
  exact Hub.onRef_kept cr H

theorem useLabel_kept {A : Touch} {h0 h : Hub} {a0 a1 a2} (c : A.has [.msix, .bus]) (cr : A.refs a0) (H : Kept A h0 h)
    : Kept A h0 (useLabel a0 a1 a2 h).2 := by
  unfold useLabel
  extract_lets r
  split
  · exact raiseRef_kept c cr (Hub.onRef_kept cr H)
  · extract_lets t leapDone good r1 r2 x1 x2
    have h1 : Kept A h0 x1 := Hub.onRef_kept cr H
    have h2 : Kept A h0 x2 := .ite (raiseRef_kept c cr h1) h1
    exact .ite (raiseRef_kept c cr h2) h2

theorem takeSample_kept {A : Touch} {h0 h : Hub} {a0 a1 a2} (c : A.has [.cplRings, .msix, .books, .runs, .profile,
    .shimEvt, .collector, .fltEvt, .bus]) (cr : A.refs a0) (H : Kept A h0 h) : Kept A h0 (takeSample a0 a1 a2 h) := by
  unfold takeSample
  extract_lets x1_0 x1_1 x1_2 x1_3 x1_4 x1_5 x1_6 x1_7 x1_8 x1_9 x1_10 x1_11 x1_12 x1_13 x1_14 x1_15 x1_16 x1_17 x1_18
      x1_19
  (try clear_value x1_1 x1_2 x1_3 x1_4 x1_5 x1_6 x1_7 x1_8 x1_9 x1_11 x1_12 x1_13 x1_14 x1_16 x1_17)
  have h1_0 : Kept A h0 x1_0 := applyLimits_kept (c.of rfl) cr H
  (try clear_value x1_0)
  have h1_10 : Kept A h0 x1_10 := Hub.onRef_kept cr h1_0
  (try clear_value x1_10)
  have h1_15 : Kept A h0 x1_15 := Hub.onRef_kept cr h1_10
  (try clear_value x1_15)
  have h1_18 : Kept A h0 x1_18 := .ite h1_15 (raiseRef_kept (c.of rfl) cr h1_15)
  (try clear_value x1_18)
  have h1_19 : Kept A h0 x1_19 := tryQualify_kept (c.of rfl) cr h1_18
  (try clear_value x1_19)
  split
  · exact disqualify_kept (c.of rfl) cr h1_18
  · exact .ite (Hub.onRef_kept cr h1_19) h1_19

theorem labelledSample_kept {A : Touch} {h0 h : Hub} {a0 a1 a2 a3} (c : A.has [.cplRings, .msix, .books, .runs,
    .profile, .shimEvt, .collector, .fltEvt, .bus]) (cr : A.refs a0) (H : Kept A h0 h) : Kept A h0 (labelledSample a0
    a1 a2 a3 h) := by
  unfold labelledSample
  extract_lets x1_0 x1_1 x1_2 x1_3 x1_4 x1_5 x1_6
  (try clear_value x1_0 x1_3 x1_4 x1_5)
  have h1_1 : Kept A h0 x1_1.2 := useLabel_kept (c.of rfl) cr H
  have h1_2 : Kept A h0 x1_2 := h1_1
  (try clear_value x1_2)
  have h1_6 : Kept A h0 x1_6 :=
    .ite
      (by
        split
        · exact Hub.onRef_kept cr h1_2
        · exact h1_2) h1_2
  (try clear_value x1_6)
  exact takeSample_kept c cr h1_6

theorem refTask_kept {A : Touch} {h0 h : Hub} {a0 a1 a2} (c : A.has [.cplRings, .msix, .books, .runs, .comp, .profile,
    .shimEvt, .collector, .fltEvt, .bus]) (cr : ∀ k, A.refs k) (cl : ∀ k, A.links k) (ct : ∀ k, A.tasks k) (cn : ∀ k,
    A.reeds k) (cv : ∀ k, A.evTasks k) (H : Kept A h0 h) : Kept A h0 (refTask a0 a1 a2 h) := by
  unfold refTask
  exact .ite (createTask_kept (c.of rfl) cr cl ct cn cv H) (.ite (removeTask_kept (c.of rfl) cr cl ct cn cv H) H)

theorem refConfigEff_kept {A : Touch} {h0 h : Hub} {a0} (c : A.has [.parity, .cplRings, .msix, .books, .runs, .comp,
    .profile, .shimEvt, .collector, .fltEvt, .bus]) (cr : ∀ k, A.refs k) (cd : ∀ k, A.doms k) (cl : ∀ k, A.links k)
    (ct : ∀ k, A.tasks k) (cn : ∀ k, A.reeds k) (cv : ∀ k, A.evTasks k) (H : Kept A h0 h) : Kept A h0 (refConfigEff a0
    h) := by
  unfold refConfigEff
  extract_lets x1_0 x1_1
  (try clear_value x1_0 x1_1)
  exact withFin_kept
    (c.of rfl) H
    (fun _ _ k2 => by
      extract_lets x3_0 x3_1 x3_2 x3_3 x3_4 x3_5 x3_6 x3_7 x3_8
      (try clear_value x3_0 x3_1 x3_3 x3_5 x3_7 x3_8)
      have h3_2 : Kept A h0 x3_2 :=
        refTask_kept (c.of rfl) cr cl ct cn cv (Hub.onRef_kept (cr _) (copyWritten_kept (c.of rfl) k2))
      (try clear_value x3_2)
      have h3_4 : Kept A h0 x3_4 := .ite (toAbsent_kept (c.of rfl) (cr _) cd h3_2) h3_2
      (try clear_value x3_4)
      have h3_6 : Kept A h0 x3_6 :=
        .ite h3_4 (applyLimits_kept (c.of rfl) (cr _) (applyDelay_kept (c.of rfl) (cr _) cd h3_4))
      (try clear_value x3_6)
      exact .ite
        (complete_kept (c.of rfl) k2)
        (.ite (complete_kept (c.of rfl) h3_6) (refDone_kept (c.of rfl) (Hub.onRef_kept (cr _) h3_6))))

theorem refConfig_kept {A : Touch} {h0 h : Hub} {a0} (c : A.has [.parity, .cplRings, .msix, .books, .hierEvt, .runs,
    .comp, .profile, .shimEvt, .collector, .fltEvt, .bus]) (cr : ∀ k, A.refs k) (cd : ∀ k, A.doms k) (cl : ∀ k,
    A.links k) (ct : ∀ k, A.tasks k) (cn : ∀ k, A.reeds k) (cv : ∀ k, A.evTasks k) (H : Kept A h0 h) : Kept A h0
    (refConfig a0 h) := by
  unfold refConfig
  exact serve_kept (c.of rfl) H (fun _ _ k1 => (refConfigEff_kept (c.of rfl) cr cd cl ct cn cv k1))

theorem refPriorityEff_kept {A : Touch} {h0 h : Hub} {a0} (c : A.has [.cplRings, .msix, .books, .runs, .profile,
    .shimEvt, .bus]) (cd : ∀ k, A.doms k) (H : Kept A h0 h) : Kept A h0 (refPriorityEff a0 h) := by
  unfold refPriorityEff
  extract_lets x1_0 x1_1 x1_2
  (try clear_value x1_0 x1_1 x1_2)
  exact withFin_kept c H (fun _ _ k2 => (.ite (complete_kept c k2) (Hub.onDom_kept (cd _) k2)))

theorem refPriority_kept {A : Touch} {h0 h : Hub} {a0} (c : A.has [.cplRings, .msix, .books, .hierEvt, .runs,
    .profile, .shimEvt, .bus]) (cd : ∀ k, A.doms k) (H : Kept A h0 h) : Kept A h0 (refPriority a0 h) := by
  unfold refPriority
  exact serve_kept c H (fun _ _ k1 => (refPriorityEff_kept (c.of rfl) cd k1))

theorem onTimeEdge_kept {A : Touch} {h0 h : Hub} {a0 a1} (c : A.has [.msix, .bus]) (cr : A.refs a0) (H : Kept A h0 h)
    : Kept A h0 (onTimeEdge a0 a1 h) := by
  unfold onTimeEdge
  extract_lets x1_0 x1_1 x1_2 x1_3
  (try clear_value x1_0 x1_2)
  have h1_1 : Kept A h0 x1_1 := Hub.onRef_kept cr H
  (try clear_value x1_1)
  have h1_3 : Kept A h0 x1_3 := Hub.onRef_kept cr h1_1
  (try clear_value x1_3)
  exact .ite
    (by
      split
      · exact .ite (Hub.onRef_kept cr (beginQualifying_kept c cr h1_1)) (Hub.onRef_kept cr h1_1)
      · exact Hub.onRef_kept cr h1_1)
    (.ite
      (by
        split
        · exact Hub.onRef_kept cr h1_3
        · exact .ite (Hub.onRef_kept cr h1_3) (Hub.onRef_kept cr h1_3))
      (Hub.onRef_kept cr h1_1))

theorem refPulseEdge_kept {A : Touch} {h0 h : Hub} {a0 a1 a2} (c : A.has [.now, .msix, .tdc, .bus]) (ce : ∀ k, A.evts
    k) (cr : ∀ k, A.refs k) (cd : ∀ k, A.doms k) (H : Kept A h0 h) : Kept A h0 (refPulseEdge a0 a1 a2 h) := by
  unfold refPulseEdge
  extract_lets x1_0 x1_1 x1_2 x1_3 x1_4 x1_5 x1_6
  (try clear_value x1_1 x1_2 x1_3 x1_4 x1_5)
  have h1_0 : Kept A h0 x1_0 := advanceTo_kept (c.of rfl) cd H
  (try clear_value x1_0)
  have h1_6 : Kept A h0 x1_6 := notePair_kept (c.of rfl) ce cr (laneTake_kept (c.of rfl) h1_0)
  (try clear_value x1_6)
  exact .ite (.ite (onTimeEdge_kept (c.of rfl) (cr _) h1_6) (Hub.onRef_kept (cr _) h1_6)) h1_0

theorem todSentence_kept {A : Touch} {h0 h : Hub} {a0 a1 a2} (c : A.has [.now]) (cr : ∀ k, A.refs k) (cd : ∀ k, A.doms
    k) (H : Kept A h0 h) : Kept A h0 (todSentence a0 a1 a2 h) := by
  unfold todSentence
  extract_lets x1_0
  have h1_0 : Kept A h0 x1_0 := advanceTo_kept c cd H
  (try clear_value x1_0)
  split
  · exact h1_0
  · extract_lets x2_0 x2_1
    (try clear_value x2_0 x2_1)
    exact .ite
      (by
        split
        · exact .ite (Hub.onRef_kept (cr _) h1_0) (Hub.onRef_kept (cr _) h1_0)
        · exact Hub.onRef_kept (cr _) h1_0) h1_0

theorem irigFrame_kept {A : Touch} {h0 h : Hub} {a0 a1 a2} (c : A.has [.now, .msix, .tdc, .bus]) (cr : ∀ k, A.refs k)
    (cd : ∀ k, A.doms k) (H : Kept A h0 h) : Kept A h0 (irigFrame a0 a1 a2 h) := by
  unfold irigFrame
  extract_lets x1_0 x1_1 x1_2 x1_3 x1_4 x1_5 x1_6 x1_7
  (try clear_value x1_1 x1_2 x1_3 x1_4 x1_5 x1_6)
  have h1_0 : Kept A h0 x1_0 := advanceTo_kept (c.of rfl) cd H
  (try clear_value x1_0)
  have h1_7 : Kept A h0 x1_7 := laneTake_kept (c.of rfl) h1_0
  (try clear_value x1_7)
  exact .ite
    (by
      split
      · exact onTimeEdge_kept (c.of rfl) (cr _) (Hub.onRef_kept (cr _) h1_7)
      · exact Hub.onRef_kept (cr _) h1_7) h1_0

theorem freqSample_kept {A : Touch} {h0 h : Hub} {a0 a1} (c : A.has [.cplRings, .msix, .books, .runs, .profile,
    .shimEvt, .collector, .fltEvt, .bus]) (cr : A.refs a0) (H : Kept A h0 h) : Kept A h0 (freqSample a0 a1 h) := by
  unfold freqSample
  extract_lets x1_0 x1_1 x1_2 x1_3 x1_4 x1_5
  (try clear_value x1_0 x1_1 x1_3 x1_4 x1_5)
  have h1_2 : Kept A h0 x1_2 := Hub.onRef_kept cr H
  (try clear_value x1_2)
  exact takeSample_kept c cr h1_2

theorem linkSample_kept {A : Touch} {h0 h : Hub} {a0} (c : A.has [.cplRings, .msix, .books, .runs, .profile, .shimEvt,
    .collector, .fltEvt, .bus]) (cr : A.refs a0) (H : Kept A h0 h) : Kept A h0 (linkSample a0 h) := by
  unfold linkSample
  extract_lets x1_0 x1_1
  (try clear_value x1_0 x1_1)
  split
  · exact noSample_kept cr H
  · exact takeSample_kept c cr (Hub.onRef_kept cr H)

theorem linkPresence_kept {A : Touch} {h0 h : Hub} {a0} (c : A.has [.cplRings, .msix, .books, .runs, .profile,
    .shimEvt, .collector, .fltEvt, .bus]) (cr : A.refs a0) (cd : ∀ k, A.doms k) (H : Kept A h0 h) : Kept A h0
    (linkPresence a0 h) := by
  unfold linkPresence
  extract_lets x1_0 x1_1 x1_2 x1_3 x1_4 x1_5 x1_6
  (try clear_value x1_0 x1_1 x1_2 x1_3 x1_6)
  have h1_4 : Kept A h0 x1_4 := Hub.onRef_kept cr H
  (try clear_value x1_4)
  have h1_5 : Kept A h0 x1_5 := .ite (raiseRef_kept (c.of rfl) cr h1_4) h1_4
  (try clear_value x1_5)
  exact .ite
    (.ite (slotLost_kept c cr cd h1_5) (.ite (Hub.onRef_kept cr (beginQualifying_kept (c.of rfl) cr h1_5)) h1_5)) H

theorem delayDue_kept {A : Touch} {h0 h : Hub} {a0} (c : A.has [.cplRings, .msix, .books, .runs, .profile, .shimEvt,
    .bus]) (cr : A.refs a0) (cd : ∀ k, A.doms k) (H : Kept A h0 h) : Kept A h0 (delayDue a0 h) := by
  unfold delayDue
  exact .ite H (applyDelay_kept c cr cd H)

theorem closeInterval_kept {A : Touch} {h0 h : Hub} {a0} (c : A.has [.now]) (cr : A.refs a0) (cd : ∀ k, A.doms k) (H :
    Kept A h0 h) : Kept A h0 (closeInterval a0 h) := by
  unfold closeInterval
  extract_lets x1_0
  (try clear_value x1_0)
  split
  · exact .ite (.optS (reachNom_kept c cd H) (fun _ k2 => (Hub.onRef_kept cr k2)) H) H
  · exact H

theorem pulseSample_kept {A : Touch} {h0 h : Hub} {a0} (c : A.has [.cplRings, .msix, .books, .runs, .profile,
    .shimEvt, .collector, .fltEvt, .bus]) (cr : A.refs a0) (cd : ∀ k, A.doms k) (H : Kept A h0 h) : Kept A h0
    (pulseSample a0 h) := by
  unfold pulseSample
  split
  · exact H
  · extract_lets x2_0 x2_1
    (try clear_value x2_1)
    have h2_0 : Kept A h0 x2_0 := Hub.onRef_kept cr H
    (try clear_value x2_0)
    exact delayDue_kept
      (c.of rfl) cr cd
      (by
        split
        · exact noSample_kept cr h2_0
        · exact .ite (labelledSample_kept c cr h2_0) (.ite (takeSample_kept c cr h2_0) (takeSample_kept c cr h2_0)))

theorem freqInterval_kept {A : Touch} {h0 h : Hub} {a0 a1} (c : A.has [.cplRings, .msix, .books, .runs, .profile,
    .shimEvt, .collector, .fltEvt, .bus]) (cr : A.refs a0) (H : Kept A h0 h) : Kept A h0 (freqInterval a0 a1 h) := by
  unfold freqInterval
  extract_lets x1_0 x1_1
  (try clear_value x1_0 x1_1)
  split
  · exact H
  · extract_lets x2_0
    (try clear_value x2_0)
    exact .ite
      (.ite (freqSample_kept c cr (beginQualifying_kept (c.of rfl) cr H)) (Hub.onRef_kept cr H))
      (.ite (noSample_kept cr H) (freqSample_kept c cr H))

theorem linkInterval_kept {A : Touch} {h0 h : Hub} {a0} (c : A.has [.cplRings, .msix, .books, .runs, .profile,
    .shimEvt, .collector, .fltEvt, .bus]) (cr : A.refs a0) (cd : ∀ k, A.doms k) (H : Kept A h0 h) : Kept A h0
    (linkInterval a0 h) := by
  unfold linkInterval
  extract_lets x1_0
  have h1_0 : Kept A h0 x1_0 := linkPresence_kept c cr cd H
  (try clear_value x1_0)
  exact .ite h1_0 (linkSample_kept c cr h1_0)

theorem gridSample_kept {A : Touch} {h0 h : Hub} {a0 a1} (c : A.has [.cplRings, .msix, .books, .runs, .profile,
    .shimEvt, .collector, .fltEvt, .bus]) (cr : A.refs a0) (cd : ∀ k, A.doms k) (H : Kept A h0 h) : Kept A h0
    (gridSample a0 a1 h) := by
  unfold gridSample
  extract_lets x1_0 x1_1 x1_2
  (try clear_value x1_0 x1_1)
  have h1_2 : Kept A h0 x1_2 := Hub.onRef_kept cr H
  (try clear_value x1_2)
  exact .ite H
    (delayDue_kept
      (c.of rfl) cr cd
      (.ite
        (.ite h1_2 (noSample_kept cr (Hub.onRef_kept cr h1_2)))
        (.ite (freqInterval_kept c cr h1_2) (linkInterval_kept c cr cd h1_2))))

theorem refqSample_kept {A : Touch} {h0 h : Hub} {a0 a1} (c : A.has [.now, .cplRings, .msix, .books, .runs, .profile,
    .shimEvt, .collector, .fltEvt, .bus]) (cr : A.refs a0) (cd : ∀ k, A.doms k) (H : Kept A h0 h) : Kept A h0
    (refqSample a0 a1 h) := by
  unfold refqSample
  extract_lets x1_0
  (try clear_value x1_0)
  exact .ite
    (.ite
      (gridSample_kept (c.of rfl) cr cd H)
      (.ite H (pulseSample_kept (c.of rfl) cr cd (closeInterval_kept (c.of rfl) cr cd H)))) H

theorem lossDue_kept {A : Touch} {h0 h : Hub} {a0} (c : A.has [.now]) (cd : ∀ k, A.doms k) (H : Kept A h0 h) : OptKept
    A h0 (lossDue a0 h) := by
  unfold lossDue
  dsimp only
  refine .ite (.ite .none (.some H)) (.ite (.some H) ?_)
  cases h.refs[a0].lastOn with
  | none => exact .none
  | some u => exact reachNom_kept c cd H

theorem refLossDetected_kept {A : Touch} {h0 h : Hub} {a0} (c : A.has [.now, .cplRings, .msix, .books, .runs,
    .profile, .shimEvt, .collector, .fltEvt, .bus]) (cr : A.refs a0) (cd : ∀ k, A.doms k) (H : Kept A h0 h) : Kept A
    h0 (refLossDetected a0 h) := by
  unfold refLossDetected
  exact .optN
    (.ite (lossDue_kept (c.of rfl) cd H) .none) H
    fun _ k2 => by
      extract_lets x3_0 x3_1
      (try clear_value x3_0)
      have h3_1 : Kept A h0 x3_1 := .ite (Hub.onRef_kept cr k2) k2
      (try clear_value x3_1)
      exact slotLost_kept (c.of rfl) cr cd h3_1

theorem qualifyTimerExpiry_kept {A : Touch} {h0 h : Hub} {a0} (c : A.has [.msix, .bus]) (cr : A.refs a0) (H : Kept A
    h0 h) : Kept A h0 (qualifyTimerExpiry a0 h) := by
  unfold qualifyTimerExpiry
  exact when_kept H (fun _ k1 => (tryQualify_kept c cr k1))

theorem requalifyTimerExpiry_kept {A : Touch} {h0 h : Hub} {a0} (c : A.has [.msix, .bus]) (cr : A.refs a0) (H : Kept A
    h0 h) : Kept A h0 (requalifyTimerExpiry a0 h) := by
  unfold requalifyTimerExpiry
  exact when_kept H (fun _ k1 => (requalify_kept c cr k1))

theorem refTick_kept {A : Touch} {h0 h : Hub} {a0} (c : A.has [.cplRings, .msix, .books, .runs, .profile, .shimEvt,
    .bus]) (cr : A.refs a0) (cd : ∀ k, A.doms k) (H : Kept A h0 h) : Kept A h0 (refTick a0 h) := by
  unfold refTick
  extract_lets x1_0 x1_1 x1_2 x1_3 x1_4
  (try clear_value x1_0 x1_1 x1_2 x1_4)
  have h1_3 : Kept A h0 x1_3 := Hub.onRef_kept cr H
  (try clear_value x1_3)
  exact .ite
    (delayDue_kept c cr cd (.ite h1_3 (noSample_kept cr (Hub.onRef_kept cr h1_3))))
    (.ite (applyLimits_kept c cr (applyDelay_kept c cr cd h1_3)) h1_3)

end Sys2Proof.Machine
end

