-- ==== Sys2Proof/Laws/KeptLinks.lean ====
section
/-!
SUPPORT. What `Kept` says of links, causes and trims: one lemma for each effect.
-/

set_option Elab.async false

namespace Sys2Proof.Machine

theorem lrefsLost_kept {A : Touch} {h0 h : Hub} {a0 a1} (c : A.has [.cplRings, .msix, .books, .runs, .profile,
    .shimEvt, .collector, .fltEvt, .bus]) (cr : ∀ k, A.refs k) (cd : ∀ k, A.doms k) (H : Kept A h0 h) : Kept A h0
    (lrefsLost a0 a1 h) := by
  unfold lrefsLost
  exact forEach_kept H (fun _ _ k1 => (slotLost_kept c (cr _) cd k1))

theorem settleAlpha_kept {A : Touch} {h0 h : Hub} {a0} (c : A.has [.cplRings, .msix, .books, .runs, .profile,
    .shimEvt, .bus]) (cl : A.links a0) (H : Kept A h0 h) : Kept A h0 (settleAlpha a0 h) := by
  unfold settleAlpha
  exact forEach_kept (Hub.onLink_kept cl H) (fun _ _ k1 => (complete_kept c k1))

theorem leaveTimed_kept {A : Touch} {h0 h : Hub} {a0 a1} (c : A.has [.cplRings, .msix, .books, .runs, .counters,
    .profile, .shimEvt, .collector, .fltEvt, .bus]) (cr : ∀ k, A.refs k) (cd : ∀ k, A.doms k) (cl : A.links a0) (H :
    Kept A h0 h) : Kept A h0 (leaveTimed a0 a1 h) := by
  unfold leaveTimed
  extract_lets x1_0 x1_1
  have h1_0 : Kept A h0 x1_0 :=
    raiseLnk_kept (c.of rfl) cl (bumpCounter_kept (c.of rfl) (settleAlpha_kept (c.of rfl) cl H))
  (try clear_value x1_0)
  have h1_1 : Kept A h0 x1_1 := by
    unfold x1_1
    split
    · exact sendFault_kept (c.of rfl) h1_0
    · exact h1_0
  (try clear_value x1_1)
  exact lrefsLost_kept (c.of rfl) cr cd h1_1

theorem fallTo_kept {A : Touch} {h0 h : Hub} {a0 a1 a2} (c : A.has [.cplRings, .msix, .books, .hier, .runs, .counters,
    .profile, .shimEvt, .collector, .fltEvt, .bus]) (cr : ∀ k, A.refs k) (cd : ∀ k, A.doms k) (cl : A.links a0) (H :
    Kept A h0 h) : Kept A h0 (fallTo a0 a1 a2 h) := by
  unfold fallTo
  extract_lets x1_0 x1_1
  (try clear_value x1_0)
  have h1_1 : Kept A h0 x1_1 := .ite (leaveTimed_kept (c.of rfl) cr cd cl H) H
  (try clear_value x1_1)
  exact enterLink_kept (c.of rfl) cl h1_1

theorem ptpLink_kept {A : Touch} {h0 h : Hub} {a0} (c : A.has [.cplRings, .msix, .books, .runs, .profile, .shimEvt,
    .collector, .fltEvt, .bus]) (cr : ∀ k, A.refs k) (cd : ∀ k, A.doms k) (cq : A.ptp a0) (H : Kept A h0 h) : Kept A
    h0 (ptpLink a0 h) := by
  unfold ptpLink
  extract_lets x1_0 x1_1 x1_2 x1_3 x1_4
  (try clear_value x1_0 x1_1 x1_2 x1_3)
  have h1_4 : Kept A h0 x1_4 := Hub.onPtp_kept cq H
  (try clear_value x1_4)
  exact .ite (lrefsLost_kept c cr cd h1_4) h1_4

theorem dropTo_kept {A : Touch} {h0 h : Hub} {a0 a1 a2} (c : A.has [.cplRings, .msix, .books, .hier, .runs, .counters,
    .profile, .shimEvt, .collector, .fltEvt, .bus]) (cr : ∀ k, A.refs k) (cd : ∀ k, A.doms k) (cl : A.links a0) (cq :
    A.ptp a0) (H : Kept A h0 h) : Kept A h0 (dropTo a0 a1 a2 h) := by
  unfold dropTo
  exact ptpLink_kept (c.of rfl) cr cd cq (Hub.onLink_kept cl (fallTo_kept c cr cd cl H))

theorem linkMode_kept {A : Touch} {h0 h : Hub} {a0 a1 a2} (c : A.has [.cplRings, .msix, .books, .hier, .runs, .comp,
    .counters, .profile, .shimEvt, .collector, .fltEvt, .bus, .free]) (cr : ∀ k, A.refs k) (cd : ∀ k, A.doms k) (cl :
    ∀ k, A.links k) (ct : ∀ k, A.tasks k) (cn : ∀ k, A.reeds k) (cv : ∀ k, A.evTasks k) (cq : A.ptp a0) (H : Kept A h0
    h) : Kept A h0 (linkMode a0 a1 a2 h) := by
  unfold linkMode
  extract_lets x1_0 x1_1
  have h1_0 : Kept A h0 x1_0 :=
    .ite (createTask_kept (c.of rfl) cr cl ct cn cv H) (.ite (removeTask_kept (c.of rfl) cr cl ct cn cv H) H)
  (try clear_value x1_0)
  have h1_1 : Kept A h0 x1_1 := Hub.onLink_kept (cl _) (fallTo_kept (c.of rfl) cr cd (cl _) h1_0)
  (try clear_value x1_1)
  exact ptpLink_kept (c.of rfl) cr cd cq (linkStart_kept (c.of rfl) (cl _) h1_1)

theorem linkConfigEff_kept {A : Touch} {h0 h : Hub} {a0} (c : A.has [.parity, .cplRings, .msix, .books, .hier, .runs,
    .comp, .counters, .profile, .shimEvt, .collector, .fltEvt, .bus, .free]) (cr : ∀ k, A.refs k) (cd : ∀ k, A.doms k)
    (cl : ∀ k, A.links k) (ct : ∀ k, A.tasks k) (cn : ∀ k, A.reeds k) (cv : ∀ k, A.evTasks k) (cq : ∀ k, A.ptp k) (H :
    Kept A h0 h) : Kept A h0 (linkConfigEff a0 h) := by
  unfold linkConfigEff
  extract_lets x1_0 x1_1
  (try clear_value x1_0 x1_1)
  exact withFin_kept
    (c.of rfl) H
    (fun _ _ k2 => by
      extract_lets x3_0 x3_1 x3_2 x3_3 x3_4 x3_5
      (try clear_value x3_0 x3_1 x3_2)
      have h3_3 : Kept A h0 x3_3 := Hub.onLink_kept (cl _) (copyWritten_kept (c.of rfl) k2)
      (try clear_value x3_3)
      have h3_4 : Kept A h0 x3_4 := by
        unfold x3_4
        split
        · exact complete_kept (c.of rfl) (Hub.onLink_kept (cl _) h3_3)
        · exact h3_3
      (try clear_value x3_4)
      have h3_5 : Kept A h0 x3_5 := linkMode_kept (c.of rfl) cr cd cl ct cn cv (cq _) h3_4
      (try clear_value x3_5)
      exact .ite
        (complete_kept (c.of rfl) k2)
        (.ite (.ite (Hub.onLink_kept (cl _) h3_3) (complete_kept (c.of rfl) h3_3)) (complete_kept (c.of rfl) h3_5)))

theorem linkConfig_kept {A : Touch} {h0 h : Hub} {a0} (c : A.has [.parity, .cplRings, .msix, .books, .hier, .hierEvt,
    .runs, .comp, .counters, .profile, .shimEvt, .collector, .fltEvt, .bus, .free]) (cr : ∀ k, A.refs k) (cd : ∀ k,
    A.doms k) (cl : ∀ k, A.links k) (ct : ∀ k, A.tasks k) (cn : ∀ k, A.reeds k) (cv : ∀ k, A.evTasks k) (cq : ∀ k,
    A.ptp k) (H : Kept A h0 h) : Kept A h0 (linkConfig a0 h) := by
  unfold linkConfig
  exact serve_kept (c.of rfl) H (fun _ _ k1 => (linkConfigEff_kept (c.of rfl) cr cd cl ct cn cv cq k1))

theorem deliverDelay_kept {A : Touch} {h0 h : Hub} {a0 a1} (cr : ∀ k, A.refs k) (cd : ∀ k, A.doms k) (H : Kept A h0 h)
    : Kept A h0 (deliverDelay a0 a1 h) := by
  unfold deliverDelay
  exact .ite H (forEach_kept H (fun _ _ k1 => (slewUsers_kept cd (Hub.onRef_kept (cr _) k1))))

theorem shiftDelays_kept {A : Touch} {h0 h : Hub} {a0 a1 a2 a3} (cr : ∀ k, A.refs k) (cd : ∀ k, A.doms k) (cl :
    A.links a0) (H : Kept A h0 h) : Kept A h0 (shiftDelays a0 a1 a2 a3 h) := by
  unfold shiftDelays
  extract_lets x1_0 x1_1 x1_2 x1_3 x1_4
  (try clear_value x1_0 x1_1 x1_2 x1_3)
  have h1_4 : Kept A h0 x1_4 := Hub.onLink_kept cl H
  (try clear_value x1_4)
  exact .ite H (.ite (deliverDelay_kept cr cd h1_4) h1_4)

theorem setExt_kept {A : Touch} {h0 h : Hub} {a0 a1 a2} (cr : ∀ k, A.refs k) (cd : ∀ k, A.doms k) (cl : A.links a0) (H
    : Kept A h0 h) : Kept A h0 (setExt a0 a1 a2 h) := by
  unfold setExt
  extract_lets x1_0 x1_1 x1_2
  (try clear_value x1_0 x1_1 x1_2)
  exact shiftDelays_kept cr cd cl (Hub.onLink_kept cl H)

theorem linkSetExtEff_kept {A : Touch} {h0 h : Hub} {a0} (c : A.has [.cplRings, .msix, .books, .runs, .profile,
    .shimEvt, .bus]) (cr : ∀ k, A.refs k) (cd : ∀ k, A.doms k) (cl : ∀ k, A.links k) (H : Kept A h0 h) : Kept A h0
    (linkSetExtEff a0 h) := by
  unfold linkSetExtEff
  extract_lets x1_0
  (try clear_value x1_0)
  exact withFin_kept c H (fun _ _ k2 => (.ite (complete_kept c k2) (complete_kept c (setExt_kept cr cd (cl _) k2))))

theorem linkCalSetExt_kept {A : Touch} {h0 h : Hub} {a0} (c : A.has [.cplRings, .msix, .books, .hierEvt, .runs,
    .profile, .shimEvt, .bus]) (cr : ∀ k, A.refs k) (cd : ∀ k, A.doms k) (cl : ∀ k, A.links k) (H : Kept A h0 h) :
    Kept A h0 (linkCalSetExt a0 h) := by
  unfold linkCalSetExt
  exact serve_kept c H (fun _ _ k1 => (linkSetExtEff_kept (c.of rfl) cr cd cl k1))

theorem linkLoopbackEff_kept {A : Touch} {h0 h : Hub} {a0} (c : A.has [.cplRings, .msix, .books, .runs, .profile,
    .shimEvt, .bus]) (cl : ∀ k, A.links k) (H : Kept A h0 h) : Kept A h0 (linkLoopbackEff a0 h) := by
  unfold linkLoopbackEff
  extract_lets x1_0
  (try clear_value x1_0)
  exact withFin_kept c H
    (fun _ _ k2 => by
      extract_lets x3_0 x3_1
      (try clear_value x3_0 x3_1)
      exact .ite (complete_kept c k2) (.ite (complete_kept c k2) (Hub.onLink_kept (cl _) k2)))

theorem linkCalLoopback_kept {A : Touch} {h0 h : Hub} {a0} (c : A.has [.cplRings, .msix, .books, .hierEvt, .runs,
    .profile, .shimEvt, .bus]) (cl : ∀ k, A.links k) (H : Kept A h0 h) : Kept A h0 (linkCalLoopback a0 h) := by
  unfold linkCalLoopback
  exact serve_kept c H (fun _ _ k1 => (linkLoopbackEff_kept (c.of rfl) cl k1))

theorem linkRebaseEff_kept {A : Touch} {h0 h : Hub} {a0} (c : A.has [.cplRings, .msix, .books, .runs, .profile,
    .shimEvt, .bus]) (cl : ∀ k, A.links k) (H : Kept A h0 h) : Kept A h0 (linkRebaseEff a0 h) := by
  unfold linkRebaseEff
  extract_lets x1_0
  (try clear_value x1_0)
  exact withFin_kept c H (fun _ _ k2 => (.ite (complete_kept c k2) (complete_kept c (Hub.onLink_kept (cl _) k2))))

theorem linkCalRebase_kept {A : Touch} {h0 h : Hub} {a0} (c : A.has [.cplRings, .msix, .books, .hierEvt, .runs,
    .profile, .shimEvt, .bus]) (cl : ∀ k, A.links k) (H : Kept A h0 h) : Kept A h0 (linkCalRebase a0 h) := by
  unfold linkCalRebase
  exact serve_kept c H (fun _ _ k1 => (linkRebaseEff_kept (c.of rfl) cl k1))

theorem loopbackComplete_kept {A : Touch} {h0 h : Hub} {a0} (c : A.has [.cplRings, .msix, .books, .hier, .runs,
    .counters, .profile, .shimEvt, .collector, .fltEvt, .bus]) (cr : ∀ k, A.refs k) (cd : ∀ k, A.doms k) (cl : A.links
    a0) (cq : A.ptp a0) (H : Kept A h0 h) : Kept A h0 (loopbackComplete a0 h) := by
  unfold loopbackComplete
  extract_lets x1_0 x1_1
  (try clear_value x1_0)
  have h1_1 : Kept A h0 x1_1 := Hub.onLink_kept cl H
  (try clear_value x1_1)
  split
  · exact H
  · extract_lets x2_0 x2_1 x2_2 x2_3 x2_4 x2_5 x2_6 x2_7 x2_8
    (try clear_value x2_0 x2_1 x2_2 x2_3 x2_4 x2_5 x2_6)
    have h2_7 : Kept A h0 x2_7 := dropTo_kept c cr cd cl cq (Hub.onLink_kept cl h1_1)
    (try clear_value x2_7)
    have h2_8 : Kept A h0 x2_8 := linkRise_kept (c.of rfl) cl h2_7
    (try clear_value x2_8)
    exact .ite H
      (.ite
        (complete_kept (c.of rfl) h1_1)
        (.ite (complete_kept (c.of rfl) h1_1) (completeWith_kept (c.of rfl) h2_8)))

theorem sendFrame_kept {A : Touch} {h0 h : Hub} {a0 a1 a2} (c : A.has [.wire]) (cl : A.links a0) (H : Kept A h0 h) :
    Kept A h0 (sendFrame a0 a1 a2 h) := by
  unfold sendFrame
  exact Hub.onLink_kept cl
    (.same
      (by
        constructor <;> first | exact .inr rfl | exact fun _ => .inr rfl | exact .inl (c.mem rfl)) H rfl rfl rfl
      (fun _ => rfl) rfl rfl)

theorem tmarkSend_kept {A : Touch} {h0 h : Hub} {a0 a1} (c : A.has [.now, .msix, .tdc, .bus, .wire]) (ce : ∀ k, A.evts
    k) (cr : ∀ k, A.refs k) (cd : ∀ k, A.doms k) (cl : A.links a0) (H : Kept A h0 h) : Kept A h0 (tmarkSend a0 a1 h)
    := by
  unfold tmarkSend
  extract_lets x1_0 x1_1 x1_2 x1_3 x1_4 x1_5 x1_6 x1_7 x1_8 x1_9
  (try clear_value x1_1 x1_2 x1_3 x1_4 x1_5 x1_6 x1_7)
  have h1_0 : Kept A h0 x1_0 := advanceTo_kept (c.of rfl) cd H
  (try clear_value x1_0)
  have h1_8 : Kept A h0 x1_8 := sendFrame_kept (c.of rfl) cl h1_0
  (try clear_value x1_8)
  have h1_9 : Kept A h0 x1_9 := Hub.onLink_kept cl h1_8
  (try clear_value x1_9)
  exact .ite (notePair_kept (c.of rfl) ce cr (.ite (sendFrame_kept (c.of rfl) cl h1_9) h1_9)) h1_0

theorem techoSend_kept {A : Touch} {h0 h : Hub} {a0 a1} (c : A.has [.now, .msix, .tdc, .bus, .wire]) (ce : ∀ k, A.evts
    k) (cr : ∀ k, A.refs k) (cd : ∀ k, A.doms k) (cl : A.links a0) (H : Kept A h0 h) : Kept A h0 (techoSend a0 a1 h)
    := by
  unfold techoSend
  extract_lets x1_0 x1_1 x1_2 x1_3
  (try clear_value x1_1 x1_2 x1_3)
  have h1_0 : Kept A h0 x1_0 := advanceTo_kept (c.of rfl) cd H
  (try clear_value x1_0)
  split
  · exact h1_0
  · extract_lets x2_0 x2_1
    (try clear_value x2_0 x2_1)
    exact .ite (notePair_kept (c.of rfl) ce cr (Hub.onLink_kept cl (sendFrame_kept (c.of rfl) cl h1_0))) h1_0

theorem checkLoop_kept {A : Touch} {h0 h : Hub} {a0} (c : A.has [.msix, .hierEvt, .bus]) (H : Kept A h0 h) : Kept A h0
    (checkLoop a0 h) := by
  unfold checkLoop
  exact .ite (raiseHier_kept c H) H

theorem statFrameSend_kept {A : Touch} {h0 h : Hub} {a0} (c : A.has [.msix, .hierEvt, .bus, .wire]) (cl : A.links a0)
    (H : Kept A h0 h) : Kept A h0 (statFrameSend a0 h) := by
  unfold statFrameSend
  exact when_kept H (fun _ k1 => (checkLoop_kept (c.of rfl) (Hub.onLink_kept cl (sendFrame_kept (c.of rfl) cl k1))))

theorem mgmtSegmentSend_kept {A : Touch} {h0 h : Hub} {a0} (c : A.has [.wire]) (cl : A.links a0) (H : Kept A h0 h) :
    Kept A h0 (mgmtSegmentSend a0 h) := by
  unfold mgmtSegmentSend
  extract_lets x1_0 x1_1
  (try clear_value x1_0 x1_1)
  split
  · exact H
  · split
    · exact H
    · extract_lets x3_0 x3_1
      (try clear_value x3_0 x3_1)
      exact .ite (Hub.onLink_kept cl (sendFrame_kept c cl H)) H

theorem mgmtResendTimeout_kept {A : Touch} {h0 h : Hub} {a0} (c : A.has [.now]) (cd : ∀ k, A.doms k) (cl : A.links a0)
    (H : Kept A h0 h) : Kept A h0 (mgmtResendTimeout a0 h) := by
  unfold mgmtResendTimeout
  extract_lets x1_0
  (try clear_value x1_0)
  exact when_kept H
    (fun _ k2 =>
      (atCyc_kept c cd k2
        (fun _ k4 => by
          extract_lets x5_0
          (try clear_value x5_0)
          exact Hub.onLink_kept cl k4)))

theorem badFrame_kept {A : Touch} {h0 h : Hub} {a0} (cl : A.links a0) (H : Kept A h0 h) : Kept A h0 (badFrame a0 h) :=
    by
  unfold badFrame
  exact Hub.onLink_kept cl H

theorem takeFrame_kept {A : Touch} {h0 h : Hub} {a0 : Fin 48} {type : Byte} {x : Line} {f : Bytes → Hub → Hub} (cl :
    A.links a0) (H : Kept A h0 h)
    (hf : ∀ b x, Kept A h0 x → Kept A h0 (f b x)) : Kept A h0 (takeFrame a0 type x f h) := by
  unfold takeFrame
  exact .ite (by split; exact badFrame_kept cl H; exact .ite (badFrame_kept cl H) (.ite (hf _ _ H) H)) H

theorem peerTrust_kept {A : Touch} {h0 h : Hub} {a0 a1} (c : A.has [.msix, .collector, .fltEvt, .bus]) (cr : ∀ k,
    A.refs k) (cl : A.links a0) (H : Kept A h0 h) : Kept A h0 (peerTrust a0 a1 h) := by
  unfold peerTrust
  extract_lets x1_0 x1_1
  (try clear_value x1_0)
  have h1_1 : Kept A h0 x1_1 := Hub.onLink_kept cl H
  (try clear_value x1_1)
  exact .ite (forEach_kept (raiseLnk_kept (c.of rfl) cl h1_1) (fun _ _ k2 => (disqualify_kept c (cr _) k2))) h1_1

theorem peerHolds_kept {A : Touch} {h0 h : Hub} {a0 a1} (cl : A.links a0) (H : Kept A h0 h) : Kept A h0 (peerHolds a0
    a1 h) := by
  unfold peerHolds
  exact Hub.onLink_kept cl H

theorem trySyntonise_kept {A : Touch} {h0 h : Hub} {a0} (c : A.has [.msix, .hier, .bus]) (cl : A.links a0) (H : Kept A
    h0 h) : Kept A h0 (trySyntonise a0 h) := by
  unfold trySyntonise
  extract_lets x1_0
  (try clear_value x1_0)
  exact .ite (enterLink_kept c cl H) H

theorem takeMark_kept {A : Touch} {h0 h : Hub} {a0 a1 a2} (c : A.has [.msix, .hier, .collector, .fltEvt, .bus]) (cr :
    ∀ k, A.refs k) (cl : A.links a0) (H : Kept A h0 h) : Kept A h0 (takeMark a0 a1 a2 h) := by
  unfold takeMark
  extract_lets x1_0 x1_1 x1_2 x1_3 x1_4 x1_5 x1_6
  (try clear_value x1_0 x1_1 x1_2 x1_3 x1_4 x1_5)
  have h1_6 : Kept A h0 x1_6 := Hub.onLink_kept cl H
  (try clear_value x1_6)
  exact trySyntonise_kept (c.of rfl) cl (peerTrust_kept (c.of rfl) cr cl (peerHolds_kept cl h1_6))

theorem tmarkReceived_kept {A : Touch} {h0 h : Hub} {a0 a1 a2} (c : A.has [.now, .msix, .tdc, .hier, .collector,
    .fltEvt, .bus]) (ce : ∀ k, A.evts k) (cr : ∀ k, A.refs k) (cd : ∀ k, A.doms k) (cl : A.links a0) (H : Kept A h0 h)
    : Kept A h0 (tmarkReceived a0 a1 a2 h) := by
  unfold tmarkReceived
  extract_lets x1_0
  have h1_0 : Kept A h0 x1_0 := advanceTo_kept (c.of rfl) cd H
  (try clear_value x1_0)
  exact takeFrame_kept cl h1_0 (fun _ _ k2 => (notePair_kept (c.of rfl) ce cr (takeMark_kept (c.of rfl) cr cl k2)))

theorem coarseAgain_kept {A : Touch} {h0 h : Hub} {a0} (c : A.has [.cplRings, .msix, .books, .hier, .runs, .counters,
    .profile, .shimEvt, .collector, .fltEvt, .bus]) (cr : ∀ k, A.refs k) (cd : ∀ k, A.doms k) (cl : A.links a0) (H :
    Kept A h0 h) : Kept A h0 (coarseAgain a0 h) := by
  unfold coarseAgain
  extract_lets x1_0
  have h1_0 : Kept A h0 x1_0 := Hub.onLink_kept cl H
  (try clear_value x1_0)
  exact .ite (.ite (fallTo_kept c cr cd cl h1_0) h1_0) H

theorem takeEcho_kept {A : Touch} {h0 h : Hub} {a0 a1 a2} (c : A.has [.cplRings, .msix, .books, .hier, .runs,
    .counters, .profile, .shimEvt, .collector, .fltEvt, .bus]) (cr : ∀ k, A.refs k) (cd : ∀ k, A.doms k) (cl : A.links
    a0) (H : Kept A h0 h) : Kept A h0 (takeEcho a0 a1 a2 h) := by
  unfold takeEcho
  extract_lets x1_0 x1_1 x1_2 x1_3
  (try clear_value x1_0 x1_1 x1_3)
  have h1_2 : Kept A h0 x1_2 := Hub.onLink_kept cl H
  (try clear_value x1_2)
  split
  · exact h1_2
  · extract_lets x2_0 x2_1
    (try clear_value x2_0)
    have h2_1 : Kept A h0 x2_1 := Hub.onLink_kept cl h1_2
    (try clear_value x2_1)
    exact .ite h1_2
      (by
        split
        · exact .ite (.ite (enterLink_kept (c.of rfl) cl h2_1) h2_1) h1_2
        · exact .ite (Hub.onLink_kept cl h1_2) (coarseAgain_kept c cr cd cl (Hub.onLink_kept cl h1_2)))

theorem techoReceived_kept {A : Touch} {h0 h : Hub} {a0 a1 a2} (c : A.has [.now, .cplRings, .msix, .books, .tdc,
    .hier, .runs, .counters, .profile, .shimEvt, .collector, .fltEvt, .bus]) (ce : ∀ k, A.evts k) (cr : ∀ k, A.refs k)
    (cd : ∀ k, A.doms k) (cl : A.links a0) (H : Kept A h0 h) : Kept A h0 (techoReceived a0 a1 a2 h) := by
  unfold techoReceived
  extract_lets x1_0
  have h1_0 : Kept A h0 x1_0 := advanceTo_kept (c.of rfl) cd H
  (try clear_value x1_0)
  exact takeFrame_kept cl h1_0 (fun _ _ k2 => (notePair_kept (c.of rfl) ce cr (takeEcho_kept (c.of rfl) cr cd cl k2)))

theorem echoMissing_kept {A : Touch} {h0 h : Hub} {a0} (c : A.has [.now, .cplRings, .msix, .books, .hier, .runs,
    .counters, .profile, .shimEvt, .collector, .fltEvt, .bus]) (cr : ∀ k, A.refs k) (cd : ∀ k, A.doms k) (cl : A.links
    a0) (H : Kept A h0 h) : Kept A h0 (echoMissing a0 h) := by
  unfold echoMissing
  extract_lets x1_0
  (try clear_value x1_0)
  split
  · exact .ite
      (.optS
        (reachNom_kept (c.of rfl) cd H)
        (fun _ k4 => (coarseAgain_kept (c.of rfl) cr cd cl (Hub.onLink_kept cl k4))) H) H
  · exact H

theorem takeTod_kept {A : Touch} {h0 h : Hub} {a0 a1} (c : A.has [.msix, .collector, .fltEvt, .bus]) (cr : ∀ k, A.refs
    k) (cl : A.links a0) (H : Kept A h0 h) : Kept A h0 (takeTod a0 a1 h) := by
  unfold takeTod
  extract_lets x1_0 x1_1 x1_2 x1_3
  (try clear_value x1_0 x1_1 x1_2)
  have h1_3 : Kept A h0 x1_3 := Hub.onLink_kept cl H
  (try clear_value x1_3)
  exact peerTrust_kept c cr cl (peerHolds_kept cl h1_3)

theorem todFrameReceived_kept {A : Touch} {h0 h : Hub} {a0 a1} (c : A.has [.msix, .collector, .fltEvt, .bus]) (cr : ∀
    k, A.refs k) (cl : A.links a0) (H : Kept A h0 h) : Kept A h0 (todFrameReceived a0 a1 h) := by
  unfold todFrameReceived
  exact takeFrame_kept cl H (fun _ _ k1 => (takeTod_kept c cr cl k1))

theorem takeStat_kept {A : Touch} {h0 h : Hub} {a0 a1} (c : A.has [.msix, .hier, .hierEvt, .collector, .fltEvt, .bus])
    (cr : ∀ k, A.refs k) (cd : ∀ k, A.doms k) (cl : A.links a0) (H : Kept A h0 h) : Kept A h0 (takeStat a0 a1 h) := by
  unfold takeStat
  extract_lets x1_0 x1_1 x1_2 x1_3 x1_4 x1_5 x1_6 x1_7 x1_8
  (try clear_value x1_0 x1_1 x1_2 x1_3 x1_4 x1_5 x1_6)
  have h1_7 : Kept A h0 x1_7 := Hub.onLink_kept cl H
  (try clear_value x1_7)
  have h1_8 : Kept A h0 x1_8 := .ite (shiftDelays_kept cr cd cl h1_7) h1_7
  (try clear_value x1_8)
  exact trySyntonise_kept (c.of rfl) cl (checkLoop_kept (c.of rfl) (peerTrust_kept (c.of rfl) cr cl h1_8))

theorem statFrameReceived_kept {A : Touch} {h0 h : Hub} {a0 a1} (c : A.has [.msix, .hier, .hierEvt, .collector,
    .fltEvt, .bus]) (cr : ∀ k, A.refs k) (cd : ∀ k, A.doms k) (cl : A.links a0) (H : Kept A h0 h) : Kept A h0
    (statFrameReceived a0 a1 h) := by
  unfold statFrameReceived
  exact takeFrame_kept cl H (fun _ _ k1 => (takeStat_kept c cr cd cl k1))

theorem takeSegment_kept {A : Touch} {h0 h : Hub} {a0 a1} (c : A.has [.hier]) (cl : ∀ k, A.links k) (H : Kept A h0 h)
    : Kept A h0 (takeSegment a0 a1 h) := by
  unfold takeSegment
  extract_lets x1_0 x1_1 x1_2 x1_3 x1_4 x1_5 x1_6 x1_7 x1_8 x1_9 x1_10 x1_11
  (try clear_value x1_0 x1_1 x1_2 x1_3 x1_4 x1_5 x1_6 x1_7 x1_8 x1_9 x1_10)
  have h1_11 : Kept A h0 x1_11 := Hub.onLink_kept (cl _) H
  (try clear_value x1_11)
  exact .ite
    (by
      split
      · exact .ite (takeMessage_kept c cl h1_11) h1_11
      · exact h1_11) H

theorem mgmtSegmentReceived_kept {A : Touch} {h0 h : Hub} {a0 a1} (c : A.has [.hier]) (cl : ∀ k, A.links k) (H : Kept
    A h0 h) : Kept A h0 (mgmtSegmentReceived a0 a1 h) := by
  unfold mgmtSegmentReceived
  exact takeFrame_kept (cl _) H (fun _ _ k1 => (takeSegment_kept c cl k1))

theorem mgmtMessageTimeout_kept {A : Touch} {h0 h : Hub} {a0} (c : A.has [.now]) (cd : ∀ k, A.doms k) (cl : A.links
    a0) (H : Kept A h0 h) : Kept A h0 (mgmtMessageTimeout a0 h) := by
  unfold mgmtMessageTimeout
  extract_lets x1_0
  (try clear_value x1_0)
  exact when_kept H (fun _ k2 => (atCyc_kept c cd k2 (fun _ k3 => (Hub.onLink_kept cl k3))))

theorem blockLock_kept {A : Touch} {h0 h : Hub} {a0} (c : A.has [.cplRings, .msix, .books, .hier, .runs, .profile,
    .shimEvt, .collector, .fltEvt, .bus]) (cr : ∀ k, A.refs k) (cd : ∀ k, A.doms k) (cl : A.links a0) (cq : A.ptp a0)
    (H : Kept A h0 h) : Kept A h0 (blockLock a0 h) := by
  unfold blockLock
  extract_lets x1_0 x1_1
  (try clear_value x1_0)
  have h1_1 : Kept A h0 x1_1 := Hub.onLink_kept cl H
  (try clear_value x1_1)
  exact .ite
    (.ite
      (ptpLink_kept (c.of rfl) cr cd cq (enterLink_kept (c.of rfl) cl h1_1))
      (trySyntonise_kept (c.of rfl) cl h1_1)) H

theorem blockLockLost_kept {A : Touch} {h0 h : Hub} {a0} (c : A.has [.cplRings, .msix, .books, .hier, .runs,
    .counters, .profile, .shimEvt, .collector, .fltEvt, .bus]) (cr : ∀ k, A.refs k) (cd : ∀ k, A.doms k) (cl : A.links
    a0) (cq : A.ptp a0) (H : Kept A h0 h) : Kept A h0 (blockLockLost a0 h) := by
  unfold blockLockLost
  extract_lets x1_0
  (try clear_value x1_0)
  exact .ite H (.ite (Hub.onLink_kept cl H) (when_kept H (fun _ k2 => (dropTo_kept c cr cd cl cq k2))))

theorem receiverSignalLost_kept {A : Touch} {h0 h : Hub} {a0} (c : A.has [.cplRings, .msix, .books, .hier, .runs,
    .counters, .profile, .shimEvt, .collector, .fltEvt, .bus]) (cr : ∀ k, A.refs k) (cd : ∀ k, A.doms k) (cl : A.links
    a0) (cq : A.ptp a0) (H : Kept A h0 h) : Kept A h0 (receiverSignalLost a0 h) := by
  unfold receiverSignalLost
  exact when_kept H
    (fun _ k2 => by
      extract_lets x3_0
      have h3_0 : Kept A h0 x3_0 := Hub.onLink_kept cl k2
      (try clear_value x3_0)
      exact .ite (dropTo_kept c cr cd cl cq h3_0) h3_0)

theorem receiverSignalDetected_kept {A : Touch} {h0 h : Hub} {a0} (c : A.has [.msix, .hier, .bus]) (cl : A.links a0)
    (H : Kept A h0 h) : Kept A h0 (receiverSignalDetected a0 h) := by
  unfold receiverSignalDetected
  exact when_kept H (fun _ k1 => (linkRise_kept c cl (Hub.onLink_kept cl k1)))

theorem marksMissingTimeout_kept {A : Touch} {h0 h : Hub} {a0} (c : A.has [.now, .cplRings, .msix, .books, .hier,
    .runs, .counters, .profile, .shimEvt, .collector, .fltEvt, .bus]) (cr : ∀ k, A.refs k) (cd : ∀ k, A.doms k) (cl :
    A.links a0) (cq : A.ptp a0) (H : Kept A h0 h) : Kept A h0 (marksMissingTimeout a0 h) := by
  unfold marksMissingTimeout
  exact when_kept H
    (fun _ k2 =>
      (atCyc_kept
        (c.of rfl) cd k2
        (fun _ k4 => by
          extract_lets x5_0
          (try clear_value x5_0)
          exact Hub.onLink_kept cl (dropTo_kept (c.of rfl) cr cd cl cq k4))))

theorem sbxPort_kept {A : Touch} {h0 h : Hub} {a0 a1 a2 a3} (c : A.has [.cplRings, .msix, .books, .hier, .runs,
    .counters, .profile, .shimEvt, .collector, .fltEvt, .bus]) (cr : ∀ k, A.refs k) (cd : ∀ k, A.doms k) (cl : A.links
    a0) (cq : A.ptp a0) (H : Kept A h0 h) : Kept A h0 (sbxPort a0 a1 a2 a3 h) := by
  unfold sbxPort
  extract_lets x1_0 x1_1 x1_2 x1_3 x1_4 x1_5 x1_6
  (try clear_value x1_0 x1_1 x1_2 x1_3)
  have h1_4 : Kept A h0 x1_4 := Hub.onLink_kept cl H
  (try clear_value x1_4)
  have h1_5 : Kept A h0 x1_5 := .ite (raiseLnk_kept (c.of rfl) cl h1_4) h1_4
  (try clear_value x1_5)
  have h1_6 : Kept A h0 x1_6 := .ite (sendFault_kept (c.of rfl) (raiseLnk_kept (c.of rfl) cl h1_5)) h1_5
  (try clear_value x1_6)
  exact .ite (dropTo_kept c cr cd cl cq h1_6) (linkRise_kept (c.of rfl) cl h1_6)

theorem sbxScan_kept {A : Touch} {h0 h : Hub} {a0 a1} (c : A.has [.cplRings, .msix, .books, .hier, .runs, .counters,
    .profile, .shimEvt, .collector, .fltEvt, .bus]) (cr : ∀ k, A.refs k) (cd : ∀ k, A.doms k) (cl : ∀ k, A.links k)
    (cq : ∀ k, A.ptp k) (H : Kept A h0 h) : Kept A h0 (sbxScan a0 a1 h) := by
  unfold sbxScan
  exact when_kept H (fun _ k1 => (forEach_kept k1 (fun _ _ k2 => (sbxPort_kept c cr cd (cl _) (cq _) k2))))

theorem i2cModulePoll_kept {A : Touch} {h0 h : Hub} {a0 a1 a2} (c : A.has [.msix, .bus]) (cl : A.links a0) (H : Kept A
    h0 h) : Kept A h0 (i2cModulePoll a0 a1 a2 h) := by
  unfold i2cModulePoll
  exact .ite (by split; exact (raiseLnk_kept c cl H); exact (Hub.onLink_kept cl H)) H

theorem newF_kept {A : Touch} {h0 h : Hub} {a0} (c : A.has [.cplRings, .msix, .books, .hier, .runs, .counters,
    .profile, .shimEvt, .collector, .fltEvt, .bus]) (cr : ∀ k, A.refs k) (cd : ∀ k, A.doms k) (cl : A.links a0) (H :
    Kept A h0 h) : Kept A h0 (newF a0 h) := by
  unfold newF
  extract_lets x1_0 x1_1 x1_2 x1_3 x1_4 x1_5 x1_6 x1_7
  (try clear_value x1_0 x1_1 x1_2 x1_3 x1_4 x1_5)
  have h1_6 : Kept A h0 x1_6 := Hub.onLink_kept cl H
  (try clear_value x1_6)
  have h1_7 : Kept A h0 x1_7 := settleAlpha_kept (c.of rfl) cl (deliverDelay_kept cr cd h1_6)
  (try clear_value x1_7)
  exact .ite (fallTo_kept c cr cd cl h1_7) (.ite (Hub.onLink_kept cl (enterLink_kept (c.of rfl) cl h1_7)) h1_7)

theorem deliverSample_kept {A : Touch} {h0 h : Hub} {a0} (cr : ∀ k, A.refs k) (H : Kept A h0 h) : Kept A h0
    (deliverSample a0 h) := by
  unfold deliverSample
  extract_lets x1_0 x1_1 x1_2
  (try clear_value x1_0 x1_1 x1_2)
  exact .ite (forEach_kept H (fun _ _ k2 => (Hub.onRef_kept (cr _) k2))) H

theorem linkTick_kept {A : Touch} {h0 h : Hub} {a0} (c : A.has [.cplRings, .msix, .books, .hier, .runs, .counters,
    .profile, .shimEvt, .collector, .fltEvt, .bus]) (cr : ∀ k, A.refs k) (cd : ∀ k, A.doms k) (cl : A.links a0) (H :
    Kept A h0 h) : Kept A h0 (linkTick a0 h) := by
  unfold linkTick
  extract_lets x1_0 x1_1 x1_2 x1_3
  (try clear_value x1_0)
  have h1_1 : ∀ x, Kept A h0 x → Kept A h0 (x1_1 x) := (fun _ h1_1 => (Hub.onLink_kept cl h1_1))
  have h1_2 : Kept A h0 x1_2 := Hub.onLink_kept cl H
  (try clear_value x1_2)
  have h1_3 : Kept A h0 x1_3 := .ite (newF_kept c cr cd cl h1_2) h1_2
  (try clear_value x1_3)
  exact .ite (h1_1 _ (deliverSample_kept cr h1_3)) (h1_1 _ H)

theorem takeApp_kept {A : Touch} {h0 h : Hub} {a0} (cl : A.links a0) (H : Kept A h0 h) : Kept A h0 (takeApp a0 h) :=
    by
  unfold takeApp
  exact Hub.onLink_kept cl H

theorem asymTick_kept {A : Touch} {h0 h : Hub} {a0} (c : A.has [.msix, .collector, .fltEvt, .bus]) (cl : A.links a0)
    (H : Kept A h0 h) : Kept A h0 (asymTick a0 h) := by
  unfold asymTick
  extract_lets x1_0 x1_1 x1_2 x1_3 x1_4 x1_5 x1_6 x1_7
  (try clear_value x1_1 x1_2 x1_3 x1_4 x1_5 x1_6)
  have h1_0 : Kept A h0 x1_0 := takeApp_kept cl H
  (try clear_value x1_0)
  have h1_7 : Kept A h0 x1_7 := Hub.onLink_kept cl h1_0
  (try clear_value x1_7)
  exact .ite (Hub.onLink_kept cl h1_0) (.ite (sendFault_kept c (raiseLnk_kept (c.of rfl) cl h1_7)) h1_7)

theorem keepCause_kept {A : Touch} {h0 h : Hub} {a0 a1 a2} (c : A.has [.flt]) (H : Kept A h0 h) : Kept A h0 (keepCause
    a0 a1 a2 h) := by
  unfold keepCause
  exact Hub.onFlt_kept (flt := .inl (c.mem rfl)) H

theorem pruneCauses_kept {A : Touch} {h0 h : Hub} (c : A.has [.flt]) (H : Kept A h0 h) : Kept A h0 (pruneCauses h) :=
    by
  unfold pruneCauses
  exact Hub.onFlt_kept (flt := .inl (c.mem rfl)) H

theorem readLong_kept {A : Touch} {h0 h : Hub} {a0 a1 a2 a3} (c : A.has [.msix, .store, .counters, .shimEvt, .shim,
    .collector, .fltEvt, .bus]) (H : Kept A h0 h) : Kept A h0 (readLong a0 a1 a2 a3 h) := by
  unfold readLong
  extract_lets x1_0
  (try clear_value x1_0)
  exact forEach_kept H (fun _ _ k2 => (readGroup_kept c k2))

theorem applyTemps_kept {A : Touch} {h0 h : Hub} (c : A.has [.msix, .tdc, .bus]) (H : Kept A h0 h) : Kept A h0
    (applyTemps h) := by
  unfold applyTemps
  extract_lets x1_0 x1_1 x1_2 x1_3 x1_4
  (try clear_value x1_0 x1_1 x1_2 x1_3)
  have h1_4 : Kept A h0 x1_4 := Hub.onTdc_kept (c.mem rfl) H
  (try clear_value x1_4)
  exact .ite h1_4 (raiseTdc_kept c h1_4)

theorem applyTrims_kept {A : Touch} {h0 h : Hub} {a0} (c : A.has [.cal]) (H : Kept A h0 h) : Kept A h0 (applyTrims a0
    h) := by
  unfold applyTrims
  extract_lets x1_0 x1_1 x1_2 x1_3 x1_4 x1_5
  (try clear_value x1_0 x1_1 x1_2 x1_3 x1_4 x1_5)
  split
  · exact H
  · exact Hub.onCal_kept (c.mem rfl) H

theorem aimCorr_kept {A : Touch} {h0 h : Hub} {a0} (c : A.has [.clk]) (H : Kept A h0 h) : Kept A h0 (aimCorr a0 h) :=
    by
  unfold aimCorr
  extract_lets x1_0
  (try clear_value x1_0)
  exact Hub.onClk_kept (clk := .inl (c.mem rfl)) H

theorem rampCorr_kept {A : Touch} {h0 h : Hub} (c : A.has [.clk]) (H : Kept A h0 h) : Kept A h0 (rampCorr h) := by
  unfold rampCorr
  exact Hub.onClk_kept (clk := .inl (c.mem rfl)) H

theorem applySettings_kept {A : Touch} {h0 h : Hub} (c : A.has [.cplRings, .msix, .books, .runs, .profile, .shimEvt,
    .shim, .bus]) (H : Kept A h0 h) : Kept A h0 (applySettings h) := by
  unfold applySettings
  exact forEach_kept
    (Hub.onShim_kept (shim := .inl (c.mem rfl)) H)
    (fun _ _ k1 => (complete_kept (c.of rfl) (Hub.onShim_kept (shim := .inl (c.mem rfl)) k1)))

theorem trimTick_kept {A : Touch} {h0 h : Hub} (c : A.has [.clk, .cplRings, .msix, .books, .tdc, .runs, .profile,
    .shimEvt, .shim, .cal, .bus]) (cp : ∀ k, A.plss k) (H : Kept A h0 h) : Kept A h0 (trimTick h) := by
  unfold trimTick
  extract_lets x1_0 x1_1
  have h1_0 : Kept A h0 x1_0 :=
    aimCorr_kept
      (c.of rfl)
      (applyTrims_kept (c.of rfl) (applyTemps_kept (c.of rfl) (applySettings_kept (c.of rfl) H)))
  (try clear_value x1_0)
  have h1_1 : Kept A h0 x1_1 := Hub.onCal_kept (c.mem rfl) h1_0
  (try clear_value x1_1)
  exact .same
    (by
      constructor <;> first | exact fun k => .inl (cp k) | exact .inr rfl | exact fun _ => .inr rfl) h1_1 rfl rfl rfl
    (fun _ => rfl) rfl rfl

theorem loadCal_kept {A : Touch} {h0 h : Hub} (c : A.has [.msix, .tdc, .store, .counters, .shimEvt, .shim, .cal,
    .collector, .fltEvt, .bus]) (H : Kept A h0 h) : Kept A h0 (loadCal h) := by
  unfold loadCal
  extract_lets x1_0 x1_1 x1_2 x1_3
  (try clear_value x1_1 x1_2 x1_3)
  have h1_0 : Kept A h0 x1_0 := readLong_kept (c.of rfl) (readLong_kept (c.of rfl) H)
  (try clear_value x1_0)
  split
  · exact sendFault_kept (c.of rfl) (raiseCal_kept (c.of rfl) (Hub.onCal_kept (c.mem rfl) h1_0))
  · extract_lets x2_0 x2_1 x2_2 x2_3
    (try clear_value x2_0 x2_1)
    have h2_2 : Kept A h0 x2_2 := Hub.onCal_kept (c.mem rfl) h1_0
    (try clear_value x2_2)
    have h2_3 : Kept A h0 x2_3 := applyTrims_kept (c.of rfl) (applyTemps_kept (c.of rfl) h2_2)
    (try clear_value x2_3)
    exact .ite h2_3 (raiseCal_kept (c.of rfl) h2_3)

end Sys2Proof.Machine
end

