-- ==== Sys2Proof/Laws/KeptReeds.lean ====
section
/-!
SUPPORT. What `Kept` says of the Shim store, the reeds, the host rings and the roots: one lemma for each effect.
-/

set_option Elab.async false

namespace Sys2Proof.Machine

theorem readImage_kept {A : Touch} {h0 h : Hub} {a0 a1} (c : A.has [.msix, .store, .counters, .shimEvt, .shim,
    .collector, .fltEvt, .bus]) (H : Kept A h0 h) : Kept A h0 (readImage a0 a1 h) := by
  unfold readImage
  extract_lets x1_0
  have h1_0 : Kept A h0 x1_0 := readLong_kept c H
  (try clear_value x1_0)
  exact .ite (readLong_kept c h1_0) h1_0

theorem readWholeImage_kept {A : Touch} {h0 h : Hub} {a0 a1} (c : A.has [.msix, .store, .counters, .shimEvt, .shim,
    .collector, .fltEvt, .bus]) (H : Kept A h0 h) : Kept A h0 (readWholeImage a0 a1 h) := by
  unfold readWholeImage
  exact readLong_kept c H

theorem shimReadEff_kept {A : Touch} {h0 h : Hub} {a0} (c : A.has [.cplRings, .msix, .books, .runs, .store, .counters,
    .profile, .shimEvt, .shim, .collector, .fltEvt, .bus]) (H : Kept A h0 h) : Kept A h0 (shimReadEff a0 h) := by
  unfold shimReadEff
  extract_lets x1_0 x1_1 x1_2 x1_3 x1_4
  (try clear_value x1_0 x1_1 x1_3)
  have h1_2 : Kept A h0 x1_2 := readCheck_kept (c.of rfl) H
  (try clear_value x1_2)
  have h1_4 : Kept A h0 x1_4 := busWrite_kept (c.of rfl) h1_2
  (try clear_value x1_4)
  exact .ite
    (complete_kept (c.of rfl) H)
    (.ite (complete_kept (c.of rfl) H) (.ite (complete_kept (c.of rfl) h1_4) (completeWith_kept (c.of rfl) h1_4)))

theorem shimRead_kept {A : Touch} {h0 h : Hub} {a0} (c : A.has [.cplRings, .msix, .books, .hierEvt, .runs, .store,
    .counters, .profile, .shimEvt, .shim, .collector, .fltEvt, .bus]) (H : Kept A h0 h) : Kept A h0 (shimRead a0 h) :=
    by
  unfold shimRead
  exact serve_kept (c.of rfl) H (fun _ _ k1 => (shimReadEff_kept (c.of rfl) k1))

theorem shimTxnWriteEff_kept {A : Touch} {h0 h : Hub} {a0 a1} (c : A.has [.cplRings, .msix, .books, .runs, .profile,
    .shimEvt, .shim, .collector, .fltEvt, .bus]) (H : Kept A h0 h) : Kept A h0 (shimTxnWriteEff a0 a1 h) := by
  unfold shimTxnWriteEff
  extract_lets x1_0 x1_1
  (try clear_value x1_0 x1_1)
  exact .ite
    (complete_kept (c.of rfl) H)
    (by
      split
      · exact complete_kept (c.of rfl) (sendFault_kept (c.of rfl) H)
      · extract_lets x3_0
        (try clear_value x3_0)
        exact .ite
          (complete_kept (c.of rfl) H)
          (.ite (complete_kept (c.of rfl) H) (.ite (complete_kept (c.of rfl) H) (queueTxn_kept (c.of rfl) H))))

theorem shimTxnWrite_kept {A : Touch} {h0 h : Hub} {a0 a1} (c : A.has [.cplRings, .msix, .books, .hierEvt, .runs,
    .profile, .shimEvt, .shim, .collector, .fltEvt, .bus]) (H : Kept A h0 h) : Kept A h0 (shimTxnWrite a0 a1 h) := by
  unfold shimTxnWrite
  exact serve_kept (c.of rfl) H (fun _ _ k1 => (shimTxnWriteEff_kept (c.of rfl) k1))

theorem onImage_kept {A : Touch} {h0 h : Hub} {f : Side → Hub → Hub} {d : Desc} (c : A.has [.cplRings, .msix, .books,
    .runs, .profile, .shimEvt, .bus]) (H : Kept A h0 h)
    (hf : ∀ i x, Kept A h0 x → Kept A h0 (f i x)) : Kept A h0 (onImage f d h) := by
  unfold onImage
  split
  · exact complete_kept c H
  · exact .ite (complete_kept c H) (hf _ _ H)

theorem shimTxnVerifyEff_kept {A : Touch} {h0 h : Hub} {a0} (c : A.has [.cplRings, .msix, .books, .runs, .store,
    .counters, .profile, .shimEvt, .shim, .collector, .fltEvt, .bus]) (H : Kept A h0 h) : Kept A h0 (shimTxnVerifyEff
    a0 h) := by
  unfold shimTxnVerifyEff
  exact onImage_kept
    (c.of rfl) H
    (fun _ _ k2 => by
      extract_lets x3_0 x3_1
      (try clear_value x3_1)
      have h3_0 : Kept A h0 x3_0 := readImage_kept (c.of rfl) k2
      (try clear_value x3_0)
      exact .ite
        (completeWith_kept (c.of rfl) (bumpCounter_kept (c.of rfl) (setImageState_kept (c.of rfl) h3_0)))
        (completeWith_kept (c.of rfl) (invalidateImage_kept (c.of rfl) h3_0)))

theorem shimTxnVerify_kept {A : Touch} {h0 h : Hub} {a0} (c : A.has [.cplRings, .msix, .books, .hierEvt, .runs,
    .store, .counters, .profile, .shimEvt, .shim, .collector, .fltEvt, .bus]) (H : Kept A h0 h) : Kept A h0
    (shimTxnVerify a0 h) := by
  unfold shimTxnVerify
  exact serve_kept (c.of rfl) H (fun _ _ k1 => (shimTxnVerifyEff_kept (c.of rfl) k1))

theorem shimTxnInvalidateEff_kept {A : Touch} {h0 h : Hub} {a0} (c : A.has [.cplRings, .msix, .books, .runs, .profile,
    .shimEvt, .shim, .bus]) (H : Kept A h0 h) : Kept A h0 (shimTxnInvalidateEff a0 h) := by
  unfold shimTxnInvalidateEff
  exact onImage_kept (c.of rfl) H (fun _ _ k1 => (queueTxn_kept (c.of rfl) k1))

theorem shimTxnInvalidate_kept {A : Touch} {h0 h : Hub} {a0} (c : A.has [.cplRings, .msix, .books, .hierEvt, .runs,
    .profile, .shimEvt, .shim, .bus]) (H : Kept A h0 h) : Kept A h0 (shimTxnInvalidate a0 h) := by
  unfold shimTxnInvalidate
  exact serve_kept (c.of rfl) H (fun _ _ k1 => (shimTxnInvalidateEff_kept (c.of rfl) k1))

theorem shimTxnSettingsEff_kept {A : Touch} {h0 h : Hub} {a0} (c : A.has [.parity, .cplRings, .msix, .books, .runs,
    .profile, .shimEvt, .shim, .bus]) (H : Kept A h0 h) : Kept A h0 (shimTxnSettingsEff a0 h) := by
  unfold shimTxnSettingsEff
  extract_lets x1_0 x1_1
  (try clear_value x1_0 x1_1)
  exact .ite (complete_kept (c.of rfl) H) (Hub.onShim_kept (shim := .inl (c.mem rfl)) (copyWritten_kept (c.of rfl) H))

theorem shimTxnSettings_kept {A : Touch} {h0 h : Hub} {a0} (c : A.has [.parity, .cplRings, .msix, .books, .hierEvt,
    .runs, .profile, .shimEvt, .shim, .bus]) (H : Kept A h0 h) : Kept A h0 (shimTxnSettings a0 h) := by
  unfold shimTxnSettings
  exact serve_kept (c.of rfl) H (fun _ _ k1 => (shimTxnSettingsEff_kept (c.of rfl) k1))

theorem journalOpen_kept {A : Touch} {h0 h : Hub} (c : A.has [.shim]) (H : Kept A h0 h) : Kept A h0 (journalOpen h) :=
    by
  unfold journalOpen
  split
  · exact Hub.onShim_kept (shim := .inl (c.mem rfl)) H
  · exact H
  · exact H

theorem journalCommit_kept {A : Touch} {h0 h : Hub} (c : A.has [.shim]) (H : Kept A h0 h) : Kept A h0 (journalCommit
    h) := by
  unfold journalCommit
  exact Hub.onShim_kept (shim := .inl (c.mem rfl)) H

theorem noteInvalid_kept {A : Touch} {h0 h : Hub} {a0} (c : A.has [.shimEvt]) (H : Kept A h0 h) : Kept A h0
    (noteInvalid a0 h) := by
  unfold noteInvalid
  exact .ite (raiseShim_kept c H) H

theorem journalApply_kept {A : Touch} {h0 h : Hub} (c : A.has [.cplRings, .msix, .books, .runs, .store, .counters,
    .profile, .shimEvt, .shim, .collector, .fltEvt, .bus]) (H : Kept A h0 h) : Kept A h0 (journalApply h) := by
  unfold journalApply
  split
  · exact H
  · extract_lets x2_0
    have h2_0 : Kept A h0 x2_0 :=
      noteInvalid_kept (c.of rfl) (applyTxn_kept (c.of rfl) (Hub.onShim_kept (shim := .inl (c.mem rfl)) H))
    (try clear_value x2_0)
    exact .ite H
      (by
        split
        · exact h2_0
        · exact completeWith_kept (c.of rfl) h2_0)

theorem journalTransaction_kept {A : Touch} {h0 h : Hub} {a0} (c : A.has [.cplRings, .msix, .books, .runs, .store,
    .counters, .profile, .shimEvt, .shim, .collector, .fltEvt, .bus]) (H : Kept A h0 h) : Kept A h0
    (journalTransaction a0 h) := by
  unfold journalTransaction
  extract_lets x1_0
  have h1_0 : Kept A h0 x1_0 := .ite H (journalOpen_kept (c.of rfl) H)
  (try clear_value x1_0)
  exact .ite H
    (by
      split
      · exact h1_0
      · exact journalCommit_kept (c.of rfl) h1_0
      · exact journalApply_kept c (journalCommit_kept (c.of rfl) h1_0))

theorem peatReadEff_kept {A : Touch} {h0 h : Hub} {a0} (c : A.has [.cplRings, .msix, .books, .runs, .store, .counters,
    .profile, .shimEvt, .shim, .collector, .fltEvt, .bus]) (H : Kept A h0 h) : Kept A h0 (peatReadEff a0 h) := by
  unfold peatReadEff
  extract_lets x1_0 x1_1 x1_2 x1_3 x1_4 x1_5
  (try clear_value x1_0 x1_1 x1_2 x1_3 x1_5)
  have h1_4 : Kept A h0 x1_4 := readCheck_kept (c.of rfl) H
  (try clear_value x1_4)
  exact .ite (complete_kept (c.of rfl) H) (completeWith_kept (c.of rfl) (busWrite_kept (c.of rfl) h1_4))

theorem peatRead_kept {A : Touch} {h0 h : Hub} {a0} (c : A.has [.cplRings, .msix, .books, .hierEvt, .runs, .store,
    .counters, .profile, .shimEvt, .shim, .collector, .fltEvt, .bus]) (H : Kept A h0 h) : Kept A h0 (peatRead a0 h) :=
    by
  unfold peatRead
  exact serve_kept (c.of rfl) H (fun _ _ k1 => (peatReadEff_kept (c.of rfl) k1))

theorem peatArchiveArmEff_kept {A : Touch} {h0 h : Hub} {a0} (c : A.has [.cplRings, .msix, .books, .runs, .profile,
    .shimEvt, .flt, .bus, .free]) (H : Kept A h0 h) : Kept A h0 (peatArchiveArmEff a0 h) := by
  unfold peatArchiveArmEff
  extract_lets x1_0 x1_1
  (try clear_value x1_0)
  have h1_1 : Kept A h0 x1_1 :=
    Hub.onFlt_kept
      (flt := .inl (c.mem rfl))
      (.same
        (by
          constructor <;> first | exact .inr rfl | exact fun _ => .inr rfl | exact .inl (c.mem rfl)) H rfl rfl rfl
        (fun _ => rfl) rfl rfl)
  (try clear_value x1_1)
  exact .ite (complete_kept (c.of rfl) H) (completeWith_kept (c.of rfl) h1_1)

theorem peatArchiveArm_kept {A : Touch} {h0 h : Hub} {a0} (c : A.has [.cplRings, .msix, .books, .hierEvt, .runs,
    .profile, .shimEvt, .flt, .bus, .free]) (H : Kept A h0 h) : Kept A h0 (peatArchiveArm a0 h) := by
  unfold peatArchiveArm
  exact serve_kept (c.of rfl) H (fun _ _ k1 => (peatArchiveArmEff_kept (c.of rfl) k1))

theorem onZoneEmpty_kept {A : Touch} {h0 h : Hub} (c : A.has [.flt]) (H : Kept A h0 h) :
    Kept A h0 (h.onFlt fun f => { f with ffCount := 0, ffFull := false }) :=
  Hub.onFlt_kept H (flt := .inl (c.mem rfl))

theorem peatArchiveCommitEff_kept {A : Touch} {h0 h : Hub} {a0} (c : A.has [.cplRings, .msix, .books, .runs, .store,
    .counters, .profile, .shimEvt, .shim, .collector, .fltEvt, .flt, .bus]) (H : Kept A h0 h) : Kept A h0
    (peatArchiveCommitEff a0 h) := by
  unfold peatArchiveCommitEff
  extract_lets x1_0 x1_1 x1_2 x1_3 x1_4 x1_5
  (try clear_value x1_0 x1_1 x1_2)
  have h1_3 : Kept A h0 x1_3 := Hub.onFlt_kept (flt := .inl (c.mem rfl)) H
  (try clear_value x1_3)
  have h1_4 : Kept A h0 x1_4 := onZoneEmpty_kept (c.of rfl) (journalNow_kept (c.of rfl) h1_3)
  (try clear_value x1_4)
  have h1_5 : Kept A h0 x1_5 := raiseFlt_kept (c.of rfl) (peatEvent_kept (c.of rfl) h1_4)
  (try clear_value x1_5)
  exact .ite (complete_kept (c.of rfl) h1_3) (completeWith_kept (c.of rfl) h1_5)

theorem peatArchiveCommit_kept {A : Touch} {h0 h : Hub} {a0} (c : A.has [.cplRings, .msix, .books, .hierEvt, .runs,
    .store, .counters, .profile, .shimEvt, .shim, .collector, .fltEvt, .flt, .bus]) (H : Kept A h0 h) : Kept A h0
    (peatArchiveCommit a0 h) := by
  unfold peatArchiveCommit
  exact serve_kept (c.of rfl) H (fun _ _ k1 => (peatArchiveCommitEff_kept (c.of rfl) k1))

theorem rollBack_kept {A : Touch} {h0 h : Hub} (c : A.has [.shimEvt]) (H : Kept A h0 h) : Kept A h0 (rollBack h) := by
  unfold rollBack
  exact raiseShim_kept c H

theorem loseHeader_kept {A : Touch} {h0 h : Hub} (c : A.has [.msix, .shimEvt, .collector, .fltEvt, .bus]) (H : Kept A
    h0 h) : Kept A h0 (loseHeader h) := by
  unfold loseHeader
  exact rollBack_kept (c.of rfl) (sendFault_kept (c.of rfl) H)

theorem loseRecord_kept {A : Touch} {h0 h : Hub} {a0} (c : A.has [.msix, .store, .collector, .fltEvt, .bus]) (H : Kept
    A h0 h) : Kept A h0 (loseRecord a0 h) := by
  unfold loseRecord
  exact sendFault_kept (c.of rfl) (forEach_kept H (fun _ _ k1 => (poisonGroup_kept (c.of rfl) k1)))

theorem journalFound_kept {A : Touch} {h0 h : Hub} (c : A.has [.cplRings, .msix, .books, .runs, .store, .profile,
    .shimEvt, .shim, .collector, .fltEvt, .bus]) (H : Kept A h0 h) : Kept A h0 (journalFound h) := by
  unfold journalFound
  split
  · exact H
  · extract_lets x2_0
    (try clear_value x2_0)
    exact .ite
      (completeOpt_kept
        (c.of rfl)
        (.iteF
          (loseHeader_kept (c.of rfl) (Hub.onShim_kept (shim := .inl (c.mem rfl)) H))
          (loseRecord_kept (c.of rfl) (Hub.onShim_kept (shim := .inl (c.mem rfl)) H)))) H

theorem counterFound_kept {A : Touch} {h0 h : Hub} {a0} (c : A.has [.store, .counters]) (H : Kept A h0 h) : Kept A h0
    (counterFound a0 h) := by
  unfold counterFound
  extract_lets x1_0 x1_1
  (try clear_value x1_0 x1_1)
  exact .ite (Hub.onShim_kept (store := .inl (c.mem rfl)) H) (onCounter_kept (c.of rfl) H)

theorem scrubFound_kept {A : Touch} {h0 h : Hub} {a0} (c : A.has [.cplRings, .msix, .books, .runs, .store, .counters,
    .profile, .shimEvt, .shim, .cal, .collector, .fltEvt, .bus]) (H : Kept A h0 h) : Kept A h0 (scrubFound a0 h) := by
  unfold scrubFound
  extract_lets x1_0 x1_1
  (try clear_value x1_0)
  have h1_1 : ∀ a0 x, Kept A h0 x → Kept A h0 (x1_1 a0 x) :=
    (fun _ _ h1_1 => (raiseCal_kept (c.of rfl) (Hub.onCal_kept (c.mem rfl) (journalNow_kept (c.of rfl) h1_1))))
  split
  · exact invalidateImage_kept (c.of rfl) H
  · exact .ite
      (h1_1 _ _ H)
      (.ite (h1_1 _ _ H) (.ite (counterFound_kept (c.of rfl) H) (.ite (journalFound_kept (c.of rfl) H) H)))

theorem scrubGroup_kept {A : Touch} {h0 h : Hub} {a0} (c : A.has [.cplRings, .msix, .books, .runs, .store, .counters,
    .profile, .shimEvt, .shim, .cal, .collector, .fltEvt, .bus]) (H : Kept A h0 h) : Kept A h0 (scrubGroup a0 h) := by
  unfold scrubGroup
  extract_lets x1_0
  (try clear_value x1_0)
  exact .ite H
    (by
      split
      · exact H
      · exact bumpCounter_kept
          (c.of rfl)
          (raiseShim_kept (c.of rfl) (sendFault_kept (c.of rfl) (mendGroup_kept (c.of rfl) H)))
      · exact scrubFound_kept c
          (noteUe_kept
            (c.of rfl)
            (sendFault_kept (c.of rfl) (poisonGroup_kept (c.of rfl) (mendGroup_kept (c.of rfl) H)))))

theorem scrubGroupRead_kept {A : Touch} {h0 h : Hub} {a0} (c : A.has [.cplRings, .msix, .books, .runs, .store,
    .counters, .profile, .shimEvt, .shim, .cal, .collector, .fltEvt, .bus]) (H : Kept A h0 h) : Kept A h0
    (scrubGroupRead a0 h) := by
  unfold scrubGroupRead
  exact when_kept H
    (fun _ k2 => by
      extract_lets x3_0
      have h3_0 : Kept A h0 x3_0 := scrubGroup_kept c k2
      (try clear_value x3_0)
      exact .ite
        (Hub.onShim_kept (shim := .inl (c.mem rfl)) h3_0)
        (bumpCounter_kept (c.of rfl) (raiseShim_kept (c.of rfl) (Hub.onShim_kept (shim := .inl (c.mem rfl)) h3_0))))

theorem profileAutostart_kept {A : Touch} {h0 h : Hub} (c : A.has [.top, .msix, .books, .store, .counters, .profile,
    .shimEvt, .shim, .collector, .fltEvt, .bus]) (H : Kept A h0 h) : Kept A h0 (profileAutostart h) := by
  unfold profileAutostart
  exact when_kept H
    (fun _ k2 => by
      extract_lets x3_0
      have h3_0 : Kept A h0 x3_0 :=
        forEach_kept (Hub.onTop_kept (top := .inl (c.mem rfl)) k2) (fun _ _ k4 => (readLong_kept (c.of rfl) k4))
      (try clear_value x3_0)
      split
      · exact raiseShim_kept (c.of rfl) (Hub.onShim_kept (profile := .inl (c.mem rfl)) h3_0)
      · extract_lets x5_0
        (try clear_value x5_0)
        exact profNext_kept
          (c.of rfl)
          (bumpCounter_kept (c.of rfl) (Hub.onShim_kept (profile := .inl (c.mem rfl)) h3_0)))

theorem onHourMs_kept {A : Touch} {h0 h : Hub} {g : Shim → Nat} (c : A.has [.shim]) (H : Kept A h0 h) :
    Kept A h0 (h.onShim fun s => { s with hourMs := g s }) :=
  Hub.onShim_kept H (shim := .inl (c.mem rfl))

theorem hourCounterTick_kept {A : Touch} {h0 h : Hub} (c : A.has [.counters, .shim]) (H : Kept A h0 h) : Kept A h0
    (hourCounterTick h) := by
  unfold hourCounterTick
  exact when_kept H (fun _ k1 => (bumpCounter_kept (c.of rfl) (onHourMs_kept (c.of rfl) k1)))

theorem ldrOfs_kept {A : Touch} {h0 h : Hub} {a0} (c : A.has [.shim]) (H : Kept A h0 h) : Kept A h0 (ldrOfs a0 h) :=
    by
  unfold ldrOfs
  exact Hub.onShim_kept (shim := .inl (c.mem rfl)) H

theorem ldrData_kept {A : Touch} {h0 h : Hub} {a0} (c : A.has [.msix, .store, .counters, .shimEvt, .shim, .collector,
    .fltEvt, .bus]) (H : Kept A h0 h) : Kept A h0 (ldrData a0 h) := by
  unfold ldrData
  extract_lets x1_0 x1_1 x1_2
  (try clear_value x1_0 x1_1)
  have h1_2 : Kept A h0 x1_2 := .ite H (storeRun_kept c H)
  (try clear_value x1_2)
  exact Hub.onShim_kept
    (shim := .inl (c.mem rfl))
    (store := .inr
      (by
        simp only [Shim.store]))
    (counters := .inr
      (by
        simp only))
    (profile := .inr
      (by
        simp only [Shim.profile]))
    (shimEvt := .inr
      (by
        simp only))
    (hm := fun x => by
      unfold Hub.shimOk Hub.onShim
      exact x)
    (storeRun_kept c h1_2)

theorem ldrVerify_kept {A : Touch} {h0 h : Hub} (c : A.has [.shim]) (H : Kept A h0 h) : Kept A h0 (ldrVerify h) := by
  unfold ldrVerify
  exact Hub.onShim_kept (shim := .inl (c.mem rfl)) H

theorem taskAssignEff_kept {A : Touch} {h0 h : Hub} {a0} (c : A.has [.cplRings, .msix, .books, .runs, .comp, .profile,
    .shimEvt, .collector, .fltEvt, .bus]) (cr : ∀ k, A.refs k) (cl : ∀ k, A.links k) (ct : ∀ k, A.tasks k) (cn : ∀ k,
    A.reeds k) (cv : ∀ k, A.evTasks k) (H : Kept A h0 h) : Kept A h0 (taskAssignEff a0 h) := by
  unfold taskAssignEff
  extract_lets x1_0 x1_1 x1_2 x1_3
  (try clear_value x1_0 x1_1 x1_2 x1_3)
  exact withFin_kept
    (c.of rfl) H
    (fun _ _ k2 => by
      extract_lets x3_0 x3_1 x3_2 x3_3 x3_4 x3_5 x3_6 x3_7 x3_8 x3_9 x3_10
      (try clear_value x3_0 x3_1 x3_2 x3_3)
      have h3_4 : Kept A h0 x3_4 := Hub.onTask_kept (ct _) k2
      (try clear_value x3_4)
      have h3_5 : Kept A h0 x3_5 := removeTask_kept (c.of rfl) cr cl ct cn cv h3_4
      (try clear_value x3_5)
      have h3_6 : Kept A h0 x3_6 := forgetTask_kept cr cl cv h3_4
      (try clear_value x3_6)
      have h3_7 : Kept A h0 x3_7 := createTask_kept (c.of rfl) cr cl ct cn cv h3_4
      (try clear_value x3_7)
      have h3_8 : Kept A h0 x3_8 := by
        unfold x3_8
        split
        · exact .ite (startMove_kept (ct _) (cn _) h3_7) h3_7
        · exact h3_7
      (try clear_value x3_8)
      have h3_9 : Kept A h0 x3_9 := by
        unfold x3_9
        split
        · exact .ite (startMove_kept (ct _) (cn _) h3_7) h3_7
        · exact h3_7
      (try clear_value x3_9)
      have h3_10 : Kept A h0 x3_10 := .ite (createTask_kept (c.of rfl) cr cl ct cn cv h3_4) h3_4
      (try clear_value x3_10)
      exact .ite
        (complete_kept (c.of rfl) k2)
        (.ite
          (complete_kept (c.of rfl) k2)
          (.ite
            (complete_kept (c.of rfl) k2)
            (.ite
              (completeWith_kept (c.of rfl) h3_5)
              (.ite
                (by
                  split
                  · split
                    · extract_lets x10_0
                      have h10_0 : Kept A h0 x10_0 := startMove_kept (ct _) (cn _) h3_6
                      (try clear_value x10_0)
                      exact .ite (completeWith_kept (c.of rfl) h10_0) (completeWith_kept (c.of rfl) h3_6)
                    · exact completeWith_kept (c.of rfl) h3_6
                  · split
                    · extract_lets x12_0
                      have h12_0 : Kept A h0 x12_0 := startMove_kept (ct _) (cn _) h3_6
                      (try clear_value x12_0)
                      exact .ite (completeWith_kept (c.of rfl) h12_0) (completeWith_kept (c.of rfl) h3_6)
                    · exact completeWith_kept (c.of rfl) h3_6
                  · split
                    · extract_lets x14_0
                      have h14_0 : Kept A h0 x14_0 := startMove_kept (ct _) (cn _) h3_6
                      (try clear_value x14_0)
                      exact .ite (completeWith_kept (c.of rfl) h14_0) (completeWith_kept (c.of rfl) h3_6)
                    · exact completeWith_kept (c.of rfl) h3_6
                  · split
                    · extract_lets x16_0
                      have h16_0 : Kept A h0 x16_0 := startMove_kept (ct _) (cn _) h3_6
                      (try clear_value x16_0)
                      exact .ite (completeWith_kept (c.of rfl) h16_0) (completeWith_kept (c.of rfl) h3_6)
                    · exact completeWith_kept (c.of rfl) h3_6
                  · exact .ite (completeWith_kept (c.of rfl) h3_8) (completeWith_kept (c.of rfl) h3_8)
                  · exact .ite (completeWith_kept (c.of rfl) h3_9) (completeWith_kept (c.of rfl) h3_9))
                (by
                  split
                  · extract_lets x18_0
                    have h18_0 : Kept A h0 x18_0 := .ite (startMove_kept (ct _) (cn _) h3_10) h3_10
                    (try clear_value x18_0)
                    exact completeWith_kept (c.of rfl) h18_0
                  · exact completeWith_kept (c.of rfl) h3_10))))))

theorem taskAssign_kept {A : Touch} {h0 h : Hub} {a0} (c : A.has [.cplRings, .msix, .books, .hierEvt, .runs, .comp,
    .profile, .shimEvt, .collector, .fltEvt, .bus]) (cr : ∀ k, A.refs k) (cl : ∀ k, A.links k) (ct : ∀ k, A.tasks k)
    (cn : ∀ k, A.reeds k) (cv : ∀ k, A.evTasks k) (H : Kept A h0 h) : Kept A h0 (taskAssign a0 h) := by
  unfold taskAssign
  exact serve_kept (c.of rfl) H (fun _ _ k1 => (taskAssignEff_kept (c.of rfl) cr cl ct cn cv k1))

theorem taskMoveEff_kept {A : Touch} {h0 h : Hub} {a0} (c : A.has [.cplRings, .msix, .books, .runs, .profile,
    .shimEvt, .bus]) (ct : ∀ k, A.tasks k) (cn : ∀ k, A.reeds k) (H : Kept A h0 h) : Kept A h0 (taskMoveEff a0 h) :=
    by
  unfold taskMoveEff
  extract_lets x1_0 x1_1 x1_2
  (try clear_value x1_0 x1_1 x1_2)
  exact withFin_kept c H
    (fun _ _ k2 =>
      (.ite
        (complete_kept c k2)
        (.ite
          (complete_kept c k2)
          (by
            split
            · exact startMove_kept (ct _) (cn _) k2
            · exact complete_kept c k2))))

theorem taskMove_kept {A : Touch} {h0 h : Hub} {a0} (c : A.has [.cplRings, .msix, .books, .hierEvt, .runs, .profile,
    .shimEvt, .bus]) (ct : ∀ k, A.tasks k) (cn : ∀ k, A.reeds k) (H : Kept A h0 h) : Kept A h0 (taskMove a0 h) := by
  unfold taskMove
  exact serve_kept c H (fun _ _ k1 => (taskMoveEff_kept (c.of rfl) ct cn k1))

theorem taskParamEff_kept {A : Touch} {h0 h : Hub} {a0} (c : A.has [.parity, .cplRings, .msix, .books, .runs,
    .profile, .shimEvt, .bus]) (cv : ∀ k, A.evTasks k) (H : Kept A h0 h) : Kept A h0 (taskParamEff a0 h) := by
  unfold taskParamEff
  extract_lets x1_0
  (try clear_value x1_0)
  exact withFin_kept
    (c.of rfl) H
    (fun _ _ k2 =>
      (.ite
        (complete_kept (c.of rfl) k2)
        (complete_kept (c.of rfl) (Hub.onEvTask_kept (cv _) (copyWritten_kept (c.of rfl) k2)))))

theorem taskParam_kept {A : Touch} {h0 h : Hub} {a0} (c : A.has [.parity, .cplRings, .msix, .books, .hierEvt, .runs,
    .profile, .shimEvt, .bus]) (cv : ∀ k, A.evTasks k) (H : Kept A h0 h) : Kept A h0 (taskParam a0 h) := by
  unfold taskParam
  exact serve_kept (c.of rfl) H (fun _ _ k1 => (taskParamEff_kept (c.of rfl) cv k1))

theorem checkpointWrite_kept {A : Touch} {h0 h : Hub} {a0 a1 a2} (ct : A.tasks a0) (H : Kept A h0 h) : Kept A h0
    (checkpointWrite a0 a1 a2 h) := by
  unfold checkpointWrite
  exact when_kept H (fun _ k1 => (Hub.onTask_kept ct k1))

theorem drainWhenEmpty_kept {A : Touch} {h0 h : Hub} (c : A.has [.comp]) (H : Kept A h0 h) : Kept A h0 (drainWhenEmpty
    h) := by
  unfold drainWhenEmpty
  split
  · exact .ite (Hub.onComp_kept (comp := .inl (c.mem rfl)) H) H
  · exact H

theorem taskMoveAtCheckpoint_kept {A : Touch} {h0 h : Hub} {a0} (c : A.has [.cplRings, .msix, .books, .runs, .comp,
    .profile, .shimEvt, .bus]) (ct : ∀ k, A.tasks k) (cn : ∀ k, A.reeds k) (H : Kept A h0 h) : Kept A h0
    (taskMoveAtCheckpoint a0 h) := by
  unfold taskMoveAtCheckpoint
  extract_lets x1_0 x1_1 x1_2 x1_3
  (try clear_value x1_0 x1_1)
  have h1_2 : Kept A h0 x1_2 := Hub.onTask_kept (ct _) (unseat_kept (ct _) cn H)
  (try clear_value x1_2)
  have h1_3 : Kept A h0 x1_3 := by
    unfold x1_3
    split
    · exact .ite (Hub.onReed_kept (cn _) h1_2) h1_2
    · exact h1_2
  (try clear_value x1_3)
  split
  · extract_lets x2_0
    have h2_0 : Kept A h0 x2_0 :=
      drainWhenEmpty_kept (c.of rfl) (resumeTasks_kept (c.of rfl) ct cn (seat_kept (ct _) (cn _) h1_3))
    (try clear_value x2_0)
    exact .ite
      (by
        split
        · exact completeWith_kept (c.of rfl) h2_0
        · exact h2_0) H
  · exact H

theorem coldStart_kept {A : Touch} {h0 h : Hub} {a0} (c : A.has [.msix, .hier, .comp, .collector, .fltEvt, .bus]) (cr
    : ∀ k, A.refs k) (cd : ∀ k, A.doms k) (cl : ∀ k, A.links k) (cn : ∀ k, A.reeds k) (cv : ∀ k, A.evTasks k) (H :
    Kept A h0 h) : Kept A h0 (coldStart a0 h) := by
  unfold coldStart
  extract_lets x1_0
  have h1_0 : Kept A h0 x1_0 := raiseReed_kept (c.of rfl) (taskFail_kept (c.of rfl) cn (forgetTask_kept cr cl cv H))
  (try clear_value x1_0)
  split
  · exact enterNominal_kept (c.of rfl) cr (cd _) h1_0
  · exact .ite h1_0 (Hub.onHier_kept (hier := .inl (c.mem rfl)) h1_0)
  · exact h1_0

theorem taskRestored_kept {A : Touch} {h0 h : Hub} {a0 a1 a2} (c : A.has [.cplRings, .msix, .books, .hier, .runs,
    .comp, .profile, .shimEvt, .collector, .fltEvt, .bus]) (cr : ∀ k, A.refs k) (cd : ∀ k, A.doms k) (cl : ∀ k,
    A.links k) (ct : A.tasks a0) (cn : ∀ k, A.reeds k) (cv : ∀ k, A.evTasks k) (H : Kept A h0 h) : Kept A h0
    (taskRestored a0 a1 a2 h) := by
  unfold taskRestored
  extract_lets x1_0 x1_1 x1_2 x1_3 x1_4
  (try clear_value x1_0 x1_2)
  have h1_1 : Kept A h0 x1_1 := forEach_kept H (fun _ _ k2 => (sendFault_kept (c.of rfl) k2))
  (try clear_value x1_1)
  have h1_3 : Kept A h0 x1_3 := Hub.onTask_kept ct h1_1
  (try clear_value x1_3)
  have h1_4 : Kept A h0 x1_4 := by
    unfold x1_4
    split
    · exact completeWith_kept (c.of rfl) h1_3
    · exact h1_3
  (try clear_value x1_4)
  exact .ite
    (by
      split
      · exact restoreMem_kept cr cd cl cv h1_4
      · exact coldStart_kept (c.of rfl) cr cd cl cn cv h1_4) H

theorem reedSramError_kept {A : Touch} {h0 h : Hub} {a0} (c : A.has [.top, .clk, .cplRings, .msix, .books, .tdc,
    .hier, .runs, .comp, .counters, .profile, .shimEvt, .collector, .fltEvt, .flt, .bus, .free]) (ce : ∀ k, A.evts k)
    (cr : ∀ k, A.refs k) (cl : ∀ k, A.links k) (ct : ∀ k, A.tasks k) (cn : ∀ k, A.reeds k) (H : Kept A h0 h) : Kept A
    h0 (reedSramError a0 h) := by
  unfold reedSramError
  exact when_kept H (fun _ k1 => (reedFault_kept c ce cr cl ct cn (sendFault_kept (c.of rfl) k1)))

theorem reedHeartbeatTimeout_kept {A : Touch} {h0 h : Hub} {a0} (c : A.has [.top, .clk, .cplRings, .msix, .books,
    .tdc, .hier, .runs, .comp, .counters, .profile, .shimEvt, .collector, .fltEvt, .flt, .bus, .free]) (ce : ∀ k,
    A.evts k) (cr : ∀ k, A.refs k) (cl : ∀ k, A.links k) (ct : ∀ k, A.tasks k) (cn : ∀ k, A.reeds k) (H : Kept A h0 h)
    : Kept A h0 (reedHeartbeatTimeout a0 h) := by
  unfold reedHeartbeatTimeout
  exact when_kept H (fun _ k1 => (reedFault_kept c ce cr cl ct cn k1))

theorem reedTrap_kept {A : Touch} {h0 h : Hub} {a0} (c : A.has [.top, .clk, .cplRings, .msix, .books, .tdc, .hier,
    .runs, .comp, .counters, .profile, .shimEvt, .collector, .fltEvt, .flt, .bus, .free]) (ce : ∀ k, A.evts k) (cr : ∀
    k, A.refs k) (cl : ∀ k, A.links k) (ct : ∀ k, A.tasks k) (cn : ∀ k, A.reeds k) (H : Kept A h0 h) : Kept A h0
    (reedTrap a0 h) := by
  unfold reedTrap
  exact when_kept H (fun _ k1 => (reedFault_kept c ce cr cl ct cn k1))

theorem reedDebugHalt_kept {A : Touch} {h0 h : Hub} {a0} (c : A.has [.top, .clk, .cplRings, .msix, .books, .tdc,
    .hier, .runs, .comp, .counters, .profile, .shimEvt, .collector, .fltEvt, .flt, .bus, .free]) (ce : ∀ k, A.evts k)
    (cr : ∀ k, A.refs k) (cl : ∀ k, A.links k) (ct : ∀ k, A.tasks k) (cn : ∀ k, A.reeds k) (H : Kept A h0 h) : Kept A
    h0 (reedDebugHalt a0 h) := by
  unfold reedDebugHalt
  exact when_kept H
    (fun _ k2 => by
      extract_lets x3_0
      have h3_0 : Kept A h0 x3_0 := Hub.onComp_kept (comp := .inl (c.mem rfl)) k2
      (try clear_value x3_0)
      exact .ite (reedFault_kept c ce cr cl ct cn h3_0) (Hub.onReed_kept (cn _) h3_0))

theorem reedDebugResume_kept {A : Touch} {h0 h : Hub} {a0} (c : A.has [.msix, .comp, .bus]) (ct : ∀ k, A.tasks k) (cn
    : ∀ k, A.reeds k) (H : Kept A h0 h) : Kept A h0 (reedDebugResume a0 h) := by
  unfold reedDebugResume
  exact when_kept H (fun _ k1 => (resumeTasks_kept c ct cn (Hub.onReed_kept (cn _) k1)))

theorem halfDark_kept {A : Touch} {h0 h : Hub} {a0} (c : A.has [.comp]) (cn : ∀ k, A.reeds k) (H : Kept A h0 h) : Kept
    A h0 (halfDark a0 h) := by
  unfold halfDark
  exact Hub.onComp_kept (comp := .inl (c.mem rfl)) (reeds := fun k => .inl (cn k)) H

theorem shedLost_kept {A : Touch} {h0 h : Hub} {a0} (c : A.has [.msix, .comp, .collector, .fltEvt, .bus]) (cr : ∀ k,
    A.refs k) (cl : ∀ k, A.links k) (ct : A.tasks a0) (cn : ∀ k, A.reeds k) (cv : ∀ k, A.evTasks k) (H : Kept A h0 h)
    : Kept A h0 (shedLost a0 h) := by
  unfold shedLost
  exact shed_kept c cr cl ct cn cv H

theorem restoreLost_kept {A : Touch} {h0 h : Hub} {a0} (c : A.has [.msix, .comp, .collector, .fltEvt, .bus]) (cr : ∀
    k, A.refs k) (cl : ∀ k, A.links k) (ct : ∀ k, A.tasks k) (cn : ∀ k, A.reeds k) (cv : ∀ k, A.evTasks k) (H : Kept A
    h0 h) : Kept A h0 (restoreLost a0 h) := by
  unfold restoreLost
  extract_lets x1_0 x1_1 x1_2
  (try clear_value x1_0)
  have h1_1 : Kept A h0 x1_1 := taskFail_kept (c.of rfl) cn (Hub.onTask_kept (ct _) (unseat_kept (ct _) cn H))
  (try clear_value x1_1)
  have h1_2 : ∀ x, Kept A h0 x → Kept A h0 (x1_2 x) :=
    (fun _ h1_2 => (raiseReed_kept (c.of rfl) (taskFail_kept (c.of rfl) cn (Hub.onTask_kept (ct _) h1_2))))
  split
  · exact seat_kept (ct _) (cn _) h1_1
  · split
    · split
      · exact seat_kept (ct _) (cn _) (shed_kept c cr cl (ct _) cn cv h1_1)
      · exact h1_2 _ h1_1
    · exact h1_2 _ h1_1

theorem jobAfterLoss_kept {A : Touch} {h0 h : Hub} {a0} (c : A.has [.cplRings, .msix, .books, .runs, .comp, .profile,
    .shimEvt, .bus]) (H : Kept A h0 h) : Kept A h0 (jobAfterLoss a0 h) := by
  unfold jobAfterLoss
  split
  · exact H
  · exact .ite H (completeOpt_kept (c.of rfl) (Hub.onComp_kept (comp := .inl (c.mem rfl)) H))

theorem halfLost_kept {A : Touch} {h0 h : Hub} {a0} (c : A.has [.top, .clk, .cplRings, .msix, .books, .tdc, .hier,
    .runs, .comp, .counters, .profile, .shimEvt, .collector, .fltEvt, .flt, .bus, .free]) (ce : ∀ k, A.evts k) (cr : ∀
    k, A.refs k) (cl : ∀ k, A.links k) (ct : ∀ k, A.tasks k) (cn : ∀ k, A.reeds k) (cv : ∀ k, A.evTasks k) (H : Kept A
    h0 h) : Kept A h0 (halfLost a0 h) := by
  unfold halfLost
  exact when_kept H
    (fun _ k2 => by
      extract_lets x3_0 x3_1 x3_2 x3_3 x3_4 x3_5
      (try clear_value x3_0 x3_5)
      have h3_1 : Kept A h0 x3_1 := Hub.onComp_kept (comp := .inl (c.mem rfl)) (jobAfterLoss_kept (c.of rfl) k2)
      (try clear_value x3_1)
      have h3_2 : Kept A h0 x3_2 := forEach_kept h3_1 (fun _ _ k4 => (shedLost_kept (c.of rfl) cr cl (ct _) cn cv k4))
      (try clear_value x3_2)
      have h3_3 : Kept A h0 x3_3 := forEach_kept h3_2 (fun _ _ k5 => (restoreLost_kept (c.of rfl) cr cl ct cn cv k5))
      (try clear_value x3_3)
      have h3_4 : Kept A h0 x3_4 := forEach_kept h3_3 (fun _ _ k6 => (restoreLost_kept (c.of rfl) cr cl ct cn cv k6))
      (try clear_value x3_4)
      exact enterRecovery_kept
        (c.of rfl) ce cr cl ct cn
        (raiseReed_kept
          (c.of rfl)
          (bumpCounter_kept
            (c.of rfl)
            (halfDark_kept
              (c.of rfl) cn
              (forEach_kept h3_4 (fun _ _ k7 => (moveFails_kept (c.of rfl) ce cr cl ct cn k7)))))))

theorem moveAway_kept {A : Touch} {h0 h : Hub} {a0 a1} (c : A.has [.msix, .comp, .collector, .fltEvt, .bus]) (cr : ∀
    k, A.refs k) (cl : ∀ k, A.links k) (ct : ∀ k, A.tasks k) (cn : ∀ k, A.reeds k) (cv : ∀ k, A.evTasks k) (H : Kept A
    h0 h) : Kept A h0 (moveAway a0 a1 h) := by
  unfold moveAway
  extract_lets x1_0
  (try clear_value x1_0)
  exact .ite H
    (by
      split
      · exact startMove_kept (ct _) (cn _) H
      · exact .ite
          (shed_kept c cr cl (ct _) cn cv H)
          (by
            split
            · split
              · exact startMove_kept (ct _) (cn _) (shed_kept c cr cl (ct _) cn cv H)
              · exact suspend_kept c (ct _) cn H
            · exact suspend_kept c (ct _) cn H))

theorem beginOff_kept {A : Touch} {h0 h : Hub} {a0 a1} (c : A.has [.msix, .comp, .collector, .fltEvt, .bus]) (cr : ∀
    k, A.refs k) (cl : ∀ k, A.links k) (ct : ∀ k, A.tasks k) (cn : ∀ k, A.reeds k) (cv : ∀ k, A.evTasks k) (H : Kept A
    h0 h) : Kept A h0 (beginOff a0 a1 h) := by
  unfold beginOff
  extract_lets x1_0 x1_1 x1_2 x1_3
  (try clear_value x1_1)
  have h1_0 : Kept A h0 x1_0 := Hub.onComp_kept (comp := .inl (c.mem rfl)) H
  (try clear_value x1_0)
  have h1_2 : Kept A h0 x1_2 := forEach_kept h1_0 (fun _ _ k2 => (moveAway_kept c cr cl ct cn cv k2))
  (try clear_value x1_2)
  have h1_3 : Kept A h0 x1_3 := forEach_kept h1_2 (fun _ _ k3 => (moveAway_kept c cr cl ct cn cv k3))
  (try clear_value x1_3)
  exact drainWhenEmpty_kept (c.of rfl) (forEach_kept h1_3 (fun _ _ k4 => (moveAway_kept c cr cl ct cn cv k4)))

theorem beginOn_kept {A : Touch} {h0 h : Hub} {a0 a1} (c : A.has [.comp]) (cn : ∀ k, A.reeds k) (H : Kept A h0 h) :
    Kept A h0 (beginOn a0 a1 h) := by
  unfold beginOn
  exact Hub.onComp_kept (comp := .inl (c.mem rfl)) (reeds := fun k => .inl (cn k)) H

theorem halfPowerOffEff_kept {A : Touch} {h0 h : Hub} {a0} (c : A.has [.cplRings, .msix, .books, .runs, .comp,
    .profile, .shimEvt, .collector, .fltEvt, .bus]) (cr : ∀ k, A.refs k) (cl : ∀ k, A.links k) (ct : ∀ k, A.tasks k)
    (cn : ∀ k, A.reeds k) (cv : ∀ k, A.evTasks k) (H : Kept A h0 h) : Kept A h0 (halfPowerOffEff a0 h) := by
  unfold halfPowerOffEff
  split
  · exact complete_kept (c.of rfl) H
  · exact .ite
      (complete_kept (c.of rfl) H)
      (.ite
        (complete_kept (c.of rfl) H)
        (.ite (complete_kept (c.of rfl) H) (beginOff_kept (c.of rfl) cr cl ct cn cv H)))

theorem halfPowerOff_kept {A : Touch} {h0 h : Hub} {a0} (c : A.has [.cplRings, .msix, .books, .hierEvt, .runs, .comp,
    .profile, .shimEvt, .collector, .fltEvt, .bus]) (cr : ∀ k, A.refs k) (cl : ∀ k, A.links k) (ct : ∀ k, A.tasks k)
    (cn : ∀ k, A.reeds k) (cv : ∀ k, A.evTasks k) (H : Kept A h0 h) : Kept A h0 (halfPowerOff a0 h) := by
  unfold halfPowerOff
  exact serve_kept (c.of rfl) H (fun _ _ k1 => (halfPowerOffEff_kept (c.of rfl) cr cl ct cn cv k1))

theorem halfPowerOnEff_kept {A : Touch} {h0 h : Hub} {a0} (c : A.has [.cplRings, .msix, .books, .runs, .comp,
    .profile, .shimEvt, .bus]) (cn : ∀ k, A.reeds k) (H : Kept A h0 h) : Kept A h0 (halfPowerOnEff a0 h) := by
  unfold halfPowerOnEff
  split
  · exact complete_kept (c.of rfl) H
  · exact .ite (complete_kept (c.of rfl) H) (.ite (complete_kept (c.of rfl) H) (beginOn_kept (c.of rfl) cn H))

theorem halfPowerOn_kept {A : Touch} {h0 h : Hub} {a0} (c : A.has [.cplRings, .msix, .books, .hierEvt, .runs, .comp,
    .profile, .shimEvt, .bus]) (cn : ∀ k, A.reeds k) (H : Kept A h0 h) : Kept A h0 (halfPowerOn a0 h) := by
  unfold halfPowerOn
  exact serve_kept (c.of rfl) H (fun _ _ k1 => (halfPowerOnEff_kept (c.of rfl) cn k1))

theorem ivuFlush_kept {A : Touch} {h0 h : Hub} {a0} (c : A.has [.cplRings, .msix, .books, .runs, .profile, .shimEvt,
    .bus]) (ci : A.ivus a0) (H : Kept A h0 h) : Kept A h0 (ivuFlush a0 h) := by
  unfold ivuFlush
  split
  · exact completeWith_kept c (Hub.onIvu_kept ci H)
  · exact H

theorem takeCharge_kept {A : Touch} {h0 h : Hub} {a0} (c : A.has [.cplRings, .msix, .books, .runs, .comp, .profile,
    .shimEvt, .bus]) (ci : ∀ k, A.ivus k) (H : Kept A h0 h) : Kept A h0 (takeCharge a0 h) := by
  unfold takeCharge
  exact forEach_kept
    (flushHeld_kept
      (c.of rfl)
      (Hub.onHost_kept
        (books := .inl (c.mem rfl))
        (hi := ids_map
          (by
            simp only [Hub.onHost_host, List.map_map]
            rfl) rfl)
        (Hub.onComp_kept (comp := .inl (c.mem rfl)) H)))
    (fun _ _ k1 => (ivuFlush_kept (c.of rfl) (ci _) k1))

theorem halfPowerOffDone_kept {A : Touch} {h0 h : Hub} (c : A.has [.cplRings, .msix, .books, .runs, .comp, .profile,
    .shimEvt, .bus]) (cn : ∀ k, A.reeds k) (H : Kept A h0 h) : Kept A h0 (halfPowerOffDone h) := by
  unfold halfPowerOffDone
  split
  · exact H
  · extract_lets x2_0 x2_1
    have h2_0 : Kept A h0 x2_0 := .ite (raiseCharge_kept (c.of rfl) (Hub.onComp_kept (comp := .inl (c.mem rfl)) H)) H
    (try clear_value x2_0)
    have h2_1 : Kept A h0 x2_1 := Hub.onComp_kept (comp := .inl (c.mem rfl)) (halfDark_kept (c.of rfl) cn h2_0)
    (try clear_value x2_1)
    exact .ite
      (by
        split
        · exact complete_kept (c.of rfl) h2_1
        · exact .ite (beginOn_kept (c.of rfl) cn h2_1) h2_1) H

theorem halfPowerOnDone_kept {A : Touch} {h0 h : Hub} (c : A.has [.cplRings, .msix, .books, .runs, .comp, .profile,
    .shimEvt, .bus]) (ct : ∀ k, A.tasks k) (cn : ∀ k, A.reeds k) (H : Kept A h0 h) : Kept A h0 (halfPowerOnDone h) :=
    by
  unfold halfPowerOnDone
  split
  · exact H
  · extract_lets x2_0 x2_1 x2_2
    (try clear_value x2_0)
    have h2_1 : Kept A h0 x2_1 := Hub.onComp_kept (comp := .inl (c.mem rfl)) (reeds := fun k => .inl (cn k)) H
    (try clear_value x2_1)
    have h2_2 : Kept A h0 x2_2 := raiseCharge_kept (c.of rfl) h2_1
    (try clear_value x2_2)
    exact .ite (completeOpt_kept (c.of rfl) (resumeTasks_kept (c.of rfl) ct cn h2_2)) H

theorem refreshExec_kept {A : Touch} {h0 h : Hub} (c : A.has [.shim]) (H : Kept A h0 h) : Kept A h0 (refreshExec h) :=
    by
  unfold refreshExec
  extract_lets x1_0 x1_1
  (try clear_value x1_0 x1_1)
  exact Hub.onShim_kept (shim := .inl (c.mem rfl)) H

theorem chargeClaim_kept {A : Touch} {h0 h : Hub} {a0 a1} (c : A.has [.cplRings, .msix, .books, .runs, .comp,
    .profile, .shimEvt, .shim, .bus]) (ci : ∀ k, A.ivus k) (H : Kept A h0 h) : Kept A h0 (chargeClaim a0 a1 h) := by
  unfold chargeClaim
  extract_lets x1_0 x1_1 x1_2 x1_3 x1_4
  (try clear_value x1_0 x1_1 x1_2 x1_3)
  have h1_4 : Kept A h0 x1_4 := by
    unfold x1_4
    split
    · exact Hub.onComp_kept (comp := .inl (c.mem rfl)) H
    · exact .ite
        (Hub.onComp_kept
          (comp := .inl (c.mem rfl))
          (tasks := fun _ =>
            .inr
              (by
                simp only [setWarden]))
          (reeds := fun _ =>
            .inr
              (by
                simp only [setWarden]))
          (evTasks := fun _ =>
            .inr
              (by
                simp only [setWarden]))
          (takeCharge_kept (c.of rfl) ci H))
        (.ite (takeCharge_kept (c.of rfl) ci H) (.ite (takeCharge_kept (c.of rfl) ci H) H))
  (try clear_value x1_4)
  exact .ite (refreshExec_kept (c.of rfl) h1_4) H

theorem fetchError_kept {A : Touch} {h0 h : Hub} {a0} (c : A.has [.msix, .comp, .store, .counters, .shimEvt, .shim,
    .collector, .fltEvt, .bus]) (H : Kept A h0 h) : Kept A h0 (fetchError a0 h) := by
  unfold fetchError
  extract_lets x1_0 x1_1 x1_2 x1_3
  (try clear_value x1_0 x1_1)
  have h1_2 : Kept A h0 x1_2 := by
    unfold x1_2
    split
    · exact readGroup_kept (c.of rfl) H
    · exact sendFault_kept (c.of rfl) H
  (try clear_value x1_2)
  have h1_3 : Kept A h0 x1_3 := invalidateImage_kept (c.of rfl) h1_2
  (try clear_value x1_3)
  exact Hub.onComp_kept (comp := .inl (c.mem rfl)) h1_3

theorem wardenHeartbeatTimeout_kept {A : Touch} {h0 h : Hub} {a0} (c : A.has [.top, .clk, .cplRings, .msix, .books,
    .tdc, .hier, .runs, .comp, .store, .counters, .profile, .shimEvt, .shim, .collector, .fltEvt, .flt, .bus, .free])
    (ce : ∀ k, A.evts k) (ci : ∀ k, A.ivus k) (cr : ∀ k, A.refs k) (cl : ∀ k, A.links k) (ct : ∀ k, A.tasks k) (cn : ∀
    k, A.reeds k) (H : Kept A h0 h) : Kept A h0 (wardenHeartbeatTimeout a0 h) := by
  unfold wardenHeartbeatTimeout
  extract_lets x1_0
  have h1_0 : Kept A h0 x1_0 := sendFault_kept (c.of rfl) H
  (try clear_value x1_0)
  split
  · exact H
  · extract_lets x2_0 x2_1 x2_2 x2_3
    (try clear_value x2_2)
    have h2_0 : Kept A h0 x2_0 := .ite (fetchError_kept (c.of rfl) h1_0) h1_0
    (try clear_value x2_0)
    have h2_1 : Kept A h0 x2_1 := Hub.onComp_kept (comp := .inl (c.mem rfl)) h2_0
    (try clear_value x2_1)
    have h2_3 : Kept A h0 x2_3 :=
      .ite
        (enterRecovery_kept
          (c.of rfl) ce cr cl ct cn
          (raiseCharge_kept (c.of rfl) (bumpCounter_kept (c.of rfl) (takeCharge_kept (c.of rfl) ci h2_1)))) h2_1
    (try clear_value x2_3)
    exact .ite (refreshExec_kept (c.of rfl) h2_3) H

theorem rebootWarden_kept {A : Touch} {h0 h : Hub} {a0} (c : A.has [.msix, .comp, .shim, .bus]) (H : Kept A h0 h) :
    Kept A h0 (rebootWarden a0 h) := by
  unfold rebootWarden
  exact refreshExec_kept (c.of rfl) (raiseCharge_kept (c.of rfl) (Hub.onComp_kept (comp := .inl (c.mem rfl)) H))

theorem wardenRelease_kept {A : Touch} {h0 h : Hub} {a0} (c : A.has [.msix, .comp, .shim, .bus]) (H : Kept A h0 h) :
    Kept A h0 (wardenRelease a0 h) := by
  unfold wardenRelease
  exact when_kept H (fun _ k1 => (rebootWarden_kept c k1))

theorem splitCharge_kept {A : Touch} {h0 h : Hub} (c : A.has [.cplRings, .msix, .books, .runs, .comp, .profile,
    .shimEvt, .shim, .collector, .fltEvt, .bus]) (ci : ∀ k, A.ivus k) (H : Kept A h0 h) : Kept A h0 (splitCharge h) :=
    by
  unfold splitCharge
  extract_lets x1_0
  (try clear_value x1_0)
  exact when_kept H
    (fun _ k2 => by
      extract_lets x3_0 x3_1 x3_2
      (try clear_value x3_0 x3_1)
      have h3_2 : Kept A h0 x3_2 :=
        Hub.onComp_kept
          (comp := .inl (c.mem rfl))
          (tasks := fun _ =>
            .inr
              (by
                simp only [setWarden]))
          (reeds := fun _ =>
            .inr
              (by
                simp only [setWarden]))
          (evTasks := fun _ =>
            .inr
              (by
                simp only [setWarden]))
          (takeCharge_kept (c.of rfl) ci k2)
      (try clear_value x3_2)
      exact refreshExec_kept (c.of rfl) (sendFault_kept (c.of rfl) (raiseCharge_kept (c.of rfl) h3_2)))

theorem reservationAgeTimeout_kept {A : Touch} {h0 h : Hub} {a0} (c : A.has [.msix, .comp, .collector, .fltEvt, .bus])
    (H : Kept A h0 h) : Kept A h0 (reservationAgeTimeout a0 h) := by
  unfold reservationAgeTimeout
  extract_lets x1_0
  have h1_0 : Kept A h0 x1_0 := Hub.onComp_kept (comp := .inl (c.mem rfl)) H
  (try clear_value x1_0)
  split
  · exact H
  · exact .ite
      (by
        split
        · exact raiseReed_kept (c.of rfl) (sendFault_kept (c.of rfl) h1_0)) H

theorem evResult_kept {A : Touch} {h0 h : Hub} {a0} (c : A.has [.telRings, .msix, .bus]) (cv : A.evTasks a0) (H : Kept
    A h0 h) : Kept A h0 (evResult a0 h) := by
  unfold evResult
  extract_lets x1_0 x1_1
  (try clear_value x1_0 x1_1)
  split
  · extract_lets x2_0 x2_1 x2_2
    (try clear_value x2_0 x2_1)
    have h2_2 : Kept A h0 x2_2 := Hub.onEvTask_kept cv H
    (try clear_value x2_2)
    split
    · exact .ite (telOffer_kept c h2_2) h2_2
    · exact h2_2
  · exact H

theorem eventTaskRecord_kept {A : Touch} {h0 h : Hub} {a0} (c : A.has [.telRings, .msix, .bus]) (cv : A.evTasks a0) (H
    : Kept A h0 h) : Kept A h0 (eventTaskRecord a0 h) := by
  unfold eventTaskRecord
  extract_lets x1_0
  (try clear_value x1_0)
  split
  · exact H
  · extract_lets x2_0 x2_1 x2_2 x2_3 x2_4
    (try clear_value x2_1 x2_2 x2_4)
    have h2_0 : Kept A h0 x2_0 := Hub.onEvTask_kept cv H
    (try clear_value x2_0)
    have h2_3 : Kept A h0 x2_3 := Hub.onEvTask_kept cv h2_0
    (try clear_value x2_3)
    exact .ite (.ite (Hub.onEvTask_kept cv h2_0) (.ite (evResult_kept c cv h2_3) h2_3)) H

theorem nopEff_kept {A : Touch} {h0 h : Hub} {a0} (c : A.has [.cplRings, .msix, .books, .runs, .profile, .shimEvt,
    .bus]) (H : Kept A h0 h) : Kept A h0 (nopEff a0 h) := by
  unfold nopEff
  exact complete_kept c H

theorem nop_kept {A : Touch} {h0 h : Hub} {a0} (c : A.has [.cplRings, .msix, .books, .hierEvt, .runs, .profile,
    .shimEvt, .bus]) (H : Kept A h0 h) : Kept A h0 (nop a0 h) := by
  unfold nop
  exact serve_kept c H (fun _ _ k1 => (nopEff_kept (c.of rfl) k1))

theorem readTimeEff_kept {A : Touch} {h0 h : Hub} {a0 a1} (c : A.has [.now, .cplRings, .msix, .books, .runs, .profile,
    .shimEvt, .bus]) (cd : ∀ k, A.doms k) (H : Kept A h0 h) : Kept A h0 (readTimeEff a0 a1 h) := by
  unfold readTimeEff
  extract_lets x1_0
  have h1_0 : Kept A h0 x1_0 := advanceTo_kept (c.of rfl) cd H
  (try clear_value x1_0)
  exact completeWith_kept (c.of rfl) h1_0

theorem readTime_kept {A : Touch} {h0 h : Hub} {a0 a1} (c : A.has [.now, .cplRings, .msix, .books, .hierEvt, .runs,
    .profile, .shimEvt, .bus]) (cd : ∀ k, A.doms k) (H : Kept A h0 h) : Kept A h0 (readTime a0 a1 h) := by
  unfold readTime
  exact serve_kept (c.of rfl) H (fun _ _ k1 => (readTimeEff_kept (c.of rfl) cd k1))

theorem badBell_kept {A : Touch} {h0 h : Hub} {a0} (c : A.has [.msix, .collector, .fltEvt, .bus]) (H : Kept A h0 h) :
    Kept A h0 (badBell a0 h) := by
  unfold badBell
  exact sendFault_kept c H

theorem commandDoorbell_kept {A : Touch} {h0 h : Hub} {a0 a1 a2} (c : A.has [.now, .cmdRings, .msix, .collector,
    .fltEvt, .bus]) (cd : ∀ k, A.doms k) (H : Kept A h0 h) : Kept A h0 (commandDoorbell a0 a1 a2 h) := by
  unfold commandDoorbell
  extract_lets x1_0
  (try clear_value x1_0)
  exact when_kept H
    (fun _ k2 => by
      extract_lets x3_0 x3_1
      (try clear_value x3_1)
      have h3_0 : Kept A h0 x3_0 := advanceTo_kept (c.of rfl) cd k2
      (try clear_value x3_0)
      exact .ite (Hub.onRing_kept (c.mem rfl) h3_0) (badBell_kept (c.of rfl) h3_0))

theorem streamRoom_kept {A : Touch} {h0 h : Hub} {a0} (ce : ∀ k, A.evts k) (H : Kept A h0 h) : Kept A h0 (streamRoom
    a0 h) := by
  unfold streamRoom
  split
  · exact .ite (Hub.onEvt_kept (ce _) H) H
  · exact H
  · exact H
  · exact H

theorem takeCons_kept {A : Touch} {h0 h : Hub} {a0 a1} (c : A.has [.msix, .collector, .fltEvt, .bus]) (cg : ringPart
    a0 ∈ A.parts) (ce : ∀ k, A.evts k) (H : Kept A h0 h) : Kept A h0 (takeCons a0 a1 h) := by
  unfold takeCons
  extract_lets x1_0
  (try clear_value x1_0)
  exact when_kept H
    (fun _ k2 => by
      extract_lets x3_0
      (try clear_value x3_0)
      exact .ite (streamRoom_kept ce (Hub.onRing_kept cg k2)) (badBell_kept c k2))

theorem consumerDoorbell_kept {A : Touch} {h0 h : Hub} {a0 a1} (c : A.has [.cplRings, .telRings, .strRings, .msix,
    .collector, .fltEvt, .bus]) (ce : ∀ k, A.evts k) (H : Kept A h0 h) : Kept A h0 (consumerDoorbell a0 a1 h) := by
  unfold consumerDoorbell
  split
  · exact H
  · exact takeCons_kept (c.of rfl) (c.mem rfl) ce H
  · exact takeCons_kept (c.of rfl) (c.mem rfl) ce H
  · exact takeCons_kept (c.of rfl) (c.mem rfl) ce H

theorem takeSlot_kept {A : Touch} {h0 h : Hub} {a0} (c : A.has [.cmdRings, .bus]) (H : Kept A h0 h) : Kept A h0
    (takeSlot a0 h) := by
  unfold takeSlot
  exact idxWriteBack_kept (c.of rfl) (Hub.onRing_kept (c.mem rfl) H)

theorem malformed_kept {A : Touch} {h0 h : Hub} {a0 a1 a2 a3} (c : A.has [.cplRings, .msix, .books, .runs, .profile,
    .shimEvt, .collector, .fltEvt, .bus]) (H : Kept A h0 h) : Kept A h0 (malformed a0 a1 a2 a3 h) := by
  unfold malformed
  extract_lets x1_0 x1_1
  have h1_0 : Kept A h0 x1_0 := sendFault_kept (c.of rfl) H
  (try clear_value x1_0)
  exact .ite
    (postCompletion_kept (c.of rfl) h1_0)
    (complete_kept (c.of rfl) (Hub.onHost_kept (books := .inl (c.mem rfl)) (hi := ids_new rfl rfl rfl) h1_0))

theorem descriptorFetch_kept {A : Touch} {h0 h : Hub} {a0 a1} (c : A.has [.cmdRings, .cplRings, .msix, .books, .runs,
    .profile, .shimEvt, .collector, .fltEvt, .bus]) (H : Kept A h0 h) : Kept A h0 (descriptorFetch a0 a1 h) := by
  unfold descriptorFetch
  exact when_kept H
    (fun _ k2 => by
      extract_lets x3_0 x3_1
      (try clear_value x3_0)
      have h3_1 : Kept A h0 x3_1 := takeSlot_kept (c.of rfl) (Hub.onHost_kept (books := .inl (c.mem rfl)) k2)
      (try clear_value x3_1)
      exact .ite (enterDesc_kept (c.of rfl) h3_1) (malformed_kept (c.of rfl) h3_1))

theorem fastRingDescriptor_kept {A : Touch} {h0 h : Hub} {a0 a1 a2} (c : A.has [.now, .cmdRings, .cplRings, .msix,
    .books, .runs, .profile, .shimEvt, .collector, .fltEvt, .bus]) (cd : ∀ k, A.doms k) (H : Kept A h0 h) : Kept A h0
    (fastRingDescriptor a0 a1 a2 h) := by
  unfold fastRingDescriptor
  exact when_kept H
    (fun _ k2 => by
      extract_lets x3_0 x3_1 x3_2
      (try clear_value x3_0 x3_2)
      have h3_1 : Kept A h0 x3_1 := takeSlot_kept (c.of rfl) (advanceTo_kept (c.of rfl) cd k2)
      (try clear_value x3_1)
      exact .ite (postCompletion_kept (c.of rfl) h3_1) (malformed_kept (c.of rfl) h3_1))

theorem descriptorReadError_kept {A : Touch} {h0 h : Hub} {a0 a1 a2} (c : A.has [.cmdRings, .msix, .collector,
    .fltEvt, .bus]) (H : Kept A h0 h) : Kept A h0 (descriptorReadError a0 a1 a2 h) := by
  unfold descriptorReadError
  extract_lets x1_0
  (try clear_value x1_0)
  exact when_kept H (fun _ k2 => (sendFault_kept (c.of rfl) (Hub.onRing_kept (c.mem rfl) k2)))

theorem commandRingDrained_kept {A : Touch} {h0 h : Hub} {a0} (c : A.has [.cmdRings]) (H : Kept A h0 h) : Kept A h0
    (commandRingDrained a0 h) := by
  unfold commandRingDrained
  exact when_kept H (fun _ k1 => (Hub.onRing_kept (c.mem rfl) k1))

theorem coalesceEnd_kept {A : Touch} {h0 h : Hub} {a0} (c : A.has [.now, .msix, .bus]) (cg : ringPart a0 ∈ A.parts)
    (cd : ∀ k, A.doms k) (H : Kept A h0 h) : Kept A h0 (coalesceEnd a0 h) := by
  unfold coalesceEnd
  extract_lets x1_0
  (try clear_value x1_0)
  exact when_kept H
    (fun _ k2 =>
      (.ite
        (atCyc_kept (c.of rfl) cd k2 (fun _ k3 => (ringSignal_kept (c.of rfl) cg k3)))
        (ringSignal_kept (c.of rfl) cg k2)))

theorem coalesceTimeout_kept {A : Touch} {h0 h : Hub} {a0} (c : A.has [.now, .cplRings, .telRings, .strRings, .msix,
    .bus]) (cd : ∀ k, A.doms k) (H : Kept A h0 h) : Kept A h0 (coalesceTimeout a0 h) := by
  unfold coalesceTimeout
  split
  · exact H
  · exact coalesceEnd_kept (c.of rfl) (c.mem rfl) cd H
  · exact coalesceEnd_kept (c.of rfl) (c.mem rfl) cd H
  · exact coalesceEnd_kept (c.of rfl) (c.mem rfl) cd H

theorem unmask_kept {A : Touch} {h0 h : Hub} {a0} (c : A.has [.msix, .bus]) (H : Kept A h0 h) : Kept A h0 (unmask a0
    h) := by
  unfold unmask
  extract_lets x1_0 x1_1
  (try clear_value x1_0)
  have h1_1 : Kept A h0 x1_1 := Hub.onHost_kept (msix := .inl (c.mem rfl)) H
  (try clear_value x1_1)
  exact .ite (sendMsix_kept c h1_1) h1_1

theorem msixUnmask_kept {A : Touch} {h0 h : Hub} {a0} (c : A.has [.msix, .bus]) (H : Kept A h0 h) : Kept A h0
    (msixUnmask a0 h) := by
  unfold msixUnmask
  exact when_kept H (fun _ k1 => (unmask_kept c k1))

theorem endpointClear_kept {A : Touch} {h0 h : Hub} (c : A.has [.hostRegs, .cmdRings, .cplRings, .telRings, .strRings,
    .msix, .books]) (ce : ∀ k, A.evts k) (cm : ∀ k, A.mbx k) (H : Kept A h0 h) : Kept A h0 (endpointClear h) := by
  refine .same ?_ H rfl rfl rfl (fun k => ?_) ?_ rfl
  · constructor <;> first | exact .inr rfl | exact fun _ => .inr rfl | exact .inl (c.mem rfl) | exact fun k => .inl (ce k) | exact fun k => .inl (cm k)
  · unfold endpointClear
    simp only [Fin.getElem_fin, Vector.getElem_map]
  · unfold endpointClear
    simp only [List.map_map]
    exact List.map_congr_left fun d _ => by dsimp only [Function.comp]; split <;> rfl

theorem endpointReset_kept {A : Touch} {h0 h : Hub} {a0} (c : A.has [.top, .hostRegs, .cmdRings, .cplRings, .telRings,
    .strRings, .msix, .books]) (ce : ∀ k, A.evts k) (cm : ∀ k, A.mbx k) (H : Kept A h0 h) : Kept A h0 (endpointReset
    a0 h) := by
  unfold endpointReset
  extract_lets x1_0
  have h1_0 : Kept A h0 x1_0 := by
    unfold x1_0
    split
    · exact Hub.onTop_kept (top := .inl (c.mem rfl)) H
    · exact H
    · exact H
    · exact H
  (try clear_value x1_0)
  exact .ite h1_0
    (.ite (Hub.onHost_kept (hostRegs := .inl (c.mem rfl)) h1_0) (endpointClear_kept (c.of rfl) ce cm h1_0))

theorem endpointReady_kept {A : Touch} {h0 h : Hub} (c : A.has [.top, .hostRegs]) (H : Kept A h0 h) : Kept A h0
    (endpointReady h) := by
  unfold endpointReady
  exact when_kept H
    (fun _ k1 => (Hub.onHost_kept (hostRegs := .inl (c.mem rfl)) (Hub.onTop_kept (top := .inl (c.mem rfl)) k1)))

theorem rootStart_kept {A : Touch} {h0 h : Hub} {a0} (c : A.has [.clk]) (H : Kept A h0 h) : Kept A h0 (rootStart a0 h)
    := by
  unfold rootStart
  exact Hub.onClk_kept (clk := .inl (c.mem rfl)) H

theorem activate_kept {A : Touch} {h0 h : Hub} {a0} (c : A.has [.now, .clk]) (H : Kept A h0 h) : Kept A h0 (activate
    a0 h) := by
  unfold activate
  exact aimCorr_kept (c.of rfl) (Hub.onClk_kept (clk := .inl (c.mem rfl)) (now := .inl (c.mem rfl)) H)

theorem tryActivate_kept {A : Touch} {h0 h : Hub} {a0} (c : A.has [.now, .clk]) (H : Kept A h0 h) : Kept A h0
    (tryActivate a0 h) := by
  unfold tryActivate
  extract_lets x1_0
  (try clear_value x1_0)
  exact .ite (activate_kept c H) H

theorem rootLock_kept {A : Touch} {h0 h : Hub} {a0 a1} (c : A.has [.now, .clk]) (H : Kept A h0 h) : Kept A h0
    (rootLock a0 a1 h) := by
  unfold rootLock
  exact when_kept H (fun _ k2 => (tryActivate_kept c (Hub.onClk_kept (clk := .inl (c.mem rfl)) k2)))

theorem rootLost_kept {A : Touch} {h0 h : Hub} {a0 a1} (c : A.has [.clk, .msix, .collector, .fltEvt, .bus]) (H : Kept
    A h0 h) : Kept A h0 (rootLost a0 a1 h) := by
  unfold rootLost
  exact sendFault_kept (c.of rfl) (Hub.onClk_kept (clk := .inl (c.mem rfl)) H)

theorem rootLockTimeout_kept {A : Touch} {h0 h : Hub} {a0} (c : A.has [.now, .clk, .msix, .collector, .fltEvt, .bus])
    (H : Kept A h0 h) : Kept A h0 (rootLockTimeout a0 h) := by
  unfold rootLockTimeout
  exact when_kept H
    (fun _ k1 =>
      (tryActivate_kept
        (c.of rfl)
        (raiseRoot_kept (c.of rfl) (rootLost_kept (c.of rfl) (Hub.onClk_kept (clk := .inl (c.mem rfl)) k1)))))

theorem rootRelationValid_kept {A : Touch} {h0 h : Hub} (c : A.has [.clk]) (H : Kept A h0 h) : Kept A h0
    (rootRelationValid h) := by
  unfold rootRelationValid
  extract_lets x1_0
  (try clear_value x1_0)
  exact when_kept H (fun _ k2 => (Hub.onClk_kept (clk := .inl (c.mem rfl)) k2))

theorem changeover_kept {A : Touch} {h0 h : Hub} {a0} (c : A.has [.now, .clk, .msix, .counters, .bus]) (cd : ∀ k,
    A.doms k) (H : Kept A h0 h) : Kept A h0 (changeover a0 h) := by
  unfold changeover
  extract_lets x1_0 x1_1 x1_2 x1_3 x1_4 x1_5 x1_6
  (try clear_value x1_0 x1_1 x1_2 x1_3 x1_4)
  have h1_5 : Kept A h0 x1_5 :=
    .same
      (by
        constructor <;> first | exact fun k => .inl (cd k) | exact .inr rfl | exact fun _ => .inr rfl) H rfl rfl rfl
      (fun _ => rfl) rfl rfl
  (try clear_value x1_5)
  have h1_6 : Kept A h0 x1_6 := Hub.onClk_kept (now := .inl (c.mem rfl)) (clk := .inl (c.mem rfl)) h1_5
  (try clear_value x1_6)
  exact bumpCounter_kept (c.of rfl) (raiseRoot_kept (c.of rfl) h1_6)

theorem rootFault_kept {A : Touch} {h0 h : Hub} {a0 a1} (c : A.has [.now, .clk, .msix, .counters, .collector, .fltEvt,
    .bus]) (cd : ∀ k, A.doms k) (H : Kept A h0 h) : Kept A h0 (rootFault a0 a1 h) := by
  unfold rootFault
  split
  · exact raiseRoot_kept (c.of rfl) (rootLost_kept (c.of rfl) (Hub.onClk_kept (clk := .inl (c.mem rfl)) H))
  · exact .ite
      (checkRots_kept
        (c.of rfl) cd
        (changeover_kept (c.of rfl) cd (raiseRoot_kept (c.of rfl) (rootLost_kept (c.of rfl) H))))
      (raiseRoot_kept (c.of rfl) (rootLost_kept (c.of rfl) H))
  · exact H
  · exact H
  · exact H

theorem rootFaultDetected_kept {A : Touch} {h0 h : Hub} {a0 a1} (c : A.has [.now, .clk, .msix, .counters, .collector,
    .fltEvt, .bus]) (cd : ∀ k, A.doms k) (H : Kept A h0 h) : Kept A h0 (rootFaultDetected a0 a1 h) := by
  unfold rootFaultDetected
  exact when_kept H (fun _ k1 => (rootFault_kept c cd k1))

theorem attributeJump_kept {A : Touch} {h0 h : Hub} {a0} (c : A.has [.now, .clk, .msix, .counters, .collector,
    .fltEvt, .bus]) (cd : ∀ k, A.doms k) (H : Kept A h0 h) : Kept A h0 (attributeJump a0 h) := by
  unfold attributeJump
  extract_lets x1_0
  (try clear_value x1_0)
  exact rootFault_kept c cd (Hub.onClk_kept (clk := .inl (c.mem rfl)) H)

theorem rootXJump_kept {A : Touch} {h0 h : Hub} {a0} (c : A.has [.now, .clk, .msix, .counters, .collector, .fltEvt,
    .bus]) (cd : ∀ k, A.doms k) (H : Kept A h0 h) : Kept A h0 (rootXJump a0 h) := by
  unfold rootXJump
  extract_lets x1_0
  (try clear_value x1_0)
  exact when_kept H
    (fun _ k2 => by
      extract_lets x3_0 x3_1 x3_2 x3_3
      (try clear_value x3_0 x3_1 x3_2)
      have h3_3 : Kept A h0 x3_3 := Hub.onClk_kept (clk := .inl (c.mem rfl)) k2
      (try clear_value x3_3)
      exact .ite (attributeJump_kept c cd (raiseRoot_kept (c.of rfl) h3_3)) (raiseRoot_kept (c.of rfl) h3_3))

theorem jumpAttributed_kept {A : Touch} {h0 h : Hub} {a0} (c : A.has [.now, .clk, .msix, .counters, .collector,
    .fltEvt, .bus]) (cd : ∀ k, A.doms k) (H : Kept A h0 h) : Kept A h0 (jumpAttributed a0 h) := by
  unfold jumpAttributed
  exact when_kept H (fun _ k2 => (by extract_lets x3_0; (try clear_value x3_0); exact (attributeJump_kept c cd k2)))

theorem jumpAttributionTimeout_kept {A : Touch} {h0 h : Hub} (c : A.has [.now, .clk, .msix, .counters, .collector,
    .fltEvt, .bus]) (cd : ∀ k, A.doms k) (H : Kept A h0 h) : Kept A h0 (jumpAttributionTimeout h) := by
  unfold jumpAttributionTimeout
  exact when_kept H (fun _ k1 => (attributeJump_kept c cd (raiseRoot_kept (c.of rfl) k1)))

theorem ovenFault_kept {A : Touch} {h0 h : Hub} (c : A.has [.clk, .msix, .collector, .fltEvt, .bus]) (H : Kept A h0 h)
    : Kept A h0 (ovenFault h) := by
  unfold ovenFault
  exact sendFault_kept (c.of rfl) (raiseRoot_kept (c.of rfl) H)

theorem ovenBandEntry_kept {A : Touch} {h0 h : Hub} (c : A.has [.clk]) (H : Kept A h0 h) : Kept A h0 (ovenBandEntry h)
    := by
  unfold ovenBandEntry
  exact when_kept H (fun _ k1 => (Hub.onClk_kept (clk := .inl (c.mem rfl)) k1))

theorem ovenBandExit_kept {A : Touch} {h0 h : Hub} (c : A.has [.clk, .msix, .collector, .fltEvt, .bus]) (H : Kept A h0
    h) : Kept A h0 (ovenBandExit h) := by
  unfold ovenBandExit
  exact when_kept H
    (fun _ k2 => by
      extract_lets x3_0 x3_1 x3_2
      (try clear_value x3_0)
      have h3_1 : Kept A h0 x3_1 := Hub.onClk_kept (clk := .inl (c.mem rfl)) k2
      (try clear_value x3_1)
      have h3_2 : Kept A h0 x3_2 := .ite (raiseRoot_kept (c.of rfl) h3_1) h3_1
      (try clear_value x3_2)
      exact .ite (ovenFault_kept c h3_2) h3_2)

theorem warmOverflow_kept {A : Touch} {h0 h : Hub} {a0} (c : A.has [.msix, .collector, .fltEvt, .bus]) (cd : A.doms
    a0) (H : Kept A h0 h) : Kept A h0 (warmOverflow a0 h) := by
  unfold warmOverflow
  exact .ite (sendFault_kept c (Hub.onDom_kept cd H)) H

theorem tbWarmRise_kept {A : Touch} {h0 h : Hub} (c : A.has [.clk, .msix, .collector, .fltEvt, .bus]) (cd : ∀ k,
    A.doms k) (H : Kept A h0 h) : Kept A h0 (tbWarmRise h) := by
  unfold tbWarmRise
  exact when_kept H
    (fun _ k1 =>
      (forEach_kept
        (raiseRoot_kept (c.of rfl) (Hub.onClk_kept (clk := .inl (c.mem rfl)) k1))
        (fun _ _ k2 => (warmOverflow_kept (c.of rfl) (cd _) k2))))

theorem ovenWarmupLimit_kept {A : Touch} {h0 h : Hub} (c : A.has [.clk, .msix, .collector, .fltEvt, .bus]) (H : Kept A
    h0 h) : Kept A h0 (ovenWarmupLimit h) := by
  unfold ovenWarmupLimit
  exact when_kept H (fun _ k1 => (ovenFault_kept c (Hub.onClk_kept (clk := .inl (c.mem rfl)) k1)))

theorem ladderLock_kept {A : Touch} {h0 h : Hub} {a0} (c : A.has [.clk]) (H : Kept A h0 h) : Kept A h0 (ladderLock a0
    h) := by
  unfold ladderLock
  exact when_kept H (fun _ k1 => (Hub.onClk_kept (clk := .inl (c.mem rfl)) k1))

theorem ladderLossOfLock_kept {A : Touch} {h0 h : Hub} {a0} (c : A.has [.clk, .msix, .collector, .fltEvt, .bus]) (H :
    Kept A h0 h) : Kept A h0 (ladderLossOfLock a0 h) := by
  unfold ladderLossOfLock
  exact when_kept H
    (fun _ k1 =>
      (sendFault_kept (c.of rfl) (raiseRoot_kept (c.of rfl) (Hub.onClk_kept (clk := .inl (c.mem rfl)) k1))))

theorem dllTrack_kept {A : Touch} {h0 h : Hub} {a0 a1} (cy : A.dlls a0) (H : Kept A h0 h) : Kept A h0 (dllTrack a0 a1
    h) := by
  unfold dllTrack
  extract_lets x1_0 x1_1
  (try clear_value x1_0 x1_1)
  exact .ite (Hub.onDll_kept cy H) H

theorem bootRelease_kept {A : Touch} {h0 h : Hub} {a0} (co : A.outs a0) (H : Kept A h0 h) : Kept A h0 (bootRelease a0
    h) := by
  unfold bootRelease
  exact when_kept H (fun _ k1 => (Hub.onOut_kept co k1))

theorem dllLock_kept {A : Touch} {h0 h : Hub} {a0 a1 a2} (co : A.outs a0) (cy : A.dlls a0) (H : Kept A h0 h) : Kept A
    h0 (dllLock a0 a1 a2 h) := by
  unfold dllLock
  exact when_kept H (fun _ k1 => (bootRelease_kept co (Hub.onDll_kept cy k1)))

theorem dllLossOfLock_kept {A : Touch} {h0 h : Hub} {a0 a1 a2 a3} (c : A.has [.dllEvt, .msix, .collector, .fltEvt,
    .bus]) (cy : A.dlls a0) (H : Kept A h0 h) : Kept A h0 (dllLossOfLock a0 a1 a2 a3 h) := by
  unfold dllLossOfLock
  exact when_kept H (fun _ k1 => (sendFault_kept (c.of rfl) (raiseDll_kept (c.of rfl) (Hub.onDll_kept cy k1))))

theorem rearmDll_kept {A : Touch} {h0 h : Hub} {a0} (cy : A.dlls a0) (H : Kept A h0 h) : Kept A h0 (rearmDll a0 h) :=
    by
  unfold rearmDll
  exact Hub.onDll_kept cy H

theorem dllStarts_kept {A : Touch} {h0 h : Hub} (cy : ∀ k, A.dlls k) (H : Kept A h0 h) : Kept A h0 (dllStarts h) := by
  unfold dllStarts
  exact .same
    (by
      constructor <;> first | exact fun k => .inl (cy k) | exact .inr rfl | exact fun _ => .inr rfl) H rfl rfl rfl
    (fun _ => rfl) rfl rfl

end Sys2Proof.Machine
end

