-- ==== Sys2Proof/Laws/KeptOutputs.lean ====
section
/-!
SUPPORT. What `Kept` says of outputs, the hierarchy, the ticks, the monitors and SELFTEST: one lemma for each effect.
-/

set_option Elab.async false

namespace Sys2Proof.Machine

theorem senseChange_kept {A : Touch} {h0 h : Hub} {a0} (cy : A.dlls a0) (H : Kept A h0 h) : Kept A h0 (senseChange a0
    h) := by
  unfold senseChange
  extract_lets x1_0
  (try clear_value x1_0)
  exact .ite H (Hub.onDll_kept cy H)

theorem dropPending_kept {A : Touch} {h0 h : Hub} {a0} (c : A.has [.cplRings, .msix, .books, .runs, .profile,
    .shimEvt, .bus]) (co : A.outs a0) (H : Kept A h0 h) : Kept A h0 (dropPending a0 h) := by
  unfold dropPending
  split
  · exact complete_kept c (Hub.onOut_kept co H)
  · exact H

theorem outputConfigEff_kept {A : Touch} {h0 h : Hub} {a0} (c : A.has [.parity, .cplRings, .msix, .books, .banks,
    .runs, .profile, .shimEvt, .bus]) (co : ∀ k, A.outs k) (cy : ∀ k, A.dlls k) (H : Kept A h0 h) : Kept A h0
    (outputConfigEff a0 h) := by
  unfold outputConfigEff
  extract_lets x1_0 x1_1
  (try clear_value x1_0 x1_1)
  exact withFin_kept
    (c.of rfl) H
    (fun _ _ k2 => by
      extract_lets x3_0 x3_1 x3_2 x3_3 x3_4 x3_5 x3_6
      (try clear_value x3_0 x3_3 x3_6)
      have h3_1 : Kept A h0 x3_1 := dropPending_kept (c.of rfl) (co _) k2
      (try clear_value x3_1)
      have h3_2 : Kept A h0 x3_2 :=
        .same
          (by
            constructor <;> first | exact .inr rfl | exact fun _ => .inr rfl | exact .inl (c.mem rfl)) h3_1 rfl rfl
          rfl
          (fun _ => rfl) rfl rfl
      (try clear_value x3_2)
      have h3_4 : Kept A h0 x3_4 := Hub.onOut_kept (co _) (copyWritten_kept (c.of rfl) h3_2)
      (try clear_value x3_4)
      have h3_5 : Kept A h0 x3_5 := .ite (senseChange_kept (cy _) h3_4) h3_4
      (try clear_value x3_5)
      exact .ite
        (complete_kept (c.of rfl) k2)
        (.ite (completeWith_kept (c.of rfl) h3_5) (Hub.onOut_kept (co _) h3_5)))

theorem outputConfig_kept {A : Touch} {h0 h : Hub} {a0} (c : A.has [.parity, .cplRings, .msix, .books, .banks,
    .hierEvt, .runs, .profile, .shimEvt, .bus]) (co : ∀ k, A.outs k) (cy : ∀ k, A.dlls k) (H : Kept A h0 h) : Kept A
    h0 (outputConfig a0 h) := by
  unfold outputConfig
  exact serve_kept (c.of rfl) H (fun _ _ k1 => (outputConfigEff_kept (c.of rfl) co cy k1))

theorem outputBoundary_kept {A : Touch} {h0 h : Hub} {a0} (c : A.has [.now, .cplRings, .msix, .books, .runs, .profile,
    .shimEvt, .bus]) (cd : ∀ k, A.doms k) (co : A.outs a0) (cy : A.dlls a0) (H : Kept A h0 h) : Kept A h0
    (outputBoundary a0 h) := by
  unfold outputBoundary
  extract_lets x1_0
  (try clear_value x1_0)
  split
  · exact H
  · exact .optN
      (.ite (reachDom_kept (c.of rfl) cd H) .none) H
      fun _ k3 => by
        extract_lets x4_0 x4_1 x4_2 x4_3
        (try clear_value x4_0)
        have h4_1 : Kept A h0 x4_1 := Hub.onOut_kept co k3
        (try clear_value x4_1)
        have h4_2 : Kept A h0 x4_2 := raiseOut_kept co h4_1
        (try clear_value x4_2)
        have h4_3 : Kept A h0 x4_3 := .ite (senseChange_kept cy h4_2) h4_2
        (try clear_value x4_3)
        exact completeWith_kept (c.of rfl) h4_3

theorem plsApply_kept {A : Touch} {h0 h : Hub} {a0 a1 a2 a3} (c : A.has [.cplRings, .msix, .books, .runs, .profile,
    .shimEvt, .bus]) (cp : A.plss a0) (H : Kept A h0 h) : Kept A h0 (plsApply a0 a1 a2 a3 h) := by
  unfold plsApply
  extract_lets x1_0 x1_1 x1_2 x1_3 x1_4 x1_5 x1_6 x1_7
  (try clear_value x1_0 x1_1 x1_2 x1_3 x1_4 x1_6 x1_7)
  have h1_5 : Kept A h0 x1_5 := Hub.onPls_kept cp H
  (try clear_value x1_5)
  exact completeWith_kept c h1_5

theorem pulseConfigEff_kept {A : Touch} {h0 h : Hub} {a0} (c : A.has [.parity, .cplRings, .msix, .books, .runs,
    .profile, .shimEvt, .bus]) (cp : ∀ k, A.plss k) (H : Kept A h0 h) : Kept A h0 (pulseConfigEff a0 h) := by
  unfold pulseConfigEff
  extract_lets x1_0 x1_1
  (try clear_value x1_0 x1_1)
  exact withFin_kept
    (c.of rfl) H
    (fun _ _ k2 => by
      extract_lets x3_0 x3_1 x3_2
      (try clear_value x3_0 x3_1)
      have h3_2 : Kept A h0 x3_2 := Hub.onPls_kept (cp _) (copyWritten_kept (c.of rfl) k2)
      (try clear_value x3_2)
      exact .ite
        (complete_kept (c.of rfl) k2)
        (.ite (Hub.onPls_kept (cp _) h3_2) (plsApply_kept (c.of rfl) (cp _) h3_2)))

theorem pulseConfig_kept {A : Touch} {h0 h : Hub} {a0} (c : A.has [.parity, .cplRings, .msix, .books, .hierEvt, .runs,
    .profile, .shimEvt, .bus]) (cp : ∀ k, A.plss k) (H : Kept A h0 h) : Kept A h0 (pulseConfig a0 h) := by
  unfold pulseConfig
  exact serve_kept (c.of rfl) H (fun _ _ k1 => (pulseConfigEff_kept (c.of rfl) cp k1))

theorem pulseGridInstant_kept {A : Touch} {h0 h : Hub} {a0} (c : A.has [.now]) (cd : ∀ k, A.doms k) (cp : A.plss a0)
    (H : Kept A h0 h) : Kept A h0 (pulseGridInstant a0 h) := by
  unfold pulseGridInstant
  extract_lets x1_0 x1_1
  (try clear_value x1_0 x1_1)
  exact .optN
    (.ite (reachDom_kept c cd H) .none) H
    fun _ k2 => by
      extract_lets x3_0 x3_1
      (try clear_value x3_1)
      have h3_0 : Kept A h0 x3_0 := Hub.onPls_kept cp k2
      (try clear_value x3_0)
      exact .ite (raisePls_kept cp (Hub.onPls_kept cp h3_0)) (Hub.onPls_kept cp h3_0)

theorem pulseEnd_kept {A : Touch} {h0 h : Hub} {a0} (c : A.has [.now, .cplRings, .msix, .books, .runs, .profile,
    .shimEvt, .bus]) (cd : ∀ k, A.doms k) (cp : A.plss a0) (H : Kept A h0 h) : Kept A h0 (pulseEnd a0 h) := by
  unfold pulseEnd
  extract_lets x1_0 x1_1 x1_2
  (try clear_value x1_0 x1_1 x1_2)
  exact .optN
    (.ite (reachDom_kept (c.of rfl) cd H) .none) H
    fun _ k2 => by
      extract_lets x3_0 x3_1 x3_2
      (try clear_value x3_0)
      have h3_1 : Kept A h0 x3_1 := Hub.onPls_kept cp k2
      (try clear_value x3_1)
      have h3_2 : Kept A h0 x3_2 := .ite (raisePls_kept cp h3_1) h3_1
      (try clear_value x3_2)
      exact forEach_kept h3_2 (fun _ _ k4 => (plsApply_kept (c.of rfl) cp k4))

theorem dropAnchor_kept {A : Touch} {h0 h : Hub} {a0} (c : A.has [.cplRings, .msix, .books, .runs, .profile, .shimEvt,
    .bus]) (cp : A.plss a0) (H : Kept A h0 h) : Kept A h0 (dropAnchor a0 h) := by
  unfold dropAnchor
  extract_lets x1_0
  (try clear_value x1_0)
  exact completeOpt_kept c (Hub.onPls_kept cp H)

theorem anchorStart_kept {A : Touch} {h0 h : Hub} {a0 a1} (c : A.has [.cplRings, .msix, .books, .runs, .profile,
    .shimEvt, .bus]) (cp : ∀ k, A.plss k) (H : Kept A h0 h) : Kept A h0 (anchorStart a0 a1 h) := by
  unfold anchorStart
  extract_lets x1_0
  (try clear_value x1_0)
  exact withFin_kept c H
    (fun _ _ k2 => by
      extract_lets x3_0
      (try clear_value x3_0)
      exact .ite (complete_kept c k2) (Hub.onPls_kept (cp _) (dropAnchor_kept c (cp _) k2)))

theorem pulseAnchorOnce_kept {A : Touch} {h0 h : Hub} {a0} (c : A.has [.cplRings, .msix, .books, .hierEvt, .runs,
    .profile, .shimEvt, .bus]) (cp : ∀ k, A.plss k) (H : Kept A h0 h) : Kept A h0 (pulseAnchorOnce a0 h) := by
  unfold pulseAnchorOnce
  exact serve_kept c H (fun _ _ k1 => (anchorStart_kept (c.of rfl) cp k1))

theorem pulseAnchorTrack_kept {A : Touch} {h0 h : Hub} {a0} (c : A.has [.cplRings, .msix, .books, .hierEvt, .runs,
    .profile, .shimEvt, .bus]) (cp : ∀ k, A.plss k) (H : Kept A h0 h) : Kept A h0 (pulseAnchorTrack a0 h) := by
  unfold pulseAnchorTrack
  exact serve_kept c H (fun _ _ k1 => (anchorStart_kept (c.of rfl) cp k1))

theorem anchorStop_kept {A : Touch} {h0 h : Hub} {a0} (c : A.has [.cplRings, .msix, .books, .runs, .profile, .shimEvt,
    .bus]) (cp : ∀ k, A.plss k) (H : Kept A h0 h) : Kept A h0 (anchorStop a0 h) := by
  unfold anchorStop
  extract_lets x1_0
  (try clear_value x1_0)
  exact withFin_kept c H
    (fun _ _ k2 =>
      (.ite (complete_kept c k2) (complete_kept c (Hub.onPls_kept (cp _) (dropAnchor_kept c (cp _) k2)))))

theorem pulseAnchorStop_kept {A : Touch} {h0 h : Hub} {a0} (c : A.has [.cplRings, .msix, .books, .hierEvt, .runs,
    .profile, .shimEvt, .bus]) (cp : ∀ k, A.plss k) (H : Kept A h0 h) : Kept A h0 (pulseAnchorStop a0 h) := by
  unfold pulseAnchorStop
  exact serve_kept c H (fun _ _ k1 => (anchorStop_kept (c.of rfl) cp k1))

theorem anchorPlace_kept {A : Touch} {h0 h : Hub} {a0 a1} (c : A.has [.cplRings, .msix, .books, .runs, .profile,
    .shimEvt, .bus]) (cp : A.plss a0) (H : Kept A h0 h) : Kept A h0 (anchorPlace a0 a1 h) := by
  unfold anchorPlace
  extract_lets x1_0 x1_1 x1_2 x1_3 x1_4 x1_5 x1_6 x1_7
  (try clear_value x1_0 x1_1 x1_2 x1_3 x1_4 x1_5)
  have h1_6 : Kept A h0 x1_6 := Hub.onPls_kept cp H
  (try clear_value x1_6)
  have h1_7 : Kept A h0 x1_7 := raisePls_kept cp h1_6
  (try clear_value x1_7)
  split
  · exact completeWith_kept c h1_7
  · exact h1_7

theorem anchorTrack_kept {A : Touch} {h0 h : Hub} {a0 a1} (cp : A.plss a0) (H : Kept A h0 h) : Kept A h0 (anchorTrack
    a0 a1 h) := by
  unfold anchorTrack
  extract_lets x1_0 x1_1 x1_2 x1_3 x1_4
  (try clear_value x1_0 x1_1 x1_2 x1_3 x1_4)
  exact .ite (Hub.onPls_kept cp H) (raisePls_kept cp H)

theorem pulseAnchorEdge_kept {A : Touch} {h0 h : Hub} {a0 a1 a2} (c : A.has [.now, .cplRings, .msix, .books, .tdc,
    .runs, .profile, .shimEvt, .bus]) (ce : ∀ k, A.evts k) (cr : ∀ k, A.refs k) (cd : ∀ k, A.doms k) (cp : A.plss a0)
    (H : Kept A h0 h) : Kept A h0 (pulseAnchorEdge a0 a1 a2 h) := by
  unfold pulseAnchorEdge
  extract_lets x1_0 x1_1 x1_2 x1_3
  (try clear_value x1_1 x1_2 x1_3)
  have h1_0 : Kept A h0 x1_0 := advanceTo_kept (c.of rfl) cd H
  (try clear_value x1_0)
  exact .ite
    (by
      split
      · exact useLane_kept (c.of rfl) ce cr (.ite (anchorTrack_kept cp h1_0) (anchorPlace_kept (c.of rfl) cp h1_0))
      · exact h1_0) h1_0

theorem anchorLostTimeout_kept {A : Touch} {h0 h : Hub} {a0} (c : A.has [.now, .msix, .collector, .fltEvt, .bus]) (cd
    : ∀ k, A.doms k) (cp : A.plss a0) (H : Kept A h0 h) : Kept A h0 (anchorLostTimeout a0 h) := by
  unfold anchorLostTimeout
  extract_lets x1_0
  (try clear_value x1_0)
  exact when_kept H
    (fun _ k2 =>
      (atCyc_kept
        (c.of rfl) cd k2
        (fun _ k3 => (sendFault_kept (c.of rfl) (raisePls_kept cp (Hub.onPls_kept cp k3))))))

theorem anchorOnceTimeout_kept {A : Touch} {h0 h : Hub} {a0} (c : A.has [.now, .cplRings, .msix, .books, .runs,
    .profile, .shimEvt, .bus]) (cd : ∀ k, A.doms k) (cp : A.plss a0) (H : Kept A h0 h) : Kept A h0 (anchorOnceTimeout
    a0 h) := by
  unfold anchorOnceTimeout
  extract_lets x1_0
  (try clear_value x1_0)
  exact when_kept H
    (fun _ k2 => (atCyc_kept (c.of rfl) cd k2 (fun _ k3 => (completeOpt_kept (c.of rfl) (Hub.onPls_kept cp k3)))))

theorem plsTicks_kept {A : Touch} {h0 h : Hub} (cp : ∀ k, A.plss k) (H : Kept A h0 h) : Kept A h0 (plsTicks h) := by
  unfold plsTicks
  exact .same
    (by
      constructor <;> first | exact fun k => .inl (cp k) | exact .inr rfl | exact fun _ => .inr rfl) H rfl rfl rfl
    (fun _ => rfl) rfl rfl

theorem outputsSafe_kept {A : Touch} {h0 h : Hub} (c : A.has [.cplRings, .msix, .books, .runs, .profile, .shimEvt,
    .bus]) (co : ∀ k, A.outs k) (cp : ∀ k, A.plss k) (H : Kept A h0 h) : Kept A h0 (outputsSafe h) := by
  unfold outputsSafe
  extract_lets x1_0
  have h1_0 : Kept A h0 x1_0 := forEach_kept H (fun _ _ k2 => (dropPending_kept c (co _) k2))
  (try clear_value x1_0)
  exact forEach_kept h1_0
    (fun _ _ k3 => by
      extract_lets x4_0 x4_1
      (try clear_value x4_0)
      have h4_1 : Kept A h0 x4_1 := forEach_kept (Hub.onPls_kept (cp _) k3) (fun _ _ k5 => (complete_kept c k5))
      (try clear_value x4_1)
      exact .ite (Hub.onPls_kept (cp _) (dropAnchor_kept c (cp _) h4_1)) h4_1)

theorem outputsOff_kept {A : Touch} {h0 h : Hub} (co : ∀ k, A.outs k) (cp : ∀ k, A.plss k) (H : Kept A h0 h) : Kept A
    h0 (outputsOff h) := by
  unfold outputsOff
  exact .same
    (by
      constructor <;> first | exact fun k => .inl (co k) | exact fun k => .inl (cp k) | exact .inr rfl | exact fun _ => .inr rfl)
    H rfl rfl rfl
    (fun _ => rfl) rfl rfl

theorem sendPtp_kept {A : Touch} {h0 h : Hub} {a0 a1} (c : A.has [.wire]) (H : Kept A h0 h) : Kept A h0 (sendPtp a0 a1
    h) := by
  unfold sendPtp
  extract_lets x1_0
  (try clear_value x1_0)
  exact .same
    (by
      constructor <;> first | exact .inr rfl | exact fun _ => .inr rfl | exact .inl (c.mem rfl)) H rfl rfl rfl
    (fun _ => rfl) rfl rfl

theorem sendAnnounce_kept {A : Touch} {h0 h : Hub} {a0} (c : A.has [.wire]) (H : Kept A h0 h) : Kept A h0
    (sendAnnounce a0 h) := by
  unfold sendAnnounce
  extract_lets x1_0
  (try clear_value x1_0)
  exact sendPtp_kept c H

theorem ptpState_kept {A : Touch} {h0 h : Hub} {a0 a1} (c : A.has [.cplRings, .msix, .books, .runs, .profile,
    .shimEvt, .collector, .fltEvt, .bus]) (cr : ∀ k, A.refs k) (cd : ∀ k, A.doms k) (cq : A.ptp a0) (H : Kept A h0 h)
    : Kept A h0 (ptpState a0 a1 h) := by
  unfold ptpState
  extract_lets x1_0 x1_1
  (try clear_value x1_0)
  have h1_1 : Kept A h0 x1_1 := Hub.onPtp_kept cq H
  (try clear_value x1_1)
  exact .ite (lrefsLost_kept c cr cd h1_1) h1_1

theorem bmca_kept {A : Touch} {h0 h : Hub} (c : A.has [.cplRings, .msix, .books, .runs, .profile, .shimEvt,
    .collector, .fltEvt, .bus]) (cr : ∀ k, A.refs k) (cd : ∀ k, A.doms k) (cq : ∀ k, A.ptp k) (H : Kept A h0 h) : Kept
    A h0 (bmca h) := by
  unfold bmca
  extract_lets x1_0
  (try clear_value x1_0)
  exact forEach_kept H (fun _ _ k2 => (ptpState_kept c cr cd (cq _) k2))

theorem esmcHold_kept {A : Touch} {h0 h : Hub} {a0} (c : A.has [.cplRings, .msix, .books, .runs, .profile, .shimEvt,
    .collector, .fltEvt, .bus]) (cr : ∀ k, A.refs k) (cd : ∀ k, A.doms k) (H : Kept A h0 h) : Kept A h0 (esmcHold a0
    h) := by
  unfold esmcHold
  exact .ite (lrefsLost_kept c cr cd H) H

theorem discoverPtpEff_kept {A : Touch} {h0 h : Hub} {a0} (c : A.has [.parity, .cplRings, .msix, .books, .runs,
    .profile, .shimEvt, .collector, .fltEvt, .bus]) (cr : ∀ k, A.refs k) (cd : ∀ k, A.doms k) (cq : ∀ k, A.ptp k) (H :
    Kept A h0 h) : Kept A h0 (discoverPtpEff a0 h) := by
  unfold discoverPtpEff
  extract_lets x1_0
  (try clear_value x1_0)
  exact withFin_kept
    (c.of rfl) H
    (fun _ _ k2 =>
      (.ite
        (complete_kept (c.of rfl) k2)
        (complete_kept
          (c.of rfl)
          (copyWritten_kept
            (c.of rfl)
            (esmcHold_kept
              (c.of rfl) cr cd
              (bmca_kept (c.of rfl) cr cd cq (ptpLink_kept (c.of rfl) cr cd (cq _) (Hub.onPtp_kept (cq _) k2))))))))

theorem hierDiscoverPtp_kept {A : Touch} {h0 h : Hub} {a0} (c : A.has [.parity, .cplRings, .msix, .books, .hierEvt,
    .runs, .profile, .shimEvt, .collector, .fltEvt, .bus]) (cr : ∀ k, A.refs k) (cd : ∀ k, A.doms k) (cq : ∀ k, A.ptp
    k) (H : Kept A h0 h) : Kept A h0 (hierDiscoverPtp a0 h) := by
  unfold hierDiscoverPtp
  exact serve_kept (c.of rfl) H (fun _ _ k1 => (discoverPtpEff_kept (c.of rfl) cr cd cq k1))

theorem ptpAnnounceReceived_kept {A : Touch} {h0 h : Hub} {a0 a1} (c : A.has [.cplRings, .msix, .books, .runs,
    .profile, .shimEvt, .collector, .fltEvt, .bus]) (cr : ∀ k, A.refs k) (cd : ∀ k, A.doms k) (cq : ∀ k, A.ptp k) (H :
    Kept A h0 h) : Kept A h0 (ptpAnnounceReceived a0 a1 h) := by
  unfold ptpAnnounceReceived
  exact when_kept H (fun _ k2 => (bmca_kept c cr cd cq (Hub.onPtp_kept (cq _) k2)))

theorem ptpAnnounceReceiptTimeout_kept {A : Touch} {h0 h : Hub} {a0} (c : A.has [.cplRings, .msix, .books, .runs,
    .profile, .shimEvt, .collector, .fltEvt, .bus]) (cr : ∀ k, A.refs k) (cd : ∀ k, A.doms k) (cq : ∀ k, A.ptp k) (H :
    Kept A h0 h) : Kept A h0 (ptpAnnounceReceiptTimeout a0 h) := by
  unfold ptpAnnounceReceiptTimeout
  exact when_kept H (fun _ k1 => (bmca_kept c cr cd cq (ptpState_kept c cr cd (cq _) (Hub.onPtp_kept (cq _) k1))))

theorem ptpEventAt_kept {A : Touch} {h0 h : Hub} {a0 a1 a2} (c : A.has [.wire]) (cq : A.ptp a0) (H : Kept A h0 h) :
    Kept A h0 (ptpEventAt a0 a1 a2 h) := by
  unfold ptpEventAt
  extract_lets x1_0 x1_1 x1_2 x1_3 x1_4
  (try clear_value x1_0 x1_1 x1_4)
  have h1_2 : ∀ x, Kept A h0 x → Kept A h0 (x1_2 x) := (fun _ h1_2 => (Hub.onPtp_kept cq h1_2))
  have h1_3 : ∀ x, Kept A h0 x → Kept A h0 (x1_3 x) := (fun _ h1_3 => (Hub.onPtp_kept cq h1_3))
  split
  · exact .ite (h1_2 _ (.ite (sendPtp_kept c (sendPtp_kept c H)) (sendPtp_kept c H))) H
  · exact .ite (h1_2 _ (Hub.onPtp_kept cq (sendPtp_kept c H))) H
  · exact .ite (h1_2 _ (Hub.onPtp_kept cq (sendPtp_kept c H))) H
  · exact .ite (h1_2 _ (.ite (sendPtp_kept c (sendPtp_kept c H)) (sendPtp_kept c H))) H
  · exact h1_3 _ (.ite (sendPtp_kept c H) H)
  · exact h1_3 _ H
  · exact h1_3 _
      (by
        split
        · exact .ite (Hub.onPtp_kept cq H) H
        · exact H)

theorem ptpEventMessage_kept {A : Touch} {h0 h : Hub} {a0 a1 a2} (c : A.has [.now, .wire]) (cd : ∀ k, A.doms k) (cq :
    A.ptp a0) (H : Kept A h0 h) : Kept A h0 (ptpEventMessage a0 a1 a2 h) := by
  unfold ptpEventMessage
  extract_lets x1_0
  have h1_0 : Kept A h0 x1_0 := advanceTo_kept (c.of rfl) cd H
  (try clear_value x1_0)
  exact .ite (ptpEventAt_kept (c.of rfl) cq h1_0) h1_0

theorem ptpSyncReceived_kept {A : Touch} {h0 h : Hub} {a0 a1 a2 a3} (c : A.has [.now]) (cd : ∀ k, A.doms k) (cq :
    A.ptp a0) (H : Kept A h0 h) : Kept A h0 (ptpSyncReceived a0 a1 a2 a3 h) := by
  unfold ptpSyncReceived
  extract_lets x1_0 x1_1 x1_2
  (try clear_value x1_1 x1_2)
  have h1_0 : Kept A h0 x1_0 := advanceTo_kept c cd H
  (try clear_value x1_0)
  exact .ite (Hub.onPtp_kept cq h1_0) h1_0

theorem ptpSyncTimeout_kept {A : Touch} {h0 h : Hub} {a0} (c : A.has [.cplRings, .msix, .books, .runs, .profile,
    .shimEvt, .collector, .fltEvt, .bus]) (cr : ∀ k, A.refs k) (cd : ∀ k, A.doms k) (H : Kept A h0 h) : Kept A h0
    (ptpSyncTimeout a0 h) := by
  unfold ptpSyncTimeout
  exact when_kept H (fun _ k1 => (lrefsLost_kept c cr cd k1))

theorem ptpGeneral_kept {A : Touch} {h0 h : Hub} {a0} (c : A.has [.wire]) (H : Kept A h0 h) : Kept A h0 (ptpGeneral a0
    h) := by
  unfold ptpGeneral
  extract_lets x1_0 x1_1
  (try clear_value x1_0)
  have h1_1 : Kept A h0 x1_1 := .ite (sendAnnounce_kept c H) H
  (try clear_value x1_1)
  exact .ite H (.ite (sendPtp_kept c h1_1) h1_1)

theorem ptpSecond_kept {A : Touch} {h0 h : Hub} {a0} (c : A.has [.wire]) (cr : ∀ k, A.refs k) (cq : A.ptp a0) (H :
    Kept A h0 h) : Kept A h0 (ptpSecond a0 h) := by
  unfold ptpSecond
  extract_lets x1_0 x1_1 x1_2
  (try clear_value x1_1)
  have h1_0 : Kept A h0 x1_0 := ptpGeneral_kept c H
  (try clear_value x1_0)
  have h1_2 : Kept A h0 x1_2 := .ite (forEach_kept h1_0 (fun _ _ k2 => (Hub.onRef_kept (cr _) k2))) h1_0
  (try clear_value x1_2)
  exact Hub.onPtp_kept cq h1_2

theorem ptpMilli_kept {A : Touch} {h0 h : Hub} {a0 a1} (cr : ∀ k, A.refs k) (cq : A.ptp a1) (H : Kept A h0 h) : Kept A
    h0 (ptpMilli a0 a1 h) := by
  unfold ptpMilli
  extract_lets x1_0 x1_1
  (try clear_value x1_0 x1_1)
  split
  · exact Hub.onPtp_kept cq H
  · extract_lets x2_0 x2_1 x2_2
    (try clear_value x2_1 x2_2)
    have h2_0 : Kept A h0 x2_0 := Hub.onPtp_kept cq H
    (try clear_value x2_0)
    exact .ite (forEach_kept h2_0 (fun _ _ k3 => (Hub.onRef_kept (cr _) k3))) h2_0

theorem sendEsmc_kept {A : Touch} {h0 h : Hub} {a0 a1} (c : A.has [.wire]) (cq : A.ptp a0) (H : Kept A h0 h) : Kept A
    h0 (sendEsmc a0 a1 h) := by
  unfold sendEsmc
  extract_lets x1_0 x1_1
  (try clear_value x1_0)
  have h1_1 : Kept A h0 x1_1 := Hub.onPtp_kept cq H
  (try clear_value x1_1)
  exact .same
    (by
      constructor <;> first | exact .inr rfl | exact fun _ => .inr rfl | exact .inl (c.mem rfl)) h1_1 rfl rfl rfl
    (fun _ => rfl) rfl rfl

theorem esmcPduSend_kept {A : Touch} {h0 h : Hub} {a0} (c : A.has [.wire]) (cq : A.ptp a0) (H : Kept A h0 h) : Kept A
    h0 (esmcPduSend a0 h) := by
  unfold esmcPduSend
  exact when_kept H (fun _ k1 => (Hub.onPtp_kept cq (sendEsmc_kept c cq k1)))

theorem esmcEventPduSend_kept {A : Touch} {h0 h : Hub} {a0} (c : A.has [.wire]) (cq : A.ptp a0) (H : Kept A h0 h) :
    Kept A h0 (esmcEventPduSend a0 h) := by
  unfold esmcEventPduSend
  exact when_kept H (fun _ k1 => (sendEsmc_kept c cq k1))

theorem esmcPduReceived_kept {A : Touch} {h0 h : Hub} {a0 a1} (c : A.has [.cplRings, .msix, .books, .runs, .profile,
    .shimEvt, .collector, .fltEvt, .bus]) (cr : ∀ k, A.refs k) (cd : ∀ k, A.doms k) (cq : A.ptp a0) (H : Kept A h0 h)
    : Kept A h0 (esmcPduReceived a0 a1 h) := by
  unfold esmcPduReceived
  exact when_kept H (fun _ k1 => (esmcHold_kept c cr cd (Hub.onPtp_kept cq k1)))

theorem esmcAbsentTimeout_kept {A : Touch} {h0 h : Hub} {a0} (c : A.has [.cplRings, .msix, .books, .runs, .profile,
    .shimEvt, .collector, .fltEvt, .bus]) (cr : ∀ k, A.refs k) (cd : ∀ k, A.doms k) (cq : A.ptp a0) (H : Kept A h0 h)
    : Kept A h0 (esmcAbsentTimeout a0 h) := by
  unfold esmcAbsentTimeout
  exact when_kept H (fun _ k1 => (esmcHold_kept c cr cd (Hub.onPtp_kept cq k1)))

theorem setRole_kept {A : Touch} {h0 h : Hub} {a0} (c : A.has [.msix, .hier, .hierEvt, .bus]) (H : Kept A h0 h) : Kept
    A h0 (setRole a0 h) := by
  unfold setRole
  exact .ite H (raiseHier_kept (c.of rfl) (Hub.onHier_kept (hier := .inl (c.mem rfl)) H))

theorem setAddr_kept {A : Touch} {h0 h : Hub} {a0} (c : A.has [.msix, .hier, .hierEvt, .bus]) (H : Kept A h0 h) : Kept
    A h0 (setAddr a0 h) := by
  unfold setAddr
  exact .ite H (raiseHier_kept (c.of rfl) (Hub.onHier_kept (hier := .inl (c.mem rfl)) H))

theorem becomeManager_kept {A : Touch} {h0 h : Hub} (c : A.has [.msix, .hier, .hierEvt, .bus]) (H : Kept A h0 h) :
    Kept A h0 (becomeManager h) := by
  unfold becomeManager
  extract_lets x1_0 x1_1 x1_2
  (try clear_value x1_2)
  have h1_0 : Kept A h0 x1_0 := Hub.onHier_kept (hier := .inl (c.mem rfl)) H
  (try clear_value x1_0)
  have h1_1 : Kept A h0 x1_1 := .ite (setAddr_kept c h1_0) h1_0
  (try clear_value x1_1)
  exact setRole_kept c (Hub.onHier_kept (hier := .inl (c.mem rfl)) h1_1)

theorem stepDown_kept {A : Touch} {h0 h : Hub} (c : A.has [.cplRings, .msix, .books, .hier, .hierEvt, .runs, .profile,
    .shimEvt, .bus]) (H : Kept A h0 h) : Kept A h0 (stepDown h) := by
  unfold stepDown
  extract_lets x1_0 x1_1 x1_2 x1_3 x1_4
  (try clear_value x1_0 x1_1)
  have h1_2 : Kept A h0 x1_2 := Hub.onHier_kept (hier := .inl (c.mem rfl)) H
  (try clear_value x1_2)
  have h1_3 : Kept A h0 x1_3 := forEach_kept h1_2 (fun _ _ k2 => (complete_kept (c.of rfl) k2))
  (try clear_value x1_3)
  have h1_4 : Kept A h0 x1_4 := forEach_kept h1_3 (fun _ _ k3 => (complete_kept (c.of rfl) k3))
  (try clear_value x1_4)
  exact setRole_kept (c.of rfl) (raiseHier_kept (c.of rfl) h1_4)

theorem setManager_kept {A : Touch} {h0 h : Hub} {a0 a1 a2} (c : A.has [.hier]) (H : Kept A h0 h) : Kept A h0
    (setManager a0 a1 a2 h) := by
  unfold setManager
  exact Hub.onHier_kept (hier := .inl (c.mem rfl)) H

theorem takeInbox_kept {A : Touch} {h0 h : Hub} {kind : Nat} {f : Msg → Hub → Hub} (c : A.has [.hier]) (H : Kept A h0
    h)
    (hf : ∀ m x, Kept A h0 x → Kept A h0 (f m x)) : Kept A h0 (takeInbox kind f h) := by
  unfold takeInbox
  split
  · exact .ite (hf _ _ (Hub.onHier_kept (hier := .inl (c.mem rfl)) H)) H
  · exact H

theorem announceSend_kept {A : Touch} {h0 h : Hub} (c : A.has [.hier]) (cl : ∀ k, A.links k) (H : Kept A h0 h) : Kept
    A h0 (announceSend h) := by
  unfold announceSend
  exact when_kept H
    (fun _ k2 => by
      extract_lets x3_0 x3_1 x3_2 x3_3 x3_4
      (try clear_value x3_0 x3_1 x3_2)
      have h3_3 : Kept A h0 x3_3 := Hub.onHier_kept (hier := .inl (c.mem rfl)) k2
      (try clear_value x3_3)
      have h3_4 : Kept A h0 x3_4 := .ite (Hub.onHier_kept (hier := .inl (c.mem rfl)) h3_3) h3_3
      (try clear_value x3_4)
      exact originate_kept c cl h3_4)

theorem followManager_kept {A : Touch} {h0 h : Hub} {a0 a1 a2} (c : A.has [.msix, .hier, .hierEvt, .bus]) (H : Kept A
    h0 h) : Kept A h0 (followManager a0 a1 a2 h) := by
  unfold followManager
  extract_lets x1_0 x1_1 x1_2
  (try clear_value x1_0 x1_1)
  have h1_2 : Kept A h0 x1_2 := setManager_kept (c.of rfl) H
  (try clear_value x1_2)
  exact .ite H
    (by
      split
      · exact .ite h1_2 (setRole_kept c h1_2)
      · exact .ite (setRole_kept c h1_2) h1_2
      · exact .ite h1_2 (setRole_kept c h1_2)
      · exact h1_2
      · exact h1_2)

theorem takeAnnounce_kept {A : Touch} {h0 h : Hub} {a0} (c : A.has [.cplRings, .msix, .books, .hier, .hierEvt, .runs,
    .profile, .shimEvt, .bus]) (H : Kept A h0 h) : Kept A h0 (takeAnnounce a0 h) := by
  unfold takeAnnounce
  extract_lets x1_0 x1_1 x1_2 x1_3
  (try clear_value x1_0 x1_1 x1_2)
  have h1_3 : Kept A h0 x1_3 := Hub.onHier_kept (hier := .inl (c.mem rfl)) H
  (try clear_value x1_3)
  exact .ite h1_3
    (.ite (.ite (setManager_kept (c.of rfl) (stepDown_kept c h1_3)) h1_3) (followManager_kept (c.of rfl) h1_3))

theorem announceReceived_kept {A : Touch} {h0 h : Hub} (c : A.has [.cplRings, .msix, .books, .hier, .hierEvt, .runs,
    .profile, .shimEvt, .bus]) (H : Kept A h0 h) : Kept A h0 (announceReceived h) := by
  unfold announceReceived
  exact takeInbox_kept (c.of rfl) H (fun _ _ k1 => (takeAnnounce_kept c k1))

theorem loseManager_kept {A : Touch} {h0 h : Hub} (c : A.has [.msix, .hier, .hierEvt, .bus]) (H : Kept A h0 h) : Kept
    A h0 (loseManager h) := by
  unfold loseManager
  exact setRole_kept c (raiseHier_kept (c.of rfl) (Hub.onHier_kept (hier := .inl (c.mem rfl)) H))

theorem managerSilentTimeout_kept {A : Touch} {h0 h : Hub} (c : A.has [.msix, .hier, .hierEvt, .bus]) (H : Kept A h0
    h) : Kept A h0 (managerSilentTimeout h) := by
  unfold managerSilentTimeout
  extract_lets x1_0
  (try clear_value x1_0)
  split
  · exact when_kept H (fun _ k2 => (.ite (becomeManager_kept c k2) (loseManager_kept c k2)))
  · exact when_kept H (fun _ k3 => (loseManager_kept c k3))
  · exact when_kept H (fun _ k4 => (loseManager_kept c k4))
  · exact H
  · exact H

theorem lowestTupleTimeout_kept {A : Touch} {h0 h : Hub} (c : A.has [.msix, .hier, .hierEvt, .bus]) (H : Kept A h0 h)
    : Kept A h0 (lowestTupleTimeout h) := by
  unfold lowestTupleTimeout
  extract_lets x1_0
  (try clear_value x1_0)
  split
  · exact when_kept H (fun _ k2 => (becomeManager_kept c k2))
  · exact when_kept H (fun _ k3 => (becomeManager_kept c k3))
  · exact when_kept H (fun _ k4 => (becomeManager_kept c k4))
  · exact H
  · exact H

theorem hierTick_kept {A : Touch} {h0 h : Hub} (c : A.has [.hier]) (H : Kept A h0 h) : Kept A h0 (hierTick h) := by
  unfold hierTick
  extract_lets x1_0 x1_1
  (try clear_value x1_1)
  have h1_0 : Kept A h0 x1_0 := .ite (Hub.onHier_kept (hier := .inl (c.mem rfl)) H) H
  (try clear_value x1_0)
  exact Hub.onHier_kept (hier := .inl (c.mem rfl)) h1_0

theorem sendAssign_kept {A : Touch} {h0 h : Hub} {a0 a1} (c : A.has [.hier]) (cl : ∀ k, A.links k) (H : Kept A h0 h) :
    Kept A h0 (sendAssign a0 a1 h) := by
  unfold sendAssign
  exact originate_kept c cl H

theorem putRow_kept {A : Touch} {h0 h : Hub} {a0} (c : A.has [.hier]) (H : Kept A h0 h) : Kept A h0 (putRow a0 h) :=
    by
  unfold putRow
  exact Hub.onHier_kept (hier := .inl (c.mem rfl)) H

theorem assignPassive_kept {A : Touch} {h0 h : Hub} (c : A.has [.hier]) (cl : ∀ k, A.links k) (H : Kept A h0 h) : Kept
    A h0 (assignPassive h) := by
  unfold assignPassive
  extract_lets x1_0
  (try clear_value x1_0)
  exact forEach_kept H
    (fun _ _ k2 => by
      split
      · exact sendAssign_kept c cl (putRow_kept c k2)
      · exact k2)

theorem discover_kept {A : Touch} {h0 h : Hub} (c : A.has [.hier]) (cl : ∀ k, A.links k) (H : Kept A h0 h) : Kept A h0
    (discover h) := by
  unfold discover
  extract_lets x1_0
  have h1_0 : Kept A h0 x1_0 := Hub.onHier_kept (hier := .inl (c.mem rfl)) H
  (try clear_value x1_0)
  exact assignPassive_kept c cl (originate_kept c cl h1_0)

theorem discoverSend_kept {A : Touch} {h0 h : Hub} (c : A.has [.hier]) (cl : ∀ k, A.links k) (H : Kept A h0 h) : Kept
    A h0 (discoverSend h) := by
  unfold discoverSend
  exact when_kept H (fun _ k1 => (discover_kept c cl (Hub.onHier_kept (hier := .inl (c.mem rfl)) k1)))

theorem takeDiscover_kept {A : Touch} {h0 h : Hub} {a0} (c : A.has [.hier]) (H : Kept A h0 h) : Kept A h0
    (takeDiscover a0 h) := by
  unfold takeDiscover
  exact Hub.onHier_kept (hier := .inl (c.mem rfl)) H

theorem discoverReceived_kept {A : Touch} {h0 h : Hub} (c : A.has [.hier]) (H : Kept A h0 h) : Kept A h0
    (discoverReceived h) := by
  unfold discoverReceived
  exact takeInbox_kept c H (fun _ _ k1 => (takeDiscover_kept c k1))

theorem reportSend_kept {A : Touch} {h0 h : Hub} (c : A.has [.hier]) (cl : ∀ k, A.links k) (H : Kept A h0 h) : Kept A
    h0 (reportSend h) := by
  unfold reportSend
  split
  · exact .ite (originate_kept c cl (Hub.onHier_kept (hier := .inl (c.mem rfl)) H)) H
  · exact H

theorem refuseAddr_kept {A : Touch} {h0 h : Hub} {a0} (c : A.has [.msix, .hier, .hierEvt, .collector, .fltEvt, .bus])
    (H : Kept A h0 h) : Kept A h0 (refuseAddr a0 h) := by
  unfold refuseAddr
  extract_lets x1_0
  (try clear_value x1_0)
  exact .ite H (sendFault_kept (c.of rfl) (raiseHier_kept (c.of rfl) (Hub.onHier_kept (hier := .inl (c.mem rfl)) H)))

theorem takeReport_kept {A : Touch} {h0 h : Hub} {a0} (c : A.has [.msix, .hier, .hierEvt, .collector, .fltEvt, .bus])
    (cl : ∀ k, A.links k) (H : Kept A h0 h) : Kept A h0 (takeReport a0 h) := by
  unfold takeReport
  extract_lets x1_0 x1_1 x1_2 x1_3 x1_4 x1_5
  (try clear_value x1_0 x1_1 x1_2 x1_4 x1_5)
  have h1_3 : Kept A h0 x1_3 := Hub.onHier_kept (hier := .inl (c.mem rfl)) H
  (try clear_value x1_3)
  exact .ite H
    (by
      split
      · extract_lets x3_0 x3_1 x3_2 x3_3
        (try clear_value x3_2)
        have h3_0 : Kept A h0 x3_0 := .ite (setAddr_kept (c.of rfl) h1_3) h1_3
        (try clear_value x3_0)
        have h3_1 : Kept A h0 x3_1 := Hub.onHier_kept (hier := .inl (c.mem rfl)) h3_0
        (try clear_value x3_1)
        have h3_3 : Kept A h0 x3_3 := putRow_kept (c.of rfl) h3_1
        (try clear_value x3_3)
        exact .ite h3_3 (sendAssign_kept (c.of rfl) cl h3_3)
      · exact sendAssign_kept (c.of rfl) cl (refuseAddr_kept c (putRow_kept (c.of rfl) h1_3)))

theorem reportReceived_kept {A : Touch} {h0 h : Hub} (c : A.has [.msix, .hier, .hierEvt, .collector, .fltEvt, .bus])
    (cl : ∀ k, A.links k) (H : Kept A h0 h) : Kept A h0 (reportReceived h) := by
  unfold reportReceived
  exact takeInbox_kept (c.of rfl) H (fun _ _ k1 => (takeReport_kept c cl k1))

theorem takeAssign_kept {A : Touch} {h0 h : Hub} {a0} (c : A.has [.msix, .hier, .hierEvt, .bus]) (H : Kept A h0 h) :
    Kept A h0 (takeAssign a0 h) := by
  unfold takeAssign
  extract_lets x1_0 x1_1 x1_2
  (try clear_value x1_0 x1_1)
  have h1_2 : Kept A h0 x1_2 := setAddr_kept c (Hub.onHier_kept (hier := .inl (c.mem rfl)) H)
  (try clear_value x1_2)
  exact .ite H
    (.ite
      (setRole_kept c h1_2)
      (by
        split
        · exact setRole_kept c h1_2
        · exact setRole_kept c h1_2
        · exact h1_2
        · exact h1_2
        · exact h1_2))

theorem assignReceived_kept {A : Touch} {h0 h : Hub} (c : A.has [.msix, .hier, .hierEvt, .bus]) (H : Kept A h0 h) :
    Kept A h0 (assignReceived h) := by
  unfold assignReceived
  exact takeInbox_kept (c.of rfl) H (fun _ _ k1 => (takeAssign_kept c k1))

theorem startRuns_kept {A : Touch} {h0 h : Hub} (c : A.has [.books, .runs]) (H : Kept A h0 h) : Kept A h0 (startRuns
    h) := by
  unfold startRuns
  exact forEach_kept H
    (fun _ _ k1 =>
      (.ite k1
        (by
          split
          · exact mgrNext_kept c (Hub.onHier_kept (runs := .inl (c.mem rfl)) k1)
          · exact k1)))

theorem takeDesc_kept {A : Touch} {h0 h : Hub} {a0} (c : A.has [.books, .runs]) (H : Kept A h0 h) : Kept A h0
    (takeDesc a0 h) := by
  unfold takeDesc
  extract_lets x1_0 x1_1 x1_2
  (try clear_value x1_0 x1_1 x1_2)
  exact .ite H (startRuns_kept c (Hub.onHier_kept (runs := .inl (c.mem rfl)) H))

theorem descReceived_kept {A : Touch} {h0 h : Hub} (c : A.has [.books, .hier, .runs]) (H : Kept A h0 h) : Kept A h0
    (descReceived h) := by
  unfold descReceived
  exact takeInbox_kept (c.of rfl) H (fun _ _ k1 => (takeDesc_kept (c.of rfl) k1))

theorem complSend_kept {A : Touch} {h0 h : Hub} (c : A.has [.books, .hier, .runs]) (cl : ∀ k, A.links k) (H : Kept A
    h0 h) : Kept A h0 (complSend h) := by
  unfold complSend
  split
  · exact H
  · split
    · exact H
    · extract_lets x3_0
      have h3_0 : Kept A h0 x3_0 := originate_kept (c.of rfl) cl H
      (try clear_value x3_0)
      exact .ite (startRuns_kept (c.of rfl) (Hub.onHier_kept (runs := .inl (c.mem rfl)) h3_0)) H

theorem takeCompl_kept {A : Touch} {h0 h : Hub} {a0} (c : A.has [.cplRings, .msix, .books, .hier, .runs, .profile,
    .shimEvt, .bus]) (H : Kept A h0 h) : Kept A h0 (takeCompl a0 h) := by
  unfold takeCompl
  extract_lets x1_0 x1_1 x1_2 x1_3
  (try clear_value x1_0 x1_1 x1_2)
  have h1_3 : Kept A h0 x1_3 := Hub.onHier_kept (hier := .inl (c.mem rfl)) H
  (try clear_value x1_3)
  split
  · exact H
  · extract_lets x2_0 x2_1
    (try clear_value x2_0)
    have h2_1 : Kept A h0 x2_1 := forEach_kept h1_3 (fun _ _ k3 => (busWrite_kept (c.of rfl) k3))
    (try clear_value x2_1)
    exact completeWith_kept (c.of rfl) h2_1

theorem complReceived_kept {A : Touch} {h0 h : Hub} (c : A.has [.cplRings, .msix, .books, .hier, .runs, .profile,
    .shimEvt, .bus]) (H : Kept A h0 h) : Kept A h0 (complReceived h) := by
  unfold complReceived
  exact takeInbox_kept (c.of rfl) H (fun _ _ k1 => (takeCompl_kept c k1))

theorem hierForwardEff_kept {A : Touch} {h0 h : Hub} {a0 a1} (c : A.has [.cplRings, .msix, .books, .hier, .runs,
    .profile, .shimEvt, .bus]) (cl : ∀ k, A.links k) (H : Kept A h0 h) : Kept A h0 (hierForwardEff a0 a1 h) := by
  unfold hierForwardEff
  extract_lets x1_0 x1_1 x1_2 x1_3 x1_4 x1_5
  (try clear_value x1_0 x1_1 x1_2 x1_3 x1_4)
  have h1_5 : Kept A h0 x1_5 := Hub.onHier_kept (hier := .inl (c.mem rfl)) H
  (try clear_value x1_5)
  exact .ite (complete_kept (c.of rfl) H) (.ite (complete_kept (c.of rfl) H) (originate_kept (c.of rfl) cl h1_5))

theorem hierForward_kept {A : Touch} {h0 h : Hub} {a0 a1} (c : A.has [.cplRings, .msix, .books, .hier, .hierEvt,
    .runs, .profile, .shimEvt, .bus]) (cl : ∀ k, A.links k) (H : Kept A h0 h) : Kept A h0 (hierForward a0 a1 h) := by
  unfold hierForward
  exact serve_kept (c.of rfl) H (fun _ _ k1 => (hierForwardEff_kept (c.of rfl) cl k1))

theorem hierForwardTimeout_kept {A : Touch} {h0 h : Hub} {a0} (c : A.has [.cplRings, .msix, .books, .hier, .hierEvt,
    .runs, .profile, .shimEvt, .bus]) (H : Kept A h0 h) : Kept A h0 (hierForwardTimeout a0 h) := by
  unfold hierForwardTimeout
  split
  · exact H
  · exact when_kept H
      (fun _ k1 =>
        (complete_kept (c.of rfl) (raiseHier_kept (c.of rfl) (Hub.onHier_kept (hier := .inl (c.mem rfl)) k1))))

theorem discoverLocalEff_kept {A : Touch} {h0 h : Hub} {a0} (c : A.has [.parity, .cplRings, .msix, .books, .hier,
    .hierEvt, .runs, .profile, .shimEvt, .bus]) (H : Kept A h0 h) : Kept A h0 (discoverLocalEff a0 h) := by
  unfold discoverLocalEff
  extract_lets x1_0
  have h1_0 : Kept A h0 x1_0 := copyWritten_kept (c.of rfl) (Hub.onHier_kept (hier := .inl (c.mem rfl)) H)
  (try clear_value x1_0)
  exact .ite (complete_kept (c.of rfl) H) (complete_kept (c.of rfl) (.ite (setRole_kept (c.of rfl) h1_0) h1_0))

theorem hierDiscoverLocal_kept {A : Touch} {h0 h : Hub} {a0} (c : A.has [.parity, .cplRings, .msix, .books, .hier,
    .hierEvt, .runs, .profile, .shimEvt, .bus]) (H : Kept A h0 h) : Kept A h0 (hierDiscoverLocal a0 h) := by
  unfold hierDiscoverLocal
  exact serve_kept (c.of rfl) H (fun _ _ k1 => (discoverLocalEff_kept c k1))

theorem discoverScanEff_kept {A : Touch} {h0 h : Hub} {a0} (c : A.has [.cplRings, .msix, .books, .hier, .runs,
    .profile, .shimEvt, .bus]) (cl : ∀ k, A.links k) (H : Kept A h0 h) : Kept A h0 (discoverScanEff a0 h) := by
  unfold discoverScanEff
  exact .ite (complete_kept (c.of rfl) H) (discover_kept (c.of rfl) cl (Hub.onHier_kept (hier := .inl (c.mem rfl)) H))

theorem hierDiscoverScan_kept {A : Touch} {h0 h : Hub} {a0} (c : A.has [.cplRings, .msix, .books, .hier, .hierEvt,
    .runs, .profile, .shimEvt, .bus]) (cl : ∀ k, A.links k) (H : Kept A h0 h) : Kept A h0 (hierDiscoverScan a0 h) :=
    by
  unfold hierDiscoverScan
  exact serve_kept (c.of rfl) H (fun _ _ k1 => (discoverScanEff_kept (c.of rfl) cl k1))

theorem scanComplete_kept {A : Touch} {h0 h : Hub} (c : A.has [.cplRings, .msix, .books, .hier, .runs, .profile,
    .shimEvt, .bus]) (H : Kept A h0 h) : Kept A h0 (scanComplete h) := by
  unfold scanComplete
  split
  · exact when_kept H (fun _ k1 => (completeWith_kept (c.of rfl) (Hub.onHier_kept (hier := .inl (c.mem rfl)) k1)))
  · exact H

theorem discoverAssignEff_kept {A : Touch} {h0 h : Hub} {a0} (c : A.has [.cplRings, .msix, .books, .hier, .runs,
    .profile, .shimEvt, .bus]) (H : Kept A h0 h) : Kept A h0 (discoverAssignEff a0 h) := by
  unfold discoverAssignEff
  extract_lets x1_0 x1_1 x1_2 x1_3 x1_4
  (try clear_value x1_0 x1_1 x1_2 x1_3 x1_4)
  exact .ite
    (complete_kept (c.of rfl) H)
    (.ite
      (complete_kept (c.of rfl) H)
      (.ite
        (complete_kept (c.of rfl) (Hub.onHier_kept (hier := .inl (c.mem rfl)) H))
        (.ite
          (complete_kept (c.of rfl) H)
          (complete_kept (c.of rfl) (Hub.onHier_kept (hier := .inl (c.mem rfl)) H)))))

theorem hierDiscoverAssign_kept {A : Touch} {h0 h : Hub} {a0} (c : A.has [.cplRings, .msix, .books, .hier, .hierEvt,
    .runs, .profile, .shimEvt, .bus]) (H : Kept A h0 h) : Kept A h0 (hierDiscoverAssign a0 h) := by
  unfold hierDiscoverAssign
  exact serve_kept (c.of rfl) H (fun _ _ k1 => (discoverAssignEff_kept (c.of rfl) k1))

theorem monSample_kept {A : Touch} {h0 h : Hub} {a0} (c : A.has [.msix, .mons, .bus]) (cu : A.units a0) (H : Kept A h0
    h) : Kept A h0 (monSample a0 h) := by
  unfold monSample
  extract_lets x1_0 x1_1
  (try clear_value x1_0 x1_1)
  split
  · exact H
  · exact when_kept H
      (fun _ k3 => by
        extract_lets x4_0 x4_1
        (try clear_value x4_0)
        have h4_1 : Kept A h0 x4_1 := Hub.onMon_kept cu k3
        (try clear_value x4_1)
        exact .ite (raiseMon_kept c h4_1) h4_1)

theorem monEntry_kept {A : Touch} {h0 h : Hub} {a0} (c : A.has [.telRings, .msix, .bus]) (cu : A.units a0) (H : Kept A
    h0 h) : Kept A h0 (monEntry a0 h) := by
  unfold monEntry
  extract_lets x1_0
  (try clear_value x1_0)
  exact .ite (telOffer_kept c (Hub.onMon_kept cu H)) H

theorem closeWindow_kept {A : Touch} {h0 h : Hub} {a0} (c : A.has [.telRings, .msix, .bus]) (cu : A.units a0) (H :
    Kept A h0 h) : Kept A h0 (closeWindow a0 h) := by
  unfold closeWindow
  extract_lets x1_0 x1_1 x1_2
  (try clear_value x1_0 x1_1 x1_2)
  exact monEntry_kept c cu (Hub.onMon_kept cu H)

theorem monWindowClose_kept {A : Touch} {h0 h : Hub} {a0} (c : A.has [.now, .telRings, .msix, .bus]) (cd : ∀ k, A.doms
    k) (cu : A.units a0) (H : Kept A h0 h) : Kept A h0 (monWindowClose a0 h) := by
  unfold monWindowClose
  extract_lets x1_0
  (try clear_value x1_0)
  exact .ite (.optN (reachDom_kept (c.of rfl) cd H) H fun _ k2 => (closeWindow_kept (c.of rfl) cu k2)) H

theorem monSet_kept {A : Touch} {h0 h : Hub} {a0 a1} (c : A.has [.parity]) (cu : A.units a0) (H : Kept A h0 h) : Kept
    A h0 (monSet a0 a1 h) := by
  unfold monSet
  extract_lets x1_0 x1_1
  (try clear_value x1_0 x1_1)
  exact Hub.onMon_kept cu (copyWritten_kept c H)

theorem monConfigEff_kept {A : Touch} {h0 h : Hub} {a0} (c : A.has [.parity, .cplRings, .msix, .books, .runs, .comp,
    .profile, .shimEvt, .collector, .fltEvt, .bus]) (cr : ∀ k, A.refs k) (cl : ∀ k, A.links k) (ct : ∀ k, A.tasks k)
    (cn : ∀ k, A.reeds k) (cv : ∀ k, A.evTasks k) (cu : ∀ k, A.units k) (H : Kept A h0 h) : Kept A h0 (monConfigEff a0
    h) := by
  unfold monConfigEff
  extract_lets x1_0
  (try clear_value x1_0)
  exact withFin_kept
    (c.of rfl) H
    (fun _ _ k2 => by
      extract_lets x3_0 x3_1 x3_2
      (try clear_value x3_0)
      have h3_1 : Kept A h0 x3_1 := .ite (createTask_kept (c.of rfl) cr cl ct cn cv k2) k2
      (try clear_value x3_1)
      have h3_2 : Kept A h0 x3_2 := monSet_kept (c.of rfl) (cu _) h3_1
      (try clear_value x3_2)
      exact .ite
        (complete_kept (c.of rfl) k2)
        (.ite
          (complete_kept (c.of rfl) h3_1)
          (complete_kept (c.of rfl) (.ite (removeTask_kept (c.of rfl) cr cl ct cn cv h3_2) h3_2))))

theorem monConfig_kept {A : Touch} {h0 h : Hub} {a0} (c : A.has [.parity, .cplRings, .msix, .books, .hierEvt, .runs,
    .comp, .profile, .shimEvt, .collector, .fltEvt, .bus]) (cr : ∀ k, A.refs k) (cl : ∀ k, A.links k) (ct : ∀ k,
    A.tasks k) (cn : ∀ k, A.reeds k) (cv : ∀ k, A.evTasks k) (cu : ∀ k, A.units k) (H : Kept A h0 h) : Kept A h0
    (monConfig a0 h) := by
  unfold monConfig
  exact serve_kept (c.of rfl) H (fun _ _ k1 => (monConfigEff_kept (c.of rfl) cr cl ct cn cv cu k1))

theorem monSnapshotEff_kept {A : Touch} {h0 h : Hub} {a0} (c : A.has [.cplRings, .msix, .books, .runs, .profile,
    .shimEvt, .bus]) (cu : ∀ k, A.units k) (H : Kept A h0 h) : Kept A h0 (monSnapshotEff a0 h) := by
  unfold monSnapshotEff
  extract_lets x1_0 x1_1 x1_2
  (try clear_value x1_0 x1_1 x1_2)
  exact withFin_kept c H
    (fun _ _ k2 => by
      extract_lets x3_0 x3_1 x3_2 x3_3 x3_4
      (try clear_value x3_0 x3_1 x3_3)
      have h3_2 : Kept A h0 x3_2 := .ite k2 (busWrite_kept (c.of rfl) k2)
      (try clear_value x3_2)
      have h3_4 : Kept A h0 x3_4 := .ite (Hub.onMon_kept (cu _) h3_2) h3_2
      (try clear_value x3_4)
      exact .ite (complete_kept c k2) (completeWith_kept c h3_4))

theorem monSnapshot_kept {A : Touch} {h0 h : Hub} {a0} (c : A.has [.cplRings, .msix, .books, .hierEvt, .runs,
    .profile, .shimEvt, .bus]) (cu : ∀ k, A.units k) (H : Kept A h0 h) : Kept A h0 (monSnapshot a0 h) := by
  unfold monSnapshot
  exact serve_kept c H (fun _ _ k1 => (monSnapshotEff_kept (c.of rfl) cu k1))

theorem takeMeas_kept {A : Touch} {h0 h : Hub} {a0} (c : A.has [.pwr, .clk]) (H : Kept A h0 h) : Kept A h0 (takeMeas
    a0 h) := by
  unfold takeMeas
  extract_lets x1_0
  (try clear_value x1_0)
  exact Hub.onClk_kept (clk := .inl (c.mem rfl)) (Hub.onPwr_kept (c.mem rfl) H)

theorem swapPrio_kept {A : Touch} {h0 h : Hub} {a0} (c : A.has [.parity, .cplRings, .msix, .books, .runs, .profile,
    .shimEvt, .bus]) (cd : A.doms a0) (H : Kept A h0 h) : Kept A h0 (swapPrio a0 h) := by
  unfold swapPrio
  split
  · exact H
  · exact complete_kept (c.of rfl) (copyWritten_kept (c.of rfl) (Hub.onDom_kept cd H))

theorem swapWeights_kept {A : Touch} {h0 h : Hub} {a0} (cr : ∀ k, A.refs k) (cd : A.doms a0) (H : Kept A h0 h) : Kept
    A h0 (swapWeights a0 h) := by
  unfold swapWeights
  split
  · exact H
  · extract_lets x2_0
    have h2_0 : Kept A h0 x2_0 := Hub.onDom_kept cd H
    (try clear_value x2_0)
    exact setUsers_kept cr h2_0

theorem domMilli_kept {A : Touch} {h0 h : Hub} {a0} (c : A.has [.parity, .clk, .cplRings, .msix, .books, .runs,
    .counters, .profile, .shimEvt, .collector, .fltEvt, .bus]) (cr : ∀ k, A.refs k) (cd : A.doms a0) (co : ∀ k, A.outs
    k) (cp : ∀ k, A.plss k) (cu : ∀ k, A.units k) (H : Kept A h0 h) : Kept A h0 (domMilli a0 h) := by
  unfold domMilli
  extract_lets x1_0
  have h1_0 : Kept A h0 x1_0 :=
    holdoffStep_kept cd (Hub.onDom_kept cd (swapWeights_kept cr cd (swapPrio_kept (c.of rfl) cd H)))
  (try clear_value x1_0)
  exact Hub.onDom_kept cd (.ite h1_0 (domUpdate_kept c cr cd co cp cu h1_0))

theorem usedMilli_kept {A : Touch} {h0 h : Hub} (cr : ∀ k, A.refs k) (H : Kept A h0 h) : Kept A h0 (usedMilli h) := by
  unfold usedMilli
  exact .same
    (by
      constructor <;> first | exact fun k => .inl (cr k) | exact .inr rfl | exact fun _ => .inr rfl) H rfl rfl rfl
    (fun _ => rfl) rfl rfl

theorem domCounts_kept {A : Touch} {h0 h : Hub} {a0} (cd : A.doms a0) (H : Kept A h0 h) : Kept A h0 (domCounts a0 h)
    := by
  unfold domCounts
  extract_lets x1_0 x1_1 x1_2 x1_3
  (try clear_value x1_0 x1_2 x1_3)
  have h1_1 : Kept A h0 x1_1 := Hub.onDom_kept cd H
  (try clear_value x1_1)
  exact .ite (Hub.onDom_kept cd h1_1) h1_1

theorem domSecond_kept {A : Touch} {h0 h : Hub} {a0} (c : A.has [.parity, .clk, .cplRings, .msix, .books, .runs,
    .counters, .profile, .shimEvt, .collector, .fltEvt, .bus]) (cr : ∀ k, A.refs k) (cd : A.doms a0) (co : ∀ k, A.outs
    k) (cp : ∀ k, A.plss k) (cu : ∀ k, A.units k) (H : Kept A h0 h) : Kept A h0 (domSecond a0 h) := by
  unfold domSecond
  extract_lets x1_0
  (try clear_value x1_0)
  exact .ite H (.ite (.ite (domUpdate_kept c cr cd co cp cu H) H) (domUpdate_kept c cr cd co cp cu H))

theorem usedSecond_kept {A : Touch} {h0 h : Hub} (cr : ∀ k, A.refs k) (H : Kept A h0 h) : Kept A h0 (usedSecond h) :=
    by
  unfold usedSecond
  exact .same
    (by
      constructor <;> first | exact fun k => .inl (cr k) | exact .inr rfl | exact fun _ => .inr rfl) H rfl rfl rfl
    (fun _ => rfl) rfl rfl

theorem second_kept {A : Touch} {h0 h : Hub} (c : A.has [.parity, .clk, .cplRings, .msix, .books, .tdc, .runs,
    .counters, .profile, .shimEvt, .shim, .cal, .collector, .fltEvt, .bus, .wire]) (cr : ∀ k, A.refs k) (cd : ∀ k,
    A.doms k) (co : ∀ k, A.outs k) (cp : ∀ k, A.plss k) (cl : ∀ k, A.links k) (cv : ∀ k, A.evTasks k) (cq : ∀ k, A.ptp
    k) (cu : ∀ k, A.units k) (H : Kept A h0 h) : Kept A h0 (second h) := by
  unfold second
  extract_lets x1_0 x1_1 x1_2 x1_3 x1_4 x1_5
  have h1_0 : Kept A h0 x1_0 := Hub.onClk_kept (clk := .inl (c.mem rfl)) H
  (try clear_value x1_0)
  have h1_1 : Kept A h0 x1_1 :=
    usedSecond_kept cr (forEach_kept h1_0 (fun _ _ k2 => (domSecond_kept (c.of rfl) cr (cd _) co cp cu k2)))
  (try clear_value x1_1)
  have h1_2 : Kept A h0 x1_2 := forEach_kept h1_1 (fun _ _ k3 => (domCounts_kept (cd _) k3))
  (try clear_value x1_2)
  have h1_3 : Kept A h0 x1_3 := forEach_kept h1_2 (fun _ _ k4 => (ptpSecond_kept (c.of rfl) cr (cq _) k4))
  (try clear_value x1_3)
  have h1_4 : Kept A h0 x1_4 := Hub.onTdc_kept (c.mem rfl) h1_3
  (try clear_value x1_4)
  have h1_5 : Kept A h0 x1_5 := Hub.onComp_kept (evTasks := fun k => .inl (cv k)) h1_4
  (try clear_value x1_5)
  exact checkRots_kept
    (c.of rfl) cd
    (forEach_kept (trimTick_kept (c.of rfl) cp h1_5) (fun _ _ k5 => (asymTick_kept (c.of rfl) (cl _) k5)))

theorem tick1s_kept {A : Touch} {h0 h : Hub} (c : A.has [.parity, .clk, .cplRings, .msix, .books, .tdc, .runs,
    .counters, .profile, .shimEvt, .shim, .cal, .collector, .fltEvt, .bus, .wire]) (cr : ∀ k, A.refs k) (cd : ∀ k,
    A.doms k) (co : ∀ k, A.outs k) (cp : ∀ k, A.plss k) (cl : ∀ k, A.links k) (cv : ∀ k, A.evTasks k) (cq : ∀ k, A.ptp
    k) (cu : ∀ k, A.units k) (H : Kept A h0 h) : Kept A h0 (tick1s h) := by
  unfold tick1s
  exact when_kept H (fun _ k1 => (second_kept c cr cd co cp cl cv cq cu k1))

theorem milliCounts_kept {A : Touch} {h0 h : Hub} (c : A.has [.top, .shim]) (H : Kept A h0 h) : Kept A h0 (milliCounts
    h) := by
  unfold milliCounts
  exact Hub.onShim_kept (shim := .inl (c.mem rfl)) (Hub.onTop_kept (top := .inl (c.mem rfl)) H)

theorem flip_kept {A : Touch} {h0 h : Hub} {a0} (cd : ∀ k, A.doms k) (H : Kept A h0 h) : Kept A h0 (flip a0 h) := by
  unfold flip
  exact Hub.onDom_kept (cd _) H

theorem voteRot_kept {A : Touch} {h0 h : Hub} {a0} (c : A.has [.msix, .collector, .fltEvt, .bus]) (cd : A.doms a0) (H
    : Kept A h0 h) : Kept A h0 (voteRot a0 h) := by
  unfold voteRot
  extract_lets x1_0 x1_1 x1_2
  (try clear_value x1_0)
  have h1_1 : Kept A h0 x1_1 := Hub.onDom_kept cd H
  (try clear_value x1_1)
  have h1_2 : Kept A h0 x1_2 := .ite (sendFault_kept c h1_1) h1_1
  (try clear_value x1_2)
  exact .ite (distrust_kept (c.of rfl) cd (sendFault_kept c h1_2)) h1_2

theorem packetError_kept {A : Touch} {h0 h : Hub} {a0} (c : A.has [.msix, .collector, .fltEvt, .bus]) (H : Kept A h0
    h) : Kept A h0 (packetError a0 h) := by
  unfold packetError
  exact .ite H (.ite (sendFault_kept c H) (sendFault_kept c H))

theorem decay_kept {A : Touch} {h0 h : Hub} {a0} (c : A.has [.store]) (H : Kept A h0 h) : Kept A h0 (decay a0 h) := by
  unfold decay
  exact .ite (Hub.onShim_kept (store := .inl (c.mem rfl)) (mendGroup_kept c H)) H

theorem tick1ms_kept {A : Touch} {h0 h : Hub} {a0} (c : A.has [.top, .parity, .pwr, .now, .clk, .cplRings, .telRings,
    .msix, .books, .tdc, .hier, .runs, .store, .counters, .profile, .shimEvt, .shim, .cal, .collector, .fltEvt, .flt,
    .bus, .wire]) (ce : ∀ k, A.evts k) (cr : ∀ k, A.refs k) (cd : ∀ k, A.doms k) (co : ∀ k, A.outs k) (cp : ∀ k,
    A.plss k) (cl : ∀ k, A.links k) (cy : ∀ k, A.dlls k) (cv : ∀ k, A.evTasks k) (cq : ∀ k, A.ptp k) (cu : ∀ k,
    A.units k) (H : Kept A h0 h) : Kept A h0 (tick1ms a0 h) := by
  unfold tick1ms
  exact when_kept H
    (fun _ k2 => by
      extract_lets x3_0 x3_1 x3_2 x3_3 x3_4 x3_5 x3_6 x3_7 x3_8
      have h3_0 : Kept A h0 x3_0 :=
        takeMeas_kept (c.of rfl) (advanceTo_kept (c.of rfl) cd (tick1s_kept (c.of rfl) cr cd co cp cl cv cq cu k2))
      (try clear_value x3_0)
      have h3_1 : Kept A h0 x3_1 :=
        forEach_kept
          (forEach_kept
            (forEach_kept
              (forEach_kept h3_0 (fun _ _ k4 => (decay_kept (c.of rfl) k4)))
              (fun _ _ k5 => (flip_kept cd k5)))
            (fun _ _ k6 => (voteRot_kept (c.of rfl) (cd _) k6)))
          (fun _ _ k7 => (packetError_kept (c.of rfl) k7))
      (try clear_value x3_1)
      have h3_2 : Kept A h0 x3_2 :=
        laneTicks_kept (c.of rfl) ce cr (forEach_kept h3_1 (fun _ _ k8 => (dllTrack_kept (cy _) k8)))
      (try clear_value x3_2)
      have h3_3 : Kept A h0 x3_3 := Hub.onClk_kept (clk := .inl (c.mem rfl)) (now := .inl (c.mem rfl)) h3_2
      (try clear_value x3_3)
      have h3_4 : Kept A h0 x3_4 :=
        forEach_kept (rampCorr_kept (c.of rfl) h3_3) (fun _ _ k9 => (linkTick_kept (c.of rfl) cr cd (cl _) k9))
      (try clear_value x3_4)
      have h3_5 : Kept A h0 x3_5 := forEach_kept h3_4 (fun _ _ k10 => (ptpMilli_kept cr (cq _) k10))
      (try clear_value x3_5)
      have h3_6 : Kept A h0 x3_6 :=
        forEach_kept h3_5
          (fun _ _ k11 => (refTick_kept (c.of rfl) (cr _) cd (linkPresence_kept (c.of rfl) (cr _) cd k11)))
      (try clear_value x3_6)
      have h3_7 : Kept A h0 x3_7 :=
        usedMilli_kept cr (forEach_kept h3_6 (fun _ _ k12 => (domMilli_kept (c.of rfl) cr (cd _) co cp cu k12)))
      (try clear_value x3_7)
      have h3_8 : Kept A h0 x3_8 :=
        forEach_kept
          (Hub.onTdc_kept (c.mem rfl) (plsTicks_kept cp h3_7))
          (fun _ _ k13 => (monEntry_kept (c.of rfl) (cu _) k13))
      (try clear_value x3_8)
      exact pruneCauses_kept
        (c.of rfl)
        (milliCounts_kept (c.of rfl) (hierTick_kept (c.of rfl) (checkRots_kept (c.of rfl) cd h3_8))))

theorem testBegin_kept {A : Touch} {h0 h : Hub} {a0 a1} (c : A.has [.top, .flt]) (H : Kept A h0 h) : Kept A h0
    (testBegin a0 a1 h) := by
  unfold testBegin
  extract_lets x1_0
  have h1_0 : Kept A h0 x1_0 := Hub.onFlt_kept (flt := .inl (c.mem rfl)) H
  (try clear_value x1_0)
  exact .ite (setMode_kept (c.of rfl) h1_0) h1_0

theorem testing_kept {A : Touch} {h0 h : Hub} {f : Desc → Hub → Hub} {d : Desc} (c : A.has [.cplRings, .msix, .books,
    .runs, .profile, .shimEvt, .bus]) (H : Kept A h0 h)
    (hf : ∀ d x, Kept A h0 x → Kept A h0 (f d x)) : Kept A h0 (testing_ f d h) := by
  unfold testing_
  exact .ite (complete_kept c H) (hf _ _ H)

theorem selftestReedEff_kept {A : Touch} {h0 h : Hub} {a0} (c : A.has [.top, .cplRings, .msix, .books, .runs,
    .profile, .shimEvt, .flt, .bus]) (ct : ∀ k, A.tasks k) (cn : ∀ k, A.reeds k) (H : Kept A h0 h) : Kept A h0
    (selftestReedEff a0 h) := by
  unfold selftestReedEff
  exact .ite
    (complete_kept (c.of rfl) H)
    (withFin_kept
      (c.of rfl) H
      (fun _ _ k3 => by
        extract_lets x4_0
        (try clear_value x4_0)
        exact .ite
          (complete_kept (c.of rfl) k3)
          (by
            split
            · exact complete_kept (c.of rfl) k3
            · exact .ite
                (complete_kept (c.of rfl) k3)
                (by
                  split
                  · exact complete_kept (c.of rfl) k3
                  · exact startMove_kept (ct _) (cn _) (testBegin_kept (c.of rfl) k3))
            · exact Hub.onReed_kept (cn _) (testBegin_kept (c.of rfl) k3)
            · exact Hub.onReed_kept (cn _) (testBegin_kept (c.of rfl) k3)
            · exact complete_kept (c.of rfl) k3
            · exact complete_kept (c.of rfl) k3
            · exact complete_kept (c.of rfl) k3
            · exact complete_kept (c.of rfl) k3
            · exact complete_kept (c.of rfl) k3)))

theorem selftestReed_kept {A : Touch} {h0 h : Hub} {a0} (c : A.has [.top, .cplRings, .msix, .books, .hierEvt, .runs,
    .profile, .shimEvt, .flt, .bus]) (ct : ∀ k, A.tasks k) (cn : ∀ k, A.reeds k) (H : Kept A h0 h) : Kept A h0
    (selftestReed a0 h) := by
  unfold selftestReed
  exact serve_kept
    (c.of rfl) H
    (fun _ _ k1 => (testing_kept (c.of rfl) k1 (fun _ _ k2 => (selftestReedEff_kept (c.of rfl) ct cn k2))))

theorem laneBegin_kept {A : Touch} {h0 h : Hub} {a0} (c : A.has [.tdc]) (H : Kept A h0 h) : Kept A h0 (laneBegin a0 h)
    := by
  unfold laneBegin
  exact Hub.onTdc_kept (c.mem rfl) H

theorem carry_kept {A : Touch} {h0 h : Hub} {a0} (c : A.has [.tdc]) (H : Kept A h0 h) : Kept A h0 (carry a0 h) := by
  unfold carry
  extract_lets x1_0
  (try clear_value x1_0)
  split
  · exact H
  · exact .ite
      (laneBegin_kept c H)
      (by
        split
        · exact cwPhase_kept c (laneBegin_kept c H)
        · split
          · exact H
          · exact Hub.onTdc_kept (c.mem rfl) (laneBegin_kept c H))

theorem selftestLaneEff_kept {A : Touch} {h0 h : Hub} {a0} (c : A.has [.top, .cplRings, .msix, .books, .tdc, .runs,
    .profile, .shimEvt, .flt, .bus]) (H : Kept A h0 h) : Kept A h0 (selftestLaneEff a0 h) := by
  unfold selftestLaneEff
  extract_lets x1_0 x1_1 x1_2
  (try clear_value x1_0 x1_1 x1_2)
  exact .ite
    (complete_kept (c.of rfl) H)
    (.ite
      (complete_kept (c.of rfl) H)
      (.ite
        (complete_kept (c.of rfl) H)
        (forEach_kept (testBegin_kept (c.of rfl) H) (fun _ _ k2 => (carry_kept (c.of rfl) k2)))))

theorem selftestLane_kept {A : Touch} {h0 h : Hub} {a0} (c : A.has [.top, .cplRings, .msix, .books, .tdc, .hierEvt,
    .runs, .profile, .shimEvt, .flt, .bus]) (H : Kept A h0 h) : Kept A h0 (selftestLane a0 h) := by
  unfold selftestLane
  exact serve_kept
    (c.of rfl) H
    (fun _ _ k1 => (testing_kept (c.of rfl) k1 (fun _ _ k2 => (selftestLaneEff_kept (c.of rfl) k2))))

theorem selftestRootEff_kept {A : Touch} {h0 h : Hub} {a0} (c : A.has [.top, .now, .clk, .cplRings, .msix, .books,
    .runs, .counters, .profile, .shimEvt, .collector, .fltEvt, .flt, .bus]) (cd : ∀ k, A.doms k) (H : Kept A h0 h) :
    Kept A h0 (selftestRootEff a0 h) := by
  unfold selftestRootEff
  split
  · exact complete_kept (c.of rfl) H
  · extract_lets x2_0
    (try clear_value x2_0)
    exact .ite
      (.ite
        (checkRots_kept (c.of rfl) cd (changeover_kept (c.of rfl) cd (testBegin_kept (c.of rfl) H)))
        (complete_kept (c.of rfl) H))
      (Hub.onClk_kept (clk := .inl (c.mem rfl)) (testBegin_kept (c.of rfl) H))

theorem selftestRoot_kept {A : Touch} {h0 h : Hub} {a0} (c : A.has [.top, .now, .clk, .cplRings, .msix, .books,
    .hierEvt, .runs, .counters, .profile, .shimEvt, .collector, .fltEvt, .flt, .bus]) (cd : ∀ k, A.doms k) (H : Kept A
    h0 h) : Kept A h0 (selftestRoot a0 h) := by
  unfold selftestRoot
  exact serve_kept
    (c.of rfl) H
    (fun _ _ k1 => (testing_kept (c.of rfl) k1 (fun _ _ k2 => (selftestRootEff_kept (c.of rfl) cd k2))))

theorem selftestHalfEff_kept {A : Touch} {h0 h : Hub} {a0} (c : A.has [.top, .cplRings, .msix, .books, .runs, .comp,
    .profile, .shimEvt, .collector, .fltEvt, .flt, .bus]) (cr : ∀ k, A.refs k) (cl : ∀ k, A.links k) (ct : ∀ k,
    A.tasks k) (cn : ∀ k, A.reeds k) (cv : ∀ k, A.evTasks k) (H : Kept A h0 h) : Kept A h0 (selftestHalfEff a0 h) :=
    by
  unfold selftestHalfEff
  split
  · exact complete_kept (c.of rfl) H
  · exact .ite
      (complete_kept (c.of rfl) H)
      (.ite
        (beginOn_kept (c.of rfl) cn (testBegin_kept (c.of rfl) H))
        (beginOff_kept (c.of rfl) cr cl ct cn cv (testBegin_kept (c.of rfl) H)))

theorem selftestHalf_kept {A : Touch} {h0 h : Hub} {a0} (c : A.has [.top, .cplRings, .msix, .books, .hierEvt, .runs,
    .comp, .profile, .shimEvt, .collector, .fltEvt, .flt, .bus]) (cr : ∀ k, A.refs k) (cl : ∀ k, A.links k) (ct : ∀ k,
    A.tasks k) (cn : ∀ k, A.reeds k) (cv : ∀ k, A.evTasks k) (H : Kept A h0 h) : Kept A h0 (selftestHalf a0 h) := by
  unfold selftestHalf
  exact serve_kept
    (c.of rfl) H
    (fun _ _ k1 => (testing_kept (c.of rfl) k1 (fun _ _ k2 => (selftestHalfEff_kept (c.of rfl) cr cl ct cn cv k2))))

theorem selftestImageEff_kept {A : Touch} {h0 h : Hub} {a0} (c : A.has [.top, .cplRings, .msix, .books, .runs,
    .profile, .shimEvt, .flt, .bus]) (H : Kept A h0 h) : Kept A h0 (selftestImageEff a0 h) := by
  unfold selftestImageEff
  split
  · exact complete_kept (c.of rfl) H
  · exact testBegin_kept (c.of rfl) H

theorem selftestImage_kept {A : Touch} {h0 h : Hub} {a0} (c : A.has [.top, .cplRings, .msix, .books, .hierEvt, .runs,
    .profile, .shimEvt, .flt, .bus]) (H : Kept A h0 h) : Kept A h0 (selftestImage a0 h) := by
  unfold selftestImage
  exact serve_kept
    (c.of rfl) H
    (fun _ _ k1 => (testing_kept (c.of rfl) k1 (fun _ _ k2 => (selftestImageEff_kept (c.of rfl) k2))))

theorem selftestLinkEff_kept {A : Touch} {h0 h : Hub} {a0} (c : A.has [.top, .cplRings, .msix, .books, .hier, .runs,
    .counters, .profile, .shimEvt, .collector, .fltEvt, .flt, .bus]) (cr : ∀ k, A.refs k) (cd : ∀ k, A.doms k) (cl : ∀
    k, A.links k) (cq : ∀ k, A.ptp k) (H : Kept A h0 h) : Kept A h0 (selftestLinkEff a0 h) := by
  unfold selftestLinkEff
  exact withFin_kept
    (c.of rfl) H
    (fun _ _ k2 => by
      extract_lets x3_0 x3_1 x3_2
      (try clear_value x3_0)
      have h3_1 : Kept A h0 x3_1 := testBegin_kept (c.of rfl) k2
      (try clear_value x3_1)
      have h3_2 : Kept A h0 x3_2 := .ite (leaveTimed_kept (c.of rfl) cr cd (cl _) h3_1) h3_1
      (try clear_value x3_2)
      exact ptpLink_kept (c.of rfl) cr cd (cq _) (linkStop_kept (c.of rfl) (cl _) (Hub.onLink_kept (cl _) h3_2)))

theorem selftestLink_kept {A : Touch} {h0 h : Hub} {a0} (c : A.has [.top, .cplRings, .msix, .books, .hier, .hierEvt,
    .runs, .counters, .profile, .shimEvt, .collector, .fltEvt, .flt, .bus]) (cr : ∀ k, A.refs k) (cd : ∀ k, A.doms k)
    (cl : ∀ k, A.links k) (cq : ∀ k, A.ptp k) (H : Kept A h0 h) : Kept A h0 (selftestLink a0 h) := by
  unfold selftestLink
  exact serve_kept
    (c.of rfl) H
    (fun _ _ k1 => (testing_kept (c.of rfl) k1 (fun _ _ k2 => (selftestLinkEff_kept (c.of rfl) cr cd cl cq k2))))

theorem testEnd_kept {A : Touch} {h0 h : Hub} {a0 a1 a2} (c : A.has [.top, .cplRings, .msix, .books, .runs, .profile,
    .shimEvt, .flt, .bus]) (H : Kept A h0 h) : Kept A h0 (testEnd a0 a1 a2 h) := by
  unfold testEnd
  extract_lets x1_0
  have h1_0 : Kept A h0 x1_0 := Hub.onFlt_kept (flt := .inl (c.mem rfl)) H
  (try clear_value x1_0)
  split
  · exact H
  · exact completeWith_kept (c.of rfl) (.ite (setMode_kept (c.of rfl) h1_0) h1_0)

theorem reedsTested_kept {A : Touch} {h0 h : Hub} {a0} (c : A.has [.msix, .comp, .bus]) (ct : ∀ k, A.tasks k) (cn : ∀
    k, A.reeds k) (H : Kept A h0 h) : Kept A h0 (reedsTested a0 h) := by
  unfold reedsTested
  extract_lets x1_0 x1_1
  (try clear_value x1_0)
  have h1_1 : Kept A h0 x1_1 := Hub.onComp_kept (reeds := fun k => .inl (cn k)) H
  (try clear_value x1_1)
  exact resumeTasks_kept c ct cn (.ite (raiseReed_kept c h1_1) h1_1)

theorem noteVerify_kept {A : Touch} {h0 h : Hub} {a0 a1} (c : A.has [.tdc]) (H : Kept A h0 h) : Kept A h0 (noteVerify
    a0 a1 h) := by
  unfold noteVerify
  extract_lets x1_0
  (try clear_value x1_0)
  exact Hub.onTdc_kept (c.mem rfl) H

theorem selftestComplete_kept {A : Touch} {h0 h : Hub} {a0} (c : A.has [.top, .clk, .cplRings, .msix, .books, .tdc,
    .hier, .runs, .comp, .store, .counters, .profile, .shimEvt, .shim, .collector, .fltEvt, .flt, .bus, .free]) (cl :
    ∀ k, A.links k) (ct : ∀ k, A.tasks k) (cn : ∀ k, A.reeds k) (H : Kept A h0 h) : Kept A h0 (selftestComplete a0 h)
    := by
  unfold selftestComplete
  extract_lets x1_0 x1_1 x1_2 x1_3 x1_4 x1_5 x1_6
  (try clear_value x1_0 x1_1 x1_3 x1_4 x1_5 x1_6)
  have h1_2 : Kept A h0 x1_2 := forEach_kept H (fun _ _ k2 => (.ite (noteVerify_kept (c.of rfl) k2) k2))
  (try clear_value x1_2)
  split
  · exact H
  · extract_lets x3_0 x3_1 x3_2 x3_3 x3_4
    (try clear_value x3_0 x3_1 x3_4)
    have h3_2 : Kept A h0 x3_2 :=
      .ite
        (.ite (Hub.onClk_kept (clk := .inl (c.mem rfl)) H) H)
        (.ite
          (raiseRoot_kept (c.of rfl) (rootLost_kept (c.of rfl) (Hub.onClk_kept (clk := .inl (c.mem rfl)) H)))
          (Hub.onClk_kept (clk := .inl (c.mem rfl)) H))
    (try clear_value x3_2)
    have h3_3 : Kept A h0 x3_3 := readWholeImage_kept (c.of rfl) H
    (try clear_value x3_3)
    split
    · split
      · exact .ite (testEnd_kept (c.of rfl) (reedsTested_kept (c.of rfl) ct cn H)) H
      · exact H
    · exact .ite H (testEnd_kept (c.of rfl) (Hub.onTdc_kept (c.mem rfl) h1_2))
    · exact testEnd_kept (c.of rfl) h3_2
    · exact .ite H (testEnd_kept (c.of rfl) (reedsTested_kept (c.of rfl) ct cn H))
    · exact testEnd_kept (c.of rfl) (.ite h3_3 (invalidateImage_kept (c.of rfl) h3_3))
    · split
      · exact testEnd_kept (c.of rfl) (linkStart_kept (c.of rfl) (cl _) (Hub.onLink_kept (cl _) H))
      · exact H

end Sys2Proof.Machine
end

