-- ==== Sys2Proof/Laws/KeptPower.lean ====
section
/-!
SUPPORT. What `Kept` says of the collector, power and the registers: one lemma for each effect.
-/

set_option Elab.async false

namespace Sys2Proof.Machine

theorem distrustAll_kept {A : Touch} {h0 h : Hub} {a0} (c : A.has [.msix, .bus]) (cd : ∀ k, A.doms k) (H : Kept A h0
    h) : Kept A h0 (distrustAll a0 h) := by
  unfold distrustAll
  exact forEach_kept H (fun _ _ k1 => (.ite (distrust_kept c (cd _) k1) k1))

theorem degrade_kept {A : Touch} {h0 h : Hub} {a0} (c : A.has [.msix, .fltEvt, .flt, .bus]) (cd : ∀ k, A.doms k) (H :
    Kept A h0 h) : Kept A h0 (degrade a0 h) := by
  unfold degrade
  split
  · exact H
  · extract_lets x2_0 x2_1
    have h2_0 : Kept A h0 x2_0 := keepCause_kept (c.of rfl) H
    (try clear_value x2_0)
    have h2_1 : Kept A h0 x2_1 := by
      unfold x2_1
      split
      · exact raiseDegLnk_kept (c.of rfl) h2_0
      · exact h2_0
    (try clear_value x2_1)
    exact raiseFlt_kept (c.of rfl) (distrustAll_kept (c.of rfl) cd h2_1)

/-- The history is cut to 256 records (R407). -/
theorem record_kept {A : Touch} {h0 h : Hub} {a0} (c : A.has [.msix, .fltEvt, .flt, .bus]) (H : Kept A h0 h) : Kept A
    h0 (record a0 h) := by
  unfold record
  extract_lets x
  have h1 : Kept A h0 x := ⟨H.only.trans (by constructor <;> first | exact .inr rfl | exact fun _ => .inr rfl | exact .inl (c.mem rfl)),
    H.mem, fun y => ⟨(H.flt y).1, List.length_take_le _ _⟩, H.evts, H.ids⟩
  clear_value x
  split
  · exact raiseFlt_kept (c.of rfl) (Hub.onFlt_kept (flt := .inl (c.mem rfl)) h1)
  · exact .ite (raiseFlt_kept (c.of rfl) (Hub.onFlt_kept (flt := .inl (c.mem rfl)) h1)) (raiseFlt_kept (c.of rfl)
      (Hub.onFlt_kept (flt := .inl (c.mem rfl)) h1))

theorem driveFault_kept {A : Touch} {h0 h : Hub} (c : A.has [.msix, .fltEvt, .flt, .bus]) (H : Kept A h0 h) : Kept A
    h0 (driveFault h) := by
  unfold driveFault
  exact raiseFlt_kept (c.of rfl) (Hub.onFlt_kept (flt := .inl (c.mem rfl)) H)

theorem faultNTimerExpiry_kept {A : Touch} {h0 h : Hub} (c : A.has [.flt]) (H : Kept A h0 h) : Kept A h0
    (faultNTimerExpiry h) := by
  unfold faultNTimerExpiry
  exact when_kept H (fun _ k1 => (Hub.onFlt_kept (flt := .inl (c.mem rfl)) k1))

theorem dumpSummary_kept {A : Touch} {h0 h : Hub} {a0 a1 a2} (c : A.has [.msix, .store, .counters, .shimEvt, .shim,
    .collector, .fltEvt, .flt, .bus]) (H : Kept A h0 h) : Kept A h0 (dumpSummary a0 a1 a2 h) := by
  unfold dumpSummary
  exact peatRunning_kept c H

theorem dumpMissed_kept {A : Touch} {h0 h : Hub} {a0} (c : A.has [.msix, .store, .counters, .shimEvt, .shim,
    .collector, .fltEvt, .flt, .bus]) (H : Kept A h0 h) : Kept A h0 (dumpMissed a0 h) := by
  unfold dumpMissed
  exact raiseFlt_kept (c.of rfl) (dumpSummary_kept c H)

theorem askDump_kept {A : Touch} {h0 h : Hub} {a0} (c : A.has [.msix, .store, .counters, .shimEvt, .shim, .collector,
    .fltEvt, .flt, .bus]) (H : Kept A h0 h) : Kept A h0 (askDump a0 h) := by
  unfold askDump
  split
  · exact dumpMissed_kept c H
  · exact Hub.onFlt_kept (flt := .inl (c.mem rfl)) H

theorem freeze_kept {A : Touch} {h0 h : Hub} (c : A.has [.clk, .cplRings, .msix, .books, .tdc, .hier, .runs, .comp,
    .profile, .shimEvt, .collector, .fltEvt, .flt, .bus, .free]) (ce : ∀ k, A.evts k) (cr : ∀ k, A.refs k) (cd : ∀ k,
    A.doms k) (co : ∀ k, A.outs k) (cp : ∀ k, A.plss k) (cl : ∀ k, A.links k) (ct : ∀ k, A.tasks k) (cn : ∀ k, A.reeds
    k) (H : Kept A h0 h) : Kept A h0 (freeze h) := by
  unfold freeze
  exact checkRots_kept
    (c.of rfl) cd
    (outputsSafe_kept (c.of rfl) co cp (selftestEnd_kept (c.of rfl) ce cr cl ct cn (Hub.onDoms_kept cd H)))

theorem safeEntry_kept {A : Touch} {h0 h : Hub} {a0} (c : A.has [.msix, .store, .counters, .shimEvt, .shim,
    .collector, .fltEvt, .flt, .bus]) (H : Kept A h0 h) : Kept A h0 (safeEntry a0 h) := by
  unfold safeEntry
  exact peatRunning_kept c H

theorem enterSafe_kept {A : Touch} {h0 h : Hub} {a0 a1 a2} (c : A.has [.top, .clk, .cplRings, .msix, .books, .tdc,
    .hier, .runs, .comp, .store, .counters, .profile, .shimEvt, .shim, .collector, .fltEvt, .flt, .bus, .free]) (ce :
    ∀ k, A.evts k) (cr : ∀ k, A.refs k) (cd : ∀ k, A.doms k) (co : ∀ k, A.outs k) (cp : ∀ k, A.plss k) (cl : ∀ k,
    A.links k) (ct : ∀ k, A.tasks k) (cn : ∀ k, A.reeds k) (H : Kept A h0 h) : Kept A h0 (enterSafe a0 a1 a2 h) := by
  unfold enterSafe
  extract_lets x1_0 x1_1 x1_2 x1_3 x1_4
  (try clear_value x1_0)
  have h1_1 : Kept A h0 x1_1 := freeze_kept (c.of rfl) ce cr cd co cp cl ct cn (setMode_kept (c.of rfl) H)
  (try clear_value x1_1)
  have h1_2 : Kept A h0 x1_2 := raiseSafe_kept (c.of rfl) h1_1
  (try clear_value x1_2)
  have h1_3 : Kept A h0 x1_3 := by
    unfold x1_3
    split
    · exact safeEntry_kept (c.of rfl) (peatFirst_kept (c.of rfl) h1_2)
    · exact peatEvent_kept (c.of rfl) h1_2
  (try clear_value x1_3)
  have h1_4 : Kept A h0 x1_4 := bumpCounter_kept (c.of rfl) h1_3
  (try clear_value x1_4)
  split
  · exact .ite (askDump_kept (c.of rfl) h1_4) h1_4
  · exact h1_4

theorem act_kept {A : Touch} {h0 h : Hub} {a0 a1} (c : A.has [.top, .clk, .cplRings, .msix, .books, .tdc, .hier,
    .runs, .comp, .store, .counters, .profile, .shimEvt, .shim, .collector, .fltEvt, .flt, .bus, .free]) (ce : ∀ k,
    A.evts k) (cr : ∀ k, A.refs k) (cd : ∀ k, A.doms k) (co : ∀ k, A.outs k) (cp : ∀ k, A.plss k) (cl : ∀ k, A.links
    k) (ct : ∀ k, A.tasks k) (cn : ∀ k, A.reeds k) (H : Kept A h0 h) : Kept A h0 (act a0 a1 h) := by
  unfold act
  extract_lets x1_0 x1_1 x1_2 x1_3 x1_4 x1_5 x1_6 x1_7
  (try clear_value x1_0 x1_1 x1_2)
  have h1_3 : Kept A h0 x1_3 := record_kept (c.of rfl) H
  (try clear_value x1_3)
  have h1_4 : Kept A h0 x1_4 := .ite (driveFault_kept (c.of rfl) h1_3) h1_3
  (try clear_value x1_4)
  have h1_5 : Kept A h0 x1_5 := .ite (degrade_kept (c.of rfl) cd h1_4) h1_4
  (try clear_value x1_5)
  have h1_6 : Kept A h0 x1_6 := .ite (peatMessage_kept (c.of rfl) h1_5) h1_5
  (try clear_value x1_6)
  have h1_7 : Kept A h0 x1_7 := .ite (raiseFlt_kept (c.of rfl) h1_6) h1_6
  (try clear_value x1_7)
  exact .ite (enterSafe_kept c ce cr cd co cp cl ct cn h1_7) h1_7

theorem handle_kept {A : Touch} {h0 h : Hub} {a0} (c : A.has [.top, .clk, .cplRings, .msix, .books, .tdc, .hier,
    .runs, .comp, .store, .counters, .profile, .shimEvt, .shim, .collector, .fltEvt, .flt, .bus, .free]) (ce : ∀ k,
    A.evts k) (cr : ∀ k, A.refs k) (cd : ∀ k, A.doms k) (co : ∀ k, A.outs k) (cp : ∀ k, A.plss k) (cl : ∀ k, A.links
    k) (ct : ∀ k, A.tasks k) (cn : ∀ k, A.reeds k) (H : Kept A h0 h) : Kept A h0 (handle a0 h) := by
  unfold handle
  extract_lets x1_0 x1_1 x1_2
  (try clear_value x1_0)
  have h1_1 : Kept A h0 x1_1 := .ite (peatFirst_kept (c.of rfl) H) H
  (try clear_value x1_1)
  have h1_2 : Kept A h0 x1_2 := keepCause_kept (c.of rfl) h1_1
  (try clear_value x1_2)
  exact pruneCauses_kept (c.of rfl) (.ite h1_2 (act_kept c ce cr cd co cp cl ct cn h1_2))

theorem faultMessage_kept {A : Touch} {h0 h : Hub} (c : A.has [.top, .clk, .cplRings, .msix, .books, .tdc, .hier,
    .runs, .comp, .store, .counters, .profile, .shimEvt, .shim, .collector, .fltEvt, .flt, .bus, .free]) (ce : ∀ k,
    A.evts k) (cr : ∀ k, A.refs k) (cd : ∀ k, A.doms k) (co : ∀ k, A.outs k) (cp : ∀ k, A.plss k) (cl : ∀ k, A.links
    k) (ct : ∀ k, A.tasks k) (cn : ∀ k, A.reeds k) (H : Kept A h0 h) : Kept A h0 (faultMessage h) := by
  unfold faultMessage
  split
  · exact H
  · rename_i m q e
    cases hr : h.runs
    · exact H
    · refine handle_kept c ce cr cd co cp cl ct cn ⟨H.only.trans (by constructor <;> first | exact .inr rfl | exact fun _ => .inr rfl | exact .inl (c.mem rfl)),
        H.mem, fun x => ⟨?_, (H.flt x).2⟩, H.evts, H.ids⟩
      have := (H.flt x).1
      rw [e] at this
      simp only [Hub.onFlt_flt, List.length_cons] at this ⊢; omega

theorem collectorOverflowReport_kept {A : Touch} {h0 h : Hub} (c : A.has [.msix, .collector, .fltEvt, .bus]) (H : Kept
    A h0 h) : Kept A h0 (collectorOverflowReport h) := by
  unfold collectorOverflowReport
  exact when_kept H (fun _ k1 => (sendFault_kept c (Hub.onFlt_kept (collector := .inl (c.mem rfl)) k1)))

theorem recoveryStabilityTimeout_kept {A : Touch} {h0 h : Hub} (c : A.has [.top]) (H : Kept A h0 h) : Kept A h0
    (recoveryStabilityTimeout h) := by
  unfold recoveryStabilityTimeout
  exact when_kept H (fun _ k1 => (setMode_kept c k1))

theorem releaseHeld_kept {A : Touch} {h0 h : Hub} {a0} (c : A.has [.msix, .comp, .shim, .bus]) (H : Kept A h0 h) :
    Kept A h0 (releaseHeld a0 h) := by
  unfold releaseHeld
  exact .ite (rebootWarden_kept c H) H

theorem leaveSafe_kept {A : Touch} {h0 h : Hub} (c : A.has [.top, .msix, .comp, .store, .counters, .shimEvt, .shim,
    .collector, .fltEvt, .flt, .bus]) (cd : ∀ k, A.doms k) (H : Kept A h0 h) : Kept A h0 (leaveSafe h) := by
  unfold leaveSafe
  extract_lets x1_0 x1_1 x1_2 x1_3
  (try clear_value x1_1)
  have h1_0 : Kept A h0 x1_0 := Hub.onDoms_kept cd (setMode_kept (c.of rfl) H)
  (try clear_value x1_0)
  have h1_2 : Kept A h0 x1_2 := Hub.onComp_kept (comp := .inl (c.mem rfl)) h1_0
  (try clear_value x1_2)
  have h1_3 : Kept A h0 x1_3 := .ite (releaseHeld_kept (c.of rfl) (releaseHeld_kept (c.of rfl) h1_2)) h1_2
  (try clear_value x1_3)
  exact peatEvent_kept (c.of rfl) h1_3

theorem dumpMailbox_kept {A : Touch} {h0 h : Hub} (cm : ∀ k, A.mbx k) (H : Kept A h0 h) : Kept A h0 (dumpMailbox h) :=
    by
  unfold dumpMailbox
  exact Hub.onMbx_kept (cm _) H

theorem writeDump_kept {A : Touch} {h0 h : Hub} {a0} (c : A.has [.msix, .store, .counters, .shimEvt, .shim,
    .collector, .fltEvt, .flt, .bus]) (cm : ∀ k, A.mbx k) (H : Kept A h0 h) : Kept A h0 (writeDump a0 h) := by
  unfold writeDump
  extract_lets x1_0 x1_1 x1_2 x1_3
  (try clear_value x1_0 x1_1)
  have h1_2 : Kept A h0 x1_2 :=
    forEach_kept (busWrite_kept (c.of rfl) H) (fun _ _ k2 => (busWrite_kept (c.of rfl) k2))
  (try clear_value x1_2)
  have h1_3 : Kept A h0 x1_3 := Hub.onFlt_kept (flt := .inl (c.mem rfl)) (busWrite_kept (c.of rfl) h1_2)
  (try clear_value x1_3)
  exact raiseFlt_kept (c.of rfl) (dumpSummary_kept c (dumpMailbox_kept cm h1_3))

theorem fatalDump_kept {A : Touch} {h0 h : Hub} (c : A.has [.msix, .store, .counters, .shimEvt, .shim, .collector,
    .fltEvt, .flt, .bus]) (cm : ∀ k, A.mbx k) (H : Kept A h0 h) : Kept A h0 (fatalDump h) := by
  unfold fatalDump
  split
  · exact H
  · exact .ite (.ite (writeDump_kept c cm H) (dumpMissed_kept c (Hub.onFlt_kept (flt := .inl (c.mem rfl)) H))) H

theorem Hub.fresh_kept {A : Touch} {h0 h : Hub} (c : A.has [.top, .parity, .pwr, .now, .clk, .dllEvt, .hostRegs,
    .cmdRings, .cplRings, .telRings, .strRings, .msix, .books, .spi, .tdc, .banks, .hier, .hierEvt, .runs, .comp,
    .store, .counters, .profile, .shimEvt, .shim, .cal, .collector, .fltEvt, .flt, .mons, .bus, .wire, .free]) (ce : ∀
    k, A.evts k) (ci : ∀ k, A.ivus k) (cr : ∀ k, A.refs k) (cd : ∀ k, A.doms k) (co : ∀ k, A.outs k) (cp : ∀ k, A.plss
    k) (cl : ∀ k, A.links k) (cy : ∀ k, A.dlls k) (cm : ∀ k, A.mbx k) (ct : ∀ k, A.tasks k) (cn : ∀ k, A.reeds k) (cv
    : ∀ k, A.evTasks k) (cq : ∀ k, A.ptp k) (cu : ∀ k, A.units k) (H : Kept A h0 h) : Kept A h0 (Hub.fresh h) :=
  ⟨H.only.trans (by
      constructor <;>
        first
        | exact .inl (c.mem rfl)
        | exact .inr rfl
        | exact fun k => .inl (ce k)
        | exact fun k => .inl (ci k)
        | exact fun k => .inl (cr k)
        | exact fun k => .inl (cd k)
        | exact fun k => .inl (co k)
        | exact fun k => .inl (cp k)
        | exact fun k => .inl (cl k)
        | exact fun k => .inl (cy k)
        | exact fun k => .inl (cm k)
        | exact fun k => .inl (ct k)
        | exact fun k => .inl (cn k)
        | exact fun k => .inl (cv k)
        | exact fun k => .inl (cq k)
        | exact fun k => .inl (cu k)),
    H.mem, fun _ => by constructor <;> simp [Hub.fresh, Hub.reset], fun _ n => by simp [Hub.fresh, Hub.reset, bankOf],
    fun _ => by simp [Hub.fresh, Hub.reset, Hub.idsOk]⟩

theorem goDark_kept {A : Touch} {h0 h : Hub} {a0} (c : A.has [.top, .parity, .pwr, .now, .clk, .dllEvt, .hostRegs,
    .cmdRings, .cplRings, .telRings, .strRings, .msix, .books, .spi, .tdc, .banks, .hier, .hierEvt, .runs, .comp,
    .store, .counters, .profile, .shimEvt, .shim, .cal, .collector, .fltEvt, .flt, .mons, .bus, .wire, .free]) (ce : ∀
    k, A.evts k) (ci : ∀ k, A.ivus k) (cr : ∀ k, A.refs k) (cd : ∀ k, A.doms k) (co : ∀ k, A.outs k) (cp : ∀ k, A.plss
    k) (cl : ∀ k, A.links k) (cy : ∀ k, A.dlls k) (cm : ∀ k, A.mbx k) (ct : ∀ k, A.tasks k) (cn : ∀ k, A.reeds k) (cv
    : ∀ k, A.evTasks k) (cq : ∀ k, A.ptp k) (cu : ∀ k, A.units k) (H : Kept A h0 h) : Kept A h0 (goDark a0 h) := by
  unfold goDark
  exact Hub.onPwr_kept
    (c.mem rfl)
    (Hub.onTop_kept
      (top := .inl (c.mem rfl))
      (outputsOff_kept co cp (Hub.fresh_kept c ce ci cr cd co cp cl cy cm ct cn cv cq cu H)))

theorem enterBoot_kept {A : Touch} {h0 h : Hub} {a0} (c : A.has [.top, .pwr, .counters]) (H : Kept A h0 h) : Kept A h0
    (enterBoot a0 h) := by
  unfold enterBoot
  extract_lets x1_0
  have h1_0 : Kept A h0 x1_0 := Hub.onPwr_kept (c.mem rfl) (Hub.onTop_kept (top := .inl (c.mem rfl)) H)
  (try clear_value x1_0)
  exact bumpCounter_kept (c.of rfl) h1_0

theorem coldBoot_kept {A : Touch} {h0 h : Hub} {a0} (c : A.has [.top, .parity, .pwr, .now, .clk, .dllEvt, .hostRegs,
    .cmdRings, .cplRings, .telRings, .strRings, .msix, .books, .spi, .tdc, .banks, .hier, .hierEvt, .runs, .comp,
    .store, .counters, .profile, .shimEvt, .shim, .cal, .collector, .fltEvt, .flt, .mons, .bus, .wire, .free]) (ce : ∀
    k, A.evts k) (ci : ∀ k, A.ivus k) (cr : ∀ k, A.refs k) (cd : ∀ k, A.doms k) (co : ∀ k, A.outs k) (cp : ∀ k, A.plss
    k) (cl : ∀ k, A.links k) (cy : ∀ k, A.dlls k) (cm : ∀ k, A.mbx k) (ct : ∀ k, A.tasks k) (cn : ∀ k, A.reeds k) (cv
    : ∀ k, A.evTasks k) (cq : ∀ k, A.ptp k) (cu : ∀ k, A.units k) (H : Kept A h0 h) : Kept A h0 (coldBoot a0 h) := by
  unfold coldBoot
  extract_lets x1_0 x1_1
  (try clear_value x1_1)
  have h1_0 : Kept A h0 x1_0 :=
    enterBoot_kept (c.of rfl) (Hub.fresh_kept c ce ci cr cd co cp cl cy cm ct cn cv cq cu H)
  (try clear_value x1_0)
  exact .same
    (by
      constructor <;> first | exact fun k => .inl (co k) | exact fun k => .inl (cp k) | exact .inr rfl | exact fun _ => .inr rfl | exact .inl (c.mem rfl))
    h1_0 rfl rfl rfl
    (fun _ => rfl) rfl rfl

theorem hubReset_kept {A : Touch} {h0 h : Hub} {a0} (c : A.has [.top, .parity, .pwr, .now, .clk, .dllEvt, .hostRegs,
    .cmdRings, .cplRings, .telRings, .strRings, .msix, .books, .spi, .tdc, .banks, .hier, .hierEvt, .runs, .comp,
    .store, .counters, .profile, .shimEvt, .shim, .cal, .collector, .fltEvt, .flt, .mons, .bus, .wire, .free]) (ce : ∀
    k, A.evts k) (ci : ∀ k, A.ivus k) (cr : ∀ k, A.refs k) (cd : ∀ k, A.doms k) (co : ∀ k, A.outs k) (cp : ∀ k, A.plss
    k) (cl : ∀ k, A.links k) (cy : ∀ k, A.dlls k) (cm : ∀ k, A.mbx k) (ct : ∀ k, A.tasks k) (cn : ∀ k, A.reeds k) (cv
    : ∀ k, A.evTasks k) (cq : ∀ k, A.ptp k) (cu : ∀ k, A.units k) (H : Kept A h0 h) : Kept A h0 (hubReset a0 h) := by
  unfold hubReset
  extract_lets x1_0 x1_1
  have h1_0 : Kept A h0 x1_0 := journalApply_kept (c.of rfl) H
  (try clear_value x1_0)
  exact Hub.onClk_kept
    (now := .inr
      (by
        simp only))
    (clk := .inl (c.mem rfl))
    (enterBoot_kept (c.of rfl) (Hub.fresh_kept c ce ci cr cd co cp cl cy cm ct cn cv cq cu h1_0))

theorem readRecord_kept {A : Touch} {h0 h : Hub} {a0 a1} (c : A.has [.msix, .store, .counters, .shimEvt, .shim,
    .collector, .fltEvt, .bus]) (H : Kept A h0 h) : Kept A h0 (readRecord a0 a1 h).2 := by
  unfold readRecord
  exact forEach_kept H fun _ _ h1 => readGroup_kept c h1

theorem replay_kept {A : Touch} {h0 h : Hub} {t : Txn} (c : A.has [.msix, .store, .counters, .shimEvt, .shim,
    .collector, .fltEvt, .bus]) (H : Kept A h0 h) : Kept A h0 (replay t h) := by
  unfold replay
  have k0 : Kept A h0 (readRecord t.seq 0 h).2 := readRecord_kept c H
  generalize readRecord t.seq 0 h = p at k0 ⊢
  obtain ⟨bad0, h1⟩ := p
  dsimp only at k0 ⊢
  have k1 : Kept A h0 (readRecord t.seq 1 h1).2 := readRecord_kept c k0
  generalize readRecord t.seq 1 h1 = p at k1 ⊢
  obtain ⟨bad1, h2⟩ := p
  dsimp only at k1 ⊢
  have k2 : Kept A h0 (readRecord t.seq 2 h2).2 := readRecord_kept c k1
  generalize readRecord t.seq 2 h2 = p at k2 ⊢
  obtain ⟨bad2, h3⟩ := p
  dsimp only at k2 ⊢
  exact .ite (loseHeader_kept (c.of rfl) k1) (raiseShim_kept (c.of rfl) (.ite (loseRecord_kept (c.of rfl) k2)
      (noteInvalid_kept (c.of rfl) (applyTxn_kept c k2))))

theorem recoverJournal_kept {A : Touch} {h0 h : Hub} (c : A.has [.msix, .store, .counters, .shimEvt, .shim,
    .collector, .fltEvt, .bus]) (H : Kept A h0 h) : Kept A h0 (recoverJournal h) := by
  unfold recoverJournal
  extract_lets x1_0 x1_1 x1_2 x1_3
  (try clear_value x1_0 x1_1)
  have h1_2 : Kept A h0 x1_2 := Hub.onShim_kept (shim := .inl (c.mem rfl)) H
  (try clear_value x1_2)
  have h1_3 : Kept A h0 x1_3 := by
    unfold x1_3
    split
    · exact .ite (replay_kept c h1_2) (rollBack_kept (c.of rfl) h1_2)
    · exact h1_2
  (try clear_value x1_3)
  exact .ite (rollBack_kept (c.of rfl) h1_3) h1_3

theorem scanPeat_kept {A : Touch} {h0 h : Hub} (c : A.has [.flt]) (H : Kept A h0 h) : Kept A h0 (scanPeat h) := by
  unfold scanPeat
  extract_lets x1_0 x1_1 x1_2 x1_3 x1_4 x1_5 x1_6
  (try clear_value x1_0 x1_1 x1_2 x1_3 x1_4 x1_5 x1_6)
  exact Hub.onFlt_kept (flt := .inl (c.mem rfl)) H

theorem checkImage_kept {A : Touch} {h0 h : Hub} {a0} (c : A.has [.msix, .store, .counters, .shimEvt, .shim,
    .collector, .fltEvt, .bus]) (H : Kept A h0 h) : Kept A h0 (checkImage a0 h).2 := by
  unfold checkImage
  split
  · have h1 := readImage_kept c (a0 := mInternal) (a1 := a0) H
    generalize readImage mInternal a0 h = x at h1
    dsimp only
    split
    · exact h1
    · exact invalidateImage_kept c h1
  · exact H

theorem chooseImage_kept {A : Touch} {h0 h : Hub} (c : A.has [.msix, .store, .counters, .shimEvt, .shim, .collector,
    .fltEvt, .bus]) (H : Kept A h0 h) : Kept A h0 (chooseImage h).2 := by
  unfold chooseImage
  have h1 : Kept A h0 (checkImage .a h).2 := checkImage_kept c H
  generalize checkImage .a h = p at h1 ⊢
  obtain ⟨a, x⟩ := p
  dsimp only at h1 ⊢
  have h2 : Kept A h0 (checkImage .b x).2 := checkImage_kept c h1
  generalize checkImage .b x = q at h2 ⊢
  obtain ⟨b, y⟩ := q
  exact h2

theorem startLoader_kept {A : Touch} {h0 h : Hub} (c : A.has [.top, .clk, .cplRings, .msix, .books, .tdc, .hier,
    .runs, .comp, .store, .counters, .profile, .shimEvt, .shim, .collector, .fltEvt, .flt, .bus, .free]) (ce : ∀ k,
    A.evts k) (cr : ∀ k, A.refs k) (cd : ∀ k, A.doms k) (co : ∀ k, A.outs k) (cp : ∀ k, A.plss k) (cl : ∀ k, A.links
    k) (ct : ∀ k, A.tasks k) (cn : ∀ k, A.reeds k) (H : Kept A h0 h) : Kept A h0 (startLoader h) := by
  unfold startLoader
  extract_lets x1_0
  have h1_0 : Kept A h0 x1_0 :=
    Hub.onComp_kept
      (comp := .inl (c.mem rfl))
      (reeds := fun k => .inl (cn k))
      (Hub.onShim_kept (shim := .inl (c.mem rfl)) H)
  (try clear_value x1_0)
  exact enterSafe_kept c ce cr cd co cp cl ct cn (sendFault_kept (c.of rfl) h1_0)

theorem bootBegin_kept {A : Touch} {h0 h : Hub} (c : A.has [.top, .pwr, .clk, .cplRings, .msix, .books, .tdc, .hier,
    .runs, .comp, .store, .counters, .profile, .shimEvt, .shim, .cal, .collector, .fltEvt, .flt, .bus, .free]) (ce : ∀
    k, A.evts k) (cr : ∀ k, A.refs k) (cd : ∀ k, A.doms k) (co : ∀ k, A.outs k) (cp : ∀ k, A.plss k) (cl : ∀ k,
    A.links k) (cy : ∀ k, A.dlls k) (ct : ∀ k, A.tasks k) (cn : ∀ k, A.reeds k) (H : Kept A h0 h) : Kept A h0
    (bootBegin h) := by
  unfold bootBegin
  extract_lets x1 x2 x3
  have h1 : Kept A h0 x1 := recoverJournal_kept (c.of rfl) (Hub.onTop_kept (top := .inl (c.mem rfl)) H)
  have h2 : Kept A h0 x2 := .ite h1 (raisePwr_kept (c.of rfl) h1)
  have h3 : Kept A h0 x3 := .ite (raisePwr_kept (c.of rfl) h2) h2
  clear_value x3
  have h4 : Kept A h0 (dllStarts (loadCal (scanPeat x3))) := dllStarts_kept cy (loadCal_kept (c.of rfl) (scanPeat_kept
      (c.of rfl) h3))
  generalize dllStarts (loadCal (scanPeat x3)) = w at h4 ⊢
  have h5 : Kept A h0 (chooseImage w).2 := chooseImage_kept (c.of rfl) h4
  generalize chooseImage w = p at h5 ⊢
  obtain ⟨img, y⟩ := p
  dsimp only at h5 ⊢
  have h6 := rootStart_kept (c.of rfl) (a0 := .b) (rootStart_kept (c.of rfl) (a0 := .a) h5)
  generalize rootStart .b (rootStart .a y) = z at h6 ⊢
  split
  · exact startLoader_kept (c.of rfl) ce cr cd co cp cl ct cn h6
  · exact Hub.onComp_kept (comp := .inl (c.mem rfl)) (reeds := fun k => .inl (cn k)) (Hub.onShim_kept (shim := .inl
      (c.mem rfl)) h6)

theorem ensureBegun_kept {A : Touch} {h0 h : Hub} (c : A.has [.top, .pwr, .clk, .cplRings, .msix, .books, .tdc, .hier,
    .runs, .comp, .store, .counters, .profile, .shimEvt, .shim, .cal, .collector, .fltEvt, .flt, .bus, .free]) (ce : ∀
    k, A.evts k) (cr : ∀ k, A.refs k) (cd : ∀ k, A.doms k) (co : ∀ k, A.outs k) (cp : ∀ k, A.plss k) (cl : ∀ k,
    A.links k) (cy : ∀ k, A.dlls k) (ct : ∀ k, A.tasks k) (cn : ∀ k, A.reeds k) (H : Kept A h0 h) : Kept A h0
    (ensureBegun h) := by
  unfold ensureBegun
  exact .ite (bootBegin_kept c ce cr cd co cp cl cy ct cn H) H

theorem bootRootLock_kept {A : Touch} {h0 h : Hub} {a0 a1} (c : A.has [.top, .pwr, .now, .clk, .cplRings, .msix,
    .books, .tdc, .hier, .runs, .comp, .store, .counters, .profile, .shimEvt, .shim, .cal, .collector, .fltEvt, .flt,
    .bus, .free]) (ce : ∀ k, A.evts k) (cr : ∀ k, A.refs k) (cd : ∀ k, A.doms k) (co : ∀ k, A.outs k) (cp : ∀ k,
    A.plss k) (cl : ∀ k, A.links k) (cy : ∀ k, A.dlls k) (ct : ∀ k, A.tasks k) (cn : ∀ k, A.reeds k) (H : Kept A h0 h)
    : Kept A h0 (bootRootLock a0 a1 h) := by
  unfold bootRootLock
  exact rootLock_kept (c.of rfl) (ensureBegun_kept (c.of rfl) ce cr cd co cp cl cy ct cn H)

theorem bootRootLockTimeout_kept {A : Touch} {h0 h : Hub} {a0} (c : A.has [.top, .pwr, .now, .clk, .cplRings, .msix,
    .books, .tdc, .hier, .runs, .comp, .store, .counters, .profile, .shimEvt, .shim, .cal, .collector, .fltEvt, .flt,
    .bus, .free]) (ce : ∀ k, A.evts k) (cr : ∀ k, A.refs k) (cd : ∀ k, A.doms k) (co : ∀ k, A.outs k) (cp : ∀ k,
    A.plss k) (cl : ∀ k, A.links k) (cy : ∀ k, A.dlls k) (ct : ∀ k, A.tasks k) (cn : ∀ k, A.reeds k) (H : Kept A h0 h)
    : Kept A h0 (bootRootLockTimeout a0 h) := by
  unfold bootRootLockTimeout
  exact rootLockTimeout_kept (c.of rfl) (ensureBegun_kept (c.of rfl) ce cr cd co cp cl cy ct cn H)

theorem bootChargeClaim_kept {A : Touch} {h0 h : Hub} {a0 a1} (c : A.has [.top, .pwr, .clk, .cplRings, .msix, .books,
    .tdc, .hier, .runs, .comp, .store, .counters, .profile, .shimEvt, .shim, .cal, .collector, .fltEvt, .flt, .bus,
    .free]) (ce : ∀ k, A.evts k) (ci : ∀ k, A.ivus k) (cr : ∀ k, A.refs k) (cd : ∀ k, A.doms k) (co : ∀ k, A.outs k)
    (cp : ∀ k, A.plss k) (cl : ∀ k, A.links k) (cy : ∀ k, A.dlls k) (ct : ∀ k, A.tasks k) (cn : ∀ k, A.reeds k) (H :
    Kept A h0 h) : Kept A h0 (bootChargeClaim a0 a1 h) := by
  unfold bootChargeClaim
  extract_lets x1_0
  have h1_0 : Kept A h0 x1_0 := chargeClaim_kept (c.of rfl) ci (ensureBegun_kept c ce cr cd co cp cl cy ct cn H)
  (try clear_value x1_0)
  exact .ite (Hub.onComp_kept (reeds := fun k => .inl (cn k)) h1_0) h1_0

theorem bootPins_kept {A : Touch} {h0 h : Hub} (co : ∀ k, A.outs k) (cp : ∀ k, A.plss k) (H : Kept A h0 h) : Kept A h0
    (bootPins h) := by
  unfold bootPins
  exact .ite
    (.same
      (by
        constructor <;> first | exact fun k => .inl (co k) | exact fun k => .inl (cp k) | exact .inr rfl | exact fun _ => .inr rfl)
      H rfl rfl rfl
      (fun _ => rfl) rfl rfl) H

theorem drainFaults_kept {A : Touch} {h0 h : Hub} (c : A.has [.top, .clk, .cplRings, .msix, .books, .tdc, .hier,
    .runs, .comp, .store, .counters, .profile, .shimEvt, .shim, .collector, .fltEvt, .flt, .bus, .free]) (ce : ∀ k,
    A.evts k) (cr : ∀ k, A.refs k) (cd : ∀ k, A.doms k) (co : ∀ k, A.outs k) (cp : ∀ k, A.plss k) (cl : ∀ k, A.links
    k) (ct : ∀ k, A.tasks k) (cn : ∀ k, A.reeds k) (H : Kept A h0 h) : Kept A h0 (drainFaults h) := by
  unfold drainFaults
  exact forEach_kept ⟨H.only.trans (by constructor <;> first | exact .inr rfl | exact fun _ => .inr rfl | exact .inl (c.mem rfl)),
    H.mem, fun x => ⟨by simp [Hub.onFlt], (H.flt x).2⟩, H.evts, H.ids⟩ fun _ _ h1 => handle_kept c ce cr cd co cp cl ct cn h1

theorem startTime_kept {A : Touch} {h0 h : Hub} {a0} (cd : A.doms a0) (cp : ∀ k, A.plss k) (H : Kept A h0 h) : Kept A
    h0 (startTime a0 h) := by
  unfold startTime
  extract_lets x1_0
  (try clear_value x1_0)
  exact restepPulses_kept cp (Hub.onDom_kept cd H)

theorem bootFinish_kept {A : Touch} {h0 h : Hub} (c : A.has [.top, .clk, .cplRings, .msix, .books, .tdc, .hier, .runs,
    .comp, .store, .counters, .profile, .shimEvt, .shim, .collector, .fltEvt, .flt, .bus, .free]) (ce : ∀ k, A.evts k)
    (cr : ∀ k, A.refs k) (cd : ∀ k, A.doms k) (co : ∀ k, A.outs k) (cp : ∀ k, A.plss k) (cl : ∀ k, A.links k) (ct : ∀
    k, A.tasks k) (cn : ∀ k, A.reeds k) (cv : ∀ k, A.evTasks k) (cq : ∀ k, A.ptp k) (H : Kept A h0 h) : Kept A h0
    (bootFinish h) := by
  unfold bootFinish
  extract_lets x1 x2 x3 x4
  have h1 : Kept A h0 x1 := bootPins_kept co cp (forEach_kept (drainFaults_kept c ce cr cd co cp cl ct cn H) fun _ _ k
      => startTime_kept (cd _) cp k)
  clear_value x1
  have h2 : Kept A h0 x2 := forEach_kept h1 fun _ _ k => createTask_kept (c.of rfl) cr cl ct cn cv k
  clear_value x2
  have h3 : Kept A h0 x3 := Hub.onTop_kept (top := .inl (c.mem rfl)) (.same (by constructor <;> first | exact .inr rfl | exact fun _ => .inr rfl | exact .inl (c.mem rfl)) h2 rfl rfl rfl (fun _ => rfl) rfl rfl)
  clear_value x3
  have h4 := peatEvent_kept (c.of rfl) (a0 := 8) (a1 := []) h3
  have h5 : Kept A h0 x4 := by
    unfold x4
    generalize peatEvent 8 [] x3 = y at h4
    exact Hub.onShim_kept (shim := .inl (c.mem rfl)) h4
  clear_value x4
  split
  · exact forEach_kept (enterSafe_kept c ce cr cd co cp cl ct cn h5) fun _ _ k => ptpLink_kept (c.of rfl) cr cd (cq _) k
  · exact forEach_kept (Hub.onTop_kept (top := .inl (c.mem rfl)) (setMode_kept (c.of rfl) h5)) fun _ _ k =>
      ptpLink_kept (c.of rfl) cr cd (cq _) k

theorem bootEnd_kept {A : Touch} {h0 h : Hub} (c : A.has [.top, .pwr, .clk, .cplRings, .msix, .books, .tdc, .hier,
    .runs, .comp, .store, .counters, .profile, .shimEvt, .shim, .cal, .collector, .fltEvt, .flt, .bus, .free]) (ce : ∀
    k, A.evts k) (cr : ∀ k, A.refs k) (cd : ∀ k, A.doms k) (co : ∀ k, A.outs k) (cp : ∀ k, A.plss k) (cl : ∀ k,
    A.links k) (cy : ∀ k, A.dlls k) (ct : ∀ k, A.tasks k) (cn : ∀ k, A.reeds k) (cv : ∀ k, A.evTasks k) (cq : ∀ k,
    A.ptp k) (H : Kept A h0 h) : Kept A h0 (bootEnd h) := by
  unfold bootEnd
  extract_lets x1_0
  have h1_0 : Kept A h0 x1_0 := ensureBegun_kept c ce cr cd co cp cl cy ct cn H
  (try clear_value x1_0)
  exact .ite (bootFinish_kept (c.of rfl) ce cr cd co cp cl ct cn cv cq h1_0) h1_0

theorem railRetryTimeout_kept {A : Touch} {h0 h : Hub} (c : A.has [.top]) (H : Kept A h0 h) : Kept A h0
    (railRetryTimeout h) := by
  unfold railRetryTimeout
  exact when_kept H (fun _ k1 => (Hub.onTop_kept (top := .inl (c.mem rfl)) k1))

theorem railRetryWaitExpiry_kept {A : Touch} {h0 h : Hub} (c : A.has [.top]) (H : Kept A h0 h) : Kept A h0
    (railRetryWaitExpiry h) := by
  unfold railRetryWaitExpiry
  exact when_kept H (fun _ k1 => (Hub.onTop_kept (top := .inl (c.mem rfl)) k1))

theorem vinRise_kept {A : Touch} {h0 h : Hub} {a0} (c : A.has [.top, .parity, .pwr, .now, .clk, .dllEvt, .hostRegs,
    .cmdRings, .cplRings, .telRings, .strRings, .msix, .books, .spi, .tdc, .banks, .hier, .hierEvt, .runs, .comp,
    .store, .counters, .profile, .shimEvt, .shim, .cal, .collector, .fltEvt, .flt, .mons, .bus, .wire, .free]) (ce : ∀
    k, A.evts k) (ci : ∀ k, A.ivus k) (cr : ∀ k, A.refs k) (cd : ∀ k, A.doms k) (co : ∀ k, A.outs k) (cp : ∀ k, A.plss
    k) (cl : ∀ k, A.links k) (cy : ∀ k, A.dlls k) (cm : ∀ k, A.mbx k) (ct : ∀ k, A.tasks k) (cn : ∀ k, A.reeds k) (cv
    : ∀ k, A.evTasks k) (cq : ∀ k, A.ptp k) (cu : ∀ k, A.units k) (H : Kept A h0 h) : Kept A h0 (vinRise a0 h) := by
  unfold vinRise
  extract_lets x1_0 x1_1
  (try clear_value x1_0)
  have h1_1 : Kept A h0 x1_1 := Hub.onPwr_kept (c.mem rfl) H
  (try clear_value x1_1)
  exact .ite
    (.ite
      (coldBoot_kept c ce ci cr cd co cp cl cy cm ct cn cv cq cu h1_1)
      (Hub.onTop_kept (top := .inl (c.mem rfl)) h1_1)) H

theorem vinFall_kept {A : Touch} {h0 h : Hub} {a0} (c : A.has [.top, .parity, .pwr, .now, .clk, .dllEvt, .hostRegs,
    .cmdRings, .cplRings, .telRings, .strRings, .msix, .books, .spi, .tdc, .banks, .hier, .hierEvt, .runs, .comp,
    .store, .counters, .profile, .shimEvt, .shim, .cal, .collector, .fltEvt, .flt, .mons, .bus, .wire, .free]) (ce : ∀
    k, A.evts k) (ci : ∀ k, A.ivus k) (cr : ∀ k, A.refs k) (cd : ∀ k, A.doms k) (co : ∀ k, A.outs k) (cp : ∀ k, A.plss
    k) (cl : ∀ k, A.links k) (cy : ∀ k, A.dlls k) (cm : ∀ k, A.mbx k) (ct : ∀ k, A.tasks k) (cn : ∀ k, A.reeds k) (cv
    : ∀ k, A.evTasks k) (cq : ∀ k, A.ptp k) (cu : ∀ k, A.units k) (H : Kept A h0 h) : Kept A h0 (vinFall a0 h) := by
  unfold vinFall
  exact when_kept H
    (fun _ k1 =>
      (Hub.onTop_kept
        (top := .inl (c.mem rfl))
        (goDark_kept c ce ci cr cd co cp cl cy cm ct cn cv cq cu (Hub.onPwr_kept (c.mem rfl) k1))))

theorem enHigh_kept {A : Touch} {h0 h : Hub} (c : A.has [.top, .parity, .pwr, .now, .clk, .dllEvt, .hostRegs,
    .cmdRings, .cplRings, .telRings, .strRings, .msix, .books, .spi, .tdc, .banks, .hier, .hierEvt, .runs, .comp,
    .store, .counters, .profile, .shimEvt, .shim, .cal, .collector, .fltEvt, .flt, .mons, .bus, .wire, .free]) (ce : ∀
    k, A.evts k) (ci : ∀ k, A.ivus k) (cr : ∀ k, A.refs k) (cd : ∀ k, A.doms k) (co : ∀ k, A.outs k) (cp : ∀ k, A.plss
    k) (cl : ∀ k, A.links k) (cy : ∀ k, A.dlls k) (cm : ∀ k, A.mbx k) (ct : ∀ k, A.tasks k) (cn : ∀ k, A.reeds k) (cv
    : ∀ k, A.evTasks k) (cq : ∀ k, A.ptp k) (cu : ∀ k, A.units k) (H : Kept A h0 h) : Kept A h0 (enHigh h) := by
  unfold enHigh
  extract_lets x1_0
  have h1_0 : Kept A h0 x1_0 := Hub.onTop_kept (top := .inl (c.mem rfl)) H
  (try clear_value x1_0)
  exact .ite (coldBoot_kept c ce ci cr cd co cp cl cy cm ct cn cv cq cu h1_0) h1_0

theorem enLow_kept {A : Touch} {h0 h : Hub} (c : A.has [.top, .parity, .pwr, .now, .clk, .dllEvt, .hostRegs,
    .cmdRings, .cplRings, .telRings, .strRings, .msix, .books, .spi, .tdc, .banks, .hier, .hierEvt, .runs, .comp,
    .store, .counters, .profile, .shimEvt, .shim, .cal, .collector, .fltEvt, .flt, .mons, .bus, .wire, .free]) (ce : ∀
    k, A.evts k) (ci : ∀ k, A.ivus k) (cr : ∀ k, A.refs k) (cd : ∀ k, A.doms k) (co : ∀ k, A.outs k) (cp : ∀ k, A.plss
    k) (cl : ∀ k, A.links k) (cy : ∀ k, A.dlls k) (cm : ∀ k, A.mbx k) (ct : ∀ k, A.tasks k) (cn : ∀ k, A.reeds k) (cv
    : ∀ k, A.evTasks k) (cq : ∀ k, A.ptp k) (cu : ∀ k, A.units k) (H : Kept A h0 h) : Kept A h0 (enLow h) := by
  unfold enLow
  extract_lets x1_0 x1_1
  (try clear_value x1_1)
  have h1_0 : Kept A h0 x1_0 := Hub.onTop_kept (top := .inl (c.mem rfl)) H
  (try clear_value x1_0)
  exact .ite h1_0
    (Hub.onTop_kept (top := .inl (c.mem rfl)) (goDark_kept c ce ci cr cd co cp cl cy cm ct cn cv cq cu h1_0))

theorem haltJournal_kept {A : Touch} {h0 h : Hub} (c : A.has [.cplRings, .msix, .books, .runs, .store, .counters,
    .profile, .shimEvt, .shim, .collector, .fltEvt, .bus]) (H : Kept A h0 h) : Kept A h0 (haltJournal h) := by
  unfold haltJournal
  extract_lets x1_0
  have h1_0 : Kept A h0 x1_0 := journalApply_kept c (Hub.onShim_kept (shim := .inl (c.mem rfl)) H)
  (try clear_value x1_0)
  exact Hub.onShim_kept (shim := .inl (c.mem rfl)) h1_0

theorem pfailAssert_kept {A : Touch} {h0 h : Hub} {a0} (c : A.has [.top, .pwr, .clk, .cplRings, .msix, .books, .tdc,
    .hier, .runs, .comp, .store, .counters, .profile, .shimEvt, .shim, .cal, .collector, .fltEvt, .flt, .bus, .free])
    (ce : ∀ k, A.evts k) (cr : ∀ k, A.refs k) (cd : ∀ k, A.doms k) (co : ∀ k, A.outs k) (cp : ∀ k, A.plss k) (cl : ∀
    k, A.links k) (cy : ∀ k, A.dlls k) (ct : ∀ k, A.tasks k) (cn : ∀ k, A.reeds k) (H : Kept A h0 h) : Kept A h0
    (pfailAssert a0 h) := by
  unfold pfailAssert
  extract_lets x1_0
  have h1_0 : Kept A h0 x1_0 := ensureBegun_kept c ce cr cd co cp cl cy ct cn H
  (try clear_value x1_0)
  exact when_kept h1_0
    (fun _ k2 => by
      extract_lets x3_0
      have h3_0 : Kept A h0 x3_0 := Hub.onClk_kept (clk := .inl (c.mem rfl)) (Hub.onPwr_kept (c.mem rfl) k2)
      (try clear_value x3_0)
      exact peatEvent_kept (c.of rfl) (haltJournal_kept (c.of rfl) (raisePwr_kept (c.of rfl) h3_0)))

theorem supplyFault_kept {A : Touch} {h0 h : Hub} {a0} (c : A.has [.msix, .collector, .fltEvt, .bus]) (H : Kept A h0
    h) : Kept A h0 (supplyFault a0 h) := by
  unfold supplyFault
  exact sendFault_kept c H

theorem pfailDeassert_kept {A : Touch} {h0 h : Hub} {a0} (c : A.has [.pwr, .cplRings, .msix, .books, .runs, .profile,
    .shimEvt, .shim, .collector, .fltEvt, .bus]) (H : Kept A h0 h) : Kept A h0 (pfailDeassert a0 h) := by
  unfold pfailDeassert
  exact when_kept H
    (fun _ k2 => by
      extract_lets x3_0 x3_1
      (try clear_value x3_0)
      have h3_1 : Kept A h0 x3_1 := Hub.onShim_kept (shim := .inl (c.mem rfl)) (Hub.onPwr_kept (c.mem rfl) k2)
      (try clear_value x3_1)
      exact completeOpt_kept (c.of rfl) (supplyFault_kept (c.of rfl) (raisePwr_kept (c.of rfl) h3_1)))

theorem vinOvervoltage_kept {A : Touch} {h0 h : Hub} {a0} (c : A.has [.pwr, .msix, .collector, .fltEvt, .bus]) (H :
    Kept A h0 h) : Kept A h0 (vinOvervoltage a0 h) := by
  unfold vinOvervoltage
  exact when_kept H
    (fun _ k1 => (supplyFault_kept (c.of rfl) (raisePwr_kept (c.of rfl) (Hub.onPwr_kept (c.mem rfl) k1))))

theorem converterPhaseLost_kept {A : Touch} {h0 h : Hub} {a0} (c : A.has [.pwr, .msix, .collector, .fltEvt, .bus]) (H
    : Kept A h0 h) : Kept A h0 (converterPhaseLost a0 h) := by
  unfold converterPhaseLost
  exact when_kept H
    (fun _ k1 => (supplyFault_kept (c.of rfl) (raisePwr_kept (c.of rfl) (Hub.onPwr_kept (c.mem rfl) k1))))

theorem converterPhaseRestored_kept {A : Touch} {h0 h : Hub} {a0} (c : A.has [.pwr]) (H : Kept A h0 h) : Kept A h0
    (converterPhaseRestored a0 h) := by
  unfold converterPhaseRestored
  exact when_kept H (fun _ k1 => (Hub.onPwr_kept (c.mem rfl) k1))

theorem setTemp_kept {A : Touch} {h0 h : Hub} {a0 a1} (c : A.has [.pwr]) (H : Kept A h0 h) : Kept A h0 (setTemp a0 a1
    h) := by
  unfold setTemp
  exact Hub.onPwr_kept (c.mem rfl) H

theorem setTemps_kept {A : Touch} {h0 h : Hub} {a0} (c : A.has [.pwr]) (H : Kept A h0 h) : Kept A h0 (setTemps a0 h)
    := by
  unfold setTemps
  exact Hub.onPwr_kept (c.mem rfl) H

theorem thermalWarn_kept {A : Touch} {h0 h : Hub} {a0 a1} (c : A.has [.pwr, .msix, .counters, .collector, .fltEvt,
    .bus]) (H : Kept A h0 h) : Kept A h0 (thermalWarn a0 a1 h) := by
  unfold thermalWarn
  exact when_kept H
    (fun _ k1 =>
      (bumpCounter_kept
        (c.of rfl)
        (raisePwr_kept
          (c.of rfl)
          (sendFault_kept (c.of rfl) (Hub.onPwr_kept (c.mem rfl) (setTemp_kept (c.of rfl) k1))))))

theorem thermalWarnClear_kept {A : Touch} {h0 h : Hub} {a0} (c : A.has [.pwr]) (H : Kept A h0 h) : Kept A h0
    (thermalWarnClear a0 h) := by
  unfold thermalWarnClear
  exact when_kept H (fun _ k1 => (Hub.onPwr_kept (c.mem rfl) (setTemps_kept c k1)))

theorem thermalTrip_kept {A : Touch} {h0 h : Hub} {a0 a1} (c : A.has [.top, .parity, .pwr, .now, .clk, .dllEvt,
    .hostRegs, .cmdRings, .cplRings, .telRings, .strRings, .msix, .books, .spi, .tdc, .banks, .hier, .hierEvt, .runs,
    .comp, .store, .counters, .profile, .shimEvt, .shim, .cal, .collector, .fltEvt, .flt, .mons, .bus, .wire, .free])
    (ce : ∀ k, A.evts k) (ci : ∀ k, A.ivus k) (cr : ∀ k, A.refs k) (cd : ∀ k, A.doms k) (co : ∀ k, A.outs k) (cp : ∀
    k, A.plss k) (cl : ∀ k, A.links k) (cy : ∀ k, A.dlls k) (cm : ∀ k, A.mbx k) (ct : ∀ k, A.tasks k) (cn : ∀ k,
    A.reeds k) (cv : ∀ k, A.evTasks k) (cq : ∀ k, A.ptp k) (cu : ∀ k, A.units k) (H : Kept A h0 h) : Kept A h0
    (thermalTrip a0 a1 h) := by
  unfold thermalTrip
  extract_lets x1_0
  have h1_0 : Kept A h0 x1_0 := ensureBegun_kept (c.of rfl) ce cr cd co cp cl cy ct cn H
  (try clear_value x1_0)
  exact when_kept h1_0
    (fun _ k2 => by
      extract_lets x3_0 x3_1
      (try clear_value x3_1)
      have h3_0 : Kept A h0 x3_0 := setTemp_kept (c.of rfl) k2
      (try clear_value x3_0)
      exact goDark_kept c ce ci cr cd co cp cl cy cm ct cn cv cq cu
        (bumpCounter_kept (c.of rfl) (.ite (peatFirst_kept (c.of rfl) (haltJournal_kept (c.of rfl) h3_0)) h3_0)))

theorem thermalAutoRestart_kept {A : Touch} {h0 h : Hub} {a0} (c : A.has [.top, .parity, .pwr, .now, .clk, .dllEvt,
    .hostRegs, .cmdRings, .cplRings, .telRings, .strRings, .msix, .books, .spi, .tdc, .banks, .hier, .hierEvt, .runs,
    .comp, .store, .counters, .profile, .shimEvt, .shim, .cal, .collector, .fltEvt, .flt, .mons, .bus, .wire, .free])
    (ce : ∀ k, A.evts k) (ci : ∀ k, A.ivus k) (cr : ∀ k, A.refs k) (cd : ∀ k, A.doms k) (co : ∀ k, A.outs k) (cp : ∀
    k, A.plss k) (cl : ∀ k, A.links k) (cy : ∀ k, A.dlls k) (cm : ∀ k, A.mbx k) (ct : ∀ k, A.tasks k) (cn : ∀ k,
    A.reeds k) (cv : ∀ k, A.evTasks k) (cq : ∀ k, A.ptp k) (cu : ∀ k, A.units k) (H : Kept A h0 h) : Kept A h0
    (thermalAutoRestart a0 h) := by
  unfold thermalAutoRestart
  exact when_kept H
    (fun _ k1 =>
      (coldBoot_kept c ce ci cr cd co cp cl cy cm ct cn cv cq cu (Hub.onTop_kept (top := .inl (c.mem rfl)) k1)))

theorem vddpBankMeasurement_kept {A : Touch} {h0 h : Hub} {a0} (cp : ∀ k, A.plss k) (H : Kept A h0 h) : Kept A h0
    (vddpBankMeasurement a0 h) := by
  unfold vddpBankMeasurement
  exact when_kept H
    (fun _ k1 =>
      (.same
        (by
          constructor <;> first | exact fun k => .inl (cp k) | exact .inr rfl | exact fun _ => .inr rfl) k1 rfl rfl
        rfl
        (fun _ => rfl) rfl rfl))

theorem loaderVerifyDone_kept {A : Touch} {h0 h : Hub} (c : A.has [.top, .parity, .pwr, .now, .clk, .dllEvt,
    .hostRegs, .cmdRings, .cplRings, .telRings, .strRings, .msix, .books, .spi, .tdc, .banks, .hier, .hierEvt, .runs,
    .comp, .store, .counters, .profile, .shimEvt, .shim, .cal, .collector, .fltEvt, .flt, .mons, .bus, .wire, .free])
    (ce : ∀ k, A.evts k) (ci : ∀ k, A.ivus k) (cr : ∀ k, A.refs k) (cd : ∀ k, A.doms k) (co : ∀ k, A.outs k) (cp : ∀
    k, A.plss k) (cl : ∀ k, A.links k) (cy : ∀ k, A.dlls k) (cm : ∀ k, A.mbx k) (ct : ∀ k, A.tasks k) (cn : ∀ k,
    A.reeds k) (cv : ∀ k, A.evTasks k) (cq : ∀ k, A.ptp k) (cu : ∀ k, A.units k) (H : Kept A h0 h) : Kept A h0
    (loaderVerifyDone h) := by
  unfold loaderVerifyDone
  exact when_kept H
    (fun _ k2 => by
      extract_lets x3_0 x3_1 x3_2 x3_3
      (try clear_value x3_0 x3_2)
      have h3_1 : Kept A h0 x3_1 := readImage_kept (c.of rfl) k2
      (try clear_value x3_1)
      have h3_3 : Kept A h0 x3_3 := Hub.onShim_kept (shim := .inl (c.mem rfl)) h3_1
      (try clear_value x3_3)
      exact .ite
        (hubReset_kept c ce ci cr cd co cp cl cy cm ct cn cv cq cu
          (bumpCounter_kept (c.of rfl) (setImageState_kept (c.of rfl) h3_3))) h3_3)

theorem violation_kept {A : Touch} {h0 h : Hub} {a0 a1 a2 a3} (c : A.has [.top]) (H : Kept A h0 h) : Kept A h0
    (violation a0 a1 a2 a3 h) := by
  unfold violation
  extract_lets x1_0
  (try clear_value x1_0)
  split
  · exact Hub.onTop_kept (top := .inl (c.mem rfl)) H
  · exact Hub.onTop_kept (top := .inl (c.mem rfl)) H
  · exact Hub.onTop_kept (top := .inl (c.mem rfl)) H

theorem ackPlain_kept {A : Touch} {h0 h : Hub} {a0 a1} (c : A.has [.pwr, .clk, .msix, .tdc, .hierEvt, .comp, .shimEvt,
    .cal, .mons, .bus]) (ce : ∀ k, A.evts k) (ci : ∀ k, A.ivus k) (cr : ∀ k, A.refs k) (co : ∀ k, A.outs k) (cp : ∀ k,
    A.plss k) (cl : ∀ k, A.links k) (H : Kept A h0 h) : Kept A h0 (ackPlain a0 a1 h) := by
  unfold ackPlain
  extract_lets x1_0 x1_1
  have h1_0 : Kept A h0 x1_0 := Hub.onTdc_kept (c.mem rfl) H
  (try clear_value x1_0)
  have h1_1 : Kept A h0 x1_1 := Hub.onHier_kept (hierEvt := .inl (c.mem rfl)) H
  (try clear_value x1_1)
  split
  · exact Hub.onClk_kept (clk := .inl (c.mem rfl)) H
  · exact .ite (raiseRotSat_kept (c.of rfl) (Hub.onClk_kept (clk := .inl (c.mem rfl)) H)) H
  · exact Hub.onEvt_kept (ce _) H
  · exact Hub.onIvu_kept (ci _) H
  · exact .ite (.ite h1_0 (raiseTdc_kept (c.of rfl) h1_0)) H
  · exact Hub.onRef_kept (cr _) H
  · exact Hub.onOut_kept (co _) H
  · exact Hub.onPls_kept (cp _) H
  · exact Hub.onLink_kept (cl _) H
  · exact .ite (.ite (raiseHier_kept (c.of rfl) h1_1) h1_1) H
  · exact Hub.onComp_kept (comp := .inl (c.mem rfl)) H
  · exact Hub.onComp_kept (comp := .inl (c.mem rfl)) H
  · exact Hub.onShim_kept (shimEvt := .inl (c.mem rfl)) H
  · exact Hub.onCal_kept (c.mem rfl) H
  · exact Hub.onMons_kept (mons := .inl (c.mem rfl)) H
  · exact Hub.onPwr_kept (c.mem rfl) H

theorem ackDll_kept {A : Touch} {h0 h : Hub} {a0 a1} (c : A.has [.dllEvt]) (cy : ∀ k, A.dlls k) (H : Kept A h0 h) :
    Kept A h0 (ackDll a0 a1 h) := by
  unfold ackDll
  extract_lets x1_0
  (try clear_value x1_0)
  exact .ite
    (forEach_kept
      (.same
        (by
          constructor <;> first | exact .inr rfl | exact fun _ => .inr rfl | exact .inl (c.mem rfl)) H rfl rfl rfl
        (fun _ => rfl) rfl rfl)
      (fun _ _ k2 => (.ite (rearmDll_kept (cy _) k2) k2))) H

theorem ackDom_kept {A : Touch} {h0 h : Hub} {a0 a1} (c : A.has [.msix, .bus]) (cd : A.doms a0) (H : Kept A h0 h) :
    Kept A h0 (ackDom a0 a1 h) := by
  unfold ackDom
  extract_lets x1_0
  have h1_0 : Kept A h0 x1_0 := Hub.onDom_kept cd H
  (try clear_value x1_0)
  exact .ite (.ite (distrust_kept c cd h1_0) h1_0) H

theorem ackFlt_kept {A : Touch} {h0 h : Hub} {a0} (c : A.has [.fltEvt, .flt]) (H : Kept A h0 h) : Kept A h0 (ackFlt a0
    h) := by
  unfold ackFlt
  exact .ite
    (Hub.onFlt_kept H
      (collector := .inr
        (by
          dsimp only
          split <;> rfl))
      (fltEvt := .inl (c.mem rfl))
      (flt := .inl (c.mem rfl))
      (hq :=
        (by
          dsimp only
          split <;> rfl))
      (hh :=
        (by
          dsimp only
          split <;> rfl))) H

theorem ackSafe_kept {A : Touch} {h0 h : Hub} {a0} (c : A.has [.top, .msix, .comp, .store, .counters, .shimEvt, .shim,
    .collector, .fltEvt, .flt, .bus]) (cd : ∀ k, A.doms k) (H : Kept A h0 h) : Kept A h0 (ackSafe a0 h) := by
  unfold ackSafe
  extract_lets x1_0
  have h1_0 : Kept A h0 x1_0 := Hub.onFlt_kept (flt := .inl (c.mem rfl)) H
  (try clear_value x1_0)
  exact .ite (.ite (leaveSafe_kept c cd h1_0) h1_0) H

theorem ackDegLnk_kept {A : Touch} {h0 h : Hub} {a0 a1} (c : A.has [.flt]) (H : Kept A h0 h) : Kept A h0 (ackDegLnk a0
    a1 h) := by
  unfold ackDegLnk
  extract_lets x1_0
  (try clear_value x1_0)
  exact .ite (Hub.onFlt_kept (flt := .inl (c.mem rfl)) H) H

theorem ackReg_kept {A : Touch} {h0 h : Hub} {a0 a1} (c : A.has [.top, .pwr, .clk, .dllEvt, .msix, .tdc, .hierEvt,
    .comp, .store, .counters, .shimEvt, .shim, .cal, .collector, .fltEvt, .flt, .mons, .bus]) (ce : ∀ k, A.evts k) (ci
    : ∀ k, A.ivus k) (cr : ∀ k, A.refs k) (cd : ∀ k, A.doms k) (co : ∀ k, A.outs k) (cp : ∀ k, A.plss k) (cl : ∀ k,
    A.links k) (cy : ∀ k, A.dlls k) (H : Kept A h0 h) : Kept A h0 (ackReg a0 a1 h) := by
  unfold ackReg
  split
  · exact ackPlain_kept (c.of rfl) ce ci cr co cp cl H
  · exact ackDll_kept (c.of rfl) cy H
  · exact ackDom_kept (c.of rfl) (cd _) H
  · exact ackFlt_kept (c.of rfl) H
  · exact ackSafe_kept (c.of rfl) cd H
  · exact ackDegLnk_kept (c.of rfl) H

theorem enableRing_kept {A : Touch} {h0 h : Hub} {a0 a1} (cg : ringPart a0 ∈ A.parts) (ce : ∀ k, A.evts k) (H : Kept A
    h0 h) : Kept A h0 (enableRing a0 a1 h) := by
  unfold enableRing
  exact streamRoom_kept ce (Hub.onRing_kept cg H)

theorem disableRing_kept {A : Touch} {h0 h : Hub} {a0 a1} (cg : ringPart a0 ∈ A.parts) (H : Kept A h0 h) : Kept A h0
    (disableRing a0 a1 h) := by
  unfold disableRing
  extract_lets x1_0
  (try clear_value x1_0)
  exact Hub.onRing_kept cg H

theorem vioClr_kept {A : Touch} {h0 h : Hub} {a0} (c : A.has [.top]) (H : Kept A h0 h) : Kept A h0 (vioClr a0 h) := by
  unfold vioClr
  exact Hub.onTop_kept (top := .inl (c.mem rfl)) H

theorem resetKeyWrite_kept {A : Touch} {h0 h : Hub} {a0 a1} (c : A.has [.top, .parity, .pwr, .now, .clk, .dllEvt,
    .hostRegs, .cmdRings, .cplRings, .telRings, .strRings, .msix, .books, .spi, .tdc, .banks, .hier, .hierEvt, .runs,
    .comp, .store, .counters, .profile, .shimEvt, .shim, .cal, .collector, .fltEvt, .flt, .mons, .bus, .wire, .free])
    (ce : ∀ k, A.evts k) (ci : ∀ k, A.ivus k) (cr : ∀ k, A.refs k) (cd : ∀ k, A.doms k) (co : ∀ k, A.outs k) (cp : ∀
    k, A.plss k) (cl : ∀ k, A.links k) (cy : ∀ k, A.dlls k) (cm : ∀ k, A.mbx k) (ct : ∀ k, A.tasks k) (cn : ∀ k,
    A.reeds k) (cv : ∀ k, A.evTasks k) (cq : ∀ k, A.ptp k) (cu : ∀ k, A.units k) (H : Kept A h0 h) : Kept A h0
    (resetKeyWrite a0 a1 h) := by
  unfold resetKeyWrite
  extract_lets x1_0 x1_1
  (try clear_value x1_0 x1_1)
  exact .ite
    (hubReset_kept c ce ci cr cd co cp cl cy cm ct cn cv cq cu H)
    (Hub.onTop_kept (top := .inl (c.mem rfl)) H)

theorem pinCtl_kept {A : Touch} {h0 h : Hub} {a0 a1} (c : A.has [.flt]) (H : Kept A h0 h) : Kept A h0 (pinCtl a0 a1 h)
    := by
  unfold pinCtl
  exact Hub.onFlt_kept (flt := .inl (c.mem rfl)) H

theorem requestSnapshot_kept {A : Touch} {h0 h : Hub} {a0} (cm : A.mbx a0) (H : Kept A h0 h) : Kept A h0
    (requestSnapshot a0 h) := by
  unfold requestSnapshot
  exact Hub.onMbx_kept cm H

theorem lockable_kept {A : Touch} {h0 h : Hub} {a0 a1} (H : Kept A h0 h) : OptKept A h0 (lockable a0 a1 h) := by
  unfold lockable
  exact .ite .none (.some H)

theorem baseWrite_kept {A : Touch} {h0 h : Hub} {a0 a1 a2} (cg : ringPart a0 ∈ A.parts) (H : Kept A h0 h) : OptKept A
    h0 (baseWrite a0 a1 a2 h) := by
  unfold baseWrite
  dsimp only
  exact .ite (lockable_kept (Hub.onRing_kept cg H)) (lockable_kept (Hub.onRing_kept cg H))

theorem ctlWrite_kept {A : Touch} {h0 h : Hub} {a0 a1} (cg : ringPart a0 ∈ A.parts) (ce : ∀ k, A.evts k) (H : Kept A
    h0 h) : OptKept A h0 (ctlWrite a0 a1 h) := by
  unfold ctlWrite
  dsimp only
  exact .ite (.ite .none (.ite (.some (Hub.onRing_kept cg H)) (.ite (.some (disableRing_kept cg H)) .none)))
    (.ite (.ite (.some (enableRing_kept cg ce H)) .none) (.some (Hub.onRing_kept cg H)))

theorem putTop_kept {A : Touch} {h0 h : Hub} {a0 a1 a2} (c : A.has [.top, .parity, .pwr, .now, .clk, .dllEvt,
    .hostRegs, .cmdRings, .cplRings, .telRings, .strRings, .msix, .books, .spi, .tdc, .banks, .hier, .hierEvt, .runs,
    .comp, .store, .counters, .profile, .shimEvt, .shim, .cal, .collector, .fltEvt, .flt, .mons, .bus, .wire, .free])
    (ce : ∀ k, A.evts k) (ci : ∀ k, A.ivus k) (cr : ∀ k, A.refs k) (cd : ∀ k, A.doms k) (co : ∀ k, A.outs k) (cp : ∀
    k, A.plss k) (cl : ∀ k, A.links k) (cy : ∀ k, A.dlls k) (cm : ∀ k, A.mbx k) (ct : ∀ k, A.tasks k) (cn : ∀ k,
    A.reeds k) (cv : ∀ k, A.evTasks k) (cq : ∀ k, A.ptp k) (cu : ∀ k, A.units k) (H : Kept A h0 h) : OptKept A h0
    (putTop a0 a1 a2 h) := by
  unfold putTop
  exact .ite (.some (vioClr_kept (c.of rfl) H)) (.ite (.some (Hub.onPwr_kept (c.mem rfl) H)) (.ite (.some
      (resetKeyWrite_kept c ce ci cr cd co cp cl cy cm ct cn cv cq cu H)) .none))

theorem putFlt_kept {A : Touch} {h0 h : Hub} {a0 a1} (c : A.has [.flt]) (H : Kept A h0 h) : OptKept A h0 (putFlt a0 a1
    h) := by
  unfold putFlt
  exact .ite (.some (pinCtl_kept c H)) (.ite (.some (Hub.onFlt_kept (flt := .inl (c.mem rfl)) H)) (.map fun _ =>
      Hub.onFlt_kept (flt := .inl (c.mem rfl)) H))

theorem putHost_kept {A : Touch} {h0 h : Hub} {a0 a1} (c : A.has [.hostRegs, .cmdRings, .cplRings, .telRings,
    .strRings]) (ce : ∀ k, A.evts k) (H : Kept A h0 h) : OptKept A h0 (putHost a0 a1 h) := by
  unfold putHost
  dsimp only
  refine .ite (lockable_kept (Hub.onHost_kept (hostRegs := .inl (c.mem rfl)) H)) (.ite (lockable_kept (Hub.onHost_kept
      (hostRegs := .inl (c.mem rfl)) H)) (.ite (.some (Hub.onHost_kept (hostRegs := .inl (c.mem rfl)) H))
    (.ite (.some (Hub.onHost_kept (hostRegs := .inl (c.mem rfl)) H)) (.ite (.some (Hub.onHost_kept (hostRegs := .inl
        (c.mem rfl)) H)) ?_))))
  split
  · exact .ite (baseWrite_kept (ringPart_mem c rfl _) H) (.ite (baseWrite_kept (ringPart_mem c rfl _) H) (.ite
      (ctlWrite_kept (ringPart_mem c rfl _) ce H) .none))
  · split
    · exact .some (Hub.onHost_kept (hostRegs := .inl (c.mem rfl)) H)
    · exact .map fun _ => Hub.onRing_kept (ringPart_mem c rfl _) H

theorem putMbx_kept {A : Touch} {h0 h : Hub} {a0 a1 a2} (cm : A.mbx a0) (H : Kept A h0 h) : OptKept A h0 (putMbx a0 a1
    a2 h) := by
  unfold putMbx
  exact .ite (.some (Hub.onMbx_kept cm H)) (.ite (.some (.ite (requestSnapshot_kept cm H) H)) .none)

theorem putLdr_kept {A : Touch} {h0 h : Hub} {a0 a1} (c : A.has [.msix, .store, .counters, .shimEvt, .shim,
    .collector, .fltEvt, .bus]) (H : Kept A h0 h) : OptKept A h0 (putLdr a0 a1 h) := by
  unfold putLdr
  exact .ite (.some (ldrOfs_kept (c.of rfl) H)) (.ite (.some (ldrData_kept c H)) (.ite (.some (.ite (ldrVerify_kept
      (c.of rfl) H) H)) .none))

theorem putReg_kept {A : Touch} {h0 h : Hub} {a0 a1 a2} (c : A.has [.top, .parity, .pwr, .now, .clk, .dllEvt,
    .hostRegs, .cmdRings, .cplRings, .telRings, .strRings, .msix, .books, .spi, .tdc, .banks, .hier, .hierEvt, .runs,
    .comp, .store, .counters, .profile, .shimEvt, .shim, .cal, .collector, .fltEvt, .flt, .mons, .bus, .wire, .free])
    (ce : ∀ k, A.evts k) (ci : ∀ k, A.ivus k) (cr : ∀ k, A.refs k) (cd : ∀ k, A.doms k) (co : ∀ k, A.outs k) (cp : ∀
    k, A.plss k) (cl : ∀ k, A.links k) (cy : ∀ k, A.dlls k) (cm : ∀ k, A.mbx k) (ct : ∀ k, A.tasks k) (cn : ∀ k,
    A.reeds k) (cv : ∀ k, A.evTasks k) (cq : ∀ k, A.ptp k) (cu : ∀ k, A.units k) (H : Kept A h0 h) : OptKept A h0
    (putReg a0 a1 a2 h) := by
  unfold putReg
  split
  · exact .some (ackReg_kept (c.of rfl) ce ci cr cd co cp cl cy H)
  · refine .ite (.some (Hub.onMons_kept (mons := .inl (c.mem rfl)) H)) ?_
    split
    · exact putMbx_kept (cm _) H
    · exact .ite (putTop_kept c ce ci cr cd co cp cl cy cm ct cn cv cq cu H) (.ite (putHost_kept (c.of rfl) ce H)
        (.ite (putFlt_kept (c.of rfl) H) (putLdr_kept (c.of rfl) H)))

theorem writeReg_kept {A : Touch} {h0 h : Hub} {a0 a1 a2} (c : A.has [.top, .parity, .pwr, .now, .clk, .dllEvt,
    .hostRegs, .cmdRings, .cplRings, .telRings, .strRings, .msix, .books, .spi, .tdc, .banks, .hier, .hierEvt, .runs,
    .comp, .store, .counters, .profile, .shimEvt, .shim, .cal, .collector, .fltEvt, .flt, .mons, .bus, .wire, .free])
    (ce : ∀ k, A.evts k) (ci : ∀ k, A.ivus k) (cr : ∀ k, A.refs k) (cd : ∀ k, A.doms k) (co : ∀ k, A.outs k) (cp : ∀
    k, A.plss k) (cl : ∀ k, A.links k) (cy : ∀ k, A.dlls k) (cm : ∀ k, A.mbx k) (ct : ∀ k, A.tasks k) (cn : ∀ k,
    A.reeds k) (cv : ∀ k, A.evTasks k) (cq : ∀ k, A.ptp k) (cu : ∀ k, A.units k) (H : Kept A h0 h) : Kept A h0
    (writeReg a0 a1 a2 h) := by
  unfold writeReg
  exact .optS
    (.ite (putReg_kept c ce ci cr cd co cp cl cy cm ct cn cv cq cu H) .none)
    (fun _ k1 => (copyWritten_kept (c.of rfl) k1))
    (violation_kept (c.of rfl) H)

theorem writeAlias_kept {A : Touch} {h0 h : Hub} {a0 a1 a2} (c : A.has [.top, .parity, .pwr, .now, .clk, .dllEvt,
    .hostRegs, .cmdRings, .cplRings, .telRings, .strRings, .msix, .books, .spi, .tdc, .banks, .hier, .hierEvt, .runs,
    .comp, .store, .counters, .profile, .shimEvt, .shim, .cal, .collector, .fltEvt, .flt, .mons, .bus, .wire, .free])
    (ce : ∀ k, A.evts k) (ci : ∀ k, A.ivus k) (cr : ∀ k, A.refs k) (cd : ∀ k, A.doms k) (co : ∀ k, A.outs k) (cp : ∀
    k, A.plss k) (cl : ∀ k, A.links k) (cy : ∀ k, A.dlls k) (cm : ∀ k, A.mbx k) (ct : ∀ k, A.tasks k) (cn : ∀ k,
    A.reeds k) (cv : ∀ k, A.evTasks k) (cq : ∀ k, A.ptp k) (cu : ∀ k, A.units k) (H : Kept A h0 h) : Kept A h0
    (writeAlias a0 a1 a2 h) := by
  unfold writeAlias
  extract_lets r b old word
  split
  · exact violation_kept (c.of rfl) H
  · split
    · have hp : OptKept A h0 (putReg a0 r word h) := putReg_kept c ce ci cr cd co cp cl cy cm ct cn cv cq cu H
      clear_value word
      split
      · rename_i x e
        exact hp x e
      · exact violation_kept (c.of rfl) H
    · exact H

theorem writeBell_kept {A : Touch} {h0 h : Hub} {a0 a1} (c : A.has [.top, .now, .cmdRings, .cplRings, .telRings,
    .strRings, .msix, .collector, .fltEvt, .bus]) (ce : ∀ k, A.evts k) (cd : ∀ k, A.doms k) (H : Kept A h0 h) : Kept A
    h0 (writeBell a0 a1 h) := by
  unfold writeBell
  split
  · exact commandDoorbell_kept (c.of rfl) cd H
  · exact consumerDoorbell_kept (c.of rfl) ce H
  · exact consumerDoorbell_kept (c.of rfl) ce H
  · exact consumerDoorbell_kept (c.of rfl) ce H
  · exact violation_kept (c.of rfl) H

theorem writeMsix_kept {A : Touch} {h0 h : Hub} {a0 a1 a2} (c : A.has [.msix, .bus]) (H : Kept A h0 h) : Kept A h0
    (writeMsix a0 a1 a2 h) := by
  unfold writeMsix
  exact .ite (unmask_kept c H) (Hub.onHost_kept (msix := .inl (c.mem rfl)) H)

theorem writeTable_kept {A : Touch} {h0 h : Hub} {a0 a1} (c : A.has [.top, .msix, .bus]) (H : Kept A h0 h) : Kept A h0
    (writeTable a0 a1 h) := by
  unfold writeTable
  split
  · exact writeMsix_kept (c.of rfl) H
  · exact .ite H (violation_kept (c.of rfl) H)

theorem registerWrite_kept {A : Touch} {h0 h : Hub} {a0 a1 a2 a3 a4} (c : A.has [.top, .parity, .pwr, .now, .clk,
    .dllEvt, .hostRegs, .cmdRings, .cplRings, .telRings, .strRings, .msix, .books, .spi, .tdc, .banks, .hier,
    .hierEvt, .runs, .comp, .store, .counters, .profile, .shimEvt, .shim, .cal, .collector, .fltEvt, .flt, .mons,
    .bus, .wire, .free]) (ce : ∀ k, A.evts k) (ci : ∀ k, A.ivus k) (cr : ∀ k, A.refs k) (cd : ∀ k, A.doms k) (co : ∀
    k, A.outs k) (cp : ∀ k, A.plss k) (cl : ∀ k, A.links k) (cy : ∀ k, A.dlls k) (cm : ∀ k, A.mbx k) (ct : ∀ k,
    A.tasks k) (cn : ∀ k, A.reeds k) (cv : ∀ k, A.evTasks k) (cq : ∀ k, A.ptp k) (cu : ∀ k, A.units k) (H : Kept A h0
    h) : Kept A h0 (registerWrite a0 a1 a2 a3 a4 h) := by
  unfold registerWrite
  exact when_kept H
    (fun _ k1 =>
      (.ite
        (.ite
          (violation_kept (c.of rfl) k1)
          (.ite
            (writeAlias_kept c ce ci cr cd co cp cl cy cm ct cn cv cq cu k1)
            (writeReg_kept c ce ci cr cd co cp cl cy cm ct cn cv cq cu k1)))
        (.ite
          (.ite
            (violation_kept (c.of rfl) k1)
            (.ite (writeBell_kept (c.of rfl) ce cd k1) (writeTable_kept (c.of rfl) k1))) k1)))

theorem aliasWrite_kept {A : Touch} {h0 h : Hub} {a0 a1 a2} (c : A.has [.top, .parity, .pwr, .now, .clk, .dllEvt,
    .hostRegs, .cmdRings, .cplRings, .telRings, .strRings, .msix, .books, .spi, .tdc, .banks, .hier, .hierEvt, .runs,
    .comp, .store, .counters, .profile, .shimEvt, .shim, .cal, .collector, .fltEvt, .flt, .mons, .bus, .wire, .free])
    (ce : ∀ k, A.evts k) (ci : ∀ k, A.ivus k) (cr : ∀ k, A.refs k) (cd : ∀ k, A.doms k) (co : ∀ k, A.outs k) (cp : ∀
    k, A.plss k) (cl : ∀ k, A.links k) (cy : ∀ k, A.dlls k) (cm : ∀ k, A.mbx k) (ct : ∀ k, A.tasks k) (cn : ∀ k,
    A.reeds k) (cv : ∀ k, A.evTasks k) (cq : ∀ k, A.ptp k) (cu : ∀ k, A.units k) (H : Kept A h0 h) : Kept A h0
    (aliasWrite a0 a1 a2 h) := by
  unfold aliasWrite
  exact when_kept H (fun _ k1 => (writeAlias_kept c ce ci cr cd co cp cl cy cm ct cn cv cq cu k1))

theorem ringEnable_kept {A : Touch} {h0 h : Hub} {a0 a1 a2} (c : A.has [.top, .parity, .pwr, .now, .clk, .dllEvt,
    .hostRegs, .cmdRings, .cplRings, .telRings, .strRings, .msix, .books, .spi, .tdc, .banks, .hier, .hierEvt, .runs,
    .comp, .store, .counters, .profile, .shimEvt, .shim, .cal, .collector, .fltEvt, .flt, .mons, .bus, .wire, .free])
    (ce : ∀ k, A.evts k) (ci : ∀ k, A.ivus k) (cr : ∀ k, A.refs k) (cd : ∀ k, A.doms k) (co : ∀ k, A.outs k) (cp : ∀
    k, A.plss k) (cl : ∀ k, A.links k) (cy : ∀ k, A.dlls k) (cm : ∀ k, A.mbx k) (ct : ∀ k, A.tasks k) (cn : ∀ k,
    A.reeds k) (cv : ∀ k, A.evTasks k) (cq : ∀ k, A.ptp k) (cu : ∀ k, A.units k) (H : Kept A h0 h) : Kept A h0
    (ringEnable a0 a1 a2 h) := by
  unfold ringEnable
  exact when_kept H (fun _ k1 => (writeReg_kept c ce ci cr cd co cp cl cy cm ct cn cv cq cu k1))

theorem ringDisable_kept {A : Touch} {h0 h : Hub} {a0 a1 a2} (c : A.has [.top, .parity, .pwr, .now, .clk, .dllEvt,
    .hostRegs, .cmdRings, .cplRings, .telRings, .strRings, .msix, .books, .spi, .tdc, .banks, .hier, .hierEvt, .runs,
    .comp, .store, .counters, .profile, .shimEvt, .shim, .cal, .collector, .fltEvt, .flt, .mons, .bus, .wire, .free])
    (ce : ∀ k, A.evts k) (ci : ∀ k, A.ivus k) (cr : ∀ k, A.refs k) (cd : ∀ k, A.doms k) (co : ∀ k, A.outs k) (cp : ∀
    k, A.plss k) (cl : ∀ k, A.links k) (cy : ∀ k, A.dlls k) (cm : ∀ k, A.mbx k) (ct : ∀ k, A.tasks k) (cn : ∀ k,
    A.reeds k) (cv : ∀ k, A.evTasks k) (cq : ∀ k, A.ptp k) (cu : ∀ k, A.units k) (H : Kept A h0 h) : Kept A h0
    (ringDisable a0 a1 a2 h) := by
  unfold ringDisable
  exact when_kept H (fun _ k1 => (writeReg_kept c ce ci cr cd co cp cl cy cm ct cn cv cq cu k1))

theorem eventStatusAck_kept {A : Touch} {h0 h : Hub} {a0 a1 a2} (c : A.has [.pwr, .clk, .msix, .tdc, .hierEvt, .comp,
    .shimEvt, .cal, .mons, .bus]) (ce : ∀ k, A.evts k) (ci : ∀ k, A.ivus k) (cr : ∀ k, A.refs k) (co : ∀ k, A.outs k)
    (cp : ∀ k, A.plss k) (cl : ∀ k, A.links k) (H : Kept A h0 h) : Kept A h0 (eventStatusAck a0 a1 a2 h) := by
  unfold eventStatusAck
  exact when_kept H (fun _ k1 => (ackPlain_kept c ce ci cr co cp cl k1))

theorem clkDllEvtAck_kept {A : Touch} {h0 h : Hub} {a0 a1 a2} (c : A.has [.dllEvt]) (cy : ∀ k, A.dlls k) (H : Kept A
    h0 h) : Kept A h0 (clkDllEvtAck a0 a1 a2 h) := by
  unfold clkDllEvtAck
  exact when_kept H (fun _ k1 => (ackDll_kept c cy k1))

theorem domEvtAck_kept {A : Touch} {h0 h : Hub} {a0 a1 a2} (c : A.has [.msix, .bus]) (cd : A.doms a1) (H : Kept A h0
    h) : Kept A h0 (domEvtAck a0 a1 a2 h) := by
  unfold domEvtAck
  exact when_kept H (fun _ k1 => (ackDom_kept c cd k1))

theorem fltEvtAck_kept {A : Touch} {h0 h : Hub} {a0 a1} (c : A.has [.fltEvt, .flt]) (H : Kept A h0 h) : Kept A h0
    (fltEvtAck a0 a1 h) := by
  unfold fltEvtAck
  exact when_kept H (fun _ k1 => (ackFlt_kept c k1))

theorem fltSafeAck_kept {A : Touch} {h0 h : Hub} {a0 a1} (c : A.has [.top, .msix, .comp, .store, .counters, .shimEvt,
    .shim, .collector, .fltEvt, .flt, .bus]) (cd : ∀ k, A.doms k) (H : Kept A h0 h) : Kept A h0 (fltSafeAck a0 a1 h)
    := by
  unfold fltSafeAck
  exact when_kept H (fun _ k1 => (ackSafe_kept c cd k1))

theorem fltDegLnkAck_kept {A : Touch} {h0 h : Hub} {a0 a1 a2} (c : A.has [.flt]) (H : Kept A h0 h) : Kept A h0
    (fltDegLnkAck a0 a1 a2 h) := by
  unfold fltDegLnkAck
  exact when_kept H (fun _ k1 => (ackDegLnk_kept c k1))

theorem fltPinRelease_kept {A : Touch} {h0 h : Hub} {a0} (c : A.has [.top, .parity, .pwr, .now, .clk, .dllEvt,
    .hostRegs, .cmdRings, .cplRings, .telRings, .strRings, .msix, .books, .spi, .tdc, .banks, .hier, .hierEvt, .runs,
    .comp, .store, .counters, .profile, .shimEvt, .shim, .cal, .collector, .fltEvt, .flt, .mons, .bus, .wire, .free])
    (ce : ∀ k, A.evts k) (ci : ∀ k, A.ivus k) (cr : ∀ k, A.refs k) (cd : ∀ k, A.doms k) (co : ∀ k, A.outs k) (cp : ∀
    k, A.plss k) (cl : ∀ k, A.links k) (cy : ∀ k, A.dlls k) (cm : ∀ k, A.mbx k) (ct : ∀ k, A.tasks k) (cn : ∀ k,
    A.reeds k) (cv : ∀ k, A.evTasks k) (cq : ∀ k, A.ptp k) (cu : ∀ k, A.units k) (H : Kept A h0 h) : Kept A h0
    (fltPinRelease a0 h) := by
  unfold fltPinRelease
  exact when_kept H (fun _ k1 => (writeReg_kept c ce ci cr cd co cp cl cy cm ct cn cv cq cu k1))

theorem fltPinHoldWrite_kept {A : Touch} {h0 h : Hub} {a0 a1} (c : A.has [.top, .parity, .pwr, .now, .clk, .dllEvt,
    .hostRegs, .cmdRings, .cplRings, .telRings, .strRings, .msix, .books, .spi, .tdc, .banks, .hier, .hierEvt, .runs,
    .comp, .store, .counters, .profile, .shimEvt, .shim, .cal, .collector, .fltEvt, .flt, .mons, .bus, .wire, .free])
    (ce : ∀ k, A.evts k) (ci : ∀ k, A.ivus k) (cr : ∀ k, A.refs k) (cd : ∀ k, A.doms k) (co : ∀ k, A.outs k) (cp : ∀
    k, A.plss k) (cl : ∀ k, A.links k) (cy : ∀ k, A.dlls k) (cm : ∀ k, A.mbx k) (ct : ∀ k, A.tasks k) (cn : ∀ k,
    A.reeds k) (cv : ∀ k, A.evTasks k) (cq : ∀ k, A.ptp k) (cu : ∀ k, A.units k) (H : Kept A h0 h) : Kept A h0
    (fltPinHoldWrite a0 a1 h) := by
  unfold fltPinHoldWrite
  exact when_kept H (fun _ k1 => (writeReg_kept c ce ci cr cd co cp cl cy cm ct cn cv cq cu k1))

theorem topVioClr_kept {A : Touch} {h0 h : Hub} {a0 a1} (c : A.has [.top, .parity, .pwr, .now, .clk, .dllEvt,
    .hostRegs, .cmdRings, .cplRings, .telRings, .strRings, .msix, .books, .spi, .tdc, .banks, .hier, .hierEvt, .runs,
    .comp, .store, .counters, .profile, .shimEvt, .shim, .cal, .collector, .fltEvt, .flt, .mons, .bus, .wire, .free])
    (ce : ∀ k, A.evts k) (ci : ∀ k, A.ivus k) (cr : ∀ k, A.refs k) (cd : ∀ k, A.doms k) (co : ∀ k, A.outs k) (cp : ∀
    k, A.plss k) (cl : ∀ k, A.links k) (cy : ∀ k, A.dlls k) (cm : ∀ k, A.mbx k) (ct : ∀ k, A.tasks k) (cn : ∀ k,
    A.reeds k) (cv : ∀ k, A.evTasks k) (cq : ∀ k, A.ptp k) (cu : ∀ k, A.units k) (H : Kept A h0 h) : Kept A h0
    (topVioClr a0 a1 h) := by
  unfold topVioClr
  exact when_kept H (fun _ k1 => (writeReg_kept c ce ci cr cd co cp cl cy cm ct cn cv cq cu k1))

theorem topResetWrite_kept {A : Touch} {h0 h : Hub} {a0 a1 a2} (c : A.has [.top, .parity, .pwr, .now, .clk, .dllEvt,
    .hostRegs, .cmdRings, .cplRings, .telRings, .strRings, .msix, .books, .spi, .tdc, .banks, .hier, .hierEvt, .runs,
    .comp, .store, .counters, .profile, .shimEvt, .shim, .cal, .collector, .fltEvt, .flt, .mons, .bus, .wire, .free])
    (ce : ∀ k, A.evts k) (ci : ∀ k, A.ivus k) (cr : ∀ k, A.refs k) (cd : ∀ k, A.doms k) (co : ∀ k, A.outs k) (cp : ∀
    k, A.plss k) (cl : ∀ k, A.links k) (cy : ∀ k, A.dlls k) (cm : ∀ k, A.mbx k) (ct : ∀ k, A.tasks k) (cn : ∀ k,
    A.reeds k) (cv : ∀ k, A.evTasks k) (cq : ∀ k, A.ptp k) (cu : ∀ k, A.units k) (H : Kept A h0 h) : Kept A h0
    (topResetWrite a0 a1 a2 h) := by
  unfold topResetWrite
  exact when_kept H
    (fun _ k1 => (writeReg_kept c ce ci cr cd co cp cl cy cm ct cn cv cq cu (advanceTo_kept (c.of rfl) cd k1)))

theorem shimLdrOfsWrite_kept {A : Touch} {h0 h : Hub} {a0 a1} (c : A.has [.top, .parity, .pwr, .now, .clk, .dllEvt,
    .hostRegs, .cmdRings, .cplRings, .telRings, .strRings, .msix, .books, .spi, .tdc, .banks, .hier, .hierEvt, .runs,
    .comp, .store, .counters, .profile, .shimEvt, .shim, .cal, .collector, .fltEvt, .flt, .mons, .bus, .wire, .free])
    (ce : ∀ k, A.evts k) (ci : ∀ k, A.ivus k) (cr : ∀ k, A.refs k) (cd : ∀ k, A.doms k) (co : ∀ k, A.outs k) (cp : ∀
    k, A.plss k) (cl : ∀ k, A.links k) (cy : ∀ k, A.dlls k) (cm : ∀ k, A.mbx k) (ct : ∀ k, A.tasks k) (cn : ∀ k,
    A.reeds k) (cv : ∀ k, A.evTasks k) (cq : ∀ k, A.ptp k) (cu : ∀ k, A.units k) (H : Kept A h0 h) : Kept A h0
    (shimLdrOfsWrite a0 a1 h) := by
  unfold shimLdrOfsWrite
  exact when_kept H (fun _ k1 => (writeReg_kept c ce ci cr cd co cp cl cy cm ct cn cv cq cu k1))

theorem shimLdrDataWrite_kept {A : Touch} {h0 h : Hub} {a0 a1} (c : A.has [.top, .parity, .pwr, .now, .clk, .dllEvt,
    .hostRegs, .cmdRings, .cplRings, .telRings, .strRings, .msix, .books, .spi, .tdc, .banks, .hier, .hierEvt, .runs,
    .comp, .store, .counters, .profile, .shimEvt, .shim, .cal, .collector, .fltEvt, .flt, .mons, .bus, .wire, .free])
    (ce : ∀ k, A.evts k) (ci : ∀ k, A.ivus k) (cr : ∀ k, A.refs k) (cd : ∀ k, A.doms k) (co : ∀ k, A.outs k) (cp : ∀
    k, A.plss k) (cl : ∀ k, A.links k) (cy : ∀ k, A.dlls k) (cm : ∀ k, A.mbx k) (ct : ∀ k, A.tasks k) (cn : ∀ k,
    A.reeds k) (cv : ∀ k, A.evTasks k) (cq : ∀ k, A.ptp k) (cu : ∀ k, A.units k) (H : Kept A h0 h) : Kept A h0
    (shimLdrDataWrite a0 a1 h) := by
  unfold shimLdrDataWrite
  exact when_kept H (fun _ k1 => (writeReg_kept c ce ci cr cd co cp cl cy cm ct cn cv cq cu k1))

theorem shimLdrVerify_kept {A : Touch} {h0 h : Hub} {a0} (c : A.has [.top, .parity, .pwr, .now, .clk, .dllEvt,
    .hostRegs, .cmdRings, .cplRings, .telRings, .strRings, .msix, .books, .spi, .tdc, .banks, .hier, .hierEvt, .runs,
    .comp, .store, .counters, .profile, .shimEvt, .shim, .cal, .collector, .fltEvt, .flt, .mons, .bus, .wire, .free])
    (ce : ∀ k, A.evts k) (ci : ∀ k, A.ivus k) (cr : ∀ k, A.refs k) (cd : ∀ k, A.doms k) (co : ∀ k, A.outs k) (cp : ∀
    k, A.plss k) (cl : ∀ k, A.links k) (cy : ∀ k, A.dlls k) (cm : ∀ k, A.mbx k) (ct : ∀ k, A.tasks k) (cn : ∀ k,
    A.reeds k) (cv : ∀ k, A.evTasks k) (cq : ∀ k, A.ptp k) (cu : ∀ k, A.units k) (H : Kept A h0 h) : Kept A h0
    (shimLdrVerify a0 h) := by
  unfold shimLdrVerify
  exact when_kept H (fun _ k1 => (writeReg_kept c ce ci cr cd co cp cl cy cm ct cn cv cq cu k1))

theorem mbxReq_kept {A : Touch} {h0 h : Hub} {a0 a1} (c : A.has [.top, .parity, .pwr, .now, .clk, .dllEvt, .hostRegs,
    .cmdRings, .cplRings, .telRings, .strRings, .msix, .books, .spi, .tdc, .banks, .hier, .hierEvt, .runs, .comp,
    .store, .counters, .profile, .shimEvt, .shim, .cal, .collector, .fltEvt, .flt, .mons, .bus, .wire, .free]) (ce : ∀
    k, A.evts k) (ci : ∀ k, A.ivus k) (cr : ∀ k, A.refs k) (cd : ∀ k, A.doms k) (co : ∀ k, A.outs k) (cp : ∀ k, A.plss
    k) (cl : ∀ k, A.links k) (cy : ∀ k, A.dlls k) (cm : ∀ k, A.mbx k) (ct : ∀ k, A.tasks k) (cn : ∀ k, A.reeds k) (cv
    : ∀ k, A.evTasks k) (cq : ∀ k, A.ptp k) (cu : ∀ k, A.units k) (H : Kept A h0 h) : Kept A h0 (mbxReq a0 a1 h) := by
  unfold mbxReq
  exact when_kept H (fun _ k1 => (writeReg_kept c ce ci cr cd co cp cl cy cm ct cn cv cq cu k1))

theorem mbxSnapshotValid_kept {A : Touch} {h0 h : Hub} {a0} (cm : A.mbx a0) (H : Kept A h0 h) : Kept A h0
    (mbxSnapshotValid a0 h) := by
  unfold mbxSnapshotValid
  split
  · exact H
  · exact when_kept H
      (fun _ k1 => by
        split
        · exact Hub.onMbx_kept cm k1
        · exact Hub.onMbx_kept cm k1)

theorem mbxData3Read_kept {A : Touch} {h0 h : Hub} {a0 a1} (c : A.has [.top]) (cm : A.mbx a1) (H : Kept A h0 h) : Kept
    A h0 (mbxData3Read a0 a1 h) := by
  unfold mbxData3Read
  exact when_kept H (fun _ k1 => (.ite (.ite k1 (Hub.onMbx_kept cm k1)) (violation_kept c k1)))

theorem readEffect_kept {A : Touch} {h0 h : Hub} {a0 a1} (cd : ∀ k, A.doms k) (cm : ∀ k, A.mbx k) (H : Kept A h0 h) :
    Kept A h0 (readEffect a0 a1 h) := by
  unfold readEffect
  split
  · exact .ite (Hub.onMbx_kept (cm _) H) H
  · split
    · exact Hub.onDom_kept (cd _) H
    · exact H

theorem readWord_kept {A : Touch} {h0 h : Hub} {a0 a1} (c : A.has [.top]) (cd : ∀ k, A.doms k) (cm : ∀ k, A.mbx k) (H
    : Kept A h0 h) : Kept A h0 (readWord a0 a1 h).2 := by
  unfold readWord
  split
  · exact H
  · split
    · split
      · exact H
      · exact violation_kept c H
    · split
      · split
        · exact readEffect_kept cd cm H
        · exact violation_kept c H
      · exact violation_kept c H

theorem spiEnd_kept {A : Touch} {h0 h : Hub} {a0 a1} (c : A.has [.spi]) (H : Kept A h0 h) : Kept A h0 (spiEnd a0 a1 h)
    := by
  unfold spiEnd
  exact .same
    (by
      constructor <;> first | exact .inr rfl | exact fun _ => .inr rfl | exact .inl (c.mem rfl)) H rfl rfl rfl
    (fun _ => rfl) rfl rfl

theorem spiReadTransaction_kept {A : Touch} {h0 h : Hub} {a0 a1 a2} (c : A.has [.top, .spi]) (cd : ∀ k, A.doms k) (cm
    : ∀ k, A.mbx k) (H : Kept A h0 h) : Kept A h0 (spiReadTransaction a0 a1 a2 h) := by
  unfold spiReadTransaction
  exact when_kept H
    (fun _ k1 =>
      (.ite
        (spiEnd_kept (c.of rfl) k1)
        (.ite
          (spiEnd_kept (c.of rfl) k1)
          (.pairM (readWord_kept (c.of rfl) cd cm k1) fun _ _ k2 => (spiEnd_kept (c.of rfl) k2)))))

theorem spiWriteTransaction_kept {A : Touch} {h0 h : Hub} {a0 a1 a2 a3 a4} (c : A.has [.top, .parity, .pwr, .now,
    .clk, .dllEvt, .hostRegs, .cmdRings, .cplRings, .telRings, .strRings, .msix, .books, .spi, .tdc, .banks, .hier,
    .hierEvt, .runs, .comp, .store, .counters, .profile, .shimEvt, .shim, .cal, .collector, .fltEvt, .flt, .mons,
    .bus, .wire, .free]) (ce : ∀ k, A.evts k) (ci : ∀ k, A.ivus k) (cr : ∀ k, A.refs k) (cd : ∀ k, A.doms k) (co : ∀
    k, A.outs k) (cp : ∀ k, A.plss k) (cl : ∀ k, A.links k) (cy : ∀ k, A.dlls k) (cm : ∀ k, A.mbx k) (ct : ∀ k,
    A.tasks k) (cn : ∀ k, A.reeds k) (cv : ∀ k, A.evTasks k) (cq : ∀ k, A.ptp k) (cu : ∀ k, A.units k) (H : Kept A h0
    h) : Kept A h0 (spiWriteTransaction a0 a1 a2 a3 a4 h) := by
  unfold spiWriteTransaction
  exact when_kept H
    (fun _ k2 => by
      extract_lets x3_0
      (try clear_value x3_0)
      exact .ite
        (spiEnd_kept (c.of rfl) k2)
        (.ite
          (spiEnd_kept (c.of rfl) k2)
          (.ite
            (spiEnd_kept (c.of rfl) k2)
            (.ite
              (spiEnd_kept (c.of rfl) k2)
              (registerWrite_kept c ce ci cr cd co cp cl cy cm ct cn cv cq cu (spiEnd_kept (c.of rfl) k2))))))

theorem parityFound_kept {A : Touch} {h0 h : Hub} {a0} (c : A.has [.parity, .msix, .collector, .fltEvt, .bus]) (H :
    Kept A h0 h) : Kept A h0 (parityFound a0 h) := by
  unfold parityFound
  exact .ite H (sendFault_kept (c.of rfl) (Hub.onTop_kept (parity := .inl (c.mem rfl)) H))

theorem paritySweep_kept {A : Touch} {h0 h : Hub} {a0} (c : A.has [.parity, .msix, .collector, .fltEvt, .bus]) (H :
    Kept A h0 h) : Kept A h0 (paritySweep a0 h) := by
  unfold paritySweep
  exact when_kept H (fun _ k1 => (forEach_kept k1 (fun _ _ k2 => (parityFound_kept c k2))))

end Sys2Proof.Machine
end

