-- ==== Sys2Proof/Laws/Only.lean ====
section
/-!
SUPPORT. What `Only` says of a whole bank or block that A does not name.
-/

set_option Elab.async false

namespace Sys2Proof.Machine

/-! ## Banks -/

theorem Only.eq_evts {A : Touch} {h t : Hub} (o : Only A h t) (hn : ∀ k, ¬A.evts k) : t.evts = h.evts :=
  Vector.ext fun i hi => (o.evts ⟨i, hi⟩).resolve_left (hn _)

theorem Only.eq_ivus {A : Touch} {h t : Hub} (o : Only A h t) (hn : ∀ k, ¬A.ivus k) : t.ivus = h.ivus :=
  Vector.ext fun i hi => (o.ivus ⟨i, hi⟩).resolve_left (hn _)

theorem Only.eq_refs {A : Touch} {h t : Hub} (o : Only A h t) (hn : ∀ k, ¬A.refs k) : t.refs = h.refs :=
  Vector.ext fun i hi => (o.refs ⟨i, hi⟩).resolve_left (hn _)

theorem Only.eq_doms {A : Touch} {h t : Hub} (o : Only A h t) (hn : ∀ k, ¬A.doms k) : t.doms = h.doms :=
  Vector.ext fun i hi => (o.doms ⟨i, hi⟩).resolve_left (hn _)

theorem Only.eq_outs {A : Touch} {h t : Hub} (o : Only A h t) (hn : ∀ k, ¬A.outs k) : t.outs = h.outs :=
  Vector.ext fun i hi => (o.outs ⟨i, hi⟩).resolve_left (hn _)

theorem Only.eq_plss {A : Touch} {h t : Hub} (o : Only A h t) (hn : ∀ k, ¬A.plss k) : t.plss = h.plss :=
  Vector.ext fun i hi => (o.plss ⟨i, hi⟩).resolve_left (hn _)

theorem Only.eq_links {A : Touch} {h t : Hub} (o : Only A h t) (hn : ∀ k, ¬A.links k) : t.links = h.links :=
  Vector.ext fun i hi => (o.links ⟨i, hi⟩).resolve_left (hn _)

theorem Only.eq_dlls {A : Touch} {h t : Hub} (o : Only A h t) (hn : ∀ k, ¬A.dlls k) : t.dlls = h.dlls :=
  Vector.ext fun i hi => (o.dlls ⟨i, hi⟩).resolve_left (hn _)

theorem Only.eq_mbx {A : Touch} {h t : Hub} (o : Only A h t) (hn : ∀ k, ¬A.mbx k) : t.mbx = h.mbx :=
  Vector.ext fun i hi => (o.mbx ⟨i, hi⟩).resolve_left (hn _)

theorem Only.eq_tasks {A : Touch} {h t : Hub} (o : Only A h t) (hn : ∀ k, ¬A.tasks k) : t.comp.tasks = h.comp.tasks :=
  Vector.ext fun i hi => (o.tasks ⟨i, hi⟩).resolve_left (hn _)

theorem Only.eq_reeds {A : Touch} {h t : Hub} (o : Only A h t) (hn : ∀ k, ¬A.reeds k) : t.comp.reeds = h.comp.reeds :=
  Vector.ext fun i hi => (o.reeds ⟨i, hi⟩).resolve_left (hn _)

theorem Only.eq_evTasks {A : Touch} {h t : Hub} (o : Only A h t) (hn : ∀ k, ¬A.evTasks k) : t.comp.evTasks = h.comp.evTasks :=
  Vector.ext fun i hi => (o.evTasks ⟨i, hi⟩).resolve_left (hn _)

theorem Only.eq_ptp {A : Touch} {h t : Hub} (o : Only A h t) (hn : ∀ k, ¬A.ptp k) : t.hier.ptp = h.hier.ptp :=
  Vector.ext fun i hi => (o.ptp ⟨i, hi⟩).resolve_left (hn _)

theorem Only.eq_units {A : Touch} {h t : Hub} (o : Only A h t) (hn : ∀ k, ¬A.units k) : t.mons.unit = h.mons.unit :=
  Vector.ext fun i hi => (o.units ⟨i, hi⟩).resolve_left (hn _)


/-! ## Blocks -/

theorem Only.eq_top {A : Touch} {h t : Hub} (o : Only A h t) (h1 : .top ∉ A.parts) (h2 : .parity ∉ A.parts) : t.top = h.top := by
  have e1 := o.top.resolve_left h1
  have e2 := o.parity.resolve_left h2
  cases ht : t.top; cases hh : h.top
  simp_all [Top.rest]

theorem Only.eq_clk {A : Touch} {h t : Hub} (o : Only A h t) (h1 : .now ∉ A.parts) (h2 : .clk ∉ A.parts) : t.clk = h.clk := by
  have e1 := o.now.resolve_left h1
  have e2 := o.clk.resolve_left h2
  cases ht : t.clk; cases hh : h.clk
  simp_all [Clk.rest]

theorem Only.eq_host {A : Touch} {h t : Hub} (o : Only A h t) (h1 : .hostRegs ∉ A.parts) (h2 : .cmdRings ∉ A.parts)
    (h3 : .cplRings ∉ A.parts) (h4 : .telRings ∉ A.parts) (h5 : .strRings ∉ A.parts) (h6 : .msix ∉ A.parts)
    (h7 : .books ∉ A.parts) : t.host = h.host := by
  have e1 := o.hostRegs.resolve_left h1
  have e2 := o.cmdRings.resolve_left h2
  have e3 := o.cplRings.resolve_left h3
  have e4 := o.telRings.resolve_left h4
  have e5 := o.strRings.resolve_left h5
  have e6 := o.msix.resolve_left h6
  have e7 := o.books.resolve_left h7
  cases ht : t.host; cases hh : h.host
  simp_all [HostIf.regs, HostIf.books]

theorem Only.eq_hier {A : Touch} {h t : Hub} (o : Only A h t) (h1 : .hier ∉ A.parts) (h2 : .hierEvt ∉ A.parts)
    (h3 : .runs ∉ A.parts) (h4 : ∀ k, ¬A.ptp k) : t.hier = h.hier := by
  have e1 := o.hier.resolve_left h1
  have e2 := o.hierEvt.resolve_left h2
  have e3 := o.runs.resolve_left h3
  have e4 := o.eq_ptp h4
  cases ht : t.hier; cases hh : h.hier
  simp_all [Hier.rest]

theorem Only.eq_comp {A : Touch} {h t : Hub} (o : Only A h t) (h1 : .comp ∉ A.parts) (h2 : ∀ k, ¬A.tasks k)
    (h3 : ∀ k, ¬A.reeds k) (h4 : ∀ k, ¬A.evTasks k) : t.comp = h.comp := by
  have e1 := o.comp.resolve_left h1
  have e2 := o.eq_tasks h2
  have e3 := o.eq_reeds h3
  have e4 := o.eq_evTasks h4
  cases ht : t.comp; cases hh : h.comp
  simp_all [Comp.rest]

theorem Only.eq_shim {A : Touch} {h t : Hub} (o : Only A h t) (h1 : .store ∉ A.parts) (h2 : .counters ∉ A.parts)
    (h3 : .profile ∉ A.parts) (h4 : .shimEvt ∉ A.parts) (h5 : .shim ∉ A.parts) : t.shim = h.shim := by
  have e1 := o.store.resolve_left h1
  have e2 := o.counters.resolve_left h2
  have e3 := o.profile.resolve_left h3
  have e4 := o.shimEvt.resolve_left h4
  have e5 := o.shim.resolve_left h5
  cases ht : t.shim; cases hh : h.shim
  simp_all [Shim.rest, Shim.store, Shim.profile]

theorem Only.eq_flt {A : Touch} {h t : Hub} (o : Only A h t) (h1 : .collector ∉ A.parts) (h2 : .fltEvt ∉ A.parts)
    (h3 : .flt ∉ A.parts) : t.flt = h.flt := by
  have e1 := o.collector.resolve_left h1
  have e2 := o.fltEvt.resolve_left h2
  have e3 := o.flt.resolve_left h3
  cases ht : t.flt; cases hh : h.flt
  simp_all [Flt.rest, Flt.collector]

theorem Only.eq_mons {A : Touch} {h t : Hub} (o : Only A h t) (h1 : .mons ∉ A.parts) (h2 : ∀ k, ¬A.units k) :
    t.mons = h.mons := by
  have e1 := o.mons.resolve_left h1
  have e2 := o.eq_units h2
  cases ht : t.mons; cases hh : h.mons
  simp_all [Mons.rest]

end Sys2Proof.Machine
end

