-- ==== Sys2Proof/Laws/Serve.lean ====
section
/-!
SUPPORT. A descriptor whose turn it is: what serving it comes to, and how its completion is written to its ring.
-/

set_option Elab.async false

namespace Sys2Proof.Machine

/-! ## What a part says -/

theorem Only.inCharge {A : Touch} {h t : Hub} (o : Only A h t) (hc : .comp ∉ A.parts) : t.inCharge = h.inCharge := by
  have e := o.comp.resolve_left hc
  unfold Hub.inCharge
  have h1 : t.comp.rest.charge = h.comp.rest.charge := by rw [e]
  have h2 : t.comp.rest.aState = h.comp.rest.aState := by rw [e]
  have h3 : t.comp.rest.bState = h.comp.rest.bState := by rw [e]
  dsimp only [Comp.rest] at h1 h2 h3
  rw [h1, h2, h3]

theorem Only.mode {A : Touch} {h t : Hub} (o : Only A h t) (hc : .top ∉ A.parts) : t.top.mode = h.top.mode := by
  have e : t.top.rest.mode = h.top.rest.mode := by rw [o.top.resolve_left hc]
  exact e

theorem Only.isSafe {A : Touch} {h t : Hub} (o : Only A h t) (hc : .top ∉ A.parts) : t.isSafe = h.isSafe := by
  unfold Hub.isSafe Hub.inMode
  rw [o.mode hc]

theorem Only.hubRuns {A : Touch} {h t : Hub} (o : Only A h t) (hc : .top ∉ A.parts) : t.runs = h.runs := by
  unfold Hub.runs
  rw [o.mode hc]

theorem Only.inflight {A : Touch} {h t : Hub} (o : Only A h t) (hc : .books ∉ A.parts) : t.host.inflight = h.host.inflight :=
  congrArg Prod.fst (o.books.resolve_left hc)

theorem Only.desc {A : Touch} {h t : Hub} (o : Only A h t) (hc : .books ∉ A.parts) (id : Nat) : t.desc? id = h.desc? id := by
  unfold Hub.desc?
  rw [o.inflight hc]

/-! ## Finding a descriptor -/

/-- In a rising list the number finds its descriptor. -/
theorem find_id {l : List Desc} (hp : (l.map (·.id)).Pairwise (· < ·)) {d : Desc} (hd : d ∈ l) :
    l.find? (fun e => e.id == d.id) = some d := by
  induction l with
  | nil => cases hd
  | cons e l ih =>
    rw [List.map_cons, List.pairwise_cons] at hp
    rcases List.mem_cons.mp hd with rfl | hd
    · simp
    · have hlt := hp.1 d.id (List.mem_map_of_mem hd)
      have : (e.id == d.id) = false := by simp; omega
      rw [List.find?_cons, this]
      exact ih hp.2 hd

theorem Hub.idsOk.desc {h : Hub} (x : h.idsOk) {d : Desc} (hd : d ∈ h.host.inflight) : h.desc? d.id = some d :=
  find_id x.1 hd

theorem nextDesc_mem {h : Hub} {o : Origin} {d : Desc} (e : h.nextDesc o = some d) :
    d ∈ h.host.inflight ∧ d.origin = o ∧ d.applied = false := by
  unfold Hub.nextDesc at e
  split at e
  · cases e
  · rename_i d' hf
    have hm := List.mem_of_find?_eq_some hf
    have hs := List.find?_some hf
    have : d' = d := by
      split at e
      · cases e
      · exact Option.some.inj e
    subst this
    unfold Hub.inProgress at hm
    rw [List.mem_filter] at hm
    exact ⟨hm.1, by simpa using hm.2, by simpa using hs⟩

theorem markApplied_desc {h : Hub} (x : h.idsOk) {d : Desc} (hd : d ∈ h.host.inflight) :
    (markApplied d.id h).desc? d.id = some { d with applied := true } := by
  have k : (markApplied d.id h).idsOk := (markApplied_kept (A := { parts := [.books] }) (fun _ hp => hp) (.refl h)).ids x
  have hm : { d with applied := true } ∈ (markApplied d.id h).host.inflight := by
    unfold markApplied
    rw [Hub.onHost_host]
    exact List.mem_map.mpr ⟨d, hd, by simp⟩
  exact k.desc hm

/-! ## Serving -/

/-- Serving the descriptor whose turn it is marks it applied and has its effect. -/
theorem serve_eq {h : Hub} {o : Origin} {d : Desc} {fits : Desc → Bool} {eff : Desc → Hub → Hub} (S : h.Serves o d)
    (hf : fits d = true) (hp : profileMovesOn d.opcode.toNat = false) :
    serve o fits eff h = eff d (markApplied d.id h) := by
  unfold serve
  simp only [S.next, hf, S.charge, S.runs, Bool.and_self, if_true, S.gate, hp, if_false, Bool.false_eq_true]

/-- The same for the descriptors whose end a profile does not wait for. -/
theorem serve_eq' {h : Hub} {o : Origin} {d : Desc} {fits : Desc → Bool} {eff : Desc → Hub → Hub} (S : h.Serves o d)
    (hf : fits d = true) (hp : profileMovesOn d.opcode.toNat = true) :
    serve o fits eff h = profEnd d.id false (eff d (markApplied d.id h)) := by
  unfold serve
  simp only [S.next, hf, S.charge, S.runs, Bool.and_self, if_true, S.gate, hp]

/-! ## Completions -/

/-- What the hub has written to the host stays written. -/
theorem sendMsix_bus (v : Fin 128) (h : Hub) : ∃ l, (sendMsix v h).bus = l ++ h.bus := by
  unfold sendMsix
  dsimp only
  split
  · exact ⟨[], rfl⟩
  · exact ⟨[_], rfl⟩

theorem raiseIrq_bus (n : Nat) (h : Hub) : ∃ l, (raiseIrq n h).bus = l ++ h.bus := by
  unfold raiseIrq
  split
  · split
    · exact sendMsix_bus _ h
    · exact ⟨[], rfl⟩
  · exact ⟨[], rfl⟩

theorem ringCount_bus (r : RingId) (n : Nat) (now : Bool) (h : Hub) : ∃ l, (ringCount r n now h).bus = l ++ h.bus := by
  unfold ringCount ringSignal
  dsimp only
  split
  · cases e : irqOfRing r
    · exact ⟨[], rfl⟩
    · exact raiseIrq_bus _ _
  · exact ⟨[], rfl⟩

theorem postCompletion_bus (q : Fin 16) (fast : Bool) (d : Desc) (st : Status) (r : BitVec 192) (h : Hub) :
    ∃ a, BusOp.write a (completionBytes h.isSafe fast d st r) ∈ (postCompletion q fast d st r h).bus := by
  unfold postCompletion ringPost
  dsimp only [Hub.onHost_bus]
  obtain ⟨l, e⟩ := ringCount_bus (.cpl h.host.cmd[q].cq.toFin) 1 d.irq
    (idxWriteBack (.cpl h.host.cmd[q].cq.toFin) (forEach [completionBytes h.isSafe fast d st r] (ringPut (.cpl h.host.cmd[q].cq.toFin)) h))
  refine ⟨(h.ring (.cpl h.host.cmd[q].cq.toFin)).entryAddr (h.ring (.cpl h.host.cmd[q].cq.toFin)).prod 32, ?_⟩
  simp only [List.length_cons, List.length_nil, Nat.zero_add] at e ⊢
  rw [e]
  exact List.mem_append_right _ (List.mem_cons_of_mem _ (List.mem_cons_self ..))

/-- The completion of a ring's descriptor, while a warden is in charge, is written. -/
theorem completeWith_posted {h : Hub} {id : Nat} {d : Desc} {q : Fin 16} {st : Status} {r : BitVec 192}
    (hd : h.desc? id = some d) (ho : d.origin = .ring q) (hx : d.discard = false) (hc : h.inCharge = true) :
    (completeWith id st r h).Posted d st r := by
  have hid : d.id = id := by simpa using List.find?_some hd
  unfold completeWith finishDesc
  simp only [hc, if_true, hd, ho, hx, if_false, Bool.false_eq_true]
  generalize e : (h.onHost fun x => { x with inflight := x.inflight.filter fun y => y.id != id }) = k
  have hk : k.isSafe = h.isSafe := by subst e; rfl
  have K := (postCompletion_kept (A := { parts := [.cplRings, .msix, .books, .bus] }) (a0 := q) (a1 := false) (a2 := d) (a3 := st) (a4 := r)
    (fun _ hp => hp) (.refl k)).only
  constructor
  · have hi : (postCompletion q false d st r k).host.inflight = k.host.inflight := by
      unfold postCompletion
      dsimp only [Hub.onHost_host]
      exact (ringPost_kept (A := { parts := [.cplRings, .msix, .bus] }) (fun _ hp => by simp_all) (by simp [ringPart]) (.refl k)).only.inflight
        (by simp)
    intro x hx'
    rw [hi, ← e, Hub.onHost_host] at hx'
    rw [hid]
    simpa using (List.mem_filter.mp hx').2
  · obtain ⟨a, ha⟩ := postCompletion_bus q false d st r k
    refine ⟨a, ?_⟩
    rw [K.isSafe (by simp)]
    exact ha

/-! ## Fault messages -/

/-- A message sent while the collector's queue has room is the newest in it, with the time of DOM[0] (R402, R406). -/
theorem sendFault_queue {h : Hub} {src acc ms ad : Nat} {k : Kind} (hr : h.runs = true) (hq : h.flt.queue.length < 64) :
    (sendFault src k acc ms ad h).flt.queue = h.flt.queue ++
      [{ msg := { source := BitVec.ofNat 12 src, kind := k, access := BitVec.ofNat 4 acc, master := BitVec.ofNat 8 ms,
                  address := BitVec.ofNat 32 ad }
         time := h.houseShort, epoch := h.houseEpoch }] := by
  unfold sendFault
  simp only [hr, if_true, hq]
  rfl

end Sys2Proof.Machine
end

