-- ==== Sys2Proof/WellFormed.lean ====
section
/-!
DEFINITION. Which commands are well formed: the operands that the outside can send. A count of root cycles lies inside one
tick (R491), lists have the length of what they measure, frames the blocks that R229 gives a frame, and an event has the
value that makes it that event (R447, R462). The meanings are total on every command, well formed or not.
-/

namespace Sys2Proof

/-- lo ≤ v ≤ hi. -/
def inside (v lo hi : Nat) : Bool := decide (lo ≤ v) && decide (v ≤ hi)

/-- A count of root cycles since the last 1 ms tick (R491). -/
def cycOk (cyc : Nat) : Bool := decide (cyc ≤ 1500000)

/-- A stamp inside the tick. -/
def stampOk (st : Stamp) : Bool := cycOk st.cyc

/-- The measurements of a tick: eight sensors, and values that their registers hold (TOP_SUPPLY, CLK_OVEN). -/
def measOk (m : Meas) : Bool :=
  decide (m.temps.length = 8) && decide (m.vin < 65536) && decide (m.heater < 4096) && decide (m.relPhase < 2 ^ 32)

/-- The DMA reads of a SHIM_TXN WRITE: at most 16 extents of 16 bytes, and 4,096 bytes (R376, R381). -/
def dmaOk : Option (Bytes × Bytes) → Bool
  | none => true
  | some (list, data) => decide (list.length ≤ 256) && decide (data.length ≤ 4096)

/-- The bytes of a module's device (R251). -/
def moduleOk : Option Bytes → Bool
  | none => true
  | some b => decide (b.length ≤ 256)

/-- The deviations of a verdict: one entry for each of at most six lanes (R427). -/
def verdictOk (v : Verdict) : Bool := decide (v.dev.length ≤ 6)

/-- A frame of the line has 1 to 35 blocks (R229). -/
def lineOk (x : Line) : Bool := inside x.blocks.length 1 35

/-- The command is well formed. -/
def Instr.wf : Instr → Bool
  | .nop _ => true
  | .readTime _ cyc => cycOk cyc
  | .setTime _ => true
  | .stepTime _ => true
  | .slewTime _ => true
  | .domainConfig _ => true
  | .domainSteerSet _ => true
  | .domainSteerAdd _ => true
  | .domainSteerHoTrim _ => true
  | .domainModePolicy _ => true
  | .domainModeRealign _ => true
  | .domainModeClearTracked _ => true
  | .domainModeClearStepped _ => true
  | .refConfig _ => true
  | .refPriority _ => true
  | .outputConfig _ => true
  | .pulseConfig _ => true
  | .pulseAnchorOnce _ => true
  | .pulseAnchorTrack _ => true
  | .pulseAnchorStop _ => true
  | .eventConfig _ => true
  | .intervalStartSingle _ => true
  | .intervalStartRepeat _ => true
  | .intervalStartAbort _ => true
  | .linkConfig _ => true
  | .linkCalSetExt _ => true
  | .linkCalLoopback _ => true
  | .linkCalRebase _ => true
  | .taskAssign _ => true
  | .taskMove _ => true
  | .taskParam _ => true
  | .shimRead _ => true
  | .shimTxnWrite _ dma => dmaOk dma
  | .shimTxnVerify _ => true
  | .shimTxnInvalidate _ => true
  | .shimTxnSettings _ => true
  | .peatRead _ => true
  | .peatArchiveArm _ => true
  | .peatArchiveCommit _ => true
  | .monConfig _ => true
  | .monSnapshot _ => true
  | .hierForward _ descs => decide (descs.length ≤ 128)
  | .hierDiscoverLocal _ => true
  | .hierDiscoverPtp _ => true
  | .hierDiscoverScan _ => true
  | .hierDiscoverAssign _ => true
  | .halfPowerOff _ => true
  | .halfPowerOn _ => true
  | .selftestReed _ => true
  | .selftestLane _ => true
  | .selftestRoot _ => true
  | .selftestHalf _ => true
  | .selftestImage _ => true
  | .selftestLink _ => true
  | .selftestComplete v => verdictOk v
  | .commandDoorbell _ _ cyc => cycOk cyc
  | .consumerDoorbell _ _ => true
  | .descriptorFetch _ _ => true
  | .fastRingDescriptor _ _ cyc => cycOk cyc
  | .descriptorReadError _ _ _ => true
  | .ringEnable _ _ _ => true
  | .ringDisable _ _ _ => true
  | .commandRingDrained _ => true
  | .coalesceTimeout _ => true
  | .msixUnmask _ => true
  | .endpointReset _ => true
  | .endpointReady => true
  | .registerWrite _ bar _ _ _ => bar == 0 || bar == 2 || bar == 4
  | .aliasWrite _ off _ => inside off 0x400000 0x7FFFFF
  | .eventStatusAck _ _ _ => true
  | .clkDllEvtAck _ _ _ => true
  | .domEvtAck _ _ _ => true
  | .fltEvtAck _ _ => true
  | .fltSafeAck _ _ => true
  | .fltDegLnkAck _ _ _ => true
  | .fltPinRelease _ => true
  | .fltPinHoldWrite _ _ => true
  | .topVioClr _ _ => true
  | .topResetWrite _ _ cyc => cycOk cyc
  | .mbxReq _ _ => true
  | .mbxSnapshotValid _ => true
  | .mbxData3Read _ _ => true
  | .spiReadTransaction cmd _ _ => !cmd.getLsbD 31
  | .spiWriteTransaction cmd _ _ _ _ => cmd.getLsbD 31
  | .shimLdrOfsWrite _ _ => true
  | .shimLdrDataWrite _ _ => true
  | .shimLdrVerify _ => true
  | .loaderVerifyDone => true
  | .journalTransaction _ => true
  | .scrubGroupRead _ => true
  | .profileAutostart => true
  | .hourCounterTick => true
  | .tick1ms m => measOk m
  | .tick1s => true
  | .holdoverTimerExpiry _ => true
  | .revertiveHoldoffExpiry _ => true
  | .domainSecondMark _ => true
  | .rootLock _ => true
  | .rootLockTimeout _ => true
  | .rootFaultDetected _ _ => true
  | .rootXJump _ => true
  | .jumpAttributed _ => true
  | .jumpAttributionTimeout => true
  | .ovenBandEntry => true
  | .ovenBandExit => true
  | .tbWarmRise => true
  | .ovenWarmupLimit => true
  | .ladderLock _ => true
  | .ladderLossOfLock _ => true
  | .dllLock _ _ _ => true
  | .dllLossOfLock _ _ _ => true
  | .eventEdge _ _ st => stampOk st
  | .eventWidthEnd _ w => decide (w ≤ 65535)
  | .streamRecordDma _ burst => inside burst 1 8
  | .frontEndBlankEnd _ => true
  | .ivuStartEdge _ _ st => stampOk st
  | .ivuStopEdge _ _ st => stampOk st
  | .ivuWindowTimeout _ => true
  | .ivuStartWaitExpired _ => true
  | .refPulseEdge _ st _ => stampOk st
  | .todSentence _ _ cyc => cycOk cyc
  | .irigFrame _ st _ => stampOk st
  | .refqSample _ es => es.all stampOk
  | .refLossDetected _ => true
  | .qualifyTimerExpiry _ => true
  | .requalifyTimerExpiry _ => true
  | .outputBoundary _ => true
  | .pulseGridInstant _ => true
  | .pulseAnchorEdge _ _ st => stampOk st
  | .anchorLostTimeout _ => true
  | .anchorOnceTimeout _ => true
  | .tmarkSend _ st => stampOk st
  | .techoSend _ st => stampOk st
  | .statFrameSend _ => true
  | .mgmtSegmentSend _ => true
  | .tmarkReceived _ f st => lineOk f && stampOk st
  | .techoReceived _ f st => lineOk f && stampOk st
  | .todFrameReceived _ f => lineOk f
  | .statFrameReceived _ f => lineOk f
  | .mgmtSegmentReceived _ f => lineOk f
  | .blockLock _ => true
  | .blockLockLost _ => true
  | .receiverSignalLost _ => true
  | .marksMissingTimeout _ => true
  | .echoMissing _ => true
  | .mgmtResendTimeout _ => true
  | .mgmtMessageTimeout _ => true
  | .loopbackComplete _ => true
  | .sbxScan _ _ => true
  | .i2cModulePoll _ _ d => moduleOk d
  | .announceSend => true
  | .announceReceived => true
  | .discoverSend => true
  | .discoverReceived => true
  | .reportSend => true
  | .reportReceived => true
  | .assignReceived => true
  | .descReceived => true
  | .complSend => true
  | .complReceived => true
  | .hierForwardTimeout _ => true
  | .scanComplete => true
  | .managerSilentTimeout => true
  | .lowestTupleTimeout => true
  | .ptpEventMessage _ _ st => stampOk st
  | .ptpSyncReceived _ st _ _ => stampOk st
  | .ptpSyncTimeout _ => true
  | .esmcPduSend _ => true
  | .esmcEventPduSend _ => true
  | .esmcPduReceived _ _ => true
  | .esmcAbsentTimeout _ => true
  | .checkpointWrite _ x => decide (x.size ≤ 4096)
  | .taskMoveAtCheckpoint _ => true
  | .reedSramError _ => true
  | .reedHeartbeatTimeout _ => true
  | .reedTrap _ => true
  | .reedDebugHalt _ => true
  | .reedDebugResume _ => true
  | .taskRestored _ _ _ => true
  | .halfLost _ => true
  | .halfPowerOffDone => true
  | .halfPowerOnDone => true
  | .wardenHeartbeatTimeout _ => true
  | .wardenRelease _ => true
  | .chargeClaim _ _ => true
  | .splitCharge => true
  | .reservationAgeTimeout _ => true
  | .eventTaskRecord _ => true
  | .recoveryStabilityTimeout => true
  | .faultMessage => true
  | .collectorOverflowReport => true
  | .faultNTimerExpiry => true
  | .fatalDump => true
  | .paritySweep bad => bad.all fun off => off % 4 == 0 && decide (off < 0x20000)
  | .monSample _ => true
  | .monWindowClose _ => true
  | .vinRise mv => decide (5700 < mv)
  | .vinFall mv => decide (mv < 5400)
  | .enHigh => true
  | .enLow => true
  | .railRetryTimeout => true
  | .bootEnd => true
  | .pfailAssert mv => decide (mv < 5500)
  | .pfailDeassert mv => decide (5600 < mv)
  | .vinOvervoltage mv => decide (41000 < mv)
  | .converterPhaseLost _ => true
  | .thermalWarn _ t => decide (1760 ≤ t)
  | .thermalTrip _ t => decide (2000 ≤ t)
  | .thermalAutoRestart t => decide (t.length = 8)
  | .receiverSignalDetected _ => true
  | .rootRelationValid => true
  | .pulseEnd _ => true
  | .thermalWarnClear t => decide (t.length = 8)
  | .converterPhaseRestored _ => true
  | .railRetryWaitExpiry => true
  | .vddpBankMeasurement mv => decide (mv.length = 8)
  | .ptpAnnounceReceived _ _ => true
  | .ptpAnnounceReceiptTimeout _ => true

end Sys2Proof
end

