-- ==== Sys2Proof/Tests/Slice0.lean ====
section
/-!
SUPPORT. Tests: the checks of WellFormed refuse what they should; the manual's worked examples; and for each statement of
Obligations, concrete states and operands that meet its hypotheses together (a theorem test_meets_X applies the statement to
them) and values for its cases (test_cases_X).
-/

set_option Elab.async false

namespace Sys2Proof.Tests
open Sys2Proof Sys2Proof.Machine

/-! ## WellFormed: a well-formed term passes, and each check refuses an ill-formed one -/

theorem test_wf_accepts : (Instr.readTime (.ring 0) 1500000).wf = true ∧ (Instr.vinRise 5701).wf = true ∧
    (Instr.aliasWrite .host 0x400000 1).wf = true ∧ (Instr.streamRecordDma 0 8).wf = true := by decide

theorem test_wf_cycles : (Instr.readTime (.ring 0) 1500001).wf = false ∧ (Instr.topResetWrite .host 0 1500001).wf = false := by
  decide

theorem test_wf_stamp : (Instr.eventEdge 0 true { cyc := 1500001, bin := 0 }).wf = false ∧
    (Instr.refqSample 0 [{ cyc := 1500001, bin := 0 }]).wf = false ∧
    (Instr.ptpEventMessage 0 .syncSent { cyc := 1500001, bin := 0 }).wf = false := by decide

theorem test_wf_measurements : (Instr.tick1ms { temps := [], vin := 12000, heater := 0, dev := 0, relPhase := 0, relFreq := 0 }).wf
    = false := by decide

theorem test_wf_dma : (Instr.shimTxnWrite (.ring 0) (some (List.replicate 257 0, []))).wf = false := by decide +kernel

theorem test_wf_module : (Instr.i2cModulePoll 0 0 (some (List.replicate 257 0))).wf = false := by decide +kernel

theorem test_wf_verdict : (Instr.selftestComplete
    { pass := true, detail := 0, lanes := 0, reeds := [], dev := List.replicate 7 (0, 0) }).wf = false := by decide

theorem test_wf_lengths : (Instr.hierForward (.ring 0) (List.replicate 129 0)).wf = false ∧ (Instr.eventWidthEnd 0 65536).wf = false ∧
    (Instr.streamRecordDma 0 9).wf = false ∧ (Instr.checkpointWrite 0 ⟨4097, true⟩).wf = false := by decide +kernel

theorem test_wf_frames :
    let none : Line := { before := 0, blocks := [] }
    let long : Line := { before := 0, blocks := List.replicate 36 { sync := 1, payload := 0 } }
    let st : Stamp := { cyc := 0, bin := 0 }
    (Instr.tmarkReceived 0 none st).wf = false ∧ (Instr.techoReceived 0 none st).wf = false ∧
    (Instr.todFrameReceived 0 none).wf = false ∧ (Instr.statFrameReceived 0 none).wf = false ∧
    (Instr.mgmtSegmentReceived 0 long).wf = false ∧ (Instr.mgmtSegmentReceived 0 { long with blocks := long.blocks.take 35 }).wf = true := by
  decide +kernel

theorem test_wf_accesses : (Instr.registerWrite .host 1 0 4 0).wf = false ∧ (Instr.aliasWrite .host 0x800000 0).wf = false ∧
    (Instr.spiReadTransaction 0x80000000 0 80).wf = false ∧ (Instr.spiWriteTransaction 0 0 0 0 80).wf = false ∧
    (Instr.paritySweep [2]).wf = false := by decide

theorem test_wf_events : (Instr.vinRise 5700).wf = false ∧ (Instr.vinFall 5400).wf = false ∧ (Instr.pfailAssert 5500).wf = false ∧
    (Instr.pfailDeassert 5600).wf = false ∧ (Instr.vinOvervoltage 41000).wf = false ∧ (Instr.thermalWarn 0 1759).wf = false ∧
    (Instr.thermalTrip 0 1999).wf = false := by decide

theorem test_wf_sensors : (Instr.thermalAutoRestart []).wf = false ∧ (Instr.thermalWarnClear []).wf = false ∧
    (Instr.vddpBankMeasurement []).wf = false := by decide

/-! ## Small states -/

/-- A hub in SERVICE: warden A in charge, ROOT_A active, the endpoint ready, command ring 0 and completion ring 0 enabled. -/
def base : Hub := { Hub.reset with
  top := { mode := .service, begun := true }
  clk := { aState := .active }
  comp := { Hub.reset.comp with charge := some .a, aState := .inCharge, bState := .shadow }
  host := { ready := true, idxLo := 1, cmd := Vector.replicate 16 { state := .enabled, prod := 1 }
            cpl := Vector.replicate 16 { state := .enabled }, tel := Vector.replicate 4 { state := .enabled }
            str := Vector.replicate 64 { state := .enabled } } }

/-- The state of a hub with an empty command queue. -/
def mk (h : Hub) : State := { h with pending := [] }

/-- A descriptor of command ring 0 with payload fields (bit offset, value). -/
def desc (op : Byte) (p : List (Nat × Nat)) : Desc :=
  { id := 0, origin := .ring 0, opcode := op, irq := false, fence := false, index := 0, tag := 0, payload := payloadOf p
    bell := 0, applied := false, replayed := false, discard := false }

/-- The state of h with one descriptor in progress. -/
def serving (d : Desc) (h : Hub) : State := mk { h with host := { h.host with inflight := [d], nextId := 1 } }

/-- A fault message that waits in the collector. -/
def stamped (src : BitVec 12) (k : Kind) : Stamped :=
  { msg := { source := src, kind := k, access := 0, master := 0, address := 0 }, time := 0, epoch := 0 }

def o0 : Origin := .ring 0

/-- Serves, as a computation. -/
def servesB (h : Hub) (o : Origin) (d : Desc) : Bool :=
  decide ((h.host.inflight.map (·.id)).Pairwise (· < ·)) && h.host.inflight.all (fun d => decide (d.id < h.host.nextId))
  && decide (h.nextDesc o = some d) && h.inCharge && h.runs && decide (h.gate d = none)

theorem serves_of {h : Hub} {o : Origin} {d : Desc} (b : servesB h o d = true) : h.Serves o d := by
  simp only [servesB, Bool.and_eq_true, decide_eq_true_eq, List.all_eq_true] at b
  obtain ⟨⟨⟨⟨⟨a1, a2⟩, a3⟩, a4⟩, a5⟩, a6⟩ := b
  exact ⟨⟨a1, a2⟩, a3, a4, a5, a6⟩


/-! ## The manual's worked examples, and a standard check value -/

/-- Chapter 11, worked example: DOM_EVT[3] reads 0x002A_0048 and is acknowledged with 0x2A; then holdover_out rises. -/
theorem test_worked_dom_evt : (Evt.mk 0x48 0x2A).word = 0x002A0048 ∧
    ((Evt.mk 0 0x2A).raise 0x10).word = 0x002B0010 ∧
    (match exec (.domEvtAck .host 3 0x2A) (mk (base.onDom 3 fun d => { d with evt := { bits := 0x48, seq := 0x2A } })) with
      | .next t => decide (t.doms[(3 : Fin 16)].evt = { bits := 0, seq := 0x2A })
      | .fault _ => false
      | .refused _ => false) = true := by decide +kernel

def str9 : Ring := { state := .enabled, k := 10, cons := 65000, prod := 456 }

/-- Chapter 10, worked example: stream ring 9 holds 992 records, the oldest in slot 488, and is read by writing 456. -/
theorem test_worked_stream_ring : str9.held = 992 ∧ (str9.entryAddr str9.cons 16).toNat = 0x1E80 ∧
    (match exec (.registerWrite .host 2 0x224 4 0x1C8) (mk (base.onRing (.str 9) fun _ => str9)) with
      | .next t => decide ((t.ring (.str 9)).room = 1024)
      | .fault _ => false
      | .refused _ => false) = true := by decide +kernel

/-- The published check value of CRC-32C, the CRC of the bytes "123456789". -/
theorem test_crc32c : crc32c [0x31, 0x32, 0x33, 0x34, 0x35, 0x36, 0x37, 0x38, 0x39] = 0xE3069283 := by decide +kernel

/-! ## Statements over every state -/

/-- The premises of the invariants are met, at a state that steps. -/
theorem test_meets_StepKeeps (h : Obligations.ResetIsKept) : Hub.shimOk State.reset.toHub ∧ Hub.collectorOk State.reset.toHub ∧
    Hub.queuesOk State.reset.toHub ∧ Hub.idsOk State.reset.toHub := h

/-- A step that answers, from a hub with a queue. -/
theorem test_meets_EveryStepAnswers :
    (match step { mk base with pending := [.mbxSnapshotValid 0] } with
      | .next t => decide (t.pending = [])
      | .fault _ => false
      | .refused _ => false) = true := by decide +kernel

/-- The hypotheses of the doorbells of RegistersWritten are met. -/
theorem test_meets_doorbells (h : Obligations.RegistersWritten) :
    exec (.registerWrite .host 2 4 4 0) (mk base) = exec (.commandDoorbell 1 0 base.clk.pos) (mk base) ∧
    exec (.registerWrite .host 2 0x100 4 0) (mk base) = exec (.consumerDoorbell (.cpl 0) 0) (mk base) ∧
    exec (.registerWrite .host 2 0x200 4 0) (mk base) = exec (.consumerDoorbell (.str 0) 0) (mk base) ∧
    exec (.registerWrite .host 2 0x300 4 0) (mk base) = exec (.consumerDoorbell (.tel 0) 0) (mk base) :=
  have a := (h.2 (mk base) 0).1 (by decide +kernel)
  ⟨a.1 1, a.2.1 0, a.2.2.1 0, a.2.2.2 0⟩

/-- The hypotheses of the writes that change nothing are met. -/
theorem test_meets_stale_acks (h : Obligations.EventRegisters) (k : Obligations.SafeLeft) :
    exec (.eventStatusAck .host .root 1) (mk base) = .next (mk base) ∧ exec (.clkDllEvtAck .host 5 1) (mk base) = .next (mk base) ∧
    exec (.domEvtAck .host 15 1) (mk base) = .next (mk base) ∧ exec (.fltEvtAck .host 1) (mk base) = .next (mk base) ∧
    exec (.fltDegLnkAck .host 2 1) (mk base) = .next (mk base) ∧ exec (.fltSafeAck .host 1) (mk base) = .next (mk base) :=
  have a := h.2 (mk base) .host 1 (by decide +kernel)
  ⟨a.1 .root (by decide +kernel), a.2.2.1 5 (by decide +kernel), a.2.2.2.1 15 (by decide +kernel), a.2.2.2.2.1 (by decide +kernel),
    a.2.2.2.2.2 2 (by decide +kernel), (k (mk base) .host 1 (by decide +kernel)).2 (.inl (by decide +kernel))⟩

/-- The hypotheses of an SPI write that is made are met. -/
theorem test_meets_spi_write (h : Obligations.SpiTransactions) :
    exec (.spiWriteTransaction 0x80004034 (crc8 0x80004034) 5 (crc8 5) 80) (mk base) =
      exec (.registerWrite .spi 0 (fld (0x80004034 : Reg) 0 24) 4 5)
        { mk base with spi := { status := 0, miso := (mk base).spiMiso 0 (crc8 0) } } :=
  ((h (mk base) 0x80004034 5 (crc8 0x80004034) (crc8 5) 80 (by decide +kernel)).2 (by decide +kernel)).1 rfl rfl rfl

/-- Log 3: the front of the queue is run, and an empty queue idles. -/
theorem test_meets_StepRunsFrontCommand (h : Obligations.StepRunsFrontCommand) : step (mk base) = .next (mk base) := h.2 _ rfl

/-! ## Witnesses, statement by statement -/

namespace AcksCases
def st (h : Hub) := mk h
def e3 : Evt := {bits := 3, seq := 0xFFFF}
def evs (h : Hub) : Hub := { h with
  clk := { h.clk with rootEvt := e3, rotSat := e3 }, tdc := {h.tdc with evt := e3}, evts := h.evts.map fun x => {x with evt := e3}, ivus := h.ivus.map fun x => {x with evt := e3}
  refs := h.refs.map fun x => {x with evt := e3}, outs := h.outs.map fun x => {x with evt := e3}, plss := h.plss.map fun x => {x with evt := e3}, links := h.links.map fun x => {x with evt := e3}
  hier := {h.hier with evt := e3}, comp := {h.comp with evt := e3, cevt := e3}, shim := {h.shim with evt := e3}, cal := {h.cal with evt := e3}, mons := {h.mons with evt := h.mons.evt.map fun _ => e3}, pwr := {h.pwr with evt := e3}
  doms := h.doms.map fun x => {x with evt := e3, untrusted := true}, dllEvt := h.dllEvt.map fun _ => e3, dlls := h.dlls.map fun x => {x with frozen := true}
  flt := {h.flt with evt := {bits := 0x1F, seq := 0xFFFF}, safeEvt := e3, degLnk := h.flt.degLnk.map fun _ => e3, cap := some (stamped 1 .parity, 2), ovf := true, capCnt := 4} }
def safe (h : Hub) := h.onTop fun t => {t with mode := .safe}
def rg (f : Ring → Ring) (h : Hub := base) := (((h.onRing (.cmd 0) f).onRing (.cpl 0) f).onRing (.str 63) f).onRing (.tel 3) f

/-- The hypotheses of EventRegisters are met. -/
theorem test_meets_EventRegisters (h : Obligations.EventRegisters) :
    (∃ t, exec (Instr.eventStatusAck .host EvtReg.root 0) (st base) = .next t) :=
  (((h.2 (st base) .host 0 (by decide +kernel)).2).1 EvtReg.root (by decide +kernel) (by decide +kernel) (by decide +kernel) (by decide +kernel)).imp fun _ x => x.1
/-- The hypotheses of EventsAcknowledged are met. -/
theorem test_meets_EventsAcknowledged (h : Obligations.EventsAcknowledged) :
    (∃ t, exec (Instr.clkDllEvtAck .host 0 0) (st base) = .next t) ∧
    (∃ t, exec (Instr.domEvtAck .host 0 0) (st base) = .next t) ∧
    (∃ t, exec (Instr.fltEvtAck .host 0) (st base) = .next t) ∧
    (∃ t, exec (Instr.fltDegLnkAck .host 0 0) (st base) = .next t) :=
  ⟨((h (st base) .host 0 (by decide +kernel)).1 0 (by decide +kernel)).imp fun _ x => x.1,
    (((h (st base) .host 0 (by decide +kernel)).2).1 0 (by decide +kernel)).imp fun _ x => x.1,
    ((((h (st base) .host 0 (by decide +kernel)).2).2).1 (by decide +kernel)).imp fun _ x => x.1,
    ((((h (st base) .host 0 (by decide +kernel)).2).2).2 0 (by decide +kernel)).imp fun _ x => x.1⟩
/-- The cases of EventsAcknowledged are met. -/
theorem test_cases_EventsAcknowledged :
    ((st base).domMarked 0 = false) ∧
    ((st base).flt.evt.bits.getLsbD 4 = false) ∧
    ((st (evs base)).flt.evt.bits.getLsbD 4 = true) := by decide +kernel
/-- The hypotheses of SafeLeft are met. -/
theorem test_meets_SafeLeft (h : Obligations.SafeLeft) :
    (∃ t, exec (Instr.fltSafeAck .host 0) (st base) = .next t) :=
  ((h (st base) .host 0 (by decide +kernel)).1 (by decide +kernel) (by decide +kernel)).imp fun _ x => x.1
/-- The cases of SafeLeft are met. -/
theorem test_cases_SafeLeft :
    ((st base).isSafe = false ∨ (st base).shim.loader = true) ∧
    ((st (safe (evs base))).isSafe = true) ∧
    ((st (safe (evs base))).shim.loader = false) := by decide +kernel

end AcksCases

namespace CollectorCases
def sev (v : Reg) (h : Hub) := h.onFlt fun f => {f with sev := f.sev.map fun _ => v}
def qm (src : BitVec 12) (k : Kind) (f : Flt → Flt := id) (h : Hub := base) := h.onFlt fun x => f {x with queue := [stamped src k, stamped 1 .parity]}
def cp : Flt → Flt := fun x => {x with cap := some (stamped 2 .oven, 1)}
def dmp (f : HostIf → HostIf) (g : Flt → Flt := id) := ((base.onHost fun h => f {h with dumpLo := 1, dumpSize := 0xFFFF}).onFlt fun x => g {x with fatal := some (stamped 0x322 .splitCharge)})

/-- The hypotheses of MessagesHandled are met. -/
theorem test_meets_MessagesHandled (h : Obligations.MessagesHandled) :
    (∃ t, exec Instr.faultMessage (mk (sev 0 (qm 0x200 .refLost id))) = .next t) :=
  (h (mk (sev 0 (qm 0x200 .refLost id))) _ _ _ (by decide +kernel) rfl rfl (by decide +kernel)).imp fun _ x => x.1
/-- The cases of MessagesHandled are met. -/
theorem test_cases_MessagesHandled :
    ((mk (sev 0x11111111 (qm 0x200 .refLost id))).flt.cap = none) ∧
    ((mk (sev 0x22222222 (qm 0x200 .refLost cp))).flt.cap.isSome = true) ∧
    ((mk (sev 0x22222222 (qm 0x200 .refLost cp))).inMode Mode.service = true) ∧
    ((mk (sev 0x44444444 (qm 0x200 .refLost id))).leavable = true) ∧
    ((mk (sev 0x44444444 (qm 0x200 .refLost cp (base.onTop fun t => {t with mode := .safe})))).inMode Mode.service = false) ∧
    ((mk (sev 0x44444444 (qm 0x200 .refLost cp (base.onTop fun t => {t with mode := .safe})))).leavable = false) ∧
    ((mk (sev 0 (qm 0x200 .refLost id))).severity (stamped 0x200 .refLost).msg = 0) ∧
    ((mk (sev 0x11111111 (qm 0x200 .refLost id))).severity (stamped 0x200 .refLost).msg = 1) ∧
    ((mk (sev 0x22222222 (qm 0x200 .refLost cp))).severity (stamped 0x200 .refLost).msg = 2) ∧
    ((mk (sev 0x33333333 (qm 0x0C5 .linkDown id))).severity (stamped 0x0C5 .linkDown).msg = 3) ∧
    ((mk (sev 0x33333333 (qm 0x0C5 .linkDown id))).marks (stamped 0x0C5 .linkDown).msg = some (0, some 5)) ∧
    ((mk (sev 0x44444444 (qm 0x200 .refLost id))).severity (stamped 0x200 .refLost).msg = 4) := by decide +kernel
/-- The hypotheses of CollectorPinAndDump are met. -/
theorem test_meets_CollectorPinAndDump (h : Obligations.CollectorPinAndDump) :
    (∃ t, exec (Instr.vinOvervoltage 41001) (mk (base.onFlt fun f => {f with queue := List.replicate 64 (stamped 0x310 .parity), lost := 5, lostRun := 2^32-1})) = .next t) ∧
    (∃ t, exec Instr.collectorOverflowReport (mk (base.onFlt fun f => {f with lostRun := 3})) = .next t) ∧
    (∃ t, exec Instr.faultNTimerExpiry (mk (base.onFlt fun f => {f with minLow := true, driven := true})) = .next t) ∧
    (∃ t, exec Instr.recoveryStabilityTimeout (mk (base.onTop fun t => {t with mode := .recovery, stabMs := 1000})) = .next t) ∧
    (∃ t, exec Instr.fatalDump (mk (dmp id)) = .next t) ∧
    (∃ t, exec Instr.fatalDump (mk (dmp (fun h => {h with dumpLo := 0}))) = .next t) :=
  ⟨(h.1.1 (mk (base.onFlt fun f => {f with queue := List.replicate 64 (stamped 0x310 .parity), lost := 5, lostRun := 2^32-1})) 41001 (by decide +kernel) (by decide +kernel) (by decide +kernel) (by decide +kernel)).imp fun _ x => x.1,
    (h.1.2.1 (mk (base.onFlt fun f => {f with lostRun := 3})) (by decide +kernel) (by decide +kernel) (by decide +kernel)).imp fun _ ⟨_, x⟩ => x.1,
    (h.1.2.2.1 (mk (base.onFlt fun f => {f with minLow := true, driven := true})) (by decide +kernel) (by decide +kernel)).imp fun _ x => x.1,
    (h.1.2.2.2 (mk (base.onTop fun t => {t with mode := .recovery, stabMs := 1000})) (by decide +kernel) (by decide +kernel)).imp fun _ x => x.1,
    ((h.2 (mk (dmp id)) _ (by decide +kernel) (Option.eq_some_of_isSome (by decide +kernel))).1 (by decide +kernel) (by decide +kernel)).imp fun _ x => x.1,
    ((h.2 (mk (dmp (fun h => {h with dumpLo := 0}))) _ (by decide +kernel) (Option.eq_some_of_isSome (by decide +kernel))).2 (by decide +kernel)).imp fun _ x => x.1⟩

end CollectorCases

namespace DomainsCases
def tm15 (op : Byte) (mark neg : Nat) : Desc := desc op [(0, 15), (8, mark), (9, neg), (112, 999999999), (144, 5)]
def dSet := tm15 3 0 0
def dSetBad := desc 3 [(0, 15), (112, 1000000000)]
def dStepBad := desc 4 [(0, 15), (112, 1000000000)]
def dSetMark := tm15 3 1 0
def dStep := tm15 4 0 1
def dStepMark := tm15 4 1 0
def hDom := base.onDom 15 fun d => { d with secs := 7, todUnset := false, excluded := 5 }
def sA (d : Desc) := serving d hDom
def dSlew := desc 5 [(0, 15), (8, 1), (64, 65536000000000)]
def dSteerSet := desc 0x11 [(0, 15), (8, 0), (64, 1)]
def dSteerSetRamp := desc 0x11 [(0, 15), (8, 4), (64, 1)]
def dSteerAdd := desc 0x11 [(0, 15), (8, 1), (64, 1)]
def dTrim := desc 0x11 [(0, 15), (8, 2), (64, 1)]
def dCfg := desc 0x10 [(0, 15), (32, 10), (64, 500), (96, 1000000), (128, 100000000), (160,1),(192,1),(208,1024)]
def dMode := desc 0x12 [(0, 15), (8, 0x38)]
def hMan := base.onDom 15 fun d => { d with state := .manual }
def hTrack := base.onDom 15 fun d => { d with state := .track, selected := 1, members := 2}
def hHo := base.onDom 15 fun d => { d with state := .holdover }
def hHeld := base.onClk fun c => { c with jumpHeld := true }
def hHold := base.onDom 15 fun d => { d with holds := [(11, 0)] }
def hMark := base.onDom 15 fun d => { d with secs := 2^48-1, sub := secU - 1 }
def hMark0 := base.onDom 0 fun d => { d with secs := 0, sub := secU - 1 }

/-- The hypotheses of TimeValues are met. -/
theorem test_meets_TimeValues (h : Obligations.TimeValues) :
    (∃ t, exec (.setTime o0) (sA dSetBad) = .next t) ∧
    (∃ t, exec (.stepTime o0) (sA dStepBad) = .next t) :=
  ⟨(h.2 (.ring 0) dSetBad (sA dSetBad) 15 (.setTime o0) (serves_of (by decide +kernel)) (by decide +kernel) (by decide +kernel) (by decide +kernel)).imp fun _ x => x.1,
    (h.2 (.ring 0) dStepBad (sA dStepBad) 15 (.stepTime o0) (serves_of (by decide +kernel)) (by decide +kernel) (by decide +kernel) (by decide +kernel)).imp fun _ x => x.1⟩
/-- The hypotheses of TimeSetAndStepped are met. -/
theorem test_meets_TimeSetAndStepped (h : Obligations.TimeSetAndStepped) :
    (∃ t, exec (Instr.setTime (.ring 0)) (sA dSet) = .next t) ∧
    (∃ t, exec (Instr.stepTime (.ring 0)) (sA dStep) = .next t) ∧
    (∃ t, exec (Instr.setTime (.ring 0)) (sA dSetMark) = .next t) ∧
    (∃ t, exec (Instr.stepTime (.ring 0)) (sA dStepMark) = .next t) :=
  ⟨((h.1 (.ring 0) dSet (sA dSet) 15 (serves_of (by decide +kernel)) (by decide +kernel) (by decide +kernel) (by decide +kernel) (by decide +kernel)).1 (by decide +kernel) (by decide +kernel)).imp fun _ x => x.1,
    ((h.1 (.ring 0) dStep (sA dStep) 15 (serves_of (by decide +kernel)) (by decide +kernel) (by decide +kernel) (by decide +kernel) (by decide +kernel)).2 (by decide +kernel) (by decide +kernel) (by decide +kernel)).imp fun _ x => x.1,
    ((h.2 (.ring 0) dSetMark (sA dSetMark) 15 (serves_of (by decide +kernel)) (by decide +kernel) (by decide +kernel) (by decide +kernel)).1 (by decide +kernel) (by decide +kernel)).imp fun _ x => x.1,
    ((h.2 (.ring 0) dStepMark (sA dStepMark) 15 (serves_of (by decide +kernel)) (by decide +kernel) (by decide +kernel) (by decide +kernel)).2 (by decide +kernel) (by decide +kernel)).imp fun _ x => x.1⟩
/-- The hypotheses of FrequencySteered are met. -/
theorem test_meets_FrequencySteered (h : Obligations.FrequencySteered) :
    (∃ t, exec (Instr.slewTime (.ring 0)) (serving dSlew base) = .next t) ∧
    (∃ t, exec (.domainSteerSet o0) (serving dSteerSet hMan) = .next t) ∧
    (∃ t, exec (.domainSteerSet o0) (serving dSteerSet hHeld) = .next t) ∧
    (∃ t, exec (.domainSteerAdd o0) (serving dSteerAdd hMan) = .next t) ∧
    (∃ t, exec (.domainSteerAdd o0) (serving dSteerAdd hHeld) = .next t) ∧
    (∃ t, exec (Instr.domainSteerHoTrim (.ring 0)) (serving dTrim hHo) = .next t) ∧
    (∃ t, exec (Instr.domainConfig (.ring 0)) (serving dCfg base) = .next t) ∧
    (∃ t, exec (.domainModePolicy o0) (serving dMode base) = .next t) ∧
    (∃ t, exec (.domainModeRealign o0) (serving dMode base) = .next t) ∧
    (∃ t, exec (.domainModeClearTracked o0) (serving dMode base) = .next t) ∧
    (∃ t, exec (.domainModeClearStepped o0) (serving dMode base) = .next t) :=
  ⟨(h.1 (.ring 0) dSlew (serving dSlew base) 15 _ _ (serves_of (by decide +kernel)) (by decide +kernel) (by decide +kernel) rfl rfl (by decide +kernel) (by decide +kernel)).imp fun _ x => x.1,
    by refine ((h.2.1 (.ring 0) dSteerSet (serving dSteerSet hMan) 15 (serves_of ?_) ?_ ?_).1 1 (.domainSteerSet o0) ?_ ?_ ?_ ?_ ?_).imp fun _ x => x.1 <;> decide +kernel,
    (((h.2.1 (.ring 0) dSteerSet (serving dSteerSet hHeld) 15 (serves_of (by decide +kernel)) (by decide +kernel) (by decide +kernel)).2).1 (.domainSteerSet o0) (by decide +kernel) (by decide +kernel)).imp fun _ x => x.1,
    by refine ((h.2.1 (.ring 0) dSteerAdd (serving dSteerAdd hMan) 15 (serves_of ?_) ?_ ?_).1 1 (.domainSteerAdd o0) ?_ ?_ ?_ ?_ ?_).imp fun _ x => x.1 <;> decide +kernel,
    (((h.2.1 (.ring 0) dSteerAdd (serving dSteerAdd hHeld) 15 (serves_of (by decide +kernel)) (by decide +kernel) (by decide +kernel)).2).1 (.domainSteerAdd o0) (by decide +kernel) (by decide +kernel)).imp fun _ x => x.1,
    (((h.2.1 (.ring 0) dTrim (serving dTrim hHo) 15 (serves_of (by decide +kernel)) (by decide +kernel) (by decide +kernel)).2).2 _ (by decide +kernel) (by decide +kernel) rfl (by decide +kernel) (by decide +kernel)).imp fun _ x => x.1,
    ((h.2.2 (.ring 0) dCfg (serving dCfg base) 15 (serves_of (by decide +kernel)) (by decide +kernel)).1 (by decide +kernel) (by decide +kernel)).imp fun _ x => x.1,
    ((h.2.2 (.ring 0) dMode (serving dMode base) 15 (serves_of (by decide +kernel)) (by decide +kernel)).2 (by decide +kernel) (.domainModePolicy o0) (by decide +kernel)).imp fun _ x => x.1,
    ((h.2.2 (.ring 0) dMode (serving dMode base) 15 (serves_of (by decide +kernel)) (by decide +kernel)).2 (by decide +kernel) (.domainModeRealign o0) (by decide +kernel)).imp fun _ x => x.1,
    ((h.2.2 (.ring 0) dMode (serving dMode base) 15 (serves_of (by decide +kernel)) (by decide +kernel)).2 (by decide +kernel) (.domainModeClearTracked o0) (by decide +kernel)).imp fun _ x => x.1,
    ((h.2.2 (.ring 0) dMode (serving dMode base) 15 (serves_of (by decide +kernel)) (by decide +kernel)).2 (by decide +kernel) (.domainModeClearStepped o0) (by decide +kernel)).imp fun _ x => x.1⟩
/-- The cases of FrequencySteered are met. -/
theorem test_cases_FrequencySteered :
    (pb dSteerSet.payload 1 2 = false) ∧
    (pb dSteerSetRamp.payload 1 2 = true) ∧
    (pb dSteerAdd.payload 1 2 = false) := by decide +kernel
/-- The hypotheses of DomainTimers are met. -/
theorem test_meets_DomainTimers (h : Obligations.DomainTimers) :
    (∃ t, exec (Instr.holdoverTimerExpiry 15) (mk hHo) = .next t) ∧
    (∃ t, exec (Instr.revertiveHoldoffExpiry 15) (mk hHold) = .next t) ∧
    (∃ t, exec (Instr.domainSecondMark 15) (mk hMark) = .next t) :=
  ⟨(h.1 (mk hHo) 15 (by decide +kernel) (by decide +kernel) (by decide +kernel) (by decide +kernel)).imp fun _ x => x.1,
    (h.2.1 (mk hHold) 15 (by decide +kernel) (by decide +kernel)).imp fun _ x => x.1,
    (h.2.2 (mk hMark) 15 _ (Option.eq_some_of_isSome (by decide +kernel)) (by decide +kernel) (by decide +kernel) (by decide +kernel)).imp fun _ x => x.1⟩

end DomainsCases

namespace ElectionCases
def placed (h : Hub) : Hub := h.onComp fun c => { c with tasks := (Vector.finRange 126).map fun (t : Fin 126) => { c.tasks[t] with state := .running, reed := some ⟨t.val, by omega⟩ } }
def hb (f : Hier → Hier) : Hub := ((placed base).onHier f).onLink 47 fun x => { x with cfg := payloadOf [(0, 47), (8, 1), (32, 1), (11,1)], squelch := false, blockLock := true, state := .timed }
def at3 (h : Hub) := h.onClk fun c => { c with ms := 3000 }
def msg (k : Nat) (seq : BitVec 16) (body : Bytes) : Msg := { port := 47, src := 9, dst := 1, data := mgmtMessage k 15 seq 77 body }
def mAnn := msg 1 3 ([1, 0] ++ leBytes 2 5 ++ leBytes 8 0 ++ [0,0,0,0])
def mDisc := msg 2 3 (leBytes 2 8 ++ List.replicate 6 0)
def mRep := msg 3 3 (List.replicate 48 0)
def mAsgS := msg 4 3 (leBytes 8 Config.serial.toNat ++ leBytes 2 4 ++ List.replicate 6 0)
def mAsg := msg 4 3 (leBytes 8 0 ++ leBytes 2 4 ++ List.replicate 6 0)
theorem leNat_leBytes8 (x : BitVec 64) : BitVec.ofNat 64 (leNat (leBytes 8 x.toNat)) = x := by
  apply BitVec.eq_of_toNat_eq
  simp only [leBytes, leNat, BitVec.toNat_ofNat]
  have := x.isLt
  omega
theorem serial_read : BitVec.ofNat 64 (leAt (msgBody mAsgS.data) 0 8) = Config.serial := by
  have : leAt (msgBody mAsgS.data) 0 8 = leNat (leBytes 8 Config.serial.toNat) := by rfl
  rw [this, leNat_leBytes8]
def mAsg0 := msg 4 3 (leBytes 8 0 ++ leBytes 2 0 ++ List.replicate 6 0)
def mgr (x : Hier) : Hier := { x with role := .manager, addr := 1, cfg := payloadOf [(8, 254)] }
def fullRows : List HubRow := (List.range 4093).map fun k => { serial := BitVec.ofNat 64 (k + 10000), addr := BitVec.ofNat 12 (k + 2), priority := 0, cls := 0, missed := 0, passive := false, confirmed := true }
def hFull := hb fun x => { mgr x with inbox := [{ mRep with src := 0 }], table := fullRows }

/-- The hypotheses of ElectionAndAddresses are met. -/
theorem test_meets_ElectionAndAddresses (h : Obligations.ElectionAndAddresses) :
    (∃ t, exec Instr.announceSend (mk (hb mgr)) = .next t) ∧
    (∃ t, exec Instr.announceReceived (mk (hb fun x => {mgr x with inbox := [mAnn, mDisc]})) = .next t) ∧
    (∃ t, exec Instr.managerSilentTimeout (mk (at3 (hb fun x => {x with role := .standby, cfg := payloadOf [(8, 254)]}))) = .next t) ∧
    (∃ t, exec Instr.managerSilentTimeout (mk (at3 (hb fun x => {x with role := .worker, mgrSerial := 4, addr := 5}))) = .next t) ∧
    (∃ t, exec Instr.lowestTupleTimeout (mk (at3 (hb fun x => {x with role := .worker, lowSince := some 0, cfg := payloadOf [(8, 254)]}))) = .next t) ∧
    (∃ t, exec Instr.discoverSend (mk (hb mgr)) = .next t) ∧
    (∃ t, exec Instr.discoverReceived (mk (hb fun x => {x with inbox := [mDisc]})) = .next t) ∧
    (∃ t, exec Instr.reportSend (mk (at3 (hb fun x => {x with reportDue := [(5, 3000, 9)], learned := [(9, 47)]}))) = .next t) ∧
    (∃ t, exec Instr.reportReceived (mk (hb fun x => {mgr x with inbox := [mRep]})) = .next t) ∧
    (∃ t, exec Instr.assignReceived (mk (hb fun x => {x with inbox := [mAsgS]})) = .next t) :=
  ⟨(h.1.1 (mk (hb mgr)) (by decide +kernel) (by decide +kernel) (by decide +kernel)).imp fun _ x => x.1,
    (h.1.2 (mk (hb fun x => {mgr x with inbox := [mAnn, mDisc]})) _ _ _ (by decide +kernel) rfl (by decide +kernel) rfl (by decide +kernel) (by decide +kernel)).imp fun _ x => x.1,
    ((h.2.1 (mk (at3 (hb fun x => {x with role := .standby, cfg := payloadOf [(8, 254)]}))) (by decide +kernel)).1 (by decide +kernel) (by decide +kernel) (by decide +kernel)).imp fun _ x => x.1,
    (((h.2.1 (mk (at3 (hb fun x => {x with role := .worker, mgrSerial := 4, addr := 5}))) (by decide +kernel)).2).1 (by decide +kernel) (by decide +kernel)).imp fun _ x => x.1,
    (((h.2.1 (mk (at3 (hb fun x => {x with role := .worker, lowSince := some 0, cfg := payloadOf [(8, 254)]}))) (by decide +kernel)).2).2 _ (by decide +kernel) (Option.eq_some_of_isSome (by decide +kernel)) (by decide +kernel) (by decide +kernel)).imp fun _ x => x.1,
    (h.2.2.1 (mk (hb mgr)) (by decide +kernel) (by decide +kernel) (by decide +kernel)).imp fun _ x => x.1,
    (h.2.2.2.1 (mk (hb fun x => {x with inbox := [mDisc]})) _ _ (by decide +kernel) rfl (by decide +kernel)).imp fun _ x => x.1,
    (h.2.2.2.2.1 (mk (at3 (hb fun x => {x with reportDue := [(5, 3000, 9)], learned := [(9, 47)]}))) _ _ _ _ _ (by decide +kernel) rfl (by decide +kernel) (by decide +kernel) (Option.eq_some_of_isSome (by decide +kernel)) (by decide +kernel)).imp fun _ x => x.1,
    (h.2.2.2.2.2.1 (mk (hb fun x => {mgr x with inbox := [mRep]})) _ _ (by decide +kernel) rfl (by decide +kernel) (by decide +kernel)).imp fun _ x => x.1,
    (h.2.2.2.2.2.2 (mk (hb fun x => {x with inbox := [mAsgS]})) _ _ _ (by decide +kernel) rfl (by decide +kernel) serial_read (by decide +kernel) rfl).imp fun _ x => x.1⟩
/-- The cases of ElectionAndAddresses are met. -/
theorem test_cases_ElectionAndAddresses :
    ((mk (hb mgr)).links[47].mgmtOpen = true) ∧
    ((mk (hb fun x => {mgr x with inbox := [mAnn, mDisc]})).hier.role = Role.manager) ∧
    ((mk (at3 (hb fun x => {x with role := .standby, cfg := payloadOf [(8, 254)]}))).hier.addr = 0) ∧
    ((mk (at3 (hb fun x => {x with role := .standby, addr := 5, cfg := payloadOf [(8, 254)]}))).hier.addr ≠ 0) ∧
    ((mk (hb fun x => {mgr x with inbox := [mRep]})).chooseAddr (msgOrigin mRep.data) mRep.src = some 9) ∧
    ((mk (hb fun x => {x with inbox := [mAsg]})).hier.addr ≠ BitVec.ofNat 12 (leAt (msgBody mAsg.data) 8 2)) := by decide +kernel
/-- Every address is held: none is left to choose. -/
theorem test_noAddressLeft : (mk hFull).chooseAddr (msgOrigin mRep.data) 0 = none := by
  have f : (mk hFull).hier.fixed = [] := by decide +kernel
  have a : (mk hFull).hier.addr = 1 := by decide +kernel
  have o : msgOrigin mRep.data = 77 := by decide +kernel
  have t : (mk hFull).hier.table = fullRows := by
    unfold hFull
    generalize fullRows = l
    rfl
  simp only [Hub.chooseAddr, f, List.find?_nil, ne_eq, not_true_eq_false, false_and, if_false, Hub.lowestFree, a, t, o]
  rw [Option.map_eq_none_iff, List.find?_eq_none]
  intro i hi
  have hi := List.mem_range.mp hi
  simp only [List.contains_eq_mem, List.mem_cons, List.mem_map, List.mem_filter, Bool.not_eq_eq_eq_not, Bool.not_true, decide_eq_false_iff_not, not_not, fullRows, List.mem_range]
  by_cases z : i = 0
  · left; subst z; decide
  · right
    refine ⟨_, ⟨⟨i - 1, by omega, rfl⟩, ?_⟩, ?_⟩
    · simp only [bne_iff_ne, ne_eq]
      intro e
      rw [show (77 : BitVec 64) = BitVec.ofNat 64 77 from rfl] at e
      have := congrArg BitVec.toNat e
      simp only [BitVec.toNat_ofNat] at this
      omega
    · show BitVec.ofNat 12 (i - 1 + 2) = BitVec.ofNat 12 (i + 1)
      rw [show i - 1 + 2 = i + 1 by omega]

end ElectionCases

namespace EventsCases
def evP (n : Nat) : List (Nat × Nat) := [(0, n), (8, 1)]
def dEv := desc 0x40 (evP 63)
def dEvF := desc 0x40 ((16, 5) :: evP 63)
def dEvOff := desc 0x40 [(0, 63)]
def evOn (f : EvtCh → EvtCh) := base.onEvt 63 fun c => f { c with cfg := payloadOf (evP 63), enabled := true }
def evW (f : EvtCh → EvtCh) := base.onEvt 63 fun c => f { c with cfg := payloadOf ((9,1) :: evP 63), enabled := true }
def hOn := evOn id
def hWait := evW fun c => { c with open_ := some 1 }
def hWaitLost := evW fun c => { c with open_ := some 1, lostRun := 3 }
def hWaitFull := evW fun c => { c with open_ := some 1, queue := List.replicate 4096 0 }
def hWaitStop := evW fun c => { c with open_ := some 1, stopDesc := [0] }
def hBlank := evOn fun c => { c with blank := true }
def hRBlank := base.onRef 3 fun c => { c with blank := true }
def hRec := evOn fun c => { c with queue := [1,2,3] }
def dEvOffW := desc 0x40 [(0, 63), (9,1)]
def hDead := evOn fun c => { c with lastEdge := some 0 }
def hDead2 := evOn fun c => { c with lastEdge := some (-2^60) }
def hDead3 := hOn.onTdc fun x => { x with lastEdge := upd x.lastEdge (laneOfEvt 63) fun _ => some (-1) }
def hCap := evOn fun c => { c with cap := 32 }
def hEdgeW := evW id
def ivP : List (Nat × Nat) := [(0, 31), (16, 5), (24, 6), (64, 100000), (128, 200000)]
def dIvS := desc 0x41 ivP
def dIvR := desc 0x41 ((8, 1) :: (48, 3) :: ivP)
def dIvX := desc 0x41 ((8, 2) :: ivP)
def hIvX := base.onIvu 31 fun u => { u with state := .waitStart, desc := some 5, cfg := payloadOf ((8, 1) :: (48,3) :: ivP) }
def d5 := { dIvS with id := 5 }
def two (d e : Desc) (h : Hub) : State := mk { h with host := { h.host with inflight := [d, e], nextId := 6 } }
def hIvW := base.onIvu 31 fun u => { u with state := .waitStart, desc := some 0, cfg := payloadOf ivP }
def hIvWP := (base.onIvu 31 fun u => { u with state := .waitStart, desc := some 0, cfg := payloadOf ((22,3)::ivP)}).onPls 5 fun x => { x with lastStart := some 7 }
def hIvLate := hIvW.onClk fun c => { c with cycles := 16000000000 }
def winAt (t : Int) := base.onIvu 31 fun u => { u with state := .window, start := t, desc := some 0, cfg := payloadOf ivP }

/-- The hypotheses of EventChannels are met. -/
theorem test_meets_EventChannels (h : Obligations.EventChannels) :
    (∃ t, exec (Instr.eventConfig (.ring 0)) (serving dEv base) = .next t) ∧
    (∃ t, exec (Instr.frontEndBlankEnd (FrontEnd.evt 63)) (mk hBlank) = .next t) ∧
    (∃ t, exec (Instr.frontEndBlankEnd (FrontEnd.ref 3)) (mk hRBlank) = .next t) ∧
    (∃ t, exec (Instr.eventWidthEnd 63 2) (serving dEvOffW hWait) = .next t) ∧
    (∃ t, exec (Instr.streamRecordDma 63 2) (mk hWaitFull) = .next t) :=
  ⟨(h.1 (.ring 0) dEv (serving dEv base) 63 _ _ (serves_of (by decide +kernel)) (by decide +kernel) (by decide +kernel) (by decide +kernel) rfl rfl).imp fun _ x => x.1,
    (h.2.1 (mk hBlank) 63 _ (by decide +kernel) (by decide +kernel) (Option.eq_some_of_isSome (by decide +kernel))).imp fun _ x => x.1,
    (h.2.2.1 (mk hRBlank) 3 _ (by decide +kernel) (by decide +kernel) (Option.eq_some_of_isSome (by decide +kernel))).imp fun _ x => x.1,
    (h.2.2.2.1 (serving dEvOffW hWait) 63 2 _ (by decide +kernel) (Option.eq_some_of_isSome (by decide +kernel))).imp fun _ x => x.1,
    (h.2.2.2.2 (mk hWaitFull) _ 2 _ (by decide +kernel) (by decide +kernel) (Option.eq_some_of_isSome (by decide +kernel)) rfl (by decide +kernel)).imp fun _ x => x.1⟩
/-- The cases of EventChannels are met. -/
theorem test_cases_EventChannels :
    (((serving dEv base).evts[63].enabled && pb dEv.payload 1 0 && evtFront dEv.payload != evtFront (serving dEv base).evts[63].cfg) = false) ∧
    (((serving dEv base).evts[63].enabled && !pb dEv.payload 1 0 && (serving dEv base).evts[63].open_.isSome) = false) ∧
    (((serving dEvF hOn).evts[63].enabled && pb dEvF.payload 1 0 && evtFront dEvF.payload != evtFront (serving dEvF hOn).evts[63].cfg) = true) ∧
    (((serving dEvOffW hWait).evts[63].enabled && !pb dEvOffW.payload 1 0 && (serving dEvOffW hWait).evts[63].open_.isSome) = true) ∧
    ((serving dEvOffW hWait).evts[63].queue.length < 4096) ∧
    (dEv.id ∈ (serving dEvOffW hWaitStop).evts[63].stopDesc) ∧
    (dEvOffW ∈ (serving dEvOffW hWaitStop).host.inflight) ∧
    (4096 ≤ (mk hWaitFull).evts[63].queue.length) := by decide +kernel
/-- The hypotheses of EdgesMakeRecords are met. -/
theorem test_meets_EdgesMakeRecords (h : Obligations.EdgesMakeRecords) :
    (∃ t, exec (Instr.eventEdge 63 true ({cyc := 0, bin := 0} : Stamp)) (mk hOn) = .next t) ∧
    (∃ t, exec (Instr.eventEdge 63 true ({cyc := 0, bin := 0} : Stamp)) (mk hDead3) = .next t) :=
  ⟨((h (mk hOn) 63 true ({cyc := 0, bin := 0} : Stamp) _ _ _ (by decide +kernel) rfl (by decide +kernel) (by decide +kernel) (by decide +kernel) rfl rfl).2 (by decide +kernel) (by decide +kernel)).imp fun _ x => x.1,
    ((h (mk hDead3) 63 true ({cyc := 0, bin := 0} : Stamp) _ _ _ (by decide +kernel) rfl (by decide +kernel) (by decide +kernel) (by decide +kernel) rfl rfl).1 (by decide +kernel)).imp fun _ x => x.1⟩
/-- The cases of EdgesMakeRecords are met. -/
theorem test_cases_EdgesMakeRecords :
    ((drained (mk hOn).evts[63].cap (mk hOn).evts[63].capAt (advanceTo ({cyc := 0, bin := 0} : Stamp).cyc (mk hOn).toHub).clk.cycles).1 < 32) ∧
    ((mk hOn).evts[63].widthEn = false) ∧
    ((mk hOn).evts[63].queue.length < 4096) ∧
    ((mk hOn).evts[63].lostRun = 0) ∧
    (32 ≤ (drained (mk hCap).evts[63].cap (mk hCap).evts[63].capAt (advanceTo ({cyc := 0, bin := 0} : Stamp).cyc (mk hCap).toHub).clk.cycles).1) ∧
    ((mk hEdgeW).evts[63].widthEn = true) := by decide +kernel
/-- Where the stop edge at the start of the run falls in a window, fu after its start. -/
def stopAt (h : Hub) : Int :=
  (match h.ivuStamp h.ivus[(31 : Fin 32)].cfg 0 6 true { cyc := 0, bin := 0 } with | some x => x.1 | none => 0) - h.ivus[(31 : Fin 32)].start
/-- The hypotheses of IntervalUnits are met. -/
theorem test_meets_IntervalUnits (h : Obligations.IntervalUnits) :
    (∃ t, exec (.intervalStartSingle o0) (serving dIvS base) = .next t) ∧
    (∃ t, exec (.intervalStartRepeat o0) (serving dIvR base) = .next t) ∧
    (∃ t, exec (Instr.intervalStartAbort (.ring 0)) (serving dIvX base) = .next t) ∧
    (∃ t, exec (Instr.ivuStartEdge 31 true ({cyc := 0, bin := 0} : Stamp)) (serving dIvS hIvWP) = .next t) ∧
    (∃ t, exec (Instr.ivuStopEdge 31 true ({cyc := 0, bin := 0} : Stamp)) (serving dIvS (winAt (-20000))) = .next t) ∧
    (∃ t, exec (Instr.ivuStartWaitExpired 31) (serving dIvS hIvLate) = .next t) ∧
    (∃ t, exec (Instr.ivuWindowTimeout 31) (serving dIvS (winAt (-20000))) = .next t) :=
  ⟨((h.1 (.ring 0) dIvS (serving dIvS base) 31 (serves_of (by decide +kernel)) (by decide +kernel)).1 (.intervalStartSingle o0) (by decide +kernel) (by decide +kernel) (Option.eq_some_of_isSome (by decide +kernel))).imp fun _ x => x.1,
    ((h.1 (.ring 0) dIvR (serving dIvR base) 31 (serves_of (by decide +kernel)) (by decide +kernel)).1 (.intervalStartRepeat o0) (by decide +kernel) (by decide +kernel) (Option.eq_some_of_isSome (by decide +kernel))).imp fun _ x => x.1,
    ((h.1 (.ring 0) dIvX (serving dIvX base) 31 (serves_of (by decide +kernel)) (by decide +kernel)).2 (by decide +kernel) (by decide +kernel)).imp fun _ x => x.1,
    ((h.2.1 (serving dIvS hIvWP) 31 true ({cyc := 0, bin := 0} : Stamp) _ 0 _ (by decide +kernel) rfl).1 (by decide +kernel) (by decide +kernel) rfl).imp fun _ x => x.1,
    ((h.2.1 (serving dIvS (winAt (-20000))) 31 true ({cyc := 0, bin := 0} : Stamp) _ _ _ (by decide +kernel) rfl).2 (by decide +kernel) (by decide +kernel) (by decide +kernel) rfl (by decide +kernel)).imp fun _ x => x.1,
    ((h.2.2 (serving dIvS hIvLate) 31 (by decide +kernel)).2 _ (by decide +kernel) (Option.eq_some_of_isSome (by decide +kernel))).imp fun _ x => x.1,
    ((h.2.2 (serving dIvS (winAt (-20000))) 31 (by decide +kernel)).1 _ (by decide +kernel) (Option.eq_some_of_isSome (by decide +kernel))).imp fun _ x => x.1⟩
/-- The cases of IntervalUnits are met. -/
theorem test_cases_IntervalUnits :
    ((two dIvX d5 hIvX).ivus[31].state ≠ IvuState.idle) ∧
    ((two dIvX d5 hIvX).ivus[31].desc = some d5.id) ∧
    (d5 ∈ (two dIvX d5 hIvX).host.inflight) ∧
    (d5.id ≠ dIvX.id) ∧
    (ivuMode (serving dIvS (winAt (-150000))).ivus[31].cfg = 0) ∧
    ((serving dIvS (winAt (-150000))).ivus[31].desc = some dIvS.id) ∧
    (dIvS ∈ (serving dIvS (winAt (-150000))).host.inflight) ∧
    ((serving dIvS hIvLate).ivus[31].desc = some dIvS.id) ∧
    (dIvS ∈ (serving dIvS hIvLate).host.inflight) ∧
    (ivuMode (serving dIvS (winAt (-20000))).ivus[31].cfg = 0) ∧
    ((serving dIvX base).ivus[(31 : Fin 32)].state = IvuState.idle) ∧
    (stopAt (winAt (-20000)) < ivuOpen (winAt (-20000)).ivus[(31 : Fin 32)].cfg) ∧
    ((ivuOpen (winAt (-150000)).ivus[(31 : Fin 32)].cfg : Int) ≤ stopAt (winAt (-150000))) ∧
    (stopAt (winAt (-150000)) < ivuClose (winAt (-150000)).ivus[(31 : Fin 32)].cfg) := by decide +kernel

end EventsCases

namespace GroupCases
def placed (h : Hub) : Hub := h.onComp fun c => { c with tasks := (Vector.finRange 126).map fun (t : Fin 126) => { c.tasks[t] with state := .running, reed := some ⟨t.val, by omega⟩ } }
def hb (f : Hier → Hier) : Hub := ((placed base).onHier f).onLink 47 fun x => { x with cfg := payloadOf [(0, 47), (8, 1), (32, 1), (11,1)], squelch := false, blockLock := true, state := .timed }
def at3 (h : Hub) := h.onClk fun c => { c with ms := 3000 }
def msg (k : Nat) (seq : BitVec 16) (body : Bytes) : Msg := { port := 47, src := 9, dst := 1, data := mgmtMessage k 15 seq 77 body }
def mAnn := msg 1 3 ([1, 0] ++ leBytes 2 5 ++ leBytes 8 0 ++ [0,0,0,0])
def mDisc := msg 2 3 (leBytes 2 8 ++ List.replicate 6 0)
def mRep := msg 3 3 (List.replicate 48 0)
def mAsg := msg 4 3 (leBytes 8 0 ++ leBytes 2 4 ++ List.replicate 6 0)
def mAsg0 := msg 4 3 (leBytes 8 0 ++ leBytes 2 0 ++ List.replicate 6 0)
def mgr (x : Hier) : Hier := { x with role := .manager, addr := 1, cfg := payloadOf [(8, 254)] }
def dFwd := desc 0x90 [(0, 9), (16, 1), (32, 60000), (64, 64), (128, 128)]
def row : HubRow := { serial := 77, addr := 9, priority := 1, cls := 5, missed := 0, passive := false, confirmed := true }
def w : DescWord := 1
def mDesc := msg 5 3 (leBytes 4 0xAABB ++ leBytes 2 1 ++ List.replicate 10 0 ++ List.replicate 64 1)
def mCompl := msg 6 3 (leBytes 4 7 ++ leBytes 2 1 ++ List.replicate 10 0 ++ List.replicate 32 1)
def run (t : BitVec 32) : DescRun := { tag := t, replyTo := 9, todo := [], cur := none, done := [] }
def fwd : Fwd := { desc := 0, tag := 7, dst := 9, count := 1, compl := 128, due := 3000 }
def hRuns := hb fun x => { x with inbox := [mDesc], runs := Vector.replicate 4 (some (run 3)) }
def hFwd := at3 (hb fun x => { x with inbox := [mCompl], fwds := [fwd, {fwd with tag := 8}] })
def dLocal := desc 0x91 [(16, 2), (8, 7)]
def dScan := desc 0x91 [(0, 2)]
def dAsg := desc 0x91 [(0, 3), (16, 0xFFE), (64, 7)]
def dAsg0 := desc 0x91 [(0, 3), (16, 0), (64, 7)]
def hFix := hb fun x => { mgr x with fixed := [(7, 3), (8, 0xFFE), (9, 2)] }
def ptpP : List (Nat × Nat) := [(0, 1), (8, 47)]
def dPtp := desc 0x91 ptpP
def hEth (f : PtpPort → PtpPort) := (base.onLink 47 fun x => { x with cfg := payloadOf [(0, 47), (8, 2)], state := .ethUp }).onPtp 47 f
def hSl := (hEth fun p => { p with state := .slave }).onRef 9 fun r => { r with cfg := payloadOf [(13,5),(12,1),(56,47)], state := .qualified }
def hP2p (f : PtpPort → PtpPort) := hEth fun p => f { p with state := .slave, cfg := payloadOf [(21,1),(22,1)] }
def pd : PtpData := { priority1 := 1, clockClass := 6, accuracy := 0, variance := 0, priority2 := 2, identity := 7, stepsRemoved := 254, sender := 9, senderPort := 1 }

/-- The hypotheses of GroupDescriptors are met. -/
theorem test_meets_GroupDescriptors (h : Obligations.GroupDescriptors) :
    (∃ t, exec (Instr.hierForward (.ring 0) []) (serving dFwd (hb fun x => {mgr x with table := [row]})) = .next t) ∧
    (∃ t, exec Instr.descReceived (mk (hb fun x => {x with inbox := [mDesc]})) = .next t) ∧
    (∃ t, exec Instr.complSend (mk hRuns) = .next t) ∧
    (∃ t, exec Instr.complReceived (serving dFwd hFwd) = .next t) ∧
    (∃ t, exec (Instr.hierForwardTimeout 7) (serving dFwd hFwd) = .next t) ∧
    (∃ t, exec (Instr.hierDiscoverLocal (.ring 0)) (serving dLocal (hb id)) = .next t) ∧
    (∃ t, exec (Instr.hierDiscoverScan (.ring 0)) (serving dScan (hb mgr)) = .next t) ∧
    (∃ t, exec (Instr.hierDiscoverAssign (.ring 0)) (serving dAsg hFix) = .next t) ∧
    (∃ t, exec Instr.scanComplete (serving dScan (at3 (hb fun x => {mgr x with scans := [(0, 2000)]}))) = .next t) :=
  ⟨(h.1.1 (.ring 0) [] dFwd (serving dFwd (hb fun x => {mgr x with table := [row]})) (serves_of (by decide +kernel)) (by decide +kernel) (by decide +kernel) (by decide +kernel) (by decide +kernel)).imp fun _ x => x.1,
    (h.1.2.1 (mk (hb fun x => {x with inbox := [mDesc]})) _ _ (by decide +kernel) rfl (by decide +kernel) (by decide +kernel) (by decide +kernel) (by decide +kernel)).imp fun _ x => x.1,
    (h.1.2.2.1 (mk hRuns) _ (by decide +kernel) (Option.eq_some_of_isSome (by decide +kernel)) (by decide +kernel) (by decide +kernel)).imp fun _ x => x.1,
    (h.1.2.2.2.1 (serving dFwd hFwd) _ _ _ (by decide +kernel) rfl (by decide +kernel) (Option.eq_some_of_isSome (by decide +kernel))).imp fun _ x => x.1,
    (h.1.2.2.2.2 (serving dFwd hFwd) 7 _ (by decide +kernel) (Option.eq_some_of_isSome (by decide +kernel)) (by decide +kernel)).imp fun _ x => x.1,
    ((h.2.1 (.ring 0) dLocal (serving dLocal (hb id)) (serves_of (by decide +kernel)) (by decide +kernel)).1 (by decide +kernel) (by decide +kernel)).imp fun _ x => x.1,
    (((h.2.1 (.ring 0) dScan (serving dScan (hb mgr)) (serves_of (by decide +kernel)) (by decide +kernel)).2).1 (by decide +kernel) (by decide +kernel)).imp fun _ x => x.1,
    (((h.2.1 (.ring 0) dAsg (serving dAsg hFix) (serves_of (by decide +kernel)) (by decide +kernel)).2).2 _ _ (by decide +kernel) (by decide +kernel) rfl rfl (by decide +kernel) (by decide +kernel)).imp fun _ x => x.1,
    (h.2.2 (serving dScan (at3 (hb fun x => {mgr x with scans := [(0, 2000)]}))) dScan _ _ _ 0 (by decide +kernel) (by decide +kernel) (by unfold Hub.idsOk; decide +kernel) rfl (by decide +kernel) (by decide +kernel) (by decide +kernel) (by decide +kernel)).imp fun _ x => x.1⟩
/-- The cases of GroupDescriptors are met. -/
theorem test_cases_GroupDescriptors :
    ((mk (hb fun x => {x with inbox := [mDesc]})).hier.runsWait = []) ∧
    ((mk (hb fun x => {x with inbox := [mDesc]})).hier.runs[0] = none) ∧
    (∀ (k : Fin 4), (mk hRuns).hier.runs[k].isSome = true) ∧
    (dFwd ∈ (serving dFwd hFwd).host.inflight) ∧
    ((BitVec.ofNat 12 (pf dAsg.payload 2 0 12)) ≠ 0) ∧
    ((BitVec.ofNat 12 (pf dAsg0.payload 2 0 12)) = 0) ∧
    (fwd.desc = dFwd.id) := by decide +kernel
/-- The hypotheses of PtpAndEsmc are met. -/
theorem test_meets_PtpAndEsmc (h : Obligations.PtpAndEsmc) :
    (∃ t, exec (Instr.hierDiscoverPtp (.ring 0)) (serving dPtp base) = .next t) ∧
    (∃ t, exec (Instr.ptpEventMessage 47 PtpEvent.delayReqSent ({cyc := 0, bin := 0} : Stamp)) (mk (hEth fun p => {p with state := .slave})) = .next t) ∧
    (∃ t, exec (Instr.ptpEventMessage 47 PtpEvent.delayReqReceived ({cyc := 0, bin := 0} : Stamp)) (mk (hEth fun p => {p with state := .slave})) = .next t) ∧
    (∃ t, exec (Instr.ptpEventMessage 47 PtpEvent.pdelayReqReceived ({cyc := 0, bin := 0} : Stamp)) (mk (hEth fun p => {p with state := .slave})) = .next t) ∧
    (∃ t, exec (Instr.ptpSyncReceived 47 ({cyc := 0, bin := 0} : Stamp) 0 none) (mk (hEth fun p => {p with state := .slave})) = .next t) ∧
    (∃ t, exec (Instr.ptpAnnounceReceived 47 { pd with sender := Config.serial + 1 }) (mk (hEth fun p => {p with state := .slave})) = .next t) ∧
    (∃ t, exec (Instr.ptpEventMessage 47 PtpEvent.syncSent ({cyc := 0, bin := 0} : Stamp)) (mk (hEth fun p => {p with state := .master})) = .next t) ∧
    (∃ t, exec (Instr.ptpAnnounceReceiptTimeout 47) (mk ((hSl.onPtp 47 fun p => { p with state := .slave, syncMs := 0, cfg := payloadOf [(31,1)] }).onClk fun c => { c with ms := 100000 })) = .next t) ∧
    (∃ t, exec (Instr.ptpEventMessage 47 PtpEvent.pdelayReqSent ({cyc := 0, bin := 0} : Stamp)) (mk (hP2p id)) = .next t) ∧
    (∃ t, exec (Instr.ptpEventMessage 47 PtpEvent.pdelayRespSent ({cyc := 0, bin := 0} : Stamp)) (mk (hP2p id)) = .next t) ∧
    (∃ t, exec (Instr.ptpEventMessage 47 (PtpEvent.pdelayRespReceived 0) ({cyc := 0, bin := 0} : Stamp)) (mk (hP2p fun p => { p with reqStamp := some 9, best := some pd })) = .next t) ∧
    (∃ t, exec (Instr.esmcPduReceived 47 0) (mk (hEth fun p => {p with state := .slave})) = .next t) ∧
    (∃ t, exec (Instr.ptpSyncTimeout 47) (mk (at3 hSl)) = .next t) ∧
    (∃ t, exec (Instr.esmcPduSend 47) (mk ((hSl.onPtp 47 fun p => { p with state := .slave, syncMs := 0, cfg := payloadOf [(31,1)] }).onClk fun c => { c with ms := 100000 })) = .next t) ∧
    (∃ t, exec (Instr.esmcEventPduSend 47) (mk ((hSl.onPtp 47 fun p => { p with state := .slave, syncMs := 0, cfg := payloadOf [(31,1)] }).onClk fun c => { c with ms := 100000 })) = .next t) ∧
    (∃ t, exec (Instr.esmcAbsentTimeout 47) (mk ((hSl.onPtp 47 fun p => { p with state := .slave, syncMs := 0, cfg := payloadOf [(31,1)] }).onClk fun c => { c with ms := 100000 })) = .next t) :=
  ⟨(h.1.1 (.ring 0) dPtp (serving dPtp base) 47 (serves_of (by decide +kernel)) (by decide +kernel) (by decide +kernel) (by decide +kernel) (by decide +kernel)).imp fun _ x => x.1,
    (((h.1.2 (mk (hEth fun p => {p with state := .slave})) 47 ({cyc := 0, bin := 0} : Stamp) _ _ _ _ _ (by decide +kernel) rfl rfl rfl rfl rfl).2).1 (by decide +kernel) (by decide +kernel)).imp fun _ x => x.1,
    (((((h.1.2 (mk (hEth fun p => {p with state := .slave})) 47 ({cyc := 0, bin := 0} : Stamp) _ _ _ _ _ (by decide +kernel) rfl rfl rfl rfl rfl).2).2).2).1).imp fun _ x => x.1,
    ((((((h.1.2 (mk (hEth fun p => {p with state := .slave})) 47 ({cyc := 0, bin := 0} : Stamp) _ _ _ _ _ (by decide +kernel) rfl rfl rfl rfl rfl).2).2).2).2).1).imp fun _ x => x.1,
    (((((((h.1.2 (mk (hEth fun p => {p with state := .slave})) 47 ({cyc := 0, bin := 0} : Stamp) _ _ _ _ _ (by decide +kernel) rfl rfl rfl rfl rfl).2).2).2).2).2).1 0 none _ (by decide +kernel) rfl).imp fun _ x => x.1,
    ((((((((h.1.2 (mk (hEth fun p => {p with state := .slave})) 47 ({cyc := 0, bin := 0} : Stamp) _ _ _ _ _ (by decide +kernel) rfl rfl rfl rfl rfl).2).2).2).2).2).2).1 { pd with sender := Config.serial + 1 } (by simp) (by decide +kernel) (by decide +kernel)).imp fun _ x => x.1,
    ((h.1.2 (mk (hEth fun p => {p with state := .master})) 47 ({cyc := 0, bin := 0} : Stamp) _ _ _ _ _ (by decide +kernel) rfl rfl rfl rfl rfl).1 (by decide +kernel)).imp fun _ x => x.1,
    ((((((((h.1.2 (mk ((hSl.onPtp 47 fun p => { p with state := .slave, syncMs := 0, cfg := payloadOf [(31,1)] }).onClk fun c => { c with ms := 100000 })) 47 ({cyc := 0, bin := 0} : Stamp) _ _ _ _ _ (by decide +kernel) rfl rfl rfl rfl rfl).2).2).2).2).2).2).2 (by decide +kernel)).imp fun _ x => x.1,
    (((((h.1.2 (mk (hP2p id)) 47 ({cyc := 0, bin := 0} : Stamp) _ _ _ _ _ (by decide +kernel) rfl rfl rfl rfl rfl).2).2).1 (by decide +kernel)).1).imp fun _ x => x.1,
    ((((((h.1.2 (mk (hP2p id)) 47 ({cyc := 0, bin := 0} : Stamp) _ _ _ _ _ (by decide +kernel) rfl rfl rfl rfl rfl).2).2).1 (by decide +kernel)).2).1).imp fun _ x => x.1,
    ((((((h.1.2 (mk (hP2p fun p => { p with reqStamp := some 9, best := some pd })) 47 ({cyc := 0, bin := 0} : Stamp) _ _ _ _ _ (by decide +kernel) rfl rfl rfl rfl rfl).2).2).1 (by decide +kernel)).2).2 0 _ (Option.eq_some_of_isSome (by decide +kernel))).imp fun _ x => x.1,
    (((((h.2 (mk (hEth fun p => {p with state := .slave})) 47 _ (by decide +kernel) (by decide +kernel) (by decide +kernel) rfl).2).2).2).1 0).imp fun _ x => x.1,
    ((h.2 (mk (at3 hSl)) 47 _ (by decide +kernel) (by decide +kernel) (by decide +kernel) rfl).1 _ (by decide +kernel) (by decide +kernel) rfl (by decide +kernel)).imp fun _ x => x.1,
    (((h.2 (mk ((hSl.onPtp 47 fun p => { p with state := .slave, syncMs := 0, cfg := payloadOf [(31,1)] }).onClk fun c => { c with ms := 100000 })) 47 _ (by decide +kernel) (by decide +kernel) (by decide +kernel) rfl).2).1 (by decide +kernel) (by decide +kernel)).imp fun _ x => x.1,
    ((((h.2 (mk ((hSl.onPtp 47 fun p => { p with state := .slave, syncMs := 0, cfg := payloadOf [(31,1)] }).onClk fun c => { c with ms := 100000 })) 47 _ (by decide +kernel) (by decide +kernel) (by decide +kernel) rfl).2).2).1 (by decide +kernel) (by decide +kernel)).imp fun _ x => x.1,
    (((((h.2 (mk ((hSl.onPtp 47 fun p => { p with state := .slave, syncMs := 0, cfg := payloadOf [(31,1)] }).onClk fun c => { c with ms := 100000 })) 47 _ (by decide +kernel) (by decide +kernel) (by decide +kernel) rfl).2).2).2).2 (by decide +kernel)).imp fun _ x => x.1⟩
/-- The cases of PtpAndEsmc are met. -/
theorem test_cases_PtpAndEsmc :
    ((((mk (hEth fun p => {p with state := .slave})).hier.ptp[47]).pathBy ((advanceTo ({cyc := 0, bin := 0} : Stamp).cyc (mk (hEth fun p => {p with state := .slave})).toHub).dom0Stamp (laneOfRx 47) ({cyc := 0, bin := 0} : Stamp) - (advanceTo ({cyc := 0, bin := 0} : Stamp).cyc (mk (hEth fun p => {p with state := .slave})).toHub).drxFu 47) 0 none).pathOk = false) ∧
    ((((mk (hEth fun p => {p with state := .slave, reqStamp := some 5, pathOk := true})).hier.ptp[47]).pathBy ((advanceTo ({cyc := 0, bin := 0} : Stamp).cyc (mk (hEth fun p => {p with state := .slave, reqStamp := some 5, pathOk := true})).toHub).dom0Stamp (laneOfRx 47) ({cyc := 0, bin := 0} : Stamp) - (advanceTo ({cyc := 0, bin := 0} : Stamp).cyc (mk (hEth fun p => {p with state := .slave, reqStamp := some 5, pathOk := true})).toHub).drxFu 47) 0 none).pathOk = true) ∧
    (((mk (hEth fun p => {p with state := .slave, reqStamp := some 5, pathOk := true})).hier.ptp[47]).p2p = false) := by decide +kernel

end GroupCases

namespace HalvesCases
def hc (f : Comp → Comp) : Hub := base.onComp fun c => f { c with
  tasks := (Vector.finRange 126).map fun (t : Fin 126) => { c.tasks[t] with state := .running, cls := 1, reed := some ⟨t.val, by omega⟩ }
  reeds := (Vector.finRange 192).map fun (n : Fin 192) => { c.reeds[n] with state := if n.val < 126 then .running else .free, task := if h : n.val < 126 then some ⟨n.val, h⟩ else none } }
def he (f : Comp → Comp) : Hub := base.onComp fun c => f { c with
  tasks := c.tasks, reeds := c.reeds.map fun r => { r with state := .free } }
def dOff (s force : Nat) := desc 0xA0 [(0, s), (9, force)]
def dOn (s : Nat) := desc 0xA0 [(0, s), (8, 1)]
def jb (x : Side) (b : Bool) : HalfJob := { half := x, on := b, desc := some 0 }
def boot2 (f : Hub → Hub := id) (c : Option Side := none) : Hub := f ((he fun c => { c with aState := .booting, bState := .booting }).onComp fun x => { x with charge := c })
def img1 (h : Hub) : Hub := h.onShim fun x => { x with mem := memWriteN x.mem (stateWordAt .a) [1,0,0,0] }
def rv : Reservation := { core := .reed 191, granule := 77 }

/-- The hypotheses of HalvesAndWardens are met. -/
theorem test_meets_HalvesAndWardens (h : Obligations.HalvesAndWardens) :
    (∃ t, exec (Instr.halfPowerOff (.ring 0)) (serving (dOff 1 0) (he id)) = .next t) ∧
    (∃ t, exec (Instr.halfPowerOn (.ring 0)) (serving (dOn 1) (he fun c => {c with bPower := .off, bState := .off})) = .next t) ∧
    (∃ t, exec Instr.halfPowerOffDone (serving (dOff 1 0) (he fun c => {c with job := some (jb .b false)})) = .next t) ∧
    (∃ t, exec Instr.halfPowerOnDone (serving (dOn 1) (he fun c => {c with job := some (jb .b true), bPower := .starting, bState := .booting})) = .next t) ∧
    (∃ t, exec (Instr.halfLost .a) (serving (dOff 1 0) (he id)) = .next t) ∧
    (∃ t, exec (Instr.wardenHeartbeatTimeout false) (serving (dOff 1 0) (he id)) = .next t) ∧
    (∃ t, exec (Instr.chargeClaim (.b == Side.a) (.b == Side.b)) (serving (dOff 1 0) (he id)) = .next t) ∧
    (∃ t, exec Instr.splitCharge (serving (dOff 1 0) (he id)) = .next t) ∧
    (∃ t, exec (Instr.chargeClaim Bool.true Bool.true) (mk (boot2)) = .next t) ∧
    (∃ t, exec (Instr.wardenRelease .b) (mk (img1 (he fun c => {c with bState := .held}))) = .next t) ∧
    (∃ t, exec (Instr.reservationAgeTimeout (.reed 191)) (mk (he fun c => {c with resv := [{rv with core := .reed 0}, rv, {rv with core := .warden .a}]})) = .next t) :=
  ⟨((h.1.1 (.ring 0) (dOff 1 0) (serving (dOff 1 0) (he id)) _ (serves_of (by decide +kernel)) (by decide +kernel) (Option.eq_some_of_isSome (by decide +kernel)) (by decide +kernel)).1 (by decide +kernel) (by decide +kernel) (by decide +kernel) (by decide +kernel)).imp fun _ x => x.1,
    ((h.1.1 (.ring 0) (dOn 1) (serving (dOn 1) (he fun c => {c with bPower := .off, bState := .off})) _ (serves_of (by decide +kernel)) (by decide +kernel) (Option.eq_some_of_isSome (by decide +kernel)) (by decide +kernel)).2 (by decide +kernel) (by decide +kernel)).imp fun _ x => x.1,
    ((h.1.2.1 (serving (dOff 1 0) (he fun c => {c with job := some (jb .b false)})) _ (by decide +kernel) (Option.eq_some_of_isSome (by decide +kernel))).1 (by decide +kernel) (by decide +kernel) (by decide +kernel)).imp fun _ x => x.1,
    ((h.1.2.1 (serving (dOn 1) (he fun c => {c with job := some (jb .b true), bPower := .starting, bState := .booting})) _ (by decide +kernel) (Option.eq_some_of_isSome (by decide +kernel))).2 (by decide +kernel) (by decide +kernel)).imp fun _ x => x.1,
    (h.1.2.2 (serving (dOff 1 0) (he id)) .a (by decide +kernel) (by decide +kernel)).imp fun _ x => x.1,
    ((h.2.1 (serving (dOff 1 0) (he id)) (by decide +kernel)).1 _ false (Option.eq_some_of_isSome (by decide +kernel)) (by decide +kernel) (by decide +kernel)).imp fun _ x => x.1,
    (((h.2.1 (serving (dOff 1 0) (he id)) (by decide +kernel)).2).1 .b (by decide +kernel) (by decide +kernel) (by decide +kernel)).imp fun _ x => x.1,
    (((((h.2.1 (serving (dOff 1 0) (he id)) (by decide +kernel)).2).2).2).2 _ _ (fun x => by cases x <;> decide +kernel) (by decide +kernel) rfl rfl).imp fun _ x => x.1,
    by refine ((((h.2.1 (mk (boot2)) ?_).2).2).1 _ ?_ rfl ?_ ?_ ?_ ?_ ?_).imp fun _ x => x.1 <;> decide +kernel,
    (((((h.2.1 (mk (img1 (he fun c => {c with bState := .held}))) (by decide +kernel)).2).2).2).1 .b (by decide +kernel) (by decide +kernel) (by decide +kernel) (by decide +kernel)).imp fun _ x => x.1,
    (h.2.2 (mk (he fun c => {c with resv := [{rv with core := .reed 0}, rv, {rv with core := .warden .a}]})) (.reed 191) _ (by decide +kernel) (by decide +kernel) (Option.eq_some_of_isSome (by decide +kernel))).imp fun _ x => x.1⟩
/-- The cases of HalvesAndWardens are met. -/
theorem test_cases_HalvesAndWardens :
    ((dOn 1) ∈ (serving (dOn 1) (he fun c => {c with job := some (jb .b true), bPower := .starting, bState := .booting})).host.inflight) ∧
    ((serving (dOff 1 0) (he id)).inMode Mode.service = true) ∧
    ((serving (dOff 1 0) (he id)).comp.charge ≠ none) ∧
    ((mk (boot2)).comp.charge = none) ∧
    ((serving (dOff 1 0) (he id)).tasksOn .b = []) ∧
    ((he fun c => {c with job := some (jb .b false)}).comp.charge ≠ some .b) ∧
    ((he fun c => {c with job := some (jb .a false)}).comp.charge = some .a) ∧
    ((he id).comp.warden (otherSide .a) = WardenState.shadow) ∧
    ((he fun c => {c with bPower := .off, bState := .off}).comp.warden (otherSide .a) ≠ WardenState.shadow) := by decide +kernel

end HalvesCases

namespace HostCases
def dNop := desc 1 []
def dTime := desc 2 [(0, 15)]
def sNop := serving dNop base
def sTime := serving dTime base
def wNop : DescWord := 1
def sBase := mk base
def sFast := mk { base with host := { base.host with cmd := Vector.replicate 16 { state := .enabled, prod := 1, fast := true } } }
def sDrain := mk { base with host := { base.host with cmd := Vector.replicate 16 { state := .draining, prod := 1 }, str := Vector.replicate 64 { unsignalled := 1 }, cpl := Vector.replicate 16 { state := .enabled, unsignalled := 1 } } }
def sNotReady := mk { base with host := { base.host with ready := false } }

/-- The hypotheses of HostDescriptorsFetchedAndServed are met. -/
theorem test_meets_HostDescriptorsFetchedAndServed (h : Obligations.HostDescriptorsFetchedAndServed) :
    (∃ t, exec (Instr.nop (.ring 0)) sNop = .next t) ∧
    (∃ t, exec (Instr.readTime (.ring 0) 0) sTime = .next t) ∧
    (∃ t, exec (Instr.descriptorFetch 0 1) sNop = .next t) ∧
    (∃ t, exec (Instr.fastRingDescriptor 0 1 0) sFast = .next t) :=
  ⟨(h.1 (.ring 0) dNop sNop (serves_of (by decide +kernel)) (by decide +kernel)).imp fun _ x => x.1,
    (h.2.1 (.ring 0) dTime sTime 0 15 (serves_of (by decide +kernel)) (by decide +kernel) (by decide +kernel)).imp fun _ x => x.1,
    by refine (h.2.2.1 sNop 0 1 ?_ ?_ ?_ ?_ ?_ ?_).imp fun _ x => x.1 <;> decide +kernel,
    by refine (h.2.2.2 sFast 0 1 0 ?_ ?_ ?_ ?_ ?_).imp fun _ x => x.1 <;> decide +kernel⟩
/-- The cases of HostDescriptorsFetchedAndServed are met. -/
theorem test_cases_HostDescriptorsFetchedAndServed :
    (dwOpcode 1 = 1) := by decide +kernel
/-- The hypotheses of DoorbellsMoveIndexes are met. -/
theorem test_meets_DoorbellsMoveIndexes (h : Obligations.DoorbellsMoveIndexes) :
    (∃ t, exec (Instr.consumerDoorbell (RingId.cpl 0) 0) sBase = .next t) ∧
    (∃ t, exec (Instr.commandDoorbell 0 1 0) sBase = .next t) ∧
    (∃ t, exec (Instr.commandDoorbell 0 0 0) sBase = .next t) :=
  ⟨((h.1 sBase 0 (by decide +kernel)).2 (RingId.cpl 0) (by decide +kernel) (by decide +kernel) (by decide +kernel)).imp fun _ x => x.1,
    ((h.1 sBase 1 (by decide +kernel)).1 0 0 (by decide +kernel) (by decide +kernel)).imp fun _ x => x.1,
    (h.2 sBase 0 0 (by decide +kernel) (by decide +kernel) (by decide +kernel)).imp fun _ x => x.1⟩
/-- The cases of DoorbellsMoveIndexes are met. -/
theorem test_cases_DoorbellsMoveIndexes :
    ((RingId.cmd 0) ≠ (RingId.cpl 0)) ∧
    ((2 : Reg).extractLsb' 0 16 ≠ sBase.host.cmd[0].prod) := by decide +kernel
/-- The hypotheses of RingsAndEndpoint are met. -/
theorem test_meets_RingsAndEndpoint (h : Obligations.RingsAndEndpoint) :
    (∃ t, exec (Instr.descriptorReadError 0 (sBase.host.cmd[0].entryAddr sBase.host.cmd[0].cons 64) false) sBase = .next t) ∧
    (∃ t, exec (Instr.commandRingDrained 0) sDrain = .next t) ∧
    (∃ t, exec (Instr.coalesceTimeout (RingId.cpl 0)) sDrain = .next t) ∧
    (∃ t, exec (Instr.msixUnmask 0) sBase = .next t) ∧
    (∃ t, exec (Instr.endpointReset .perst) sBase = .next t) ∧
    (∃ t, exec Instr.endpointReady sNotReady = .next t) :=
  ⟨(h.1 sBase 0 _ false (by decide +kernel) (by decide +kernel) rfl (by decide +kernel)).imp fun _ x => x.1,
    (h.2.1 sDrain 0 (by decide +kernel) (by decide +kernel) (by decide +kernel)).imp fun _ x => x.1,
    (h.2.2.1 sDrain (RingId.cpl 0) sDrain.toHub (by decide +kernel) (by decide +kernel) (by decide +kernel) (.inr ⟨by decide +kernel, rfl⟩)).imp fun _ x => x.1,
    (h.2.2.2.1 sBase 0 (by decide +kernel)).imp fun _ x => x.1,
    (h.2.2.2.2.1 sBase .perst (by decide +kernel) (by decide +kernel)).imp fun _ x => x.1,
    (h.2.2.2.2.2 sNotReady (by decide +kernel) (by decide +kernel)).imp fun _ x => x.1⟩

end HostCases

namespace LinksCases
def lkP (m : Nat) : List (Nat × Nat) := [(0, 47), (8, m), (32, 1), (64, 0x800000000000)]
def dLk (m : Nat) := desc 0x50 (lkP m)
def lkOn (m : Nat) (f : Link → Link) := base.onLink 47 fun x => f { x with cfg := payloadOf (lkP m), squelch := false, blockLock := true }
def dExt := desc 0x51 [(0, 47), (64, 655360000), (96, 3)]
def dLoop := desc 0x51 [(0, 47), (8, 1), (16, 1000)]
def dReb := desc 0x51 [(0, 47), (8, 2)]
def hLoop (n : Nat) := lkOn 1 fun x => { x with state := .aligning, loop := some (0, List.replicate n 1000000) }
def dLk2 := desc 0x50 ((64, 7) :: lkP 1)
def at1 (h : Hub) := h.onClk fun c => { c with ms := 1000 }
def hLoopZ (n : Nat) := lkOn 1 fun x => { x with state := .aligning, loop := some (0, List.replicate n (-1000000)) }
def lkT (f : Link → Link) := lkOn 1 fun x => f { x with state := .syntonised }
def fr (l : Bytes) (n : Nat) := withCrc ((l ++ List.replicate n 0).take (n - 4))
def tmark := fr [0x51, 3, 7, 0, 0, 0, 0, 0] 16
def techo := fr [0x52, 0, 5, 0, 0, 0, 0, 0] 16
def tod := fr [0x53, 1, 5, 0, 9, 0, 0, 0] 32
def stat := fr [0x55, 1, 5, 0, 9, 0, 3, 2] 32
def mg := fr [0x54, 1, 5, 0] 32
def st0 : Stamp := {cyc := 0, bin := 0}
def st7 : Stamp := {cyc := 7, bin := 255}
def lineBad : Line := lineOf 0 (tmark.dropLast ++ [0])
def tx0 : MgmtTx := { dst := 1, src := 2, id := 3, segs := [[1,2],[3]], sent := 0, high := 0, acked := 0 }
def lkM (f : Link → Link) := base.onLink 47 fun x => f { x with cfg := payloadOf (lkP 1 ++ [(11,1)]), squelch := false, blockLock := true, state := .timed, credit := 4096, ackSeg := 0xFFFF }
def seg (id k fl : Nat) := withCrc ([0x54, BitVec.ofNat 8 fl, 0, 1, 1,0,2,0] ++ leBytes 2 id ++ leBytes 2 k ++ leBytes 2 0xFFFF ++ [0, 0] ++ List.replicate 256 3 ++ [0,0,0,0])
def f63 := base.flt
def lkS (st : LinkState) (f : Link → Link) (m := 1) := base.onLink 47 fun x => f { x with cfg := payloadOf (lkP m ++ [(11,1)]), squelch := false, blockLock := true, state := st }

/-- The hypotheses of LinkSettings are met. -/
theorem test_meets_LinkSettings (h : Obligations.LinkSettings) :
    (∃ t, exec (Instr.linkConfig (.ring 0)) (serving (dLk 0) (lkOn 1 fun x => {x with state := .ranging})) = .next t) ∧
    (∃ t, exec (Instr.linkCalSetExt (.ring 0)) (serving dExt (lkOn 1 id)) = .next t) ∧
    (∃ t, exec (Instr.linkCalLoopback (.ring 0)) (serving dLoop (lkOn 1 id)) = .next t) ∧
    (∃ t, exec (Instr.linkCalRebase (.ring 0)) (serving dReb (lkOn 1 id)) = .next t) ∧
    (∃ t, exec (Instr.loopbackComplete 47) (serving dLoop (at1 (hLoop 999))) = .next t) ∧
    (∃ t, exec (Instr.loopbackComplete 47) (serving dLoop (at1 (hLoop 1000))) = .next t) ∧
    (∃ t, exec (Instr.loopbackComplete 47) (serving dLoop (at1 (hLoopZ 1000))) = .next t) :=
  ⟨(h.1 (.ring 0) (dLk 0) (serving (dLk 0) (lkOn 1 fun x => {x with state := .ranging})) 47 (serves_of (by decide +kernel)) (by decide +kernel) (by decide +kernel) (by decide +kernel)).imp fun _ x => x.1,
    ((h.2.1 (.ring 0) dExt (serving dExt (lkOn 1 id)) 47 (serves_of (by decide +kernel)) (by decide +kernel) (by decide +kernel) (by decide +kernel)).1 (by decide +kernel)).imp fun _ x => x.1,
    (((h.2.1 (.ring 0) dLoop (serving dLoop (lkOn 1 id)) 47 (serves_of (by decide +kernel)) (by decide +kernel) (by decide +kernel) (by decide +kernel)).2).1 (by decide +kernel) (by decide +kernel) (by decide +kernel) (by decide +kernel)).imp fun _ x => x.1,
    (((h.2.1 (.ring 0) dReb (serving dReb (lkOn 1 id)) 47 (serves_of (by decide +kernel)) (by decide +kernel) (by decide +kernel) (by decide +kernel)).2).2 (by decide +kernel)).imp fun _ x => x.1,
    ((h.2.2 (serving dLoop (at1 (hLoop 999))) 47 dLoop 0 _ _ _ (by decide +kernel) (by decide +kernel) (by unfold Hub.idsOk; decide +kernel) (by decide +kernel) (by decide +kernel) (by decide +kernel) rfl (by decide +kernel) rfl rfl).1 (by decide +kernel)).imp fun _ x => x.1,
    (((h.2.2 (serving dLoop (at1 (hLoop 1000))) 47 dLoop 0 _ _ _ (by decide +kernel) (by decide +kernel) (by unfold Hub.idsOk; decide +kernel) (by decide +kernel) (by decide +kernel) (by decide +kernel) rfl (by decide +kernel) rfl rfl).2).2 (by decide +kernel) (by decide +kernel)).imp fun _ x => x.1,
    (((h.2.2 (serving dLoop (at1 (hLoopZ 1000))) 47 dLoop 0 _ _ _ (by decide +kernel) (by decide +kernel) (by unfold Hub.idsOk; decide +kernel) (by decide +kernel) (by decide +kernel) (by decide +kernel) rfl (by decide +kernel) rfl rfl).2).1 (by decide +kernel) (by decide +kernel)).imp fun _ x => x.1⟩
/-- The cases of LinkSettings are met. -/
theorem test_cases_LinkSettings :
    ((serving (dLk 0) (lkOn 1 fun x => {x with state := .ranging})).links[47].mode = pf (dLk 0).payload 1 0 3 ∨ (serving (dLk 0) (lkOn 1 fun x => {x with state := .ranging})).links[47].mode ≠ 0) ∧
    ((serving (dLk 0) (lkOn 1 fun x => {x with state := .ranging})).links[47].mode ≠ pf (dLk 0).payload 1 0 3) ∧
    ((serving (dLk 0) (lkOn 1 fun x => {x with state := .ranging})).links[47].held = false) ∧
    ((serving (dLk 1) (lkOn 1 fun x => {x with state := .timed})).links[47].mode = pf (dLk 1).payload 1 0 3) ∧
    ((serving (dLk 1) (lkOn 1 fun x => {x with state := .timed})).links[47].state = LinkState.timed) ∧
    ((serving (dLk 1) (lkOn 1 fun x => {x with state := .timed})).links[47].state ≠ LinkState.timed ∨ (serving (dLk 1) (lkOn 1 fun x => {x with state := .timed})).links[47].alpha = pf (dLk 1).payload 8 0 48) ∧
    ((serving dLk2 (lkOn 1 fun x => {x with state := .timed})).links[47].alpha ≠ pf dLk2.payload 8 0 48) := by decide +kernel
/-- The hypotheses of TimingFrames are met. -/
theorem test_meets_TimingFrames (h : Obligations.TimingFrames) :
    (∃ t, exec (Instr.tmarkSend 47 st0) (mk (lkT id)) = .next t) ∧
    (∃ t, exec (Instr.techoSend 47 st0) (mk (lkT fun x => {x with prevMark := some (-1000*655360000), echoDue := [(9, -2001*65536), (3,4)]})) = .next t) ∧
    (∃ t, exec (Instr.statFrameSend 47) (mk (lkT fun x => {x with statDue := true})) = .next t) ∧
    (∃ t, exec (Instr.tmarkReceived 47 (lineOf 0 tmark) st0) (mk (lkT id)) = .next t) ∧
    (∃ t, exec (Instr.todFrameReceived 47 (lineOf 0 tod)) (mk (lkT id)) = .next t) ∧
    (∃ t, exec (Instr.statFrameReceived 47 (lineOf 0 stat)) (mk (lkT id)) = .next t) ∧
    (∃ t, exec (Instr.techoReceived 47 (lineOf 5 techo) st0) (mk (lkT fun x => {x with departs := [(5, -1000)]})) = .next t) ∧
    (∃ t, exec (.tmarkReceived 47 (lineOf 0 tod) st0) (mk (lkT id)) = .next t) ∧
    (∃ t, exec (.tmarkReceived 47 lineBad st0) (mk (lkT id)) = .next t) :=
  ⟨((h.1 (mk (lkT id)) 47 st0 _ _ _ (by decide +kernel) (by decide +kernel) rfl rfl (by decide +kernel) (by decide +kernel)).1 rfl (by decide +kernel) (by decide +kernel) (by decide +kernel)).imp fun _ x => x.1,
    ((h.1 (mk (lkT fun x => {x with prevMark := some (-1000*655360000), echoDue := [(9, -2001*65536), (3,4)]})) 47 st0 _ 0 _ (by decide +kernel) (by decide +kernel) rfl rfl (by decide +kernel) (by decide +kernel)).2 _ _ _ rfl (by decide +kernel)).imp fun _ x => x.1,
    (h.2.1 (mk (lkT fun x => {x with statDue := true})) 47 (by decide +kernel) (by decide +kernel) (by decide +kernel) (by decide +kernel)).imp fun _ x => x.1,
    ((h.2.2.2.1 (mk (lkT id)) 47 (lineOf 0 tmark) _ st0 _ (by decide +kernel) rfl (Option.eq_some_of_isSome (by decide +kernel)) (by decide +kernel)).1 (by decide +kernel)).imp fun _ x => x.1,
    ((((h.2.2.2.1 (mk (lkT id)) 47 (lineOf 0 tod) _ st0 _ (by decide +kernel) rfl (Option.eq_some_of_isSome (by decide +kernel)) (by decide +kernel)).2).2).1 (by decide +kernel)).imp fun _ x => x.1,
    ((((h.2.2.2.1 (mk (lkT id)) 47 (lineOf 0 stat) _ st0 _ (by decide +kernel) rfl (Option.eq_some_of_isSome (by decide +kernel)) (by decide +kernel)).2).2).2 (by decide +kernel)).imp fun _ x => x.1,
    (((h.2.2.2.1 (mk (lkT fun x => {x with departs := [(5, -1000)]})) 47 (lineOf 5 techo) _ st0 _ (by decide +kernel) rfl (Option.eq_some_of_isSome (by decide +kernel)) (by decide +kernel)).2).1 _ _ (by decide +kernel) (by decide +kernel) (by decide +kernel) (Option.eq_some_of_isSome (by decide +kernel)) rfl (by decide +kernel) (by decide +kernel)).imp fun _ x => x.1,
    ((h.2.2.2.2 (mk (lkT id)) 47 (lineOf 0 tod) st0 (.tmarkReceived 47 (lineOf 0 tod) st0) 81 (by decide +kernel) (by decide +kernel)).2 _ (Option.eq_some_of_isSome (by decide +kernel)) (by decide +kernel) (by decide +kernel)).imp fun _ x => x.1,
    ((h.2.2.2.2 (mk (lkT id)) 47 lineBad st0 (.tmarkReceived 47 lineBad st0) 81 (by decide +kernel) (by decide +kernel)).1 (by decide +kernel)).imp fun _ x => x.1⟩
/-- The cases of TimingFrames are met. -/
theorem test_cases_TimingFrames :
    ((mk (lkT fun x => {x with prevMark := some (-1000*655360000), echoDue := [(9, -2001*65536), (3,4)]})).links[47].prevEcho = none) := by decide +kernel
set_option maxRecDepth 20000 in
/-- The hypotheses of ManagementSegments are met. -/
theorem test_meets_ManagementSegments (h : Obligations.ManagementSegments) :
    (∃ t, exec (Instr.mgmtSegmentSend 47) (mk (lkM fun x => {x with tx := [tx0]})) = .next t) ∧
    (∃ t, exec (Instr.mgmtResendTimeout 47) (mk ((lkM fun x => {x with tx := [{tx0 with sent := 1, high := 2}], rx := some (1,2,3,[[1]])}).onClk fun c => { c with cycles := 150000000 })) = .next t) ∧
    (∃ t, exec (Instr.mgmtMessageTimeout 47) (mk ((lkM fun x => {x with tx := [{tx0 with sent := 1, high := 2}], rx := some (1,2,3,[[1]])}).onClk fun c => { c with cycles := 150000000 })) = .next t) ∧
    (∃ t, exec (Instr.mgmtSegmentReceived 47 (lineOf 0 (seg 3 0 1))) (mk (lkM id)) = .next t) ∧
    (∃ t, exec (Instr.mgmtSegmentReceived 47 (lineOf 0 (seg 3 1 0))) (mk (lkM fun x => {x with ackMsg := 3, ackSeg := 0, rx := some (1, 2, 3, [[1]])})) = .next t) :=
  ⟨by refine (h.1 (mk (lkM fun x => {x with tx := [tx0]})) 47 _ _ ?_ rfl ?_ ?_ ?_ ?_ ?_ ?_ ?_).imp fun _ x => x.1 <;> decide +kernel,
    (h.2.1 (mk ((lkM fun x => {x with tx := [{tx0 with sent := 1, high := 2}], rx := some (1,2,3,[[1]])}).onClk fun c => { c with cycles := 150000000 })) 47 _ (by decide +kernel) (by decide +kernel) (by decide +kernel) (Option.eq_some_of_isSome (by decide +kernel))).imp fun _ x => x.1,
    (h.2.2.1 (mk ((lkM fun x => {x with tx := [{tx0 with sent := 1, high := 2}], rx := some (1,2,3,[[1]])}).onClk fun c => { c with cycles := 150000000 })) 47 _ (by decide +kernel) (by decide +kernel) (Option.eq_some_of_isSome (by decide +kernel))).imp fun _ x => x.1,
    by refine ((h.2.2.2 (mk (lkM id)) 47 (lineOf 0 (seg 3 0 1)) _ _ ?_ (Option.eq_some_of_isSome ?_) ?_ ?_ ?_ rfl).1 ?_ ?_ ?_ ?_ ?_).imp fun _ x => x.1 <;> decide +kernel,
    by refine (((h.2.2.2 (mk (lkM fun x => {x with ackMsg := 3, ackSeg := 0, rx := some (1, 2, 3, [[1]])})) 47 (lineOf 0 (seg 3 1 0)) _ _ ?_ (Option.eq_some_of_isSome ?_) ?_ ?_ ?_ rfl).2).1 _ ?_ ?_ ?_ ?_ ?_ ?_ (Option.eq_some_of_isSome ?_)).imp fun _ x => x.1 <;> decide +kernel⟩
/-- The hypotheses of LinkStates are met. -/
theorem test_meets_LinkStates (h : Obligations.LinkStates) :
    (∃ t, exec (Instr.receiverSignalDetected 47) (mk (lkS .down fun x => {x with blockLock := false, modAbs := false, los := false})) = .next t) ∧
    (∃ t, exec (Instr.blockLock 47) (mk (lkS .aligning id)) = .next t) ∧
    (∃ t, exec (.receiverSignalLost 47) (mk (lkS .aligning id)) = .next t) ∧
    (∃ t, exec (.blockLockLost 47) (mk (lkS .timed id)) = .next t) ∧
    (∃ t, exec (.marksMissingTimeout 47) (mk (lkS .timed id)) = .next t) ∧
    (∃ t, exec (Instr.echoMissing 47) (mk (lkS .timed fun x => {x with windowed := true, missRun := 62, rtPred := some 5, departs := [(7, -2000000)]})) = .next t) ∧
    (∃ t, exec (Instr.sbxScan 0 0) (mk (lkS .down fun x => {x with blockLock := false, modAbs := false, los := false})) = .next t) ∧
    (∃ t, exec (Instr.i2cModulePoll 0 0 (Option.some (List.replicate 256 7))) (mk (lkS .down fun x => {x with blockLock := false, modAbs := false, los := false})) = .next t) ∧
    (∃ t, exec (Instr.i2cModulePoll 0 1 (Option.some (List.replicate 256 7))) (mk (lkS .down fun x => {x with blockLock := false, modAbs := false, los := false})) = .next t) ∧
    (∃ t, exec (Instr.i2cModulePoll 0 0 Option.none) (mk (lkS .down fun x => {x with blockLock := false, modAbs := false, los := false})) = .next t) :=
  ⟨((h.1 (mk (lkS .down fun x => {x with blockLock := false, modAbs := false, los := false})) 47 (by decide +kernel)).1 (by decide +kernel) (by decide +kernel) (by decide +kernel)).imp fun _ x => x.1,
    (((h.1 (mk (lkS .aligning id)) 47 (by decide +kernel)).2).1 (by decide +kernel)).imp fun _ x => x.1,
    (((h.1 (mk (lkS .aligning id)) 47 (by decide +kernel)).2).2 (.receiverSignalLost 47) .down 1 (by decide +kernel) (by decide +kernel)).imp fun _ x => x.1,
    (((h.1 (mk (lkS .timed id)) 47 (by decide +kernel)).2).2 (.blockLockLost 47) .aligning 2 (by decide +kernel) (by decide +kernel)).imp fun _ x => x.1,
    (((h.1 (mk (lkS .timed id)) 47 (by decide +kernel)).2).2 (.marksMissingTimeout 47) .aligning 3 (by decide +kernel) (by decide +kernel)).imp fun _ x => x.1,
    (h.2.1 (mk (lkS .timed fun x => {x with windowed := true, missRun := 62, rtPred := some 5, departs := [(7, -2000000)]})) 47 _ _ _ _ (by decide +kernel) (by decide +kernel) (by decide +kernel) (by decide +kernel) (Option.eq_some_of_isSome (by decide +kernel)) rfl (Option.eq_some_of_isSome (by decide +kernel))).imp fun _ x => x.1,
    (h.2.2.1 (mk (lkS .down fun x => {x with blockLock := false, modAbs := false, los := false})) 0 0 0 0 (by decide +kernel) (by decide +kernel)).imp fun _ x => x.1,
    ((h.2.2.2 (mk (lkS .down fun x => {x with blockLock := false, modAbs := false, los := false})) 0 (by decide +kernel) (by decide +kernel)).1 (List.replicate 256 7)).imp fun _ x => x.1,
    (((h.2.2.2 (mk (lkS .down fun x => {x with blockLock := false, modAbs := false, los := false})) 0 (by decide +kernel) (by decide +kernel)).2).1 (List.replicate 256 7)).imp fun _ x => x.1,
    (((h.2.2.2 (mk (lkS .down fun x => {x with blockLock := false, modAbs := false, los := false})) 0 (by decide +kernel) (by decide +kernel)).2).2 0).imp fun _ x => x.1⟩
/-- The cases of LinkStates are met. -/
theorem test_cases_LinkStates :
    ((mk (lkS .aligning id)).links[47].eth = false) ∧
    ((mk (lkS .aligning id)).links[47].goodMarks < 1000) ∧
    ((mk (lkS .aligning id 2)).links[47].eth = true) ∧
    ((mk (lkS .timed id)).links[47].state = LinkState.timed) ∧
    ((mk (lkS .timed id)).flt.queue.length < 64) ∧
    ((mk (lkS .timed fun x => {x with windowed := true, missRun := 62, rtPred := some 5, departs := [(7, -2000000)]})).links[47].missRun < 63) ∧
    (63 ≤ (mk (lkS .timed fun x => {x with windowed := true, missRun := 63, rtPred := some 5, departs := [(7, -20000000)]})).links[47].missRun) ∧
    ((mk (lkS .timed fun x => {x with windowed := true, missRun := 63, rtPred := some 5, departs := [(7, -20000000)]})).links[47].state = LinkState.timed) := by decide +kernel

end LinksCases

namespace MbxCases
def st (h : Hub) := mk h

def rg (f : Ring → Ring) (h : Hub := base) := (((h.onRing (.cmd 0) f).onRing (.cpl 0) f).onRing (.str 63) f).onRing (.tel 3) f
def mx (f : Mbx → Mbx) := { base with mbx := base.mbx.map f }

/-- The hypotheses of Mailboxes are met. -/
theorem test_meets_Mailboxes (h : Obligations.Mailboxes) :
    (∃ t, exec (Instr.mbxReq .host 0) (st base) = .next t) ∧
    (∃ t, exec (Instr.mbxData3Read .host 0) (st base) = .next t) ∧
    (∃ t, exec (Instr.mbxReq Master.host 1) (st base) = .next t) ∧
    (∃ t, exec (Instr.mbxData3Read Master.host 1) (st base) = .next t) ∧
    (∃ t, exec (Instr.mbxSnapshotValid 0) (st (mx fun m => {m with req := some (0x50, 0)})) = .next t) :=
  ⟨((h (st base) .host 0).1 (by decide +kernel) (by decide +kernel)).imp fun _ x => x.1,
    ((((h (st base) .host 0).2).2).2 (by decide +kernel) (by decide +kernel)).imp fun _ x => x.1,
    ((((h (st base) .host 1).2).1 (by decide +kernel) (by decide +kernel)).1).imp fun _ x => x.1,
    ((((h (st base) .host 1).2).1 (by decide +kernel) (by decide +kernel)).2).imp fun _ x => x.1,
    ((((h (st (mx fun m => {m with req := some (0x50, 0)})) .host 0).2).2).1 0x50 0 (by decide +kernel) (by decide +kernel)).imp fun _ x => x.1⟩

end MbxCases

namespace MonsCases
def placed (h : Hub) : Hub := h.onComp fun c => { c with tasks := (Vector.finRange 126).map fun (t : Fin 126) => { c.tasks[t] with state := .running, reed := some ⟨t.val, by omega⟩ } }
def mP (q : Nat) : List (Nat × Nat) := [(15, 1), (11, 1), (16, q), (64, 1), (96, 10), (192, 5), (256, 100)]
def mo (f : Mon → Mon) (q := 4) := (placed base).onMon 31 fun x => f {x with cfg := payloadOf (mP q), enabled := true}
def dm0 (v : Int) (h : Hub) := h.onDom 0 fun d => {d with ep := v * 10^6, lastUpdate := some 3}
def aMax : Acc := {min := -5, max := 5, count := 2^32-1, sum := 9, bins := Vector.replicate 64 (2^32-1)}
def dMc := desc 0x80 ((0, 31) :: mP 4)
def dMcBad := desc 0x80 ((0, 31) :: (32,16) :: mP 4)
def dSn := desc 0x81 [(0, 31), (64, 64)]
def dSnR := desc 0x81 [(0, 31), (9, 1), (64, 0)]
def dSnL := desc 0x81 [(0, 31), (8, 1), (64, 64)]
def hW := (dm0 3 (mo id)).onDom 0 fun d => { d with secs := 0, sub := secU/1000 - 1 }

/-- The hypotheses of MonitorsSample are met. -/
theorem test_meets_MonitorsSample (h : Obligations.MonitorsSample) :
    (∃ t, exec (Instr.monSample 31) (mk (dm0 0 (mo id))) = .next t) :=
  (h (mk (dm0 0 (mo id))) 31 _ rfl (by decide +kernel) (by decide +kernel) _ _ (Option.eq_some_of_isSome (by decide +kernel)) (by decide +kernel) (Option.eq_some_of_isSome (by decide +kernel)) (by decide +kernel)).imp fun _ ⟨_, x⟩ => x.1
/-- The cases of MonitorsSample are met. -/
theorem test_cases_MonitorsSample :
    (((mk (dm0 0 (mo id))).mons.unit[31]).acc.count = 0) ∧
    (((mk (dm0 0 (mo id))).mons.unit[31]).acc.count < 2 ^ 32 - 1) ∧
    (((mk (dm0 0 (mo id))).mons.unit[31]).limEn = true) ∧
    (0 < ((mk (dm0 7 (mo fun x => {x with acc := {x.acc with count := 1, min := -5, max := 2, sum := 2^63-2}}))).mons.unit[31]).acc.count) ∧
    (((mk (dm0 700 (mo fun x => {x with acc := aMax}))).mons.unit[31]).acc.count = 2 ^ 32 - 1) ∧
    ((dm0 0 (mo id)).monValue 4 0 = some 0) ∧
    ((0 : Int) < (mo id).mons.unit[(31 : Fin 32)].limitLo) ∧
    ((dm0 7 (mo id)).monValue 4 0 = some 7) ∧
    ((2 : Int) ^ 63 ≤ 2 ^ 63 - 2 + 7) ∧
    ((-2 : Int) ^ 63 + (-7) < -2 ^ 63) ∧
    ((mo id).mons.unit[(31 : Fin 32)].limitLo ≤ 7) ∧
    ((7 : Int) ≤ (mo id).mons.unit[(31 : Fin 32)].limitHi) := by decide +kernel
/-- The hypotheses of MonitorCommands are met. -/
theorem test_meets_MonitorCommands (h : Obligations.MonitorCommands) :
    (∃ t, exec (Instr.monConfig (.ring 0)) (serving dMc (mo id)) = .next t) ∧
    (∃ t, exec (Instr.monConfig (.ring 0)) (serving dMcBad (mo id)) = .next t) ∧
    (∃ t, exec (Instr.monSnapshot (.ring 0)) (serving dSn (mo fun x => {x with acc := aMax})) = .next t) ∧
    (∃ t, exec (Instr.monWindowClose 31) (serving dMc (mo id)) = .next t) :=
  ⟨((h.1 (.ring 0) dMc (serving dMc (mo id)) 31 _ (serves_of (by decide +kernel)) (by decide +kernel) rfl).1 (by decide +kernel) (by decide +kernel) (by decide +kernel) (by decide +kernel)).imp fun _ x => x.1,
    (((h.1 (.ring 0) dMcBad (serving dMcBad (mo id)) 31 _ (serves_of (by decide +kernel)) (by decide +kernel) rfl).2).1 (by decide +kernel) (by decide +kernel)).imp fun _ x => x.1,
    (((h.1 (.ring 0) dSn (serving dSn (mo fun x => {x with acc := aMax})) 31 _ (serves_of (by decide +kernel)) (by decide +kernel) rfl).2).2 (by decide +kernel) (by decide +kernel) (by decide +kernel) (by decide +kernel)).imp fun _ ⟨_, x⟩ => x.1,
    (h.2 (serving dMc (mo id)) 31 _ rfl (by decide +kernel) (by decide +kernel) _ (by decide +kernel) (Option.eq_some_of_isSome (by decide +kernel))).imp fun _ x => x.1⟩
/-- The cases of MonitorCommands are met. -/
theorem test_cases_MonitorCommands :
    (BitVec.extractLsb' 64 64 dSn.payload ≠ 0) ∧
    (pb dSn.payload 1 1 = false) ∧
    (pb dSnR.payload 1 1 = true) := by decide +kernel
/-- The hypotheses of TicksTurn are met. -/
theorem test_meets_TicksTurn (h : Obligations.TicksTurn) :
    (∃ t, exec (Instr.tick1ms ({ temps := [], vin := 12000, heater := 1, dev := 0, relPhase := 0, relFreq := 0 })) (mk base) = .next t) ∧
    (∃ t, exec Instr.tick1s (mk (base.onClk fun c => {c with secDue := true})) = .next t) :=
  ⟨(h.1 (mk base) ({ temps := [], vin := 12000, heater := 1, dev := 0, relPhase := 0, relFreq := 0 }) (by decide +kernel) (by decide +kernel) (by decide +kernel) (by decide +kernel)).imp fun _ x => x.1,
    (h.2.2.2 (mk (base.onClk fun c => {c with secDue := true})) (by decide +kernel) (by decide +kernel) (by decide +kernel)).imp fun _ x => x.1⟩

end MonsCases

namespace OutputsCases
def outP : List (Nat × Nat) := [(0, 95), (12, 1), (32, 149)]
def dOutOn := desc 0x30 ((15, 1) :: outP)
def dOutOff := desc 0x30 outP
def hOutOn := base.onOut 95 fun x => { x with enabled := true, cfg := payloadOf outP }
def hOutP (t : Int) (b : Bool) := base.onOut 95 fun x => { x with cfg := payloadOf outP, pend := some { desc := 0, enable := b, boundary := t, late := false } }
def plsP : List (Nat × Nat) := [(0, 63), (15, 1), (64, 65536000), (128, 6553600)]
def dPls := desc 0x31 plsP
def dPls2 := desc 0x31 ((64, 65536001) :: plsP.eraseIdx 2)
def plsOn (f : Pls → Pls) := base.onPls 63 fun x => f { x with cfg := payloadOf plsP, run := payloadOf plsP, enabled := true, pin := .low }
def hAct := plsOn fun x => { x with active := true, lastEnd := some 0, left := 3 }
def hActP := plsOn fun x => { x with active := true, pend := [(3, 5, 6)] }
def hTrain := plsOn id
def hTrainB := plsOn fun x => { x with lastEnd := some 0, lastStart := some (-5), active := true }
def hTrainC := base.onPls 63 fun x => { x with run := payloadOf ((32, 4) :: plsP), enabled := true, pin := .low, active := true, lastEnd := some 0 }
def anP (m : Nat) : List (Nat × Nat) := [(0, 63), (8, m), (32, 5), (16, 9)]
def dOnce := desc 0x32 (anP 0)
def dTrack := desc 0x32 (anP 1)
def dStop := desc 0x32 (anP 2)
def hOnce := plsOn fun x => { x with anchor := .once, anchorCfg := payloadOf (anP 0), anchorDesc := some 0 }
def hTrack := plsOn fun x => { x with anchor := .track, anchorCfg := payloadOf ((64, 7) :: anP 1), anchorDesc := some 0 }
def hPlaced := plsOn fun x => { x with anchor := .track, anchorCfg := payloadOf ((64, 7) :: anP 1), placed := true, rho := 5, anchorLost := true }
def hPlacedW (w : Nat) := plsOn fun x => { x with anchor := .track, anchorCfg := payloadOf ((64, 7) :: (128,w) :: anP 1), placed := true, rho := 5, slope := 3 }
def hEv5 (h : Hub) := h.onEvt 9 fun c => { c with cfg := payloadOf [(0, 9), (8, 1)], enabled := true }

/-- The hypotheses of OutputsConfigured are met. -/
theorem test_meets_OutputsConfigured (h : Obligations.OutputsConfigured) :
    (∃ t, exec (Instr.outputConfig (.ring 0)) (serving dOutOn base) = .next t) ∧
    (∃ t, exec (Instr.outputBoundary 95) (serving dOutOn (hOutP 0 true)) = .next t) ∧
    (∃ t, exec (Instr.pulseConfig (.ring 0)) (serving dPls base) = .next t) :=
  ⟨(h.1 (.ring 0) dOutOn (serving dOutOn base) 95 (serves_of (by decide +kernel)) (by decide +kernel) (by decide +kernel) (by decide +kernel) (by decide +kernel)).imp fun _ x => x.1,
    (h.2.1 (serving dOutOn (hOutP 0 true)) 95 _ _ (by decide +kernel) (Option.eq_some_of_isSome (by decide +kernel)) (Option.eq_some_of_isSome (by decide +kernel))).imp fun _ x => x.1,
    (h.2.2 (.ring 0) dPls (serving dPls base) 63 _ (serves_of (by decide +kernel)) (by decide +kernel) (by decide +kernel) (by decide +kernel) rfl).imp fun _ x => x.1⟩
/-- The cases of OutputsConfigured are met. -/
theorem test_cases_OutputsConfigured :
    ((serving dOutOn base).outs[95].enabled ≠ pb dOutOn.payload 1 7) ∧
    ((serving dOutOn hOutOn).outs[95].enabled = pb dOutOn.payload 1 7) ∧
    (dOutOn ∈ (serving dOutOn (hOutP 0 true)).host.inflight) ∧
    (((serving dPls base).plss[63].active && (plsWaits (serving dPls base).plss[63].run (pbytes dPls.payload 40) || !(serving dPls base).plss[63].pend.isEmpty)) = false) ∧
    (((serving dPls2 hAct).plss[63].active && (plsWaits (serving dPls2 hAct).plss[63].run (pbytes dPls2.payload 40) || !(serving dPls2 hAct).plss[63].pend.isEmpty)) = true) ∧
    (dOutOn.id = 0) := by decide +kernel
/-- The hypotheses of PulseTrainRuns are met. -/
theorem test_meets_PulseTrainRuns (h : Obligations.PulseTrainRuns) :
    (∃ t, exec (Instr.pulseGridInstant 63) (mk hTrain) = .next t) ∧
    (∃ t, exec (Instr.pulseEnd 63) (mk hTrainB) = .next t) :=
  ⟨(((h (mk hTrain) 63 (by decide +kernel)).2).1 _ (by decide +kernel) (by decide +kernel) (Option.eq_some_of_isSome (by decide +kernel))).imp fun _ x => x.1,
    (((h (mk hTrainB) 63 (by decide +kernel)).2).2 _ (by decide +kernel) (by decide +kernel) (Option.eq_some_of_isSome (by decide +kernel))).imp fun _ x => x.1⟩
/-- The cases of PulseTrainRuns are met. -/
theorem test_cases_PulseTrainRuns :
    ((mk hTrain).plss[63].blocked (mk hTrain).plss[63].next = false) ∧
    ((mk hTrain).plss[63].pin ≠ PlsPin.hiZ) ∧
    ((mk hTrainB).plss[63].blocked (mk hTrainB).plss[63].next = true) ∧
    ((mk hTrainB).plss[63].pin ≠ PlsPin.hiZ) ∧
    (plsCount (mk hTrainB).plss[63].run = 0 ∨ (mk hTrainB).plss[63].left ≠ 0) ∧
    (plsCount (mk hTrainC).plss[63].run ≠ 0) ∧
    ((mk hTrainC).plss[63].left = 0) := by decide +kernel
/-- The residual of an anchor edge at the start of the run. -/
def errAt (h : Hub) : Int :=
  let e := (h.anchorStamp 63 true { cyc := 0, bin := 0 }).getD 0
  (rdiv ((h.plss[(63 : Fin 64)].gridNear (e * fuU) - (e + anchorOffset h.plss[(63 : Fin 64)].anchorCfg) * fuU) * 10 ^ 6) fuU).natAbs
/-- The hypotheses of PulseAnchors are met. -/
theorem test_meets_PulseAnchors (h : Obligations.PulseAnchors) :
    (∃ t, exec (.pulseAnchorOnce o0) (serving dOnce (plsOn id)) = .next t) ∧
    (∃ t, exec (.pulseAnchorTrack o0) (serving dTrack (plsOn id)) = .next t) ∧
    (∃ t, exec (Instr.pulseAnchorStop (.ring 0)) (serving dStop base) = .next t) ∧
    (∃ t, exec (Instr.pulseAnchorEdge 63 true ({cyc := 0, bin := 0})) (serving dOnce hOnce) = .next t) ∧
    (∃ t, exec (Instr.anchorLostTimeout 63) (mk (hTrack.onClk fun c => { c with cycles := 20000000000 })) = .next t) ∧
    (∃ t, exec (Instr.anchorOnceTimeout 63) (serving dOnce (hOnce.onClk fun c => { c with cycles := 20000000000 })) = .next t) :=
  ⟨((h.1 (.ring 0) dOnce (serving dOnce (plsOn id)) 63 (serves_of (by decide +kernel)) (by decide +kernel) (by decide +kernel) (by decide +kernel)).1 (.pulseAnchorOnce o0) .once (by decide +kernel)).imp fun _ x => x.1,
    ((h.1 (.ring 0) dTrack (serving dTrack (plsOn id)) 63 (serves_of (by decide +kernel)) (by decide +kernel) (by decide +kernel) (by decide +kernel)).1 (.pulseAnchorTrack o0) .track (by decide +kernel)).imp fun _ x => x.1,
    ((h.1 (.ring 0) dStop (serving dStop base) 63 (serves_of (by decide +kernel)) (by decide +kernel) (by decide +kernel) (by decide +kernel)).2 (by decide +kernel) (by decide +kernel)).imp fun _ x => x.1,
    ((h.2 (serving dOnce hOnce) 63 (by decide +kernel)).1 true ({cyc := 0, bin := 0}) _ _ _ _ rfl (by decide +kernel) (by decide +kernel) (by decide +kernel) (Option.eq_some_of_isSome (by decide +kernel)) (Option.eq_some_of_isSome (by decide +kernel)) rfl).imp fun _ x => x.1,
    (((h.2 (mk (hTrack.onClk fun c => { c with cycles := 20000000000 })) 63 (by decide +kernel)).2).1 _ (by decide +kernel) (by decide +kernel) (by decide +kernel) (Option.eq_some_of_isSome (by decide +kernel))).imp fun _ x => x.1,
    (((h.2 (serving dOnce (hOnce.onClk fun c => { c with cycles := 20000000000 })) 63 (by decide +kernel)).2).2 _ (by decide +kernel) (Option.eq_some_of_isSome (by decide +kernel))).imp fun _ x => x.1⟩
/-- The cases of PulseAnchors are met. -/
theorem test_cases_PulseAnchors :
    ((serving dOnce hOnce).plss[63].placed = false) ∧
    ((serving dOnce hOnce).plss[63].anchorDesc = some dOnce.id) ∧
    (dOnce ∈ (serving dOnce hOnce).host.inflight) ∧
    ((mk hPlaced).plss[63].placed = true) ∧
    ((if anchorWindow (mk hPlaced).plss[63].anchorCfg = 0 then ↑(plsPeriod (mk hPlaced).plss[63].run) * 500000 else ↑(anchorWindow (mk hPlaced).plss[63].anchorCfg) * 10 ^ 6) = if anchorWindow (mk hPlaced).plss[63].anchorCfg = 0 then ↑(plsPeriod (mk hPlaced).plss[63].run) * 500000 else ↑(anchorWindow (mk hPlaced).plss[63].anchorCfg) * 10 ^ 6) ∧
    ((mk hPlaced).isSafe = false) ∧
    ((serving dOnce (hOnce.onClk fun c => { c with cycles := 20000000000 })).plss[63].anchorDesc = some dOnce.id) ∧
    (dOnce ∈ (serving dOnce (hOnce.onClk fun c => { c with cycles := 20000000000 })).host.inflight) ∧
    (errAt hPlaced ≤ (plsPeriod hPlaced.plss[(63 : Fin 64)].run : Int) * 500000) ∧
    (anchorWindow hPlaced.plss[(63 : Fin 64)].anchorCfg = 0) := by decide +kernel

end OutputsCases

namespace PeatCases
def dRd := desc 0x70 [(0, 0x200010), (32, 33), (64, 64)]
def dPt := desc 0x72 [(0, 8191), (16, 1), (64, 64)]
def hM (f : Shim → Shim) := base.onShim fun x => f { x with mem := memWriteN (memWriteN x.mem 0x200010 [1,2,3]) 0x37FFC0 [7,8] }
def dArm := desc 0x73 [(0, 0), (64, 5)]
def dCom := desc 0x73 [(0, 1), (64, 5)]
def hCom := (hM fun x => {x with mem := memWriteN x.mem 0x300010 [4,5]}).onFlt fun f => { f with armed := some (o0, 5, 0, false), ffCount := 64, ffFull := true }
def dCom2 := desc 0x73 [(0, 1), (64, 5), (128, hCom.zoneCrc)]
def hsq (k : Kind) := (hM id).onFlt fun f => { f with queue := [stamped 0x310 k], fatal := some (stamped 0x310 k), sev := f.sev.map fun _ => 0x44444444, head := 8191, ffCount := 64 }

/-- The hypotheses of PeatRecord are met. -/
theorem test_meets_PeatRecord (h : Obligations.PeatRecord) :
    (∃ t, exec (Instr.peatArchiveArm (.ring 0)) (serving dArm (hM id)) = .next t) ∧
    (∃ t, exec (Instr.peatArchiveCommit (.ring 0)) (serving dCom hCom) = .next t) ∧
    (∃ t, exec .faultMessage (serving dArm (hM id)) = .next t) ∧
    (∃ t, exec .fatalDump (serving dArm (hM id)) = .next t) ∧
    (∃ t, exec (.fltSafeAck .host 0) (serving dArm (hM id)) = .next t) ∧
    (∃ t, exec (.fltSafeAck .debug 1) (serving dArm (hM id)) = .next t) ∧
    (∃ t, exec (.peatArchiveCommit o0) (serving dArm (hM id)) = .next t) :=
  ⟨((h.1 (.ring 0) dArm (serving dArm (hM id)) (serves_of (by decide +kernel)) (by decide +kernel)).1 (by decide +kernel)).imp fun _ ⟨_, x⟩ => x.1,
    ((h.1 (.ring 0) dCom (serving dCom hCom) (serves_of (by decide +kernel)) (by decide +kernel)).2 (by decide +kernel)).imp fun _ x => x.1,
    (h.2 (serving dArm (hM id)) .faultMessage (by decide +kernel) (by decide +kernel) (.inl rfl)).imp fun _ x => x.1,
    (h.2 (serving dArm (hM id)) .fatalDump (by decide +kernel) (by decide +kernel) (.inr (.inl rfl))).imp fun _ x => x.1,
    (h.2 (serving dArm (hM id)) (.fltSafeAck .host 0) (by decide +kernel) (by decide +kernel) (.inr (.inr (.inl ⟨_, _, rfl⟩)))).imp fun _ x => x.1,
    (h.2 (serving dArm (hM id)) (.fltSafeAck .debug 1) (by decide +kernel) (by decide +kernel) (.inr (.inr (.inl ⟨_, _, rfl⟩)))).imp fun _ x => x.1,
    (h.2 (serving dArm (hM id)) (.peatArchiveCommit o0) (by decide +kernel) (by decide +kernel) (.inr (.inr (.inr ⟨_, rfl⟩)))).imp fun _ x => x.1⟩
set_option maxRecDepth 20000 in
/-- The cases of PeatRecord are met. -/
theorem test_cases_PeatRecord :
    ((serving dCom hCom).archiveOk dCom = false) ∧
    ((serving dCom2 hCom).archiveOk dCom2 = true) ∧
    (64 ≤ (serving dCom2 hCom).flt.head) ∧
    (0x300000 ≤ 0x300000 ∧ 0x300000 < 0x301000) := by decide +kernel

end PeatCases

namespace ReadsCases
def dRd := desc 0x70 [(0, 0x200010), (32, 33), (64, 64)]
def dPt := desc 0x72 [(0, 8191), (16, 1), (64, 64)]
def hM (f : Shim → Shim) := base.onShim fun x => f { x with mem := memWriteN (memWriteN x.mem 0x200010 [1,2,3]) 0x37FFC0 [7,8] }

/-- The hypotheses of StoreReads are met. -/
theorem test_meets_StoreReads (h : Obligations.StoreReads) :
    (∃ t, exec (.shimRead o0) (serving dRd (hM id)) = .next t) ∧
    (∃ t, exec (.peatRead o0) (serving dPt (hM id)) = .next t) :=
  ⟨(h (.ring 0) dRd (serving dRd (hM id)) 2097168 33 (serves_of (by decide +kernel)) (.shimRead o0) (by decide +kernel)).imp fun _ x => x.1,
    (h (.ring 0) dPt (serving dPt (hM id)) 3669952 64 (serves_of (by decide +kernel)) (.peatRead o0) (by decide +kernel)).imp fun _ x => x.1⟩
/-- The cases of StoreReads are met. -/
theorem test_cases_StoreReads :
    (∀ g ∈ groupsOf 2097168 33, (serving dRd (hM id)).shim.damageOf g = GroupErr.clean ∧ g ∉ (serving dRd (hM id)).shim.poison) ∧
    (∃ g ∈ groupsOf 2097168 33, g ∈ (serving dRd (hM fun x => {x with poison := [0x20002]})).shim.poison) ∧
    (∀ g ∈ groupsOf 3669952 64, (serving dPt (hM id)).shim.damageOf g = GroupErr.clean ∧ g ∉ (serving dPt (hM id)).shim.poison) ∧
    (∃ g ∈ groupsOf 3669952 64, g ∈ (serving dPt (hM fun x => {x with poison := [0x37FFC]})).shim.poison) := by decide +kernel

end ReadsCases

namespace RefsCases
def placed (h : Hub) : Hub := h.onComp fun c => { c with tasks := c.tasks.map fun t => { t with state := .running } }
def pb_ := placed base
def ppsP : List (Nat × Nat) := [(13, 1), (12, 1), (80, 16), (96, 1)]
def dRef := desc 0x20 ((0, 3) :: ppsP)
def dRefOff := desc 0x20 ((0, 3) :: [(13, 1), (80, 16), (96, 1)])
def dRefFront := desc 0x20 ((0, 3) :: (17, 1) :: ppsP)
def dPrio := desc 0x21 [(0, 15), (16, 1000), (32, 1000)]
def refOn (fmt : Nat) (f : RefSlot → RefSlot) := pb_.onRef 3 fun r => f { r with cfg := payloadOf [(13, fmt), (12, 1), (80, 16), (96, 1)] }
def hRefOn := refOn 1 id
def hQual := refOn 1 fun r => { r with state := .qualified, lastOn := some (-2000*msFu) }
def hQing := refOn 1 fun r => { r with state := .qualifying, k := 1000 }
def hDis := refOn 1 fun r => { r with state := .disqualified, hist := [some (1, true)] }
def hPulse := refOn 1 fun r => { r with state := .qualified, lastPulse := some 0, ahead := some 0 }
def hPulseB := refOn 1 fun r => { r with state := .qualified, lastPulse := some (-2^46), ahead := some 1 }
def hPulseF := refOn 1 fun r => { r with state := .qualified, lastPulse := some (2^60), ahead := some 0 }
def hTod := refOn 3 fun r => { r with state := .qualified, lastOn := some (-100*msFu), pulses := [(9, 8)] }
def hTodNext := base.onRef 3 fun r => { r with state := .qualified, lastOn := some (-100*msFu), cfg := payloadOf [(13, 3), (12, 1), (80, 16), (96, 1), (9, 1)] }
def hIrig := refOn 4 fun r => { r with state := .qualified }
def zda : Bytes := "$GPZDA,235959.00,31,12,2016,00,00*63\r\n".toList.map fun c => BitVec.ofNat 8 c.toNat
def zdaBad : Bytes := "$GPZDA,235959.00,31,12,2016,00,00*6E\r\n".toList.map fun c => BitVec.ofNat 8 c.toNat
def irigW : List Nat := (List.range 100).map fun k => (if k = 0 || k % 10 = 9 then 80 else 20) * 6553600000
def hSam := refOn 1 fun r => { r with state := .qualifying }
def hSamP := refOn 1 fun r => { r with state := .qualifying, pulses := [(70, 0), (9,8)] }
def hSamC := refOn 1 fun r => { r with state := .qualifying, closed := [([], none)] }
def hSamD := refOn 1 fun r => { r with state := .qualifying, closed := [([(70, 0)], none)] }


def dOut := desc 0x30 [(0, 3), (12, 1), (32, 149)]
def hOut := base.onOut 2 fun x => { x with enabled := true }

/-- The hypotheses of ReferenceSlots are met. -/
theorem test_meets_ReferenceSlots (h : Obligations.ReferenceSlots) :
    (∃ t, exec (Instr.refConfig (.ring 0)) (serving dRef pb_) = .next t) ∧
    (∃ t, exec (Instr.refPriority (.ring 0)) (serving dPrio pb_) = .next t) ∧
    (∃ t, exec (Instr.refLossDetected 3) (serving dRef hQual) = .next t) ∧
    (∃ t, exec (Instr.qualifyTimerExpiry 3) (mk hQing) = .next t) ∧
    (∃ t, exec (Instr.requalifyTimerExpiry 3) (mk hDis) = .next t) :=
  ⟨((h.1 (.ring 0) dRef (serving dRef pb_) (serves_of (by decide +kernel))).1 3 (by decide +kernel) (by decide +kernel) (by decide +kernel)).imp fun _ x => x.1,
    by refine ((h.1 (.ring 0) dPrio (serving dPrio pb_) (serves_of ?_)).2 15 ?_ ?_ ?_ ?_ ?_).imp fun _ x => x.1 <;> decide +kernel,
    ((h.2 (serving dRef hQual) 3 (by decide +kernel)).1 _ (by decide +kernel) (by decide +kernel) (by decide +kernel) (by decide +kernel) (Option.eq_some_of_isSome (by decide +kernel))).imp fun _ x => x.1,
    by refine (((h.2 (mk hQing) 3 ?_).2).1 ?_ ?_ ?_ ?_ ?_).imp fun _ x => x.1 <;> decide +kernel,
    (((h.2 (mk hDis) 3 (by decide +kernel)).2).2 (by decide +kernel) (by decide +kernel) (by decide +kernel)).imp fun _ x => x.1⟩
/-- The cases of ReferenceSlots are met. -/
theorem test_cases_ReferenceSlots :
    ((serving dRef hRefOn).refs[3].enabled = true ∨ pb dRef.payload 1 4 = false) ∧
    ((serving dRef hRefOn).refs[3].enabled = true) ∧
    (pb dRef.payload 1 4 = true) ∧
    (3 < 8) ∧
    ((serving dRef hRefOn).refs[3].enabled = pb dRef.payload 1 4) ∧
    ((serving dRef hRefOn).refs[3].state = SlotState.absent) ∧
    (dRef.id ∉ (serving dRef hRefOn).refs[3].blankDesc) ∧
    (3 < 8 → refFront dRef.payload = refFront (serving dRef hRefOn).refs[3].cfg) ∧
    ((serving dRef hQual).refs[3].state ≠ SlotState.absent) ∧
    (refKeys dRef.payload = refKeys (serving dRef hQual).refs[3].cfg) ∧
    (refLimits dRef.payload ≠ refLimits (serving dRef hQual).refs[3].set_) ∧
    (pb dRefOff.payload 1 4 = false) ∧
    (refFront dRefFront.payload ≠ refFront (serving dRefFront hQual).refs[3].cfg) := by decide +kernel
/-- The hypotheses of ReferencePulsesAndLabels are met. -/
theorem test_meets_ReferencePulsesAndLabels (h : Obligations.ReferencePulsesAndLabels) :
    (∃ t, exec (Instr.refPulseEdge 3 ({cyc := 0, bin := 0}) 0) (mk hPulse) = .next t) ∧
    (∃ t, exec (Instr.todSentence 0 zda 0) (mk hTod) = .next t) ∧
    (∃ t, exec (Instr.todSentence 0 zdaBad 0) (mk hTod) = .next t) ∧
    (∃ t, exec (Instr.irigFrame 3 ({cyc := 0, bin := 0}) []) (mk hIrig) = .next t) :=
  ⟨by refine (h.1 (mk hPulse) 3 ({cyc := 0, bin := 0}) 0 _ _ _ rfl ?_ rfl ?_ ?_ ?_ ?_ ?_ rfl).imp fun _ x => x.1 <;> decide +kernel,
    ((h.2.1 (mk hTod) 0 zda 0 _ _ (by decide +kernel) (Option.eq_some_of_isSome (by decide +kernel)) rfl (by decide +kernel) (by decide +kernel)).2 _ _ (Option.eq_some_of_isSome (by decide +kernel)) (Option.eq_some_of_isSome (by decide +kernel)) (by decide +kernel) (by decide +kernel)).imp fun _ x => x.1,
    ((h.2.1 (mk hTod) 0 zdaBad 0 _ _ (by decide +kernel) (Option.eq_some_of_isSome (by decide +kernel)) rfl (by decide +kernel) (by decide +kernel)).1 (by decide +kernel)).imp fun _ x => x.1,
    by refine (h.2.2 (mk hIrig) 3 ({cyc := 0, bin := 0}) [] _ _ _ rfl ?_ rfl ?_ ?_ ?_ ?_ ?_ rfl).imp fun _ x => x.1 <;> decide +kernel⟩
/-- The cases of ReferencePulsesAndLabels are met. -/
theorem test_cases_ReferencePulsesAndLabels :
    (widthOk (mk hPulse).refs[(slotOf 3)].format 0 = false) ∧
    (widthOk (mk hPulse).refs[(slotOf 3)].format 1310720 = true) ∧
    ((mk hPulse).refs[(slotOf 3)].state ≠ SlotState.absent) ∧
    ((mk hPulseB).refs[(slotOf 3)].voided = false) ∧
    ((mk hPulseB).refs[(slotOf 3)].cntMiss < 4294967295) ∧
    (irigFrame? [] = none) ∧
    ((mk hPulse).refs[slotOf 3].prediction = some 0) ∧
    ((((mk hPulse).refStamp 3 {cyc := 0, bin := 0}) - 0).natAbs ≤ usFu) ∧
    ((mk hPulseF).refs[slotOf 3].prediction = some (2 ^ 60)) ∧
    ((mk hPulseF).refStamp 3 {cyc := 0, bin := 0} < 2 ^ 60 - usFu) := by decide +kernel
/-- The hypotheses of SampleEntersHistory are met. -/
theorem test_meets_SampleEntersHistory (h : Obligations.SampleEntersHistory) :
    (∃ t, exec (Instr.refqSample 3 []) (mk hSamC) = .next t) :=
  by refine (h.1 (mk hSamC) 3 _ _ _ ?_ ?_ ?_ ?_ ?_ rfl ?_).imp fun _ x => x.1 <;> decide +kernel
/-- The cases of SampleEntersHistory are met. -/
theorem test_cases_SampleEntersHistory :
    ((mk hSamD).refs[(3 : Fin 12)].closed = [([(70, 0)], none)]) := by decide +kernel
/-- The hypotheses of SettingsRefused are met. -/
theorem test_meets_SettingsRefused (h : Obligations.SettingsRefused) :
    (∃ t, exec (Instr.refPriority (.ring 0)) (serving (desc 0x21 [(0,16),(16,0),(32,1)]) pb_) = .next t) ∧
    (∃ t, exec (Instr.outputConfig (.ring 0)) (serving dOut base) = .next t) ∧
    (∃ t, exec (Instr.outputConfig (.ring 0)) (serving dOut hOut) = .next t) :=
  ⟨(h.1 (.ring 0) (desc 0x21 [(0,16),(16,0),(32,1)]) (serving (desc 0x21 [(0,16),(16,0),(32,1)]) pb_) (serves_of (by decide +kernel)) (by decide +kernel) (by decide +kernel)).imp fun _ x => x.1,
    ((h.2 (.ring 0) dOut (serving dOut base) 3 (serves_of (by decide +kernel)) (by decide +kernel) (by decide +kernel) (by decide +kernel)).2 (by decide +kernel)).imp fun _ x => x.1,
    ((h.2 (.ring 0) dOut (serving dOut hOut) 3 (serves_of (by decide +kernel)) (by decide +kernel) (by decide +kernel) (by decide +kernel)).1 (by decide +kernel)).imp fun _ x => x.1⟩

end RefsCases

namespace RegsCases
def st (h : Hub) := mk h

/-- The hypotheses of RegistersWritten are met. -/
theorem test_meets_RegistersWritten (h : Obligations.RegistersWritten) :
    (∃ t, exec (Instr.registerWrite .host 0 (20480 + 4 * 0) 4 0) (st base) = .next t) ∧
    (∃ t, exec (Instr.registerWrite .host 0 16436 4 0) (st base) = .next t) ∧
    (∃ t, exec (Instr.registerWrite .host 0 112928 4 0) (st base) = .next t) ∧
    (∃ t, exec (Instr.registerWrite .host 0 4224 4 0) (st base) = .next t) ∧
    (∃ t, exec (Instr.registerWrite .host 0 (12288 + 64 * 0) 4 0) (st base) = .next t) ∧
    (∃ t, exec (Instr.registerWrite .host 0 (10240 + 4 * 0) 4 0) (st base) = .next t) ∧
    (∃ t, exec (Instr.registerWrite .host 0 0 0 0) (st base) = .next t) ∧
    (∃ t, exec (Instr.aliasWrite .host (4194304 + 32 * 112928 + 4 * 0) 0) (st base) = .next t) :=
  ⟨((h.1 (st base) .host 0 (by decide +kernel)).1 0).imp fun _ x => x.1,
    (((h.1 (st base) .host 0 (by decide +kernel)).2).1).imp fun _ x => x.1,
    ((((h.1 (st base) .host 0 (by decide +kernel)).2).2).1).imp fun _ x => x.1,
    (((((h.1 (st base) .host 0 (by decide +kernel)).2).2).2).1).imp fun _ x => x.1,
    ((((((h.1 (st base) .host 0 (by decide +kernel)).2).2).2).2).1 0 (by decide +kernel)).imp fun _ x => x.1,
    (((((((h.1 (st base) .host 0 (by decide +kernel)).2).2).2).2).2).1 0).imp fun _ x => x.1,
    (((((((h.1 (st base) .host 0 (by decide +kernel)).2).2).2).2).2).2 0 0 (by decide +kernel)).imp fun _ x => x.1,
    ((h.2 (st base) 0).2 .host 0 (by decide +kernel)).imp fun _ x => x.1⟩

end RegsCases

namespace ResetCases
def st (h : Hub) := mk h

def rg (f : Ring → Ring) (h : Hub := base) := (((h.onRing (.cmd 0) f).onRing (.cpl 0) f).onRing (.str 63) f).onRing (.tel 3) f
def mx (f : Mbx → Mbx) := { base with mbx := base.mbx.map f }
def cmdR (a : Nat) : Reg := BitVec.ofNat 32 a
def cmdW (a : Nat) : Reg := BitVec.ofNat 32 (a + 2^31)
def ld (f : Shim → Shim) := (base.onShim fun s => f {s with loader := true})
def keyed (m : Master) (c : Nat) (f : Shim → Shim := id) := (base.onTop fun t => {t with resetKey := some (m, c)}).onShim f

/-- The hypotheses of HubResetValues are met. -/
theorem test_meets_HubResetValues (h : Obligations.HubResetValues) :
    (∃ t, exec (Instr.topResetWrite .host 50085 (st (keyed .host 0)).clk.pos) (st (keyed .host 0)) = .next t) :=
  (h (st (keyed .host 0)) .host 0 50085 (by decide +kernel) (by decide +kernel) (by decide +kernel) (by decide +kernel)).imp fun _ x => x.1

end ResetCases

namespace RingsCases
def st (h : Hub) := mk h

def rg (f : Ring → Ring) (h : Hub := base) := (((h.onRing (.cmd 0) f).onRing (.cpl 0) f).onRing (.str 63) f).onRing (.tel 3) f

/-- The hypotheses of RingsEnabledAndDisabled are met. -/
theorem test_meets_RingsEnabledAndDisabled (h : Obligations.RingsEnabledAndDisabled) :
    (∃ t, exec (Instr.ringDisable .host (RingId.cmd 0) 6) (st base) = .next t) ∧
    (∃ t, exec (Instr.ringDisable .host (RingId.cpl 0) 0) (st base) = .next t) ∧
    (∃ t, exec (Instr.ringEnable .host (RingId.cmd 0) 0) (st (rg (fun r => {r with state := .disabled}))) = .next t) ∧
    (∃ t, exec (Instr.ringEnable .host (RingId.cmd 0) 305419782) (st (rg (fun r => {r with state := .disabled}))) = .next t) :=
  ⟨((((h (st base) .host (RingId.cmd 0) 6 (by decide +kernel) (by decide +kernel)).2).2).1 (by decide +kernel) (by decide +kernel) (by decide +kernel)).imp fun _ x => x.1,
    ((((h (st base) .host (RingId.cpl 0) 0 (by decide +kernel) (by decide +kernel)).2).2).2 (by decide +kernel) (by decide +kernel)).imp fun _ x => x.1,
    (((h (st (rg (fun r => {r with state := .disabled}))) .host (RingId.cmd 0) 0 (by decide +kernel) (by decide +kernel)).2).1 (by decide +kernel) (by decide +kernel)).imp fun _ x => x.1,
    ((h (st (rg (fun r => {r with state := .disabled}))) .host (RingId.cmd 0) 305419782 (by decide +kernel) (by decide +kernel)).1 (by decide +kernel) (by decide +kernel)).imp fun _ x => x.1⟩
/-- The cases of RingsEnabledAndDisabled are met. -/
theorem test_cases_RingsEnabledAndDisabled :
    ((RingId.cmd 15) ≠ (RingId.cmd 0)) ∧
    (.host = Master.host) ∧
    (.debug = Master.debug) := by decide +kernel

end RingsCases

namespace RootsCases
def hS (f : Shim → Shim) := base.onShim f
def prof (c : Nat) : List Host.Cell := memWriteN (memWriteN [] 0x2F0000 ([1,0,0,0, 9,0,0,0, 1,0,1])) 0x2F003C (leBytes 4 c)
def profCrc := crc32c (memReadN (prof 0) 0x2F0000 60 ++ memReadN (prof 0) 0x2F0040 64)
def due (f : Shim → Shim) := (hS f).onTop fun t => {t with profileDue := true}
def rt (f : Clk → Clk) := base.onClk f
def f64 := rt fun c => c
def hRt := rt fun c => {c with bState := .ready, relValid := true, relFreq := 77, relPhase := 5}
def q3 (h : Hub) := h.onRef 3 fun r => {r with state := .qualified, cfg := payloadOf [(13, 1), (12, 1), (80, 16), (96, 1)], k := 1, hist := [some (10^9, true), some (0, true)]}
def hJ (f : Clk → Clk) (h : Hub := hRt) := h.onClk fun c => f {c with jumpHeld := true, jumpStep := 10^9, jumpSlots := 8}
def ovn (f : Clk → Clk) := rt f

/-- The hypotheses of ScrubHoursProfiles are met. -/
theorem test_meets_ScrubHoursProfiles (h : Obligations.ScrubHoursProfiles) :
    (∃ t, exec (Instr.scrubGroupRead .clean) (mk base) = .next t) ∧
    (∃ t, exec (Instr.scrubGroupRead .correctable) (mk base) = .next t) ∧
    (∃ t, exec Instr.hourCounterTick (mk (hS fun x => {x with scrub := 0x3FFFE, hourMs := 3600000})) = .next t) ∧
    (∃ t, exec Instr.profileAutostart (mk (due id)) = .next t) :=
  ⟨by refine ((h.1 (mk base) .clean ?_ ?_ ?_ ?_ ?_).1 rfl ?_).imp fun _ x => x.1 <;> decide +kernel,
    by refine ((h.1 (mk base) .correctable ?_ ?_ ?_ ?_ ?_).2 rfl ?_).imp fun _ x => x.1 <;> decide +kernel,
    (h.2.1 (mk (hS fun x => {x with scrub := 0x3FFFE, hourMs := 3600000})) (by decide +kernel) (by decide +kernel)).imp fun _ x => x.1,
    (h.2.2 (mk (due id)) (by decide +kernel) (by decide +kernel) (by decide +kernel) (by decide +kernel)).imp fun _ x => x.1⟩
/-- The cases of ScrubHoursProfiles are met. -/
theorem test_cases_ScrubHoursProfiles :
    ((mk (due id)).shim.profBest = none) := by decide +kernel
/-- The hypotheses of RootsStartAndFault are met. -/
theorem test_meets_RootsStartAndFault (h : Obligations.RootsStartAndFault) :
    (∃ t, exec (Instr.rootLock ⟨.a, 0⟩) (mk (rt fun c => {c with aState := .locking, bState := .locking})) = .next t) ∧
    (∃ t, exec (Instr.rootLockTimeout .a) (mk (rt fun c => {c with aState := .locking, bState := .locking})) = .next t) ∧
    (∃ t, exec Instr.rootRelationValid (mk (rt fun c => {c with bState := .locking, bLocked := true})) = .next t) ∧
    (∃ t, exec (Instr.rootFaultDetected .a 0) (mk (rt fun c => {c with bState := .locking})) = .next t) :=
  ⟨(((h.1 (mk (rt fun c => {c with aState := .locking, bState := .locking})) .a (by decide +kernel) (by decide +kernel) (by decide +kernel)).1 (by decide +kernel)).1 0).imp fun _ x => x.1,
    (((h.1 (mk (rt fun c => {c with aState := .locking, bState := .locking})) .a (by decide +kernel) (by decide +kernel) (by decide +kernel)).1 (by decide +kernel)).2 (by decide +kernel)).imp fun _ x => x.1,
    ((h.1 (mk (rt fun c => {c with bState := .locking, bLocked := true})) .b (by decide +kernel) (by decide +kernel) (by decide +kernel)).2 (by decide +kernel) (by decide +kernel) rfl).imp fun _ x => x.1,
    by refine (h.2 (mk (rt fun c => {c with bState := .locking})) .a 0 ?_ ?_ ?_ ?_ ?_).imp fun _ x => x.1 <;> decide +kernel⟩
/-- The cases of RootsStartAndFault are met. -/
theorem test_cases_RootsStartAndFault :
    ((mk (rt fun c => {c with aState := .locking, bState := .locking})).rootActive = false) ∧
    ((mk (rt fun c => {c with bState := .locking})).rootActive = true) ∧
    ((mk ((rt fun c => {c with aState := .locking, bState := .locking}).onTop fun t => {t with mode := .boot})).inMode Mode.boot = true ∨ (mk ((rt fun c => {c with aState := .locking, bState := .locking}).onTop fun t => {t with mode := .boot})).shim.loader = true) ∧
    (.a = Side.a ∨ (mk ((rt fun c => {c with aState := .locking, bState := .locking}).onTop fun t => {t with mode := .boot})).clk.aState ≠ RootState.locking) ∧
    ((mk (rt fun c => {c with bState := .locking})).clk.root .a = RootState.active) ∧
    ((mk (rt fun c => {c with bState := .locking})).clk.root (otherSide .a) ≠ RootState.ready) ∧
    ((mk hRt).clk.root (otherSide .a) = RootState.ready) ∧
    ((mk hRt).clk.root .b = RootState.ready) := by decide +kernel
/-- The hypotheses of JumpsAttributed are met. -/
theorem test_meets_JumpsAttributed (h : Obligations.JumpsAttributed) :
    (∃ t, exec (Instr.rootXJump 1099511627776) (mk hRt) = .next t) ∧
    (∃ t, exec Instr.jumpAttributionTimeout (mk (hJ fun c => { c with ms := 2000 })) = .next t) ∧
    (∃ t, exec (Instr.jumpAttributed 3) (mk (hJ id (q3 hRt))) = .next t) :=
  ⟨((h (mk hRt) (by decide +kernel) (by decide +kernel) (by decide +kernel)).1 1099511627776 (by decide +kernel) (by decide +kernel) (by decide +kernel)).imp fun _ x => x.1,
    (((h (mk (hJ fun c => { c with ms := 2000 })) (by decide +kernel) (by decide +kernel) (by decide +kernel)).2 (by decide +kernel)).1 (by decide +kernel)).imp fun _ x => x.1,
    (((h (mk (hJ id (q3 hRt))) (by decide +kernel) (by decide +kernel) (by decide +kernel)).2 (by decide +kernel)).2 3 _ (by decide +kernel) (by decide +kernel) ⟨_, _, rfl⟩ rfl).imp fun _ x => x.1⟩
/-- The cases of JumpsAttributed are met. -/
theorem test_cases_JumpsAttributed :
    ((mk hRt).qualifiedMask = 0) ∧
    ((mk (q3 hRt)).qualifiedMask ≠ 0) ∧
    ((mk (hJ id (q3 hRt))).clk.jumpStep.natAbs ≤ 2 * (slopeY ((mk (hJ id (q3 hRt))).tau0 (mk (hJ id (q3 hRt))).refs[3]) (List.take 2 (mk (hJ id (q3 hRt))).refs[3].hist) - (mk (hJ id (q3 hRt))).clk.jumpY[3]).natAbs) ∧
    (2 * (slopeY ((mk (hJ (fun c => {c with jumpStep := 2^100}) (q3 hRt))).tau0 (mk (hJ (fun c => {c with jumpStep := 2^100}) (q3 hRt))).refs[3]) (List.take 2 (mk (hJ (fun c => {c with jumpStep := 2^100}) (q3 hRt))).refs[3].hist) - (mk (hJ (fun c => {c with jumpStep := 2^100}) (q3 hRt))).clk.jumpY[3]).natAbs < (mk (hJ (fun c => {c with jumpStep := 2^100}) (q3 hRt))).clk.jumpStep.natAbs) := by decide +kernel
/-- The hypotheses of OvenLaddersDeskew are met. -/
theorem test_meets_OvenLaddersDeskew (h : Obligations.OvenLaddersDeskew) :
    (∃ t, exec Instr.ovenBandEntry (mk base) = .next t) ∧
    (∃ t, exec Instr.ovenWarmupLimit (mk base) = .next t) ∧
    (∃ t, exec Instr.ovenBandExit (mk (ovn fun c => {c with inBand := true})) = .next t) ∧
    (∃ t, exec Instr.tbWarmRise (mk (ovn fun c => {c with inBand := true, bandSecs := 120})) = .next t) ∧
    (∃ t, exec (Instr.ladderLock 0) (mk base) = .next t) ∧
    (∃ t, exec (Instr.dllLock 0 0 1500000) (mk base) = .next t) ∧
    (∃ t, exec (Instr.dllLossOfLock 0 1099511627776 ⟨1499999, false⟩) (mk base) = .next t) ∧
    (∃ t, exec (Instr.ladderLossOfLock 0) (mk (ovn fun c => {c with inBand := true, warm := true, everWarm := true, ladders := 0xFF})) = .next t) :=
  ⟨((h.1 (mk base) (by decide +kernel)).1 (by decide +kernel)).imp fun _ x => x.1,
    ((((h.1 (mk base) (by decide +kernel)).2).2).2 (by decide +kernel) (by decide +kernel) (by decide +kernel) (by decide +kernel)).imp fun _ x => x.1,
    ((((h.1 (mk (ovn fun c => {c with inBand := true})) (by decide +kernel)).2).2).1 (by decide +kernel) (by decide +kernel)).imp fun _ x => x.1,
    (((h.1 (mk (ovn fun c => {c with inBand := true, bandSecs := 120})) (by decide +kernel)).2).1 (by decide +kernel) (by decide +kernel) (by decide +kernel)).imp fun _ x => x.1,
    ((h.2.1 (mk base) (by decide +kernel)).1 0 (by decide +kernel) (by decide +kernel)).imp fun _ x => x.1,
    by refine ((((h.2.1 (mk base) ?_).2).2).1 0 0 1500000 ?_ ?_ ?_ ?_ ?_).imp fun _ x => x.1 <;> decide +kernel,
    by refine ((((h.2.1 (mk base) ?_).2).2).2 0 1099511627776 1499999 false ?_ ?_ ?_ ?_ ?_).imp fun _ x => x.1 <;> decide +kernel,
    (((h.2.1 (mk (ovn fun c => {c with inBand := true, warm := true, everWarm := true, ladders := 0xFF})) (by decide +kernel)).2).1 0 (by decide +kernel) (by decide +kernel)).imp fun _ x => x.1⟩
/-- The cases of OvenLaddersDeskew are met. -/
theorem test_cases_OvenLaddersDeskew :
    ((mk (ovn fun c => {c with inBand := true})).clk.everWarm = false) ∧
    ((mk (ovn fun c => {c with inBand := true, warm := true, everWarm := true, ladders := 0xFF})).clk.warm = true) ∧
    ((mk (ovn fun c => {c with inBand := true, warm := true, everWarm := true, ladders := 0xFF})).clk.everWarm = true) := by decide +kernel

end RootsCases

namespace SpiCases
def st (h : Hub) := mk h

def rg (f : Ring → Ring) (h : Hub := base) := (((h.onRing (.cmd 0) f).onRing (.cpl 0) f).onRing (.str 63) f).onRing (.tel 3) f
def mx (f : Mbx → Mbx) := { base with mbx := base.mbx.map f }
def cmdR (a : Nat) : Reg := BitVec.ofNat 32 a
def cmdW (a : Nat) : Reg := BitVec.ofNat 32 (a + 2^31)

set_option maxRecDepth 2000 in
/-- The hypotheses of SpiTransactions are met. -/
theorem test_meets_SpiTransactions (h : Obligations.SpiTransactions) :
    (∃ t, exec (Instr.spiReadTransaction 16436 215 80) (st base) = .next t) ∧
    (∃ t, exec (Instr.spiReadTransaction 16436 52 39) (st base) = .next t) ∧
    (∃ t, exec (Instr.spiReadTransaction 16436 52 40) (st base) = .next t) ∧
    (∃ t, exec (Instr.spiWriteTransaction 2147500084 52 16436 52 39) (st base) = .next t) ∧
    (∃ t, exec (Instr.spiReadTransaction 12380 106 40) (st base) = .next t) :=
  ⟨(((h (st base) 16436 16436 215 52 80 (by decide +kernel)).1 (by decide +kernel)).1 _ _ rfl rfl rfl (by decide +kernel) (by decide +kernel) (Option.eq_some_of_isSome (by decide +kernel))).imp fun _ x => x.1,
    ((((h (st base) 16436 16436 52 52 39 (by decide +kernel)).1 (by decide +kernel)).2).1 (by decide +kernel)).imp fun _ x => x.1,
    (((((h (st base) 16436 16436 52 52 40 (by decide +kernel)).1 (by decide +kernel)).2).2).1 (by decide +kernel) (by decide +kernel)).imp fun _ x => x.1,
    (((h (st base) 2147500084 16436 52 52 39 (by decide +kernel)).2 (by decide +kernel)).2 (by decide +kernel)).imp fun _ x => x.1,
    (((((h (st base) 12380 16436 106 52 40 (by decide +kernel)).1 (by decide +kernel)).2).2).2 (by decide +kernel) rfl (by decide +kernel)).imp fun _ x => x.1⟩

end SpiCases

namespace SupplyCases
def md (m : Mode) (f : Top → Top := id) := base.onTop fun t => f {t with mode := m}

/-- The hypotheses of SupplyEnableStartUp are met. -/
theorem test_meets_SupplyEnableStartUp (h : Obligations.SupplyEnableStartUp) :
    (∃ t, exec (Instr.vinRise 5701) (mk (md .off)) = .next t) ∧
    (∃ t, exec (Instr.vinFall 5399) (mk base) = .next t) ∧
    (∃ t, exec Instr.enHigh (mk ((md .standby fun t => {t with en := false, fromThermal := true}).onPwr fun p => {p with vin := 5701})) = .next t) ∧
    (∃ t, exec Instr.enLow (mk base) = .next t) ∧
    (∃ t, exec Instr.railRetryTimeout (mk (md .boot fun t => {t with begun := false})) = .next t) ∧
    (∃ t, exec Instr.railRetryWaitExpiry (mk (md .boot fun t => {t with begun := false, railWait := true, railRetries := 15})) = .next t) ∧
    (∃ t, exec Instr.bootEnd (mk (md .boot)) = .next t) :=
  ⟨(h.1.1 (mk (md .off)) 5701 _ (by decide +kernel) (by decide +kernel) rfl).imp fun _ x => x.1,
    (h.1.2.1 (mk base) 5399 (by decide +kernel) (by decide +kernel)).imp fun _ x => x.1,
    (h.1.2.2.1 (mk ((md .standby fun t => {t with en := false, fromThermal := true}).onPwr fun p => {p with vin := 5701})) (by decide +kernel) (by decide +kernel)).imp fun _ x => x.1,
    (h.1.2.2.2 (mk base) (by decide +kernel) (by decide +kernel)).imp fun _ x => x.1,
    (h.2.1 (mk (md .boot fun t => {t with begun := false})) (by decide +kernel) (by decide +kernel) (by decide +kernel)).imp fun _ x => x.1,
    (h.2.2.1 (mk (md .boot fun t => {t with begun := false, railWait := true, railRetries := 15})) (by decide +kernel) (by decide +kernel)).imp fun _ x => x.1,
    (h.2.2.2 (mk (md .boot)) (by decide +kernel) (by decide +kernel) (by decide +kernel)).imp fun _ x => x.1⟩
/-- The cases of SupplyEnableStartUp are met. -/
theorem test_cases_SupplyEnableStartUp :
    ((mk (md .off)).top.en = true) ∧
    ((mk (md .off fun t => {t with en := false})).top.en = false) := by decide +kernel
/-- The hypotheses of SupplyAndThermalEvents are met. -/
theorem test_meets_SupplyAndThermalEvents (h : Obligations.SupplyAndThermalEvents) :
    (∃ t, exec (Instr.pfailAssert 5499) (mk base) = .next t) ∧
    (∃ t, exec (Instr.converterPhaseLost .a) (mk base) = .next t) ∧
    (∃ t, exec (Instr.vinOvervoltage 41001) (mk base) = .next t) ∧
    (∃ t, exec (Instr.converterPhaseRestored .a) (mk (base.onPwr fun p => {p with pfail := true, phaseA := false, warn := true})) = .next t) ∧
    (∃ t, exec (Instr.pfailDeassert 5601) (mk (base.onPwr fun p => {p with pfail := true, phaseA := false, warn := true})) = .next t) ∧
    (∃ t, exec (Instr.thermalWarn 0 1760) (mk base) = .next t) ∧
    (∃ t, exec (Instr.thermalWarnClear []) (mk (base.onPwr fun p => {p with pfail := true, phaseA := false, warn := true})) = .next t) ∧
    (∃ t, exec (Instr.thermalTrip 0 2000) (mk base) = .next t) ∧
    (∃ t, exec (Instr.thermalAutoRestart []) (mk ((md .thermalOff).onPwr fun p => {p with thermAuto := true})) = .next t) ∧
    (∃ t, exec (Instr.vddpBankMeasurement []) (mk base) = .next t) :=
  ⟨((h.1 (mk base) 5499 (by decide +kernel)).1 (by decide +kernel) (by decide +kernel)).imp fun _ x => x.1,
    (((((h.1 (mk base) 5499 (by decide +kernel)).2).1 (by decide +kernel)).2).2 .a (by decide +kernel)).imp fun _ ⟨_, x⟩ => x.1,
    (((((h.1 (mk base) 41001 (by decide +kernel)).2).1 (by decide +kernel)).2).1 (by decide +kernel) (by decide +kernel)).imp fun _ ⟨_, x⟩ => x.1,
    (((h.1 (mk (base.onPwr fun p => {p with pfail := true, phaseA := false, warn := true})) 5499 (by decide +kernel)).2).2 .a (by decide +kernel)).imp fun _ x => x.1,
    ((((h.1 (mk (base.onPwr fun p => {p with pfail := true, phaseA := false, warn := true})) 5601 (by decide +kernel)).2).1 (by decide +kernel)).1 (by decide +kernel) (by decide +kernel)).imp fun _ ⟨_, x⟩ => x.1,
    (h.2.1.1 (mk base) 0 1760 (by decide +kernel) (by decide +kernel) (by decide +kernel) (by decide +kernel)).imp fun _ ⟨_, x⟩ => x.1,
    (h.2.1.2.1 (mk (base.onPwr fun p => {p with pfail := true, phaseA := false, warn := true})) [] (by decide +kernel) (by decide +kernel) (by decide +kernel)).imp fun _ x => x.1,
    (h.2.1.2.2.1 (mk base) 0 2000 (by decide +kernel) (by decide +kernel)).imp fun _ x => x.1,
    (h.2.1.2.2.2 (mk ((md .thermalOff).onPwr fun p => {p with thermAuto := true})) [] (by decide +kernel) (by decide +kernel) (by decide +kernel) (by decide +kernel)).imp fun _ x => x.1,
    (h.2.2 (mk base) [] (by decide +kernel)).imp fun _ x => x.1⟩
/-- The cases of SupplyAndThermalEvents are met. -/
theorem test_cases_SupplyAndThermalEvents :
    ((mk ((md .thermalOff).onPwr fun p => {p with thermAuto := true})).top.serviceMs < 600000) ∧
    (([].getD (0 / 8) 0) = [].getD (0 / 8) 0) ∧
    (([].getD (0 / 8) 0) < 1600) ∧
    (1600 ≤ ([1599, 1600, 2149, 2150, 2899, 2900, 0, 5000].getD (8 / 8) 0)) ∧
    (([1599, 1600, 2149, 2150, 2899, 2900, 0, 5000].getD (8 / 8) 0) < 2150) ∧
    ((mk base).plss[8].pin ≠ PlsPin.hiZ) ∧
    (2150 ≤ ([1599, 1600, 2149, 2150, 2899, 2900, 0, 5000].getD (24 / 8) 0)) ∧
    (([1599, 1600, 2149, 2150, 2899, 2900, 0, 5000].getD (24 / 8) 0) < 2900) ∧
    (2900 ≤ ([1599, 1600, 2149, 2150, 2899, 2900, 0, 5000].getD (40 / 8) 0)) := by decide +kernel

end SupplyCases

namespace TasksCases
/-- all tasks placed on reeds, class 1; reed 191 free -/
def hc (f : Comp → Comp) : Hub := base.onComp fun c => f { c with
  tasks := (Vector.finRange 126).map fun (t : Fin 126) => { c.tasks[t] with state := .running, cls := 1, reed := some ⟨t.val, by omega⟩ }
  reeds := (Vector.finRange 192).map fun (n : Fin 192) => { c.reeds[n] with state := if n.val < 126 then .running else .free, task := if h : n.val < 126 then some ⟨n.val, h⟩ else none } }
def dA (t cls reed : Nat) (on : Nat) := desc 0x60 [(0, t), (12, on), (13, 1), (14, cls), (16, 9), (24, reed)]
def dMove := desc 0x61 [(0, 125), (16, 191)]
def dPar := desc 0x62 [(0, 31), (8, 1), (16, 63), (32, 1000000)]
def recd (seq : Nat) : BitVec 128 := BitVec.ofNat 128 (5 + seq * 2^96 + 2^88)
def ev (f : EvTask → EvTask) := hc fun c => { c with evTasks := upd c.evTasks 31 fun e => f { e with accepted := true, cfg := payloadOf [(0, 31), (8, 1), (16, 63), (32, 2)], inbox := [recd 3, recd 4] } }
def img0 : Image := { time := 1, at_ := 0, size := 4096, valid := true, mem := .nothing }
def tk (f : Task → Task) := hc fun c => { c with tasks := upd c.tasks 125 fun e => f e }
def imgBad : Image := { time := 2, at_ := 0, size := 4096, valid := false, mem := .nothing }
def tkn (n : Nat) (m : TaskMem) := hc fun c => { c with tasks := upd c.tasks (Fin.ofNat 126 n) fun t => { t with state := .restoring, img := [{ time := 1, at_ := 0, size := 4096, valid := true, mem := m }] } }
def rd (f : Reed → Reed) := hc fun c => { c with reeds := upd c.reeds 191 fun e => f e }

/-- The hypotheses of TasksAssigned are met. -/
theorem test_meets_TasksAssigned (h : Obligations.TasksAssigned) :
    (∃ t, exec (Instr.taskAssign (.ring 0)) (serving (dA 125 0 191 1) (hc id)) = .next t) ∧
    (∃ t, exec (Instr.taskMove (.ring 0)) (serving dMove (hc id)) = .next t) ∧
    (∃ t, exec (Instr.taskParam (.ring 0)) (serving dPar (hc id)) = .next t) ∧
    (∃ t, exec (Instr.eventTaskRecord 31) (serving (dA 107 1 191 1) (ev id)) = .next t) :=
  ⟨by refine ((h.1 (.ring 0) (dA 125 0 191 1) (serving (dA 125 0 191 1) (hc id)) (serves_of ?_)).1 125 ?_ ?_ ?_ ?_ ?_ ?_ ?_ ?_).imp fun _ x => x.1 <;> decide +kernel,
    by refine (((h.1 (.ring 0) dMove (serving dMove (hc id)) (serves_of ?_)).2).1 125 191 ?_ ?_ ?_ ?_ ?_ ?_).imp fun _ x => x.1 <;> decide +kernel,
    by refine (((h.1 (.ring 0) dPar (serving dPar (hc id)) (serves_of ?_)).2).2 31 ?_ ?_ ?_ ?_ ?_ ?_ ?_ ?_).imp fun _ x => x.1 <;> decide +kernel,
    (h.2 (serving (dA 107 1 191 1) (ev id)) 31 _ _ (by decide +kernel) (by decide +kernel) rfl).imp fun _ x => x.1⟩
/-- The cases of TasksAssigned are met. -/
theorem test_cases_TasksAssigned :
    (taskKind 125 ≠ 4) ∧
    (pf (dA 0 2 255 0).payload 3 0 8 = 255) ∧
    ((serving (dA 0 2 255 0) (hc id)).comp.tasks[0].state = TaskState.running) ∧
    (taskKind 107 = 4) ∧
    (pb (dA 107 1 255 0).payload 1 4 = false) ∧
    ((serving (dA 107 1 191 1) (ev id)).comp.evTasks[31].taken < 5000000) ∧
    ((serving (dA 107 1 191 1) (ev id)).comp.evTasks[31].first = none) ∧
    ((serving (dA 107 1 191 1) (ev id)).comp.evTasks[31].quantity ≠ 2) ∧
    ((mk (ev fun e => {e with first := some (recd 2), last := some (recd 2), n := 0})).comp.evTasks[31].n + 1 < (mk (ev fun e => {e with first := some (recd 2), last := some (recd 2), n := 0})).comp.evTasks[31].count_) ∧
    ((mk (ev fun e => {e with first := some (recd 1), last := some (recd 2), n := 1})).comp.evTasks[31].count_ ≤ (mk (ev fun e => {e with first := some (recd 1), last := some (recd 2), n := 1})).comp.evTasks[31].n + 1) ∧
    (5000000 ≤ (mk (ev fun e => {e with taken := 5000000})).comp.evTasks[31].taken) ∧
    (recOvf (recd 3) = false) ∧
    ((recRising (recd 3) == ((ev id).comp.evTasks[(31 : Fin 32)].slope == 0)) = true) ∧
    (recSeq (recd 3) = (recSeq (recd 2) + 1) % 65536) := by decide +kernel
/-- The hypotheses of CheckpointsMovesRestores are met. -/
theorem test_meets_CheckpointsMovesRestores (h : Obligations.CheckpointsMovesRestores) :
    (∃ t, exec (Instr.checkpointWrite 0 ⟨0, false⟩) (mk (hc id)) = .next t) ∧
    (∃ t, exec (Instr.taskMoveAtCheckpoint 125) (serving dMove (tk fun t => {t with state := .moving, target := some 191, desc := some 0})) = .next t) ∧
    (∃ t, exec (Instr.taskRestored 125 false false) (mk (tk fun t => {t with state := .restoring, img := [img0]})) = .next t) ∧
    (∃ t, exec (Instr.taskRestored 125 true false) (mk (tk fun t => {t with state := .restoring, img := [img0]})) = .next t) :=
  ⟨((h (mk (hc id)) 0 (by decide +kernel)).1 0 false (by decide +kernel) (by decide +kernel)).imp fun _ x => x.1,
    (((h (serving dMove (tk fun t => {t with state := .moving, target := some 191, desc := some 0})) 125 (by decide +kernel)).2).1 _ (by decide +kernel) (Option.eq_some_of_isSome (by decide +kernel))).imp fun _ x => x.1,
    (((((h (mk (tk fun t => {t with state := .restoring, img := [img0]})) 125 (by decide +kernel)).2).2 false false (by decide +kernel)).2).1 _ (Option.eq_some_of_isSome (by decide +kernel))).imp fun _ x => x.1,
    (((((h (mk (tk fun t => {t with state := .restoring, img := [img0]})) 125 (by decide +kernel)).2).2 true false (by decide +kernel)).2).2 (by decide +kernel) (by decide +kernel)).imp fun _ x => x.1⟩
/-- The cases of CheckpointsMovesRestores are met. -/
theorem test_cases_CheckpointsMovesRestores :
    ((serving dMove (tk fun t => {t with state := .moving, target := some 191, desc := some 0})).comp.tasks[125].desc = some dMove.id) ∧
    (dMove ∈ (serving dMove (tk fun t => {t with state := .moving, target := some 191, desc := some 0})).host.inflight) ∧
    (0 = 0) ∧
    (51 = 48 + 3) ∧
    (75 = 60 + 15) ∧
    (107 = 76 + 31) := by decide +kernel
/-- The hypotheses of ReedFaultsAndTakeovers are met. -/
theorem test_meets_ReedFaultsAndTakeovers (h : Obligations.ReedFaultsAndTakeovers) :
    (∃ t, exec (.reedSramError 0) (mk (hc id)) = .next t) ∧
    (∃ t, exec (.reedHeartbeatTimeout 0) (mk (hc id)) = .next t) ∧
    (∃ t, exec (.reedTrap 0) (mk (hc id)) = .next t) ∧
    (∃ t, exec (.reedDebugHalt 0) (mk (hc id)) = .next t) ∧
    (∃ t, exec (Instr.reedDebugHalt 126) (mk (hc id)) = .next t) ∧
    (∃ t, exec (.reedTrap 191) (mk (hc id)) = .next t) ∧
    (∃ t, exec (Instr.reedDebugResume 191) (mk (rd fun r => {r with state := .halted})) = .next t) :=
  ⟨((h (mk (hc id)) 0).1 (.reedSramError 0) 1 (by decide +kernel) (by decide +kernel) (by decide +kernel)).imp fun _ x => x.1,
    ((h (mk (hc id)) 0).1 (.reedHeartbeatTimeout 0) 2 (by decide +kernel) (by decide +kernel) (by decide +kernel)).imp fun _ x => x.1,
    ((h (mk (hc id)) 0).1 (.reedTrap 0) 3 (by decide +kernel) (by decide +kernel) (by decide +kernel)).imp fun _ x => x.1,
    ((h (mk (hc id)) 0).1 (.reedDebugHalt 0) 4 (by decide +kernel) (by decide +kernel) (by decide +kernel)).imp fun _ x => x.1,
    (((h (mk (hc id)) 126).2).1 (by decide +kernel) (by decide +kernel)).imp fun _ x => x.1,
    ((h (mk (hc id)) 191).1 (.reedTrap 191) 3 (by decide +kernel) (by decide +kernel) (by decide +kernel)).imp fun _ x => x.1,
    (((h (mk (rd fun r => {r with state := .halted})) 191).2).2 (by decide +kernel) (by decide +kernel) (by decide +kernel)).imp fun _ x => x.1⟩

end TasksCases

namespace TestingCases
def hc (f : Comp → Comp) : Hub := base.onComp fun c => f { c with
  tasks := (Vector.finRange 126).map fun (t : Fin 126) => { c.tasks[t] with state := .running, cls := 1, reed := some ⟨t.val, by omega⟩ }
  reeds := (Vector.finRange 192).map fun (n : Fin 192) => { c.reeds[n] with state := if n.val < 126 then .running else .free, task := if h : n.val < 126 then some ⟨n.val, h⟩ else none } }
def dT (t c : Nat) (l : List Nat) := desc 0xF0 ([(0, t), (8, c)] ++ l.zipIdx.map fun x => (16 + 8 * x.2, x.1))
def rdy (h : Hub) : Hub := h.onClk fun c => { c with bState := .ready }
def tst (f : Hub → Hub) (h : Hub := hc id) : Hub := f ((h.onTop fun t => {t with mode := .test}).onFlt fun x => { x with selftest := some 0 })

/-- The hypotheses of Selftests are met. -/
theorem test_meets_Selftests (h : Obligations.Selftests) :
    (∃ t, exec (Instr.selftestReed (.ring 0)) (serving (dT 0 0 [191]) (hc fun c => { c with bPower := .off })) = .next t) ∧
    (∃ t, exec (Instr.selftestReed (.ring 0)) (serving (dT 0 0 [191]) (hc id)) = .next t) ∧
    (∃ t, exec (Instr.selftestReed (.ring 0)) (serving (dT 0 0 [0]) (hc id)) = .next t) ∧
    (∃ t, exec (Instr.selftestLane (.ring 0)) (serving (dT 1 6 [0,1,2,186,187,191]) (hc id)) = .next t) ∧
    (∃ t, exec (Instr.selftestRoot (.ring 0)) (serving (dT 2 0 [1]) (hc id)) = .next t) ∧
    (∃ t, exec (Instr.selftestRoot (.ring 0)) (serving (dT 2 0 [0]) (rdy (hc id))) = .next t) ∧
    (∃ t, exec (Instr.selftestHalf (.ring 0)) (serving (dT 3 0 [1]) (hc id)) = .next t) ∧
    (∃ t, exec (Instr.selftestImage (.ring 0)) (serving (dT 4 0 [1]) (hc id)) = .next t) ∧
    (∃ t, exec (Instr.selftestLink (.ring 0)) (serving (dT 5 0 [47]) (hc id)) = .next t) ∧
    (∃ t, exec (Instr.selftestComplete ({ pass := true, detail := 0, lanes := 0, reeds := [], dev := [] })) (serving (dT 0 0 [191]) (tst fun h => h.onReed 191 fun r => {r with state := .test})) = .next t) :=
  ⟨((((h.1 (.ring 0) (dT 0 0 [191]) (serving (dT 0 0 [191]) (hc fun c => { c with bPower := .off })) _ (serves_of (by decide +kernel)) (by decide +kernel) (by decide +kernel) (by decide +kernel) (by decide +kernel) rfl).2).2).1 191 (by decide +kernel) rfl (by decide +kernel)).imp fun _ x => x.1,
    ((h.1 (.ring 0) (dT 0 0 [191]) (serving (dT 0 0 [191]) (hc id)) _ (serves_of (by decide +kernel)) (by decide +kernel) (by decide +kernel) (by decide +kernel) (by decide +kernel) rfl).1 191 (by decide +kernel) rfl (by decide +kernel) (by decide +kernel)).imp fun _ x => x.1,
    (((h.1 (.ring 0) (dT 0 0 [0]) (serving (dT 0 0 [0]) (hc id)) _ (serves_of (by decide +kernel)) (by decide +kernel) (by decide +kernel) (by decide +kernel) (by decide +kernel) rfl).2).1 0 _ _ (by decide +kernel) rfl (by decide +kernel) (by decide +kernel) (Option.eq_some_of_isSome (by decide +kernel)) (by decide +kernel) (by decide +kernel) (Option.eq_some_of_isSome (by decide +kernel))).imp fun _ x => x.1,
    by refine (((((h.1 (.ring 0) (dT 1 6 [0,1,2,186,187,191]) (serving (dT 1 6 [0,1,2,186,187,191]) (hc id)) _ (serves_of ?_) ?_ ?_ ?_ ?_ rfl).2).2).2).1 ?_ ?_ ?_ ?_ ?_ ?_).imp fun _ x => x.1 <;> decide +kernel,
    ((((((h.1 (.ring 0) (dT 2 0 [1]) (serving (dT 2 0 [1]) (hc id)) _ (serves_of (by decide +kernel)) (by decide +kernel) (by decide +kernel) (by decide +kernel) (by decide +kernel) rfl).2).2).2).2).1 _ (by decide +kernel) (Option.eq_some_of_isSome (by decide +kernel)) (by decide +kernel)).imp fun _ x => x.1,
    (((((((h.1 (.ring 0) (dT 2 0 [0]) (serving (dT 2 0 [0]) (rdy (hc id))) _ (serves_of (by decide +kernel)) (by decide +kernel) (by decide +kernel) (by decide +kernel) (by decide +kernel) rfl).2).2).2).2).2).1 _ (by decide +kernel) (Option.eq_some_of_isSome (by decide +kernel)) (by decide +kernel) (by decide +kernel) rfl).imp fun _ x => x.1,
    ((((((((h.1 (.ring 0) (dT 3 0 [1]) (serving (dT 3 0 [1]) (hc id)) _ (serves_of (by decide +kernel)) (by decide +kernel) (by decide +kernel) (by decide +kernel) (by decide +kernel) rfl).2).2).2).2).2).2).1 _ (by decide +kernel) (Option.eq_some_of_isSome (by decide +kernel)) (by decide +kernel) (by decide +kernel)).imp fun _ x => x.1,
    (((((((((h.1 (.ring 0) (dT 4 0 [1]) (serving (dT 4 0 [1]) (hc id)) _ (serves_of (by decide +kernel)) (by decide +kernel) (by decide +kernel) (by decide +kernel) (by decide +kernel) rfl).2).2).2).2).2).2).2).1 _ (by decide +kernel) (Option.eq_some_of_isSome (by decide +kernel))).imp fun _ x => x.1,
    (((((((((h.1 (.ring 0) (dT 5 0 [47]) (serving (dT 5 0 [47]) (hc id)) _ (serves_of (by decide +kernel)) (by decide +kernel) (by decide +kernel) (by decide +kernel) (by decide +kernel) rfl).2).2).2).2).2).2).2).2 47 (by decide +kernel) rfl).imp fun _ x => x.1,
    by refine (h.2 ({ pass := true, detail := 0, lanes := 0, reeds := [], dev := [] }) (serving (dT 0 0 [191]) (tst fun h => h.onReed 191 fun r => {r with state := .test})) (dT 0 0 [191]) _ ?_ ?_ (by unfold Hub.idsOk; decide +kernel) rfl ?_ ?_ ?_ ?_ ?_).imp fun _ x => x.1 <;> decide +kernel⟩
/-- The cases of Selftests are met. -/
theorem test_cases_Selftests :
    ((serving (dT 0 0 [191]) (hc id)).inMode Mode.service = true) ∧
    ((serving (dT 0 0 [0]) (hc id)).inMode Mode.service = true) ∧
    ((serving (dT 1 6 [0,1,2,186,187,191]) (hc id)).inMode Mode.service = true) ∧
    ((serving (dT 2 0 [1]) (hc id)).inMode Mode.service = true) ∧
    ((serving (dT 2 0 [0]) (rdy (hc id))).inMode Mode.service = true) ∧
    ((serving (dT 3 0 [1]) (hc id)).inMode Mode.service = true) ∧
    ((serving (dT 4 0 [1]) (hc id)).inMode Mode.service = true) ∧
    ((serving (dT 5 0 [47]) (hc id)).inMode Mode.service = true) ∧
    ((serving (dT 0 0 [191]) (tst fun h => h.onReed 191 fun r => {r with state := .test})).inMode Mode.test = true) ∧
    (testTarget (dT 2 0 [1]).payload = 2) ∧
    ((if (testIndex (dT 2 0 [1]).payload 0) = 0 then Side.a else Side.b) = if (testIndex (dT 2 0 [1]).payload 0) = 0 then Side.a else Side.b) ∧
    ((serving (dT 5 0 [47]) (tst fun h => (h.onLink 47 fun l => {l with held := true}).onTop fun t => {t with mode := .safe})).inMode Mode.test = false) ∧
    (({ pass := false, detail := 1, lanes := 1, reeds := [1], dev := [(1,2)] } : Verdict).pass = false) := by decide +kernel

end TestingCases

namespace TopCases
def st (h : Hub) := mk h

def rg (f : Ring → Ring) (h : Hub := base) := (((h.onRing (.cmd 0) f).onRing (.cpl 0) f).onRing (.str 63) f).onRing (.tel 3) f
def mx (f : Mbx → Mbx) := { base with mbx := base.mbx.map f }
def cmdR (a : Nat) : Reg := BitVec.ofNat 32 a
def cmdW (a : Nat) : Reg := BitVec.ofNat 32 (a + 2^31)
def ld (f : Shim → Shim) := (base.onShim fun s => f {s with loader := true})
def keyed (m : Master) (c : Nat) (f : Shim → Shim := id) := (base.onTop fun t => {t with resetKey := some (m, c)}).onShim f

/-- The hypotheses of LoaderAndTopControls are met. -/
theorem test_meets_LoaderAndTopControls (h : Obligations.LoaderAndTopControls) :
    (∃ t, exec (Instr.shimLdrOfsWrite .spi 0) (st (ld id)) = .next t) ∧
    (∃ t, exec (Instr.shimLdrVerify .spi) (st (ld id)) = .next t) ∧
    (∃ t, exec (Instr.shimLdrDataWrite .spi 0) (st (ld id)) = .next t) ∧
    (∃ t, exec Instr.loaderVerifyDone (st (ld fun s => {s with ldrBusy := true, ldrOfs := 0x1FFFFC, mem := memWriteN s.mem 0x1FFFF0 [1,2]})) = .next t) ∧
    (∃ t, exec (Instr.topVioClr .host 0) (st base) = .next t) ∧
    (∃ t, exec (Instr.fltPinRelease .host) (st base) = .next t) ∧
    (∃ t, exec (Instr.fltPinHoldWrite .host false) (st base) = .next t) ∧
    (∃ t, exec (Instr.topResetWrite .host 23100 0) (st base) = .next t) ∧
    (∃ t, exec (Instr.paritySweep [12288]) (st base) = .next t) ∧
    (∃ t, exec (Instr.topResetWrite .host 50085 0) (st (keyed .host 0)) = .next t) ∧
    (∃ t, exec (Instr.topResetWrite .host 50085 2097148) (st (keyed .host 0)) = .next t) :=
  ⟨((h.1 (st (ld id)) .spi 0 (by decide +kernel) (by decide +kernel) (by decide +kernel)).1).imp fun _ x => x.1,
    (((h.1 (st (ld id)) .spi 0 (by decide +kernel) (by decide +kernel) (by decide +kernel)).2).1).imp fun _ x => x.1,
    ((((h.1 (st (ld id)) .spi 0 (by decide +kernel) (by decide +kernel) (by decide +kernel)).2).2).1 _ _ rfl rfl (by decide +kernel) (by decide +kernel)).imp fun _ x => x.1,
    ((((h.1 (st (ld fun s => {s with ldrBusy := true, ldrOfs := 0x1FFFFC, mem := memWriteN s.mem 0x1FFFF0 [1,2]})) .spi 0 (by decide +kernel) (by decide +kernel) (by decide +kernel)).2).2).2 _ (by decide +kernel) (by decide +kernel) rfl (by decide +kernel) (by decide +kernel)).imp fun _ x => x.1,
    ((h.2 (st base) .host (by decide +kernel)).1 0).imp fun _ x => x.1,
    (((h.2 (st base) .host (by decide +kernel)).2).1).imp fun _ x => x.1,
    ((((h.2 (st base) .host (by decide +kernel)).2).2).1 false).imp fun _ x => x.1,
    ((((((h.2 (st base) .host (by decide +kernel)).2).2).2).1 23100 0 _ rfl).1 (by decide +kernel)).imp fun _ x => x.1,
    (((((h.2 (st base) .host (by decide +kernel)).2).2).2).2 12288 (by decide +kernel) (by decide +kernel) (by decide +kernel) (by decide +kernel)).imp fun _ ⟨_, x⟩ => x.1,
    (((((((h.2 (st (keyed .host 0)) .host (by decide +kernel)).2).2).2).1 50085 0 _ rfl).2).1 _ (by decide +kernel) rfl (by decide +kernel) (by decide +kernel)).imp fun _ x => x.1,
    (((((((h.2 (st (keyed .host 0)) .host (by decide +kernel)).2).2).2).1 50085 2097148 _ rfl).2).2 _ _ (by decide +kernel) rfl (by decide +kernel)).imp fun _ x => x.1⟩
/-- The cases of LoaderAndTopControls are met. -/
theorem test_cases_LoaderAndTopControls :
    (((st (ld id)).shim.ldrOffset) ≠ 176) ∧
    (1048576 < imageBase ((st (ld id)).shim.ldrImage) + ((st (ld id)).shim.ldrOffset) ∨ imageBase ((st (ld id)).shim.ldrImage) + ((st (ld id)).shim.ldrOffset) + 4 ≤ 1048576) ∧
    (1048576 < stateWordAt ((st (ld id)).shim.ldrImage) ∨ stateWordAt ((st (ld id)).shim.ldrImage) + 4 ≤ 1048576) ∧
    ((st (ld fun s => {s with ldrBusy := true, ldrOfs := 0x1FFFFC, mem := memWriteN s.mem 0x1FFFF0 [1,2]})).shim.imageReason ((st (ld fun s => {s with ldrBusy := true, ldrOfs := 0x1FFFFC, mem := memWriteN s.mem 0x1FFFF0 [1,2]})).shim.ldrImage) ≠ 0) := by decide +kernel

end TopCases

namespace TxnsCases
def dRd := desc 0x70 [(0, 0x200010), (32, 33), (64, 64)]
def dPt := desc 0x72 [(0, 8191), (16, 1), (64, 64)]
def hM (f : Shim → Shim) := base.onShim fun x => f { x with mem := memWriteN (memWriteN x.mem 0x200010 [1,2,3]) 0x37FFC0 [7,8] }
def dW := desc 0x71 [(0, 0), (8, 1), (64, 64)]
def dInv := desc 0x71 [(0, 2), (8, 1)]
def dVer := desc 0x71 [(0, 1), (8, 1)]
def dSet := desc 0x71 [(0, 3), (128, 10000), (160, 168)]
def ext (a n : Nat) : Bytes := leBytes 4 a ++ leBytes 2 n ++ List.replicate 10 0
def x1 : Txn := { seq := 0, extents := [(0x200010, [9,9])], desc := some 0, total := some 2, committed := false }

/-- The hypotheses of StoreTransactions are met. -/
theorem test_meets_StoreTransactions (h : Obligations.StoreTransactions) :
    (∃ t, exec (Instr.shimTxnWrite (.ring 0) (Option.some ((ext 0x100000 2), (ext 0x200000 3)))) (serving dW (hM id)) = .next t) ∧
    (∃ t, exec (Instr.shimTxnInvalidate (.ring 0)) (serving dInv (hM id)) = .next t) ∧
    (∃ t, exec (Instr.shimTxnSettings (.ring 0)) (serving dSet (hM id)) = .next t) ∧
    (∃ t, exec (Instr.shimTxnVerify (.ring 0)) (serving dVer (hM id)) = .next t) ∧
    (∃ t, exec (Instr.journalTransaction JPhase.opened) (serving dW (hM fun x => {x with waiting := [x1, {x1 with extents := [(5,[])], desc := none}]})) = .next t) ∧
    (∃ t, exec (Instr.journalTransaction JPhase.committed) (serving dW (hM fun x => {x with waiting := [x1, {x1 with extents := [(5,[])], desc := none}]})) = .next t) ∧
    (∃ t, exec (Instr.journalTransaction JPhase.applied) (serving dW (hM fun x => {x with waiting := [x1, {x1 with extents := [(5,[])], desc := none}]})) = .next t) :=
  ⟨((h.1 (.ring 0) dW (serving dW (hM id)) (serves_of (by decide +kernel)) (by decide +kernel)).1 (ext 0x100000 2) (ext 0x200000 3) _ (by decide +kernel) (by decide +kernel) (by decide +kernel) rfl (by decide +kernel) (by decide +kernel) (by decide +kernel)).imp fun _ x => x.1,
    (((h.1 (.ring 0) dInv (serving dInv (hM id)) (serves_of (by decide +kernel)) (by decide +kernel)).2).1 _ (by decide +kernel) (Option.eq_some_of_isSome (by decide +kernel)) (by decide +kernel)).imp fun _ x => x.1,
    (((h.1 (.ring 0) dSet (serving dSet (hM id)) (serves_of (by decide +kernel)) (by decide +kernel)).2).2 (by decide +kernel) (by decide +kernel) (by decide +kernel)).imp fun _ x => x.1,
    (h.2.1 (.ring 0) dVer (serving dVer (hM id)) _ (serves_of (by decide +kernel)) (by decide +kernel) (by decide +kernel) (Option.eq_some_of_isSome (by decide +kernel)) (by decide +kernel) (by decide +kernel)).imp fun _ x => x.1,
    ((h.2.2 (serving dW (hM fun x => {x with waiting := [x1, {x1 with extents := [(5,[])], desc := none}]})) _ _ (by decide +kernel) (by decide +kernel) (by decide +kernel) rfl).1).imp fun _ x => x.1,
    (((h.2.2 (serving dW (hM fun x => {x with waiting := [x1, {x1 with extents := [(5,[])], desc := none}]})) _ _ (by decide +kernel) (by decide +kernel) (by decide +kernel) rfl).2).1).imp fun _ x => x.1,
    (((h.2.2 (serving dW (hM fun x => {x with waiting := [x1, {x1 with extents := [(5,[])], desc := none}]})) _ _ (by decide +kernel) (by decide +kernel) (by decide +kernel) rfl).2).2).imp fun _ x => x.1⟩
/-- The cases of StoreTransactions are met. -/
theorem test_cases_StoreTransactions :
    (dW ∈ (serving dW (hM fun x => {x with waiting := [x1, {x1 with extents := [(5,[])], desc := none}]})).host.inflight) ∧
    ((hM id).shim.imageReason .b ≠ 0) ∧
    (x1.extents = [(0x200010, [9, 9])]) ∧
    (∀ e ∈ x1.extents, 2097170 < e.1 ∨ e.1 + List.length e.2 ≤ 2097170) := by decide +kernel

end TxnsCases

end Sys2Proof.Tests
end

section
/-!
SUPPORT. Time values: the fields of a full time (R9, R12), short time (R13), and what a SET_TIME or STEP_TIME with
nanoseconds out of range comes to (R12, R188).
-/

namespace Sys2Proof.Machine

/-! ## The fields of a full time value (R9) -/

/-- The part of a second that an instant stands past its whole second is less than one second. -/
theorem subSecond_lt (t : Int) : (t % secFu).toNat < 65536 * 10 ^ 9 := by
  unfold secFu
  omega

theorem secsOf_lt (t : Int) : secsOf t < 2 ^ 48 := by
  unfold secsOf
  omega

/-- The layout of R9 as one number: no field runs into the next. -/
theorem fullTimeOf_toNat (t : Int) (m quality flags : Nat) :
    (fullTimeOf t m quality flags).toNat = secsOf t * 2 ^ 80 + (t % secFu).toNat / 65536 * 2 ^ 48 +
      (t % secFu).toNat % 65536 * 2 ^ 32 + m % 2 ^ 8 * 2 ^ 24 + quality % 2 ^ 8 * 2 ^ 16 + flags % 2 ^ 16 := by
  have hr := subSecond_lt t
  have hs := secsOf_lt t
  simp only [fullTimeOf, at_, BitVec.toNat_ofNat]
  omega

@[simp] theorem fullTimeOf_seconds (t : Int) (m quality flags : Nat) :
    fld (fullTimeOf t m quality flags) 80 48 = secsOf t := by
  have hr := subSecond_lt t
  have hs := secsOf_lt t
  simp only [fld, natBits, fullTimeOf_toNat]
  omega

@[simp] theorem fullTimeOf_ns (t : Int) (m quality flags : Nat) :
    fld (fullTimeOf t m quality flags) 48 32 = (t % secFu).toNat / 65536 := by
  have hr := subSecond_lt t
  simp only [fld, natBits, fullTimeOf_toNat]
  omega

@[simp] theorem fullTimeOf_frac (t : Int) (m quality flags : Nat) :
    fld (fullTimeOf t m quality flags) 32 16 = (t % secFu).toNat % 65536 := by
  simp only [fld, natBits, fullTimeOf_toNat]
  omega

@[simp] theorem fullTimeOf_flags (t : Int) (m quality flags : Nat) :
    fld (fullTimeOf t m quality flags) 0 16 = flags % 2 ^ 16 := by
  simp only [fld, natBits, fullTimeOf_toNat]
  omega

/-- R12: the nanoseconds of a full time stay below one second. -/
theorem fullTimeOf_ns_le (t : Int) (m quality flags : Nat) : fld (fullTimeOf t m quality flags) 48 32 ≤ 999999999 := by
  have hr := subSecond_lt t
  rw [fullTimeOf_ns]
  omega

/-! ## Short time (R13) -/

theorem shortOf_toNat (t : Int) : ((shortOf t).toNat : Int) = t % 2 ^ 64 := by
  simp only [shortOf, BitVec.toNat_ofInt]
  omega

/-- The 48-bit seconds wrap after a whole number of turns of short time, since a second is 2^16 × 10^9 fu. -/
theorem secsOf_subSecond_mod (t : Int) :
    ((secsOf t : Int) * secFu + (t % secFu).toNat) % 2 ^ 64 = t % 2 ^ 64 := by
  unfold secsOf secFu
  rw [Int.fdiv_eq_ediv_of_nonneg _ (by decide)]
  omega

/-- R13: short time counts the seconds, nanoseconds and fraction of the same instant's full time. -/
theorem shortOf_eq_fullTimeOf (t : Int) (m quality flags : Nat) :
    (shortOf t).toNat = ((fld (fullTimeOf t m quality flags) 80 48 * 1000000000 + fld (fullTimeOf t m quality flags) 48 32) * 65536 +
      fld (fullTimeOf t m quality flags) 32 16) % 2 ^ 64 := by
  have hs := shortOf_toNat t
  have hw := secsOf_subSecond_mod t
  rw [fullTimeOf_seconds, fullTimeOf_ns, fullTimeOf_frac]
  generalize (t % secFu).toNat = r at hw ⊢
  unfold secFu at hw
  omega

/-! ## ns_range in the result of a refused SET_TIME or STEP_TIME (R12, R188) -/

/-- ns_range, bit 4, is none of the flags that a domain's own time carries (R11). -/
theorem timeFlags_nsRange (h : Hub) (d : Dom) : (h.timeFlags d).testBit 4 = false := by
  unfold Hub.timeFlags
  generalize h.notWarm = a, h.calStale = b, (d.untrusted || h.isSafe) = c, d.stepped = e, d.todUnset = f
  decide +revert

theorem fullTime_nsRange (h : Hub) (m : Fin 16) : (h.fullTime m).toNat / 16 % 2 = 0 := by
  have hb := timeFlags_nsRange h h.doms[m]
  have hf := fullTimeOf_flags h.doms[m].fu m h.doms[m].quality (h.timeFlags h.doms[m])
  rw [Nat.testBit_eq_decide_div_mod_eq] at hb
  simp only [fld, natBits, decide_eq_false_iff_not] at hb hf
  unfold Hub.fullTime
  omega

/-- A result field of two parts is the sum of both in their places. -/
theorem resultOf_pair (a b : Nat × Nat × Nat) :
    resultOf [a, b] = BitVec.ofNat 192 (at_ a.1 a.2.1 a.2.2 + at_ b.1 b.2.1 b.2.2) := by
  rw [resultOf, List.foldl_cons, List.foldl_cons, List.foldl_nil, Nat.zero_add]

/-- R188: the result says ns_range. -/
theorem timeResult_nsRange (h : Hub) (m : Fin 16) (change : Int) : (timeResult h m true change).getLsbD 4 = true := by
  have hb := fullTime_nsRange h m
  rw [timeResult, resultOf_pair, BitVec.getLsbD, Nat.testBit_eq_decide_div_mod_eq, decide_eq_true_eq]
  simp only [at_, atB, if_true, BitVec.toNat_ofNat]
  omega

/-! ## A descriptor refused for its nanoseconds -/

/-- A field that names an existing instance reaches it. -/
theorem withFin_val {n i id : Nat} {f : Fin n → Hub → Hub} {h : Hub} {k : Fin n} (e : i = k.val) :
    withFin n i id f h = f k h := by
  subst e
  simp only [withFin, finOf, k.isLt, dif_pos, Fin.eta]

theorem setTimeEff_nsRange {d : Desc} {m : Fin 16} (hm : pf d.payload 0 0 8 = m.val)
    (hn : 999999999 < fld (timeField d.payload) 48 32) (h : Hub) : setTimeEff d h = timeRefused m d.id .badParam true h := by
  simp only [setTimeEff, withFin_val hm, hn, if_true]

theorem stepTimeEff_nsRange {d : Desc} {m : Fin 16} (hm : pf d.payload 0 0 8 = m.val)
    (hn : 999999999 < fld (timeField d.payload) 48 32) (h : Hub) : stepTimeEff d h = timeRefused m d.id .badParam true h := by
  simp only [stepTimeEff, withFin_val hm, hn, if_true]

/-- Of a SET_TIME or STEP_TIME with nanoseconds out of range, served at its turn, nothing comes but the refusal. -/
theorem exec_timeNsRange {o : Origin} {d : Desc} {s : State} {m : Fin 16} {c : Instr} (S : s.Serves o d)
    (hm : pf d.payload 0 0 8 = m.val) (hn : 999999999 < fld (timeField d.payload) 48 32)
    (hc : d.opcode = 0x03 ∧ c = .setTime o ∨ d.opcode = 0x04 ∧ c = .stepTime o) :
    exec c s = run (fun h => timeRefused m d.id .badParam true (markApplied d.id h)) s := by
  rcases hc with ⟨hop, rfl⟩ | ⟨hop, rfl⟩
  · have hs : setTime o s.toHub = setTimeEff d (markApplied d.id s.toHub) :=
      serve_eq S (by simp [isOp, hop]) (by rw [hop]; rfl)
    change run (setTime o) s = _
    simp only [run, hs, setTimeEff_nsRange hm hn]
  · have hs : stepTime o s.toHub = stepTimeEff d (markApplied d.id s.toHub) :=
      serve_eq S (by simp [isOp, hop]) (by rw [hop]; rfl)
    change run (stepTime o) s = _
    simp only [run, hs, stepTimeEff_nsRange hm hn]

theorem timeRefused_doms (m : Fin 16) (id : Nat) (st : Status) (b : Bool) (h : Hub) :
    (timeRefused m id st b h).doms = h.doms :=
  (timeRefused_kept (A := { parts := [.cplRings, .msix, .books, .runs, .profile, .shimEvt, .bus] }) (fun _ hp => hp)
    (.refl h)).only.eq_doms fun _ hk => hk

/-- The refusal of a descriptor that stands on a ring is written there while a warden is in charge. -/
theorem timeRefused_posted {h : Hub} {m : Fin 16} {id : Nat} {d : Desc} {q : Fin 16} {st : Status} {b : Bool}
    (hd : h.desc? id = some d) (ho : d.origin = .ring q) (hx : d.discard = false) (hc : h.inCharge = true) :
    (timeRefused m id st b h).Posted d st (timeResult h m b 0) :=
  completeWith_posted hd ho hx hc

/-- A completion carries nothing of whether its descriptor was marked applied. -/
theorem Hub.Posted.of_applied {t : Hub} {d : Desc} {st : Status} {r : BitVec 192} {b : Bool}
    (p : t.Posted { d with applied := b } st r) : t.Posted d st r := p

end Sys2Proof.Machine

namespace Sys2Proof

open Machine

/-- Settles O4: the fields of a full time are read off its layout, and a payload with nanoseconds out of range reaches only
the refusal, whose result is the domain's time with ns_range. -/
theorem timeValues : Obligations.TimeValues := by
  unfold Obligations.TimeValues
  refine ⟨fun i m q f => ⟨fullTimeOf_ns_le i m q f, shortOf_eq_fullTimeOf i m q f⟩, ?_⟩
  intro o d s m c S hm hn hc
  refine ⟨_, exec_timeNsRange S hm hn hc, timeRefused_doms .., fun q ho hx =>
    ⟨timeResult (markApplied d.id s.toHub) m true 0, ?_, timeResult_nsRange ..⟩⟩
  obtain ⟨hmem, horg, -⟩ := nextDesc_mem S.next
  exact (timeRefused_posted (markApplied_desc S.ids hmem) (horg.trans ho) hx S.charge).of_applied

end Sys2Proof
end

section
/-!
SUPPORT. A hub reset: the second key of TOP_RESET (R459), and the event channels, interval units, domains, outputs and ports
that it leaves (R103, R177, R217, R253).
-/

namespace Sys2Proof.Machine

/-! ## Payloads at their reset values -/

theorem foldl_or_payloadOf (l : List (Nat × Nat)) (a : Payload) :
    l.foldl (fun p f => p ||| (BitVec.ofNat 384 f.2 <<< f.1)) a = a ||| payloadOf l := by
  induction l generalizing a with
  | nil => simp [payloadOf]
  | cons f l ih =>
    have htail : payloadOf (f :: l) = ((0 : Payload) ||| BitVec.ofNat 384 f.2 <<< f.1) ||| payloadOf l := ih _
    rw [List.foldl_cons, ih, htail, BitVec.ofNat_eq_ofNat, BitVec.zero_or, BitVec.or_assoc]

theorem payloadOf_cons (lo v : Nat) (l : List (Nat × Nat)) :
    payloadOf ((lo, v) :: l) = (BitVec.ofNat 384 v <<< lo) ||| payloadOf l := by
  rw [← BitVec.zero_or (x := BitVec.ofNat 384 v <<< lo)]
  exact foldl_or_payloadOf l _

section
variable {n : Nat} (hn : n < 2 ^ 8) (l : List (Nat × Nat))
include hn

/-- The number of its unit, in byte 0 of a payload, is not seen in the fields above it. -/
theorem pf_payloadOf_number {byte : Nat} (hb : 0 < byte) (bit len : Nat) :
    pf (payloadOf ((0, n) :: l)) byte bit len = pf (payloadOf l) byte bit len := by
  have hlt : n < 2 ^ (8 * byte + bit) := hn.trans_le (Nat.pow_le_pow_right (by decide) (by omega))
  have hzero : (n % 2 ^ 384) >>> (8 * byte + bit) = 0 :=
    Nat.shiftRight_eq_zero _ _ ((Nat.mod_le _ _).trans_lt hlt)
  simp only [pf, fld, natBits, payloadOf_cons, BitVec.shiftLeft_zero, BitVec.toNat_or, BitVec.toNat_ofNat,
    ← Nat.shiftRight_eq_div_pow, Nat.shiftRight_or_distrib, hzero, Nat.zero_or]

theorem pb_payloadOf_number {byte : Nat} (hb : 0 < byte) (bit : Nat) :
    pb (payloadOf ((0, n) :: l)) byte bit = pb (payloadOf l) byte bit := by
  have hbit : n.testBit (8 * byte + bit) = false :=
    Nat.testBit_lt_two_pow (hn.trans_le (Nat.pow_le_pow_right (by decide) (by omega)))
  simp only [pb, flag, payloadOf_cons, BitVec.shiftLeft_zero, BitVec.getLsbD_or, BitVec.getLsbD_ofNat, hbit, Bool.and_false,
    Bool.false_or]

end

/-- Domain, divisor and sense point of a clock output at reset (R217). -/
theorem resetOutCfg_fields (n : Fin 96) :
    outDomain (resetOutCfg n) = 0 ∧ outN (resetOutCfg n) = 150 ∧ outRemote (resetOutCfg n) = false := by
  have hn : n.val < 2 ^ 8 := by omega
  simp only [outDomain, outN, outRemote, resetOutCfg, pf_payloadOf_number hn, pb_payloadOf_number hn, Nat.succ_pos]
  exact ⟨rfl, rfl, rfl⟩

/-- The settings of a pulse output at reset (R217). -/
theorem resetPlsCfg_fields (n : Fin 64) :
    plsLow (resetPlsCfg n) = false ∧ plsDomain (resetPlsCfg n) = 0 ∧ plsTerm (resetPlsCfg n) = false ∧
      plsStart_ (resetPlsCfg n) = 0 ∧ plsPeriod (resetPlsCfg n) = 65536000000000 ∧
      plsWidth (resetPlsCfg n) = 65536000 ∧ plsCount (resetPlsCfg n) = 0 := by
  have hn : n.val < 2 ^ 8 := by omega
  simp only [plsLow, plsDomain, plsTerm, plsStart_, plsPeriod, plsWidth, plsCount, resetPlsCfg, pf_payloadOf_number hn,
    pb_payloadOf_number hn, Nat.succ_pos]
  exact ⟨rfl, rfl, rfl, rfl, rfl, rfl, rfl⟩

/-! ## The banks at reset -/

@[simp] theorem bankOf_getElem {α : Type} {n : Nat} (f : Nat → α) (i : Fin n) : (bankOf n f)[i] = f i := by
  simp [bankOf]

/-- The banks of event channels, interval units, domains, outputs and ports stand at their reset values. -/
structure Hub.BanksReset (t : Hub) : Prop where
  evts : t.evts = Hub.reset.evts
  ivus : t.ivus = Hub.reset.ivus
  doms : t.doms = Hub.reset.doms
  outs : t.outs = Hub.reset.outs
  banks : t.banks = Hub.reset.banks
  plss : t.plss = Hub.reset.plss
  links : t.links = Hub.reset.links

section
variable {t : Hub}

theorem Hub.BanksReset.evt (R : t.BanksReset) (n : Fin 64) : t.evts[n] = { cfg := resetEvtCfg n } := by
  rw [R.evts]; exact bankOf_getElem _ n

theorem Hub.BanksReset.ivu (R : t.BanksReset) (u : Fin 32) : t.ivus[u] = { cfg := resetIvuCfg u } := by
  rw [R.ivus]; exact bankOf_getElem _ u

theorem Hub.BanksReset.dom (R : t.BanksReset) (k : Fin 16) :
    t.doms[k] = { cfg := resetDomCfg k, set_ := resetDomCfg k, prio := resetPrio k } := by
  rw [R.doms]; exact bankOf_getElem _ k

theorem Hub.BanksReset.out (R : t.BanksReset) (n : Fin 96) : t.outs[n] = { cfg := resetOutCfg n } := by
  rw [R.outs]; exact bankOf_getElem _ n

theorem Hub.BanksReset.bank (R : t.BanksReset) (b : Fin 24) : t.banks[b] = 0 := by
  rw [R.banks]; exact Vector.getElem_replicate b.isLt

theorem Hub.BanksReset.pls (R : t.BanksReset) (n : Fin 64) : t.plss[n] = { cfg := resetPlsCfg n, run := resetPlsCfg n } := by
  rw [R.plss]; exact bankOf_getElem _ n

theorem Hub.BanksReset.link (R : t.BanksReset) (n : Fin 48) : t.links[n] = { cfg := resetLinkCfg n } := by
  rw [R.links]; exact bankOf_getElem _ n

end

/-- A hub reset leaves the banks at their reset values: BOOT, which it enters, touches none of them. -/
theorem hubReset_banksReset (cause : Nat) (h : Hub) : (hubReset cause h).BanksReset := by
  have o := (enterBoot_kept (A := { parts := [.top, .pwr, .counters] }) (a0 := cause) (fun _ hp => hp)
    (.refl (journalApply h).fresh)).only
  exact {
    evts := o.eq_evts fun _ hk => hk
    ivus := o.eq_ivus fun _ hk => hk
    doms := o.eq_doms fun _ hk => hk
    outs := o.eq_outs fun _ hk => hk
    banks := o.banks.resolve_left (by decide)
    plss := o.eq_plss fun _ hk => hk
    links := o.eq_links fun _ hk => hk }

theorem Hub.BanksReset.copyWritten {t : Hub} (R : t.BanksReset) (off len : Nat) : (copyWritten off len t).BanksReset :=
  ⟨R.evts, R.ivus, R.doms, R.outs, R.banks, R.plss, R.links⟩

/-! ## TOP_RESET (R459) -/

/-- No time passes on the way to the present cycle. -/
theorem advanceTo_pos (h : Hub) : advanceTo h.clk.pos h = h := by
  simp [advanceTo]

/-- TOP_RESET is open to every master, and its write goes to the keys. -/
theorem writeReg_topReset (m : Master) (v : Reg) (h : Hub) :
    writeReg m 0x10A0 v h = copyWritten 0x10A0 4 (resetKeyWrite m v h) := rfl

theorem topResetWrite_of_answers {m : Master} {h : Hub} (ha : h.answers m = true) (v : Reg) (cyc : Nat) :
    topResetWrite m v cyc h = copyWritten 0x10A0 4 (resetKeyWrite m v (advanceTo cyc h)) := by
  rw [topResetWrite, ha, when_true, writeReg_topReset]

/-- The second key by the master of the first, within 1 ms of it, resets the hub with cause 4. -/
theorem resetKeyWrite_second {m : Master} {v : Reg} {h : Hub} {c : Nat} (hv : fld v 0 16 = 0xC3A5)
    (hk : h.top.resetKey = some (m, c)) (hc : h.clk.cycles ≤ c + 1500000) : resetKeyWrite m v h = hubReset 4 h := by
  simp [resetKeyWrite, hv, hk, hc]

/-- The second key of TOP_RESET at the present cycle is a hub reset. -/
theorem exec_topResetWrite_second {s : State} {m : Master} {v : Reg} {c : Nat} (ha : s.answers m = true)
    (hv : fld v 0 16 = 0xC3A5) (hk : s.top.resetKey = some (m, c)) (hc : s.clk.cycles ≤ c + 1500000) :
    exec (.topResetWrite m v s.clk.pos) s =
      .next { toHub := copyWritten 0x10A0 4 (hubReset 4 s.toHub), pending := s.pending } := by
  change run (topResetWrite m v s.clk.pos) s = _
  rw [run, topResetWrite_of_answers ha, advanceTo_pos, resetKeyWrite_second hv hk hc]

end Sys2Proof.Machine

namespace Sys2Proof

open Machine

/-- Settles O52: the second key of TOP_RESET is a hub reset, which leaves every bank at its reset values, and the settings named
are read off these. -/
theorem hubResetValues : Obligations.HubResetValues := by
  unfold Obligations.HubResetValues
  intro s m c v ha hv hk hc
  have R := (hubReset_banksReset 4 s.toHub).copyWritten 0x10A0 4
  refine ⟨_, exec_topResetWrite_second ha hv hk hc, fun n => ?evt, fun u => ?ivu, fun k => ?dom, fun n => ?out, R.bank,
    fun n => ?pls, fun n => ?link⟩
  case evt => rw [R.evt n]; simp
  case ivu => rw [R.ivu u]; simp
  case dom => rw [R.dom k]; simp
  case out => rw [R.out n]; exact ⟨rfl, rfl, resetOutCfg_fields n⟩
  case pls =>
    obtain ⟨hlow, hdom, hterm, hstart, hperiod, hwidth, hcount⟩ := resetPlsCfg_fields n
    rw [R.pls n]
    exact ⟨rfl, rfl, hlow, hdom, hterm, hstart, rfl, hperiod, hwidth, hcount, rfl, rfl⟩
  case link => rw [R.link n]; simp

end Sys2Proof
end

section
/-!
SUPPORT. Refused settings: a descriptor refused for its payload completes with BAD_PARAM and changes no bank; when REF_PRIORITY
(R146) and an OUTPUT_CONFIG that names another format (R195) come to that, and what an accepted OUTPUT_CONFIG gives its bank.
-/

namespace Sys2Proof.Machine

/-! ## A completion touches no bank -/

@[simp] theorem completeWith_banks (id : Nat) (st : Status) (r : BitVec 192) (h : Hub) :
    (completeWith id st r h).banks = h.banks :=
  (completeWith_kept (A := { parts := [.cplRings, .msix, .books, .runs, .profile, .shimEvt, .bus] }) (fun _ hp => hp)
    (.refl h)).only.banks.resolve_left (by decide)

/-- A descriptor that is marked applied and completed at once leaves nothing but the traces of a completion. -/
theorem complete_markApplied_only (id : Nat) (st : Status) (h : Hub) :
    Only { parts := [.cplRings, .msix, .books, .runs, .profile, .shimEvt, .bus] } h (complete id st (markApplied id h)) :=
  (complete_kept (fun _ hp => hp) (markApplied_kept (fun _ hp => by simp_all) (.refl h))).only

/-- A descriptor of a ring, completed at its turn, has its completion written. -/
theorem Hub.Serves.posted {h : Hub} {o : Origin} {d : Desc} {q : Fin 16} (S : h.Serves o d) (ho : o = .ring q)
    (hx : d.discard = false) (st : Status) : (complete d.id st (markApplied d.id h)).Posted d st 0 := by
  obtain ⟨hmem, horg, -⟩ := nextDesc_mem S.next
  have hp : (complete d.id st (markApplied d.id h)).Posted { d with applied := true } st 0 :=
    completeWith_posted (markApplied_desc S.ids hmem) (horg.trans ho) hx S.charge
  exact hp.of_applied

/-! ## REF_PRIORITY (R146) -/

/-- A field that names no instance is refused (R3). -/
theorem withFin_of_le {n i : Nat} (hi : n ≤ i) (id : Nat) (f : Fin n → Hub → Hub) (h : Hub) :
    withFin n i id f h = complete id .badParam h := by
  simp only [withFin, finOf, hi.not_gt, dif_neg, not_false_eq_true]

theorem refPriorityEff_of_domain {d : Desc} (hm : 15 < pf d.payload 0 0 8) (h : Hub) :
    refPriorityEff d h = complete d.id .badParam h := by
  rw [refPriorityEff, withFin_of_le hm]

theorem refPriorityEff_of_limits {d : Desc} (hb : 1000 < pf d.payload 2 0 16 ∨ pf d.payload 4 0 16 = 0 ∨
    1000 < pf d.payload 4 0 16 ∨ pf d.payload 4 0 16 < pf d.payload 2 0 16) (h : Hub) :
    refPriorityEff d h = complete d.id .badParam h := by
  rcases Nat.lt_or_ge (pf d.payload 0 0 8) 16 with hm | hm
  · simp only [refPriorityEff, withFin_val (k := ⟨_, hm⟩) rfl, hb, if_true]
  · exact refPriorityEff_of_domain hm h

theorem exec_refPriority {o : Origin} {d : Desc} {s : State} (S : s.Serves o d) (hop : d.opcode = 0x21) :
    exec (.refPriority o) s =
      .next { toHub := refPriorityEff d (markApplied d.id s.toHub), pending := s.pending } := by
  have hs : refPriority o s.toHub = refPriorityEff d (markApplied d.id s.toHub) :=
    serve_eq S (by simp [isOp, hop]) (by rw [hop]; rfl)
  change run (refPriority o) s = _
  rw [run, hs]

/-! ## OUTPUT_CONFIG and the format of the bank (R195) -/

/-- Another output of the bank that is enabled, or has an enable pending, makes the bank busy. -/
theorem bankBusy_of_other {h : Hub} {n k : Fin 96} (hk : k ≠ n) (hb : bankOfOut k = bankOfOut n)
    (hr : h.outs[k].enabled = true ∨ ∃ w, h.outs[k].pend = some w ∧ w.enable = true) : h.bankBusy n = true := by
  unfold Hub.bankBusy
  rw [List.any_eq_true]
  refine ⟨k, List.mem_finRange k, ?_⟩
  simp only [bne_iff_ne.mpr hk, beq_iff_eq.mpr hb, Bool.true_and]
  rcases hr with he | ⟨w, hw, he⟩
  · simp only [he, Bool.true_or]
  · simp only [hw, he, Bool.or_true]

theorem outputConfigBad_of_bankBusy {h : Hub} {n : Fin 96} {p : Payload}
    (hf : BitVec.ofNat 3 (outFmt p) ≠ h.banks[bankOfOut n]) (hb : h.bankBusy n = true) : outputConfigBad h n p = true := by
  have hne : (BitVec.ofNat 3 (outFmt p) != h.banks[bankOfOut n]) = true := bne_iff_ne.mpr hf
  simp only [outputConfigBad, hne, hb, Bool.and_self, Bool.or_true, Bool.true_or]

/-- What R219 refuses is read off the outputs, the banks and the domains, which a mark leaves alone. -/
theorem outputConfigBad_markApplied (id : Nat) (h : Hub) (n : Fin 96) (p : Payload) :
    outputConfigBad (markApplied id h) n p = outputConfigBad h n p := rfl

theorem senseChange_banks (n : Fin 96) (h : Hub) : (senseChange n h).banks = h.banks :=
  (senseChange_kept (A := { dlls := any }) trivial (.refl h)).only.banks.resolve_left (by decide)

section
variable {d : Desc} {n : Fin 96} (hn : pf d.payload 0 0 8 = n.val) {h : Hub}
include hn

theorem outputConfigEff_bad (hb : outputConfigBad h n d.payload = true) :
    outputConfigEff d h = complete d.id .badParam h := by
  simp only [outputConfigEff, withFin_val hn, hb, if_true]

/-- Once accepted, the format stands in its bank: the settings, the sense point and the boundary that follow leave it. -/
theorem outputConfigEff_bank (hb : outputConfigBad h n d.payload = false) :
    (outputConfigEff d h).banks[bankOfOut n] = BitVec.ofNat 3 (outFmt d.payload) := by
  simp only [outputConfigEff, withFin_val hn, hb, Bool.false_eq_true, if_false, apply_ite Hub.banks, completeWith_banks,
    Hub.onOut_banks, senseChange_banks, copyWritten_banks, ite_self]
  exact upd_same ..

end

theorem exec_outputConfig {o : Origin} {d : Desc} {s : State} (S : s.Serves o d) (hop : d.opcode = 0x30) :
    exec (.outputConfig o) s =
      .next { toHub := outputConfigEff d (markApplied d.id s.toHub), pending := s.pending } := by
  have hs : outputConfig o s.toHub = outputConfigEff d (markApplied d.id s.toHub) :=
    serve_eq S (by simp [isOp, hop]) (by rw [hop]; rfl)
  change run (outputConfig o) s = _
  rw [run, hs]

end Sys2Proof.Machine

namespace Sys2Proof

open Machine

/-- Settles O17: each refused payload comes to its completion with BAD_PARAM alone, and an accepted OUTPUT_CONFIG writes its
bank, which nothing after it touches. -/
theorem settingsRefused : Obligations.SettingsRefused := by
  unfold Obligations.SettingsRefused
  refine ⟨fun o d s S hop hbad => ?priority, fun o d s n S hop hn hf => ⟨fun ⟨k, hk, hbank, hr⟩ => ?busy, fun hok => ?accepted⟩⟩
  case priority =>
    have he : refPriorityEff d (markApplied d.id s.toHub) = complete d.id .badParam (markApplied d.id s.toHub) :=
      hbad.elim (refPriorityEff_of_domain · _) (refPriorityEff_of_limits · _)
    have hkept := complete_markApplied_only d.id .badParam s.toHub
    exact ⟨_, he ▸ exec_refPriority S hop, hkept.eq_doms fun _ hk => hk, hkept.eq_refs fun _ hk => hk,
      fun _ ho hx => S.posted ho hx _⟩
  case busy =>
    have hb : outputConfigBad (markApplied d.id s.toHub) n d.payload = true :=
      (outputConfigBad_markApplied ..).trans (outputConfigBad_of_bankBusy hf (bankBusy_of_other hk hbank hr))
    have hkept := complete_markApplied_only d.id .badParam s.toHub
    exact ⟨_, outputConfigEff_bad hn hb ▸ exec_outputConfig S hop, hkept.eq_outs fun _ hk => hk,
      hkept.banks.resolve_left (by decide), fun _ ho hx => S.posted ho hx _⟩
  case accepted =>
    exact ⟨_, exec_outputConfig S hop, outputConfigEff_bank hn ((outputConfigBad_markApplied ..).trans hok)⟩

end Sys2Proof
end

section
/-!
SUPPORT. A monitor unit's sample (R436, R440): what one sample does to the accumulators, when the unit takes it, and the bit of
MON_EVT that rises.
-/

namespace Sys2Proof.Machine

/-! ## The sum (R436) -/

/-- A sum that fits in 64 signed bits is kept. -/
theorem satSigned64_of_fits {v : Int} (hlo : -(2 ^ 63) ≤ v) (hhi : v < 2 ^ 63) : satSigned 64 v = v := by
  unfold satSigned clampI
  omega

/-- A sum above the signed 64-bit range stops at its upper limit. -/
theorem satSigned64_of_above {v : Int} (hv : 2 ^ 63 ≤ v) : satSigned 64 v = 2 ^ 63 - 1 := by
  unfold satSigned clampI
  omega

/-- A sum below the signed 64-bit range stops at its lower limit. -/
theorem satSigned64_of_below {v : Int} (hv : v < -(2 ^ 63)) : satSigned 64 v = -(2 ^ 63) := by
  unfold satSigned clampI
  omega

section
variable {a : Acc} {v origin : Int} {flags width : Nat}

theorem accAdd_sum_of_saturated (hc : a.count = max32) : (accAdd a v flags width origin).sum = a.sum := by
  simp [accAdd, hc]

theorem accAdd_sum (hc : a.count < max32) : (accAdd a v flags width origin).sum = satSigned 64 (a.sum + v) := by
  simp [accAdd, hc]

/-- Bit 6, sum_sat, is set when the sum could not take the whole sample (R438). -/
theorem accAdd_sumSat (hc : a.count < max32) (hs : satSigned 64 (a.sum + v) ≠ a.sum + v) :
    (accAdd a v flags width origin).flags.getLsbD 6 = true := by
  have hfull : decide (max32 ≤ a.count) = false := decide_eq_false hc.not_ge
  have hne : (satSigned 64 (a.sum + v) != a.sum + v) = true := bne_iff_ne.mpr hs
  have hbit : flagSumSat.getLsbD 6 = true := rfl
  simp only [accAdd, hfull, hne, Bool.not_false, Bool.and_self, if_true, Bool.false_eq_true, if_false, BitVec.getLsbD_or,
    hbit, Bool.or_true]

/-! ## The extremes and the histogram (R436) -/

theorem accAdd_extremes_first (hc : a.count = 0) :
    (accAdd a v flags width origin).min = v ∧ (accAdd a v flags width origin).max = v :=
  ⟨if_pos hc, if_pos hc⟩

theorem accAdd_extremes_later (hc : 0 < a.count) :
    (accAdd a v flags width origin).min = min a.min v ∧ (accAdd a v flags width origin).max = max a.max v :=
  ⟨if_neg hc.ne', if_neg hc.ne'⟩

/-- i of R436: the number of bin widths from the origin down to the sample. -/
def binIndex (v origin : Int) (width : Nat) : Int := (v - origin).fdiv (max 1 width : Nat)

/-- The bin of a sample is i or a later one exactly when the sample is not below the foot of bin i. -/
theorem le_binIndex_iff (hw : 0 < width) (i : Int) : i ≤ binIndex v origin width ↔ origin + i * width ≤ v := by
  rw [binIndex, max_eq_right (show 1 ≤ width from hw), Int.fdiv_eq_ediv_of_nonneg _ (Int.natCast_nonneg _),
    Int.le_ediv_iff_mul_le (by omega)]
  omega

theorem accAdd_underCnt (hw : 0 < width) : (accAdd a v flags width origin).underCnt =
    if v < origin then satAdd max32 a.underCnt 1 else a.underCnt := by
  have hfoot := le_binIndex_iff (v := v) (origin := origin) hw 0
  have hunder : binIndex v origin width < 0 ↔ v < origin := by omega
  exact if_congr hunder rfl rfl

theorem accAdd_overCnt (hw : 0 < width) : (accAdd a v flags width origin).overCnt =
    if origin + 64 * width ≤ v then satAdd max32 a.overCnt 1 else a.overCnt := by
  have hover : 63 < binIndex v origin width ↔ origin + 64 * width ≤ v := le_binIndex_iff hw 64
  exact if_congr hover rfl rfl

/-- Bin k is counted up when it is the sample's, and stands otherwise. -/
theorem accAdd_bins_index (k : Fin 64) : (accAdd a v flags width origin).bins[k] =
    if binIndex v origin width = k.val then satAdd max32 a.bins[k] 1 else a.bins[k] := by
  have hb : (accAdd a v flags width origin).bins = match finOf 64 (binIndex v origin width).toNat with
      | some j => if 0 ≤ binIndex v origin width then upd a.bins j (satAdd max32 · 1) else a.bins
      | none => a.bins := rfl
  rw [hb]
  generalize binIndex v origin width = i
  unfold finOf
  by_cases hlt : i.toNat < 64
  · by_cases hi : 0 ≤ i
    · have hk : i = k.val ↔ k = ⟨i.toNat, hlt⟩ := by rw [Fin.ext_iff]; simp only; omega
      simp only [hlt, dif_pos, hi, if_true, Fin.getElem_fin, upd_get, hk]
    · have hk : i ≠ k.val := by omega
      simp only [hlt, dif_pos, hi, if_false, hk]
  · have hk : i ≠ k.val := by omega
    simp only [hlt, dif_neg, not_false_eq_true, hk, if_false]

theorem accAdd_bins (hw : 0 < width) (k : Fin 64) : (accAdd a v flags width origin).bins[k] =
    if origin + k.val * width ≤ v ∧ v < origin + (k.val + 1) * width then satAdd max32 a.bins[k] 1 else a.bins[k] := by
  have hfoot := le_binIndex_iff (v := v) (origin := origin) hw k.val
  have htop := le_binIndex_iff (v := v) (origin := origin) hw (k.val + 1)
  have hin : binIndex v origin width = k.val ↔ origin + k.val * width ≤ v ∧ v < origin + (k.val + 1) * width := by omega
  rw [accAdd_bins_index]
  exact if_congr hin rfl rfl

end

/-! ## MON_EVT (R440) -/

theorem Evt.raise_bits (e : Evt) (b : BitVec 16) : (e.raise b).bits = e.bits ||| b := by
  unfold Evt.raise
  split
  case isFalse => rfl
  case isTrue hstood =>
    ext i hi
    simpa [hi] using congrArg (·.getLsbD i) hstood

theorem bit16_getLsbD_self {i : Nat} (hi : i < 16) : (bit16 i).getLsbD i = true := by
  simp only [bit16, BitVec.getLsbD_ofNat, hi, decide_true, Nat.testBit_two_pow_self, Bool.and_self]

/-- An interrupt touches no monitor. -/
@[simp] theorem irqIf_mons (c : Bool) (n : Nat) (h : Hub) : (irqIf c n h).mons = h.mons :=
  (irqIf_kept (A := { parts := [.msix, .bus] }) (fun _ hp => hp) (.refl h)).only.eq_mons (by decide) fun _ hk => hk

theorem raiseMon_unit (u : Fin 32) (h : Hub) : (raiseMon u h).mons.unit = h.mons.unit := by
  simp [raiseMon]

theorem raiseMon_evt (u : Fin 32) (h : Hub) :
    (raiseMon u h).mons.evt = upd h.mons.evt ⟨u.val / 16, by omega⟩ fun e => e.raise (bit16 (u.val % 16)) := by
  simp [raiseMon]

theorem raiseMon_bit (u : Fin 32) (h : Hub) :
    (raiseMon u h).mons.evt[(⟨u.val / 16, by omega⟩ : Fin 2)].bits.getLsbD (u.val % 16) = true := by
  rw [raiseMon_evt, Fin.getElem_fin, upd_same, Evt.raise_bits, BitVec.getLsbD_or,
    bit16_getLsbD_self (Nat.mod_lt _ (by decide)), Bool.or_true]

/-! ## The sample (R435, R436) -/

/-- The unit after sample v, left by event n. -/
def Mon.sampled (x : Mon) (v : Int) (flags n : Nat) : Mon :=
  { x with acc := accAdd x.acc v flags x.width x.origin, seen := some n }

/-- R440: a sample outside the limits that are in force. -/
def Mon.alarms (x : Mon) (v : Int) : Bool := x.limEn && (decide (v < x.limitLo) || decide (x.limitHi < v))

theorem Mon.alarms_of_outside {x : Mon} {v : Int} (hl : x.limEn = true) (hv : v < x.limitLo ∨ x.limitHi < v) :
    x.alarms v = true := by
  simp [Mon.alarms, hl, hv]

theorem Mon.not_alarms {x : Mon} {v : Int} (hv : x.limEn = false ∨ (x.limitLo ≤ v ∧ v ≤ x.limitHi)) :
    x.alarms v = false := by
  rcases hv with hl | ⟨hlo, hhi⟩
  · simp [Mon.alarms, hl]
  · simp [Mon.alarms, hlo, hhi]

section
variable {u : Fin 32} {h : Hub} {v : Int} {n : Nat} (hr : h.runs = true) (hen : h.mons.unit[u].enabled = true)
  (hv : h.monValue h.mons.unit[u].quantity h.mons.unit[u].inst = some v)
  (hn : h.monEvent h.mons.unit[u].quantity h.mons.unit[u].inst = some n) (hs : h.mons.unit[u].seen ≠ some n)
include hr hen hv hn hs

/-- An enabled unit whose quantity has had an event that it has not seen takes the value, and raises its bit when that alarms. -/
theorem monSample_eq : monSample u h =
    let flags := h.monFlags h.mons.unit[u].quantity h.mons.unit[u].inst
    let t := h.onMon u fun y => y.sampled v flags n
    if h.mons.unit[u].alarms v then raiseMon u t else t := by
  have hnew : (some n != h.mons.unit[u].seen) = true := bne_iff_ne.mpr hs.symm
  simp only [monSample, hv, hr, hen, hn, hnew, Option.isSome_some, Bool.and_self, when_true]
  rfl

/-- A sample changes no unit but the one that takes it. -/
theorem monSample_unit : (monSample u h).mons.unit =
    upd h.mons.unit u fun y => y.sampled v (h.monFlags h.mons.unit[u].quantity h.mons.unit[u].inst) n := by
  rw [monSample_eq hr hen hv hn hs]
  dsimp only
  split
  case isTrue => rw [raiseMon_unit, Hub.onMon_mons]
  case isFalse => rw [Hub.onMon_mons]

theorem monSample_evt_of_alarms (ha : h.mons.unit[u].alarms v = true) :
    (monSample u h).mons.evt[(⟨u.val / 16, by omega⟩ : Fin 2)].bits.getLsbD (u.val % 16) = true := by
  rw [monSample_eq hr hen hv hn hs]
  dsimp only
  rw [if_pos ha]
  exact raiseMon_bit u _

theorem monSample_evt_of_not_alarms (ha : h.mons.unit[u].alarms v = false) : (monSample u h).mons.evt = h.mons.evt := by
  rw [monSample_eq hr hen hv hn hs]
  dsimp only
  rw [if_neg (Bool.eq_false_iff.mp ha), Hub.onMon_mons]

end

end Sys2Proof.Machine

namespace Sys2Proof

open Machine

/-- Settles O37: the unit takes the sample by accAdd, whose fields are R436's, and MON_EVT gets the unit's bit when the sample
alarms and stands when it does not. -/
theorem monitorsSample : Obligations.MonitorsSample := by
  unfold Obligations.MonitorsSample
  rintro s u x rfl hr hen v n hv hw hn hs
  have hunit := monSample_unit hr hen hv hn hs
  refine ⟨{ toHub := monSample u s.toHub, pending := s.pending },
    (s.mons.unit[u].sampled v (s.monFlags s.mons.unit[u].quantity s.mons.unit[u].inst) n).acc, rfl, ?unit,
    accAdd_extremes_first, accAdd_extremes_later, rfl, accAdd_sum_of_saturated, ?fits, ?above, ?below,
    accAdd_underCnt hw, accAdd_overCnt hw, accAdd_bins hw, ?alarm, ?quiet, ?others⟩
  case unit => rw [hunit]; exact upd_same ..
  case fits => exact fun hc hlo hhi => (accAdd_sum hc).trans (satSigned64_of_fits hlo hhi)
  case above =>
    intro hc hsum
    have hsat := satSigned64_of_above hsum
    exact ⟨(accAdd_sum hc).trans hsat, accAdd_sumSat hc (by omega)⟩
  case below =>
    intro hc hsum
    have hsat := satSigned64_of_below hsum
    exact ⟨(accAdd_sum hc).trans hsat, accAdd_sumSat hc (by omega)⟩
  case alarm => exact fun hl ho => monSample_evt_of_alarms hr hen hv hn hs (Mon.alarms_of_outside hl ho)
  case quiet => exact fun hq => monSample_evt_of_not_alarms hr hen hv hn hs (Mon.not_alarms hq)
  case others => exact fun k hk => by rw [hunit]; exact upd_other _ _ _ _ hk

end Sys2Proof
end

section
/-!
SUPPORT. What every command keeps and touches: each command's effect is one that the laws know, so its frame and the kept
invariants are read off that law.
-/

set_option Elab.async false

namespace Sys2Proof.Machine

theorem every {n : Nat} (k : Fin n) : any k := trivial

/-- Every part and every bank. -/
def Touch.all : Touch where
  parts := [.top, .parity, .pwr, .now, .clk, .dllEvt, .hostRegs, .cmdRings, .cplRings, .telRings, .strRings, .msix, .books, .spi,
    .tdc, .banks, .hier, .hierEvt, .runs, .comp, .store, .counters, .profile, .shimEvt, .shim, .cal, .collector, .fltEvt, .flt,
    .mons, .bus, .wire, .free]
  evts := any
  ivus := any
  refs := any
  doms := any
  outs := any
  plss := any
  links := any
  dlls := any
  mbx := any
  tasks := any
  reeds := any
  evTasks := any
  ptp := any
  units := any

theorem all_has {L : List Part} : Touch.all.has L := fun p _ => by cases p <;> decide

/-- The parts of L stand among A's. -/
theorem has_of {A : Touch} {L : List Part} (e : L.all (fun p => A.parts.contains p) = true) : A.has L :=
  fun p hp => by simpa using List.all_eq_true.mp e p hp

/-- A command that runs an effect with a law for A touches only A. -/
theorem Frame.of_kept {c : Instr} {A : Touch} {f : Hub → Hub} (he : ∀ s, exec c s = run f s)
    (hk : ∀ h, Kept A h h → Kept A h (f h)) : Frame c A :=
  fun s => ⟨_, he s, rfl, (hk s.toHub (.refl _)).only⟩

theorem frames_nil {A : Touch} : ∀ c ∈ ([] : List Instr), Frame c A := List.forall_mem_nil _

theorem frames_cons {A : Touch} {c : Instr} {l : List Instr} (hc : Frame c A) (hl : ∀ d ∈ l, Frame d A) :
    ∀ d ∈ c :: l, Frame d A := List.forall_mem_cons.mpr ⟨hc, hl⟩

/-- In every state the command answers, takes nothing from the queue, and keeps what is to be kept. -/
def Keeps (c : Instr) : Prop :=
  ∀ s : State, ∃ t, exec c s = .next t ∧ t.pending = s.pending ∧ Kept .all s.toHub t.toHub

theorem Keeps.of_kept {c : Instr} {f : Hub → Hub} (he : ∀ s, exec c s = run f s)
    (hk : ∀ h, Kept .all h h → Kept .all h (f h)) : Keeps c :=
  fun s => ⟨_, he s, rfl, hk s.toHub (.refl _)⟩

/-- Every command runs an effect that the laws know. -/
theorem exec_keeps (c : Instr) : Keeps c := by
  cases c with
  | nop _ => exact .of_kept (fun _ => rfl) fun _ => nop_kept all_has
  | readTime _ _ => exact .of_kept (fun _ => rfl) fun _ => readTime_kept all_has every
  | setTime _ => exact .of_kept (fun _ => rfl) fun _ => setTime_kept all_has every every every every
  | stepTime _ => exact .of_kept (fun _ => rfl) fun _ => stepTime_kept all_has every every every every
  | slewTime _ => exact .of_kept (fun _ => rfl) fun _ => slewTime_kept all_has every
  | domainConfig _ => exact .of_kept (fun _ => rfl) fun _ => domainConfig_kept all_has every
  | domainSteerSet _ => exact .of_kept (fun _ => rfl) fun _ => domainSteerSet_kept all_has every
  | domainSteerAdd _ => exact .of_kept (fun _ => rfl) fun _ => domainSteerAdd_kept all_has every
  | domainSteerHoTrim _ => exact .of_kept (fun _ => rfl) fun _ => domainSteerHoTrim_kept all_has every
  | domainModePolicy _ => exact .of_kept (fun _ => rfl) fun _ => domainModePolicy_kept all_has every
  | domainModeRealign _ => exact .of_kept (fun _ => rfl) fun _ => domainModeRealign_kept all_has every
  | domainModeClearTracked _ => exact .of_kept (fun _ => rfl) fun _ => domainModeClearTracked_kept all_has every
  | domainModeClearStepped _ => exact .of_kept (fun _ => rfl) fun _ => domainModeClearStepped_kept all_has every
  | refConfig _ => exact .of_kept (fun _ => rfl) fun _ => refConfig_kept all_has every every every every every every
  | refPriority _ => exact .of_kept (fun _ => rfl) fun _ => refPriority_kept all_has every
  | outputConfig _ => exact .of_kept (fun _ => rfl) fun _ => outputConfig_kept all_has every every
  | pulseConfig _ => exact .of_kept (fun _ => rfl) fun _ => pulseConfig_kept all_has every
  | pulseAnchorOnce _ => exact .of_kept (fun _ => rfl) fun _ => pulseAnchorOnce_kept all_has every
  | pulseAnchorTrack _ => exact .of_kept (fun _ => rfl) fun _ => pulseAnchorTrack_kept all_has every
  | pulseAnchorStop _ => exact .of_kept (fun _ => rfl) fun _ => pulseAnchorStop_kept all_has every
  | eventConfig _ => exact .of_kept (fun _ => rfl) fun _ => eventConfig_kept all_has every
  | intervalStartSingle _ => exact .of_kept (fun _ => rfl) fun _ => intervalStartSingle_kept all_has every
  | intervalStartRepeat _ => exact .of_kept (fun _ => rfl) fun _ => intervalStartRepeat_kept all_has every
  | intervalStartAbort _ => exact .of_kept (fun _ => rfl) fun _ => intervalStartAbort_kept all_has every
  | linkConfig _ =>
    exact .of_kept (fun _ => rfl) fun _ => linkConfig_kept all_has every every every every every every every
  | linkCalSetExt _ => exact .of_kept (fun _ => rfl) fun _ => linkCalSetExt_kept all_has every every every
  | linkCalLoopback _ => exact .of_kept (fun _ => rfl) fun _ => linkCalLoopback_kept all_has every
  | linkCalRebase _ => exact .of_kept (fun _ => rfl) fun _ => linkCalRebase_kept all_has every
  | taskAssign _ => exact .of_kept (fun _ => rfl) fun _ => taskAssign_kept all_has every every every every every
  | taskMove _ => exact .of_kept (fun _ => rfl) fun _ => taskMove_kept all_has every every
  | taskParam _ => exact .of_kept (fun _ => rfl) fun _ => taskParam_kept all_has every
  | shimRead _ => exact .of_kept (fun _ => rfl) fun _ => shimRead_kept all_has
  | shimTxnWrite _ _ => exact .of_kept (fun _ => rfl) fun _ => shimTxnWrite_kept all_has
  | shimTxnVerify _ => exact .of_kept (fun _ => rfl) fun _ => shimTxnVerify_kept all_has
  | shimTxnInvalidate _ => exact .of_kept (fun _ => rfl) fun _ => shimTxnInvalidate_kept all_has
  | shimTxnSettings _ => exact .of_kept (fun _ => rfl) fun _ => shimTxnSettings_kept all_has
  | peatRead _ => exact .of_kept (fun _ => rfl) fun _ => peatRead_kept all_has
  | peatArchiveArm _ => exact .of_kept (fun _ => rfl) fun _ => peatArchiveArm_kept all_has
  | peatArchiveCommit _ => exact .of_kept (fun _ => rfl) fun _ => peatArchiveCommit_kept all_has
  | monConfig _ => exact .of_kept (fun _ => rfl) fun _ => monConfig_kept all_has every every every every every every
  | monSnapshot _ => exact .of_kept (fun _ => rfl) fun _ => monSnapshot_kept all_has every
  | hierForward _ _ => exact .of_kept (fun _ => rfl) fun _ => hierForward_kept all_has every
  | hierDiscoverLocal _ => exact .of_kept (fun _ => rfl) fun _ => hierDiscoverLocal_kept all_has
  | hierDiscoverPtp _ => exact .of_kept (fun _ => rfl) fun _ => hierDiscoverPtp_kept all_has every every every
  | hierDiscoverScan _ => exact .of_kept (fun _ => rfl) fun _ => hierDiscoverScan_kept all_has every
  | hierDiscoverAssign _ => exact .of_kept (fun _ => rfl) fun _ => hierDiscoverAssign_kept all_has
  | halfPowerOff _ => exact .of_kept (fun _ => rfl) fun _ => halfPowerOff_kept all_has every every every every every
  | halfPowerOn _ => exact .of_kept (fun _ => rfl) fun _ => halfPowerOn_kept all_has every
  | selftestReed _ => exact .of_kept (fun _ => rfl) fun _ => selftestReed_kept all_has every every
  | selftestLane _ => exact .of_kept (fun _ => rfl) fun _ => selftestLane_kept all_has
  | selftestRoot _ => exact .of_kept (fun _ => rfl) fun _ => selftestRoot_kept all_has every
  | selftestHalf _ => exact .of_kept (fun _ => rfl) fun _ => selftestHalf_kept all_has every every every every every
  | selftestImage _ => exact .of_kept (fun _ => rfl) fun _ => selftestImage_kept all_has
  | selftestLink _ => exact .of_kept (fun _ => rfl) fun _ => selftestLink_kept all_has every every every every
  | selftestComplete _ => exact .of_kept (fun _ => rfl) fun _ => selftestComplete_kept all_has every every every
  | commandDoorbell _ _ _ => exact .of_kept (fun _ => rfl) fun _ => commandDoorbell_kept all_has every
  | consumerDoorbell _ _ => exact .of_kept (fun _ => rfl) fun _ => consumerDoorbell_kept all_has every
  | descriptorFetch _ _ => exact .of_kept (fun _ => rfl) fun _ => descriptorFetch_kept all_has
  | fastRingDescriptor _ _ _ => exact .of_kept (fun _ => rfl) fun _ => fastRingDescriptor_kept all_has every
  | descriptorReadError _ _ _ => exact .of_kept (fun _ => rfl) fun _ => descriptorReadError_kept all_has
  | ringEnable _ _ _ =>
    exact .of_kept (fun _ => rfl) fun _ => ringEnable_kept all_has every every every every every every every every
      every every every every every every
  | ringDisable _ _ _ =>
    exact .of_kept (fun _ => rfl) fun _ => ringDisable_kept all_has every every every every every every every every
      every every every every every every
  | commandRingDrained _ => exact .of_kept (fun _ => rfl) fun _ => commandRingDrained_kept all_has
  | coalesceTimeout _ => exact .of_kept (fun _ => rfl) fun _ => coalesceTimeout_kept all_has every
  | msixUnmask _ => exact .of_kept (fun _ => rfl) fun _ => msixUnmask_kept all_has
  | endpointReset _ => exact .of_kept (fun _ => rfl) fun _ => endpointReset_kept all_has every every
  | endpointReady => exact .of_kept (fun _ => rfl) fun _ => endpointReady_kept all_has
  | registerWrite _ _ _ _ _ =>
    exact .of_kept (fun _ => rfl) fun _ => registerWrite_kept all_has every every every every every every every every
      every every every every every every
  | aliasWrite _ _ _ =>
    exact .of_kept (fun _ => rfl) fun _ => aliasWrite_kept all_has every every every every every every every every
      every every every every every every
  | eventStatusAck _ _ _ =>
    exact .of_kept (fun _ => rfl) fun _ => eventStatusAck_kept all_has every every every every every every
  | clkDllEvtAck _ _ _ => exact .of_kept (fun _ => rfl) fun _ => clkDllEvtAck_kept all_has every
  | domEvtAck _ _ _ => exact .of_kept (fun _ => rfl) fun _ => domEvtAck_kept all_has trivial
  | fltEvtAck _ _ => exact .of_kept (fun _ => rfl) fun _ => fltEvtAck_kept all_has
  | fltSafeAck _ _ => exact .of_kept (fun _ => rfl) fun _ => fltSafeAck_kept all_has every
  | fltDegLnkAck _ _ _ => exact .of_kept (fun _ => rfl) fun _ => fltDegLnkAck_kept all_has
  | fltPinRelease _ =>
    exact .of_kept (fun _ => rfl) fun _ => fltPinRelease_kept all_has every every every every every every every every
      every every every every every every
  | fltPinHoldWrite _ _ =>
    exact .of_kept (fun _ => rfl) fun _ => fltPinHoldWrite_kept all_has every every every every every every every
      every every every every every every every
  | topVioClr _ _ =>
    exact .of_kept (fun _ => rfl) fun _ => topVioClr_kept all_has every every every every every every every every
      every every every every every every
  | topResetWrite _ _ _ =>
    exact .of_kept (fun _ => rfl) fun _ => topResetWrite_kept all_has every every every every every every every every
      every every every every every every
  | mbxReq _ _ =>
    exact .of_kept (fun _ => rfl) fun _ => mbxReq_kept all_has every every every every every every every every every
      every every every every every
  | mbxSnapshotValid _ => exact .of_kept (fun _ => rfl) fun _ => mbxSnapshotValid_kept trivial
  | mbxData3Read _ _ => exact .of_kept (fun _ => rfl) fun _ => mbxData3Read_kept all_has trivial
  | spiReadTransaction _ _ _ => exact .of_kept (fun _ => rfl) fun _ => spiReadTransaction_kept all_has every every
  | spiWriteTransaction _ _ _ _ _ =>
    exact .of_kept (fun _ => rfl) fun _ => spiWriteTransaction_kept all_has every every every every every every every
      every every every every every every every
  | shimLdrOfsWrite _ _ =>
    exact .of_kept (fun _ => rfl) fun _ => shimLdrOfsWrite_kept all_has every every every every every every every
      every every every every every every every
  | shimLdrDataWrite _ _ =>
    exact .of_kept (fun _ => rfl) fun _ => shimLdrDataWrite_kept all_has every every every every every every every
      every every every every every every every
  | shimLdrVerify _ =>
    exact .of_kept (fun _ => rfl) fun _ => shimLdrVerify_kept all_has every every every every every every every every
      every every every every every every
  | loaderVerifyDone =>
    exact .of_kept (fun _ => rfl) fun _ => loaderVerifyDone_kept all_has every every every every every every every
      every every every every every every every
  | journalTransaction _ => exact .of_kept (fun _ => rfl) fun _ => journalTransaction_kept all_has
  | scrubGroupRead _ => exact .of_kept (fun _ => rfl) fun _ => scrubGroupRead_kept all_has
  | profileAutostart => exact .of_kept (fun _ => rfl) fun _ => profileAutostart_kept all_has
  | hourCounterTick => exact .of_kept (fun _ => rfl) fun _ => hourCounterTick_kept all_has
  | tick1ms _ =>
    exact .of_kept (fun _ => rfl) fun _ => tick1ms_kept all_has every every every every every every every every every
      every
  | tick1s =>
    exact .of_kept (fun _ => rfl) fun _ => tick1s_kept all_has every every every every every every every every
  | holdoverTimerExpiry _ => exact .of_kept (fun _ => rfl) fun _ => holdoverTimerExpiry_kept all_has trivial
  | revertiveHoldoffExpiry _ => exact .of_kept (fun _ => rfl) fun _ => revertiveHoldoffExpiry_kept trivial
  | domainSecondMark _ => exact .of_kept (fun _ => rfl) fun _ => domainSecondMark_kept all_has every every every every
  | rootLock _ =>
    exact .of_kept (fun _ => rfl) fun _ => bootRootLock_kept all_has every every every every every every every every
      every
  | rootLockTimeout _ =>
    exact .of_kept (fun _ => rfl) fun _ => bootRootLockTimeout_kept all_has every every every every every every every
      every every
  | rootFaultDetected _ _ => exact .of_kept (fun _ => rfl) fun _ => rootFaultDetected_kept all_has every
  | rootXJump _ => exact .of_kept (fun _ => rfl) fun _ => rootXJump_kept all_has every
  | jumpAttributed _ => exact .of_kept (fun _ => rfl) fun _ => jumpAttributed_kept all_has every
  | jumpAttributionTimeout => exact .of_kept (fun _ => rfl) fun _ => jumpAttributionTimeout_kept all_has every
  | ovenBandEntry => exact .of_kept (fun _ => rfl) fun _ => ovenBandEntry_kept all_has
  | ovenBandExit => exact .of_kept (fun _ => rfl) fun _ => ovenBandExit_kept all_has
  | tbWarmRise => exact .of_kept (fun _ => rfl) fun _ => tbWarmRise_kept all_has every
  | ovenWarmupLimit => exact .of_kept (fun _ => rfl) fun _ => ovenWarmupLimit_kept all_has
  | ladderLock _ => exact .of_kept (fun _ => rfl) fun _ => ladderLock_kept all_has
  | ladderLossOfLock _ => exact .of_kept (fun _ => rfl) fun _ => ladderLossOfLock_kept all_has
  | dllLock _ _ _ => exact .of_kept (fun _ => rfl) fun _ => dllLock_kept trivial trivial
  | dllLossOfLock _ _ _ => exact .of_kept (fun _ => rfl) fun _ => dllLossOfLock_kept all_has trivial
  | eventEdge _ _ _ => exact .of_kept (fun _ => rfl) fun _ => eventEdge_kept all_has every every every every
  | eventWidthEnd _ _ => exact .of_kept (fun _ => rfl) fun _ => eventWidthEnd_kept all_has trivial every
  | streamRecordDma _ _ => exact .of_kept (fun _ => rfl) fun _ => streamRecordDma_kept all_has trivial
  | frontEndBlankEnd _ => exact .of_kept (fun _ => rfl) fun _ => frontEndBlankEnd_kept all_has every every every
  | ivuStartEdge _ _ _ => exact .of_kept (fun _ => rfl) fun _ => ivuStartEdge_kept all_has every trivial every every
  | ivuStopEdge _ _ _ => exact .of_kept (fun _ => rfl) fun _ => ivuStopEdge_kept all_has every trivial every every
  | ivuWindowTimeout _ => exact .of_kept (fun _ => rfl) fun _ => ivuWindowTimeout_kept all_has trivial every
  | ivuStartWaitExpired _ => exact .of_kept (fun _ => rfl) fun _ => ivuStartWaitExpired_kept all_has trivial every
  | refPulseEdge _ _ _ => exact .of_kept (fun _ => rfl) fun _ => refPulseEdge_kept all_has every every every
  | todSentence _ _ _ => exact .of_kept (fun _ => rfl) fun _ => todSentence_kept all_has every every
  | irigFrame _ _ _ => exact .of_kept (fun _ => rfl) fun _ => irigFrame_kept all_has every every
  | refqSample _ _ => exact .of_kept (fun _ => rfl) fun _ => refqSample_kept all_has trivial every
  | refLossDetected _ => exact .of_kept (fun _ => rfl) fun _ => refLossDetected_kept all_has trivial every
  | qualifyTimerExpiry _ => exact .of_kept (fun _ => rfl) fun _ => qualifyTimerExpiry_kept all_has trivial
  | requalifyTimerExpiry _ => exact .of_kept (fun _ => rfl) fun _ => requalifyTimerExpiry_kept all_has trivial
  | outputBoundary _ => exact .of_kept (fun _ => rfl) fun _ => outputBoundary_kept all_has every trivial trivial
  | pulseGridInstant _ => exact .of_kept (fun _ => rfl) fun _ => pulseGridInstant_kept all_has every trivial
  | pulseAnchorEdge _ _ _ =>
    exact .of_kept (fun _ => rfl) fun _ => pulseAnchorEdge_kept all_has every every every trivial
  | anchorLostTimeout _ => exact .of_kept (fun _ => rfl) fun _ => anchorLostTimeout_kept all_has every trivial
  | anchorOnceTimeout _ => exact .of_kept (fun _ => rfl) fun _ => anchorOnceTimeout_kept all_has every trivial
  | tmarkSend _ _ => exact .of_kept (fun _ => rfl) fun _ => tmarkSend_kept all_has every every every trivial
  | techoSend _ _ => exact .of_kept (fun _ => rfl) fun _ => techoSend_kept all_has every every every trivial
  | statFrameSend _ => exact .of_kept (fun _ => rfl) fun _ => statFrameSend_kept all_has trivial
  | mgmtSegmentSend _ => exact .of_kept (fun _ => rfl) fun _ => mgmtSegmentSend_kept all_has trivial
  | tmarkReceived _ _ _ => exact .of_kept (fun _ => rfl) fun _ => tmarkReceived_kept all_has every every every trivial
  | techoReceived _ _ _ => exact .of_kept (fun _ => rfl) fun _ => techoReceived_kept all_has every every every trivial
  | todFrameReceived _ _ => exact .of_kept (fun _ => rfl) fun _ => todFrameReceived_kept all_has every trivial
  | statFrameReceived _ _ => exact .of_kept (fun _ => rfl) fun _ => statFrameReceived_kept all_has every every trivial
  | mgmtSegmentReceived _ _ => exact .of_kept (fun _ => rfl) fun _ => mgmtSegmentReceived_kept all_has every
  | blockLock _ => exact .of_kept (fun _ => rfl) fun _ => blockLock_kept all_has every every trivial trivial
  | blockLockLost _ => exact .of_kept (fun _ => rfl) fun _ => blockLockLost_kept all_has every every trivial trivial
  | receiverSignalLost _ =>
    exact .of_kept (fun _ => rfl) fun _ => receiverSignalLost_kept all_has every every trivial trivial
  | marksMissingTimeout _ =>
    exact .of_kept (fun _ => rfl) fun _ => marksMissingTimeout_kept all_has every every trivial trivial
  | echoMissing _ => exact .of_kept (fun _ => rfl) fun _ => echoMissing_kept all_has every every trivial
  | mgmtResendTimeout _ => exact .of_kept (fun _ => rfl) fun _ => mgmtResendTimeout_kept all_has every trivial
  | mgmtMessageTimeout _ => exact .of_kept (fun _ => rfl) fun _ => mgmtMessageTimeout_kept all_has every trivial
  | loopbackComplete _ =>
    exact .of_kept (fun _ => rfl) fun _ => loopbackComplete_kept all_has every every trivial trivial
  | sbxScan _ _ => exact .of_kept (fun _ => rfl) fun _ => sbxScan_kept all_has every every every every
  | i2cModulePoll _ _ _ => exact .of_kept (fun _ => rfl) fun _ => i2cModulePoll_kept all_has trivial
  | announceSend => exact .of_kept (fun _ => rfl) fun _ => announceSend_kept all_has every
  | announceReceived => exact .of_kept (fun _ => rfl) fun _ => announceReceived_kept all_has
  | discoverSend => exact .of_kept (fun _ => rfl) fun _ => discoverSend_kept all_has every
  | discoverReceived => exact .of_kept (fun _ => rfl) fun _ => discoverReceived_kept all_has
  | reportSend => exact .of_kept (fun _ => rfl) fun _ => reportSend_kept all_has every
  | reportReceived => exact .of_kept (fun _ => rfl) fun _ => reportReceived_kept all_has every
  | assignReceived => exact .of_kept (fun _ => rfl) fun _ => assignReceived_kept all_has
  | descReceived => exact .of_kept (fun _ => rfl) fun _ => descReceived_kept all_has
  | complSend => exact .of_kept (fun _ => rfl) fun _ => complSend_kept all_has every
  | complReceived => exact .of_kept (fun _ => rfl) fun _ => complReceived_kept all_has
  | hierForwardTimeout _ => exact .of_kept (fun _ => rfl) fun _ => hierForwardTimeout_kept all_has
  | scanComplete => exact .of_kept (fun _ => rfl) fun _ => scanComplete_kept all_has
  | managerSilentTimeout => exact .of_kept (fun _ => rfl) fun _ => managerSilentTimeout_kept all_has
  | lowestTupleTimeout => exact .of_kept (fun _ => rfl) fun _ => lowestTupleTimeout_kept all_has
  | ptpEventMessage _ _ _ => exact .of_kept (fun _ => rfl) fun _ => ptpEventMessage_kept all_has every trivial
  | ptpSyncReceived _ _ _ _ => exact .of_kept (fun _ => rfl) fun _ => ptpSyncReceived_kept all_has every trivial
  | ptpSyncTimeout _ => exact .of_kept (fun _ => rfl) fun _ => ptpSyncTimeout_kept all_has every every
  | esmcPduSend _ => exact .of_kept (fun _ => rfl) fun _ => esmcPduSend_kept all_has trivial
  | esmcEventPduSend _ => exact .of_kept (fun _ => rfl) fun _ => esmcEventPduSend_kept all_has trivial
  | esmcPduReceived _ _ => exact .of_kept (fun _ => rfl) fun _ => esmcPduReceived_kept all_has every every trivial
  | esmcAbsentTimeout _ => exact .of_kept (fun _ => rfl) fun _ => esmcAbsentTimeout_kept all_has every every trivial
  | checkpointWrite _ _ => exact .of_kept (fun _ => rfl) fun _ => checkpointWrite_kept trivial
  | taskMoveAtCheckpoint _ => exact .of_kept (fun _ => rfl) fun _ => taskMoveAtCheckpoint_kept all_has every every
  | reedSramError _ => exact .of_kept (fun _ => rfl) fun _ => reedSramError_kept all_has every every every every every
  | reedHeartbeatTimeout _ =>
    exact .of_kept (fun _ => rfl) fun _ => reedHeartbeatTimeout_kept all_has every every every every every
  | reedTrap _ => exact .of_kept (fun _ => rfl) fun _ => reedTrap_kept all_has every every every every every
  | reedDebugHalt _ => exact .of_kept (fun _ => rfl) fun _ => reedDebugHalt_kept all_has every every every every every
  | reedDebugResume _ => exact .of_kept (fun _ => rfl) fun _ => reedDebugResume_kept all_has every every
  | taskRestored _ _ _ =>
    exact .of_kept (fun _ => rfl) fun _ => taskRestored_kept all_has every every every trivial every every
  | halfLost _ => exact .of_kept (fun _ => rfl) fun _ => halfLost_kept all_has every every every every every every
  | halfPowerOffDone => exact .of_kept (fun _ => rfl) fun _ => halfPowerOffDone_kept all_has every
  | halfPowerOnDone => exact .of_kept (fun _ => rfl) fun _ => halfPowerOnDone_kept all_has every every
  | wardenHeartbeatTimeout _ =>
    exact .of_kept (fun _ => rfl) fun _ => wardenHeartbeatTimeout_kept all_has every every every every every every
  | wardenRelease _ => exact .of_kept (fun _ => rfl) fun _ => wardenRelease_kept all_has
  | chargeClaim _ _ =>
    exact .of_kept (fun _ => rfl) fun _ => bootChargeClaim_kept all_has every every every every every every every
      every every every
  | splitCharge => exact .of_kept (fun _ => rfl) fun _ => splitCharge_kept all_has every
  | reservationAgeTimeout _ => exact .of_kept (fun _ => rfl) fun _ => reservationAgeTimeout_kept all_has
  | eventTaskRecord _ => exact .of_kept (fun _ => rfl) fun _ => eventTaskRecord_kept all_has trivial
  | recoveryStabilityTimeout => exact .of_kept (fun _ => rfl) fun _ => recoveryStabilityTimeout_kept all_has
  | faultMessage =>
    exact .of_kept (fun _ => rfl) fun _ => faultMessage_kept all_has every every every every every every every every
  | collectorOverflowReport => exact .of_kept (fun _ => rfl) fun _ => collectorOverflowReport_kept all_has
  | faultNTimerExpiry => exact .of_kept (fun _ => rfl) fun _ => faultNTimerExpiry_kept all_has
  | fatalDump => exact .of_kept (fun _ => rfl) fun _ => fatalDump_kept all_has every
  | paritySweep _ => exact .of_kept (fun _ => rfl) fun _ => paritySweep_kept all_has
  | monSample _ => exact .of_kept (fun _ => rfl) fun _ => monSample_kept all_has trivial
  | monWindowClose _ => exact .of_kept (fun _ => rfl) fun _ => monWindowClose_kept all_has every trivial
  | vinRise _ =>
    exact .of_kept (fun _ => rfl) fun _ => vinRise_kept all_has every every every every every every every every every
      every every every every every
  | vinFall _ =>
    exact .of_kept (fun _ => rfl) fun _ => vinFall_kept all_has every every every every every every every every every
      every every every every every
  | enHigh =>
    exact .of_kept (fun _ => rfl) fun _ => enHigh_kept all_has every every every every every every every every every
      every every every every every
  | enLow =>
    exact .of_kept (fun _ => rfl) fun _ => enLow_kept all_has every every every every every every every every every
      every every every every every
  | railRetryTimeout => exact .of_kept (fun _ => rfl) fun _ => railRetryTimeout_kept all_has
  | bootEnd =>
    exact .of_kept (fun _ => rfl) fun _ => bootEnd_kept all_has every every every every every every every every every
      every every
  | pfailAssert _ =>
    exact .of_kept (fun _ => rfl) fun _ => pfailAssert_kept all_has every every every every every every every every
      every
  | pfailDeassert _ => exact .of_kept (fun _ => rfl) fun _ => pfailDeassert_kept all_has
  | vinOvervoltage _ => exact .of_kept (fun _ => rfl) fun _ => vinOvervoltage_kept all_has
  | converterPhaseLost _ => exact .of_kept (fun _ => rfl) fun _ => converterPhaseLost_kept all_has
  | thermalWarn _ _ => exact .of_kept (fun _ => rfl) fun _ => thermalWarn_kept all_has
  | thermalTrip _ _ =>
    exact .of_kept (fun _ => rfl) fun _ => thermalTrip_kept all_has every every every every every every every every
      every every every every every every
  | thermalAutoRestart _ =>
    exact .of_kept (fun _ => rfl) fun _ => thermalAutoRestart_kept all_has every every every every every every every
      every every every every every every every
  | receiverSignalDetected _ => exact .of_kept (fun _ => rfl) fun _ => receiverSignalDetected_kept all_has trivial
  | rootRelationValid => exact .of_kept (fun _ => rfl) fun _ => rootRelationValid_kept all_has
  | pulseEnd _ => exact .of_kept (fun _ => rfl) fun _ => pulseEnd_kept all_has every trivial
  | thermalWarnClear _ => exact .of_kept (fun _ => rfl) fun _ => thermalWarnClear_kept all_has
  | converterPhaseRestored _ => exact .of_kept (fun _ => rfl) fun _ => converterPhaseRestored_kept all_has
  | railRetryWaitExpiry => exact .of_kept (fun _ => rfl) fun _ => railRetryWaitExpiry_kept all_has
  | vddpBankMeasurement _ => exact .of_kept (fun _ => rfl) fun _ => vddpBankMeasurement_kept every
  | ptpAnnounceReceived _ _ =>
    exact .of_kept (fun _ => rfl) fun _ => ptpAnnounceReceived_kept all_has every every every
  | ptpAnnounceReceiptTimeout _ =>
    exact .of_kept (fun _ => rfl) fun _ => ptpAnnounceReceiptTimeout_kept all_has every every every

/-- A step takes the command at the front, if there is one, and keeps what is to be kept. -/
theorem step_keeps (s : State) : ∃ t, step s = .next t ∧ t.pending = s.pending.tail ∧ Kept .all s.toHub t.toHub := by
  unfold step
  split
  case h_1 hq => exact ⟨s, rfl, by rw [hq]; rfl, .refl _⟩
  case h_2 c rest hq =>
    obtain ⟨t, he, hp, hk⟩ := exec_keeps c { s with pending := rest }
    exact ⟨t, he, by rw [hp, hq]; rfl, hk⟩

theorem step_kept {s t : State} (e : step s = .next t) : Kept .all s.toHub t.toHub := by
  obtain ⟨u, hu, -, hk⟩ := step_keeps s
  obtain rfl : u = t := Host.Outcome.next.inj (hu.symm.trans e)
  exact hk

end Sys2Proof.Machine

namespace Sys2Proof

open Machine

/-- Settles O56: the law of the front command keeps the memory's canonical form. -/
theorem stepKeepsShimStore : Obligations.StepKeepsShimStore :=
  fun _ _ hs e => (step_kept e).mem hs

/-- Settles O57: the law of the front command keeps the bounds of the queues and the order of the descriptors. -/
theorem stepKeepsQueues : Obligations.StepKeepsQueues :=
  ⟨fun _ _ hc hq e => ⟨(step_kept e).flt hc, (step_kept e).evts hq⟩, fun _ _ hi e => (step_kept e).ids hi⟩

/-- Settles O53: both clauses are `step`'s own equations. -/
theorem stepRunsFrontCommand : Obligations.StepRunsFrontCommand := by
  unfold Obligations.StepRunsFrontCommand
  exact ⟨fun _ _ => rfl, fun s hq => by rw [step, hq]⟩

/-- Settles O54: every command runs an effect on the hub, which always answers and leaves the queue alone. -/
theorem everyStepAnswers : Obligations.EveryStepAnswers := by
  unfold Obligations.EveryStepAnswers
  constructor
  · intro s
    obtain ⟨t, he, hp, -⟩ := step_keeps s
    exact ⟨t, he, hp⟩
  · intro c s
    obtain ⟨t, he, hp, -⟩ := exec_keeps c s
    exact ⟨t, he, hp⟩

/-- Settles O55: after reset the memory, the queues and the descriptors in progress are empty. -/
theorem resetIsKept : Obligations.ResetIsKept := by
  unfold Obligations.ResetIsKept
  refine ⟨rfl, ⟨Nat.zero_le _, Nat.zero_le _⟩, fun n => ?queues, ⟨List.Pairwise.nil, fun d hd => nomatch hd⟩⟩
  case queues =>
    have hreset : State.reset.toHub.evts[n] = { cfg := resetEvtCfg n } := bankOf_getElem _ n
    rw [hreset]
    exact Nat.zero_le _

/-- Settles O58: each descriptor's law, with what the statement names. -/
theorem descriptorsTouch : Obligations.DescriptorsTouch := by
  unfold Obligations.DescriptorsTouch
  exact ⟨
    fun _ => .of_kept (fun _ => rfl) fun _ => nop_kept (has_of rfl),
    fun _ _ => .of_kept (fun _ => rfl) fun _ => readTime_kept (has_of rfl) every,
    fun _ => frames_cons (.of_kept (fun _ => rfl) fun _ => setTime_kept (has_of rfl) every every every every) <|
      frames_cons (.of_kept (fun _ => rfl) fun _ => stepTime_kept (has_of rfl) every every every every) frames_nil,
    fun _ => frames_cons (.of_kept (fun _ => rfl) fun _ => slewTime_kept (has_of rfl) every) <|
      frames_cons (.of_kept (fun _ => rfl) fun _ => domainConfig_kept (has_of rfl) every) <|
      frames_cons (.of_kept (fun _ => rfl) fun _ => domainSteerHoTrim_kept (has_of rfl) every) <|
      frames_cons (.of_kept (fun _ => rfl) fun _ => domainModePolicy_kept (has_of rfl) every) <|
      frames_cons (.of_kept (fun _ => rfl) fun _ => domainModeRealign_kept (has_of rfl) every) <|
      frames_cons (.of_kept (fun _ => rfl) fun _ => domainModeClearTracked_kept (has_of rfl) every) <|
      frames_cons (.of_kept (fun _ => rfl) fun _ => domainModeClearStepped_kept (has_of rfl) every) <|
      frames_cons (.of_kept (fun _ => rfl) fun _ => refPriority_kept (has_of rfl) every) frames_nil,
    fun _ => frames_cons (.of_kept (fun _ => rfl) fun _ => domainSteerSet_kept (has_of rfl) every) <|
      frames_cons (.of_kept (fun _ => rfl) fun _ => domainSteerAdd_kept (has_of rfl) every) frames_nil,
    fun _ => .of_kept (fun _ => rfl) fun _ => refConfig_kept (has_of rfl) every every every every every every,
    fun _ => .of_kept (fun _ => rfl) fun _ => outputConfig_kept (has_of rfl) every every,
    fun _ => .of_kept (fun _ => rfl) fun _ => pulseConfig_kept (has_of rfl) every,
    fun _ => frames_cons (.of_kept (fun _ => rfl) fun _ => pulseAnchorOnce_kept (has_of rfl) every) <|
      frames_cons (.of_kept (fun _ => rfl) fun _ => pulseAnchorTrack_kept (has_of rfl) every) <|
      frames_cons (.of_kept (fun _ => rfl) fun _ => pulseAnchorStop_kept (has_of rfl) every) frames_nil,
    fun _ => .of_kept (fun _ => rfl) fun _ => eventConfig_kept (has_of rfl) every,
    fun _ => frames_cons (.of_kept (fun _ => rfl) fun _ => intervalStartSingle_kept (has_of rfl) every) <|
      frames_cons (.of_kept (fun _ => rfl) fun _ => intervalStartRepeat_kept (has_of rfl) every) frames_nil,
    fun _ => .of_kept (fun _ => rfl) fun _ => intervalStartAbort_kept (has_of rfl) every,
    fun _ => .of_kept (fun _ => rfl) fun _ => linkConfig_kept (has_of rfl) every every every every every every every,
    fun _ => .of_kept (fun _ => rfl) fun _ => linkCalSetExt_kept (has_of rfl) every every every,
    fun _ => frames_cons (.of_kept (fun _ => rfl) fun _ => linkCalLoopback_kept (has_of rfl) every) <|
      frames_cons (.of_kept (fun _ => rfl) fun _ => linkCalRebase_kept (has_of rfl) every) frames_nil,
    fun _ => frames_cons (.of_kept (fun _ => rfl) fun _ => taskAssign_kept (has_of rfl) every every every every every)
        <|
      frames_cons (.of_kept (fun _ => rfl) fun _ => halfPowerOff_kept (has_of rfl) every every every every every)
        frames_nil,
    fun _ => .of_kept (fun _ => rfl) fun _ => taskMove_kept (has_of rfl) every every,
    fun _ => .of_kept (fun _ => rfl) fun _ => taskParam_kept (has_of rfl) every,
    fun _ => frames_cons (.of_kept (fun _ => rfl) fun _ => shimRead_kept (has_of rfl)) <|
      frames_cons (.of_kept (fun _ => rfl) fun _ => shimTxnVerify_kept (has_of rfl)) <|
      frames_cons (.of_kept (fun _ => rfl) fun _ => peatRead_kept (has_of rfl)) frames_nil,
    fun _ => .of_kept (fun _ => rfl) fun _ => shimTxnInvalidate_kept (has_of rfl),
    fun _ => .of_kept (fun _ => rfl) fun _ => shimTxnSettings_kept (has_of rfl),
    fun _ => .of_kept (fun _ => rfl) fun _ => peatArchiveArm_kept (has_of rfl),
    fun _ => .of_kept (fun _ => rfl) fun _ => peatArchiveCommit_kept (has_of rfl),
    fun _ => .of_kept (fun _ => rfl) fun _ => monConfig_kept (has_of rfl) every every every every every every,
    fun _ => .of_kept (fun _ => rfl) fun _ => monSnapshot_kept (has_of rfl) every,
    fun _ _ => .of_kept (fun _ => rfl) fun _ => hierForward_kept (has_of rfl) every,
    fun _ => .of_kept (fun _ => rfl) fun _ => hierDiscoverScan_kept (has_of rfl) every,
    fun _ => .of_kept (fun _ => rfl) fun _ => hierDiscoverLocal_kept (has_of rfl),
    fun _ => .of_kept (fun _ => rfl) fun _ => hierDiscoverPtp_kept (has_of rfl) every every every,
    fun _ => .of_kept (fun _ => rfl) fun _ => hierDiscoverAssign_kept (has_of rfl),
    fun _ => .of_kept (fun _ => rfl) fun _ => halfPowerOn_kept (has_of rfl) every,
    fun _ => .of_kept (fun _ => rfl) fun _ => selftestReed_kept (has_of rfl) every every,
    fun _ => .of_kept (fun _ => rfl) fun _ => selftestLane_kept (has_of rfl),
    fun _ => .of_kept (fun _ => rfl) fun _ => selftestRoot_kept (has_of rfl) every,
    fun _ => .of_kept (fun _ => rfl) fun _ => selftestHalf_kept (has_of rfl) every every every every every,
    fun _ => .of_kept (fun _ => rfl) fun _ => selftestImage_kept (has_of rfl),
    fun _ => .of_kept (fun _ => rfl) fun _ => selftestLink_kept (has_of rfl) every every every every,
    fun _ _ => .of_kept (fun _ => rfl) fun _ => shimTxnWrite_kept (has_of rfl)⟩

/-- Settles O59: each event's law, with what the statement names. -/
theorem eventsTouch : Obligations.EventsTouch := by
  unfold Obligations.EventsTouch
  exact ⟨
    ⟨fun _ _ => frames_cons (.of_kept (fun _ => rfl) fun _ => tmarkSend_kept (has_of rfl) every every every rfl) <|
       frames_cons (.of_kept (fun _ => rfl) fun _ => techoSend_kept (has_of rfl) every every every rfl) frames_nil,
     fun _ => .of_kept (fun _ => rfl) fun _ => statFrameSend_kept (has_of rfl) rfl,
     fun _ => .of_kept (fun _ => rfl) fun _ => mgmtSegmentSend_kept (has_of rfl) rfl,
     fun _ _ _ => .of_kept (fun _ => rfl) fun _ => tmarkReceived_kept (has_of rfl) every every every rfl,
     fun _ _ _ => .of_kept (fun _ => rfl) fun _ => techoReceived_kept (has_of rfl) every every every rfl,
     fun _ _ => .of_kept (fun _ => rfl) fun _ => todFrameReceived_kept (has_of rfl) every rfl,
     fun _ _ => .of_kept (fun _ => rfl) fun _ => statFrameReceived_kept (has_of rfl) every every rfl,
     fun _ _ => .of_kept (fun _ => rfl) fun _ => mgmtSegmentReceived_kept (has_of rfl) every,
     frames_cons (.of_kept (fun _ => rfl) fun _ => announceSend_kept (has_of rfl) every) <|
       frames_cons (.of_kept (fun _ => rfl) fun _ => discoverSend_kept (has_of rfl) every) <|
       frames_cons (.of_kept (fun _ => rfl) fun _ => reportSend_kept (has_of rfl) every) frames_nil,
     fun _ => .of_kept (fun _ => rfl) fun _ => blockLock_kept (has_of rfl) every every rfl rfl,
     fun _ => frames_cons (.of_kept (fun _ => rfl) fun _ => blockLockLost_kept (has_of rfl) every every rfl rfl) <|
       frames_cons (.of_kept (fun _ => rfl) fun _ => receiverSignalLost_kept (has_of rfl) every every rfl rfl) <|
       frames_cons (.of_kept (fun _ => rfl) fun _ => loopbackComplete_kept (has_of rfl) every every rfl rfl)
         frames_nil,
     fun _ => .of_kept (fun _ => rfl) fun _ => marksMissingTimeout_kept (has_of rfl) every every rfl rfl,
     fun _ => .of_kept (fun _ => rfl) fun _ => echoMissing_kept (has_of rfl) every every rfl,
     fun _ => frames_cons (.of_kept (fun _ => rfl) fun _ => mgmtResendTimeout_kept (has_of rfl) every rfl) <|
       frames_cons (.of_kept (fun _ => rfl) fun _ => mgmtMessageTimeout_kept (has_of rfl) every rfl) frames_nil,
     fun _ _ => .of_kept (fun _ => rfl) fun _ => sbxScan_kept (has_of rfl) every every every every,
     fun _ _ _ => .of_kept (fun _ => rfl) fun _ => i2cModulePoll_kept (has_of rfl) rfl,
     .of_kept (fun _ => rfl) fun _ => announceReceived_kept (has_of rfl),
     fun _ => .of_kept (fun _ => rfl) fun _ => hierForwardTimeout_kept (has_of rfl),
     .of_kept (fun _ => rfl) fun _ => discoverReceived_kept (has_of rfl),
     .of_kept (fun _ => rfl) fun _ => reportReceived_kept (has_of rfl) every,
     frames_cons (.of_kept (fun _ => rfl) fun _ => assignReceived_kept (has_of rfl)) <|
       frames_cons (.of_kept (fun _ => rfl) fun _ => managerSilentTimeout_kept (has_of rfl)) <|
       frames_cons (.of_kept (fun _ => rfl) fun _ => lowestTupleTimeout_kept (has_of rfl)) frames_nil,
     .of_kept (fun _ => rfl) fun _ => descReceived_kept (has_of rfl),
     .of_kept (fun _ => rfl) fun _ => complSend_kept (has_of rfl) every,
     frames_cons (.of_kept (fun _ => rfl) fun _ => complReceived_kept (has_of rfl)) <|
       frames_cons (.of_kept (fun _ => rfl) fun _ => scanComplete_kept (has_of rfl)) frames_nil,
     fun _ _ _ => .of_kept (fun _ => rfl) fun _ => ptpEventMessage_kept (has_of rfl) every rfl,
     fun _ _ _ _ => .of_kept (fun _ => rfl) fun _ => ptpSyncReceived_kept (has_of rfl) every rfl,
     fun _ => .of_kept (fun _ => rfl) fun _ => ptpSyncTimeout_kept (has_of rfl) every every,
     fun _ => frames_cons (.of_kept (fun _ => rfl) fun _ => esmcPduSend_kept (has_of rfl) rfl) <|
       frames_cons (.of_kept (fun _ => rfl) fun _ => esmcEventPduSend_kept (has_of rfl) rfl) frames_nil,
     fun _ _ => .of_kept (fun _ => rfl) fun _ => esmcPduReceived_kept (has_of rfl) every every rfl,
     fun _ => .of_kept (fun _ => rfl) fun _ => esmcAbsentTimeout_kept (has_of rfl) every every rfl,
     fun _ => .of_kept (fun _ => rfl) fun _ => receiverSignalDetected_kept (has_of rfl) rfl,
     fun _ _ => .of_kept (fun _ => rfl) fun _ => ptpAnnounceReceived_kept (has_of rfl) every every every,
     fun _ => .of_kept (fun _ => rfl) fun _ => ptpAnnounceReceiptTimeout_kept (has_of rfl) every every every⟩,
    ⟨fun _ _ _ => .of_kept (fun _ => rfl) fun _ => commandDoorbell_kept (has_of rfl) every,
     fun _ _ => .of_kept (fun _ => rfl) fun _ => consumerDoorbell_kept (has_of rfl) every,
     fun _ _ => .of_kept (fun _ => rfl) fun _ => descriptorFetch_kept (has_of rfl),
     fun _ _ _ => .of_kept (fun _ => rfl) fun _ => fastRingDescriptor_kept (has_of rfl) every,
     fun _ _ _ => .of_kept (fun _ => rfl) fun _ => descriptorReadError_kept (has_of rfl),
     fun _ => .of_kept (fun _ => rfl) fun _ => commandRingDrained_kept (has_of rfl),
     fun _ => .of_kept (fun _ => rfl) fun _ => coalesceTimeout_kept (has_of rfl) every,
     fun _ => .of_kept (fun _ => rfl) fun _ => msixUnmask_kept (has_of rfl),
     fun _ => .of_kept (fun _ => rfl) fun _ => endpointReset_kept (has_of rfl) every every,
     .of_kept (fun _ => rfl) fun _ => endpointReady_kept (has_of rfl),
     fun _ => .of_kept (fun _ => rfl) fun _ => tick1ms_kept (has_of rfl) every every every every every every every
         every every every,
     .of_kept (fun _ => rfl) fun _ => tick1s_kept (has_of rfl) every every every every every every every every,
     fun _ => .of_kept (fun _ => rfl) fun _ => holdoverTimerExpiry_kept (has_of rfl) rfl,
     fun _ => .of_kept (fun _ => rfl) fun _ => revertiveHoldoffExpiry_kept rfl,
     fun _ => .of_kept (fun _ => rfl) fun _ => domainSecondMark_kept (has_of rfl) every every every every,
     fun _ _ => .of_kept (fun _ => rfl) fun _ => rootFaultDetected_kept (has_of rfl) every,
     fun _ => .of_kept (fun _ => rfl) fun _ => rootXJump_kept (has_of rfl) every,
     fun _ => .of_kept (fun _ => rfl) fun _ => jumpAttributed_kept (has_of rfl) every,
     .of_kept (fun _ => rfl) fun _ => jumpAttributionTimeout_kept (has_of rfl) every,
     frames_cons (.of_kept (fun _ => rfl) fun _ => ovenBandEntry_kept (has_of rfl)) <|
       frames_cons (.of_kept (fun _ => rfl) fun _ => rootRelationValid_kept (has_of rfl)) frames_nil,
     fun _ => .of_kept (fun _ => rfl) fun _ => ladderLock_kept (has_of rfl),
     frames_cons (.of_kept (fun _ => rfl) fun _ => ovenBandExit_kept (has_of rfl)) <|
       frames_cons (.of_kept (fun _ => rfl) fun _ => ovenWarmupLimit_kept (has_of rfl)) frames_nil,
     fun _ => .of_kept (fun _ => rfl) fun _ => ladderLossOfLock_kept (has_of rfl),
     .of_kept (fun _ => rfl) fun _ => tbWarmRise_kept (has_of rfl) every,
     fun _ _ _ => .of_kept (fun _ => rfl) fun _ => dllLock_kept rfl rfl,
     fun _ _ _ => .of_kept (fun _ => rfl) fun _ => dllLossOfLock_kept (has_of rfl) rfl,
     fun _ _ _ => .of_kept (fun _ => rfl) fun _ => eventEdge_kept (has_of rfl) every every every every,
     fun _ _ => .of_kept (fun _ => rfl) fun _ => eventWidthEnd_kept (has_of rfl) rfl every,
     fun _ _ => .of_kept (fun _ => rfl) fun _ => streamRecordDma_kept (has_of rfl) rfl,
     fun _ => .of_kept (fun _ => rfl) fun _ => frontEndBlankEnd_kept (has_of rfl) every every every,
     fun _ _ _ => .of_kept (fun _ => rfl) fun _ => ivuStartEdge_kept (has_of rfl) every rfl every every,
     fun _ _ _ => .of_kept (fun _ => rfl) fun _ => ivuStopEdge_kept (has_of rfl) every rfl every every,
     fun _ => frames_cons (.of_kept (fun _ => rfl) fun _ => ivuWindowTimeout_kept (has_of rfl) rfl every) <|
       frames_cons (.of_kept (fun _ => rfl) fun _ => ivuStartWaitExpired_kept (has_of rfl) rfl every) frames_nil,
     fun _ _ _ => .of_kept (fun _ => rfl) fun _ => refPulseEdge_kept (has_of rfl) every every every,
     fun _ _ _ => .of_kept (fun _ => rfl) fun _ => todSentence_kept (has_of rfl) every every,
     fun _ _ _ => .of_kept (fun _ => rfl) fun _ => irigFrame_kept (has_of rfl) every every,
     fun _ _ => .of_kept (fun _ => rfl) fun _ => refqSample_kept (has_of rfl) rfl every,
     fun _ => .of_kept (fun _ => rfl) fun _ => refLossDetected_kept (has_of rfl) rfl every,
     fun _ => frames_cons (.of_kept (fun _ => rfl) fun _ => qualifyTimerExpiry_kept (has_of rfl) rfl) <|
       frames_cons (.of_kept (fun _ => rfl) fun _ => requalifyTimerExpiry_kept (has_of rfl) rfl) frames_nil,
     fun _ => .of_kept (fun _ => rfl) fun _ => outputBoundary_kept (has_of rfl) every rfl rfl,
     fun _ => .of_kept (fun _ => rfl) fun _ => pulseGridInstant_kept (has_of rfl) every rfl,
     fun _ _ _ => .of_kept (fun _ => rfl) fun _ => pulseAnchorEdge_kept (has_of rfl) every every every rfl,
     fun _ => .of_kept (fun _ => rfl) fun _ => anchorLostTimeout_kept (has_of rfl) every rfl,
     fun _ => frames_cons (.of_kept (fun _ => rfl) fun _ => anchorOnceTimeout_kept (has_of rfl) every rfl) <|
       frames_cons (.of_kept (fun _ => rfl) fun _ => pulseEnd_kept (has_of rfl) every rfl) frames_nil⟩⟩

/-- Settles O60: each command's law, with what the statement names. -/
theorem upkeepTouches : Obligations.UpkeepTouches := by
  unfold Obligations.UpkeepTouches
  exact ⟨
    fun _ => .of_kept (fun _ => rfl) fun _ => selftestComplete_kept (has_of rfl) every every every,
    fun _ _ _ => .of_kept (fun _ => rfl) fun _ => eventStatusAck_kept (has_of rfl) every every every every every every,
    fun _ _ _ => .of_kept (fun _ => rfl) fun _ => clkDllEvtAck_kept (has_of rfl) every,
    fun _ _ _ => .of_kept (fun _ => rfl) fun _ => domEvtAck_kept (has_of rfl) rfl,
    fun _ _ => .of_kept (fun _ => rfl) fun _ => fltEvtAck_kept (has_of rfl),
    fun _ _ => .of_kept (fun _ => rfl) fun _ => fltSafeAck_kept (has_of rfl) every,
    fun _ _ _ => .of_kept (fun _ => rfl) fun _ => fltDegLnkAck_kept (has_of rfl),
    .of_kept (fun _ => rfl) fun _ => faultNTimerExpiry_kept (has_of rfl),
    fun _ => .of_kept (fun _ => rfl) fun _ => mbxSnapshotValid_kept rfl,
    fun _ _ => .of_kept (fun _ => rfl) fun _ => mbxData3Read_kept (has_of rfl) rfl,
    fun _ _ _ => .of_kept (fun _ => rfl) fun _ => spiReadTransaction_kept (has_of rfl) every every,
    fun _ => .of_kept (fun _ => rfl) fun _ => journalTransaction_kept (has_of rfl),
    fun _ => .of_kept (fun _ => rfl) fun _ => scrubGroupRead_kept (has_of rfl),
    .of_kept (fun _ => rfl) fun _ => profileAutostart_kept (has_of rfl),
    .of_kept (fun _ => rfl) fun _ => hourCounterTick_kept (has_of rfl),
    fun _ => .of_kept (fun _ => rfl) fun _ => bootRootLock_kept (has_of rfl) every every every every every every every
        every every,
    fun _ => .of_kept (fun _ => rfl) fun _ => bootRootLockTimeout_kept (has_of rfl) every every every every every
        every every every every,
    fun _ _ => .of_kept (fun _ => rfl) fun _ => checkpointWrite_kept rfl,
    fun _ => .of_kept (fun _ => rfl) fun _ => taskMoveAtCheckpoint_kept (has_of rfl) every every,
    .of_kept (fun _ => rfl) fun _ => halfPowerOnDone_kept (has_of rfl) every every,
    fun _ => frames_cons (.of_kept (fun _ => rfl) fun _ => reedSramError_kept (has_of rfl) every every every every
        every) <|
      frames_cons (.of_kept (fun _ => rfl) fun _ => reedHeartbeatTimeout_kept (has_of rfl) every every every every
        every) <|
      frames_cons (.of_kept (fun _ => rfl) fun _ => reedTrap_kept (has_of rfl) every every every every every) <|
      frames_cons (.of_kept (fun _ => rfl) fun _ => reedDebugHalt_kept (has_of rfl) every every every every every)
        frames_nil,
    fun _ => .of_kept (fun _ => rfl) fun _ => reedDebugResume_kept (has_of rfl) every every,
    fun _ _ _ => .of_kept (fun _ => rfl) fun _ => taskRestored_kept (has_of rfl) every every every rfl every every,
    fun _ => .of_kept (fun _ => rfl) fun _ => halfLost_kept (has_of rfl) every every every every every every,
    .of_kept (fun _ => rfl) fun _ => halfPowerOffDone_kept (has_of rfl) every,
    fun _ => .of_kept (fun _ => rfl) fun _ => wardenHeartbeatTimeout_kept (has_of rfl) every every every every every
        every,
    fun _ => .of_kept (fun _ => rfl) fun _ => wardenRelease_kept (has_of rfl),
    fun _ _ => .of_kept (fun _ => rfl) fun _ => bootChargeClaim_kept (has_of rfl) every every every every every every
        every every every every,
    .of_kept (fun _ => rfl) fun _ => splitCharge_kept (has_of rfl) every,
    fun _ => .of_kept (fun _ => rfl) fun _ => reservationAgeTimeout_kept (has_of rfl),
    fun _ => .of_kept (fun _ => rfl) fun _ => eventTaskRecord_kept (has_of rfl) rfl,
    frames_cons (.of_kept (fun _ => rfl) fun _ => recoveryStabilityTimeout_kept (has_of rfl)) <|
      frames_cons (.of_kept (fun _ => rfl) fun _ => railRetryTimeout_kept (has_of rfl)) <|
      frames_cons (.of_kept (fun _ => rfl) fun _ => railRetryWaitExpiry_kept (has_of rfl)) frames_nil,
    .of_kept (fun _ => rfl) fun _ => faultMessage_kept (has_of rfl) every every every every every every every every,
    .of_kept (fun _ => rfl) fun _ => collectorOverflowReport_kept (has_of rfl),
    .of_kept (fun _ => rfl) fun _ => fatalDump_kept (has_of rfl) every,
    fun _ => .of_kept (fun _ => rfl) fun _ => paritySweep_kept (has_of rfl),
    fun _ => .of_kept (fun _ => rfl) fun _ => monSample_kept (has_of rfl) rfl,
    fun _ => .of_kept (fun _ => rfl) fun _ => monWindowClose_kept (has_of rfl) every rfl,
    .of_kept (fun _ => rfl) fun _ => bootEnd_kept (has_of rfl) every every every every every every every every every
        every every,
    fun _ => .of_kept (fun _ => rfl) fun _ => pfailAssert_kept (has_of rfl) every every every every every every every
        every every,
    fun _ => .of_kept (fun _ => rfl) fun _ => pfailDeassert_kept (has_of rfl),
    fun _ => .of_kept (fun _ => rfl) fun _ => vinOvervoltage_kept (has_of rfl),
    fun _ => .of_kept (fun _ => rfl) fun _ => converterPhaseLost_kept (has_of rfl),
    fun _ _ => .of_kept (fun _ => rfl) fun _ => thermalWarn_kept (has_of rfl),
    fun _ => .of_kept (fun _ => rfl) fun _ => thermalWarnClear_kept (has_of rfl),
    fun _ => .of_kept (fun _ => rfl) fun _ => converterPhaseRestored_kept (has_of rfl),
    fun _ => .of_kept (fun _ => rfl) fun _ => vddpBankMeasurement_kept every⟩

end Sys2Proof
end

section
/-!
SUPPORT. What the operations that every command shares leave alone: an interrupt, a fault message, a completion, the mark of a
descriptor, the advance of time. Then what a served descriptor comes to, and when its completion is written.
-/

set_option Elab.async false

namespace Sys2Proof.Machine

/-! ## Interrupts -/

theorem irqIf_only (c : Bool) (i : Nat) (h : Hub) :
    Only { parts := [.msix, .bus] } h (irqIf c i h) :=
  (irqIf_kept (fun _ hp => hp) (.refl h)).only

section
variable (c : Bool) (i : Nat) (h : Hub)

@[simp] theorem irqIf_top : (irqIf c i h).top = h.top :=
  (irqIf_only c i h).eq_top (by decide) (by decide)
@[simp] theorem irqIf_pwr : (irqIf c i h).pwr = h.pwr :=
  (irqIf_only c i h).pwr.resolve_left (by decide)
@[simp] theorem irqIf_clk : (irqIf c i h).clk = h.clk :=
  (irqIf_only c i h).eq_clk (by decide) (by decide)
@[simp] theorem irqIf_dlls : (irqIf c i h).dlls = h.dlls :=
  (irqIf_only c i h).eq_dlls fun _ hk => hk
@[simp] theorem irqIf_dllEvt : (irqIf c i h).dllEvt = h.dllEvt :=
  (irqIf_only c i h).dllEvt.resolve_left (by decide)
@[simp] theorem irqIf_mbx : (irqIf c i h).mbx = h.mbx :=
  (irqIf_only c i h).eq_mbx fun _ hk => hk
@[simp] theorem irqIf_spi : (irqIf c i h).spi = h.spi :=
  (irqIf_only c i h).spi.resolve_left (by decide)
@[simp] theorem irqIf_evts : (irqIf c i h).evts = h.evts :=
  (irqIf_only c i h).eq_evts fun _ hk => hk
@[simp] theorem irqIf_ivus : (irqIf c i h).ivus = h.ivus :=
  (irqIf_only c i h).eq_ivus fun _ hk => hk
@[simp] theorem irqIf_tdc : (irqIf c i h).tdc = h.tdc :=
  (irqIf_only c i h).tdc.resolve_left (by decide)
@[simp] theorem irqIf_refs : (irqIf c i h).refs = h.refs :=
  (irqIf_only c i h).eq_refs fun _ hk => hk
@[simp] theorem irqIf_doms : (irqIf c i h).doms = h.doms :=
  (irqIf_only c i h).eq_doms fun _ hk => hk
@[simp] theorem irqIf_outs : (irqIf c i h).outs = h.outs :=
  (irqIf_only c i h).eq_outs fun _ hk => hk
@[simp] theorem irqIf_banks : (irqIf c i h).banks = h.banks :=
  (irqIf_only c i h).banks.resolve_left (by decide)
@[simp] theorem irqIf_plss : (irqIf c i h).plss = h.plss :=
  (irqIf_only c i h).eq_plss fun _ hk => hk
@[simp] theorem irqIf_links : (irqIf c i h).links = h.links :=
  (irqIf_only c i h).eq_links fun _ hk => hk
@[simp] theorem irqIf_hier : (irqIf c i h).hier = h.hier :=
  (irqIf_only c i h).eq_hier (by decide) (by decide) (by decide) fun _ hk => hk
@[simp] theorem irqIf_comp : (irqIf c i h).comp = h.comp :=
  (irqIf_only c i h).eq_comp (by decide) (fun _ hk => hk) (fun _ hk => hk) fun _ hk => hk
@[simp] theorem irqIf_shim : (irqIf c i h).shim = h.shim :=
  (irqIf_only c i h).eq_shim (by decide) (by decide) (by decide) (by decide) (by decide)
@[simp] theorem irqIf_cal : (irqIf c i h).cal = h.cal :=
  (irqIf_only c i h).cal.resolve_left (by decide)
@[simp] theorem irqIf_flt : (irqIf c i h).flt = h.flt :=
  (irqIf_only c i h).eq_flt (by decide) (by decide) (by decide)
@[simp] theorem irqIf_wire : (irqIf c i h).wire = h.wire :=
  (irqIf_only c i h).wire.resolve_left (by decide)
@[simp] theorem irqIf_free : (irqIf c i h).free = h.free :=
  (irqIf_only c i h).free.resolve_left (by decide)
@[simp] theorem irqIf_cmd : (irqIf c i h).host.cmd = h.host.cmd :=
  (irqIf_only c i h).cmdRings.resolve_left (by decide)
@[simp] theorem irqIf_cpl : (irqIf c i h).host.cpl = h.host.cpl :=
  (irqIf_only c i h).cplRings.resolve_left (by decide)
@[simp] theorem irqIf_tel : (irqIf c i h).host.tel = h.host.tel :=
  (irqIf_only c i h).telRings.resolve_left (by decide)
@[simp] theorem irqIf_str : (irqIf c i h).host.str = h.host.str :=
  (irqIf_only c i h).strRings.resolve_left (by decide)
theorem irqIf_regs : (irqIf c i h).host.regs = h.host.regs :=
  (irqIf_only c i h).hostRegs.resolve_left (by decide)
@[simp] theorem irqIf_ready_reg : (irqIf c i h).host.ready = h.host.ready :=
  congrArg (fun x => x.1) (irqIf_regs c i h)
@[simp] theorem irqIf_idxLo_reg : (irqIf c i h).host.idxLo = h.host.idxLo :=
  congrArg (fun x => x.2.1) (irqIf_regs c i h)
@[simp] theorem irqIf_idxHi_reg : (irqIf c i h).host.idxHi = h.host.idxHi :=
  congrArg (fun x => x.2.2.1) (irqIf_regs c i h)
@[simp] theorem irqIf_dumpLo_reg : (irqIf c i h).host.dumpLo = h.host.dumpLo :=
  congrArg (fun x => x.2.2.2.1) (irqIf_regs c i h)
@[simp] theorem irqIf_dumpHi_reg : (irqIf c i h).host.dumpHi = h.host.dumpHi :=
  congrArg (fun x => x.2.2.2.2.1) (irqIf_regs c i h)
@[simp] theorem irqIf_dumpSize_reg : (irqIf c i h).host.dumpSize = h.host.dumpSize :=
  congrArg (fun x => x.2.2.2.2.2.1) (irqIf_regs c i h)
@[simp] theorem irqIf_vector_reg : (irqIf c i h).host.vector = h.host.vector :=
  congrArg (fun x => x.2.2.2.2.2.2.1) (irqIf_regs c i h)
@[simp] theorem irqIf_spi_reg : (irqIf c i h).host.spi = h.host.spi :=
  congrArg (fun x => x.2.2.2.2.2.2.2) (irqIf_regs c i h)
theorem irqIf_books : (irqIf c i h).host.books = h.host.books :=
  (irqIf_only c i h).books.resolve_left (by decide)
@[simp] theorem irqIf_inflight : (irqIf c i h).host.inflight = h.host.inflight :=
  congrArg (fun x => x.1) (irqIf_books c i h)
@[simp] theorem irqIf_held : (irqIf c i h).host.held = h.host.held :=
  congrArg (fun x => x.2.1) (irqIf_books c i h)
@[simp] theorem irqIf_nextId : (irqIf c i h).host.nextId = h.host.nextId :=
  congrArg (fun x => x.2.2.1) (irqIf_books c i h)
@[simp] theorem irqIf_hostLat : (irqIf c i h).host.hostLat = h.host.hostLat :=
  congrArg (fun x => x.2.2.2.1) (irqIf_books c i h)
@[simp] theorem irqIf_effLat : (irqIf c i h).host.effLat = h.host.effLat :=
  congrArg (fun x => x.2.2.2.2.1) (irqIf_books c i h)
@[simp] theorem irqIf_hostN : (irqIf c i h).host.hostN = h.host.hostN :=
  congrArg (fun x => x.2.2.2.2.2.1) (irqIf_books c i h)
@[simp] theorem irqIf_effN : (irqIf c i h).host.effN = h.host.effN :=
  congrArg (fun x => x.2.2.2.2.2.2.1) (irqIf_books c i h)
@[simp] theorem irqIf_turn : (irqIf c i h).host.turn = h.host.turn :=
  congrArg (fun x => x.2.2.2.2.2.2.2) (irqIf_books c i h)

end

/-! ## Fault messages -/

theorem sendFault_only (src : Nat) (k : Kind) (acc ms ad : Nat) (h : Hub) :
    Only { parts := [.msix, .collector, .fltEvt, .bus] } h (sendFault src k acc ms ad h) :=
  (sendFault_kept (fun _ hp => hp) (.refl h)).only

section
variable (src : Nat) (k : Kind) (acc ms ad : Nat) (h : Hub)

@[simp] theorem sendFault_top : (sendFault src k acc ms ad h).top = h.top :=
  (sendFault_only src k acc ms ad h).eq_top (by decide) (by decide)
@[simp] theorem sendFault_pwr : (sendFault src k acc ms ad h).pwr = h.pwr :=
  (sendFault_only src k acc ms ad h).pwr.resolve_left (by decide)
@[simp] theorem sendFault_clk : (sendFault src k acc ms ad h).clk = h.clk :=
  (sendFault_only src k acc ms ad h).eq_clk (by decide) (by decide)
@[simp] theorem sendFault_dlls : (sendFault src k acc ms ad h).dlls = h.dlls :=
  (sendFault_only src k acc ms ad h).eq_dlls fun _ hk => hk
@[simp] theorem sendFault_dllEvt : (sendFault src k acc ms ad h).dllEvt = h.dllEvt :=
  (sendFault_only src k acc ms ad h).dllEvt.resolve_left (by decide)
@[simp] theorem sendFault_mbx : (sendFault src k acc ms ad h).mbx = h.mbx :=
  (sendFault_only src k acc ms ad h).eq_mbx fun _ hk => hk
@[simp] theorem sendFault_spi : (sendFault src k acc ms ad h).spi = h.spi :=
  (sendFault_only src k acc ms ad h).spi.resolve_left (by decide)
@[simp] theorem sendFault_evts : (sendFault src k acc ms ad h).evts = h.evts :=
  (sendFault_only src k acc ms ad h).eq_evts fun _ hk => hk
@[simp] theorem sendFault_ivus : (sendFault src k acc ms ad h).ivus = h.ivus :=
  (sendFault_only src k acc ms ad h).eq_ivus fun _ hk => hk
@[simp] theorem sendFault_tdc : (sendFault src k acc ms ad h).tdc = h.tdc :=
  (sendFault_only src k acc ms ad h).tdc.resolve_left (by decide)
@[simp] theorem sendFault_refs : (sendFault src k acc ms ad h).refs = h.refs :=
  (sendFault_only src k acc ms ad h).eq_refs fun _ hk => hk
@[simp] theorem sendFault_doms : (sendFault src k acc ms ad h).doms = h.doms :=
  (sendFault_only src k acc ms ad h).eq_doms fun _ hk => hk
@[simp] theorem sendFault_outs : (sendFault src k acc ms ad h).outs = h.outs :=
  (sendFault_only src k acc ms ad h).eq_outs fun _ hk => hk
@[simp] theorem sendFault_banks : (sendFault src k acc ms ad h).banks = h.banks :=
  (sendFault_only src k acc ms ad h).banks.resolve_left (by decide)
@[simp] theorem sendFault_plss : (sendFault src k acc ms ad h).plss = h.plss :=
  (sendFault_only src k acc ms ad h).eq_plss fun _ hk => hk
@[simp] theorem sendFault_links : (sendFault src k acc ms ad h).links = h.links :=
  (sendFault_only src k acc ms ad h).eq_links fun _ hk => hk
@[simp] theorem sendFault_hier : (sendFault src k acc ms ad h).hier = h.hier :=
  (sendFault_only src k acc ms ad h).eq_hier (by decide) (by decide) (by decide) fun _ hk => hk
@[simp] theorem sendFault_comp : (sendFault src k acc ms ad h).comp = h.comp :=
  (sendFault_only src k acc ms ad h).eq_comp (by decide) (fun _ hk => hk) (fun _ hk => hk) fun _ hk => hk
@[simp] theorem sendFault_shim : (sendFault src k acc ms ad h).shim = h.shim :=
  (sendFault_only src k acc ms ad h).eq_shim (by decide) (by decide) (by decide) (by decide) (by decide)
@[simp] theorem sendFault_cal : (sendFault src k acc ms ad h).cal = h.cal :=
  (sendFault_only src k acc ms ad h).cal.resolve_left (by decide)
@[simp] theorem sendFault_mons : (sendFault src k acc ms ad h).mons = h.mons :=
  (sendFault_only src k acc ms ad h).eq_mons (by decide) fun _ hk => hk
@[simp] theorem sendFault_wire : (sendFault src k acc ms ad h).wire = h.wire :=
  (sendFault_only src k acc ms ad h).wire.resolve_left (by decide)
@[simp] theorem sendFault_free : (sendFault src k acc ms ad h).free = h.free :=
  (sendFault_only src k acc ms ad h).free.resolve_left (by decide)
@[simp] theorem sendFault_cmd : (sendFault src k acc ms ad h).host.cmd = h.host.cmd :=
  (sendFault_only src k acc ms ad h).cmdRings.resolve_left (by decide)
@[simp] theorem sendFault_cpl : (sendFault src k acc ms ad h).host.cpl = h.host.cpl :=
  (sendFault_only src k acc ms ad h).cplRings.resolve_left (by decide)
@[simp] theorem sendFault_tel : (sendFault src k acc ms ad h).host.tel = h.host.tel :=
  (sendFault_only src k acc ms ad h).telRings.resolve_left (by decide)
@[simp] theorem sendFault_str : (sendFault src k acc ms ad h).host.str = h.host.str :=
  (sendFault_only src k acc ms ad h).strRings.resolve_left (by decide)
theorem sendFault_regs : (sendFault src k acc ms ad h).host.regs = h.host.regs :=
  (sendFault_only src k acc ms ad h).hostRegs.resolve_left (by decide)
@[simp] theorem sendFault_ready_reg : (sendFault src k acc ms ad h).host.ready = h.host.ready :=
  congrArg (fun x => x.1) (sendFault_regs src k acc ms ad h)
@[simp] theorem sendFault_idxLo_reg : (sendFault src k acc ms ad h).host.idxLo = h.host.idxLo :=
  congrArg (fun x => x.2.1) (sendFault_regs src k acc ms ad h)
@[simp] theorem sendFault_idxHi_reg : (sendFault src k acc ms ad h).host.idxHi = h.host.idxHi :=
  congrArg (fun x => x.2.2.1) (sendFault_regs src k acc ms ad h)
@[simp] theorem sendFault_dumpLo_reg : (sendFault src k acc ms ad h).host.dumpLo = h.host.dumpLo :=
  congrArg (fun x => x.2.2.2.1) (sendFault_regs src k acc ms ad h)
@[simp] theorem sendFault_dumpHi_reg : (sendFault src k acc ms ad h).host.dumpHi = h.host.dumpHi :=
  congrArg (fun x => x.2.2.2.2.1) (sendFault_regs src k acc ms ad h)
@[simp] theorem sendFault_dumpSize_reg : (sendFault src k acc ms ad h).host.dumpSize = h.host.dumpSize :=
  congrArg (fun x => x.2.2.2.2.2.1) (sendFault_regs src k acc ms ad h)
@[simp] theorem sendFault_vector_reg : (sendFault src k acc ms ad h).host.vector = h.host.vector :=
  congrArg (fun x => x.2.2.2.2.2.2.1) (sendFault_regs src k acc ms ad h)
@[simp] theorem sendFault_spi_reg : (sendFault src k acc ms ad h).host.spi = h.host.spi :=
  congrArg (fun x => x.2.2.2.2.2.2.2) (sendFault_regs src k acc ms ad h)
theorem sendFault_books : (sendFault src k acc ms ad h).host.books = h.host.books :=
  (sendFault_only src k acc ms ad h).books.resolve_left (by decide)
@[simp] theorem sendFault_inflight : (sendFault src k acc ms ad h).host.inflight = h.host.inflight :=
  congrArg (fun x => x.1) (sendFault_books src k acc ms ad h)
@[simp] theorem sendFault_held : (sendFault src k acc ms ad h).host.held = h.host.held :=
  congrArg (fun x => x.2.1) (sendFault_books src k acc ms ad h)
@[simp] theorem sendFault_nextId : (sendFault src k acc ms ad h).host.nextId = h.host.nextId :=
  congrArg (fun x => x.2.2.1) (sendFault_books src k acc ms ad h)
@[simp] theorem sendFault_hostLat : (sendFault src k acc ms ad h).host.hostLat = h.host.hostLat :=
  congrArg (fun x => x.2.2.2.1) (sendFault_books src k acc ms ad h)
@[simp] theorem sendFault_effLat : (sendFault src k acc ms ad h).host.effLat = h.host.effLat :=
  congrArg (fun x => x.2.2.2.2.1) (sendFault_books src k acc ms ad h)
@[simp] theorem sendFault_hostN : (sendFault src k acc ms ad h).host.hostN = h.host.hostN :=
  congrArg (fun x => x.2.2.2.2.2.1) (sendFault_books src k acc ms ad h)
@[simp] theorem sendFault_effN : (sendFault src k acc ms ad h).host.effN = h.host.effN :=
  congrArg (fun x => x.2.2.2.2.2.2.1) (sendFault_books src k acc ms ad h)
@[simp] theorem sendFault_turn : (sendFault src k acc ms ad h).host.turn = h.host.turn :=
  congrArg (fun x => x.2.2.2.2.2.2.2) (sendFault_books src k acc ms ad h)

end

/-! ## Completions -/

theorem completeWith_only (id : Nat) (st : Status) (r : BitVec 192) (h : Hub) :
    Only { parts := [.cplRings, .msix, .books, .runs, .profile, .shimEvt, .bus] } h (completeWith id st r h) :=
  (completeWith_kept (fun _ hp => hp) (.refl h)).only

section
variable (id : Nat) (st : Status) (r : BitVec 192) (h : Hub)

@[simp] theorem completeWith_top : (completeWith id st r h).top = h.top :=
  (completeWith_only id st r h).eq_top (by decide) (by decide)
@[simp] theorem completeWith_pwr : (completeWith id st r h).pwr = h.pwr :=
  (completeWith_only id st r h).pwr.resolve_left (by decide)
@[simp] theorem completeWith_clk : (completeWith id st r h).clk = h.clk :=
  (completeWith_only id st r h).eq_clk (by decide) (by decide)
@[simp] theorem completeWith_dlls : (completeWith id st r h).dlls = h.dlls :=
  (completeWith_only id st r h).eq_dlls fun _ hk => hk
@[simp] theorem completeWith_dllEvt : (completeWith id st r h).dllEvt = h.dllEvt :=
  (completeWith_only id st r h).dllEvt.resolve_left (by decide)
@[simp] theorem completeWith_mbx : (completeWith id st r h).mbx = h.mbx :=
  (completeWith_only id st r h).eq_mbx fun _ hk => hk
@[simp] theorem completeWith_spi : (completeWith id st r h).spi = h.spi :=
  (completeWith_only id st r h).spi.resolve_left (by decide)
@[simp] theorem completeWith_evts : (completeWith id st r h).evts = h.evts :=
  (completeWith_only id st r h).eq_evts fun _ hk => hk
@[simp] theorem completeWith_ivus : (completeWith id st r h).ivus = h.ivus :=
  (completeWith_only id st r h).eq_ivus fun _ hk => hk
@[simp] theorem completeWith_tdc : (completeWith id st r h).tdc = h.tdc :=
  (completeWith_only id st r h).tdc.resolve_left (by decide)
@[simp] theorem completeWith_refs : (completeWith id st r h).refs = h.refs :=
  (completeWith_only id st r h).eq_refs fun _ hk => hk
@[simp] theorem completeWith_doms : (completeWith id st r h).doms = h.doms :=
  (completeWith_only id st r h).eq_doms fun _ hk => hk
@[simp] theorem completeWith_outs : (completeWith id st r h).outs = h.outs :=
  (completeWith_only id st r h).eq_outs fun _ hk => hk
@[simp] theorem completeWith_plss : (completeWith id st r h).plss = h.plss :=
  (completeWith_only id st r h).eq_plss fun _ hk => hk
@[simp] theorem completeWith_links : (completeWith id st r h).links = h.links :=
  (completeWith_only id st r h).eq_links fun _ hk => hk
@[simp] theorem completeWith_comp : (completeWith id st r h).comp = h.comp :=
  (completeWith_only id st r h).eq_comp (by decide) (fun _ hk => hk) (fun _ hk => hk) fun _ hk => hk
@[simp] theorem completeWith_cal : (completeWith id st r h).cal = h.cal :=
  (completeWith_only id st r h).cal.resolve_left (by decide)
@[simp] theorem completeWith_flt : (completeWith id st r h).flt = h.flt :=
  (completeWith_only id st r h).eq_flt (by decide) (by decide) (by decide)
@[simp] theorem completeWith_mons : (completeWith id st r h).mons = h.mons :=
  (completeWith_only id st r h).eq_mons (by decide) fun _ hk => hk
@[simp] theorem completeWith_wire : (completeWith id st r h).wire = h.wire :=
  (completeWith_only id st r h).wire.resolve_left (by decide)
@[simp] theorem completeWith_free : (completeWith id st r h).free = h.free :=
  (completeWith_only id st r h).free.resolve_left (by decide)
@[simp] theorem completeWith_cmd : (completeWith id st r h).host.cmd = h.host.cmd :=
  (completeWith_only id st r h).cmdRings.resolve_left (by decide)
@[simp] theorem completeWith_tel : (completeWith id st r h).host.tel = h.host.tel :=
  (completeWith_only id st r h).telRings.resolve_left (by decide)
@[simp] theorem completeWith_str : (completeWith id st r h).host.str = h.host.str :=
  (completeWith_only id st r h).strRings.resolve_left (by decide)
theorem completeWith_regs : (completeWith id st r h).host.regs = h.host.regs :=
  (completeWith_only id st r h).hostRegs.resolve_left (by decide)
@[simp] theorem completeWith_ready_reg : (completeWith id st r h).host.ready = h.host.ready :=
  congrArg (fun x => x.1) (completeWith_regs id st r h)
@[simp] theorem completeWith_idxLo_reg : (completeWith id st r h).host.idxLo = h.host.idxLo :=
  congrArg (fun x => x.2.1) (completeWith_regs id st r h)
@[simp] theorem completeWith_idxHi_reg : (completeWith id st r h).host.idxHi = h.host.idxHi :=
  congrArg (fun x => x.2.2.1) (completeWith_regs id st r h)
@[simp] theorem completeWith_dumpLo_reg : (completeWith id st r h).host.dumpLo = h.host.dumpLo :=
  congrArg (fun x => x.2.2.2.1) (completeWith_regs id st r h)
@[simp] theorem completeWith_dumpHi_reg : (completeWith id st r h).host.dumpHi = h.host.dumpHi :=
  congrArg (fun x => x.2.2.2.2.1) (completeWith_regs id st r h)
@[simp] theorem completeWith_dumpSize_reg : (completeWith id st r h).host.dumpSize = h.host.dumpSize :=
  congrArg (fun x => x.2.2.2.2.2.1) (completeWith_regs id st r h)
@[simp] theorem completeWith_vector_reg : (completeWith id st r h).host.vector = h.host.vector :=
  congrArg (fun x => x.2.2.2.2.2.2.1) (completeWith_regs id st r h)
@[simp] theorem completeWith_spi_reg : (completeWith id st r h).host.spi = h.host.spi :=
  congrArg (fun x => x.2.2.2.2.2.2.2) (completeWith_regs id st r h)

end

/-! ## The advance of time -/

theorem advanceTo_only (cyc : Nat) (h : Hub) :
    Only { parts := [.now], doms := any } h (advanceTo cyc h) :=
  (advanceTo_kept (fun _ hp => hp) every (.refl h)).only

section
variable (cyc : Nat) (h : Hub)

@[simp] theorem advanceTo_top : (advanceTo cyc h).top = h.top :=
  (advanceTo_only cyc h).eq_top (by decide) (by decide)
@[simp] theorem advanceTo_pwr : (advanceTo cyc h).pwr = h.pwr :=
  (advanceTo_only cyc h).pwr.resolve_left (by decide)
@[simp] theorem advanceTo_dlls : (advanceTo cyc h).dlls = h.dlls :=
  (advanceTo_only cyc h).eq_dlls fun _ hk => hk
@[simp] theorem advanceTo_dllEvt : (advanceTo cyc h).dllEvt = h.dllEvt :=
  (advanceTo_only cyc h).dllEvt.resolve_left (by decide)
@[simp] theorem advanceTo_host : (advanceTo cyc h).host = h.host :=
  (advanceTo_only cyc h).eq_host (by decide) (by decide) (by decide) (by decide) (by decide) (by decide) (by decide)
@[simp] theorem advanceTo_mbx : (advanceTo cyc h).mbx = h.mbx :=
  (advanceTo_only cyc h).eq_mbx fun _ hk => hk
@[simp] theorem advanceTo_spi : (advanceTo cyc h).spi = h.spi :=
  (advanceTo_only cyc h).spi.resolve_left (by decide)
@[simp] theorem advanceTo_evts : (advanceTo cyc h).evts = h.evts :=
  (advanceTo_only cyc h).eq_evts fun _ hk => hk
@[simp] theorem advanceTo_ivus : (advanceTo cyc h).ivus = h.ivus :=
  (advanceTo_only cyc h).eq_ivus fun _ hk => hk
@[simp] theorem advanceTo_tdc : (advanceTo cyc h).tdc = h.tdc :=
  (advanceTo_only cyc h).tdc.resolve_left (by decide)
@[simp] theorem advanceTo_refs : (advanceTo cyc h).refs = h.refs :=
  (advanceTo_only cyc h).eq_refs fun _ hk => hk
@[simp] theorem advanceTo_outs : (advanceTo cyc h).outs = h.outs :=
  (advanceTo_only cyc h).eq_outs fun _ hk => hk
@[simp] theorem advanceTo_banks : (advanceTo cyc h).banks = h.banks :=
  (advanceTo_only cyc h).banks.resolve_left (by decide)
@[simp] theorem advanceTo_plss : (advanceTo cyc h).plss = h.plss :=
  (advanceTo_only cyc h).eq_plss fun _ hk => hk
@[simp] theorem advanceTo_links : (advanceTo cyc h).links = h.links :=
  (advanceTo_only cyc h).eq_links fun _ hk => hk
@[simp] theorem advanceTo_hier : (advanceTo cyc h).hier = h.hier :=
  (advanceTo_only cyc h).eq_hier (by decide) (by decide) (by decide) fun _ hk => hk
@[simp] theorem advanceTo_comp : (advanceTo cyc h).comp = h.comp :=
  (advanceTo_only cyc h).eq_comp (by decide) (fun _ hk => hk) (fun _ hk => hk) fun _ hk => hk
@[simp] theorem advanceTo_shim : (advanceTo cyc h).shim = h.shim :=
  (advanceTo_only cyc h).eq_shim (by decide) (by decide) (by decide) (by decide) (by decide)
@[simp] theorem advanceTo_cal : (advanceTo cyc h).cal = h.cal :=
  (advanceTo_only cyc h).cal.resolve_left (by decide)
@[simp] theorem advanceTo_flt : (advanceTo cyc h).flt = h.flt :=
  (advanceTo_only cyc h).eq_flt (by decide) (by decide) (by decide)
@[simp] theorem advanceTo_mons : (advanceTo cyc h).mons = h.mons :=
  (advanceTo_only cyc h).eq_mons (by decide) fun _ hk => hk
@[simp] theorem advanceTo_bus : (advanceTo cyc h).bus = h.bus :=
  (advanceTo_only cyc h).bus.resolve_left (by decide)
@[simp] theorem advanceTo_wire : (advanceTo cyc h).wire = h.wire :=
  (advanceTo_only cyc h).wire.resolve_left (by decide)
@[simp] theorem advanceTo_free : (advanceTo cyc h).free = h.free :=
  (advanceTo_only cyc h).free.resolve_left (by decide)

end

/-! ## Marking a descriptor applied -/

section
variable (id : Nat) (h : Hub)

@[simp] theorem markApplied_top : (markApplied id h).top = h.top := rfl
@[simp] theorem markApplied_pwr : (markApplied id h).pwr = h.pwr := rfl
@[simp] theorem markApplied_clk : (markApplied id h).clk = h.clk := rfl
@[simp] theorem markApplied_dlls : (markApplied id h).dlls = h.dlls := rfl
@[simp] theorem markApplied_dllEvt : (markApplied id h).dllEvt = h.dllEvt := rfl
@[simp] theorem markApplied_mbx : (markApplied id h).mbx = h.mbx := rfl
@[simp] theorem markApplied_spi : (markApplied id h).spi = h.spi := rfl
@[simp] theorem markApplied_evts : (markApplied id h).evts = h.evts := rfl
@[simp] theorem markApplied_ivus : (markApplied id h).ivus = h.ivus := rfl
@[simp] theorem markApplied_tdc : (markApplied id h).tdc = h.tdc := rfl
@[simp] theorem markApplied_refs : (markApplied id h).refs = h.refs := rfl
@[simp] theorem markApplied_doms : (markApplied id h).doms = h.doms := rfl
@[simp] theorem markApplied_outs : (markApplied id h).outs = h.outs := rfl
@[simp] theorem markApplied_banks : (markApplied id h).banks = h.banks := rfl
@[simp] theorem markApplied_plss : (markApplied id h).plss = h.plss := rfl
@[simp] theorem markApplied_links : (markApplied id h).links = h.links := rfl
@[simp] theorem markApplied_hier : (markApplied id h).hier = h.hier := rfl
@[simp] theorem markApplied_comp : (markApplied id h).comp = h.comp := rfl
@[simp] theorem markApplied_shim : (markApplied id h).shim = h.shim := rfl
@[simp] theorem markApplied_cal : (markApplied id h).cal = h.cal := rfl
@[simp] theorem markApplied_flt : (markApplied id h).flt = h.flt := rfl
@[simp] theorem markApplied_mons : (markApplied id h).mons = h.mons := rfl
@[simp] theorem markApplied_bus : (markApplied id h).bus = h.bus := rfl
@[simp] theorem markApplied_wire : (markApplied id h).wire = h.wire := rfl
@[simp] theorem markApplied_free : (markApplied id h).free = h.free := rfl
@[simp] theorem markApplied_host_cmd : (markApplied id h).host.cmd = h.host.cmd := rfl
@[simp] theorem markApplied_host_cpl : (markApplied id h).host.cpl = h.host.cpl := rfl
@[simp] theorem markApplied_host_tel : (markApplied id h).host.tel = h.host.tel := rfl
@[simp] theorem markApplied_host_str : (markApplied id h).host.str = h.host.str := rfl
@[simp] theorem markApplied_host_msix : (markApplied id h).host.msix = h.host.msix := rfl
@[simp] theorem markApplied_host_ready : (markApplied id h).host.ready = h.host.ready := rfl
@[simp] theorem markApplied_host_vector : (markApplied id h).host.vector = h.host.vector := rfl
@[simp] theorem markApplied_host_nextId : (markApplied id h).host.nextId = h.host.nextId := rfl
@[simp] theorem markApplied_host_turn : (markApplied id h).host.turn = h.host.turn := rfl
@[simp] theorem markApplied_host_held : (markApplied id h).host.held = h.host.held := rfl

end

/-! ## Event bits

The interrupt that goes with a rise leaves the register as raised. -/

section
variable (b : BitVec 16) (h : Hub)

@[simp] theorem raiseRoot_irqIf : raiseRoot b h =
    irqIf (h.clk.rootEvt.rising b != 0) 161 (h.onClk fun c => { c with rootEvt := c.rootEvt.raise b }) := rfl

@[simp] theorem raiseRotSat_irqIf : raiseRotSat b h =
    irqIf (h.clk.rotSat.rising b != 0) 161 (h.onClk fun c => { c with rotSat := c.rotSat.raise b }) := rfl

@[simp] theorem raiseEvt_irqIf (n : Fin 64) : raiseEvt n b h =
    irqIf (h.evts[n].evt.rising b != 0) 162 (h.onEvt n fun c => { c with evt := c.evt.raise b }) := rfl

@[simp] theorem raiseIvu_irqIf (u : Fin 32) : raiseIvu u b h =
    irqIf (h.ivus[u].evt.rising b != 0) 162 (h.onIvu u fun c => { c with evt := c.evt.raise b }) := rfl

@[simp] theorem raiseTdc_irqIf : raiseTdc b h =
    irqIf (h.tdc.evt.rising b != 0) 162 (h.onTdc fun c => { c with evt := c.evt.raise b }) := rfl

@[simp] theorem raiseRef_irqIf (k : Fin 12) : raiseRef k b h =
    irqIf (h.refs[k].evt.rising b &&& BitVec.ofNat 16 (fld h.refs[k].set_ 64 4) != 0) (84 + k)
      (h.onRef k fun c => { c with evt := c.evt.raise b }) := rfl

@[simp] theorem raiseDom_irqIf (m : Fin 16) : raiseDom m b h =
    irqIf (h.doms[m].evt.rising b &&& BitVec.ofNat 16 (fld h.doms[m].cfg 16 8) != 0) (96 + m)
      (h.onDom m fun c => { c with evt := c.evt.raise b }) := rfl

@[simp] theorem raiseLnk_irqIf (n : Fin 48) : raiseLnk n b h =
    irqIf (h.links[n].evt.rising b &&& BitVec.ofNat 16 (fld h.links[n].cfg 16 16) != 0) (112 + n)
      (h.onLink n fun c => { c with evt := c.evt.raise b }) := rfl

@[simp] theorem raiseHier_irqIf : raiseHier b h =
    irqIf (h.hier.evt.rising b &&& BitVec.ofNat 16 (fld h.hier.cfg 32 16) != 0) 164
      (h.onHier fun c => { c with evt := c.evt.raise b }) := rfl

@[simp] theorem raiseReed_irqIf : raiseReed b h =
    irqIf (h.comp.evt.rising b != 0) 163 (h.onComp fun c => { c with evt := c.evt.raise b }) := rfl

@[simp] theorem raiseCharge_irqIf : raiseCharge b h =
    irqIf (h.comp.cevt.rising b != 0) 163 (h.onComp fun c => { c with cevt := c.cevt.raise b }) := rfl

@[simp] theorem raisePwr_irqIf : raisePwr b h =
    irqIf (h.pwr.evt.rising b &&& h.pwr.irqEn != 0) 166 (h.onPwr fun c => { c with evt := c.evt.raise b }) := rfl

@[simp] theorem raiseFlt_irqIf : raiseFlt b h =
    irqIf (h.flt.evt.rising b &&& h.flt.irqEn != 0) 160 (h.onFlt fun c => { c with evt := c.evt.raise b }) := rfl

@[simp] theorem raiseSafe_irqIf : raiseSafe b h =
    irqIf ((h.flt.safeEvt.rising b).getLsbD 0) 160 (h.onFlt fun c => { c with safeEvt := c.safeEvt.raise b }) := rfl

end

/-- A raised bit stands. -/
@[simp] theorem Evt.raise_bit16 (e : Evt) {i : Nat} (hi : i < 16) : (e.raise (bit16 i)).bits.getLsbD i = true := by
  rw [Evt.raise_bits, BitVec.getLsbD_or, bit16_getLsbD_self hi, Bool.or_true]

/-- A bit that stood stands after any rise. -/
theorem Evt.raise_keeps (e : Evt) (b : BitVec 16) {i : Nat} (he : e.bits.getLsbD i = true) :
    (e.raise b).bits.getLsbD i = true := by
  rw [Evt.raise_bits, BitVec.getLsbD_or, he, Bool.true_or]

/-! ## What depends on one block only -/

theorem Hub.runs_congr {t h : Hub} (e : t.top = h.top) : t.runs = h.runs := by unfold Hub.runs; rw [e]

theorem Hub.inMode_congr {t h : Hub} (e : t.top = h.top) (m : Mode) : t.inMode m = h.inMode m := by
  unfold Hub.inMode; rw [e]

theorem Hub.isSafe_congr {t h : Hub} (e : t.top = h.top) : t.isSafe = h.isSafe := Hub.inMode_congr e _

theorem Hub.inCharge_congr {t h : Hub} (e : t.comp = h.comp) : t.inCharge = h.inCharge := by unfold Hub.inCharge; rw [e]

/-! ## A message enters the collector -/

/-- The message that a source sends. -/
def faultMsg (src : Nat) (k : Kind) (acc ms ad : Nat) : FaultMsg :=
  { source := BitVec.ofNat 12 src, kind := k, access := BitVec.ofNat 4 acc, master := BitVec.ofNat 8 ms
    address := BitVec.ofNat 32 ad }

/-- With room in the collector's queue the message is the newest in it. -/
theorem sendFault_enters (src : Nat) (k : Kind) (acc ms ad : Nat) {g h : Hub} (ht : g.top = h.top) (hf : g.flt = h.flt)
    (hr : h.runs = true) (hq : h.flt.queue.length < 64) :
    ∃ m, (sendFault src k acc ms ad g).flt.queue = h.flt.queue ++ [m] ∧ m.msg = faultMsg src k acc ms ad := by
  have hsent := sendFault_queue (src := src) (k := k) (acc := acc) (ms := ms) (ad := ad) (h := g)
    ((Hub.runs_congr ht).trans hr) (by rw [hf]; exact hq)
  rw [hf] at hsent
  exact ⟨_, hsent, rfl⟩

/-! ## Reaching a moment -/

/-- The moment a timer reaches is an advance of time. -/
theorem reachCyc_advanceTo {c : Nat} {h g : Hub} (e : reachCyc c h = some g) : ∃ n, g = advanceTo n h := by
  unfold reachCyc at e
  dsimp only at e
  split at e
  · exact ⟨h.clk.pos, by rw [advanceTo_pos]; exact (Option.some.inj e).symm⟩
  · split at e
    · exact ⟨_, (Option.some.inj e).symm⟩
    · cases e

theorem reachNom_advanceTo {x : Int} {h g : Hub} (e : reachNom x h = some g) : ∃ n, g = advanceTo n h := by
  unfold reachNom at e
  dsimp only at e
  split at e
  · exact ⟨h.clk.pos, by rw [advanceTo_pos]; exact (Option.some.inj e).symm⟩
  · exact reachCyc_advanceTo e

theorem reachDom_advanceTo {m : Fin 16} {x : Int} {h g : Hub} (e : reachDom m x h = some g) : ∃ n, g = advanceTo n h := by
  unfold reachDom at e
  dsimp only at e
  split at e
  · exact ⟨h.clk.pos, by rw [advanceTo_pos]; exact (Option.some.inj e).symm⟩
  · split at e
    · exact ⟨_, (Option.some.inj e).symm⟩
    · cases e

/-- At the moment that is reached, the effect takes place. -/
theorem atCyc_of_reach {c : Nat} {f : Hub → Hub} {h g : Hub} (e : reachCyc c h = some g) : atCyc c f h = f g := by
  rw [atCyc, e]

/-! ## A command and its effect -/

/-- The next state of a command whose effect is known. -/
theorem exec_run {c : Instr} {f : Hub → Hub} {s : State} {g : Hub} (he : ∀ s, exec c s = run f s) (hf : f s.toHub = g) :
    exec c s = .next { toHub := g, pending := s.pending } := by
  rw [he, run_eq, hf]

/-! ## A served descriptor -/

/-- A descriptor command, at its turn, has its descriptor's effect. -/
theorem exec_serve {c : Instr} {o : Origin} {d : Desc} {s : State} {fits : Desc → Bool} {eff : Desc → Hub → Hub}
    (S : s.Serves o d) (he : ∀ s, exec c s = run (serve o fits eff) s) (hf : fits d = true)
    (hp : profileMovesOn d.opcode.toNat = false) :
    exec c s = .next { toHub := eff d (markApplied d.id s.toHub), pending := s.pending } := by
  rw [he, run_eq, serve_eq S hf hp]

/-- The next state of a served descriptor whose effect is known. -/
theorem exec_served {c : Instr} {o : Origin} {d : Desc} {s : State} {fits : Desc → Bool} {eff : Desc → Hub → Hub} {g : Hub}
    (S : s.Serves o d) (he : ∀ s, exec c s = run (serve o fits eff) s) (hf : fits d = true)
    (hp : profileMovesOn d.opcode.toNat = false) (hg : eff d (markApplied d.id s.toHub) = g) :
    exec c s = .next { toHub := g, pending := s.pending } := by
  rw [exec_serve S he hf hp, hg]

/-- The same for the descriptors whose end a profile does not wait for. -/
theorem exec_serve' {c : Instr} {o : Origin} {d : Desc} {s : State} {fits : Desc → Bool} {eff : Desc → Hub → Hub}
    (S : s.Serves o d) (he : ∀ s, exec c s = run (serve o fits eff) s) (hf : fits d = true)
    (hp : profileMovesOn d.opcode.toNat = true) :
    exec c s = .next { toHub := profEnd d.id false (eff d (markApplied d.id s.toHub)), pending := s.pending } := by
  rw [he, run_eq, serve_eq' S hf hp]

theorem isOp_of {d : Desc} {b : Byte} (hop : d.opcode = b) : isOp b.toNat d = true := by
  rw [isOp, hop, beq_self_eq_true]

theorem isOpSub_of {d : Desc} {b : Byte} {sub : Payload → Bool} (hop : d.opcode = b) (hs : sub d.payload = true) :
    isOpSub b.toNat sub d = true := by
  rw [isOpSub, isOp_of hop, hs, Bool.and_self]

theorem Hub.Serves.mem {h : Hub} {o : Origin} {d : Desc} (S : h.Serves o d) : d ∈ h.host.inflight := (nextDesc_mem S.next).1

theorem Hub.Serves.origin {h : Hub} {o : Origin} {d : Desc} (S : h.Serves o d) : d.origin = o := (nextDesc_mem S.next).2.1

/-- The completion of the served descriptor is written, wherever its effect has come to when it completes. -/
theorem Hub.Serves.posted_after {h g : Hub} {o : Origin} {d : Desc} {q : Fin 16} (S : h.Serves o d) (ho : o = .ring q)
    (hx : d.discard = false) (hi : g.host.inflight = (markApplied d.id h).host.inflight) (hc : g.inCharge = h.inCharge)
    (st : Status) (r : BitVec 192) : (completeWith d.id st r g).Posted d st r := by
  have hd : g.desc? d.id = some { d with applied := true } := by
    rw [Hub.desc?, hi]
    exact markApplied_desc S.ids S.mem
  have hp : (completeWith d.id st r g).Posted { d with applied := true } st r :=
    completeWith_posted hd (S.origin.trans ho) hx (hc.trans S.charge)
  exact hp.of_applied

/-- What a served descriptor that completes in state g answers on its ring. -/
theorem Hub.Serves.answers {h g : Hub} {o : Origin} {d : Desc} (S : h.Serves o d)
    (hi : g.host.inflight = (markApplied d.id h).host.inflight) (hc : g.inCharge = h.inCharge) (st : Status) (r : BitVec 192) :
    ∀ q, o = .ring q → d.discard = false → ∃ x, (completeWith d.id st r g).Posted d st x :=
  fun _ ho hx => ⟨r, S.posted_after ho hx hi hc st r⟩

/-- The completion of a descriptor in progress is written when its turn to complete comes while a warden is in charge. -/
theorem completeWith_posted_after {h g : Hub} {e : Desc} {q : Fin 16} (hc : h.inCharge = true) (hi : h.idsOk)
    (he : e ∈ h.host.inflight) (ho : e.origin = .ring q) (hx : e.discard = false)
    (hg : g.host.inflight = h.host.inflight) (hgc : g.inCharge = h.inCharge) (st : Status) (r : BitVec 192) :
    (completeWith e.id st r g).Posted e st r := by
  refine completeWith_posted ?_ ho hx (hgc.trans hc)
  rw [Hub.desc?, hg]
  exact hi.desc he

end Sys2Proof.Machine
end

section
/-!
SUPPORT. The host interface: NOP and READ_TIME, doorbells, the fetch of descriptors, and what errors, timers and resets do to the
rings (R325 to R349).
-/

set_option Elab.async false

namespace Sys2Proof.Machine

/-! ## One ring changed -/

theorem Hub.ring_onRing_same (r : RingId) (f : Ring → Ring) (h : Hub) : (h.onRing r f).ring r = f (h.ring r) := by
  cases r <;> exact upd_same ..

theorem Hub.ring_onRing_other {r k : RingId} (hk : k ≠ r) (f : Ring → Ring) (h : Hub) : (h.onRing r f).ring k = h.ring k := by
  cases r <;> cases k
  case cmd.cmd i j => exact upd_other _ _ _ _ fun e => hk (congrArg _ e)
  case cpl.cpl i j => exact upd_other _ _ _ _ fun e => hk (congrArg _ e)
  case tel.tel i j => exact upd_other _ _ _ _ fun e => hk (congrArg _ e)
  case str.str i j => exact upd_other _ _ _ _ fun e => hk (congrArg _ e)
  all_goals rfl

/-! ## READ_TIME (R343) -/

/-- A mark changes nothing that time is read from. -/
theorem advanceTo_markApplied (cyc id : Nat) (h : Hub) :
    advanceTo cyc (markApplied id h) = markApplied id (advanceTo cyc h) := by
  unfold advanceTo
  split
  case isTrue hc => rw [if_pos (by exact hc)]; rfl
  case isFalse hc => rw [if_neg (by exact hc)]

theorem readTime_domain {d : Desc} {m : Fin 16} (hm : fld d.payload 0 4 = m.val) :
    (⟨pf d.payload 0 0 4 % 16, Nat.mod_lt _ (by decide)⟩ : Fin 16) = m := by
  apply Fin.ext
  show pf d.payload 0 0 4 % 16 = m.val
  rw [show pf d.payload 0 0 4 = m.val from hm]
  exact Nat.mod_eq_of_lt m.isLt

/-- The lowest 128 bits of a result of a full time and what stands above it are the full time. -/
theorem resultOf_low (t : BitVec 128) (w v : Nat) :
    (resultOf [(0, 128, t.toNat), (128, w, v)]).extractLsb' 0 128 = t := by
  apply BitVec.eq_of_toNat_eq
  have hlt := t.isLt
  rw [resultOf_pair, BitVec.extractLsb'_toNat, BitVec.toNat_ofNat, Nat.shiftRight_zero]
  simp only [at_]
  generalize t.toNat = n at *
  generalize v % 2 ^ w = u
  omega

/-- The first 16 bytes of READ_TIME's result are the time of the domain it names. -/
theorem readTimeResult_time {h : Hub} {d : Desc} {m : Fin 16} (hm : fld d.payload 0 4 = m.val) :
    (readTimeResult h d).extractLsb' 0 128 = h.fullTime m := by
  rw [readTimeResult, readTime_domain hm]
  exact resultOf_low ..

/-! ## Fetching (R342) -/

section
variable (q : Fin 16) (h : Hub)

theorem takeSlot_cmd : (takeSlot q h).host.cmd = upd h.host.cmd q fun r =>
    { r with cons := r.cons + 1, bells := r.bells.filter fun b => b.1 != r.cons + 1 } := rfl

theorem takeSlot_bus : (takeSlot q h).bus =
    .write (baseAddr h.host.idxLo h.host.idxHi + BitVec.ofNat 64 (4 * q.val)) (leBytes 4 (h.host.cmd[q].cons + 1).toNat) :: h.bus := by
  have hcons : ((takeSlot q h).host.cmd[q]).cons = h.host.cmd[q].cons + 1 := by simp [takeSlot_cmd]
  rw [← hcons]
  simp [takeSlot, idxWriteBack, busWrite, Hub.ring, Hub.onRing, idxOffset, ownIndex]

theorem takeSlot_inflight : (takeSlot q h).host.inflight = h.host.inflight := rfl

end

/-- A completion is posted without a look at the descriptors in progress. -/
theorem postCompletion_inflight (q : Fin 16) (fast : Bool) (d : Desc) (st : Status) (r : BitVec 192) (h : Hub) :
    (postCompletion q fast d st r h).host.inflight = h.host.inflight :=
  (ringPost_kept (A := { parts := [.cplRings, .msix, .bus] }) (fun _ hp => by simp_all) (by simp [ringPart]) (.refl h)).only.inflight
    (by decide)

theorem postCompletion_only (q : Fin 16) (fast : Bool) (d : Desc) (st : Status) (r : BitVec 192) (h : Hub) :
    Only { parts := [.cplRings, .msix, .books, .bus] } h (postCompletion q fast d st r h) :=
  (postCompletion_kept (fun _ hp => hp) (.refl h)).only

/-- A good descriptor at C of a ring that is not fast is taken on the ring's turn. -/
theorem descriptorFetch_good {q : Fin 16} {d : DescWord} {h : Hub} (hf : h.mayFetch q = true) (hn : h.host.cmd[q].fast = false)
    (hw : h.wardenFetches = true) (ht : h.hasWork q = true → h.fetchTurn = some q) (hd : dwHeaderOk d = true)
    (hx : dwIndex d = h.host.cmd[q].cons) : descriptorFetch q d h =
      enterDesc (.ring q) h.host.cmd[q].bellOf d (takeSlot q (h.onHost fun x => { x with turn := q + 1 })) := by
  have hturn : (!h.hasWork q || h.fetchTurn == some q) = true := by
    cases hwk : h.hasWork q
    case false => rfl
    case true => simp [ht hwk]
  have hi : (dwIndex d == (h.ring (.cmd q)).cons) = true := beq_iff_eq.mpr hx
  simp only [descriptorFetch, hn, hf, hw, hturn, hd, hi, Bool.not_false, Bool.and_self, when_true, if_true]
  rfl

/-- The result of a descriptor of a fast ring. -/
def fastResult (h : Hub) (d : Desc) : BitVec 192 := if d.opcode.toNat = 0x02 then readTimeResult h d else 0

/-- The descriptor at C of ring q. -/
def Hub.ringDesc (h : Hub) (q : Fin 16) (d : DescWord) : Desc := mkDesc 0 (.ring q) h.host.cmd[q].bellOf d

/-- A NOP or READ_TIME at C of a fast ring completes at once. -/
theorem fastRingDescriptor_good {q : Fin 16} {d : DescWord} {cyc : Nat} {h : Hub} (hf : h.mayFetch q = true)
    (hn : h.host.cmd[q].fast = true) (hd : dwHeaderOk d = true) (hx : dwIndex d = h.host.cmd[q].cons)
    (hop : fastOpcode (dwOpcode d).toNat = true) : fastRingDescriptor q d cyc h =
      postCompletion q true (h.ringDesc q d) .ok (fastResult (takeSlot q (advanceTo cyc h)) (h.ringDesc q d))
        (takeSlot q (advanceTo cyc h)) := by
  have hi : (dwIndex d == (h.ring (.cmd q)).cons) = true := beq_iff_eq.mpr hx
  simp only [fastRingDescriptor, hn, hf, hd, hi, hop, Bool.and_self, when_true, if_true]
  rfl

/-! ## Doorbells (R328, R329) -/

theorem advanceTo_zero (h : Hub) : advanceTo 0 h = h := by simp [advanceTo]

section
variable {h : Hub} (hl : h.linkUp = true)
include hl

theorem Hub.runs_of_linkUp : h.runs = true := (Bool.and_eq_true_iff.mp hl).1

/-- A consistent doorbell of an open command ring moves P, and is kept where it announces something. -/
theorem commandDoorbell_taken {q : Fin 16} {v : Reg} (cyc : Nat) (ho : h.host.cmd[q].open_ = true)
    (ht : h.host.cmd[q].takesProd (v.extractLsb' 0 16) = true) : commandDoorbell q v cyc h =
      (advanceTo cyc h).onRing (.cmd q) fun x =>
        { x with
          prod := v.extractLsb' 0 16
          bells := if v.extractLsb' 0 16 = x.prod then x.bells
            else x.bells ++ [(v.extractLsb' 0 16, (advanceTo cyc h).clk.cycles)] } := by
  have hr : (advanceTo cyc h).ring (.cmd q) = h.host.cmd[q] := by rw [Hub.ring, advanceTo_host]
  simp only [commandDoorbell, hl, when_true, hr, ho, ht, Bool.and_self, if_true]

theorem commandDoorbell_bad {q : Fin 16} {v : Reg} (ht : h.host.cmd[q].takesProd (v.extractLsb' 0 16) = false) :
    commandDoorbell q v 0 h = badBell (.cmd q) h := by
  have hr : h.ring (.cmd q) = h.host.cmd[q] := rfl
  simp only [commandDoorbell, hl, when_true, advanceTo_zero, hr, ht, Bool.and_false, if_false, Bool.false_eq_true]

/-- A consistent doorbell of an open ring that the hub produces moves C. -/
theorem consumerDoorbell_taken {r : RingId} {v : Reg} (hr : ∀ q, r ≠ .cmd q) (ho : (h.ring r).open_ = true)
    (ht : (h.ring r).takesCons (v.extractLsb' 0 16) = true) :
    consumerDoorbell r v h = streamRoom r (h.onRing r fun x => { x with cons := v.extractLsb' 0 16 }) := by
  have htake : takeCons r v h = streamRoom r (h.onRing r fun x => { x with cons := v.extractLsb' 0 16 }) := by
    simp only [takeCons, hl, when_true, ho, ht, Bool.and_self, if_true]
  cases r
  case cmd q => exact absurd rfl (hr q)
  all_goals exact htake

end

/-- Room in a stream ring changes its channel, and no ring. -/
theorem streamRoom_ring (r k : RingId) (h : Hub) : (streamRoom r h).ring k = h.ring k := by
  unfold streamRoom
  split
  case h_1 => split <;> rfl
  all_goals rfl

/-! ## Errors, drained rings and interrupts (R333, R347 to R349) -/

theorem Hub.linkUp_of_mayFetch {h : Hub} {q : Fin 16} (hf : h.mayFetch q = true) : h.linkUp = true := by
  unfold Hub.mayFetch at hf
  simp only [Bool.and_eq_true] at hf
  exact hf.1.1.1.1.1.1

/-- A failed read of the descriptor at C puts the ring in ERROR and is reported. -/
theorem descriptorReadError_at {q : Fin 16} {a : BitVec 64} {h : Hub} (b : Bool) (hf : h.mayFetch q = true)
    (hw : h.host.cmd[q].fast = true ∨ h.wardenFetches = true) (ha : a = h.host.cmd[q].entryAddr h.host.cmd[q].cons 64) :
    descriptorReadError q a b h = sendFault srcPcie (if b then .timeout else .poisonRead) accDmaRead mDma (a.toNat % 2 ^ 32)
      (h.onRing (.cmd q) fun x => { x with state := .error }) := by
  have hw' : (h.host.cmd[q].fast || h.wardenFetches) = true := Bool.or_eq_true_iff.mpr hw
  have ha' : (a == h.host.cmd[q].entryAddr h.host.cmd[q].cons 64) = true := beq_iff_eq.mpr ha
  simp only [descriptorReadError, Hub.ring, hf, hw', ha', Bool.and_self, when_true]

theorem Hub.onRing_cmd_cmd (q : Fin 16) (f : Ring → Ring) (h : Hub) :
    (h.onRing (.cmd q) f).host.cmd = upd h.host.cmd q f := rfl

/-- A draining command ring with nothing in progress is DISABLED. -/
theorem commandRingDrained_of {q : Fin 16} {h : Hub} (hr : h.runs = true) (hd : h.host.cmd[q].state = .draining)
    (hp : h.ringProgress q = 0) :
    commandRingDrained q h = h.onRing (.cmd q) fun x => { x with state := .disabled } := by
  simp only [commandRingDrained, hr, hd, hp, beq_self_eq_true, Bool.and_self, when_true]

/-- The entries of ring r that wait are signalled: at the moment that is reached, or at once with no root active. -/
theorem coalesceTimeout_of {r : RingId} {h g : Hub} (hr : ∀ q, r ≠ .cmd q) (hl : h.linkUp = true)
    (hu : 0 < (h.ring r).unsignalled)
    (hg : h.rootActive = false ∧ g = h ∨
      h.rootActive = true ∧ reachCyc ((h.ring r).unsigAt + 1500 * (h.ring r).coalUs.toNat) h = some g) :
    coalesceTimeout r h = ringSignal r g := by
  have hend : coalesceEnd r h = ringSignal r g := by
    simp only [coalesceEnd, hl, hu, decide_true, Bool.and_self, when_true]
    rcases hg with ⟨ha, rfl⟩ | ⟨ha, he⟩
    · rw [if_neg (by rw [ha]; decide)]
    · rw [if_pos ha, atCyc_of_reach he]
  cases r
  case cmd q => exact absurd rfl (hr q)
  all_goals exact hend

theorem reach_host {h g : Hub} {c : Nat}
    (hg : h.rootActive = false ∧ g = h ∨ h.rootActive = true ∧ reachCyc c h = some g) :
    g.host = h.host ∧ g.bus = h.bus := by
  rcases hg with ⟨-, rfl⟩ | ⟨-, he⟩
  · exact ⟨rfl, rfl⟩
  · obtain ⟨n, rfl⟩ := reachCyc_advanceTo he
    exact ⟨advanceTo_host .., advanceTo_bus ..⟩

/-- An interrupt changes no ring. -/
theorem raiseIrq_ring (i : Nat) (k : RingId) (h : Hub) : (raiseIrq i h).ring k = h.ring k := by
  have o := (raiseIrq_kept (A := { parts := [.msix, .bus] }) (a0 := i) (fun _ hp => hp) (.refl h)).only
  cases k
  case cmd q => exact congrArg (·[q]) (o.cmdRings.resolve_left (by decide))
  case cpl q => exact congrArg (·[q]) (o.cplRings.resolve_left (by decide))
  case tel q => exact congrArg (·[q]) (o.telRings.resolve_left (by decide))
  case str q => exact congrArg (·[q]) (o.strRings.resolve_left (by decide))

theorem ringSignal_ring (r : RingId) (h : Hub) : (ringSignal r h).ring r = { h.ring r with unsignalled := 0 } := by
  unfold ringSignal
  split
  case h_1 => rw [raiseIrq_ring]; exact Hub.ring_onRing_same ..
  case h_2 => exact Hub.ring_onRing_same ..

theorem Hub.onRing_msix (r : RingId) (f : Ring → Ring) (h : Hub) : (h.onRing r f).host.msix = h.host.msix := by
  cases r <;> rfl

theorem Hub.onRing_vector (r : RingId) (f : Ring → Ring) (h : Hub) : (h.onRing r f).host.vector = h.host.vector := by
  cases r <;> rfl

theorem Hub.onRing_ready (r : RingId) (f : Ring → Ring) (h : Hub) : (h.onRing r f).host.ready = h.host.ready := by
  cases r <;> rfl

/-- An interrupt of a routed source, with the endpoint ready, is the message of its vector. -/
theorem raiseIrq_vector {i : Nat} {v : Fin 128} {h : Hub} (hr : h.host.ready = true)
    (hv : (pick h.host.vector i 0xFF).toNat = v.val) : raiseIrq i h = sendMsix v h := by
  have hf : finOf 128 (pick h.host.vector i 0xFF).toNat = some v := by
    rw [hv]
    exact dif_pos v.isLt
  simp only [raiseIrq, hr, if_true, hf]

/-- A masked vector keeps its message as pending. -/
theorem sendMsix_masked {v : Fin 128} {h : Hub} (hm : h.host.msix[v].masked = true) :
    (sendMsix v h).host.msix[v].pend = true := by
  simp only [sendMsix, hm, if_true, Hub.onHost_host]
  simp

/-- The message of a vector that is not masked leaves at once. -/
theorem sendMsix_unmasked {v : Fin 128} {h : Hub} (hm : h.host.msix[v].masked = false) :
    sendMsix v h = { h with bus := .msix (BitVec.ofNat 8 v) h.host.msix[v].addr h.host.msix[v].data :: h.bus } := by
  simp only [sendMsix, hm, if_false, Bool.false_eq_true]

/-- What a signalled ring sends: the message of its source's vector, or its pending bit. -/
theorem ringSignal_msix {r : RingId} {i : Nat} {v : Fin 128} {h : Hub} (hr : h.host.ready = true) (hi : irqOfRing r = some i)
    (hv : (pick h.host.vector i 0xFF).toNat = v.val) :
    (h.host.msix[v].masked = true → (ringSignal r h).host.msix[v].pend = true) ∧
      (h.host.msix[v].masked = false → (ringSignal r h).bus =
        .msix (BitVec.ofNat 8 v.val) h.host.msix[v].addr h.host.msix[v].data :: h.bus) := by
  have he : ringSignal r h = sendMsix v (h.onRing r fun x => { x with unsignalled := 0 }) := by
    simp only [ringSignal, hi]
    exact raiseIrq_vector ((Hub.onRing_ready ..).trans hr) (by rw [Hub.onRing_vector]; exact hv)
  rw [he]
  constructor
  · exact fun hm => sendMsix_masked (by rw [Hub.onRing_msix]; exact hm)
  · intro hm
    rw [sendMsix_unmasked (by rw [Hub.onRing_msix]; exact hm), Hub.onRing_msix]
    rfl

/-- An unmasked vector has nothing pending, and what it had has been sent. -/
theorem unmask_msix (v : Fin 128) (h : Hub) :
    (unmask v h).host.msix[v] = { h.host.msix[v] with masked := false, pend := false } ∧
      (unmask v h).bus = (if h.host.msix[v].pend then
        [BusOp.msix (BitVec.ofNat 8 v.val) h.host.msix[v].addr h.host.msix[v].data] else []) ++ h.bus := by
  have hclear : (upd h.host.msix v fun e => { e with masked := false, pend := false })[v] =
      { h.host.msix[v] with masked := false, pend := false } := upd_same ..
  unfold unmask
  dsimp only
  split
  case isTrue hp =>
    rw [sendMsix_unmasked (by rw [Hub.onHost_host, hclear]), Hub.onHost_host, hclear]
    exact ⟨rfl, rfl⟩
  case isFalse hp => exact ⟨hclear, rfl⟩

theorem msixUnmask_of {v : Fin 128} {h : Hub} (hl : h.linkUp = true) : msixUnmask v h = unmask v h := by
  rw [msixUnmask, hl, when_true]

/-! ## The endpoint (R325, R457) -/

/-- Outside BOOT every reset of the endpoint clears the host block. -/
theorem endpointReset_clear {k : EpReset} {h : Hub} (hr : h.runs = true) (hb : h.inMode .boot = false) :
    ∃ g : Hub, g.host = h.host ∧ g.mbx = h.mbx ∧ endpointReset k h = endpointClear g := by
  cases k
  case perst =>
    have hr' : (h.onTop fun t => { t with perst := true }).runs = true := hr
    have hb' : (h.onTop fun t => { t with perst := true }).inMode .boot = false := hb
    exact ⟨h.onTop fun t => { t with perst := true }, rfl, rfl, by simp [endpointReset, hr', hb']⟩
  all_goals exact ⟨h, rfl, rfl, by simp [endpointReset, hr, hb]⟩

theorem endpointReady_of {h : Hub} (hr : h.runs = true) (hn : h.host.ready = false) : endpointReady h =
    (h.onTop fun t => { t with perst := false }).onHost fun x => { x with ready := true } := by
  rw [endpointReady, hr, hn, Bool.not_false, Bool.and_self, when_true]

/-- A cleared endpoint: every ring at its reset values, and what was fetched runs on to be discarded. -/
theorem endpointClear_fields (g : Hub) : (endpointClear g).host.ready = false ∧
    (∀ q : Fin 16, (endpointClear g).host.cmd[q] = {}) ∧ (∀ c : Fin 16, (endpointClear g).host.cpl[c] = {}) ∧
    (endpointClear g).host.spi = g.host.spi ∧ (endpointClear g).mbx[(0 : Fin 4)] = {} ∧
    (∀ d ∈ (endpointClear g).host.inflight, ∀ q, d.origin = .ring q → d.discard = true) ∧
    (endpointClear g).host.inflight.length = g.host.inflight.length := by
  refine ⟨rfl, fun q => Vector.getElem_replicate q.isLt, fun c => Vector.getElem_replicate c.isLt, rfl, upd_same .., ?_,
    List.length_map ..⟩
  intro d hd q ho
  obtain ⟨e, -, rfl⟩ := List.mem_map.mp hd
  cases heo : e.origin
  case ring => simp only
  all_goals simp [heo] at ho

end Sys2Proof.Machine

namespace Sys2Proof

open Machine

/-- Settles O1: a served NOP or READ_TIME is its completion; a fetch and a fast descriptor move C and then enter the descriptor,
or post its completion. -/
theorem hostDescriptorsFetchedAndServed : Obligations.HostDescriptorsFetchedAndServed := by
  unfold Obligations.HostDescriptorsFetchedAndServed
  refine ⟨fun o d s S hop => ?nop, fun o d s cyc m S hop hm => ?readTime, fun s q d hf hn hw ht hd hx => ?fetch,
    fun s q d cyc hf hn hd hx hop => ?fast⟩
  case nop =>
    exact ⟨_, exec_serve S (fun _ => rfl) (isOp_of hop) (by rw [hop]; rfl), fun q ho hx => S.posted_after ho hx rfl rfl ..⟩
  case readTime =>
    refine ⟨_, exec_serve S (fun _ => rfl) (isOp_of hop) (by rw [hop]; rfl), fun q ho hx =>
      ⟨_, S.posted_after ho hx ?inflight ?charge .., ?time⟩⟩
    case inflight => rw [advanceTo_host]
    case charge => exact Hub.inCharge_congr (advanceTo_comp ..)
    case time =>
      rw [readTimeResult_time hm, advanceTo_markApplied]
      rfl
  case fetch =>
    refine ⟨_, exec_run (fun _ => rfl) (descriptorFetch_good hf hn hw ht hd hx), ?cons, rfl, rfl, rfl, takeSlot_bus ..⟩
    case cons =>
      change ((takeSlot q _).host.cmd[q]).cons = _
      rw [takeSlot_cmd]
      simp
  case fast =>
    have hfast : fastOpcode (dwOpcode d).toNat = true := by rcases hop with e | e <;> rw [e] <;> rfl
    have he := fastRingDescriptor_good (cyc := cyc) hf hn hd hx hfast
    generalize htake : takeSlot q (advanceTo cyc s.toHub) = t at he
    refine ⟨_, exec_run (fun _ => rfl) he, ?_, ?_, ?_⟩
    · rw [(postCompletion_only ..).cmdRings.resolve_left (by decide), ← htake, takeSlot_cmd, advanceTo_host]
      simp
    · rw [postCompletion_inflight, ← htake, takeSlot_inflight, advanceTo_host]
    · obtain ⟨a, ha⟩ := postCompletion_bus q true (s.ringDesc q d) .ok (fastResult t (s.ringDesc q d)) t
      refine ⟨a, fastResult t (s.ringDesc q d), ?posted, fun e => ?nop, fun m e hm => ?time⟩
      case posted =>
        rw [(postCompletion_only ..).isSafe (by decide)]
        exact ha
      case nop => exact if_neg (by change ¬(dwOpcode d).toNat = 2; rw [e]; decide)
      case time =>
        have hread : fastResult t (s.ringDesc q d) = readTimeResult t (s.ringDesc q d) :=
          if_pos (by change (dwOpcode d).toNat = 2; rw [e]; rfl)
        rw [hread, readTimeResult_time hm, ← htake]
        rfl

/-- Settles O2: a taken doorbell is one update of its ring, and an ignored one a fault message. -/
theorem doorbellsMoveIndexes : Obligations.DoorbellsMoveIndexes := by
  unfold Obligations.DoorbellsMoveIndexes
  refine ⟨fun s v hl => ⟨fun q cyc ho ht => ?command, fun r hr ho ht => ?consumer⟩, fun s v q hl hq ht => ?bad⟩
  case command =>
    refine ⟨_, exec_run (fun _ => rfl) (commandDoorbell_taken hl cyc ho ht), ?_⟩
    simp only [Hub.onRing, Hub.onHost_host, Hub.onHost_clk, advanceTo_host]
    refine ⟨?_, ?_, fun k hk => upd_other _ _ _ _ hk, fun hv => ?_⟩
    all_goals simp only [Fin.getElem_fin, upd_same]
    exact if_neg hv
  case consumer =>
    refine ⟨_, exec_run (fun _ => rfl) (consumerDoorbell_taken hl hr ho ht), ?_⟩
    simp only [streamRoom_ring, Hub.ring_onRing_same, true_and]
    exact fun k hk => Hub.ring_onRing_other hk ..
  case bad =>
    obtain ⟨m, hsent, hmsg⟩ := sendFault_enters srcPcie .badDescriptor accWrite (Master.code .host) (bellOffset (.cmd q))
      (g := s.toHub) rfl rfl (Hub.runs_of_linkUp hl) hq
    refine ⟨_, exec_run (fun _ => rfl) (commandDoorbell_bad hl ht), sendFault_cmd .., m, hsent, ?_⟩
    rw [hmsg, bellOffset, Nat.zero_add]
    rfl

/-- Settles O3: each command under its guard is one named update. -/
theorem ringsAndEndpoint : Obligations.RingsAndEndpoint := by
  unfold Obligations.RingsAndEndpoint
  refine ⟨fun s q a b hf hw ha hq => ?error, fun s q hr hd hp => ?drained, fun s r h hr hl hu hg => ?coalesce,
    fun s v hl => ?unmask, fun s k hr hb => ?reset, fun s hr hn => ?ready⟩
  case error =>
    obtain ⟨m, hsent, hmsg⟩ := sendFault_enters srcPcie (if b then .timeout else .poisonRead) accDmaRead mDma (a.toNat % 2 ^ 32)
      (g := s.onRing (.cmd q) fun x => { x with state := .error }) (h := s.toHub) rfl rfl
      (Hub.runs_of_linkUp (Hub.linkUp_of_mayFetch hf)) hq
    refine ⟨_, exec_run (fun _ => rfl) (descriptorReadError_at b hf hw ha), ?ring, m, hsent, congrArg (·.source) hmsg,
      congrArg (·.kind) hmsg, congrArg (·.address) hmsg⟩
    case ring =>
      simp only [sendFault_cmd, Hub.onRing_cmd_cmd]
      exact upd_same ..
  case drained =>
    exact ⟨_, exec_run (fun _ => rfl) (commandRingDrained_of hr hd hp), upd_same .., fun k hk => upd_other _ _ _ _ hk⟩
  case coalesce =>
    obtain ⟨hhost, hbus⟩ := reach_host hg
    have hring : h.ring r = s.ring r := by cases r <;> simp only [Hub.ring, hhost]
    refine ⟨_, exec_run (fun _ => rfl) (coalesceTimeout_of hr hl hu hg), ?ring, fun i v hi hv => ?msix⟩
    case ring =>
      change (ringSignal r h).ring r = _
      rw [ringSignal_ring, hring]
    case msix =>
      rw [← hhost] at hv ⊢
      rw [← hbus]
      exact ringSignal_msix (by rw [hhost]; exact (Bool.and_eq_true_iff.mp hl).2) hi hv
  case unmask =>
    exact ⟨_, exec_run (fun _ => rfl) (msixUnmask_of hl), unmask_msix v s.toHub⟩
  case reset =>
    obtain ⟨g, hhost, hmbx, he⟩ := endpointReset_clear (k := k) hr hb
    rw [← hhost]
    exact ⟨_, exec_run (fun _ => rfl) he, endpointClear_fields g⟩
  case ready =>
    exact ⟨_, exec_run (fun _ => rfl) (endpointReady_of hr hn), rfl, rfl⟩

end Sys2Proof
end

section
/-!
SUPPORT. Time and frequency of the domains: steps of a domain's time (R172 to R174), the changes that wait for its update (R180,
R183), DOMAIN_STEER (R181, R182), and the timers and marks of a domain (R150, R159, R171).
-/

set_option Elab.async false

namespace Sys2Proof.Machine

/-! ## Banks changed twice -/

theorem upd_upd {α : Type} {n : Nat} (v : Vector α n) (i : Fin n) (f g : α → α) :
    upd (upd v i f) i g = upd v i fun x => g (f x) := by
  ext j hj
  simp only [upd, Vector.getElem_set, Fin.getElem_fin]
  split <;> simp_all

/-! ## Time in steps and in fu -/

/-- Rounding to the nearest fu is unmoved by whole fu. -/
theorem toFu_add (x k : Int) : toFu (x + k * fuU) = toFu x + k := by
  unfold toFu rdiv fuU
  rw [Int.fdiv_eq_ediv_of_nonneg _ (by decide), Int.fdiv_eq_ediv_of_nonneg _ (by decide)]
  omega

/-- The time of a domain in fu is its time in steps, rounded. -/
theorem Dom.fu_eq_toFu (d : Dom) : d.fu = toFu (d.secs * secU + d.sub) := by
  have hs : (d.secs * secU + d.sub : Int) = d.sub + (d.secs * secFu) * fuU := by unfold secU; ring
  rw [hs, toFu_add, Dom.fu, Int.add_comm]

/-- The carry to whole seconds keeps a time that lies inside the 48-bit seconds. -/
theorem Dom.carry_time {d : Dom} (hlo : 0 ≤ d.secs * secU + d.sub) (hhi : d.secs * secU + d.sub < 2 ^ 48 * secU) :
    d.carry.secs * secU + d.carry.sub = d.secs * secU + d.sub := by
  unfold Dom.carry secU secFu fuU at *
  dsimp only
  rw [Int.fdiv_eq_ediv_of_nonneg _ (by decide), Int.fmod_eq_emod_of_nonneg _ (by decide)]
  omega

/-- A domain whose time moves by v inside the epoch stands v later. -/
theorem Dom.carry_stepAt_time {d : Dom} {nom v : Int} (hlo : 0 ≤ d.secs * secU + d.sub + v)
    (hhi : d.secs * secU + d.sub + v < 2 ^ 48 * secU) :
    (d.stepAt nom v).carry.secs * secU + (d.stepAt nom v).carry.sub = d.secs * secU + d.sub + v := by
  have hs : ((d.stepAt nom v).secs : Int) * secU + (d.stepAt nom v).sub = d.secs * secU + d.sub + v :=
    (Int.add_assoc ..).symm
  rw [← hs] at hlo hhi ⊢
  exact Dom.carry_time hlo hhi

/-- A time in fu inside the epoch is inside the 48-bit seconds. -/
theorem inEpoch_iff {t : Int} : inEpoch t = true ↔ 0 ≤ t ∧ t < 2 ^ 48 * secFu := by simp [inEpoch]

/-! ## A step of a domain's time (R172) -/

/-- The domain after a step by v at nominal time nom. -/
def Dom.moved (nom v : Int) (d : Dom) : Dom :=
  { (d.stepAt nom v).carry with stepped := true, evt := d.evt.raise (bit16 7) }

theorem realignOuts_doms (m : Fin 16) (v : Int) (h : Hub) : (realignOuts m v h).doms = h.doms := rfl

theorem restepPulses_doms (m : Fin 16) (v : Int) (h : Hub) : (restepPulses m v h).doms = h.doms := rfl

theorem stepDomain_doms (m : Fin 16) (v : Int) (h : Hub) :
    (stepDomain m v h).doms = upd h.doms m (Dom.moved h.clk.nomTime v) := by
  have hmons : ∀ g : Hub, (if m = 0 then g.onMons fun x => { x with unit := x.unit.map fun u =>
      { u with acc := { u.acc with flags := u.acc.flags ||| 0x10 } } } else g).doms = g.doms := by
    intro g; split <;> rfl
  unfold stepDomain
  simp only [raiseDom_irqIf, irqIf_doms, Hub.onDom_doms, hmons, restepPulses_doms, realignOuts_doms]
  exact upd_upd ..

theorem stepDomain_only (m : Fin 16) (v : Int) (h : Hub) :
    Only { parts := [.msix, .bus], doms := any, outs := any, plss := any, units := any } h (stepDomain m v h) :=
  (stepDomain_kept (fun _ hp => hp) trivial every every every (.refl h)).only

/-- The domain after SET_TIME: its time is set, and what was excluded is not any more (R172). -/
def Dom.timeSet (d : Dom) (set_ : Bool) : Dom := if set_ then { d with todUnset := false, excluded := 0 } else d

/-- The state in which a moved domain's descriptor completes. -/
def timeMoved (m : Fin 16) (t : Int) (set_ : Bool) (h : Hub) : Hub :=
  let g := stepDomain m (t - (h.doms[m].secs * secU + h.doms[m].sub)) h
  if set_ then g.onDom m fun d => { d with todUnset := false, excluded := 0 } else g

theorem timeMove_completes (m : Fin 16) (id : Nat) (t : Int) (set_ : Bool) (h : Hub) :
    ∃ r, timeMove m id t set_ h = completeWith id .ok r (timeMoved m t set_ h) := ⟨_, rfl⟩

theorem timeMoved_doms (m : Fin 16) (t : Int) (set_ : Bool) (h : Hub) : (timeMoved m t set_ h).doms =
    upd h.doms m fun d => (d.moved h.clk.nomTime (t - (h.doms[m].secs * secU + h.doms[m].sub))).timeSet set_ := by
  unfold timeMoved
  cases set_
  case false => exact stepDomain_doms ..
  case true =>
    rw [if_pos rfl, Hub.onDom_doms, stepDomain_doms]
    exact upd_upd ..

theorem timeMoved_inflight (m : Fin 16) (t : Int) (set_ : Bool) (h : Hub) :
    (timeMoved m t set_ h).host.inflight = h.host.inflight := by
  unfold timeMoved
  cases set_ <;> exact (stepDomain_only ..).inflight (by decide)

theorem timeMoved_inCharge (m : Fin 16) (t : Int) (set_ : Bool) (h : Hub) :
    (timeMoved m t set_ h).inCharge = h.inCharge := by
  unfold timeMoved
  cases set_ <;> exact (stepDomain_only ..).inCharge (by decide)

/-- A domain moved to time t inside the epoch shows t. -/
theorem Dom.moved_fu {d : Dom} {nom t : Int} {b : Bool} (hlo : 0 ≤ t) (hhi : t < 2 ^ 48 * secU) :
    ((d.moved nom (t - (d.secs * secU + d.sub))).timeSet b).fu = toFu t := by
  have hfu : ((d.moved nom (t - (d.secs * secU + d.sub))).timeSet b).fu =
      (d.stepAt nom (t - (d.secs * secU + d.sub))).carry.fu := by cases b <;> rfl
  have ht : (d.secs * secU + d.sub : Int) + (t - (d.secs * secU + d.sub)) = t := by omega
  rw [hfu, Dom.fu_eq_toFu, Dom.carry_stepAt_time (ht.symm ▸ hlo) (ht.symm ▸ hhi), ht]

theorem toFu_mul (t : Int) : toFu (t * fuU) = t := by
  have h := toFu_add 0 t
  rw [Int.zero_add] at h
  rw [h]
  exact Int.zero_add t

/-- Whole fu inside the epoch, in steps. -/
theorem inEpoch_steps {t : Int} (h : inEpoch t = true) : 0 ≤ t * fuU ∧ t * fuU < 2 ^ 48 * secU := by
  obtain ⟨hlo, hhi⟩ := inEpoch_iff.mp h
  unfold secU fuU
  unfold secFu at *
  omega

/-! ## SET_TIME and STEP_TIME (R172, R174, R184, R185) -/

section
variable {d : Desc} {m : Fin 16} {h : Hub} (hm : pf d.payload 0 0 8 = m.val)
  (hn : fld (timeField d.payload) 48 32 ≤ 999999999)
include hm hn

theorem setTimeEff_free (ha : pb d.payload 1 0 = false) (hf : h.timeRule h.doms[m] = .free)
    (he : inEpoch (fullToFu (timeField d.payload)) = true) :
    setTimeEff d h = timeMove m d.id (fullToFu (timeField d.payload) * fuU) true h := by
  simp only [setTimeEff, withFin_val hm, Nat.not_lt.mpr hn, ha, if_false, Bool.false_eq_true, applySetTime, hf, he, if_true]

theorem setTimeEff_atMark (ha : pb d.payload 1 0 = true) (he : inEpoch (fullToFu (timeField d.payload)) = true) :
    setTimeEff d h = h.onDom m fun x => { x with atMark := x.atMark ++ [d.id] } := by
  simp only [setTimeEff, withFin_val hm, Nat.not_lt.mpr hn, ha, if_false, he, if_true]

theorem stepTimeEff_free (ha : pb d.payload 1 0 = false) (hf : h.timeRule h.doms[m] = .free)
    (he : inEpoch (h.doms[m].fu + stepAmount d.payload) = true) : stepTimeEff d h =
      timeMove m d.id (h.doms[m].secs * secU + h.doms[m].sub + stepAmount d.payload * fuU) false h := by
  simp only [stepTimeEff, withFin_val hm, Nat.not_lt.mpr hn, ha, if_false, Bool.false_eq_true, applyStepTime, hf, ne_eq,
    not_true_eq_false, he, if_true]

theorem stepTimeEff_atMark (ha : pb d.payload 1 0 = true) (he : inEpoch (h.doms[m].fu + stepAmount d.payload) = true) :
    stepTimeEff d h = h.onDom m fun x => { x with atMark := x.atMark ++ [d.id] } := by
  simp only [stepTimeEff, withFin_val hm, Nat.not_lt.mpr hn, ha, if_false, he, if_true]

end

/-- A step inside the epoch from a time that does not go below its start stays inside it. -/
theorem step_inEpoch {d : Dom} {a : Int} (he : inEpoch (d.fu + a) = true) (hlo : 0 ≤ d.secs * secU + d.sub + a * fuU) :
    0 ≤ d.secs * secU + d.sub + a * fuU ∧ d.secs * secU + d.sub + a * fuU < 2 ^ 48 * secU := by
  refine ⟨hlo, ?_⟩
  obtain ⟨-, hhi⟩ := inEpoch_iff.mp he
  rw [Dom.fu_eq_toFu, ← toFu_add] at hhi
  generalize (d.secs * secU + d.sub + a * fuU : Int) = x at *
  unfold toFu rdiv fuU at hhi
  rw [Int.fdiv_eq_ediv_of_nonneg _ (by decide)] at hhi
  unfold secU fuU
  unfold secFu at *
  omega

end Sys2Proof.Machine

namespace Sys2Proof

open Machine

/-- Settles O5: at once, a SET_TIME or STEP_TIME moves the domain by the way from its time to the new one; with at_mark it
joins those that wait. -/
theorem timeSetAndStepped : Obligations.TimeSetAndStepped := by
  unfold Obligations.TimeSetAndStepped
  refine ⟨fun o d s m S hm hn ha hf => ⟨fun hop he => ?set, fun hop he hlo => ?step⟩,
    fun o d s m S hm hn ha => ⟨fun hop he => ?setMark, fun hop he => ?stepMark⟩⟩
  case set =>
    have heff := setTimeEff_free (h := markApplied d.id s.toHub) hm hn ha hf he
    obtain ⟨r, hr⟩ := timeMove_completes m d.id (fullToFu (timeField d.payload) * fuU) true (markApplied d.id s.toHub)
    obtain ⟨hlo, hhi⟩ := inEpoch_steps he
    refine ⟨_, exec_served S (fun _ => rfl) (isOp_of hop) (by rw [hop]; rfl) (heff.trans hr), ?_⟩
    simp only [completeWith_doms, timeMoved_doms, Fin.getElem_fin, upd_same]
    refine ⟨?_, rfl, rfl, rfl, fun k hk => upd_other _ _ _ _ hk, fun q ho hd => ⟨r, ?_⟩⟩
    · exact (Dom.moved_fu hlo hhi).trans (toFu_mul _)
    · exact S.posted_after ho hd (timeMoved_inflight ..) (timeMoved_inCharge ..) ..
  case step =>
    have heff := stepTimeEff_free (h := markApplied d.id s.toHub) hm hn ha hf he
    obtain ⟨r, hr⟩ := timeMove_completes m d.id (s.doms[m].secs * secU + s.doms[m].sub + stepAmount d.payload * fuU) false
      (markApplied d.id s.toHub)
    obtain ⟨hlo, hhi⟩ := step_inEpoch he hlo
    refine ⟨_, exec_served S (fun _ => rfl) (isOp_of hop) (by rw [hop]; rfl) (heff.trans hr), ?_⟩
    simp only [completeWith_doms, timeMoved_doms, Fin.getElem_fin, upd_same]
    refine ⟨?_, rfl, rfl, fun k hk => upd_other _ _ _ _ hk, fun q ho hd => ⟨r, ?_⟩⟩
    · refine (Dom.moved_fu hlo hhi).trans ?_
      rw [toFu_add, ← Dom.fu_eq_toFu]
      rfl
    · exact S.posted_after ho hd (timeMoved_inflight ..) (timeMoved_inCharge ..) ..
  case setMark =>
    exact ⟨_, exec_served S (fun _ => rfl) (isOp_of hop) (by rw [hop]; rfl) (setTimeEff_atMark hm hn ha he), upd_same ..,
      fun k hk => upd_other _ _ _ _ hk⟩
  case stepMark =>
    exact ⟨_, exec_served S (fun _ => rfl) (isOp_of hop) (by rw [hop]; rfl) (stepTimeEff_atMark hm hn ha he), upd_same ..,
      fun k hk => upd_other _ _ _ _ hk⟩

end Sys2Proof
end

section
/-!
SUPPORT. The frequency of the domains: SLEW_TIME (R172, R173, R186), DOMAIN_STEER (R181, R182) and the descriptors that wait for
the domain's update (R180, R183). Then the timers and marks of a domain (R150, R159, R171).
-/

set_option Elab.async false

namespace Sys2Proof.Machine

/-! ## SLEW_TIME -/

/-- A slew that stays within 1 s goes into POFS, while something is followed, and into the Sluice. -/
theorem slewTimeEff_good {d : Desc} {m : Fin 16} {h : Hub} {a p : Int} (hm : pf d.payload 0 0 8 = m.val)
    (ha : a = if pb d.payload 1 0 then -(pf d.payload 8 0 64 : Int) else pf d.payload 8 0 64)
    (hp : p = if h.doms[m].state = .acquire ∨ h.doms[m].state = .track then h.doms[m].pofs + a else h.doms[m].pofs)
    (ham : a.natAbs ≤ slewMax) (hpm : p.natAbs ≤ slewMax) :
    ∃ r, slewTimeEff d h = completeWith d.id .ok r (h.onDom m fun x => { x with pofs := p, rho := x.rho - a * 10 ^ 6 }) := by
  have hin : ¬(slewMax < a.natAbs ∨ slewMax < p.natAbs) := by omega
  simp only [slewTimeEff, withFin_val hm, ← ha, Bool.or_eq_true, beq_iff_eq, ← hp, hin, if_false]
  exact ⟨_, rfl⟩

/-! ## DOMAIN_STEER -/

/-- The check of the rotator changes two of its domain's flags. -/
theorem checkRot_dom (m : Fin 16) (h : Hub) :
    ∃ l n, (checkRot m h).doms[m] = { h.doms[m] with limited := l, limitSent := n } := by
  unfold checkRot
  dsimp only
  split
  · split
    · refine ⟨true, true, ?_⟩
      simp only [sendFault_doms, raiseRotSat_irqIf, Hub.onDom_doms, irqIf_doms, Hub.onClk_doms, Fin.getElem_fin, upd_same]
    · refine ⟨true, h.doms[m].limitSent, ?_⟩
      simp only [raiseRotSat_irqIf, Hub.onDom_doms, irqIf_doms, Hub.onClk_doms, Fin.getElem_fin, upd_same]
  · exact ⟨false, false, upd_same ..⟩

theorem checkRot_only (m : Fin 16) (h : Hub) :
    Only { parts := [.clk, .msix, .collector, .fltEvt, .bus], doms := (· = m) } h (checkRot m h) :=
  (checkRot_kept (fun _ hp => hp) rfl (.refl h)).only

/-- The domain after DOM_FOFS is to be f, at once or by a ramp. -/
def Dom.steered (f : Int) (ramp : Bool) (d : Dom) : Dom := if ramp then { d with ramp := some f } else { d with fofs := f, ramp := none }

/-- A steer of a MANUAL domain within its range takes effect. -/
theorem steerNow_good {m : Fin 16} {p : Payload} {h : Hub} {f : Int} (id : Nat) (hs : h.doms[m].state = .manual)
    (hf : f = h.doms[m].steerAim p) (hlo : fofsMin ≤ f) (hhi : f ≤ fofsMax) :
    ∃ r, steerNow m id p h = completeWith id .ok r (checkRot m (h.onDom m (Dom.steered f (pb p 1 2)))) := by
  have hin : ¬(f < fofsMin ∨ fofsMax < f) := by omega
  simp only [steerNow, hs, ne_eq, not_true_eq_false, if_false, ← hf, hin]
  exact ⟨_, rfl⟩

/-- A HO_TRIM within its range moves the model frequency, and ramps it in. -/
theorem steerHoTrimEff_good {d : Desc} {m : Fin 16} {h : Hub} {y : Int} (hm : pf d.payload 0 0 8 = m.val)
    (hs : h.doms[m].state = .holdover ∨ h.doms[m].state = .holdoverOut) (hy : y = h.doms[m].y0 + steerWord d.payload)
    (hlo : fofsMin ≤ y) (hhi : y ≤ fofsMax) : ∃ r, steerHoTrimEff d h =
      completeWith d.id .ok r (raiseDom m (bit16 10) (h.onDom m fun x => { x with y0 := y, ramp := some y })) := by
  have hin : ¬(y < fofsMin ∨ fofsMax < y) := by omega
  have hst : ¬(h.doms[m].state ≠ .holdover ∧ h.doms[m].state ≠ .holdoverOut) := by tauto
  simp only [steerHoTrimEff, withFin_val hm, hst, if_false, ← hy, hin]
  exact ⟨_, rfl⟩

/-! ## What waits for the domain's update -/

/-- The domain with one more that waits for its update. -/
def Dom.withOp (op : DomOp) (d : Dom) : Dom := { d with ops := d.ops ++ [op] }

theorem steerTo_held {d : Desc} {m : Fin 16} {h : Hub} (hj : h.clk.jumpHeld = true) :
    steerTo m d h = h.onDom m (Dom.withOp (.steer d.id d.payload)) := by
  simp only [steerTo, hj, if_true]
  rfl

theorem steerTo_free {d : Desc} {m : Fin 16} {h : Hub} (hj : h.clk.jumpHeld = false) :
    steerTo m d h = steerNow m d.id d.payload h := by
  simp only [steerTo, hj, if_false, Bool.false_eq_true]

theorem domainConfigEff_good {d : Desc} {m : Fin 16} {h : Hub} (hm : pf d.payload 0 0 8 = m.val)
    (hb : domConfigBad d.payload = false) : domainConfigEff d h = h.onDom m (Dom.withOp (.config d.id d.payload)) := by
  simp only [domainConfigEff, withFin_val hm, hb, if_false, Bool.false_eq_true]
  rfl

theorem domainModeEff_eq {d : Desc} {m : Fin 16} {h : Hub} (hm : pf d.payload 0 0 8 = m.val) :
    domainModeEff d h = h.onDom m (Dom.withOp (.mode d.id d.payload)) := withFin_val hm

/-- DOMAIN_STEER with SET or ADD is one effect on its domain. -/
theorem exec_steer {o : Origin} {d : Desc} {s : State} {m : Fin 16} {c : Instr} {g : Hub} (S : s.Serves o d)
    (hop : d.opcode = 0x11) (hm : pf d.payload 0 0 8 = m.val)
    (hc : c = .domainSteerSet o ∧ steerOp d.payload = 0 ∨ c = .domainSteerAdd o ∧ steerOp d.payload = 1)
    (hg : steerTo m d (markApplied d.id s.toHub) = g) : exec c s = .next { toHub := g, pending := s.pending } := by
  rcases hc with ⟨rfl, hs⟩ | ⟨rfl, hs⟩
  · have heff : steerSetEff d (markApplied d.id s.toHub) = g := by
      rw [← hg]
      simp only [steerSetEff, withFin_val hm, hs]
      rfl
    exact exec_served S (fun _ => rfl) (isOpSub_of hop (by rw [hs]; rfl)) (by rw [hop]; rfl) heff
  · have heff : steerAddEff d (markApplied d.id s.toHub) = g := by
      rw [← hg]
      exact withFin_val hm
    exact exec_served S (fun _ => rfl) (isOpSub_of hop (by rw [hs]; rfl)) (by rw [hop]; rfl) heff

/-- DOMAIN_MODE is one effect on its domain, whichever of its actions a command stands for. -/
theorem exec_domainMode {o : Origin} {d : Desc} {s : State} {c : Instr} (S : s.Serves o d) (hop : d.opcode = 0x12)
    (hc : c = .domainModePolicy o ∨ c = .domainModeRealign o ∧ pb d.payload 1 4 = true ∨
        c = .domainModeClearTracked o ∧ pb d.payload 1 3 = true ∨ c = .domainModeClearStepped o ∧ pb d.payload 1 5 = true) :
    exec c s = .next { toHub := domainModeEff d (markApplied d.id s.toHub), pending := s.pending } := by
  rcases hc with rfl | ⟨rfl, hs⟩ | ⟨rfl, hs⟩ | ⟨rfl, hs⟩
  · exact exec_serve S (fun _ => rfl) (isOp_of hop) (by rw [hop]; rfl)
  all_goals exact exec_serve S (fun _ => rfl) (isOpSub_of hop hs) (by rw [hop]; rfl)

/-- The domain that a steer is for: SET and ADD differ only in where they aim. -/
theorem steerAim_of {o : Origin} {d : Dom} {p : Payload} {f : Int} {c : Instr}
    (hc : c = .domainSteerSet o ∧ steerOp p = 0 ∧ f = steerWord p ∨
      c = .domainSteerAdd o ∧ steerOp p = 1 ∧ f = d.fofs + steerWord p) : f = d.steerAim p := by
  rcases hc with ⟨-, h0, hf⟩ | ⟨-, h1, hf⟩
  · rw [hf, Dom.steerAim, h0, if_neg (by decide)]
  · rw [hf, Dom.steerAim, h1, if_pos rfl]

/-! ## Timers and marks of a domain -/

/-- The holdover timer at zero: HOLDOVER_OUT, with its message. -/
theorem holdoverTimerExpiry_of {m : Fin 16} {h : Hub} (hr : h.runs = true) (hs : h.doms[m].state = .holdover)
    (ht : h.doms[m].hoTimer = 0) : ∃ ms, holdoverTimerExpiry m h =
      sendFault (srcDom m) .holdoverOut accNone ms m (bumpCounter (68 + m) (enterDom m .holdoverOut h)) := by
  simp only [holdoverTimerExpiry, hr, hs, ht, beq_self_eq_true, Bool.and_self, when_true]
  exact ⟨_, rfl⟩

theorem bumpCounter_only (k : Nat) (h : Hub) : Only { parts := [.counters] } h (bumpCounter k h) :=
  (bumpCounter_kept (fun _ hp => hp) (.refl h)).only

theorem enterDom_only (m : Fin 16) (st : DomState) (h : Hub) :
    Only { parts := [.msix, .bus], doms := (· = m) } h (enterDom m st h) :=
  (enterDom_kept (fun _ hp => hp) rfl (.refl h)).only

theorem bumpCounter_doms (k : Nat) (h : Hub) : (bumpCounter k h).doms = h.doms := (bumpCounter_only k h).eq_doms fun _ hk => hk

/-- A domain that enters a state is in it, and the state's bit stands. -/
theorem enterDom_dom (m : Fin 16) (st : DomState) (h : Hub) :
    (enterDom m st h).doms[m].state = st ∧ (enterDom m st h).doms[m].evt = h.doms[m].evt.raise (bit16 st.evtBit) := by
  simp only [enterDom, raiseDom_irqIf, irqIf_doms, Hub.onDom_doms, Fin.getElem_fin, upd_same, and_self]

/-- The end of a hold-off. -/
def Dom.holdsEnded (ok : List (Fin 12)) (d : Dom) : Dom :=
  { d with
    holdDue := d.holdDue ++ ((d.holds.filter fun p => p.2 == 0).map (·.1)).filter ok.contains
    holds := d.holds.filter fun p => p.2 != 0 }

theorem revertiveHoldoffExpiry_of {m : Fin 16} {h : Hub} (hr : h.runs = true) (he : ∃ p ∈ h.doms[m].holds, p.2 = 0) :
    (revertiveHoldoffExpiry m h).doms = upd h.doms m fun _ => h.doms[m].holdsEnded (h.earlier h.doms[m]) := by
  obtain ⟨p, hp, h0⟩ := he
  have hne : ((h.doms[m].holds.filter fun p => p.2 == 0).map (·.1)).isEmpty = false := by
    rw [List.isEmpty_eq_false_iff_exists_mem]
    exact ⟨p.1, List.mem_map_of_mem (List.mem_filter.mpr ⟨hp, by simp [h0]⟩)⟩
  simp only [revertiveHoldoffExpiry, hr, hne, Bool.not_false, Bool.and_self, when_true, Hub.onDom_doms]
  simp only [upd, Dom.holdsEnded, Fin.getElem_fin]

theorem mem_holdDue_ended {d : Dom} {ok : List (Fin 12)} {k : Fin 12} :
    k ∈ (d.holdsEnded ok).holdDue ↔ k ∈ d.holdDue ∨ (k, 0) ∈ d.holds ∧ k ∈ ok := by
  simp [Dom.holdsEnded]

/-- A second mark for which nothing waits carries one second. -/
theorem domainSecondMark_bare {m : Fin 16} {h g : Hub} (hg : reachDom m ((h.doms[m].secs + 1) * secU) h = some g)
    (hr : g.runs = true) (ha : g.rootActive = true) (hw : g.doms[m].atMark = []) :
    ∃ k, domainSecondMark m h = (g.onDom m fun d => { d with secs := (d.secs + 1) % 2 ^ 48, sub := d.sub - secU }).onDom m k ∧
      ∀ d, (k d).secs = d.secs ∧ (k d).sub = d.sub := by
  have hw' : (g.onDom m fun d => { d with secs := (d.secs + 1) % 2 ^ 48, sub := d.sub - secU }).doms[m].atMark = [] := by
    rw [Hub.onDom_doms, Fin.getElem_fin, upd_same]
    exact hw
  refine ⟨fun d => { d with atMark := [] }, ?_, fun _ => ⟨rfl, rfl⟩⟩
  simp only [domainSecondMark, hg, hr, ha, Bool.and_self, if_true, applyAtMark, hw']
  rfl

end Sys2Proof.Machine

namespace Sys2Proof

open Machine

/-- Settles O6: what takes effect at once is one update of the domain and the completion; what waits is appended to what
waits. -/
theorem frequencySteered : Obligations.FrequencySteered := by
  unfold Obligations.FrequencySteered
  refine ⟨fun o d s m a p S hop hm ha hp ham hpm => ?slew, fun o d s m S hop hm => ⟨fun f c hj hst hlo hhi hc => ?steer,
    fun c hj hc => ?held, fun y hst hop2 hy hlo hhi => ?trim⟩, fun o d s m S hm => ⟨fun hop hb => ?config, fun hop c hc => ?mode⟩⟩
  case slew =>
    obtain ⟨r, hr⟩ := slewTimeEff_good (h := markApplied d.id s.toHub) hm ha hp ham hpm
    refine ⟨_, exec_served S (fun _ => rfl) (isOp_of hop) (by rw [hop]; rfl) hr, ?_⟩
    simp only [completeWith_doms, Hub.onDom_doms, Fin.getElem_fin, upd_same]
    refine ⟨rfl, fun k hk => upd_other _ _ _ _ hk, S.answers ?_ ?_ _ _⟩ <;> rfl
  case steer =>
    obtain ⟨r, hr⟩ := steerNow_good (h := markApplied d.id s.toHub) d.id hst (steerAim_of hc) hlo hhi
    have hc' : c = .domainSteerSet o ∧ steerOp d.payload = 0 ∨ c = .domainSteerAdd o ∧ steerOp d.payload = 1 := by tauto
    generalize hg : (markApplied d.id s.toHub).onDom m (Dom.steered f (pb d.payload 1 2)) = g at hr
    have hdoms : g.doms = upd s.doms m (Dom.steered f (pb d.payload 1 2)) := by rw [← hg]; rfl
    have hx := exec_steer S hop hm hc' ((steerTo_free (h := markApplied d.id s.toHub) hj).trans hr)
    have hgm : g.doms[m] = s.doms[m].steered f (pb d.payload 1 2) := by rw [hdoms]; exact upd_same ..
    obtain ⟨l, n, hl⟩ := checkRot_dom m g
    rw [hgm] at hl
    refine ⟨_, hx, ?_⟩
    simp only [completeWith_doms, hl]
    refine ⟨fun hb => ?_, fun hb => ?_, ?_, fun k hk => ?_, fun q ho hd => ⟨r, ?_⟩⟩
    · rw [hb]; exact ⟨rfl, rfl⟩
    · rw [hb]; exact ⟨rfl, rfl⟩
    · cases pb d.payload 1 2 <;> exact hst
    · rw [((checkRot_only m g).doms k).resolve_left hk, hdoms]
      exact upd_other _ _ _ _ hk
    · refine S.posted_after ho hd ?_ ?_ ..
      · rw [(checkRot_only m g).inflight (by simp), ← hg]; rfl
      · rw [(checkRot_only m g).inCharge (by simp), ← hg]; rfl
  case held =>
    exact ⟨_, exec_steer S hop hm hc (steerTo_held (h := markApplied d.id s.toHub) hj), upd_same ..,
      fun k hk => upd_other _ _ _ _ hk⟩
  case trim =>
    obtain ⟨r, hr⟩ := steerHoTrimEff_good (h := markApplied d.id s.toHub) hm hst hy hlo hhi
    refine ⟨_, exec_served S (fun _ => rfl) (isOpSub_of hop (by rw [hop2]; rfl)) (by rw [hop]; rfl) hr, ?_⟩
    simp only [completeWith_doms, raiseDom_irqIf, irqIf_doms, Hub.onDom_doms, upd_upd, Fin.getElem_fin, upd_same]
    refine ⟨trivial, trivial, Evt.raise_bit16 _ (by decide), rfl, fun k hk => upd_other _ _ _ _ hk, S.answers ?_ ?_ _ _⟩
    · exact irqIf_inflight ..
    · exact Hub.inCharge_congr (irqIf_comp ..)
  case config =>
    exact ⟨_, exec_served S (fun _ => rfl) (isOp_of hop) (by rw [hop]; rfl)
      (domainConfigEff_good (h := markApplied d.id s.toHub) hm hb), upd_same .., fun k hk => upd_other _ _ _ _ hk⟩
  case mode =>
    have hx := exec_domainMode S hop hc
    rw [domainModeEff_eq hm] at hx
    exact ⟨_, hx, upd_same .., fun k hk => upd_other _ _ _ _ hk⟩

/-- Settles O7: each timer or mark of a domain, at its time, is one update of that domain. -/
theorem domainTimers : Obligations.DomainTimers := by
  unfold Obligations.DomainTimers
  refine ⟨fun s m hr hs ht hq => ?holdover, fun s m hr he => ?holdoff, fun s m h hg hr ha hw => ?mark⟩
  case holdover =>
    obtain ⟨ms, hms⟩ := holdoverTimerExpiry_of hr hs ht
    obtain ⟨x, hx, hmsg⟩ := sendFault_enters (srcDom m) .holdoverOut accNone ms m.val (h := s.toHub)
      (g := bumpCounter (68 + m) (enterDom m .holdoverOut s.toHub))
      (((bumpCounter_only ..).eq_top (by simp) (by simp)).trans ((enterDom_only ..).eq_top (by simp) (by simp)))
      (((bumpCounter_only ..).eq_flt (by simp) (by simp) (by simp)).trans ((enterDom_only ..).eq_flt (by simp) (by simp) (by simp))) hr hq
    obtain ⟨hst, hev⟩ := enterDom_dom m .holdoverOut s.toHub
    refine ⟨_, exec_run (fun _ => rfl) hms, ?_, ?_, x, hx, congrArg (·.kind) hmsg, congrArg (·.address) hmsg⟩
    · rw [sendFault_doms, bumpCounter_doms, hst]
    · rw [sendFault_doms, bumpCounter_doms, hev]
      exact Evt.raise_bit16 _ (by decide)
  case holdoff =>
    have hd := revertiveHoldoffExpiry_of hr he
    refine ⟨_, exec_run (fun _ => rfl) rfl, fun k hk => ?_, ?_⟩
    · rw [hd]
      exact upd_other _ _ _ _ hk
    · simp only [hd, Fin.getElem_fin, upd_same]
      exact ⟨rfl, fun k => mem_holdDue_ended, rfl⟩
  case mark =>
    obtain ⟨k, hk, hkeep⟩ := domainSecondMark_bare hg hr ha hw
    refine ⟨_, exec_run (fun _ => rfl) hk, ?_⟩
    simp only [Hub.onDom_doms, Fin.getElem_fin, upd_same]
    exact hkeep _

end Sys2Proof
end

section
/-!
SUPPORT. Several completions in a row: what was written to the host stays written, and a descriptor in progress is completed
once, by the first completion that names it.
-/

set_option Elab.async false

namespace Sys2Proof.Machine

/-- From h to t nothing that was written is lost, whoever is in charge stays so, and of the descriptors in progress only those with a
number in I may have gone; the new ones have new numbers. -/
structure Carries (I : Nat → Prop) (h t : Hub) : Prop where
  bus : h.bus <:+ t.bus
  safe : t.isSafe = h.isSafe
  charge : t.inCharge = h.inCharge
  next : h.host.nextId ≤ t.host.nextId
  fresh : ∀ e ∈ t.host.inflight, e ∈ h.host.inflight ∨ h.host.nextId ≤ e.id
  stay : ∀ e ∈ h.host.inflight, ¬I e.id → e ∈ t.host.inflight

theorem Carries.refl (I : Nat → Prop) (h : Hub) : Carries I h h where
  bus := List.suffix_rfl
  safe := rfl
  charge := rfl
  next := le_rfl
  fresh _ he := .inl he
  stay _ he _ := he

theorem Carries.trans {I : Nat → Prop} {a b c : Hub} (p : Carries I a b) (q : Carries I b c) : Carries I a c where
  bus := p.bus.trans q.bus
  safe := q.safe.trans p.safe
  charge := q.charge.trans p.charge
  next := p.next.trans q.next
  fresh e he := (q.fresh e he).elim (p.fresh e) fun hn => .inr (p.next.trans hn)
  stay e he hn := q.stay e (p.stay e he hn) hn

theorem Carries.mono {I J : Nat → Prop} {a b : Hub} (p : Carries I a b) (hIJ : ∀ n, I n → J n) : Carries J a b :=
  { p with stay := fun e he hn => p.stay e he fun hi => hn (hIJ _ hi) }

theorem Carries.ite {I : Nat → Prop} {h a b : Hub} {p : Prop} [Decidable p] (ha : Carries I h a) (hb : Carries I h b) :
    Carries I h (if p then a else b) := by
  split
  · exact ha
  · exact hb

/-- A change that leaves all of that alone but for what it writes. -/
theorem Carries.of_same {I : Nat → Prop} {h t : Hub} (bus : h.bus <:+ t.bus) (safe : t.isSafe = h.isSafe) (comp : t.comp = h.comp)
    (next : t.host.nextId = h.host.nextId) (inflight : t.host.inflight = h.host.inflight) : Carries I h t where
  bus := bus
  safe := safe
  charge := Hub.inCharge_congr comp
  next := next.ge
  fresh _ he := .inl (inflight ▸ he)
  stay _ he _ := inflight ▸ he

/-- What was posted stays posted. -/
theorem Hub.Posted.carried {I : Nat → Prop} {h t : Hub} {d : Desc} {st : Status} {r : BitVec 192} (p : h.Posted d st r)
    (hn : d.id < h.host.nextId) (c : Carries I h t) : t.Posted d st r := by
  obtain ⟨hgone, a, ha⟩ := p
  refine ⟨fun e he hid => ?_, a, ?_⟩
  · rcases c.fresh e he with hin | hnew
    · exact hgone e hin hid
    · omega
  · rw [c.safe]
    exact c.bus.subset ha

/-! ## Each operation that writes to the host -/

section
variable (I : Nat → Prop) (h : Hub)

theorem onRing_carries (r : RingId) (f : Ring → Ring) : Carries I h (h.onRing r f) := by
  cases r <;> exact .of_same List.suffix_rfl rfl rfl rfl rfl

theorem busWrite_carries (a : BitVec 64) (b : Bytes) : Carries I h (busWrite a b h) :=
  .of_same (List.suffix_cons ..) rfl rfl rfl rfl

theorem sendMsix_carries (v : Fin 128) : Carries I h (sendMsix v h) := by
  unfold sendMsix
  dsimp only
  split
  · exact .of_same List.suffix_rfl rfl rfl rfl rfl
  · exact .of_same (List.suffix_cons ..) rfl rfl rfl rfl

theorem raiseIrq_carries (n : Nat) : Carries I h (raiseIrq n h) := by
  unfold raiseIrq
  split
  · split
    · exact sendMsix_carries ..
    · exact .refl ..
  · exact .refl ..

theorem irqIf_carries (c : Bool) (n : Nat) : Carries I h (irqIf c n h) := by
  unfold irqIf
  split
  · exact raiseIrq_carries ..
  · exact .refl ..

theorem ringPut_carries (r : RingId) (b : Bytes) : Carries I h (ringPut r b h) :=
  (busWrite_carries I h _ b).trans (onRing_carries ..)

theorem forEach_carries {α : Type} (l : List α) (f : α → Hub → Hub) (hf : ∀ a ∈ l, ∀ g, Carries I g (f a g)) :
    Carries I h (forEach l f h) := by
  induction l generalizing h with
  | nil => exact .refl ..
  | cons a l ih => exact (hf a (List.mem_cons_self ..) h).trans (ih (f a h) fun b hb => hf b (List.mem_cons_of_mem _ hb))

theorem ringSignal_carries (r : RingId) : Carries I h (ringSignal r h) := by
  unfold ringSignal
  split
  · exact (onRing_carries I h _ _).trans (raiseIrq_carries ..)
  · exact onRing_carries ..

theorem ringCount_carries (r : RingId) (n : Nat) (now : Bool) : Carries I h (ringCount r n now h) := by
  unfold ringCount
  dsimp only
  split
  · exact (onRing_carries I _ _ _).trans (ringSignal_carries ..)
  · exact onRing_carries ..

theorem ringPost_carries (r : RingId) (l : List Bytes) (now : Bool) : Carries I h (ringPost r l now h) := by
  have hput : Carries I h (idxWriteBack r (forEach l (ringPut r) h)) :=
    (forEach_carries I h l _ fun _ _ g => ringPut_carries I g r _).trans (busWrite_carries ..)
  exact hput.trans (ringCount_carries ..)

theorem postCompletion_carries (q : Fin 16) (fast : Bool) (d : Desc) (st : Status) (r : BitVec 192) :
    Carries I h (postCompletion q fast d st r h) :=
  (ringPost_carries I h _ _ _).trans (.of_same List.suffix_rfl rfl rfl rfl rfl)

theorem enterDesc_carries (o : Origin) (bell : Nat) (w : DescWord) : Carries I h (enterDesc o bell w h) where
  bus := List.suffix_rfl
  safe := rfl
  charge := rfl
  next := Nat.le_succ _
  fresh e he := by
    rcases List.mem_append.mp he with hin | hnew
    · exact .inl hin
    · exact .inr (by rw [List.mem_singleton.mp hnew]; exact le_rfl)
  stay _ he _ := List.mem_append_left _ he

theorem onHier_carries (f : Hier → Hier) : Carries I h (h.onHier f) := .of_same List.suffix_rfl rfl rfl rfl rfl

theorem onRef_carries (s : Fin 12) (f : RefSlot → RefSlot) : Carries I h (h.onRef s f) :=
  .of_same List.suffix_rfl rfl rfl rfl rfl

theorem onShim_carries (f : Shim → Shim) : Carries I h (h.onShim f) := .of_same List.suffix_rfl rfl rfl rfl rfl

theorem mgrNext_carries (k : Fin 4) : Carries I h (mgrNext k h) := by
  unfold mgrNext
  split
  · exact .refl ..
  · split
    · exact .refl ..
    · dsimp only
      split
      · exact onHier_carries ..
      · exact (onHier_carries I h _).trans (enterDesc_carries ..)

theorem raiseShim_carries (b : BitVec 16) : Carries I h (raiseShim b h) :=
  onShim_carries ..

theorem profNext_carries : Carries I h (profNext h) := by
  unfold profNext
  split
  · exact .refl ..
  · split
    · exact .refl ..
    · dsimp only
      split
      · exact ((onShim_carries I h _).trans (onShim_carries I _ _)).trans (.ite (raiseShim_carries ..) (.refl ..))
      · exact ((onShim_carries I h _).trans (onShim_carries I _ _)).trans (enterDesc_carries ..)

theorem profEnd_carries (id : Nat) (failed : Bool) : Carries I h (profEnd id failed h) := by
  unfold profEnd
  split
  · exact (onShim_carries I h _).trans (profNext_carries ..)
  · exact .refl ..

end

/-- A completion takes its own descriptor and no other. -/
theorem completeWith_carries (id : Nat) (st : Status) (r : BitVec 192) (h : Hub) : Carries (· = id) h (completeWith id st r h) := by
  have hdrop : Carries (· = id) h (h.onHost fun x => { x with inflight := x.inflight.filter fun e => e.id != id }) := by
    refine ⟨List.suffix_rfl, rfl, rfl, le_rfl, fun e he => .inl (List.mem_filter.mp he).1, fun e he hn => ?_⟩
    exact List.mem_filter.mpr ⟨he, bne_iff_ne.mpr hn⟩
  unfold completeWith
  split
  · unfold finishDesc
    split
    · exact .refl ..
    · dsimp only
      split
      · split
        · exact hdrop
        · exact hdrop.trans (postCompletion_carries ..)
      · split
        · exact hdrop
        · exact (hdrop.trans (onHier_carries ..)).trans (mgrNext_carries ..)
      · exact hdrop.trans (profEnd_carries ..)
  · exact .of_same List.suffix_rfl rfl rfl rfl rfl

/-! ## A descriptor that completes with OK somewhere in a row of completions -/

/-- Descriptor d is in progress while a warden is in charge, or its completion with OK has been written. -/
structure Hub.OkOrOpen (d : Desc) (g : Hub) : Prop where
  charge : g.inCharge = true
  ids : g.idsOk
  next : d.id < g.host.nextId
  either : (∃ b, { d with applied := b } ∈ g.host.inflight) ∨ ∃ r, g.Posted d .ok r

/-- A change that takes no descriptor keeps that. -/
theorem Hub.OkOrOpen.carried {d : Desc} {g t : Hub} (x : g.OkOrOpen d) (c : Carries (fun _ => False) g t) (hi : t.idsOk) :
    t.OkOrOpen d where
  charge := c.charge.trans x.charge
  ids := hi
  next := x.next.trans_le c.next
  either := x.either.imp (fun ⟨b, he⟩ => ⟨b, c.stay _ he not_false⟩) fun ⟨r, hr⟩ => ⟨r, hr.carried x.next c⟩

theorem completeWith_idsOk (id : Nat) (st : Status) (r : BitVec 192) {g : Hub} (hi : g.idsOk) : (completeWith id st r g).idsOk :=
  (completeWith_kept (A := .all) all_has (.refl g)).ids hi

/-- Any completion with OK keeps that. -/
theorem Hub.OkOrOpen.complete {d : Desc} {q : Fin 16} {g : Hub} (x : g.OkOrOpen d) (ho : d.origin = .ring q)
    (hx : d.discard = false) (id : Nat) : (complete id .ok g).OkOrOpen d := by
  have c := completeWith_carries id .ok 0 g
  refine ⟨c.charge.trans x.charge, completeWith_idsOk id .ok 0 x.ids, x.next.trans_le c.next, ?_⟩
  rcases x.either with ⟨b, hin⟩ | ⟨r, hr⟩
  · by_cases hid : d.id = id
    · subst hid
      have hd : g.desc? d.id = some { d with applied := b } := x.ids.desc hin
      have hp : (completeWith d.id .ok 0 g).Posted { d with applied := b } .ok 0 := completeWith_posted hd ho hx x.charge
      exact .inr ⟨0, hp.of_applied⟩
    · exact .inl ⟨b, c.stay _ hin hid⟩
  · exact .inr ⟨r, hr.carried x.next c⟩

/-- The completion of d itself settles it, whatever result it carries. -/
theorem Hub.OkOrOpen.completedWith {d : Desc} {q : Fin 16} {g : Hub} (x : g.OkOrOpen d) (ho : d.origin = .ring q)
    (hx : d.discard = false) (v : BitVec 192) : ∃ r, (completeWith d.id .ok v g).Posted d .ok r := by
  rcases x.either with ⟨b, hin⟩ | ⟨r, hr⟩
  · have hd : g.desc? d.id = some { d with applied := b } := x.ids.desc hin
    have hp : (completeWith d.id .ok v g).Posted { d with applied := b } .ok v := completeWith_posted hd ho hx x.charge
    exact ⟨v, hp.of_applied⟩
  · exact ⟨r, hr.carried x.next (completeWith_carries ..)⟩

theorem Hub.OkOrOpen.completed {d : Desc} {q : Fin 16} {g : Hub} (x : g.OkOrOpen d) (ho : d.origin = .ring q)
    (hx : d.discard = false) : ∃ r, (Machine.complete d.id .ok g).Posted d .ok r := x.completedWith ho hx 0

theorem markApplied_idsOk (id : Nat) {h : Hub} (hi : h.idsOk) : (markApplied id h).idsOk :=
  (markApplied_kept (A := .all) all_has (.refl h)).ids hi

/-- A descriptor at its turn is open. -/
theorem Hub.Serves.okOrOpen {h : Hub} {o : Origin} {d : Desc} (S : h.Serves o d) : (markApplied d.id h).OkOrOpen d where
  charge := S.charge
  ids := markApplied_idsOk _ S.ids
  next := S.ids.2 d S.mem
  either := .inl ⟨true, List.mem_map.mpr ⟨d, S.mem, if_pos rfl⟩⟩

/-- A descriptor in progress is open. -/
theorem Hub.idsOk.okOrOpen {h : Hub} (hi : h.idsOk) (hc : h.inCharge = true) {e : Desc} (he : e ∈ h.host.inflight) : h.OkOrOpen e where
  charge := hc
  ids := hi
  next := hi.2 e he
  either := .inl ⟨e.applied, he⟩

end Sys2Proof.Machine
end

section
/-!
SUPPORT. The reference slots' own updates: entering a state, the settings that come into force, and what a task that is made or
removed does to the slots (R124, R133, R142 to R144, R292).
-/

set_option Elab.async false

namespace Sys2Proof.Machine

theorem upd_congr {α : Type} {n : Nat} {v : Vector α n} {i : Fin n} {f g : α → α} (e : f v[i] = g v[i]) : upd v i f = upd v i g := by
  unfold upd
  rw [e]

/-! ## Updates of one slot -/

/-- REF_DELAY in force, with all that the slot keeps shifted by the change (R124). -/
def RefSlot.delayTaken (r : RefSlot) : RefSlot :=
  { r.shiftDelay (pfs r.cfg 22 0 48 - r.delay) with delay := pfs r.cfg 22 0 48, delayDesc := [] }

/-- The limits in force (R144). -/
def RefSlot.limitsTaken (r : RefSlot) : RefSlot := { r with set_ := r.cfg, setDesc := [] }

/-- A slot that enters a state. -/
def RefSlot.entered (st : SlotState) (more : BitVec 16) (r : RefSlot) : RefSlot :=
  { r with state := st, evt := r.evt.raise (bit16 st.code ||| more) }

/-- A slot that goes to ABSENT: history cleared, and what waited in force (R131, R133). -/
def RefSlot.gone (more : BitVec 16) (r : RefSlot) : RefSlot := (r.clear.entered .absent more).delayTaken.limitsTaken

section
variable (s : Fin 12) (h : Hub)

theorem refDone_only (ids : List Nat) : Only { parts := [.cplRings, .msix, .books, .runs, .profile, .shimEvt, .bus] } h (refDone s ids h) :=
  (refDone_kept (fun _ hp => hp) (.refl h)).only

@[simp] theorem refDone_refs (ids : List Nat) : (refDone s ids h).refs = h.refs :=
  (refDone_only s h ids).eq_refs fun _ hk => hk

theorem enterSlot_refs (st : SlotState) (more : BitVec 16) :
    (enterSlot s st more h).refs = upd h.refs s (RefSlot.entered st more) := by
  simp only [enterSlot, raiseRef_irqIf, irqIf_refs, Hub.onRef_refs]
  exact upd_upd ..

theorem applyDelay_refs : (applyDelay s h).refs = upd h.refs s RefSlot.delayTaken := by
  have hslew : ∀ (p : Prop) [Decidable p] (c : Int) (g : Hub), (if p then g else slewUsers s c g).refs = g.refs := by
    intro p _ c g; split <;> rfl
  simp only [applyDelay, refDone_refs, hslew, Hub.onRef_refs]
  exact upd_congr rfl

theorem applyLimits_refs : (applyLimits s h).refs = upd h.refs s RefSlot.limitsTaken := by
  simp only [applyLimits, refDone_refs, Hub.onRef_refs]
  rfl

theorem freezeUsers_refs : (freezeUsers s h).refs = h.refs := rfl

theorem toAbsent_refs (more : BitVec 16) : (toAbsent s more h).refs = upd h.refs s (RefSlot.gone more) := by
  simp only [toAbsent, applyLimits_refs, applyDelay_refs, enterSlot_refs, Hub.onRef_refs, freezeUsers_refs, upd_upd]
  rfl

theorem toAbsent_only (more : BitVec 16) :
    Only { parts := [.cplRings, .msix, .books, .runs, .profile, .shimEvt, .bus], refs := (· = s), doms := any } h (toAbsent s more h) :=
  (toAbsent_kept (fun _ hp => hp) rfl every (.refl h)).only

end

/-! ## Tasks made and removed -/

/-- From h to t the slots' tasks may have lost their states, and nothing else has changed of the slots (R295, R297). -/
def Forgets (h t : Hub) : Prop := ∀ j : Fin 12, t.refs[j] = h.refs[j] ∨ t.refs[j] = h.refs[j].forget

theorem Forgets.of_eq {h t : Hub} (e : t.refs = h.refs) : Forgets h t := fun j => .inl (congrArg (·[j]) e)

theorem Forgets.of_upd {h t : Hub} {s : Fin 12} (e : t.refs = upd h.refs s RefSlot.forget) : Forgets h t := by
  intro j
  rw [e]
  by_cases hj : j = s
  · subst hj
    exact .inr (upd_same ..)
  · exact .inl (upd_other _ _ _ _ hj)

theorem Forgets.trans {a b c : Hub} (p : Forgets a b) (q : Forgets b c) : Forgets a c := fun j => by
  rcases q j with e | e <;> rcases p j with e' | e' <;> rw [e, e']
  · exact .inl rfl
  · exact .inr rfl
  · exact .inr rfl
  · exact .inr rfl

section
variable (t : Fin 126) (h : Hub)

theorem seat_refs (n : Fin 192) (st : TaskState) : (seat t n st h).refs = h.refs := rfl

theorem unseat_refs : (unseat t h).refs = h.refs := by
  unfold unseat
  split <;> rfl

theorem taskFail_refs (r : Option (Fin 192)) (t : Option (Fin 126)) (c : Nat) : (taskFail r t c h).refs = h.refs := by
  unfold taskFail
  dsimp only
  rw [sendFault_refs]
  split <;> rfl

theorem suspend_refs : (suspend t h).refs = h.refs := by
  simp only [suspend, raiseReed_irqIf, irqIf_refs, Hub.onComp_refs, taskFail_refs, Hub.onTask_refs, unseat_refs]

/-- Losing a task's state is a slot's only where the task is a REFQ task, and there its own. -/
theorem forgetTask_refs (k : Nat) : (forgetTask k h).refs = h.refs ∨
    ∃ s : Fin 12, k = 48 + s ∧ (forgetTask k h).refs = upd h.refs s RefSlot.forget := by
  unfold forgetTask
  split
  case h_1 => exact .inl rfl
  case h_2 s hk hs =>
    refine .inr ⟨s, ?_, rfl⟩
    simp only [finOf] at hk hs
    split at hk
    · cases hk
    · split at hs
      · have := congrArg Fin.val (Option.some.inj hs)
        simp only at this
        omega
      · cases hs
  case h_3 =>
    split
    · exact .inl rfl
    · exact .inl rfl
  case h_4 => exact .inl rfl

theorem forgetTask_forgets (k : Nat) : Forgets h (forgetTask k h) := by
  rcases forgetTask_refs h k with e | ⟨s, -, e⟩
  · exact .of_eq e
  · exact .of_upd e

theorem shed_forgets : Forgets h (shed t h) := by
  refine (forgetTask_forgets h t).trans (.of_eq ?_)
  simp only [shed, raiseReed_irqIf, irqIf_refs, Hub.onComp_refs, taskFail_refs, Hub.onTask_refs, unseat_refs]

theorem placeTask_forgets (st : TaskState) : Forgets h (placeTask t st h) := by
  unfold placeTask
  dsimp only
  split
  · exact .of_eq (seat_refs ..)
  · split
    · exact .of_eq rfl
    · split
      · split
        · exact (shed_forgets _ h).trans (.of_eq (seat_refs ..))
        · exact .of_eq (suspend_refs ..)
      · exact .of_eq (suspend_refs ..)

theorem createTask_forgets (k : Nat) : Forgets h (createTask k h) := by
  unfold createTask
  split
  · exact .of_eq rfl
  · split
    case h_1 | h_2 => exact placeTask_forgets _ (h.onTask _ _) _
    all_goals exact .of_eq rfl

theorem resumeSome_refs (n : Nat) : (resumeSome n h).refs = h.refs := by
  induction n generalizing h with
  | zero => rfl
  | succ n ih =>
    unfold resumeSome
    split
    · rfl
    · split
      · rfl
      · rw [ih, raiseReed_irqIf, irqIf_refs, Hub.onComp_refs, seat_refs]

theorem completeOpt_refs (id : Option Nat) (st : Status) : (completeOpt id st h).refs = h.refs := by
  unfold completeOpt
  split
  · exact completeWith_refs ..
  · rfl

/-- The removal of a task changes the slots only where it is a REFQ task, and there its own. -/
theorem removeTask_refs (k : Nat) : (removeTask k h).refs = h.refs ∨
    ∃ s : Fin 12, k = 48 + s ∧ (removeTask k h).refs = upd h.refs s RefSlot.forget := by
  unfold removeTask
  split
  · exact .inl rfl
  · rename_i t hk
    have hv : t.val = k := by
      unfold finOf at hk
      split at hk
      · exact congrArg Fin.val (Option.some.inj hk).symm
      · cases hk
    dsimp only
    simp only [resumeTasks, resumeSome_refs, Hub.onTask_refs, unseat_refs]
    rw [hv]
    have hlost : ∀ g : Hub, g.refs = h.refs → (forgetTask k g).refs = h.refs ∨
        ∃ s : Fin 12, k = 48 + s ∧ (forgetTask k g).refs = upd h.refs s RefSlot.forget := by
      intro g hg
      rw [← hg]
      exact forgetTask_refs g k
    refine hlost _ ?_
    simp only [completeOpt_refs, Hub.onTask_refs]
    split <;> rfl

end

/-- The slot's task after enable has changed. -/
theorem refTask_forgets (s : Fin 12) (was now : Bool) (h : Hub) : Forgets h (refTask s was now h) := by
  unfold refTask
  split
  · exact createTask_forgets h _
  · split
    · rcases removeTask_refs h (48 + s) with e | ⟨u, -, e⟩
      · exact .of_eq e
      · exact .of_upd e
    · exact .of_eq rfl

/-- A task that is removed, or stays, is no other slot's. -/
theorem refTask_other {s j : Fin 12} {was now : Bool} {h : Hub} (hs : was = true ∨ now = false) (hj : j ≠ s) :
    (refTask s was now h).refs[j] = h.refs[j] := by
  have hmake : (now && !was) = false := by rcases hs with e | e <;> rw [e] <;> simp
  have he : refTask s was now h = if was && !now then removeTask (48 + s) h else h := by
    unfold refTask
    rw [hmake, if_neg Bool.false_ne_true]
  rw [he]
  split
  · rcases removeTask_refs h (48 + s) with e | ⟨u, hu, e⟩
    · exact congrArg (·[j]) e
    · have hju : j ≠ u := fun hju => hj (by omega)
      exact (congrArg (·[j]) e).trans (upd_other _ _ _ _ hju)
  · rfl

theorem refTask_same (s : Fin 12) (b : Bool) (h : Hub) : refTask s b b h = h := by
  unfold refTask
  cases b <;> rfl

/-! ## REF_CONFIG (R142 to R144) -/

/-- The slot after its new settings and its task: ABSENT where they ask for it, and in force what nothing holds back. -/
def RefSlot.settled (leaves : Bool) (more : BitVec 16) (r : RefSlot) : RefSlot :=
  let r := if leaves then r.gone more else r
  if r.state != .absent then r else r.delayTaken.limitsTaken

/-- The descriptor noted where it waits: for the blanking, for the delay, for the limits. -/
def RefSlot.noted (d : Desc) (blanks : Bool) (now : Nat) (r : RefSlot) : RefSlot :=
  { r with
    blank := r.blank || blanks, blankAt := if blanks then now else r.blankAt, voided := r.voided || blanks
    blankDesc := if blanks then r.blankDesc ++ [d.id] else r.blankDesc
    delayDesc := if pfs d.payload 22 0 48 = r.delay then r.delayDesc else r.delayDesc ++ [d.id]
    setDesc := if refLimits d.payload = refLimits r.set_ then r.setDesc else r.setDesc ++ [d.id] }

/-- Whether a REF_CONFIG changes the front end of an enabled input. -/
def RefSlot.blanksFor (s : Fin 12) (p : Payload) (r : RefSlot) : Bool :=
  r.enabled && pb p 1 4 && decide (s.val < 8) && refFront p != refFront r.cfg

section
variable {p : Payload} {r : RefSlot} {s : Fin 12}

theorem RefSlot.blanksFor_of_front (he : r.enabled = true) (hon : pb p 1 4 = true) (h8 : s.val < 8)
    (hf : refFront p ≠ refFront r.cfg) : r.blanksFor s p = true := by
  simp [RefSlot.blanksFor, he, hon, h8, hf]

theorem RefSlot.blanksFor_of_same (hf : s.val < 8 → refFront p = refFront r.cfg) : r.blanksFor s p = false := by
  by_cases h8 : s.val < 8
  · simp [RefSlot.blanksFor, hf h8]
  · simp [RefSlot.blanksFor, h8]

end

/-- The hub with the new settings and the slot's task. -/
def refNamed (s : Fin 12) (p : Payload) (h : Hub) : Hub :=
  refTask s h.refs[s].enabled (pb p 1 4) ((copyWritten (0x8000 + 0x100 * s) 48 h).onRef s (refSettings p))

/-- Whether a REF_CONFIG returns a slot that is not ABSENT to it. -/
def RefSlot.leavesFor (p : Payload) (r : RefSlot) : Bool :=
  (!pb p 1 4 || refKeys p != refKeys r.cfg) && r.state != SlotState.absent

section
variable {p : Payload} {r : RefSlot}

theorem RefSlot.leavesFor_of_disabled (he : pb p 1 4 = false) (hst : r.state ≠ .absent) : r.leavesFor p = true := by
  simp [RefSlot.leavesFor, he, hst]

theorem RefSlot.leavesFor_of_absent (hst : r.state = .absent) : r.leavesFor p = false := by simp [RefSlot.leavesFor, hst]

theorem RefSlot.leavesFor_of_keys (hon : pb p 1 4 = true) (hk : refKeys p = refKeys r.cfg) : r.leavesFor p = false := by
  simp [RefSlot.leavesFor, hon, hk]

end

/-- REF_EVT's bit of a loss, where the slot was QUALIFIED. -/
def RefSlot.lossBit (r : RefSlot) : BitVec 16 := if r.state == SlotState.qualified then bit16 4 else 0

/-- The hub with the slot settled. -/
def refSettled (s : Fin 12) (p : Payload) (h : Hub) : Hub :=
  let g := if h.refs[s].leavesFor p then toAbsent s h.refs[s].lossBit (refNamed s p h) else refNamed s p h
  if g.refs[s].state != SlotState.absent then g else applyLimits s (applyDelay s g)

theorem refConfigEff_good {d : Desc} {s : Fin 12} {h : Hub} (hs : pf d.payload 0 0 8 = s.val)
    (hb : refConfigBad h s d.payload = false) : refConfigEff d h =
      if pb d.payload 1 4 && !h.refs[s].enabled && (refSettled s d.payload h).taskShed (48 + s) then
        complete d.id .noResource (refSettled s d.payload h)
      else refDone s [d.id] ((refSettled s d.payload h).onRef s
        (RefSlot.noted d (h.refs[s].blanksFor s d.payload) (refSettled s d.payload h).clk.cycles)) := by
  simp only [refConfigEff, withFin_val hs, hb, if_false, Bool.false_eq_true]
  rfl

theorem upd_id {α : Type} {n : Nat} {v : Vector α n} {i : Fin n} {f : α → α} (e : f v[i] = v[i]) : upd v i f = v := by
  unfold upd
  rw [e]
  exact Vector.set_getElem_self ..

theorem refSettled_refs (s : Fin 12) (p : Payload) (h : Hub) : (refSettled s p h).refs =
    upd (refNamed s p h).refs s (RefSlot.settled (h.refs[s].leavesFor p) h.refs[s].lossBit) := by
  have hg : ∀ (b : Bool) (g : Hub), (if b then toAbsent s h.refs[s].lossBit g else g).refs =
      upd g.refs s fun r => if b then r.gone h.refs[s].lossBit else r := by
    intro b g
    cases b
    · exact (upd_id rfl).symm
    · exact toAbsent_refs ..
  unfold refSettled
  dsimp only
  generalize he : (if h.refs[s].leavesFor p then toAbsent s h.refs[s].lossBit (refNamed s p h) else refNamed s p h) = g
  have hrefs : g.refs = upd (refNamed s p h).refs s fun r => if h.refs[s].leavesFor p then r.gone h.refs[s].lossBit else r := by
    rw [← he, hg]
  have hslot : g.refs[s] = if h.refs[s].leavesFor p then (refNamed s p h).refs[s].gone h.refs[s].lossBit
      else (refNamed s p h).refs[s] := by
    rw [hrefs]; exact upd_same ..
  split
  case isTrue hst =>
    rw [hrefs]
    refine upd_congr ?_
    rw [hslot] at hst
    exact (if_pos hst).symm
  case isFalse hst =>
    rw [applyLimits_refs, applyDelay_refs, hrefs, upd_upd, upd_upd]
    refine upd_congr ?_
    rw [hslot] at hst
    exact (if_neg hst).symm

/-- The slot named by a REF_CONFIG holds its settings; where the task lost its state, nothing else of what they say is gone. -/
theorem refNamed_slot (s : Fin 12) (p : Payload) (h : Hub) : (refNamed s p h).refs[s] = refSettings p h.refs[s] ∨
    (refNamed s p h).refs[s] = (refSettings p h.refs[s]).forget := by
  have hset : ((copyWritten (0x8000 + 0x100 * s) 48 h).onRef s (refSettings p)).refs[s] = refSettings p h.refs[s] := upd_same ..
  have hf := refTask_forgets s h.refs[s].enabled (pb p 1 4) ((copyWritten (0x8000 + 0x100 * s) 48 h).onRef s (refSettings p)) s
  rw [hset] at hf
  exact hf

theorem refNamed_other {s j : Fin 12} {p : Payload} {h : Hub} (he : h.refs[s].enabled = true ∨ pb p 1 4 = false) (hj : j ≠ s) :
    (refNamed s p h).refs[j] = h.refs[j] := (refTask_other he hj).trans (upd_other _ _ _ _ hj)

theorem refNamed_same {s : Fin 12} {p : Payload} {h : Hub} (he : h.refs[s].enabled = pb p 1 4) :
    refNamed s p h = (copyWritten (0x8000 + 0x100 * s) 48 h).onRef s (refSettings p) := by
  unfold refNamed
  rw [he]
  exact refTask_same ..

theorem RefSlot.settled_cfg (l : Bool) (b : BitVec 16) (r : RefSlot) : (r.settled l b).cfg = r.cfg := by
  cases l
  case true => rfl
  case false => simp only [RefSlot.settled, if_false, Bool.false_eq_true]; split <;> rfl

/-- A slot that is, or becomes, ABSENT stays so. -/
theorem RefSlot.settled_absent {l : Bool} {b : BitVec 16} {r : RefSlot} (h : l = true ∨ r.state = .absent) :
    (r.settled l b).state = .absent := by
  cases l
  case true => rfl
  case false =>
    have hr : r.state = .absent := h.resolve_left Bool.false_ne_true
    simp only [RefSlot.settled, hr, if_false, Bool.false_eq_true, bne_self_eq_false]
    exact hr

/-- What waits for the end of the blanking is not touched. -/
theorem RefSlot.settled_blank (l : Bool) (b : BitVec 16) (r : RefSlot) : (r.settled l b).blank = r.blank ∧
    (r.settled l b).blankDesc = r.blankDesc := by
  cases l
  case true => exact ⟨rfl, rfl⟩
  case false => simp only [RefSlot.settled, if_false, Bool.false_eq_true]; split <;> exact ⟨rfl, rfl⟩

/-- A slot that stays ABSENT has its delay and limits in force. -/
theorem RefSlot.settled_taken {b : BitVec 16} {r : RefSlot} (h : r.state = .absent) :
    r.settled false b = r.delayTaken.limitsTaken := by
  simp only [RefSlot.settled, h, if_false, Bool.false_eq_true, bne_self_eq_false]

/-- A slot that goes on is as it was. -/
theorem RefSlot.settled_stays {b : BitVec 16} {r : RefSlot} (h : r.state ≠ .absent) : r.settled false b = r := by
  have : (r.state != .absent) = true := bne_iff_ne.mpr h
  simp only [RefSlot.settled, this, if_false, Bool.false_eq_true, if_true]

section
variable {d : Desc} {s : Fin 12} {h : Hub} (hs : pf d.payload 0 0 8 = s.val) (hb : refConfigBad h s d.payload = false)
include hs hb

/-- A REF_CONFIG that makes no task ends with its descriptor noted. -/
theorem refConfigEff_kept_task (he : h.refs[s].enabled = true ∨ pb d.payload 1 4 = false) : refConfigEff d h =
    refDone s [d.id] ((refSettled s d.payload h).onRef s
      (RefSlot.noted d (h.refs[s].blanksFor s d.payload) (refSettled s d.payload h).clk.cycles)) := by
  have hmake : (pb d.payload 1 4 && !h.refs[s].enabled) = false := by rcases he with e | e <;> rw [e] <;> simp
  rw [refConfigEff_good hs hb, hmake, Bool.false_and, if_neg Bool.false_ne_true]

/-- The slot after a REF_CONFIG: settled, and with the descriptor noted unless the slot's task was shed. -/
theorem refConfigEff_refs : ∃ f : RefSlot → RefSlot, (f = id ∨ ∃ n, f = RefSlot.noted d (h.refs[s].blanksFor s d.payload) n) ∧
    (refConfigEff d h).refs = upd (refNamed s d.payload h).refs s fun r =>
      f (r.settled (h.refs[s].leavesFor d.payload) h.refs[s].lossBit) := by
  rw [refConfigEff_good hs hb]
  split
  · refine ⟨id, .inl rfl, ?_⟩
    rw [complete, completeWith_refs, refSettled_refs]
    rfl
  · refine ⟨RefSlot.noted d (h.refs[s].blanksFor s d.payload) (refSettled s d.payload h).clk.cycles, .inr ⟨_, rfl⟩, ?_⟩
    rw [refDone_refs, Hub.onRef_refs, refSettled_refs, upd_upd]

theorem refConfigEff_cfg : (refConfigEff d h).refs[s].cfg = pbytes d.payload 48 := by
  obtain ⟨f, hf, hrefs⟩ := refConfigEff_refs hs hb
  have hfc : ∀ r : RefSlot, (f r).cfg = r.cfg := by
    intro r
    rcases hf with rfl | ⟨n, rfl⟩ <;> rfl
  rw [hrefs, Fin.getElem_fin, upd_same, hfc, RefSlot.settled_cfg]
  rcases refNamed_slot s d.payload h with e | e <;> rw [← Fin.getElem_fin, e] <;> rfl

theorem refConfigEff_other (he : h.refs[s].enabled = true ∨ pb d.payload 1 4 = false) {j : Fin 12} (hj : j ≠ s) :
    (refConfigEff d h).refs[j] = h.refs[j] := by
  obtain ⟨f, -, hrefs⟩ := refConfigEff_refs hs hb
  rw [hrefs]
  exact (upd_other _ _ _ _ hj).trans (refNamed_other he hj)

/-- A slot whose enable ends is ABSENT. -/
theorem refConfigEff_disabled (he : pb d.payload 1 4 = false) : (refConfigEff d h).refs[s].state = .absent := by
  obtain ⟨f, hf, hrefs⟩ := refConfigEff_refs hs hb
  have hfs : ∀ r : RefSlot, (f r).state = r.state := by
    intro r
    rcases hf with rfl | ⟨n, rfl⟩ <;> rfl
  rw [hrefs, Fin.getElem_fin, upd_same, hfs]
  refine RefSlot.settled_absent ?_
  by_cases hst : h.refs[s].state = .absent
  · right
    rcases refNamed_slot s d.payload h with e | e <;> rw [← Fin.getElem_fin, e]
    · exact hst
    · rfl
  · left
    exact RefSlot.leavesFor_of_disabled he hst

/-- With the enable unchanged, or on, the slot is settled from its new settings, and the descriptor is noted. -/
theorem refConfigEff_slot (he : h.refs[s].enabled = pb d.payload 1 4) : ∃ n, (refConfigEff d h).refs[s] =
    ((refSettings d.payload h.refs[s]).settled (h.refs[s].leavesFor d.payload) h.refs[s].lossBit).noted d
      (h.refs[s].blanksFor s d.payload) n := by
  have he' : h.refs[s].enabled = true ∨ pb d.payload 1 4 = false := by
    cases hp : pb d.payload 1 4
    · exact .inr rfl
    · exact .inl (he.trans hp)
  refine ⟨(refSettled s d.payload h).clk.cycles, ?_⟩
  rw [refConfigEff_kept_task hs hb he', refDone_refs, Hub.onRef_refs, refSettled_refs, refNamed_same he, upd_upd, Hub.onRef_refs,
    upd_upd]
  exact upd_same ..

end

/-! ## Descriptors of a slot -/

theorem Hub.OkOrOpen.onRef {d : Desc} {h : Hub} (x : h.OkOrOpen d) (s : Fin 12) (f : RefSlot → RefSlot) : (h.onRef s f).OkOrOpen d :=
  x.carried (onRef_carries ..) x.ids

theorem Hub.OkOrOpen.slewUsers {d : Desc} {h : Hub} (x : h.OkOrOpen d) (s : Fin 12) (v : Int) : (slewUsers s v h).OkOrOpen d :=
  x.carried (.of_same List.suffix_rfl rfl rfl rfl rfl) x.ids

theorem Hub.OkOrOpen.copyWritten {d : Desc} {h : Hub} (x : h.OkOrOpen d) (a b : Nat) : (copyWritten a b h).OkOrOpen d :=
  x.carried (.of_same List.suffix_rfl rfl rfl rfl rfl) x.ids

section
variable {d : Desc} {q : Fin 16} {h : Hub} (x : h.OkOrOpen d) (ho : d.origin = .ring q) (hx : d.discard = false)
include x ho hx

theorem refDone_okOrOpen (s : Fin 12) (ids : List Nat) : (refDone s ids h).OkOrOpen d := by
  unfold refDone
  induction ids generalizing h with
  | nil => exact x
  | cons i l ih =>
    refine ih ?_
    dsimp only
    split
    · exact x
    · exact x.complete ho hx i

theorem applyDelay_okOrOpen (s : Fin 12) : (applyDelay s h).OkOrOpen d := by
  unfold applyDelay
  refine refDone_okOrOpen ?_ ho hx ..
  dsimp only
  split
  · exact x.onRef s _
  · exact (x.onRef s _).slewUsers s _

theorem applyLimits_okOrOpen (s : Fin 12) : (applyLimits s h).OkOrOpen d :=
  refDone_okOrOpen (x.onRef s _) ho hx ..

/-- A descriptor that waits for nothing completes. -/
theorem refDone_posted {s : Fin 12} (hw : d.id ∉ h.refs[s].blankDesc ++ h.refs[s].delayDesc ++ h.refs[s].setDesc) :
    ∃ r, (refDone s [d.id] h).Posted d .ok r := by
  have hc : (h.refs[s].blankDesc ++ h.refs[s].delayDesc ++ h.refs[s].setDesc).contains d.id = false := by
    simpa using hw
  have he : refDone s [d.id] h = complete d.id .ok h := by
    simp only [refDone, forEach, List.foldl, hc, Bool.false_eq_true, if_false]
  rw [he]
  exact x.completed ho hx

end

/-! ## Losses and timers (R131, R133, R134) -/

/-- The moment of a loss is the present or later: of the hub only the time has moved. -/
theorem lossDue_frame {s : Fin 12} {h g : Hub} (e : lossDue s h = some g) :
    g.refs = h.refs ∧ g.top = h.top ∧ g.flt = h.flt := by
  have hnow : h.refs = h.refs ∧ h.top = h.top ∧ h.flt = h.flt := ⟨rfl, rfl, rfl⟩
  unfold lossDue at e
  dsimp only at e
  split at e
  · split at e
    · cases e
    · cases e; exact hnow
  · split at e
    · cases e; exact hnow
    · obtain ⟨u, -, hu⟩ := Option.bind_eq_some_iff.mp e
      obtain ⟨n, rfl⟩ := reachNom_advanceTo hu
      exact ⟨advanceTo_refs .., advanceTo_top .., advanceTo_flt ..⟩

/-- The loss of a QUALIFIED slot: ABSENT with its cause, and the message. -/
theorem slotLost_qualified {s : Fin 12} {h : Hub} (c : Nat) (hq : h.refs[s].state = .qualified) : slotLost s c h =
    sendFault (srcRef s) .refLost accNone mInternal c
      ((toAbsent s (bit16 4) h).onRef s fun r => { r with cause := BitVec.ofNat 4 c }) := by
  simp only [slotLost, hq]

/-- The missing edge of a FREQ slot is counted, and its presence test starts anew. -/
def RefSlot.missed (r : RefSlot) : RefSlot :=
  { r with seen := 0, cntMiss := if r.state == SlotState.absent then r.cntMiss else satInc32 r.cntMiss }

/-- The hub at a loss, before the slot goes. -/
def lossCounted (s : Fin 12) (h : Hub) : Hub := if h.refs[s].format = 0 then h.onRef s RefSlot.missed else h

theorem lossCounted_frame (s : Fin 12) (h : Hub) : (lossCounted s h).top = h.top ∧ (lossCounted s h).flt = h.flt ∧
    ((lossCounted s h).refs[s].state = h.refs[s].state) ∧ (lossCounted s h).refs[s].evt = h.refs[s].evt := by
  unfold lossCounted
  split
  · simp only [Hub.onRef_top, Hub.onRef_flt, Hub.onRef_refs, Fin.getElem_fin, upd_same]
    exact ⟨trivial, trivial, rfl, rfl⟩
  · exact ⟨rfl, rfl, rfl, rfl⟩

theorem refLossDetected_qualified {s : Fin 12} {h g : Hub} (hr : h.runs = true) (he : h.refs[s].enabled = true)
    (hf : h.refs[s].format ≠ 5) (hq : h.refs[s].state = .qualified) (hd : lossDue s h = some g) : refLossDetected s h =
      sendFault (srcRef s) .refLost accNone mInternal 1
        ((toAbsent s (bit16 4) (lossCounted s g)).onRef s fun r => { r with cause := 1 }) := by
  obtain ⟨hrefs, -, -⟩ := lossDue_frame hd
  have h5 : ¬(g.refs[s].format = 5 ∧ (!(lossCounted s g).portTimed g.refs[s]) = true) := by rw [hrefs]; exact fun x => hf x.1
  have hqg : (lossCounted s g).refs[s].state = .qualified := by rw [(lossCounted_frame s g).2.2.1, hrefs]; exact hq
  have hlost : refLossDetected s h =
      slotLost s (if g.refs[s].format = 5 ∧ (!(lossCounted s g).portTimed g.refs[s]) = true then 11 else 1) (lossCounted s g) := by
    simp only [refLossDetected, hr, he, Bool.and_self, if_true, hd]
    rfl
  rw [hlost, if_neg h5, slotLost_qualified 1 hqg]
  rfl

/-- A slot that meets all conditions is QUALIFIED. -/
theorem tryQualify_ready {s : Fin 12} {h : Hub} (hq : h.refs[s].state = .qualifying) (ht : h.refs[s].timer = 0)
    (hw : h.windowOf h.refs[s] ≤ h.refs[s].k) (hv : h.refs[s].todValid = true ∨ h.refs[s].format < 3) :
    tryQualify s h = enterSlot s .qualified 0 h := by
  have hv' : (h.refs[s].todValid || decide (h.refs[s].format < 3)) = true := by simpa using hv
  simp only [tryQualify, hq, ht, beq_self_eq_true, hw, decide_true, hv', Bool.and_self, if_true]

/-- A slot that begins to qualify again keeps its history. -/
def RefSlot.requalified (r : RefSlot) : RefSlot :=
  ({ r with timer := r.qualTime, timerMs := 0, peak1 := 0, peak10 := 0, peak100 := 0, peakJump := 0 } : RefSlot).entered .qualifying 0

theorem requalify_refs (s : Fin 12) (h : Hub) : (requalify s h).refs = upd h.refs s RefSlot.requalified := by
  rw [requalify, enterSlot_refs, Hub.onRef_refs, upd_upd]
  rfl

theorem RefSlot.entered_bit {st : SlotState} {more : BitVec 16} {r : RefSlot} :
    (r.entered st more).evt.bits.getLsbD st.code = true := by
  have hc : st.code < 16 := by cases st <;> decide
  change ((r.evt.raise (bit16 st.code ||| more)).bits).getLsbD st.code = true
  rw [Evt.raise_bits, BitVec.getLsbD_or, BitVec.getLsbD_or, bit16_getLsbD_self hc, Bool.true_or, Bool.or_true]

/-- A QUALIFIED slot after its loss. -/
def RefSlot.lost (c : BitVec 4) (r : RefSlot) : RefSlot := { r.gone (bit16 4) with cause := c }

theorem RefSlot.lost_fields (c : BitVec 4) (r : RefSlot) : (r.lost c).state = .absent ∧ (r.lost c).cause = c ∧
    (r.lost c).hist = [] ∧ (r.lost c).evt = (r.entered .absent (bit16 4)).evt := ⟨rfl, rfl, rfl, rfl⟩

/-- What a state's entry sets besides its own bit stands. -/
theorem RefSlot.entered_more {st : SlotState} {i : Nat} {r : RefSlot} (hi : i < 16) :
    (r.entered st (bit16 i)).evt.bits.getLsbD i = true := by
  rw [RefSlot.entered, Evt.raise_bits, BitVec.getLsbD_or, BitVec.getLsbD_or, bit16_getLsbD_self hi, Bool.or_true, Bool.or_true]

theorem refPriorityEff_good {d : Desc} {m : Fin 16} {h : Hub} (hm : pf d.payload 0 0 8 = m.val)
    (hle : pf d.payload 2 0 16 ≤ pf d.payload 4 0 16) (hlo : 1 ≤ pf d.payload 4 0 16) (hhi : pf d.payload 4 0 16 ≤ 1000) :
    refPriorityEff d h = h.onDom m fun x => { x with prioQ := x.prioQ ++ [(d.id, pbytes d.payload 24)] } := by
  have hok : ¬(1000 < pf d.payload 2 0 16 ∨ pf d.payload 4 0 16 = 0 ∨ 1000 < pf d.payload 4 0 16 ∨
      pf d.payload 4 0 16 < pf d.payload 2 0 16) := by omega
  simp only [refPriorityEff, withFin_val hm, hok, if_false]

/-! ## What a REF_CONFIG leaves of its slot -/

theorem pbytes_48 (p : Payload) : pbytes p 48 = p := by
  have h48 : 8 * 48 = 384 := rfl
  rw [pbytes, h48, BitVec.toNat_mod_cancel, BitVec.ofNat_toNat, BitVec.setWidth_eq]

/-- Once its delay and its limits are in force the slot waits for them no longer, but only for its blanking. -/
theorem RefSlot.noted_taken (d : Desc) (n : Nat) (r : RefSlot) :
    ((refSettings d.payload r).delayTaken.limitsTaken.noted d false n).blankDesc ++
      ((refSettings d.payload r).delayTaken.limitsTaken.noted d false n).delayDesc ++
      ((refSettings d.payload r).delayTaken.limitsTaken.noted d false n).setDesc = r.blankDesc := by
  have hset : ((refSettings d.payload r).delayTaken.limitsTaken).set_ = d.payload := pbytes_48 _
  have hdelay : ((refSettings d.payload r).delayTaken.limitsTaken).delay = pfs d.payload 22 0 48 :=
    congrArg (fun p => pfs p 22 0 48) (pbytes_48 d.payload)
  simp only [RefSlot.noted, hset, hdelay, if_true, if_false, Bool.false_eq_true]
  exact (List.append_nil _).trans (List.append_nil _)

section
variable {d : Desc} {s : Fin 12} {h : Hub} (hs : pf d.payload 0 0 8 = s.val) (hb : refConfigBad h s d.payload = false)
include hs hb

/-- A changed front end blanks the input, and the descriptor waits for that. -/
theorem refConfigEff_blanks (he : h.refs[s].enabled = true) (hon : pb d.payload 1 4 = true) (h8 : s.val < 8)
    (hf : refFront d.payload ≠ refFront h.refs[s].cfg) : (refConfigEff d h).refs[s].blank = true ∧
      (refConfigEff d h).refs[s].blankDesc = h.refs[s].blankDesc ++ [d.id] := by
  obtain ⟨n, hn⟩ := refConfigEff_slot hs hb (he.trans hon.symm)
  have hbl : h.refs[s].blanksFor s d.payload = true := RefSlot.blanksFor_of_front he hon h8 hf
  rw [hn, hbl]
  refine ⟨Bool.or_true _, ?_⟩
  simp only [RefSlot.noted, if_true, RefSlot.settled_blank]
  rfl

/-- Changed limits of a slot that stays as it is wait for its next sample. -/
theorem refConfigEff_limits (he : h.refs[s].enabled = true) (hon : pb d.payload 1 4 = true) (hst : h.refs[s].state ≠ .absent)
    (hk : refKeys d.payload = refKeys h.refs[s].cfg) (hl : refLimits d.payload ≠ refLimits h.refs[s].set_) :
    (refConfigEff d h).refs[s].set_ = h.refs[s].set_ ∧ (refConfigEff d h).refs[s].setDesc = h.refs[s].setDesc ++ [d.id] := by
  obtain ⟨n, hn⟩ := refConfigEff_slot hs hb (he.trans hon.symm)
  have hstay : h.refs[s].leavesFor d.payload = false := RefSlot.leavesFor_of_keys hon hk
  rw [hn, hstay, RefSlot.settled_stays (by exact hst)]
  exact ⟨rfl, if_neg hl⟩

/-- A slot that stays ABSENT has its new delay at once. -/
theorem refConfigEff_absent (he : h.refs[s].enabled = pb d.payload 1 4) (hst : h.refs[s].state = .absent) :
    ∃ n, (refConfigEff d h).refs[s] = (refSettings d.payload h.refs[s]).delayTaken.limitsTaken.noted d
      (h.refs[s].blanksFor s d.payload) n := by
  obtain ⟨n, hn⟩ := refConfigEff_slot hs hb he
  have hstay : h.refs[s].leavesFor d.payload = false := RefSlot.leavesFor_of_absent hst
  rw [hstay, RefSlot.settled_taken (by exact hst)] at hn
  exact ⟨n, hn⟩

/-- The descriptor of a slot that stays ABSENT as it was, with its front end, completes. -/
theorem refConfigEff_posted {q : Fin 16} (x : h.OkOrOpen d) (ho : d.origin = .ring q) (hx : d.discard = false)
    (he : h.refs[s].enabled = pb d.payload 1 4) (hst : h.refs[s].state = .absent) (hw : d.id ∉ h.refs[s].blankDesc)
    (hf : s.val < 8 → refFront d.payload = refFront h.refs[s].cfg) : ∃ r, (refConfigEff d h).Posted d .ok r := by
  have he' : h.refs[s].enabled = true ∨ pb d.payload 1 4 = false := by
    cases hp : pb d.payload 1 4
    · exact .inr rfl
    · exact .inl (he.trans hp)
  have hbl : h.refs[s].blanksFor s d.payload = false := RefSlot.blanksFor_of_same hf
  have hnamed := refNamed_same he
  have hopen : (refNamed s d.payload h).OkOrOpen d := by
    rw [hnamed]
    exact (x.copyWritten _ _).onRef s _
  have hstay : h.refs[s].leavesFor d.payload = false := RefSlot.leavesFor_of_absent hst
  have hslot : (refNamed s d.payload h).refs[s] = refSettings d.payload h.refs[s] := by
    rw [hnamed]
    exact upd_same ..
  have hsettle : refSettled s d.payload h = applyLimits s (applyDelay s (refNamed s d.payload h)) := by
    have hn : (refNamed s d.payload h).refs[s].state = .absent := by rw [hslot]; exact hst
    simp only [refSettled, hstay, if_false, Bool.false_eq_true, hn, bne_self_eq_false]
  rw [refConfigEff_kept_task hs hb he', hbl]
  refine refDone_posted ?_ ho hx ?_
  · rw [hsettle]
    have hall := applyLimits_okOrOpen (applyDelay_okOrOpen hopen ho hx s) ho hx s
    exact hall.onRef s _
  · have hend : ((refSettled s d.payload h).onRef s (RefSlot.noted d false (refSettled s d.payload h).clk.cycles)).refs[s] =
        (refSettings d.payload h.refs[s]).delayTaken.limitsTaken.noted d false (refSettled s d.payload h).clk.cycles := by
      rw [Hub.onRef_refs, refSettled_refs, hstay, upd_upd, Fin.getElem_fin, upd_same, ← Fin.getElem_fin, hslot,
        RefSlot.settled_taken (by exact hst)]
    rw [hend]
    have hwait := RefSlot.noted_taken d (refSettled s d.payload h).clk.cycles h.refs[s]
    rw [hwait]
    exact hw

end

end Sys2Proof.Machine

namespace Sys2Proof

open Machine

/-- Settles O8: a REF_CONFIG names its settings, settles the slot and notes where its descriptor waits; a loss and the timers are one
update of the slot each. -/
theorem referenceSlots : Obligations.ReferenceSlots := by
  unfold Obligations.ReferenceSlots
  refine ⟨fun o d s S => ⟨fun k hop hk hb => ?config, fun m hop hm hle hlo hhi => ?priority⟩,
    fun s k hr => ⟨fun h he hf hq hl hd => ?loss, fun hrun hq ht hw hv => ?qualify, fun hrun hq ht => ?requalify⟩⟩
  case config =>
    have hb' : refConfigBad (markApplied d.id s.toHub) k d.payload = false := hb
    refine ⟨_, exec_serve S (fun _ => rfl) (isOp_of hop) (by rw [hop]; rfl), refConfigEff_cfg hk hb', fun he j hj => ?_,
      refConfigEff_disabled hk hb', fun he hon => ⟨fun h8 hf => ?_, fun hst hkeys hl => ?_⟩, fun he hst hw hf => ⟨?_, fun q ho hx => ?_⟩⟩
    · exact refConfigEff_other (h := markApplied d.id s.toHub) hk hb' he hj
    · exact refConfigEff_blanks (h := markApplied d.id s.toHub) hk hb' he hon h8 hf
    · exact refConfigEff_limits (h := markApplied d.id s.toHub) hk hb' he hon hst hkeys hl
    · obtain ⟨n, hn⟩ := refConfigEff_absent (h := markApplied d.id s.toHub) hk hb' he hst
      change (refConfigEff d (markApplied d.id s.toHub)).refs[k].delay = _
      rw [hn]
      exact congrArg (fun p => pfs p 22 0 48) (pbytes_48 d.payload)
    · exact refConfigEff_posted (h := markApplied d.id s.toHub) hk hb' S.okOrOpen (S.origin.trans ho) hx he hst hw hf
  case priority =>
    exact ⟨_, exec_served S (fun _ => rfl) (isOp_of hop) (by rw [hop]; rfl)
      (refPriorityEff_good (h := markApplied d.id s.toHub) hm hle hlo hhi), upd_same .., fun k hk => upd_other _ _ _ _ hk⟩
  case loss =>
    obtain ⟨hrefs, htop, hflt⟩ := lossDue_frame hd
    obtain ⟨htc, hfc, -, hev⟩ := lossCounted_frame k h
    have ho := toAbsent_only k (lossCounted k h) (bit16 4)
    have htg := (ho.eq_top (by simp) (by simp)).trans (htc.trans htop)
    have hfg := (ho.eq_flt (by simp) (by simp) (by simp)).trans (hfc.trans hflt)
    obtain ⟨m, hsent, hmsg⟩ := sendFault_enters (srcRef k) .refLost accNone mInternal 1 (h := s.toHub)
      (g := (toAbsent k (bit16 4) (lossCounted k h)).onRef k fun r => { r with cause := 1 })
      (by rw [Hub.onRef_top]; exact htg) (by rw [Hub.onRef_flt]; exact hfg) hr hl
    refine ⟨_, exec_run (fun _ => rfl) (refLossDetected_qualified hr he hf hq hd), ?_⟩
    have hslot : (sendFault (srcRef k) .refLost accNone mInternal 1
        ((toAbsent k (bit16 4) (lossCounted k h)).onRef k fun r => { r with cause := 1 })).refs[k] =
        (lossCounted k h).refs[k].lost 1 := by
      simp only [sendFault_refs, Hub.onRef_refs, toAbsent_refs, upd_upd]
      exact upd_same ..
    obtain ⟨hst, hcause, hhist, hevt⟩ := RefSlot.lost_fields 1 (lossCounted k h).refs[k]
    rw [hslot, hst, hcause, hhist, hevt]
    refine ⟨rfl, rfl, RefSlot.entered_bit (st := .absent), RefSlot.entered_more (by decide), rfl, m, hsent, ?_⟩
    rw [hmsg]
    rfl
  case qualify =>
    have he : qualifyTimerExpiry k s.toHub = enterSlot k .qualified 0 s.toHub := by
      rw [qualifyTimerExpiry, hr, hrun, Bool.and_self, when_true, tryQualify_ready hq ht hw hv]
    refine ⟨_, exec_run (fun _ => rfl) he, ?_⟩
    rw [enterSlot_refs]
    refine ⟨?_, ?_, fun j hj => upd_other _ _ _ _ hj⟩ <;> rw [Fin.getElem_fin, upd_same]
    · rfl
    · exact RefSlot.entered_bit
  case requalify =>
    have he : requalifyTimerExpiry k s.toHub = requalify k s.toHub := by
      simp only [requalifyTimerExpiry, hr, hrun, hq, ht, beq_self_eq_true, Bool.and_self, when_true]
    refine ⟨_, exec_run (fun _ => rfl) he, ?_⟩
    rw [requalify_refs]
    refine ⟨?_, ?_, ?_, ?_, fun j hj => upd_other _ _ _ _ hj⟩ <;> rw [Fin.getElem_fin, upd_same]
    · rfl
    · rfl
    · rfl
    · exact RefSlot.entered_bit

end Sys2Proof
end

section
/-!
SUPPORT. Pulses, sentences and frames of the reference inputs, and the samples of a PPS slot (R117 to R119, R125, R133). An edge may
change which lane stamps an input (R98), which the pulses do not depend on.
-/

set_option Elab.async false

namespace Sys2Proof.Machine

/-! ## The lanes that stamp the inputs -/

/-- The slot, or the channel, with another lane to stamp it. -/
def RefSlot.relaned (c : Option (Fin 6)) (r : RefSlot) : RefSlot := { r with cw := c }
def EvtCh.relaned (c : Option (Fin 6)) (x : EvtCh) : EvtCh := { x with cw := c }

/-- From h to t at most the lanes that stamp slots and channels have changed. -/
def Relaned (h t : Hub) : Prop :=
  (∀ j : Fin 12, ∃ c, t.refs[j] = h.refs[j].relaned c) ∧ ∀ n : Fin 64, ∃ c, t.evts[n] = h.evts[n].relaned c

theorem Relaned.of_eq {h t : Hub} (hr : t.refs = h.refs) (he : t.evts = h.evts) : Relaned h t :=
  ⟨fun j => ⟨h.refs[j].cw, congrArg (·[j]) hr⟩, fun n => ⟨h.evts[n].cw, congrArg (·[n]) he⟩⟩

theorem Relaned.trans {a b c : Hub} (p : Relaned a b) (q : Relaned b c) : Relaned a c := by
  refine ⟨fun j => ?_, fun n => ?_⟩
  · obtain ⟨x, hx⟩ := p.1 j
    obtain ⟨y, hy⟩ := q.1 j
    exact ⟨y, by rw [hy, hx]; rfl⟩
  · obtain ⟨x, hx⟩ := p.2 n
    obtain ⟨y, hy⟩ := q.2 n
    exact ⟨y, by rw [hy, hx]; rfl⟩

theorem releaseCw_relaned (k : Fin 6) (h : Hub) : Relaned h (releaseCw k h) := by
  refine ⟨fun j => ?_, fun n => ?_⟩
  · simp only [releaseCw, Fin.getElem_fin, Vector.getElem_map]
    split
    · exact ⟨none, rfl⟩
    · exact ⟨_, rfl⟩
  · simp only [releaseCw, Fin.getElem_fin, Vector.getElem_map]
    split
    · exact ⟨none, rfl⟩
    · exact ⟨_, rfl⟩

theorem Relaned.onEvt (h : Hub) (n : Fin 64) (k : Option (Fin 6)) : Relaned h (h.onEvt n fun c => { c with cw := k }) := by
  refine ⟨fun j => ⟨h.refs[j].cw, rfl⟩, fun i => ?_⟩
  by_cases hi : i = n
  · subst hi; exact ⟨k, upd_same ..⟩
  · exact ⟨h.evts[i].cw, upd_other _ _ _ _ hi⟩

theorem Relaned.onRef (h : Hub) (s : Fin 12) (k : Option (Fin 6)) : Relaned h (h.onRef s fun r => { r with cw := k }) := by
  refine ⟨fun j => ?_, fun n => ⟨h.evts[n].cw, rfl⟩⟩
  by_cases hj : j = s
  · subst hj; exact ⟨k, upd_same ..⟩
  · exact ⟨h.refs[j].cw, upd_other _ _ _ _ hj⟩

theorem handOver_relaned (l : Fin 192) (k : Fin 6) (h : Hub) : Relaned h (handOver l k h) := by
  unfold handOver
  dsimp only
  split <;> split
  · exact (Relaned.onEvt h _ _).trans (Relaned.onRef ..)
  · exact .onRef ..
  · exact .onEvt ..
  · exact .of_eq rfl rfl

theorem raiseTdc_relaned (b : BitVec 16) (h : Hub) : Relaned h (raiseTdc b h) := by
  rw [raiseTdc_irqIf]
  exact .of_eq (irqIf_refs ..) (irqIf_evts ..)

theorem endOverlap_relaned (x : LaneTest) (k : Fin 6) (h : Hub) : Relaned h (endOverlap x k h) := by
  unfold endOverlap
  dsimp only
  split
  · split
    · exact (releaseCw_relaned k (onTest _ _ h)).trans (raiseTdc_relaned ..)
    · exact (handOver_relaned x.lane k h).trans (.of_eq rfl rfl)
  · split
    · exact (Relaned.of_eq (t := cwPhase k 2 (onTest _ _ h)) rfl rfl).trans (raiseTdc_relaned ..)
    · exact (releaseCw_relaned k (onTest _ _ h)).trans (raiseTdc_relaned ..)

/-- An edge that a LANE test compares changes no more than which lane stamps an input. -/
theorem notePair_relaned (l : Fin 192) (st : Stamp) (h : Hub) : Relaned h (notePair l st h) := by
  unfold notePair
  split
  · split
    · exact .of_eq rfl rfl
    · dsimp only
      split
      · split
        · exact endOverlap_relaned _ _ (onTest l _ h)
        · exact .of_eq rfl rfl
      · exact .of_eq rfl rfl
  · exact .of_eq rfl rfl

/-! ## On-time edges (R117) -/

/-- A pulse is used the same whichever lane stamped it. -/
theorem RefSlot.useEdge_relaned (u p : Int) (c : Option (Fin 6)) (r : RefSlot) :
    (r.relaned c).useEdge u p = (r.useEdge u p).relaned c := by
  have hfirst : (if (r.relaned c).format = 2 ∨ (r.relaned c).pulses.isEmpty = true then r.relaned c else (r.relaned c).close) =
      (if r.format = 2 ∨ r.pulses.isEmpty = true then r else r.close).relaned c := by
    rw [apply_ite (RefSlot.relaned c)]
    rfl
  unfold RefSlot.useEdge
  rw [hfirst]
  generalize (if r.format = 2 ∨ r.pulses.isEmpty = true then r else r.close) = x
  dsimp only
  rw [apply_ite (RefSlot.relaned c)]
  rfl

theorem RefSlot.useEdge_of_relaned (u p : Int) (c : Option (Fin 6)) (r : RefSlot) :
    (RefSlot.useEdge u p { r.relaned c with lastOn := some u }).relaned r.cw = RefSlot.useEdge u p { r with lastOn := some u } := by
  have hr : ({ r.relaned c with lastOn := some u } : RefSlot) = ({ r with lastOn := some u } : RefSlot).relaned c := rfl
  rw [hr, RefSlot.useEdge_relaned]
  exact (RefSlot.useEdge_relaned u p r.cw { r with lastOn := some u }).symm

theorem RefSlot.addExtra_of_relaned (u : Int) (c : Option (Fin 6)) (r : RefSlot) :
    (RefSlot.addExtra u { r.relaned c with lastOn := some u }).relaned r.cw = RefSlot.addExtra u { r with lastOn := some u } := rfl

theorem RefSlot.addBad_of_relaned (u : Int) (c : Option (Fin 6)) (r : RefSlot) :
    ((r.relaned c).addBad u).relaned r.cw = r.addBad u := rfl

/-- A prediction that is not past stands. -/
theorem passPredictions_ahead {n : Nat} {t p : Int} {r : RefSlot} (hp : r.prediction = some p) (ht : t ≤ p + usFu) :
    passPredictions n t r = r := by
  cases n with
  | zero => rfl
  | succ n => simp only [passPredictions, hp, Int.not_lt.mpr ht, if_false]

theorem RefSlot.missPulse_cntMiss (p : Int) (r : RefSlot) : (r.missPulse p).cntMiss = r.cntMiss := by
  unfold RefSlot.missPulse
  split
  · split <;> rfl
  · split <;> rfl

theorem satInc32_le (n : Nat) : satInc32 n ≤ 0xFFFFFFFF := by unfold satInc32 satAdd; omega

/-- Missing pulses are only ever added. -/
theorem passPredictions_cntMiss (n : Nat) (t : Int) {r : RefSlot} (hr : r.cntMiss ≤ 0xFFFFFFFF) :
    r.cntMiss ≤ (passPredictions n t r).cntMiss := by
  induction n generalizing r with
  | zero => exact le_rfl
  | succ n ih =>
    unfold passPredictions
    split
    · exact le_rfl
    · split
      · refine le_trans ?_ (ih ?_) <;> rw [RefSlot.missPulse_cntMiss] <;> dsimp only <;> split
        · exact le_rfl
        · unfold satInc32 satAdd; omega
        · exact hr
        · exact satInc32_le _
      · exact le_rfl

/-- A prediction that has gone by is a missing pulse. -/
theorem passPredictions_late {n : Nat} {t p : Int} {r : RefSlot} (hp : r.prediction = some p) (ht : p + usFu < t)
    (hv : r.voided = false) (hc : r.cntMiss < 0xFFFFFFFF) : r.cntMiss < (passPredictions (n + 1) t r).cntMiss := by
  simp only [passPredictions, hp, ht, if_true]
  refine lt_of_lt_of_le ?_ (passPredictions_cntMiss n t ?_) <;>
    rw [RefSlot.missPulse_cntMiss] <;> dsimp only <;> rw [hv, if_neg Bool.false_ne_true]
  · unfold satInc32 satAdd; omega
  · exact satInc32_le _

theorem RefSlot.useEdge_cntMiss (u p : Int) (r : RefSlot) : (r.useEdge u p).cntMiss = r.cntMiss := by
  have hfirst : (if r.format = 2 ∨ r.pulses.isEmpty = true then r else r.close).cntMiss = r.cntMiss := by split <;> rfl
  rw [← hfirst]
  unfold RefSlot.useEdge
  generalize (if r.format = 2 ∨ r.pulses.isEmpty = true then r else r.close) = x
  dsimp only
  rw [apply_ite RefSlot.cntMiss]
  exact ite_self _

/-- What a valid edge of a pulse format makes of its slot, once it is not ABSENT. -/
def RefSlot.edgeTaken (u : Int) (r : RefSlot) : RefSlot :=
  let r := passPredictions 100 u { r with lastOn := some u }
  match r.prediction with
  | none => r.useEdge u u
  | some p => if (u - p).natAbs ≤ usFu then r.useEdge u p else r.addExtra u

theorem onTimeEdge_predicts {k : Fin 12} {h : Hub} (u : Int) (hst : h.refs[k].state ≠ .absent)
    (hp : h.refs[k].predicts = true) : (onTimeEdge k u h).refs = upd h.refs k (RefSlot.edgeTaken u) := by
  have hst' : (h.refs[k].state == SlotState.absent) = false := beq_eq_false_iff_ne.mpr hst
  unfold onTimeEdge
  dsimp only
  rw [hst', hp, if_neg Bool.false_ne_true, if_pos rfl]
  generalize hg : (h.onRef k fun r => { r with lastOn := some u }).onRef k (passPredictions 100 u) = g
  have hgr : g.refs = upd h.refs k fun r => passPredictions 100 u { r with lastOn := some u } := by
    rw [← hg, Hub.onRef_refs, Hub.onRef_refs, upd_upd]
  have hgk : g.refs[k] = passPredictions 100 u { h.refs[k] with lastOn := some u } := by
    rw [hgr]; exact upd_same ..
  split
  case h_1 hn =>
    rw [Hub.onRef_refs, hgr, upd_upd]
    refine upd_congr ?_
    rw [hgk] at hn
    simp only [RefSlot.edgeTaken, hn]
  case h_2 p hn =>
    rw [hgk] at hn
    split
    case isTrue hu =>
      rw [Hub.onRef_refs, hgr, upd_upd]
      refine upd_congr ?_
      simp only [RefSlot.edgeTaken, hn, hu, if_true]
    case isFalse hu =>
      rw [Hub.onRef_refs, hgr, upd_upd]
      refine upd_congr ?_
      simp only [RefSlot.edgeTaken, hn, hu, if_false]

/-- Of a format without predictions to miss, every valid edge is used once the slot is not ABSENT. -/
theorem onTimeEdge_always {k : Fin 12} {h : Hub} (u : Int) (hst : h.refs[k].state ≠ .absent)
    (hp : h.refs[k].predicts = false) : (onTimeEdge k u h).refs =
      upd h.refs k fun r => ({ r with lastOn := some u } : RefSlot).useEdge u (({ r with lastOn := some u } : RefSlot).nearPrediction u) := by
  have hst' : (h.refs[k].state == SlotState.absent) = false := beq_eq_false_iff_ne.mpr hst
  unfold onTimeEdge
  dsimp only
  rw [hst', hp, if_neg Bool.false_ne_true, if_neg Bool.false_ne_true, Hub.onRef_refs, Hub.onRef_refs, upd_upd]

theorem onTimeEdge_only (k : Fin 12) (u : Int) (h : Hub) :
    Only { parts := [.msix, .bus], refs := (· = k) } h (onTimeEdge k u h) :=
  (onTimeEdge_kept (fun _ hp => hp) rfl (.refl h)).only

section
variable {r : RefSlot} {u p : Int} (hp : r.prediction = some p)
include hp

theorem RefSlot.edgeTaken_near (hu : (u - p).natAbs ≤ usFu) :
    r.edgeTaken u = RefSlot.useEdge u p { r with lastOn := some u } := by
  have hpass : passPredictions 100 u { r with lastOn := some u } = { r with lastOn := some u } :=
    passPredictions_ahead (by exact hp) (by omega)
  have hp' : ({ r with lastOn := some u } : RefSlot).prediction = some p := hp
  simp only [RefSlot.edgeTaken, hpass, hp', hu, if_true]

theorem RefSlot.edgeTaken_early (hu : u < p - usFu) : r.edgeTaken u = RefSlot.addExtra u { r with lastOn := some u } := by
  have hus : (0 : Int) ≤ usFu := by decide
  have hpass : passPredictions 100 u { r with lastOn := some u } = { r with lastOn := some u } :=
    passPredictions_ahead (by exact hp) (by omega)
  have hp' : ({ r with lastOn := some u } : RefSlot).prediction = some p := hp
  have hfar : ¬((u - p).natAbs : Int) ≤ usFu := by omega
  simp only [RefSlot.edgeTaken, hpass, hp', hfar, if_false]

theorem RefSlot.edgeTaken_late (hu : p + usFu < u) (hv : r.voided = false) (hc : r.cntMiss < 0xFFFFFFFF) :
    r.cntMiss < (r.edgeTaken u).cntMiss := by
  have hlate : r.cntMiss < (passPredictions 100 u { r with lastOn := some u }).cntMiss :=
    passPredictions_late (n := 99) (r := { r with lastOn := some u }) hp hu hv hc
  refine lt_of_lt_of_eq hlate ?_
  unfold RefSlot.edgeTaken
  dsimp only
  split
  · exact (RefSlot.useEdge_cntMiss ..).symm
  · split
    · exact (RefSlot.useEdge_cntMiss ..).symm
    · rfl

end

/-! ## Pulses -/

/-- The hub once a lane has taken an edge. -/
def edgeHeard (l : Fin 192) (st : Stamp) (h : Hub) : Hub := notePair l st (laneTake l (h.rootStamp (h.laneUsed l) st) h)

theorem edgeHeard_relaned (l : Fin 192) (st : Stamp) (h : Hub) : Relaned h (edgeHeard l st h) :=
  (Relaned.of_eq (t := laneTake l _ h) rfl rfl).trans (notePair_relaned ..)

section
variable {i : Fin 8} {st : Stamp} {h : Hub} (hr : h.runs = true) (he : h.refs[slotOf i].enabled = true)
  (hp : h.refs[slotOf i].predicts = true) (hq : h.refqRuns (slotOf i) = true)
  (hh : (advanceTo st.cyc h).hears (laneOfRef i) (!h.refs[slotOf i].slopeFalling) = true)
  (hd : (advanceTo st.cyc h).laneDead (laneOfRef i)
    ((advanceTo st.cyc h).rootStamp ((advanceTo st.cyc h).laneUsed (laneOfRef i)) st) = false)
include hr he hp hq hh hd

/-- A pulse that the lane takes is an on-time edge where its width is good, and is counted where it is not. -/
theorem refPulseEdge_taken (w : Nat) : ∃ g, Relaned h g ∧ refPulseEdge i st w h =
    if widthOk h.refs[slotOf i].format w then onTimeEdge (slotOf i) ((advanceTo st.cyc h).refStamp i st) g
    else g.onRef (slotOf i) (RefSlot.addBad ((advanceTo st.cyc h).refStamp i st)) := by
  refine ⟨edgeHeard (laneOfRef i) st (advanceTo st.cyc h),
    (Relaned.of_eq (advanceTo_refs ..) (advanceTo_evts ..)).trans (edgeHeard_relaned ..), ?_⟩
  have hrun : (advanceTo st.cyc h).runs = true := (Hub.runs_congr (advanceTo_top ..)).trans hr
  have hq' : (advanceTo st.cyc h).refqRuns (slotOf i) = true := by rw [Hub.refqRuns, advanceTo_comp]; exact hq
  simp only [refPulseEdge, hrun, advanceTo_refs, he, hp, hq', hh, hd, Bool.and_self, Bool.not_false, if_true]
  rfl

end

/-! ## Sentences and frames (R118, R119) -/

theorem Hub.todSlot_congr {t h : Hub} (e : t.refs = h.refs) (i : Fin 4) : t.todSlot i = h.todSlot i := by
  unfold Hub.todSlot
  rw [e]

section
variable {i : Fin 4} {txt : Bytes} {cyc : Nat} {k : Fin 12} {h : Hub} (hr : h.runs = true) (hk : h.todSlot i = some k)
  (hq : h.refqRuns k = true) (hz : isZda txt = true)
include hr hk hq hz

/-- A ZDA sentence that is not sound is counted. -/
theorem todSentence_bad (hl : zdaLabel txt = none) :
    todSentence i txt cyc h = (advanceTo cyc h).onRef k fun r => { r with cntTod := satInc32 r.cntTod } := by
  have hrun : (advanceTo cyc h).runs = true := (Hub.runs_congr (advanceTo_top ..)).trans hr
  have hslot : (advanceTo cyc h).todSlot i = some k := (Hub.todSlot_congr (advanceTo_refs ..) i).trans hk
  have hq : (advanceTo cyc h).refqRuns k = true := by rw [Hub.refqRuns, advanceTo_comp]; exact hq
  simp only [todSentence, hslot, hrun, hq, hz, Bool.and_self, if_true, hl]

/-- A sound one that ends in its window labels a pulse. -/
theorem todSentence_good {l : Int × Bool} {u : Int} (hl : zdaLabel txt = some l) (hu : h.refs[k].lastOn = some u)
    (hlo : u + 50 * msFu ≤ (advanceTo cyc h).nomFu) (hhi : (advanceTo cyc h).nomFu ≤ u + 950 * msFu) :
    todSentence i txt cyc h = (advanceTo cyc h).onRef k fun r =>
      if r.todAssoc then { r with label := some l } else if r.pulses.isEmpty then r else { r with named := some l } := by
  have hrun : (advanceTo cyc h).runs = true := (Hub.runs_congr (advanceTo_top ..)).trans hr
  have hslot : (advanceTo cyc h).todSlot i = some k := (Hub.todSlot_congr (advanceTo_refs ..) i).trans hk
  have hq : (advanceTo cyc h).refqRuns k = true := by rw [Hub.refqRuns, advanceTo_comp]; exact hq
  have hon : (advanceTo cyc h).refs[k].lastOn = some u := by rw [advanceTo_refs]; exact hu
  have hin : inRange ((advanceTo cyc h).nomFu - u).toNat (50 * 65536000000) (950 * 65536000000) = true := by
    unfold msFu at hlo hhi
    simp only [inRange, Bool.and_eq_true, decide_eq_true_eq]
    omega
  simp only [todSentence, hslot, hrun, hq, hz, Bool.and_self, if_true, hl, hon, hin]

end

/-- Nominal time from the edge that began a frame to the moment its stamp is counted from. -/
def Hub.frameBack (h : Hub) : Int := rdiv (secU + h.nomInc * 375000000) fuU

section
variable {i : Fin 8} {st : Stamp} {h : Hub} (hr : h.runs = true) (he : h.refs[slotOf i].enabled = true)
  (hf : h.refs[slotOf i].format = 4) (hq : h.refqRuns (slotOf i) = true)
  (hh : (advanceTo st.cyc h).hears (laneOfRef i) (!h.refs[slotOf i].slopeFalling) = true)
  (hd : (advanceTo st.cyc h).laneDead (laneOfRef i)
    ((advanceTo st.cyc h).rootStamp ((advanceTo st.cyc h).laneUsed (laneOfRef i)) st - 1000 * tickCycles * 2 ^ 24) = false)
include hr he hf hq hh hd

/-- A frame whose edge the lane takes: labelled and used where it decodes, counted where it does not. -/
theorem irigFrame_taken (widths : List Nat) : ∃ g : Hub, g.refs = h.refs ∧ irigFrame i st widths h =
    match irigFrame? widths with
    | some e => onTimeEdge (slotOf i) ((advanceTo st.cyc h).refStamp i st - (advanceTo st.cyc h).frameBack)
        (g.onRef (slotOf i) fun r => { r with label := irigLabel r e })
    | none => g.onRef (slotOf i) fun r =>
        { r.addBad ((advanceTo st.cyc h).refStamp i st - (advanceTo st.cyc h).frameBack) with cntTod := satInc32 r.cntTod } := by
  refine ⟨laneTake (laneOfRef i) ((advanceTo st.cyc h).rootStamp ((advanceTo st.cyc h).laneUsed (laneOfRef i)) st -
    1000 * tickCycles * 2 ^ 24) (advanceTo st.cyc h), advanceTo_refs .., ?_⟩
  have hrun : (advanceTo st.cyc h).runs = true := (Hub.runs_congr (advanceTo_top ..)).trans hr
  have hq' : (advanceTo st.cyc h).refqRuns (slotOf i) = true := by rw [Hub.refqRuns, advanceTo_comp]; exact hq
  simp only [irigFrame, hrun, advanceTo_refs, he, hf, beq_self_eq_true, hq', hh, hd, Bool.and_self, Bool.not_false, if_true]
  rfl

end

/-! ## Samples (R125, R133) -/

/-- Two slots agree in their history and in what their delay waits for. -/
structure RefSlot.SameHistory (r x : RefSlot) : Prop where
  k : x.k = r.k
  hist : x.hist = r.hist
  delay : x.delay = r.delay
  cfg : x.cfg = r.cfg

theorem RefSlot.SameHistory.trans {a b c : RefSlot} (p : a.SameHistory b) (q : b.SameHistory c) : a.SameHistory c :=
  ⟨q.k.trans p.k, q.hist.trans p.hist, q.delay.trans p.delay, q.cfg.trans p.cfg⟩

/-- A slot's history is the same after an update that keeps it. -/
theorem RefSlot.SameHistory.upd {v : Vector RefSlot 12} {s : Fin 12} {f : RefSlot → RefSlot} (hf : v[s].SameHistory (f v[s])) :
    v[s].SameHistory (upd v s f)[s] := by
  rw [show (Machine.upd v s f)[s] = f v[s] from upd_same ..]
  exact hf

theorem Hub.onRef_slot (s : Fin 12) (f : RefSlot → RefSlot) (h : Hub) : (h.onRef s f).refs[s] = f h.refs[s] := upd_same ..

theorem Hub.onRef_other {s j : Fin 12} (hj : j ≠ s) (f : RefSlot → RefSlot) (h : Hub) : (h.onRef s f).refs[j] = h.refs[j] :=
  upd_other _ _ _ _ hj

theorem onRef_history {s : Fin 12} {f : RefSlot → RefSlot} {h : Hub} (hf : h.refs[s].SameHistory (f h.refs[s])) :
    h.refs[s].SameHistory (h.onRef s f).refs[s] := by
  rw [Hub.onRef_slot]
  exact hf

theorem enterSlot_history (s : Fin 12) (st : SlotState) (b : BitVec 16) (h : Hub) :
    h.refs[s].SameHistory (enterSlot s st b h).refs[s] := by
  rw [enterSlot_refs]
  exact .upd ⟨rfl, rfl, rfl, rfl⟩

theorem raiseRef_history (s : Fin 12) (b : BitVec 16) (h : Hub) : h.refs[s].SameHistory (raiseRef s b h).refs[s] := by
  rw [raiseRef_irqIf, irqIf_refs, Hub.onRef_refs]
  exact .upd ⟨rfl, rfl, rfl, rfl⟩

theorem disqualify_history (s : Fin 12) (c : Nat) (h : Hub) : h.refs[s].SameHistory (disqualify s c h).refs[s] := by
  unfold disqualify
  dsimp only
  split
  · exact ⟨rfl, rfl, rfl, rfl⟩
  · split
    · exact ⟨rfl, rfl, rfl, rfl⟩
    · exact onRef_history ⟨rfl, rfl, rfl, rfl⟩
  · exact (onRef_history ⟨rfl, rfl, rfl, rfl⟩).trans (enterSlot_history ..)
  · rw [sendFault_refs]
    exact (onRef_history ⟨rfl, rfl, rfl, rfl⟩).trans (enterSlot_history ..)

theorem tryQualify_history (s : Fin 12) (h : Hub) : h.refs[s].SameHistory (tryQualify s h).refs[s] := by
  unfold tryQualify
  dsimp only
  split
  · exact enterSlot_history ..
  · exact ⟨rfl, rfl, rfl, rfl⟩

/-- What the causes that a sample shows make of its slot. -/
def sampleJudged (s : Fin 12) (x t : Int) (bad : List Nat) (h : Hub) : Hub :=
  match bad with
  | c :: _ => disqualify s c h
  | [] =>
    let h := tryQualify s h
    if h.refs[s].state == .qualified then
      h.onRef s fun r => { r with fresh := some (x, t), sumX := r.sumX + x, sumT := r.sumT + t, sumN := r.sumN + 1 }
    else h

theorem sampleJudged_history (s : Fin 12) (x t : Int) (bad : List Nat) (h : Hub) :
    h.refs[s].SameHistory (sampleJudged s x t bad h).refs[s] := by
  unfold sampleJudged
  split
  · exact disqualify_history ..
  · dsimp only
    split
    · exact (tryQualify_history s h).trans (onRef_history ⟨rfl, rfl, rfl, rfl⟩)
    · exact tryQualify_history ..

/-- The sample stands newest in the slot's history, and the slot is judged by it. -/
theorem takeSample_parts (s : Fin 12) (x t : Int) (h : Hub) : ∃ (g : Hub) (bad : List Nat) (e : BitVec 16) (b : Bool)
    (l : List (Option (Int × Bool))), takeSample s x t h = sampleJudged s x t bad (if e = 0 then g else raiseRef s e g) ∧
      g.refs[s].k = h.refs[s].k + 1 ∧ g.refs[s].hist = some (x, b) :: l ∧ g.refs[s].delay = h.refs[s].delay ∧
      g.refs[s].cfg = h.refs[s].cfg := by
  have hlimits : (applyLimits s h).refs[s] = h.refs[s].limitsTaken := by rw [applyLimits_refs]; exact upd_same ..
  unfold takeSample
  extract_lets g0 r tau xhat jump y zs m1 m10 m100 g1 bad ok top mt g2 mtie evt
  have hg1 : g1.refs[s].k = h.refs[s].k ∧ g1.refs[s].delay = h.refs[s].delay ∧ g1.refs[s].cfg = h.refs[s].cfg := by
    rw [Hub.onRef_slot, hlimits]
    exact ⟨rfl, rfl, rfl⟩
  obtain ⟨hk, hdelay, hcfg⟩ := hg1
  refine ⟨g2, bad, evt, ok, g1.refs[s].hist.take (2 ^ (top + 1)), rfl, ?_, ?_, ?_, ?_⟩
  all_goals rw [Hub.onRef_slot]
  · exact congrArg (· + 1) hk
  · rfl
  · exact hdelay
  · exact hcfg

theorem takeSample_slot (s : Fin 12) (x t : Int) (h : Hub) : ∃ b l, (takeSample s x t h).refs[s].k = h.refs[s].k + 1 ∧
    (takeSample s x t h).refs[s].hist = some (x, b) :: l ∧ (takeSample s x t h).refs[s].delay = h.refs[s].delay ∧
    (takeSample s x t h).refs[s].cfg = h.refs[s].cfg := by
  obtain ⟨g, bad, e, b, l, he, hk, hhist, hdelay, hcfg⟩ := takeSample_parts s x t h
  have hraise : g.refs[s].SameHistory (if e = 0 then g else raiseRef s e g).refs[s] := by
    by_cases h0 : e = 0
    · rw [if_pos h0]; exact ⟨rfl, rfl, rfl, rfl⟩
    · rw [if_neg h0]; exact raiseRef_history ..
  have hjudge := hraise.trans (sampleJudged_history s x t bad _)
  rw [← he] at hjudge
  exact ⟨b, l, hjudge.k.trans hk, hjudge.hist.trans hhist, hjudge.delay.trans hdelay, hjudge.cfg.trans hcfg⟩

/-- With its delay in force a slot keeps it. -/
theorem delayDue_same {s : Fin 12} {h : Hub} (hd : h.refs[s].delay = pfs h.refs[s].cfg 22 0 48) : delayDue s h = h := by
  unfold delayDue
  exact if_pos hd

/-- A PPS slot's interval does not wait for a sentence. -/
theorem closeInterval_pps {s : Fin 12} {h : Hub} (hf : h.refs[s].format = 1) : closeInterval s h = h := by
  have h3 : ¬h.refs[s].format = 3 := by omega
  unfold closeInterval
  dsimp only
  split
  · exact if_neg h3
  · rfl

/-- The oldest interval that has ended, of a PPS slot with its delay in force. -/
theorem pulseSample_pps {s : Fin 12} {h : Hub} {ps : List (Int × Int)} {label : Option (Int × Bool)}
    {rest : List (List (Int × Int) × Option (Int × Bool))} (hf : h.refs[s].format = 1) (hc : h.refs[s].closed = (ps, label) :: rest)
    (hd : h.refs[s].delay = pfs h.refs[s].cfg 22 0 48) : pulseSample s h = match ps with
      | [] => noSample s (h.onRef s fun r => { r with closed := rest })
      | (u, l) :: _ => takeSample s (u - l) u (h.onRef s fun r => { r with closed := rest }) := by
  have hg : (h.onRef s fun r => { r with closed := rest }).refs[s] = { h.refs[s] with closed := rest } := Hub.onRef_slot ..
  have hlab : ({ h.refs[s] with closed := rest } : RefSlot).labelled = false := by
    change (h.refs[s].format == 3 || h.refs[s].format == 4) = false
    rw [hf]
    rfl
  have h2 : ¬({ h.refs[s] with closed := rest } : RefSlot).format = 2 := by
    change ¬h.refs[s].format = 2
    omega
  have hdue : ∀ g : Hub, g.refs[s].delay = h.refs[s].delay → g.refs[s].cfg = h.refs[s].cfg → delayDue s g = g :=
    fun g e1 e2 => delayDue_same (by rw [e1, e2]; exact hd)
  simp only [pulseSample, hc, hg, hlab, h2, if_false, Bool.false_eq_true]
  split
  case h_1 =>
    refine hdue _ ?_ ?_ <;> rw [noSample, Hub.onRef_slot, hg]
  case h_2 u l _ =>
    obtain ⟨-, -, -, -, hdelay, hcfg⟩ := takeSample_slot s (u - l) u (h.onRef s fun r => { r with closed := rest })
    refine hdue _ ?_ ?_
    · rw [hdelay, hg]
    · rw [hcfg, hg]

theorem refqSample_pps {s : Fin 12} {h : Hub} {ps : List (Int × Int)} {label : Option (Int × Bool)}
    {rest : List (List (Int × Int) × Option (Int × Bool))} (hr : h.runs = true) (he : h.refs[s].enabled = true)
    (hq : h.refqRuns s = true) (hf : h.refs[s].format = 1) (hst : h.refs[s].state ≠ .absent)
    (hc : h.refs[s].closed = (ps, label) :: rest) (hd : h.refs[s].delay = pfs h.refs[s].cfg 22 0 48) :
    refqSample s [] h = match ps with
      | [] => noSample s (h.onRef s fun r => { r with closed := rest })
      | (u, l) :: _ => takeSample s (u - l) u (h.onRef s fun r => { r with closed := rest }) := by
  have hst' : (h.refs[s].state == SlotState.absent) = false := beq_eq_false_iff_ne.mpr hst
  have hgrid : ¬(h.refs[s].format = 0 ∨ h.refs[s].format = 5) := by omega
  rw [← pulseSample_pps hf hc hd]
  simp only [refqSample, hr, he, hq, Bool.and_self, if_true, hgrid, if_false, hst', Bool.false_eq_true, closeInterval_pps hf]

theorem takeSample_only (s : Fin 12) (x t : Int) (h : Hub) : Only
    { parts := [.cplRings, .msix, .books, .runs, .profile, .shimEvt, .collector, .fltEvt, .bus], refs := (· = s) } h
    (takeSample s x t h) := (takeSample_kept (fun _ hp => hp) rfl (.refl h)).only

end Sys2Proof.Machine

namespace Sys2Proof

open Machine

/-- Settles O9: an edge that its lane takes is one update of its slot, beside the lanes that stamp inputs; a sentence or a frame is
one update of its slot. -/
theorem referencePulsesAndLabels : Obligations.ReferencePulsesAndLabels := by
  unfold Obligations.ReferencePulsesAndLabels
  refine ⟨fun s i st width k h u hk hr hh he hp hq hhear hd hu => ?pulse, fun s i txt cyc k h hr hslot hh hq hz =>
    ⟨fun hl => ?bad, fun l u hl hon hlo hhi => ?good⟩, fun s i st widths k h u hk hr hh he hf hq hhear hd hu => ?frame⟩
  case pulse =>
    subst hk hh hu
    obtain ⟨g, ⟨hrel, -⟩, heff⟩ := refPulseEdge_taken hr he hp hq hhear hd width
    generalize (advanceTo st.cyc s.toHub).refStamp i st = u at *
    obtain ⟨c, hc⟩ := hrel (slotOf i)
    refine ⟨_, exec_run (fun _ => rfl) heff, fun j hj => ?_, fun hw => ?_, fun hw hst p hpred => ?_⟩
    · obtain ⟨x, hx⟩ := hrel j
      split
      · rw [((onTimeEdge_only ..).refs j).resolve_left hj, hx]
        rfl
      · rw [Hub.onRef_other hj, hx]
        rfl
    · simp only [hw, if_false, Bool.false_eq_true, Hub.onRef_slot, hc]
      exact RefSlot.addBad_of_relaned u c s.refs[slotOf i]
    · have hstg : g.refs[slotOf i].state ≠ .absent := by rw [hc]; exact hst
      have hpg : g.refs[slotOf i].predicts = true := by rw [hc]; exact hp
      have hslot : (onTimeEdge (slotOf i) u g).refs[slotOf i] = (s.refs[slotOf i].relaned c).edgeTaken u := by
        rw [onTimeEdge_predicts u hstg hpg, ← hc]
        exact upd_same ..
      have hpc : (s.refs[slotOf i].relaned c).prediction = some p := hpred
      simp only [hw, if_true, hslot]
      refine ⟨fun hn => ?_, fun hn => ?_, fun hn hv hm => ?_⟩
      · rw [RefSlot.edgeTaken_near hpc hn]
        exact RefSlot.useEdge_of_relaned u p c s.refs[slotOf i]
      · rw [RefSlot.edgeTaken_early hpc hn]
        exact RefSlot.addExtra_of_relaned u c s.refs[slotOf i]
      · have hlate := RefSlot.edgeTaken_late (r := s.refs[slotOf i].relaned c) hpc hn hv hm
        exact hlate
  case bad =>
    subst hh
    refine ⟨_, exec_run (fun _ => rfl) (todSentence_bad hr hslot hq hz hl), ?_, fun j hj => ?_⟩
    · rw [Hub.onRef_slot, advanceTo_refs]
    · exact (Hub.onRef_other hj ..).trans (congrArg (·[j]) (advanceTo_refs ..))
  case good =>
    subst hh
    refine ⟨_, exec_run (fun _ => rfl) (todSentence_good hr hslot hq hz hl hon hlo hhi), fun j hj => ?_, fun ha => ?_, fun ha hp => ?_⟩
    · exact (Hub.onRef_other hj ..).trans (congrArg (·[j]) (advanceTo_refs ..))
    · rw [Hub.onRef_slot, advanceTo_refs, if_pos ha]
    · have hp' : ¬s.refs[k].pulses.isEmpty = true := by simpa using hp
      rw [Hub.onRef_slot, advanceTo_refs, ha, if_neg Bool.false_ne_true, if_neg hp']
  case frame =>
    subst hk hh
    obtain ⟨g, hg, heff⟩ := irigFrame_taken hr he hf hq hhear hd widths
    have hframe : (advanceTo st.cyc s.toHub).refStamp i st - (advanceTo st.cyc s.toHub).frameBack = u := hu.symm
    rw [hframe] at heff
    refine ⟨_, exec_run (fun _ => rfl) heff, fun j hj => ?_, fun hn => ?_, fun e r hw hst hr' => ?_⟩
    · split
      · rw [((onTimeEdge_only ..).refs j).resolve_left hj, Hub.onRef_other hj, hg]
      · rw [Hub.onRef_other hj, hg]
    · simp only [hn, Hub.onRef_slot, hg]
    · have hslot : (g.onRef (slotOf i) fun r => { r with label := irigLabel r e }).refs[slotOf i] =
          { s.refs[slotOf i] with label := irigLabel s.refs[slotOf i] e } := by rw [Hub.onRef_slot, hg]
      have hpf : (g.onRef (slotOf i) fun r => { r with label := irigLabel r e }).refs[slotOf i].predicts = false := by
        rw [hslot]
        change (decide (1 ≤ s.refs[slotOf i].format) && decide (s.refs[slotOf i].format ≤ 3)) = false
        rw [hf]
        rfl
      have hup := onTimeEdge_always u (by rw [hslot]; exact hst) hpf
      simp only [hw, hup]
      rw [hr']
      refine (upd_same ..).trans ?_
      rw [← Fin.getElem_fin, hslot]

/-- Settles O10: the oldest interval of a PPS slot is taken, and gives its sample or none. -/
theorem sampleEntersHistory : Obligations.SampleEntersHistory := by
  unfold Obligations.SampleEntersHistory
  refine ⟨fun s k ps label rest hr he hf hq hst hc hd => ?taken, fun s k edges hr he hq hidle => ?idle⟩
  case taken =>
    have heff := refqSample_pps hr he hq hf hst hc hd
    have hslot : (s.onRef k fun r => { r with closed := rest }).refs[k] = { s.refs[k] with closed := rest } := Hub.onRef_slot ..
    cases ps with
    | nil =>
      refine ⟨_, exec_run (fun _ => rfl) heff, ?_, fun j hj => ?_, fun _ => ⟨?_, ?_, ?_⟩, fun u l ps' h => ?_⟩
      · simp only [noSample, Hub.onRef_slot]
      · exact (Hub.onRef_other hj ..).trans (Hub.onRef_other hj ..)
      · simp only [noSample, Hub.onRef_slot]
      · simp only [noSample, Hub.onRef_slot]
      · simp only [noSample, Hub.onRef_slot]
      · cases h
    | cons p ps =>
      obtain ⟨b, l, hk, hhist, -, -⟩ := takeSample_slot k (p.1 - p.2) p.1 (s.onRef k fun r => { r with closed := rest })
      refine ⟨_, exec_run (fun _ => rfl) heff, ?_, fun j hj => ?_, fun h => ?_, fun u l' ps' h => ⟨b, ?_⟩⟩
      · refine hk.trans ?_
        rw [hslot]
      · exact (((takeSample_only ..).refs j).resolve_left hj).trans (Hub.onRef_other hj ..)
      · cases h
      · cases h
        exact congrArg List.head? hhist
  case idle =>
    have heff : refqSample k edges s.toHub = s.toHub := by
      rcases hidle with ⟨hf, hc⟩ | ⟨hf, ht⟩
      · have hgrid : ¬(s.refs[k].format = 0 ∨ s.refs[k].format = 5) := by omega
        simp only [refqSample, hr, he, hq, Bool.and_self, hgrid, if_false, closeInterval_pps hf, pulseSample, hc, ite_self]
      · simp only [refqSample, hr, he, hq, Bool.and_self, if_true, hf, gridSample, ht]
    exact exec_run (fun _ => rfl) heff

end Sys2Proof
end

section
/-!
SUPPORT. The event channels: configuration, the end of a blanking, edges and their records, and the DMA of a record stream (R81 to
R90, R104 to R106).
-/

set_option Elab.async false

namespace Sys2Proof.Machine

/-! ## Things done in a row -/

/-- What none of the steps changes, all of them together do not. -/
theorem forEach_keeps {α β : Type} {F : Hub → β} {f : α → Hub → Hub} (hf : ∀ a g, F (f a g) = F g) (l : List α) (h : Hub) :
    F (forEach l f h) = F h := by
  induction l generalizing h with
  | nil => rfl
  | cons a l ih => exact (ih (f a h)).trans (hf a h)

theorem forEach_complete_evts (l : List Nat) (st : Status) (h : Hub) : (forEach l (fun id => complete id st) h).evts = h.evts :=
  forEach_keeps (F := Hub.evts) (fun _ _ => completeWith_evts ..) l h

/-- Of the descriptors that complete in a row, each that is in progress on a ring is written. -/
theorem forEach_complete_posted {e : Desc} {q : Fin 16} {st : Status} {h : Hub} {l : List Nat} (hc : h.inCharge = true)
    (hi : h.idsOk) (he : e ∈ h.host.inflight) (ho : e.origin = .ring q) (hx : e.discard = false) (hl : e.id ∈ l) :
    (forEach l (fun id => complete id st) h).Posted e st 0 := by
  induction l generalizing h with
  | nil => cases hl
  | cons a l ih =>
    have c := completeWith_carries a st 0 h
    by_cases ha : e.id = a
    · have hp : (complete a st h).Posted e st 0 := by
        rw [← ha]
        exact completeWith_posted (hi.desc he) ho hx hc
      refine hp.carried ((hi.2 e he).trans_le c.next) (forEach_carries (fun _ => True) _ l _ fun b _ g => ?_)
      exact (completeWith_carries b st 0 g).mono fun _ _ => trivial
    · exact ih (c.charge.trans hc) (completeWith_idsOk a st 0 hi) (c.stay e he ha) ((List.mem_cons.mp hl).resolve_left ha)

/-! ## One channel changed -/

theorem Hub.onEvt_same (n : Fin 64) (f : EvtCh → EvtCh) (h : Hub) : (h.onEvt n f).evts[n] = f h.evts[n] := upd_same ..

theorem Hub.onEvt_other {n j : Fin 64} (hj : j ≠ n) (f : EvtCh → EvtCh) (h : Hub) : (h.onEvt n f).evts[j] = h.evts[j] :=
  upd_other _ _ _ _ hj

/-! ## EVENT_CONFIG (R104 to R106) -/

/-- The hub with the channel's new settings. -/
def evtNamed (n : Fin 64) (p : Payload) (h : Hub) : Hub :=
  copyWritten (0xC000 + 0x40 * n) 16 (h.onEvt n fun c => { c with cfg := pbytes p 16, enabled := pb p 1 0 })

section
variable {d : Desc} {n : Fin 64} {h : Hub} (hn : pf d.payload 0 0 8 = n.val) (hb : eventConfigBad h n d.payload = false)
include hn hb

theorem eventConfigEff_changes (hc : (h.evts[n].enabled && pb d.payload 1 0 && evtFront d.payload != evtFront h.evts[n].cfg) = true) :
    eventConfigEff d h = (evtNamed n d.payload h).onEvt n fun c =>
      { c with blank := true, blankAt := h.clk.cycles, blankDesc := c.blankDesc ++ [d.id] } := by
  simp only [eventConfigEff, withFin_val hn, hb, if_false, Bool.false_eq_true, hc, if_true]
  rfl

theorem eventConfigEff_stops (hs : (h.evts[n].enabled && !pb d.payload 1 0 && h.evts[n].open_.isSome) = true) :
    eventConfigEff d h = (evtNamed n d.payload h).onEvt n fun c => { c with stopDesc := c.stopDesc ++ [d.id] } := by
  have hc : (h.evts[n].enabled && pb d.payload 1 0 && evtFront d.payload != evtFront h.evts[n].cfg) = false := by
    cases hp : pb d.payload 1 0 <;> simp_all
  simp only [eventConfigEff, withFin_val hn, hb, if_false, Bool.false_eq_true, hc, hs, if_true]
  rfl

theorem eventConfigEff_completes
    (hc : (h.evts[n].enabled && pb d.payload 1 0 && evtFront d.payload != evtFront h.evts[n].cfg) = false)
    (hs : (h.evts[n].enabled && !pb d.payload 1 0 && h.evts[n].open_.isSome) = false) :
    eventConfigEff d h = complete d.id .ok (evtNamed n d.payload h) := by
  simp only [eventConfigEff, withFin_val hn, hb, if_false, Bool.false_eq_true, hc, hs]
  rfl

end

/-! ## Records (R84, R85) -/

/-- A record with the width it ends with, or with the mark of those lost before it (R85). -/
def EvtCh.marked (r : BitVec 128) (w : Nat) (c : EvtCh) : BitVec 128 :=
  if c.lostRun = 0 then putFld r 112 16 w else putFld (putFld r 112 16 c.lostRun) 90 1 1

/-- A stale stamp shows in EVT_EVT. -/
def EvtCh.staled (r : BitVec 128) (c : EvtCh) : EvtCh := if flag r 91 then { c with evt := c.evt.raise (bit16 3) } else c

/-- The channel with one more record, or one more lost. -/
def EvtCh.pushed (r : BitVec 128) (w : Nat) (c : EvtCh) : EvtCh :=
  if 4096 ≤ c.queue.length then
    { c with ovfCnt := satInc32 c.ovfCnt, lostRun := satAdd 65535 c.lostRun 1, evt := (c.staled r).evt.raise (bit16 0) }
  else { c with queue := c.queue ++ [c.marked r w], lostRun := 0, evt := (c.staled r).evt }

theorem copyToTasks_evts (n : Fin 64) (r : BitVec 128) (h : Hub) : (copyToTasks n r h).evts = h.evts := rfl

theorem pushRecord_evts (n : Fin 64) (r : BitVec 128) (w : Nat) (h : Hub) :
    (pushRecord n r w h).evts = upd h.evts n (EvtCh.pushed r w) := by
  have hst : (if flag r 91 then raiseEvt n (bit16 3) h else h).evts = upd h.evts n (EvtCh.staled r) := by
    cases hf : flag r 91
    · rw [if_neg Bool.false_ne_true]
      exact (upd_id (by simp only [EvtCh.staled, hf]; rfl)).symm
    · rw [if_pos rfl, raiseEvt_irqIf, irqIf_evts, Hub.onEvt_evts]
      exact upd_congr (by simp only [EvtCh.staled, hf]; rfl)
  have hagg : ∀ g : Hub, (if g.tdc.pushed = 400001 then raiseTdc (bit16 3) g else g).evts = g.evts := by
    intro g
    split
    · rw [raiseTdc_irqIf, irqIf_evts]; rfl
    · rfl
  unfold pushRecord
  dsimp only
  split
  case isTrue hq =>
    rw [raiseEvt_irqIf, irqIf_evts, Hub.onEvt_evts, Hub.onEvt_evts, hst, upd_upd, upd_upd]
    refine upd_congr ?_
    simp only [EvtCh.pushed, if_pos hq, EvtCh.staled]
    split <;> rfl
  case isFalse hq =>
    rw [hagg, copyToTasks_evts, Hub.onTdc_evts, Hub.onEvt_evts, hst, upd_upd]
    refine upd_congr ?_
    simp only [EvtCh.pushed, if_neg hq, EvtCh.staled, EvtCh.marked]
    split <;> rfl

/-- At a full queue a record is lost. -/
theorem EvtCh.pushed_full {r : BitVec 128} {w : Nat} {c : EvtCh} (hq : 4096 ≤ c.queue.length) : c.pushed r w =
    { c with ovfCnt := satInc32 c.ovfCnt, lostRun := satAdd 65535 c.lostRun 1, evt := (c.staled r).evt.raise (bit16 0) } := if_pos hq

/-- Otherwise it is the newest in it. -/
theorem EvtCh.pushed_room {r : BitVec 128} {w : Nat} {c : EvtCh} (hq : c.queue.length < 4096) : c.pushed r w =
    { c with queue := c.queue ++ [c.marked r w], lostRun := 0, evt := (c.staled r).evt } := if_neg (Nat.not_le.mpr hq)

/-- What a record does not touch of its channel. -/
theorem EvtCh.pushed_keeps (r : BitVec 128) (w : Nat) (c : EvtCh) : (c.pushed r w).open_ = c.open_ ∧
    (c.pushed r w).stopDesc = c.stopDesc ∧ (c.pushed r w).seq = c.seq ∧ (c.pushed r w).edges = c.edges ∧
    (c.pushed r w).lastEdge = c.lastEdge := by
  unfold EvtCh.pushed
  split <;> exact ⟨rfl, rfl, rfl, rfl, rfl⟩

theorem pushRecord_only (n : Fin 64) (r : BitVec 128) (w : Nat) (h : Hub) :
    Kept { parts := [.msix, .tdc, .bus], evts := (· = n), evTasks := any } h (pushRecord n r w h) :=
  pushRecord_kept (fun _ hp => hp) rfl every (.refl h)

/-- A measured width ends its record, and what waited for it completes. -/
theorem eventWidthEnd_open {n : Fin 64} {w : Nat} {r : BitVec 128} {h : Hub} (hr : h.runs = true) (ho : h.evts[n].open_ = some r) :
    eventWidthEnd n w h = forEach h.evts[n].stopDesc (fun id => complete id .ok)
      (pushRecord n r (min 65535 w) (h.onEvt n fun c => { c with open_ := none, stopDesc := [] })) := by
  simp only [eventWidthEnd, ho, hr, if_true]

theorem eventWidthEnd_evts {n : Fin 64} {w : Nat} {r : BitVec 128} {h : Hub} (hr : h.runs = true) (ho : h.evts[n].open_ = some r) :
    (eventWidthEnd n w h).evts = upd h.evts n fun c => { c with open_ := none, stopDesc := [] }.pushed r (min 65535 w) := by
  rw [eventWidthEnd_open hr ho, forEach_complete_evts, pushRecord_evts, Hub.onEvt_evts, upd_upd]

/-! ## The record stream (R86 to R88) -/

theorem irqIf_ring (c : Bool) (i : Nat) (h : Hub) (k : RingId) : (irqIf c i h).ring k = h.ring k := by
  unfold irqIf
  split
  · exact raiseIrq_ring i k h
  · rfl

/-- From h to t ring r has got k more entries; its consumer index, and the other rings, are as they were. -/
structure Advances (r : RingId) (k : Nat) (h t : Hub) : Prop where
  prod : (t.ring r).prod = (h.ring r).prod + BitVec.ofNat 16 k
  cons : (t.ring r).cons = (h.ring r).cons
  other : ∀ j, j ≠ r → t.ring j = h.ring j

theorem Advances.refl (r : RingId) (h : Hub) : Advances r 0 h h := ⟨(BitVec.add_zero _).symm, rfl, fun _ _ => rfl⟩

theorem Advances.trans {r : RingId} {k l : Nat} {a b c : Hub} (p : Advances r k a b) (q : Advances r l b c) :
    Advances r (k + l) a c := by
  refine ⟨?_, q.cons.trans p.cons, fun j hj => (q.other j hj).trans (p.other j hj)⟩
  rw [q.prod, p.prod, BitVec.add_assoc, BitVec.ofNat_add]

theorem Advances.of_rings {r : RingId} {h t : Hub} (e : ∀ j, t.ring j = h.ring j) : Advances r 0 h t :=
  ⟨by rw [e]; exact (BitVec.add_zero _).symm, by rw [e], fun j _ => e j⟩

theorem Hub.ring_congr {t h : Hub} (e : t.host = h.host) (k : RingId) : t.ring k = h.ring k := by
  unfold Hub.ring
  rw [e]

theorem Advances.of_host {r : RingId} {h t : Hub} (e : t.host = h.host) : Advances r 0 h t := .of_rings (Hub.ring_congr e)

/-- A change of the ring's other fields. -/
theorem Advances.onRing {r : RingId} {f : Ring → Ring} {h : Hub} (hf : ∀ x, (f x).prod = x.prod ∧ (f x).cons = x.cons) :
    Advances r 0 h (h.onRing r f) := by
  refine ⟨?_, ?_, fun j hj => Hub.ring_onRing_other hj ..⟩ <;> rw [Hub.ring_onRing_same]
  · rw [(hf _).1]
    exact (BitVec.add_zero _).symm
  · exact (hf _).2

theorem ringPut_advances (r : RingId) (b : Bytes) (h : Hub) : Advances r 1 h (ringPut r b h) := by
  refine ⟨?_, ?_, fun j hj => Hub.ring_onRing_other hj ..⟩ <;> rw [ringPut, Hub.ring_onRing_same] <;> rfl

theorem forEach_ringPut_advances (r : RingId) (l : List Bytes) (h : Hub) : Advances r l.length h (forEach l (ringPut r) h) := by
  induction l generalizing h with
  | nil => exact .refl r h
  | cons a l ih =>
    rw [List.length_cons, Nat.add_comm]
    exact (ringPut_advances r a h).trans (ih _)

theorem ringSignal_advances (r : RingId) (h : Hub) : Advances r 0 h (ringSignal r h) := by
  have hon : Advances r 0 h (h.onRing r fun x => { x with unsignalled := 0 }) := .onRing fun _ => ⟨rfl, rfl⟩
  unfold ringSignal
  dsimp only
  split
  · exact hon.trans (.of_rings (raiseIrq_ring _ · _))
  · exact hon

theorem ringCount_advances (r : RingId) (n : Nat) (now : Bool) (h : Hub) : Advances r 0 h (ringCount r n now h) := by
  unfold ringCount
  dsimp only
  generalize hg : h.onRing r (fun x =>
    { x with unsignalled := x.unsignalled + n, unsigAt := if x.unsignalled = 0 then h.clk.cycles else x.unsigAt }) = g
  have hon : Advances r 0 h g := by
    rw [← hg]
    exact .onRing fun _ => ⟨rfl, rfl⟩
  split
  · exact hon.trans (ringSignal_advances r g)
  · exact hon

theorem ringPost_advances (r : RingId) (l : List Bytes) (now : Bool) (h : Hub) : Advances r l.length h (ringPost r l now h) := by
  have hback : Advances r 0 (forEach l (ringPut r) h) (idxWriteBack r (forEach l (ringPut r) h)) := .of_rings fun _ => rfl
  exact ((forEach_ringPut_advances r l h).trans hback).trans (ringCount_advances ..)

theorem ringPost_only (r : RingId) (l : List Bytes) (now : Bool) (h : Hub) :
    Only { parts := [.msix, .bus, ringPart r] } h (ringPost r l now h) :=
  (ringPost_kept (fun _ hp => by simp at hp ⊢; tauto) (by simp) (.refl h)).only

/-- The hub once the DMA engine has taken k records of channel n. -/
def dmaTaken (n : Fin 64) (k : Nat) (h : Hub) : Hub :=
  (ringPost (.str n) ((h.evts[n].queue.take k).map fun x => leBytes 16 x.toNat) false
    (h.onEvt n fun c => { c with queue := c.queue.drop k })).onTdc fun t =>
      { t with aggNow := satAdd 0xFFFFFFFF t.aggNow k, turn := n + 1 }

/-- On its turn a channel's records are taken, and a ring that becomes full shows it. -/
theorem streamRecordDma_turn {n : Fin 64} {b k : Nat} {h : Hub} (hr : h.runs = true) (hy : h.host.ready = true)
    (hn : h.dmaNext = some n) (hk : k = min (min b 8) (min h.evts[n].queue.length (h.ring (.str n)).room)) (h0 : 0 < k) :
    streamRecordDma n b h = if ((dmaTaken n k h).ring (.str n)).room = 0 then
      raiseEvt n (bit16 2) ((dmaTaken n k h).onEvt n fun c => { c with ringFull := true }) else dmaTaken n k h := by
  simp only [streamRecordDma, ← hk, hr, hy, hn, beq_self_eq_true, h0, decide_true, Bool.and_self, if_true]
  rfl

theorem dmaTaken_advances {n : Fin 64} {k : Nat} {h : Hub} (hk : k ≤ h.evts[n].queue.length) :
    Advances (.str n) k h (dmaTaken n k h) := by
  have hlen : ((h.evts[n].queue.take k).map fun x => leBytes 16 x.toNat).length = k := by
    rw [List.length_map, List.length_take, Nat.min_eq_left hk]
  have hfirst : Advances (.str n) 0 h (h.onEvt n fun c => { c with queue := c.queue.drop k }) := .of_host (Hub.onEvt_host ..)
  have hpost := ringPost_advances (.str n) ((h.evts[n].queue.take k).map fun x => leBytes 16 x.toNat) false
    (h.onEvt n fun c => { c with queue := c.queue.drop k })
  rw [hlen] at hpost
  have hall := (hfirst.trans hpost).trans (l := 0) (c := dmaTaken n k h) (.of_host (Hub.onTdc_host ..))
  rw [Nat.add_zero, Nat.zero_add] at hall
  exact hall

theorem dmaTaken_evts (n : Fin 64) (k : Nat) (h : Hub) :
    (dmaTaken n k h).evts = upd h.evts n fun c => { c with queue := c.queue.drop k } := by
  rw [dmaTaken, Hub.onTdc_evts, (ringPost_only ..).eq_evts fun _ hk => hk, Hub.onEvt_evts]

theorem dmaTaken_turn (n : Fin 64) (k : Nat) (h : Hub) : (dmaTaken n k h).tdc.turn = n + 1 := by
  rw [dmaTaken, Hub.onTdc_tdc]

/-- After a burst the queue is shorter by it, and the turn is the next channel's; the rings are as the burst left them. -/
theorem streamRecordDma_after {n : Fin 64} {b k : Nat} {h : Hub} (hr : h.runs = true) (hy : h.host.ready = true)
    (hn : h.dmaNext = some n) (hk : k = min (min b 8) (min h.evts[n].queue.length (h.ring (.str n)).room)) (h0 : 0 < k) :
    (∃ e r, (streamRecordDma n b h).evts = upd h.evts n fun c => { c with queue := c.queue.drop k, evt := e, ringFull := r }) ∧
      (streamRecordDma n b h).tdc.turn = n + 1 ∧ ∀ j, (streamRecordDma n b h).ring j = (dmaTaken n k h).ring j := by
  rw [streamRecordDma_turn hr hy hn hk h0]
  split
  · refine ⟨⟨h.evts[n].evt.raise (bit16 2), true, ?_⟩, ?_, fun j => ?_⟩
    · rw [raiseEvt_irqIf, irqIf_evts, Hub.onEvt_evts, Hub.onEvt_evts, dmaTaken_evts, upd_upd, upd_upd]
      exact upd_congr rfl
    · rw [raiseEvt_irqIf, irqIf_tdc, Hub.onEvt_tdc, Hub.onEvt_tdc, dmaTaken_turn]
    · rw [raiseEvt_irqIf, irqIf_ring, Hub.ring_congr (Hub.onEvt_host ..), Hub.ring_congr (Hub.onEvt_host ..)]
  · refine ⟨⟨h.evts[n].evt, h.evts[n].ringFull, ?_⟩, dmaTaken_turn .., fun _ => rfl⟩
    rw [dmaTaken_evts]
    exact upd_congr rfl

/-! ## The end of a blanking (R82) -/

theorem reachCyc_same {c : Nat} {h g : Hub} (e : reachCyc c h = some g) : g.evts = h.evts ∧ g.refs = h.refs := by
  obtain ⟨n, rfl⟩ := reachCyc_advanceTo e
  exact ⟨advanceTo_evts .., advanceTo_refs ..⟩

/-- The slot or channel hears again, and nothing waits for that. -/
theorem frontEndBlankEnd_evt {n : Fin 64} {h g : Hub} (hr : h.runs = true) (hb : h.evts[n].blank = true)
    (hg : reachCyc (h.evts[n].blankAt + 3000) h = some g) :
    (frontEndBlankEnd (.evt n) h).evts = upd h.evts n fun c => { c with blank := false, blankDesc := [] } := by
  simp only [frontEndBlankEnd, hr, hb, Bool.and_self, when_true, blankCycles, atCyc_of_reach hg, forEach_complete_evts, Hub.onEvt_evts,
    (reachCyc_same hg).1]

theorem frontEndBlankEnd_ref {i : Fin 8} {h g : Hub} (hr : h.runs = true) (hb : h.refs[slotOf i].blank = true)
    (hg : reachCyc (h.refs[slotOf i].blankAt + 3000) h = some g) :
    (frontEndBlankEnd (.ref i) h).refs = upd h.refs (slotOf i) fun r => { r with blank := false, blankDesc := [] } := by
  have he : frontEndBlankEnd (.ref i) h = when_ (h.runs && h.refs[slotOf i].blank) (atCyc (h.refs[slotOf i].blankAt + 3000) fun h =>
      refDone (slotOf i) h.refs[slotOf i].blankDesc (h.onRef (slotOf i) fun c => { c with blank := false, blankDesc := [] })) h := rfl
  rw [he]
  simp only [hr, hb, Bool.and_self, when_true, atCyc_of_reach hg, refDone_refs, Hub.onRef_refs, (reachCyc_same hg).2]

/-! ## Edges (R81, R83, R85, R90) -/

/-- A record does not depend on what an edge changes of its channel. -/
theorem evtRecord_onEvt {n : Fin 64} {f : EvtCh → EvtCh} {h : Hub} (hc : (f h.evts[n]).cfg = h.evts[n].cfg)
    (hw : (f h.evts[n]).cw = h.evts[n].cw) (rising : Bool) (st : Stamp) (q : BitVec 16) :
    evtRecord (h.onEvt n f) n rising st q = evtRecord h n rising st q := by
  simp only [evtRecord, Hub.onEvt_same, EvtCh.domain, EvtCh.code, EvtCh.delay, hc, hw]
  rfl

/-- The channel as an accepted edge finds it: numbered, with the buffer as it has drained. -/
def EvtCh.numbered (now : Int) (b : Nat × Nat) (c : EvtCh) : EvtCh :=
  { c with seq := c.seq + 1, edges := c.edges + 1, lastEdge := some now, cap := b.1, capAt := b.2 }

section
variable {n : Fin 64} {rising : Bool} {st : Stamp} {now : Int} {h : Hub}

/-- An edge that finds the capture buffer full is lost there. -/
theorem acceptEdge_lost (hb : 32 ≤ (drained h.evts[n].cap h.evts[n].capAt h.clk.cycles).1) :
    (acceptEdge n rising st now h).evts = upd h.evts n fun c =>
      let c := c.numbered now (drained h.evts[n].cap h.evts[n].capAt h.clk.cycles)
      { c with burstCnt := satInc32 c.burstCnt, lostRun := satAdd 65535 c.lostRun 1, evt := c.evt.raise (bit16 1) } := by
  simp only [acceptEdge, hb, if_true, raiseEvt_irqIf, irqIf_evts, Hub.onEvt_evts, upd_upd]
  rfl

/-- An edge that finds room makes a record, which waits for its width or enters the queue. -/
theorem acceptEdge_room (hb : (drained h.evts[n].cap h.evts[n].capAt h.clk.cycles).1 < 32) :
    (acceptEdge n rising st now h).evts = upd h.evts n fun c =>
      let b := drained h.evts[n].cap h.evts[n].capAt h.clk.cycles
      let c := { c.numbered now b with cap := b.1 + 1 }
      if c.widthEn then { c with open_ := some (evtRecord h n rising st h.evts[n].seq) }
      else c.pushed (evtRecord h n rising st h.evts[n].seq) 0 := by
  have hfull : ¬32 ≤ (drained h.evts[n].cap h.evts[n].capAt h.clk.cycles).1 := Nat.not_le.mpr hb
  generalize he : drained h.evts[n].cap h.evts[n].capAt h.clk.cycles = b at *
  have hrec : evtRecord (h.onEvt n fun c =>
      { c with seq := c.seq + 1, edges := c.edges + 1, lastEdge := some now, cap := b.1, capAt := b.2 }) n rising st h.evts[n].seq =
      evtRecord h n rising st h.evts[n].seq := evtRecord_onEvt rfl rfl ..
  unfold acceptEdge
  dsimp only
  rw [he, if_neg hfull, hrec]
  cases hw : h.evts[n].widthEn
  case true =>
    rw [if_pos rfl, Hub.onEvt_evts, Hub.onEvt_evts, Hub.onEvt_evts, upd_upd, upd_upd]
    exact upd_congr (if_pos hw).symm
  case false =>
    rw [if_neg Bool.false_ne_true, pushRecord_evts, Hub.onEvt_evts, Hub.onEvt_evts, upd_upd, upd_upd]
    exact upd_congr (if_neg (ne_true_of_eq_false hw)).symm

/-- The channel after an accepted edge. -/
structure EvtCh.Accepted (c x : EvtCh) (now : Int) (r : BitVec 128) (b : Nat) : Prop where
  seq : x.seq = c.seq + 1
  edges : x.edges = c.edges + 1
  lastEdge : x.lastEdge = some now
  waits : b < 32 → c.widthEn = true → x.open_ = some r ∧ x.queue = c.queue
  enters : b < 32 → c.widthEn = false → c.queue.length < 4096 → c.lostRun = 0 → x.queue = c.queue ++ [putFld r 112 16 0]
  lost : 32 ≤ b → x.burstCnt = satInc32 c.burstCnt ∧ x.queue = c.queue ∧ x.open_ = c.open_ ∧ x.evt.bits.getLsbD 1 = true

theorem acceptEdge_slot : ∃ x, (acceptEdge n rising st now h).evts = upd h.evts n (fun _ => x) ∧
    h.evts[n].Accepted x now (evtRecord h n rising st h.evts[n].seq) (drained h.evts[n].cap h.evts[n].capAt h.clk.cycles).1 := by
  rcases Nat.lt_or_ge (drained h.evts[n].cap h.evts[n].capAt h.clk.cycles).1 32 with hb | hb
  · have hroom := acceptEdge_room (rising := rising) (st := st) (now := now) hb
    generalize drained h.evts[n].cap h.evts[n].capAt h.clk.cycles = b at *
    generalize evtRecord h n rising st h.evts[n].seq = r at *
    cases hw : h.evts[n].widthEn
    case true =>
      refine ⟨{ h.evts[n].numbered now b with cap := b.1 + 1, open_ := some r }, hroom.trans (upd_congr (if_pos hw)), ?_⟩
      exact ⟨rfl, rfl, rfl, fun _ _ => ⟨rfl, rfl⟩, fun _ h => absurd (hw.symm.trans h) (by decide),
        fun h => absurd h (Nat.not_le.mpr hb)⟩
    case false =>
      refine ⟨({ h.evts[n].numbered now b with cap := b.1 + 1 } : EvtCh).pushed r 0,
        hroom.trans (upd_congr (if_neg (ne_true_of_eq_false hw))), ?_⟩
      obtain ⟨-, -, hseq, hedges, hlast⟩ := EvtCh.pushed_keeps r 0 { h.evts[n].numbered now b with cap := b.1 + 1 }
      refine ⟨hseq, hedges, hlast, fun _ h => absurd (hw.symm.trans h) (by decide), fun _ _ hq hl => ?_,
        fun h => absurd h (Nat.not_le.mpr hb)⟩
      rw [EvtCh.pushed_room (by exact hq)]
      exact congrArg (fun y => h.evts[n].queue ++ [y]) (if_pos hl)
  · refine ⟨_, (acceptEdge_lost hb).trans (upd_congr rfl), rfl, rfl, rfl, fun h => absurd hb (Nat.not_le.mpr h),
      fun h => absurd hb (Nat.not_le.mpr h), fun _ => ⟨rfl, rfl, rfl, Evt.raise_bit16 _ (by decide)⟩⟩

end

/-- A laned edge leaves the record as it is. -/
theorem evtRecord_laneTake (l : Fin 192) (t : Int) (n : Fin 64) (rising : Bool) (st : Stamp) (q : BitVec 16) (h : Hub) :
    evtRecord (laneTake l t h) n rising st q = evtRecord h n rising st q := rfl

section
variable {n : Fin 64} {rising : Bool} {st : Stamp} {h : Hub} (hr : h.runs = true) (he : h.evts[n].enabled = true)
  (hh : (advanceTo st.cyc h).hears (laneOfEvt n) rising = true) (ho : h.evts[n].open_ = none)
include hr he hh ho

/-- An edge within the dead time is only counted. -/
theorem eventEdge_dead {now : Int} (hn : now = (advanceTo st.cyc h).rootStamp ((advanceTo st.cyc h).laneUsed (laneOfEvt n)) st)
    (hd : (advanceTo st.cyc h).laneDead (laneOfEvt n) now = true ∨ h.evts[n].lastEdge = some now) :
    eventEdge n rising st h = (advanceTo st.cyc h).onEvt n fun c => { c with deadCnt := satInc32 c.deadCnt } := by
  have hrun : (advanceTo st.cyc h).runs = true := (Hub.runs_congr (advanceTo_top ..)).trans hr
  have hdead : ((advanceTo st.cyc h).laneDead (laneOfEvt n) now || h.evts[n].lastEdge == some now) = true := by
    simpa using hd
  simp only [eventEdge, advanceTo_evts, hrun, he, hh, ho, Option.isNone_none, Bool.and_self, if_true, ← hn, hdead]

/-- Another edge is accepted, on the lane that takes it. -/
theorem eventEdge_accepted {now : Int} (hn : now = (advanceTo st.cyc h).rootStamp ((advanceTo st.cyc h).laneUsed (laneOfEvt n)) st)
    (hd : (advanceTo st.cyc h).laneDead (laneOfEvt n) now = false) (hl : h.evts[n].lastEdge ≠ some now) : eventEdge n rising st h =
      notePair (laneOfEvt n) st (acceptEdge n rising st now (laneTake (laneOfEvt n) now (advanceTo st.cyc h))) := by
  have hrun : (advanceTo st.cyc h).runs = true := (Hub.runs_congr (advanceTo_top ..)).trans hr
  have hdead : ((advanceTo st.cyc h).laneDead (laneOfEvt n) now || h.evts[n].lastEdge == some now) = false := by
    rw [hd, Bool.false_or]
    exact beq_eq_false_iff_ne.mpr hl
  simp only [eventEdge, advanceTo_evts, hrun, he, hh, ho, Option.isNone_none, Bool.and_self, if_true, ← hn, hdead,
    Bool.false_eq_true, if_false]

end

end Sys2Proof.Machine

namespace Sys2Proof

open Machine

/-- Settles O11: each command is one update of its channel, or slot, and the completions that go with it. -/
theorem eventChannels : Obligations.EventChannels := by
  unfold Obligations.EventChannels
  refine ⟨fun o d s n changes stops S hop hn hb hc hs => ?config, fun s n h hr hbl hg => ?blank, fun s i h hr hbl hg => ?refBlank,
    fun s n w r hr ho => ?width, fun s n b k hr hy hn hk h0 => ?dma⟩
  case config =>
    have hnamed : (evtNamed n d.payload (markApplied d.id s.toHub)).evts =
        upd s.evts n fun c => { c with cfg := pbytes d.payload 16, enabled := pb d.payload 1 0 } := rfl
    cases hch : changes
    case true =>
      have hstop : stops = false := by
        rw [hs]
        cases hp : pb d.payload 1 0 <;> simp_all
      refine ⟨_, exec_served S (fun _ => rfl) (isOp_of hop) (by rw [hop]; rfl)
        (eventConfigEff_changes (h := markApplied d.id s.toHub) hn hb (hc.symm.trans hch)), ?_⟩
      simp only [Hub.onEvt_evts, hnamed, upd_upd, Fin.getElem_fin, upd_same]
      exact ⟨trivial, trivial, trivial, fun j hj => upd_other _ _ _ _ hj, fun _ => ⟨trivial, trivial⟩,
        fun h => absurd (hstop.symm.trans h) (by decide), fun h => absurd h (by decide)⟩
    case false =>
      cases hst : stops
      case true =>
        refine ⟨_, exec_served S (fun _ => rfl) (isOp_of hop) (by rw [hop]; rfl)
          (eventConfigEff_stops (h := markApplied d.id s.toHub) hn hb (hs.symm.trans hst)), ?_⟩
        simp only [Hub.onEvt_evts, hnamed, upd_upd, Fin.getElem_fin, upd_same]
        exact ⟨trivial, trivial, trivial, fun j hj => upd_other _ _ _ _ hj, fun h => absurd h (by decide),
          fun _ => ⟨trivial, trivial⟩, fun _ h => absurd h (by decide)⟩
      case false =>
        refine ⟨_, exec_served S (fun _ => rfl) (isOp_of hop) (by rw [hop]; rfl)
          (eventConfigEff_completes (h := markApplied d.id s.toHub) hn hb (hc.symm.trans hch) (hs.symm.trans hst)), ?_⟩
        simp only [complete, completeWith_evts, hnamed, Fin.getElem_fin, upd_same]
        exact ⟨trivial, trivial, trivial, fun j hj => upd_other _ _ _ _ hj, fun h => absurd h (by decide),
          fun h => absurd h (by decide), fun _ _ => S.answers (g := evtNamed n d.payload (markApplied d.id s.toHub)) rfl rfl _ _⟩
  case blank =>
    have he := frontEndBlankEnd_evt hr hbl hg
    refine ⟨_, exec_run (fun _ => rfl) rfl, ?_, fun j hj => ?_⟩ <;> rw [he]
    · exact upd_same ..
    · exact upd_other _ _ _ _ hj
  case refBlank =>
    have he := frontEndBlankEnd_ref hr hbl hg
    refine ⟨_, exec_run (fun _ => rfl) rfl, ?_, fun j hj => ?_⟩ <;> rw [he]
    · exact upd_same ..
    · exact upd_other _ _ _ _ hj
  case width =>
    have he := eventWidthEnd_evts (w := w) hr ho
    obtain ⟨hopen, hstop, -⟩ := EvtCh.pushed_keeps r (min 65535 w) { s.evts[n] with open_ := none, stopDesc := [] }
    have hslot : (eventWidthEnd n w s.toHub).evts[n] =
        ({ s.evts[n] with open_ := none, stopDesc := [] } : EvtCh).pushed r (min 65535 w) := by rw [he]; exact upd_same ..
    refine ⟨_, exec_run (fun _ => rfl) rfl, ?_, ?_, fun j hj => ?_, fun hq => ?_, fun hq => ?_, fun e q hc hi hid hin hor hx => ?_⟩
    · rw [hslot, hopen]
    · rw [hslot, hstop]
    · rw [he]
      exact upd_other _ _ _ _ hj
    · rw [hslot, EvtCh.pushed_full (by exact hq)]
      exact ⟨rfl, rfl, rfl, Evt.raise_bit16 _ (by decide)⟩
    · rw [hslot, EvtCh.pushed_room (by exact hq)]
      exact ⟨rfl, rfl⟩
    · have kept := pushRecord_only n r (min 65535 w) (s.onEvt n fun c => { c with open_ := none, stopDesc := [] })
      rw [eventWidthEnd_open hr ho]
      refine forEach_complete_posted ?_ (kept.ids hi) ?_ hor hx hid
      · exact (kept.only.inCharge (by simp)).trans hc
      · rw [kept.only.inflight (by simp)]
        exact hin
  case dma =>
    have hle : k ≤ s.evts[n].queue.length := by omega
    obtain ⟨⟨e, r, he⟩, hturn, hrings⟩ := streamRecordDma_after hr hy hn hk h0
    have hadv := dmaTaken_advances hle
    refine ⟨_, exec_run (fun _ => rfl) rfl, ?_, ?_, ?_, hturn, fun j hj => ⟨?_, ?_⟩⟩
    · rw [he, Fin.getElem_fin, upd_same]
      rfl
    · exact (congrArg Ring.prod (hrings (.str n))).trans hadv.prod
    · exact (congrArg Ring.cons (hrings (.str n))).trans hadv.cons
    · rw [he]
      exact upd_other _ _ _ _ hj
    · exact (hrings (.str j)).trans (hadv.other (.str j) fun h => hj (RingId.str.inj h))

/-- Settles O12: an edge that counts is numbered, and its record waits, enters the queue or is lost. -/
theorem edgesMakeRecords : Obligations.EdgesMakeRecords := by
  unfold Obligations.EdgesMakeRecords
  intro s n rising st h now r hr hh he hhear ho hn hrec
  subst hh
  refine ⟨fun hd => ?dead, fun hd hl => ?accepted⟩
  case dead =>
    refine ⟨_, exec_run (fun _ => rfl) (eventEdge_dead hr he hhear ho hn hd), ?_, fun j hj => ?_⟩
    · rw [Hub.onEvt_same, advanceTo_evts]
    · rw [Hub.onEvt_other hj, advanceTo_evts]
  case accepted =>
    obtain ⟨x, hx, hacc⟩ := acceptEdge_slot (n := n) (rising := rising) (st := st) (now := now)
      (h := laneTake (laneOfEvt n) now (advanceTo st.cyc s.toHub))
    have hheard : (laneTake (laneOfEvt n) now (advanceTo st.cyc s.toHub)).evts = s.evts := advanceTo_evts ..
    rw [hheard, evtRecord_laneTake] at hacc
    rw [hheard] at hx
    have heff := eventEdge_accepted hr he hhear ho hn hd hl
    generalize acceptEdge n rising st now (laneTake (laneOfEvt n) now (advanceTo st.cyc s.toHub)) = g at hx heff
    obtain ⟨-, hrel⟩ := notePair_relaned (laneOfEvt n) st g
    obtain ⟨c, hc⟩ := hrel n
    have hxn : (notePair (laneOfEvt n) st g).evts[n] = x.relaned c := by
      rw [hc, hx]
      exact congrArg _ (upd_same ..)
    refine ⟨_, exec_run (fun _ => rfl) heff, ?_⟩
    rw [hxn, hrec]
    refine ⟨hacc.seq, hacc.edges, hacc.lastEdge, fun j hj => ?_, fun hb => ⟨hacc.waits hb, hacc.enters hb⟩, fun hb => ?_⟩
    · obtain ⟨c', hc'⟩ := hrel j
      have hother : (upd s.evts n fun _ => x)[j] = s.evts[j] := upd_other _ _ _ _ hj
      rw [hc', hx, hother]
      rfl
    · obtain ⟨hburst, hqueue, hopen, hbit⟩ := hacc.lost hb
      exact ⟨hburst, hqueue, hopen.trans ho, hbit⟩

end Sys2Proof
end

section
/-!
SUPPORT. The interval units: runs that begin and end, start and stop edges, and the timers of a unit (R92 to R97, R107 to R111).
-/

set_option Elab.async false

namespace Sys2Proof.Machine

/-! ## One unit changed -/

theorem Hub.onIvu_same (u : Fin 32) (f : Ivu → Ivu) (h : Hub) : (h.onIvu u f).ivus[u] = f h.ivus[u] := upd_same ..

theorem Hub.onIvu_other {u j : Fin 32} (hj : j ≠ u) (f : Ivu → Ivu) (h : Hub) : (h.onIvu u f).ivus[j] = h.ivus[j] :=
  upd_other _ _ _ _ hj

theorem profEnd_only (id : Nat) (b : Bool) (h : Hub) : Only { parts := [.books, .profile, .shimEvt] } h (profEnd id b h) :=
  (profEnd_kept (fun _ hp => hp) (.refl h)).only

theorem profEnd_ivus (id : Nat) (b : Bool) (h : Hub) : (profEnd id b h).ivus = h.ivus := (profEnd_only ..).eq_ivus fun _ hk => hk

/-- An edge that a lane takes for a use of its own changes no unit. -/
theorem useLane_ivus (l : Fin 192) (st : Stamp) (h : Hub) : (useLane l st h).ivus = h.ivus :=
  (useLane_kept (A := { parts := [.msix, .tdc, .bus], evts := any, refs := any }) (fun _ hp => hp) every every
    (.refl h)).only.eq_ivus fun _ hk => hk

/-! ## Runs that begin -/

/-- The unit at the start of a run. -/
def Ivu.armed (d : Desc) (now : Nat) (x : Ivu) : Ivu :=
  { x with
    cfg := pbytes d.payload 32, state := .waitStart, armAt := now, done := 0, desc := some d.id, early := 0, flagsAll := 0
    sum := 0, sumSq := 0, least := 0, most := 0, valid := 0, timeouts := 0 }

theorem intervalStartEff_good {d : Desc} {u : Fin 32} {h : Hub} (hb : intervalBad d.payload = false)
    (hu : h.idleUnit (pf d.payload 0 0 8) = some u) : intervalStartEff d h =
      (copyWritten (0xD000 + 0x40 * u) 32 h).onIvu u (Ivu.armed d h.clk.cycles) := by
  simp only [intervalStartEff, hb, if_false, Bool.false_eq_true, hu]
  rfl

/-! ## Runs that end -/

/-- The unit after its run: idle, with its result gone out or held. -/
def Ivu.ended (desc : Option Nat) (held : Option (Status × BitVec 192)) (x : Ivu) : Ivu :=
  { x with state := .idle, evt := x.evt.raise (bit16 0), desc, held }

theorem ivuEnd_ivus (u : Fin 32) (st : Status) (r : BitVec 192) (h : Hub) :
    ∃ desc held, (ivuEnd u st r h).ivus = upd h.ivus u (Ivu.ended desc held) := by
  unfold ivuEnd
  dsimp only
  split
  case isTrue =>
    refine ⟨none, h.ivus[u].held, ?_⟩
    split
    · rw [completeWith_ivus, Hub.onIvu_ivus, raiseIvu_irqIf, irqIf_ivus, Hub.onIvu_ivus, Hub.onIvu_ivus, upd_upd, upd_upd]
      exact upd_congr rfl
    · rw [Hub.onIvu_ivus, raiseIvu_irqIf, irqIf_ivus, Hub.onIvu_ivus, Hub.onIvu_ivus, upd_upd, upd_upd]
      exact upd_congr rfl
  case isFalse =>
    refine ⟨h.ivus[u].desc, some (st, r), ?_⟩
    rw [Hub.onIvu_ivus, raiseIvu_irqIf, irqIf_ivus, Hub.onIvu_ivus, Hub.onIvu_ivus, upd_upd, upd_upd]
    exact upd_congr rfl

/-- Changing the units leaves what is in progress. -/
theorem Hub.idsOk_congr {t h : Hub} (e : t.host = h.host) (hi : h.idsOk) : t.idsOk := by
  unfold Hub.idsOk
  rw [e]
  exact hi

/-- The completion of the run's descriptor is written. -/
theorem ivuEnd_posted {u : Fin 32} {st : Status} {r : BitVec 192} {h : Hub} {e : Desc} {q : Fin 16} (hc : h.inCharge = true)
    (hi : h.idsOk) (hd : h.ivus[u].desc = some e.id) (he : e ∈ h.host.inflight) (ho : e.origin = .ring q)
    (hx : e.discard = false) : (ivuEnd u st r h).Posted e st r := by
  have hraise : (raiseIvu u (bit16 0) (h.onIvu u fun x => { x with state := .idle })).inCharge = true := by
    rw [raiseIvu_irqIf, Hub.inCharge_congr (irqIf_comp ..)]
    exact hc
  unfold ivuEnd
  dsimp only
  rw [hraise, if_pos rfl, hd]
  dsimp only
  refine completeWith_posted_after hc hi he ho hx ?_ ?_ st r
  · rw [Hub.onIvu_host, raiseIvu_irqIf, irqIf_inflight, Hub.onIvu_host, Hub.onIvu_host]
  · rw [Hub.inCharge_congr (Hub.onIvu_comp ..), raiseIvu_irqIf, Hub.inCharge_congr (irqIf_comp ..)]
    rfl

theorem onIvu_carries (I : Nat → Prop) (u : Fin 32) (f : Ivu → Ivu) (h : Hub) : Carries I h (h.onIvu u f) :=
  .of_same List.suffix_rfl rfl rfl rfl rfl

theorem raiseIvu_carries (I : Nat → Prop) (u : Fin 32) (b : BitVec 16) (h : Hub) : Carries I h (raiseIvu u b h) := by
  rw [raiseIvu_irqIf]
  exact (onIvu_carries I u _ h).trans (irqIf_carries ..)

theorem completeWith_carries_all (id : Nat) (st : Status) (r : BitVec 192) (h : Hub) :
    Carries (fun _ => True) h (completeWith id st r h) := (completeWith_carries id st r h).mono fun _ _ => trivial

theorem ivuEnd_carries (u : Fin 32) (st : Status) (r : BitVec 192) (h : Hub) : Carries (fun _ => True) h (ivuEnd u st r h) := by
  have hidle : Carries (fun _ => True) h (raiseIvu u (bit16 0) (h.onIvu u fun x => { x with state := .idle })) :=
    (onIvu_carries _ u _ h).trans (raiseIvu_carries ..)
  unfold ivuEnd
  dsimp only
  split
  · split
    · exact (hidle.trans (onIvu_carries ..)).trans (completeWith_carries_all ..)
    · exact hidle.trans (onIvu_carries ..)
  · exact hidle.trans (onIvu_carries ..)

theorem intervalAbortEff_idle {d : Desc} {u : Fin 32} {h : Hub} (hu : pf d.payload 0 0 8 = u.val) (hs : h.ivus[u].state = .idle) :
    intervalAbortEff d h = complete d.id .ok h := by
  simp only [intervalAbortEff, withFin_val hu, hs, beq_self_eq_true, if_true]

theorem intervalAbortEff_running {d : Desc} {u : Fin 32} {h : Hub} (hu : pf d.payload 0 0 8 = u.val)
    (hs : h.ivus[u].state ≠ .idle) : intervalAbortEff d h =
      complete d.id .ok (raiseIvu u (bit16 2) (ivuEnd u .aborted (repeatResult u h.ivus[u]) h)) := by
  have hs' : (h.ivus[u].state == IvuState.idle) = false := beq_eq_false_iff_ne.mpr hs
  simp only [intervalAbortEff, withFin_val hu, hs', if_false, Bool.false_eq_true]

/-! ## Measurements -/

/-- The unit with one more measurement. -/
def Ivu.measured (result : Option Int) (fl : BitVec 16) (x : Ivu) : Ivu :=
  let x := { x with
    done := x.done + 1, last := result.getD 0, lastEarly := x.early, lastFlags := x.flags ||| fl, flags := x.flags ||| fl
    flagsAll := x.flagsAll ||| x.flags ||| fl }
  match result with
  | some v =>
    { x with
      valid := x.valid + 1, sum := x.sum + v, sumSq := x.sumSq + v ^ 2
      least := if x.valid = 0 then v else min x.least v, most := if x.valid = 0 then v else max x.most v }
  | none => { x with timeouts := x.timeouts + 1 }

/-- The hub with the measurement taken, before the run goes on or ends. -/
def ivuTaken (u : Fin 32) (result : Option Int) (fl : BitVec 16) (h : Hub) : Hub :=
  let h := h.onIvu u (Ivu.measured result fl)
  if result.isNone then raiseIvu u (bit16 1) h else h

/-- The unit with the measurement taken: a timeout shows in IVU_EVT. -/
def Ivu.taken (result : Option Int) (fl : BitVec 16) (x : Ivu) : Ivu :=
  if result.isNone then { x.measured result fl with evt := x.evt.raise (bit16 1) } else x.measured result fl

theorem ivuTaken_ivus (u : Fin 32) (result : Option Int) (fl : BitVec 16) (h : Hub) :
    (ivuTaken u result fl h).ivus = upd h.ivus u (Ivu.taken result fl) := by
  cases result with
  | none =>
    rw [ivuTaken, Option.isNone_none, if_pos rfl, raiseIvu_irqIf, irqIf_ivus, Hub.onIvu_ivus, Hub.onIvu_ivus, upd_upd]
    exact upd_congr rfl
  | some v => exact upd_congr rfl

theorem ivuTaken_frame (u : Fin 32) (result : Option Int) (fl : BitVec 16) (h : Hub) :
    (ivuTaken u result fl h).host.inflight = h.host.inflight ∧ (ivuTaken u result fl h).comp = h.comp ∧
      (h.idsOk → (ivuTaken u result fl h).idsOk) := by
  cases result with
  | none =>
    rw [ivuTaken, Option.isNone_none, if_pos rfl]
    refine ⟨?_, ?_, fun hi => ?_⟩
    · rw [raiseIvu_irqIf, irqIf_inflight, Hub.onIvu_host, Hub.onIvu_host]
    · rw [raiseIvu_irqIf, irqIf_comp, Hub.onIvu_comp, Hub.onIvu_comp]
    · exact (raiseIvu_kept (A := .all) all_has trivial (.refl (h.onIvu u _))).ids (Hub.idsOk_congr (Hub.onIvu_host ..) hi)
  | some v => exact ⟨rfl, rfl, fun hi => hi⟩

/-- The unit that goes on to its next measurement. -/
def Ivu.rearmed (now : Nat) (x : Ivu) : Ivu := { x with state := .waitStart, armAt := now }

/-- A measurement ends its run, unless a REPEAT run goes on. -/
theorem ivuMeasured_ends {u : Fin 32} {result : Option Int} {fl : BitVec 16} {h : Hub} (hm : ivuMode h.ivus[u].cfg = 0) :
    ivuMeasured u result fl h =
      ivuEnd u .ok (singleResult u (h.ivus[u].taken result fl) (result.getD 0)) (ivuTaken u result fl h) := by
  have hslot : (ivuTaken u result fl h).ivus[u] = h.ivus[u].taken result fl := by rw [ivuTaken_ivus]; exact upd_same ..
  have hcfg : (h.ivus[u].taken result fl).cfg = h.ivus[u].cfg := by cases result <;> rfl
  have hne : ¬ivuMode (ivuTaken u result fl h).ivus[u].cfg = 1 := by rw [hslot, hcfg, hm]; decide
  rw [← hslot]
  exact if_neg hne

theorem ivuMeasured_ivus (u : Fin 32) (result : Option Int) (fl : BitVec 16) (h : Hub) :
    ∃ g : Ivu → Ivu, ((∃ d k, g = Ivu.ended d k) ∨ ∃ n, g = Ivu.rearmed n) ∧
      (ivuMeasured u result fl h).ivus = upd h.ivus u fun x => g (x.taken result fl) := by
  have hend : ∀ st r, ∃ d k, (ivuEnd u st r (ivuTaken u result fl h)).ivus = upd h.ivus u fun x => Ivu.ended d k (x.taken result fl) := by
    intro st r
    obtain ⟨d, k, he⟩ := ivuEnd_ivus u st r (ivuTaken u result fl h)
    exact ⟨d, k, by rw [he, ivuTaken_ivus, upd_upd]⟩
  change ∃ g : Ivu → Ivu, _ ∧ (if ivuMode (ivuTaken u result fl h).ivus[u].cfg = 1 then
      if (ivuTaken u result fl h).ivus[u].done.toNat < ivuCount (ivuTaken u result fl h).ivus[u].cfg then
        (ivuTaken u result fl h).onIvu u (Ivu.rearmed (ivuTaken u result fl h).clk.cycles)
      else ivuEnd u .ok (repeatResult u (ivuTaken u result fl h).ivus[u]) (ivuTaken u result fl h)
    else ivuEnd u .ok (singleResult u (ivuTaken u result fl h).ivus[u] (result.getD 0)) (ivuTaken u result fl h)).ivus = _
  split
  · split
    · refine ⟨_, .inr ⟨(ivuTaken u result fl h).clk.cycles, rfl⟩, ?_⟩
      rw [Hub.onIvu_ivus, ivuTaken_ivus, upd_upd]
    · obtain ⟨d, k, he⟩ := hend .ok (repeatResult u (ivuTaken u result fl h).ivus[u])
      exact ⟨_, .inl ⟨d, k, rfl⟩, he⟩
  · obtain ⟨d, k, he⟩ := hend .ok (singleResult u (ivuTaken u result fl h).ivus[u] (result.getD 0))
    exact ⟨_, .inl ⟨d, k, rfl⟩, he⟩

/-! ## Edges -/

section
variable {u : Fin 32} {rising : Bool} {st : Stamp} {h : Hub} {at' : Int} {fl : BitVec 16} (hr : h.runs = true)
include hr

/-- A start edge in time is an edge of the unit's source. -/
theorem ivuStartEdge_ivus (hs : h.ivus[u].state = .waitStart)
    (hw : (advanceTo st.cyc h).cycleOf st ≤ h.ivus[u].armAt + ivuWaitCycles h.ivus[u].cfg)
    (hst : (if pf h.ivus[u].cfg 2 6 2 = 3 then (advanceTo st.cyc h).plsStart h.ivus[u].cfg (pf h.ivus[u].cfg 2 0 6)
      else ((advanceTo st.cyc h).edgeLane (pf h.ivus[u].cfg 2 6 2) (pf h.ivus[u].cfg 2 0 6) rising st).bind fun _ =>
        (advanceTo st.cyc h).ivuStamp h.ivus[u].cfg (pf h.ivus[u].cfg 2 6 2) (pf h.ivus[u].cfg 2 0 6) rising st) = some (at', fl)) :
    (ivuStartEdge u rising st h).ivus =
      if pf h.ivus[u].cfg 2 6 2 = 3 ∨ edgePasses (pf h.ivus[u].cfg 1 4 2) rising = true then
        upd h.ivus u fun x => { x with state := .window, start := at', early := 0, flags := fl }
      else h.ivus := by
  have hrun : (advanceTo st.cyc h).runs = true := (Hub.runs_congr (advanceTo_top ..)).trans hr
  unfold ivuStartEdge
  dsimp only
  rw [advanceTo_ivus, hrun, hs, beq_self_eq_true, Bool.and_self, Bool.true_and, if_pos (decide_eq_true hw)]
  split
  case isTrue hk =>
    rw [if_pos hk] at hst
    rw [hst, if_pos (.inl hk)]
    simp only [ivuOpens, Hub.onIvu_ivus, advanceTo_ivus]
  case isFalse hk =>
    rw [if_neg hk] at hst
    obtain ⟨l, hl, hstamp⟩ := Option.bind_eq_some_iff.mp hst
    rw [hl, hstamp]
    simp only [useLane_ivus, hk, false_or]
    split
    · simp only [ivuOpens, Hub.onIvu_ivus, advanceTo_ivus]
    · exact advanceTo_ivus ..

/-- A stop edge of the unit's source and slope is judged by its stamp. -/
theorem ivuStopEdge_ivus (hs : h.ivus[u].state = .window) (hp : edgePasses (pf h.ivus[u].cfg 1 6 2) rising = true)
    (hl : ((advanceTo st.cyc h).edgeLane (pf h.ivus[u].cfg 3 6 2) (pf h.ivus[u].cfg 3 0 6) rising st).isSome = true)
    (hst : (advanceTo st.cyc h).ivuStamp h.ivus[u].cfg (pf h.ivus[u].cfg 3 6 2) (pf h.ivus[u].cfg 3 0 6) rising st = some (at', fl)) :
    ∃ l, ivuStopEdge u rising st h = useLane l st (ivuStops u at' fl (advanceTo st.cyc h)) := by
  have hrun : (advanceTo st.cyc h).runs = true := (Hub.runs_congr (advanceTo_top ..)).trans hr
  obtain ⟨l, hl⟩ := Option.isSome_iff_exists.mp hl
  refine ⟨l, ?_⟩
  simp only [ivuStopEdge, advanceTo_ivus, hrun, hs, beq_self_eq_true, Bool.and_self, if_true, hl, hst, hp]

end

theorem ivuStops_early {u : Fin 32} {h : Hub} {t : Int} {fl : BitVec 16} (hs : h.ivus[u].start ≤ t)
    (ho : t - h.ivus[u].start < ivuOpen h.ivus[u].cfg) :
    ivuStops u t fl h = h.onIvu u fun x => { x with early := satAdd 65535 x.early 1 } := by
  have h0 : ¬t - h.ivus[u].start < 0 := by omega
  simp only [ivuStops, h0, if_false, ho, if_true]

theorem ivuStops_within {u : Fin 32} {h : Hub} {t : Int} {fl : BitVec 16} (hs : h.ivus[u].start ≤ t)
    (ho : ivuOpen h.ivus[u].cfg ≤ t - h.ivus[u].start) (hc : t - h.ivus[u].start < ivuClose h.ivus[u].cfg) :
    ivuStops u t fl h = ivuMeasured u (some (t - h.ivus[u].start)) fl h := by
  have h0 : ¬t - h.ivus[u].start < 0 := by omega
  have h1 : ¬t - h.ivus[u].start < ivuOpen h.ivus[u].cfg := by omega
  simp only [ivuStops, h0, h1, if_false, hc, if_true]

/-- A stop edge changes no other unit. -/
theorem ivuStops_ivus_other {u j : Fin 32} (hj : j ≠ u) (t : Int) (fl : BitVec 16) (h : Hub) : (ivuStops u t fl h).ivus[j] = h.ivus[j] :=
  (ivuStops_kept (A := { parts := [.cplRings, .msix, .books, .runs, .profile, .shimEvt, .bus], ivus := (· = u) })
    (fun _ hp => hp) rfl (.refl h)).only.ivus j |>.resolve_left hj

/-! ## What an edge and a measurement carry -/

theorem onTdc_carries (I : Nat → Prop) (f : Tdc → Tdc) (h : Hub) : Carries I h (h.onTdc f) :=
  .of_same List.suffix_rfl rfl rfl rfl rfl

theorem raiseTdc_carries (I : Nat → Prop) (b : BitVec 16) (h : Hub) : Carries I h (raiseTdc b h) := by
  rw [raiseTdc_irqIf]
  exact (onTdc_carries I _ h).trans (irqIf_carries ..)

theorem onTest_carries (I : Nat → Prop) (l : Fin 192) (f : LaneTest → LaneTest) (h : Hub) : Carries I h (onTest l f h) :=
  .of_same List.suffix_rfl rfl rfl rfl rfl

theorem releaseCw_carries (I : Nat → Prop) (k : Fin 6) (h : Hub) : Carries I h (releaseCw k h) :=
  .of_same List.suffix_rfl rfl rfl rfl rfl

theorem cwPhase_carries (I : Nat → Prop) (k : Fin 6) (n : Nat) (h : Hub) : Carries I h (cwPhase k n h) :=
  .of_same List.suffix_rfl rfl rfl rfl rfl

theorem handOver_carries (I : Nat → Prop) (l : Fin 192) (k : Fin 6) (h : Hub) : Carries I h (handOver l k h) := by
  unfold handOver
  dsimp only
  split <;> split <;> exact .of_same List.suffix_rfl rfl rfl rfl rfl

theorem endOverlap_carries (I : Nat → Prop) (x : LaneTest) (k : Fin 6) (h : Hub) : Carries I h (endOverlap x k h) := by
  unfold endOverlap
  dsimp only
  split
  · split
    · exact ((onTest_carries I _ _ h).trans (releaseCw_carries I k _)).trans (raiseTdc_carries ..)
    · exact (handOver_carries I x.lane k h).trans (.of_same List.suffix_rfl rfl rfl rfl rfl)
  · split
    · exact ((onTest_carries I _ _ h).trans (cwPhase_carries I k 2 _)).trans (raiseTdc_carries ..)
    · exact ((onTest_carries I _ _ h).trans (releaseCw_carries I k _)).trans (raiseTdc_carries ..)

theorem useLane_carries (I : Nat → Prop) (l : Fin 192) (st : Stamp) (h : Hub) : Carries I h (useLane l st h) := by
  have htake : Carries I h (laneTake l (h.rootStamp (h.laneUsed l) st) h) := .of_same List.suffix_rfl rfl rfl rfl rfl
  refine htake.trans ?_
  rw [useLane]
  generalize laneTake l (h.rootStamp (h.laneUsed l) st) h = g
  unfold notePair
  split
  · split
    · exact .refl ..
    · dsimp only
      split
      · split
        · exact (onTest_carries I _ _ _).trans (endOverlap_carries ..)
        · exact onTest_carries ..
      · exact .refl ..
  · exact .refl ..

/-! ## The end of a SINGLE run -/

/-- The unit whose SINGLE run has ended. -/
theorem ivuMeasured_single {u : Fin 32} {result : Option Int} {fl : BitVec 16} {h : Hub} (hm : ivuMode h.ivus[u].cfg = 0) :
    ∃ d k, (ivuMeasured u result fl h).ivus = upd h.ivus u fun x => Ivu.ended d k (x.taken result fl) := by
  obtain ⟨d, k, he⟩ := ivuEnd_ivus u .ok (singleResult u (h.ivus[u].taken result fl) (result.getD 0)) (ivuTaken u result fl h)
  exact ⟨d, k, by rw [ivuMeasured_ends hm, he, ivuTaken_ivus, upd_upd]⟩

/-- The descriptor of a SINGLE run that a stop edge ends is completed with the interval. -/
theorem ivuMeasured_posted {u : Fin 32} {v : Int} {fl : BitVec 16} {h : Hub} {e : Desc} {q : Fin 16}
    (hm : ivuMode h.ivus[u].cfg = 0) (hc : h.inCharge = true) (hi : h.idsOk) (hd : h.ivus[u].desc = some e.id)
    (he : e ∈ h.host.inflight) (ho : e.origin = .ring q) (hx : e.discard = false) :
    (ivuMeasured u (some v) fl h).Posted e .ok (singleResult u (h.ivus[u].taken (some v) fl) v) ∧
      e.id < (ivuMeasured u (some v) fl h).host.nextId := by
  obtain ⟨hin, hcomp, hids⟩ := ivuTaken_frame u (some v) fl h
  have hslot : (ivuTaken u (some v) fl h).ivus[u].desc = some e.id := by
    rw [ivuTaken_ivus]
    exact (congrArg Ivu.desc (upd_same ..)).trans hd
  rw [ivuMeasured_ends hm]
  have hn : e.id < (ivuTaken u (some v) fl h).host.nextId := (hids hi).2 e (hin ▸ he)
  exact ⟨ivuEnd_posted ((Hub.inCharge_congr hcomp).trans hc) (hids hi) hslot (hin ▸ he) ho hx,
    hn.trans_le (ivuEnd_carries u .ok _ (ivuTaken u (some v) fl h)).next⟩

/-! ## Timers -/

theorem ivuWindowTimeout_due {u : Fin 32} {h g : Hub} (hr : h.runs = true) (hs : h.ivus[u].state = .window)
    (hg : reachDom (ivuDomain h.ivus[u].cfg) ((h.ivus[u].start + ivuClose h.ivus[u].cfg) * fuU) h = some g) :
    ivuWindowTimeout u h = ivuMeasured u none 1 g := by
  simp only [ivuWindowTimeout, hr, hs, beq_self_eq_true, Bool.and_self, if_true, hg]

/-- The unit whose start edge has not come. -/
def Ivu.unstarted (x : Ivu) : Ivu := { x with flags := x.flags ||| 0x20, flagsAll := x.flagsAll ||| 0x20 }

theorem ivuStartWaitExpired_due {u : Fin 32} {h g : Hub} (hr : h.runs = true) (hs : h.ivus[u].state = .waitStart)
    (hg : reachCyc (h.ivus[u].armAt + ivuWaitCycles h.ivus[u].cfg) h = some g) :
    ∃ r, ivuStartWaitExpired u h = ivuEnd u .timeout r (g.onIvu u Ivu.unstarted) := by
  unfold ivuStartWaitExpired
  dsimp only
  rw [hr, hs, beq_self_eq_true, Bool.and_self, when_true, atCyc_of_reach hg]
  exact ⟨_, rfl⟩

end Sys2Proof.Machine

namespace Sys2Proof

open Machine

/-- INTERVAL_START: SINGLE and REPEAT are one effect. -/
theorem exec_intervalStart {o : Origin} {d : Desc} {s : State} {c : Instr} (S : s.Serves o d) (hop : d.opcode = 0x41)
    (hc : c = .intervalStartSingle o ∧ ivuMode d.payload = 0 ∨ c = .intervalStartRepeat o ∧ ivuMode d.payload = 1) :
    exec c s = .next { toHub := profEnd d.id false (intervalStartEff d (markApplied d.id s.toHub)), pending := s.pending } := by
  rcases hc with ⟨rfl, hm⟩ | ⟨rfl, hm⟩
  · exact exec_serve' S (fun _ => rfl) (isOpSub_of hop (by rw [hm]; rfl)) (by rw [hop]; rfl)
  · exact exec_serve' S (fun _ => rfl) (isOpSub_of hop (by rw [hm]; rfl)) (by rw [hop]; rfl)

/-- Settles O13: a run takes its unit, an edge or a timer is one update of the unit, and the end of a run is the completion of its
descriptor. -/
theorem intervalUnits : Obligations.IntervalUnits := by
  unfold Obligations.IntervalUnits
  refine ⟨fun o d s u S hop => ⟨fun c hc hb hu => ?start, fun hm hu => ?abort⟩, fun s u rising st h at' fl hr hh =>
    ⟨fun hs hw hst => ?startEdge, fun hs hp hl hst hge => ?stopEdge⟩, fun s u hr => ⟨fun h hs hg => ?timeout, fun h hs hg => ?expired⟩⟩
  case start =>
    refine ⟨_, exec_intervalStart S hop hc, ?_⟩
    have heff := intervalStartEff_good (h := markApplied d.id s.toHub) hb hu
    simp only [profEnd_ivus, heff, Hub.onIvu_same]
    exact ⟨rfl, rfl, rfl, rfl, rfl, fun j hj => Hub.onIvu_other hj ..⟩
  case abort =>
    refine ⟨_, exec_serve' S (fun _ => rfl) (isOpSub_of hop (by rw [hm]; rfl)) (by rw [hop]; rfl), ?_⟩
    by_cases hs : s.ivus[u].state = .idle
    case pos =>
      have hkeep : (profEnd d.id false (intervalAbortEff d (markApplied d.id s.toHub))).ivus = s.ivus := by
        rw [profEnd_ivus, intervalAbortEff_idle hu (by exact hs), complete, completeWith_ivus]
        rfl
      simp only [hkeep]
      refine ⟨hs, fun _ _ => trivial, fun _ => ⟨trivial, fun q ho hx => ?_⟩, fun hn => absurd hs hn⟩
      obtain ⟨r, hr⟩ := S.answers (g := markApplied d.id s.toHub) rfl rfl .ok 0 q ho hx
      have hnext : d.id < (completeWith d.id .ok 0 (markApplied d.id s.toHub)).host.nextId :=
        (S.ids.2 d S.mem).trans_le (completeWith_carries d.id .ok 0 (markApplied d.id s.toHub)).next
      rw [intervalAbortEff_idle hu (by exact hs)]
      exact ⟨r, hr.carried hnext (profEnd_carries (fun _ => True) ..)⟩
    case neg =>
      have heff := intervalAbortEff_running (h := markApplied d.id s.toHub) hu (by exact hs)
      obtain ⟨dd, k, hend⟩ := ivuEnd_ivus u .aborted (repeatResult u s.ivus[u]) (markApplied d.id s.toHub)
      have hivus : (profEnd d.id false (intervalAbortEff d (markApplied d.id s.toHub))).ivus =
          upd s.ivus u fun x => { x.ended dd k with evt := (x.ended dd k).evt.raise (bit16 2) } := by
        rw [profEnd_ivus, heff, complete, completeWith_ivus, raiseIvu_irqIf, irqIf_ivus, Hub.onIvu_ivus]
        refine (congrArg (fun v => upd v u _) hend).trans ?_
        exact upd_upd ..
      have hslot : (profEnd d.id false (intervalAbortEff d (markApplied d.id s.toHub))).ivus[u] =
          { s.ivus[u].ended dd k with evt := (s.ivus[u].ended dd k).evt.raise (bit16 2) } := by rw [hivus]; exact upd_same ..
      rw [hslot]
      refine ⟨rfl, fun j hj => ?_, fun h => absurd h hs, fun _ => ⟨?_, Evt.raise_bit16 _ (by decide), fun e q hd he hne ho hx => ?_⟩⟩
      · rw [hivus]
        exact upd_other _ _ _ _ hj
      · exact Evt.raise_keeps _ _ (Evt.raise_bit16 _ (by decide))
      · have hin : e ∈ (markApplied d.id s.toHub).host.inflight := List.mem_map.mpr ⟨e, he, if_neg hne⟩
        have hp := ivuEnd_posted (u := u) (st := .aborted) (r := repeatResult u s.ivus[u]) (h := markApplied d.id s.toHub)
          S.charge (markApplied_idsOk _ S.ids) hd hin ho hx
        rw [heff]
        have hnext : e.id < (ivuEnd u .aborted (repeatResult u s.ivus[u]) (markApplied d.id s.toHub)).host.nextId :=
          (S.ids.2 e he).trans_le (ivuEnd_carries u .aborted (repeatResult u s.ivus[u]) (markApplied d.id s.toHub)).next
        exact hp.carried hnext (((raiseIvu_carries (fun _ => True) u (bit16 2) _).trans (completeWith_carries_all ..)).trans
          (profEnd_carries ..))
  case startEdge =>
    subst hh
    have he := ivuStartEdge_ivus hr hs hw hst
    refine ⟨_, exec_run (fun _ => rfl) rfl, fun j hj => ?_, ?_⟩
    · rw [he]
      split
      · exact upd_other _ _ _ _ hj
      · rfl
    · rw [he]
      split
      · exact upd_same ..
      · rfl
  case stopEdge =>
    subst hh
    obtain ⟨l, hx⟩ := ivuStopEdge_ivus hr hs hp hl hst
    have hg : (advanceTo st.cyc s.toHub).ivus = s.ivus := advanceTo_ivus ..
    have hgs : (advanceTo st.cyc s.toHub).ivus[u] = s.ivus[u] := congrArg (·[u]) hg
    rcases Int.lt_or_le (at' - s.ivus[u].start) (ivuOpen s.ivus[u].cfg) with hearly | hopen
    case inl =>
      rw [ivuStops_early (by rw [hgs]; exact hge) (by rw [hgs]; exact hearly)] at hx
      refine ⟨_, exec_run (fun _ => rfl) hx, fun j hj => ?_, fun _ => ?_, fun ho => absurd hearly (Int.not_lt.mpr ho)⟩
      · simp only [useLane_ivus, Hub.onIvu_other hj, hg]
      · simp only [useLane_ivus, Hub.onIvu_same, hgs]
    case inr =>
      refine ⟨_, exec_run (fun _ => rfl) hx, fun j hj => ?_, fun ho => absurd hopen (Int.not_le.mpr ho), fun _ hclose hm => ?_⟩
      case refine_1 =>
        rw [useLane_ivus]
        exact (ivuStops_ivus_other hj ..).trans (congrArg (·[j]) hg)
      case refine_2 =>
        have hm' : ivuMode (advanceTo st.cyc s.toHub).ivus[u].cfg = 0 := by rw [hgs]; exact hm
        rw [ivuStops_within (by rw [hgs]; exact hge) (by rw [hgs]; exact hopen) (by rw [hgs]; exact hclose)] at hx ⊢
        obtain ⟨dd, k, hend⟩ := ivuMeasured_single (result := some (at' - (advanceTo st.cyc s.toHub).ivus[u].start)) (fl := fl) hm'
        rw [hg] at hend
        have hslot := (congrArg (·[u]) ((useLane_ivus l st _).trans hend)).trans (upd_same ..)
        rw [hgs, hslot]
        refine ⟨rfl, rfl, rfl, rfl, rfl, Evt.raise_bit16 _ (by decide), fun e q hc hi hd he ho hx => ?_⟩
        obtain ⟨hp, hnext⟩ := ivuMeasured_posted (v := at' - (advanceTo st.cyc s.toHub).ivus[u].start) (fl := fl) hm'
          ((Hub.inCharge_congr (advanceTo_comp ..)).trans hc) (Hub.idsOk_congr (advanceTo_host ..) hi)
          (by rw [hgs]; exact hd) (by rw [advanceTo_host]; exact he) ho hx
        rw [hgs] at hp hnext
        exact hp.carried hnext (useLane_carries (fun _ => True) l st _)
  case timeout =>
    obtain ⟨n, rfl⟩ := reachDom_advanceTo hg
    have hgs : (advanceTo n s.toHub).ivus = s.ivus := advanceTo_ivus ..
    obtain ⟨f, hf, he⟩ := ivuMeasured_ivus u none 1 (advanceTo n s.toHub)
    refine ⟨_, exec_run (fun _ => rfl) (ivuWindowTimeout_due hr hs hg), ?_⟩
    rw [hgs] at he
    have hslot : (ivuMeasured u none 1 (advanceTo n s.toHub)).ivus[u] = f (s.ivus[u].taken none 1) := by
      rw [he]; exact upd_same ..
    refine ⟨?_, ?_, ?_, fun hm => ?_, fun j hj => ?_⟩
    · rw [hslot]
      rcases hf with ⟨dd, k, rfl⟩ | ⟨m, rfl⟩ <;> rfl
    · rw [hslot]
      rcases hf with ⟨dd, k, rfl⟩ | ⟨m, rfl⟩ <;> rfl
    · rw [hslot]
      rcases hf with ⟨dd, k, rfl⟩ | ⟨m, rfl⟩
      · exact Evt.raise_keeps _ _ (Evt.raise_bit16 _ (by decide))
      · exact Evt.raise_bit16 _ (by decide)
    · obtain ⟨dd, k, hend⟩ := ivuMeasured_single (u := u) (result := none) (fl := 1) (h := advanceTo n s.toHub)
        (by rw [hgs]; exact hm)
      exact congrArg Ivu.state ((congrArg (·[u]) hend).trans (upd_same ..))
    · rw [he]
      exact upd_other _ _ _ _ hj
  case expired =>
    obtain ⟨n, rfl⟩ := reachCyc_advanceTo hg
    obtain ⟨r, hx⟩ := ivuStartWaitExpired_due hr hs hg
    obtain ⟨dd, k, hend⟩ := ivuEnd_ivus u .timeout r ((advanceTo n s.toHub).onIvu u Ivu.unstarted)
    rw [Hub.onIvu_ivus, advanceTo_ivus, upd_upd] at hend
    have hslot : (ivuEnd u .timeout r ((advanceTo n s.toHub).onIvu u Ivu.unstarted)).ivus[u] = s.ivus[u].unstarted.ended dd k := by
      rw [hend]; exact upd_same ..
    refine ⟨_, exec_run (fun _ => rfl) hx, ?_, ?_, ?_, fun j hj => ?_, fun e q hc hi hd he ho hx => ⟨r, ?_⟩⟩
    · rw [hslot]; rfl
    · rw [hslot]; rfl
    · rw [hslot]; exact Evt.raise_bit16 _ (by decide)
    · rw [hend]
      exact upd_other _ _ _ _ hj
    · refine ivuEnd_posted ?_ ?_ ?_ ?_ ho hx
      · exact (Hub.inCharge_congr (advanceTo_comp ..)).trans hc
      · exact Hub.idsOk_congr (h := s.toHub) ((Hub.onIvu_host ..).trans (advanceTo_host ..)) hi
      · rw [Hub.onIvu_same, advanceTo_ivus]
        exact hd
      · rw [Hub.onIvu_host, advanceTo_host]
        exact he

end Sys2Proof
end

section
/-!
SUPPORT. The clock outputs and the pulse outputs: settings and boundaries, the pulse train, and the alignment of a pulse output to an
input pulse (R195 to R201, R207 to R221).
-/

set_option Elab.async false

namespace Sys2Proof.Machine

/-! ## One output changed -/

/-- What a changed entry shows of a field. -/
theorem upd_field {α β : Type} {n : Nat} (F : α → β) (v : Vector α n) (i : Fin n) (f : α → α) : F (upd v i f)[i] = F (f v[i]) :=
  congrArg F (upd_same ..)

theorem Hub.onPls_same (n : Fin 64) (f : Pls → Pls) (h : Hub) : (h.onPls n f).plss[n] = f h.plss[n] := upd_same ..

theorem Hub.onPls_other {n j : Fin 64} (hj : j ≠ n) (f : Pls → Pls) (h : Hub) : (h.onPls n f).plss[j] = h.plss[j] :=
  upd_other _ _ _ _ hj

theorem Hub.onPls_onPls (n : Fin 64) (f g : Pls → Pls) (h : Hub) : (h.onPls n f).onPls n g = h.onPls n fun x => g (f x) := by
  simp only [Hub.onPls, upd_upd]

/-- A bit of the bytes that are kept. -/
theorem pb_pbytes (p : Payload) {n byte bit : Nat} (hk : 8 * byte + bit < 8 * n) : pb (pbytes p n) byte bit = pb p byte bit := by
  have hp : p.getLsbD (8 * byte + bit) = (decide (8 * byte + bit < 384) && p.toNat.testBit (8 * byte + bit)) := by
    by_cases hi : 8 * byte + bit < 384
    · simp [hi, BitVec.testBit_toNat]
    · rw [BitVec.getLsbD_of_ge _ _ (Nat.not_lt.mp hi), decide_eq_false hi, Bool.false_and]
  rw [pb, pb, flag, flag, pbytes, BitVec.getLsbD_ofNat, Nat.testBit_mod_two_pow, decide_eq_true hk, Bool.true_and, hp]

/-! ## OUTPUT_CONFIG and the boundary (R195 to R201) -/

theorem senseChange_outs (n : Fin 96) (h : Hub) : (senseChange n h).outs = h.outs := by
  unfold senseChange
  dsimp only
  split <;> rfl

theorem senseChange_doms (n : Fin 96) (h : Hub) : (senseChange n h).doms = h.doms := by
  unfold senseChange
  dsimp only
  split <;> rfl

theorem senseChange_host (n : Fin 96) (h : Hub) : (senseChange n h).host = h.host := by
  unfold senseChange
  dsimp only
  split <;> rfl

theorem senseChange_comp (n : Fin 96) (h : Hub) : (senseChange n h).comp = h.comp := by
  unfold senseChange
  dsimp only
  split <;> rfl

/-- The output with its new settings; a disabled one shows their disable state. -/
def ClkOut.named (p : Payload) (off : ClkPin) (x : ClkOut) : ClkOut :=
  { x with cfg := pbytes p 16, pin := if x.enabled then x.pin else off }

/-- The hub with the output's new settings and their format in its bank. -/
def outNamed (n : Fin 96) (p : Payload) (h : Hub) : Hub :=
  (copyWritten (0xE000 + 0x20 * n) 16 { h with banks := upd h.banks (bankOfOut n) fun _ => BitVec.ofNat 3 (outFmt p) }).onOut n
    (ClkOut.named p (h.pinNow n (outDisabled p)))

/-- The same, with the sense point of the settings taken up where the output stays enabled. -/
def outSettled (n : Fin 96) (p : Payload) (h : Hub) : Hub :=
  if h.outs[n].enabled && pb p 1 7 then senseChange n (outNamed n p h) else outNamed n p h

/-- The output whose change waits for its boundary. -/
def ClkOut.waiting (id : Nat) (on_ : Bool) (b : Int × Bool) (x : ClkOut) : ClkOut :=
  { x with
    pend := some { desc := id, enable := on_, boundary := b.1, late := b.2 }, evt := if b.2 then x.evt.raise (bit16 3) else x.evt }

section
variable (n : Fin 96) (p : Payload) (h : Hub)

theorem outSettled_outs : (outSettled n p h).outs = upd h.outs n (ClkOut.named p (h.pinNow n (outDisabled p))) := by
  unfold outSettled
  split
  · exact senseChange_outs ..
  · rfl

theorem outSettled_banks : (outSettled n p h).banks = upd h.banks (bankOfOut n) fun _ => BitVec.ofNat 3 (outFmt p) := by
  unfold outSettled
  split
  · exact senseChange_banks ..
  · rfl

theorem outSettled_doms : (outSettled n p h).doms = h.doms := by
  unfold outSettled
  split
  · exact senseChange_doms ..
  · rfl

theorem outSettled_host : (outSettled n p h).host = h.host := by
  unfold outSettled
  split
  · exact senseChange_host ..
  · rfl

theorem outSettled_comp : (outSettled n p h).comp = h.comp := by
  unfold outSettled
  split
  · exact senseChange_comp ..
  · rfl

end

/-- A boundary depends on the domains alone. -/
theorem outBoundary_congr {t h : Hub} (e : t.doms = h.doms) (p : Payload) (b : Bool) : outBoundary t p b = outBoundary h p b := by
  unfold outBoundary
  rw [e]

section
variable {d : Desc} {n : Fin 96} {h : Hub} (hn : pf d.payload 0 0 8 = n.val) (hb : outputConfigBad h n d.payload = false)
  (hp : h.outs[n].pend = none)
include hn hb hp

/-- Without a change of enable the settings are all. -/
theorem outputConfigEff_same (he : h.outs[n].enabled = pb d.payload 1 7) :
    ∃ r, outputConfigEff d h = completeWith d.id .ok r (outSettled n d.payload h) := by
  have hdrop : dropPending n h = h := by simp only [dropPending, hp]
  have heq : (h.outs[n].enabled == pb d.payload 1 7) = true := beq_iff_eq.mpr he
  simp only [outputConfigEff, withFin_val hn, hb, if_false, Bool.false_eq_true, hdrop, heq, if_true]
  exact ⟨_, rfl⟩

/-- A change of enable waits for its boundary. -/
theorem outputConfigEff_change (he : h.outs[n].enabled ≠ pb d.payload 1 7) : outputConfigEff d h =
    (outSettled n d.payload h).onOut n (ClkOut.waiting d.id (pb d.payload 1 7) (outBoundary h d.payload (pb d.payload 1 7))) := by
  have hdrop : dropPending n h = h := by simp only [dropPending, hp]
  have heq : (h.outs[n].enabled == pb d.payload 1 7) = false := beq_eq_false_iff_ne.mpr he
  rw [← outBoundary_congr (outSettled_doms n d.payload h)]
  simp only [outputConfigEff, withFin_val hn, hb, if_false, Bool.false_eq_true, hdrop, heq]
  rfl

end

/-- The output at its boundary. -/
def ClkOut.switched (w : OutPend) (pin : ClkPin) (x : ClkOut) : ClkOut :=
  { x with
    enabled := w.enable, pend := none, stretch := none, pin, evt := x.evt.raise (bit16 (if w.enable then 0 else 1)) }

/-- The hub with the output switched. -/
def outSwitched (n : Fin 96) (w : OutPend) (h : Hub) : Hub :=
  let g := h.onOut n (ClkOut.switched w (h.pinNow n (if w.enable then .running else outDisabled h.outs[n].cfg)))
  if w.enable then senseChange n g else g

theorem outSwitched_outs (n : Fin 96) (w : OutPend) (h : Hub) : (outSwitched n w h).outs =
    upd h.outs n (ClkOut.switched w (h.pinNow n (if w.enable then .running else outDisabled h.outs[n].cfg))) := by
  unfold outSwitched
  dsimp only
  split
  · exact senseChange_outs ..
  · rfl

theorem outSwitched_host (n : Fin 96) (w : OutPend) (h : Hub) : (outSwitched n w h).host = h.host := by
  unfold outSwitched
  dsimp only
  split
  · exact senseChange_host ..
  · rfl

theorem outSwitched_comp (n : Fin 96) (w : OutPend) (h : Hub) : (outSwitched n w h).comp = h.comp := by
  unfold outSwitched
  dsimp only
  split
  · exact senseChange_comp ..
  · rfl

theorem Hub.onOut_onOut (n : Fin 96) (f g : ClkOut → ClkOut) (h : Hub) : (h.onOut n f).onOut n g = h.onOut n fun x => g (f x) := by
  simp only [Hub.onOut, upd_upd]

theorem outputBoundary_due {n : Fin 96} {w : OutPend} {h g : Hub} (hr : h.runs = true) (hw : h.outs[n].pend = some w)
    (hg : reachDom (outDomain h.outs[n].cfg) w.boundary h = some g) :
    ∃ r, outputBoundary n h = completeWith w.desc .ok r (outSwitched n w g) := by
  simp only [outputBoundary, hw, hr, if_true, hg, raiseOut, Hub.onOut_onOut]
  exact ⟨_, rfl⟩

/-! ## PULSE_CONFIG (R208) -/

/-- The hub with the settings of a pulse output kept. -/
def plsNamed (n : Fin 64) (p : Payload) (h : Hub) : Hub :=
  (copyWritten (0xF000 + 0x40 * n) 40 h).onPls n fun x => { x with cfg := pbytes p 40 }

theorem pulseConfigEff_good {d : Desc} {n : Fin 64} {h : Hub} (hn : pf d.payload 0 0 8 = n.val)
    (hb : pulseConfigBad h n d.payload = false) : ∃ i, pulseConfigEff d h =
      if (h.plss[n].active && (plsWaits h.plss[n].run (pbytes d.payload 40) || !h.plss[n].pend.isEmpty)) = true then
        (plsNamed n d.payload h).onPls n fun x => { x with pend := x.pend ++ [(d.id, pbytes d.payload 40, i)] }
      else plsApply n d.id (pbytes d.payload 40) i (plsNamed n d.payload h) := by
  simp only [pulseConfigEff, withFin_val hn, hb, if_false, Bool.false_eq_true]
  exact ⟨_, rfl⟩

/-- The output on a new grid, where period or start has changed. -/
def Pls.regridded (regrid : Bool) (x : Pls) : Pls :=
  if regrid then { x with shift := 0, shift0 := 0, rho := 0, slope := 0, anchor := if x.anchor == Anchor.track then .none else x.anchor }
  else x

/-- The output with its settings in force, with a new grid or a fresh start where they ask for it. -/
def Pls.applied (regrid fresh : Bool) (p : Payload) (rest : PlsPin) (from_ : Int) (x : Pls) : Pls :=
  let y := x.regridded regrid
  let y := { y with
    run := p, enabled := pb p 1 7, left := plsCount p, from_ := if fresh then from_ else y.from_
    moved := y.moved || fresh, pin := if y.pin == PlsPin.hiZ || y.active then y.pin else rest }
  if fresh then { y with next := y.gridFrom from_ } else y

theorem plsApply_completes (n : Fin 64) (id : Nat) (p : Payload) (from_ : Int) (h : Hub) :
    ∃ r regrid fresh, plsApply n id p from_ h = completeWith id .ok r (h.onPls n (Pls.applied regrid fresh p (h.plsRest p) from_)) :=
  ⟨_, plsPeriod p != plsPeriod h.plss[n].run || plsStart_ p != plsStart_ h.plss[n].run,
    pb p 1 7 && (!h.plss[n].enabled || plsWaits h.plss[n].run p), rfl⟩

theorem Pls.regridded_cfg (b : Bool) (x : Pls) : (x.regridded b).cfg = x.cfg := by
  unfold Pls.regridded
  split <;> rfl

theorem Pls.applied_fields (a b : Bool) (p : Payload) (rest : PlsPin) (i : Int) (x : Pls) :
    (x.applied a b p rest i).run = p ∧ (x.applied a b p rest i).enabled = pb p 1 7 ∧ (x.applied a b p rest i).cfg = x.cfg := by
  unfold Pls.applied
  dsimp only
  split <;> exact ⟨rfl, rfl, Pls.regridded_cfg ..⟩

theorem profEnd_plss (id : Nat) (b : Bool) (h : Hub) : (profEnd id b h).plss = h.plss := (profEnd_only ..).eq_plss fun _ hk => hk

/-! ## The pulse train (R207 to R209) -/

/-- The output at a grid instant at which no pulse is allowed. -/
def Pls.skipped (t : Int) (x : Pls) : Pls :=
  { x with next := x.gridFrom (t + 1), skip := satInc32 x.skip, evt := x.evt.raise (bit16 3) }

/-- The output at a grid instant that begins a pulse. -/
def Pls.begun (t p : Int) (x : Pls) : Pls :=
  { x with
    next := x.gridFrom (t + 1), active := true, lastStart := some p, lastEnd := some (x.endOf t), count := x.count + 1
    left := x.left - 1, pin := if x.pin == PlsPin.hiZ then .hiZ else plsActive x.run, moved := false }

theorem pulseGridInstant_boot {n : Fin 64} {h : Hub} (hb : h.inMode .boot = true) : pulseGridInstant n h = h := by
  simp only [pulseGridInstant, hb, Bool.not_true, Bool.and_false, Bool.false_and, if_false, Bool.false_eq_true]

section
variable {n : Fin 64} {h g : Hub} (hr : h.runs = true) (hb : h.inMode .boot = false) (he : h.plss[n].enabled = true)
  (hg : reachDom (plsDomain h.plss[n].run) h.plss[n].next h = some g)
include hr hb he hg

theorem pulseGridInstant_skips (hx : h.plss[n].blocked h.plss[n].next = true) :
    pulseGridInstant n h = g.onPls n (Pls.skipped h.plss[n].next) := by
  simp only [pulseGridInstant, hr, hb, he, Bool.not_false, Bool.and_self, if_true, hg, hx, raisePls, Hub.onPls_onPls]
  rfl

theorem pulseGridInstant_begins (hx : h.plss[n].blocked h.plss[n].next = false) :
    ∃ p, pulseGridInstant n h = g.onPls n (Pls.begun h.plss[n].next p) := by
  simp only [pulseGridInstant, hr, hb, he, Bool.not_false, Bool.and_self, if_true, hg, hx, Bool.false_eq_true, if_false,
    Hub.onPls_onPls]
  exact ⟨_, rfl⟩

end

/-- The output whose pulse has ended. -/
def Pls.finished (done : Bool) (trail : Option Int) (x : Pls) : Pls :=
  { x with
    active := false, trail, pend := [], enabled := x.enabled && !done, pin := if x.pin == PlsPin.hiZ then .hiZ else plsIdle x.run
    evt := if done then x.evt.raise (bit16 0) else x.evt }

/-- A counted train is done when none of its pulses is left. -/
theorem plsDone {c l : Nat} (hc : c ≠ 0) (hl : l = 0) : (c != 0 && l == 0) = true := by simp [hc, hl]

theorem plsOpen {c l : Nat} (h : c = 0 ∨ l ≠ 0) : (c != 0 && l == 0) = false := by rcases h with h | h <;> simp [h]

theorem pulseEnd_bare {n : Fin 64} {h g : Hub} (hr : h.runs = true) (ha : h.plss[n].active = true) (hp : h.plss[n].pend = [])
    (hg : reachDom (plsDomain h.plss[n].run) (h.plss[n].lastEnd.getD 0) h = some g) :
    ∃ t, pulseEnd n h = g.onPls n (Pls.finished (plsCount h.plss[n].run != 0 && h.plss[n].left == 0) t) := by
  refine ⟨h.plss[n].lastEnd.map (g.placed n), ?_⟩
  simp only [pulseEnd, hr, ha, Bool.and_self, if_true, hg, hp, forEach]
  cases plsCount h.plss[n].run != 0 && h.plss[n].left == 0
  · rfl
  · simp only [if_true, raisePls, Hub.onPls_onPls]
    rfl

/-! ## PULSE_ANCHOR and its edges (R211 to R215) -/

/-- The output that waits for its first anchor edge. -/
def Pls.anchored (mode : Anchor) (d : Desc) (now : Nat) (x : Pls) : Pls :=
  { x with
    anchor := mode, anchorCfg := pbytes d.payload 24, anchorDesc := some d.id, placed := false, anchorLost := false, anchorAt := now
    rho := 0, slope := 0 }

theorem completeOpt_plss (id : Option Nat) (st : Status) (h : Hub) : (completeOpt id st h).plss = h.plss := by
  cases id with
  | none => rfl
  | some i => exact completeWith_plss ..

theorem dropAnchor_plss (n : Fin 64) (h : Hub) : (dropAnchor n h).plss = upd h.plss n fun x => { x with anchorDesc := none } :=
  completeOpt_plss ..

section
variable {d : Desc} {n : Fin 64} {h : Hub} (hn : pf d.payload 0 0 8 = n.val) (hb : pulseAnchorBad h n d.payload = false)
include hn hb

theorem anchorStart_plss (mode : Anchor) : (anchorStart mode d h).plss = upd h.plss n (Pls.anchored mode d h.clk.cycles) := by
  have heff : anchorStart mode d h = (dropAnchor n h).onPls n (Pls.anchored mode d h.clk.cycles) := by
    simp only [anchorStart, withFin_val hn, hb, if_false, Bool.false_eq_true]
    rfl
  rw [heff, Hub.onPls_plss, dropAnchor_plss, upd_upd]
  rfl

theorem anchorStop_good : anchorStop d h = complete d.id .ok
    ((dropAnchor n h).onPls n fun x => { x with anchor := .none, rho := 0, slope := 0, anchorLost := false }) := by
  simp only [anchorStop, withFin_val hn, hb, if_false, Bool.false_eq_true]

end

theorem onPls_carries (I : Nat → Prop) (n : Fin 64) (f : Pls → Pls) (h : Hub) : Carries I h (h.onPls n f) :=
  .of_same List.suffix_rfl rfl rfl rfl rfl

theorem Hub.OkOrOpen.onPls {d : Desc} {h : Hub} (x : h.OkOrOpen d) (n : Fin 64) (f : Pls → Pls) : (h.onPls n f).OkOrOpen d :=
  x.carried (onPls_carries ..) (Hub.idsOk_congr (Hub.onPls_host ..) x.ids)

/-- Another descriptor's completion leaves d open. -/
theorem Hub.OkOrOpen.completeOpt {d : Desc} {h : Hub} (x : h.OkOrOpen d) {id : Option Nat} (hne : id ≠ some d.id) (st : Status) :
    (completeOpt id st h).OkOrOpen d := by
  cases id with
  | none => exact x
  | some i =>
    have c := completeWith_carries i st 0 h
    refine ⟨c.charge.trans x.charge, completeWith_idsOk i st 0 x.ids, x.next.trans_le c.next, ?_⟩
    exact x.either.imp (fun ⟨b, he⟩ => ⟨b, c.stay _ he fun hi => hne (congrArg some hi.symm)⟩) fun ⟨r, hr⟩ => ⟨r, hr.carried x.next c⟩

/-- The output on the grid that the first anchor edge gives. -/
def Pls.placedBy (target : Int) (now : Nat) (from_ : Int) (x : Pls) : Pls :=
  let y := { x with
    moved := true, anchorAt := now
    shift := x.shift + rdiv ((target * fuU - x.gridNear (target * fuU)) * 10 ^ 6) fuU, anchorDesc := none, placed := true, rho := 0
    slope := 0, anchorLost := false, lastErr := 0, from_, anchor := if x.anchor == Anchor.once then .none else x.anchor }
  { y with shift0 := y.shift, next := y.gridFrom from_, evt := y.evt.raise (bit16 1) }

/-- What a placement answers: the edge, and the way by which the grid was moved. -/
def placeResult (t : Int) (x : Pls) : BitVec 192 :=
  resultOf [(0, 64, (shortOf t).toNat), (64, 16, (epochOf t).toNat),
    (128, 64, ofSigned 64 (rdiv ((t + anchorOffset x.anchorCfg) * fuU - x.gridNear ((t + anchorOffset x.anchorCfg) * fuU)) fuU))]

/-- A placement: the grid of the output, and the end of its descriptor. -/
theorem anchorPlace_eq (n : Fin 64) (t : Int) (h : Hub) : ∃ i r, anchorPlace n t h =
    (match h.plss[n].anchorDesc with
    | some id => completeWith id .ok r (h.onPls n (Pls.placedBy (t + anchorOffset h.plss[n].anchorCfg) h.clk.cycles i))
    | none => h.onPls n (Pls.placedBy (t + anchorOffset h.plss[n].anchorCfg) h.clk.cycles i)) := by
  refine ⟨h.doms[plsDomain h.plss[n].run].now + 20 * usU, placeResult t h.plss[n], ?_⟩
  simp only [anchorPlace, raisePls, Hub.onPls_onPls]
  rfl

theorem anchorPlace_plss (n : Fin 64) (t : Int) (h : Hub) : ∃ i, (anchorPlace n t h).plss =
    upd h.plss n (Pls.placedBy (t + anchorOffset h.plss[n].anchorCfg) h.clk.cycles i) := by
  obtain ⟨i, r, he⟩ := anchorPlace_eq n t h
  refine ⟨i, ?_⟩
  rw [he]
  cases h.plss[n].anchorDesc with
  | none => rfl
  | some id => exact completeWith_plss ..

/-- The descriptor of the first anchor edge is completed. -/
theorem anchorPlace_posted {n : Fin 64} {t : Int} {h : Hub} {e : Desc} {q : Fin 16} (hc : h.inCharge = true) (hi : h.idsOk)
    (hd : h.plss[n].anchorDesc = some e.id) (he : e ∈ h.host.inflight) (ho : e.origin = .ring q) (hx : e.discard = false) :
    ∃ r, (anchorPlace n t h).Posted e .ok r ∧ e.id < (anchorPlace n t h).host.nextId := by
  obtain ⟨i, r, hplace⟩ := anchorPlace_eq n t h
  rw [hd] at hplace
  rw [hplace]
  refine ⟨r, completeWith_posted_after hc hi he ho hx (congrArg _ (Hub.onPls_host ..)) (Hub.inCharge_congr (Hub.onPls_comp ..)) .ok r, ?_⟩
  exact (hi.2 e he).trans_le (completeWith_carries e.id .ok r (h.onPls n _)).next

/-- The error of an anchor edge against the grid, 10^-6 fu, and the window of R213. -/
def Pls.edgeErr (edge : Int) (x : Pls) : Int :=
  rdiv ((x.gridNear (edge * fuU) - (edge + anchorOffset x.anchorCfg) * fuU) * 10 ^ 6) fuU
def Pls.edgeWindow (x : Pls) : Int :=
  if anchorWindow x.anchorCfg = 0 then (plsPeriod x.run : Int) * 500000 else (anchorWindow x.anchorCfg : Int) * 10 ^ 6

/-- The output whose tracked residual is refreshed. -/
def Pls.tracked (safe : Bool) (err : Int) (now : Nat) (x : Pls) : Pls :=
  { x with rho := if safe then x.rho else err, lastErr := rdiv err (10 ^ 6), anchorLost := false, anchorAt := now }

theorem anchorTrack_eq (n : Fin 64) (edge : Int) (h : Hub) : anchorTrack n edge h =
    if ((h.plss[n].edgeErr edge).natAbs : Int) ≤ h.plss[n].edgeWindow then
      h.onPls n (Pls.tracked h.isSafe (h.plss[n].edgeErr edge) h.clk.cycles)
    else raisePls n (bit16 4) h := by
  unfold anchorTrack Pls.edgeErr Pls.edgeWindow Pls.tracked
  rfl

theorem anchorTrack_other {n j : Fin 64} (hj : j ≠ n) (edge : Int) (h : Hub) : (anchorTrack n edge h).plss[j] = h.plss[j] := by
  rw [anchorTrack_eq]
  split
  · exact Hub.onPls_other hj ..
  · exact Hub.onPls_other hj ..

/-- An edge that a lane takes for a use of its own changes no pulse output. -/
theorem useLane_plss (l : Fin 192) (st : Stamp) (h : Hub) : (useLane l st h).plss = h.plss :=
  (useLane_kept (A := { parts := [.msix, .tdc, .bus], evts := any, refs := any }) (fun _ hp => hp) every every
    (.refl h)).only.eq_plss fun _ hk => hk

theorem pulseAnchorEdge_taken {n : Fin 64} {rising : Bool} {st : Stamp} {h : Hub} {l : Fin 192} {edge : Int} (hr : h.runs = true)
    (he : h.plss[n].enabled = true) (ha : h.plss[n].anchor ≠ .none) (hs : pf h.plss[n].anchorCfg 1 2 2 = 0 ↔ rising = true)
    (hl : (advanceTo st.cyc h).edgeLane (pf h.plss[n].anchorCfg 2 6 2) (pf h.plss[n].anchorCfg 2 0 6) rising st = some l)
    (ht : (advanceTo st.cyc h).anchorStamp n rising st = some edge) : pulseAnchorEdge n rising st h =
      useLane l st (if h.plss[n].placed = true then anchorTrack n edge (advanceTo st.cyc h) else anchorPlace n edge (advanceTo st.cyc h)) := by
  have hrun : (advanceTo st.cyc h).runs = true := (Hub.runs_congr (advanceTo_top ..)).trans hr
  have hsl : ((pf h.plss[n].anchorCfg 1 2 2 == 0) == rising) = true := by
    rw [beq_iff_eq, Bool.eq_iff_iff, beq_iff_eq]
    exact hs
  have ha' : (h.plss[n].anchor != Anchor.none) = true := bne_iff_ne.mpr ha
  simp only [pulseAnchorEdge, advanceTo_plss, hrun, he, ha', hsl, Bool.and_self, if_true, hl, ht]

/-- The output that follows no edge: its anchor is lost. -/
def Pls.lost (x : Pls) : Pls := { x with slope := 0, anchorLost := true, evt := x.evt.raise (bit16 2) }

theorem anchorLostTimeout_due {n : Fin 64} {h g : Hub} (hr : h.runs = true) (ha : h.plss[n].anchor = .track)
    (hl : h.plss[n].anchorLost = false) (hg : reachCyc (h.plss[n].anchorAt + anchorTimeout h.plss[n].anchorCfg * tickCycles) h = some g) :
    anchorLostTimeout n h = sendFault (srcPls n) .timeout accNone mInternal 0 (g.onPls n Pls.lost) := by
  unfold anchorLostTimeout
  dsimp only
  rw [hr, ha, hl, beq_self_eq_true, Bool.not_false, Bool.and_self, Bool.and_self, when_true, atCyc_of_reach hg, raisePls,
    Hub.onPls_onPls]
  rfl

theorem anchorOnceTimeout_due {n : Fin 64} {h g : Hub} (hr : h.runs = true) (ha : h.plss[n].anchor = .once)
    (hg : reachCyc (h.plss[n].anchorAt + 10000 * tickCycles) h = some g) : anchorOnceTimeout n h =
      completeOpt h.plss[n].anchorDesc .timeout (g.onPls n fun x => { x with anchor := .none, anchorDesc := none }) := by
  unfold anchorOnceTimeout
  dsimp only
  rw [hr, ha, beq_self_eq_true, Bool.and_self, when_true, atCyc_of_reach hg]

end Sys2Proof.Machine

namespace Sys2Proof

open Machine

/-- Settles O14: settings and bank at once, the change of enable kept with its boundary, and the switch at the boundary; a pulse
output takes its settings at once, or behind those that wait. -/
theorem outputsConfigured : Obligations.OutputsConfigured := by
  unfold Obligations.OutputsConfigured
  refine ⟨fun o d s n S hop hn hb hp => ?config, fun s n w h hr hw hg => ?boundary, fun o d s n waits S hop hn hb hw => ?pulse⟩
  case config =>
    refine ⟨_, exec_outputConfig S hop, ?_⟩
    have hsame := outputConfigEff_same (h := markApplied d.id s.toHub) hn hb hp
    have hchange := outputConfigEff_change (h := markApplied d.id s.toHub) hn hb hp
    by_cases he : s.outs[n].enabled = pb d.payload 1 7
    case pos =>
      obtain ⟨r, heff⟩ := hsame he
      have houts := outSettled_outs n d.payload (markApplied d.id s.toHub)
      have hbanks := outSettled_banks n d.payload (markApplied d.id s.toHub)
      rw [heff]
      simp only [completeWith_outs, completeWith_banks, houts, hbanks]
      refine ⟨?_, ?_, upd_same .., fun j hj => upd_other _ _ _ _ hj, fun j hj => upd_other _ _ _ _ hj, fun _ => ⟨?_, ?_⟩,
        fun hne => absurd he hne⟩
      · exact upd_field ClkOut.cfg ..
      · exact upd_field ClkOut.enabled ..
      · exact (upd_field ClkOut.pend ..).trans hp
      · exact S.answers (g := outSettled n d.payload (markApplied d.id s.toHub)) (by rw [outSettled_host])
          (Hub.inCharge_congr (outSettled_comp ..)) .ok r
    case neg =>
      have houts := outSettled_outs n d.payload (markApplied d.id s.toHub)
      have hbanks := outSettled_banks n d.payload (markApplied d.id s.toHub)
      rw [hchange he]
      simp only [Hub.onOut_outs, Hub.onOut_banks, houts, hbanks, upd_upd]
      refine ⟨?_, ?_, upd_same .., fun j hj => upd_other _ _ _ _ hj, fun j hj => upd_other _ _ _ _ hj, fun hn => absurd hn he,
        fun _ => ?_⟩
      · exact upd_field ClkOut.cfg ..
      · exact upd_field ClkOut.enabled ..
      · exact upd_field ClkOut.pend ..
  case boundary =>
    obtain ⟨r, heff⟩ := outputBoundary_due hr hw hg
    obtain ⟨m, rfl⟩ := reachDom_advanceTo hg
    refine ⟨_, exec_run (fun _ => rfl) heff, ?_⟩
    have houts := outSwitched_outs n w (advanceTo m s.toHub)
    have hpin : (advanceTo m s.toHub).pinNow n (if w.enable then .running else outDisabled s.outs[n].cfg) =
        (if s.inMode .boot = true ∧ s.dlls[n].locked = false then .bothLow
          else if w.enable then .running else outDisabled s.outs[n].cfg) := by
      simp only [Hub.pinNow, Hub.bootHolds, Hub.inMode_congr (advanceTo_top m s.toHub), advanceTo_dlls, Bool.and_eq_true,
        Bool.not_eq_true']
    rw [advanceTo_outs] at houts
    simp only [completeWith_outs, houts]
    refine ⟨?_, ?_, ?_, ?_, ?_, fun j hj => upd_other _ _ _ _ hj, fun e q hc hi he hin ho hx => ⟨r, ?_⟩⟩
    · exact upd_field ClkOut.enabled ..
    · exact upd_field ClkOut.pend ..
    · exact upd_field ClkOut.cfg ..
    · exact (upd_field ClkOut.pin ..).trans hpin
    · refine (congrArg (fun x : ClkOut => x.evt.bits.getLsbD _) (upd_same ..)).trans ?_
      exact Evt.raise_bit16 _ (by split <;> decide)
    · rw [he]
      refine completeWith_posted_after hc hi hin ho hx ?_ ?_ .ok r
      · rw [outSwitched_host, advanceTo_host]
      · exact Hub.inCharge_congr ((outSwitched_comp ..).trans (advanceTo_comp ..))
  case pulse =>
    obtain ⟨i, heff⟩ := pulseConfigEff_good (h := markApplied d.id s.toHub) hn hb
    have hcond : ((markApplied d.id s.toHub).plss[n].active && (plsWaits (markApplied d.id s.toHub).plss[n].run (pbytes d.payload 40) ||
        !(markApplied d.id s.toHub).plss[n].pend.isEmpty)) = waits := hw.symm
    rw [hcond] at heff
    refine ⟨_, exec_serve S (fun _ => rfl) (isOp_of hop) (by rw [hop]; rfl), ?_⟩
    rw [heff]
    cases waits
    case false =>
      obtain ⟨r, rg, fr, happ⟩ := plsApply_completes n d.id (pbytes d.payload 40) i (plsNamed n d.payload (markApplied d.id s.toHub))
      obtain ⟨hrun, hen, hcfg⟩ := Pls.applied_fields rg fr (pbytes d.payload 40)
        ((plsNamed n d.payload (markApplied d.id s.toHub)).plsRest (pbytes d.payload 40)) i { s.plss[n] with cfg := pbytes d.payload 40 }
      have hplss : (plsNamed n d.payload (markApplied d.id s.toHub)).plss = upd s.plss n fun x => { x with cfg := pbytes d.payload 40 } := rfl
      rw [if_neg Bool.false_ne_true, happ]
      simp only [completeWith_plss, Hub.onPls_plss, hplss, upd_upd]
      refine ⟨?_, fun j hj => upd_other _ _ _ _ hj, fun h => absurd h Bool.false_ne_true, fun _ => ⟨?_, ?_, ?_⟩⟩
      · exact (upd_field Pls.cfg ..).trans hcfg
      · exact (upd_field Pls.run ..).trans hrun
      · exact ((upd_field Pls.enabled ..).trans hen).trans (pb_pbytes _ (by decide))
      · exact S.answers (g := (plsNamed n d.payload (markApplied d.id s.toHub)).onPls n _) rfl rfl .ok r
    case true =>
      have hplss : (plsNamed n d.payload (markApplied d.id s.toHub)).plss = upd s.plss n fun x => { x with cfg := pbytes d.payload 40 } := rfl
      rw [if_pos rfl]
      simp only [Hub.onPls_plss, hplss, upd_upd]
      refine ⟨?_, fun j hj => upd_other _ _ _ _ hj, fun _ => ⟨?_, ?_, i, ?_⟩, fun h => absurd h.symm Bool.false_ne_true⟩
      · exact upd_field Pls.cfg ..
      · exact upd_field Pls.run ..
      · exact upd_field Pls.enabled ..
      · exact upd_field Pls.pend ..

/-- Settles O15: a grid instant and the end of a pulse are one update of the output each. -/
theorem pulseTrainRuns : Obligations.PulseTrainRuns := by
  unfold Obligations.PulseTrainRuns
  refine fun s n hr => ⟨fun hb => ?boot, fun h hb he hg => ?instant, fun h ha hp hg => ?ended⟩
  case boot => exact exec_run (fun _ => rfl) (pulseGridInstant_boot hb)
  case instant =>
    have hplss : h.plss = s.plss := by
      obtain ⟨m, rfl⟩ := reachDom_advanceTo hg
      exact advanceTo_plss ..
    cases hx : s.plss[n].blocked s.plss[n].next
    case true =>
      refine ⟨_, exec_run (fun _ => rfl) (pulseGridInstant_skips hr hb he hg hx), ?_⟩
      simp only [Hub.onPls_plss, hplss]
      refine ⟨?_, fun j hj => upd_other _ _ _ _ hj, fun _ => ⟨?_, ?_, ?_, ?_⟩, fun h => absurd h.symm Bool.false_ne_true⟩
      · exact upd_field Pls.next ..
      · exact upd_field Pls.skip ..
      · exact (congrArg (fun x : Pls => x.evt.bits.getLsbD 3) (upd_same ..)).trans (Evt.raise_bit16 _ (by decide))
      · exact upd_field Pls.count ..
      · exact upd_field Pls.pin ..
    case false =>
      obtain ⟨p, heff⟩ := pulseGridInstant_begins hr hb he hg hx
      refine ⟨_, exec_run (fun _ => rfl) heff, ?_⟩
      simp only [Hub.onPls_plss, hplss]
      refine ⟨?_, fun j hj => upd_other _ _ _ _ hj, fun h => absurd h Bool.false_ne_true, fun _ => ⟨?_, ?_, ?_, ?_, fun hz => ?_⟩⟩
      · exact upd_field Pls.next ..
      · exact upd_field Pls.active ..
      · exact upd_field Pls.count ..
      · exact upd_field Pls.left ..
      · exact upd_field Pls.skip ..
      · refine (upd_field Pls.pin ..).trans ?_
        exact if_neg fun hq => hz (beq_iff_eq.mp hq)
  case ended =>
    have hplss : h.plss = s.plss := by
      obtain ⟨m, rfl⟩ := reachDom_advanceTo hg
      exact advanceTo_plss ..
    obtain ⟨tr, heff⟩ := pulseEnd_bare hr ha hp hg
    refine ⟨_, exec_run (fun _ => rfl) heff, ?_⟩
    simp only [Hub.onPls_plss, hplss]
    refine ⟨?_, fun j hj => upd_other _ _ _ _ hj, fun hz => ?_, fun hc hl => ⟨?_, ?_⟩, fun hn => ?_⟩
    · exact upd_field Pls.active ..
    · refine (upd_field Pls.pin ..).trans ?_
      exact if_neg fun hq => hz (beq_iff_eq.mp hq)
    · refine (upd_field Pls.enabled ..).trans ?_
      rw [plsDone hc hl]
      exact Bool.and_false _
    · refine (congrArg (fun x : Pls => x.evt.bits.getLsbD 0) (upd_same ..)).trans ?_
      rw [plsDone hc hl]
      exact Evt.raise_bit16 _ (by decide)
    · refine (upd_field Pls.enabled ..).trans ?_
      rw [plsOpen hn]
      exact Bool.and_true _

/-- Settles O16: an anchor replaces the one before, the first edge places the grid and later ones refresh what is tracked, and the
timers give up. -/
theorem pulseAnchors : Obligations.PulseAnchors := by
  unfold Obligations.PulseAnchors
  refine ⟨fun o d s n S hop hn hb => ⟨fun c a hc => ?start, fun hm hne => ?stop⟩, fun s n hr =>
    ⟨fun rising st h l edge target hh he ha hs hl ht htarget => ?edge, fun h ha hl hq hg => ?lost, fun h ha hg => ?once⟩⟩
  case start =>
    have hplss := anchorStart_plss (h := markApplied d.id s.toHub) hn hb a
    have hx : exec c s = .next { toHub := profEnd d.id false (anchorStart a d (markApplied d.id s.toHub)), pending := s.pending } := by
      rcases hc with ⟨rfl, hm, rfl⟩ | ⟨rfl, hm, rfl⟩
      · exact exec_serve' S (fun _ => rfl) (isOpSub_of hop (by rw [hm]; rfl)) (by rw [hop]; rfl)
      · exact exec_serve' S (fun _ => rfl) (isOpSub_of hop (by rw [hm]; rfl)) (by rw [hop]; rfl)
    refine ⟨_, hx, ?_⟩
    simp only [profEnd_plss, hplss]
    exact ⟨upd_same .., fun j hj => upd_other _ _ _ _ hj⟩
  case stop =>
    have heff := anchorStop_good (h := markApplied d.id s.toHub) hn hb
    refine ⟨_, exec_serve' S (fun _ => rfl) (isOpSub_of hop (by rw [hm]; rfl)) (by rw [hop]; rfl), ?_⟩
    rw [heff]
    simp only [profEnd_plss, complete, completeWith_plss, Hub.onPls_plss, dropAnchor_plss, upd_upd]
    refine ⟨upd_same .., fun j hj => upd_other _ _ _ _ hj, fun q ho hx => ?_⟩
    have x := (((S.okOrOpen.onPls n fun x => { x with anchorDesc := none }).completeOpt (id := s.plss[n].anchorDesc) hne .aborted).onPls n
      fun x => { x with anchor := .none, rho := 0, slope := 0, anchorLost := false })
    obtain ⟨r, hp⟩ := x.completed (S.origin.trans ho) hx
    exact ⟨r, hp.carried (x.next.trans_le (completeWith_carries d.id .ok 0 _).next) (profEnd_carries (fun _ => True) ..)⟩
  case edge =>
    subst hh htarget
    have heff := pulseAnchorEdge_taken hr he ha hs hl ht
    have hg : (advanceTo st.cyc s.toHub).plss = s.plss := advanceTo_plss ..
    refine ⟨_, exec_run (fun _ => rfl) heff, ?_⟩
    simp only [useLane_plss]
    cases hpl : s.plss[n].placed
    case false =>
      obtain ⟨i, hplace⟩ := anchorPlace_plss n edge (advanceTo st.cyc s.toHub)
      rw [hg] at hplace
      simp only [Bool.false_eq_true, if_false, hplace]
      refine ⟨fun j hj => upd_other _ _ _ _ hj, fun _ => ⟨?_, ?_, ?_, ?_, ?_, fun e q hc hi hd hin ho hx => ?_⟩, fun h => h.elim⟩
      · exact upd_field Pls.placed ..
      · exact upd_field Pls.anchorDesc ..
      · exact (congrArg (fun x : Pls => x.evt.bits.getLsbD 1) (upd_same ..)).trans (Evt.raise_bit16 _ (by decide))
      · exact upd_field Pls.shift ..
      · refine (upd_field Pls.anchor ..).trans ?_
        exact if_congr beq_iff_eq rfl rfl
      · obtain ⟨r, hp, hnext⟩ := anchorPlace_posted (n := n) (t := edge) (h := advanceTo st.cyc s.toHub)
          ((Hub.inCharge_congr (advanceTo_comp ..)).trans hc) (Hub.idsOk_congr (advanceTo_host ..) hi) (by rw [hg]; exact hd)
          (by rw [advanceTo_host]; exact hin) ho hx
        exact ⟨r, hp.carried hnext (useLane_carries (fun _ => True) l st _)⟩
    case true =>
      have hslot : (advanceTo st.cyc s.toHub).plss[n] = s.plss[n] := congrArg (·[n]) hg
      rw [if_pos rfl]
      refine ⟨fun j hj => ?_, fun h => absurd h.symm Bool.false_ne_true, fun _ err window herr hwin => ⟨fun hle hsafe => ?_, fun hlt => ?_⟩⟩
      · exact (anchorTrack_other hj ..).trans (congrArg (·[j]) hg)
      · have hw : (((advanceTo st.cyc s.toHub).plss[n].edgeErr edge).natAbs : Int) ≤ (advanceTo st.cyc s.toHub).plss[n].edgeWindow := by
          rw [hslot, Pls.edgeErr, Pls.edgeWindow, ← herr, ← hwin]
          exact hle
        have herr' : (advanceTo st.cyc s.toHub).plss[n].edgeErr edge = err := by rw [hslot, herr]; rfl
        have hsafe' : (advanceTo st.cyc s.toHub).isSafe = false := (Hub.isSafe_congr (advanceTo_top ..)).trans hsafe
        rw [anchorTrack_eq, if_pos hw, herr', hsafe', Hub.onPls_same, hslot, ← hpl]
        rfl
      · have hw : (advanceTo st.cyc s.toHub).plss[n].edgeWindow < (((advanceTo st.cyc s.toHub).plss[n].edgeErr edge).natAbs : Int) := by
          rw [hslot, Pls.edgeErr, Pls.edgeWindow, ← herr, ← hwin]
          exact hlt
        rw [anchorTrack_eq, if_neg (Int.not_le.mpr hw), raisePls, Hub.onPls_same, hslot, ← hpl]
  case lost =>
    have heff := anchorLostTimeout_due hr ha hl hg
    obtain ⟨m, rfl⟩ := reachCyc_advanceTo hg
    obtain ⟨msg, hqueue, hmsg⟩ := sendFault_enters (srcPls n) .timeout accNone mInternal 0 (g := (advanceTo m s.toHub).onPls n Pls.lost)
      (h := s.toHub) ((Hub.onPls_top ..).trans (advanceTo_top ..)) ((Hub.onPls_flt ..).trans (advanceTo_flt ..)) hr hq
    refine ⟨_, exec_run (fun _ => rfl) heff, ?_⟩
    simp only [sendFault_plss, Hub.onPls_plss, advanceTo_plss]
    refine ⟨?_, ?_, ?_, ?_, msg, hqueue, ?_, ?_⟩
    · exact upd_field Pls.anchorLost ..
    · exact upd_field Pls.slope ..
    · exact (congrArg (fun x : Pls => x.evt.bits.getLsbD 2) (upd_same ..)).trans (Evt.raise_bit16 _ (by decide))
    · exact (upd_field Pls.shift ..).trans rfl
    · rw [hmsg]; rfl
    · rw [hmsg]; rfl
  case once =>
    have heff := anchorOnceTimeout_due hr ha hg
    obtain ⟨m, rfl⟩ := reachCyc_advanceTo hg
    refine ⟨_, exec_run (fun _ => rfl) heff, ?_⟩
    simp only [completeOpt_plss, Hub.onPls_plss, advanceTo_plss]
    refine ⟨upd_same .., fun e q hc hi hd hin ho hx => ⟨0, ?_⟩⟩
    rw [hd]
    exact completeWith_posted_after hc hi hin ho hx (by rw [Hub.onPls_host, advanceTo_host])
      (Hub.inCharge_congr ((Hub.onPls_comp ..).trans (advanceTo_comp ..))) .timeout 0

end Sys2Proof
end

section
/-!
SUPPORT. The link ports: what their states, their descriptors and their LINK tasks change of a port, and LINK_CONFIG and LINK_CAL
(R242, R243, R254 to R257).
-/

set_option Elab.async false

namespace Sys2Proof.Machine

/-! ## Fields of the bytes that are kept -/

theorem natBits_mod {v lo len m : Nat} (h : lo + len ≤ m) : natBits (v % 2 ^ m) lo len = natBits v lo len := by
  refine Nat.eq_of_testBit_eq fun i => ?_
  simp only [natBits, Nat.testBit_mod_two_pow, Nat.testBit_div_two_pow]
  by_cases hi : i < len
  · simp [hi, show i + lo < m by omega]
  · simp [hi]

/-- A field of the bytes that are kept. -/
theorem pf_pbytes (p : Payload) {n byte bit len : Nat} (h : 8 * byte + bit + len ≤ 8 * n) (hn : 8 * n ≤ 384) :
    pf (pbytes p n) byte bit len = pf p byte bit len := by
  rw [pf, pf, fld, fld, pbytes, BitVec.toNat_ofNat, natBits_mod (h.trans hn), natBits_mod h]

/-! ## What every descriptor that is open stays through -/

/-- From h to t, of the descriptors on rings each that is open stays open, or has completed with OK. -/
structure KeepsOpen (h t : Hub) : Prop where
  keep : ∀ (d : Desc) (q : Fin 16), d.origin = .ring q → d.discard = false → h.OkOrOpen d → t.OkOrOpen d

theorem KeepsOpen.refl (h : Hub) : KeepsOpen h h := ⟨fun _ _ _ _ x => x⟩

theorem KeepsOpen.trans {a b c : Hub} (p : KeepsOpen a b) (q : KeepsOpen b c) : KeepsOpen a c :=
  ⟨fun d r ho hx x => q.keep d r ho hx (p.keep d r ho hx x)⟩

theorem KeepsOpen.ite {h a b : Hub} {p : Prop} [Decidable p] (ha : KeepsOpen h a) (hb : KeepsOpen h b) :
    KeepsOpen h (if p then a else b) := by
  split
  · exact ha
  · exact hb

theorem KeepsOpen.of_carries {h t : Hub} (c : Carries (fun _ => False) h t) (hi : h.idsOk → t.idsOk) : KeepsOpen h t :=
  ⟨fun _ _ _ _ x => x.carried c (hi x.ids)⟩

theorem KeepsOpen.of_same {h t : Hub} (bus : t.bus = h.bus) (top : t.top.mode = h.top.mode) (comp : t.comp = h.comp) (host : t.host = h.host) :
    KeepsOpen h t := by
  refine .of_carries (.of_same ?_ ?_ comp ?_ ?_) (Hub.idsOk_congr host)
  · rw [bus]
  · unfold Hub.isSafe Hub.inMode
    rw [top]
  · rw [host]
  · rw [host]

theorem complete_keepsOpen (id : Nat) (h : Hub) : KeepsOpen h (complete id .ok h) := ⟨fun _ _ ho hx x => x.complete ho hx id⟩

theorem forEach_keepsOpen {α : Type} (l : List α) {f : α → Hub → Hub} (hf : ∀ a g, KeepsOpen g (f a g)) (h : Hub) :
    KeepsOpen h (forEach l f h) := by
  induction l generalizing h with
  | nil => exact .refl h
  | cons a l ih => exact (hf a h).trans (ih (f a h))

theorem irqIf_keepsOpen (c : Bool) (i : Nat) (h : Hub) : KeepsOpen h (irqIf c i h) :=
  .of_carries (irqIf_carries ..) (irqIf_kept (A := .all) all_has (.refl h)).ids

theorem sendFault_keepsOpen (src : Nat) (k : Kind) (acc ms ad : Nat) (h : Hub) : KeepsOpen h (sendFault src k acc ms ad h) := by
  unfold sendFault
  refine .ite (.ite (.of_same rfl rfl rfl rfl) ?_) (.refl h)
  rw [raiseFlt_irqIf]
  refine KeepsOpen.trans ?_ (irqIf_keepsOpen ..)
  exact .of_same rfl rfl rfl rfl

theorem enterSlot_keepsOpen (s : Fin 12) (st : SlotState) (more : BitVec 16) (h : Hub) : KeepsOpen h (enterSlot s st more h) := by
  unfold enterSlot
  rw [raiseRef_irqIf]
  refine KeepsOpen.trans ?_ (irqIf_keepsOpen ..)
  exact .of_same rfl rfl rfl rfl

theorem toAbsent_keepsOpen (s : Fin 12) (more : BitVec 16) (h : Hub) : KeepsOpen h (toAbsent s more h) := by
  have hcleared : KeepsOpen h ((freezeUsers s h).onRef s RefSlot.clear) := .of_same rfl rfl rfl rfl
  have hentered := hcleared.trans (enterSlot_keepsOpen s .absent more _)
  exact ⟨fun d q ho hx x => applyLimits_okOrOpen (applyDelay_okOrOpen (hentered.keep d q ho hx x) ho hx s) ho hx s⟩

theorem slotLost_keepsOpen (s : Fin 12) (c : Nat) (h : Hub) : KeepsOpen h (slotLost s c h) := by
  unfold slotLost
  split
  · exact .refl h
  · exact (toAbsent_keepsOpen ..).trans ⟨fun _ _ _ _ x => x.onRef s _⟩
  · exact (toAbsent_keepsOpen ..).trans ⟨fun _ _ _ _ x => x.onRef s _⟩
  · exact ((toAbsent_keepsOpen ..).trans ⟨fun _ _ _ _ x => x.onRef s _⟩).trans (sendFault_keepsOpen ..)

theorem lrefsLost_keepsOpen (n : Fin 48) (c : Nat) (h : Hub) : KeepsOpen h (lrefsLost n c h) :=
  forEach_keepsOpen _ (fun s g => slotLost_keepsOpen s c g) h

/-! ## One port changed -/

theorem Hub.onLink_same (n : Fin 48) (f : Link → Link) (h : Hub) : (h.onLink n f).links[n] = f h.links[n] := upd_same ..

theorem Hub.onLink_other {n j : Fin 48} (hj : j ≠ n) (f : Link → Link) (h : Hub) : (h.onLink n f).links[j] = h.links[j] :=
  upd_other _ _ _ _ hj

theorem onLink_keepsOpen (n : Fin 48) (f : Link → Link) (h : Hub) : KeepsOpen h (h.onLink n f) := .of_same rfl rfl rfl rfl

theorem raiseLnk_keepsOpen (n : Fin 48) (b : BitVec 16) (h : Hub) : KeepsOpen h (raiseLnk n b h) := by
  rw [raiseLnk_irqIf]
  exact (onLink_keepsOpen ..).trans (irqIf_keepsOpen ..)

/-- The port with event bits raised. -/
def Link.raised (b : BitVec 16) (x : Link) : Link := { x with evt := x.evt.raise b }

/-- The port in a state, with its bit in LNK_EVT. -/
def Link.entered (st : LinkState) (x : Link) : Link := { x with state := st, evt := x.evt.raise st.evtBits }

/-- The port out of TIMED: α as configured is in force (R243, R255). -/
def Link.leftTimed (x : Link) : Link := { x with alpha := x.alphaSet, alphaDesc := [], evt := x.evt.raise (bit16 5) }

/-- The port gone to a lower state. -/
def Link.fallen (st : LinkState) (x : Link) : Link := (if x.state == .timed then x.leftTimed else x).entered st

/-- The same, with the ranging cleared. -/
def Link.dropped (st : LinkState) (x : Link) : Link := { (x.fallen st).clearRanging with blockLock := false }

/-- A DOWN port whose module sees a signal rises. -/
def Link.risen (x : Link) : Link := if x.state == .down && x.signal && !x.modAbs && !x.los then x.entered .aligning else x

section
variable (n : Fin 48) (h : Hub)

theorem raiseLnk_links (b : BitVec 16) : (raiseLnk n b h).links = upd h.links n (Link.raised b) := by
  rw [raiseLnk_irqIf, irqIf_links]
  rfl

theorem enterLink_links (st : LinkState) : (enterLink n st h).links = upd h.links n (Link.entered st) := by
  unfold enterLink
  dsimp only
  rw [raiseLnk_links, Hub.onLink_links, upd_upd]
  split <;> rfl

theorem linkRise_links : (linkRise n h).links = upd h.links n Link.risen := by
  unfold linkRise
  dsimp only
  split
  case isTrue hc =>
    rw [enterLink_links]
    exact upd_congr (if_pos hc).symm
  case isFalse hc => exact (upd_id (if_neg hc)).symm

theorem bumpCounter_links (k : Nat) : (bumpCounter k h).links = h.links := (bumpCounter_only k h).eq_links fun _ hk => hk

theorem lrefsLost_links (c : Nat) : (lrefsLost n c h).links = h.links :=
  (lrefsLost_kept (A := { parts := [.cplRings, .msix, .books, .runs, .profile, .shimEvt, .collector, .fltEvt, .bus], refs := any, doms := any })
    (fun _ hp => hp) every every (.refl h)).only.eq_links fun _ hk => hk

theorem ptpLink_links : (ptpLink n h).links = h.links :=
  (ptpLink_kept
    (A := { parts := [.cplRings, .msix, .books, .runs, .profile, .shimEvt, .collector, .fltEvt, .bus], refs := any, doms := any, ptp := any })
    (fun _ hp => hp) every every trivial (.refl h)).only.eq_links fun _ hk => hk

theorem settleAlpha_links : (settleAlpha n h).links = upd h.links n fun x => { x with alpha := x.alphaSet, alphaDesc := [] } := by
  unfold settleAlpha
  exact forEach_keeps (F := Hub.links) (f := fun id => complete id .ok) (fun _ _ => completeWith_links ..) ..

theorem leaveTimed_links (c : Option Nat) : (leaveTimed n c h).links = upd h.links n Link.leftTimed := by
  have hraised : (raiseLnk n (bit16 5) (bumpCounter (16 + n) (settleAlpha n h))).links = upd h.links n Link.leftTimed := by
    rw [raiseLnk_links, bumpCounter_links, settleAlpha_links, upd_upd]
    exact upd_congr rfl
  unfold leaveTimed
  dsimp only
  rw [lrefsLost_links]
  split
  · rw [sendFault_links, hraised]
  · exact hraised

theorem fallTo_links (st : LinkState) (c : Option Nat) : (fallTo n st c h).links = upd h.links n (Link.fallen st) := by
  unfold fallTo
  dsimp only
  rw [enterLink_links]
  split
  case isTrue ht =>
    rw [leaveTimed_links, upd_upd]
    exact upd_congr (congrArg (Link.entered st) (if_pos ht).symm)
  case isFalse ht => exact upd_congr (congrArg (Link.entered st) (if_neg ht).symm)

theorem dropTo_links (st : LinkState) (c : Nat) : (dropTo n st c h).links = upd h.links n (Link.dropped st) := by
  unfold dropTo
  rw [ptpLink_links, Hub.onLink_links, fallTo_links, upd_upd]
  rfl

/-! ## What the ways down keep of the descriptors -/

theorem enterLink_keepsOpen (st : LinkState) : KeepsOpen h (enterLink n st h) := by
  unfold enterLink
  dsimp only
  refine KeepsOpen.trans (.ite (.refl h) ?_) ((onLink_keepsOpen n _ _).trans (raiseLnk_keepsOpen ..))
  exact .of_same rfl rfl rfl rfl

theorem linkRise_keepsOpen : KeepsOpen h (linkRise n h) := by
  unfold linkRise
  exact .ite (enterLink_keepsOpen ..) (.refl h)

theorem settleAlpha_keepsOpen : KeepsOpen h (settleAlpha n h) :=
  (onLink_keepsOpen n _ h).trans (forEach_keepsOpen _ (fun id g => complete_keepsOpen id g) _)

theorem bumpCounter_keepsOpen (k : Nat) : KeepsOpen h (bumpCounter k h) := by
  unfold bumpCounter
  split
  · exact .of_same rfl rfl rfl rfl
  · exact .refl h

theorem leaveTimed_keepsOpen (c : Option Nat) : KeepsOpen h (leaveTimed n c h) := by
  have hcounted : KeepsOpen h (bumpCounter (16 + n) (settleAlpha n h)) := (settleAlpha_keepsOpen n h).trans (bumpCounter_keepsOpen _ _)
  have hraised := hcounted.trans (raiseLnk_keepsOpen n (bit16 5) _)
  unfold leaveTimed
  refine KeepsOpen.trans ?_ (lrefsLost_keepsOpen ..)
  split
  · exact hraised.trans (sendFault_keepsOpen ..)
  · exact hraised

theorem fallTo_keepsOpen (st : LinkState) (c : Option Nat) : KeepsOpen h (fallTo n st c h) := by
  unfold fallTo
  exact KeepsOpen.trans (.ite (leaveTimed_keepsOpen ..) (.refl h)) (enterLink_keepsOpen ..)

theorem ptpLink_keepsOpen : KeepsOpen h (ptpLink n h) := by
  unfold ptpLink
  extract_lets l p slave st g
  have hg : KeepsOpen h g := .of_same rfl rfl rfl rfl
  exact .ite (hg.trans (lrefsLost_keepsOpen ..)) hg

theorem dropTo_keepsOpen (st : LinkState) (c : Nat) : KeepsOpen h (dropTo n st c h) :=
  ((fallTo_keepsOpen n h st (some c)).trans (onLink_keepsOpen n _ _)).trans (ptpLink_keepsOpen ..)

end

/-! ## LINK tasks -/

/-- Losing a task's state is a port's only where the task is its LINK task. -/
theorem forgetTask_links (k : Nat) (h : Hub) : (forgetTask k h).links = h.links ∨
    ∃ n : Fin 48, k = n ∧ (forgetTask k h).links = upd h.links n Link.forget := by
  unfold forgetTask
  split
  case h_1 n hn =>
    refine .inr ⟨n, ?_, rfl⟩
    unfold finOf at hn
    split at hn
    · exact congrArg Fin.val (Option.some.inj hn)
    · cases hn
  case h_2 => exact .inl rfl
  case h_3 =>
    split
    · exact .inl rfl
    · exact .inl rfl
  case h_4 => exact .inl rfl

/-- From h to t each port is as it was, or its LINK task has lost its state. -/
def LinksForget (h t : Hub) : Prop := ∀ j : Fin 48, t.links[j] = h.links[j] ∨ t.links[j] = h.links[j].forget

theorem LinksForget.of_eq {h t : Hub} (e : t.links = h.links) : LinksForget h t := fun j => .inl (congrArg (·[j]) e)

theorem LinksForget.of_upd {h t : Hub} {n : Fin 48} (e : t.links = upd h.links n Link.forget) : LinksForget h t := by
  intro j
  by_cases hj : j = n
  · subst hj
    exact .inr ((congrArg (·[j]) e).trans (upd_same ..))
  · exact .inl ((congrArg (·[j]) e).trans (upd_other _ _ _ _ hj))

/-- A change of the links at most is followed by one that leaves them. -/
theorem LinksForget.then_eq {h a t : Hub} (p : LinksForget h a) (e : t.links = a.links) : LinksForget h t := fun j => by
  rw [show t.links[j] = a.links[j] from congrArg (·[j]) e]
  exact p j

theorem suspend_links (t : Fin 126) (h : Hub) : (suspend t h).links = h.links :=
  (suspend_kept (A := { parts := [.msix, .comp, .collector, .fltEvt, .bus], tasks := any, reeds := any }) (fun _ hp => hp) trivial every
    (.refl h)).only.eq_links fun _ hk => hk

theorem taskFail_links (r : Option (Fin 192)) (t : Option (Fin 126)) (c : Nat) (h : Hub) : (taskFail r t c h).links = h.links := by
  unfold taskFail
  dsimp only
  rw [sendFault_links]
  split <;> rfl

theorem unseat_links (t : Fin 126) (h : Hub) : (unseat t h).links = h.links := by
  unfold unseat
  split <;> rfl

theorem shed_linksForget (t : Fin 126) (h : Hub) : LinksForget h (shed t h) := by
  have hlost : LinksForget h (forgetTask t h) := by
    rcases forgetTask_links t h with e | ⟨n, -, e⟩
    · exact .of_eq e
    · exact .of_upd e
  refine hlost.then_eq ?_
  simp only [shed, raiseReed_irqIf, irqIf_links, Hub.onComp_links, taskFail_links, Hub.onTask_links, unseat_links]

theorem placeTask_linksForget (t : Fin 126) (st : TaskState) (h : Hub) : LinksForget h (placeTask t st h) := by
  unfold placeTask
  dsimp only
  split
  · exact .of_eq rfl
  · split
    · exact .of_eq rfl
    · split
      · split
        · exact (shed_linksForget _ h).then_eq rfl
        · exact .of_eq (suspend_links ..)
      · exact .of_eq (suspend_links ..)

theorem createTask_linksForget (k : Nat) (h : Hub) : LinksForget h (createTask k h) := by
  unfold createTask
  split
  · exact .of_eq rfl
  · split
    case h_1 | h_2 => exact (placeTask_linksForget _ _ (h.onTask _ _)).then_eq rfl
    all_goals exact .of_eq rfl

theorem resumeTasks_links (h : Hub) : (resumeTasks h).links = h.links :=
  (resumeTasks_kept (A := { parts := [.msix, .comp, .bus], tasks := any, reeds := any }) (fun _ hp => hp) every every
    (.refl h)).only.eq_links fun _ hk => hk

theorem completeOpt_links (id : Option Nat) (st : Status) (h : Hub) : (completeOpt id st h).links = h.links := by
  cases id with
  | none => rfl
  | some i => exact completeWith_links ..

/-- The removal of a task changes the ports only where it is a LINK task, and there its own. -/
theorem removeTask_links (k : Nat) (h : Hub) : (removeTask k h).links = h.links ∨
    ∃ n : Fin 48, k = n ∧ (removeTask k h).links = upd h.links n Link.forget := by
  unfold removeTask
  split
  · exact .inl rfl
  · rename_i t hk
    have hv : t.val = k := by
      unfold finOf at hk
      split at hk
      · exact congrArg Fin.val (Option.some.inj hk).symm
      · cases hk
    dsimp only
    simp only [resumeTasks_links, Hub.onTask_links, unseat_links]
    rw [hv]
    have hlost : ∀ g : Hub, g.links = h.links → (forgetTask k g).links = h.links ∨
        ∃ n : Fin 48, k = n ∧ (forgetTask k g).links = upd h.links n Link.forget := by
      intro g hg
      rw [← hg]
      exact forgetTask_links k g
    refine hlost _ ?_
    simp only [completeOpt_links, Hub.onTask_links]
    split <;> rfl

/-! ## LINK_CONFIG (R254, R255, R242) -/

/-- The port with its new settings. -/
def Link.named (p : Payload) (x : Link) : Link :=
  { x with cfg := pbytes p 32, alpha := if x.state == .timed then x.alpha else pf p 8 0 48 }

/-- The hub with the port's new settings. -/
def linkNamed (n : Fin 48) (p : Payload) (h : Hub) : Hub := (copyWritten (0x10000 + 0x200 * n) 32 h).onLink n (Link.named p)

theorem linkAlpha_waits {st : LinkState} {a b : Nat} (h : (st == .timed && (if st = .timed then a else b) != b) = true) :
    st = .timed ∧ a ≠ b := by
  obtain ⟨h1, h2⟩ := Bool.and_eq_true_iff.mp h
  have hst : st = .timed := beq_iff_eq.mp h1
  rw [if_pos hst] at h2
  exact ⟨hst, bne_iff_ne.mp h2⟩

/-- A LOOPBACK in progress is ended by the new mode. -/
def loopDropped (n : Fin 48) (h : Hub) : Hub :=
  match h.links[n].loop with
  | some (id, _) => complete id .aborted (h.onLink n fun x => { x with loop := none })
  | none => h

section
variable {d : Desc} {n : Fin 48} {h : Hub} (hn : pf d.payload 0 0 8 = n.val) (hb : linkConfigBad d.payload = false)
include hn hb

theorem linkConfigEff_same (hm : h.links[n].mode = pf d.payload 1 0 3) : linkConfigEff d h =
    if (h.links[n].state == .timed && (linkNamed n d.payload h).links[n].alpha != pf d.payload 8 0 48) = true then
      (linkNamed n d.payload h).onLink n fun x => { x with alphaDesc := x.alphaDesc ++ [d.id] }
    else complete d.id .ok (linkNamed n d.payload h) := by
  simp only [linkConfigEff, withFin_val hn, hb, if_false, Bool.false_eq_true, hm, if_true]
  rfl

theorem linkConfigEff_mode (hm : h.links[n].mode ≠ pf d.payload 1 0 3) : ∃ st, linkConfigEff d h =
    complete d.id st (linkMode n h.links[n].mode (pf d.payload 1 0 3) (loopDropped n (linkNamed n d.payload h))) := by
  refine ⟨if h.links[n].mode = 0 && (linkMode n h.links[n].mode (pf d.payload 1 0 3) (loopDropped n (linkNamed n d.payload h))).taskShed n
    then .noResource else .ok, ?_⟩
  have hloop : (linkNamed n d.payload h).links[n].loop = h.links[n].loop := upd_field Link.loop ..
  simp only [linkConfigEff, withFin_val hn, hb, if_false, Bool.false_eq_true, hm, loopDropped, hloop]
  rfl

end

/-- The port without its LOOPBACK. -/
def Link.unlooped (x : Link) : Link := { x with loop := none }

theorem loopDropped_links (n : Fin 48) (h : Hub) : (loopDropped n h).links = upd h.links n Link.unlooped := by
  unfold loopDropped
  split
  · exact completeWith_links ..
  · rename_i hl
    refine (upd_id ?_).symm
    unfold Link.unlooped
    rw [← hl]

/-- The port that starts in a mode that is not OFF. -/
def Link.started (nonce : BitVec 16) (x : Link) : Link :=
  Link.risen (Link.entered .down { x with nonce, squelch := false, txDis := false, statDue := true })

theorem linkStart_stays {n : Fin 48} {h : Hub} (fresh : Bool) (hm : (h.links[n].mode == 0 || h.links[n].held) = true) :
    linkStart n fresh h = h := if_pos hm

/-- The hub with a new nonce drawn for a port. -/
def nonceDrawn (n : Fin 48) (h : Hub) : Hub :=
  { h.onLink n fun l => { l with nonce := (Config.random h.free).truncate 16 } with free := h.free + 1 }

theorem nonceDrawn_links (n : Fin 48) (h : Hub) :
    (nonceDrawn n h).links = upd h.links n fun l => { l with nonce := (Config.random h.free).truncate 16 } := rfl

theorem linkStart_links {n : Fin 48} {h : Hub} (hm : (h.links[n].mode == 0 || h.links[n].held) = false) :
    ∃ nonce, (linkStart n true h).links = upd h.links n (Link.started nonce) := by
  have heff : linkStart n true h = linkRise n (enterLink n .down
      ((nonceDrawn n h).onLink n fun l => { l with squelch := false, txDis := false, statDue := true })) :=
    if_neg (by rw [hm]; exact Bool.false_ne_true)
  refine ⟨(Config.random h.free).truncate 16, ?_⟩
  rw [heff, linkRise_links, enterLink_links, Hub.onLink_links, nonceDrawn_links, upd_upd, upd_upd, upd_upd]
  rfl

/-- The port taken OFF by a written mode. -/
def Link.takenOff (x : Link) : Link := { (x.fallen .off).clearAll with squelch := true, txDis := true }

/-- The port as its written mode leaves it: OFF, or started. -/
theorem linkMode_links (n : Fin 48) (old new : Nat) (h : Hub) : ∃ g : Hub,
    (linkMode n old new h).links =
        (linkStart n true ((fallTo n .off none g).onLink n fun l => { l.clearAll with squelch := true, txDis := true })).links ∧
      LinksForget h g ∧ (old ≠ 0 → ∀ j, j ≠ n → g.links[j] = h.links[j]) := by
  refine ⟨if old = 0 then createTask n h else if new = 0 then removeTask n h else h, ptpLink_links .., ?_⟩
  split
  case isTrue ho => exact ⟨createTask_linksForget _ _, fun hn => absurd ho hn⟩
  case isFalse ho =>
    split
    · rcases removeTask_links n h with e | ⟨k, hk, e⟩
      · exact ⟨.of_eq e, fun _ j _ => congrArg (·[j]) e⟩
      · refine ⟨.of_upd e, fun _ j hj => ?_⟩
        rw [Fin.ext hk] at hj
        exact (congrArg (·[j]) e).trans (upd_other _ _ _ _ hj)
    · exact ⟨.of_eq rfl, fun _ _ _ => rfl⟩

/-- What stays of a port through the loss of its task's state, and the way OFF. -/
structure Link.SameSettings (x y : Link) : Prop where
  cfg : y.cfg = x.cfg
  held : y.held = x.held
  loop : y.loop = x.loop
  signal : y.signal = x.signal
  modAbs : y.modAbs = x.modAbs
  los : y.los = x.los

theorem Link.takenOff_same (x : Link) : x.SameSettings x.takenOff := by
  unfold Link.takenOff Link.fallen
  split <;> exact ⟨rfl, rfl, rfl, rfl, rfl, rfl⟩

theorem Link.takenOff_forget_same (x : Link) : x.SameSettings x.forget.takenOff := by
  obtain ⟨h1, h2, h3, h4, h5, h6⟩ := x.forget.takenOff_same
  exact ⟨h1, h2, h3, h4, h5, h6⟩

/-- A port that has been taken OFF shows it. -/
theorem Link.takenOff_fields (x : Link) : x.takenOff.state = .off ∧ x.takenOff.fs = [] ∧ x.takenOff.squelch = true := ⟨rfl, rfl, rfl⟩

theorem Link.started_fields (nonce : BitVec 16) (x : Link) : (x.started nonce).cfg = x.cfg ∧ (x.started nonce).loop = x.loop ∧
    (x.started nonce).fs = x.fs ∧ (x.started nonce).squelch = false ∧
    (x.started nonce).state = if (x.signal && !x.modAbs && !x.los) = true then .aligning else .down := by
  have hc : (Link.entered .down { x with nonce, squelch := false, txDis := false, statDue := true }).state == LinkState.down := rfl
  unfold Link.started Link.risen
  rw [hc, Bool.true_and]
  split
  case isTrue h => exact ⟨rfl, rfl, rfl, rfl, (if_pos h).symm⟩
  case isFalse h => exact ⟨rfl, rfl, rfl, rfl, (if_neg h).symm⟩

/-- A written mode: the port as it was set, OFF or started, and every other port as it was unless a task has been made. -/
theorem linkMode_slot (n : Fin 48) (old new : Nat) (h : Hub) :
    (linkMode n old new h).links[n].cfg = h.links[n].cfg ∧
    (old ≠ 0 → ∀ j, j ≠ n → (linkMode n old new h).links[j] = h.links[j]) ∧
    (h.links[n].held = false → (linkMode n old new h).links[n].loop = h.links[n].loop ∧ (linkMode n old new h).links[n].fs = [] ∧
      (linkMode n old new h).links[n].squelch = (h.links[n].mode == 0) ∧
      (linkMode n old new h).links[n].state = if h.links[n].mode = 0 then .off
        else if (h.links[n].signal && !h.links[n].modAbs && !h.links[n].los) = true then .aligning else .down) := by
  obtain ⟨g, hlinks, hforget, hother⟩ := linkMode_links n old new h
  generalize hk : (fallTo n .off none g).onLink n (fun l => { l.clearAll with squelch := true, txDis := true }) = k at hlinks
  have hkl : k.links = upd g.links n Link.takenOff := by
    rw [← hk, Hub.onLink_links, fallTo_links, upd_upd]
    rfl
  have hslot : k.links[n] = g.links[n].takenOff := by rw [hkl]; exact upd_same ..
  have hsame : h.links[n].SameSettings k.links[n] := by
    rw [hslot]
    rcases hforget n with e | e
    · rw [e]; exact Link.takenOff_same _
    · rw [e]; exact Link.takenOff_forget_same _
  obtain ⟨hcfg, hheld, hloop, hsig, habs, hlos⟩ := hsame
  obtain ⟨hoff, hfs, hsq⟩ := g.links[n].takenOff_fields
  rw [← hslot] at hoff hfs hsq
  have hmode : k.links[n].mode = h.links[n].mode := congrArg (pf · 1 0 3) hcfg
  have hkother : old ≠ 0 → ∀ j, j ≠ n → k.links[j] = h.links[j] := fun ho j hj => by
    rw [hkl]
    exact (upd_other _ _ _ _ hj).trans (hother ho j hj)
  cases hm : (k.links[n].mode == 0 || k.links[n].held)
  case true =>
    rw [hlinks, linkStart_stays true hm]
    refine ⟨hcfg, hkother, fun hh => ?_⟩
    have hm0 : h.links[n].mode = 0 := by
      rw [hheld, hh, Bool.or_false, hmode] at hm
      exact beq_iff_eq.mp hm
    refine ⟨hloop, hfs, ?_, ?_⟩
    · rw [hsq, hm0]; rfl
    · rw [if_pos hm0]; exact hoff
  case false =>
    obtain ⟨nonce, hstart⟩ := linkStart_links hm
    obtain ⟨s1, s2, s3, s4, s5⟩ := Link.started_fields nonce k.links[n]
    have hz : (linkStart n true k).links[n] = k.links[n].started nonce := by rw [hstart]; exact upd_same ..
    rw [hlinks, hz]
    refine ⟨s1.trans hcfg, fun ho j hj => ?_, fun _ => ?_⟩
    · rw [hstart]
      exact (upd_other _ _ _ _ hj).trans (hkother ho j hj)
    · obtain ⟨hm1, -⟩ := Bool.or_eq_false_iff.mp hm
      rw [hmode] at hm1
      refine ⟨s2.trans hloop, s3.trans hfs, s4.trans hm1.symm, ?_⟩
      rw [s5, hsig, habs, hlos, if_neg (beq_eq_false_iff_ne.mp hm1)]

/-! ## LINK_CAL (R256, R257) -/

theorem deliverDelay_links (n : Fin 48) (c : Int) (h : Hub) : (deliverDelay n c h).links = h.links := by
  unfold deliverDelay
  split
  · rfl
  · exact forEach_keeps (F := Hub.links) (f := fun s h => slewUsers s (-c) (h.onRef s (RefSlot.shiftDelay c))) (fun _ _ => rfl) ..

/-- The port whose known delays have changed: F, its history and D move with them while it ranges (R239, R240). -/
def Link.delaysShifted (dF dtxR drxL : Int) (x : Link) : Link :=
  if x.fs.isEmpty then x
  else
    let dIn := rdiv ((x.f - dF) * 2 ^ 46) x.alpha
    { x with f := x.f - dF, dIn, d := x.d + dtxR + drxL + (dIn - x.dIn), fs := x.fs.map fun v => (v.1 - dF, v.2) }

theorem Link.delaysShifted_idle {a b c : Int} {x : Link} (he : x.fs.isEmpty = true) : x.delaysShifted a b c = x := if_pos he

theorem shiftDelays_links (n : Fin 48) (a b c : Int) (h : Hub) :
    (shiftDelays n a b c h).links = upd h.links n (Link.delaysShifted a b c) := by
  unfold shiftDelays
  extract_lets l f dIn d g
  split
  case isTrue he => exact (upd_id (Link.delaysShifted_idle he)).symm
  case isFalse he =>
    have hg : g.links = upd h.links n (Link.delaysShifted a b c) := by
      refine Eq.trans (Hub.onLink_links ..) (upd_congr ?_)
      unfold Link.delaysShifted
      exact (if_neg he).symm
    split
    · rw [deliverDelay_links, hg]
    · exact hg

theorem setExt_links (n : Fin 48) (tx rx : Nat) (h : Hub) : ∃ a b c, (setExt n tx rx h).links =
    upd h.links n fun x => { x with extTx := tx, extRx := rx : Link }.delaysShifted a b c :=
  ⟨_, _, _, (shiftDelays_links n (256 * ((tx : Int) - h.links[n].extTx) + 256 * ((rx : Int) - h.links[n].extRx)) 0
    (256 * ((rx : Int) - h.links[n].extRx)) (h.onLink n fun l => { l with extTx := tx, extRx := rx })).trans (upd_upd h.links n _ _)⟩

theorem Link.delaysShifted_ext (a b c : Int) (x : Link) :
    (x.delaysShifted a b c).extTx = x.extTx ∧ (x.delaysShifted a b c).extRx = x.extRx := by
  unfold Link.delaysShifted
  split <;> exact ⟨rfl, rfl⟩

theorem setExt_only (n : Fin 48) (tx rx : Nat) (h : Hub) : Only { refs := any, doms := any, links := any } h (setExt n tx rx h) :=
  (setExt_kept every every trivial (.refl h)).only

section
variable {d : Desc} {n : Fin 48} {h : Hub} (hn : pf d.payload 0 0 8 = n.val) (hb : linkCalBad d.payload = false)
include hn hb

theorem linkSetExtEff_good : linkSetExtEff d h = complete d.id .ok (setExt n (pf d.payload 8 0 32) (pf d.payload 12 0 32) h) := by
  simp only [linkSetExtEff, withFin_val hn, hb, if_false, Bool.false_eq_true]

theorem linkLoopbackEff_begins (ht : h.links[n].ternen = true) (hs : h.links[n].state ≠ .timed) (hl : h.links[n].loop = none) :
    linkLoopbackEff d h = h.onLink n fun x => { x with loop := some (d.id, []), loopAt := h.clk.ms } := by
  have hs' : (h.links[n].state == LinkState.timed) = false := beq_eq_false_iff_ne.mpr hs
  simp only [linkLoopbackEff, withFin_val hn, hb, ht, hs', hl, Option.isSome_none, Bool.not_true, Bool.or_self, if_false,
    Bool.false_eq_true]

theorem linkRebaseEff_good : linkRebaseEff d h =
    complete d.id .ok (h.onLink n fun x => { x with base := none, delta := 0, asymSent := false }) := by
  simp only [linkRebaseEff, withFin_val hn, hb, if_false, Bool.false_eq_true]

end

/-- What a LOOPBACK has measured beyond the fixed delays, 2^-8 fu. -/
def Hub.loopSum (h : Hub) (n : Fin 48) (p : Payload) (ms : List Int) : Int :=
  (if ms.isEmpty then 0 else rdiv (ms.sum * 256) ms.length) - rdiv ((h.linkFixed n false 0 + h.linkFixed n true 0) * 256) (10 ^ 5) -
    256 * (pf p 16 0 64 : Int)

/-- The port with the shares of the measured sum as its external delays, gone DOWN and risen again. -/
def Link.calibrated (p : Payload) (sum8 : Int) (x : Link) : Link :=
  Link.risen (Link.dropped .down { x with
    loop := none, extTx := (rdiv sum8 256).toNat * pf p 2 0 16 / 1000
    extRx := (rdiv sum8 256).toNat - (rdiv sum8 256).toNat * pf p 2 0 16 / 1000, split := pf p 2 0 16 })

theorem Link.risen_same (x : Link) : x.risen.loop = x.loop ∧ x.risen.extTx = x.extTx ∧ x.risen.extRx = x.extRx ∧ x.risen.split = x.split := by
  unfold Link.risen
  split <;> exact ⟨rfl, rfl, rfl, rfl⟩

theorem Link.dropped_same (st : LinkState) (x : Link) : (x.dropped st).loop = x.loop ∧ (x.dropped st).extTx = x.extTx ∧
    (x.dropped st).extRx = x.extRx ∧ (x.dropped st).split = x.split := by
  unfold Link.dropped Link.fallen
  split <;> exact ⟨rfl, rfl, rfl, rfl⟩

theorem Link.calibrated_fields (p : Payload) (sum8 : Int) (x : Link) : (x.calibrated p sum8).loop = none ∧
    (x.calibrated p sum8).extTx = (rdiv sum8 256).toNat * pf p 2 0 16 / 1000 ∧
    (x.calibrated p sum8).extRx = (rdiv sum8 256).toNat - (rdiv sum8 256).toNat * pf p 2 0 16 / 1000 ∧
    (x.calibrated p sum8).split = pf p 2 0 16 := by
  obtain ⟨a1, a2, a3, a4⟩ := Link.risen_same (Link.dropped .down { x with
    loop := none, extTx := (rdiv sum8 256).toNat * pf p 2 0 16 / 1000
    extRx := (rdiv sum8 256).toNat - (rdiv sum8 256).toNat * pf p 2 0 16 / 1000, split := pf p 2 0 16 })
  obtain ⟨b1, b2, b3, b4⟩ := Link.dropped_same .down { x with
    loop := none, extTx := (rdiv sum8 256).toNat * pf p 2 0 16 / 1000
    extRx := (rdiv sum8 256).toNat - (rdiv sum8 256).toNat * pf p 2 0 16 / 1000, split := pf p 2 0 16 }
  exact ⟨a1.trans b1, a2.trans b2, a3.trans b3, a4.trans b4⟩

section
variable {n : Fin 48} {id : Nat} {ms : List Int} {e : Desc} {h : Hub} (hr : h.runs = true) (hl : h.links[n].loop = some (id, ms))
  (ht : h.links[n].loopAt + 1000 ≤ h.clk.ms) (hd : h.desc? id = some e)
include hr hl ht

theorem loopbackComplete_short (hm : ms.length < 1000) : loopbackComplete n h = complete id .timeout (h.onLink n Link.unlooped) := by
  have ht' : ¬h.clk.ms < h.links[n].loopAt + 1000 := Nat.not_lt.mpr ht
  simp only [loopbackComplete, hl, hr, ht', decide_false, Bool.not_true, Bool.or_self, if_false, Bool.false_eq_true, hm, if_true]
  rfl

include hd

theorem loopbackComplete_below (hm : 1000 ≤ ms.length) (hs : h.loopSum n e.payload ms < 0) :
    loopbackComplete n h = complete id .badParam (h.onLink n Link.unlooped) := by
  have ht' : ¬h.clk.ms < h.links[n].loopAt + 1000 := Nat.not_lt.mpr ht
  have hm' : ¬ms.length < 1000 := Nat.not_lt.mpr hm
  have hd' : (h.onLink n Link.unlooped).desc? id = some e := hd
  unfold Link.unlooped at hd' ⊢
  unfold loopbackComplete
  dsimp only
  rw [hl]
  dsimp only
  rw [hr, decide_eq_false ht', Bool.not_true, Bool.or_self, if_neg Bool.false_ne_true, if_neg hm', hd']
  exact if_pos hs

theorem loopbackComplete_within (hm : 1000 ≤ ms.length) (hs : 0 ≤ h.loopSum n e.payload ms) : ∃ r g,
    loopbackComplete n h = completeWith id .ok r g ∧ KeepsOpen h g ∧
      g.links = upd h.links n (Link.calibrated e.payload (h.loopSum n e.payload ms)) := by
  have ht' : ¬h.clk.ms < h.links[n].loopAt + 1000 := Nat.not_lt.mpr ht
  have hm' : ¬ms.length < 1000 := Nat.not_lt.mpr hm
  have hd' : (h.onLink n Link.unlooped).desc? id = some e := hd
  unfold Link.unlooped at hd'
  unfold loopbackComplete
  dsimp only
  rw [hl]
  dsimp only
  rw [hr, decide_eq_false ht', Bool.not_true, Bool.or_self, if_neg Bool.false_ne_true, if_neg hm', hd']
  refine ⟨_, _, if_neg (Int.not_lt.mpr hs), ?_, ?_⟩
  · exact (((onLink_keepsOpen n _ h).trans (onLink_keepsOpen n _ _)).trans (dropTo_keepsOpen ..)).trans (linkRise_keepsOpen ..)
  · rw [linkRise_links, dropTo_links, Hub.onLink_links, Hub.onLink_links, upd_upd, upd_upd, upd_upd]
    rfl

end

end Sys2Proof.Machine

namespace Sys2Proof

open Machine

/-- Settles O18: settings at once, a written mode over OFF, and the calibration of the external delays. -/
theorem linkSettings : Obligations.LinkSettings := by
  unfold Obligations.LinkSettings
  refine ⟨fun o d s n S hop hn hb => ?config, fun o d s n S hop hn hb => ⟨fun hop' => ?ext, fun hop' ht hs hl => ?loopback,
    fun hop' => ?rebase⟩, fun s n e q ms sum8 tx hr hc hi he ho hx hl ht hsum htx => ?done⟩
  case config =>
    refine ⟨_, exec_serve S (fun _ => rfl) (isOp_of hop) (by rw [hop]; rfl), ?_⟩
    have hnamed : (linkNamed n d.payload (markApplied d.id s.toHub)).links = upd s.links n (Link.named d.payload) := rfl
    by_cases hm : s.links[n].mode = pf d.payload 1 0 3
    case pos =>
      have heff := linkConfigEff_same (h := markApplied d.id s.toHub) hn hb hm
      have hslot : (linkNamed n d.payload (markApplied d.id s.toHub)).links[n].alpha = (s.links[n].named d.payload).alpha :=
        upd_field Link.alpha s.links n (Link.named d.payload)
      have halpha : (s.links[n].named d.payload).alpha =
          if s.links[n].state = .timed then s.links[n].alpha else pf d.payload 8 0 48 := if_congr beq_iff_eq rfl rfl
      have hst : (markApplied d.id s.toHub).links[n].state = s.links[n].state := rfl
      rw [heff, hslot, hst, halpha]
      by_cases hw : s.links[n].state = .timed ∧ s.links[n].alpha ≠ pf d.payload 8 0 48
      case pos =>
        obtain ⟨ht, ha⟩ := hw
        rw [if_pos (c := _ = true) (by rw [ht, if_pos rfl, bne_iff_ne.mpr ha]; rfl)]
        simp only [Hub.onLink_links, hnamed, upd_upd]
        refine ⟨upd_field Link.cfg .., fun _ j hj => upd_other _ _ _ _ hj, fun _ => ⟨upd_field Link.state ..,
          (upd_field Link.alpha ..).trans halpha, fun _ _ => upd_field Link.alphaDesc .., fun hor => ?_⟩, fun hne => absurd hm hne⟩
        exact (hor.elim (fun hn => hn ht) fun he => ha he).elim
      case neg =>
        rw [if_neg (c := _ = true) (fun hc => hw (linkAlpha_waits hc))]
        simp only [complete, completeWith_links, hnamed]
        refine ⟨upd_field Link.cfg .., fun _ j hj => upd_other _ _ _ _ hj, fun _ => ⟨upd_field Link.state ..,
          (upd_field Link.alpha ..).trans halpha, fun ht ha => absurd ⟨ht, ha⟩ hw, fun _ => ?_⟩, fun hne => absurd hm hne⟩
        exact S.answers (g := linkNamed n d.payload (markApplied d.id s.toHub)) rfl rfl .ok 0
    case neg =>
      obtain ⟨st, heff⟩ := linkConfigEff_mode (h := markApplied d.id s.toHub) hn hb hm
      have hl0 : (loopDropped n (linkNamed n d.payload (markApplied d.id s.toHub))).links =
          upd s.links n fun x => (x.named d.payload).unlooped := by rw [loopDropped_links, hnamed, upd_upd]
      obtain ⟨hcfg, hother, hstart⟩ := linkMode_slot n s.links[n].mode (pf d.payload 1 0 3)
        (loopDropped n (linkNamed n d.payload (markApplied d.id s.toHub)))
      have hslot : (loopDropped n (linkNamed n d.payload (markApplied d.id s.toHub))).links[n] = (s.links[n].named d.payload).unlooped := by
        rw [hl0]; exact upd_same ..
      have hmode : (s.links[n].named d.payload).unlooped.mode = pf d.payload 1 0 3 := pf_pbytes _ (by decide) (by decide)
      rw [hslot, hmode] at hstart
      rw [heff]
      simp only [complete, completeWith_links]
      refine ⟨hcfg.trans (by rw [hslot]; rfl), fun hor j hj => ?_, fun he => absurd he hm, fun _ hheld => hstart hheld⟩
      refine (hother (hor.resolve_left hm) j hj).trans ?_
      rw [hl0]
      exact upd_other _ _ _ _ hj
  case ext =>
    obtain ⟨a, b, c, hlinks⟩ := setExt_links n (pf d.payload 8 0 32) (pf d.payload 12 0 32) (markApplied d.id s.toHub)
    have honly := setExt_only n (pf d.payload 8 0 32) (pf d.payload 12 0 32) (markApplied d.id s.toHub)
    refine ⟨_, exec_served S (fun _ => rfl) (isOpSub_of hop (by rw [hop']; rfl)) (by rw [hop]; rfl)
      (linkSetExtEff_good (h := markApplied d.id s.toHub) hn hb), ?_⟩
    simp only [complete, completeWith_links, hlinks]
    refine ⟨(upd_field Link.extTx ..).trans (Link.delaysShifted_ext ..).1, (upd_field Link.extRx ..).trans (Link.delaysShifted_ext ..).2,
      fun j hj => upd_other _ _ _ _ hj, ?_⟩
    exact S.answers (g := setExt n (pf d.payload 8 0 32) (pf d.payload 12 0 32) (markApplied d.id s.toHub))
      (honly.inflight (by simp)) (honly.inCharge (by simp)) .ok 0
  case loopback =>
    refine ⟨_, exec_served S (fun _ => rfl) (isOpSub_of hop (by rw [hop']; rfl)) (by rw [hop]; rfl)
      (linkLoopbackEff_begins (h := markApplied d.id s.toHub) hn hb ht hs hl), ?_⟩
    exact ⟨Hub.onLink_same .., fun j hj => Hub.onLink_other hj ..⟩
  case rebase =>
    refine ⟨_, exec_served S (fun _ => rfl) (isOpSub_of hop (by rw [hop']; rfl)) (by rw [hop]; rfl)
      (linkRebaseEff_good (h := markApplied d.id s.toHub) hn hb), ?_⟩
    simp only [complete, completeWith_links, Hub.onLink_links]
    exact ⟨upd_same .., fun j hj => upd_other _ _ _ _ hj,
      S.answers (g := (markApplied d.id s.toHub).onLink n _) rfl rfl .ok 0⟩
  case done =>
    have hd : s.desc? e.id = some e := hi.desc he
    have hsum' : sum8 = s.loopSum n e.payload ms := by rw [hsum, Hub.loopSum]; simp only [List.isEmpty_iff]
    have hposted : ∀ st, (complete e.id st (s.onLink n Link.unlooped)).Posted e st 0 := fun st =>
      completeWith_posted_after (g := s.onLink n Link.unlooped) hc hi he ho hx rfl rfl st 0
    rw [hsum'] at htx ⊢
    refine ⟨fun hm => ?_, fun hm hs => ?_, fun hm hs => ?_⟩
    · refine ⟨_, exec_run (fun _ => rfl) (loopbackComplete_short hr hl ht hm), ?_, 0, hposted .timeout⟩
      exact (congrArg (·[n]) (completeWith_links ..)).trans (Hub.onLink_same ..)
    · refine ⟨_, exec_run (fun _ => rfl) (loopbackComplete_below hr hl ht hd hm hs), ?_, 0, hposted .badParam⟩
      exact (congrArg (·[n]) (completeWith_links ..)).trans (Hub.onLink_same ..)
    · obtain ⟨r, g, heff, hkeeps, hlinks⟩ := loopbackComplete_within hr hl ht hd hm hs
      have x := hkeeps.keep e q ho hx (hi.okOrOpen hc he)
      refine ⟨_, exec_run (fun _ => rfl) heff, ?_⟩
      simp only [completeWith_links, hlinks]
      obtain ⟨c1, c2, c3, c4⟩ := Link.calibrated_fields e.payload (s.loopSum n e.payload ms) s.links[n]
      refine ⟨(upd_field Link.loop ..).trans c1, (upd_field Link.extTx ..).trans (c2.trans htx.symm), ?_, (upd_field Link.split ..).trans c4,
        x.completedWith ho hx r⟩
      rw [htx]
      exact (upd_field Link.extRx ..).trans c3

end Sys2Proof
end

section
/-!
SUPPORT. The line of a Ternen port: that what is received of a frame is the frame (R228), and the frames sent and received (R229 to
R237).
-/

set_option Elab.async false

namespace Sys2Proof.Machine

/-! ## Bits, bytes and blocks -/

theorem natOfBits_testBit (l : List Bool) (i : Nat) : (natOfBits l).testBit i = l.getD i false := by
  induction l generalizing i with
  | nil => simp [natOfBits]
  | cons b l ih =>
    have hcons : natOfBits (b :: l) = 2 * natOfBits l + b2n b := rfl
    have hb : b2n b = b.toNat := by cases b <;> rfl
    cases i with
    | zero => cases b <;> simp [hcons, hb, Nat.testBit_zero]
    | succ i =>
      have hhalf : (2 * natOfBits l + b2n b) / 2 = natOfBits l := by
        cases b
        · simp [b2n]
        · simp only [b2n, if_true]; omega
      rw [Nat.testBit_succ, hcons, hhalf, ih, List.getD_cons_succ]

/-- The bits of a number of w binary digits. -/
theorem range_map_ofNat_natOfBits {w : Nat} {l : List Bool} (h : l.length = w) :
    (List.range w).map (BitVec.ofNat w (natOfBits l)).getLsbD = l := by
  refine List.ext_getElem (by simp [h]) fun i h1 h2 => ?_
  have hi : i < w := by simpa using h1
  rw [List.getElem_map, List.getElem_range, BitVec.getLsbD_ofNat, decide_eq_true hi, Bool.true_and, natOfBits_testBit,
    List.getD_eq_getElem _ _ h2]

theorem ofNat_natOfBits_range {w : Nat} (x : BitVec w) : BitVec.ofNat w (natOfBits ((List.range w).map x.getLsbD)) = x := by
  refine BitVec.eq_of_getLsbD_eq fun i hi => ?_
  rw [BitVec.getLsbD_ofNat, decide_eq_true hi, Bool.true_and, natOfBits_testBit, List.getD_eq_getElem _ _ (by simpa using hi),
    List.getElem_map, List.getElem_range]

theorem length_bitsOf (b : Bytes) : (bitsOf b).length = 8 * b.length := by
  induction b with
  | nil => rfl
  | cons x b ih =>
    have hcons : bitsOf (x :: b) = (List.range 8).map x.getLsbD ++ bitsOf b := rfl
    rw [hcons, List.length_append, ih, List.length_cons, List.length_map, List.length_range]
    omega

/-- The bytes of the bits of bytes. -/
theorem bytesOfBits_bitsOf (b : Bytes) : bytesOfBits b.length (bitsOf b) = b := by
  induction b with
  | nil => rfl
  | cons x b ih =>
    have hlen : ((List.range 8).map x.getLsbD).length = 8 := by simp
    have hcons : bitsOf (x :: b) = (List.range 8).map x.getLsbD ++ bitsOf b := rfl
    rw [List.length_cons, bytesOfBits, hcons, List.take_left' hlen, List.drop_left' hlen, ofNat_natOfBits_range, ih]

theorem length_blocksOf (k : Nat) (sync : BitVec 2) (l : List Bool) : (blocksOf k sync l).length = k := by
  induction k generalizing sync l with
  | zero => rfl
  | succ k ih => rw [blocksOf, List.length_cons, ih]

/-- The payload bits of blocks are the bits that were put into them. -/
theorem flatMap_blocksOf {k : Nat} {sync : BitVec 2} {l : List Bool} (h : l.length = 64 * k) : (blocksOf k sync l).flatMap blockBits = l := by
  induction k generalizing sync l with
  | zero => rw [List.length_eq_zero_iff.mp h]; rfl
  | succ k ih =>
    have htake : (l.take 64).length = 64 := by rw [List.length_take]; omega
    have hfirst : blockBits { sync, payload := BitVec.ofNat 64 (natOfBits (l.take 64)) } = l.take 64 := range_map_ofNat_natOfBits htake
    rw [blocksOf, List.flatMap_cons, hfirst, ih (by rw [List.length_drop]; omega), List.take_append_drop]

theorem blocksOf_sync (k : Nat) (l : List Bool) : (blocksOf k syncData l).all (fun d => d.sync = syncData) = true := by
  induction k generalizing l with
  | zero => rfl
  | succ k ih => simp [blocksOf, ih]

/-- A frame's blocks hold the frame. -/
theorem lineBytes_lineOf {before : BitVec 58} {b : Bytes} (h8 : b.length % 8 = 0) (hne : b ≠ []) (hf : (frameLength b).isSome = true) :
    lineBytes (lineOf before b) = some b := by
  obtain ⟨k, hk⟩ : ∃ k, b.length = 8 * (k + 1) := by
    have hpos : b.length ≠ 0 := fun h0 => hne (List.length_eq_zero_iff.mp h0)
    exact ⟨b.length / 8 - 1, by omega⟩
  have hdiv : b.length / 8 = k + 1 := by omega
  have hlen : (scramble before (bitsOf b)).length = 64 * (k + 1) := by rw [scramble_length, length_bitsOf, hk]; omega
  have hbits := flatMap_blocksOf (sync := syncControl) hlen
  have hcount := length_blocksOf (k + 1) syncControl (scramble before (bitsOf b))
  have hsync := blocksOf_sync k ((scramble before (bitsOf b)).drop 64)
  have hback : bytesOfBits (8 * (k + 1)) (descramble before (scramble before (bitsOf b))) = b := by
    rw [descramble_scramble, ← hk, bytesOfBits_bitsOf]
  unfold lineBytes lineOf
  rw [hdiv]
  dsimp only
  rw [hcount, hbits, hback, hf]
  rw [blocksOf]
  dsimp only
  rw [if_pos ⟨rfl, hsync⟩, if_pos rfl]

/-! ## Frames sent (R229 to R235) -/

/-- The port whose line is taken by a frame. -/
def Link.lined (dep : Int) (b : Bytes) (x : Link) : Link :=
  { x with lineEnd := some (max dep (x.lineEnd.getD dep) + rdiv ((b.length + 4) / 8 * slot10) 10) }

theorem sendFrame_links (n : Fin 48) (dep : Int) (b : Bytes) (h : Hub) : (sendFrame n dep b h).links = upd h.links n (Link.lined dep b) := rfl

theorem sendFrame_wire (n : Fin 48) (dep : Int) (b : Bytes) (h : Hub) : (sendFrame n dep b h).wire = h.frameOp n dep b :: h.wire := rfl

theorem notePair_links (l : Fin 192) (st : Stamp) (h : Hub) : (notePair l st h).links = h.links :=
  (notePair_kept (A := { parts := [.msix, .tdc, .bus], evts := any, refs := any }) (fun _ hp => hp) every every
    (.refl h)).only.eq_links fun _ hk => hk

theorem notePair_wire (l : Fin 192) (st : Stamp) (h : Hub) : (notePair l st h).wire = h.wire :=
  (notePair_kept (A := { parts := [.msix, .tdc, .bus], evts := any, refs := any }) (fun _ hp => hp) every every
    (.refl h)).only.wire.resolve_left (by simp)

theorem advanceTo_rootActive (cyc : Nat) (h : Hub) : (advanceTo cyc h).rootActive = h.rootActive := by
  have hrest : (advanceTo cyc h).clk.rest = h.clk.rest := (advanceTo_only cyc h).clk.resolve_left (by simp)
  change ((advanceTo cyc h).clk.rest.aState == RootState.active || (advanceTo cyc h).clk.rest.bState == RootState.active) = _
  rw [hrest]
  rfl

/-- The port whose mark has left. -/
def Link.markSent (lag dep : Int) (x : Link) : Link :=
  { x with txSeq := x.txSeq + 1, prevLag := some lag.toNat, prevMark := some dep, departs := ((x.txSeq, dep) :: x.departs).take 512 }

/-- The bytes of a TMARK that leaves with this lag. -/
def Hub.markBytes (h : Hub) (n : Fin 48) (st : Stamp) (lag : Int) : Bytes :=
  [0x51, h.markFlags n] ++ leBytes 2 h.links[n].txSeq.toNat
    ++ leBytes 4 (((h.dom0Stamp (laneOfTx n) st - lag).emod secFu) / markFu).toNat ++ leBytes 4 (h.links[n].prevLag.getD 0xFFFFFFFF)

/-- The hub whose mark has left, with the TOD frame that follows the mark of index 0. -/
def tmarkSent (n : Fin 48) (st : Stamp) (lag dep : Int) (h : Hub) : Hub :=
  let g := (sendFrame n dep (h.markBytes n st lag) h).onLink n (Link.markSent lag dep)
  if (((h.dom0Stamp (laneOfTx n) st - lag).emod secFu) / markFu).toNat = 0 then
    sendFrame n dep (todFrame g n h.links[n].txSeq (h.dom0Stamp (laneOfTx n) st - lag)) g
  else g

theorem tmarkSent_links (n : Fin 48) (st : Stamp) (lag dep : Int) (h : Hub) : ∃ e, (tmarkSent n st lag dep h).links =
    upd h.links n fun x => { x.markSent lag dep with lineEnd := e } := by
  unfold tmarkSent
  extract_lets g
  split
  · refine ⟨((h.links[n].lined dep (h.markBytes n st lag)).lined dep
      (todFrame g n h.links[n].txSeq (h.dom0Stamp (laneOfTx n) st - lag))).lineEnd, ?_⟩
    rw [sendFrame_links, Hub.onLink_links, sendFrame_links, upd_upd, upd_upd]
    exact upd_congr rfl
  · refine ⟨(h.links[n].lined dep (h.markBytes n st lag)).lineEnd, ?_⟩
    rw [Hub.onLink_links, sendFrame_links, upd_upd]
    exact upd_congr rfl

theorem tmarkSent_wire (n : Fin 48) (st : Stamp) (lag dep : Int) (h : Hub) :
    h.frameOp n dep (h.markBytes n st lag) ∈ (tmarkSent n st lag dep h).wire := by
  unfold tmarkSent
  extract_lets g
  have hg : h.frameOp n dep (h.markBytes n st lag) ∈ g.wire := List.mem_cons_self ..
  split
  · exact List.mem_cons_of_mem _ hg
  · exact hg

/-- A mark that leaves: in its slot, after the marks and echoes before it. -/
theorem tmarkSend_leaves {n : Fin 48} {st : Stamp} {h : Hub} {lag dep : Int} (hr : h.runs = true) (ha : h.rootActive = true)
    (hs : h.links[n].sends = true) (hdep : dep = (advanceTo st.cyc h).lineStamp (laneOfTx n) st)
    (hlag : lag = ((advanceTo st.cyc h).dom0Stamp (laneOfTx n) st).emod markFu) (hlow : lag * 10 < 192 * 65536)
    (hfree : h.links[n].slotFree dep = true) (hecho : h.links[n].echoFirst dep = false)
    (hprev : ∀ p, h.links[n].prevMark = some p → markFu / 2 ≤ dep - lag - p) :
    tmarkSend n st h = notePair (laneOfTx n) st (tmarkSent n st lag dep (advanceTo st.cyc h)) := by
  subst hdep hlag
  have hrun : (advanceTo st.cyc h).runs = true := (Hub.runs_congr (advanceTo_top ..)).trans hr
  have hact : (advanceTo st.cyc h).rootActive = true := (advanceTo_rootActive ..).trans ha
  have hlinks : (advanceTo st.cyc h).links = h.links := advanceTo_links ..
  generalize hg : advanceTo st.cyc h = g at *
  rw [← hlinks] at hs hfree hecho hprev
  have hearly : (match g.links[n].prevMark with
      | some p => decide (g.lineStamp (laneOfTx n) st - (g.dom0Stamp (laneOfTx n) st).emod markFu - p < markFu / 2)
      | none => false) = false := by
    cases hp : g.links[n].prevMark with
    | none => rfl
    | some p => exact decide_eq_false (Int.not_lt.mpr (hprev p hp))
  unfold tmarkSend
  rw [hg]
  extract_lets g' l t dep lag grid early
  have hearly' : early = false := hearly
  have hcond : (g.runs && g.rootActive && l.sends && !early && decide (lag * 10 < 192 * 65536) && l.slotFree dep && !l.echoFirst dep) = true := by
    rw [hrun, hact, hearly', decide_eq_true hlow, hecho, hfree]
    exact congrArg (fun b => true && true && b && !false && true && true && !false) hs
  exact if_pos hcond

/-- The port whose echo has left. -/
def Link.echoSent (seq : BitVec 16) (ta : Nat) (dep : Int) (rest : List (BitVec 16 × Int)) (x : Link) : Link :=
  { x with echoDue := rest, prevEcho := some (seq, ta, dep) }

/-- The bytes of a TECHO, with the turnaround of the echo before where that is recent. -/
def Link.echoBytes (seq : BitVec 16) (dep : Int) (x : Link) : Bytes :=
  match (match x.prevEcho with
    | some (q, v, at_) => if dep - at_ ≤ 3 * markFu then some (q, v) else none
    | none => none) with
  | some (q, v) => [0x52, 1] ++ leBytes 2 seq.toNat ++ leBytes 2 q.toNat ++ leBytes 6 v
  | none => [0x52, 0] ++ leBytes 2 seq.toNat ++ leBytes 8 0

theorem techoSend_leaves {n : Fin 48} {st : Stamp} {h : Hub} {dep arr : Int} {seq : BitVec 16} {rest : List (BitVec 16 × Int)}
    (hr : h.runs = true) (ha : h.rootActive = true) (hs : h.links[n].sends = true)
    (hdep : dep = (advanceTo st.cyc h).lineStamp (laneOfTx n) st) (hfree : h.links[n].slotFree dep = true)
    (hdue : echoesLeft dep h.links[n].echoDue = (seq, arr) :: rest) (hta : 2000 * 65536 ≤ dep - arr) : techoSend n st h =
      notePair (laneOfTx n) st ((sendFrame n dep (h.links[n].echoBytes seq dep) (advanceTo st.cyc h)).onLink n
        (Link.echoSent seq (dep - arr).toNat dep rest)) := by
  subst hdep
  have hrun : (advanceTo st.cyc h).runs = true := (Hub.runs_congr (advanceTo_top ..)).trans hr
  have hact : (advanceTo st.cyc h).rootActive = true := (advanceTo_rootActive ..).trans ha
  have hlinks : (advanceTo st.cyc h).links = h.links := advanceTo_links ..
  generalize hg : advanceTo st.cyc h = g at *
  rw [← hlinks] at hs hfree hdue ⊢
  unfold techoSend
  rw [hg]
  dsimp only
  rw [hdue]
  dsimp only
  rw [hrun, hact, hs, hfree, decide_eq_true hta, Bool.and_self, Bool.and_self, Bool.and_self, Bool.and_self, if_pos rfl]
  rfl

theorem checkLoop_links (n : Fin 48) (h : Hub) : (checkLoop n h).links = h.links := by
  unfold checkLoop
  split
  · rw [raiseHier_irqIf, irqIf_links]; rfl
  · rfl

theorem checkLoop_wire (n : Fin 48) (h : Hub) : (checkLoop n h).wire = h.wire := by
  unfold checkLoop
  split
  · rw [raiseHier_irqIf, irqIf_wire]; rfl
  · rfl

theorem statFrameSend_due {n : Fin 48} {h : Hub} (hr : h.runs = true) (hs : h.links[n].sends = true) (hd : h.links[n].statDue = true)
    (hf : h.lineFree n 4 = true) : statFrameSend n h =
      checkLoop n ((sendFrame n h.nomFu (statFrame h n) h).onLink n fun l => { l with statDue := false }) := by
  unfold statFrameSend
  rw [hr, hs, hd, hf, Bool.and_self, Bool.and_self, Bool.and_self, when_true]

/-! ## Frames received (R230, R234 to R237) -/

section
variable {n : Fin 48} {type : Byte} {x : Line} {f : Bytes → Hub → Hub} {h : Hub} (hr : h.receives n = true)
include hr

theorem takeFrame_good {b : Bytes} (hx : lineBytes x = some b) (hc : crcOk b = true) (ht : byteAt b 0 = type) :
    takeFrame n type x f h = f b h := by
  simp only [takeFrame, hr, if_true, hx, hc, Bool.not_true, Bool.false_eq_true, if_false, ht]

theorem takeFrame_bad (hx : ∀ b, lineBytes x = some b → crcOk b = false) : takeFrame n type x f h = badFrame n h := by
  cases hb : lineBytes x with
  | none => simp only [takeFrame, hr, if_true, hb]
  | some b => simp only [takeFrame, hr, if_true, hb, hx b hb, Bool.not_false]

theorem takeFrame_other {b : Bytes} (hx : lineBytes x = some b) (hc : crcOk b = true) (ht : byteAt b 0 ≠ type) :
    takeFrame n type x f h = h := by
  simp only [takeFrame, hr, if_true, hx, hc, Bool.not_true, Bool.false_eq_true, if_false, ht]

end

theorem advanceTo_receives (cyc : Nat) (n : Fin 48) (h : Hub) : (advanceTo cyc h).receives n = h.receives n := by
  unfold Hub.receives
  rw [Hub.runs_congr (advanceTo_top cyc h), advanceTo_links]

theorem forEach_disqualify_links (l : List (Fin 12)) (c : Nat) (h : Hub) : (forEach l (fun s => disqualify s c) h).links = h.links := by
  refine forEach_keeps (F := Hub.links) (f := fun s => disqualify s c) (fun s g => ?_) l h
  exact (disqualify_kept (A := { parts := [.msix, .collector, .fltEvt, .bus], refs := any }) (fun _ hp => hp) trivial
    (.refl g)).only.eq_links fun _ hk => hk

/-- The flags of a good frame: what is heard of the peer's trust, and at most the event bits. -/
theorem peerTrust_links (n : Fin 48) (u : Bool) (h : Hub) : ∃ e, (peerTrust n u h).links =
    upd h.links n fun x => { x with peerUntrusted := u, evt := e } := by
  unfold peerTrust
  extract_lets was g
  have hg : g.links = upd h.links n fun x => { x with peerUntrusted := u } := rfl
  split
  · refine ⟨h.links[n].evt.raise (bit16 7), ?_⟩
    rw [forEach_disqualify_links, raiseLnk_links, hg, upd_upd]
    exact upd_congr rfl
  · exact ⟨h.links[n].evt, hg.trans (upd_congr rfl)⟩

/-- ALIGNING may become SYNTONISED. -/
theorem trySyntonise_links (n : Fin 48) (h : Hub) : ∃ st e, (trySyntonise n h).links =
    upd h.links n fun x => { x with state := st, evt := e } := by
  unfold trySyntonise
  extract_lets l
  split
  · exact ⟨.syntonised, h.links[n].evt.raise LinkState.syntonised.evtBits, (enterLink_links ..).trans (upd_congr rfl)⟩
  · exact ⟨h.links[n].state, h.links[n].evt, (upd_id rfl).symm⟩

/-- The port that has heard a good mark: what it keeps of the mark, of its echo and of the marks before. -/
def Link.markTaken (b : Bytes) (t t0 : Int) (now : Nat) (x : Link) : Link :=
  let seq := BitVec.ofNat 16 (leAt b 2 2)
  let index := leAt b 4 3 % 2 ^ 17
  let missed := match x.rxSeq with
    | some q => (seq - q - 1).toNat
    | none => 0
  let y := { (((x.takeLag seq (leAt b 8 4)).takeArrival seq t).takeLoop seq t) with cntMark := satAdd 0xFFFFFFFF x.cntMark missed }
  { y with
    goodMarks := if x.follows? seq index then y.goodMarks + 1 else 1, rxSeq := some seq, rxIndex := index, markWait := some (seq, index, t)
    echoDue := y.echoDue ++ [(seq, t)], mark0 := if index = 0 then some (seq, t0, false) else y.mark0, markAt := now }

theorem Link.takeLag_echoDue (seq : BitVec 16) (lag : Nat) (x : Link) : (x.takeLag seq lag).echoDue = x.echoDue := by
  unfold Link.takeLag
  split
  · split
    · dsimp only
      split <;> split <;> rfl
    · rfl
  · rfl

theorem Link.takeLoop_echoDue (seq : BitVec 16) (t : Int) (x : Link) : (x.takeLoop seq t).echoDue = x.echoDue := by
  unfold Link.takeLoop
  split
  · split <;> rfl
  · rfl

/-- The mark waits for its echo. -/
theorem Link.markTaken_echoDue (b : Bytes) (t t0 : Int) (now : Nat) (x : Link) :
    (x.markTaken b t t0 now).echoDue = x.echoDue ++ [(BitVec.ofNat 16 (leAt b 2 2), t)] :=
  congrArg (· ++ [_]) ((Link.takeLoop_echoDue ..).trans (Link.takeLag_echoDue ..))

theorem takeMark_links (n : Fin 48) (b : Bytes) (st : Stamp) (h : Hub) : ∃ state e, (takeMark n b st h).links = upd h.links n fun x =>
    { x.markTaken b (h.lineStamp (laneOfRx n) st) (h.dom0Stamp (laneOfRx n) st) h.clk.cycles with
      peerHoldover := (byteAt b 1).getLsbD 1, peerUntrusted := (byteAt b 1).getLsbD 0, state, evt := e } := by
  obtain ⟨e, he⟩ := peerTrust_links n ((byteAt b 1).getLsbD 0) (peerHolds n ((byteAt b 1).getLsbD 1)
    (h.onLink n (Link.markTaken b (h.lineStamp (laneOfRx n) st) (h.dom0Stamp (laneOfRx n) st) h.clk.cycles)))
  obtain ⟨state, e', hs⟩ := trySyntonise_links n (peerTrust n ((byteAt b 1).getLsbD 0) (peerHolds n ((byteAt b 1).getLsbD 1)
    (h.onLink n (Link.markTaken b (h.lineStamp (laneOfRx n) st) (h.dom0Stamp (laneOfRx n) st) h.clk.cycles))))
  refine ⟨state, e', hs.trans ?_⟩
  rw [he, peerHolds, Hub.onLink_links, Hub.onLink_links, upd_upd, upd_upd, upd_upd]

/-- What the turnaround in a TECHO does not touch of its port. -/
theorem Link.takeTa_same (b : Bytes) (t : Int) (x : Link) : (x.takeTa b t).state = x.state ∧ (x.takeTa b t).windowed = x.windowed ∧
    (x.takeTa b t).departs = x.departs := by
  unfold Link.takeTa
  split
  · split <;> exact ⟨rfl, rfl, rfl⟩
  · exact ⟨rfl, rfl, rfl⟩

/-- The port with its first round trip. -/
def Link.ranged (seq : BitVec 16) (rt t : Int) (x : Link) : Link :=
  { x with rtPred := some rt, windowed := true, missRun := 0, echoed := some seq, rtWait := some (seq, rt, t), lastRt := rt }

theorem takeEcho_first {n : Fin 48} {b : Bytes} {st : Stamp} {h : Hub} {p : BitVec 16 × Int} (hs : h.links[n].state = .syntonised)
    (hw : h.links[n].windowed = false) (hp : (h.links[n].departs.find? fun p => p.1 == BitVec.ofNat 16 (leAt b 2 2)) = some p)
    (h0 : 0 ≤ h.lineStamp (laneOfRx n) st - p.2) (h1 : h.lineStamp (laneOfRx n) st - p.2 ≤ rtMax) :
    (takeEcho n b st h).links = upd h.links n fun x => ((x.takeTa b (h.lineStamp (laneOfRx n) st)).ranged
      (BitVec.ofNat 16 (leAt b 2 2)) (h.lineStamp (laneOfRx n) st - p.2) (h.lineStamp (laneOfRx n) st)).entered .ranging := by
  obtain ⟨t1, t2, t3⟩ := Link.takeTa_same b (h.lineStamp (laneOfRx n) st) h.links[n]
  have hslot : (h.onLink n fun l => l.takeTa b (h.lineStamp (laneOfRx n) st)).links[n] =
      h.links[n].takeTa b (h.lineStamp (laneOfRx n) st) := Hub.onLink_same ..
  unfold takeEcho
  extract_lets seq t g l
  have hl : l = h.links[n].takeTa b (h.lineStamp (laneOfRx n) st) := hslot
  have hsl : l.state = .syntonised := by rw [hl]; exact t1.trans hs
  have hwl : l.windowed = false := by rw [hl]; exact t2.trans hw
  have hdl : (l.departs.find? fun p => p.1 == seq) = some p := by rw [hl, t3]; exact hp
  rw [hdl]
  dsimp only
  rw [hsl, hwl]
  simp only [LinkState.synced, Bool.not_true, Bool.false_eq_true, if_false]
  rw [decide_eq_true h0, decide_eq_true h1, Bool.and_self, if_pos rfl, beq_self_eq_true, if_pos rfl, enterLink_links, Hub.onLink_links,
    Hub.onLink_links, upd_upd, upd_upd]
  rfl

/-- Entering a state sets its bit in LNK_EVT. -/
theorem Link.entered_bit {st : LinkState} {i : Nat} (hb : st.evtBits = bit16 i) (hi : i < 16) (x : Link) :
    (x.entered st).evt.bits.getLsbD i = true := by
  rw [Link.entered, hb]
  exact Evt.raise_bit16 _ hi

theorem takeTod_links (n : Fin 48) (b : Bytes) (h : Hub) : ∃ good e, (takeTod n b h).links = upd h.links n fun x => { x with
    todGood := good, todSecs := some (fld (BitVec.ofNat 128 (leAt b 8 16)) 80 48), todSeq := BitVec.ofNat 16 (leAt b 2 2)
    peerTod := BitVec.ofNat 128 (leAt b 8 16), peerTe := leAt b 4 4, peerHoldover := (byteAt b 1).getLsbD 1
    peerUntrusted := (byteAt b 1).getLsbD 0, evt := e } := by
  unfold takeTod
  extract_lets fl time secs g
  obtain ⟨e, he⟩ := peerTrust_links n (fl.getLsbD 0) (peerHolds n (fl.getLsbD 1) g)
  refine ⟨if h.links[n].todSecs = some (secs - 1) ∧ 0 < secs then h.links[n].todGood + 1 else 1, e, he.trans ?_⟩
  rw [peerHolds, Hub.onLink_links, Hub.onLink_links, upd_upd, upd_upd]
  exact upd_congr rfl

/-- What a STAT frame says of the peer, and that the known delays keep. -/
structure Link.StatTaken (b : Bytes) (x y : Link) : Prop where
  seen : y.statSeen = true
  addr : y.peerAddr = BitVec.ofNat 12 (leAt b 2 2)
  nonce : y.peerNonce = BitVec.ofNat 16 (leAt b 6 2)
  loopback : y.loopback = (BitVec.ofNat 16 (leAt b 6 2) == x.nonce)
  dtx : y.peerDtx = leAt b 8 4
  drx : y.peerDrx = leAt b 12 4

theorem Link.StatTaken.delaysShifted {b : Bytes} {x y : Link} (p : x.StatTaken b y) (i j k : Int) : x.StatTaken b (y.delaysShifted i j k) := by
  obtain ⟨h1, h2, h3, h4, h5, h6⟩ := p
  unfold Link.delaysShifted
  split <;> exact ⟨h1, h2, h3, h4, h5, h6⟩

theorem takeStat_links (n : Fin 48) (b : Bytes) (h : Hub) : ∃ y, h.links[n].StatTaken b y ∧
    (takeStat n b h).links = upd h.links n fun _ => y := by
  unfold takeStat
  extract_lets fl ha nonce l dt dr now g g2
  have hg : ∃ y, h.links[n].StatTaken b y ∧ g.links = upd h.links n fun _ => y := by
    have hupd : ∃ F : Link → Link, g.links = upd h.links n F ∧ h.links[n].StatTaken b (F h.links[n]) := by
      refine ⟨_, Hub.onLink_links .., ?_⟩
      refine ⟨rfl, rfl, rfl, ?_, rfl, rfl⟩
      change (nonce == (if _ then _ else _ : Link).nonce) = _
      split <;> rfl
    obtain ⟨F, hF, hstat⟩ := hupd
    exact ⟨F h.links[n], hstat, hF.trans (upd_congr rfl)⟩
  have hg2 : ∃ y, h.links[n].StatTaken b y ∧ g2.links = upd h.links n fun _ => y := by
    obtain ⟨y, hy, he⟩ := hg
    by_cases hseen : l.statSeen = true
    · refine ⟨y.delaysShifted (dt + dr) dt 0, hy.delaysShifted .., ?_⟩
      rw [show g2 = shiftDelays n (dt + dr) dt 0 g from if_pos hseen, shiftDelays_links, he, upd_upd]
    · exact ⟨y, hy, (congrArg Hub.links (if_neg hseen)).trans he⟩
  obtain ⟨y, ⟨h1, h2, h3, h4, h5, h6⟩, he⟩ := hg2
  obtain ⟨e1, ht⟩ := peerTrust_links n (fl.getLsbD 0) g2
  obtain ⟨st, e2, hs⟩ := trySyntonise_links n (checkLoop n (peerTrust n (fl.getLsbD 0) g2))
  rw [checkLoop_links, ht, he, upd_upd, upd_upd] at hs
  exact ⟨{ y with peerUntrusted := fl.getLsbD 0, state := st, evt := e2 }, ⟨h1, h2, h3, h4, h5, h6⟩, hs⟩

theorem badFrame_links (n : Fin 48) (h : Hub) : (badFrame n h).links = upd h.links n fun x => { x with cntCrc := satInc32 x.cntCrc } := rfl

end Sys2Proof.Machine

namespace Sys2Proof

open Machine

/-- What each receiving command does of a frame that is its own. -/
theorem frame_received {n : Fin 48} {x : Line} {st : Stamp} {c : Instr} {type : Byte} {s : State}
    (hc : c = .tmarkReceived n x st ∧ type = 0x51 ∨ c = .techoReceived n x st ∧ type = 0x52 ∨ c = .todFrameReceived n x ∧ type = 0x53 ∨
      c = .mgmtSegmentReceived n x ∧ type = 0x54 ∨ c = .statFrameReceived n x ∧ type = 0x55) :
    ∃ (f : Bytes → Hub → Hub) (g : Hub → Hub), (∀ s, exec c s = run (fun h => takeFrame n type x f (g h)) s) ∧ (g s.toHub).links = s.links ∧
      (g s.toHub).receives n = s.receives n := by
  rcases hc with ⟨rfl, rfl⟩ | ⟨rfl, rfl⟩ | ⟨rfl, rfl⟩ | ⟨rfl, rfl⟩ | ⟨rfl, rfl⟩
  · exact ⟨fun b h => notePair (laneOfRx n) st (takeMark n b st h), advanceTo st.cyc, fun _ => rfl, advanceTo_links .., advanceTo_receives ..⟩
  · exact ⟨fun b h => notePair (laneOfRx n) st (takeEcho n b st h), advanceTo st.cyc, fun _ => rfl, advanceTo_links .., advanceTo_receives ..⟩
  · exact ⟨takeTod n, id, fun _ => rfl, rfl, rfl⟩
  · exact ⟨takeSegment n, id, fun _ => rfl, rfl, rfl⟩
  · exact ⟨takeStat n, id, fun _ => rfl, rfl, rfl⟩

/-- Settles O19: the frames that leave carry what R235 gives, a received frame's blocks give its bytes back, and each good frame is one
update of its port. -/
theorem timingFrames : Obligations.TimingFrames := by
  unfold Obligations.TimingFrames
  refine ⟨fun s n st h lag dep hr hs hh hdep ha hfree => ⟨fun hlag hlow hecho hprev => ?mark, fun seq arr rest hdue hta => ?echo⟩,
    fun s n hr hs hd hf => ?stat, fun before b h8 hne hf => lineBytes_lineOf h8 hne hf,
    fun s n x b st h hr hh hx hc => ⟨fun ht => ?markIn, fun p rt ht hst hw hp hrt h0 h1 => ?echoIn, fun ht => ?todIn, fun ht => ?statIn⟩,
    fun s n x st c type hr hc => ⟨fun hbad => ?bad, fun b hx hcrc ht => ?other⟩⟩
  case mark =>
    subst hh
    have heff := tmarkSend_leaves hr ha hs hdep hlag hlow hfree hecho hprev
    obtain ⟨e, hlinks⟩ := tmarkSent_links n st lag dep (advanceTo st.cyc s.toHub)
    have hwire := tmarkSent_wire n st lag dep (advanceTo st.cyc s.toHub)
    have hbytes : (advanceTo st.cyc s.toHub).links = s.links := advanceTo_links ..
    rw [Hub.markBytes, hbytes] at hwire
    rw [hbytes] at hlinks
    refine ⟨_, exec_run (fun _ => rfl) heff, ?_⟩
    simp only [notePair_links, notePair_wire, hlinks]
    exact ⟨upd_field Link.txSeq .., upd_field Link.prevMark .., upd_field Link.prevLag .., fun j hj => upd_other _ _ _ _ hj, hwire⟩
  case echo =>
    subst hh
    have heff := techoSend_leaves hr ha hs hdep hfree hdue hta
    refine ⟨_, exec_run (fun _ => rfl) heff, ?_⟩
    simp only [notePair_links, notePair_wire, Hub.onLink_links, Hub.onLink_wire, sendFrame_links, sendFrame_wire, advanceTo_links,
      advanceTo_wire, upd_upd]
    refine ⟨upd_field Link.echoDue .., upd_field Link.prevEcho .., fun j hj => upd_other _ _ _ _ hj, fun hn => ?_, fun p ta at' hp hle => ?_⟩
    · rw [Link.echoBytes, hn]
    · rw [Link.echoBytes, hp]
      dsimp only
      rw [if_pos hle]
  case stat =>
    refine ⟨_, exec_run (fun _ => rfl) (statFrameSend_due hr hs hd hf), ?_⟩
    simp only [checkLoop_links, checkLoop_wire, Hub.onLink_links, Hub.onLink_wire, sendFrame_links, sendFrame_wire, upd_upd]
    exact ⟨trivial, upd_field Link.statDue .., fun j hj => upd_other _ _ _ _ hj⟩
  case markIn =>
    subst hh
    obtain ⟨state, e, hlinks⟩ := takeMark_links n b st (advanceTo st.cyc s.toHub)
    refine ⟨_, exec_run (fun _ => rfl) (takeFrame_good (f := fun b h => notePair (laneOfRx n) st (takeMark n b st h))
      ((advanceTo_receives st.cyc n s.toHub).trans hr) hx hc ht), ?_⟩
    simp only [notePair_links, hlinks, advanceTo_links]
    exact ⟨(upd_field Link.echoDue ..).trans (Link.markTaken_echoDue b _ ((advanceTo st.cyc s.toHub).dom0Stamp (laneOfRx n) st)
      (advanceTo st.cyc s.toHub).clk.cycles _), upd_field Link.rxSeq .., upd_field Link.peerUntrusted ..,
      upd_field Link.peerHoldover .., fun j hj => upd_other _ _ _ _ hj⟩
  case echoIn =>
    subst hh hrt
    have hg : (advanceTo st.cyc s.toHub).links = s.links := advanceTo_links ..
    have hlinks := takeEcho_first (n := n) (b := b) (st := st) (h := advanceTo st.cyc s.toHub) (p := p) (by rw [hg]; exact hst)
      (by rw [hg]; exact hw) (by rw [hg]; exact hp) h0 h1
    rw [hg] at hlinks
    refine ⟨_, exec_run (fun _ => rfl) (takeFrame_good (f := fun b h => notePair (laneOfRx n) st (takeEcho n b st h))
      ((advanceTo_receives st.cyc n s.toHub).trans hr) hx hc ht), ?_⟩
    simp only [notePair_links, hlinks]
    refine ⟨upd_field Link.state .., upd_field Link.rtPred .., upd_field Link.windowed .., ?_, fun j hj => upd_other _ _ _ _ hj⟩
    exact (upd_field (fun x : Link => x.evt.bits.getLsbD 3) ..).trans (Link.entered_bit (by decide) (by decide) _)
  case todIn =>
    obtain ⟨good, e, hlinks⟩ := takeTod_links n b s.toHub
    refine ⟨_, exec_run (fun _ => rfl) (takeFrame_good hr hx hc ht), ?_⟩
    simp only [hlinks]
    exact ⟨upd_field Link.todSecs .., upd_field Link.peerTe .., upd_field Link.todSeq .., upd_field Link.peerUntrusted ..,
      fun j hj => upd_other _ _ _ _ hj⟩
  case statIn =>
    obtain ⟨y, ⟨h1, h2, h3, h4, h5, h6⟩, hlinks⟩ := takeStat_links n b s.toHub
    have hslot : (takeStat n b s.toHub).links[n] = y := by rw [hlinks]; exact upd_same ..
    refine ⟨_, exec_run (fun _ => rfl) (takeFrame_good hr hx hc ht), ?_⟩
    rw [hslot]
    exact ⟨h1, h2, h3, h4, h5, h6, fun j hj => by rw [hlinks]; exact upd_other _ _ _ _ hj⟩
  case bad =>
    obtain ⟨f, g, he, hlinks, hrec⟩ := frame_received (s := s) hc
    refine ⟨_, exec_run he (takeFrame_bad (hrec.trans hr) hbad), ?_⟩
    simp only [badFrame_links, hlinks]
    exact ⟨upd_same .., fun j hj => upd_other _ _ _ _ hj⟩
  case other =>
    obtain ⟨f, g, he, hlinks, hrec⟩ := frame_received (s := s) hc
    exact ⟨_, exec_run he (takeFrame_other (hrec.trans hr) hx hcrc ht), hlinks⟩

end Sys2Proof
end

section
/-!
SUPPORT. Management segments of a link port, and the events that move its state (R242, R243, R247 to R251).
-/

set_option Elab.async false

namespace Sys2Proof.Machine

/-! ## Management segments (R247 to R249) -/

theorem mgmtSegmentSend_first {n : Fin 48} {h : Hub} {x : MgmtTx} {rest : List MgmtTx} (hr : h.runs = true) (ht : h.links[n].tx = x :: rest)
    (hl : x.sent < x.segs.length) (hs : h.links[n].sends = true) (ho : h.links[n].mgmtOpen = true) (hd : h.links[n].statDue = false)
    (hf : h.lineFree n (3 + ((x.segs.getD x.sent []).length + 7) / 8) = true) (hu : unacked h.links[n].tx < 32)
    (hc : (x.segs.getD x.sent []).length ≤ h.links[n].creditNow h.clk.cycles) : ∃ a : Link → Nat, mgmtSegmentSend n h =
      (sendFrame n h.nomFu (mgmtFrame x x.sent) h).onLink n fun l =>
        { l with
          ackAt := a l, tx := l.tx.set 0 { x with sent := x.sent + 1, high := max x.high (x.sent + 1) }
          cntMgmt := if x.sent < x.high then satInc32 l.cntMgmt else l.cntMgmt
          credit := h.links[n].creditNow h.clk.cycles - (x.segs.getD x.sent []).length, creditAt := h.clk.cycles } := by
  refine ⟨fun l => if unacked l.tx = 0 then h.clk.cycles else l.ackAt, ?_⟩
  have hfind : (h.links[n].tx.findIdx? fun t => decide (t.sent < t.segs.length)) = some 0 := by
    rw [ht, List.findIdx?_cons, decide_eq_true hl]
    rfl
  have hget : h.links[n].tx[0]? = some x := by rw [ht]; rfl
  unfold mgmtSegmentSend
  dsimp only
  rw [hfind]
  dsimp only
  rw [hget]
  dsimp only
  rw [hr, hs, ho, hd, hf, decide_eq_true hu, decide_eq_true hc]
  rfl

theorem mgmtResendTimeout_due {n : Fin 48} {h g : Hub} (hr : h.runs = true) (ho : h.links[n].mgmtOpen = true)
    (hu : 0 < unacked h.links[n].tx) (hg : reachCyc (h.links[n].ackAt + 3 * tickCycles) h = some g) : mgmtResendTimeout n h =
      g.onLink n fun x => { x with tx := x.tx.map fun t => { t with sent := t.acked }, ackAt := g.clk.cycles } := by
  unfold mgmtResendTimeout
  dsimp only
  rw [hr, ho, decide_eq_true hu, Bool.and_self, Bool.and_self, when_true, atCyc_of_reach hg]

theorem mgmtMessageTimeout_due {n : Fin 48} {h g : Hub} (hr : h.runs = true) (hx : h.links[n].rx.isSome = true)
    (hg : reachCyc (h.links[n].rxAt + 100 * tickCycles) h = some g) :
    mgmtMessageTimeout n h = g.onLink n fun x => { x with rx := none } := by
  unfold mgmtMessageTimeout
  dsimp only
  rw [hr, hx, Bool.and_self, when_true, atCyc_of_reach hg]

section
variable {n : Fin 48} {b : Bytes} {h : Hub} (ho : h.links[n].mgmtOpen = true)
include ho

/-- The first segment of a message that has more. -/
theorem takeSegment_first (hl : leAt b 2 2 % 512 = 256) (hfirst : (byteAt b 1).getLsbD 0 = true) (hlast : (byteAt b 1).getLsbD 1 = false)
    (hs : leAt b 10 2 = 0) (hi : h.links[n].inOrder (BitVec.ofNat 16 (leAt b 8 2)) 0 = true) : takeSegment n b h =
      h.onLink n fun x => { x with
        ackMsg := BitVec.ofNat 16 (leAt b 8 2), ackSeg := 0, ackLast := false
        rx := some (BitVec.ofNat 12 (leAt b 4 2), BitVec.ofNat 12 (leAt b 6 2), BitVec.ofNat 16 (leAt b 8 2), [slice b 16 256])
        rxAt := h.clk.cycles } := by
  unfold takeSegment
  dsimp only
  rw [hl, hfirst, hlast, hs, hi, ho]
  rfl

/-- The next segment of the message under way. -/
theorem takeSegment_next {m : BitVec 12 × BitVec 12 × BitVec 16 × List Bytes} (hl : leAt b 2 2 % 512 = 256)
    (hfirst : (byteAt b 1).getLsbD 0 = false) (hlast : (byteAt b 1).getLsbD 1 = false) (hs : 0 < leAt b 10 2) (hs' : leAt b 10 2 < 64)
    (hi : h.links[n].inOrder (BitVec.ofNat 16 (leAt b 8 2)) (leAt b 10 2) = true) (hm : h.links[n].rx = some m) : takeSegment n b h =
      h.onLink n fun x => { x with
        ackMsg := BitVec.ofNat 16 (leAt b 8 2), ackSeg := BitVec.ofNat 16 (leAt b 10 2), ackLast := false
        rx := some (m.1, m.2.1, m.2.2.1, m.2.2.2 ++ [slice b 16 256]) } := by
  have h0 : leAt b 10 2 ≠ 0 := Nat.pos_iff_ne_zero.mp hs
  have h0' : (leAt b 10 2 == 0) = false := beq_eq_false_iff_ne.mpr h0
  unfold takeSegment
  dsimp only
  rw [hl, hfirst, hlast, hi, ho, hm, decide_eq_true hs', h0']
  simp only [h0, if_false]
  rfl

omit ho in
/-- A segment out of order is discarded. -/
theorem takeSegment_stray (hi : h.links[n].inOrder (BitVec.ofNat 16 (leAt b 8 2)) (leAt b 10 2) = false) : takeSegment n b h = h := by
  unfold takeSegment
  dsimp only
  rw [hi, Bool.and_false, if_neg Bool.false_ne_true]

end

/-! ## The ways up (R242) -/

theorem receiverSignalDetected_runs {n : Fin 48} {h : Hub} (hr : h.runs = true) :
    receiverSignalDetected n h = linkRise n (h.onLink n fun l => { l with signal := true }) := by
  unfold receiverSignalDetected
  rw [hr, when_true]

theorem Link.risen_rises {x : Link} (h : (x.state == .down && x.signal && !x.modAbs && !x.los) = true) : x.risen = x.entered .aligning :=
  if_pos h

/-- A locked port: an Ethernet port is up, and a Ternen port may become SYNTONISED. -/
theorem blockLock_links {n : Fin 48} {h : Hub} (hr : h.runs = true) (hs : h.links[n].state = .aligning) :
    (h.links[n].eth = true → (blockLock n h).links =
      upd h.links n fun x => Link.entered .ethUp { x with blockLock := true, prevEcho := none }) ∧
    (h.links[n].eth = false → blockLock n h = trySyntonise n (h.onLink n fun x => { x with blockLock := true, prevEcho := none })) := by
  have heff : blockLock n h = if h.links[n].eth = true then
      ptpLink n (enterLink n .ethUp (h.onLink n fun x => { x with blockLock := true, prevEcho := none }))
      else trySyntonise n (h.onLink n fun x => { x with blockLock := true, prevEcho := none }) := by
    unfold blockLock
    dsimp only
    rw [hr, hs, beq_self_eq_true, Bool.and_self, if_pos rfl]
  refine ⟨fun he => ?_, fun he => ?_⟩
  · rw [heff, if_pos he, ptpLink_links, enterLink_links, Hub.onLink_links, upd_upd]
  · rw [heff, he, if_neg Bool.false_ne_true]

theorem trySyntonise_waits {n : Fin 48} {h : Hub} (hg : h.links[n].goodMarks < 1000) : trySyntonise n h = h := by
  unfold trySyntonise
  dsimp only
  rw [decide_eq_false (Nat.not_le.mpr hg), Bool.and_false, Bool.false_and, if_neg Bool.false_ne_true]

/-! ## The ways down (R243) -/

/-- The three losses: to which state, with which cause, from which hub. -/
theorem linkLoss_drops {n : Fin 48} {h : Hub} {c : Instr} {st : LinkState} {cause : Nat} (hr : h.runs = true)
    (hlit : h.links[n].state.lit = true)
    (hc : c = .blockLockLost n ∧ h.links[n].blockLock = true ∧ h.links[n].state ≠ .aligning ∧ st = .aligning ∧ cause = 2 ∨
      c = .receiverSignalLost n ∧ st = .down ∧ cause = 1 ∨
      c = .marksMissingTimeout n ∧ h.links[n].state.synced = true ∧ (reachCyc (h.links[n].markAt + 45000) h).isSome = true ∧
        st = .aligning ∧ cause = 3) :
    ∃ (eff : Hub → Hub) (g : Hub) (sig lock : Link → Bool), (∀ s, exec c s = run eff s) ∧
      eff h = (dropTo n st cause g).onLink n (fun x => { x with blockLock := lock x }) ∧
      g.links = upd h.links n (fun x => { x with signal := sig x }) ∧ g.top = h.top ∧ g.flt = h.flt := by
  have hid : ∀ g : Hub, g.onLink n (fun x => { x with blockLock := x.blockLock }) = g := fun g => by
    unfold Hub.onLink
    rw [upd_id rfl]
  rcases hc with ⟨rfl, hb, hna, rfl, rfl⟩ | ⟨rfl, rfl, rfl⟩ | ⟨rfl, hsync, hreach, rfl, rfl⟩
  · refine ⟨blockLockLost n, h, Link.signal, Link.blockLock, fun _ => rfl, ?_, (upd_id rfl).symm, rfl, rfl⟩
    have hna' : (h.links[n].state == LinkState.aligning) = false := beq_eq_false_iff_ne.mpr hna
    rw [hid]
    unfold blockLockLost
    dsimp only
    rw [hr, hb, hna', hlit, when_true]
    rfl
  · refine ⟨receiverSignalLost n, h.onLink n fun l => { l with signal := false }, fun _ => false, Link.blockLock, fun _ => rfl, ?_, rfl, rfl, rfl⟩
    have hlit' : (h.onLink n fun l => { l with signal := false }).links[n].state.lit = true := by
      rw [Hub.onLink_same]
      exact hlit
    rw [hid]
    unfold receiverSignalLost
    rw [hr, when_true]
    exact if_pos hlit'
  · obtain ⟨g, hg⟩ := Option.isSome_iff_exists.mp hreach
    obtain ⟨m, rfl⟩ := reachCyc_advanceTo hg
    refine ⟨marksMissingTimeout n, advanceTo m h, Link.signal, fun _ => (advanceTo m h).links[n].blockLock, fun _ => rfl, ?_,
      (advanceTo_links ..).trans (upd_id rfl).symm, advanceTo_top .., advanceTo_flt ..⟩
    unfold marksMissingTimeout
    rw [hr, hsync, Bool.and_self, when_true, atCyc_of_reach hg]

/-- Whatever follows, what the collector has is still in front of its queue. -/
def Collects (h t : Hub) : Prop := h.flt.queue <+: t.flt.queue

theorem Collects.of_eq {h t : Hub} (e : t.flt.queue = h.flt.queue) : Collects h t := by
  unfold Collects
  rw [e]

theorem Collects.trans {a b c : Hub} (p : Collects a b) (q : Collects b c) : Collects a c := List.IsPrefix.trans p q

theorem forEach_collects {α : Type} (l : List α) {f : α → Hub → Hub} (hf : ∀ a g, Collects g (f a g)) (h : Hub) :
    Collects h (forEach l f h) := by
  induction l generalizing h with
  | nil => exact .of_eq rfl
  | cons a l ih => exact (hf a h).trans (ih (f a h))

theorem sendFault_collects (src : Nat) (k : Kind) (acc ms ad : Nat) (h : Hub) : Collects h (sendFault src k acc ms ad h) := by
  unfold sendFault
  split
  · split
    · exact List.prefix_append ..
    · refine .of_eq ?_
      rw [raiseFlt_irqIf, irqIf_flt]
      rfl
  · exact .of_eq rfl

/-- What changes neither queue nor lost leaves the queue. -/
theorem Only.queue {A : Touch} {h t : Hub} (o : Only A h t) (hc : .collector ∉ A.parts) : t.flt.queue = h.flt.queue :=
  congrArg (·.1) (o.collector.resolve_left hc)

theorem slotLost_collects (s : Fin 12) (c : Nat) (h : Hub) : Collects h (slotLost s c h) := by
  have habsent : ∀ more, (toAbsent s more h).flt.queue = h.flt.queue := fun more => (toAbsent_only s h more).queue (by simp)
  unfold slotLost
  split
  · exact .of_eq rfl
  · exact .of_eq (habsent 0)
  · exact .of_eq (habsent 0)
  · exact (Collects.of_eq (t := (toAbsent s (bit16 4) h).onRef s _) (habsent _)).trans (sendFault_collects ..)

theorem lrefsLost_collects (n : Fin 48) (c : Nat) (h : Hub) : Collects h (lrefsLost n c h) :=
  forEach_collects _ (fun s g => slotLost_collects s c g) h

theorem ptpLink_collects (n : Fin 48) (h : Hub) : Collects h (ptpLink n h) := by
  unfold ptpLink
  extract_lets l p slave st g
  have hg : Collects h g := .of_eq rfl
  split
  · exact hg.trans (lrefsLost_collects ..)
  · exact hg

theorem enterLink_queue (n : Fin 48) (st : LinkState) (h : Hub) : (enterLink n st h).flt.queue = h.flt.queue :=
  (enterLink_kept (A := { parts := [.msix, .hier, .bus], links := any }) (fun _ hp => hp) trivial (.refl h)).only.queue (by simp)

/-- The way out of TIMED, up to its message. -/
theorem alphaSettled_only (n : Fin 48) (h : Hub) :
    Only { parts := [.cplRings, .msix, .books, .runs, .counters, .profile, .shimEvt, .bus], links := any } h
      (raiseLnk n (bit16 5) (bumpCounter (16 + n) (settleAlpha n h))) := by
  have c : Touch.has { parts := [.cplRings, .msix, .books, .runs, .counters, .profile, .shimEvt, .bus], links := any }
    [.cplRings, .msix, .books, .runs, .counters, .profile, .shimEvt, .bus] := fun _ hp => hp
  exact (raiseLnk_kept (c.of rfl) trivial (bumpCounter_kept (c.of rfl) (settleAlpha_kept (c.of rfl) trivial (.refl h)))).only

/-- The message that a port out of TIMED sends: the newest of the queue, before what the loss of its slots sends. -/
theorem leaveTimed_message {n : Fin 48} {c : Nat} {h : Hub} (hr : h.runs = true) (hq : h.flt.queue.length < 64) :
    ∃ m, m.msg = faultMsg (srcLink n) .linkDown accNone mInternal c ∧ h.flt.queue ++ [m] <+: (leaveTimed n (some c) h).flt.queue := by
  have honly := alphaSettled_only n h
  obtain ⟨m, hm, hmsg⟩ := sendFault_enters (srcLink n) .linkDown accNone mInternal c
    (g := raiseLnk n (bit16 5) (bumpCounter (16 + n) (settleAlpha n h))) (h := h) (honly.eq_top (by simp) (by simp))
    (honly.eq_flt (by simp) (by simp) (by simp)) hr hq
  refine ⟨m, hmsg, ?_⟩
  rw [← hm]
  exact lrefsLost_collects n (if some c = some 3 then 1 else 11) _

theorem dropTo_message {n : Fin 48} {st : LinkState} {c : Nat} {h : Hub} (hr : h.runs = true) (hq : h.flt.queue.length < 64)
    (ht : h.links[n].state = .timed) :
    ∃ m, m.msg = faultMsg (srcLink n) .linkDown accNone mInternal c ∧ h.flt.queue ++ [m] <+: (dropTo n st c h).flt.queue := by
  obtain ⟨m, hmsg, hm⟩ := leaveTimed_message (n := n) (c := c) hr hq
  refine ⟨m, hmsg, hm.trans ?_⟩
  have hfall : fallTo n st (some c) h = enterLink n st (leaveTimed n (some c) h) := by
    unfold fallTo
    dsimp only
    rw [ht, beq_self_eq_true, if_pos rfl]
  have henter : Collects (leaveTimed n (some c) h) (fallTo n st (some c) h) := by
    rw [hfall]
    exact .of_eq (enterLink_queue ..)
  exact henter.trans ((Collects.of_eq rfl).trans (ptpLink_collects n ((fallTo n st (some c) h).onLink n _)))

/-- A port that has been dropped. -/
theorem Link.dropped_fields (st : LinkState) (x : Link) : (x.dropped st).state = st ∧ (x.dropped st).fs = [] ∧
    (x.dropped st).windowed = false ∧ (x.dropped st).goodMarks = 0 := ⟨rfl, rfl, rfl, rfl⟩

theorem Link.dropped_left {st : LinkState} {x : Link} (ht : x.state = .timed) : (x.dropped st).evt.bits.getLsbD 5 = true := by
  have he : (x.dropped st).evt = (x.evt.raise (bit16 5)).raise st.evtBits := by
    unfold Link.dropped Link.fallen
    rw [ht, beq_self_eq_true, if_pos rfl]
    rfl
  rw [he]
  exact Evt.raise_keeps _ _ (Evt.raise_bit16 _ (by decide))

/-! ## Missing echoes (R237) -/

/-- The port with one more echo missing. -/
def Link.echoMissed (seq : BitVec 16) (x : Link) : Link := { x.noteEcho seq with missRun := x.missRun + 1 }

/-- The coarse phase begun again. -/
def Link.coarse (x : Link) : Link :=
  let y := { x with windowed := false, rtPred := none, missRun := 0, echoed := none }
  if y.state == .timed then y.fallen .ranging else y

theorem coarseAgain_stays {n : Fin 48} {h : Hub} (hm : h.links[n].missRun < 64) : coarseAgain n h = h := if_neg (Nat.not_le.mpr hm)

theorem coarseAgain_links {n : Fin 48} {h : Hub} (hm : 64 ≤ h.links[n].missRun) : (coarseAgain n h).links = upd h.links n Link.coarse := by
  have hslot : (h.onLink n fun l => { l with windowed := false, rtPred := none, missRun := 0, echoed := none }).links[n].state =
      h.links[n].state := upd_field Link.state ..
  unfold coarseAgain
  rw [if_pos hm]
  dsimp only
  rw [hslot]
  split
  case isTrue ht =>
    rw [fallTo_links, Hub.onLink_links, upd_upd]
    exact upd_congr (if_pos ht).symm
  case isFalse ht =>
    refine (Hub.onLink_links ..).trans (upd_congr ?_)
    exact (if_neg ht).symm

theorem Link.coarse_fields (x : Link) : x.coarse.windowed = false ∧ x.coarse.rtPred = none ∧ x.coarse.missRun = 0 ∧
    (x.state = .timed → x.coarse.state = .ranging) := by
  unfold Link.coarse Link.fallen
  dsimp only
  split
  · exact ⟨rfl, rfl, rfl, fun _ => rfl⟩
  case isFalse ht => exact ⟨rfl, rfl, rfl, fun h => absurd (beq_iff_eq.mpr h) ht⟩

theorem Link.noteEcho_same (seq : BitVec 16) (x : Link) : (x.noteEcho seq).state = x.state ∧ (x.noteEcho seq).missRun = x.missRun := by
  unfold Link.noteEcho
  split <;> exact ⟨rfl, rfl⟩

theorem echoMissing_due {n : Fin 48} {h g : Hub} {pred dep : Int} {seq : BitVec 16} (hr : h.runs = true) (ht : h.links[n].ternen = true)
    (hw : h.links[n].windowed = true) (hs : h.links[n].state.synced = true) (hp : h.links[n].rtPred = some pred)
    (hwait : h.links[n].waitsFor = some (seq, dep)) (hg : reachNom (dep + pred + echoWindow + 1) h = some g) :
    echoMissing n h = coarseAgain n (g.onLink n (Link.echoMissed seq)) := by
  unfold echoMissing
  dsimp only
  rw [hw, if_pos rfl, hp, hwait]
  dsimp only
  rw [hr, ht, hs, Bool.and_self, Bool.and_self, if_pos rfl, hg]
  rfl

/-! ## The sideband and the modules (R250, R251) -/

/-- What the sideband scan keeps of a port's inputs. -/
structure Link.SameSideband (x y : Link) : Prop where
  rawLos : y.rawLos = x.rawLos
  rawFault : y.rawFault = x.rawFault
  rawAbs : y.rawAbs = x.rawAbs
  los : y.los = x.los
  txFault : y.txFault = x.txFault
  modAbs : y.modAbs = x.modAbs

theorem Link.SameSideband.trans {x y z : Link} (p : x.SameSideband y) (q : y.SameSideband z) : x.SameSideband z :=
  ⟨q.1.trans p.1, q.2.trans p.2, q.3.trans p.3, q.4.trans p.4, q.5.trans p.5, q.6.trans p.6⟩

theorem Link.SameSideband.refl (x : Link) : x.SameSideband x := ⟨rfl, rfl, rfl, rfl, rfl, rfl⟩

theorem Link.raised_sideband (b : BitVec 16) (x : Link) : x.SameSideband (x.raised b) := ⟨rfl, rfl, rfl, rfl, rfl, rfl⟩

theorem Link.risen_sideband (x : Link) : x.SameSideband x.risen := by
  unfold Link.risen
  split <;> exact ⟨rfl, rfl, rfl, rfl, rfl, rfl⟩

theorem Link.dropped_sideband (st : LinkState) (x : Link) : x.SameSideband (x.dropped st) := by
  unfold Link.dropped Link.fallen
  split <;> exact ⟨rfl, rfl, rfl, rfl, rfl, rfl⟩

/-- The port with the inputs of one scan: those change that two scans agree on. -/
def Link.scanned (los fault absent : Bool) (x : Link) : Link :=
  { x with
    rawLos := los, rawFault := fault, rawAbs := absent, los := if los == x.rawLos then los else x.los
    txFault := if fault == x.rawFault then fault else x.txFault, modAbs := if absent == x.rawAbs then absent else x.modAbs }

/-- From h to t one port has changed, and not in what the scan keeps of its inputs. -/
def KeepsSideband (n : Fin 48) (h t : Hub) : Prop := h.links[n].SameSideband t.links[n] ∧ ∀ j, j ≠ n → t.links[j] = h.links[j]

theorem KeepsSideband.refl (n : Fin 48) (h : Hub) : KeepsSideband n h h := ⟨.refl _, fun _ _ => rfl⟩

theorem KeepsSideband.trans {n : Fin 48} {a b c : Hub} (p : KeepsSideband n a b) (q : KeepsSideband n b c) : KeepsSideband n a c :=
  ⟨p.1.trans q.1, fun j hj => (q.2 j hj).trans (p.2 j hj)⟩

theorem KeepsSideband.of_upd {n : Fin 48} {h t : Hub} {f : Link → Link} (e : t.links = upd h.links n f)
    (hf : ∀ x : Link, x.SameSideband (f x)) : KeepsSideband n h t := by
  refine ⟨?_, fun j hj => by rw [e]; exact upd_other _ _ _ _ hj⟩
  have hslot : t.links[n] = f h.links[n] := by rw [e]; exact upd_same ..
  rw [hslot]
  exact hf _

theorem KeepsSideband.of_eq {n : Fin 48} {h t : Hub} (e : t.links = h.links) : KeepsSideband n h t :=
  .of_upd (f := id) (e.trans (upd_id rfl).symm) Link.SameSideband.refl

theorem sbxPort_links (n : Fin 48) (los fault absent : Bool) (h : Hub) :
    (h.links[n].scanned los fault absent).SameSideband (sbxPort n los fault absent h).links[n] ∧
      ∀ j, j ≠ n → (sbxPort n los fault absent h).links[j] = h.links[j] := by
  unfold sbxPort
  extract_lets l los' fault' abs' g1 g2 g3
  have h1 : g1.links = upd h.links n (Link.scanned los fault absent) := (Hub.onLink_links ..).trans (upd_congr rfl)
  have h2 : KeepsSideband n g1 g2 := by
    by_cases hc : (abs' != l.modAbs) = true
    · exact .of_upd ((congrArg Hub.links (if_pos hc)).trans (raiseLnk_links ..)) (Link.raised_sideband _)
    · exact .of_eq (congrArg Hub.links (if_neg hc))
  have h3 : KeepsSideband n g2 g3 := by
    by_cases hc : (fault' && !l.txFault && l.state != LinkState.off) = true
    · exact .of_upd ((congrArg Hub.links (if_pos hc)).trans ((sendFault_links ..).trans (raiseLnk_links ..))) (Link.raised_sideband _)
    · exact .of_eq (congrArg Hub.links (if_neg hc))
  have h4 : KeepsSideband n g3 (if ((los' || abs') && l.state.lit) = true then dropTo n .down 1 g3 else linkRise n g3) := by
    split
    · exact .of_upd (dropTo_links ..) (Link.dropped_sideband _)
    · exact .of_upd (linkRise_links ..) Link.risen_sideband
  obtain ⟨hs, ho⟩ := (h2.trans h3).trans h4
  have hslot : g1.links[n] = h.links[n].scanned los fault absent := by rw [h1]; exact upd_same ..
  rw [hslot] at hs
  refine ⟨hs, fun j hj => (ho j hj).trans ?_⟩
  rw [h1]
  exact upd_other _ _ _ _ hj

/-- Of things done in a row that each change one port of their own, each port shows its own. -/
theorem forEach_links_at {α : Type} {idx : α → Fin 48} {f : α → Hub → Hub} (hf : ∀ a g j, j ≠ idx a → (f a g).links[j] = g.links[j])
    {l : List α} (hn : (l.map idx).Nodup) {a : α} (ha : a ∈ l) (h : Hub) :
    ∃ g, g.links[idx a] = h.links[idx a] ∧ (forEach l f h).links[idx a] = (f a g).links[idx a] := by
  induction l generalizing h with
  | nil => cases ha
  | cons b l ih =>
    obtain ⟨hb, hl⟩ := List.nodup_cons.mp hn
    rcases List.mem_cons.mp ha with rfl | hal
    · have hrest : ∀ (m : List α) (g : Hub), (∀ c ∈ m, idx a ≠ idx c) → (forEach m f g).links[idx a] = g.links[idx a] := by
        intro m
        induction m with
        | nil => exact fun _ _ => rfl
        | cons c m ihm =>
          intro g hm
          exact (ihm (f c g) fun d hd => hm d (List.mem_cons_of_mem _ hd)).trans (hf c g _ (hm c (List.mem_cons_self ..)))
      exact ⟨h, rfl, hrest l (f a h) fun c hc he => hb (he ▸ List.mem_map_of_mem hc)⟩
    · have hne : idx a ≠ idx b := fun he => hb (he ▸ List.mem_map_of_mem hal)
      obtain ⟨g, hg, he⟩ := ih hl hal (f b h)
      exact ⟨g, hg.trans (hf b h _ hne), he⟩

/-- Each port of a chain is scanned once. -/
theorem sbxScan_links {c : Fin 4} {bits : BitVec 48} {h : Hub} {n : Fin 48} {p : Fin 12} (hr : h.runs = true) (hn : n.val = 12 * c.val + p.val) :
    (h.links[n].scanned (bits.getLsbD (4 * p)) (bits.getLsbD (4 * p + 1)) (bits.getLsbD (4 * p + 2))).SameSideband
      (sbxScan c bits h).links[n] := by
  have hlt : 12 * c.val + p.val < 48 := by omega
  obtain rfl : n = ⟨12 * c.val + p.val, hlt⟩ := Fin.ext hn
  have heff : sbxScan c bits h = forEach (allFin 12) (fun (p : Fin 12) h =>
      sbxPort ⟨12 * c.val + p.val, by omega⟩ (bits.getLsbD (4 * p)) (bits.getLsbD (4 * p + 1)) (bits.getLsbD (4 * p + 2)) h) h := by
    unfold sbxScan
    rw [hr, when_true]
  have hnodup : ((allFin 12).map fun p : Fin 12 => (⟨12 * c.val + p.val, by omega⟩ : Fin 48)).Nodup := by
    refine List.Nodup.map (fun a b hab => ?_) (List.nodup_finRange 12)
    have := congrArg Fin.val hab
    exact Fin.ext (by simp only at this; omega)
  obtain ⟨g, hg, he⟩ := forEach_links_at (idx := fun p : Fin 12 => (⟨12 * c.val + p.val, by omega⟩ : Fin 48))
    (f := fun (p : Fin 12) h =>
      sbxPort ⟨12 * c.val + p.val, by omega⟩ (bits.getLsbD (4 * p)) (bits.getLsbD (4 * p + 1)) (bits.getLsbD (4 * p + 2)) h)
    (fun a g j hj => (sbxPort_links _ _ _ _ g).2 j hj) hnodup (List.mem_finRange p) h
  have hs := (sbxPort_links ⟨12 * c.val + p.val, by omega⟩ (bits.getLsbD (4 * p)) (bits.getLsbD (4 * p + 1)) (bits.getLsbD (4 * p + 2)) g).1
  rw [heff]
  exact (he.symm ▸ hg ▸ hs : Link.SameSideband _ _)

theorem i2cModulePoll_failed {n : Fin 48} {dev : Fin 2} {h : Hub} (hr : h.runs = true) (hp : pb h.links[n].cfg 1 4 = true) :
    i2cModulePoll n dev none h = raiseLnk n (bit16 10) h := by
  simp only [i2cModulePoll, hr, hp, Bool.and_self, if_true]

theorem i2cModulePoll_a0 {n : Fin 48} {b : Bytes} {h : Hub} (hr : h.runs = true) (hp : pb h.links[n].cfg 1 4 = true) :
    i2cModulePoll n 0 (some b) h = h.onLink n fun l => { l with modA0 := slice b 0 256 } := by
  simp only [i2cModulePoll, hr, hp, Bool.and_self, if_true]

theorem i2cModulePoll_a2 {n : Fin 48} {b : Bytes} {h : Hub} (hr : h.runs = true) (hp : pb h.links[n].cfg 1 4 = true) :
    i2cModulePoll n 1 (some b) h =
      h.onLink n fun l => { l with modA2 := List.replicate 96 0 ++ slice b 0 16 ++ List.replicate 144 0 } := by
  simp only [i2cModulePoll, hr, hp, Bool.and_self, if_true, Fin.reduceEq, if_false]

theorem slice_length (b : Bytes) (o n : Nat) : (slice b o n).length = n := by
  simp only [slice, List.length_append, List.length_replicate, List.length_take]
  omega

end Sys2Proof.Machine

namespace Sys2Proof

open Machine

/-- Settles O20: a segment that leaves, a wait that ends and a segment that is taken are one update of the port each. -/
theorem managementSegments : Obligations.ManagementSegments := by
  unfold Obligations.ManagementSegments
  refine ⟨fun s n x rest hr ht hl hs ho hd hf hu hc => ?send, fun s n h hr ho hu hg => ?resend, fun s n h hr hx hg => ?forget,
    fun s n x b id hr hx hcrc ht ho hid => ⟨fun hl hfirst hlast hseg hi => ?first, fun m hl hfirst hlast h0 h64 hi hm => ?next,
      fun hi => ?stray⟩⟩
  case send =>
    obtain ⟨a, heff⟩ := mgmtSegmentSend_first hr ht hl hs ho hd hf hu hc
    refine ⟨_, exec_run (fun _ => rfl) heff, ?_⟩
    simp only [Hub.onLink_links, Hub.onLink_wire, sendFrame_links, sendFrame_wire, upd_upd]
    refine ⟨trivial, ?_, upd_field Link.cntMgmt .., fun j hj => upd_other _ _ _ _ hj⟩
    refine (upd_field Link.tx ..).trans ?_
    exact congrArg (List.set · 0 _) ht
  case resend =>
    obtain ⟨m, rfl⟩ := reachCyc_advanceTo hg
    refine ⟨_, exec_run (fun _ => rfl) (mgmtResendTimeout_due hr ho hu hg), ?_⟩
    simp only [Hub.onLink_links, advanceTo_links]
    exact ⟨upd_same .., fun j hj => upd_other _ _ _ _ hj⟩
  case forget =>
    obtain ⟨m, rfl⟩ := reachCyc_advanceTo hg
    refine ⟨_, exec_run (fun _ => rfl) (mgmtMessageTimeout_due hr hx hg), ?_⟩
    simp only [Hub.onLink_links, advanceTo_links]
    exact ⟨upd_same .., fun j hj => upd_other _ _ _ _ hj⟩
  case first =>
    subst hid
    refine ⟨_, exec_run (fun _ => rfl) ((takeFrame_good hr hx hcrc ht).trans (takeSegment_first ho hl hfirst hlast hseg hi)), ?_⟩
    exact ⟨Hub.onLink_same .., fun j hj => Hub.onLink_other hj ..⟩
  case next =>
    subst hid
    refine ⟨_, exec_run (fun _ => rfl) ((takeFrame_good hr hx hcrc ht).trans (takeSegment_next ho hl hfirst hlast h0 h64 hi hm)), ?_⟩
    exact ⟨Hub.onLink_same .., fun j hj => Hub.onLink_other hj ..⟩
  case stray =>
    subst hid
    exact exec_run (fun _ => rfl) ((takeFrame_good hr hx hcrc ht).trans (takeSegment_stray hi))

/-- Settles O21: each event moves the state of its port, and of no other. -/
theorem linkStates : Obligations.LinkStates := by
  unfold Obligations.LinkStates
  refine ⟨fun s n hr => ⟨fun hs ha hl => ?signal, fun hs => ?lock, fun c st cause hlit hc => ?loss⟩,
    fun s n pred dep seq h hr ht hw hs hp hwait hg => ?echo, fun s c p n bits hr hn => ?scan,
    fun s n hr hp => ⟨fun b => ?a0, fun b => ?a2, fun dev => ?failed⟩⟩
  case signal =>
    have hrise : (linkRise n (s.onLink n fun l => { l with signal := true })).links =
        upd s.links n fun x => Link.risen { x with signal := true } := by rw [linkRise_links, Hub.onLink_links, upd_upd]
    have hslot : (linkRise n (s.onLink n fun l => { l with signal := true })).links[n] =
        Link.entered .aligning { s.links[n] with signal := true } := by
      rw [hrise]
      refine (upd_same ..).trans (Link.risen_rises ?_)
      change (s.links[n].state == .down && true && !s.links[n].modAbs && !s.links[n].los) = true
      rw [hs, ha, hl]
      rfl
    refine ⟨_, exec_run (fun _ => rfl) (receiverSignalDetected_runs hr), ?_⟩
    rw [hslot]
    refine ⟨rfl, rfl, Link.entered_bit (by decide) (by decide) _, fun j hj => ?_⟩
    rw [hrise]
    exact upd_other _ _ _ _ hj
  case lock =>
    obtain ⟨heth, htern⟩ := blockLock_links hr hs
    refine ⟨_, exec_run (fun _ => rfl) rfl, ?_⟩
    cases he : s.links[n].eth
    case true =>
      rw [heth he]
      exact ⟨upd_field Link.blockLock .., fun j hj => upd_other _ _ _ _ hj, fun _ => upd_field Link.state ..,
          fun h => absurd h.symm Bool.false_ne_true⟩
    case false =>
      rw [htern he]
      obtain ⟨st, e, hlinks⟩ := trySyntonise_links n (s.onLink n fun x => { x with blockLock := true, prevEcho := none })
      rw [Hub.onLink_links, upd_upd] at hlinks
      refine ⟨?_, fun j hj => ?_, fun h => absurd h Bool.false_ne_true, fun _ hgood => ?_⟩
      · rw [hlinks]
        exact upd_field Link.blockLock ..
      · rw [hlinks]
        exact upd_other _ _ _ _ hj
      · have hg' : (s.onLink n fun x => { x with blockLock := true, prevEcho := none }).links[n].goodMarks < 1000 := by
          rw [Hub.onLink_same]
          exact hgood
        rw [trySyntonise_waits hg', Hub.onLink_same]
        exact hs
  case loss =>
    obtain ⟨eff, g, sig, lock, hexec, heff, hg, htop, hflt⟩ := linkLoss_drops hr hlit hc
    have hlinks : ((dropTo n st cause g).onLink n fun x => { x with blockLock := lock x }).links =
        upd s.links n fun x => { (Link.dropped st { x with signal := sig x }) with blockLock := lock (Link.dropped st { x with signal := sig x }) } := by
      rw [Hub.onLink_links, dropTo_links, hg, upd_upd, upd_upd]
    obtain ⟨d1, d2, d3, d4⟩ := Link.dropped_fields st { s.links[n] with signal := sig s.links[n] }
    refine ⟨_, exec_run hexec heff, ?_⟩
    rw [hlinks]
    refine ⟨(upd_field Link.state ..).trans d1, (upd_field Link.fs ..).trans d2, (upd_field Link.windowed ..).trans d3,
      (upd_field Link.goodMarks ..).trans d4, fun j hj => upd_other _ _ _ _ hj, fun ht hq => ⟨?_, ?_⟩⟩
    · exact (upd_field (fun x : Link => x.evt.bits.getLsbD 5) ..).trans (Link.dropped_left ht)
    · have hgt : g.links[n].state = .timed := by
        rw [hg]
        exact (upd_field Link.state ..).trans ht
      obtain ⟨m, hmsg, l, hl⟩ := dropTo_message (n := n) (st := st) (c := cause) ((Hub.runs_congr htop).trans hr) (by rw [hflt]; exact hq) hgt
      refine ⟨m, l, ?_, by rw [hmsg]; rfl, by rw [hmsg]; rfl, by rw [hmsg]; rfl⟩
      rw [hflt, List.append_assoc] at hl
      exact hl.symm
  case echo =>
    have hg' : reachNom (dep + pred + echoWindow + 1) s.toHub = some h := by rw [Int.add_assoc]; exact hg
    obtain ⟨m, rfl⟩ := reachNom_advanceTo hg
    have hslot : ((advanceTo m s.toHub).onLink n (Link.echoMissed seq)).links[n] = s.links[n].echoMissed seq := by
      rw [Hub.onLink_same, advanceTo_links]
    have hmiss : (s.links[n].echoMissed seq).missRun = s.links[n].missRun + 1 := rfl
    refine ⟨_, exec_run (fun _ => rfl) (echoMissing_due hr ht hw hs hp hwait hg'), ?_⟩
    rcases Nat.lt_or_ge s.links[n].missRun 63 with hlow | hhigh
    case inl =>
      rw [coarseAgain_stays (by rw [hslot, hmiss]; omega)]
      refine ⟨fun j hj => ?_, fun _ => hslot, fun hge => absurd hlow (Nat.not_lt.mpr hge)⟩
      exact (Hub.onLink_other hj ..).trans (congrArg (·[j]) (advanceTo_links ..))
    case inr =>
      have hlinks := coarseAgain_links (n := n) (h := (advanceTo m s.toHub).onLink n (Link.echoMissed seq)) (by rw [hslot, hmiss]; omega)
      rw [Hub.onLink_links, advanceTo_links, upd_upd] at hlinks
      obtain ⟨c1, c2, c3, c4⟩ := (s.links[n].echoMissed seq).coarse_fields
      rw [hlinks]
      refine ⟨fun j hj => upd_other _ _ _ _ hj, fun hlt => absurd hhigh (Nat.not_le.mpr hlt), fun _ =>
        ⟨(upd_field Link.windowed ..).trans c1, (upd_field Link.rtPred ..).trans c2, (upd_field Link.missRun ..).trans c3, fun htimed => ?_⟩⟩
      exact (upd_field Link.state ..).trans (c4 ((Link.noteEcho_same ..).1.trans htimed))
  case scan =>
    obtain ⟨h1, h2, h3, h4, h5, h6⟩ := sbxScan_links (bits := bits) hr hn
    refine ⟨_, exec_run (fun _ => rfl) rfl, h1, h2, h3, h4.trans ?_, h5.trans ?_, h6.trans ?_⟩
    · exact if_congr (beq_iff_eq.trans eq_comm) rfl rfl
    · exact if_congr (beq_iff_eq.trans eq_comm) rfl rfl
    · exact if_congr (beq_iff_eq.trans eq_comm) rfl rfl
  case a0 => exact ⟨_, exec_run (fun _ => rfl) (i2cModulePoll_a0 hr hp), Hub.onLink_same ..⟩
  case a2 =>
    refine ⟨_, exec_run (fun _ => rfl) (i2cModulePoll_a2 hr hp), upd_field Link.modA0 .., ?_⟩
    refine (congrArg (fun x : Bytes => (x.drop 96).take 16) (upd_field Link.modA2 s.links n _)).trans ?_
    rw [List.append_assoc, List.drop_left' (List.length_replicate ..), List.take_left' (slice_length ..)]
  case failed =>
    refine ⟨_, exec_run (fun _ => rfl) (i2cModulePoll_failed hr hp), ?_⟩
    dsimp only
    rw [raiseLnk_links]
    exact ⟨upd_field Link.modA0 .., (upd_field (fun x : Link => x.evt.bits.getLsbD 10) ..).trans (Evt.raise_bit16 _ (by decide))⟩

end Sys2Proof
end

section
/-!
SUPPORT. The management group: what sending a message, a role, an address and a row of the table leave of the group's state, and what
the ports of the group have queued (R260 to R271).
-/

set_option Elab.async false

namespace Sys2Proof.Machine

/-! ## Roles and addresses (R260) -/

theorem raiseHier_hier (b : BitVec 16) (h : Hub) : (raiseHier b h).hier = { h.hier with evt := h.hier.evt.raise b } := by
  unfold raiseHier
  rw [irqIf_hier, Hub.onHier_hier]

@[simp] theorem raiseHier_clk (b : BitVec 16) (h : Hub) : (raiseHier b h).clk = h.clk := by
  unfold raiseHier
  rw [irqIf_clk, Hub.onHier_clk]

theorem setRole_same {r : Role} {h : Hub} (hr : h.hier.role = r) : setRole r h = h := if_pos (beq_iff_eq.mpr hr)

theorem setRole_new {r : Role} {h : Hub} (hr : h.hier.role ≠ r) :
    (setRole r h).hier = { h.hier with role := r, evt := h.hier.evt.raise (bit16 0) } := by
  unfold setRole
  rw [if_neg (mt beq_iff_eq.mp hr), raiseHier_hier, Hub.onHier_hier]

/-- A change of role touches the role and HIER_EVT, in which no bit falls. -/
theorem setRole_hier (r : Role) (h : Hub) : ∃ e, (setRole r h).hier = { h.hier with role := r, evt := e } ∧
    ∀ i, h.hier.evt.bits.getLsbD i = true → e.bits.getLsbD i = true := by
  rcases eq_or_ne h.hier.role r with he | hne
  case inl =>
    subst he
    exact ⟨_, by rw [setRole_same rfl], fun _ => id⟩
  case inr => exact ⟨_, setRole_new hne, fun _ => Evt.raise_keeps _ _⟩

theorem setAddr_same {a : BitVec 12} {h : Hub} (ha : h.hier.addr = a) : setAddr a h = h := if_pos ha

theorem setAddr_new {a : BitVec 12} {h : Hub} (ha : h.hier.addr ≠ a) :
    (setAddr a h).hier = { h.hier with addr := a, evt := h.hier.evt.raise (bit16 2) } := by
  unfold setAddr
  rw [if_neg ha, raiseHier_hier, Hub.onHier_hier]

/-- A change of address touches the address and HIER_EVT, in which no bit falls. -/
theorem setAddr_hier (a : BitVec 12) (h : Hub) : ∃ e, (setAddr a h).hier = { h.hier with addr := a, evt := e } ∧
    ∀ i, h.hier.evt.bits.getLsbD i = true → e.bits.getLsbD i = true := by
  rcases eq_or_ne h.hier.addr a with he | hne
  case inl =>
    subst he
    exact ⟨_, by rw [setAddr_same rfl], fun _ => id⟩
  case inr => exact ⟨_, setAddr_new hne, fun _ => Evt.raise_keeps _ _⟩

/-- A part in which only the DESC messages may change leaves the rest of the group's state. -/
theorem Only.hier_but_runs {A : Touch} {h t : Hub} (o : Only A h t) (h1 : .hier ∉ A.parts) (h2 : .hierEvt ∉ A.parts)
    (h4 : ∀ k, ¬A.ptp k) : ∃ rs w, t.hier = { h.hier with runs := rs, runsWait := w } := by
  have e1 := o.hier.resolve_left h1
  have e2 := o.hierEvt.resolve_left h2
  have e3 := o.eq_ptp h4
  refine ⟨t.hier.runs, t.hier.runsWait, ?_⟩
  cases ht : t.hier; cases hh : h.hier
  simp_all [Hier.rest]

/-- A completion changes nothing of the group but the DESC message that it ends a descriptor of. -/
theorem completeWith_hier (id : Nat) (st : Status) (r : BitVec 192) (h : Hub) :
    ∃ rs w, (completeWith id st r h).hier = { h.hier with runs := rs, runsWait := w } :=
  (completeWith_only id st r h).hier_but_runs (by decide) (by decide) fun _ hk => hk

theorem forEach_complete_hier (l : List Nat) (st : Status) (h : Hub) :
    ∃ rs w, (forEach l (fun id => complete id st) h).hier = { h.hier with runs := rs, runsWait := w } := by
  induction l generalizing h with
  | nil => exact ⟨_, _, rfl⟩
  | cons a l ih =>
    obtain ⟨rs, w, he⟩ := ih (complete a st h)
    obtain ⟨rs', w', he'⟩ := completeWith_hier a st 0 h
    exact ⟨rs, w, he.trans (congrArg (fun x : Hier => { x with runs := rs, runsWait := w }) he')⟩

/-! ## Messages of this hub's own (R248, R262) -/

/-- A message takes the next number, and is remembered as seen. -/
theorem originate_hier (kind : Nat) (dst : BitVec 12) (body : Bytes) (h : Hub) :
    ∃ sn dr, (originate kind dst body h).hier = { h.hier with seq := h.hier.seq + 1, seen := sn, drop := dr } := by
  unfold originate
  extract_lets m src g
  have hsend : ∀ (n : Fin 48) (k : Hub), (sendOn n dst src m k).hier = k.hier := by
    intro n k
    unfold sendOn
    split <;> rfl
  split
  case isTrue => exact ⟨_, _, forEach_keeps (F := Hub.hier) hsend ..⟩
  case isFalse =>
    split
    · exact ⟨_, _, hsend ..⟩
    · exact ⟨_, _, rfl⟩

/-- The message that a port queues. -/
def Link.queued (dst src : BitVec 12) (data : Bytes) (l : Link) : Link :=
  { l with tx := l.tx ++ [{ dst, src, id := l.txId, segs := segments 64 data, sent := 0, high := 0, acked := 0 }], txId := l.txId + 1 }

theorem sendOn_open {n : Fin 48} {dst src : BitVec 12} {data : Bytes} {h : Hub} (ho : h.links[n].mgmtOpen = true) :
    sendOn n dst src data h = h.onLink n (Link.queued dst src data) := if_pos ho

theorem sendOn_other {n j : Fin 48} {dst src : BitVec 12} {data : Bytes} {h : Hub} (hj : j ≠ n) :
    (sendOn n dst src data h).links[j] = h.links[j] := by
  unfold sendOn
  split
  · exact Hub.onLink_other hj ..
  · rfl

theorem Hub.mgmtPorts_nodup (h : Hub) : h.mgmtPorts.Nodup := (List.nodup_finRange 48).filter _

theorem Hub.mem_mgmtPorts {h : Hub} {n : Fin 48} (ho : h.links[n].mgmtOpen = true) : n ∈ h.mgmtPorts :=
  List.mem_filter.mpr ⟨List.mem_finRange n, ho⟩

/-- A broadcast stands last on every port of the group. -/
theorem originate_bcast {kind : Nat} {body : Bytes} {h : Hub} {n : Fin 48} (ho : h.links[n].mgmtOpen = true) :
    (originate kind bcast body h).links[n] =
      h.links[n].queued bcast h.hier.addr (mgmtMessage kind 15 h.hier.seq Config.serial body) := by
  unfold originate
  extract_lets m src g
  rw [if_pos rfl]
  have hg : g.links[n].mgmtOpen = true := ho
  obtain ⟨k, hk, he⟩ := forEach_links_at (idx := fun p : Fin 48 => p) (f := fun p => sendOn p bcast src m)
    (fun p k j hj => sendOn_other hj) (by simpa using g.mgmtPorts_nodup) (Hub.mem_mgmtPorts hg) g
  have hk' : k.links[n].mgmtOpen = true := hk ▸ hg
  have hq : (sendOn n bcast src m k).links[n] = k.links[n].queued bcast src m := by
    rw [sendOn_open hk']
    exact Hub.onLink_same ..
  exact he.trans (hq.trans (congrArg (Link.queued bcast src m) hk))

/-- A unicast stands last on the port recorded for its destination. -/
theorem originate_unicast {kind : Nat} {dst : BitVec 12} {body : Bytes} {h : Hub} {n : Fin 48} (hd : dst ≠ bcast)
    (hp : h.hier.portOf dst = some n) (ho : h.links[n].mgmtOpen = true) :
    (originate kind dst body h).links[n] =
      h.links[n].queued dst h.hier.addr (mgmtMessage kind 15 h.hier.seq Config.serial body) := by
  unfold originate
  extract_lets m src g
  have hp' : g.hier.portOf dst = some n := hp
  have hg : g.links[n].mgmtOpen = true := ho
  rw [if_neg hd, hp']
  dsimp only
  rw [sendOn_open hg]
  exact Hub.onLink_same ..

/-- Every port's queue of messages has at most grown at its end. -/
structure TxGrows (h t : Hub) : Prop where
  tx : ∀ n : Fin 48, h.links[n].tx <+: t.links[n].tx

theorem TxGrows.refl (h : Hub) : TxGrows h h := ⟨fun _ => List.prefix_rfl⟩

theorem TxGrows.trans {a b c : Hub} (p : TxGrows a b) (q : TxGrows b c) : TxGrows a c := ⟨fun n => (p.tx n).trans (q.tx n)⟩

theorem TxGrows.of_links {h t : Hub} (e : t.links = h.links) : TxGrows h t :=
  ⟨fun n => (congrArg (fun l : Vector Link 48 => l[n].tx) e) ▸ List.prefix_rfl⟩

theorem TxGrows.forEach {α : Type} {f : α → Hub → Hub} (hf : ∀ a g, TxGrows g (f a g)) (l : List α) (h : Hub) :
    TxGrows h (Machine.forEach l f h) := by
  induction l generalizing h with
  | nil => exact .refl h
  | cons a l ih => exact (hf a h).trans (ih (f a h))

theorem sendOn_grows (n : Fin 48) (dst src : BitVec 12) (data : Bytes) (h : Hub) : TxGrows h (sendOn n dst src data h) := by
  refine ⟨fun j => ?_⟩
  rcases eq_or_ne j n with rfl | hj
  case inr => exact (congrArg Link.tx (sendOn_other hj)) ▸ List.prefix_rfl
  case inl =>
    cases ho : h.links[j].mgmtOpen
    case false =>
      have hsame : sendOn j dst src data h = h := if_neg (by rw [ho]; exact Bool.false_ne_true)
      exact hsame.symm ▸ List.prefix_rfl
    case true =>
      rw [sendOn_open ho, Hub.onLink_same]
      exact List.prefix_append ..

theorem originate_grows (kind : Nat) (dst : BitVec 12) (body : Bytes) (h : Hub) : TxGrows h (originate kind dst body h) := by
  unfold originate
  extract_lets m src g
  have hg : TxGrows h g := .of_links rfl
  split
  case isTrue => exact hg.trans (.forEach (fun n k => sendOn_grows ..) _ _)
  case isFalse =>
    split
    · exact hg.trans (sendOn_grows ..)
    · exact hg.trans (.of_links rfl)

/-! ## ANNOUNCE (R266, R267) -/

/-- An ANNOUNCE is one broadcast; a manager notes its own priority, class and standby with it. -/
theorem announceSend_due {h : Hub} (hr : h.hierRuns = true) (ha : h.announces = true) (hn : h.hier.annNext ≤ h.clk.ms) :
    ∃ p c y, announceSend h = originate 1 bcast ([BitVec.ofNat 8 h.hier.priority, BitVec.ofNat 8 h.hierClass]
        ++ leBytes 2 (if h.hier.role = .manager then h.hier.addr.toNat else 0)
        ++ leBytes 8 (if h.hier.role = .manager then h.nextStandby.toNat else 0) ++ [0, 0, 0, 0])
      (h.onHier fun x => { x with annNext := h.clk.ms + 1000, mgrPrio := p, mgrClass := c, stbySerial := y }) := by
  unfold announceSend
  rw [hr, ha, decide_eq_true hn, Bool.and_self, Bool.and_self, when_true]
  rcases eq_or_ne h.hier.role .manager with hm | hm
  case inl =>
    simp only [hm, beq_self_eq_true, if_true]
    exact ⟨_, _, _, rfl⟩
  case inr =>
    simp only [beq_eq_false_iff_ne.mpr hm, hm, Bool.false_eq_true, if_false]
    exact ⟨_, _, _, rfl⟩

theorem takeInbox_of {kind : Nat} {f : Msg → Hub → Hub} {h : Hub} {m : Msg} {rest : List Msg} (hr : h.hierRuns = true)
    (hi : h.hier.inbox = m :: rest) (hk : msgKind m.data = kind) :
    takeInbox kind f h = f m (h.onHier fun x => { x with inbox := rest }) := by
  unfold takeInbox
  rw [hi]
  dsimp only
  rw [hr, hk, beq_self_eq_true, Bool.and_self, if_pos rfl]

/-- A manager that steps down is a WORKER, with HIER_EVT bit 1, and has no forwards and no table. -/
theorem stepDown_hier {h : Hub} (hm : h.hier.role = .manager) : ∃ e rs w, (stepDown h).hier =
    { h.hier with
      role := .worker, evt := e, fwds := [], scans := [], fixed := [], table := [], answered := [], answeredLast := []
      runs := rs, runsWait := w } ∧ e.bits.getLsbD 1 = true := by
  unfold stepDown
  extract_lets fw sc g g2 g3
  obtain ⟨rs, w, h2⟩ : ∃ rs w, g2.hier = { g.hier with runs := rs, runsWait := w } := by
    have := forEach_complete_hier (fw.map (·.desc)) .aborted g
    rwa [forEach, List.foldl_map] at this
  obtain ⟨rs', w', h3⟩ : ∃ rs w, g3.hier = { g2.hier with runs := rs, runsWait := w } := by
    have := forEach_complete_hier (sc.map (·.1)) .aborted g2
    rwa [forEach, List.foldl_map] at this
  have hrole : (raiseHier (bit16 1) g3).hier.role ≠ .worker := by
    rw [raiseHier_hier, h3, h2]
    change h.hier.role ≠ .worker
    rw [hm]
    decide
  refine ⟨(h.hier.evt.raise (bit16 1)).raise (bit16 0), rs', w', ?_, ?_⟩
  case refine_1 => rw [setRole_new hrole, raiseHier_hier, h3, h2, Hub.onHier_hier]
  case refine_2 => exact Evt.raise_keeps _ _ (Evt.raise_bit16 _ (by decide))

theorem stepDown_clk (h : Hub) : (stepDown h).clk = h.clk :=
  (stepDown_kept (A := { parts := [.cplRings, .msix, .books, .hier, .hierEvt, .runs, .profile, .shimEvt, .bus] })
    (fun _ hp => hp) (.refl h)).only.eq_clk (by decide) (by decide)

/-- What the hub knows of its manager once it follows one. -/
structure Hub.Knows (t : Nat × Nat × BitVec 64) (a : BitVec 12) (ms : Nat) (h : Hub) : Prop where
  serial : h.hier.mgrSerial = t.2.2
  prio : h.hier.mgrPrio = t.1
  addr : h.hier.mgrAddr = a
  ms : h.hier.mgrMs = ms

theorem setManager_knows (t : Nat × Nat × BitVec 64) (a : BitVec 12) (stby : BitVec 64) (h : Hub) :
    (setManager t a stby h).Knows t a h.clk.ms := ⟨rfl, rfl, rfl, rfl⟩

theorem setRole_knows {t : Nat × Nat × BitVec 64} {a : BitVec 12} {ms : Nat} {h : Hub} (k : h.Knows t a ms) (r : Role) :
    (setRole r h).Knows t a ms := by
  obtain ⟨e, he, _⟩ := setRole_hier r h
  constructor <;> rw [he]
  exacts [k.serial, k.prio, k.addr, k.ms]

theorem setRole_inbox (r : Role) (h : Hub) : (setRole r h).hier.inbox = h.hier.inbox := by
  obtain ⟨e, he, _⟩ := setRole_hier r h
  rw [he]

/-- A hub without a manager follows the one that it hears. -/
theorem followManager_none {t : Nat × Nat × BitVec 64} {a : BitVec 12} {stby : BitVec 64} {h : Hub} (hn : h.hier.mgrTuple = none) :
    (followManager t a stby h).Knows t a h.clk.ms ∧ (followManager t a stby h).hier.inbox = h.hier.inbox := by
  have hk := setManager_knows t a stby h
  have hacc : followManager t a stby h = match (setManager t a stby h).hier.role with
      | .unassigned => if (setManager t a stby h).hier.addr = 0 then setManager t a stby h else setRole .worker (setManager t a stby h)
      | .worker => if stby == Config.serial && (setManager t a stby h).hier.capable then setRole .standby (setManager t a stby h)
        else setManager t a stby h
      | .standby => if stby == Config.serial then setManager t a stby h else setRole .worker (setManager t a stby h)
      | .manager | .passive => setManager t a stby h := by
    unfold followManager
    dsimp only
    rw [hn]
    rfl
  have hset : ∀ r, (setRole r (setManager t a stby h)).Knows t a h.clk.ms ∧ (setRole r (setManager t a stby h)).hier.inbox = h.hier.inbox :=
    fun r => ⟨setRole_knows hk r, setRole_inbox ..⟩
  rw [hacc]
  split
  case h_1 => split; exacts [⟨hk, rfl⟩, hset _]
  case h_2 => split; exacts [hset _, ⟨hk, rfl⟩]
  case h_3 => split; exacts [⟨hk, rfl⟩, hset _]
  case h_4 => exact ⟨hk, rfl⟩
  case h_5 => exact ⟨hk, rfl⟩

/-- The tuple that an ANNOUNCE carries. -/
def announcedTuple (m : Msg) : Nat × Nat × BitVec 64 := ((byteAt (msgBody m.data) 0).toNat, (byteAt (msgBody m.data) 1).toNat, msgOrigin m.data)

/-- A MANAGER that hears a lower tuple steps down and knows the new manager. -/
theorem takeAnnounce_lower {m : Msg} {h : Hub} (ha : BitVec.ofNat 12 (leAt (msgBody m.data) 2 2) ≠ 0) (hm : h.hier.role = .manager)
    (hl : tupleLt (announcedTuple m) h.ownTuple = true) :
    (takeAnnounce m h).Knows (announcedTuple m) (BitVec.ofNat 12 (leAt (msgBody m.data) 2 2)) h.clk.ms ∧
    (takeAnnounce m h).hier.inbox = h.hier.inbox ∧ (takeAnnounce m h).hier.role = .worker ∧
    (takeAnnounce m h).hier.evt.bits.getLsbD 1 = true ∧ (takeAnnounce m h).hier.fwds = [] ∧ (takeAnnounce m h).hier.table = [] := by
  unfold takeAnnounce
  extract_lets b t a g
  have hg : g.hier.role = .manager := hm
  have hlow : tupleLt t g.ownTuple = true := hl
  rw [if_neg ha, if_pos (by rw [hg]; rfl), if_pos hlow]
  obtain ⟨e, rs, w, he, h1⟩ := stepDown_hier hg
  have hk := setManager_knows t a (BitVec.ofNat 64 (leAt b 4 8)) (stepDown g)
  have hclk : (stepDown g).clk.ms = h.clk.ms := congrArg Clk.ms (stepDown_clk g)
  rw [hclk] at hk
  refine ⟨hk, ?_⟩
  unfold setManager
  rw [Hub.onHier_hier, he]
  exact ⟨rfl, rfl, h1, rfl, rfl⟩

theorem takeAnnounce_followed {m : Msg} {h : Hub} (ha : BitVec.ofNat 12 (leAt (msgBody m.data) 2 2) ≠ 0) (hm : h.hier.role ≠ .manager)
    (hn : h.hier.mgrTuple = none) :
    (takeAnnounce m h).Knows (announcedTuple m) (BitVec.ofNat 12 (leAt (msgBody m.data) 2 2)) h.clk.ms ∧
    (takeAnnounce m h).hier.inbox = h.hier.inbox := by
  unfold takeAnnounce
  extract_lets b t a g
  have hg : g.hier.role ≠ .manager := hm
  have hnone : g.hier.mgrTuple = none := hn
  have hbr : ¬(g.hier.role == .manager) = true := mt beq_iff_eq.mp hg
  rw [if_neg ha, if_neg hbr]
  obtain ⟨k, hin⟩ := followManager_none (t := t) (a := a) (stby := BitVec.ofNat 64 (leAt b 4 8)) hnone
  exact ⟨⟨k.serial, k.prio, k.addr, k.ms⟩, hin⟩

/-! ## Terms (R267) -/

theorem Hub.lowestFree_empty {h : Hub} (ha : h.hier.addr = 0) (ht : h.hier.table = []) (self : BitVec 64) : h.lowestFree self = some 1 := by
  unfold Hub.lowestFree
  extract_lets used
  have hu : used = [0] := by simp only [used, ha, ht, List.filter_nil, List.map_nil]
  rw [hu, List.range_succ_eq_map, List.find?_cons_of_pos (by decide)]
  rfl

/-- A hub that becomes MANAGER has an empty table and an address. -/
theorem becomeManager_hier {h : Hub} (hr : h.hier.role ≠ .manager) : (becomeManager h).hier.role = .manager ∧
    (becomeManager h).hier.mgrSerial = Config.serial ∧ (becomeManager h).hier.table = [] ∧
    (becomeManager h).hier.evt.bits.getLsbD 0 = true ∧ (h.hier.addr = 0 → (becomeManager h).hier.addr = 1) ∧
    (h.hier.addr ≠ 0 → (becomeManager h).hier.addr = h.hier.addr) := by
  unfold becomeManager
  extract_lets g g2 cls
  have hg2 : ∃ a e, g2.hier = { g.hier with addr := a, evt := e } ∧ (h.hier.addr = 0 → a = 1) ∧ (h.hier.addr ≠ 0 → a = h.hier.addr) := by
    rcases eq_or_ne h.hier.addr 0 with h0 | h0
    case inl =>
      have he : g2 = setAddr 1 g := by
        have hfree : g.lowestFree 0 = some 1 := Hub.lowestFree_empty (h := g) h0 rfl 0
        refine (if_pos h0).trans ?_
        rw [hfree, Option.getD_some]
      obtain ⟨e, hs, _⟩ := setAddr_hier 1 g
      exact ⟨1, e, he ▸ hs, fun _ => rfl, fun hn => absurd h0 hn⟩
    case inr =>
      have he : g2 = g := if_neg h0
      exact ⟨h.hier.addr, g.hier.evt, by rw [he]; rfl, fun hz => absurd hz h0, fun _ => rfl⟩
  obtain ⟨a, e, he, ha1, ha2⟩ := hg2
  have hrole : (g2.onHier fun x => { x with mgrAddr := x.addr, mgrClass := cls }).hier.role ≠ .manager := by
    rw [Hub.onHier_hier, he]
    exact hr
  rw [setRole_new hrole, Hub.onHier_hier, he]
  exact ⟨rfl, rfl, rfl, Evt.raise_bit16 _ (by decide), ha1, ha2⟩

theorem loseManager_hier {h : Hub} (hr : h.hier.role ≠ .unassigned) : (loseManager h).hier.role = .unassigned ∧
    (loseManager h).hier.mgrSerial = 0 ∧ (loseManager h).hier.addr = h.hier.addr ∧ (loseManager h).hier.evt.bits.getLsbD 3 = true ∧
    (loseManager h).hier.evt.bits.getLsbD 0 = true := by
  unfold loseManager
  have hrole : (raiseHier (bit16 3) (h.onHier Hier.forgetManager)).hier.role ≠ .unassigned := by
    rw [raiseHier_hier]
    exact hr
  rw [setRole_new hrole, raiseHier_hier]
  exact ⟨rfl, rfl, rfl, Evt.raise_keeps _ _ (Evt.raise_bit16 _ (by decide)), Evt.raise_bit16 _ (by decide)⟩

theorem Hub.mgrSilent_of {h : Hub} (hd : h.hier.mgrMs + 3000 ≤ h.clk.ms) : h.mgrSilent = true := decide_eq_true hd

theorem managerSilentTimeout_standby {h : Hub} (hr : h.hierRuns = true) (hd : h.hier.mgrMs + 3000 ≤ h.clk.ms) (hs : h.hier.role = .standby) :
    managerSilentTimeout h = if h.hier.capable then becomeManager h else loseManager h := by
  unfold managerSilentTimeout
  dsimp only
  rw [hs, hr, Hub.mgrSilent_of hd]
  rfl

theorem managerSilentTimeout_loses {h : Hub} (hr : h.hierRuns = true) (hd : h.hier.mgrMs + 3000 ≤ h.clk.ms)
    (hs : h.hier.role = .worker ∨ h.hier.role = .passive ∨ h.hier.role = .standby ∧ h.hier.capable = false) :
    managerSilentTimeout h = loseManager h := by
  rcases hs with hs | hs | ⟨hs, hc⟩
  case inr.inr => rw [managerSilentTimeout_standby hr hd hs, hc, if_neg Bool.false_ne_true]
  all_goals
    unfold managerSilentTimeout
    dsimp only
    rw [hs, hr, Hub.mgrSilent_of hd]
    rfl

theorem lowestTupleTimeout_due {h : Hub} {since : Nat} (hr : h.hierRuns = true) (hc : h.hier.capable = true)
    (hl : h.hier.lowSince = some since) (hd : since + 3000 ≤ h.clk.ms)
    (hs : h.hier.role = .unassigned ∨ h.hier.role = .worker ∨ h.hier.role = .standby) : lowestTupleTimeout h = becomeManager h := by
  unfold lowestTupleTimeout
  rw [hr, hc, hl]
  dsimp only
  rw [decide_eq_true hd]
  rcases hs with hs | hs | hs <;> rw [hs] <;> rfl

/-! ## Discovery (R270, R271) -/

/-- What a discovery has set, and what assigning addresses leaves of it. -/
def Hub.discovery (h : Hub) : Nat × BitVec 16 × List (BitVec 64) × List (Nat × Nat × Nat) :=
  (h.hier.discNext, h.hier.scan, h.hier.answered, h.hier.scans)

theorem originate_discovery (kind : Nat) (dst : BitVec 12) (body : Bytes) (h : Hub) : (originate kind dst body h).discovery = h.discovery := by
  obtain ⟨sn, dr, he⟩ := originate_hier kind dst body h
  simp only [Hub.discovery, he]

theorem assignPassive_discovery (h : Hub) : (assignPassive h).discovery = h.discovery := by
  refine forEach_keeps (F := Hub.discovery) (fun r g => ?_) _ h
  split
  · exact originate_discovery ..
  · rfl

theorem sendAssign_grows (serial : BitVec 64) (a : BitVec 12) (h : Hub) : TxGrows h (sendAssign serial a h) := originate_grows ..

theorem assignPassive_grows (h : Hub) : TxGrows h (assignPassive h) := by
  refine .forEach (fun r g => ?_) _ h
  split
  case h_1 a _ =>
    have hput : TxGrows g (putRow { r with addr := a, passive := false, confirmed := false } g) := .of_links rfl
    exact hput.trans (sendAssign_grows ..)
  case h_2 => exact .refl g

theorem discover_discovery (h : Hub) : (discover h).discovery = (h.hier.discNext, h.hier.scan + 1, [], h.hier.scans) :=
  (assignPassive_discovery _).trans (originate_discovery ..)

/-- DISCOVER stands on every port of the group, with the new scan number; ASSIGNs may follow it. -/
theorem discover_sends {h : Hub} {n : Fin 48} (ho : h.links[n].mgmtOpen = true) :
    ∃ x l, (discover h).links[n].tx = h.links[n].tx ++ x :: l ∧ x.dst = 0xFFF ∧
      x.segs = segments 64 (mgmtMessage 2 15 h.hier.seq Config.serial (leBytes 2 (h.hier.scan + 1).toNat ++ List.replicate 6 0)) := by
  unfold discover
  extract_lets g
  have hq := originate_bcast (kind := 2) (body := leBytes 2 g.hier.scan.toNat ++ List.replicate 6 0) (h := g) (n := n) ho
  obtain ⟨l, hl⟩ := (assignPassive_grows (originate 2 bcast (leBytes 2 g.hier.scan.toNat ++ List.replicate 6 0) g)).tx n
  rw [hq] at hl
  exact ⟨_, l, hl.symm.trans (List.append_assoc ..), rfl, rfl⟩

theorem discoverSend_due {h : Hub} (hr : h.hierRuns = true) (hm : h.hier.role = .manager) (hd : h.hier.discNext ≤ h.clk.ms) :
    discoverSend h = discover (h.onHier fun x => { x with discNext := h.clk.ms + 10000 }) := by
  unfold discoverSend
  rw [hr, hm, decide_eq_true hd]
  rfl

theorem reportSend_due {h : Hub} {scan : BitVec 16} {due : Nat} {dst : BitVec 12} {rest : List (BitVec 16 × Nat × BitVec 12)}
    (hr : h.hierRuns = true) (hd : h.hier.reportDue = (scan, due, dst) :: rest) (hms : due ≤ h.clk.ms) :
    reportSend h = originate 3 dst (reportBody h scan) (h.onHier fun x => { x with reportDue := rest }) := by
  unfold reportSend
  rw [hd]
  dsimp only
  rw [hr, decide_eq_true hms, Bool.and_self, if_pos rfl]

/-- The manager's table and the inbox. -/
def Hub.tableInbox (h : Hub) : List HubRow × List Msg := (h.hier.table, h.hier.inbox)

theorem sendAssign_tableInbox (serial : BitVec 64) (a : BitVec 12) (h : Hub) : (sendAssign serial a h).tableInbox = h.tableInbox := by
  obtain ⟨sn, dr, he⟩ := originate_hier 4 bcast (leBytes 8 serial.toNat ++ leBytes 2 a.toNat ++ List.replicate 6 0) h
  unfold sendAssign
  simp only [Hub.tableInbox, he]

theorem refuseAddr_tableInbox (serial : BitVec 64) (h : Hub) : (refuseAddr serial h).tableInbox = h.tableInbox := by
  unfold refuseAddr
  split
  · rfl
  · simp only [Hub.tableInbox, sendFault_hier, raiseHier_hier, Hub.onHier_hier]

theorem setAddr_tableInbox (a : BitVec 12) (h : Hub) : (setAddr a h).tableInbox = h.tableInbox := by
  obtain ⟨e, he, _⟩ := setAddr_hier a h
  simp only [Hub.tableInbox, he]

/-- The row that a REPORT puts into the manager's table: with the address chosen, or passive where none is free. -/
theorem takeReport_row {m : Msg} {h : Hub} (hr : h.hier.role = .manager) :
    (takeReport m h).hier.inbox = h.hier.inbox ∧
    (∀ a, h.chooseAddr (msgOrigin m.data) m.src = some a →
      ∃ r ∈ (takeReport m h).hier.table, r.serial = msgOrigin m.data ∧ r.addr = a ∧ r.passive = false) ∧
    (h.chooseAddr (msgOrigin m.data) m.src = none →
      ∃ r ∈ (takeReport m h).hier.table, r.serial = msgOrigin m.data ∧ r.addr = 0 ∧ r.passive = true) := by
  unfold takeReport
  rw [if_neg (by rw [hr]; decide)]
  extract_lets b serial old g row known
  have hg : g.chooseAddr serial m.src = h.chooseAddr (msgOrigin m.data) m.src := rfl
  rw [hg]
  cases hc : h.chooseAddr (msgOrigin m.data) m.src with
  | none =>
    dsimp -zeta only
    have ht : (sendAssign serial 0 (refuseAddr serial (putRow (row 0 true known) g))).tableInbox = (putRow (row 0 true known) g).tableInbox :=
      (sendAssign_tableInbox ..).trans (refuseAddr_tableInbox ..)
    refine ⟨congrArg Prod.snd ht, fun _ h => (nomatch h), fun _ => ⟨row 0 true known, ?_, rfl, rfl, rfl⟩⟩
    have htab : (sendAssign serial 0 (refuseAddr serial (putRow (row 0 true known) g))).hier.table = (putRow (row 0 true known) g).hier.table :=
      congrArg Prod.fst ht
    rw [htab]
    exact List.mem_cons_self ..
  | some a =>
    dsimp -zeta only
    extract_lets g1 g2 same g3
    have h1 : g1.tableInbox = g.tableInbox := by
      rcases eq_or_ne g.hier.addr a with he | he
      case inl => exact (congrArg Hub.tableInbox (if_pos he)).trans (setAddr_tableInbox ..)
      case inr => exact congrArg Hub.tableInbox (if_neg he)
    have ht : (if same = true then g3 else sendAssign serial a g3).tableInbox = g3.tableInbox := by
      split
      · rfl
      · exact sendAssign_tableInbox ..
    refine ⟨(congrArg Prod.snd ht).trans (congrArg Prod.snd h1), fun c hcc => ⟨row a false same, ?_, rfl, Option.some.inj hcc, rfl⟩,
      fun h => nomatch h⟩
    have htab : (if same = true then g3 else sendAssign serial a g3).hier.table = g3.hier.table := congrArg Prod.fst ht
    rw [htab]
    exact List.mem_cons_self ..

/-- An ASSIGN for this hub gives it its address and, unless it has a role already, one. -/
theorem takeAssign_own {m : Msg} {h : Hub} {a : BitVec 12} (hs : BitVec.ofNat 64 (leAt (msgBody m.data) 0 8) = Config.serial)
    (hr : h.hier.role ≠ .manager) (ha : a = BitVec.ofNat 12 (leAt (msgBody m.data) 8 2)) :
    (takeAssign m h).hier.inbox = h.hier.inbox ∧ (takeAssign m h).hier.addr = a ∧
    (h.hier.addr ≠ a → (takeAssign m h).hier.evt.bits.getLsbD 2 = true) ∧
    (takeAssign m h).hier.role =
        (if a = 0 then .passive else if h.hier.role = .unassigned ∨ h.hier.role = .passive then .worker else h.hier.role) := by
  unfold takeAssign
  extract_lets b a' g
  have haa : a = a' := ha
  rw [if_neg (fun hc => hc.elim (fun hn => hn hs) fun hm => hr (beq_iff_eq.mp hm)), ← haa]
  have hg : ∃ ms e, g.hier = { h.hier with mgrMs := ms, addr := a, evt := e } ∧ (h.hier.addr ≠ a → e.bits.getLsbD 2 = true) := by
    rcases eq_or_ne h.hier.addr a with he | he
    case inl =>
      refine ⟨if h.hier.role == .unassigned then h.clk.ms else h.hier.mgrMs, h.hier.evt,
          (congrArg Hub.hier (setAddr_same (haa ▸ he))).trans ?_, fun hn => absurd he hn⟩
      rw [Hub.onHier_hier, ← he]
    case inr =>
      have hnew := setAddr_new (a := a) (h := h.onHier fun x => { x with mgrMs := if x.role == .unassigned then h.clk.ms else x.mgrMs }) he
      exact ⟨_, _, (congrArg (fun c => (setAddr c _).hier) haa.symm).trans hnew, fun _ => Evt.raise_bit16 _ (by decide)⟩
  obtain ⟨ms, e, hg, he2⟩ := hg
  have hset : ∀ r, (setRole r g).hier.inbox = h.hier.inbox ∧ (setRole r g).hier.addr = a ∧
      (h.hier.addr ≠ a → (setRole r g).hier.evt.bits.getLsbD 2 = true) ∧ (setRole r g).hier.role = r := by
    intro r
    obtain ⟨e', hs', hk⟩ := setRole_hier r g
    rw [hs']
    refine ⟨by rw [hg], by rw [hg], fun hn => hk 2 ?_, rfl⟩
    rw [hg]
    exact he2 hn
  have hrole : g.hier.role = h.hier.role := by rw [hg]
  have hstay : g.hier.inbox = h.hier.inbox ∧ g.hier.addr = a ∧ (h.hier.addr ≠ a → g.hier.evt.bits.getLsbD 2 = true) := by
    rw [hg]
    exact ⟨rfl, rfl, he2⟩
  rcases eq_or_ne a 0 with h0 | h0
  case inl =>
    rw [if_pos h0, if_pos h0]
    exact hset _
  case inr =>
    rw [if_neg h0, if_neg h0, hrole]
    cases hh : h.hier.role
    case manager => exact absurd hh hr
    case unassigned => exact hset _
    case passive => exact hset _
    case worker => exact ⟨hstay.1, hstay.2.1, hstay.2.2, hrole.trans hh⟩
    case standby => exact ⟨hstay.1, hstay.2.1, hstay.2.2, hrole.trans hh⟩

end Sys2Proof.Machine

namespace Sys2Proof

open Machine

/-- Settles O22: each message and each timer of the group is one change of what the hub knows of it. -/
theorem electionAndAddresses : Obligations.ElectionAndAddresses := by
  unfold Obligations.ElectionAndAddresses
  refine ⟨⟨fun s hr ha hn => ?announce, fun s m rest tup hr hi hk ht hna hwho => ?heard⟩,
    fun s hr => ⟨fun hd hs hc => ?succeed, fun hd hs => ?lose, fun since hc hl hd hs => ?lowest⟩,
    fun s hr hm hd => ?discover, fun s m rest hr hi hk => ?asked, fun s scan due dst rest n hr hd hms hb hp ho => ?report,
    fun s m rest hr hi hk hm => ?reported, fun s m rest a hr hi hk hs hm ha => ?assigned⟩
  case announce =>
    obtain ⟨p, c, y, heff⟩ := announceSend_due hr ha hn
    refine ⟨_, exec_run (fun _ => rfl) heff, ?_, ?_, ?_, fun n ho => ?_⟩
    case refine_4 =>
      have hq := originate_bcast (kind := 1) (body := [BitVec.ofNat 8 s.hier.priority, BitVec.ofNat 8 s.hierClass]
          ++ leBytes 2 (if s.hier.role = .manager then s.hier.addr.toNat else 0)
          ++ leBytes 8 (if s.hier.role = .manager then s.nextStandby.toNat else 0) ++ [0, 0, 0, 0])
        (h := s.onHier fun x => { x with annNext := s.clk.ms + 1000, mgrPrio := p, mgrClass := c, stbySerial := y }) (n := n) ho
      exact ⟨_, congrArg Link.tx hq, rfl, rfl, rfl⟩
    all_goals
      obtain ⟨sn, dr, he⟩ := originate_hier 1 bcast ([BitVec.ofNat 8 s.hier.priority, BitVec.ofNat 8 s.hierClass]
          ++ leBytes 2 (if s.hier.role = .manager then s.hier.addr.toNat else 0)
          ++ leBytes 8 (if s.hier.role = .manager then s.nextStandby.toNat else 0) ++ [0, 0, 0, 0])
        (s.onHier fun x => { x with annNext := s.clk.ms + 1000, mgrPrio := p, mgrClass := c, stbySerial := y })
      dsimp only
      rw [he, Hub.onHier_hier]
  case heard =>
    subst ht
    refine ⟨_, exec_run (fun _ => rfl) (takeInbox_of hr hi hk), ?_⟩
    rcases hwho with ⟨hm, hl⟩ | ⟨hm, hn⟩
    case inl =>
      obtain ⟨k, hin, hrole, hev, hfw, htab⟩ := takeAnnounce_lower (h := s.onHier fun x => { x with inbox := rest }) hna hm hl
      exact ⟨hin, k.serial, k.prio, k.addr, k.ms, fun _ => ⟨hrole, hev, hfw, htab⟩⟩
    case inr =>
      obtain ⟨k, hin⟩ := takeAnnounce_followed (h := s.onHier fun x => { x with inbox := rest }) hna hm hn
      exact ⟨hin, k.serial, k.prio, k.addr, k.ms, fun h => absurd h hm⟩
  case succeed =>
    refine ⟨_, exec_run (fun _ => rfl) ((managerSilentTimeout_standby hr hd hs).trans (if_pos hc)), ?_⟩
    exact becomeManager_hier (by rw [hs]; decide)
  case lose =>
    refine ⟨_, exec_run (fun _ => rfl) (managerSilentTimeout_loses hr hd hs), loseManager_hier ?_⟩
    rcases hs with hs | hs | ⟨hs, _⟩ <;> rw [hs] <;> decide
  case lowest =>
    obtain ⟨h1, h2, _⟩ := becomeManager_hier (h := s.toHub) (by rcases hs with hs | hs | hs <;> rw [hs] <;> decide)
    exact ⟨_, exec_run (fun _ => rfl) (lowestTupleTimeout_due hr hc hl hd hs), h1, h2⟩
  case discover =>
    have hdisc := discover_discovery (s.onHier fun x => { x with discNext := s.clk.ms + 10000 })
    refine ⟨_, exec_run (fun _ => rfl) (discoverSend_due hr hm hd), congrArg (·.1) hdisc, congrArg (·.2.1) hdisc,
      congrArg (·.2.2.1) hdisc, fun n ho => ?_⟩
    exact discover_sends (h := s.onHier fun x => { x with discNext := s.clk.ms + 10000 }) ho
  case asked => exact ⟨_, exec_run (fun _ => rfl) (takeInbox_of hr hi hk), rfl, rfl⟩
  case report =>
    obtain ⟨sn, dr, he⟩ := originate_hier 3 dst (reportBody s.toHub scan) (s.onHier fun x => { x with reportDue := rest })
    have hq := originate_unicast (kind := 3) (body := reportBody s.toHub scan) (h := s.onHier fun x => { x with reportDue := rest }) hb hp ho
    refine ⟨_, exec_run (fun _ => rfl) (reportSend_due hr hd hms), congrArg Hier.reportDue he, _, congrArg Link.tx hq, rfl, rfl⟩
  case reported =>
    exact ⟨_, exec_run (fun _ => rfl) (takeInbox_of hr hi hk), takeReport_row (h := s.onHier fun x => { x with inbox := rest }) hm⟩
  case assigned =>
    exact ⟨_, exec_run (fun _ => rfl) (takeInbox_of hr hi hk), takeAssign_own (h := s.onHier fun x => { x with inbox := rest }) hs hm ha⟩

end Sys2Proof
end

section
/-!
SUPPORT. Descriptors of the management group: HIER_FORWARD, DESC and COMPL messages, and HIER_DISCOVER (R275 to R277, R284, R285).
-/

set_option Elab.async false

namespace Sys2Proof.Machine

/-! ## What a change of role leaves -/

theorem raiseHier_only (b : BitVec 16) (h : Hub) : Only { parts := [.msix, .hierEvt, .bus] } h (raiseHier b h) :=
  (raiseHier_kept (fun _ hp => hp) (.refl h)).only

/-- A completion leaves what is not of a DESC message. -/
theorem completeWith_hier_at {α : Type} {F : Hier → α} (hF : ∀ x rs w, F { x with runs := rs, runsWait := w } = F x) (id : Nat) (st : Status)
    (r : BitVec 192) (h : Hub) : F (completeWith id st r h).hier = F h.hier := by
  obtain ⟨rs, w, he⟩ := completeWith_hier id st r h
  rw [he]
  exact hF ..

/-! ## The four places of DESC messages (R276) -/

theorem forEach_cons {α : Type} (a : α) (l : List α) (f : α → Hub → Hub) (h : Hub) : forEach (a :: l) f h = forEach l f (f a h) := rfl

theorem forEach_same {α : Type} {f : α → Hub → Hub} {h : Hub} {l : List α} (hf : ∀ a ∈ l, f a h = h) : forEach l f h = h := by
  induction l with
  | nil => rfl
  | cons a l ih =>
    rw [forEach_cons, hf a (List.mem_cons_self ..)]
    exact ih fun b hb => hf b (List.mem_cons_of_mem _ hb)

/-- A free place takes the oldest message that waits. -/
def startPlace (k : Fin 4) (h : Hub) : Hub :=
  if h.hier.runs[k].isSome then h
  else match h.hier.runsWait with
    | r :: rest => mgrNext k (h.onHier fun x => { x with runs := upd x.runs k fun _ => some r, runsWait := rest })
    | [] => h

theorem startRuns_eq (h : Hub) : startRuns h = forEach (allFin 4) startPlace h := rfl

theorem startPlace_none {k : Fin 4} {h : Hub} (hw : h.hier.runsWait = []) : startPlace k h = h := by
  unfold startPlace
  rw [hw]
  exact ite_self h

theorem startPlace_free {k : Fin 4} {h : Hub} {r : DescRun} {rest : List DescRun} (hk : h.hier.runs[k] = none) (hw : h.hier.runsWait = r :: rest) :
    startPlace k h = mgrNext k (h.onHier fun x => { x with runs := upd x.runs k fun _ => some r, runsWait := rest }) := by
  unfold startPlace
  rw [hk, hw]
  rfl

/-- Without a message that waits none is started. -/
theorem startRuns_none {h : Hub} (hw : h.hier.runsWait = []) : startRuns h = h := forEach_same fun _ _ => startPlace_none hw

/-- With all places taken none is started. -/
theorem startRuns_full {h : Hub} (hf : ∀ k : Fin 4, h.hier.runs[k].isSome = true) : startRuns h = h :=
  forEach_same fun k _ => if_pos (hf k)

/-- A started message keeps its tag and whom it answers; no other waits or starts with it. -/
theorem mgrNext_runs {k : Fin 4} {r : DescRun} {h : Hub} (hr : h.hier.runs[k] = some r) :
    (∃ r', (mgrNext k h).hier.runs[k] = some r' ∧ r'.tag = r.tag ∧ r'.replyTo = r.replyTo) ∧
    (mgrNext k h).hier.runsWait = h.hier.runsWait := by
  unfold mgrNext
  rw [hr]
  dsimp only
  split
  case isTrue => exact ⟨⟨r, hr, rfl, rfl⟩, rfl⟩
  case isFalse =>
    split
    · exact ⟨⟨_, upd_same .., rfl, rfl⟩, rfl⟩
    · exact ⟨⟨_, upd_same .., rfl, rfl⟩, rfl⟩

/-- The only message that waits starts in the first place, when that is free. -/
theorem startRuns_first {h : Hub} {r : DescRun} (hw : h.hier.runsWait = [r]) (h0 : h.hier.runs[(0 : Fin 4)] = none) :
    ∃ r', (startRuns h).hier.runs[(0 : Fin 4)] = some r' ∧ r'.tag = r.tag ∧ r'.replyTo = r.replyTo := by
  obtain ⟨hrun, hwait⟩ := mgrNext_runs (k := 0) (r := r)
    (h := h.onHier fun x => { x with runs := upd x.runs 0 fun _ => some r, runsWait := [] }) (upd_same ..)
  have hstart : startRuns h = mgrNext 0 (h.onHier fun x => { x with runs := upd x.runs 0 fun _ => some r, runsWait := [] }) := by
    have hplaces : allFin 4 = [0, 1, 2, 3] := rfl
    rw [startRuns_eq, hplaces, forEach_cons, startPlace_free h0 hw]
    exact forEach_same fun k _ => startPlace_none hwait
  rw [hstart]
  exact hrun

theorem startRuns_inbox (h : Hub) : (startRuns h).hier.inbox = h.hier.inbox := by
  refine forEach_keeps (F := fun g => g.hier.inbox) (f := startPlace) (fun k g => ?_) _ h
  have o : Only { parts := [.books, .runs] } g (startPlace k g) := by
    have c : Touch.has { parts := [.books, .runs] } [.books, .runs] := fun _ hp => hp
    unfold startPlace
    refine (Kept.ite (.refl g) ?_).only
    split
    · exact mgrNext_kept c (Hub.onHier_kept (runs := .inl (c.mem rfl)) (.refl g))
    · exact .refl g
  obtain ⟨rs, w, he⟩ := o.hier_but_runs (by decide) (by decide) fun _ hk => hk
  rw [he]

/-- The message that a DESC body holds. -/
def descRunOf (m : Msg) : DescRun :=
  { tag := BitVec.ofNat 32 (leAt (msgBody m.data) 0 4), replyTo := m.src
    todo := descWords (leAt (msgBody m.data) 4 2) ((msgBody m.data).drop 16), cur := none, done := [] }

theorem takeDesc_good {m : Msg} {h : Hub} (hp : h.hier.role ≠ .passive) (hc : inRange (leAt (msgBody m.data) 4 2) 1 128 = true)
    (hl : 16 + 64 * leAt (msgBody m.data) 4 2 ≤ (msgBody m.data).length) :
    takeDesc m h = startRuns (h.onHier fun x => { x with runsWait := x.runsWait ++ [descRunOf m] }) := by
  have hlen : decide ((msgBody m.data).length < 16 + 64 * leAt (msgBody m.data) 4 2) = false := decide_eq_false (Nat.not_lt.mpr hl)
  unfold takeDesc
  dsimp only
  rw [beq_eq_false_iff_ne.mpr hp, hc, hlen]
  rfl

/-- The end of the message in the first place frees it. -/
theorem complSend_first {h : Hub} {r : DescRun} (hr : h.hierRuns = true) (h0 : h.hier.runs[(0 : Fin 4)] = some r) (ho : r.over = true)
    (hw : h.hier.runsWait = []) : ∃ sn dr, (complSend h).hier =
      { h.hier with seq := h.hier.seq + 1, seen := sn, drop := dr, runs := upd h.hier.runs 0 fun _ => none } := by
  have hplaces : allFin 4 = [0, 1, 2, 3] := rfl
  unfold complSend
  rw [hplaces, List.find?_cons_of_pos (by rw [h0]; exact ho)]
  dsimp only
  rw [h0]
  dsimp only
  rw [hr, if_pos rfl]
  obtain ⟨sn, dr, he⟩ := originate_hier 6 r.replyTo (leBytes 4 r.tag.toNat ++ leBytes 2 r.done.length ++ List.replicate 10 0
          ++ r.done.flatMap fun c => leBytes 32 c.toNat) h
  refine ⟨sn, dr, ?_⟩
  rw [startRuns_none (by rw [Hub.onHier_hier, he]; exact hw), Hub.onHier_hier, he]

/-! ## COMPL and its timeout (R277) -/

theorem mem_filter_tag {l : List Fwd} {tag : BitVec 32} (x : Fwd) : x ∈ l.filter (fun e => e.tag != tag) ↔ x ∈ l ∧ x.tag ≠ tag := by
  rw [List.mem_filter, bne_iff_ne]

/-- The tag by which a forward has been found is its tag. -/
theorem fwd_tag {l : List Fwd} {tag : BitVec 32} {f : Fwd} (hf : (l.find? fun x => x.tag == tag) = some f) : f.tag = tag := by
  have htag := List.find?_some hf
  exact beq_iff_eq.mp htag

/-- The completions of a COMPL, written to the memory of its HIER_FORWARD. -/
def writeCompls (n : Nat) (a : BitVec 64) (b : Bytes) (h : Hub) : Hub :=
  forEach (List.range n) (fun i => busWrite (a + BitVec.ofNat 64 (32 * i)) (slice b (16 + 32 * i) 32)) h

theorem writeCompls_keeps {β : Type} {F : Hub → β} (hF : ∀ a b h, F (busWrite a b h) = F h) (n : Nat) (a : BitVec 64) (b : Bytes) (h : Hub) :
    F (writeCompls n a b h) = F h := forEach_keeps (F := F) (fun _ _ => hF ..) _ h

theorem takeCompl_found {m : Msg} {f : Fwd} {h : Hub}
    (hf : (h.hier.fwds.find? fun x => x.tag == BitVec.ofNat 32 (leAt (msgBody m.data) 0 4)) = some f) :
    takeCompl m h = completeWith f.desc .ok (resultOf [(0, 16, min (leAt (msgBody m.data) 4 2) f.count), (16, 16, f.dst.toNat),
        (32, 64, (msgOrigin m.data).toNat)])
      (writeCompls (min (leAt (msgBody m.data) 4 2) f.count) f.compl (msgBody m.data)
        (h.onHier fun x => { x with fwds := x.fwds.filter fun e => e.tag != f.tag })) := by
  rw [fwd_tag hf]
  unfold takeCompl
  dsimp only
  rw [hf]
  rfl

theorem hierForwardTimeout_due {tag : BitVec 32} {f : Fwd} {h : Hub} (hr : h.runs = true)
    (hf : (h.hier.fwds.find? fun x => x.tag == tag) = some f) (hd : f.due ≤ h.clk.ms) :
    hierForwardTimeout tag h =
      complete f.desc .timeout (raiseHier (bit16 7) (h.onHier fun x => { x with fwds := x.fwds.filter fun e => e.tag != tag })) := by
  unfold hierForwardTimeout
  rw [hf]
  dsimp only
  rw [hr, decide_eq_true hd, Bool.and_self, when_true]

/-! ## HIER_FORWARD and HIER_DISCOVER (R275, R276, R284, R285) -/

/-- A HIER_FORWARD that is not refused is a pending forward with a new tag. -/
theorem hierForwardEff_good {ws : List DescWord} {d : Desc} {h : Hub} (hb : forwardBad h d.payload = false)
    (ht : (h.hier.table.any fun r => r.addr == BitVec.ofNat 12 (pf d.payload 0 0 12)) = true) (hl : h.hier.fwds.length < 16) :
    ∃ sq sn dr, (hierForwardEff ws d h).hier = { h.hier with
      seq := sq, seen := sn, drop := dr, tag := h.hier.tag + 1
      fwds := h.hier.fwds ++ [{ desc := d.id, tag := h.hier.tag, dst := BitVec.ofNat 12 (pf d.payload 0 0 12), count := pf d.payload 2 0 16
                                compl := BitVec.ofNat 64 (pf d.payload 16 0 64), due := h.clk.ms + pf d.payload 4 0 32 }] } := by
  unfold hierForwardEff
  extract_lets p dst tag count ds g
  have hno : (!(h.hier.table.any fun r => r.addr == dst) || decide (16 ≤ h.hier.fwds.length)) = false := by
    rw [ht, decide_eq_false (Nat.not_le.mpr hl)]
    rfl
  rw [if_neg (by rw [hb]; exact Bool.false_ne_true), if_neg (by rw [hno]; exact Bool.false_ne_true)]
  obtain ⟨sn, dr, he⟩ := originate_hier 5 dst (leBytes 4 tag.toNat ++ leBytes 2 ds.length ++ List.replicate 10 0
    ++ ds.flatMap fun w => leBytes 64 w.toNat) g
  exact ⟨_, sn, dr, he⟩

theorem Hier.capable_false_iff {x : Hier} : x.capable = false ↔ pf x.cfg 1 0 8 = 255 := by
  have hlt : pf x.cfg 1 0 8 < 256 := Nat.mod_lt _ (by decide)
  unfold Hier.capable Hier.priority
  rw [decide_eq_false_iff_not]
  omega

/-- The state in which LOCAL completes. -/
def localTaken (p : Payload) (h : Hub) : Hub :=
  let g := copyWritten 0x1C000 48 (h.onHier fun x => { x with cfg := p })
  if g.hier.role == .standby && !g.hier.capable then setRole .worker g else g

theorem discoverLocalEff_good {d : Desc} {h : Hub} (hp : pf d.payload 2 0 2 ≠ 3) :
    discoverLocalEff d h = complete d.id .ok (localTaken d.payload h) := if_neg hp

theorem localTaken_hier (p : Payload) (h : Hub) : (localTaken p h).hier.cfg = p ∧
    (localTaken p h).hier.role = (if h.hier.role = .standby ∧ pf p 1 0 8 = 255 then .worker else h.hier.role) := by
  unfold localTaken
  extract_lets g
  have hcond : (g.hier.role == Role.standby && !g.hier.capable) = true ↔ h.hier.role = .standby ∧ pf p 1 0 8 = 255 := by
    rw [Bool.and_eq_true, beq_iff_eq, Bool.not_eq_true', Hier.capable_false_iff]
    rfl
  by_cases hc : h.hier.role = .standby ∧ pf p 1 0 8 = 255
  case pos =>
    rw [if_pos (hcond.mpr hc), if_pos hc]
    obtain ⟨e, he, _⟩ := setRole_hier .worker g
    rw [he]
    exact ⟨rfl, rfl⟩
  case neg =>
    rw [if_neg (mt hcond.mp hc), if_neg hc]
    exact ⟨rfl, rfl⟩

theorem localTaken_only (p : Payload) (h : Hub) : Only { parts := [.parity, .msix, .hier, .hierEvt, .bus] } h (localTaken p h) := by
  have c : Touch.has { parts := [.parity, .msix, .hier, .hierEvt, .bus] } [.parity, .msix, .hier, .hierEvt, .bus] := fun _ hp => hp
  unfold localTaken
  extract_lets g
  have hg : Kept { parts := [.parity, .msix, .hier, .hierEvt, .bus] } h g :=
    copyWritten_kept (c.of rfl) (Hub.onHier_kept (hier := .inl (c.mem rfl)) (.refl h))
  exact (Kept.ite (setRole_kept (c.of rfl) hg) hg).only

theorem discoverScanEff_manager {d : Desc} {h : Hub} (hm : h.hier.role = .manager) :
    discoverScanEff d h = discover (h.onHier fun x => { x with scans := x.scans ++ [(d.id, h.clk.ms, 0)] }) := by
  unfold discoverScanEff
  rw [if_neg (by rw [hm]; decide)]

/-- The fixed assignments of the other serials. -/
def Hier.fixedBut (serial : BitVec 64) (x : Hier) : List (BitVec 64 × BitVec 12) := x.fixed.filter fun f => f.1 != serial

theorem mem_fixedBut {serial : BitVec 64} {x : Hier} {f : BitVec 64 × BitVec 12} : f ∈ x.fixedBut serial ↔ f ∈ x.fixed ∧ f.1 ≠ serial := by
  rw [Hier.fixedBut, List.mem_filter, bne_iff_ne]

/-- The fixed assignments after ASSIGN: an address of 0 removes one, another makes one. -/
def Hier.fixedAfter (serial : BitVec 64) (a : BitVec 12) (x : Hier) : List (BitVec 64 × BitVec 12) :=
  if a = 0 then x.fixedBut serial else ((x.fixedBut serial).filter fun f => f.2 != a) ++ [(serial, a)]

theorem discoverAssignEff_manager {d : Desc} {h : Hub} {a : BitVec 12} {serial : BitVec 64} (hm : h.hier.role = .manager)
    (ha : a = BitVec.ofNat 12 (pf d.payload 2 0 12)) (hs : serial = BitVec.ofNat 64 (pf d.payload 8 0 64)) (hb : a ≠ 0xFFF)
    (hl : h.hier.fixed.length < 256) :
    discoverAssignEff d h = complete d.id .ok (h.onHier fun x => { x with fixed := h.hier.fixedAfter serial a }) := by
  subst ha hs
  have hlen : ¬256 ≤ ((h.hier.fixedBut (BitVec.ofNat 64 (pf d.payload 8 0 64))).filter
      fun f => f.2 != BitVec.ofNat 12 (pf d.payload 2 0 12)).length := by
    have h1 := List.length_filter_le (fun f : BitVec 64 × BitVec 12 => f.2 != BitVec.ofNat 12 (pf d.payload 2 0 12))
      (h.hier.fixedBut (BitVec.ofNat 64 (pf d.payload 8 0 64)))
    have h2 : (h.hier.fixedBut (BitVec.ofNat 64 (pf d.payload 8 0 64))).length ≤ h.hier.fixed.length := List.length_filter_le ..
    omega
  unfold discoverAssignEff Hier.fixedAfter
  extract_lets p a serial rest others
  rw [if_neg (show ¬a = bcast from hb), if_neg (by rw [hm]; decide)]
  by_cases h0 : a = 0
  case pos =>
    rw [if_pos h0, if_pos h0]
    rfl
  case neg =>
    rw [if_neg h0, if_neg (show ¬256 ≤ others.length from hlen), if_neg h0]
    rfl

theorem scanComplete_due {h : Hub} {id began fresh : Nat} {rest : List (Nat × Nat × Nat)} (hr : h.runs = true)
    (hs : h.hier.scans = (id, began, fresh) :: rest) (hd : began + 1000 ≤ h.clk.ms) :
    scanComplete h = completeWith id .ok (resultOf [(0, 16, h.hier.addressed), (16, 16, h.hier.passives), (32, 16, fresh)])
      (h.onHier fun x => { x with scans := rest }) := by
  unfold scanComplete
  rw [hs]
  dsimp only
  rw [hr, decide_eq_true hd, Bool.and_self, when_true]

end Sys2Proof.Machine

namespace Sys2Proof

open Machine

/-- Settles O23: a message of the group moves its forward or its place, a descriptor of the group what it names. -/
theorem groupDescriptors : Obligations.GroupDescriptors := by
  unfold Obligations.GroupDescriptors
  refine ⟨⟨fun o ws d s S hop hb ht hl => ?forward, fun s m rest hr hi hk hp hc hl => ?desc, fun s r hr h0 ho hw => ?compl,
      fun s m rest f hr hi hk hf => ?received, fun s tag f hr hf hd => ?timeout⟩,
    fun o d s S hop => ⟨fun hsub hp => ?locally, fun hsub hm => ?scan, fun a serial hsub hm ha hser hb hl => ?assign⟩,
    fun s e began fresh rest q hr hc hi hs hd he ho hx => ?scanned⟩
  case forward =>
    obtain ⟨sq, sn, dr, he⟩ := hierForwardEff_good (ws := ws) (d := d) (h := markApplied d.id s.toHub) hb ht hl
    exact ⟨_, exec_serve S (fun _ => rfl) (isOp_of hop) (by rw [hop]; rfl), congrArg Hier.tag he, congrArg Hier.fwds he⟩
  case desc =>
    refine ⟨_, exec_run (fun _ => rfl) ((takeInbox_of hr hi hk).trans
      (takeDesc_good (h := s.onHier fun x => { x with inbox := rest }) hp hc hl)), ?_, fun hw h0 => ?_, fun hfull => ?_⟩
    · exact startRuns_inbox ..
    · obtain ⟨r, hrun, htag, hto⟩ := startRuns_first (r := descRunOf m)
        (h := (s.onHier fun x => { x with inbox := rest }).onHier fun x => { x with runsWait := x.runsWait ++ [descRunOf m] })
        (congrArg (· ++ [descRunOf m]) hw) h0
      exact ⟨r, hrun, htag, hto⟩
    · dsimp only
      rw [startRuns_full (by exact hfull)]
      exact ⟨rfl, descRunOf m, rfl, rfl⟩
  case compl =>
    obtain ⟨sn, dr, he⟩ := complSend_first hr h0 ho hw
    refine ⟨_, exec_run (fun _ => rfl) rfl, ?_⟩
    dsimp only
    rw [he]
    exact ⟨upd_same .., rfl, fun k hk => upd_other _ _ _ _ hk⟩
  case received =>
    refine ⟨_, exec_run (fun _ => rfl) ((takeInbox_of hr hi hk).trans
      (takeCompl_found (h := s.onHier fun x => { x with inbox := rest }) hf)), ?_, fun x => ?_, fun e q hc hid hde hin ho hx => ?_⟩
    · refine (completeWith_hier_at (F := Hier.inbox) (fun _ _ _ => rfl) ..).trans ?_
      exact writeCompls_keeps (F := fun g => g.hier.inbox) (fun _ _ _ => rfl) ..
    · refine (iff_of_eq (congrArg (x ∈ ·) ?_)).trans (mem_filter_tag x)
      refine (completeWith_hier_at (F := Hier.fwds) (fun _ _ _ => rfl) ..).trans ?_
      exact writeCompls_keeps (F := fun g => g.hier.fwds) (fun _ _ _ => rfl) ..
    · rw [hde]
      refine completeWith_posted_after hc hid hin ho hx ?_ ?_ _ _
      · exact writeCompls_keeps (F := fun g => g.host.inflight) (fun _ _ _ => rfl) ..
      · exact writeCompls_keeps (F := Hub.inCharge) (fun _ _ _ => rfl) ..
  case timeout =>
    refine ⟨_, exec_run (fun _ => rfl) (hierForwardTimeout_due hr hf hd), ?_⟩
    have hg := raiseHier_only (bit16 7) (s.onHier fun x => { x with fwds := x.fwds.filter fun e => e.tag != tag })
    refine ⟨fun x => ?_, ?_, fun e q hc hi hid hin ho hx => ⟨0, ?_⟩⟩
    · dsimp only
      rw [complete, completeWith_hier_at (F := Hier.fwds) fun _ _ _ => rfl, raiseHier_hier]
      exact mem_filter_tag x
    · dsimp only
      rw [complete, completeWith_hier_at (F := Hier.evt) fun _ _ _ => rfl, raiseHier_hier]
      exact Evt.raise_bit16 _ (by decide)
    · rw [hid]
      exact completeWith_posted_after hc hi hin ho hx (hg.inflight (by decide)) (hg.inCharge (by decide)) _ _
  case locally =>
    have hserve := exec_served (c := .hierDiscoverLocal o) S (fun _ => rfl) (isOpSub_of hop (by rw [hsub]; rfl)) (by rw [hop]; rfl)
      (discoverLocalEff_good (h := markApplied d.id s.toHub) hp)
    obtain ⟨h1, h2⟩ := localTaken_hier d.payload (markApplied d.id s.toHub)
    have hg := localTaken_only d.payload (markApplied d.id s.toHub)
    refine ⟨_, hserve, (completeWith_hier_at (F := Hier.cfg) (fun _ _ _ => rfl) ..).trans h1,
      (completeWith_hier_at (F := Hier.role) (fun _ _ _ => rfl) ..).trans h2, ?_⟩
    exact S.answers (g := localTaken d.payload (markApplied d.id s.toHub)) (hg.inflight (by decide)) (hg.inCharge (by decide)) .ok 0
  case scan =>
    have hdisc := discover_discovery ((markApplied d.id s.toHub).onHier fun x => { x with scans := x.scans ++ [(d.id, s.clk.ms, 0)] })
    exact ⟨_, exec_served S (fun _ => rfl) (isOpSub_of hop (by rw [hsub]; rfl)) (by rw [hop]; rfl)
      (discoverScanEff_manager (h := markApplied d.id s.toHub) hm), congrArg (·.2.2.2) hdisc, congrArg (·.2.1) hdisc⟩
  case assign =>
    have hserve := exec_served (c := .hierDiscoverAssign o) S (fun _ => rfl) (isOpSub_of hop (by rw [hsub]; rfl)) (by rw [hop]; rfl)
      (discoverAssignEff_manager (h := markApplied d.id s.toHub) hm ha hser hb hl)
    have hfixed : (complete d.id .ok
        ((markApplied d.id s.toHub).onHier fun x => { x with fixed := s.hier.fixedAfter serial a })).hier.fixed = s.hier.fixedAfter serial a :=
      completeWith_hier_at (F := Hier.fixed) (fun _ _ _ => rfl) ..
    refine ⟨_, hserve, fun h0 x => ?_, fun h0 x => ?_, ?_⟩
    · refine (iff_of_eq (congrArg (x ∈ ·) hfixed)).trans ?_
      exact (iff_of_eq (congrArg (x ∈ ·) (if_pos h0))).trans mem_fixedBut
    · refine (iff_of_eq (congrArg (x ∈ ·) hfixed)).trans ?_
      refine (iff_of_eq (congrArg (x ∈ ·) (if_neg h0))).trans ?_
      rw [List.mem_append, List.mem_singleton, List.mem_filter, bne_iff_ne, mem_fixedBut, or_comm, and_assoc]
    · exact S.answers (g := (markApplied d.id s.toHub).onHier fun x => { x with fixed := s.hier.fixedAfter serial a }) rfl rfl .ok 0
  case scanned =>
    refine ⟨_, exec_run (fun _ => rfl) (scanComplete_due hr hs hd), ?_, ?_⟩
    · exact completeWith_hier_at (F := Hier.scans) (fun _ _ _ => rfl) ..
    · exact completeWith_posted_after (g := s.onHier fun x => { x with scans := rest }) hc hi he ho hx rfl rfl _ _

end Sys2Proof
end

section
/-!
SUPPORT. IEEE 1588 ports and ESMC (R278 to R285): what the choice of the best master and a loss of slots leave of a port, and each event's
update of its port.
-/

set_option Elab.async false

namespace Sys2Proof.Machine

/-! ## What the best master and the losses leave of a port -/

@[simp] theorem Hub.onPtp_same (n : Fin 48) (f : PtpPort → PtpPort) (h : Hub) : (h.onPtp n f).hier.ptp[n] = f h.hier.ptp[n] := by
  rw [Hub.onPtp_hier]
  exact upd_same ..

theorem Hub.onPtp_other {n j : Fin 48} (hj : j ≠ n) (f : PtpPort → PtpPort) (h : Hub) : (h.onPtp n f).hier.ptp[j] = h.hier.ptp[j] := by
  rw [Hub.onPtp_hier]
  exact upd_other _ _ _ _ hj

theorem lrefsLost_ptp (n : Fin 48) (c : Nat) (h : Hub) : (lrefsLost n c h).hier.ptp = h.hier.ptp :=
  (lrefsLost_kept (A := { parts := [.cplRings, .msix, .books, .runs, .profile, .shimEvt, .collector, .fltEvt, .bus], refs := any, doms := any })
    (fun _ hp => hp) every every (.refl h)).only.eq_ptp fun _ hk => hk

theorem esmcHold_ptp (n : Fin 48) (h : Hub) : (esmcHold n h).hier.ptp = h.hier.ptp := by
  unfold esmcHold
  split
  · exact lrefsLost_ptp ..
  · rfl

/-- A change of a port's state leaves its settings and the master that it has heard. -/
theorem ptpState_port (n : Fin 48) (st : PtpState) (h : Hub) (j : Fin 48) : (ptpState n st h).hier.ptp[j].cfg = h.hier.ptp[j].cfg ∧
    (ptpState n st h).hier.ptp[j].best = h.hier.ptp[j].best ∧ (ptpState n st h).hier.ptp[j].annMs = h.hier.ptp[j].annMs := by
  unfold ptpState
  extract_lets was g
  have hg : (if (was == PtpState.slave && st != PtpState.slave) = true then lrefsLost n 11 g else g).hier.ptp = g.hier.ptp := by
    split
    · exact lrefsLost_ptp ..
    · rfl
  rw [hg]
  rcases eq_or_ne j n with rfl | hj
  case inr => rw [Hub.onPtp_other hj]; exact ⟨rfl, rfl, rfl⟩
  case inl =>
    rw [Hub.onPtp_same]
    split <;> exact ⟨rfl, rfl, rfl⟩

/-- The choice of the best master changes no port's settings, nor the master that it has heard. -/
theorem bmca_port (h : Hub) (j : Fin 48) : (bmca h).hier.ptp[j].cfg = h.hier.ptp[j].cfg ∧
    (bmca h).hier.ptp[j].best = h.hier.ptp[j].best ∧ (bmca h).hier.ptp[j].annMs = h.hier.ptp[j].annMs := by
  unfold bmca
  generalize ((allFin 48).map fun n => (n, h.bmcaState n)) = l
  induction l generalizing h with
  | nil => exact ⟨rfl, rfl, rfl⟩
  | cons v l ih =>
    obtain ⟨h1, h2, h3⟩ := ptpState_port v.1 v.2 h j
    obtain ⟨i1, i2, i3⟩ := ih (ptpState v.1 v.2 h)
    exact ⟨i1.trans h1, i2.trans h2, i3.trans h3⟩

theorem ptpLink_cfg (n : Fin 48) (h : Hub) (j : Fin 48) : (ptpLink n h).hier.ptp[j].cfg = h.hier.ptp[j].cfg := by
  unfold ptpLink
  extract_lets l p slave st g
  have hg : (if (slave && st != PtpState.slave) = true then lrefsLost n 11 g else g).hier.ptp = g.hier.ptp := by
    split
    · exact lrefsLost_ptp ..
    · rfl
  rw [hg]
  rcases eq_or_ne j n with rfl | hj
  case inr => rw [Hub.onPtp_other hj]
  case inl =>
    rw [Hub.onPtp_same]
    split <;> rfl

/-! ## HIER_DISCOVER PTP (R284, R285) -/

theorem discoverPtpEff_good {d : Desc} {h : Hub} {n : Fin 48} (hn : pf d.payload 1 0 8 = n.val) (hb : ptpBad d.payload = false) :
    discoverPtpEff d h = complete d.id .ok (copyWritten (0x1C400 + 0x40 * n) 48
      (esmcHold n (bmca (ptpLink n (h.onPtp n fun x => { x with cfg := d.payload }))))) := by
  unfold discoverPtpEff
  dsimp only
  rw [withFin_val hn, if_neg (by rw [hb]; exact Bool.false_ne_true)]

theorem discoverPtpEff_cfg {d : Desc} {h : Hub} {n : Fin 48} (hn : pf d.payload 1 0 8 = n.val) (hb : ptpBad d.payload = false) (j : Fin 48) :
    (discoverPtpEff d h).hier.ptp[j].cfg = (h.onPtp n fun x => { x with cfg := d.payload }).hier.ptp[j].cfg := by
  rw [discoverPtpEff_good hn hb]
  refine (completeWith_hier_at (F := fun x : Hier => x.ptp[j].cfg) (fun _ _ _ => rfl) ..).trans ?_
  rw [copyWritten_hier, esmcHold_ptp, (bmca_port _ j).1, ptpLink_cfg]

/-! ## Event messages (R278, R279) -/

/-- A message of a port, with its transport and domain number. -/
def PtpPort.wireOp (n : Fin 48) (p : PtpPort) (m : PtpSent) : WireOp := .ptp n (pf p.cfg 2 3 2) (pf p.cfg 4 0 8) m

theorem sendPtp_hier (n : Fin 48) (m : PtpSent) (h : Hub) : (sendPtp n m h).hier = h.hier := rfl

section
variable {n : Fin 48} {t : Int} {h : Hub}

theorem ptpEventAt_sync (hm : h.hier.ptp[n].state = .master) : (ptpEventAt n .syncSent t h).hier.ptp[n] = { h.hier.ptp[n] with txStamp := t } ∧
    (ptpEventAt n .syncSent t h).wire = (if h.hier.ptp[n].twoStep = true then [h.hier.ptp[n].wireOp n (.followUp t), h.hier.ptp[n].wireOp n (.sync 0)]
      else [h.hier.ptp[n].wireOp n (.sync t)]) ++ h.wire := by
  unfold ptpEventAt
  dsimp only
  rw [if_pos (beq_iff_eq.mpr hm), Hub.onPtp_same, Hub.onPtp_wire]
  split
  · exact ⟨rfl, rfl⟩
  · exact ⟨rfl, rfl⟩

theorem ptpEventAt_delayReq (hs : h.hier.ptp[n].state = .slave) (hp : h.hier.ptp[n].p2p = false) :
    (ptpEventAt n .delayReqSent t h).wire = h.hier.ptp[n].wireOp n .delayReq :: h.wire ∧
    (ptpEventAt n .delayReqSent t h).hier.ptp[n] = { h.hier.ptp[n] with txStamp := t, reqStamp := some t } := by
  unfold ptpEventAt
  dsimp only
  rw [if_pos (by rw [hs, hp]; rfl), Hub.onPtp_same, Hub.onPtp_same, sendPtp_hier]
  exact ⟨rfl, rfl⟩

theorem ptpEventAt_pdelayReq (hp : h.hier.ptp[n].p2p = true) :
    (ptpEventAt n .pdelayReqSent t h).wire = h.hier.ptp[n].wireOp n .pdelayReq :: h.wire ∧
    (ptpEventAt n .pdelayReqSent t h).hier.ptp[n] = { h.hier.ptp[n] with txStamp := t, reqStamp := some t } := by
  unfold ptpEventAt
  dsimp only
  rw [if_pos hp, Hub.onPtp_same, Hub.onPtp_same, sendPtp_hier]
  exact ⟨rfl, rfl⟩

theorem ptpEventAt_pdelayResp (hp : h.hier.ptp[n].p2p = true) :
    (ptpEventAt n .pdelayRespSent t h).hier.ptp[n] = { h.hier.ptp[n] with txStamp := t } ∧
    (ptpEventAt n .pdelayRespSent t h).wire = (if h.hier.ptp[n].twoStep = true
      then [h.hier.ptp[n].wireOp n (.pdelayFollowUp (t - h.hier.ptp[n].rxStamp)), h.hier.ptp[n].wireOp n (.pdelayResp 0)]
      else [h.hier.ptp[n].wireOp n (.pdelayResp (t - h.hier.ptp[n].rxStamp))]) ++ h.wire := by
  unfold ptpEventAt
  dsimp only
  rw [if_pos hp, Hub.onPtp_same, Hub.onPtp_wire]
  split
  · exact ⟨rfl, rfl⟩
  · exact ⟨rfl, rfl⟩

theorem ptpEventAt_answer {held t1 : Int} (hp : h.hier.ptp[n].p2p = true) (hr : h.hier.ptp[n].reqStamp = some t1) :
    (ptpEventAt n (.pdelayRespReceived held) t h).wire = h.wire ∧ (ptpEventAt n (.pdelayRespReceived held) t h).hier.ptp[n] =
      { h.hier.ptp[n] with path := rdiv (t - t1 - held) 2, pathOk := true, reqStamp := none, rxStamp := t } := by
  unfold ptpEventAt
  dsimp only
  rw [Hub.onPtp_same]
  split
  case h_1 t2 ht =>
    cases ht.symm.trans hr
    rw [if_pos hp, Hub.onPtp_same]
    exact ⟨rfl, rfl⟩
  case h_2 hn => exact nomatch hn.symm.trans hr

theorem ptpEventAt_delayReqReceived : (ptpEventAt n .delayReqReceived t h).hier.ptp[n] = { h.hier.ptp[n] with rxStamp := t } ∧
    (ptpEventAt n .delayReqReceived t h).wire =
      (if h.hier.ptp[n].state = .master ∧ h.hier.ptp[n].p2p = false then [h.hier.ptp[n].wireOp n (.delayResp t)] else []) ++ h.wire := by
  unfold ptpEventAt
  dsimp only
  have hcond : (h.hier.ptp[n].state == PtpState.master && !h.hier.ptp[n].p2p) = true ↔
      h.hier.ptp[n].state = .master ∧ h.hier.ptp[n].p2p = false := by
    rw [Bool.and_eq_true, beq_iff_eq, Bool.not_eq_true']
  by_cases hc : h.hier.ptp[n].state = .master ∧ h.hier.ptp[n].p2p = false
  case pos =>
    rw [if_pos (hcond.mpr hc), if_pos hc, Hub.onPtp_same]
    exact ⟨rfl, rfl⟩
  case neg =>
    rw [if_neg (mt hcond.mp hc), if_neg hc, Hub.onPtp_same]
    exact ⟨rfl, rfl⟩

end

theorem Hub.ptpUp_advanceTo (cyc : Nat) (h : Hub) (n : Fin 48) : (advanceTo cyc h).ptpUp n = h.ptpUp n := by
  unfold Hub.ptpUp
  rw [Hub.runs_congr (advanceTo_top ..), advanceTo_links, advanceTo_hier]

/-- An event message on a port that is up is handled at its stamp. -/
theorem ptpEventMessage_up {n : Fin 48} {e : PtpEvent} {st : Stamp} {h : Hub} {t : Int} (hu : h.ptpUp n = true)
    (ht : t = if eventSent e then (advanceTo st.cyc h).dom0Stamp (laneOfTx n) st + (advanceTo st.cyc h).dtxFu n
      else (advanceTo st.cyc h).dom0Stamp (laneOfRx n) st - (advanceTo st.cyc h).drxFu n) :
    ptpEventMessage n e st h = ptpEventAt n e t (advanceTo st.cyc h) := by
  unfold ptpEventMessage
  dsimp only
  rw [Hub.ptpUp_advanceTo, hu, if_pos rfl, ht]

/-! ## Sync and Announce (R280, R281) -/

/-- The port after a Sync that arrived at t0 in DOM[0] time and at t on the line. -/
def PtpPort.synced (t0 t origin : Int) (resp : Option Int) (ms : Nat) (p : PtpPort) : PtpPort :=
  let p := { p.pathBy t0 origin resp with rxStamp := t0, syncMs := ms }
  let x := t - (origin + p.path)
  if p.pathOk then
    { p with offset := t0 - (origin + p.path), xSum := p.xSum + x, tSum := p.tSum + t, xN := p.xN + 1, syncs := (x, t) :: p.syncs }
  else p

/-- The path delay is all that the answer to a Delay_Req changes of offset and samples. -/
theorem PtpPort.pathBy_rest (t2 t1 : Int) (resp : Option Int) (p : PtpPort) : (p.pathBy t2 t1 resp).offset = p.offset ∧
    (p.pathBy t2 t1 resp).xN = p.xN ∧ (p.pathBy t2 t1 resp).xSum = p.xSum := by
  unfold PtpPort.pathBy
  split
  · split <;> exact ⟨rfl, rfl, rfl⟩
  · exact ⟨rfl, rfl, rfl⟩

theorem PtpPort.pathBy_answered {t2 t1 t3 t4 : Int} {p : PtpPort} (hp : p.p2p = false) (hr : p.reqStamp = some t3) :
    (p.pathBy t2 t1 (some t4)).path = rdiv ((t2 - t1) + (t4 - t3)) 2 ∧ (p.pathBy t2 t1 (some t4)).pathOk = true := by
  unfold PtpPort.pathBy
  rw [hr]
  dsimp only
  rw [hp, if_neg Bool.false_ne_true]
  exact ⟨rfl, rfl⟩

theorem PtpPort.synced_path (t0 t origin : Int) (resp : Option Int) (ms : Nat) (p : PtpPort) :
    (p.synced t0 t origin resp ms).path = (p.pathBy t0 origin resp).path ∧ (p.synced t0 t origin resp ms).pathOk = (p.pathBy t0 origin resp).pathOk ∧
    (p.synced t0 t origin resp ms).rxStamp = t0 ∧ (p.synced t0 t origin resp ms).syncMs = ms := by
  unfold PtpPort.synced
  dsimp only
  split
  case isTrue => exact ⟨rfl, rfl, rfl, rfl⟩
  case isFalse => exact ⟨rfl, rfl, rfl, rfl⟩

theorem PtpPort.synced_sample {t0 t origin : Int} {resp : Option Int} {ms : Nat} {p : PtpPort} (hq : (p.pathBy t0 origin resp).pathOk = true) :
    (p.synced t0 t origin resp ms).offset = t0 - (origin + (p.pathBy t0 origin resp).path) ∧ (p.synced t0 t origin resp ms).xN = p.xN + 1 ∧
    (p.synced t0 t origin resp ms).xSum = p.xSum + (t - (origin + (p.pathBy t0 origin resp).path)) := by
  obtain ⟨_, hn, hx⟩ := p.pathBy_rest t0 origin resp
  unfold PtpPort.synced
  dsimp only
  rw [hq, if_pos rfl]
  exact ⟨rfl, congrArg (· + 1) hn, congrArg (· + _) hx⟩

theorem PtpPort.synced_unmeasured {t0 t origin : Int} {resp : Option Int} {ms : Nat} {p : PtpPort} (hq : (p.pathBy t0 origin resp).pathOk = false) :
    (p.synced t0 t origin resp ms).offset = p.offset ∧ (p.synced t0 t origin resp ms).xN = p.xN ∧ (p.synced t0 t origin resp ms).xSum = p.xSum := by
  unfold PtpPort.synced
  dsimp only
  rw [hq, if_neg Bool.false_ne_true]
  exact p.pathBy_rest t0 origin resp

theorem advanceTo_ms (cyc : Nat) (h : Hub) : (advanceTo cyc h).clk.ms = h.clk.ms := by
  have hrest : (advanceTo cyc h).clk.rest = h.clk.rest := (advanceTo_only cyc h).clk.resolve_left (by decide)
  have hms : (advanceTo cyc h).clk.rest.ms = h.clk.rest.ms := by rw [hrest]
  exact hms

theorem ptpSyncReceived_slave {n : Fin 48} {st : Stamp} {origin : Int} {resp : Option Int} {h : Hub} {rx : Int} (hu : h.ptpUp n = true)
    (hs : h.hier.ptp[n].state = .slave) (hrx : rx = (advanceTo st.cyc h).dom0Stamp (laneOfRx n) st - (advanceTo st.cyc h).drxFu n) :
    (ptpSyncReceived n st origin resp h).hier.ptp[n] = h.hier.ptp[n].synced rx
      ((advanceTo st.cyc h).lineStamp (laneOfRx n) st - (advanceTo st.cyc h).drxFu n) origin resp h.clk.ms := by
  unfold ptpSyncReceived
  dsimp only
  have hcond : ((advanceTo st.cyc h).ptpUp n && (advanceTo st.cyc h).hier.ptp[n].state == PtpState.slave) = true := by
    rw [Hub.ptpUp_advanceTo, hu, advanceTo_hier, hs]
    rfl
  rw [if_pos hcond, Hub.onPtp_same, advanceTo_hier, advanceTo_ms, ← hrx]
  rfl

/-- The port after an Announce, which takes the place of its sender's last one or of a worse one. -/
def PtpPort.hears (d : PtpData) (ms : Nat) (p : PtpPort) : PtpPort :=
  let takes := match p.best with
    | some e => (e.sender == d.sender && e.senderPort == d.senderPort) || ptpBetter d e
    | none => true
  if takes then { p with best := some d, annMs := ms } else p

theorem PtpPort.hears_first {d : PtpData} {ms : Nat} {p : PtpPort} (hb : p.best = none) :
    (p.hears d ms).best = some d ∧ (p.hears d ms).annMs = ms := by
  unfold PtpPort.hears
  rw [hb]
  exact ⟨rfl, rfl⟩

theorem ptpAnnounceReceived_up {n : Fin 48} {d : PtpData} {h : Hub} (hu : h.ptpUp n = true) (hd : d.sender ≠ Config.serial)
    (hs : d.stepsRemoved < 255) : ptpAnnounceReceived n d h = bmca (h.onPtp n (PtpPort.hears d h.clk.ms)) := by
  unfold ptpAnnounceReceived
  rw [hu, bne_iff_ne.mpr hd, decide_eq_true hs, Bool.and_self, Bool.and_self, when_true]
  rfl

/-- The first Announce that a port hears is kept. -/
theorem ptpAnnounceReceived_first {n : Fin 48} {d : PtpData} {h : Hub} (hu : h.ptpUp n = true) (hd : d.sender ≠ Config.serial)
    (hs : d.stepsRemoved < 255) (hb : h.hier.ptp[n].best = none) :
    (ptpAnnounceReceived n d h).hier.ptp[n].best = some d ∧ (ptpAnnounceReceived n d h).hier.ptp[n].annMs = h.clk.ms := by
  obtain ⟨h2, h3⟩ := PtpPort.hears_first (d := d) (ms := h.clk.ms) hb
  rw [ptpAnnounceReceived_up hu hd hs, (bmca_port _ n).2.1, (bmca_port _ n).2.2, Hub.onPtp_same]
  exact ⟨h2, h3⟩

theorem ptpAnnounceReceiptTimeout_due {n : Fin 48} {h : Hub} (hu : h.ptpUp n = true)
    (hd : h.hier.ptp[n].annMs + h.hier.ptp[n].announceLimit ≤ h.clk.ms) : (ptpAnnounceReceiptTimeout n h).hier.ptp[n].best = none := by
  unfold ptpAnnounceReceiptTimeout
  rw [hu, decide_eq_true hd, Bool.and_self, when_true, (bmca_port _ n).2.1, (ptpState_port ..).2.1, Hub.onPtp_same]

/-! ## Losses of a slot (R131, R133) -/

/-- A slot that is lost is ABSENT; no other slot's state changes. -/
theorem slotLost_states (k : Fin 12) (c : Nat) (h : Hub) : (slotLost k c h).refs[k].state = .absent ∧
    ∀ j, j ≠ k → (slotLost k c h).refs[j].state = h.refs[j].state := by
  have hupd : ∀ more, (upd (upd h.refs k (RefSlot.gone more)) k fun r => { r with cause := BitVec.ofNat 4 c })[k].state = .absent ∧
      ∀ j, j ≠ k → (upd (upd h.refs k (RefSlot.gone more)) k fun r => { r with cause := BitVec.ofNat 4 c })[j].state = h.refs[j].state := by
    intro more
    rw [upd_upd]
    exact ⟨upd_field RefSlot.state .., fun j hj => congrArg RefSlot.state (upd_other _ _ _ _ hj)⟩
  unfold slotLost
  split
  case h_1 ha => exact ⟨ha, fun _ _ => rfl⟩
  case h_2 | h_3 | h_4 => simpa only [sendFault_refs, Hub.onRef_refs, toAbsent_refs] using hupd _

theorem ptpSyncTimeout_due {n : Fin 48} {k : Fin 12} {h : Hub} (hu : h.ptpUp n = true) (hs : h.hier.ptp[n].state = .slave) (hl : h.lrefs n = [k])
    (hd : h.hier.ptp[n].syncMs + h.hier.ptp[n].syncLimit ≤ h.clk.ms) : ptpSyncTimeout n h = slotLost k 1 h := by
  unfold ptpSyncTimeout
  rw [hu, hs, decide_eq_true hd, beq_self_eq_true, Bool.and_self, Bool.and_self, when_true, lrefsLost, hl]
  rfl

/-! ## ESMC (R283) -/

theorem Hub.esmcUp_of {n : Fin 48} {h : Hub} (hr : h.runs = true) (he : h.links[n].eth = true) (hs : h.links[n].state = .ethUp)
    (hen : h.hier.ptp[n].esmcEn = true) : h.esmcUp n = true := by
  unfold Hub.esmcUp
  rw [hr, he, hs, hen]
  rfl

theorem esmcPduSend_due {n : Fin 48} {h : Hub} (hu : h.esmcUp n = true) (hd : ∀ last, h.hier.ptp[n].infoMs = some last → last + 1000 ≤ h.clk.ms) :
    esmcPduSend n h = (sendEsmc n false h).onPtp n fun p => { p with infoMs := some h.clk.ms } := by
  unfold esmcPduSend
  cases hi : h.hier.ptp[n].infoMs with
  | none => rw [hu]; rfl
  | some last =>
    dsimp only
    rw [hu, decide_eq_true (hd last hi), Bool.and_self, when_true]

theorem esmcEventPduSend_due {n : Fin 48} {h : Hub} (hu : h.esmcUp n = true) (hq : h.hier.ptp[n].txQl ≠ some (h.qlSent n)) :
    esmcEventPduSend n h = sendEsmc n true h := by
  unfold esmcEventPduSend
  rw [hu, bne_iff_ne.mpr hq, Bool.and_self, when_true]

theorem sendEsmc_port (n : Fin 48) (event : Bool) (h : Hub) :
    (sendEsmc n event h).hier.ptp[n] = { h.hier.ptp[n] with txQl := some (h.qlSent n) } ∧
    (sendEsmc n event h).wire = .esmc n (h.qlSent n) event :: h.wire :=
  ⟨upd_same .., rfl⟩

theorem esmcPduReceived_up {n : Fin 48} {ql : BitVec 4} {h : Hub} (hr : h.runs = true) (he : h.links[n].eth = true)
    (hs : h.links[n].state = .ethUp) : (esmcPduReceived n ql h).hier.ptp[n] =
      { h.hier.ptp[n] with rxQl := ql, esmcSeen := true, esmcMs := h.clk.ms } := by
  unfold esmcPduReceived
  rw [hr, he, hs, beq_self_eq_true, Bool.and_self, Bool.and_self, when_true, esmcHold_ptp, Hub.onPtp_same]

theorem esmcAbsentTimeout_due {n : Fin 48} {h : Hub} (hr : h.runs = true) (he : h.links[n].eth = true)
    (hd : h.hier.ptp[n].esmcMs + 5000 ≤ h.clk.ms) : (esmcAbsentTimeout n h).hier.ptp[n] = { h.hier.ptp[n] with esmcSeen := false } := by
  unfold esmcAbsentTimeout
  rw [hr, he, decide_eq_true hd, Bool.and_self, Bool.and_self, when_true, esmcHold_ptp, Hub.onPtp_same]

end Sys2Proof.Machine

namespace Sys2Proof

open Machine

/-- Settles O24: each message and each timer of an Ethernet port is one update of the port, with what it puts on the wire. -/
theorem ptpAndEsmc : Obligations.PtpAndEsmc := by
  unfold Obligations.PtpAndEsmc
  refine ⟨⟨fun o d s n S hop hsub hn hb => ?settings, ?events⟩, fun s n p hr he hs hp =>
    ⟨fun k hu hst hl hd => ?noSync, fun hen hd => ?info, fun hen hq => ?change, fun ql => ?heard, fun hd => ?absent⟩⟩
  case settings =>
    have hcfg := discoverPtpEff_cfg (h := markApplied d.id s.toHub) hn hb
    refine ⟨_, exec_serve S (fun _ => rfl) (isOpSub_of hop (by rw [← discOp, hsub]; rfl)) (by rw [hop]; rfl), ?_, fun j hj => ?_⟩
    · exact (hcfg n).trans (congrArg PtpPort.cfg (Hub.onPtp_same ..))
    · exact (hcfg j).trans (congrArg PtpPort.cfg (Hub.onPtp_other hj ..))
  case events =>
    intro s n st h p tx rx w hu hh hp htx hrx hw
    subst hh
    have hport : (advanceTo st.cyc s.toHub).hier.ptp[n] = p := by rw [advanceTo_hier, hp]
    have hwire : (advanceTo st.cyc s.toHub).wire = s.wire := advanceTo_wire ..
    have hw' : w = p.wireOp n := hw
    subst hw'
    have hsent : ∀ e, eventSent e = true → exec (.ptpEventMessage n e st) s =
        .next { toHub := ptpEventAt n e tx (advanceTo st.cyc s.toHub), pending := s.pending } := fun e he =>
      exec_run (fun _ => rfl) (ptpEventMessage_up hu (htx.trans (if_pos he).symm))
    have hreceived : ∀ e, eventSent e = false → exec (.ptpEventMessage n e st) s =
        .next { toHub := ptpEventAt n e rx (advanceTo st.cyc s.toHub), pending := s.pending } := fun e he =>
      exec_run (fun _ => rfl) (ptpEventMessage_up hu (hrx.trans (if_neg (by rw [he]; exact Bool.false_ne_true)).symm))
    refine ⟨fun hm => ?sync, fun hs hp2 => ?delayReq, fun hp2 => ⟨?pdelayReq, ?pdelayResp, fun held t1 hr => ?answer⟩, ?asked, ?pasked,
      fun origin resp q hs hq => ?synced, fun d hd hsteps hbest => ?announce, fun hd => ?silent⟩
    case sync =>
      have he := ptpEventAt_sync (n := n) (t := tx) (h := advanceTo st.cyc s.toHub) (by rw [hport]; exact hm)
      rw [hport, hwire] at he
      exact ⟨_, hsent _ rfl, he⟩
    case delayReq =>
      have he := ptpEventAt_delayReq (n := n) (t := tx) (h := advanceTo st.cyc s.toHub) (by rw [hport]; exact hs) (by rw [hport]; exact hp2)
      rw [hport, hwire] at he
      exact ⟨_, hsent _ rfl, he⟩
    case pdelayReq =>
      have he := ptpEventAt_pdelayReq (n := n) (t := tx) (h := advanceTo st.cyc s.toHub) (by rw [hport]; exact hp2)
      rw [hport, hwire] at he
      exact ⟨_, hsent _ rfl, he⟩
    case pdelayResp =>
      have he := ptpEventAt_pdelayResp (n := n) (t := tx) (h := advanceTo st.cyc s.toHub) (by rw [hport]; exact hp2)
      rw [hport, hwire] at he
      exact ⟨_, hsent _ rfl, he⟩
    case answer =>
      have he := ptpEventAt_answer (n := n) (t := rx) (held := held) (t1 := t1) (h := advanceTo st.cyc s.toHub) (by rw [hport]; exact hp2)
        (by rw [hport]; exact hr)
      rw [hport, hwire] at he
      exact ⟨_, hreceived _ rfl, he⟩
    case asked =>
      have he := ptpEventAt_delayReqReceived (n := n) (t := rx) (h := advanceTo st.cyc s.toHub)
      rw [hport, hwire] at he
      exact ⟨_, hreceived _ rfl, he⟩
    case pasked =>
      refine ⟨_, hreceived .pdelayReqReceived rfl, ?_, hwire⟩
      exact (Hub.onPtp_same ..).trans (congrArg (fun x : PtpPort => { x with rxStamp := rx }) hport)
    case synced =>
      have he := ptpSyncReceived_slave (origin := origin) (resp := resp) hu (hp ▸ hs) hrx
      rw [← hp] at he
      obtain ⟨h1, h2, h3, h4⟩ := p.synced_path rx ((advanceTo st.cyc s.toHub).lineStamp (laneOfRx n) st - (advanceTo st.cyc s.toHub).drxFu n)
        origin resp s.clk.ms
      subst hq
      refine ⟨_, exec_run (fun _ => rfl) rfl, ?_⟩
      dsimp only
      rw [he]
      exact ⟨h1, h2, h3, h4, fun t4 t3 hp2 hr hresp => hresp ▸ PtpPort.pathBy_answered hp2 hr, PtpPort.synced_sample, PtpPort.synced_unmeasured⟩
    case announce => exact ⟨_, exec_run (fun _ => rfl) rfl, ptpAnnounceReceived_first hu hd hsteps (hp ▸ hbest)⟩
    case silent => exact ⟨_, exec_run (fun _ => rfl) rfl, ptpAnnounceReceiptTimeout_due hu (hp ▸ hd)⟩
  case noSync =>
    exact ⟨_, exec_run (fun _ => rfl) (ptpSyncTimeout_due hu (hp ▸ hst) hl (hp ▸ hd)), slotLost_states ..⟩
  case info =>
    refine ⟨_, exec_run (fun _ => rfl) (esmcPduSend_due (Hub.esmcUp_of hr he hs (hp ▸ hen)) (hp ▸ hd)), rfl, ?_⟩
    subst hp
    exact (Hub.onPtp_same ..).trans (congrArg (fun x : PtpPort => { x with infoMs := some s.clk.ms }) (sendEsmc_port ..).1)
  case change =>
    refine ⟨_, exec_run (fun _ => rfl) (esmcEventPduSend_due (Hub.esmcUp_of hr he hs (hp ▸ hen)) (hp ▸ hq)), rfl, ?_⟩
    subst hp
    exact (sendEsmc_port ..).1
  case heard => exact ⟨_, exec_run (fun _ => rfl) rfl, hp ▸ esmcPduReceived_up hr he hs⟩
  case absent => exact ⟨_, exec_run (fun _ => rfl) rfl, hp ▸ esmcAbsentTimeout_due hr he (hp ▸ hd)⟩

end Sys2Proof
end

section
/-!
SUPPORT. The oven, the ladders and the deskew lines (R40 to R42, R59 to R68).
-/

set_option Elab.async false

namespace Sys2Proof.Machine

/-! ## CLK_ROOT_EVT and CLK_DLL_EVT -/

section
variable (b : BitVec 16) (n : Fin 96) (h : Hub)

theorem raiseRoot_clk : (raiseRoot b h).clk = { h.clk with rootEvt := h.clk.rootEvt.raise b } := by
  rw [raiseRoot_irqIf, irqIf_clk, Hub.onClk_clk]

theorem raiseRoot_top : (raiseRoot b h).top = h.top := by rw [raiseRoot_irqIf, irqIf_top, Hub.onClk_top]

theorem raiseRoot_flt : (raiseRoot b h).flt = h.flt := by rw [raiseRoot_irqIf, irqIf_flt, Hub.onClk_flt]

theorem raiseRoot_doms : (raiseRoot b h).doms = h.doms := by rw [raiseRoot_irqIf, irqIf_doms, Hub.onClk_doms]

theorem raiseDll_dlls : (raiseDll n h).dlls = h.dlls := by
  unfold raiseDll
  rw [irqIf_dlls]

theorem raiseDll_top : (raiseDll n h).top = h.top := by
  unfold raiseDll
  rw [irqIf_top]

theorem raiseDll_flt : (raiseDll n h).flt = h.flt := by
  unfold raiseDll
  rw [irqIf_flt]

theorem raiseDll_bit : (raiseDll n h).dllEvt[(⟨n.val / 16, by omega⟩ : Fin 6)].bits.getLsbD (n.val % 16) = true := by
  unfold raiseDll
  rw [irqIf_dllEvt]
  exact (upd_field (fun e : Evt => e.bits.getLsbD (n.val % 16)) ..).trans (Evt.raise_bit16 _ (Nat.mod_lt _ (by decide)))

end

/-! ## The oven (R41, R42) -/

section
variable {h : Hub}

theorem ovenBandEntry_outside (hr : h.runs = true) (hb : h.clk.inBand = false) :
    ovenBandEntry h = h.onClk fun c => { c with inBand := true, bandSecs := 0 } := by
  unfold ovenBandEntry
  rw [hr, hb, Bool.not_false, Bool.and_self, when_true]

theorem warmOverflow_clk (m : Fin 16) (g : Hub) : (warmOverflow m g).clk = g.clk := by
  unfold warmOverflow
  split
  · rw [sendFault_clk, Hub.onDom_clk]
  · rfl

theorem tbWarmRise_due (hr : h.runs = true) (hb : h.clk.inBand = true) (hw : h.clk.warm = false) (hs : 120 ≤ h.clk.bandSecs) :
    (tbWarmRise h).clk = { h.clk with warm := true, everWarm := true, rootEvt := h.clk.rootEvt.raise (bit16 5) } := by
  unfold tbWarmRise
  rw [hr, hb, hw, decide_eq_true hs, Bool.not_false, Bool.and_self, Bool.and_self, Bool.and_self, when_true,
    forEach_keeps (F := Hub.clk) warmOverflow_clk, raiseRoot_clk, Hub.onClk_clk]

/-- The oven's fault shows in CLK_ROOT_EVT. -/
theorem ovenFault_clk (g : Hub) : (ovenFault g).clk = { g.clk with rootEvt := g.clk.rootEvt.raise (bit16 7) } := by
  unfold ovenFault
  rw [sendFault_clk, raiseRoot_clk]

theorem ovenFault_enters {g : Hub} (ht : g.top = h.top) (hf : g.flt = h.flt) (hr : h.runs = true) (hq : h.flt.queue.length < 64) :
    ∃ m, (ovenFault g).flt.queue = h.flt.queue ++ [m] ∧ m.msg = faultMsg srcOven .oven accNone mInternal 0 :=
  sendFault_enters srcOven .oven accNone mInternal 0 (g := raiseRoot (bit16 7) g) (h := h)
    ((raiseRoot_top ..).trans ht) ((raiseRoot_flt ..).trans hf) hr hq

/-- The hub once the oven has left its band, and shown it. -/
def bandLeft (h : Hub) : Hub :=
  let g := h.onClk fun c => { c with inBand := false, warm := false, bandSecs := 0 }
  if h.clk.warm then raiseRoot (bit16 6) g else g

theorem ovenBandExit_inside (hr : h.runs = true) (hb : h.clk.inBand = true) :
    ovenBandExit h = if (bandLeft h).clk.everWarm then ovenFault (bandLeft h) else bandLeft h := by
  unfold ovenBandExit
  rw [hr, hb, Bool.and_self, when_true]
  rfl

theorem bandLeft_clk (h : Hub) : ∃ e, (bandLeft h).clk = { h.clk with inBand := false, warm := false, bandSecs := 0, rootEvt := e } ∧
    (h.clk.warm = true → e.bits.getLsbD 6 = true) := by
  unfold bandLeft
  extract_lets g
  cases hw : h.clk.warm
  case false => exact ⟨h.clk.rootEvt, rfl, fun h => absurd h Bool.false_ne_true⟩
  case true =>
    rw [if_pos rfl, raiseRoot_clk]
    exact ⟨_, rfl, fun _ => Evt.raise_bit16 _ (by decide)⟩

theorem bandLeft_top (h : Hub) : (bandLeft h).top = h.top := by
  unfold bandLeft
  extract_lets g
  split
  · exact raiseRoot_top ..
  · rfl

theorem bandLeft_flt (h : Hub) : (bandLeft h).flt = h.flt := by
  unfold bandLeft
  extract_lets g
  split
  · exact raiseRoot_flt ..
  · rfl

theorem ovenWarmupLimit_due (hr : h.runs = true) (hb : h.clk.inBand = false) (hw : h.clk.everWarm = false) (hl : h.clk.limited = false) :
    ovenWarmupLimit h = ovenFault (h.onClk fun c => { c with limited := true, heater := min heaterLimit c.heater }) := by
  unfold ovenWarmupLimit
  rw [hr, hb, hw, hl, Bool.not_false, Bool.and_self, Bool.and_self, Bool.and_self, when_true]

/-! ## Ladders (R60) -/

theorem ladderLock_due {k : Fin 8} (hr : h.runs = true) (ha : h.rootActive = true) (hl : h.clk.ladders.getLsbD k = false) :
    ladderLock k h = h.onClk fun c =>
      { c with ladders := c.ladders ||| BitVec.ofNat 8 (2 ^ k.val), ladderAt := upd c.ladderAt k fun _ => c.cycles } := by
  unfold ladderLock
  rw [hr, ha, hl, Bool.not_false, Bool.and_self, Bool.and_self, when_true]

theorem ladderLossOfLock_due {k : Fin 8} (hr : h.runs = true) (hl : h.clk.ladders.getLsbD k = true) :
    ladderLossOfLock k h = sendFault (srcLadder k) .lockLost accNone mInternal 0
      (raiseRoot (bit16 8) (h.onClk fun c => { c with ladders := c.ladders &&& ~~~(BitVec.ofNat 8 (2 ^ k.val)) })) := by
  unfold ladderLossOfLock
  rw [hr, hl, Bool.and_self, when_true]

/-- The mask of one ladder holds its bit and no other. -/
theorem ladderBit_getLsbD (k j : Fin 8) : (BitVec.ofNat 8 (2 ^ k.val)).getLsbD j = decide (j = k) := by
  revert k j
  decide

/-! ## Deskew lines (R63 to R67) -/

theorem Hub.dllActs_of {n : Fin 96} (hr : h.runs = true) (ha : h.rootActive = true) (hf : h.dlls[n].frozen = false) : h.dllActs n = true := by
  unfold Hub.dllActs
  rw [hr, ha, hf]
  rfl

theorem bootRelease_dlls (n : Fin 96) (g : Hub) : (bootRelease n g).dlls = g.dlls := by
  unfold bootRelease when_
  split <;> rfl

theorem dllLock_due {n : Fin 96} {err : Int} {held : Nat} (ha : h.dllActs n = true) (hl : h.dlls[n].locked = false) (he : err.natAbs ≤ 65)
    (ht : dllLockCycles (outN h.outs[n].cfg) ≤ held) : (dllLock n err held h).dlls =
      upd h.dlls n fun d => { d with err, locked := true, slow := false } := by
  unfold dllLock
  rw [ha, hl, decide_eq_true he, decide_eq_true ht, Bool.not_false, Bool.and_self, Bool.and_self, Bool.and_self, when_true, bootRelease_dlls,
    Hub.onDll_dlls]

theorem dllLossOfLock_due {n : Fin 96} {err : Int} {held : Nat} {noEdge : Bool} (ha : h.dllActs n = true)
    (hl : h.dlls[n].locked = true ∨ h.dlls[n].rail = true) (hd : h.dllLoses n err held noEdge = true) :
    dllLossOfLock n err held noEdge h = sendFault (srcClk n) .lockLost accNone mInternal 0
      (raiseDll n (h.onDll n fun d => { d with err := if noEdge then d.err else err, locked := false, frozen := true })) := by
  unfold dllLossOfLock
  rw [ha, Bool.or_eq_true_iff.mpr hl, hd, Bool.and_self, Bool.and_self, when_true]

theorem dllTrack_dlls {n : Fin 96} {raw : Int} (ha : h.dllActs n = true) : (dllTrack n raw h).dlls = upd h.dlls n fun d =>
    { d with err := h.dllErr n raw, pos := (clampI 0 dllTop (d.pos - d.move (dllBand (outN h.outs[n].cfg)) (h.dllErr n raw))).toNat } := by
  unfold dllTrack
  rw [if_pos ha]
  rfl

end

theorem clampI_mem {lo hi : Int} (hl : lo ≤ hi) (v : Int) : lo ≤ clampI lo hi v ∧ clampI lo hi v ≤ hi := by
  unfold clampI
  omega

/-- What a line moves in a millisecond is at most its slew. -/
theorem Dll.move_le (d : Dll) (band : Nat) (err : Int) : (d.move band err).natAbs ≤ if d.slow then 3072 else 30720 := by
  have hs : d.slew = ((if d.slow then 3072 else 30720 : Nat) : Int) := by
    unfold Dll.slew
    split <;> rfl
  have hm := clampI_mem (lo := -d.slew) (hi := d.slew) (by rw [hs]; omega)
    (rdiv (err * 3 * 10 ^ 5 * twoPi15 * band) (64 * 1000 * 10 ^ 15 * 2 ^ 24))
  rw [hs] at hm
  unfold Dll.move
  rw [hs]
  omega

/-- Within its steps a line moves by no more than the loop asks. -/
theorem clampI_step {p top : Nat} (hp : p ≤ top) (v : Int) :
    (clampI 0 top ((p : Int) - v)).toNat ≤ top ∧ (((clampI 0 top ((p : Int) - v)).toNat : Int) - p).natAbs ≤ v.natAbs := by
  unfold clampI
  omega

end Sys2Proof.Machine

namespace Sys2Proof

open Machine

/-- Settles O36: each event of the oven, a ladder or a line is one update of it, with its bit and its message. -/
theorem ovenLaddersDeskew : Obligations.OvenLaddersDeskew := by
  unfold Obligations.OvenLaddersDeskew
  refine ⟨fun s hr => ⟨fun hb => ?entry, fun hb hw hs => ?warm, fun hb hq => ?exit, fun hb hw hl hq => ?limit⟩,
    fun s hr => ⟨fun k ha hl => ?ladder, fun k hl hq => ?ladderLost, fun n err held ha hf hl he ht => ?lock,
      fun n err held noEdge ha hf hl hd hq => ?lost⟩, fun h n raw ha hp => ?track⟩
  case entry => exact ⟨_, exec_run (fun _ => rfl) (ovenBandEntry_outside hr hb), rfl⟩
  case warm =>
    refine ⟨_, exec_run (fun _ => rfl) rfl, ?_⟩
    dsimp only
    rw [tbWarmRise_due hr hb hw hs]
    exact ⟨rfl, rfl, Evt.raise_bit16 _ (by decide)⟩
  case exit =>
    obtain ⟨e, hclk, h6⟩ := bandLeft_clk s.toHub
    have hever : (bandLeft s.toHub).clk.everWarm = s.clk.everWarm := by rw [hclk]
    refine ⟨_, exec_run (fun _ => rfl) (ovenBandExit_inside hr hb), ?_⟩
    rw [hever]
    cases hw : s.clk.everWarm
    case false =>
      simp only [Bool.false_eq_true, if_false, hclk]
      exact ⟨trivial, trivial, trivial, h6, fun h => h.elim, fun _ => congrArg Flt.queue (bandLeft_flt ..)⟩
    case true =>
      obtain ⟨m, hmq, hm⟩ := ovenFault_enters (bandLeft_top s.toHub) (bandLeft_flt s.toHub) hr hq
      simp only [if_true, ovenFault_clk, hclk]
      exact ⟨trivial, trivial, trivial, fun hw => Evt.raise_keeps _ _ (h6 hw),
        fun _ => ⟨Evt.raise_bit16 _ (by decide), m, hmq, by rw [hm]; rfl, by rw [hm]; rfl⟩, fun h => nomatch h⟩
  case limit =>
    obtain ⟨m, hmq, hm⟩ := ovenFault_enters (h := s.toHub)
      (g := s.onClk fun c => { c with limited := true, heater := min heaterLimit c.heater }) rfl rfl hr hq
    refine ⟨_, exec_run (fun _ => rfl) (ovenWarmupLimit_due hr hb hw hl), ?_⟩
    simp only [ovenFault_clk]
    exact ⟨rfl, rfl, Evt.raise_bit16 _ (by decide), m, hmq, by rw [hm]; rfl, by rw [hm]; rfl⟩
  case ladder =>
    refine ⟨_, exec_run (fun _ => rfl) (ladderLock_due hr ha hl), ?_, upd_same .., fun j hj => ?_⟩
    · change (s.clk.ladders ||| BitVec.ofNat 8 (2 ^ k.val)).getLsbD k = true
      rw [BitVec.getLsbD_or, ladderBit_getLsbD, decide_eq_true rfl, Bool.or_true]
    · change (s.clk.ladders ||| BitVec.ofNat 8 (2 ^ k.val)).getLsbD j = s.clk.ladders.getLsbD j
      rw [BitVec.getLsbD_or, ladderBit_getLsbD, decide_eq_false hj, Bool.or_false]
  case ladderLost =>
    obtain ⟨m, hmq, hm⟩ := sendFault_enters (srcLadder k) .lockLost accNone mInternal 0 (h := s.toHub)
      (g := raiseRoot (bit16 8) (s.onClk fun c => { c with ladders := c.ladders &&& ~~~(BitVec.ofNat 8 (2 ^ k.val)) }))
      (raiseRoot_top ..) (raiseRoot_flt ..) hr hq
    have hbits : ∀ j : Fin 8, (s.clk.ladders &&& ~~~(BitVec.ofNat 8 (2 ^ k.val))).getLsbD j = (s.clk.ladders.getLsbD j && !decide (j = k)) := by
      intro j
      rw [BitVec.getLsbD_and, BitVec.getLsbD_not, ladderBit_getLsbD, decide_eq_true j.isLt, Bool.true_and]
    refine ⟨_, exec_run (fun _ => rfl) (ladderLossOfLock_due hr hl), ?_⟩
    simp only [sendFault_clk, raiseRoot_clk, Hub.onClk_clk]
    refine ⟨?_, fun j hj => ?_, Evt.raise_bit16 _ (by decide), m, hmq, by rw [hm]; rfl, by rw [hm]; rfl⟩
    · rw [hbits k, decide_eq_true rfl, Bool.not_true, Bool.and_false]
    · rw [hbits j, decide_eq_false hj, Bool.not_false, Bool.and_true]
  case lock =>
    have hlocked := dllLock_due (Hub.dllActs_of hr ha hf) hl he ht
    refine ⟨_, exec_run (fun _ => rfl) rfl, ?_⟩
    dsimp only
    rw [hlocked]
    exact ⟨upd_same .., fun j hj => upd_other _ _ _ _ hj⟩
  case lost =>
    obtain ⟨m, hmq, hm⟩ := sendFault_enters (srcClk n) .lockLost accNone mInternal 0 (h := s.toHub)
      (g := raiseDll n (s.onDll n fun d => { d with err := if noEdge then d.err else err, locked := false, frozen := true }))
      (raiseDll_top ..) (raiseDll_flt ..) hr hq
    refine ⟨_, exec_run (fun _ => rfl) (dllLossOfLock_due (Hub.dllActs_of hr ha hf) hl hd), ?_⟩
    simp only [sendFault_dlls, sendFault_dllEvt, raiseDll_dlls, Hub.onDll_dlls]
    exact ⟨upd_same .., raiseDll_bit .., fun j hj => upd_other _ _ _ _ hj, m, hmq, by rw [hm]; rfl, by rw [hm]; rfl⟩
  case track =>
    rw [dllTrack_dlls ha]
    obtain ⟨htop, hstep⟩ := clampI_step hp (h.dlls[n].move (dllBand (outN h.outs[n].cfg)) (h.dllErr n raw))
    have hpos := upd_field Dll.pos h.dlls n fun d =>
      { d with err := h.dllErr n raw, pos := (clampI 0 dllTop (d.pos - d.move (dllBand (outN h.outs[n].cfg)) (h.dllErr n raw))).toNat }
    refine ⟨?_, upd_field Dll.err .., ?_, fun j hj => upd_other _ _ _ _ hj⟩
    · rw [hpos]
      exact htop
    · rw [hpos]
      exact hstep.trans (Dll.move_le ..)

end Sys2Proof
end

section
/-!
SUPPORT. The roots (R43 to R50, R72): what locking, faulting and changing over make of them, and what the message of a fault leaves.
-/

set_option Elab.async false

namespace Sys2Proof.Machine

/-! ## States of the roots -/

theorem Clk.root_setRoot_same (r : Side) (st : RootState) (l : Bool) (c : Clk) : (setRoot r st l c).root r = st := by
  cases r <;> rfl

theorem Clk.root_setRoot_other (r : Side) (st : RootState) (l : Bool) (c : Clk) : (setRoot r st l c).root (otherSide r) = c.root (otherSide r) := by
  cases r <;> rfl

theorem Clk.rootLocked_setRoot_same (r : Side) (st : RootState) (l : Bool) (c : Clk) : (setRoot r st l c).rootLocked r = l := by
  cases r <;> rfl

@[simp] theorem otherSide_otherSide (r : Side) : otherSide (otherSide r) = r := by
  cases r <;> rfl

theorem Hub.rootActive_eq (r : Side) (h : Hub) : h.rootActive = (h.clk.root r == .active || h.clk.root (otherSide r) == .active) := by
  cases r
  case a => rfl
  case b => exact Bool.or_comm ..

theorem Hub.activeSide_of {h : Hub} {r : Side} (e : h.clk.activeB = (r == .b)) : h.activeSide = r := by
  unfold Hub.activeSide
  rw [e]
  cases r <;> rfl

theorem rootFaultBit_getLsbD (r : Side) : (rootFaultBit r).getLsbD (match r with | .a => 1 | .b => 2) = true := by
  cases r <;> decide

/-- Of two bits raised together each stands. -/
theorem Evt.raise_or (e : Evt) (b c : BitVec 16) {i : Nat} (hi : b.getLsbD i = true ∨ c.getLsbD i = true) :
    (e.raise (b ||| c)).bits.getLsbD i = true := by
  rw [Evt.raise_bits, BitVec.getLsbD_or, BitVec.getLsbD_or]
  rcases hi with h | h <;> simp [h]

theorem Evt.raise_bit (e : Evt) {b : BitVec 16} {i : Nat} (hi : b.getLsbD i = true) : (e.raise b).bits.getLsbD i = true := by
  rw [Evt.raise_bits, BitVec.getLsbD_or, hi, Bool.or_true]

/-! ## Activation (R45, R72) -/

theorem aimCorr_clk (full : Bool) (h : Hub) : ∃ co ct, (aimCorr full h).clk = { h.clk with corr := co, corrTarget := ct } := ⟨_, _, rfl⟩

theorem activate_clk (r : Side) (h : Hub) : ∃ co ct, (activate r h).clk = { setRoot r .active true h.clk with
    activeB := r == .b, bootClk := false, cycles := 0, pos := 0, ms := 0, secDue := false, corrInherit := 0, corr := co, corrTarget := ct } := by
  obtain ⟨co, ct, he⟩ := aimCorr_clk true (h.onClk fun c =>
    { setRoot r .active true c with
      activeB := r == .b, bootClk := false, cycles := 0, pos := 0, ms := 0, secDue := false, corrInherit := 0 })
  exact ⟨co, ct, he⟩

/-- The condition of R45 for a locked root to become ACTIVE. -/
def Hub.mayActivate (h : Hub) (r : Side) : Bool :=
  (h.inMode .boot || h.shim.loader) && !h.rootActive && h.clk.root r == .locking && h.clk.rootLocked r && (r == .a || h.clk.aState != .locking)

theorem tryActivate_eq (r : Side) (h : Hub) : tryActivate r h = if h.mayActivate r then activate r h else h := rfl

/-- An activation that is tried leaves the oven, the other root, the lock and the record of the last fault. -/
structure ActivationFrame (r : Side) (h t : Hub) : Prop where
  flt : t.flt = h.flt
  oven : t.clk.oven = h.clk.oven
  cause : t.clk.lastCause = h.clk.lastCause
  evt : t.clk.rootEvt = h.clk.rootEvt
  other : t.clk.root (otherSide r) = h.clk.root (otherSide r)
  locked : h.clk.rootLocked r = true → t.clk.rootLocked r = true

theorem activate_frame (r : Side) (h : Hub) : ActivationFrame r h (activate r h) := by
  obtain ⟨co, ct, he⟩ := activate_clk r h
  refine ⟨rfl, ?_, ?_, ?_, ?_, fun _ => ?_⟩ <;> rw [he]
  case refine_4 => exact Clk.root_setRoot_other r .active true h.clk
  case refine_5 => exact Clk.rootLocked_setRoot_same r .active true h.clk
  all_goals rfl

theorem tryActivate_frame (r : Side) (h : Hub) : ActivationFrame r h (tryActivate r h) := by
  rw [tryActivate_eq]
  split
  · exact activate_frame r h
  · exact ⟨rfl, rfl, rfl, rfl, rfl, id⟩

theorem tryActivate_active {r : Side} {h : Hub} (hm : h.mayActivate r = true) : (tryActivate r h).clk.root r = .active ∧
    (tryActivate r h).activeSide = r ∧ (tryActivate r h).clk.cycles = 0 ∧ (tryActivate r h).clk.pos = 0 ∧ (tryActivate r h).clk.ms = 0 := by
  obtain ⟨co, ct, he⟩ := activate_clk r h
  rw [tryActivate_eq, if_pos hm]
  refine ⟨?_, Hub.activeSide_of ?_, ?_, ?_, ?_⟩ <;> rw [he]
  case refine_1 => exact Clk.root_setRoot_same r .active true h.clk

theorem ensureBegun_awake {h : Hub} (ha : h.awake = true) : ensureBegun h = h := by
  unfold Hub.awake at ha
  unfold ensureBegun
  refine if_neg fun hc => ?_
  cases hb : h.inMode .boot <;> cases hg : h.top.begun <;> simp [hb, hg] at ha hc

theorem Hub.runs_of_awake {h : Hub} (ha : h.awake = true) : h.runs = true := (Bool.and_eq_true_iff.mp ha).1

/-! ## Lock, timeout and relation (R43, R45) -/

/-- The hub with the synthesiser of a root locked. -/
def rootLocks (r : Side) (dev : Int) (h : Hub) : Hub := h.onClk fun c => { setRoot r .locking true c with oven := dev, dev := satSigned 16 dev }

section
variable {h : Hub} {r : Side}

theorem bootRootLock_due {dev : Int} (ha : h.awake = true) (hs : h.clk.root r = .locking) (hl : h.clk.rootLocked r = false)
    (ht : h.rootTested r = false) : bootRootLock r dev h = tryActivate r (rootLocks r dev h) := by
  unfold bootRootLock rootLock
  rw [ensureBegun_awake ha, Hub.runs_of_awake ha, hs, hl, ht, beq_self_eq_true, Bool.not_false, Bool.and_self, Bool.and_self, Bool.and_self,
    when_true]
  rfl

theorem rootLocks_root (dev : Int) : (rootLocks r dev h).clk.root r = .locking := Clk.root_setRoot_same r .locking true h.clk

theorem rootLocks_other (dev : Int) : (rootLocks r dev h).clk.root (otherSide r) = h.clk.root (otherSide r) :=
  Clk.root_setRoot_other r .locking true h.clk

/-- A lock moves no root out of its state. -/
theorem rootLocks_rootActive (dev : Int) (hs : h.clk.root r = .locking) : (rootLocks r dev h).rootActive = h.rootActive := by
  rw [Hub.rootActive_eq r, Hub.rootActive_eq r, rootLocks_root, rootLocks_other, hs]

theorem rootLocks_aState (dev : Int) (hs : h.clk.root r = .locking) : (rootLocks r dev h).clk.aState = h.clk.aState := by
  cases r
  case a => exact hs.symm
  case b => rfl

theorem rootLocks_mayActivate (dev : Int) (hs : h.clk.root r = .locking) (hn : h.rootActive = false)
    (hm : h.inMode .boot = true ∨ h.shim.loader = true) (ho : r = .a ∨ h.clk.aState ≠ .locking) : (rootLocks r dev h).mayActivate r = true := by
  have hlock : (rootLocks r dev h).clk.rootLocked r = true := Clk.rootLocked_setRoot_same r .locking true h.clk
  have hmode : ((rootLocks r dev h).inMode .boot || (rootLocks r dev h).shim.loader) = true := Bool.or_eq_true_iff.mpr hm
  have hturn : (r == .a || h.clk.aState != .locking) = true := by
    rw [Bool.or_eq_true, beq_iff_eq, bne_iff_ne]
    exact ho
  unfold Hub.mayActivate
  rw [hmode, rootLocks_rootActive dev hs, hn, rootLocks_root, hlock, rootLocks_aState dev hs, hturn]
  rfl

/-- Beside an ACTIVE root nothing more is activated. -/
theorem tryActivate_beside (ha : h.rootActive = true) : tryActivate r h = h := by
  rw [tryActivate_eq]
  refine if_neg ?_
  unfold Hub.mayActivate
  rw [ha]
  simp

/-- A fault of a root is noted: its cause, its bit of CLK_ROOT_EVT and its message. -/
def rootNoted (r : Side) (cause : Nat) (b : BitVec 16) (h : Hub) : Hub := raiseRoot b (rootLost r cause h)

theorem rootNoted_clk (cause : Nat) (b : BitVec 16) (g : Hub) :
    (rootNoted r cause b g).clk = { g.clk with lastCause := BitVec.ofNat 3 cause, rootEvt := g.clk.rootEvt.raise b } := by
  unfold rootNoted rootLost
  rw [raiseRoot_clk, sendFault_clk, Hub.onClk_clk]

theorem rootNoted_doms (cause : Nat) (b : BitVec 16) (g : Hub) : (rootNoted r cause b g).doms = g.doms := by
  unfold rootNoted rootLost
  rw [raiseRoot_doms, sendFault_doms, Hub.onClk_doms]

theorem rootNoted_enters {g : Hub} (cause : Nat) (b : BitVec 16) (ht : g.top = h.top) (hf : g.flt = h.flt) (hr : h.runs = true)
    (hq : h.flt.queue.length < 64) :
    ∃ m, (rootNoted r cause b g).flt.queue = h.flt.queue ++ [m] ∧ m.msg = faultMsg (srcRoot r) .lockLost accNone mInternal cause := by
  obtain ⟨m, hm, hmsg⟩ := sendFault_enters (srcRoot r) .lockLost accNone mInternal cause
    (g := g.onClk fun c => { c with lastCause := BitVec.ofNat 3 cause }) ht hf hr hq
  refine ⟨m, ?_, hmsg⟩
  unfold rootNoted rootLost
  rw [raiseRoot_flt]
  exact hm

theorem bootRootLockTimeout_due (ha : h.awake = true) (hs : h.clk.root r = .locking) (hl : h.clk.rootLocked r = false)
    (ht : h.rootTested r = false) : bootRootLockTimeout r h =
      tryActivate (otherSide r) (rootNoted r 1 (rootFaultBit r) (h.onClk (setRoot r .faulted false))) := by
  unfold bootRootLockTimeout rootLockTimeout
  rw [ensureBegun_awake ha, Hub.runs_of_awake ha, hs, hl, ht, beq_self_eq_true, Bool.not_false, Bool.and_self, Bool.and_self, Bool.and_self,
    when_true]
  rfl

theorem rootRelationValid_due (hr : h.runs = true) (ha : h.rootActive = true) (hx : r = otherSide h.activeSide) (hs : h.clk.root r = .locking)
    (hl : h.clk.rootLocked r = true) (ht : h.rootTested r = false) :
    rootRelationValid h = h.onClk fun c => { setRoot r .ready true c with relValid := true } := by
  unfold rootRelationValid
  rw [← hx]
  dsimp only
  rw [hr, ha, hs, hl, ht, beq_self_eq_true, Bool.not_false, Bool.and_self, Bool.and_self, Bool.and_self, Bool.and_self, when_true]

/-! ## Faults and the changeover (R45 to R49) -/

theorem rootFault_ready {cause : Nat} (hs : h.clk.root r = .ready) : rootFault r cause h =
    rootNoted r cause (rootFaultBit r) (h.onClk fun c => { setRoot r .faulted false c with relValid := false, jumpHeld := false }) := by
  unfold rootFault
  rw [hs]
  rfl

theorem rootFault_changeover {cause : Nat} (hs : h.clk.root r = .active) (ho : h.clk.root (otherSide r) = .ready) : rootFault r cause h =
    checkRots (changeover .faulted (rootNoted r cause (rootFaultBit r) h)) := by
  unfold rootFault
  rw [hs]
  dsimp only
  rw [ho]
  rfl

theorem rootFault_alone {cause : Nat} (hs : h.clk.root r = .active) (ho : h.clk.root (otherSide r) ≠ .ready) : rootFault r cause h =
    rootNoted r cause (rootFaultBit r ||| bit16 9) h := by
  unfold rootFault
  rw [hs]
  dsimp only
  rw [if_neg (mt beq_iff_eq.mp ho)]
  rfl

end

/-- What the domains' rotators show when they are checked: CLK_ROT_SAT and OVERFLOW, nothing of the roots. -/
structure RotsChecked (h t : Hub) : Prop where
  clk : ∃ e, t.clk = { h.clk with rotSat := e }
  queue : h.flt.queue <+: t.flt.queue
  acc : ∀ m : Fin 16, t.doms[m].accA = h.doms[m].accA

theorem checkRot_checked (m : Fin 16) (h : Hub) : RotsChecked h (checkRot m h) := by
  have hacc : ∀ k : Fin 16, (checkRot m h).doms[k].accA = h.doms[k].accA := by
    intro k
    rcases eq_or_ne k m with rfl | hk
    case inl =>
      obtain ⟨l, n, he⟩ := checkRot_dom k h
      rw [he]
    case inr => rw [((checkRot_only m h).doms k).resolve_left hk]
  have hclk : ∀ b (g : Hub), ∃ e, (raiseRotSat b g).clk = { g.clk with rotSat := e } := fun b g => by
    rw [raiseRotSat_irqIf, irqIf_clk]
    exact ⟨_, rfl⟩
  have hflt : ∀ b (g : Hub), (raiseRotSat b g).flt = g.flt := fun b g => by
    rw [raiseRotSat_irqIf, irqIf_flt]
    rfl
  refine ⟨?_, ?_, hacc⟩
  case refine_1 =>
    unfold checkRot
    dsimp only
    split
    · obtain ⟨e, he⟩ := hclk (bit16 m) (h.onDom m fun d => { d with limited := true })
      refine ⟨e, ?_⟩
      split
      · rw [sendFault_clk, Hub.onDom_clk, he]
        rfl
      · exact he
    · exact ⟨h.clk.rotSat, rfl⟩
  case refine_2 =>
    unfold checkRot
    dsimp only
    split
    · split
      · refine List.IsPrefix.trans ?_ (sendFault_collects ..)
        rw [Hub.onDom_flt, hflt]
        exact List.prefix_rfl
      · rw [hflt]
        exact List.prefix_rfl
    · exact List.prefix_rfl

theorem checkRots_checked (h : Hub) : RotsChecked h (checkRots h) := by
  unfold checkRots
  generalize allFin 16 = l
  induction l generalizing h with
  | nil => exact ⟨⟨_, rfl⟩, List.prefix_rfl, fun _ => rfl⟩
  | cons a l ih =>
    obtain ⟨⟨e, hc⟩, hq, ha⟩ := checkRot_checked a h
    obtain ⟨⟨e', hc'⟩, hq', ha'⟩ := ih (checkRot a h)
    refine ⟨⟨e', ?_⟩, hq.trans hq', fun m => (ha' m).trans (ha m)⟩
    rw [forEach_cons, hc', hc]

/-- The phase and the frequency by which the standby root differs, seen from the root that leaves. -/
def Hub.phiFrom (h : Hub) (r : Side) : Int := if r == .a then h.phiX else -h.phiX
def Hub.freqFrom (h : Hub) (r : Side) : Int := if r == .a then h.clk.relFreq else -h.clk.relFreq

theorem Hub.freqFrom_eq (h : Hub) (r : Side) : h.freqFrom r = if r = .a then h.clk.relFreq else -h.clk.relFreq := by
  cases r <;> rfl

theorem Hub.phiFrom_neg (h : Hub) (r : Side) : -h.phiFrom r = if r = .a then -h.phiX else h.phiX := by
  unfold Hub.phiFrom
  cases r
  case a => rw [if_pos rfl, if_pos (by decide)]
  case b => rw [if_neg (by decide), if_neg (by decide), Int.neg_neg]

theorem changeover_clk {old : RootState} {h : Hub} {r : Side} (hr : h.activeSide = r) : ∃ ci nt, (changeover old h).clk =
    { setRoot r old false (setRoot (otherSide r) .active true h.clk) with
      activeB := otherSide r == .b, relValid := false, corr := h.clk.corr + h.freqFrom r * 2 ^ 24
      corrTarget := h.clk.corr + h.freqFrom r * 2 ^ 24, corrInherit := ci, nomTime := nt, jumpHeld := false
      rootEvt := h.clk.rootEvt.raise (bit16 0) } := by
  subst hr
  unfold changeover
  extract_lets was new phi y corr g g2
  have hy : y = h.freqFrom was := rfl
  have hbump := (bumpCounter_only 7 (raiseRoot (bit16 0) g2)).eq_clk (by decide) (by decide)
  rw [hbump, raiseRoot_clk, ← hy]
  exact ⟨_, _, rfl⟩

theorem changeover_flt (old : RootState) (h : Hub) : (changeover old h).flt = h.flt := by
  unfold changeover
  extract_lets was new phi y corr g g2
  rw [(bumpCounter_only 7 (raiseRoot (bit16 0) g2)).eq_flt (by decide) (by decide) (by decide), raiseRoot_flt]
  rfl

theorem changeover_acc {old : RootState} {h : Hub} {r : Side} (hr : h.activeSide = r) (m : Fin 16) :
    (changeover old h).doms[m].accA = h.doms[m].acc + BitVec.ofInt 112 (-h.phiFrom r) := by
  subst hr
  unfold changeover
  extract_lets was new phi y corr g g2
  have hphi : phi = h.phiFrom was := rfl
  rw [bumpCounter_doms, raiseRoot_doms, ← hphi]
  change (h.doms.map fun d : Dom => { d.turn (-phi) with sub := d.sub + phi })[m].accA = _
  simp only [Fin.getElem_fin, Vector.getElem_map]
  rfl

/-- The fault of the ACTIVE root beside a READY one: the other root is ACTIVE in its place. -/
theorem rootFault_changed {h : Hub} {r : Side} {cause : Nat} (hs : h.clk.root r = .active) (ho : h.clk.root (otherSide r) = .ready)
    (hr : h.activeSide = r) : (rootFault r cause h).clk.root r = .faulted ∧ (rootFault r cause h).clk.root (otherSide r) = .active ∧
    (rootFault r cause h).activeSide = otherSide r ∧ (rootFault r cause h).clk.corr = h.clk.corr + h.freqFrom r * 2 ^ 24 ∧
    (rootFault r cause h).clk.lastCause = BitVec.ofNat 3 cause ∧ (rootFault r cause h).clk.jumpHeld = false ∧
    (rootFault r cause h).clk.rootEvt = (h.clk.rootEvt.raise (rootFaultBit r)).raise (bit16 0) ∧
    ∀ m : Fin 16, (rootFault r cause h).doms[m].accA = h.doms[m].acc + BitVec.ofInt 112 (-h.phiFrom r) := by
  have hnoted := rootNoted_clk (r := r) cause (rootFaultBit r) h
  have hside : (rootNoted r cause (rootFaultBit r) h).activeSide = r := by
    unfold Hub.activeSide at hr ⊢
    rw [hnoted]
    exact hr
  obtain ⟨ci, nt, hch⟩ := changeover_clk (old := .faulted) hside
  obtain ⟨⟨e, hclk⟩, _, hacc⟩ := checkRots_checked (changeover .faulted (rootNoted r cause (rootFaultBit r) h))
  have hfreq : (rootNoted r cause (rootFaultBit r) h).freqFrom r = h.freqFrom r := by
    unfold Hub.freqFrom
    rw [hnoted]
  have hphi : (rootNoted r cause (rootFaultBit r) h).phiFrom r = h.phiFrom r := by
    unfold Hub.phiFrom Hub.phiX
    rw [hnoted]
  rw [rootFault_changeover hs ho]
  refine ⟨?_, ?_, Hub.activeSide_of ?_, ?_, ?_, ?_, ?_, fun m => ?_⟩
  case refine_8 => rw [hacc, changeover_acc hside, rootNoted_doms, hphi]
  all_goals rw [hclk, hch]
  case refine_1 =>
    exact Clk.root_setRoot_same r .faulted false (setRoot (otherSide r) .active true (rootNoted r cause (rootFaultBit r) h).clk)
  case refine_2 =>
    exact (Clk.root_setRoot_other r .faulted false (setRoot (otherSide r) .active true (rootNoted r cause (rootFaultBit r) h).clk)).trans
      (Clk.root_setRoot_same (otherSide r) .active true (rootNoted r cause (rootFaultBit r) h).clk)
  case refine_4 => rw [hfreq, hnoted]
  case refine_5 => cases r <;> exact congrArg Clk.lastCause hnoted
  case refine_7 => rw [hnoted]

theorem rootFault_readied {h : Hub} {r : Side} {cause : Nat} (hs : h.clk.root r = .ready) : (rootFault r cause h).clk.root r = .faulted ∧
    (rootFault r cause h).clk.root (otherSide r) = h.clk.root (otherSide r) ∧ (rootFault r cause h).clk.relValid = false ∧
    (rootFault r cause h).clk.lastCause = BitVec.ofNat 3 cause ∧ (rootFault r cause h).clk.jumpHeld = false ∧
    (rootFault r cause h).clk.rootEvt = h.clk.rootEvt.raise (rootFaultBit r) ∧ (rootFault r cause h).doms = h.doms := by
  rw [rootFault_ready hs, rootNoted_clk, rootNoted_doms]
  refine ⟨?_, ?_, rfl, rfl, rfl, rfl, rfl⟩
  · exact Clk.root_setRoot_same r .faulted false h.clk
  · exact Clk.root_setRoot_other r .faulted false h.clk

/-- The message of a fault is the next in the collector's queue. -/
theorem rootFault_enters {h : Hub} {r : Side} {cause : Nat} (hr : h.runs = true) (hq : h.flt.queue.length < 64)
    (hs : h.clk.root r = .ready ∨ h.clk.root r = .active) : ∃ m l, (rootFault r cause h).flt.queue = h.flt.queue ++ m :: l ∧
      m.msg = faultMsg (srcRoot r) .lockLost accNone mInternal cause := by
  rcases hs with hs | hs
  case inl =>
    rw [rootFault_ready hs]
    obtain ⟨m, hm, hmsg⟩ := rootNoted_enters (r := r) (h := h)
      (g := h.onClk fun c => { setRoot r .faulted false c with relValid := false, jumpHeld := false }) cause (rootFaultBit r) rfl rfl hr hq
    exact ⟨m, [], hm, hmsg⟩
  case inr =>
    by_cases ho : h.clk.root (otherSide r) = .ready
    case neg =>
      rw [rootFault_alone hs ho]
      obtain ⟨m, hm, hmsg⟩ := rootNoted_enters (r := r) (h := h) (g := h) cause (rootFaultBit r ||| bit16 9) rfl rfl hr hq
      exact ⟨m, [], hm, hmsg⟩
    case pos =>
      rw [rootFault_changeover hs ho]
      obtain ⟨m, hm, hmsg⟩ := rootNoted_enters (r := r) (h := h) (g := h) cause (rootFaultBit r) rfl rfl hr hq
      obtain ⟨l, hl⟩ := (checkRots_checked (changeover .faulted (rootNoted r cause (rootFaultBit r) h))).queue
      rw [changeover_flt, hm] at hl
      exact ⟨m, l, hl.symm.trans (List.append_assoc ..), hmsg⟩

/-! ## Jumps (R47) -/

/-- A jump attributed to the standby root, which is READY, faults that; attributed to the ACTIVE one it is a changeover. -/
theorem attributeJump_standby {h : Hub} (hs : h.clk.root (otherSide h.activeSide) = .ready) :
    (attributeJump false h).clk.root (otherSide h.activeSide) = .faulted ∧
    (attributeJump false h).clk.root h.activeSide = h.clk.root h.activeSide ∧ (attributeJump false h).clk.jumpHeld = false ∧
    (attributeJump false h).clk.lastCause = 3 ∧
    (attributeJump false h).clk.rootEvt = h.clk.rootEvt.raise (rootFaultBit (otherSide h.activeSide)) ∧
    (attributeJump false h).clk.relFreq = h.clk.relFreq := by
  have hf := rootFault_readied (h := h.onClk fun c => { c with jumpHeld := false }) (cause := 3) hs
  obtain ⟨h1, h2, _, h4, h5, h6, _⟩ := hf
  rw [otherSide_otherSide] at h2
  refine ⟨h1, h2, h5, h4, h6, ?_⟩
  have heff : attributeJump false h = rootFault (otherSide h.activeSide) 3 (h.onClk fun c => { c with jumpHeld := false }) := rfl
  rw [heff, rootFault_ready (by exact hs), rootNoted_clk]
  cases h.activeSide <;> rfl

theorem attributeJump_active {h : Hub} (ha : h.clk.root h.activeSide = .active) (hs : h.clk.root (otherSide h.activeSide) = .ready) :
    (attributeJump true h).clk.root h.activeSide = .faulted ∧ (attributeJump true h).clk.root (otherSide h.activeSide) = .active ∧
    (attributeJump true h).clk.jumpHeld = false ∧ (attributeJump true h).clk.lastCause = 3 := by
  obtain ⟨h1, h2, _, _, h5, h6, _⟩ :=
    rootFault_changed (h := h.onClk fun c => { c with jumpHeld := false }) (r := h.activeSide) (cause := 3) ha hs rfl
  exact ⟨h1, h2, h6, h5⟩

/-- The hub at a jump of the relation: what it has been, and which slots may attribute it. -/
def jumpSeen (f : Int) (h : Hub) : Hub :=
  h.onClk fun c =>
    { c with
      relFreq := f, jumpHeld := true, jumpStep := f - h.clk.relFreq, jumpSlots := h.qualifiedMask, jumpY := h.refs.map fun r => r.y
      jumpK := h.refs.map fun r => r.k, jumpMs := c.ms }

theorem rootXJump_large {f : Int} {h : Hub} (hr : h.runs = true) (hv : h.clk.relValid = true) (hn : h.clk.jumpHeld = false)
    (hl : jumpLimitX < (f - h.clk.relFreq).natAbs) : rootXJump f h =
      if h.qualifiedMask = 0 then attributeJump false (raiseRoot (bit16 3 ||| bit16 4) (jumpSeen f h)) else raiseRoot (bit16 3) (jumpSeen f h) := by
  unfold rootXJump
  dsimp only
  rw [hr, hv, hn, decide_eq_true hl, Bool.not_false, Bool.and_self, Bool.and_self, Bool.and_self, when_true]
  rfl

theorem jumpAttributionTimeout_due {h : Hub} (hr : h.runs = true) (hj : h.clk.jumpHeld = true) (hd : h.clk.jumpMs + 2000 ≤ h.clk.ms) :
    jumpAttributionTimeout h = attributeJump false (raiseRoot (bit16 4) h) := by
  unfold jumpAttributionTimeout
  rw [hr, hj, decide_eq_true hd, Bool.and_self, Bool.and_self, when_true]

theorem jumpAttributed_spans {h : Hub} {k : Fin 12} (hr : h.runs = true) (hj : h.clk.jumpHeld = true) (hs : h.clk.jumpSlots.getLsbD k = true)
    (hk : h.clk.jumpK[k] < h.refs[k].k) (hz : ∃ z l, h.refs[k].hist = some z :: l) : jumpAttributed k h =
      attributeJump (decide (h.clk.jumpStep.natAbs ≤ 2 * (slopeY (h.tau0 h.refs[k]) (h.refs[k].hist.take 2) - h.clk.jumpY[k]).natAbs)) h := by
  obtain ⟨z, l, hz⟩ := hz
  have hspans : h.spansJump k = true := by
    unfold Hub.spansJump
    rw [hs, decide_eq_true hk, hz]
    rfl
  unfold jumpAttributed
  rw [hr, hj, hspans, Bool.and_self, Bool.and_self, when_true]

theorem raiseRoot_activeSide (b : BitVec 16) (h : Hub) : (raiseRoot b h).activeSide = h.activeSide := by
  unfold Hub.activeSide
  rw [raiseRoot_clk]

theorem raiseRoot_root (b : BitVec 16) (h : Hub) (r : Side) : (raiseRoot b h).clk.root r = h.clk.root r := by
  rw [raiseRoot_clk]
  cases r <;> rfl

end Sys2Proof.Machine

namespace Sys2Proof

open Machine

/-- Settles O34: a root that locks or faults moves in the table of R45, and the fault of the ACTIVE one changes over. -/
theorem rootsStartAndFault : Obligations.RootsStartAndFault := by
  unfold Obligations.RootsStartAndFault
  refine ⟨fun s x ha hs ht => ⟨fun hl => ⟨fun dev => ?lock, fun hq => ?timeout⟩, fun hl hact hx => ?relation⟩, fun s x c hr hc hq hs hact => ?fault⟩
  case lock =>
    have F := tryActivate_frame x (rootLocks x dev s.toHub)
    refine ⟨_, exec_run (fun _ => rfl) (bootRootLock_due ha hs hl ht), F.locked (Clk.rootLocked_setRoot_same x .locking true s.clk), F.oven,
      F.other.trans (rootLocks_other dev), fun hn hm ho => ?_, fun hn => ?_⟩
    · exact tryActivate_active (rootLocks_mayActivate dev hs hn hm ho)
    · dsimp only
      rw [tryActivate_beside ((rootLocks_rootActive dev hs).trans hn)]
      exact rootLocks_root dev
  case timeout =>
    obtain ⟨m, hm, hmsg⟩ := rootNoted_enters (r := x) (h := s.toHub) (g := s.onClk (setRoot x .faulted false)) 1 (rootFaultBit x) rfl rfl
      (Hub.runs_of_awake ha) hq
    have F := tryActivate_frame (otherSide x) (rootNoted x 1 (rootFaultBit x) (s.onClk (setRoot x .faulted false)))
    have hother := F.other
    rw [otherSide_otherSide] at hother
    have hclk := rootNoted_clk (r := x) 1 (rootFaultBit x) (s.onClk (setRoot x .faulted false))
    refine ⟨_, exec_run (fun _ => rfl) (bootRootLockTimeout_due ha hs hl ht), hother.trans ?_, F.cause.trans ?_, ?_, m,
      (congrArg Flt.queue F.flt).trans hm, ?_, ?_, ?_⟩
    · rw [hclk]
      exact Clk.root_setRoot_same x .faulted false s.clk
    · rw [hclk]
      rfl
    · rw [F.evt, hclk]
      exact Evt.raise_bit _ (rootFaultBit_getLsbD x)
    all_goals
      rw [hmsg]
      cases x <;> rfl
  case relation =>
    refine ⟨_, exec_run (fun _ => rfl) (rootRelationValid_due (Hub.runs_of_awake ha) hact hx hs hl ht), ?_, rfl, ?_⟩
    · exact Clk.root_setRoot_same x .ready true s.clk
    · exact Clk.root_setRoot_other x .ready true s.clk
  case fault =>
    have heff : rootFaultDetected x c s.toHub = rootFault x (c.val + 1) s.toHub := by
      have hno : (c == 3 && s.laneTested 185) = false := by
        rcases hc with hc | hc
        · rw [beq_eq_false_iff_ne.mpr hc, Bool.false_and]
        · rw [hc, Bool.and_false]
      unfold rootFaultDetected
      rw [hr, hno, Bool.not_false, Bool.and_self, when_true]
    obtain ⟨m, l, hm, hmsg⟩ := rootFault_enters (cause := c.val + 1) hr hq hs
    have hqueue : ∃ m l, (rootFault x (c.val + 1) s.toHub).flt.queue = s.flt.queue ++ m :: l ∧
        m.msg.source = (match x with | .a => (0x220 : BitVec 12) | .b => 0x221) ∧ m.msg.kind = .lockLost ∧
            m.msg.address = BitVec.ofNat 32 (c.val + 1) := by
      refine ⟨m, l, hm, ?_, ?_, ?_⟩ <;> rw [hmsg]
      case refine_1 => cases x <;> rfl
      all_goals rfl
    have hbit := rootFaultBit_getLsbD x
    refine ⟨_, exec_run (fun _ => rfl) heff, ?_⟩
    dsimp only
    rcases hs with hs | hs
    case inl =>
      obtain ⟨h1, _, h3, h4, _, h6, h7⟩ := rootFault_readied (cause := c.val + 1) hs
      rw [h6]
      have hnot : s.clk.root x ≠ .active := by rw [hs]; decide
      exact ⟨h4, Evt.raise_bit _ hbit, hqueue, fun _ => ⟨h1, h3, h7⟩, fun hn => absurd hn hnot, fun hn => absurd hn hnot⟩
    case inr =>
      have hnot : s.clk.root x ≠ .ready := by rw [hs]; decide
      by_cases ho : s.clk.root (otherSide x) = .ready
      case pos =>
        obtain ⟨h1, h2, h3, h4, h5, _, h7, h8⟩ := rootFault_changed (cause := c.val + 1) hs ho (hact hs)
        rw [h7]
        refine ⟨h5, Evt.raise_keeps _ _ (Evt.raise_bit _ hbit), hqueue, fun hn => absurd hn hnot,
          fun _ _ => ⟨h1, h2, h3, ?_, Evt.raise_bit16 _ (by decide), fun k => ?_⟩, fun _ hn => absurd ho hn⟩
        · rw [h4, Hub.freqFrom_eq]
        · rw [h8 k, Hub.phiFrom_neg]
      case neg =>
        rw [rootFault_alone hs ho, rootNoted_clk, rootNoted_doms]
        refine ⟨rfl, Evt.raise_or _ _ _ (.inl hbit), ?_, fun hn => absurd hn hnot, fun _ hn => absurd hn ho,
          fun _ _ => ⟨?_, Evt.raise_or _ _ _ (.inr (by decide)), rfl⟩⟩
        · rw [← rootFault_alone hs ho]
          exact hqueue
        · cases x <;> exact hs

/-- Settles O35: a jump is held until a slot or the time attributes it, and the root it is attributed to faults. -/
theorem jumpsAttributed : Obligations.JumpsAttributed := by
  unfold Obligations.JumpsAttributed
  refine fun s hr hs ha => ⟨fun f hv hn hl => ?jump, fun hj => ⟨fun hd => ?timeout, fun k moved hk1 hk2 hz hm => ?slot⟩⟩
  case jump =>
    have hclk := raiseRoot_clk (bit16 3 ||| bit16 4) (jumpSeen f s.toHub)
    refine ⟨_, exec_run (fun _ => rfl) (rootXJump_large hr hv hn hl), ?_⟩
    by_cases hq : s.qualifiedMask = 0
    case neg =>
      rw [if_neg hq, raiseRoot_clk]
      exact ⟨rfl, Evt.raise_bit16 _ (by decide), fun _ => ⟨rfl, rfl, rfl⟩, fun h => absurd h hq⟩
    case pos =>
      have hside : (raiseRoot (bit16 3 ||| bit16 4) (jumpSeen f s.toHub)).activeSide = s.activeSide := raiseRoot_activeSide ..
      have hready : (raiseRoot (bit16 3 ||| bit16 4) (jumpSeen f s.toHub)).clk.root (otherSide s.activeSide) = .ready := by
        have hseen : ∀ r, (jumpSeen f s.toHub).clk.root r = s.clk.root r := fun r => by cases r <;> rfl
        rw [raiseRoot_root, hseen]
        exact hs
      obtain ⟨h1, _, h3, h4, h5, h6⟩ := attributeJump_standby (h := raiseRoot (bit16 3 ||| bit16 4) (jumpSeen f s.toHub))
        (by rw [hside]; exact hready)
      rw [hside] at h1
      rw [if_pos hq, h5, h6, hclk]
      exact ⟨rfl, Evt.raise_keeps _ _ (Evt.raise_or _ _ _ (.inl (by decide))), fun h => absurd hq h,
        fun _ => ⟨h3, Evt.raise_keeps _ _ (Evt.raise_or _ _ _ (.inr (by decide))), h4, h1⟩⟩
  case timeout =>
    have hside : (raiseRoot (bit16 4) s.toHub).activeSide = s.activeSide := raiseRoot_activeSide ..
    obtain ⟨h1, h2, h3, h4, h5, _⟩ := attributeJump_standby (h := raiseRoot (bit16 4) s.toHub) (by rw [hside, raiseRoot_root]; exact hs)
    rw [hside] at h1 h2
    refine ⟨_, exec_run (fun _ => rfl) (jumpAttributionTimeout_due hr hj hd), h3, h4, ?_, h1, h2.trans ((raiseRoot_root ..).trans ha)⟩
    rw [h5, raiseRoot_clk]
    exact Evt.raise_keeps _ _ (Evt.raise_bit16 _ (by decide))
  case slot =>
    subst hm
    refine ⟨_, exec_run (fun _ => rfl) (jumpAttributed_spans hr hj hk1 hk2 hz), ?_⟩
    dsimp only
    obtain ⟨a1, a2, a3, a4⟩ := attributeJump_active ha hs
    obtain ⟨b1, b2, b3, b4, _⟩ := attributeJump_standby hs
    by_cases hbig : s.clk.jumpStep.natAbs ≤ 2 * (slopeY (s.tau0 s.refs[k]) (s.refs[k].hist.take 2) - s.clk.jumpY[k]).natAbs
    case pos =>
      rw [decide_eq_true hbig]
      exact ⟨a3, a4, fun _ => ⟨a1, a2⟩, fun hlt => absurd hbig (Nat.not_le.mpr hlt)⟩
    case neg =>
      rw [decide_eq_false hbig]
      exact ⟨b3, b4, fun hle => absurd hle hbig, fun _ => ⟨b1, b2.trans ha⟩⟩

end Sys2Proof
end

section
/-!
SUPPORT. MON_CONFIG, MON_SNAPSHOT and the end of a window (R437, R442, R443).
-/

set_option Elab.async false

namespace Sys2Proof.Machine

/-! ## One unit of the monitors -/

theorem Hub.onMon_same (u : Fin 32) (f : Mon → Mon) (h : Hub) : (h.onMon u f).mons.unit[u] = f h.mons.unit[u] := upd_same ..

theorem Hub.onMon_other {u k : Fin 32} (hk : k ≠ u) (f : Mon → Mon) (h : Hub) : (h.onMon u f).mons.unit[k] = h.mons.unit[k] :=
  upd_other _ _ _ _ hk

/-! ## MON_CONFIG (R442) -/

theorem monConfigEff_bad {d : Desc} {h : Hub} {u : Fin 32} (hu : pf d.payload 0 0 8 = u.val) (hb : monConfigBad h d.payload = true) :
    monConfigEff d h = complete d.id .badParam h := by
  unfold monConfigEff
  rw [withFin_val hu, if_pos hb]

/-- An accepted setting that keeps its unit's task. -/
theorem monConfigEff_on {d : Desc} {h : Hub} {u : Fin 32} (hu : pf d.payload 0 0 8 = u.val) (hb : monConfigBad h d.payload = false)
    (ho : pb d.payload 1 7 = true) (ht : (pick h.comp.tasks (monTask u) {}).state ≠ .unplaced) :
    monConfigEff d h = complete d.id .ok (monSet u d.payload h) := by
  have hstate : ((pick h.comp.tasks (monTask u) {}).state == .unplaced) = false := beq_eq_false_iff_ne.mpr ht
  unfold monConfigEff
  rw [withFin_val hu, if_neg (by rw [hb]; exact Bool.false_ne_true)]
  dsimp only
  rw [ho, hstate]
  rfl

theorem monSet_same (u : Fin 32) (p : Payload) (h : Hub) : (monSet u p h).mons.unit[u] =
    { h.mons.unit[u] with
      cfg := pbytes p 40, enabled := pb p 1 7, bank := {}, unwritten := false, seen := h.monEvent (pf p 2 0 8) (pf p 4 0 16)
      acc := h.freshAcc h.mons.unit[u].acc.window flagPartial } := Hub.onMon_same ..

theorem monSet_other {u k : Fin 32} (hk : k ≠ u) (p : Payload) (h : Hub) : (monSet u p h).mons.unit[k] = h.mons.unit[k] :=
  Hub.onMon_other hk ..

/-! ## MON_SNAPSHOT (R443) -/

/-- The state in which a snapshot answers: its record written, and the accumulators begun anew where it says restart. -/
def snapshotTaken (u : Fin 32) (p : Payload) (a : Acc) (h : Hub) : Hub :=
  let g := if p.extractLsb' 64 64 = (0 : BitVec 64) then h else busWrite (p.extractLsb' 64 64) (monRecord a) h
  if pb p 1 1 then g.onMon u fun y => { y with acc := h.freshAcc h.mons.unit[u].acc.window flagPartial } else g

theorem monSnapshotEff_good {d : Desc} {h : Hub} {u : Fin 32} {a : Acc} (hu : pf d.payload 0 0 8 = u.val) (he : h.mons.unit[u].enabled = true)
    (hb : (d.payload.extractLsb' 64 64).toNat % 64 = 0) (hs : pb d.payload 1 1 = true → h.isSafe = false)
    (ha : a = if pb d.payload 1 0 then h.mons.unit[u].bank else h.mons.unit[u].acc) :
    monSnapshotEff d h = completeWith d.id .ok (resultOf [(0, 64, ofSigned 64 a.min), (64, 64, ofSigned 64 a.max), (128, 32, a.count),
        (160, 16, a.flags.toNat), (176, 16, a.window.toNat)]) (snapshotTaken u d.payload a h) := by
  have hno : (!h.mons.unit[u].enabled || (d.payload.extractLsb' 64 64).toNat % 64 != 0 || (pb d.payload 1 1 && h.isSafe)) = false := by
    rw [he, hb]
    cases hr : pb d.payload 1 1
    case false => rfl
    case true => rw [hs hr]; rfl
  unfold monSnapshotEff
  rw [withFin_val hu]
  dsimp only
  rw [if_neg (by rw [hno]; exact Bool.false_ne_true), ← ha]
  unfold snapshotTaken
  cases pb d.payload 1 1 <;> by_cases h0 : d.payload.extractLsb' 64 64 = (0 : BitVec 64) <;>
    simp only [h0, if_true, if_false, Bool.false_eq_true]
  rfl

theorem snapshotTaken_unit (u : Fin 32) (p : Payload) (a : Acc) (h : Hub) :
    (pb p 1 1 = false → (snapshotTaken u p a h).mons = h.mons) ∧
    (pb p 1 1 = true → (snapshotTaken u p a h).mons.unit[u] =
      { h.mons.unit[u] with acc := h.freshAcc h.mons.unit[u].acc.window flagPartial }) ∧
    ∀ k, k ≠ u → (snapshotTaken u p a h).mons.unit[k] = h.mons.unit[k] := by
  unfold snapshotTaken
  extract_lets g
  have hg : g.mons = h.mons := by
    change (ite _ _ _ : Hub).mons = _
    split <;> rfl
  cases hr : pb p 1 1
  case false => exact ⟨fun _ => hg, fun hc => (nomatch hc), fun k _ => congrArg (fun x : Mons => x.unit[k]) hg⟩
  case true =>
    rw [if_pos rfl]
    refine ⟨fun hc => (nomatch hc), fun _ => ?_, fun k hk => ?_⟩
    · rw [Hub.onMon_same, hg]
    · rw [Hub.onMon_other hk, hg]

theorem snapshotTaken_keeps {β : Type} {F : Hub → β} (hw : ∀ a b h, F (busWrite a b h) = F h) (hm : ∀ u f h, F (Hub.onMon u f h) = F h)
    (u : Fin 32) (p : Payload) (a : Acc) (h : Hub) : F (snapshotTaken u p a h) = F h := by
  unfold snapshotTaken
  extract_lets g
  have hg : F g = F h := by
    change F (ite _ _ _) = _
    split
    · rfl
    · exact hw ..
  split
  · exact (hm ..).trans hg
  · exact hg

/-- The record stands on the bus where a buffer is named. -/
theorem snapshotTaken_bus {u : Fin 32} {p : Payload} {a : Acc} {h : Hub} (hn : p.extractLsb' 64 64 ≠ (0 : BitVec 64)) :
    BusOp.write (p.extractLsb' 64 64) (monRecord a) ∈ (snapshotTaken u p a h).bus := by
  unfold snapshotTaken
  rw [if_neg hn]
  split <;> exact List.mem_cons_self ..

/-! ## The end of a window (R437) -/

theorem telOffer_mons (t : Fin 4) (k : Nat) (b : Bytes) (h : Hub) : (telOffer t k b h).mons = h.mons :=
  (telOffer_kept (A := { parts := [.telRings, .msix, .bus] }) (fun _ hp => hp) (.refl h)).only.eq_mons (by decide) fun _ hk => hk

/-- The entry that the MONITOR task writes clears a mark of its unit, and changes nothing else of the units. -/
theorem monEntry_units (u : Fin 32) (h : Hub) : (∃ b, (monEntry u h).mons.unit[u] = { h.mons.unit[u] with unwritten := b }) ∧
    ∀ k, k ≠ u → (monEntry u h).mons.unit[k] = h.mons.unit[k] := by
  unfold monEntry
  dsimp only
  split
  case isFalse => exact ⟨⟨_, rfl⟩, fun _ _ => rfl⟩
  case isTrue =>
    simp only [telOffer_mons]
    exact ⟨⟨false, Hub.onMon_same ..⟩, fun k hk => Hub.onMon_other hk ..⟩

/-- The unit whose window closes, before its task writes the entry. -/
def Mon.closed (fresh : Acc) (x : Mon) : Mon :=
  { x with
    bank := { x.acc with flags := x.acc.flags ||| (if x.unwritten && x.telEn then flagSkipped else 0) }
    acc := fresh, unwritten := x.telEn, skipped := if x.unwritten && x.telEn then satAdd 255 x.skipped 1 else x.skipped }

theorem closeWindow_units (u : Fin 32) (h : Hub) :
    (∃ b, (closeWindow u h).mons.unit[u] = { (h.mons.unit[u]).closed (h.freshAcc (h.mons.unit[u].acc.window + 1) 0) with unwritten := b }) ∧
    ∀ k, k ≠ u → (closeWindow u h).mons.unit[k] = h.mons.unit[k] := by
  obtain ⟨⟨b, hb⟩, ho⟩ := monEntry_units u (h.onMon u (Mon.closed (h.freshAcc (h.mons.unit[u].acc.window + 1) 0)))
  rw [Hub.onMon_same] at hb
  have heff : closeWindow u h = monEntry u (h.onMon u (Mon.closed (h.freshAcc (h.mons.unit[u].acc.window + 1) 0))) := by
    unfold closeWindow Hub.onMon Hub.onMons upd
    rfl
  rw [heff]
  exact ⟨⟨b, hb⟩, fun k hk => (ho k hk).trans (Hub.onMon_other hk ..)⟩

theorem monWindowClose_due {u : Fin 32} {h g : Hub} (hr : h.runs = true) (he : h.mons.unit[u].enabled = true) (hw : h.mons.unit[u].windowMs ≠ 0)
    (hg : reachDom 0 (h.windowEnd h.mons.unit[u] * fuU) h = some g) : monWindowClose u h = closeWindow u g := by
  unfold monWindowClose
  dsimp only
  rw [hr, he, bne_iff_ne.mpr hw, Bool.and_self, Bool.and_self, if_pos rfl, hg]

end Sys2Proof.Machine

namespace Sys2Proof

open Machine

/-- Settles O38: a setting, a snapshot and the end of a window are each one update of their unit. -/
theorem monitorCommands : Obligations.MonitorCommands := by
  unfold Obligations.MonitorCommands
  refine ⟨fun o d s u x S hu hx => ⟨fun hop hb ho ht => ?config, fun hop hb => ?refused, fun hop he hbuf hs => ?snapshot⟩,
    fun s u x hx hr he h hw hg => ?window⟩
  case config =>
    subst hx
    refine ⟨_, exec_served S (fun _ => rfl) (isOp_of hop) (by rw [hop]; rfl) (monConfigEff_on (h := markApplied d.id s.toHub) hu hb ho ht), ?_⟩
    simp only [complete, completeWith_mons]
    refine ⟨?_, fun k hk => monSet_other hk .., S.answers (g := monSet u d.payload (markApplied d.id s.toHub)) rfl rfl .ok 0⟩
    rw [monSet_same, ho]
    rfl
  case refused =>
    refine ⟨_, exec_served S (fun _ => rfl) (isOp_of hop) (by rw [hop]; rfl) (monConfigEff_bad (h := markApplied d.id s.toHub) hu hb), ?_⟩
    simp only [complete, completeWith_mons]
    exact ⟨rfl, S.answers (g := markApplied d.id s.toHub) rfl rfl .badParam 0⟩
  case snapshot =>
    subst hx
    have hinflight := snapshotTaken_keeps (F := fun g => g.host.inflight) (fun _ _ _ => rfl) (fun _ _ _ => rfl) u d.payload
      (if pb d.payload 1 0 then s.mons.unit[u].bank else s.mons.unit[u].acc) (markApplied d.id s.toHub)
    have hcharge := snapshotTaken_keeps (F := Hub.inCharge) (fun _ _ _ => rfl) (fun _ _ _ => rfl) u d.payload
      (if pb d.payload 1 0 then s.mons.unit[u].bank else s.mons.unit[u].acc) (markApplied d.id s.toHub)
    obtain ⟨h1, h2, h3⟩ := snapshotTaken_unit u d.payload (if pb d.payload 1 0 then s.mons.unit[u].bank else s.mons.unit[u].acc)
      (markApplied d.id s.toHub)
    refine ⟨_, _, exec_served S (fun _ => rfl) (isOp_of hop) (by rw [hop]; rfl)
      (monSnapshotEff_good (h := markApplied d.id s.toHub) hu he hbuf hs rfl), rfl, fun hn => ?_, ?_, ?_, ?_, fun q ho hx => ?_⟩
    · exact (completeWith_carries ..).bus.subset (snapshotTaken_bus hn)
    · simp only [completeWith_mons]
      exact h1
    · simp only [completeWith_mons]
      exact h2
    · simp only [completeWith_mons]
      exact h3
    · exact S.posted_after ho hx hinflight hcharge ..
  case window =>
    subst hx
    obtain ⟨m, rfl⟩ := reachDom_advanceTo hg
    obtain ⟨⟨b, hb⟩, hother⟩ := closeWindow_units u (advanceTo m s.toHub)
    refine ⟨_, exec_run (fun _ => rfl) (monWindowClose_due hr he hw hg), ?_⟩
    dsimp only
    rw [hb]
    simp only [advanceTo_mons] at hother ⊢
    exact ⟨rfl, rfl, he, rfl, hother⟩

end Sys2Proof
end

section
/-!
SUPPORT. What the journal's own writes and the entries of the Peat record leave: of the collector everything but its counts, of
the counters all but those of the errors found on the way (R372 to R374, R389, R421, R422).
-/

set_option Elab.async false

namespace Sys2Proof.Machine

/-- The collector without its queue, its event bits and the state of the Peat record. -/
def Flt.noPeat (x : Flt) : Flt :=
  { x.rest with head := 0, ffCount := 0, ffFull := false, peatSeq := 0, peatAt := none, peatLost := 0, peatLostAll := 0, armed := none }

/-- The store's block without its bytes, counters, profile and event bits, and without what the journal counts on. -/
def Shim.noJournal (x : Shim) : Shim := { x.rest with seq := 0, lastUe := 0 }

/-- Nothing but the Peat record and the store has moved: the messages and event bits there were are there still. -/
structure Journals (h t : Hub) : Prop where
  record : t.flt.noPeat = h.flt.noPeat
  events : ∀ i, h.flt.evt.bits.getLsbD i = true → t.flt.evt.bits.getLsbD i = true
  queue : h.flt.queue <+: t.flt.queue
  counters : ∀ k : Fin 256, k.val ≠ 12 → k.val ≠ 13 → t.shim.counters[k] = h.shim.counters[k]
  shim : t.shim.noJournal = h.shim.noJournal

theorem Journals.refl (h : Hub) : Journals h h := ⟨rfl, fun _ e => e, List.prefix_rfl, fun _ _ _ => rfl, rfl⟩

theorem Journals.trans {a b c : Hub} (p : Journals a b) (q : Journals b c) : Journals a c :=
  ⟨q.record.trans p.record, fun i e => q.events i (p.events i e), p.queue.trans q.queue,
    fun k h1 h2 => (q.counters k h1 h2).trans (p.counters k h1 h2), q.shim.trans p.shim⟩

/-- A change of the store alone. -/
theorem Journals.of_flt {h t : Hub} (hf : t.flt = h.flt)
    (hc : ∀ k : Fin 256, k.val ≠ 12 → k.val ≠ 13 → t.shim.counters[k] = h.shim.counters[k])
    (hs : t.shim.noJournal = h.shim.noJournal) : Journals h t := by
  refine ⟨?_, ?_, ?_, hc, hs⟩ <;> rw [hf]
  · exact fun _ e => e

/-- A change of the collector alone. -/
theorem Journals.of_evt {h t : Hub} (hr : t.flt.noPeat = h.flt.noPeat) (he : t.flt.evt = h.flt.evt)
    (hq : h.flt.queue <+: t.flt.queue) (hs : t.shim = h.shim) : Journals h t :=
  ⟨hr, fun _ e => by rw [he]; exact e, hq, fun _ _ _ => by rw [hs], by rw [hs]⟩

section
variable {h t : Hub} (j : Journals h t)
include j

/-- What does not see the Peat record is as it was. -/
theorem Journals.part {β : Type} (F : Flt → β) (hF : ∀ x : Flt, F x.noPeat = F x) : F t.flt = F h.flt :=
  (hF _).symm.trans ((congrArg F j.record).trans (hF _))

theorem Journals.shimPart {β : Type} (F : Shim → β) (hF : ∀ x : Shim, F x.noJournal = F x) : F t.shim = F h.shim :=
  (hF _).symm.trans ((congrArg F j.shim).trans (hF _))

theorem Journals.txn : t.shim.txn = h.shim.txn := j.shimPart Shim.txn fun _ => rfl
theorem Journals.halted : t.shim.halted = h.shim.halted := j.shimPart Shim.halted fun _ => rfl
theorem Journals.abandoned : t.shim.abandoned = h.shim.abandoned := j.shimPart Shim.abandoned fun _ => rfl
theorem Journals.driven : t.flt.driven = h.flt.driven := j.part Flt.driven fun _ => rfl
theorem Journals.minLow : t.flt.minLow = h.flt.minLow := j.part Flt.minLow fun _ => rfl
theorem Journals.safeEvt : t.flt.safeEvt = h.flt.safeEvt := j.part Flt.safeEvt fun _ => rfl
theorem Journals.cap : t.flt.cap = h.flt.cap := j.part Flt.cap fun _ => rfl
theorem Journals.ovf : t.flt.ovf = h.flt.ovf := j.part Flt.ovf fun _ => rfl
theorem Journals.capCnt : t.flt.capCnt = h.flt.capCnt := j.part Flt.capCnt fun _ => rfl
theorem Journals.history : t.flt.history = h.flt.history := j.part Flt.history fun _ => rfl
theorem Journals.degLnk : t.flt.degLnk = h.flt.degLnk := j.part Flt.degLnk fun _ => rfl
theorem Journals.fatal : t.flt.fatal = h.flt.fatal := j.part Flt.fatal fun _ => rfl
theorem Journals.dumps : t.flt.dumps = h.flt.dumps := j.part Flt.dumps fun _ => rfl
theorem Journals.dumpOk : t.flt.dumpOk = h.flt.dumpOk := j.part Flt.dumpOk fun _ => rfl
theorem Journals.dumpBusy : t.flt.dumpBusy = h.flt.dumpBusy := j.part Flt.dumpBusy fun _ => rfl

end

theorem forEach_journals {α : Type} (l : List α) {f : α → Hub → Hub} (hf : ∀ a g, Journals g (f a g)) (h : Hub) :
    Journals h (forEach l f h) := by
  induction l generalizing h with
  | nil => exact .refl h
  | cons a l ih => exact (hf a h).trans (ih (f a h))

/-! ## The steps of a write -/

theorem Hub.onFlt_journals {f : Flt → Flt} {h : Hub} (hr : ∀ x, (f x).noPeat = x.noPeat := by exact fun _ => rfl)
    (he : ∀ x, (f x).evt = x.evt := by exact fun _ => rfl) (hq : h.flt.queue <+: (f h.flt).queue := by exact List.prefix_rfl) :
    Journals h (h.onFlt f) :=
  .of_evt (hr _) (he _) hq rfl

theorem Hub.onShim_journals {f : Shim → Shim} {h : Hub} (hf : ∀ x, (f x).counters = x.counters := by exact fun _ => rfl)
    (hs : ∀ x, (f x).noJournal = x.noJournal := by exact fun _ => rfl) : Journals h (h.onShim f) :=
  .of_flt rfl (fun k _ _ => congrArg (fun x : Vector Nat 256 => x[k]) (hf h.shim)) (hs h.shim)

theorem Journals.onFlt {f : Flt → Flt} {h g : Hub} (j : Journals h g) (hr : ∀ x, (f x).noPeat = x.noPeat := by exact fun _ => rfl)
    (he : ∀ x, (f x).evt = x.evt := by exact fun _ => rfl) (hq : g.flt.queue <+: (f g.flt).queue := by exact List.prefix_rfl) :
    Journals h (g.onFlt f) := j.trans (Hub.onFlt_journals hr he hq)

theorem raiseFlt_flt (b : BitVec 16) (h : Hub) : (raiseFlt b h).flt = { h.flt with evt := h.flt.evt.raise b } := irqIf_flt ..

theorem raiseFlt_shim (b : BitVec 16) (h : Hub) : (raiseFlt b h).shim = h.shim := irqIf_shim ..

theorem raiseFlt_journals (b : BitVec 16) (h : Hub) : Journals h (raiseFlt b h) := by
  have e := raiseFlt_flt b h
  refine ⟨?_, fun i hi => ?_, ?_, fun _ _ _ => by rw [raiseFlt_shim], by rw [raiseFlt_shim]⟩ <;> rw [e]
  · rfl
  · exact Evt.raise_keeps _ _ hi

theorem raiseShim_journals (b : BitVec 16) (h : Hub) : Journals h (raiseShim b h) := Hub.onShim_journals

theorem sendFault_journals (src : Nat) (k : Kind) (acc ms ad : Nat) (h : Hub) : Journals h (sendFault src k acc ms ad h) := by
  unfold sendFault
  split
  · split
    · exact Hub.onFlt_journals (hq := List.prefix_append ..)
    · refine Journals.trans ?_ (raiseFlt_journals ..)
      exact Hub.onFlt_journals
  · exact .refl h

theorem bumpCounter_flt (k : Nat) (h : Hub) : (bumpCounter k h).flt = h.flt :=
  (bumpCounter_only k h).eq_flt (by decide) (by decide) (by decide)

theorem bumpCounter_at {k : Nat} {n : Fin 256} (hk : n.val = k) (h : Hub) :
    (bumpCounter k h).shim.counters[n] = satAdd (counterMax n) h.shim.counters[n] 1 := by
  subst hk
  unfold bumpCounter finOf
  rw [dif_pos n.isLt]
  exact upd_same ..

theorem bumpCounter_other {k : Nat} {n : Fin 256} (hk : n.val ≠ k) (h : Hub) :
    (bumpCounter k h).shim.counters[n] = h.shim.counters[n] := by
  unfold bumpCounter finOf
  split
  case h_1 m hm =>
    split at hm
    case isTrue hlt =>
      cases hm
      exact upd_other _ _ _ _ fun e => hk (congrArg Fin.val e)
    case isFalse => cases hm
  case h_2 => rfl

/-- The two counters of errors found in groups. -/
theorem bumpCounter_journals {k : Nat} (hk : k = 12 ∨ k = 13) (h : Hub) : Journals h (bumpCounter k h) :=
  .of_flt (bumpCounter_flt ..) (fun n h1 h2 => bumpCounter_other (by omega) h)
    (congrArg (fun x : Shim => { x with seq := 0, lastUe := 0 }) ((bumpCounter_only k h).shim.resolve_left (by decide)))

theorem completeWith_journals (id : Nat) (st : Status) (r : BitVec 192) (h : Hub) : Journals h (completeWith id st r h) := by
  refine .of_flt (completeWith_flt ..) (fun n _ _ => ?_) ?_
  · rw [(completeWith_only id st r h).counters.resolve_left (by decide)]
  · exact congrArg (fun x : Shim => { x with seq := 0, lastUe := 0 }) ((completeWith_only id st r h).shim.resolve_left (by decide))

theorem lastUe_journals (v : BitVec 128) (h : Hub) : Journals h (h.onShim fun s => { s with lastUe := v }) := Hub.onShim_journals

theorem noteUe_journals (finder addr : Nat) (h : Hub) : Journals h (noteUe finder addr h) := by
  unfold noteUe
  refine Journals.trans ?_ (bumpCounter_journals (.inr rfl) _)
  exact (lastUe_journals ..).trans (raiseShim_journals ..)

theorem mendGroup_journals (g : Nat) (h : Hub) : Journals h (mendGroup g h) := Hub.onShim_journals

theorem poisonGroup_journals (g : Nat) (h : Hub) : Journals h (poisonGroup g h) := Hub.onShim_journals

theorem readGroup_journals (acc ms g : Nat) (h : Hub) : Journals h (readGroup acc ms g h) := by
  unfold readGroup
  split
  · exact (sendFault_journals ..).trans (raiseShim_journals ..)
  · split
    · exact .refl h
    · exact (mendGroup_journals ..).trans ((sendFault_journals ..).trans ((raiseShim_journals ..).trans (bumpCounter_journals (.inl rfl) _)))
    · exact (mendGroup_journals ..).trans ((poisonGroup_journals ..).trans ((sendFault_journals ..).trans
        ((noteUe_journals ..).trans ((sendFault_journals ..).trans (raiseShim_journals ..)))))

theorem modifyCheck_journals (a n : Nat) (h : Hub) : Journals h (modifyCheck a n h) := by
  refine forEach_journals _ (fun g x => ?_) h
  split
  · exact .refl x
  · exact readGroup_journals ..

theorem storeRun_journals (a : Nat) (b : Bytes) (h : Hub) : Journals h (storeRun a b h) := by
  unfold storeRun
  extract_lets n whole
  refine (modifyCheck_journals a n h).trans ?_
  exact Hub.onShim_journals

theorem journalNow_journals (es : List (Nat × Bytes)) (h : Hub) : Journals h (journalNow es h) := by
  unfold journalNow applyTxn
  refine Journals.trans ?_ (forEach_journals es (fun e g => storeRun_journals e.1 e.2 g) _)
  exact Hub.onShim_journals

/-! ## Entries of the Peat record -/

theorem peatAtIndex_journals (i : Nat) (b : Bytes) (h : Hub) : Journals h (peatAtIndex i b h) := by
  unfold peatAtIndex
  exact Journals.onFlt (journalNow_journals ..)

theorem peatRunning_journals (type : Nat) (first : Bool) (msg t : BitVec 64) (ep : BitVec 16) (detail : Bytes) (h : Hub) :
    Journals h (peatRunning type first msg t ep detail h) := by
  unfold peatRunning
  exact Journals.onFlt (peatAtIndex_journals ..)

theorem peatEvent_journals (type : Nat) (detail : Bytes) (h : Hub) : Journals h (peatEvent type detail h) := peatRunning_journals ..

theorem peatFirst_journals (type : Nat) (m : Stamped) (h : Hub) : Journals h (peatFirst type m h) := by
  unfold peatFirst
  extract_lets g
  have hg : Journals h g := Hub.onFlt_journals
  split
  · exact hg.trans (Journals.onFlt (peatAtIndex_journals ..))
  · refine hg.trans (Journals.trans ?_ (raiseFlt_journals ..))
    exact Journals.onFlt (peatRunning_journals ..)

theorem peatMessage_journals (m : Stamped) (h : Hub) : Journals h (peatMessage m h) := by
  unfold peatMessage
  extract_lets free
  split
  · exact Journals.onFlt (peatRunning_journals ..)
  · exact Hub.onFlt_journals

/-- An entry touches the store, the collector and what the errors it may find touch. -/
theorem peatRunning_only (type : Nat) (first : Bool) (msg t : BitVec 64) (ep : BitVec 16) (detail : Bytes) (h : Hub) :
    Only { parts := [.msix, .store, .counters, .shimEvt, .shim, .collector, .fltEvt, .flt, .bus] } h
      (peatRunning type first msg t ep detail h) :=
  (peatRunning_kept (fun _ hp => hp) (.refl h)).only

/-! ## A transaction of the journal applied (R376) -/

theorem applyTxn_journals (x : Txn) (h : Hub) : Journals h (applyTxn x h) :=
  forEach_journals x.extents (fun e g => storeRun_journals e.1 e.2 g) h

theorem noteInvalid_journals (before : Shim) (h : Hub) : Journals h (noteInvalid before h) := by
  unfold noteInvalid
  split
  · exact raiseShim_journals ..
  · exact .refl h

theorem journalApply_open {x : Txn} {h : Hub} (ht : h.shim.txn = some x) (hc : x.committed = false) : journalApply h = h := by
  unfold journalApply
  rw [ht]
  dsimp only
  rw [hc]
  rfl

/-- With a committed transaction retired, or none there, the journal's own writes are all that has moved. -/
theorem journalApply_journals (h : Hub) :
    journalApply h = h ∨ Journals (h.onShim fun s => { s with txn := none }) (journalApply h) := by
  unfold journalApply
  split
  · exact .inl rfl
  · split
    · exact .inl rfl
    · refine .inr ?_
      extract_lets g
      have hg : Journals (h.onShim fun s => { s with txn := none }) g := (applyTxn_journals ..).trans (noteInvalid_journals ..)
      split
      · exact hg
      · exact hg.trans (completeWith_journals ..)

end Sys2Proof.Machine
end

section
/-!
SUPPORT. Sequence writes of the event-status registers (R356, R357): which register a write reaches, what a hit clears, and what
goes with the bits (R66, R176, R411, R414, R420).
-/

set_option Elab.async false

namespace Sys2Proof.Machine

/-! ## An event-status register by its name -/

/-- A change of one event-status register. -/
def Hub.onEvtOf (r : EvtReg) (f : Evt → Evt) (h : Hub) : Hub :=
  match r with
  | .root => h.onClk fun c => { c with rootEvt := f c.rootEvt }
  | .rotSat => h.onClk fun c => { c with rotSat := f c.rotSat }
  | .evt n => h.onEvt n fun c => { c with evt := f c.evt }
  | .ivu u => h.onIvu u fun c => { c with evt := f c.evt }
  | .tdc => h.onTdc fun c => { c with evt := f c.evt }
  | .ref s => h.onRef s fun c => { c with evt := f c.evt }
  | .clkout n => h.onOut n fun c => { c with evt := f c.evt }
  | .pls n => h.onPls n fun c => { c with evt := f c.evt }
  | .lnk n => h.onLink n fun c => { c with evt := f c.evt }
  | .hier => h.onHier fun c => { c with evt := f c.evt }
  | .reed => h.onComp fun c => { c with evt := f c.evt }
  | .charge => h.onComp fun c => { c with cevt := f c.cevt }
  | .shim => h.onShim fun c => { c with evt := f c.evt }
  | .cal => h.onCal fun c => { c with evt := f c.evt }
  | .mon j => h.onMons fun m => { m with evt := upd m.evt j f }
  | .pwr => h.onPwr fun p => { p with evt := f p.evt }

theorem Hub.onEvtOf_same (r : EvtReg) (f : Evt → Evt) (h : Hub) : (h.onEvtOf r f).evtOf r = f (h.evtOf r) := by
  cases r
  case evt n => exact upd_field EvtCh.evt ..
  case ivu u => exact upd_field Ivu.evt ..
  case ref s => exact upd_field RefSlot.evt ..
  case clkout n => exact upd_field ClkOut.evt ..
  case pls n => exact upd_field Pls.evt ..
  case lnk n => exact upd_field Link.evt ..
  case mon j => exact upd_same ..
  all_goals rfl

/-- The field of another one. -/
theorem upd_field_other {α β : Type} {n : Nat} (F : α → β) {v : Vector α n} {i j : Fin n} {f : α → α} (hij : j ≠ i) :
    F (upd v i f)[j] = F v[j] := congrArg F (upd_other _ _ _ _ hij)

theorem Hub.onEvtOf_other {r k : EvtReg} (hk : k ≠ r) (f : Evt → Evt) (h : Hub) : (h.onEvtOf r f).evtOf k = h.evtOf k := by
  cases r <;> cases k
  case evt.evt n j => exact upd_field_other EvtCh.evt fun e => hk (congrArg _ e)
  case ivu.ivu n j => exact upd_field_other Ivu.evt fun e => hk (congrArg _ e)
  case ref.ref n j => exact upd_field_other RefSlot.evt fun e => hk (congrArg _ e)
  case clkout.clkout n j => exact upd_field_other ClkOut.evt fun e => hk (congrArg _ e)
  case pls.pls n j => exact upd_field_other Pls.evt fun e => hk (congrArg _ e)
  case lnk.lnk n j => exact upd_field_other Link.evt fun e => hk (congrArg _ e)
  case mon.mon n j => exact upd_other _ _ _ _ fun e => hk (congrArg _ e)
  case root.root | rotSat.rotSat | tdc.tdc | hier.hier | reed.reed | charge.charge | shim.shim | cal.cal | pwr.pwr => exact absurd rfl hk
  all_goals rfl

theorem Hub.onEvtOf_top (r : EvtReg) (f : Evt → Evt) (h : Hub) : (h.onEvtOf r f).top = h.top := by
  cases r <;> rfl

/-- A register that the change leaves as it is. -/
theorem Hub.onEvtOf_id {r : EvtReg} {f : Evt → Evt} {h : Hub} (hf : f (h.evtOf r) = h.evtOf r) : h.onEvtOf r f = h := by
  cases r
  case root => exact congrArg (fun x => { h with clk := { h.clk with rootEvt := x } }) hf
  case rotSat => exact congrArg (fun x => { h with clk := { h.clk with rotSat := x } }) hf
  case evt n => exact congrArg (fun x => { h with evts := x }) (upd_id (f := fun c => { c with evt := f c.evt })
      (congrArg (fun x => { h.evts[n] with evt := x }) hf))
  case ivu u => exact congrArg (fun x => { h with ivus := x }) (upd_id (f := fun c => { c with evt := f c.evt })
      (congrArg (fun x => { h.ivus[u] with evt := x }) hf))
  case tdc => exact congrArg (fun x => { h with tdc := { h.tdc with evt := x } }) hf
  case ref s => exact congrArg (fun x => { h with refs := x }) (upd_id (f := fun c => { c with evt := f c.evt })
      (congrArg (fun x => { h.refs[s] with evt := x }) hf))
  case clkout n => exact congrArg (fun x => { h with outs := x }) (upd_id (f := fun c => { c with evt := f c.evt })
      (congrArg (fun x => { h.outs[n] with evt := x }) hf))
  case pls n => exact congrArg (fun x => { h with plss := x }) (upd_id (f := fun c => { c with evt := f c.evt })
      (congrArg (fun x => { h.plss[n] with evt := x }) hf))
  case lnk n => exact congrArg (fun x => { h with links := x }) (upd_id (f := fun c => { c with evt := f c.evt })
      (congrArg (fun x => { h.links[n] with evt := x }) hf))
  case hier => exact congrArg (fun x => { h with hier := { h.hier with evt := x } }) hf
  case reed => exact congrArg (fun x => { h with comp := { h.comp with evt := x } }) hf
  case charge => exact congrArg (fun x => { h with comp := { h.comp with cevt := x } }) hf
  case shim => exact congrArg (fun x => { h with shim := { h.shim with evt := x } }) hf
  case cal => exact congrArg (fun x => { h with cal := { h.cal with evt := x } }) hf
  case mon j => exact congrArg (fun x => { h with mons := { h.mons with evt := x } }) (upd_id hf)
  case pwr => exact congrArg (fun x => { h with pwr := { h.pwr with evt := x } }) hf

/-! ## Hits and misses -/

theorem Evt.hits_iff (e : Evt) (v : Reg) : e.hits v = true ↔ v.extractLsb' 0 16 = e.seq := beq_iff_eq

theorem Evt.ack_hit {e : Evt} {v : Reg} (hv : e.hits v = true) : e.ack v = { bits := 0, seq := e.seq } := if_pos hv

theorem Evt.ack_miss {e : Evt} {v : Reg} (hv : e.hits v = false) : e.ack v = e := if_neg (by rw [hv]; exact Bool.false_ne_true)

theorem Evt.raise_zero (e : Evt) : e.raise 0 = e := if_pos BitVec.zero_and

theorem Evt.rising_zero (e : Evt) : e.rising 0 = 0 := BitVec.zero_and

/-- Raising nothing does nothing. -/
theorem raiseRotSat_zero (h : Hub) : raiseRotSat 0 h = h := by
  have hid : (h.onClk fun c => { c with rotSat := c.rotSat.raise 0 }) = h :=
    Hub.onEvtOf_id (r := .rotSat) (f := fun e => e.raise 0) (Evt.raise_zero _)
  unfold raiseRotSat
  rw [Evt.rising_zero, hid]
  rfl

/-- Where no cause stands, a write to any of the plain registers is the sequence write, and nothing more. -/
theorem ackPlain_quiet {r : EvtReg} {v : Reg} {h : Hub} (hrot : r = .rotSat → ∀ k : Fin 16, h.doms[k].limited = false)
    (htdc : r = .tdc → h.tdc.clamped = 0)
    (hhier : r = .hier → ∀ n : Fin 48, (h.links[n].sends && h.follows n && h.links[n].peerFollows) = false)
    (hv : (h.evtOf r).hits v = true) : ackPlain r v h = h.onEvtOf r fun e => e.ack v := by
  cases r
  case rotSat =>
    have hmask : ackPlain.maskOf16 (fun m => h.doms[m].limited) = 0 := by
      unfold ackPlain.maskOf16
      simp only [hrot rfl, Bool.false_eq_true, if_false]
      rfl
    unfold ackPlain
    refine (if_pos hv).trans ?_
    rw [hmask, raiseRotSat_zero]
    rfl
  case tdc =>
    unfold ackPlain
    exact (if_pos hv).trans (if_pos (htdc rfl))
  case hier =>
    unfold ackPlain
    refine (if_pos hv).trans (if_neg ?_)
    intro hany
    obtain ⟨n, -, hn⟩ := List.any_eq_true.mp hany
    exact Bool.false_ne_true ((hhier rfl n).symm.trans hn)
  all_goals rfl

/-- Any other value does nothing. -/
theorem ackPlain_miss {r : EvtReg} {v : Reg} {h : Hub} (hv : (h.evtOf r).hits v = false) : ackPlain r v h = h := by
  have hid : (h.onEvtOf r fun e => e.ack v) = h := Hub.onEvtOf_id (Evt.ack_miss hv)
  cases r
  case rotSat => exact if_neg (by rw [show h.clk.rotSat.hits v = false from hv]; exact Bool.false_ne_true)
  case tdc => exact if_neg (by rw [show h.tdc.evt.hits v = false from hv]; exact Bool.false_ne_true)
  case hier => exact if_neg (by rw [show h.hier.evt.hits v = false from hv]; exact Bool.false_ne_true)
  all_goals exact hid

/-! ## What goes with the bits of the other four (R66, R176, R411, R414, R420) -/

theorem ackDll_miss {j : Fin 6} {v : Reg} {h : Hub} (hv : h.dllEvt[j].hits v = false) : ackDll j v h = h := by
  unfold ackDll
  rw [hv]
  rfl

theorem ackDom_miss {n : Fin 16} {v : Reg} {h : Hub} (hv : h.doms[n].evt.hits v = false) : ackDom n v h = h := by
  unfold ackDom
  rw [hv]
  rfl

theorem ackFlt_miss {v : Reg} {h : Hub} (hv : h.flt.evt.hits v = false) : ackFlt v h = h := by
  unfold ackFlt
  rw [hv]
  rfl

theorem ackDegLnk_miss {j : Fin 3} {v : Reg} {h : Hub} (hv : h.flt.degLnk[j].hits v = false) : ackDegLnk j v h = h := by
  unfold ackDegLnk
  rw [hv]
  rfl

theorem ackSafe_miss {v : Reg} {h : Hub} (hv : h.flt.safeEvt.hits v = false ∨ h.safeSources ≠ []) : ackSafe v h = h := by
  have hno : (h.flt.safeEvt.hits v && h.safeSources.isEmpty) = false := by
    rcases hv with hv | hv
    · rw [hv, Bool.false_and]
    · rw [List.isEmpty_eq_false_iff.mpr hv, Bool.and_false]
  unfold ackSafe
  rw [hno]
  rfl

/-- A line that tracks again (R66). -/
def Dll.rearmed (x : Dll) : Dll := if x.frozen then { x with frozen := false, slow := true } else x

/-- Of a list without repeats, the lines that p picks track again, and no other line changes. -/
theorem forEach_rearm_dlls (p : Fin 96 → Bool) {l : List (Fin 96)} (hl : l.Nodup) (h : Hub) (n : Fin 96) :
    (forEach l (fun k h => if p k then rearmDll k h else h) h).dlls[n] =
      if n ∈ l ∧ p n = true then h.dlls[n].rearmed else h.dlls[n] := by
  induction l generalizing h with
  | nil => rw [if_neg fun e => List.not_mem_nil e.1]; rfl
  | cons k l ih =>
    obtain ⟨hk, hl'⟩ := List.nodup_cons.mp hl
    rw [forEach_cons, ih hl']
    by_cases hnk : n = k
    · subst hnk
      rw [if_neg fun e => hk e.1]
      by_cases hp : p n = true
      · rw [if_pos hp, if_pos ⟨List.mem_cons_self .., hp⟩]
        exact upd_same ..
      · rw [if_neg hp, if_neg fun e => hp e.2]
    · have hsame : (if p k = true then rearmDll k h else h).dlls[n] = h.dlls[n] := by
        split
        · exact upd_other _ _ _ _ hnk
        · rfl
      simp only [hsame, List.mem_cons, hnk, false_or]

theorem ackDll_hit {j : Fin 6} {v : Reg} {h : Hub} (hv : h.dllEvt[j].hits v = true) :
    (ackDll j v h).dllEvt[j].bits = 0 ∧ ∀ n : Fin 96, (ackDll j v h).dlls[n] =
      if n.val / 16 = j.val ∧ h.dllEvt[j].bits.getLsbD (n.val % 16) = true then h.dlls[n].rearmed else h.dlls[n] := by
  have heff : ackDll j v h = forEach (allFin 96) (fun n g => if n.val / 16 = j.val && h.dllEvt[j].bits.getLsbD (n.val % 16) then rearmDll n g
      else g) { h with dllEvt := upd h.dllEvt j fun e => e.ack v } := if_pos hv
  have hevt : (ackDll j v h).dllEvt = upd h.dllEvt j fun e => e.ack v := by
    rw [heff]
    refine forEach_keeps (F := fun g => g.dllEvt) (fun n g => ?_) _ _
    split <;> rfl
  refine ⟨?_, fun n => ?_⟩
  · rw [hevt]
    exact (upd_field Evt.bits ..).trans (congrArg Evt.bits (Evt.ack_hit hv))
  · rw [heff]
    refine (forEach_rearm_dlls (fun n => n.val / 16 = j.val && h.dllEvt[j].bits.getLsbD (n.val % 16)) (l := allFin 96)
      (List.nodup_finRange 96) _ n).trans ?_
    simp only [allFin, Bool.and_eq_true, decide_eq_true_eq, List.mem_finRange, true_and]

/-- A cause lasts whatever else of a domain changes but its state. -/
theorem Hub.lasts_onDom {f : Dom → Dom} (hf : ∀ x, (f x).state = x.state) (n : Fin 16) (h : Hub) (m : FaultMsg) :
    (h.onDom n f).lasts m = h.lasts m := by
  have hstate : ∀ d : Fin 16, (h.onDom n f).doms[d].state = h.doms[d].state := fun d => by
    by_cases hd : d = n
    · subst hd
      exact (upd_field Dom.state ..).trans (hf _)
    · exact upd_field_other Dom.state hd
  unfold Hub.lasts
  cases m.kind
  case holdoverOut => exact congrArg (ofSource 16 0x210 m.source.toNat) (funext fun d => congrArg (· == DomState.holdoverOut) (hstate d))
  all_goals rfl

theorem Hub.domMarked_onDom {f : Dom → Dom} (hf : ∀ x, (f x).state = x.state) (n k : Fin 16) (h : Hub) :
    (h.onDom n f).domMarked k = h.domMarked k := by
  unfold Hub.domMarked Hub.activeCauses
  simp only [Hub.lasts_onDom hf]
  rfl

theorem distrust_doms (n : Fin 16) (h : Hub) :
    (distrust n h).doms = upd h.doms n fun d => { d with untrusted := true, evt := d.evt.raise (bit16 9) } :=
  (irqIf_doms ..).trans (upd_upd h.doms n (fun d => { d with untrusted := true }) fun d => { d with evt := d.evt.raise (bit16 9) })

theorem ackDom_hit {n : Fin 16} {v : Reg} {h : Hub} (hv : h.doms[n].evt.hits v = true) :
    (ackDom n v h).doms[n].untrusted = h.domMarked n ∧ (h.domMarked n = false → (ackDom n v h).doms[n].evt.bits = 0) ∧
      ∀ k, k ≠ n → (ackDom n v h).doms[k] = h.doms[k] := by
  have heff : ackDom n v h = if h.domMarked n = true then distrust n (h.onDom n fun d => { d with evt := d.evt.ack v, untrusted := false })
      else h.onDom n fun d => { d with evt := d.evt.ack v, untrusted := false } := by
    unfold ackDom
    rw [if_pos hv]
    dsimp only
    rw [Hub.domMarked_onDom (f := fun d => { d with evt := d.evt.ack v, untrusted := false }) fun _ => rfl]
  rw [heff]
  split
  case isTrue hm =>
    simp only [distrust_doms, Hub.onDom_doms]
    refine ⟨?_, fun hc => absurd (hm.symm.trans hc) (by decide), fun k hk => ?_⟩
    · exact (upd_field Dom.untrusted ..).trans hm.symm
    · exact (upd_other _ _ _ _ hk).trans (upd_other _ _ _ _ hk)
  case isFalse hm =>
    simp only [Hub.onDom_doms]
    refine ⟨?_, fun _ => ?_, fun k hk => upd_other _ _ _ _ hk⟩
    · exact (upd_field Dom.untrusted ..).trans (Bool.eq_false_iff.mpr hm).symm
    · exact (upd_field (fun d : Dom => d.evt.bits) ..).trans (congrArg Evt.bits (Evt.ack_hit hv))

theorem ackFlt_hit {v : Reg} {h : Hub} (hv : h.flt.evt.hits v = true) : (ackFlt v h).flt =
    if h.flt.evt.bits.getLsbD 4 = true then { h.flt with evt := { bits := 0, seq := h.flt.evt.seq }, cap := none, ovf := false, capCnt := 0 }
    else { h.flt with evt := { bits := 0, seq := h.flt.evt.seq } } := by
  rw [← Evt.ack_hit hv]
  exact congrArg Hub.flt (if_pos hv)

theorem ackDegLnk_hit {j : Fin 3} {v : Reg} {h : Hub} (hv : h.flt.degLnk[j].hits v = true) :
    (ackDegLnk j v h).flt.degLnk = upd h.flt.degLnk j fun e => (e.ack v).raise (h.linkMarks j) :=
  congrArg (fun x : Hub => x.flt.degLnk) (if_pos hv)

/-! ## The way out of SAFE (R420) -/

theorem ackSafe_hit {v : Reg} {h : Hub} (hv : h.flt.safeEvt.hits v = true) (hs : h.safeSources = []) : ackSafe v h =
    if h.isSafe = true ∧ h.shim.loader = false then leaveSafe (h.onFlt fun f => { f with safeEvt := f.safeEvt.ack v })
    else h.onFlt fun f => { f with safeEvt := f.safeEvt.ack v } := by
  unfold ackSafe
  rw [hv, hs]
  refine (if_pos rfl).trans (if_congr ?_ rfl rfl)
  rw [Bool.and_eq_true, Bool.not_eq_true']
  rfl

/-- What leaves SAFE, before its entry in the Peat record. -/
theorem leaveSafe_eq (h : Hub) : ∃ g, leaveSafe h = peatEvent 3 [] g ∧ g.flt = h.flt ∧ g.top = { h.top with mode := .service } := by
  have hrel : ∀ w x, (releaseHeld w x).flt = x.flt ∧ (releaseHeld w x).top = x.top := fun w x => by
    have honly := (releaseHeld_kept (a0 := w) (A := { parts := [.msix, .comp, .shim, .bus] }) (fun _ hp => hp) (.refl x)).only
    exact ⟨honly.eq_flt (by decide) (by decide) (by decide), honly.eq_top (by decide) (by decide)⟩
  unfold leaveSafe
  extract_lets g1 split g2 g3
  refine ⟨g3, rfl, ?_, ?_⟩
  · change (ite _ _ _ : Hub).flt = _
    split
    · exact (hrel ..).1.trans (hrel ..).1
    · rfl
  · change (ite _ _ _ : Hub).top = _
    split
    · exact (hrel ..).2.trans (hrel ..).2
    · rfl

theorem leaveSafe_top (h : Hub) : (leaveSafe h).top = { h.top with mode := .service } := by
  obtain ⟨g, heq, -, htop⟩ := leaveSafe_eq h
  rw [heq, ← htop]
  exact (peatRunning_only ..).eq_top (by decide) (by decide)

theorem leaveSafe_pin (h : Hub) : (leaveSafe h).flt.driven = h.flt.driven ∧ (leaveSafe h).flt.safeEvt = h.flt.safeEvt := by
  obtain ⟨g, heq, hflt, -⟩ := leaveSafe_eq h
  have j := peatEvent_journals 3 [] g
  rw [heq, j.driven, j.safeEvt, hflt]
  exact ⟨rfl, rfl⟩

end Sys2Proof.Machine

namespace Sys2Proof

open Machine

/-- Settles O45: each register is one `Evt`, and a sequence write is `Evt.ack` of it. -/
theorem eventRegisters : Obligations.EventRegisters := by
  unfold Obligations.EventRegisters
  refine ⟨fun e b => ⟨?bits, ?seq, fun hb => if_neg hb, fun hb => if_pos hb⟩, fun s m v ha =>
    ⟨fun r hv => ?miss, fun r hv hrot htdc hhier => ?hit, fun j hv => ?dll, fun n hv => ?dom, fun hv => ?flt, fun j hv => ?deg⟩⟩
  case bits => unfold Evt.word; omega
  case seq => unfold Evt.word; omega
  case miss =>
    refine exec_run (fun _ => rfl) ?_
    unfold eventStatusAck
    rw [ha, when_true, ackPlain_miss (Bool.eq_false_iff.mpr fun hc => hv ((Evt.hits_iff ..).mp hc))]
  case hit =>
    have hhit := (Evt.hits_iff ..).mpr hv
    refine ⟨_, exec_run (fun _ => rfl) (g := s.toHub.onEvtOf r fun e => e.ack v) ?_, ?_, Hub.onEvtOf_top .., fun k hk => Hub.onEvtOf_other hk ..⟩
    · unfold eventStatusAck
      rw [ha, when_true, ackPlain_quiet hrot htdc hhier hhit]
    · exact (Hub.onEvtOf_same ..).trans (Evt.ack_hit hhit)
  case dll =>
    refine exec_run (fun _ => rfl) ?_
    unfold clkDllEvtAck
    rw [ha, when_true, ackDll_miss hv]
  case dom =>
    refine exec_run (fun _ => rfl) ?_
    unfold domEvtAck
    rw [ha, when_true, ackDom_miss hv]
  case flt =>
    refine exec_run (fun _ => rfl) ?_
    unfold fltEvtAck
    rw [ha, when_true, ackFlt_miss hv]
  case deg =>
    refine exec_run (fun _ => rfl) ?_
    unfold fltDegLnkAck
    rw [ha, when_true, ackDegLnk_miss hv]

/-- Settles O46: what goes with the bits of the four registers whose clear does more. -/
theorem eventsAcknowledged : Obligations.EventsAcknowledged := by
  unfold Obligations.EventsAcknowledged
  refine fun s m v ha => ⟨fun j hv => ?dll, fun n hv => ?dom, fun hv => ?flt, fun j hv => ?deg⟩
  case dll =>
    obtain ⟨hbits, hlines⟩ := ackDll_hit (h := s.toHub) hv
    refine ⟨_, exec_run (fun _ => rfl) (g := ackDll j v s.toHub) ?_, hbits, fun n => (hlines n).trans ?_⟩
    · unfold clkDllEvtAck
      rw [ha, when_true]
    · by_cases hn : n.val / 16 = j.val ∧ s.dllEvt[j].bits.getLsbD (n.val % 16) = true
      · rw [if_pos hn]
        exact if_congr ⟨fun hf => ⟨hn.1, hn.2, hf⟩, fun hf => hf.2.2⟩ rfl rfl
      · rw [if_neg hn, if_neg fun hf => hn ⟨hf.1, hf.2.1⟩]
  case dom =>
    refine ⟨_, exec_run (fun _ => rfl) (g := ackDom n v s.toHub) ?_, ackDom_hit (h := s.toHub) hv⟩
    unfold domEvtAck
    rw [ha, when_true]
  case flt =>
    have hflt := ackFlt_hit (h := s.toHub) hv
    refine ⟨_, exec_run (fun _ => rfl) (g := ackFlt v s.toHub) ?_, ?_⟩
    · unfold fltEvtAck
      rw [ha, when_true]
    · dsimp only
      rw [hflt]
      split
      case isTrue hc => exact ⟨rfl, rfl, fun _ => ⟨rfl, rfl, rfl⟩, fun hn => absurd (hc.symm.trans hn) (by decide)⟩
      case isFalse hc => exact ⟨rfl, rfl, fun hn => absurd hn hc, fun _ => ⟨rfl, rfl, rfl⟩⟩
  case deg =>
    refine ⟨_, exec_run (fun _ => rfl) (g := ackDegLnk j v s.toHub) ?_, ?_, fun k hk => ?_⟩
    · unfold fltDegLnkAck
      rw [ha, when_true]
    · dsimp only
      rw [ackDegLnk_hit hv]
      refine (upd_field Evt.bits ..).trans ?_
      rw [Evt.ack_hit hv, Evt.raise_bits]
      exact BitVec.zero_or
    · dsimp only
      rw [ackDegLnk_hit hv]
      exact upd_other _ _ _ _ hk

/-- Settles O47: a hit with no source counted is the way out of SAFE, unless the loader is there. -/
theorem safeLeft : Obligations.SafeLeft := by
  unfold Obligations.SafeLeft
  refine fun s m v ha => ⟨fun hv hs => ?leaves, fun hv => ?stays⟩
  case leaves =>
    refine ⟨_, exec_run (fun _ => rfl) (g := ackSafe v s.toHub) ?_, ?_⟩
    · unfold fltSafeAck
      rw [ha, when_true]
    · dsimp only
      rw [ackSafe_hit hv hs]
      split
      case isTrue hl =>
        obtain ⟨hdriven, hsafe⟩ := leaveSafe_pin (s.toHub.onFlt fun f => { f with safeEvt := f.safeEvt.ack v })
        refine ⟨hsafe.trans (Evt.ack_hit hv), fun _ _ => leaveSafe_top _, fun hc => ?_, hdriven⟩
        rcases hc with hc | hc
        · exact absurd (hl.1.symm.trans hc) (by decide)
        · exact absurd (hl.2.symm.trans hc) (by decide)
      case isFalse hl => exact ⟨Evt.ack_hit hv, fun h1 h2 => absurd ⟨h1, h2⟩ hl, fun _ => rfl, rfl⟩
  case stays =>
    refine exec_run (fun _ => rfl) ?_
    unfold fltSafeAck
    rw [ha, when_true, ackSafe_miss hv]

end Sys2Proof
end

section
/-!
SUPPORT. Register accesses: which register an offset names, who may write it, and what a write, a violation or an aliased bit comes to
(R332, R333, R353 to R358, R361 to R363, R366 to R368).
-/

set_option Elab.async false

namespace Sys2Proof.Machine

/-! ## Finding a register -/

theorem inRange_true {v lo hi : Nat} (h1 : lo ≤ v) (h2 : v ≤ hi) : inRange v lo hi = true := by
  unfold inRange
  rw [decide_eq_true h1, decide_eq_true h2, Bool.and_self]

theorem inRange_false {v lo hi : Nat} (h : v < lo ∨ hi < v) : inRange v lo hi = false := by
  unfold inRange
  rcases h with h | h
  · rw [decide_eq_false (Nat.not_le.mpr h), Bool.false_and]
  · rw [decide_eq_false (Nat.not_le.mpr h), Bool.and_false]

theorem inBank_at {base stride n : Nat} (i : Fin n) {o : Nat} (ho : o < stride) :
    inBank base stride n (base + stride * i.val + o) = some (i, o) := by
  have hsub : base + stride * i.val + o - base = stride * i.val + o := by omega
  have hdiv : (stride * i.val + o) / stride = i.val := by
    rw [Nat.mul_add_div (by omega), Nat.div_eq_of_lt ho, Nat.add_zero]
  have hmod : (stride * i.val + o) % stride = o := by
    rw [Nat.mul_add_mod, Nat.mod_eq_of_lt ho]
  unfold inBank finOf
  rw [if_pos (by omega), hsub, hdiv, hmod, dif_pos i.isLt]
  rfl

theorem inBank_none {base stride n off : Nat} (h : off < base ∨ base + stride * n ≤ off) (hs : 0 < stride) :
    inBank base stride n off = none := by
  unfold inBank finOf
  by_cases hb : base ≤ off
  · have hle : n ≤ (off - base) / stride := by
      rw [Nat.le_div_iff_mul_le hs, Nat.mul_comm]
      omega
    rw [if_pos hb, dif_neg (Nat.not_lt.mpr hle)]
    rfl
  · exact if_neg hb

theorem bankAt_at {base stride n o : Nat} (i : Fin n) (ho : o < stride) : bankAt base stride n o (base + stride * i.val + o) = some i := by
  unfold bankAt
  rw [inBank_at i ho]
  exact if_pos rfl

theorem bankAt_none {base stride n o off : Nat} (h : off < base ∨ base + stride * n ≤ off) (hs : 0 < stride) :
    bankAt base stride n o off = none := by
  unfold bankAt
  rw [inBank_none h hs]
  rfl

/-- Below the banks of events, only six registers take sequence writes. -/
theorem ackAt_none {off : Nat} (hlt : off < 0x6000) (h1 : off ≠ 0x1048) (h2 : off ≠ 0x1098) (h3 : off ≠ 0x4008) (h4 : off ≠ 0x4044)
    (hdeg : off < 0x4050 ∨ 0x4068 ≤ off) : ackAt off = none := by
  unfold ackAt
  rw [if_neg h1, if_neg h2, if_neg h3, if_neg h4, if_neg (by omega), if_neg (by omega), if_neg (by omega), if_neg (by omega),
    if_neg (by omega), if_neg (by omega), if_neg (by omega), if_pos hlt, bankAt_none (by omega) (by omega)]
  rfl

theorem mbxAt_at (i : Fin 4) {o : Nat} (ho : o < 0x40) : mbxAt (0x3000 + 0x40 * i.val + o) = some (i, o) := by
  unfold mbxAt
  rw [if_pos (by omega), inBank_at i ho]

theorem mbxAt_none {off : Nat} (h : off < 0x3000 ∨ 0x3100 ≤ off) : mbxAt off = none := by
  unfold mbxAt
  split
  · exact inBank_none (by omega) (by omega)
  · rfl

theorem ringAt_ctl (r : RingId) : ringAt (ctlOffset r) = some (r, 8) := by
  unfold ringAt
  cases r
  case cmd q => rw [show ctlOffset (.cmd q) = 0x2100 + 0x10 * q.val + 8 from Nat.add_right_comm 0x2100 8 _, inBank_at q (by omega)]
  case cpl c =>
    rw [show ctlOffset (.cpl c) = 0x2200 + 0x10 * c.val + 8 from Nat.add_right_comm 0x2200 8 _, inBank_none (base := 0x2100) (by omega) (by omega),
      inBank_at c (by omega)]
  case tel k =>
    rw [show ctlOffset (.tel k) = 0x2300 + 0x10 * k.val + 8 from Nat.add_right_comm 0x2300 8 _, inBank_none (base := 0x2100) (by omega) (by omega),
      inBank_none (base := 0x2200) (by omega) (by omega), inBank_at k (by omega)]
  case str n =>
    rw [show ctlOffset (.str n) = 0x2400 + 0x10 * n.val + 8 from Nat.add_right_comm 0x2400 8 _, inBank_none (base := 0x2100) (by omega) (by omega),
      inBank_none (base := 0x2200) (by omega) (by omega), inBank_none (base := 0x2300) (by omega) (by omega), inBank_at n (by omega)]

theorem ringAt_none {off : Nat} (h : 0x2800 ≤ off) : ringAt off = none := by
  unfold ringAt
  rw [inBank_none (by omega) (by omega), inBank_none (by omega) (by omega), inBank_none (by omega) (by omega),
    inBank_none (by omega) (by omega)]

theorem ctlOffset_bounds (r : RingId) : 0x2100 ≤ ctlOffset r ∧ ctlOffset r < 0x2800 := by
  unfold ctlOffset
  cases r <;> dsimp only <;> omega

/-! ## Writes -/

theorem Hub.mayWrite_mbx (h : Hub) (m : Master) (i : Fin 4) {o : Nat} (ho : o < 0x40) :
    h.mayWrite m (0x3000 + 0x40 * i.val + o) = mbxWrites m i := by
  unfold Hub.mayWrite
  rw [mbxAt_at i ho]

/-- Of the other registers every master writes all but the loader's and those of the host interface. -/
theorem Hub.mayWrite_open {h : Hub} {m : Master} {off : Nat} (hm : off < 0x3000 ∨ 0x3100 ≤ off) (hl : off < 0x19100)
    (hh : m ≠ .spi ∨ off < 0x2000 ∨ 0x2FFF < off ∨ 0x2800 ≤ off ∧ off ≤ 0x2BFF) : h.mayWrite m off = true := by
  have hldr : ldrReg off = false := by
    unfold ldrReg
    rw [beq_eq_false_iff_ne.mpr (by omega), beq_eq_false_iff_ne.mpr (by omega), beq_eq_false_iff_ne.mpr (by omega)]
    rfl
  unfold Hub.mayWrite
  rw [mbxAt_none hm, hldr]
  dsimp only
  rw [if_neg Bool.false_ne_true]
  rcases hh with hspi | hout
  · split
    · exact bne_iff_ne.mpr hspi
    · rfl
  · have hno : (inRange off 0x2000 0x2FFF && !inRange off 0x2800 0x2BFF) = false := by
      rcases hout with hlo | hhi | ⟨h1, h2⟩
      · rw [inRange_false (.inl hlo), Bool.false_and]
      · rw [inRange_false (.inr hhi), Bool.false_and]
      · rw [inRange_true h1 h2, Bool.not_true, Bool.and_false]
    rw [hno, if_neg Bool.false_ne_true]

theorem writeReg_put {m : Master} {off : Nat} {v : Reg} {h g : Hub} (hm : h.mayWrite m off = true) (hp : putReg m off v h = some g) :
    writeReg m off v h = copyWritten off 4 g := by
  unfold writeReg
  rw [hm, if_pos rfl, hp]

theorem writeReg_refused {m : Master} {off : Nat} {v : Reg} {h : Hub} (hno : h.mayWrite m off = false ∨ putReg m off v h = none) :
    writeReg m off v h = violation m 0 off accWrite h := by
  have hnone : (if h.mayWrite m off = true then putReg m off v h else none) = none := by
    rcases hno with hn | hn
    · rw [hn, if_neg Bool.false_ne_true]
    · rw [hn, ite_self]
  unfold writeReg
  rw [hnone]

theorem putReg_top {m : Master} {off : Nat} {v : Reg} {h : Hub} (hr : 0x1000 ≤ off ∧ off ≤ 0x1FFF) (h1 : off ≠ 0x1048) (h2 : off ≠ 0x1098) :
    putReg m off v h = putTop m off v h := by
  unfold putReg
  rw [ackAt_none (by omega) h1 h2 (by omega) (by omega) (by omega)]
  dsimp only
  rw [if_neg (by omega), mbxAt_none (by omega)]
  dsimp only
  rw [inRange_true hr.1 hr.2, if_pos rfl]

theorem putReg_host {m : Master} {off : Nat} {v : Reg} {h : Hub} (hr : 0x2000 ≤ off ∧ off ≤ 0x2FFF) :
    putReg m off v h = putHost off v h := by
  unfold putReg
  rw [ackAt_none (by omega) (by omega) (by omega) (by omega) (by omega) (by omega)]
  dsimp only
  rw [if_neg (by omega), mbxAt_none (by omega)]
  dsimp only
  rw [inRange_false (by omega), if_neg Bool.false_ne_true, inRange_true hr.1 hr.2, if_pos rfl]

theorem putReg_flt {m : Master} {off : Nat} {v : Reg} {h : Hub} (hr : 0x4000 ≤ off ∧ off ≤ 0x5FFF) (h1 : off ≠ 0x4008)
    (h2 : off ≠ 0x4044) (hdeg : off < 0x4050 ∨ 0x4068 ≤ off) : putReg m off v h = putFlt off v h := by
  unfold putReg
  rw [ackAt_none (by omega) (by omega) (by omega) h1 h2 hdeg]
  dsimp only
  rw [if_neg (by omega), mbxAt_none (by omega)]
  dsimp only
  rw [inRange_false (by omega), if_neg Bool.false_ne_true, inRange_false (by omega), if_neg Bool.false_ne_true, inRange_true hr.1 hr.2, if_pos rfl]

theorem putReg_mbx (m : Master) (i : Fin 4) {o : Nat} (ho : o < 0x40) (v : Reg) (h : Hub) :
    putReg m (0x3000 + 0x40 * i.val + o) v h = putMbx i o v h := by
  unfold putReg
  rw [ackAt_none (by omega) (by omega) (by omega) (by omega) (by omega) (by omega)]
  dsimp only
  rw [if_neg (by omega), mbxAt_at i ho]

theorem putReg_ctl (m : Master) (r : RingId) (v : Reg) (h : Hub) : putReg m (ctlOffset r) v h = ctlWrite r v h := by
  have hb := ctlOffset_bounds r
  rw [putReg_host (by omega)]
  unfold putHost
  rw [if_neg (by omega), if_neg (by omega), if_neg (by omega), if_neg (by omega), if_neg (by omega), ringAt_ctl]
  rfl

/-- A single aligned write in BAR 0, below the window of bit aliases. -/
theorem registerWrite_reg {m : Master} {off : Nat} {v : Reg} {h : Hub} (ha : h.answers m = true) (hal : off % 4 = 0) (hlt : off < 0x400000) :
    registerWrite m 0 off 4 v h = writeReg m off v h := by
  have hok : (decide (4 ≠ 4) || decide (off % 4 ≠ 0)) = false := by
    rw [decide_eq_false (fun e => e rfl), decide_eq_false (fun e => e hal)]
    rfl
  unfold registerWrite
  rw [ha, when_true, if_pos rfl, hok, if_neg Bool.false_ne_true, inRange_false (.inl hlt), if_neg Bool.false_ne_true]

/-- Any other size or alignment is a violation. -/
theorem registerWrite_misaligned {m : Master} {off size : Nat} {v : Reg} {h : Hub} (ha : h.answers m = true) (hno : size ≠ 4 ∨ off % 4 ≠ 0) :
    registerWrite m 0 off size v h = violation m 0 off accWrite h := by
  have hbad : (decide (size ≠ 4) || decide (off % 4 ≠ 0)) = true := by
    rw [← Bool.decide_or]
    exact decide_eq_true hno
  unfold registerWrite
  rw [ha, when_true, if_pos rfl, hbad, if_pos rfl]

/-- A write of HOST in BAR 2. -/
theorem registerWrite_bell {off : Nat} {v : Reg} {h : Hub} (ha : h.answers .host = true) (hal : off % 4 = 0) :
    registerWrite .host 2 off 4 v h = writeBell off v h := by
  have hok : (decide (4 ≠ 4) || decide (off % 4 ≠ 0)) = false := by
    rw [decide_eq_false (fun e => e rfl), decide_eq_false (fun e => e hal)]
    rfl
  unfold registerWrite
  rw [ha, when_true, if_neg (by decide), if_pos (by decide), hok, if_neg Bool.false_ne_true, if_pos rfl]

/-! ## Violations -/

theorem violation_only_top (m : Master) (bar off acc : Nat) (h : Hub) : { violation m bar off acc h with top := h.top } = h := by
  cases m <;> rfl

theorem violation_host (m : Master) (bar off acc : Nat) (h : Hub) : (violation m bar off acc h).host = h.host := by
  cases m <;> rfl

/-! ## Doorbells in BAR 2 (R324, R328) -/

theorem bellRing_cmd (q : Fin 16) : bellRing (4 * q.val) = some (.cmd q) := by
  unfold bellRing finOf
  rw [if_neg (by omega), if_pos (by omega), Nat.mul_div_cancel_left _ (by omega), dif_pos q.isLt]
  rfl

theorem bellRing_cpl (c : Fin 16) : bellRing (0x100 + 4 * c.val) = some (.cpl c) := by
  unfold bellRing
  rw [if_neg (by omega), if_neg (by omega), show 0x100 + 4 * c.val = 0x100 + 4 * c.val + 0 from rfl, bankAt_at c (by omega)]

theorem bellRing_str (n : Fin 64) : bellRing (0x200 + 4 * n.val) = some (.str n) := by
  unfold bellRing
  rw [if_neg (by omega), if_neg (by omega), bankAt_none (base := 0x100) (by omega) (by omega),
    show 0x200 + 4 * n.val = 0x200 + 4 * n.val + 0 from rfl, bankAt_at n (by omega)]

theorem bellRing_tel (k : Fin 4) : bellRing (0x300 + 4 * k.val) = some (.tel k) := by
  unfold bellRing
  rw [if_neg (by omega), if_neg (by omega), bankAt_none (base := 0x100) (by omega) (by omega),
    bankAt_none (base := 0x200) (by omega) (by omega), show 0x300 + 4 * k.val = 0x300 + 4 * k.val + 0 from rfl, bankAt_at k (by omega)]
  rfl

/-! ## Bit aliases (R358) -/

/-- The word with one bit changed: the bits below, the bit, the bits above. -/
def aliasWord (old b : Nat) (x : Bool) : Nat := at_ 0 b old + at_ b 1 (b2n x) + at_ (b + 1) 32 (old / 2 ^ (b + 1))

theorem aliasWord_bit (old b : Nat) (x : Bool) (k : Nat) (hold : old < 2 ^ 32) :
    (aliasWord old b x).testBit k = if k = b then x else old.testBit k := by
  have hdiv : old / 2 ^ (b + 1) % 2 ^ 32 = old / 2 ^ (b + 1) := Nat.mod_eq_of_lt (lt_of_le_of_lt (Nat.div_le_self ..) hold)
  have hx : b2n x % 2 ^ 1 = b2n x := by cases x <;> rfl
  have hsum : aliasWord old b x = 2 ^ b * (2 ^ 1 * (old / 2 ^ (b + 1)) + b2n x) + old % 2 ^ b := by
    unfold aliasWord at_
    rw [hdiv, hx, Nat.pow_succ]
    ring
  rw [hsum, Nat.testBit_two_pow_mul_add _ (Nat.mod_lt _ (Nat.two_pow_pos b))]
  by_cases hlt : k < b
  · rw [if_pos hlt, if_neg (by omega), Nat.testBit_mod_two_pow, decide_eq_true hlt, Bool.true_and]
  · rw [if_neg hlt, Nat.testBit_two_pow_mul_add _ (by cases x <;> decide)]
    by_cases hk : k = b
    · rw [if_pos (by omega), if_pos hk, show k - b = 0 by omega]
      cases x <;> rfl
    · rw [if_neg (by omega), if_neg hk, Nat.testBit_div_two_pow]
      congr 1
      omega

/-- An aliased bit of MON_IRQ, which has no read-only bits. -/
theorem aliasWrite_monIrq {m : Master} {v : Reg} {h : Hub} (b : Fin 32) (ha : h.answers m = true) :
    aliasWrite m (0x400000 + 32 * 0x1B920 + 4 * b.val) v h =
      h.onMons fun x => { x with irq := BitVec.ofNat 32 (aliasWord h.mons.irq.toNat b (v.getLsbD 0)) } := by
  have hreg : aliasReg (0x400000 + 32 * 0x1B920 + 4 * b.val) = 0x1B920 := by unfold aliasReg; omega
  have hbit : aliasBit (0x400000 + 32 * 0x1B920 + 4 * b.val) = b.val := by unfold aliasBit; omega
  have hread : h.regRead 0x1B920 = some h.mons.irq.toNat := rfl
  have htake : h.takesWrites m 0x1B920 = true := by cases m <;> rfl
  have hmask : natBit (rwMask 0x1B920) b.val = true := by revert b; decide
  have hal : decide ((0x400000 + 32 * 0x1B920 + 4 * b.val) % 4 ≠ 0) = false := decide_eq_false (by omega)
  unfold aliasWrite writeAlias
  rw [ha, inRange_true (by omega) (by omega), Bool.and_self, when_true, hreg, hbit, hal]
  dsimp only
  rw [htake, Bool.not_true, Bool.or_self, if_neg Bool.false_ne_true, hmask, if_pos rfl, hread, Option.getD_some, Nat.mod_eq_of_lt h.mons.irq.isLt]
  rfl

/-! ## Rings switched on and off (R332, R333) -/

/-- The settings of a ring lie below the enable bit. -/
theorem extract_or_enable {lo len : Nat} (v : Reg) (hl : lo + len ≤ 30) : (v ||| 0x80000000).extractLsb' lo len = v.extractLsb' lo len := by
  refine BitVec.eq_of_getLsbD_eq fun i hi => ?_
  have hbit : (0x80000000 : Reg).getLsbD (lo + i) = false := by
    have hlt : lo + i < 30 := by omega
    generalize lo + i = k at hlt
    interval_cases k <;> rfl
  rw [BitVec.getLsbD_extractLsb', BitVec.getLsbD_extractLsb', BitVec.getLsbD_or, hbit, Bool.or_false]

theorem Ring.withCtl_enable (v : Reg) (x : Ring) : x.withCtl (v ||| 0x80000000) = x.withCtl v := by
  unfold Ring.withCtl
  rw [extract_or_enable v (by omega), extract_or_enable v (by omega), extract_or_enable v (by omega), BitVec.getLsbD_or]
  rw [show (0x80000000 : Reg).getLsbD 30 = false from rfl, Bool.or_false]

theorem ctlWrite_enable {r : RingId} {v : Reg} {h : Hub} (ho : (h.ring r).open_ = false) :
    ctlWrite r (v ||| 0x80000000) h = if h.mayEnable r (v ||| 0x80000000) = true then some (enableRing r (v ||| 0x80000000) h) else none := by
  have hbit : (v ||| 0x80000000).getLsbD 31 = true := by
    rw [BitVec.getLsbD_or, show (0x80000000 : Reg).getLsbD 31 = true from rfl, Bool.or_true]
  unfold ctlWrite
  dsimp only
  rw [ho, if_neg Bool.false_ne_true, hbit, if_pos rfl]

theorem ctlWrite_disable {r : RingId} {v : Reg} {h : Hub} (ho : (h.ring r).open_ = true) :
    ctlWrite r (v &&& 0x7FFFFFFF) h = if (h.ring r).ctlLocked (v &&& 0x7FFFFFFF) = true then none
      else if h.mayDisable r = true then some (disableRing r (v &&& 0x7FFFFFFF) h) else none := by
  have hbit : (v &&& 0x7FFFFFFF).getLsbD 31 = false := by
    rw [BitVec.getLsbD_and, show (0x7FFFFFFF : Reg).getLsbD 31 = false from rfl, Bool.and_false]
  unfold ctlWrite
  dsimp only
  rw [ho, if_pos rfl, hbit]
  simp only [Bool.false_eq_true, if_false]

/-! ## Mailboxes (R361 to R363) -/

theorem mbxReq_allowed {m : Master} {i : Fin 4} {h : Hub} (ha : h.answers m = true) (hm : mbxWrites m i = true) :
    mbxReq m i h = copyWritten (0x3000 + 0x40 * i.val + 4) 4 (requestSnapshot i h) := by
  unfold mbxReq
  rw [ha, when_true, show 0x3004 + 0x40 * i.val = 0x3000 + 0x40 * i.val + 4 from Nat.add_right_comm 0x3000 4 _]
  exact writeReg_put ((h.mayWrite_mbx m i (by omega)).trans hm) (putReg_mbx m i (by omega) 1 h)

theorem mbxReq_denied {m : Master} {i : Fin 4} {h : Hub} (ha : h.answers m = true) (hm : mbxWrites m i = false) :
    mbxReq m i h = violation m 0 (0x3000 + 0x40 * i.val + 4) accWrite h := by
  unfold mbxReq
  rw [ha, when_true, show 0x3004 + 0x40 * i.val = 0x3000 + 0x40 * i.val + 4 from Nat.add_right_comm 0x3000 4 _]
  exact writeReg_refused (.inl ((h.mayWrite_mbx m i (by omega)).trans hm))

theorem mbxData3Read_denied {m : Master} {i : Fin 4} {h : Hub} (ha : h.answers m = true) (hm : mbxReads m i = false) :
    mbxData3Read m i h = violation m 0 (0x301C + 0x40 * i.val) accRead h := by
  unfold mbxData3Read
  rw [ha, when_true, hm, if_neg Bool.false_ne_true]

theorem mbxData3Read_allowed {m : Master} {i : Fin 4} {h : Hub} (ha : h.answers m = true) (hm : mbxReads m i = true) :
    mbxData3Read m i h = if m = .debug then h else h.onMbx i fun x => { x with valid := false } := by
  unfold mbxData3Read
  rw [ha, when_true, hm, if_pos rfl]
  exact if_congr beq_iff_eq rfl rfl

theorem mbxSnapshotValid_due {i : Fin 4} {h : Hub} {c : BitVec 8} {n : BitVec 12} (hr : h.runs = true) (hq : h.mbx[i].req = some (c, n)) :
    mbxSnapshotValid i h = h.onMbx i fun x =>
      { x with
        req := none, valid := true, err := (h.quantity c.toNat n.toNat).isNone
        data := (h.quantity c.toNat n.toNat).getD 0 } := by
  unfold mbxSnapshotValid
  rw [hq]
  dsimp only
  rw [hr, when_true]
  cases h.quantity c.toNat n.toNat <;> rfl

/-! ## SPI (R366 to R368) -/

/-- A read that every check passes. -/
theorem readWord_mapped {m : Master} {a w : Nat} {h : Hub} (hlt : a < 0x400000) (hm : mayRead m a = true) (hw : h.regRead a = some w) :
    readWord m a h = (w % 2 ^ 32, readEffect m a h) := by
  unfold readWord
  rw [inRange_false (.inl (by omega)), Bool.false_and, if_neg Bool.false_ne_true, inRange_false (.inl hlt), Bool.false_and, Bool.false_and,
    if_neg Bool.false_ne_true, hm, if_pos rfl, hw]

theorem spiReadTransaction_short {cmd : Reg} {crc : Byte} {clocks : Nat} {h : Hub} (ha : h.answers .spi = true)
    (hc : cmd.getLsbD 31 = false) (hn : clocks < 40) : spiReadTransaction cmd crc clocks h = spiEnd 3 (h.spiMiso 0 (crc8 0)) h := by
  unfold spiReadTransaction
  rw [ha, hc, Bool.not_false, Bool.and_self, when_true, if_pos hn]

theorem spiReadTransaction_badCrc {cmd : Reg} {crc : Byte} {clocks : Nat} {h : Hub} (ha : h.answers .spi = true)
    (hc : cmd.getLsbD 31 = false) (hn : 40 ≤ clocks) (hb : crc8 cmd ≠ crc) :
    spiReadTransaction cmd crc clocks h = spiEnd 1 (h.spiMiso 0 (~~~crc8 0)) h := by
  unfold spiReadTransaction
  rw [ha, hc, Bool.not_false, Bool.and_self, when_true, if_neg (by omega), if_pos (bne_iff_ne.mpr hb)]

theorem spiReadTransaction_good {cmd : Reg} {crc : Byte} {clocks : Nat} {h : Hub} (ha : h.answers .spi = true)
    (hc : cmd.getLsbD 31 = false) (hn : 40 ≤ clocks) (hb : crc8 cmd = crc) : spiReadTransaction cmd crc clocks h =
      spiEnd (if clocks = 80 then 0 else 3)
        (h.spiMiso (BitVec.ofNat 32 (readWord .spi (fld cmd 0 24) h).1) (crc8 (BitVec.ofNat 32 (readWord .spi (fld cmd 0 24) h).1)))
        (readWord .spi (fld cmd 0 24) h).2 := by
  unfold spiReadTransaction
  rw [ha, hc, Bool.not_false, Bool.and_self, when_true, if_neg (by omega), if_neg (by rw [bne_iff_ne, not_not]; exact hb)]

theorem spiWriteTransaction_good {cmd data : Reg} {crc dcrc : Byte} {h : Hub} (ha : h.answers .spi = true)
    (hc : cmd.getLsbD 31 = true) (h1 : crc8 cmd = crc) (h2 : crc8 data = dcrc) : spiWriteTransaction cmd crc data dcrc 80 h =
      registerWrite .spi 0 (fld cmd 0 24) 4 data (spiEnd 0 (h.spiMiso 0 (crc8 0)) h) := by
  unfold spiWriteTransaction
  rw [ha, hc, Bool.and_self, when_true]
  dsimp only
  rw [if_neg (by omega), if_neg (by rw [bne_iff_ne, not_not]; exact h1), if_neg (by omega), if_neg (by rw [bne_iff_ne, not_not]; exact h2)]

theorem spiWriteTransaction_fails {cmd data : Reg} {crc dcrc : Byte} {clocks : Nat} {h : Hub} (ha : h.answers .spi = true)
    (hc : cmd.getLsbD 31 = true) (hno : clocks ≠ 80 ∨ crc8 cmd ≠ crc ∨ crc8 data ≠ dcrc) : spiWriteTransaction cmd crc data dcrc clocks h =
      spiEnd (if clocks < 40 then 3 else if crc8 cmd ≠ crc then 1 else if clocks ≠ 80 then 3 else 2) (h.spiMiso 0 (crc8 0)) h := by
  unfold spiWriteTransaction
  rw [ha, hc, Bool.and_self, when_true]
  dsimp only
  simp only [bne_iff_ne]
  by_cases h40 : clocks < 40
  · rw [if_pos h40, if_pos h40]
  · rw [if_neg h40, if_neg h40]
    by_cases h1 : crc8 cmd ≠ crc
    · rw [if_pos h1, if_pos h1]
    · rw [if_neg h1, if_neg h1]
      by_cases h80 : clocks ≠ 80
      · rw [if_pos h80, if_pos h80]
      · rw [if_neg h80, if_neg h80, if_pos ((hno.resolve_left h80).resolve_left h1)]

end Sys2Proof.Machine

namespace Sys2Proof

open Machine

/-- Settles O44: each register's write is one `putReg`, a doorbell its own command, and an aliased bit one bit of a word. -/
theorem registersWritten : Obligations.RegistersWritten := by
  unfold Obligations.RegistersWritten
  refine ⟨fun s m v ha => ⟨fun j => ?sev, ?irqEn, ?monIrq, ?therm, fun i hm => ?mbx, fun x => ?route, fun off size hno => ?violation⟩,
    fun s v => ⟨fun ha => ⟨fun q => ?cmd, fun c => ?cpl, fun n => ?str, fun k => ?tel⟩, fun m b ha => ?oneBit⟩⟩
  case sev =>
    have hput : putReg m (0x5000 + 4 * j.val) v s.toHub = some (s.toHub.onFlt fun f => { f with sev := upd f.sev j fun _ => v &&& 0x77777777 }) := by
      rw [putReg_flt (by omega) (by omega) (by omega) (by omega)]
      unfold putFlt
      rw [if_neg (by omega), if_neg (by omega), show 0x5000 + 4 * j.val = 0x5000 + 4 * j.val + 0 from rfl, bankAt_at j (by omega)]
      rfl
    refine ⟨_, exec_run (fun _ => rfl) ((registerWrite_reg ha (by omega) (by omega)).trans
      (writeReg_put (Hub.mayWrite_open (by omega) (by omega) (by omega)) hput)), upd_same .., fun k hk => upd_other _ _ _ _ hk⟩
  case irqEn =>
    exact ⟨_, exec_run (fun _ => rfl) ((registerWrite_reg ha (by omega) (by omega)).trans
      (writeReg_put (Hub.mayWrite_open (by omega) (by omega) (by omega)) (putReg_flt (by omega) (by omega) (by omega) (by omega)))), rfl⟩
  case monIrq =>
    have hmay : s.toHub.mayWrite m 0x1B920 = true := by cases m <;> rfl
    exact ⟨_, exec_run (fun _ => rfl) ((registerWrite_reg ha (by omega) (by omega)).trans (writeReg_put hmay rfl)), rfl⟩
  case therm =>
    exact ⟨_, exec_run (fun _ => rfl) ((registerWrite_reg ha (by omega) (by omega)).trans
      (writeReg_put (Hub.mayWrite_open (by omega) (by omega) (by omega)) (putReg_top (by omega) (by omega) (by omega)))), rfl⟩
  case mbx =>
    exact ⟨_, exec_run (fun _ => rfl) ((registerWrite_reg ha (by omega) (by omega)).trans
      (writeReg_put ((s.toHub.mayWrite_mbx m i (o := 0) (by omega)).trans hm) (putReg_mbx m i (o := 0) (by omega) v s.toHub))),
      upd_same .., fun k hk => upd_other _ _ _ _ hk⟩
  case route =>
    have hput : putReg m (0x2800 + 4 * x.val) v s.toHub = some (s.toHub.onHost fun y =>
        { y with vector := upd y.vector x fun _ => v.extractLsb' 0 8, spi := upd y.spi x fun _ => v.getLsbD 8 }) := by
      rw [putReg_host (by omega)]
      unfold putHost
      rw [if_neg (by omega), if_neg (by omega), if_neg (by omega), if_neg (by omega), if_neg (by omega), ringAt_none (by omega)]
      dsimp only
      rw [show 0x2800 + 4 * x.val = 0x2800 + 4 * x.val + 0 from rfl, bankAt_at x (by omega)]
    exact ⟨_, exec_run (fun _ => rfl) ((registerWrite_reg ha (by omega) (by omega)).trans
      (writeReg_put (Hub.mayWrite_open (by omega) (by omega) (by omega)) hput)), upd_same .., upd_same ..⟩
  case violation =>
    refine ⟨_, exec_run (fun _ => rfl) (registerWrite_misaligned ha hno), violation_only_top .., ?_, ?_, ?_⟩ <;> rintro rfl <;> rfl
  case cmd =>
    refine (exec_run (fun _ => rfl) ((registerWrite_bell ha (by omega)).trans ?_)).trans
      (exec_run (fun _ => rfl) (g := commandDoorbell q v s.clk.pos s.toHub) rfl).symm
    unfold writeBell
    rw [bellRing_cmd]
  case cpl =>
    refine (exec_run (fun _ => rfl) ((registerWrite_bell ha (by omega)).trans ?_)).trans
      (exec_run (fun _ => rfl) (g := consumerDoorbell (.cpl c) v s.toHub) rfl).symm
    unfold writeBell
    rw [bellRing_cpl]
  case str =>
    refine (exec_run (fun _ => rfl) ((registerWrite_bell ha (by omega)).trans ?_)).trans
      (exec_run (fun _ => rfl) (g := consumerDoorbell (.str n) v s.toHub) rfl).symm
    unfold writeBell
    rw [bellRing_str]
  case tel =>
    refine (exec_run (fun _ => rfl) ((registerWrite_bell ha (by omega)).trans ?_)).trans
      (exec_run (fun _ => rfl) (g := consumerDoorbell (.tel k) v s.toHub) rfl).symm
    unfold writeBell
    rw [bellRing_tel]
  case oneBit =>
    refine ⟨_, exec_run (fun _ => rfl) (aliasWrite_monIrq b ha), rfl, fun k => ?_⟩
    have hbit := aliasWord_bit s.mons.irq.toNat b.val (v.getLsbD 0) k.val s.mons.irq.isLt
    refine (BitVec.getLsbD_ofNat ..).trans ?_
    rw [hbit, decide_eq_true k.isLt, Bool.true_and]
    exact if_congr Fin.ext_iff.symm rfl rfl

/-- Settles O48: a write of CTL with enable changed is `enableRing`, `disableRing` or a violation. -/
theorem ringsEnabledAndDisabled : Obligations.RingsEnabledAndDisabled := by
  unfold Obligations.RingsEnabledAndDisabled
  refine fun s m r v ha hspi => ?_
  have hb := ctlOffset_bounds r
  have hmay : s.toHub.mayWrite m (ctlOffset r) = true := Hub.mayWrite_open (by omega) (by omega) (.inl hspi)
  have hon : ∀ g, writeReg m (ctlOffset r) (v ||| 0x80000000) s.toHub = g → exec (.ringEnable m r v) s = .next { toHub := g, pending := s.pending } :=
    fun g hg => exec_run (fun _ => rfl) (by unfold ringEnable; rw [ha, when_true, hg])
  have hoff : ∀ g, writeReg m (ctlOffset r) (v &&& 0x7FFFFFFF) s.toHub = g → exec (.ringDisable m r v) s =
      .next { toHub := g, pending := s.pending } :=
    fun g hg => exec_run (fun _ => rfl) (by unfold ringDisable; rw [ha, when_true, hg])
  refine ⟨fun ho he => ?enabled, fun ho he => ?refused, fun ho hl hd => ?disabled, fun ho hd => ?kept⟩
  case enabled =>
    refine ⟨_, hon _ (writeReg_put hmay ((putReg_ctl ..).trans ((ctlWrite_enable ho).trans (if_pos he)))), ?_, fun k hk => ?_⟩
    · refine (streamRoom_ring ..).trans ((Hub.ring_onRing_same ..).trans ?_)
      rw [Ring.withCtl_enable]
      rfl
    · exact (streamRoom_ring ..).trans (Hub.ring_onRing_other hk ..)
  case refused =>
    refine ⟨_, hon _ (writeReg_refused (.inr ((putReg_ctl ..).trans ((ctlWrite_enable ho).trans (if_neg (by rw [he]; exact Bool.false_ne_true)))))),
      violation_host .., ?_, ?_⟩ <;> rintro rfl <;> rfl
  case disabled =>
    refine ⟨_, hoff _ (writeReg_put hmay ((putReg_ctl ..).trans ((ctlWrite_disable ho).trans
      ((if_neg (by rw [hl]; exact Bool.false_ne_true)).trans (if_pos hd))))), ?_, ?_, fun k hk => Hub.ring_onRing_other hk ..⟩
    · exact congrArg Ring.bells (Hub.ring_onRing_same ..)
    · refine (congrArg Ring.state (Hub.ring_onRing_same ..)).trans ?_
      cases r
      case cmd q => exact if_congr decide_eq_true_iff rfl rfl
      all_goals rfl
  case kept =>
    refine ⟨_, hoff _ (writeReg_refused (.inr ((putReg_ctl ..).trans ((ctlWrite_disable ho).trans ?_)))), violation_host ..⟩
    rw [hd]
    simp only [Bool.false_eq_true, if_false, ite_self]

/-- Settles O49: a request, a snapshot and a read of the last word are each one update of the mailbox. -/
theorem mailboxes : Obligations.Mailboxes := by
  unfold Obligations.Mailboxes
  refine fun s m i => ⟨fun ha hm => ?request, fun ha hi => ?denied, fun c n hr hq => ?snapshot, fun ha hm => ?last⟩
  case request =>
    exact ⟨_, exec_run (fun _ => rfl) (mbxReq_allowed ha hm), upd_same .., fun k hk => upd_other _ _ _ _ hk⟩
  case denied =>
    have hno : (i == (0 : Fin 4)) = false := beq_eq_false_iff_ne.mpr hi
    exact ⟨⟨_, exec_run (fun _ => rfl) (mbxReq_denied ha hno), rfl, rfl⟩, ⟨_, exec_run (fun _ => rfl) (mbxData3Read_denied ha hno), rfl, rfl⟩⟩
  case snapshot =>
    exact ⟨_, exec_run (fun _ => rfl) (mbxSnapshotValid_due hr hq), upd_same .., fun k hk => upd_other _ _ _ _ hk⟩
  case last =>
    refine ⟨_, exec_run (fun _ => rfl) (mbxData3Read_allowed ha hm), ?_⟩
    dsimp only
    split
    · exact ⟨rfl, rfl, fun _ _ => rfl⟩
    · exact ⟨upd_field Mbx.valid .., upd_field Mbx.data .., fun k hk => upd_other _ _ _ _ hk⟩

/-- Settles O50: the checks of a transaction, in their order, and the read or the write that passes them. -/
theorem spiTransactions : Obligations.SpiTransactions := by
  unfold Obligations.SpiTransactions
  refine fun s cmd data crc dcrc clocks ha => ⟨fun hc => ⟨fun a w hcrc h80 hoff hlt hm hw => ?read, fun hn => ?short, fun hn hb => ?badCrc,
    fun hn hb hoff => ?last⟩, fun hc => ⟨fun h80 h1 h2 => ?write, fun hno => ?fails⟩⟩
  case read =>
    subst hoff
    refine ⟨_, exec_run (fun _ => rfl) (spiReadTransaction_good ha hc (by omega) hcrc), ?_⟩
    have hword : BitVec.ofNat 32 (w % 2 ^ 32) = BitVec.ofNat 32 w := BitVec.eq_of_toNat_eq (by simp only [BitVec.toNat_ofNat, Nat.mod_mod])
    rw [readWord_mapped hlt hm hw, if_pos h80]
    dsimp only
    rw [hword]
    exact ⟨rfl, rfl⟩
  case short =>
    exact ⟨_, exec_run (fun _ => rfl) (spiReadTransaction_short ha hc hn), rfl, rfl⟩
  case badCrc =>
    exact ⟨_, exec_run (fun _ => rfl) (spiReadTransaction_badCrc ha hc hn hb), rfl, rfl⟩
  case last =>
    refine ⟨_, exec_run (fun _ => rfl) (spiReadTransaction_good ha hc hn hb), ?_⟩
    obtain ⟨w, hw⟩ : ∃ w, s.toHub.regRead 0x305C = some w := ⟨_, rfl⟩
    rw [hoff, readWord_mapped (by omega) (by rfl) hw]
    exact upd_field Mbx.valid ..
  case write =>
    subst h80
    rw [exec_run (fun _ => rfl) (spiWriteTransaction_good ha hc h1 h2)]
    exact (exec_run (c := .registerWrite .spi 0 (fld cmd 0 24) 4 data)
      (s := { s with spi := { status := 0, miso := s.spiMiso 0 (crc8 0) } }) (fun _ => rfl) rfl).symm
  case fails =>
    refine ⟨_, exec_run (fun _ => rfl) (spiWriteTransaction_fails ha hc hno), rfl, ?_⟩
    dsimp only [spiEnd]
    split_ifs <;> rfl

end Sys2Proof
end

section
/-!
SUPPORT. Supply, enable, reset and temperature: what a start and a stop leave (R33, R35, R447 to R460), what PFAIL and a trip do to
the journal (R378), and the single updates of the supply's events (R451 to R465, R477, R478).
-/

set_option Elab.async false

namespace Sys2Proof.Machine

/-! ## Starts and stops -/

theorem goDark_pins (m : Mode) (h : Hub) : (∀ n : Fin 96, (goDark m h).outs[n].pin = .hiZ) ∧ ∀ n : Fin 64, (goDark m h).plss[n].pin = .hiZ := by
  have houts : (goDark m h).outs = h.fresh.outs.map fun (x : ClkOut) => { x with pin := .hiZ, enabled := false, pend := none, stretch := none } := rfl
  have hplss : (goDark m h).plss = h.fresh.plss.map fun (x : Pls) =>
      { x with pin := .hiZ, enabled := false, active := false, pend := [], anchor := .none, anchorDesc := none } := rfl
  refine ⟨fun n => ?_, fun n => ?_⟩
  · rw [houts]
    exact congrArg ClkOut.pin (Vector.getElem_map ..)
  · rw [hplss]
    exact congrArg Pls.pin (Vector.getElem_map ..)

/-- A start from a mode without rails: the first BOOT of the hub counted, and what R458 keeps. -/
theorem coldBoot_fields (cause : Nat) (h : Hub) : (coldBoot cause h).top.mode = .boot ∧ (coldBoot cause h).top.begun = false ∧
    (coldBoot cause h).top.cause = BitVec.ofNat 4 cause ∧ (coldBoot cause h).top.en = h.top.en ∧
    (coldBoot cause h).top.autoCount = h.top.autoRun ∧ (coldBoot cause h).pwr.vin = h.pwr.vin ∧ (coldBoot cause h).host = Hub.reset.host ∧
    (coldBoot cause h).doms = Hub.reset.doms ∧ (coldBoot cause h).shim.mem = h.shim.mem ∧
    (coldBoot cause h).shim.counters[(0 : Fin 256)] = satAdd (2 ^ 48 - 1) h.shim.counters[(0 : Fin 256)] 1 :=
  ⟨rfl, rfl, rfl, rfl, rfl, rfl, rfl, rfl, rfl, upd_same ..⟩

theorem goDark_fields (m : Mode) (h : Hub) : (goDark m h).top.mode = m ∧ (goDark m h).top.pgood = false ∧ (goDark m h).top.en = h.top.en ∧
    (goDark m h).pwr.vin = h.pwr.vin ∧ (goDark m h).host = Hub.reset.host ∧ (goDark m h).shim.mem = h.shim.mem ∧
    (goDark m h).shim.counters = h.shim.counters ∧ (goDark m h).shim.txn = h.shim.txn := ⟨rfl, rfl, rfl, rfl, rfl, rfl, rfl, rfl⟩

theorem vinRise_off {mv : Nat} {h : Hub} (hv : 5700 < mv) (hm : h.inMode .off = true ∨ h.inMode .standby = true) : vinRise mv h =
    if h.top.en = true then coldBoot (if h.inMode .off = true then 0 else h.enCause)
        (h.onPwr fun p => { p with vin := mv, thermAuto := p.thermAuto && !h.inMode .off })
    else (h.onPwr fun p => { p with vin := mv, thermAuto := p.thermAuto && !h.inMode .off }).onTop fun t => { t with mode := .standby } := by
  have hmode : (h.inMode .off || h.inMode .standby) = true := Bool.or_eq_true_iff.mpr hm
  unfold vinRise
  rw [decide_eq_true hv, hmode]
  rfl

theorem vinFall_on {mv : Nat} {h : Hub} (hv : mv < 5400) (hm : h.inMode .off = false) : vinFall mv h =
    (goDark .off (h.onPwr fun p => { p with vin := mv })).onTop fun t => { t with autoCount := 0, fromThermal := false } := by
  unfold vinFall
  rw [decide_eq_true hv, hm]
  rfl

theorem enHigh_standby {h : Hub} (hm : h.inMode .standby = true) (hv : 5700 < h.pwr.vin) :
    enHigh h = coldBoot h.enCause (h.onTop fun t => { t with en := true }) := by
  have hgo : ((h.onTop fun t => { t with en := true }).inMode .standby && decide (5700 < h.pwr.vin)) = true := by
    rw [decide_eq_true hv, Bool.and_true]
    exact hm
  exact if_pos hgo

theorem enLow_on {h : Hub} (h1 : h.inMode .off = false) (h2 : h.inMode .standby = false) : enLow h =
    (goDark .standby (h.onTop fun t => { t with en := false })).onTop fun t => { t with fromThermal := h.inMode .thermalOff } := by
  have hno : (h.inMode .off || h.inMode .standby) = false := by rw [h1, h2]; rfl
  exact if_neg (by rw [show ((h.onTop fun t => { t with en := false }).inMode .off || (h.onTop fun t => { t with en := false }).inMode .standby)
    = false from hno]; exact Bool.false_ne_true)

/-! ## The end of BOOT (R35, R45, R151) -/

/-- The domains' times are as they were. -/
structure KeepsTime (h t : Hub) : Prop where
  time : ∀ k : Fin 16, t.doms[k].secs = h.doms[k].secs ∧ t.doms[k].sub = h.doms[k].sub ∧ t.doms[k].todUnset = h.doms[k].todUnset

theorem KeepsTime.of_eq {h t : Hub} (e : t.doms = h.doms) : KeepsTime h t := ⟨fun k => by rw [e]; exact ⟨rfl, rfl, rfl⟩⟩

theorem KeepsTime.trans {a b c : Hub} (p : KeepsTime a b) (q : KeepsTime b c) : KeepsTime a c := ⟨fun k => by
  obtain ⟨h1, h2, h3⟩ := p.time k
  obtain ⟨g1, g2, g3⟩ := q.time k
  exact ⟨g1.trans h1, g2.trans h2, g3.trans h3⟩⟩

/-- A change elsewhere, before or after. -/
theorem KeepsTime.first {h g t : Hub} (k : KeepsTime g t) (e : g.doms = h.doms) : KeepsTime h t := (KeepsTime.of_eq e).trans k

theorem KeepsTime.last {h g t : Hub} (k : KeepsTime h g) (e : t.doms = g.doms) : KeepsTime h t := k.trans (.of_eq e)

theorem forEach_keepsTime {α : Type} (l : List α) {f : α → Hub → Hub} (hf : ∀ a g, KeepsTime g (f a g)) (h : Hub) :
    KeepsTime h (forEach l f h) := by
  induction l generalizing h with
  | nil => exact .of_eq rfl
  | cons a l ih => exact (hf a h).trans (ih (f a h))

theorem freezeUsers_keepsTime (s : Fin 12) (h : Hub) : KeepsTime h (freezeUsers s h) := .mk fun k => by
  have e : (freezeUsers s h).doms[k] = if h.refs[s].users.getLsbD k = true then { h.doms[k] with lossFreeze := true } else h.doms[k] :=
    Vector.getElem_mapFinIdx ..
  rw [e]
  split <;> exact ⟨rfl, rfl, rfl⟩

theorem slewUsers_keepsTime (s : Fin 12) (v : Int) (h : Hub) : KeepsTime h (slewUsers s v h) := .mk fun k => by
  have e : (slewUsers s v h).doms[k] = match h.doms[k].following.find? fun p => p.1 == s with
      | some p => if h.doms[k].settle == .none then { h.doms[k] with rho := h.doms[k].rho + rdiv (v * 10 ^ 6 * p.2) 65536 } else h.doms[k]
      | none => h.doms[k] := (Vector.getElem_map ..).trans rfl
  rw [e]
  split
  · split <;> exact ⟨rfl, rfl, rfl⟩
  · exact ⟨rfl, rfl, rfl⟩

theorem refDone_keepsTime (s : Fin 12) (ids : List Nat) (h : Hub) : KeepsTime h (refDone s ids h) :=
  forEach_keepsTime ids (fun id g => by
    dsimp only
    split
    · exact .of_eq rfl
    · exact .of_eq (completeWith_doms ..)) h

theorem toAbsent_keepsTime (s : Fin 12) (more : BitVec 16) (h : Hub) : KeepsTime h (toAbsent s more h) := by
  have hdelay : ∀ g, KeepsTime g (applyDelay s g) := fun g => by
    unfold applyDelay
    extract_lets r v c ids g1 g2
    have h2 : KeepsTime g1 g2 := by
      change KeepsTime g1 (ite _ _ _)
      split
      · exact .of_eq rfl
      · exact slewUsers_keepsTime ..
    exact (h2.trans (refDone_keepsTime ..)).first rfl
  have hlimits : ∀ g, KeepsTime g (applyLimits s g) := fun g => by
    unfold applyLimits
    extract_lets ids
    exact (refDone_keepsTime ..).first rfl
  have henter : KeepsTime ((freezeUsers s h).onRef s RefSlot.clear) (enterSlot s .absent more ((freezeUsers s h).onRef s RefSlot.clear)) :=
    .of_eq (irqIf_doms ..)
  exact (freezeUsers_keepsTime s h).trans ((henter.trans ((hdelay _).trans (hlimits _))).first rfl)

theorem slotLost_keepsTime (s : Fin 12) (c : Nat) (h : Hub) : KeepsTime h (slotLost s c h) := by
  unfold slotLost
  split
  · exact .of_eq rfl
  · exact (toAbsent_keepsTime s 0 h).last rfl
  · exact (toAbsent_keepsTime s 0 h).last rfl
  · exact (toAbsent_keepsTime s (bit16 4) h).last (sendFault_doms ..)

theorem ptpLink_keepsTime (n : Fin 48) (h : Hub) : KeepsTime h (ptpLink n h) := by
  unfold ptpLink
  extract_lets l p slave st g
  split
  · exact (forEach_keepsTime _ (fun s x => slotLost_keepsTime s 11 x) g).first rfl
  · exact .of_eq rfl

theorem startTime_flt (m : Fin 16) (h : Hub) : (startTime m h).flt = h.flt := rfl

theorem startTime_top (m : Fin 16) (h : Hub) : (startTime m h).top = h.top := rfl

/-- Each domain starts at zero. -/
theorem forEach_startTime {l : List (Fin 16)} {k : Fin 16} (hk : k ∈ l) (h : Hub) : ((forEach l startTime h).doms[k]).secs = 0 ∧
    ((forEach l startTime h).doms[k]).sub = 0 ∧ ((forEach l startTime h).doms[k]).todUnset = true := by
  have hzero : ∀ (l : List (Fin 16)) (g : Hub), (g.doms[k]).secs = 0 ∧ (g.doms[k]).sub = 0 ∧ (g.doms[k]).todUnset = true →
      ((forEach l startTime g).doms[k]).secs = 0 ∧ ((forEach l startTime g).doms[k]).sub = 0 ∧
        ((forEach l startTime g).doms[k]).todUnset = true := by
    intro l
    induction l with
    | nil => exact fun _ hg => hg
    | cons a l ih =>
      refine fun g hg => ih _ ?_
      have e : (startTime a g).doms[k] = if k = a then Dom.zeroTime g.doms[k] else g.doms[k] := upd_get ..
      rw [e]
      split
      · exact ⟨rfl, rfl, rfl⟩
      · exact hg
  induction l generalizing h with
  | nil => cases hk
  | cons a l ih =>
    by_cases hl : k ∈ l
    · exact ih hl _
    · obtain rfl : k = a := (List.mem_cons.mp hk).resolve_right hl
      refine hzero l _ ?_
      have e : (startTime k h).doms[k] = Dom.zeroTime h.doms[k] := upd_same ..
      rw [e]
      exact ⟨rfl, rfl, rfl⟩

/-- What making a task touches. -/
def Touch.task : Touch :=
  { parts := [.msix, .comp, .collector, .fltEvt, .bus], refs := any, links := any, tasks := any, reeds := any, evTasks := any }

theorem createTask_only (k : Nat) (h : Hub) : Only .task h (createTask k h) :=
  (createTask_kept (A := .task) (fun _ hp => hp) every every every every every (.refl h)).only

/-- What a new state of a PTP port touches. -/
def Touch.ptpState : Touch :=
  { parts := [.cplRings, .msix, .books, .runs, .profile, .shimEvt, .collector, .fltEvt, .bus], refs := any, doms := any, ptp := any }

theorem ptpLink_top (n : Fin 48) (h : Hub) : (ptpLink n h).top = h.top :=
  (ptpLink_kept (A := .ptpState) (fun _ hp => hp) every every trivial (.refl h)).only.eq_top (by decide) (by decide)

theorem bootPins_keeps (h : Hub) : (bootPins h).flt = h.flt ∧ (bootPins h).top = h.top ∧ (bootPins h).doms = h.doms := by
  unfold bootPins
  split <;> exact ⟨rfl, rfl, rfl⟩

/-- Step 7 up to its entry in the Peat record: time, pins and tasks. -/
def bootReady (h : Hub) : Hub :=
  forEach ((List.range 16).map (60 + ·) ++ [124, 125]) createTask (bootPins (forEach (allFin 16) startTime h))

theorem createTask_causes (k : Nat) (h : Hub) : (createTask k h).flt.causes = h.flt.causes := by
  have e : (createTask k h).flt.rest = h.flt.rest := (createTask_only k h).flt.resolve_left (by decide)
  have hc : (createTask k h).flt.rest.causes = h.flt.rest.causes := congrArg Flt.causes e
  exact hc

theorem bootReady_causes (h : Hub) : (bootReady h).flt.causes = h.flt.causes := by
  unfold bootReady
  rw [forEach_keeps (F := fun g => g.flt.causes) (f := createTask) createTask_causes, (bootPins_keeps _).1,
    forEach_keeps (F := Hub.flt) (f := startTime) startTime_flt]

theorem bootReady_top (h : Hub) : (bootReady h).top = h.top := by
  unfold bootReady
  rw [forEach_keeps (F := Hub.top) (f := createTask) (fun k g => (createTask_only k g).eq_top (by decide) (by decide)),
    (bootPins_keeps _).2.1, forEach_keeps (F := Hub.top) (f := startTime) startTime_top]

theorem bootReady_time (h : Hub) (m : Fin 16) : (bootReady h).doms[m].secs = 0 ∧ (bootReady h).doms[m].sub = 0 ∧
    (bootReady h).doms[m].todUnset = true := by
  have hdoms : (bootReady h).doms = (forEach (allFin 16) startTime h).doms := by
    unfold bootReady
    rw [forEach_keeps (F := Hub.doms) (f := createTask) (fun k g => (createTask_only k g).eq_doms fun _ hk => hk), (bootPins_keeps _).2.2]
  simp only [hdoms]
  exact forEach_startTime (List.mem_finRange m) h

/-- The entry in the Peat record, and the hours begun. -/
def bootNoted (g : Hub) : Hub :=
  (peatEvent 8 [] (({ g with free := g.free + 1 } : Hub).onTop fun t => { t with bootMs := Config.bootMs g.free })).onShim
    fun s => { s with hourMs := 0 }

theorem bootNoted_keeps (g : Hub) : (bootNoted g).flt.causes = g.flt.causes ∧ (bootNoted g).top.strapAuto = g.top.strapAuto ∧
    (bootNoted g).doms = g.doms := by
  have j : ∀ x, (peatEvent 8 [] x).flt.causes = x.flt.causes := fun x => (peatEvent_journals 8 [] x).part Flt.causes fun _ => rfl
  have ht : ∀ x, (peatEvent 8 [] x).top = x.top := fun x => (peatRunning_only ..).eq_top (by decide) (by decide)
  have hd : ∀ x, (peatEvent 8 [] x).doms = x.doms := fun x => (peatRunning_only ..).eq_doms fun _ hk => hk
  unfold bootNoted
  rw [Hub.onShim_flt, Hub.onShim_top, Hub.onShim_doms, j, ht, hd]
  exact ⟨rfl, rfl, rfl⟩

theorem bootFinish_eq (h : Hub) : bootFinish h =
    match (bootNoted (bootReady (drainFaults h))).firstCause with
    | some c => forEach (allFin 48) ptpLink
        (enterSafe (some c.msg) ((bootNoted (bootReady (drainFaults h))).forced c.msg.msg) true (bootNoted (bootReady (drainFaults h))))
    | none => forEach (allFin 48) ptpLink
        ((setMode .service (bootNoted (bootReady (drainFaults h)))).onTop fun t => { t with profileDue := t.strapAuto }) := rfl

theorem firstCause_none {h : Hub} (hc : h.flt.causes = []) : h.firstCause = none := by
  have hsafe : h.safeCauses = [] := by
    unfold Hub.safeCauses Hub.activeCauses
    rw [hc]
    rfl
  unfold Hub.firstCause
  rw [hsafe]
  rfl

/-- With no message waiting and no cause standing, BOOT ends in SERVICE. -/
theorem bootFinish_service {h : Hub} (hq : h.flt.queue = []) (hc : h.flt.causes = []) : (bootFinish h).top.mode = .service ∧
    (bootFinish h).top.profileDue = h.top.strapAuto ∧ ∀ m : Fin 16, (bootFinish h).doms[m].secs = 0 ∧ (bootFinish h).doms[m].sub = 0 ∧
      (bootFinish h).doms[m].todUnset = true := by
  have hdrain : drainFaults h = h.onFlt fun f => { f with queue := [] } := by
    unfold drainFaults
    rw [hq]
    rfl
  obtain ⟨hcauses, hstrap, hdoms⟩ := bootNoted_keeps (bootReady (drainFaults h))
  have hnone := firstCause_none (hcauses.trans ((bootReady_causes _).trans ((congrArg (fun g : Hub => g.flt.causes) hdrain).trans hc)))
  have hauto : (bootNoted (bootReady (drainFaults h))).top.strapAuto = h.top.strapAuto :=
    by rw [hstrap, bootReady_top, hdrain, Hub.onFlt_top]
  have heff := bootFinish_eq h
  rw [hnone] at heff
  dsimp only at heff
  have htop := forEach_keeps (F := Hub.top) (f := ptpLink) ptpLink_top (allFin 48)
    ((setMode .service (bootNoted (bootReady (drainFaults h)))).onTop fun t => { t with profileDue := t.strapAuto })
  have htime := forEach_keepsTime (allFin 48) ptpLink_keepsTime
    ((setMode .service (bootNoted (bootReady (drainFaults h)))).onTop fun t => { t with profileDue := t.strapAuto })
  rw [heff, htop]
  refine ⟨by simp only [setMode, Hub.onTop_top], by simp only [setMode, Hub.onTop_top, hauto], fun m => ?_⟩
  have hk := htime.time m
  have hz := bootReady_time (drainFaults h) m
  simp only [setMode, Hub.onTop_doms, hdoms, hz] at hk
  exact hk

theorem bootEnd_done {h : Hub} (hd : h.bootDone = true) : bootEnd h = bootFinish h := by
  have hbegun : h.top.begun = true := by
    unfold Hub.bootDone at hd
    simp only [Bool.and_eq_true] at hd
    exact hd.1.1.2
  have hid : ensureBegun h = h := by
    unfold ensureBegun
    rw [hbegun, Bool.not_true, Bool.and_false, Bool.false_and, if_neg Bool.false_ne_true]
  unfold bootEnd
  rw [hid]
  exact if_pos hd

/-! ## The supply (R378, R447, R451, R453, R454) -/

theorem raisePwr_pwr (b : BitVec 16) (h : Hub) : (raisePwr b h).pwr = { h.pwr with evt := h.pwr.evt.raise b } := irqIf_pwr ..

theorem raisePwr_only (b : BitVec 16) (h : Hub) : Only { parts := [.pwr, .msix, .bus] } h (raisePwr b h) :=
  (raisePwr_kept (fun _ hp => hp) (.refl h)).only

theorem haltJournal_only (h : Hub) : Only { parts := [.cplRings, .msix, .books, .runs, .store, .counters, .profile, .shimEvt, .shim,
    .collector, .fltEvt, .bus] } h (haltJournal h) := (haltJournal_kept (fun _ hp => hp) (.refl h)).only

/-- The journal stopped: no transaction is open, and one without its commit mark is abandoned. -/
theorem haltJournal_shim (h : Hub) : (haltJournal h).shim.halted = true ∧ (haltJournal h).shim.txn = none ∧
    (∀ x, h.shim.txn = some x → x.committed = false → (haltJournal h).shim.abandoned = some x) ∧
    ∀ k : Fin 256, k.val ≠ 12 → k.val ≠ 13 → (haltJournal h).shim.counters[k] = h.shim.counters[k] := by
  have j := journalApply_journals (h.onShim fun s => { s with halted := true })
  refine ⟨?_, rfl, fun x hx hc => ?_, fun k h1 h2 => ?_⟩
  · change (journalApply _).shim.halted = true
    rcases j with e | j
    · rw [e]; rfl
    · exact j.halted
  · have e : journalApply (h.onShim fun s => { s with halted := true }) = h.onShim fun s => { s with halted := true } := journalApply_open hx hc
    unfold haltJournal
    rw [e]
    change (if h.shim.txn.isSome = true then h.shim.txn else h.shim.abandoned) = some x
    rw [hx]
    rfl
  · change (journalApply _).shim.counters[k] = _
    rcases j with e | j
    · rw [e]; rfl
    · exact j.counters k h1 h2

theorem pfailAssert_due {mv : Nat} {h : Hub} (ha : h.awake = true) (hp : h.pwr.pfail = false) (hv : mv < 5500) : pfailAssert mv h =
    peatEvent 5 [] (haltJournal (raisePwr (bit16 1)
      ((h.onPwr fun p => { p with vin := mv, pfail := true, pfailTime := h.houseShort }).onClk fun c => { c with heater := 0 }))) := by
  unfold pfailAssert
  rw [ensureBegun_awake ha]
  dsimp only
  rw [ha, hp, decide_eq_true hv, Bool.not_false, Bool.and_self, Bool.and_self, when_true]

theorem pfailDeassert_due {mv : Nat} {h : Hub} (ha : h.awake = true) (hp : h.pwr.pfail = true) (hv : 5600 < mv) : pfailDeassert mv h =
    completeOpt (h.shim.abandoned.bind (·.desc)) .aborted (supplyFault 4 (raisePwr (bit16 2)
      ((h.onPwr fun p => { p with vin := mv, pfail := false }).onShim fun s => { s with halted := false, abandoned := none }))) := by
  unfold pfailDeassert
  rw [ha, hp, decide_eq_true hv, Bool.and_self, Bool.and_self, when_true]

theorem vinOvervoltage_due {mv : Nat} {h : Hub} (ha : h.awake = true) (hp : h.pwr.ov = false) (hv : 41000 < mv) : vinOvervoltage mv h =
    supplyFault 3 (raisePwr (bit16 4) (h.onPwr fun p => { p with vin := mv, ov := true, vinHigh := max p.vinHigh mv })) := by
  unfold vinOvervoltage
  rw [ha, hp, decide_eq_true hv, Bool.not_false, Bool.and_self, Bool.and_self, when_true]

/-- The cause of SUPPLY that a lost phase sends (R454). -/
def phaseCause : Side → Nat
  | .a => 1
  | .b => 2

theorem converterPhaseLost_due {x : Side} {h : Hub} (ha : h.awake = true) (hp : h.pwr.phase x = true) : converterPhaseLost x h =
    supplyFault (phaseCause x) (raisePwr (bit16 3) (h.onPwr (setPhase x false))) := by
  unfold converterPhaseLost
  rw [ha, hp, Bool.and_self, when_true]
  cases x <;> rfl

theorem converterPhaseRestored_due {x : Side} {h : Hub} (ha : h.awake = true) (hp : h.pwr.phase x = false) :
    converterPhaseRestored x h = h.onPwr (setPhase x true) := by
  unfold converterPhaseRestored
  rw [ha, hp, Bool.not_false, Bool.and_self, when_true]

theorem setPhase_phase (x : Side) (v : Bool) (p : Pwr) : (setPhase x v p).phase x = v ∧
    (setPhase x v p).phase (otherSide x) = p.phase (otherSide x) := by
  cases x <;> exact ⟨rfl, rfl⟩

theorem completeOpt_only (id : Option Nat) (st : Status) (h : Hub) :
    Only { parts := [.cplRings, .msix, .books, .runs, .profile, .shimEvt, .bus] } h (completeOpt id st h) :=
  (completeOpt_kept (fun _ hp => hp) (.refl h)).only

/-- SUPPLY enters the queue behind what waits, whatever of the supply changed with it. -/
theorem supplyFault_enters {c : Nat} {g h : Hub} (b : BitVec 16) (ht : g.top = h.top) (hf : g.flt = h.flt) (hr : h.runs = true)
    (hq : h.flt.queue.length < 64) : ∃ m, (supplyFault c (raisePwr b g)).flt.queue = h.flt.queue ++ [m] ∧
      m.msg = faultMsg srcSupply .supply accNone mInternal c :=
  sendFault_enters srcSupply .supply accNone mInternal c (((raisePwr_only b g).eq_top (by decide) (by decide)).trans ht)
    (((raisePwr_only b g).eq_flt (by decide) (by decide) (by decide)).trans hf) hr hq

theorem supplyFault_pwr (c : Nat) (b : BitVec 16) (g : Hub) : (supplyFault c (raisePwr b g)).pwr = { g.pwr with evt := g.pwr.evt.raise b } :=
  (sendFault_pwr ..).trans (raisePwr_pwr ..)

/-! ## Temperature (R462 to R465) -/

theorem thermalWarn_due {i : Fin 8} {c : Int} {h : Hub} (ha : h.awake = true) (hw : h.pwr.warn = false) (hc : 1760 ≤ c) : thermalWarn i c h =
    bumpCounter 6 (raisePwr (bit16 0) (sendFault srcThermal .thermalWarn accNone mInternal (thermalAddr i c)
      ((setTemp i c h).onPwr fun p => { p with warn := true }))) := by
  unfold thermalWarn
  rw [ha, hw, decide_eq_true hc, Bool.not_false, Bool.and_self, Bool.and_self, when_true]

theorem thermalWarnClear_due {temps : List Int} {h : Hub} (ha : h.awake = true) (hw : h.pwr.warn = true) (hc : ∀ c ∈ temps, c < 1680) :
    thermalWarnClear temps h = (setTemps temps h).onPwr fun p => { p with warn := false } := by
  have hall : (temps.all fun t => decide (t < 1680)) = true := List.all_eq_true.mpr fun t ht => decide_eq_true (hc t ht)
  unfold thermalWarnClear
  rw [ha, hw, hall, Bool.and_self, Bool.and_self, when_true]

theorem thermalAutoRestart_due {temps : List Int} {h : Hub} (hm : h.inMode .thermalOff = true) (ha : h.pwr.thermAuto = true)
    (hn : h.top.autoCount < 3) (hc : ∀ c ∈ temps, c < 1600) :
    thermalAutoRestart temps h = coldBoot 3 (h.onTop fun t => { t with autoCount := t.autoCount + 1 }) := by
  have hall : (temps.all fun t => decide (t < 1600)) = true := List.all_eq_true.mpr fun t ht => decide_eq_true (hc t ht)
  unfold thermalAutoRestart
  rw [hm, ha, decide_eq_true hn, hall, Bool.and_self, Bool.and_self, Bool.and_self, when_true]

/-- A trip: dark, counted, with the journal stopped. -/
theorem thermalTrip_due {i : Fin 8} {c : Int} {h : Hub} (ha : h.awake = true) (hc : 2000 ≤ c) : ∃ m, thermalTrip i c h =
    goDark .thermalOff (bumpCounter 5 (peatFirst 4 m (haltJournal (setTemp i c h)))) := by
  have hawake : (setTemp i c h).awake = true := ha
  unfold thermalTrip
  rw [ensureBegun_awake ha]
  dsimp only
  rw [Hub.runs_of_awake ha, decide_eq_true hc, Bool.and_self, when_true, if_pos hawake]
  exact ⟨_, rfl⟩

/-! ## Bank supplies (R477, R478) -/

theorem vddpClass_of (v : Nat) : (v < 1600 → vddpClass v = 0) ∧ (1600 ≤ v → v < 2150 → vddpClass v = 1) ∧
    (2150 ≤ v → v < 2900 → vddpClass v = 2) ∧ (2900 ≤ v → vddpClass v = 3) := by
  unfold vddpClass
  refine ⟨fun h => if_pos h, fun h1 h2 => ?_, fun h1 h2 => ?_, fun h => ?_⟩
  · rw [if_neg (by omega), if_pos h2]
  · rw [if_neg (by omega), if_neg (by omega), if_pos h2]
  · rw [if_neg (by omega), if_neg (by omega), if_neg (by omega)]

theorem vddpClass_on {v : Nat} (hv : 1600 ≤ v) : vddpClass v ≠ 0 := by
  unfold vddpClass
  rw [if_neg (by omega)]
  split
  · decide
  · split <;> decide

theorem vddpBankMeasurement_plss {mv : List Nat} {h : Hub} (ha : h.awake = true) (n : Fin 64) : (vddpBankMeasurement mv h).plss[n] =
    h.plss[n].supplied (h.inMode .boot || !h.rootActive) (vddpClass (mv.getD (n.val / 8) 0)) := by
  unfold vddpBankMeasurement
  rw [ha, when_true]
  exact Vector.getElem_mapFinIdx ..

theorem Pls.supplied_off (boot : Bool) (x : Pls) : (x.supplied boot 0).pin = .hiZ := by
  unfold Pls.supplied
  rfl

theorem Pls.supplied_driven {boot : Bool} {c : BitVec 2} {x : Pls} (hc : c ≠ 0) (hx : x.pin ≠ .hiZ) : (x.supplied boot c).pin = x.pin :=
  (if_neg hc).trans (if_pos (bne_iff_ne.mpr hx))

end Sys2Proof.Machine

namespace Sys2Proof

open Machine

/-- Settles O42: VIN and EN start and stop the hub, a failed start of the rails is tried again, and BOOT ends in SERVICE. -/
theorem supplyEnableStartUp : Obligations.SupplyEnableStartUp := by
  unfold Obligations.SupplyEnableStartUp
  refine ⟨⟨fun s mv c hv hm hc => ?vinRise, fun s mv hv hm => ?vinFall, fun s hm hv => ?enHigh, fun s h1 h2 => ?enLow⟩,
    fun s hm hb hw => ?railRetry, fun s hm hw => ?railWait, fun s hd hq hc => ?bootEnd⟩
  case vinRise =>
    have heff := vinRise_off (h := s.toHub) hv hm
    rw [← hc] at heff
    by_cases he : s.top.en = true
    · rw [if_pos he] at heff
      obtain ⟨hmode, hbegun, hcause, -, -, hvin, hhost, hdoms, hmem, hcnt⟩ := coldBoot_fields c
        (s.toHub.onPwr fun p => { p with vin := mv, thermAuto := p.thermAuto && !s.toHub.inMode .off })
      exact ⟨_, exec_run (fun _ => rfl) heff, hvin, hmem, fun hf => absurd (he.symm.trans hf) (by decide),
        fun _ => ⟨hmode, hbegun, hcause, hhost, hdoms, hcnt⟩⟩
    · rw [if_neg he] at heff
      exact ⟨_, exec_run (fun _ => rfl) heff, rfl, rfl, fun _ => rfl, fun hf => absurd hf he⟩
  case vinFall =>
    have hdark := goDark_fields .off (s.toHub.onPwr fun p => { p with vin := mv })
    obtain ⟨hmode, -, hen, hvin, hhost, hmem, hcnt, -⟩ := hdark
    exact ⟨_, exec_run (fun _ => rfl) (vinFall_on hv hm), hmode, hvin, hen, rfl, hmem, hcnt, hhost, (goDark_pins .off _).2⟩
  case enHigh =>
    obtain ⟨hmode, hbegun, hcause, hen, -, -, -, -, hmem, -⟩ := coldBoot_fields s.toHub.enCause (s.toHub.onTop fun t => { t with en := true })
    refine ⟨_, exec_run (fun _ => rfl) (enHigh_standby hm hv), hen, hmode, hbegun, hcause.trans ?_, hmem⟩
    unfold Hub.enCause
    split <;> rfl
  case enLow =>
    obtain ⟨hmode, hpgood, hen, -, hhost, hmem, hcnt, -⟩ := goDark_fields .standby (s.toHub.onTop fun t => { t with en := false })
    exact ⟨_, exec_run (fun _ => rfl) (enLow_on h1 h2), hen, hmode, hpgood, rfl, hmem, hcnt, hhost, (goDark_pins .standby _).1⟩
  case railRetry =>
    refine ⟨_, exec_run (fun _ => rfl) (g := s.toHub.onTop fun t => { t with railWait := true, pgood := false }) ?_, rfl, rfl⟩
    unfold railRetryTimeout
    rw [hm, hb, hw]
    rfl
  case railWait =>
    refine ⟨_, exec_run (fun _ => rfl) (g := s.toHub.onTop fun t => { t with railWait := false, railRetries := satAdd 15 t.railRetries 1 }) ?_, rfl⟩
    unfold railRetryWaitExpiry
    rw [hm, hw]
    rfl
  case bootEnd =>
    exact ⟨_, exec_run (fun _ => rfl) (bootEnd_done hd), bootFinish_service hq hc⟩

/-- Settles O43: each event of the supply and of the sensors is one update, with its message behind those that wait. -/
theorem supplyAndThermalEvents : Obligations.SupplyAndThermalEvents := by
  unfold Obligations.SupplyAndThermalEvents
  refine ⟨fun s mv ha => ⟨fun hp hv => ?pfail, fun hq => ⟨fun hp hv => ?back, fun ho hv => ?over_, fun x hx => ?lost⟩, fun x hx => ?restored⟩,
    ⟨fun s i c ha hw hc hq => ?warn, fun s temps ha hw hc => ?clear, fun s i c ha hc => ?trip, fun s temps hm ha hn hc => ?restart⟩,
    fun s mv ha => ?banks⟩
  case pfail =>
    obtain ⟨hhalt, htxn, haband, -⟩ := haltJournal_shim (raisePwr (bit16 1)
      ((s.toHub.onPwr fun p => { p with vin := mv, pfail := true, pfailTime := s.houseShort }).onClk fun c => { c with heater := 0 }))
    have honly := haltJournal_only (raisePwr (bit16 1)
      ((s.toHub.onPwr fun p => { p with vin := mv, pfail := true, pfailTime := s.houseShort }).onClk fun c => { c with heater := 0 }))
    have j := peatEvent_journals 5 [] (haltJournal (raisePwr (bit16 1)
      ((s.toHub.onPwr fun p => { p with vin := mv, pfail := true, pfailTime := s.houseShort }).onClk fun c => { c with heater := 0 })))
    have hpeat := peatRunning_only 5 false 0 (haltJournal (raisePwr (bit16 1)
      ((s.toHub.onPwr fun p => { p with vin := mv, pfail := true, pfailTime := s.houseShort }).onClk fun c => { c with heater := 0 }))).houseShort
      (haltJournal (raisePwr (bit16 1) ((s.toHub.onPwr fun p => { p with vin := mv, pfail := true, pfailTime := s.houseShort }).onClk
        fun c => { c with heater := 0 }))).houseEpoch [] (haltJournal (raisePwr (bit16 1)
      ((s.toHub.onPwr fun p => { p with vin := mv, pfail := true, pfailTime := s.houseShort }).onClk fun c => { c with heater := 0 })))
    have hpwr := (hpeat.pwr.resolve_left (by decide)).trans ((honly.pwr.resolve_left (by decide)).trans (raisePwr_pwr ..))
    have hclk := (hpeat.eq_clk (by decide) (by decide)).trans ((honly.eq_clk (by decide) (by decide)).trans
      ((raisePwr_only ..).eq_clk (by decide) (by decide)))
    have hshim : (raisePwr (bit16 1) ((s.toHub.onPwr fun p => { p with vin := mv, pfail := true, pfailTime := s.houseShort }).onClk
        fun c => { c with heater := 0 })).shim = s.shim := (raisePwr_only ..).eq_shim (by decide) (by decide) (by decide) (by decide) (by decide)
    refine ⟨_, exec_run (fun _ => rfl) (pfailAssert_due ha hp hv), congrArg Pwr.pfail hpwr, congrArg Pwr.vin hpwr, congrArg Clk.heater hclk,
      j.halted.trans hhalt, ?_, j.txn.trans htxn, fun x hx hc => j.abandoned.trans (haband x ((congrArg Shim.txn hshim).trans hx) hc)⟩
    exact (congrArg (fun p : Pwr => p.evt.bits.getLsbD 1) hpwr).trans (Evt.raise_bit16 _ (by decide))
  case back =>
    obtain ⟨m, hm, hmsg⟩ := supplyFault_enters (c := 4) (h := s.toHub) (bit16 2)
      (g := (s.toHub.onPwr fun p => { p with vin := mv, pfail := false }).onShim fun x => { x with halted := false, abandoned := none })
      rfl rfl (Hub.runs_of_awake ha) hq
    have hpwr := supplyFault_pwr 4 (bit16 2)
      ((s.toHub.onPwr fun p => { p with vin := mv, pfail := false }).onShim fun x => { x with halted := false, abandoned := none })
    have hshim : (supplyFault 4 (raisePwr (bit16 2)
        ((s.toHub.onPwr fun p => { p with vin := mv, pfail := false }).onShim fun x => { x with halted := false, abandoned := none }))).shim =
        { s.shim with halted := false, abandoned := none } :=
      (sendFault_shim ..).trans ((raisePwr_only ..).eq_shim (by decide) (by decide) (by decide) (by decide) (by decide))
    have hdone := completeOpt_only (s.shim.abandoned.bind (·.desc)) .aborted (supplyFault 4 (raisePwr (bit16 2)
      ((s.toHub.onPwr fun p => { p with vin := mv, pfail := false }).onShim fun x => { x with halted := false, abandoned := none })))
    have hdp := (hdone.pwr.resolve_left (by decide)).trans hpwr
    have hds := (hdone.shim.resolve_left (by decide)).trans (congrArg Shim.rest hshim)
    refine ⟨_, m, exec_run (fun _ => rfl) (pfailDeassert_due ha hp hv), congrArg Pwr.pfail hdp, congrArg Shim.halted hds,
      congrArg Shim.abandoned hds, ?_, ?_, ?_, ?_, ?_⟩
    · exact (congrArg (fun p : Pwr => p.evt.bits.getLsbD 2) hdp).trans (Evt.raise_bit16 _ (by decide))
    · exact (congrArg Flt.queue (hdone.eq_flt (by decide) (by decide) (by decide))).trans hm
    all_goals rw [hmsg]; rfl
  case over_ =>
    obtain ⟨m, hm, hmsg⟩ := supplyFault_enters (c := 3) (h := s.toHub) (bit16 4)
      (g := s.toHub.onPwr fun p => { p with vin := mv, ov := true, vinHigh := max p.vinHigh mv }) rfl rfl (Hub.runs_of_awake ha) hq
    have hpwr := supplyFault_pwr 3 (bit16 4) (s.toHub.onPwr fun p => { p with vin := mv, ov := true, vinHigh := max p.vinHigh mv })
    refine ⟨_, m, exec_run (fun _ => rfl) (vinOvervoltage_due ha ho hv), congrArg Pwr.ov hpwr, ?_, hm, ?_, ?_, ?_⟩
    · exact (congrArg (fun p : Pwr => p.evt.bits.getLsbD 4) hpwr).trans (Evt.raise_bit16 _ (by decide))
    all_goals rw [hmsg]; rfl
  case lost =>
    obtain ⟨m, hm, hmsg⟩ := supplyFault_enters (c := phaseCause x) (h := s.toHub) (bit16 3)
      (g := s.toHub.onPwr (setPhase x false)) rfl rfl (Hub.runs_of_awake ha) hq
    have hpwr := supplyFault_pwr (phaseCause x) (bit16 3) (s.toHub.onPwr (setPhase x false))
    obtain ⟨hsame, hother⟩ := setPhase_phase x false s.pwr
    refine ⟨_, m, exec_run (fun _ => rfl) (converterPhaseLost_due ha hx), ?_, ?_, ?_, hm, ?_, ?_, ?_⟩
    · refine (congrArg (fun p => Pwr.phase p x) hpwr).trans (Eq.trans ?_ hsame)
      cases x <;> rfl
    · refine (congrArg (fun p => Pwr.phase p (otherSide x)) hpwr).trans (Eq.trans ?_ hother)
      cases x <;> rfl
    · exact (congrArg (fun p : Pwr => p.evt.bits.getLsbD 3) hpwr).trans (Evt.raise_bit16 _ (by decide))
    · rw [hmsg]; rfl
    · rw [hmsg]; rfl
    · rw [hmsg]; cases x <;> rfl
  case restored =>
    obtain ⟨hsame, hother⟩ := setPhase_phase x true s.pwr
    exact ⟨_, exec_run (fun _ => rfl) (converterPhaseRestored_due ha hx), hsame, hother, rfl⟩
  case warn =>
    obtain ⟨m, hm, hmsg⟩ := sendFault_enters srcThermal .thermalWarn accNone mInternal (thermalAddr i c) (h := s.toHub)
      (g := (setTemp i c s.toHub).onPwr fun p => { p with warn := true }) rfl rfl (Hub.runs_of_awake ha) hq
    have hflt : (bumpCounter 6 (raisePwr (bit16 0) (sendFault srcThermal .thermalWarn accNone mInternal (thermalAddr i c)
        ((setTemp i c s.toHub).onPwr fun p => { p with warn := true })))).flt = (sendFault srcThermal .thermalWarn accNone mInternal
        (thermalAddr i c) ((setTemp i c s.toHub).onPwr fun p => { p with warn := true })).flt :=
      (bumpCounter_flt ..).trans ((raisePwr_only ..).eq_flt (by decide) (by decide) (by decide))
    have hpwr : (bumpCounter 6 (raisePwr (bit16 0) (sendFault srcThermal .thermalWarn accNone mInternal (thermalAddr i c)
        ((setTemp i c s.toHub).onPwr fun p => { p with warn := true })))).pwr = _ :=
      ((bumpCounter_only ..).pwr.resolve_left (by decide)).trans (raisePwr_pwr ..)
    rw [sendFault_pwr] at hpwr
    refine ⟨_, m, exec_run (fun _ => rfl) (thermalWarn_due ha hw hc), congrArg Pwr.warn hpwr, ?_, ?_, ?_, (congrArg Flt.queue hflt).trans hm, ?_, ?_⟩
    · exact (congrArg (fun p : Pwr => p.temps[i]) hpwr).trans (upd_same ..)
    · exact (congrArg (fun p : Pwr => p.evt.bits.getLsbD 0) hpwr).trans (Evt.raise_bit16 _ (by decide))
    · refine (bumpCounter_at (n := (6 : Fin 256)) rfl _).trans ?_
      rw [(raisePwr_only ..).eq_shim (by decide) (by decide) (by decide) (by decide) (by decide), sendFault_shim]
      rfl
    all_goals rw [hmsg]; rfl
  case clear => exact ⟨_, exec_run (fun _ => rfl) (thermalWarnClear_due ha hw hc), rfl, rfl⟩
  case trip =>
    obtain ⟨m, heff⟩ := thermalTrip_due (i := i) (h := s.toHub) ha hc
    obtain ⟨hmode, hpgood, -, -, hhost, -, hcnt, htxn⟩ :=
      goDark_fields .thermalOff (bumpCounter 5 (peatFirst 4 m (haltJournal (setTemp i c s.toHub))))
    obtain ⟨-, hnone, -, hkeep⟩ := haltJournal_shim (setTemp i c s.toHub)
    have j := peatFirst_journals 4 m (haltJournal (setTemp i c s.toHub))
    refine ⟨_, exec_run (fun _ => rfl) heff, hmode, hpgood, htxn.trans ?_, ?_, hhost⟩
    · exact (congrArg Shim.txn ((bumpCounter_only 5 _).shim.resolve_left (by decide))).trans (j.txn.trans hnone)
    · refine (congrArg (fun x : Vector Nat 256 => x[(5 : Fin 256)]) hcnt).trans ((bumpCounter_at (n := (5 : Fin 256)) rfl _).trans ?_)
      rw [j.counters 5 (by decide) (by decide), hkeep 5 (by decide) (by decide)]
      rfl
  case restart =>
    obtain ⟨hmode, -, hcause, -, hauto, -, -, -, hmem, -⟩ := coldBoot_fields 3 (s.toHub.onTop fun t => { t with autoCount := t.autoCount + 1 })
    exact ⟨_, exec_run (fun _ => rfl) (thermalAutoRestart_due hm ha hn hc), hmode, hcause, hmem, fun hlt => hauto.trans (if_neg (Nat.not_le.mpr hlt))⟩
  case banks =>
    refine ⟨_, exec_run (fun _ => rfl) rfl, fun n v hv => ?_⟩
    dsimp only
    rw [vddpBankMeasurement_plss ha, ← hv]
    obtain ⟨h0, h1, h2, h3⟩ := vddpClass_of v
    refine ⟨fun hlt => ⟨h0 hlt, ?_⟩, h1, h2, h3, fun hle hpin => Pls.supplied_driven (vddpClass_on hle) hpin, rfl⟩
    rw [h0 hlt]
    exact Pls.supplied_off ..

end Sys2Proof
end

section
/-!
SUPPORT. The fault collector: the record, the marks and the entry to SAFE of a message, each as one update, with what the later
steps leave of the earlier ones (R407 to R419).
-/

set_option Elab.async false

namespace Sys2Proof.Machine

/-! ## What the later steps leave -/

/-- The history, the capture and the pin are as they were, and no event bit or mark has gone. -/
structure Handles (h t : Hub) : Prop where
  history : t.flt.history = h.flt.history
  cap : t.flt.cap = h.flt.cap
  ovf : t.flt.ovf = h.flt.ovf
  capCnt : t.flt.capCnt = h.flt.capCnt
  driven : t.flt.driven = h.flt.driven
  minLow : t.flt.minLow = h.flt.minLow
  events : ∀ i, h.flt.evt.bits.getLsbD i = true → t.flt.evt.bits.getLsbD i = true
  safe : ∀ i, h.flt.safeEvt.bits.getLsbD i = true → t.flt.safeEvt.bits.getLsbD i = true
  links : ∀ (j : Fin 3) i, h.flt.degLnk[j].bits.getLsbD i = true → t.flt.degLnk[j].bits.getLsbD i = true
  untrusted : ∀ k : Fin 16, h.doms[k].untrusted = true → t.doms[k].untrusted = true

/-- The same, in the mode that was, and with no entry to SAFE counted. -/
structure Notes (h t : Hub) : Prop extends Handles h t where
  top : t.top = h.top
  safes : t.shim.counters[(4 : Fin 256)] = h.shim.counters[(4 : Fin 256)]

theorem Handles.refl (h : Hub) : Handles h h :=
  ⟨rfl, rfl, rfl, rfl, rfl, rfl, fun _ e => e, fun _ e => e, fun _ _ e => e, fun _ e => e⟩

theorem Handles.trans {a b c : Hub} (p : Handles a b) (q : Handles b c) : Handles a c :=
  ⟨q.history.trans p.history, q.cap.trans p.cap, q.ovf.trans p.ovf, q.capCnt.trans p.capCnt, q.driven.trans p.driven,
    q.minLow.trans p.minLow, fun i e => q.events i (p.events i e), fun i e => q.safe i (p.safe i e),
    fun j i e => q.links j i (p.links j i e), fun k e => q.untrusted k (p.untrusted k e)⟩

theorem Notes.refl (h : Hub) : Notes h h := ⟨.refl h, rfl, rfl⟩

theorem Notes.trans {a b c : Hub} (p : Notes a b) (q : Notes b c) : Notes a c :=
  ⟨p.toHandles.trans q.toHandles, q.top.trans p.top, q.safes.trans p.safes⟩

theorem Notes.ite {c : Prop} [Decidable c] {a b d : Hub} (p : Notes a b) (q : Notes a d) : Notes a (if c then b else d) := by
  split
  · exact p
  · exact q

/-- An entry of the Peat record. -/
theorem Journals.handles {h t : Hub} (j : Journals h t) (hd : t.doms = h.doms) : Handles h t :=
  ⟨j.history, j.cap, j.ovf, j.capCnt, j.driven, j.minLow, j.events, fun i e => by rw [j.safeEvt]; exact e,
    fun k i e => by rw [j.degLnk]; exact e, fun k e => by rw [hd]; exact e⟩

theorem Journals.notes {h t : Hub} (j : Journals h t) (hd : t.doms = h.doms) (ht : t.top = h.top) : Notes h t :=
  ⟨j.handles hd, ht, j.counters 4 (by decide) (by decide)⟩

/-- Some blocks touched that no message shows itself in. -/
theorem Handles.of_eq {h t : Hub} (hf : t.flt = h.flt) (hd : t.doms = h.doms) : Handles h t := by
  exact ⟨congrArg Flt.history hf, congrArg Flt.cap hf, congrArg Flt.ovf hf, congrArg Flt.capCnt hf, congrArg Flt.driven hf,
    congrArg Flt.minLow hf, fun i e => by rw [hf]; exact e, fun i e => by rw [hf]; exact e, fun j i e => by rw [hf]; exact e,
    fun k e => by rw [hd]; exact e⟩

/-! ## Bits and marks -/

theorem raiseFlt_top (b : BitVec 16) (h : Hub) : (raiseFlt b h).top = h.top := irqIf_top ..

theorem raiseFlt_doms (b : BitVec 16) (h : Hub) : (raiseFlt b h).doms = h.doms := irqIf_doms ..

theorem raiseFlt_notes (b : BitVec 16) (h : Hub) : Notes h (raiseFlt b h) :=
  (raiseFlt_journals b h).notes (raiseFlt_doms ..) (raiseFlt_top ..)

theorem raiseFlt_bit {b : BitVec 16} {i : Nat} (hi : b.getLsbD i = true) (h : Hub) : (raiseFlt b h).flt.evt.bits.getLsbD i = true := by
  rw [raiseFlt_flt]
  exact Evt.raise_bit _ hi

theorem keepCause_notes (m : Stamped) (doms : BitVec 16) (port : Option (Fin 48)) (h : Hub) : Notes h (keepCause m doms port h) :=
  ⟨⟨rfl, rfl, rfl, rfl, rfl, rfl, fun _ e => e, fun _ e => e, fun _ _ e => e, fun _ e => e⟩, rfl, rfl⟩

theorem raiseDegLnk_notes (n : Fin 48) (h : Hub) : Notes h (raiseDegLnk n h) := by
  refine ⟨⟨rfl, rfl, rfl, rfl, rfl, rfl, fun _ e => e, fun _ e => e, fun j i e => ?_, fun _ e => e⟩, rfl, rfl⟩
  by_cases hj : j = ⟨n.val / 16, by omega⟩
  · subst hj
    exact (upd_field (fun x : Evt => x.bits.getLsbD i) ..).trans (Evt.raise_keeps _ _ e)
  · exact (upd_field_other (fun x : Evt => x.bits.getLsbD i) hj).trans e

theorem raiseDegLnk_bit (n : Fin 48) (h : Hub) :
    (raiseDegLnk n h).flt.degLnk[(⟨n.val / 16, by omega⟩ : Fin 3)].bits.getLsbD (n.val % 16) = true :=
  (upd_field (fun x : Evt => x.bits.getLsbD (n.val % 16)) ..).trans (Evt.raise_bit16 _ (by omega))

theorem distrust_only (k : Fin 16) (h : Hub) : Only { parts := [.msix, .bus], doms := (· = k) } h (distrust k h) :=
  (distrust_kept (fun _ hp => hp) rfl (.refl h)).only

theorem distrust_notes (k : Fin 16) (h : Hub) : Notes h (distrust k h) := by
  have o := distrust_only k h
  have hf := o.eq_flt (by simp) (by simp) (by simp)
  refine ⟨?_, o.eq_top (by simp) (by simp), by rw [o.counters.resolve_left (by simp)]⟩
  refine ⟨congrArg Flt.history hf, congrArg Flt.cap hf, congrArg Flt.ovf hf, congrArg Flt.capCnt hf, congrArg Flt.driven hf,
    congrArg Flt.minLow hf, fun i e => by rw [hf]; exact e, fun i e => by rw [hf]; exact e, fun j i e => by rw [hf]; exact e, fun j e => ?_⟩
  simp only [distrust_doms]
  by_cases hj : j = k
  · subst hj
    exact upd_field Dom.untrusted ..
  · exact (upd_field_other Dom.untrusted hj).trans e

theorem distrust_marks (k : Fin 16) (h : Hub) : (distrust k h).doms[k].untrusted = true := by
  simp only [distrust_doms]
  exact upd_field Dom.untrusted ..

theorem forEach_notes {α : Type} (l : List α) {f : α → Hub → Hub} (hf : ∀ a g, Notes g (f a g)) (h : Hub) : Notes h (forEach l f h) := by
  induction l generalizing h with
  | nil => exact .refl h
  | cons a l ih => exact (hf a h).trans (ih (f a h))

theorem distrustAll_notes (doms : BitVec 16) (h : Hub) : Notes h (distrustAll doms h) :=
  forEach_notes (allFin 16) (fun k g => (distrust_notes k g).ite (.refl g)) h

theorem distrustAll_marks {doms : BitVec 16} {k : Fin 16} (hk : doms.getLsbD k = true) (h : Hub) :
    (distrustAll doms h).doms[k].untrusted = true := by
  have hstep : ∀ (a : Fin 16) (g : Hub), Notes g (if doms.getLsbD a = true then distrust a g else g) :=
    fun a g => (distrust_notes a g).ite (.refl g)
  have hmem : k ∈ allFin 16 := List.mem_finRange k
  unfold distrustAll
  generalize allFin 16 = l at hmem
  induction l generalizing h with
  | nil => cases hmem
  | cons a l ih =>
    rw [forEach_cons]
    by_cases hl : k ∈ l
    · exact ih _ hl
    · obtain rfl : k = a := (List.mem_cons.mp hmem).resolve_right hl
      refine (forEach_notes l hstep _).untrusted k ?_
      rw [if_pos hk]
      exact distrust_marks k h

/-! ## DEGRADE (R411) -/

/-- What a source marks depends on tasks, reeds, references and outputs only. -/
theorem Hub.marks_congr {h t : Hub} (hr : t.refs = h.refs) (hc : t.comp = h.comp) (ho : t.outs = h.outs) (hp : t.plss = h.plss)
    (m : FaultMsg) : t.marks m = h.marks m := by
  unfold Hub.marks Hub.taskMarks
  rw [hr, hc, ho, hp]

/-- The marks of a port and of domains, before FLT_EVT.degrade. -/
def marked (m : Stamped) (doms : BitVec 16) (port : Option (Fin 48)) (h : Hub) : Hub :=
  match port with
  | some n => raiseDegLnk n (keepCause m doms port h)
  | none => keepCause m doms port h

theorem marked_notes (m : Stamped) (doms : BitVec 16) (port : Option (Fin 48)) (h : Hub) : Notes h (marked m doms port h) := by
  cases port
  case none => exact keepCause_notes ..
  case some n => exact (keepCause_notes ..).trans (raiseDegLnk_notes ..)

theorem degrade_some {m : Stamped} {h : Hub} {doms : BitVec 16} {port : Option (Fin 48)} (hm : h.marks m.msg = some (doms, port)) :
    degrade m h = raiseFlt (bit16 2) (distrustAll doms (marked m doms port h)) := by
  unfold degrade
  rw [hm]
  cases port <;> rfl

theorem degrade_notes (m : Stamped) (h : Hub) : Notes h (degrade m h) := by
  cases hm : h.marks m.msg with
  | none =>
    unfold degrade
    rw [hm]
    exact .refl h
  | some x =>
    rw [degrade_some (doms := x.1) (port := x.2) hm]
    exact (marked_notes ..).trans ((distrustAll_notes ..).trans (raiseFlt_notes ..))

theorem degrade_marks {m : Stamped} {h : Hub} {doms : BitVec 16} {port : Option (Fin 48)} (hm : h.marks m.msg = some (doms, port)) :
    (degrade m h).flt.evt.bits.getLsbD 2 = true ∧ (∀ k : Fin 16, doms.getLsbD k = true → (degrade m h).doms[k].untrusted = true) ∧
      ∀ n : Fin 48, port = some n → (degrade m h).flt.degLnk[(⟨n.val / 16, by omega⟩ : Fin 3)].bits.getLsbD (n.val % 16) = true := by
  rw [degrade_some hm]
  refine ⟨raiseFlt_bit (by decide) _, fun k hk => ?_, fun n hn => ?_⟩
  · exact (raiseFlt_notes ..).untrusted k (distrustAll_marks hk _)
  · subst hn
    exact ((distrustAll_notes ..).trans (raiseFlt_notes ..)).links _ _ (raiseDegLnk_bit ..)

/-! ## History, capture and the pin (R407, R412, R413, R415) -/

theorem record_flt (m : Stamped) (h : Hub) : (record m h).flt =
    match h.flt.cap with
    | none => { h.flt with
        history := (m :: h.flt.history).take 256, cap := some (m, BitVec.ofNat 4 h.top.mode.code)
        evt := h.flt.evt.raise (bit16 4 ||| bit16 0) }
    | some _ =>
      if h.inMode .service = true then
        { h.flt with history := (m :: h.flt.history).take 256, capCnt := satInc32 h.flt.capCnt, evt := h.flt.evt.raise (bit16 0) }
      else { h.flt with history := (m :: h.flt.history).take 256, ovf := true, evt := h.flt.evt.raise (bit16 5 ||| bit16 0) } := by
  have hmode : (h.onFlt fun f => { f with history := (m :: f.history).take 256 }).inMode .service = h.inMode .service := rfl
  unfold record
  cases hc : h.flt.cap
  case none =>
    dsimp only [Hub.onFlt_flt]
    rw [hc]
    exact raiseFlt_flt ..
  case some x =>
    dsimp only [Hub.onFlt_flt]
    rw [hc, hmode]
    dsimp only
    split <;> simp only [raiseFlt_flt, Hub.onFlt_flt, hc]

theorem record_only (m : Stamped) (h : Hub) : Only { parts := [.msix, .fltEvt, .flt, .bus] } h (record m h) :=
  (record_kept (fun _ hp => hp) (.refl h)).only

/-- A message kept: the newest in the history, with FLT_EVT.logged. -/
theorem record_keeps (m : Stamped) (h : Hub) : (record m h).flt.history = (m :: h.flt.history).take 256 ∧
    (record m h).flt.evt.bits.getLsbD 0 = true ∧ (record m h).flt.queue = h.flt.queue ∧ (record m h).flt.driven = h.flt.driven ∧
    (record m h).flt.safeEvt = h.flt.safeEvt := by
  rw [record_flt]
  split
  · exact ⟨rfl, Evt.raise_or _ _ _ (.inr (by decide)), rfl, rfl, rfl⟩
  · split
    · exact ⟨rfl, Evt.raise_bit _ (by decide), rfl, rfl, rfl⟩
    · exact ⟨rfl, Evt.raise_or _ _ _ (.inr (by decide)), rfl, rfl, rfl⟩

theorem record_first {m : Stamped} {h : Hub} (hc : h.flt.cap = none) :
    (record m h).flt.cap = some (m, BitVec.ofNat 4 h.top.mode.code) ∧ (record m h).flt.evt.bits.getLsbD 4 = true := by
  rw [record_flt, hc]
  exact ⟨rfl, Evt.raise_or _ _ _ (.inl (by decide))⟩

theorem record_later {m : Stamped} {h : Hub} (hc : h.flt.cap.isSome = true) : (record m h).flt.cap = h.flt.cap ∧
    (h.inMode .service = true → (record m h).flt.capCnt = satInc32 h.flt.capCnt) ∧
    (h.inMode .service = false → (record m h).flt.ovf = true ∧ (record m h).flt.evt.bits.getLsbD 5 = true) := by
  obtain ⟨x, hx⟩ := Option.isSome_iff_exists.mp hc
  rw [record_flt, hx]
  dsimp only
  split
  case isTrue hs => exact ⟨hx, fun _ => rfl, fun hn => absurd (hs.symm.trans hn) (by decide)⟩
  case isFalse hs => exact ⟨hx, fun hn => absurd hn hs, fun _ => ⟨rfl, Evt.raise_or _ _ _ (.inl (by decide))⟩⟩

theorem driveFault_flt (h : Hub) : (driveFault h).flt = { h.flt with driven := true, minLow := true, evt := h.flt.evt.raise (bit16 1) } :=
  raiseFlt_flt ..

theorem driveFault_only (h : Hub) : Only { parts := [.msix, .fltEvt, .flt, .bus] } h (driveFault h) :=
  (driveFault_kept (fun _ hp => hp) (.refl h)).only

/-- A message recorded, and at NOTIFY or above shown on FAULT_N. -/
def struck (m : Stamped) (sev : Nat) (h : Hub) : Hub := if 2 ≤ sev then driveFault (record m h) else record m h

theorem struck_only (m : Stamped) (sev : Nat) (h : Hub) : Only { parts := [.msix, .fltEvt, .flt, .bus] } h (struck m sev h) := by
  unfold struck
  split
  · exact (record_only m h).trans (driveFault_only _)
  · exact record_only m h

/-- The pin aside, what shows of the record is left by FAULT_N. -/
theorem struck_record (m : Stamped) (sev : Nat) (h : Hub) : (struck m sev h).flt.history = (record m h).flt.history ∧
    (struck m sev h).flt.cap = (record m h).flt.cap ∧ (struck m sev h).flt.ovf = (record m h).flt.ovf ∧
    (struck m sev h).flt.capCnt = (record m h).flt.capCnt ∧
    ∀ i, (record m h).flt.evt.bits.getLsbD i = true → (struck m sev h).flt.evt.bits.getLsbD i = true := by
  unfold struck
  split
  · rw [driveFault_flt]
    exact ⟨rfl, rfl, rfl, rfl, fun i e => Evt.raise_keeps _ _ e⟩
  · exact ⟨rfl, rfl, rfl, rfl, fun _ e => e⟩

theorem struck_pin {m : Stamped} {sev : Nat} (hs : 2 ≤ sev) (h : Hub) : (struck m sev h).flt.driven = true ∧
    (struck m sev h).flt.minLow = true ∧ (struck m sev h).flt.evt.bits.getLsbD 1 = true := by
  unfold struck
  rw [if_pos hs, driveFault_flt]
  exact ⟨rfl, rfl, Evt.raise_bit16 _ (by decide)⟩

/-! ## Entry to SAFE (R418, R419) -/

/-- What releasing a SELFTEST touches. -/
def Touch.released : Touch :=
  { parts := [.clk, .msix, .tdc, .hier, .comp, .bus, .free], evts := any, refs := any, links := any, tasks := any, reeds := any }

theorem selftestRelease_only (h : Hub) : Only .released h (selftestRelease h) :=
  (selftestRelease_kept (A := .released) (fun _ hp => hp) every every every every every (.refl h)).only

/-- A change of the collector that none of these shows. -/
theorem Hub.onFlt_handles {f : Flt → Flt} {h : Hub} (hs : (f h.flt).history = h.flt.history) (hc : (f h.flt).cap = h.flt.cap)
    (ho : (f h.flt).ovf = h.flt.ovf) (hn : (f h.flt).capCnt = h.flt.capCnt) (hd : (f h.flt).driven = h.flt.driven)
    (hm : (f h.flt).minLow = h.flt.minLow) (he : (f h.flt).evt = h.flt.evt) (ha : (f h.flt).safeEvt = h.flt.safeEvt)
    (hl : (f h.flt).degLnk = h.flt.degLnk) : Handles h (h.onFlt f) :=
  ⟨hs, hc, ho, hn, hd, hm, fun i e => by rw [Hub.onFlt_flt, he]; exact e, fun i e => by rw [Hub.onFlt_flt, ha]; exact e,
    fun j i e => by rw [Hub.onFlt_flt, hl]; exact e, fun _ e => e⟩

theorem selftestEnd_handles (st : Status) (h : Hub) : Handles h (selftestEnd st h) := by
  unfold selftestEnd
  split
  · exact .refl h
  · have o := selftestRelease_only h
    have p : Handles h (selftestRelease h) := .of_eq (o.eq_flt (by simp [Touch.released]) (by simp [Touch.released]) (by simp [Touch.released]))
      (o.eq_doms fun _ hk => hk)
    refine p.trans (Handles.trans ?_ (.of_eq (completeWith_flt ..) (completeWith_doms ..)))
    generalize selftestRelease h = g
    exact Hub.onFlt_handles rfl rfl rfl rfl rfl rfl rfl rfl rfl

theorem outputsSafe_only (h : Hub) :
    Only { parts := [.cplRings, .msix, .books, .runs, .profile, .shimEvt, .bus], outs := any, plss := any } h (outputsSafe h) :=
  (outputsSafe_kept (fun _ hp => hp) every every (.refl h)).only

theorem raiseRotSat_flt (b : BitVec 16) (h : Hub) : (raiseRotSat b h).flt = h.flt := irqIf_flt ..

theorem checkRot_journals (m : Fin 16) (h : Hub) : Journals h (checkRot m h) := by
  have hraise : ∀ b g, Journals g (raiseRotSat b g) := fun b g =>
    .of_flt (raiseRotSat_flt b g) (fun _ _ _ => by rw [show (raiseRotSat b g).shim = g.shim from irqIf_shim ..])
      (by rw [show (raiseRotSat b g).shim = g.shim from irqIf_shim ..])
  have hdom : ∀ f g, Journals g (Hub.onDom m f g) := fun f g => .of_flt rfl (fun _ _ _ => rfl) rfl
  unfold checkRot
  dsimp only
  split
  · split
    · exact (hdom _ h).trans ((hraise ..).trans ((hdom ..).trans (sendFault_journals ..)))
    · exact (hdom _ h).trans (hraise ..)
  · exact hdom ..

theorem checkRot_handles (m : Fin 16) (h : Hub) : Handles h (checkRot m h) := by
  have j := checkRot_journals m h
  refine ⟨j.history, j.cap, j.ovf, j.capCnt, j.driven, j.minLow, j.events, fun i e => by rw [j.safeEvt]; exact e,
    fun k i e => by rw [j.degLnk]; exact e, fun k e => ?_⟩
  by_cases hk : k = m
  · subst hk
    obtain ⟨l, n, hd⟩ := checkRot_dom k h
    rw [hd]
    exact e
  · rw [((checkRot_only m h).doms k).resolve_left hk]
    exact e

theorem forEach_handles {α : Type} (l : List α) {f : α → Hub → Hub} (hf : ∀ a g, Handles g (f a g)) (h : Hub) : Handles h (forEach l f h) := by
  induction l generalizing h with
  | nil => exact .refl h
  | cons a l ih => exact (hf a h).trans (ih (f a h))

theorem freeze_handles (h : Hub) : Handles h (freeze h) := by
  have hdoms : Handles h (h.onDoms fun d => { d with slope := 0 }) := by
    refine ⟨rfl, rfl, rfl, rfl, rfl, rfl, fun _ e => e, fun _ e => e, fun _ _ e => e, fun k e => ?_⟩
    exact (congrArg Dom.untrusted (Vector.getElem_map ..)).trans e
  have o : ∀ g, Handles g (outputsSafe g) := fun g => .of_eq ((outputsSafe_only g).eq_flt (by simp) (by simp) (by simp))
    ((outputsSafe_only g).eq_doms fun _ hk => hk)
  have hend : Handles h (selftestEnd .aborted (h.onDoms fun d => { d with slope := 0 })) := hdoms.trans (selftestEnd_handles ..)
  unfold freeze checkRots
  exact (hend.trans (o _)).trans (forEach_handles (allFin 16) checkRot_handles _)

/-- What SAFE withdraws touches. -/
def Touch.frozen : Touch :=
  { parts := [.clk, .cplRings, .msix, .books, .tdc, .hier, .runs, .comp, .profile, .shimEvt, .collector, .fltEvt, .flt, .bus, .free]
    evts := any, refs := any, doms := any, outs := any, plss := any, links := any, tasks := any, reeds := any }

theorem freeze_only (h : Hub) : Only .frozen h (freeze h) :=
  (freeze_kept (A := .frozen) (fun _ hp => hp) every every every every every every every every (.refl h)).only

theorem raiseSafe_flt (b : BitVec 16) (h : Hub) : (raiseSafe b h).flt = { h.flt with safeEvt := h.flt.safeEvt.raise b } := irqIf_flt ..

theorem raiseSafe_notes (b : BitVec 16) (h : Hub) : Notes h (raiseSafe b h) := by
  have e := raiseSafe_flt b h
  have hs : (raiseSafe b h).shim = h.shim := irqIf_shim ..
  have hd : (raiseSafe b h).doms = h.doms := irqIf_doms ..
  refine ⟨⟨?_, ?_, ?_, ?_, ?_, ?_, fun i he => ?_, fun i he => ?_, fun j i he => ?_, fun k he => ?_⟩, irqIf_top .., by rw [hs]⟩
  case refine_7 => rw [e]; exact he
  case refine_8 => rw [e]; exact Evt.raise_keeps _ _ he
  case refine_9 => rw [e]; exact he
  case refine_10 => rw [hd]; exact he
  all_goals rw [e]

theorem peatRunning_notes (type : Nat) (first : Bool) (msg t : BitVec 64) (ep : BitVec 16) (detail : Bytes) (h : Hub) :
    Notes h (peatRunning type first msg t ep detail h) :=
  (peatRunning_journals ..).notes ((peatRunning_only ..).eq_doms fun _ hk => hk) ((peatRunning_only ..).eq_top (by decide) (by decide))

theorem peatFirst_only (type : Nat) (m : Stamped) (h : Hub) :
    Only { parts := [.msix, .store, .counters, .shimEvt, .shim, .collector, .fltEvt, .flt, .bus] } h (peatFirst type m h) :=
  (peatFirst_kept (fun _ hp => hp) (.refl h)).only

theorem peatFirst_notes (type : Nat) (m : Stamped) (h : Hub) : Notes h (peatFirst type m h) :=
  (peatFirst_journals ..).notes ((peatFirst_only ..).eq_doms fun _ hk => hk) ((peatFirst_only ..).eq_top (by decide) (by decide))

theorem peatMessage_notes (m : Stamped) (h : Hub) : Notes h (peatMessage m h) := by
  have o : Only { parts := [.msix, .store, .counters, .shimEvt, .shim, .collector, .fltEvt, .flt, .bus] } h (peatMessage m h) :=
    (peatMessage_kept (fun _ hp => hp) (.refl h)).only
  exact (peatMessage_journals ..).notes (o.eq_doms fun _ hk => hk) (o.eq_top (by decide) (by decide))

theorem dumpMissed_notes (m : Stamped) (h : Hub) : Notes h (dumpMissed m h) := (peatRunning_notes ..).trans (raiseFlt_notes ..)

theorem askDump_notes (m : Stamped) (h : Hub) : Notes h (askDump m h) := by
  unfold askDump
  split
  · exact dumpMissed_notes ..
  · exact ⟨⟨rfl, rfl, rfl, rfl, rfl, rfl, fun _ e => e, fun _ e => e, fun _ _ e => e, fun _ e => e⟩, rfl, rfl⟩

/-- The event bits that an entry raises (R418). -/
def safeBits (fatal forced fromBoot : Bool) : BitVec 16 :=
  bit16 0 ||| (if fatal then bit16 1 else 0) ||| (if forced then bit16 2 else 0) ||| (if fromBoot then bit16 3 else 0)

/-- The entry of a message's SAFE, up to its count. -/
def safeEntered (m : Stamped) (bits : BitVec 16) (h : Hub) : Hub :=
  safeEntry m (peatFirst 1 m (raiseSafe bits (freeze (setMode .safe h))))

theorem enterSafe_message (m : Stamped) (forced fromBoot : Bool) (h : Hub) : enterSafe (some m) forced fromBoot h =
    if fatalKind m.msg = true then askDump m (bumpCounter 4 (safeEntered m (safeBits (fatalKind m.msg) forced fromBoot) h))
    else bumpCounter 4 (safeEntered m (safeBits (fatalKind m.msg) forced fromBoot) h) := by
  unfold enterSafe safeEntered safeBits
  dsimp only

/-- A message of severity SAFE has taken the hub into SAFE. -/
theorem enterSafe_entered (m : Stamped) (forced fromBoot : Bool) (h : Hub) : Handles h (enterSafe (some m) forced fromBoot h) ∧
    (enterSafe (some m) forced fromBoot h).top.mode = .safe ∧ (enterSafe (some m) forced fromBoot h).flt.safeEvt.bits.getLsbD 0 = true ∧
    (enterSafe (some m) forced fromBoot h).shim.counters[(4 : Fin 256)] = satAdd (2 ^ 48 - 1) h.shim.counters[(4 : Fin 256)] 1 := by
  generalize hbits : safeBits (fatalKind m.msg) forced fromBoot = bits
  have hbit : bits.getLsbD 0 = true := by
    rw [← hbits]
    unfold safeBits
    cases fatalKind m.msg <;> cases forced <;> cases fromBoot <;> rfl
  have hfreeze := freeze_only (setMode .safe h)
  have hmode : (freeze (setMode .safe h)).top = { h.top with mode := .safe } := hfreeze.eq_top (by simp [Touch.frozen]) (by simp [Touch.frozen])
  have hcount : (freeze (setMode .safe h)).shim.counters = h.shim.counters := hfreeze.counters.resolve_left (by simp [Touch.frozen])
  have hset : Handles h (setMode .safe h) := .of_eq rfl rfl
  have hnotes : Notes (raiseSafe bits (freeze (setMode .safe h))) (safeEntered m bits h) := (peatFirst_notes ..).trans (peatRunning_notes ..)
  have hentered : Handles h (safeEntered m bits h) :=
    (hset.trans (freeze_handles _)).trans ((raiseSafe_notes ..).toHandles.trans hnotes.toHandles)
  have htop : (safeEntered m bits h).top.mode = .safe := by
    rw [hnotes.top, (raiseSafe_notes ..).top, hmode]
  have hsafe : (safeEntered m bits h).flt.safeEvt.bits.getLsbD 0 = true := by
    refine hnotes.safe 0 ?_
    rw [raiseSafe_flt]
    exact Evt.raise_bit _ hbit
  have hsafes : (bumpCounter 4 (safeEntered m bits h)).shim.counters[(4 : Fin 256)] = satAdd (2 ^ 48 - 1) h.shim.counters[(4 : Fin 256)] 1 := by
    refine (bumpCounter_at (n := (4 : Fin 256)) rfl _).trans ?_
    rw [hnotes.safes, (raiseSafe_notes ..).safes, hcount]
    rfl
  have hbump : Handles (safeEntered m bits h) (bumpCounter 4 (safeEntered m bits h)) :=
    .of_eq (bumpCounter_flt ..) (bumpCounter_doms ..)
  have hlast : Notes (bumpCounter 4 (safeEntered m bits h)) (enterSafe (some m) forced fromBoot h) := by
    rw [enterSafe_message, hbits]
    exact (askDump_notes ..).ite (.refl _)
  refine ⟨hentered.trans (hbump.trans hlast.toHandles), ?_, ?_, hlast.safes.trans hsafes⟩
  · rw [hlast.top, (bumpCounter_only ..).eq_top (by decide) (by decide), htop]
  · refine hlast.safe 0 ?_
    rw [bumpCounter_flt]
    exact hsafe

/-! ## A message handled (R408 to R410) -/

/-- A message takes the hub into SAFE. -/
def Hub.takenSafe (h : Hub) (sev : Nat) : Bool := decide (4 ≤ sev) && h.leavable

/-- The marks of a message, its entry in the running zone and FLT_EVT.safe, before an entry to SAFE. -/
def noted (m : Stamped) (sev : Nat) (takes : Bool) (h : Hub) : Hub :=
  let h := if 3 ≤ sev then degrade m h else h
  let h := if decide (2 ≤ sev) && !takes then peatMessage m h else h
  if 4 ≤ sev then raiseFlt (bit16 3) h else h

theorem noted_notes (m : Stamped) (sev : Nat) (takes : Bool) (h : Hub) : Notes h (noted m sev takes h) ∧
    Notes (if 3 ≤ sev then degrade m h else h) (noted m sev takes h) := by
  have hrest : Notes (if 3 ≤ sev then degrade m h else h) (noted m sev takes h) := by
    unfold noted
    extract_lets g1 g2
    have h2 : Notes g1 g2 := (peatMessage_notes ..).ite (.refl g1)
    exact h2.trans ((raiseFlt_notes ..).ite (.refl g2))
  exact ⟨((degrade_notes m h).ite (.refl h)).trans hrest, hrest⟩

theorem act_eq {m : Stamped} {sev : Nat} {h : Hub} (hk : m.msg.kind ≠ .thermalTrip) : act m sev h =
    if h.takenSafe sev = true then enterSafe (some m) (h.forced m.msg) false (noted m sev (h.takenSafe sev) (struck m sev h))
    else noted m sev (h.takenSafe sev) (struck m sev h) := by
  have htrip : (m.msg.kind == Kind.thermalTrip) = false := beq_eq_false_iff_ne.mpr hk
  unfold act
  rw [htrip]
  unfold noted struck Hub.takenSafe
  simp only [Bool.not_false, Bool.and_true]

/-- A message acted on leaves what its marks show, and enters SAFE where it takes the hub there. -/
theorem act_noted {m : Stamped} {sev : Nat} {h : Hub} (hk : m.msg.kind ≠ .thermalTrip) :
    Handles (noted m sev (h.takenSafe sev) (struck m sev h)) (act m sev h) ∧
    (h.takenSafe sev = false → (act m sev h).top = h.top) ∧
    (h.takenSafe sev = true → (act m sev h).top.mode = .safe ∧ (act m sev h).flt.safeEvt.bits.getLsbD 0 = true ∧
      (act m sev h).shim.counters[(4 : Fin 256)] = satAdd (2 ^ 48 - 1) h.shim.counters[(4 : Fin 256)] 1) := by
  have hnoted := (noted_notes m sev (h.takenSafe sev) (struck m sev h)).1
  have hstruck := struck_only m sev h
  rw [act_eq hk]
  split
  case isTrue ht =>
    obtain ⟨hh, hmode, hbit, hcount⟩ :=
      enterSafe_entered m (h.forced m.msg) false (noted m sev (h.takenSafe sev) (struck m sev h))
    refine ⟨hh, fun hf => absurd (ht.symm.trans hf) (by decide), fun _ => ⟨hmode, hbit, hcount.trans ?_⟩⟩
    rw [hnoted.safes, hstruck.counters.resolve_left (by decide)]
  case isFalse ht =>
    exact ⟨.refl _, fun _ => hnoted.top.trans (hstruck.eq_top (by decide) (by decide)), fun hf => absurd hf ht⟩

theorem act_logged {m : Stamped} {h : Hub} (hk : m.msg.kind ≠ .thermalTrip) : act m 1 h = record m h := by
  have ht : h.takenSafe 1 = false := rfl
  rw [act_eq hk, ht]
  rfl

theorem noted_safe {m : Stamped} {sev : Nat} (hs : 4 ≤ sev) (takes : Bool) (h : Hub) :
    (noted m sev takes h).flt.evt.bits.getLsbD 3 = true := by
  unfold noted
  extract_lets g1 g2
  rw [if_pos hs]
  exact raiseFlt_bit (by decide) g2

theorem noted_degraded {m : Stamped} {sev : Nat} (hs : 3 ≤ sev) (takes : Bool) (h : Hub) :
    Notes (degrade m h) (noted m sev takes h) := by
  have hn := (noted_notes m sev takes h).2
  rw [if_pos hs] at hn
  exact hn

theorem faultMessage_eq {m : Stamped} {q : List Stamped} {h : Hub} (hr : h.runs = true) (hq : h.flt.queue = m :: q)
    (hk : m.msg.kind ≠ .thermalTrip) : faultMessage h = pruneCauses (if h.severity m.msg = 0 then
      keepCause m 0 none (h.onFlt fun f => { f with queue := q })
      else act m (h.severity m.msg) (keepCause m 0 none (h.onFlt fun f => { f with queue := q }))) := by
  have htrip : (m.msg.kind == Kind.thermalTrip) = false := beq_eq_false_iff_ne.mpr hk
  have hsev : (h.onFlt fun f => { f with queue := q }).severity m.msg = h.severity m.msg := rfl
  unfold faultMessage
  rw [hq]
  dsimp only
  rw [hr, when_true]
  unfold handle
  rw [hsev, htrip]
  rfl

end Sys2Proof.Machine

namespace Sys2Proof

open Machine

/-- Settles O40: by the stages of a message, each of which leaves what the earlier ones set. -/
theorem messagesHandled : Obligations.MessagesHandled := by
  unfold Obligations.MessagesHandled
  intro s m q sev hr hq hsev hk
  obtain ⟨g, hg⟩ : ∃ g, g = keepCause m 0 none (s.toHub.onFlt fun f => { f with queue := q }) := ⟨_, rfl⟩
  have heff := faultMessage_eq (h := s.toHub) hr hq hk
  rw [← hsev, ← hg] at heff
  have hkept : Notes s.toHub g := by
    rw [hg]
    exact ⟨⟨rfl, rfl, rfl, rfl, rfl, rfl, fun _ e => e, fun _ e => e, fun _ _ e => e, fun _ e => e⟩, rfl, rfl⟩
  have hqueue : g.flt.queue = q := by rw [hg]; rfl
  have hevt : g.flt.evt = s.flt.evt := by rw [hg]; rfl
  have hdoms : g.doms = s.doms := by rw [hg]; rfl
  have hleave : g.leavable = s.leavable := by rw [hg]; rfl
  have hsame : g.refs = s.refs ∧ g.comp = s.comp ∧ g.outs = s.outs ∧ g.plss = s.plss := by rw [hg]; exact ⟨rfl, rfl, rfl, rfl⟩
  refine ⟨_, exec_run (fun _ => rfl) heff, ?_⟩
  dsimp only
  rcases Nat.eq_zero_or_pos sev with h0 | hpos
  · rw [if_pos h0]
    subst h0
    exact ⟨fun _ => ⟨hqueue, hkept.history, hkept.cap, hkept.driven, hevt, hdoms, hkept.top⟩, fun hc => absurd hc (by decide),
      fun hc => absurd hc (by decide), fun hc => absurd hc (by decide), fun hc => absurd hc (by decide), fun hc => absurd hc (by decide),
      fun hc => absurd hc (by decide), fun _ => hkept.top, fun hc => absurd hc (by decide)⟩
  rw [if_neg (by omega)]
  obtain ⟨hact, hstay, htaken⟩ := act_noted (sev := sev) (h := g) hk
  obtain ⟨hhist, hcap, hovf, hcnt, hbits⟩ := struck_record m sev g
  have hnoted : Handles (struck m sev g) (act m sev g) := (noted_notes m sev (g.takenSafe sev) (struck m sev g)).1.toHandles.trans hact
  have hrec := record_keeps m g
  refine ⟨fun h0 => absurd h0 (by omega), fun _ => ⟨?hist, ?logged⟩, fun _ hc => ?first, fun _ hc => ?later, fun h1 => ?log,
    fun h2 => ?pin, fun h3 doms port hm => ?degrades, fun h3 => ?stays, fun h4 => ⟨?safe, fun hl => ?taken, fun hl => ?left⟩⟩
  case hist => exact (hnoted.history.trans (hhist.trans hrec.1)).trans (by rw [hkept.history])
  case logged => exact hnoted.events 0 (hbits 0 hrec.2.1)
  case first =>
    have hf := record_first (m := m) (hkept.cap.trans hc)
    exact ⟨(hnoted.cap.trans (hcap.trans hf.1)).trans (by rw [hkept.top]), hnoted.events 4 (hbits 4 hf.2)⟩
  case later =>
    obtain ⟨hc1, hc2, hc3⟩ := record_later (m := m) (h := g) (by rw [hkept.cap]; exact hc)
    have hmode : g.inMode .service = s.inMode .service := Hub.inMode_congr hkept.top _
    refine ⟨hnoted.cap.trans (hcap.trans (hc1.trans hkept.cap)), fun hs => ?_, fun hs => ?_⟩
    · exact (hnoted.capCnt.trans (hcnt.trans (hc2 (hmode.trans hs)))).trans (by rw [hkept.capCnt])
    · obtain ⟨ho, hb⟩ := hc3 (hmode.trans hs)
      exact ⟨hnoted.ovf.trans (hovf.trans ho), hnoted.events 5 (hbits 5 hb)⟩
  case log =>
    subst h1
    have o := record_only m g
    rw [act_logged hk]
    exact ⟨hrec.2.2.1.trans hqueue, hrec.2.2.2.1.trans hkept.driven, (o.eq_doms fun _ hk => hk).trans hdoms,
      (o.eq_top (by decide) (by decide)).trans hkept.top⟩
  case pin =>
    obtain ⟨hd, hl, hb⟩ := struck_pin (m := m) h2 g
    exact ⟨hnoted.driven.trans hd, hnoted.minLow.trans hl, hnoted.events 1 hb⟩
  case degrades =>
    have o := struck_only m sev g
    obtain ⟨hr, hc, ho, hp⟩ := hsame
    have hmarks : (struck m sev g).marks m.msg = some (doms, port) := by
      refine (Hub.marks_congr ?_ ?_ ?_ ?_ m.msg).trans hm
      · exact (o.eq_refs fun _ hk => hk).trans hr
      · exact (o.eq_comp (by decide) (fun _ hk => hk) (fun _ hk => hk) fun _ hk => hk).trans hc
      · exact (o.eq_outs fun _ hk => hk).trans ho
      · exact (o.eq_plss fun _ hk => hk).trans hp
    obtain ⟨hb, hd, hl⟩ := degrade_marks hmarks
    have hto : Handles (degrade m (struck m sev g)) (act m sev g) := (noted_degraded h3 _ _).toHandles.trans hact
    exact ⟨hto.events 2 hb, fun k hk => hto.untrusted k (hd k hk), fun n hn => hto.links _ _ (hl n hn)⟩
  case stays =>
    have ht : g.takenSafe sev = false := by
      unfold Hub.takenSafe
      rw [decide_eq_false (by omega), Bool.false_and]
    exact (hstay ht).trans hkept.top
  case safe => exact hact.events 3 (noted_safe h4 _ _)
  case taken =>
    obtain ⟨hmode, hb, hc⟩ := htaken (by unfold Hub.takenSafe; rw [decide_eq_true h4, hleave, hl]; rfl)
    exact ⟨hmode, hb, hc.trans (by rw [hkept.safes])⟩
  case left =>
    exact (hstay (by unfold Hub.takenSafe; rw [hleave, hl, Bool.and_false])).trans hkept.top

end Sys2Proof
end

section
/-!
SUPPORT. What the collector's lesser events do: a lost message, the pin, and the fatal dump on the bus (R406, R415, R425, R426).
-/

set_option Elab.async false

namespace Sys2Proof.Machine

/-! ## The bus: interrupts only -/

/-- Nothing but interrupts has been put on the bus. -/
structure Signals (h t : Hub) : Prop where
  stays : ∀ x, x ∈ h.bus → x ∈ t.bus
  writes : ∀ a b, BusOp.write a b ∈ t.bus → BusOp.write a b ∈ h.bus

theorem Signals.of_eq {h t : Hub} (hb : t.bus = h.bus) : Signals h t :=
  ⟨fun x hx => by rw [hb]; exact hx, fun a b hx => by rw [← hb]; exact hx⟩

theorem Signals.refl (h : Hub) : Signals h h := .of_eq rfl

theorem Signals.trans {a b c : Hub} (p : Signals a b) (q : Signals b c) : Signals a c :=
  ⟨fun x hx => q.stays x (p.stays x hx), fun x y hx => p.writes x y (q.writes x y hx)⟩

theorem Signals.after {g h t : Hub} (p : Signals g t) (hb : g.bus = h.bus) : Signals h t := (Signals.of_eq hb).trans p

theorem forEach_signals {α : Type} (l : List α) {f : α → Hub → Hub} (hf : ∀ a g, Signals g (f a g)) (h : Hub) :
    Signals h (forEach l f h) := by
  induction l generalizing h with
  | nil => exact .refl h
  | cons a l ih => exact (hf a h).trans (ih (f a h))

theorem sendMsix_signals (v : Fin 128) (h : Hub) : Signals h (sendMsix v h) := by
  unfold sendMsix
  extract_lets e
  split
  · exact .of_eq rfl
  · refine ⟨fun x hx => List.mem_cons_of_mem _ hx, fun a b hx => ?_⟩
    exact (List.mem_cons.mp hx).resolve_left fun hc => nomatch hc

theorem irqIf_signals (c : Bool) (i : Nat) (h : Hub) : Signals h (irqIf c i h) := by
  unfold irqIf raiseIrq
  split
  · split
    · split
      · exact sendMsix_signals ..
      · exact .refl h
    · exact .refl h
  · exact .refl h

theorem raiseFlt_signals (b : BitVec 16) (h : Hub) : Signals h (raiseFlt b h) :=
  (irqIf_signals ..).after rfl

theorem Hub.onShim_signals (f : Shim → Shim) (h : Hub) : Signals h (h.onShim f) := .of_eq rfl

theorem raiseShim_signals (b : BitVec 16) (h : Hub) : Signals h (raiseShim b h) := Hub.onShim_signals ..

theorem sendFault_signals (src : Nat) (k : Kind) (acc ms ad : Nat) (h : Hub) : Signals h (sendFault src k acc ms ad h) := by
  unfold sendFault
  split
  · split
    · exact .of_eq rfl
    · exact (raiseFlt_signals ..).after rfl
  · exact .refl h

theorem bumpCounter_signals (k : Nat) (h : Hub) : Signals h (bumpCounter k h) :=
  .of_eq ((bumpCounter_only k h).bus.resolve_left (by decide))

theorem noteUe_signals (finder addr : Nat) (h : Hub) : Signals h (noteUe finder addr h) := by
  unfold noteUe
  exact (Hub.onShim_signals ..).trans ((raiseShim_signals ..).trans (bumpCounter_signals ..))

theorem readGroup_signals (acc ms g : Nat) (h : Hub) : Signals h (readGroup acc ms g h) := by
  have hmend : Signals h (mendGroup g h) := .of_eq rfl
  unfold readGroup
  split
  · exact (sendFault_signals ..).trans (raiseShim_signals ..)
  · split
    · exact .refl h
    · exact hmend.trans ((sendFault_signals ..).trans ((raiseShim_signals ..).trans (bumpCounter_signals ..)))
    · have hpoison : Signals (mendGroup g h) (poisonGroup g (mendGroup g h)) := .of_eq rfl
      exact hmend.trans (hpoison.trans ((sendFault_signals ..).trans
        ((noteUe_signals ..).trans ((sendFault_signals ..).trans (raiseShim_signals ..)))))

theorem storeRun_signals (a : Nat) (b : Bytes) (h : Hub) : Signals h (storeRun a b h) := by
  have hcheck : Signals h (modifyCheck a b.length h) := by
    refine forEach_signals _ (fun g x => ?_) h
    split
    · exact .refl x
    · exact readGroup_signals ..
  unfold storeRun
  extract_lets n whole
  exact hcheck.trans (.of_eq rfl)

theorem journalNow_signals (es : List (Nat × Bytes)) (h : Hub) : Signals h (journalNow es h) := by
  unfold journalNow applyTxn
  exact (forEach_signals es (fun e x => storeRun_signals e.1 e.2 x) _).after rfl

theorem Hub.onFlt_signals (f : Flt → Flt) (h : Hub) : Signals h (h.onFlt f) := .of_eq rfl

theorem peatRunning_signals (type : Nat) (first : Bool) (msg t : BitVec 64) (ep : BitVec 16) (detail : Bytes) (h : Hub) :
    Signals h (peatRunning type first msg t ep detail h) := by
  unfold peatRunning peatAtIndex
  exact (journalNow_signals ..).trans ((Hub.onFlt_signals ..).trans (Hub.onFlt_signals ..))

/-! ## Messages -/

/-- A message in the queue is all that a send with room changes. -/
theorem sendFault_room {src : Nat} {k : Kind} {acc ms ad : Nat} {h : Hub} (hr : h.runs = true) (hq : h.flt.queue.length < 64) :
    sendFault src k acc ms ad h = h.onFlt fun f =>
      { f with queue := f.queue ++ [{ msg := faultMsg src k acc ms ad, time := h.houseShort, epoch := h.houseEpoch }] } := by
  unfold sendFault
  rw [if_pos hr]
  exact if_pos hq

/-- A message that finds no room is counted, with FLT_EVT.lost. -/
theorem sendFault_lost {src : Nat} {k : Kind} {acc ms ad : Nat} {h : Hub} (hr : h.runs = true) (hq : h.flt.queue.length = 64) :
    (sendFault src k acc ms ad h).flt = { h.flt with
      lost := satInc32 h.flt.lost, lostRun := satInc32 h.flt.lostRun, evt := h.flt.evt.raise (bit16 6) } := by
  unfold sendFault
  rw [if_pos hr]
  dsimp only
  rw [if_neg (by omega)]
  exact raiseFlt_flt ..

theorem collectorOverflowReport_due {h : Hub} (hr : h.runs = true) (hq : h.flt.queue = []) (hl : 0 < h.flt.lostRun) :
    collectorOverflowReport h = sendFault srcFlt .overflow accNone mInternal h.flt.lostRun (h.onFlt fun f => { f with lostRun := 0 }) := by
  unfold collectorOverflowReport
  rw [hr, hq, decide_eq_true hl]
  rfl

theorem faultNTimerExpiry_due {h : Hub} (hr : h.runs = true) (hm : h.flt.minLow = true) :
    faultNTimerExpiry h = h.onFlt fun f => { f with minLow := false, driven := f.hold } := by
  unfold faultNTimerExpiry
  rw [hr, hm, Bool.and_self, when_true]

theorem recoveryStabilityTimeout_due {h : Hub} (hr : h.inMode .recovery = true) (hs : 1000 ≤ h.top.stabMs) :
    recoveryStabilityTimeout h = setMode .service h := by
  unfold recoveryStabilityTimeout
  rw [hr, decide_eq_true hs, Bool.and_self, when_true]

/-! ## The fatal dump (R425, R426) -/

/-- The dump as it stands on the bus, before it is noted. -/
def dumped (base : BitVec 64) (secs : List (Bytes × Nat)) (head last : Bytes) (h : Hub) : Hub :=
  busWrite base last (forEach secs (fun x => busWrite (base + BitVec.ofNat 64 x.2) x.1) (busWrite base head h))

/-- The dump noted in the collector. -/
def dumpNoted (h : Hub) : Hub :=
  h.onFlt fun f => { f with dumps := satAdd 0xFFFF f.dumps 1, dumpOk := true, dumpBusy := false, fatal := none }

theorem writeDump_eq (m : Stamped) (h : Hub) : writeDump m h = raiseFlt (bit16 8) (dumpSummary m 7 true (dumpMailbox (dumpNoted
    (dumped (baseAddr h.host.dumpLo h.host.dumpHi) (h.dumpSections.zip (sectionOffsets 4096 h.dumpSections))
      (h.dumpHeader m h.dumpSections false) (h.dumpHeader m h.dumpSections true) h)))) := rfl

theorem busWrites_stay {α : Type} (l : List α) (a : α → BitVec 64) (d : α → Bytes) (h : Hub) {x : BusOp} (hx : x ∈ h.bus) :
    x ∈ (forEach l (fun y => busWrite (a y) (d y)) h).bus := by
  induction l generalizing h with
  | nil => exact hx
  | cons y l ih => exact ih _ (List.mem_cons_of_mem _ hx)

theorem busWrites_mem {α : Type} {l : List α} (a : α → BitVec 64) (d : α → Bytes) (h : Hub) {x : α} (hx : x ∈ l) :
    BusOp.write (a x) (d x) ∈ (forEach l (fun y => busWrite (a y) (d y)) h).bus := by
  induction l generalizing h with
  | nil => cases hx
  | cons y l ih =>
    cases List.mem_cons.mp hx with
    | inl he =>
      subst he
      exact busWrites_stay l a d _ List.mem_cons_self
    | inr hl => exact ih _ hl

theorem dumped_bus (base : BitVec 64) (secs : List (Bytes × Nat)) (head last : Bytes) (h : Hub) :
    BusOp.write base last ∈ (dumped base secs head last h).bus ∧
    ∀ x ∈ secs, BusOp.write (base + BitVec.ofNat 64 x.2) x.1 ∈ (dumped base secs head last h).bus :=
  ⟨List.mem_cons_self, fun _ hx => List.mem_cons_of_mem _ (busWrites_mem _ _ _ hx)⟩

theorem dumped_field {β : Type} (F : Hub → β) (hF : ∀ a d g, F (busWrite a d g) = F g) (base : BitVec 64) (secs : List (Bytes × Nat))
    (head last : Bytes) (h : Hub) : F (dumped base secs head last h) = F h :=
  (hF ..).trans ((forEach_keeps (fun _ _ => hF ..) secs _).trans (hF ..))

theorem raiseFlt_mbx (b : BitVec 16) (h : Hub) : (raiseFlt b h).mbx = h.mbx := irqIf_mbx ..

/-- What follows the dump: its summary and its bit leave the bus' writes, the mailboxes and the rest of the collector. -/
theorem dumpSummary_raised (m : Stamped) (n : Nat) (done : Bool) (b : BitVec 16) (h : Hub) :
    Signals h (raiseFlt b (dumpSummary m n done h)) ∧ Journals h (raiseFlt b (dumpSummary m n done h)) ∧
    (raiseFlt b (dumpSummary m n done h)).mbx = h.mbx :=
  ⟨(peatRunning_signals ..).trans (raiseFlt_signals ..), (peatRunning_journals ..).trans (raiseFlt_journals ..),
    (raiseFlt_mbx ..).trans ((peatRunning_only ..).eq_mbx fun _ hk => hk)⟩

/-- A dump that stands on the bus, once noted. -/
theorem dumpNoted_raised (m : Stamped) (g : Hub) (t : Hub) (ht : t = raiseFlt (bit16 8) (dumpSummary m 7 true (dumpMailbox (dumpNoted g)))) :
    t.flt.fatal = none ∧ t.flt.dumps = satAdd 0xFFFF g.flt.dumps 1 ∧ t.flt.dumpOk = true ∧ t.flt.dumpBusy = false ∧
    t.flt.evt.bits.getLsbD 8 = true ∧
    t.mbx[(3 : Fin 4)] = { g.mbx[(3 : Fin 4)] with code := 0x72, inst := 47, req := none, valid := false, err := false } ∧
    ∀ x, x ∈ g.bus → x ∈ t.bus := by
  obtain ⟨hs, hj, hm⟩ := dumpSummary_raised m 7 true (bit16 8) (dumpMailbox (dumpNoted g))
  rw [← ht] at hs hj hm
  refine ⟨hj.fatal, hj.dumps, hj.dumpOk, hj.dumpBusy, ?_, ?_, hs.stays⟩
  · rw [ht]
    exact raiseFlt_bit (by decide) _
  · rw [hm]
    exact upd_same ..

/-- A dump that is written leaves its state in the collector, its mailbox and its bytes on the bus. -/
theorem writeDump_written (m : Stamped) (h : Hub) : (writeDump m h).flt.fatal = none ∧
    (writeDump m h).flt.dumps = satAdd 0xFFFF h.flt.dumps 1 ∧ (writeDump m h).flt.dumpOk = true ∧ (writeDump m h).flt.dumpBusy = false ∧
    (writeDump m h).flt.evt.bits.getLsbD 8 = true ∧
    (writeDump m h).mbx[(3 : Fin 4)] = { h.mbx[(3 : Fin 4)] with code := 0x72, inst := 47, req := none, valid := false, err := false } ∧
    BusOp.write (baseAddr h.host.dumpLo h.host.dumpHi) (h.dumpHeader m h.dumpSections true) ∈ (writeDump m h).bus ∧
    ∀ x ∈ h.dumpSections.zip (sectionOffsets 4096 h.dumpSections),
      BusOp.write (baseAddr h.host.dumpLo h.host.dumpHi + BitVec.ofNat 64 x.2) x.1 ∈ (writeDump m h).bus := by
  have heq := writeDump_eq m h
  obtain ⟨hlast, hsecs⟩ := dumped_bus (baseAddr h.host.dumpLo h.host.dumpHi) (h.dumpSections.zip (sectionOffsets 4096 h.dumpSections))
    (h.dumpHeader m h.dumpSections false) (h.dumpHeader m h.dumpSections true) h
  have hflt := dumped_field Hub.flt (fun _ _ _ => rfl) (baseAddr h.host.dumpLo h.host.dumpHi)
    (h.dumpSections.zip (sectionOffsets 4096 h.dumpSections)) (h.dumpHeader m h.dumpSections false) (h.dumpHeader m h.dumpSections true) h
  have hmbx := dumped_field Hub.mbx (fun _ _ _ => rfl) (baseAddr h.host.dumpLo h.host.dumpHi)
    (h.dumpSections.zip (sectionOffsets 4096 h.dumpSections)) (h.dumpHeader m h.dumpSections false) (h.dumpHeader m h.dumpSections true) h
  generalize dumped (baseAddr h.host.dumpLo h.host.dumpHi) (h.dumpSections.zip (sectionOffsets 4096 h.dumpSections))
    (h.dumpHeader m h.dumpSections false) (h.dumpHeader m h.dumpSections true) h = g at heq hlast hsecs hflt hmbx
  obtain ⟨hfatal, hdumps, hok, hbusy, hbit, hbox, hbus⟩ := dumpNoted_raised m g _ heq
  rw [hflt] at hdumps
  rw [hmbx] at hbox
  exact ⟨hfatal, hdumps, hok, hbusy, hbit, hbox, hbus _ hlast, fun x hx => hbus _ (hsecs x hx)⟩

theorem fatalDump_written {m : Stamped} {h : Hub} (hf : h.flt.fatal = some m) (hr : h.runs = true) (hd : h.dumpReady = true)
    (hc : h.inCharge = true) : fatalDump h = writeDump m h := by
  unfold fatalDump
  rw [hf]
  dsimp only
  rw [if_pos hr, hd, hc]
  rfl

theorem fatalDump_missed {m : Stamped} {h : Hub} (hf : h.flt.fatal = some m) (hr : h.runs = true)
    (hd : h.dumpReady = false ∨ h.inCharge = false) :
    fatalDump h = raiseFlt (bit16 9) (dumpSummary m 0 false (h.onFlt fun f => { f with fatal := none, dumpBusy := false })) := by
  have hready : (h.dumpReady && h.inCharge) = false := Bool.and_eq_false_iff.mpr hd
  unfold fatalDump
  rw [hf]
  dsimp only
  rw [if_pos hr, hready]
  rfl

end Sys2Proof.Machine

namespace Sys2Proof

open Machine

/-- Settles O41: each event under its guard is one update; after a dump only its entry of the Peat record and its bit follow. -/
theorem collectorPinAndDump : Obligations.CollectorPinAndDump := by
  unfold Obligations.CollectorPinAndDump
  refine ⟨⟨fun s mv ha ho hv hq => ?lost, fun s hr hq hl => ?report, fun s hr hm => ?pin, fun s hm hs => ?stable⟩,
    fun s m hr hf => ⟨fun hd hc => ?dump, fun hd => ?none⟩⟩
  case lost =>
    have hflt : (raisePwr (bit16 4) (s.toHub.onPwr fun p => { p with vin := mv, ov := true, vinHigh := max p.vinHigh mv })).flt =
      s.flt := (raisePwr_only ..).eq_flt (by decide) (by decide) (by decide)
    have htop : (raisePwr (bit16 4) (s.toHub.onPwr fun p => { p with vin := mv, ov := true, vinHigh := max p.vinHigh mv })).top =
      s.top := (raisePwr_only ..).eq_top (by decide) (by decide)
    have hsent := sendFault_lost (src := srcSupply) (k := .supply) (acc := accNone) (ms := mInternal) (ad := 3)
      ((Hub.runs_congr htop).trans (Hub.runs_of_awake ha)) (by rw [hflt]; exact hq)
    rw [hflt] at hsent
    refine ⟨_, exec_run (fun _ => rfl) (vinOvervoltage_due ha ho hv), (congrArg Flt.queue hsent).trans rfl,
      (congrArg Flt.lost hsent).trans rfl, (congrArg Flt.lostRun hsent).trans rfl, ?_⟩
    exact (congrArg (fun f : Flt => f.evt.bits.getLsbD 6) hsent).trans (Evt.raise_bit16 _ (by decide))
  case report =>
    have heff := collectorOverflowReport_due (h := s.toHub) hr hq hl
    rw [sendFault_room (h := s.toHub.onFlt fun f => { f with lostRun := 0 }) hr (by rw [Hub.onFlt_flt, hq]; decide)] at heff
    refine ⟨_, { msg := faultMsg srcFlt .overflow accNone mInternal s.flt.lostRun, time := s.houseShort, epoch := s.houseEpoch },
      exec_run (fun _ => rfl) heff, ?_, rfl, rfl, rfl⟩
    dsimp only [Hub.onFlt_flt]
    rw [hq]
    rfl
  case pin => exact ⟨_, exec_run (fun _ => rfl) (faultNTimerExpiry_due hr hm), rfl⟩
  case stable => exact ⟨_, exec_run (fun _ => rfl) (recoveryStabilityTimeout_due hm hs), rfl⟩
  case dump => exact ⟨_, exec_run (fun _ => rfl) (fatalDump_written hf hr hd hc), writeDump_written m s.toHub⟩
  case none =>
    obtain ⟨hsig, hj, -⟩ := dumpSummary_raised m 0 false (bit16 9) (s.toHub.onFlt fun f => { f with fatal := none, dumpBusy := false })
    exact ⟨_, exec_run (fun _ => rfl) (fatalDump_missed hf hr hd), hj.fatal, hj.dumps, raiseFlt_bit (by decide) _, hsig.writes⟩

end Sys2Proof
end

section
/-!
SUPPORT. Three statements of the Shim store that fail: nothing in them says that the list that stands for the array is in canonical
form, and in a list with two cells for one byte a written zero removes the first cell only, so that the second is read back.
-/

set_option Elab.async false

namespace Sys2Proof.Machine

/-- The only next state of a command. -/
theorem next_of_exec {c : Instr} {f : Hub → Hub} {s t : State} (ht : exec c s = .next t) (he : ∀ s, exec c s = run f s) :
    t = { toHub := f s.toHub, pending := s.pending } := by
  rw [exec_run he rfl] at ht
  cases ht
  rfl

/-! ## A store with two cells for one byte -/

/-- Two cells for the byte at a: a zero written there uncovers the second. -/
def twoCells (a : Nat) : List Host.Cell := [(a, 1), (a, 2)]

/-- A hub in SERVICE whose warden A is in charge, and whose store holds two cells for the byte at a. -/
def twoCellHub (a : Nat) : Hub := { Hub.reset with
  top := { mode := .service, begun := true }
  comp := { Hub.reset.comp with charge := some .a, aState := .inCharge, bState := .shadow }
  shim := { mem := twoCells a } }

/-- The transaction that writes a zero at address 0. -/
def zeroTxn : Txn := { seq := 0, extents := [(0, [0])], desc := none, total := none, committed := false }

/-- The journal of that hub holds the transaction. -/
def journalCase : State := { (twoCellHub 0).onShim fun x => { x with waiting := [zeroTxn] } with pending := [] }

/-- The resident loader runs, with the first word of image A to be loaded. -/
def loaderCase : State := { (twoCellHub (imageBase .a)).onShim fun x => { x with loader := true } with pending := [] }

/-- The hub whose first-fault zone begins with the two cells, armed for an archive. -/
def archiveHub : Hub := (twoCellHub 0x300000).onFlt fun f => { f with armed := some (.ring 0, 5, 0, false), head := 64 }

/-- A COMMIT with the nonce and the CRC that meet R424. -/
def archiveDesc : Desc :=
  { id := 0, origin := .ring 0, opcode := 0x73, irq := false, fence := false, index := 0, tag := 0
    payload := BitVec.ofNat 384 (1 + 5 * 2 ^ 64 + archiveHub.zoneCrc * 2 ^ 128), bell := 0, applied := false, replayed := false
    discard := false }

/-- That COMMIT in progress. -/
def archiveCase : State :=
  { { archiveHub with host := { archiveHub.host with inflight := [archiveDesc], nextId := 1 } } with pending := [] }

end Sys2Proof.Machine

namespace Sys2Proof

open Machine

/-- Refutes O31: with two cells for address 0, the applied transaction that writes a zero there leaves 2 to be read. -/
theorem not_storeTransactions : ¬ Obligations.StoreTransactions := by
  unfold Obligations.StoreTransactions
  rintro ⟨-, -, h⟩
  obtain ⟨-, -, t, ht, -, -, -, hread, -⟩ := h journalCase zeroTxn [] rfl rfl rfl rfl
  have hzero := hread 0 [0] rfl (by decide) (by decide)
  rw [next_of_exec ht fun _ => rfl] at hzero
  exact absurd hzero (by decide +kernel)

/-- Refutes O51: with two cells for the first byte of image A, the loader's word 0 stored there leaves 2 to be read. -/
theorem not_loaderAndTopControls : ¬ Obligations.LoaderAndTopControls := by
  unfold Obligations.LoaderAndTopControls
  rintro ⟨h, -⟩
  obtain ⟨-, -, hdata, -⟩ := h loaderCase .spi 0 (by decide +kernel) (by decide) rfl
  obtain ⟨t, ht, -, -, -, hread, -⟩ := hdata .a 0 (by decide +kernel) (by decide +kernel) (by decide) (by decide +kernel)
  have hzero := hread (by decide)
  rw [next_of_exec ht fun _ => rfl] at hzero
  exact absurd hzero (by decide +kernel)

set_option maxRecDepth 20000 in
/-- Refutes O32: with two cells for the first byte of the first-fault zone, a COMMIT that meets R424 leaves 2 to be read there. -/
theorem not_peatRecord : ¬ Obligations.PeatRecord := by
  unfold Obligations.PeatRecord
  rintro ⟨h, -⟩
  have hserves : archiveCase.Serves (.ring 0) archiveDesc :=
    ⟨⟨by decide +kernel, by decide +kernel⟩, rfl, rfl, rfl, rfl⟩
  obtain ⟨t, ht, -, hdone, -⟩ := (h (.ring 0) archiveDesc archiveCase hserves rfl).2 (by decide +kernel)
  obtain ⟨-, -, -, hzone, -⟩ := hdone (by decide +kernel) le_rfl
  have hzero := hzone 0x300000 (by decide) (by decide)
  rw [next_of_exec ht fun _ => rfl] at hzero
  exact absurd hzero (by decide +kernel)

end Sys2Proof
end

section
/-!
SUPPORT. What reading groups of the Shim store leaves of it, what a completion leaves, and the scrubber, the hours and the profile
(R372 to R374, R379, R388, R389, R391, R423).
-/

set_option Elab.async false

namespace Sys2Proof.Machine

/-! ## Groups -/

theorem mem_insertRising {x y : Nat} {l : List Nat} : y ∈ insertRising x l ↔ y = x ∨ y ∈ l := by
  induction l with
  | nil => simp [insertRising]
  | cons z l ih =>
    unfold insertRising
    split
    · exact List.mem_cons
    · split
      case isTrue hz =>
        subst hz
        exact ⟨.inr, fun hy => hy.elim (fun e => e ▸ List.mem_cons_self) id⟩
      case isFalse =>
        rw [List.mem_cons, ih, List.mem_cons]
        exact or_left_comm

/-- The group of each byte of a run is one of the run's groups. -/
theorem groupOf_mem {a n i : Nat} (hi : i < n) : groupOf (a + i) ∈ groupsOf a n := by
  refine List.mem_map.mpr ⟨(a % 16 + i) / 16, List.mem_range.mpr (by omega), ?_⟩
  unfold groupOf
  omega

theorem memReadN_length (m : List Host.Cell) (a n : Nat) : (memReadN m a n).length = n := by
  induction n generalizing a with
  | zero => rfl
  | succ n ih => exact congrArg (· + 1) (ih (a + 1))

/-- Bytes read where nothing is poisoned are the stored ones. -/
theorem bytes_clean {s : Shim} {a n : Nat} (hc : ∀ g ∈ groupsOf a n, g ∉ s.poison) : s.bytes a n = memReadN s.mem a n := by
  have hbyte : ∀ x ∈ (memReadN s.mem a n).zipIdx, (if s.poison.contains (groupOf (a + x.2)) then 0 else x.1) = x.1 := by
    intro x hx
    have hlt : x.2 < n := by
      rw [← memReadN_length s.mem a n]
      exact List.snd_lt_of_mem_zipIdx hx
    rw [if_neg]
    exact fun hp => hc _ (groupOf_mem hlt) (List.contains_iff_mem.mp hp)
  unfold Shim.bytes
  rw [List.map_congr_left hbyte]
  exact List.zipIdx_map_fst ..

theorem poisonedIn_empty {s : Shim} {a n : Nat} (hc : ∀ g ∈ groupsOf a n, g ∉ s.poison) : (s.poisonedIn a n).isEmpty = true := by
  rw [List.isEmpty_iff]
  exact List.filter_eq_nil_iff.mpr fun g hg hp => hc g hg (List.contains_iff_mem.mp hp)

theorem poisonedIn_found {s : Shim} {a n g : Nat} (hg : g ∈ groupsOf a n) (hp : g ∈ s.poison) : (s.poisonedIn a n).isEmpty = false := by
  rw [List.isEmpty_eq_false_iff]
  exact List.ne_nil_of_mem (List.mem_filter.mpr ⟨hg, List.contains_iff_mem.mpr hp⟩)

/-! ## Reading them (R373, R374) -/

/-- From h to t the bytes of the store are as they were, and no group's poison has gone. -/
structure Reads (h t : Hub) : Prop where
  mem : t.shim.mem = h.shim.mem
  poison : ∀ g, g ∈ h.shim.poison → g ∈ t.shim.poison

theorem Reads.refl (h : Hub) : Reads h h := ⟨rfl, fun _ hg => hg⟩

theorem Reads.trans {a b c : Hub} (p : Reads a b) (q : Reads b c) : Reads a c :=
  ⟨q.mem.trans p.mem, fun g hg => q.poison g (p.poison g hg)⟩

theorem Reads.of_store {h t : Hub} (hs : t.shim.store = h.shim.store) : Reads h t :=
  ⟨congrArg Prod.fst hs, fun g hg => by rw [show t.shim.poison = h.shim.poison from congrArg (fun x => x.2.1) hs]; exact hg⟩

theorem sendFault_reads (src : Nat) (k : Kind) (acc ms ad : Nat) (h : Hub) : Reads h (sendFault src k acc ms ad h) :=
  .of_store (congrArg Shim.store (sendFault_shim ..))

theorem raiseShim_reads (b : BitVec 16) (h : Hub) : Reads h (raiseShim b h) := .of_store rfl

theorem bumpCounter_reads (k : Nat) (h : Hub) : Reads h (bumpCounter k h) :=
  .of_store ((bumpCounter_only k h).store.resolve_left (by decide))

theorem mendGroup_reads (g : Nat) (h : Hub) : Reads h (mendGroup g h) := ⟨rfl, fun _ hg => hg⟩

theorem poisonGroup_reads (g : Nat) (h : Hub) : Reads h (poisonGroup g h) := ⟨rfl, fun _ hg => mem_insertRising.mpr (.inr hg)⟩

theorem lastUe_reads (v : BitVec 128) (h : Hub) : Reads h (h.onShim fun s => { s with lastUe := v }) := .of_store rfl

theorem noteUe_reads (finder addr : Nat) (h : Hub) : Reads h (noteUe finder addr h) :=
  (lastUe_reads ..).trans ((raiseShim_reads ..).trans (bumpCounter_reads ..))

theorem readGroup_reads (acc ms g : Nat) (h : Hub) : Reads h (readGroup acc ms g h) := by
  unfold readGroup
  split
  · exact (sendFault_reads ..).trans (raiseShim_reads ..)
  · split
    · exact .refl h
    · exact (mendGroup_reads ..).trans ((sendFault_reads ..).trans ((raiseShim_reads ..).trans (bumpCounter_reads ..)))
    · exact (mendGroup_reads ..).trans ((poisonGroup_reads ..).trans ((sendFault_reads ..).trans
        ((noteUe_reads ..).trans ((sendFault_reads ..).trans (raiseShim_reads ..)))))

theorem readCheck_reads (acc ms a n : Nat) (h : Hub) : Reads h (readCheck acc ms a n h) := by
  unfold readCheck
  generalize groupsOf a n = l
  induction l generalizing h with
  | nil => exact .refl h
  | cons g l ih => exact (readGroup_reads acc ms g h).trans (ih _)

theorem readGroup_clean {acc ms g : Nat} {h : Hub} (hp : g ∉ h.shim.poison) (hd : h.shim.damageOf g = .clean) :
    readGroup acc ms g h = h := by
  unfold readGroup
  rw [if_neg fun hc => hp (List.contains_iff_mem.mp hc), hd]

theorem readCheck_clean {acc ms a n : Nat} {h : Hub} (hc : ∀ g ∈ groupsOf a n, h.shim.damageOf g = .clean ∧ g ∉ h.shim.poison) :
    readCheck acc ms a n h = h :=
  forEach_same fun g hg => readGroup_clean (hc g hg).2 (hc g hg).1

theorem readCheck_only (acc ms a n : Nat) (h : Hub) :
    Only { parts := [.msix, .store, .counters, .shimEvt, .shim, .collector, .fltEvt, .bus] } h (readCheck acc ms a n h) :=
  (readCheck_kept (fun _ hp => hp) (.refl h)).only

theorem readCheck_inflight (acc ms a n : Nat) (h : Hub) : (readCheck acc ms a n h).host.inflight = h.host.inflight :=
  congrArg (fun x => x.1) ((readCheck_only acc ms a n h).books.resolve_left (by decide))

theorem readCheck_inCharge (acc ms a n : Nat) (h : Hub) : (readCheck acc ms a n h).inCharge = h.inCharge :=
  Hub.inCharge_congr ((readCheck_only acc ms a n h).eq_comp (by decide) (fun _ hk => hk) (fun _ hk => hk) fun _ hk => hk)

/-! ## Completions (R335, R388) -/

/-- The end of a descriptor of a ring or of a DESC message is nothing to the Shim store. -/
theorem finishDesc_shim {id : Nat} {d : Desc} {h : Hub} (hd : h.desc? id = some d) (ho : d.origin ≠ .profile) (st : Status)
    (r : BitVec 192) : (finishDesc id st r h).shim = h.shim := by
  unfold finishDesc
  rw [hd]
  dsimp only
  split
  · split
    · rfl
    · have o := (postCompletion_kept (A := { parts := [.cplRings, .msix, .books, .bus] }) (fun _ hp => hp) (.refl (h.onHost fun x =>
        { x with inflight := x.inflight.filter fun e => e.id != id })) (a0 := ‹_›) (a1 := false) (a2 := d) (a3 := st) (a4 := r)).only
      exact o.eq_shim (by decide) (by decide) (by decide) (by decide) (by decide)
  · split
    · rfl
    · exact ((mgrNext_kept (A := { parts := [.books, .runs] }) (fun _ hp => hp) (.refl _)).only.eq_shim (by decide) (by decide)
        (by decide) (by decide) (by decide)).trans rfl
  · exact absurd ‹_› ho

theorem completeWith_store {h g : Hub} {o : Origin} {d : Desc} (S : h.Serves o d) (ho : d.origin ≠ .profile)
    (hi : g.host.inflight = (markApplied d.id h).host.inflight) (st : Status) (r : BitVec 192) :
    (completeWith d.id st r g).shim = g.shim := by
  have hd : g.desc? d.id = some { d with applied := true } := by
    rw [Hub.desc?, hi]
    exact markApplied_desc S.ids S.mem
  unfold completeWith
  split
  · exact finishDesc_shim hd ho st r
  · rfl

/-- No profile holds a descriptor that reads the store. -/
theorem Hub.Serves.not_profile {h : Hub} {o : Origin} {d : Desc} (S : h.Serves o d) (hop : profileRefused d.opcode.toNat = true) :
    d.origin ≠ .profile := by
  intro hp
  have hg := S.gate
  unfold Hub.gate at hg
  dsimp only at hg
  split at hg
  · cases hg
  · rw [hp, hop] at hg
    cases hg

/-! ## SHIM_READ and PEAT_READ (R379, R423) -/

/-- The reply of a read: the bytes go to the host, and the status tells of poison among them. -/
def replied (d : Desc) (host : BitVec 64) (a n : Nat) (r : Hub → BitVec 192) (h : Hub) : Hub :=
  let g := readCheck accRead h.chargeCode a n h
  completeWith d.id (if (g.shim.poisonedIn a n).isEmpty then .ok else .poisoned) (r g) (busWrite host (g.shim.bytes a n) g)

theorem shimReadEff_reply {d : Desc} {h : Hub} {a n : Nat} (ha : a = shimAddr d.payload) (hn : n = shimLen d.payload)
    (hr : inRange n 1 4096 = true) (hs : a + n ≤ 0x400000) (ho : readableRun a n = true) :
    shimReadEff d h = replied d (shimHost d.payload) a n (fun g => if (g.shim.poisonedIn a n).isEmpty = true then 0
      else poisonResult (g.shim.poisonedIn a n)) h := by
  have hsize : decide (shimSize < a + n) = false := decide_eq_false (Nat.not_lt.mpr hs)
  subst ha hn
  unfold shimReadEff replied
  dsimp only
  rw [hr, ho, hsize, Bool.not_true, Bool.or_self, if_neg Bool.false_ne_true, if_neg Bool.false_ne_true]
  split <;> rfl

theorem peatReadEff_reply {d : Desc} {h : Hub} {a n : Nat} (ha : a = 0x300000 + 64 * pf d.payload 0 0 16)
    (hn : n = 64 * pf d.payload 2 0 16) (hs : pf d.payload 0 0 16 + pf d.payload 2 0 16 ≤ 8192)
    (hr : inRange (pf d.payload 2 0 16) 1 64 = true) (hh : (shimHost d.payload).toNat % 64 = 0) :
    peatReadEff d h = replied d (shimHost d.payload) a n
      (fun g => resultOf [(0, 32, g.flt.peatSeq), (32, 16, g.flt.head), (48, 8, g.flt.ffCount)]) h := by
  have hcount : 1 ≤ pf d.payload 2 0 16 := by
    unfold inRange at hr
    exact of_decide_eq_true (Bool.and_eq_true_iff.mp hr).1
  subst ha hn
  unfold peatReadEff replied
  dsimp only
  rw [decide_eq_false (by omega), hr, decide_eq_false (by omega), hh, if_neg (by decide)]
  rfl

/-- What a reply leaves and answers. -/
theorem replied_answers {o : Origin} {d : Desc} {h : Hub} (S : h.Serves o d) (hop : profileRefused d.opcode.toNat = true)
    (host : BitVec 64) (a n : Nat) (r : Hub → BitVec 192) {t : Hub} (ht : t = replied d host a n r (markApplied d.id h)) :
    t.shim.mem = h.shim.mem ∧
    ((∀ g ∈ groupsOf a n, h.shim.damageOf g = .clean ∧ g ∉ h.shim.poison) → t.shim = h.shim ∧
      BusOp.write host (memReadN h.shim.mem a n) ∈ t.bus ∧ ∀ q, o = .ring q → d.discard = false → ∃ r, t.Posted d .ok r) ∧
    ((∃ g ∈ groupsOf a n, g ∈ h.shim.poison) → ∀ q, o = .ring q → d.discard = false → ∃ r, t.Posted d .poisoned r) := by
  obtain ⟨g, hg⟩ : ∃ g, g = readCheck accRead (markApplied d.id h).chargeCode a n (markApplied d.id h) := ⟨_, rfl⟩
  have hreads : Reads (markApplied d.id h) g := hg ▸ readCheck_reads ..
  have hin : g.host.inflight = (markApplied d.id h).host.inflight := hg ▸ readCheck_inflight ..
  have hch : g.inCharge = h.inCharge := hg ▸ readCheck_inCharge ..
  have heq : t = completeWith d.id (if (g.shim.poisonedIn a n).isEmpty then .ok else .poisoned) (r g)
      (busWrite host (g.shim.bytes a n) g) := by
    rw [ht, hg]
    rfl
  have hshim : t.shim = g.shim := by
    rw [heq]
    exact completeWith_store S (S.not_profile hop) (g := busWrite host (g.shim.bytes a n) g) hin ..
  have hbus : BusOp.write host (g.shim.bytes a n) ∈ t.bus := by
    rw [heq]
    exact (completeWith_carries_all ..).bus.subset List.mem_cons_self
  refine ⟨by rw [hshim]; exact hreads.mem, fun hc => ?clean, fun ⟨x, hx, hp⟩ => ?poisoned⟩
  case clean =>
    have hsame : g = markApplied d.id h := hg.trans (readCheck_clean hc)
    have hstore : g.shim = h.shim := by rw [hsame]; rfl
    have hfree : ∀ x ∈ groupsOf a n, x ∉ g.shim.poison := fun x hx => by rw [hstore]; exact (hc x hx).2
    rw [poisonedIn_empty hfree] at heq
    rw [bytes_clean hfree, hstore] at hbus
    refine ⟨hshim.trans hstore, hbus, ?_⟩
    rw [heq]
    exact S.answers (g := busWrite host (g.shim.bytes a n) g) hin hch .ok _
  case poisoned =>
    rw [poisonedIn_found hx (hreads.poison x hp)] at heq
    rw [heq]
    exact S.answers (g := busWrite host (g.shim.bytes a n) g) hin hch .poisoned _

end Sys2Proof.Machine

namespace Sys2Proof

open Machine

/-- Settles O30: both reads are one reply; reading groups leaves the bytes, and takes no poison away. -/
theorem storeReads : Obligations.StoreReads := by
  unfold Obligations.StoreReads
  intro o d s a n S c hcase
  rcases hcase with ⟨rfl, hop, ha, hn, hr, hs, ho, hw⟩ | ⟨rfl, hop, ha, hn, hs, hr, hh⟩
  case inl =>
    have hfit : (isOp 0x70 d && !s.shim.applying (shimAddr d.payload) (shimLen d.payload)) = true := by
      rw [← ha, ← hn, hw, isOp, hop]
      rfl
    have heff : shimRead o s.toHub = shimReadEff d (markApplied d.id s.toHub) := serve_eq S hfit (by rw [hop]; rfl)
    refine ⟨_, exec_run (fun _ => rfl) (heff.trans (shimReadEff_reply ha hn hr hs ho)), ?_⟩
    dsimp only
    exact replied_answers S (by rw [hop]; rfl) _ a n _ rfl
  case inr =>
    refine ⟨_, exec_served S (fun _ => rfl) (isOp_of hop) (by rw [hop]; rfl) (peatReadEff_reply ha hn hs hr hh), ?_⟩
    dsimp only
    exact replied_answers S (by rw [hop]; rfl) _ a n _ rfl

end Sys2Proof
end

section
/-!
SUPPORT. The scrubber, the hours and the profile taken up (R388, R389, R391).
-/

set_option Elab.async false

namespace Sys2Proof.Machine

theorem bumpCounter_shim (k : Fin 256) (h : Hub) : (bumpCounter k.val h).shim =
    { h.shim with counters := upd h.shim.counters k fun c => satAdd (counterMax k) c 1 } := by
  unfold bumpCounter finOf
  rw [dif_pos k.isLt]
  rfl

/-! ## The scrubber (R373, R391) -/

theorem damageOf_mended (s : Shim) (g : Nat) :
    ({ s with damage := s.damage.filter fun d => d.1 != g } : Shim).damageOf g = .clean := by
  have hnone : (s.damage.filter fun d => d.1 != g).find? (fun d => d.1 == g) = none := by
    refine List.find?_eq_none.mpr fun d hd he => ?_
    have hne := (List.mem_filter.mp hd).2
    rw [bne, he] at hne
    cases hne
  unfold Shim.damageOf
  dsimp only
  rw [hnone]

theorem scrubGroup_clean {h : Hub} (hp : h.shim.scrub ∉ h.shim.poison) (hd : h.shim.damageOf h.shim.scrub = .clean) :
    scrubGroup .clean h = h := by
  unfold scrubGroup
  rw [if_neg fun hc => hp (List.contains_iff_mem.mp hc), if_pos (by decide), hd]

/-- A correctable group mended, noted and counted. -/
def scrubMended (h : Hub) : Hub :=
  bumpCounter 12 (raiseShim (bit16 0) (sendFault srcScrub .eccCe accRead mScrub (16 * h.shim.scrub) (mendGroup h.shim.scrub h)))

theorem scrubGroup_correctable {h : Hub} (hp : h.shim.scrub ∉ h.shim.poison) : scrubGroup .correctable h = scrubMended h := by
  unfold scrubGroup
  rw [if_neg fun hc => hp (List.contains_iff_mem.mp hc)]
  rfl

theorem scrubMended_shim (h : Hub) : (scrubMended h).shim = { h.shim with
    damage := h.shim.damage.filter fun d => d.1 != h.shim.scrub, evt := h.shim.evt.raise (bit16 0)
    counters := upd h.shim.counters 12 fun c => satAdd (2 ^ 48 - 1) c 1 } := by
  have hsent : (sendFault srcScrub .eccCe accRead mScrub (16 * h.shim.scrub) (mendGroup h.shim.scrub h)).shim =
      { h.shim with damage := h.shim.damage.filter fun d => d.1 != h.shim.scrub } := sendFault_shim ..
  unfold scrubMended
  refine (bumpCounter_shim 12 _).trans ?_
  unfold raiseShim
  rw [Hub.onShim_shim, hsent]
  rfl

theorem scrubGroupRead_next {e : GroupErr} {h : Hub} (hr : h.runs = true) (hb : h.inMode .boot = false) (hh : h.shim.halted = false)
    (hs : (scrubGroup e h).shim.scrub + 1 < 0x40000) :
    scrubGroupRead e h = (scrubGroup e h).onShim fun s => { s with scrub := s.scrub + 1 } := by
  unfold scrubGroupRead
  rw [hr, hb, hh, Bool.not_false, Bool.and_self, Bool.and_self, when_true]
  exact if_pos hs

/-! ## Hours (R389) -/

/-- An hour of n milliseconds taken off, and counted. -/
def hourCounted (n : Nat) (h : Hub) : Hub := bumpCounter 1 (h.onShim fun s => { s with hourMs := s.hourMs - n })

theorem hourCounted_shows (n : Nat) (h : Hub) : (hourCounted n h).shim.hourMs = h.shim.hourMs - n ∧
    (hourCounted n h).shim.counters[(1 : Fin 256)] = satAdd (2 ^ 48 - 1) h.shim.counters[(1 : Fin 256)] 1 ∧
    ∀ k : Fin 256, k ≠ 1 → (hourCounted n h).shim.counters[k] = h.shim.counters[k] :=
  ⟨congrArg Shim.hourMs (bumpCounter_shim 1 _), bumpCounter_at (n := (1 : Fin 256)) rfl _,
    fun _ hk => bumpCounter_other (fun hv => hk (Fin.ext hv)) _⟩

theorem hourCounterTick_due {h : Hub} (hr : h.runs = true) (hm : 3600000 ≤ h.shim.hourMs) :
    hourCounterTick h = hourCounted 3600000 h := by
  unfold hourCounterTick hourCounted
  rw [hr, decide_eq_true hm, Bool.and_self, when_true]

/-! ## The profile (R388) -/

/-- From h to t the mode stays, and of the Shim store the event bits alone may have moved. -/
structure Looks (h t : Hub) : Prop where
  shim : ∃ e, t.shim = { h.shim with evt := e }
  top : t.top = h.top

theorem Looks.refl (h : Hub) : Looks h h := ⟨⟨h.shim.evt, rfl⟩, rfl⟩

theorem Looks.trans {a b c : Hub} (p : Looks a b) (q : Looks b c) : Looks a c := by
  obtain ⟨⟨x, hx⟩, hp⟩ := p
  obtain ⟨⟨y, hy⟩, hq⟩ := q
  exact ⟨⟨y, by rw [hy, hx]⟩, hq.trans hp⟩

/-- With no error not yet found, a group is clean or poisoned. -/
theorem readGroup_looks {acc ms g : Nat} {h : Hub} (hd : h.shim.damage = []) : Looks h (readGroup acc ms g h) := by
  by_cases hp : g ∈ h.shim.poison
  · unfold readGroup
    rw [if_pos (List.contains_iff_mem.mpr hp)]
    refine ⟨⟨h.shim.evt.raise (bit16 2), ?_⟩, sendFault_top ..⟩
    unfold raiseShim
    rw [Hub.onShim_shim, sendFault_shim]
  · rw [readGroup_clean hp (by rw [Shim.damageOf, hd]; rfl)]
    exact .refl h

theorem forEach_looks {α : Type} {l : List α} {f : α → Hub → Hub}
    (hf : ∀ a g, g.shim.damage = [] → Looks g (f a g)) {h : Hub} (hd : h.shim.damage = []) : Looks h (forEach l f h) := by
  induction l generalizing h with
  | nil => exact .refl h
  | cons a l ih =>
    have ha := hf a h hd
    obtain ⟨e, he⟩ := ha.shim
    exact ha.trans (ih (by rw [he]; exact hd))

theorem readLong_looks {acc ms a n : Nat} {h : Hub} (hd : h.shim.damage = []) : Looks h (readLong acc ms a n h) :=
  forEach_looks (fun _ _ => readGroup_looks) hd

/-- The hub after the four slots have been read. -/
def slotsRead (h : Hub) : Hub :=
  forEach [0, 1, 2, 3] (fun p h => readLong accRead h.chargeCode (profBase p) (64 + 64 * min 1023 (h.shim.profNum p 8 2)) h)
    (h.onTop fun t => { t with profileDue := false })

theorem slotsRead_looks {h : Hub} (hd : h.shim.damage = []) : Looks (h.onTop fun t => { t with profileDue := false }) (slotsRead h) :=
  forEach_looks (fun _ _ hg => readLong_looks hg) hd

/-- The choice of a slot does not see the event bits. -/
theorem profBest_evt (s : Shim) (e : Evt) : ({ s with evt := e } : Shim).profBest = s.profBest := rfl

/-- The slot taken up, before its first descriptor. -/
def profTaken (p : Fin 4) (h : Hub) : Hub :=
  let ds := h.shim.profDescs p
  bumpCounter 15 (h.onShim fun s =>
    { s with profSlot := BitVec.ofNat 2 p, profFailed := 0, profFirst := 0, profResult := 0, profRun := some ds, profAt := 0, profCur := none })

theorem profileAutostart_none {h : Hub} (hs : h.inMode .service = true) (hp : h.top.profileDue = true) (hc : h.inCharge = true)
    (hb : (slotsRead h).shim.profBest = none) :
    profileAutostart h = raiseShim (bit16 7) ((slotsRead h).onShim fun s => { s with profResult := 3 }) := by
  unfold profileAutostart
  rw [hs, hp, hc, Bool.and_self, Bool.and_self, when_true]
  extract_lets g
  rw [show g = slotsRead h from rfl, hb]

theorem profileAutostart_some {h : Hub} {p : Fin 4} (hs : h.inMode .service = true) (hp : h.top.profileDue = true)
    (hc : h.inCharge = true) (hb : (slotsRead h).shim.profBest = some p) : profileAutostart h = profNext (profTaken p (slotsRead h)) := by
  unfold profileAutostart
  rw [hs, hp, hc, Bool.and_self, Bool.and_self, when_true]
  extract_lets g
  rw [show g = slotsRead h from rfl, hb]
  rfl

theorem profTaken_shows (p : Fin 4) (h : Hub) : (profTaken p h).shim.profSlot = BitVec.ofNat 2 p.val ∧
    (profTaken p h).shim.counters[(15 : Fin 256)] = satAdd (2 ^ 48 - 1) h.shim.counters[(15 : Fin 256)] 1 ∧ (profTaken p h).top = h.top :=
  ⟨congrArg Shim.profSlot (bumpCounter_shim 15 _), bumpCounter_at (n := (15 : Fin 256)) rfl _,
    (bumpCounter_only ..).eq_top (by decide) (by decide)⟩

theorem profNext_only (h : Hub) : Only { parts := [.books, .profile, .shimEvt] } h (profNext h) :=
  (profNext_kept (fun _ hp => hp) (.refl h)).only

/-- Going on with a profile leaves the slot that SHIM_PROF shows. -/
theorem profNext_slot (h : Hub) : (profNext h).shim.profSlot = h.shim.profSlot := by
  unfold profNext
  split
  · rfl
  · split
    · rfl
    · split
      extract_lets g
      have hg : g.shim.profSlot = h.shim.profSlot := by
        refine congrArg Shim.profSlot (Hub.onShim_shim ..) |>.trans ?_
        dsimp only
        split <;> rfl
      split
      · split <;> exact hg
      · exact hg

end Sys2Proof.Machine

namespace Sys2Proof

open Machine

/-- Settles O33: a group read by the scrubber is one update; the slots read without errors leave all that the choice of one sees. -/
theorem scrubHoursProfiles : Obligations.ScrubHoursProfiles := by
  unfold Obligations.ScrubHoursProfiles
  refine ⟨fun s e hr hb hh hs hp => ⟨fun he hd => ?clean, fun he hq => ?mended⟩, fun s hr hm => ?hour, fun s hs hp hc hd => ?profile⟩
  case clean =>
    subst he
    have hscrub := scrubGroup_clean hp hd
    refine ⟨_, exec_run (fun _ => rfl) (scrubGroupRead_next hr hb hh (by rw [hscrub]; exact hs)), ?_⟩
    dsimp only
    rw [hscrub]
    rfl
  case mended =>
    subst he
    have hscrub := scrubGroup_correctable hp
    have hshim := scrubMended_shim s.toHub
    obtain ⟨m, hm, hmsg⟩ := sendFault_enters srcScrub .eccCe accRead mScrub (16 * s.shim.scrub)
      (g := mendGroup s.shim.scrub s.toHub) (h := s.toHub) rfl rfl hr hq
    have hflt : (scrubMended s.toHub).flt.queue = s.flt.queue ++ [m] := (congrArg Flt.queue (bumpCounter_flt ..)).trans hm
    refine ⟨_, exec_run (fun _ => rfl) (scrubGroupRead_next hr hb hh (by rw [hscrub, hshim]; exact hs)), ?_⟩
    dsimp only
    rw [hscrub]
    generalize scrubMended s.toHub = g at hshim hflt
    dsimp only [Hub.onShim_shim]
    rw [hshim]
    refine ⟨rfl, rfl, damageOf_mended s.shim s.shim.scrub, upd_same .., Evt.raise_bit16 _ (by decide), m, hflt, ?_, ?_⟩
    · rw [hmsg]; rfl
    · rw [hmsg]; rfl
  case hour => exact ⟨_, exec_run (fun _ => rfl) (hourCounterTick_due hr hm), hourCounted_shows 3600000 s.toHub⟩
  case profile =>
    obtain ⟨⟨e, he⟩, htop⟩ := slotsRead_looks (h := s.toHub) hd
    have hnone := profileAutostart_none (h := s.toHub) hs hp hc
    have hsome := fun p => profileAutostart_some (h := s.toHub) (p := p) hs hp hc
    generalize slotsRead s.toHub = g at he htop hnone hsome
    have hbest : g.shim.profBest = s.shim.profBest := by rw [he]; exact profBest_evt ..
    cases hb : s.shim.profBest
    case none =>
      refine ⟨_, exec_run (fun _ => rfl) (hnone (hbest.trans hb)), ?_⟩
      exact ⟨congrArg Top.profileDue htop, fun _ => ⟨rfl, Evt.raise_bit16 _ (by decide)⟩, fun _ hn => nomatch hn⟩
    case some p =>
      refine ⟨_, exec_run (fun _ => rfl) (hsome p (hbest.trans hb)), ?_⟩
      obtain ⟨hslot, hcount, htake⟩ := profTaken_shows p g
      have o := profNext_only (profTaken p g)
      refine ⟨?_, fun hn => (nomatch hn), fun p' hp' => ?_⟩
      · exact congrArg Top.profileDue ((o.eq_top (by decide) (by decide)).trans (htake.trans htop))
      · cases hp'
        refine ⟨(profNext_slot _).trans hslot, ?_⟩
        dsimp only
        rw [o.counters.resolve_left (by decide), hcount, he]
        rfl

end Sys2Proof
end

section
/-!
SUPPORT. What the steps of a tick leave of the grid's own counts and of the measurements (R42, R467, R491), and the votes and
packets of a tick (R19, R28, R29).
-/

set_option Elab.async false

namespace Sys2Proof.Machine

theorem upd_keeps {α β : Type} {n : Nat} (F : α → β) {f : α → α} (hf : ∀ x, F (f x) = F x) (v : Vector α n) (i j : Fin n) :
    F (upd v i f)[j] = F v[j] := by
  by_cases hj : j = i
  · subst hj
    exact (upd_field F ..).trans (hf _)
  · exact upd_field_other F hj

/-! ## The grid's counts -/

/-- The counts of the tick grid, the heater and the supply as measured. -/
def Hub.grid (h : Hub) : Nat × Nat × Nat × Bool × Nat × Pwr :=
  (h.clk.cycles, h.clk.pos, h.clk.ms, h.clk.secDue, h.clk.heater, h.pwr)

/-- Everything but the counts of time, the clocks and the supply. -/
def Touch.offGrid : Touch :=
  { parts := [.top, .parity, .hostRegs, .cmdRings, .cplRings, .telRings, .strRings, .msix, .books, .tdc, .hier, .hierEvt, .runs, .comp,
      .store, .counters, .profile, .shimEvt, .shim, .cal, .collector, .fltEvt, .flt, .mons, .bus, .wire, .free]
    evts := any, ivus := any, refs := any, doms := any, outs := any, plss := any, links := any, dlls := any, tasks := any
    reeds := any, evTasks := any, ptp := any, units := any }

/-- Everything but the lanes' counts. -/
def Touch.offLanes : Touch :=
  { parts := [.top, .parity, .pwr, .now, .clk, .hostRegs, .cmdRings, .cplRings, .telRings, .strRings, .msix, .books, .hier, .hierEvt,
      .runs, .comp, .store, .counters, .profile, .shimEvt, .shim, .cal, .collector, .fltEvt, .flt, .mons, .bus, .wire, .free]
    evts := any, ivus := any, refs := any, doms := any, outs := any, plss := any, links := any, dlls := any, tasks := any
    reeds := any, evTasks := any, ptp := any, units := any }

theorem due_of_grid {h t : Hub} (e : t.grid = h.grid) : t.clk.secDue = h.clk.secDue :=
  congrArg (fun x : Nat × Nat × Nat × Bool × Nat × Pwr => x.2.2.2.1) e

theorem Touch.offGrid_has {L : List Part} (e : L.all (fun p => Touch.offGrid.parts.contains p) = true) : Touch.offGrid.has L :=
  Touch.has.of (L := Touch.offGrid.parts) (fun _ hp => hp) e

theorem Touch.offLanes_has {L : List Part} (e : L.all (fun p => Touch.offLanes.parts.contains p) = true) : Touch.offLanes.has L :=
  Touch.has.of (L := Touch.offLanes.parts) (fun _ hp => hp) e

theorem Only.grid {h t : Hub} (o : Only .offGrid h t) : t.grid = h.grid := by
  have hclk := o.eq_clk (by simp [Touch.offGrid]) (by simp [Touch.offGrid])
  have hpwr := o.pwr.resolve_left (by simp [Touch.offGrid])
  unfold Hub.grid
  rw [hclk, hpwr]

theorem Only.lanes {h t : Hub} (o : Only .offLanes h t) : t.tdc = h.tdc := o.tdc.resolve_left (by simp [Touch.offLanes])

theorem checkRot_grid (m : Fin 16) (h : Hub) : (checkRot m h).grid = h.grid := by
  obtain ⟨e, he⟩ := (checkRot_checked m h).clk
  have hpwr := (checkRot_only m h).pwr.resolve_left (by simp)
  unfold Hub.grid
  rw [he, hpwr]

theorem checkRots_grid (h : Hub) : (checkRots h).grid = h.grid := forEach_keeps (fun _ _ => checkRot_grid ..) _ h

/-! ## Domains -/

theorem completeWith_grid (id : Nat) (st : Status) (r : BitVec 192) (h : Hub) : (completeWith id st r h).grid = h.grid :=
  Only.grid (completeWith_kept (A := .offGrid) (Touch.offGrid_has rfl) (.refl h)).only

theorem steerNow_grid (m : Fin 16) (id : Nat) (p : Payload) (h : Hub) : (steerNow m id p h).grid = h.grid := by
  unfold steerNow
  extract_lets f g
  split
  · exact completeWith_grid ..
  · split
    · exact completeWith_grid ..
    · exact (completeWith_grid ..).trans (checkRot_grid ..)

theorem applyDomOps_grid (m : Fin 16) (h : Hub) : (applyDomOps m h).grid = h.grid := by
  unfold applyDomOps
  extract_lets ops
  refine (forEach_keeps (F := Hub.grid) (fun op g => ?_) ops _).trans rfl
  cases op with
  | config id p => exact Only.grid (applyDomConfig_kept (A := .offGrid) (Touch.offGrid_has rfl) every trivial (.refl g)).only
  | mode id p => exact Only.grid (applyDomMode_kept (A := .offGrid) (Touch.offGrid_has rfl) every trivial (.refl g)).only
  | steer id p => exact steerNow_grid m id p g

theorem domUpdate_grid (m : Fin 16) (n : Nat) (h : Hub) : (domUpdate m n h).grid = h.grid := by
  have hlose : ∀ g, (loseAll m g).grid = g.grid := fun g =>
    Only.grid (loseAll_kept (A := .offGrid) (Touch.offGrid_has rfl) every trivial (.refl g)).only
  have hsteer : ∀ g, (steer m n (judge m g)).grid = g.grid := fun g =>
    Only.grid (steer_kept (A := .offGrid)
        (Touch.offGrid_has rfl) trivial every every every (judge_kept (Touch.offGrid_has rfl) every trivial (.refl g))).only
  have hhops : ∀ f g, (setHops m (Hub.onDom m f g)).grid = g.grid := fun f g =>
    Only.grid (setHops_kept (A := .offGrid) trivial (Hub.onDom_kept trivial (.refl g))).only
  unfold domUpdate
  split
  · rfl
  · split
    · dsimp only
      split
      · split
        · exact hlose h
        · rfl
      · split
        · exact hlose h
        · rfl
      all_goals rfl
    · exact (checkRot_grid ..).trans ((hhops ..).trans ((hsteer _).trans (applyDomOps_grid ..)))

theorem domMilli_grid (m : Fin 16) (h : Hub) : (domMilli m h).grid = h.grid := by
  unfold domMilli
  extract_lets g
  have hg : g.grid = h.grid := Only.grid (holdoffStep_kept (A := .offGrid) trivial (Hub.onDom_kept trivial
    (swapWeights_kept every trivial (swapPrio_kept (Touch.offGrid_has rfl) trivial (.refl h))))).only
  split
  · exact hg
  · exact (domUpdate_grid ..).trans hg

theorem domSecond_grid (m : Fin 16) (h : Hub) : (domSecond m h).grid = h.grid := by
  unfold domSecond
  extract_lets d
  split
  · rfl
  · split
    · split
      · exact domUpdate_grid ..
      · rfl
    · exact domUpdate_grid ..

/-! ## The 1 ms tick -/

/-- A tick up to its measurements' effects: decay, flips, votes, packets, deskew lines and lanes. -/
def tickEarly (m : Meas) (h : Hub) : Hub :=
  let h := forEach m.packets packetError (forEach (allFin 16) voteRot (forEach m.upsets flip (forEach m.decayed decay h)))
  laneTicks (forEach m.sensed (fun x h => dllTrack x.1 x.2 h) h)

/-- From C's ramp to the pulse outputs. -/
def tickTurns (m : Meas) (h : Hub) : Hub :=
  let h := forEach (allFin 48) linkTick (rampCorr h)
  let h := forEach (allFin 48) (ptpMilli m.lines) h
  let h := forEach (allFin 12) (fun s h => refTick s (linkPresence s h)) h
  plsTicks (usedMilli (forEach (allFin 16) domMilli h))

/-- From the monitors' entries to the end of the tick. -/
def tickLast (h : Hub) : Hub := pruneCauses (milliCounts (hierTick (checkRots (forEach (allFin 32) monEntry h))))

theorem tick1ms_due {m : Meas} {h : Hub} (hr : h.runs = true) (ha : h.rootActive = true) (hd : h.clk.secDue = false) :
    tick1ms m h = tickLast ((tickTurns m ((tickEarly m (takeMeas m (advanceTo tickCycles h))).onClk fun c =>
      { c with pos := 0, ms := c.ms + 1, secDue := decide ((c.ms + 1) % 1000 = 0) })).onTdc fun t => { t with pushed := 0 }) := by
  have hsec : tick1s h = h := by
    unfold tick1s
    rw [hd, Bool.and_false, when_false]
  unfold tick1ms
  rw [hr, ha, Bool.and_self, when_true, hsec]
  rfl

theorem tickEarly_grid (m : Meas) (h : Hub) : (tickEarly m h).grid = h.grid := by
  have hpackets : ∀ e g, (packetError e g).grid = g.grid := fun e g =>
    Only.grid (packetError_kept (A := .offGrid) (Touch.offGrid_has rfl) (.refl g)).only
  have hvotes : ∀ k g, (voteRot k g).grid = g.grid := fun k g =>
    Only.grid (voteRot_kept (A := .offGrid) (Touch.offGrid_has rfl) trivial (.refl g)).only
  have hflips : ∀ u g, (flip u g).grid = g.grid := fun u g => Only.grid (flip_kept (A := .offGrid) every (.refl g)).only
  have hdecay : ∀ w g, (decay w g).grid = g.grid := fun w g =>
    Only.grid (decay_kept (A := .offGrid) (Touch.offGrid_has rfl) (.refl g)).only
  have htrack : ∀ (x : Fin 96 × Int) g, (dllTrack x.1 x.2 g).grid = g.grid := fun x g =>
    Only.grid (dllTrack_kept (A := .offGrid) trivial (.refl g)).only
  have hlanes : ∀ g, (laneTicks g).grid = g.grid := fun g =>
    Only.grid (laneTicks_kept (A := .offGrid) (Touch.offGrid_has rfl) every every (.refl g)).only
  unfold tickEarly
  exact (hlanes _).trans ((forEach_keeps htrack ..).trans ((forEach_keeps hpackets ..).trans ((forEach_keeps hvotes ..).trans
    ((forEach_keeps hflips ..).trans (forEach_keeps hdecay ..)))))

theorem tickTurns_grid (m : Meas) (h : Hub) : (tickTurns m h).grid = h.grid := by
  have hlinks : ∀ n g, (linkTick n g).grid = g.grid := fun n g =>
    Only.grid (linkTick_kept (A := .offGrid) (Touch.offGrid_has rfl) every every trivial (.refl g)).only
  have hptp : ∀ n g, (ptpMilli m.lines n g).grid = g.grid := fun n g =>
    Only.grid (ptpMilli_kept (A := .offGrid) every trivial (.refl g)).only
  have hrefs : ∀ s g, (refTick s (linkPresence s g)).grid = g.grid := fun s g =>
    Only.grid (refTick_kept (A := .offGrid) (Touch.offGrid_has rfl) trivial every
      (linkPresence_kept (Touch.offGrid_has rfl) trivial every (.refl g))).only
  have hlast : ∀ g, (plsTicks (usedMilli g)).grid = g.grid := fun g =>
    Only.grid (plsTicks_kept (A := .offGrid) every (usedMilli_kept every (.refl g))).only
  unfold tickTurns
  exact (hlast _).trans ((forEach_keeps domMilli_grid ..).trans ((forEach_keeps hrefs ..).trans ((forEach_keeps hptp ..).trans
    (forEach_keeps hlinks ..))))

theorem tickLast_grid (h : Hub) : (tickLast h).grid = h.grid := by
  have hmons : ∀ k g, (monEntry k g).grid = g.grid := fun k g =>
    Only.grid (monEntry_kept (A := .offGrid) (Touch.offGrid_has rfl) trivial (.refl g)).only
  have hcounts : ∀ g, (pruneCauses (milliCounts (hierTick g))).grid = g.grid := fun g =>
    Only.grid (pruneCauses_kept (A := .offGrid) (Touch.offGrid_has rfl) (milliCounts_kept (Touch.offGrid_has rfl)
      (hierTick_kept (Touch.offGrid_has rfl) (.refl g)))).only
  unfold tickLast
  exact (hcounts _).trans ((checkRots_grid _).trans (forEach_keeps hmons ..))

theorem tickLast_lanes (h : Hub) : (tickLast h).tdc = h.tdc :=
  Only.lanes (pruneCauses_kept (A := .offLanes) (Touch.offLanes_has rfl) (milliCounts_kept (Touch.offLanes_has rfl)
    (hierTick_kept (Touch.offLanes_has rfl) (checkRots_kept (Touch.offLanes_has rfl) every
      (forEach_kept (.refl h) fun _ _ k => monEntry_kept (Touch.offLanes_has rfl) trivial k))))).only

/-- The tick's own time: the root has turned to the end of the millisecond. -/
theorem advanceTo_tick {h : Hub} (hr : h.runs = true) (ha : h.rootActive = true) (hp : h.clk.pos ≤ tickCycles) :
    (advanceTo tickCycles h).clk.cycles = h.clk.cycles + (tickCycles - h.clk.pos) ∧ (advanceTo tickCycles h).clk.ms = h.clk.ms ∧
    (advanceTo tickCycles h).clk.limited = h.clk.limited ∧ (advanceTo tickCycles h).pwr = h.pwr := by
  refine ⟨?_, advanceTo_ms .., ?_, advanceTo_pwr ..⟩ <;> unfold advanceTo <;> rw [hr, ha, Bool.and_self, Bool.true_and] <;> split
  case refine_1.isTrue => rfl
  case refine_1.isFalse hn =>
    have : tickCycles ≤ h.clk.pos := Nat.not_lt.mp fun hl => hn (decide_eq_true hl)
    omega
  all_goals rfl

/-! ## The 1 s tick -/

/-- The second up to the samples used. -/
def secondUsed (h : Hub) : Hub :=
  usedSecond (forEach (allFin 16) domSecond (h.onClk fun c =>
    { c with secDue := false, bandSecs := if c.inBand then satInc32 c.bandSecs else 0 }))

/-- Its counts, and the PTP ports. -/
def secondCounted (h : Hub) : Hub := forEach (allFin 48) ptpSecond (forEach (allFin 16) domCounts h)

/-- The trims and what follows them. -/
def secondLast (h : Hub) : Hub := checkRots (forEach (allFin 48) asymTick (trimTick h))

theorem tick1s_due {h : Hub} (hr : h.runs = true) (ha : h.rootActive = true) (hd : h.clk.secDue = true) :
    tick1s h = secondLast (((secondCounted (secondUsed h)).onTdc fun t => { t with agg := t.aggNow, aggNow := 0 }).onComp
      fun c => { c with evTasks := c.evTasks.map fun e => { e with taken := 0 } }) := by
  unfold tick1s
  rw [hr, ha, hd, Bool.and_self, Bool.and_self, when_true]
  rfl

theorem secondUsed_due (h : Hub) : (secondUsed h).clk.secDue = false := by
  have hgrid := forEach_keeps (F := Hub.grid) domSecond_grid (allFin 16) (h.onClk fun c =>
    { c with secDue := false, bandSecs := if c.inBand then satInc32 c.bandSecs else 0 })
  exact due_of_grid hgrid

theorem secondUsed_fresh (h : Hub) (k : Fin 12) : (secondUsed h).refs[k].fresh = none :=
  congrArg RefSlot.fresh (Vector.getElem_map ..)

theorem secondUsed_lanes (h : Hub) : (secondUsed h).tdc = h.tdc := by
  refine Only.lanes (usedSecond_kept every (forEach_kept (Hub.onClk_kept (clk := .inl ?_) (.refl h)) fun _ _ k =>
    domSecond_kept (Touch.offLanes_has rfl) every trivial every every every k)).only
  decide

theorem secondCounted_grid (h : Hub) : (secondCounted h).grid = h.grid :=
  Only.grid (forEach_kept (A := .offGrid) (forEach_kept (.refl h) fun _ _ k => domCounts_kept trivial k) fun _ _ k =>
    ptpSecond_kept (Touch.offGrid_has rfl) every trivial k).only

theorem secondCounted_lanes (h : Hub) : (secondCounted h).tdc = h.tdc :=
  Only.lanes (forEach_kept (A := .offLanes) (forEach_kept (.refl h) fun _ _ k => domCounts_kept trivial k) fun _ _ k =>
    ptpSecond_kept (Touch.offLanes_has rfl) every trivial k).only

theorem ptpSecond_fresh (k : Fin 12) (n : Fin 48) (h : Hub) : (ptpSecond n h).refs[k].fresh = h.refs[k].fresh := by
  have hgen : (ptpGeneral n h).refs = h.refs :=
    (ptpGeneral_kept (A := { parts := [.wire] }) (fun _ hp => hp) (.refl h)).only.eq_refs fun _ hk => hk
  unfold ptpSecond
  extract_lets g p g2
  have hg : g.refs[k].fresh = h.refs[k].fresh := congrArg (fun v : Vector RefSlot 12 => v[k].fresh) hgen
  have hdue : ∀ s x, (Hub.onRef s (fun r => { r with due := some (rdiv p.xSum p.xN, rdiv p.tSum p.xN) }) x).refs[k].fresh =
      x.refs[k].fresh := fun s x => upd_keeps RefSlot.fresh
    (f := fun r => { r with due := some (rdiv p.xSum p.xN, rdiv p.tSum p.xN) }) (fun _ => rfl) x.refs s k
  have hg2 : g2.refs[k].fresh = g.refs[k].fresh := by
    unfold g2
    split
    · exact forEach_keeps (F := fun x : Hub => x.refs[k].fresh) hdue ..
    · rfl
  exact hg2.trans hg

theorem secondCounted_fresh (h : Hub) (k : Fin 12) : (secondCounted h).refs[k].fresh = h.refs[k].fresh := by
  have hcounts : ∀ m g, (domCounts m g).refs = g.refs := fun m g =>
    (domCounts_kept (A := { doms := any }) trivial (.refl g)).only.eq_refs fun _ hk => hk
  refine (forEach_keeps (F := fun x : Hub => x.refs[k].fresh) (fun n g => ptpSecond_fresh k n g) ..).trans ?_
  exact congrArg (fun v : Vector RefSlot 12 => v[k].fresh) (forEach_keeps (F := Hub.refs) hcounts ..)

theorem applyTemps_agg (h : Hub) : (applyTemps h).tdc.agg = h.tdc.agg ∧ (applyTemps h).tdc.aggNow = h.tdc.aggNow := by
  unfold applyTemps
  extract_lets ts mask clamped extrap g
  split
  · exact ⟨rfl, rfl⟩
  · have htdc : (raiseTdc (bit16 2) g).tdc = { g.tdc with evt := g.tdc.evt.raise (bit16 2) } := by
      rw [raiseTdc_irqIf, irqIf_tdc]
      rfl
    rw [htdc]
    exact ⟨rfl, rfl⟩

/-- The trims, and C's aim. -/
def trimmed (h : Hub) : Hub := aimCorr false (applyTrims false (applyTemps (applySettings h)))

/-- What a trim tick notes after them. -/
def trimNoted (h : Hub) : Hub :=
  { (h.onCal fun c => { c with ticks := c.ticks + 1 }) with plss := h.plss.map fun p => { p with delayClass := p.vddp } }

theorem trimTick_eq (h : Hub) : trimTick h = trimNoted (trimmed h) := rfl

theorem trimNoted_tdc (h : Hub) : (trimNoted h).tdc = h.tdc := rfl

theorem trimNoted_clk (h : Hub) : (trimNoted h).clk = h.clk := rfl

theorem trimTick_agg (h : Hub) : (trimTick h).tdc.agg = h.tdc.agg ∧ (trimTick h).tdc.aggNow = h.tdc.aggNow := by
  have hsettings : (applySettings h).tdc = h.tdc := Only.lanes (applySettings_kept (Touch.offLanes_has rfl) (.refl h)).only
  have htrims : ∀ g, (aimCorr false (applyTrims false g)).tdc = g.tdc := fun g =>
    Only.lanes (aimCorr_kept (Touch.offLanes_has rfl) (applyTrims_kept (Touch.offLanes_has rfl) (.refl g))).only
  rw [trimTick_eq, trimNoted_tdc, trimmed, htrims, (applyTemps_agg _).1, (applyTemps_agg _).2, hsettings]
  exact ⟨rfl, rfl⟩

theorem trimTick_due (h : Hub) : (trimTick h).clk.secDue = h.clk.secDue := by
  have htrims : (applyTrims false (applyTemps (applySettings h))).grid = h.grid :=
    Only.grid (applyTrims_kept (A := .offGrid) (Touch.offGrid_has rfl) (applyTemps_kept (Touch.offGrid_has rfl)
      (applySettings_kept (Touch.offGrid_has rfl) (.refl h)))).only
  obtain ⟨co, ct, haim⟩ := aimCorr_clk false (applyTrims false (applyTemps (applySettings h)))
  rw [trimTick_eq, trimNoted_clk, trimmed, haim]
  exact due_of_grid htrims

/-- What follows the trims leaves the references, the lanes and the grid. -/
theorem secondLast_leaves (h : Hub) : (secondLast h).clk.secDue = h.clk.secDue ∧ (secondLast h).tdc.agg = h.tdc.agg ∧
    (secondLast h).tdc.aggNow = h.tdc.aggNow ∧ (secondLast h).refs = h.refs := by
  unfold secondLast
  have hasym : ∀ n g, (asymTick n g).grid = g.grid := fun n g =>
    Only.grid (asymTick_kept (A := .offGrid) (Touch.offGrid_has rfl) trivial (.refl g)).only
  have hgrid := (checkRots_grid (forEach (allFin 48) asymTick (trimTick h))).trans (forEach_keeps (F := Hub.grid) hasym _ (trimTick h))
  have hlanes : (checkRots (forEach (allFin 48) asymTick (trimTick h))).tdc = (trimTick h).tdc :=
      Only.lanes (checkRots_kept (Touch.offLanes_has rfl) every
    (forEach_kept (.refl _) fun _ _ k => asymTick_kept (Touch.offLanes_has rfl) trivial k)).only
  have htrim : Only { parts := [.clk, .cplRings, .msix, .books, .tdc, .runs, .profile, .shimEvt, .shim, .cal, .bus], plss := any } h
      (trimTick h) := (trimTick_kept (fun _ hp => hp) every (.refl h)).only
  have hlast : Only { parts := [.clk, .msix, .collector, .fltEvt, .bus], doms := any, links := any } (trimTick h)
      (checkRots (forEach (allFin 48) asymTick (trimTick h))) :=
    (checkRots_kept (fun _ hp => hp) every (forEach_kept (.refl _) fun _ _ k =>
      asymTick_kept (A := { parts := [.clk, .msix, .collector, .fltEvt, .bus], doms := any, links := any })
        (Touch.has.of (L := [.clk, .msix, .collector, .fltEvt, .bus]) (fun _ hp => hp) rfl) trivial k)).only
  refine ⟨?_, ?_, ?_, ?_⟩
  · exact (due_of_grid hgrid).trans (trimTick_due h)
  · rw [hlanes, (trimTick_agg h).1]
  · rw [hlanes, (trimTick_agg h).2]
  · exact (hlast.eq_refs fun _ hk => hk).trans (htrim.eq_refs fun _ hk => hk)

/-! ## Votes and packets (R19, R28, R29) -/

/-- A rotator's vote, before its disagreement is reported. -/
def voteTaken (m : Fin 16) (h : Hub) : Hub := h.onDom m fun d => { d with accA := d.acc, accB := d.acc, accC := d.acc, voted := 0 }

theorem voteRot_acc (m : Fin 16) (h : Hub) : (voteRot m h).doms[m].accA = h.doms[m].acc ∧ (voteRot m h).doms[m].accB = h.doms[m].acc ∧
    (voteRot m h).doms[m].accC = h.doms[m].acc := by
  have hkeep : ∀ (F : Dom → BitVec 112), (∀ (x : Dom) e, F { x with untrusted := true, evt := e } = F x) →
      F (voteRot m h).doms[m] = F (voteTaken m h).doms[m] := by
    intro F hF
    have hdistrust : ∀ g, F (distrust m g).doms[m] = F g.doms[m] := fun g => by
      simp only [distrust_doms]
      exact (upd_field F ..).trans (hF ..)
    have hsent : ∀ k g, F (sendFault (srcRot m) k accNone mInternal 0 g).doms[m] = F g.doms[m] := fun k g => by
      simp only [sendFault_doms]
    unfold voteRot
    extract_lets found g g2
    have hg2 : F g2.doms[m] = F g.doms[m] := by
      unfold g2
      split
      · exact hsent ..
      · rfl
    split
    · exact (hdistrust _).trans ((hsent ..).trans hg2)
    · exact hg2
  refine ⟨(hkeep Dom.accA fun _ _ => rfl).trans ?_, (hkeep Dom.accB fun _ _ => rfl).trans ?_, (hkeep Dom.accC fun _ _ => rfl).trans ?_⟩
  · exact upd_field Dom.accA ..
  · exact upd_field Dom.accB ..
  · exact upd_field Dom.accC ..

theorem packetError_returned {e : PacketErr} {h : Hub} (hr : h.comp.returns e.receiver.toNat = true) : packetError e h = h := if_pos hr

/-- The kind of message that a packet error sends. -/
def packetKind (e : PacketErr) : Kind := if e.fatal then .eccUe else .eccCe

theorem packetError_sends {e : PacketErr} {h : Hub} (hr : h.comp.returns e.receiver.toNat = false) :
    packetError e h = sendFault e.receiver.toNat (packetKind e) accMsg e.sender.toNat 0 h := by
  unfold packetError packetKind
  rw [hr, if_neg Bool.false_ne_true]
  split <;> rfl

end Sys2Proof.Machine

namespace Sys2Proof

open Machine

/-- Settles O39: of the steps of a tick only the named ones move the grid's counts, the measurements and the lanes' counts. -/
theorem ticksTurn : Obligations.TicksTurn := by
  unfold Obligations.TicksTurn
  refine ⟨fun s m hr ha hd hp => ?milli, fun h e => ⟨packetError_returned, fun hn hr hq => ?packet⟩, fun h k => voteRot_acc k h,
    fun s hr ha hd => ?second⟩
  case milli =>
    obtain ⟨hcycles, hms, hlimited, hpwr⟩ := advanceTo_tick (h := s.toHub) hr ha hp
    have heff := tick1ms_due (m := m) (h := s.toHub) hr ha hd
    generalize advanceTo tickCycles s.toHub = g at hcycles hms hlimited hpwr heff
    have hearly := tickEarly_grid m (takeMeas m g)
    generalize tickEarly m (takeMeas m g) = g2 at hearly heff
    have hturns := tickTurns_grid m (g2.onClk fun c => { c with pos := 0, ms := c.ms + 1, secDue := decide ((c.ms + 1) % 1000 = 0) })
    generalize tickTurns m (g2.onClk fun c => { c with pos := 0, ms := c.ms + 1, secDue := decide ((c.ms + 1) % 1000 = 0) }) = g3
      at hturns heff
    have hlast := tickLast_grid (g3.onTdc fun t => { t with pushed := 0 })
    have hlanes := tickLast_lanes (g3.onTdc fun t => { t with pushed := 0 })
    generalize tickLast (g3.onTdc fun t => { t with pushed := 0 }) = t at hlast hlanes heff
    have hgrid : t.grid = (g2.clk.cycles, 0, g2.clk.ms + 1, decide ((g2.clk.ms + 1) % 1000 = 0), g2.clk.heater, g2.pwr) :=
      hlast.trans hturns
    simp only [Hub.grid, Prod.mk.injEq] at hgrid hearly
    obtain ⟨h1, h2, h3, h4, h5, h6⟩ := hgrid
    obtain ⟨e1, -, e3, -, e5, e6⟩ := hearly
    refine ⟨_, exec_run (fun _ => rfl) heff, h2, ?_, ?_, ?_, ?_, ?_, ?_, ?_, ?_⟩
    · exact h1.trans (e1.trans hcycles)
    · exact h3.trans (by rw [e3]; exact congrArg (· + 1) hms)
    · dsimp only
      rw [h4, e3]
      refine decide_eq_true_iff.trans ?_
      rw [← hms]
      rfl
    · exact congrArg Pwr.vin (h6.trans e6)
    · exact (congrArg Pwr.vinLow (h6.trans e6)).trans (by rw [← hpwr]; rfl)
    · exact (congrArg Pwr.vinHigh (h6.trans e6)).trans (by rw [← hpwr]; rfl)
    · exact (h5.trans e5).trans (by rw [← hpwr, ← hlimited]; rfl)
    · dsimp only
      rw [hlanes]
      rfl
  case packet =>
    obtain ⟨m, hm, hmsg⟩ := sendFault_enters e.receiver.toNat (packetKind e) accMsg e.sender.toNat 0 (g := h) (h := h) rfl rfl hr hq
    rw [packetError_sends hn]
    refine ⟨m, hm, ?_, ?_, ?_, ?_⟩ <;> rw [hmsg]
    · exact BitVec.ofNat_toNat ..
    · rfl
    · exact BitVec.ofNat_toNat ..
    · rfl
  case second =>
    have heff := tick1s_due (h := s.toHub) hr ha hd
    have hdue := secondUsed_due s.toHub
    have hfresh := secondUsed_fresh s.toHub
    have hlanes := (secondCounted_lanes (secondUsed s.toHub)).trans (secondUsed_lanes s.toHub)
    have hgrid := due_of_grid (secondCounted_grid (secondUsed s.toHub))
    have hrefs := secondCounted_fresh (secondUsed s.toHub)
    generalize secondUsed s.toHub = g at heff hdue hfresh hlanes hgrid hrefs
    generalize secondCounted g = g2 at heff hlanes hgrid hrefs
    obtain ⟨l1, l2, l3, l4⟩ := secondLast_leaves ((g2.onTdc fun t => { t with agg := t.aggNow, aggNow := 0 }).onComp
      fun c => { c with evTasks := c.evTasks.map fun e => { e with taken := 0 } })
    generalize secondLast _ = t at heff l1 l2 l3 l4
    refine ⟨_, exec_run (fun _ => rfl) heff, l1.trans ?_, l2.trans ?_, l3, fun k => ?_⟩
    · exact hgrid.trans hdue
    · exact congrArg Tdc.aggNow hlanes
    · dsimp only
      rw [l4]
      exact (hrefs k).trans (hfresh k)

end Sys2Proof
end

section
/-!
SUPPORT. A statement of the reed faults that fails: a reed whose task finds no spare sends TASK_FAIL a second time, with cause 6, and
that is then the reed's last cause.
-/

set_option Elab.async false

namespace Sys2Proof.Machine

/-- A hub in SERVICE whose reed 0 runs task 0, with every other reed OFF. -/
def lastReedHub : Hub := { Hub.reset with
  top := { mode := .service, begun := true }
  comp := { Hub.reset.comp with
    reeds := Vector.ofFn fun (n : Fin 192) => if n = 0 then { state := .running, task := some 0 } else { state := .off }
    tasks := upd Hub.reset.comp.tasks 0 fun k => { k with state := .running, reed := some 0 } } }

/-- Its state. -/
def lastReedCase : State := { lastReedHub with pending := [] }

end Sys2Proof.Machine

namespace Sys2Proof

open Machine

/-- Refutes O27: a trap of the only reed that is on leaves 6, not 3, as its last cause. -/
theorem not_reedFaultsAndTakeovers : ¬ Obligations.ReedFaultsAndTakeovers := by
  unfold Obligations.ReedFaultsAndTakeovers
  intro h
  obtain ⟨t, ht, -, hcause, -⟩ := (h lastReedCase 0).1 (.reedTrap 0) 3 (by decide +kernel) (by decide +kernel)
    (.inr (.inr (.inl ⟨rfl, rfl⟩)))
  rw [next_of_exec ht fun _ => rfl] at hcause
  exact absurd hcause (by decide +kernel)

end Sys2Proof
end

section
/-!
SUPPORT. Tasks put on reeds and taken off them: what each step sets, and what the resumption of SUSPENDED tasks and the end of a
SELFTEST leave of the reeds and tasks (R294, R295, R299, R315); checkpoints, moves and restores (R296, R297).
-/

set_option Elab.async false

namespace Sys2Proof.Machine

/-! ## One task or reed -/

theorem Hub.onTask_same (t : Fin 126) (f : Task → Task) (h : Hub) : (h.onTask t f).comp.tasks[t] = f h.comp.tasks[t] := upd_same ..

theorem Hub.onTask_other {t j : Fin 126} (hj : j ≠ t) (f : Task → Task) (h : Hub) :
    (h.onTask t f).comp.tasks[j] = h.comp.tasks[j] := upd_other _ _ _ _ hj

theorem Hub.onReed_same (n : Fin 192) (f : Reed → Reed) (h : Hub) : (h.onReed n f).comp.reeds[n] = f h.comp.reeds[n] := upd_same ..

theorem Hub.onReed_other {n j : Fin 192} (hj : j ≠ n) (f : Reed → Reed) (h : Hub) :
    (h.onReed n f).comp.reeds[j] = h.comp.reeds[j] := upd_other _ _ _ _ hj

theorem raiseReed_comp (b : BitVec 16) (h : Hub) : (raiseReed b h).comp = { h.comp with evt := h.comp.evt.raise b } := by
  rw [raiseReed_irqIf, irqIf_comp]
  rfl

/-- A task put on a reed. -/
theorem seat_task (t : Fin 126) (n : Fin 192) (st : TaskState) (h : Hub) : (seat t n st h).comp.tasks[t] =
    { h.comp.tasks[t] with state := st, reed := some n, away := halfOf n != h.comp.tasks[t].home } := upd_same ..

theorem seat_taskOther {t j : Fin 126} (hj : j ≠ t) (n : Fin 192) (st : TaskState) (h : Hub) :
    (seat t n st h).comp.tasks[j] = h.comp.tasks[j] := upd_other _ _ _ _ hj

theorem seat_reed (t : Fin 126) (n : Fin 192) (st : TaskState) (h : Hub) :
    (seat t n st h).comp.reeds[n] = { h.comp.reeds[n] with state := .running, task := some t } := upd_same ..

theorem seat_reedOther {n j : Fin 192} (hj : j ≠ n) (t : Fin 126) (st : TaskState) (h : Hub) :
    (seat t n st h).comp.reeds[j] = h.comp.reeds[j] := upd_other _ _ _ _ hj

/-- Off its reed a task is as it was but for the reed. -/
theorem unseat_task (t : Fin 126) (h : Hub) : (unseat t h).comp.tasks[t] = { h.comp.tasks[t] with reed := none } := by
  unfold unseat
  split
  · exact Hub.onTask_same ..
  · rename_i hr
    cases hk : h.comp.tasks[t]
    rw [hk] at hr
    rw [← hr]

/-! ## Free reeds -/

theorem Comp.freeIn_free {c : Comp} {s : Side} {n : Fin 192} (hn : n ∈ c.freeIn s) : c.freeReed n = true :=
  (Bool.and_eq_true_iff.mp (List.mem_filter.mp hn).2).2

theorem Comp.placeIn_free {c : Comp} {s : Side} {n : Fin 192} (hn : c.placeIn s = some n) : c.freeReed n = true := by
  unfold Comp.placeIn at hn
  dsimp only at hn
  split at hn
  · exact freeIn_free (List.mem_of_head? hn)
  · cases hn

theorem Comp.placeFor_free {c : Comp} {s : Side} {n : Fin 192} (hn : c.placeFor s = some n) : c.freeReed n = true := by
  unfold Comp.placeFor at hn
  split at hn
  · cases hn
    exact placeIn_free ‹_›
  · exact placeIn_free hn

/-- The choice with the greatest key is one of the list. -/
theorem maxBy_mem {f : Fin 126 → Nat} {l : List (Fin 126)} {t : Fin 126} (ht : maxBy f l = some t) : t ∈ l := by
  have hfold : ∀ (l' : List (Fin 126)) (b : Option (Fin 126)), (∀ u, b = some u → u ∈ l) → (∀ u ∈ l', u ∈ l) →
      ∀ u, l'.foldl (fun b t => match b with
        | none => some t
        | some u => if f u < f t then some t else some u) b = some u → u ∈ l := by
    intro l'
    induction l' with
    | nil => exact fun b hb _ u hu => hb u hu
    | cons x l' ih =>
      intro b hb hl u hu
      refine ih _ (fun w hw => ?_) (fun w hw => hl w (List.mem_cons_of_mem _ hw)) u hu
      dsimp only at hw
      split at hw
      · cases hw
        exact hl _ List.mem_cons_self
      · split at hw
        · cases hw
          exact hl _ List.mem_cons_self
        · cases hw
          exact hb _ rfl
  exact hfold l none (fun _ hc => nomatch hc) (fun _ hu => hu) t ht

theorem toResume_suspended {h : Hub} {t : Fin 126} (ht : h.toResume = some t) : h.comp.tasks[t].state = .suspended :=
  beq_iff_eq.mp (List.mem_filter.mp (maxBy_mem ht)).2

/-! ## What resumption leaves -/

/-- The block without its tasks, reeds and event bits. -/
def Comp.frame (c : Comp) : Comp := { c with reeds := Vector.replicate 192 {}, tasks := Vector.replicate 126 {}, evt := {} }

/-- Of the tasks only SUSPENDED ones, and of the reeds only FREE ones and those under test, may have moved; no event bit is gone. -/
structure Reseats (h t : Hub) : Prop where
  tasks : ∀ k : Fin 126, h.comp.tasks[k].state ≠ .suspended → t.comp.tasks[k] = h.comp.tasks[k]
  reeds : ∀ n : Fin 192, h.comp.freeReed n = false → h.comp.reeds[n].state ≠ .test → t.comp.reeds[n] = h.comp.reeds[n]
  frame : t.comp.frame = h.comp.frame
  evt : ∀ i, h.comp.evt.bits.getLsbD i = true → t.comp.evt.bits.getLsbD i = true

/-- What does not see reeds, tasks and event bits is as it was. -/
theorem Comp.of_frame {β : Type} (F : Comp → β) (hF : ∀ c : Comp, F c.frame = F c) {c d : Comp} (e : d.frame = c.frame) : F d = F c :=
  (hF _).symm.trans ((congrArg F e).trans (hF _))

theorem Comp.freeReed_congr {c d : Comp} {n : Fin 192} (e : d.frame = c.frame) (hn : d.reeds[n] = c.reeds[n]) :
    d.freeReed n = c.freeReed n := by
  unfold Comp.freeReed
  rw [hn, Comp.of_frame (fun x => x.halfOpen (halfOf n)) (fun _ => rfl) e]

theorem Reseats.refl (h : Hub) : Reseats h h := ⟨fun _ _ => rfl, fun _ _ _ => rfl, rfl, fun _ e => e⟩

theorem Reseats.of_comp {h t : Hub} (e : t.comp = h.comp) : Reseats h t :=
  ⟨fun _ _ => by rw [e], fun _ _ _ => by rw [e], by rw [e], fun _ x => by rw [e]; exact x⟩

theorem Reseats.trans {a b c : Hub} (p : Reseats a b) (q : Reseats b c) : Reseats a c where
  tasks k hk := (q.tasks k (by rw [p.tasks k hk]; exact hk)).trans (p.tasks k hk)
  reeds n hf ht := by
    have hn := p.reeds n hf ht
    exact (q.reeds n ((Comp.freeReed_congr p.frame hn).trans hf) (by rw [hn]; exact ht)).trans hn
  frame := q.frame.trans p.frame
  evt i e := q.evt i (p.evt i e)

section
variable {h t : Hub} (r : Reseats h t)
include r

/-- What does not see reeds, tasks and event bits is as it was. -/
theorem Reseats.part {β : Type} (F : Comp → β) (hF : ∀ c : Comp, F c.frame = F c) : F t.comp = F h.comp := Comp.of_frame F hF r.frame

theorem Reseats.power (x : Side) : t.comp.power x = h.comp.power x := r.part (fun c => c.power x) fun _ => rfl
theorem Reseats.warden (x : Side) : t.comp.warden x = h.comp.warden x := r.part (fun c => c.warden x) fun _ => rfl
theorem Reseats.charge : t.comp.charge = h.comp.charge := r.part Comp.charge fun _ => rfl
theorem Reseats.job : t.comp.job = h.comp.job := r.part Comp.job fun _ => rfl
theorem Reseats.cevt : t.comp.cevt = h.comp.cevt := r.part Comp.cevt fun _ => rfl
theorem Reseats.evTasks : t.comp.evTasks = h.comp.evTasks := r.part Comp.evTasks fun _ => rfl

theorem Reseats.inCharge : t.inCharge = h.inCharge := by
  unfold Hub.inCharge
  rw [r.charge, r.part Comp.aState fun _ => rfl, r.part Comp.bState fun _ => rfl]

end

theorem raiseReed_reseats (b : BitVec 16) (h : Hub) : Reseats h (raiseReed b h) := by
  have e := raiseReed_comp b h
  refine ⟨fun _ _ => by rw [e], fun _ _ _ => by rw [e], by rw [e]; rfl, fun i x => ?_⟩
  rw [e]
  exact Evt.raise_keeps _ _ x

/-- A SUSPENDED task put on a FREE reed. -/
theorem seat_reseats {t : Fin 126} {n : Fin 192} {h : Hub} (ht : h.comp.tasks[t].state = .suspended) (hn : h.comp.freeReed n = true)
    (st : TaskState) : Reseats h (seat t n st h) where
  tasks k hk := seat_taskOther (fun e => hk (by rw [e, ht])) ..
  reeds j hj _ := seat_reedOther (fun e => by subst e; rw [hn] at hj; cases hj) ..
  frame := rfl
  evt _ e := e

theorem resumeSome_reseats (m : Nat) (h : Hub) : Reseats h (resumeSome m h) := by
  induction m generalizing h with
  | zero => exact .refl h
  | succ m ih =>
    unfold resumeSome
    split
    · exact .refl h
    · split
      · exact .refl h
      · exact (seat_reseats (toResume_suspended ‹_›) (Comp.placeFor_free ‹_›) _).trans ((raiseReed_reseats ..).trans (ih _))

theorem resumeTasks_reseats (h : Hub) : Reseats h (resumeTasks h) := resumeSome_reseats 126 h

theorem resumeTasks_only (h : Hub) : Only { parts := [.msix, .comp, .bus], tasks := any, reeds := any } h (resumeTasks h) :=
  (resumeTasks_kept (fun _ hp => hp) every every (.refl h)).only

/-- What a move's last step leaves of the descriptors in progress. -/
theorem drainWhenEmpty_parts (h : Hub) : (drainWhenEmpty h).comp.tasks = h.comp.tasks ∧ (drainWhenEmpty h).comp.reeds = h.comp.reeds ∧
    (drainWhenEmpty h).host = h.host ∧ (drainWhenEmpty h).inCharge = h.inCharge ∧ (drainWhenEmpty h).comp.job = h.comp.job := by
  unfold drainWhenEmpty
  split
  · split
    · exact ⟨rfl, rfl, rfl, rfl, rfl⟩
    · exact ⟨rfl, rfl, rfl, rfl, rfl⟩
  · exact ⟨rfl, rfl, rfl, rfl, rfl⟩

/-! ## Checkpoints and moves (R296, R315) -/

theorem checkpointWrite_due {t : Fin 126} {size : Nat} {whole : Bool} {h : Hub} (hr : h.runs = true)
    (hs : h.comp.tasks[t].state = .running ∨ h.comp.tasks[t].state = .moving) (hn : size ≤ 4096) :
    checkpointWrite t size whole h = h.onTask t fun k =>
      { k with img := ({ time := h.houseShort, at_ := h.nomFu, size, valid := whole, mem := h.taskMem t } :: k.img).take 2
               written := k.written + 1 } := by
  have hw : h.comp.tasks[t].state.works = true := by rcases hs with hs | hs <;> rw [hs] <;> rfl
  unfold checkpointWrite
  rw [hr, hw, decide_eq_true hn, Bool.and_self, Bool.and_self, when_true]

/-- The task off its source reed. -/
def moveLeft (t : Fin 126) (h : Hub) : Hub := (unseat t h).onTask t fun k => { k with target := none, desc := none }

/-- The source reed under test, where a SELFTEST has asked for the move. -/
def sourceKept (source : Option (Fin 192)) (h : Hub) : Hub :=
  match source with
  | some r => if h.testing 0 r then h.onReed r fun x => { x with state := .test } else h
  | none => h

/-- A move made: the task runs on the target, and SUSPENDED tasks find the reeds that are free. -/
def moved (t : Fin 126) (n : Fin 192) (h : Hub) : Hub :=
  drainWhenEmpty (resumeTasks (seat t n .running (sourceKept h.comp.tasks[t].reed (moveLeft t h))))

theorem taskMoveAtCheckpoint_due {t : Fin 126} {n : Fin 192} {h : Hub} (hs : h.comp.tasks[t].state = .moving)
    (ht : h.comp.tasks[t].target = some n) (hr : h.runs = true) : taskMoveAtCheckpoint t h =
    match h.comp.tasks[t].desc with
    | some i => completeWith i .ok (resultOf [(0, 8, n)]) (moved t n h)
    | none => moved t n h := by
  unfold taskMoveAtCheckpoint
  rw [hs, ht]
  exact if_pos hr

theorem sourceKept_parts (source : Option (Fin 192)) (h : Hub) : (sourceKept source h).comp.tasks = h.comp.tasks ∧
    (sourceKept source h).host = h.host ∧ (sourceKept source h).inCharge = h.inCharge := by
  unfold sourceKept
  split
  · split
    · exact ⟨rfl, rfl, rfl⟩
    · exact ⟨rfl, rfl, rfl⟩
  · exact ⟨rfl, rfl, rfl⟩

theorem unseat_parts (t : Fin 126) (h : Hub) : (unseat t h).host = h.host ∧ (unseat t h).inCharge = h.inCharge := by
  unfold unseat
  split <;> exact ⟨rfl, rfl⟩

/-- What a move made shows. -/
theorem moved_shows (t : Fin 126) (n : Fin 192) (h : Hub) : (moved t n h).comp.tasks[t].state = .running ∧
    (moved t n h).comp.tasks[t].reed = some n ∧ (moved t n h).comp.tasks[t].target = none ∧
    (moved t n h).comp.reeds[n].state = .running ∧ (moved t n h).comp.reeds[n].task = some t ∧
    (moved t n h).host.inflight = h.host.inflight ∧ (moved t n h).inCharge = h.inCharge := by
  obtain ⟨hu1, hu2⟩ := unseat_parts t h
  obtain ⟨hk1, hk2, hk3⟩ := sourceKept_parts h.comp.tasks[t].reed (moveLeft t h)
  have htarget : (sourceKept h.comp.tasks[t].reed (moveLeft t h)).comp.tasks[t].target = none := by
    rw [hk1]
    exact congrArg Task.target (Hub.onTask_same ..)
  unfold moved
  generalize sourceKept h.comp.tasks[t].reed (moveLeft t h) = g at hk1 hk2 hk3 htarget
  obtain ⟨hd1, hd2, hd3, hd4, -⟩ := drainWhenEmpty_parts (resumeTasks (seat t n .running g))
  have r := resumeTasks_reseats (seat t n .running g)
  have htask : (resumeTasks (seat t n .running g)).comp.tasks[t] = (seat t n .running g).comp.tasks[t] :=
    r.tasks t (by rw [seat_task]; exact fun hc => nomatch hc)
  have hreed : (resumeTasks (seat t n .running g)).comp.reeds[n] = (seat t n .running g).comp.reeds[n] := by
    refine r.reeds n ?_ (by rw [seat_reed]; exact fun hc => nomatch hc)
    unfold Comp.freeReed
    rw [seat_reed]
    rfl
  have hbooks := (resumeTasks_only (seat t n .running g)).books.resolve_left (by decide)
  rw [hd1, hd2, hd3, hd4, htask, hreed, seat_task, seat_reed]
  refine ⟨rfl, rfl, htarget, rfl, rfl, (congrArg (fun x => x.1) hbooks).trans ?_, r.inCharge.trans (hk3.trans hu2)⟩
  exact (congrArg HostIf.inflight hk2).trans (congrArg HostIf.inflight hu1)

/-! ## Restores (R297, R299) -/

theorem restorable_newer {k : Task} {i : Image} {rest : List Image} {bad1 : Bool} (hi : k.img = i :: rest) (hv : i.valid = true) :
    k.restorable false bad1 = some i := by
  unfold Task.restorable
  rw [hi]
  dsimp only [List.head?_cons, Option.filter_some]
  rw [if_pos hv]
  rfl

theorem restorable_older {k : Task} {i j : Image} {rest : List Image} {bad0 : Bool} (hi : k.img = i :: j :: rest)
    (hv : i.valid = false ∨ bad0 = true) (hj : j.valid = true) : k.restorable bad0 false = some j := by
  have htwo : Option.filter (fun x : Image => x.valid) (List.drop 1 (i :: j :: rest)).head? = some j :=
    (Option.filter_some ..).trans (if_pos hj)
  unfold Task.restorable
  rw [hi]
  dsimp only [List.head?_cons]
  rw [htwo, Option.filter_some]
  cases hiv : i.valid
  · rfl
  · obtain rfl : bad0 = true := hv.resolve_left (by rw [hiv]; decide)
    rfl

/-- The messages of a restore that meets images with errors. -/
def unreadableSent (n : Nat) (h : Hub) : Hub := forEach (List.range n) (fun _ h => sendFault srcCkpt .eccUe accRead mInternal 0 h) h

/-- The task that a restore has resumed, warm or cold. -/
def resumed (t : Fin 126) (img : Option Image) (h : Hub) : Hub :=
  h.onTask t fun k => { k with state := .running, desc := none, cold := img.isNone, img := if img.isNone then [] else k.img }

theorem resumed_evTasks (t : Fin 126) (img : Option Image) (h : Hub) : (resumed t img h).comp.evTasks = h.comp.evTasks := rfl

/-- The completion of the descriptor that waited for the task. -/
def taskCompleted (k : Task) (h : Hub) : Hub :=
  match k.desc with
  | some i => completeWith i .ok (resultOf [(0, 8, reedByte k.reed)]) h
  | none => h

/-- A restore up to the memory that is loaded. -/
def restoreBegun (t : Fin 126) (bad0 bad1 : Bool) (h : Hub) : Hub :=
  taskCompleted h.comp.tasks[t] (resumed t (h.comp.tasks[t].restorable bad0 bad1)
    (unreadableSent (h.comp.tasks[t].unreadable bad0 bad1) h))

theorem taskRestored_warm {t : Fin 126} {bad0 bad1 : Bool} {h : Hub} {i : Image} (hr : h.runs = true)
    (hs : h.comp.tasks[t].state = .restoring) (hi : h.comp.tasks[t].restorable bad0 bad1 = some i) : taskRestored t bad0 bad1 h =
    restoreMem t ((restoreBegun t bad0 bad1 h).nomFu - i.at_) i.mem (restoreBegun t bad0 bad1 h) := by
  have hbeq : (h.comp.tasks[t].state == TaskState.restoring) = true := beq_iff_eq.mpr hs
  unfold taskRestored
  rw [hr, hbeq, Bool.and_self, if_pos rfl]
  unfold restoreBegun
  dsimp only
  rw [hi]
  rfl

theorem taskRestored_cold {t : Fin 126} {bad0 bad1 : Bool} {h : Hub} (hr : h.runs = true)
    (hs : h.comp.tasks[t].state = .restoring) (hi : h.comp.tasks[t].restorable bad0 bad1 = none) :
    taskRestored t bad0 bad1 h = coldStart t (restoreBegun t bad0 bad1 h) := by
  have hbeq : (h.comp.tasks[t].state == TaskState.restoring) = true := beq_iff_eq.mpr hs
  unfold taskRestored
  rw [hr, hbeq, Bool.and_self, if_pos rfl]
  unfold restoreBegun
  dsimp only
  rw [hi]
  rfl

theorem unreadable_le (k : Task) (bad0 bad1 : Bool) : k.unreadable bad0 bad1 ≤ 2 := by
  unfold Task.unreadable
  split
  · split
    · split <;> decide
    · decide
  · cases bad0 <;> decide
  · cases bad1 <;> decide
  · decide

/-- From h to t no more than messages and completions have come. -/
structure Tells (h t : Hub) : Prop where
  clk : t.clk = h.clk
  links : t.links = h.links
  refs : t.refs = h.refs
  doms : t.doms = h.doms
  comp : t.comp = h.comp

theorem Tells.refl (h : Hub) : Tells h h := ⟨rfl, rfl, rfl, rfl, rfl⟩

theorem Tells.trans {a b c : Hub} (p : Tells a b) (q : Tells b c) : Tells a c :=
  ⟨q.clk.trans p.clk, q.links.trans p.links, q.refs.trans p.refs, q.doms.trans p.doms, q.comp.trans p.comp⟩

theorem unreadableSent_tells (n : Nat) (h : Hub) : Tells h (unreadableSent n h) := by
  have o : Only { parts := [.msix, .collector, .fltEvt, .bus] } h (unreadableSent n h) :=
    (forEach_kept (.refl h) fun _ _ k => sendFault_kept (fun _ hp => hp) k).only
  exact ⟨o.eq_clk (by decide) (by decide), o.eq_links fun _ hk => hk, o.eq_refs fun _ hk => hk, o.eq_doms fun _ hk => hk,
    o.eq_comp (by decide) (fun _ hk => hk) (fun _ hk => hk) fun _ hk => hk⟩

theorem sendFault_room_le (src : Nat) (k : Kind) (acc ms ad : Nat) (h : Hub) :
    (sendFault src k acc ms ad h).flt.queue.length ≤ h.flt.queue.length + 1 := by
  unfold sendFault
  split
  · dsimp only
    split
    · exact Nat.le_of_eq List.length_append
    · rw [raiseFlt_flt]
      exact Nat.le_succ _
  · exact Nat.le_succ _

theorem unreadableSent_room (n : Nat) (h : Hub) : (unreadableSent n h).flt.queue.length ≤ h.flt.queue.length + n := by
  have hlist : ∀ (l : List Nat) (g : Hub), (forEach l (fun _ h => sendFault srcCkpt .eccUe accRead mInternal 0 h) g).flt.queue.length ≤
      g.flt.queue.length + l.length := by
    intro l
    induction l with
    | nil => exact fun g => le_rfl
    | cons x l ih =>
      intro g
      have hg := sendFault_room_le srcCkpt .eccUe accRead mInternal 0 g
      have hl := ih (sendFault srcCkpt .eccUe accRead mInternal 0 g)
      rw [forEach_cons, List.length_cons]
      omega
  have h0 := hlist (List.range n) h
  rw [List.length_range] at h0
  exact h0

theorem taskCompleted_tells (k : Task) (h : Hub) : Tells h (taskCompleted k h) := by
  unfold taskCompleted
  split
  · exact ⟨completeWith_clk .., completeWith_links .., completeWith_refs .., completeWith_doms .., completeWith_comp ..⟩
  · exact .refl h

theorem taskCompleted_flt (k : Task) (h : Hub) : (taskCompleted k h).flt = h.flt := by
  unfold taskCompleted
  split
  · exact completeWith_flt ..
  · rfl

theorem taskCompleted_runs (k : Task) (h : Hub) : (taskCompleted k h).runs = h.runs := by
  unfold taskCompleted
  split
  · exact Hub.runs_congr (completeWith_top ..)
  · rfl

/-- What a restore has done before memory is loaded. -/
theorem restoreBegun_shows (t : Fin 126) (bad0 bad1 : Bool) (h : Hub) : ∃ g : Hub, Tells h g ∧
    Tells (resumed t (h.comp.tasks[t].restorable bad0 bad1) g) (restoreBegun t bad0 bad1 h) ∧
    (restoreBegun t bad0 bad1 h).flt.queue.length ≤ h.flt.queue.length + 2 ∧ (restoreBegun t bad0 bad1 h).runs = h.runs := by
  have hrun : (unreadableSent (h.comp.tasks[t].unreadable bad0 bad1) h).runs = h.runs := by
    refine Hub.runs_congr ?_
    have o : Only { parts := [.msix, .collector, .fltEvt, .bus] } h (unreadableSent (h.comp.tasks[t].unreadable bad0 bad1) h) :=
      (forEach_kept (.refl h) fun _ _ k => sendFault_kept (fun _ hp => hp) k).only
    exact o.eq_top (by decide) (by decide)
  refine ⟨_, unreadableSent_tells _ h, taskCompleted_tells .., ?_, (taskCompleted_runs ..).trans hrun⟩
  have hroom := unreadableSent_room (h.comp.tasks[t].unreadable bad0 bad1) h
  have hle := unreadable_le h.comp.tasks[t] bad0 bad1
  unfold restoreBegun
  rw [taskCompleted_flt]
  exact hroom.trans (by omega)

/-! ## Memory loaded (R297, R299) -/

theorem finOf_val {n i : Nat} {k : Fin n} (e : i = k.val) : finOf n i = some k := by
  subst e
  exact dif_pos k.isLt

theorem finOf_none {n i : Nat} (e : n ≤ i) : finOf n i = none := dif_neg (Nat.not_lt.mpr e)

theorem restoreMem_link {t : Nat} {n : Fin 48} (ht : t = n.val) (gone : Int) (l : Link) (h : Hub) :
    restoreMem t gone (.link l) h = h.onLink n (Link.restore l) := by
  unfold restoreMem
  dsimp only
  rw [finOf_val ht]

theorem restoreMem_ref {t : Nat} {n : Fin 12} (ht : t = 48 + n.val) (gone : Int) (r : RefSlot) (h : Hub) :
    restoreMem t gone (.ref r) h = h.onRef n (RefSlot.restore r) := by
  unfold restoreMem
  dsimp only
  rw [finOf_val (n := 12) (k := n) (by omega)]

theorem restoreMem_dom {t : Nat} {n : Fin 16} (ht : t = 60 + n.val) (gone : Int) (d : Dom) (h : Hub) :
    (restoreMem t gone (.dom d) h).doms[n] = Dom.restore gone d h.doms[n] := by
  unfold restoreMem
  dsimp only
  rw [finOf_val (n := 16) (k := n) (by omega)]
  exact upd_same ..

theorem restoreMem_event {t : Nat} {n : Fin 32} (ht : t = 76 + n.val) (gone : Int) (e : EvTask) (h : Hub) :
    restoreMem t gone (.event e) h = h.onEvTask n (EvTask.restore e) := by
  unfold restoreMem
  dsimp only
  rw [finOf_val (n := 32) (k := n) (by omega)]

/-- Memory loaded is nothing to the tasks. -/
theorem restoreMem_tasks (t : Nat) (gone : Int) (m : TaskMem) (h : Hub) : (restoreMem t gone m h).comp.tasks = h.comp.tasks :=
  (restoreMem_kept (A := { refs := any, doms := any, links := any, evTasks := any }) every every every every (.refl h)).only.eq_tasks
    fun _ hk => hk

/-! ## A cold start (R297) -/

/-- TASK_FAIL of a task and what it sets. -/
theorem taskFail_enters {reed : Option (Fin 192)} {t : Fin 126} {cause : Nat} {h : Hub} (hr : h.runs = true)
    (hq : h.flt.queue.length < 64) (hc : cause < 256) : ∃ m, (taskFail reed (some t) cause h).flt.queue = h.flt.queue ++ [m] ∧
      m.msg.kind = .taskFail ∧ m.msg.address = BitVec.ofNat 32 (t.val * 2 ^ 16 + cause) := by
  have haddr : at_ 16 8 t.val + at_ 0 8 cause = t.val * 2 ^ 16 + cause := by
    unfold at_
    rw [Nat.mod_eq_of_lt (by omega : t.val < 2 ^ 8), Nat.mod_eq_of_lt (by omega : cause < 2 ^ 8)]
    omega
  unfold taskFail
  cases reed with
  | none =>
    obtain ⟨m, hm, hmsg⟩ := sendFault_enters (srcReed 0) .taskFail accNone (if cause ≤ 4 then mInternal else h.chargeCode)
      (at_ 16 8 t.val + at_ 0 8 cause) (g := h) (h := h) rfl rfl hr hq
    refine ⟨m, hm, by rw [hmsg]; rfl, ?_⟩
    rw [hmsg, ← haddr]
    rfl
  | some n =>
    obtain ⟨m, hm, hmsg⟩ := sendFault_enters (srcReed n) .taskFail accNone (if cause ≤ 4 then mInternal else h.chargeCode)
      (at_ 16 8 t.val + at_ 0 8 cause) (g := h.onReed n fun r => { r with lastCause := BitVec.ofNat 8 cause }) (h := h) rfl rfl hr hq
    refine ⟨m, hm, by rw [hmsg]; rfl, ?_⟩
    rw [hmsg, ← haddr]
    rfl

theorem taskFail_comp (reed : Option (Fin 192)) (t : Option (Fin 126)) (cause : Nat) (h : Hub) :
    (taskFail reed t cause h).comp.tasks = h.comp.tasks ∧ (taskFail reed t cause h).comp.evTasks = h.comp.evTasks ∧
    (taskFail reed t cause h).comp.evt = h.comp.evt := by
  unfold taskFail
  extract_lets n k g
  have hg : g.comp.tasks = h.comp.tasks ∧ g.comp.evTasks = h.comp.evTasks ∧ g.comp.evt = h.comp.evt := by
    unfold g
    cases reed <;> exact ⟨rfl, rfl, rfl⟩
  rw [sendFault_comp]
  exact hg

/-- What of the work a cold start begins anew, without its message. -/
def coldWork (t : Fin 126) (h : Hub) : Hub :=
  match taskKind t, finOf 16 (t.val - 60) with
  | 3, some m => enterNominal m h
  | 6, _ => if h.taskRuns (if t.val = 124 then 125 else 124) then h else h.onHier Hier.forget
  | _, _ => h

theorem coldStart_eq (t : Fin 126) (h : Hub) :
    coldStart t h = coldWork t (raiseReed (bit16 4) (taskFail h.comp.tasks[t].reed (some t) 7 (forgetTask t h))) := by
  unfold coldStart coldWork
  generalize raiseReed (bit16 4) (taskFail h.comp.tasks[t].reed (some t) 7 (forgetTask t h)) = g
  generalize taskKind t = kind
  generalize finOf 16 (t.val - 60) = m
  rfl

/-- The work begun anew is nothing to tasks, messages and reeds' events. -/
theorem coldWork_leaves (t : Fin 126) (h : Hub) : (coldWork t h).comp = h.comp ∧ (coldWork t h).flt = h.flt := by
  unfold coldWork
  split
  · rename_i m _ _
    have o : Only { parts := [.msix, .bus], refs := any, doms := any } h (enterNominal m h) :=
      (enterNominal_kept (fun _ hp => hp) every trivial (.refl h)).only
    exact ⟨o.eq_comp (by simp) (fun _ hk => hk) (fun _ hk => hk) fun _ hk => hk, o.eq_flt (by simp) (by simp) (by simp)⟩
  · generalize h.taskRuns _ = b
    cases b <;> exact ⟨rfl, rfl⟩
  · exact ⟨rfl, rfl⟩

theorem forgetTask_leaves (t : Nat) (h : Hub) : (forgetTask t h).comp.tasks = h.comp.tasks ∧ (forgetTask t h).flt = h.flt ∧
    (forgetTask t h).top = h.top := by
  unfold forgetTask
  split
  · exact ⟨rfl, rfl, rfl⟩
  · exact ⟨rfl, rfl, rfl⟩
  · split <;> exact ⟨rfl, rfl, rfl⟩
  · exact ⟨rfl, rfl, rfl⟩

theorem forgetTask_event {t : Nat} {n : Fin 32} (ht : t = 76 + n.val) (h : Hub) : forgetTask t h = h.onEvTask n EvTask.forget := by
  unfold forgetTask
  rw [finOf_none (by omega), finOf_none (by omega), finOf_val (n := 32) (k := n) (by omega)]
  exact if_pos (by omega)

end Sys2Proof.Machine

namespace Sys2Proof

open Machine

/-- Settles O26: a move's steps after its task is seated leave it seated; a restore loads one image, or starts the task cold. -/
theorem checkpointsMovesRestores : Obligations.CheckpointsMovesRestores := by
  unfold Obligations.CheckpointsMovesRestores
  refine fun s k hr => ⟨fun size whole hs hn => ?checkpoint, fun n hs ht => ?move,
    fun bad0 bad1 hs => ⟨fun i j rest => ⟨fun hi hv hb => ?newer, fun hi hv hj hb => ?older⟩, fun i hi => ?warm, fun hi hq => ?cold⟩⟩
  case checkpoint =>
    exact ⟨_, exec_run (fun _ => rfl) (checkpointWrite_due hr hs hn), Hub.onTask_same .., fun j hj => Hub.onTask_other hj ..⟩
  case newer =>
    subst hb
    exact restorable_newer hi hv
  case older =>
    subst hb
    exact restorable_older hi hv hj
  case move =>
    have heff := taskMoveAtCheckpoint_due (h := s.toHub) hs ht hr
    obtain ⟨h1, h2, h3, h4, h5, hin, hch⟩ := moved_shows k n s.toHub
    generalize moved k n s.toHub = g at heff h1 h2 h3 h4 h5 hin hch
    refine ⟨_, exec_run (fun _ => rfl) heff, ?_⟩
    dsimp only
    cases hd : s.comp.tasks[k].desc
    case none => exact ⟨h1, h2, h3, h4, h5, fun _ _ _ _ hc => nomatch hc⟩
    case some id =>
      dsimp only
      rw [completeWith_comp]
      refine ⟨h1, h2, h3, h4, h5, fun e q hc hi he hm ho hx => ?_⟩
      cases he
      exact completeWith_posted_after hc hi hm ho hx hin hch _ _
  case warm =>
    have heff := taskRestored_warm (h := s.toHub) hr hs hi
    obtain ⟨g0, ht0, ht1, -, -⟩ := restoreBegun_shows k bad0 bad1 s.toHub
    generalize restoreBegun k bad0 bad1 s.toHub = g at heff ht1
    rw [hi] at ht1
    have htask : g.comp.tasks[k] = { s.comp.tasks[k] with state := .running, desc := none, cold := false } := by
      rw [ht1.comp]
      refine (Hub.onTask_same ..).trans ?_
      rw [ht0.comp]
      rfl
    have hnom : g.nomFu = s.nomFu := by
      unfold Hub.nomFu
      rw [ht1.clk]
      exact congrArg (fun c : Clk => c.nomTime.fdiv fuU) ht0.clk
    rw [hnom] at heff
    refine ⟨_, exec_run (fun _ => rfl) heff, ?_⟩
    have hkept := restoreMem_tasks k.val (s.nomFu - i.at_) i.mem g
    dsimp only
    rw [hkept, htask]
    refine ⟨rfl, rfl, rfl, fun n l hn hm => ?_, fun n r hn hm => ?_, fun n d hn hm => ?_, fun n e hn hm => ?_⟩
    · rw [hm, restoreMem_link hn]
      refine (upd_same ..).trans ?_
      rw [ht1.links]
      exact congrArg (fun v : Vector Link 48 => Link.restore l v[n]) ht0.links
    · rw [hm, restoreMem_ref hn]
      refine (upd_same ..).trans ?_
      rw [ht1.refs]
      exact congrArg (fun v : Vector RefSlot 12 => RefSlot.restore r v[n]) ht0.refs
    · rw [hm, restoreMem_dom hn, ht1.doms]
      exact congrArg (fun v : Vector Dom 16 => Dom.restore (s.nomFu - i.at_) d v[n]) ht0.doms
    · rw [hm, restoreMem_event hn]
      refine (upd_same ..).trans ?_
      rw [ht1.comp]
      exact congrArg (fun v : Vector EvTask 32 => EvTask.restore e v[n])
        ((resumed_evTasks ..).trans (congrArg Comp.evTasks ht0.comp))
  case cold =>
    have heff := taskRestored_cold (h := s.toHub) hr hs hi
    obtain ⟨g0, ht0, ht1, hroom, hrun⟩ := restoreBegun_shows k bad0 bad1 s.toHub
    generalize restoreBegun k bad0 bad1 s.toHub = g at heff ht1 hroom hrun
    rw [hi] at ht1
    have htask : g.comp.tasks[k] = { s.comp.tasks[k] with state := .running, desc := none, cold := true, img := [] } := by
      rw [ht1.comp]
      refine (Hub.onTask_same ..).trans ?_
      rw [ht0.comp]
      rfl
    rw [coldStart_eq] at heff
    obtain ⟨hf1, hf2, hf3⟩ := forgetTask_leaves k.val g
    obtain ⟨m, hm, hkind, haddr⟩ := taskFail_enters (reed := g.comp.tasks[k].reed) (t := k) (cause := 7) (h := forgetTask k.val g)
      ((Hub.runs_congr hf3).trans (hrun.trans hr)) (by rw [hf2]; omega) (by decide)
    obtain ⟨hc1, hc2, hc3⟩ := taskFail_comp g.comp.tasks[k].reed (some k) 7 (forgetTask k.val g)
    have hraise := raiseReed_comp (bit16 4) (taskFail g.comp.tasks[k].reed (some k) 7 (forgetTask k.val g))
    have hflt : (raiseReed (bit16 4) (taskFail g.comp.tasks[k].reed (some k) 7 (forgetTask k.val g))).flt =
      (taskFail g.comp.tasks[k].reed (some k) 7 (forgetTask k.val g)).flt := irqIf_flt ..
    generalize taskFail g.comp.tasks[k].reed (some k) 7 (forgetTask k.val g) = g2 at heff hm hc1 hc2 hc3 hraise hflt
    generalize raiseReed (bit16 4) g2 = g3 at heff hraise hflt
    obtain ⟨hw1, hw2⟩ := coldWork_leaves k g3
    refine ⟨_, exec_run (fun _ => rfl) heff, ?_⟩
    dsimp only
    rw [hw1, hw2, hraise]
    dsimp only
    rw [hc1, hf1, htask]
    refine ⟨rfl, rfl, rfl, Evt.raise_bit16 _ (by decide), fun n hn => ?_, m, ?_, hkind, haddr⟩
    · rw [hc2, forgetTask_event hn]
      refine (upd_same ..).trans ?_
      rw [ht1.comp]
      exact congrArg (fun v : Vector EvTask 32 => v[n].forget)
        ((resumed_evTasks ..).trans (congrArg Comp.evTasks ht0.comp))
    · rw [hflt, hm]
      exact List.mem_append_right _ List.mem_cons_self

end Sys2Proof
end

section
/-!
SUPPORT. What assigning, moving and creating tasks leaves of their class, home and rank (R292 to R295, R316), and the records of an
EVENT task (R318 to R320).
-/

set_option Elab.async false

namespace Sys2Proof.Machine

/-! ## Class, home and rank -/

/-- What TASK_ASSIGN sets of a task (R316). -/
def Task.name (k : Task) : BitVec 2 × Side × Byte := (k.cls, k.home, k.rank)

/-- Every task keeps its class, home and rank. -/
structure Named (h t : Hub) : Prop where
  name : ∀ j : Fin 126, t.comp.tasks[j].name = h.comp.tasks[j].name

theorem Named.refl (h : Hub) : Named h h := ⟨fun _ => rfl⟩

theorem Named.trans {a b c : Hub} (p : Named a b) (q : Named b c) : Named a c := ⟨fun i => (q.name i).trans (p.name i)⟩

theorem Named.of_tasks {h t : Hub} (e : t.comp.tasks = h.comp.tasks) : Named h t := ⟨fun _ => by rw [e]⟩

theorem Hub.onTask_named (t : Fin 126) (f : Task → Task) (h : Hub)
    (hf : ∀ x, (f x).name = x.name := by exact fun _ => rfl) : Named h (h.onTask t f) :=
  ⟨fun _ => upd_keeps Task.name hf ..⟩

theorem Hub.onReed_named (n : Fin 192) (f : Reed → Reed) (h : Hub) : Named h (h.onReed n f) := .of_tasks rfl

section
variable (t : Fin 126) (h : Hub)

theorem unseat_named : Named h (unseat t h) := by
  unfold unseat
  split
  · exact (Hub.onReed_named ..).trans (Hub.onTask_named t _ _)
  · exact .refl h

theorem seat_named (n : Fin 192) (st : TaskState) : Named h (seat t n st h) :=
  (Hub.onReed_named ..).trans (Hub.onTask_named t _ _)

theorem raiseReed_named (b : BitVec 16) : Named h (raiseReed b h) := .of_tasks (by rw [raiseReed_comp])

theorem taskFail_named (reed : Option (Fin 192)) (u : Option (Fin 126)) (cause : Nat) : Named h (taskFail reed u cause h) :=
  .of_tasks (taskFail_comp reed u cause h).1

theorem forgetTask_named (u : Nat) : Named h (forgetTask u h) := .of_tasks (forgetTask_leaves u h).1

theorem completeWith_named (id : Nat) (st : Status) (r : BitVec 192) : Named h (completeWith id st r h) :=
  .of_tasks (by rw [completeWith_comp])

theorem shed_named : Named h (shed t h) := by
  have hcount : ∀ g, Named g (Hub.onComp (fun c => { c with shedCnt := satAdd 65535 c.shedCnt 1 }) g) := fun _ => .of_tasks rfl
  unfold shed
  exact (forgetTask_named ..).trans ((unseat_named ..).trans ((Hub.onTask_named t _ _).trans ((hcount _).trans
    ((taskFail_named ..).trans (raiseReed_named ..)))))

theorem suspend_named : Named h (suspend t h) := by
  unfold suspend
  exact (unseat_named ..).trans ((Hub.onTask_named t _ _).trans ((taskFail_named ..).trans (raiseReed_named ..)))

theorem placeTask_named (st : TaskState) : Named h (placeTask t st h) := by
  unfold placeTask
  dsimp only
  split
  · exact seat_named ..
  · split
    · exact Hub.onTask_named t _ h
    · split
      · split
        · exact (shed_named ..).trans (seat_named ..)
        · exact suspend_named ..
      · exact suspend_named ..

theorem createTask_named : Named h (createTask t h) := by
  unfold createTask
  rw [finOf_val rfl]
  dsimp only
  split
  case h_1 | h_2 => exact (Hub.onTask_named t _ h).trans ((placeTask_named ..).trans (Hub.onTask_named t _ _))
  all_goals exact .refl h

theorem startMove_named (n : Fin 192) (id : Option Nat) : Named h (startMove t n id h) :=
  (Hub.onReed_named ..).trans (Hub.onTask_named t _ _)

theorem resumeSome_named (m : Nat) : Named h (resumeSome m h) := by
  induction m generalizing h with
  | zero => exact .refl h
  | succ m ih =>
    unfold resumeSome
    split
    · exact .refl h
    · split
      · exact .refl h
      · exact (seat_named ..).trans ((raiseReed_named ..).trans (ih _))

end

/-! ## A task removed (R292, R301) -/

/-- A task without the reed promised to its move. -/
def moveDropped (t : Fin 126) (h : Hub) : Hub :=
  match h.comp.tasks[t].target with
  | some n => h.onReed n fun r => { r with task := none }
  | none => h

theorem moveDropped_tasks (t : Fin 126) (h : Hub) : (moveDropped t h).comp.tasks = h.comp.tasks := by
  unfold moveDropped
  split <;> rfl

theorem completeOpt_comp (id : Option Nat) (st : Status) (h : Hub) : (completeOpt id st h).comp = h.comp := by
  unfold completeOpt
  split
  · exact completeWith_comp ..
  · rfl

/-- The task removed, before the reeds that are free are taken. -/
def taskRemoved (t : Fin 126) (h : Hub) : Hub :=
  (unseat t (forgetTask t (completeOpt (moveDropped t h).comp.tasks[t].desc .aborted
    ((moveDropped t h).onTask t fun k => { k with desc := none })))).onTask t fun k =>
      { k with state := .unplaced, img := [], written := 0, target := none, away := false, cold := false }

theorem removeTask_eq (t : Fin 126) (h : Hub) : removeTask t h = resumeTasks (taskRemoved t h) := by
  unfold removeTask
  rw [finOf_val rfl]
  rfl

theorem taskRemoved_task (t : Fin 126) (h : Hub) : (taskRemoved t h).comp.tasks[t].state = .unplaced ∧
    (taskRemoved t h).comp.tasks[t].reed = none := by
  unfold taskRemoved
  rw [Hub.onTask_same, unseat_task]
  exact ⟨rfl, rfl⟩

theorem removeTask_task (t : Fin 126) (h : Hub) : (removeTask t h).comp.tasks[t].state = .unplaced ∧
    (removeTask t h).comp.tasks[t].reed = none := by
  obtain ⟨hs, hr⟩ := taskRemoved_task t h
  rw [removeTask_eq, (resumeTasks_reseats _).tasks t (by rw [hs]; exact fun hc => nomatch hc)]
  exact ⟨hs, hr⟩

theorem removeTask_named (t : Fin 126) (h : Hub) : Named h (removeTask t h) := by
  have hdone : ∀ id g, Named g (completeOpt id .aborted g) := fun id g => .of_tasks (by rw [completeOpt_comp])
  rw [removeTask_eq]
  unfold taskRemoved resumeTasks
  exact (Named.of_tasks (moveDropped_tasks t h)).trans ((Hub.onTask_named t _ _).trans ((hdone ..).trans
    ((forgetTask_named ..).trans ((unseat_named ..).trans ((Hub.onTask_named t _ _).trans (resumeSome_named ..))))))

/-! ## TASK_ASSIGN (R316) -/

/-- The task with its class, home and rank set. -/
def assigned (k : Fin 126) (p : Payload) (h : Hub) : Hub :=
  h.onTask k fun x => { x with cls := BitVec.ofNat 2 (pf p 1 6 2), home := if pb p 1 5 then .b else .a, rank := BitVec.ofNat 8 (pf p 2 0 8) }

/-- Where an EVENT task that stands already goes on: a new span, and a move where a reed is named. -/
def assignRestart (d : Desc) (t : Fin 126) (k : Task) (h : Hub) : Hub :=
  let h' := forgetTask t h
  match finOf 192 (pf d.payload 3 0 8) with
  | some n => if k.isRunning then
      let h' := startMove t n none h'
      completeWith d.id .ok (taskResult h' t) h'
    else completeWith d.id .ok (taskResult h' t) h'
  | none => completeWith d.id .ok (taskResult h' t) h'

/-- An EVENT task created. -/
def assignCreate (d : Desc) (t : Fin 126) (h : Hub) : Hub :=
  let h' := createTask t h
  let h' := match finOf 192 (pf d.payload 3 0 8) with
    | some n => if (h'.comp.tasks[t]).isRunning && h'.comp.freeReed n then startMove t n none h' else h'
    | none => h'
  if (h'.comp.tasks[t]).isShed then completeWith d.id .noResource (taskResult h' t) h'
  else completeWith d.id .ok (taskResult h' t) h'

/-- Any other task: named again where it was shed, and moved where a reed is named. -/
def assignPlain (d : Desc) (t : Fin 126) (k : Task) (h : Hub) : Hub :=
  let h' := if pb d.payload 1 4 && k.isShed then createTask t h else h
  match finOf 192 (pf d.payload 3 0 8) with
  | some n =>
    let h' := if k.isRunning then startMove t n none h' else h'
    completeWith d.id .ok (taskResult h' t) h'
  | none => completeWith d.id .ok (taskResult h' t) h'

/-- What an accepted TASK_ASSIGN does beyond class, home and rank. -/
def assignRest (d : Desc) (t : Fin 126) (k : Task) (h : Hub) : Hub :=
  if taskKind t = 4 ∧ !pb d.payload 1 4 then completeWith d.id .ok (taskResult (removeTask t h) t) (removeTask t h)
  else if pb d.payload 1 4 && taskKind t == 4 then
    match k.state with
    | .running | .moving | .restoring | .suspended => assignRestart d t k h
    | .unplaced | .shed => assignCreate d t h
  else assignPlain d t k h

section
variable (d : Desc) (t : Fin 126) (k : Task) (h : Hub)

theorem assignRestart_named : Named h (assignRestart d t k h) := by
  unfold assignRestart
  extract_lets g
  have hg : Named h g := forgetTask_named ..
  split
  · split
    · exact hg.trans ((startMove_named ..).trans (completeWith_named ..))
    · exact hg.trans (completeWith_named ..)
  · exact hg.trans (completeWith_named ..)

theorem assignCreate_named : Named h (assignCreate d t h) := by
  unfold assignCreate
  extract_lets g g2
  have hg : Named h g := createTask_named ..
  have hg2 : Named g g2 := by
    unfold g2
    split
    · split
      · exact startMove_named ..
      · exact .refl g
    · exact .refl g
  split
  · exact hg.trans (hg2.trans (completeWith_named ..))
  · exact hg.trans (hg2.trans (completeWith_named ..))

theorem assignPlain_named : Named h (assignPlain d t k h) := by
  unfold assignPlain
  extract_lets g
  have hg : Named h g := by
    unfold g
    split
    · exact createTask_named ..
    · exact .refl h
  split
  · extract_lets g2
    have hg2 : Named g g2 := by
      unfold g2
      split
      · exact startMove_named ..
      · exact .refl g
    exact hg.trans (hg2.trans (completeWith_named ..))
  · exact hg.trans (completeWith_named ..)

theorem assignRest_named : Named h (assignRest d t k h) := by
  unfold assignRest
  split
  · exact (removeTask_named ..).trans (completeWith_named ..)
  · split
    · split
      case h_5 | h_6 => exact assignCreate_named ..
      all_goals exact assignRestart_named ..
    · exact assignPlain_named ..

end

/-- A TASK_ASSIGN that R316 does not refuse. -/
theorem taskAssignEff_accepted {d : Desc} {t : Fin 126} {h : Hub} (ht : pf d.payload 0 0 8 = t.val) (hc : pf d.payload 1 6 2 ≠ 3)
    (hr : pf d.payload 3 0 8 ≤ 191 ∨ pf d.payload 3 0 8 = 0xFF) (hs : pf d.payload 1 6 2 = 2 → taskKind t ≠ 3 ∧ taskKind t ≠ 6)
    (he : ∀ e : Fin 32, taskKind t = 4 → pb d.payload 1 4 = true → t.val = 76 + e.val → h.comp.evTasks[e].accepted = true)
    (hn : ((allFin 126).filter fun u => h.comp.tasks[u].cls = 0 && u != t).length + (if pf d.payload 1 6 2 = 0 then 1 else 0) ≤ 64)
    (hf : ∀ n : Fin 192, pf d.payload 3 0 8 = n.val → h.comp.freeReed n = true) :
    taskAssignEff d h = assignRest d t h.comp.tasks[t] (assigned t d.payload h) := by
  have haccepted : taskKind t = 4 → pb d.payload 1 4 = true → (match finOf 32 (t.val - 76) with
      | some e => h.comp.evTasks[e].accepted
      | none => false) = true := by
    intro hk hb
    have hlow : 76 ≤ t.val ∧ t.val < 108 := by
      unfold taskKind at hk
      split_ifs at hk <;> omega
    rw [finOf_val (n := 32) (k := ⟨t.val - 76, by omega⟩) rfl]
    exact he ⟨t.val - 76, by omega⟩ hk hb (by dsimp only; omega)
  have hbusy : (match finOf 192 (pf d.payload 3 0 8) with
      | some n => !h.comp.freeReed n
      | none => false) = false := by
    split
    · rename_i n hfin
      unfold finOf at hfin
      split at hfin
      · cases hfin
        rw [hf _ rfl]
        rfl
      · cases hfin
    · rfl
  unfold taskAssignEff
  dsimp only
  rw [withFin_val ht]
  refine (if_neg ?_).trans ((if_neg (Nat.not_lt.mpr hn)).trans ((if_neg fun hx => ?_).trans rfl))
  · rintro (h3 | ⟨h1, h2⟩ | ⟨h2, h6⟩ | ⟨h4, hen, hacc⟩)
    · exact hc h3
    · omega
    · exact h6.elim (hs h2).1 (hs h2).2
    · exact absurd ((haccepted h4 hen).symm.trans ((Bool.not_eq_true' _).mp hacc)) (by decide)
  · exact absurd (hbusy.symm.trans hx) (by decide)

theorem assignRest_removed {d : Desc} {t : Fin 126} (hk : taskKind t = 4) (hb : pb d.payload 1 4 = false) (k : Task) (h : Hub) :
    assignRest d t k h = completeWith d.id .ok (taskResult (removeTask t h) t) (removeTask t h) :=
  if_pos ⟨hk, by rw [hb]; rfl⟩

theorem assignRest_stays {d : Desc} {t : Fin 126} {k : Task} (hk : taskKind t ≠ 4) (hr : pf d.payload 3 0 8 = 0xFF)
    (hs : k.state = .running) (h : Hub) : assignRest d t k h = completeWith d.id .ok (taskResult h t) h := by
  have hkind : (taskKind t == 4) = false := beq_eq_false_iff_ne.mpr hk
  have hshed : k.isShed = false := by rw [Task.isShed, hs]; rfl
  unfold assignRest assignPlain
  rw [if_neg fun hc => hk hc.1, hkind, Bool.and_false, if_neg Bool.false_ne_true, hshed, Bool.and_false, hr]
  rfl

/-! ## TASK_MOVE and TASK_PARAM (R317, R318) -/

theorem taskMoveEff_free {d : Desc} {t : Fin 126} {n : Fin 192} {h : Hub} (ht : pf d.payload 0 0 8 = t.val)
    (hs : h.comp.tasks[t].state = .running) (hp : h.comp.power (halfOf n) = .on) (hf : h.comp.freeReed n = true)
    (hn : pf d.payload 2 0 8 = n.val) : taskMoveEff d h = startMove t n (some d.id) h := by
  have hlt := n.isLt
  unfold taskMoveEff
  dsimp only
  rw [withFin_val ht]
  rw [if_neg, finOf_val hn]
  · dsimp only
    rw [if_neg (fun hc => hc hp), if_pos hf]
  · rintro (hc | ⟨h1, -⟩)
    · exact hc hs
    · omega

theorem startMove_task (t : Fin 126) (n : Fin 192) (id : Option Nat) (h : Hub) :
    (startMove t n id h).comp.tasks[t] = { h.comp.tasks[t] with state := .moving, target := some n, desc := id } := upd_same ..

theorem startMove_taskOther {t j : Fin 126} (hj : j ≠ t) (n : Fin 192) (id : Option Nat) (h : Hub) :
    (startMove t n id h).comp.tasks[j] = h.comp.tasks[j] := upd_other _ _ _ _ hj

theorem startMove_reed (t : Fin 126) (n : Fin 192) (id : Option Nat) (h : Hub) :
    (startMove t n id h).comp.reeds[n] = { h.comp.reeds[n] with task := some t } := upd_same ..

theorem startMove_reedOther {n j : Fin 192} (hj : j ≠ n) (t : Fin 126) (id : Option Nat) (h : Hub) :
    (startMove t n id h).comp.reeds[j] = h.comp.reeds[j] := upd_other _ _ _ _ hj

/-- Parameters accepted: a new span, from the next record on. -/
def spanStarted (p : Payload) (x : EvTask) : EvTask :=
  { x with cfg := pbytes p 16, accepted := true, inbox := [], first := none, n := 0, last := none, flags := 0, gap := false }

theorem taskParamEff_accepted {d : Desc} {e : Fin 32} {h : Hub} (he : pf d.payload 0 0 8 = e.val) (h1 : pf d.payload 1 2 2 ≤ 1)
    (h2 : pf d.payload 1 0 2 ≠ 3) (h3 : pf d.payload 2 0 8 ≤ 63) (h4 : 1 ≤ pf d.payload 4 0 32) (h5 : pf d.payload 4 0 32 ≤ 1000000)
    (h6 : pb d.payload 1 6 = true → h.telUp (pf d.payload 1 4 2) = true) : taskParamEff d h =
    complete d.id .ok ((copyWritten (0x18800 + 0x10 * e) 16 h).onEvTask e (spanStarted d.payload)) := by
  unfold taskParamEff
  dsimp only
  rw [withFin_val he]
  rw [if_neg]
  · rfl
  · rintro (hc | hc | hc | hc | ⟨ht, hc⟩)
    · omega
    · exact h2 hc
    · omega
    · unfold inRange at hc
      rw [decide_eq_true h4, decide_eq_true h5] at hc
      exact absurd hc (by decide)
    · rw [h6 ht] at hc
      exact absurd hc (by decide)

/-! ## The records of an EVENT task (R319, R320) -/

theorem Hub.onEvTask_same (e : Fin 32) (f : EvTask → EvTask) (h : Hub) : (h.onEvTask e f).comp.evTasks[e] = f h.comp.evTasks[e] :=
  upd_same ..

theorem Hub.onEvTask_other {e j : Fin 32} (hj : j ≠ e) (f : EvTask → EvTask) (h : Hub) :
    (h.onEvTask e f).comp.evTasks[j] = h.comp.evTasks[j] := upd_other _ _ _ _ hj

/-- A record beyond the limit of a second: skipped, and the span ended. -/
def recordSkipped (x : EvTask) : EvTask :=
  { x with skipped := satInc32 x.skipped, skipFlag := true, first := none, last := none, n := 0, gap := true }

/-- The record breaks the span: an overflow mark, or a gap in the sequence. -/
def recordBroken (r : BitVec 128) (x : EvTask) : Bool :=
  recOvf r || match x.last with
    | some l => recSeq r != (recSeq l + 1) % 65536
    | none => false

/-- A record of either slope taken into the span. -/
def recordTaken (r : BitVec 128) (broken wanted : Bool) (x : EvTask) : EvTask :=
  let x := { x with taken := x.taken + 1 }
  let x := if broken then { x with first := none, n := 0, gap := x.gap || x.first.isSome, flags := 0 } else x
  if wanted then
    match x.first with
    | none => { x with first := some r, n := if x.quantity = 2 then 1 else 0, last := some r, flags := x.flags ||| recFlags r }
    | some _ => { x with n := x.n + 1, last := some r, flags := x.flags ||| recFlags r }
  else { x with last := some r }

/-- The record's slope is the task's. -/
def recordWanted (r : BitVec 128) (x : EvTask) : Bool := recRising r == (x.slope == 0)

/-- The hub with the record out of the task's inbox. -/
def recordOut (e : Fin 32) (rest : List (BitVec 128)) (h : Hub) : Hub := h.onEvTask e fun x => { x with inbox := rest }

/-- The hub with the record in the task's span. -/
def recordIn (e : Fin 32) (r : BitVec 128) (x : EvTask) (h : Hub) : Hub := h.onEvTask e (recordTaken r (recordBroken r x) (recordWanted r x))

section
variable {e : Fin 32} {r : BitVec 128} {rest : List (BitVec 128)} {h : Hub} (hr : h.runs = true) (ht : h.taskRuns (76 + e.val) = true)
  (hi : h.comp.evTasks[e].inbox = r :: rest)
include hr ht hi

theorem eventTaskRecord_over (hn : 5000000 ≤ h.comp.evTasks[e].taken) :
    eventTaskRecord e h = (recordOut e rest h).onEvTask e recordSkipped := by
  unfold eventTaskRecord
  dsimp only
  rw [hi]
  dsimp only
  rw [hr, ht, Bool.and_self, if_pos rfl, if_pos hn]
  rfl

theorem eventTaskRecord_taken (hn : h.comp.evTasks[e].taken < 5000000) : eventTaskRecord e h =
    if (recordWanted r h.comp.evTasks[e] && decide ((recordIn e r h.comp.evTasks[e] (recordOut e rest h)).comp.evTasks[e].count_ ≤
        (recordIn e r h.comp.evTasks[e] (recordOut e rest h)).comp.evTasks[e].n) &&
        decide (0 < (recordIn e r h.comp.evTasks[e] (recordOut e rest h)).comp.evTasks[e].n)) = true then
      evResult e (recordIn e r h.comp.evTasks[e] (recordOut e rest h))
    else recordIn e r h.comp.evTasks[e] (recordOut e rest h) := by
  unfold eventTaskRecord
  dsimp only
  rw [hi]
  dsimp only
  rw [hr, ht, Bool.and_self, if_pos rfl, if_neg (Nat.not_le.mpr hn)]
  rfl

end

/-- A result formed, in the task. -/
def resultFormed (f l : BitVec 128) (x : EvTask) : EvTask :=
  { x with value := evValue x.quantity x.n f l, results := x.results + 1, count := BitVec.ofNat 32 x.n, first := some l, n := 0
           flags := recFlags l, gap := false, skipFlag := false }

theorem telOffer_evTasks (t : Fin 4) (kind : Nat) (body : Bytes) (h : Hub) : (telOffer t kind body h).comp.evTasks = h.comp.evTasks :=
  (telOffer_kept (A := { parts := [.telRings, .msix, .bus] }) (fun _ hp => hp) (.refl h)).only.eq_evTasks fun _ hk => hk

theorem evResult_evTasks {e : Fin 32} {h : Hub} {f l : BitVec 128} (hf : h.comp.evTasks[e].first = some f)
    (hl : h.comp.evTasks[e].last = some l) :
    (evResult e h).comp.evTasks = upd h.comp.evTasks e fun _ => resultFormed f l h.comp.evTasks[e] := by
  have hset : ∀ v, v = evValue h.comp.evTasks[e].quantity h.comp.evTasks[e].n f l → ∀ g : Hub,
      g = h.onEvTask e (fun x => { x with
        value := v, results := x.results + 1, count := BitVec.ofNat 32 x.n, first := some l, n := 0, flags := recFlags l
        gap := false, skipFlag := false }) →
      g.comp.evTasks = upd h.comp.evTasks e fun _ => resultFormed f l h.comp.evTasks[e] := fun v hv g hg => by
    rw [hg, hv, Hub.onEvTask, Hub.onComp_comp]
    dsimp only
    refine upd_congr ?_
    unfold resultFormed
    rfl
  unfold evResult
  dsimp only
  rw [hf, hl]
  dsimp only
  split
  · split
    · exact (telOffer_evTasks ..).trans (hset _ rfl _ rfl)
    · exact hset _ rfl _ rfl
  · exact hset _ rfl _ rfl

theorem recordBroken_not {r : BitVec 128} {x : EvTask} (ho : recOvf r = false)
    (hl : ∀ l, x.last = some l → recSeq r = (recSeq l + 1) % 65536) : recordBroken r x = false := by
  unfold recordBroken
  rw [ho, Bool.false_or]
  split
  · exact bne_eq_false_iff_eq.mpr (hl _ ‹_›)
  · rfl

/-- The first record of a span. -/
theorem recordTaken_first {r : BitVec 128} {x : EvTask} (hf : x.first = none) (hq : x.quantity ≠ 2) :
    (recordTaken r false true x).first = some r ∧ (recordTaken r false true x).n = 0 := by
  unfold recordTaken
  dsimp only
  rw [if_neg Bool.false_ne_true, if_pos rfl, hf]
  exact ⟨rfl, if_neg hq⟩

/-- A later record of a span. -/
theorem recordTaken_later {r f : BitVec 128} {x : EvTask} (hf : x.first = some f) : recordTaken r false true x =
    { x with taken := x.taken + 1, n := x.n + 1, last := some r, flags := x.flags ||| recFlags r } := by
  unfold recordTaken
  dsimp only
  rw [if_neg Bool.false_ne_true, if_pos rfl, hf]

theorem recordTaken_inbox (r : BitVec 128) (broken wanted : Bool) (x : EvTask) : (recordTaken r broken wanted x).inbox = x.inbox := by
  unfold recordTaken
  extract_lets a b
  have hb : b.inbox = x.inbox := by
    unfold b
    split <;> rfl
  split
  · split <;> exact hb
  · exact hb

/-- A record of the slope wanted is the last of its span, and the span has a first. -/
theorem recordTaken_wanted (r : BitVec 128) (broken : Bool) (x : EvTask) :
    (∃ f, (recordTaken r broken true x).first = some f) ∧ (recordTaken r broken true x).last = some r := by
  unfold recordTaken
  extract_lets a b
  rw [if_pos rfl]
  split
  · exact ⟨⟨r, rfl⟩, rfl⟩
  · exact ⟨⟨_, ‹b.first = some _›⟩, rfl⟩

/-- What the record within the limit leaves, where it completes no result, and where it completes one. -/
theorem recorded_shows {e : Fin 32} {r : BitVec 128} {wanted : Bool} {y : EvTask} {g t : Hub} (hy : g.comp.evTasks[e] = y)
    (hf : wanted = true → (∃ f, y.first = some f) ∧ y.last = some r)
    (ht : t = if (wanted && decide (y.count_ ≤ y.n) && decide (0 < y.n)) = true then evResult e g else g) :
    (∀ j, j ≠ e → t.comp.evTasks[j] = g.comp.evTasks[j]) ∧ t.comp.evTasks[e].inbox = y.inbox ∧
    (wanted = true → (y.n < y.count_ ∨ y.n = 0) → t.comp.evTasks[e] = y) ∧
    (wanted = true → y.count_ ≤ y.n → 0 < y.n → ∀ f, y.first = some f → t.comp.evTasks[e] = resultFormed f r y) := by
  split at ht
  case isTrue hc =>
    obtain ⟨hw, h2⟩ := Bool.and_eq_true_iff.mp hc
    obtain ⟨hw, h1⟩ := Bool.and_eq_true_iff.mp hw
    have h1 := of_decide_eq_true h1
    have h2 := of_decide_eq_true h2
    obtain ⟨⟨f, hff⟩, hl⟩ := hf hw
    have htasks := evResult_evTasks (h := g) (by rw [hy]; exact hff) (by rw [hy]; exact hl)
    have hsame : t.comp.evTasks[e] = resultFormed f r y := by
      subst ht
      refine (congrArg (fun v : Vector EvTask 32 => v[e]) htasks).trans ((upd_same ..).trans ?_)
      rw [hy]
    refine ⟨fun j hj => ?_, by rw [hsame]; rfl, fun _ hn => absurd hn (by omega), fun _ _ _ f' hf' => ?_⟩
    · subst ht
      exact (congrArg (fun v : Vector EvTask 32 => v[j]) htasks).trans (upd_other _ _ _ _ hj)
    · rw [hsame, Option.some.inj (hff.symm.trans hf')]
  case isFalse hc =>
    subst ht
    refine ⟨fun _ _ => rfl, by rw [hy], fun _ _ => hy, fun hw h1 h2 => absurd ?_ hc⟩
    rw [hw, decide_eq_true h1, decide_eq_true h2]
    rfl

end Sys2Proof.Machine

namespace Sys2Proof

open Machine

/-- Settles O25: class, home and rank are left by all that TASK_ASSIGN does after them; a record changes its own task alone. -/
theorem tasksAssigned : Obligations.TasksAssigned := by
  unfold Obligations.TasksAssigned
  refine ⟨fun o d s S => ⟨fun k hop hk hc hr hs he hn hf => ?assign, fun k n hop hk hs hp hf hn => ?move,
    fun e hop he h1 h2 h3 h4 h5 h6 => ?param⟩, fun s e r rest hr ht hi => ?record⟩
  case assign =>
    have heff := taskAssignEff_accepted (h := markApplied d.id s.toHub) hk hc hr hs he hn hf
    refine ⟨_, exec_served S (fun _ => rfl) (isOp_of hop) (by rw [hop]; rfl) heff, ?_⟩
    have hnamed := (assignRest_named d k (markApplied d.id s.toHub).comp.tasks[k] (assigned k d.payload (markApplied d.id s.toHub))).name k
    have hset : (assigned k d.payload (markApplied d.id s.toHub)).comp.tasks[k] = { s.comp.tasks[k] with
      cls := BitVec.ofNat 2 (pf d.payload 1 6 2), home := if pb d.payload 1 5 then .b else .a
      rank := BitVec.ofNat 8 (pf d.payload 2 0 8) } := Hub.onTask_same ..
    rw [hset] at hnamed
    simp only [Task.name, Prod.mk.injEq] at hnamed
    obtain ⟨n1, n2, n3⟩ := hnamed
    refine ⟨n1, n2, n3, fun hkind hb => ?_, fun hkind hreed hstate => ?_⟩
    · dsimp only
      rw [assignRest_removed hkind hb, completeWith_comp]
      exact removeTask_task ..
    · have hstays := assignRest_stays (k := (markApplied d.id s.toHub).comp.tasks[k]) hkind hreed hstate
        (assigned k d.payload (markApplied d.id s.toHub))
      dsimp only
      rw [hstays, completeWith_comp, hset]
      exact ⟨hstate, rfl, S.answers (g := assigned k d.payload (markApplied d.id s.toHub)) rfl rfl .ok _⟩
  case move =>
    have heff := taskMoveEff_free (h := markApplied d.id s.toHub) hk hs hp hf hn
    refine ⟨_, exec_served S (fun _ => rfl) (isOp_of hop) (by rw [hop]; rfl) heff, startMove_task .., startMove_reed ..,
      fun j hj => startMove_taskOther hj .., fun j hj => startMove_reedOther hj ..⟩
  case param =>
    have heff := taskParamEff_accepted (h := markApplied d.id s.toHub) he h1 h2 h3 h4 h5 h6
    have hsame := Hub.onEvTask_same e (spanStarted d.payload) (copyWritten (0x18800 + 0x10 * e) 16 (markApplied d.id s.toHub))
    have hother := fun (j : Fin 32) (hj : j ≠ e) => Hub.onEvTask_other hj (spanStarted d.payload)
      (copyWritten (0x18800 + 0x10 * e) 16 (markApplied d.id s.toHub))
    refine ⟨_, exec_served S (fun _ => rfl) (isOp_of hop) (by rw [hop]; rfl) heff, ?_⟩
    dsimp only
    unfold complete
    rw [completeWith_comp, hsame]
    exact ⟨rfl, rfl, rfl, rfl, hother, S.answers (g := (copyWritten (0x18800 + 0x10 * e) 16 (markApplied d.id s.toHub)).onEvTask e
      (spanStarted d.payload)) rfl rfl .ok _⟩
  case record =>
    have hout : (recordOut e rest s.toHub).comp.evTasks[e] = { s.comp.evTasks[e] with inbox := rest } := Hub.onEvTask_same ..
    have houtOther : ∀ j, j ≠ e → (recordOut e rest s.toHub).comp.evTasks[j] = s.comp.evTasks[j] := fun j hj => Hub.onEvTask_other hj ..
    by_cases hn : 5000000 ≤ s.comp.evTasks[e].taken
    · have heff := eventTaskRecord_over (h := s.toHub) hr ht hi hn
      have hskip : ((recordOut e rest s.toHub).onEvTask e recordSkipped).comp.evTasks[e] =
        recordSkipped { s.comp.evTasks[e] with inbox := rest } := (Hub.onEvTask_same ..).trans (by rw [hout])
      refine ⟨_, exec_run (fun _ => rfl) heff, ?_⟩
      dsimp only
      rw [hskip]
      exact ⟨rfl, fun j hj => (Hub.onEvTask_other hj ..).trans (houtOther j hj), fun _ => ⟨rfl, rfl, rfl⟩,
        fun hc => absurd hn (Nat.not_le.mpr hc)⟩
    · have heff := eventTaskRecord_taken (h := s.toHub) hr ht hi (Nat.not_le.mp hn)
      have hin : (recordIn e r s.comp.evTasks[e] (recordOut e rest s.toHub)).comp.evTasks[e] =
        recordTaken r (recordBroken r s.comp.evTasks[e]) (recordWanted r s.comp.evTasks[e]) { s.comp.evTasks[e] with inbox := rest } :=
        (Hub.onEvTask_same ..).trans (by rw [hout])
      have hinOther : ∀ j, j ≠ e → (recordIn e r s.comp.evTasks[e] (recordOut e rest s.toHub)).comp.evTasks[j] = s.comp.evTasks[j] :=
        fun j hj => (Hub.onEvTask_other hj ..).trans (houtOther j hj)
      have hfirst : recordWanted r s.comp.evTasks[e] = true →
          (∃ f, (recordTaken r (recordBroken r s.comp.evTasks[e]) (recordWanted r s.comp.evTasks[e])
            { s.comp.evTasks[e] with inbox := rest }).first = some f) ∧
          (recordTaken r (recordBroken r s.comp.evTasks[e]) (recordWanted r s.comp.evTasks[e])
            { s.comp.evTasks[e] with inbox := rest }).last = some r := fun hw => by
        rw [hw]
        exact recordTaken_wanted ..
      obtain ⟨ho, hb, hopen, hfull⟩ := recorded_shows hin hfirst (t := eventTaskRecord e s.toHub) (by rw [heff, hin])
      refine ⟨_, exec_run (fun _ => rfl) rfl, hb.trans (recordTaken_inbox ..), fun j hj => (ho j hj).trans (hinOther j hj),
        fun hc => absurd hc hn, fun _ hovf hw hl => ?_⟩
      have hwanted : recordWanted r s.comp.evTasks[e] = true := hw
      rw [recordBroken_not hovf hl, hwanted] at hopen hfull
      refine ⟨fun hnone hq => ?_, fun f hf => ⟨fun hlt => ?_, fun hge => ?_⟩⟩
      · obtain ⟨t1, t2⟩ := recordTaken_first (r := r) (x := { s.comp.evTasks[e] with inbox := rest }) hnone hq
        dsimp only
        rw [hopen rfl (.inr t2)]
        exact ⟨t1, t2⟩
      · rw [recordTaken_later (x := { s.comp.evTasks[e] with inbox := rest }) hf] at hopen
        dsimp only
        rw [hopen rfl (.inl hlt)]
        exact ⟨rfl, hf, rfl⟩
      · rw [recordTaken_later (x := { s.comp.evTasks[e] with inbox := rest }) hf] at hfull
        dsimp only
        rw [hfull rfl hge (Nat.succ_pos _) f hf]
        exact ⟨rfl, rfl, rfl⟩

end Sys2Proof
end

section
/-!
SUPPORT. What the end of a SELFTEST and the way into RECOVERY leave of reeds and tasks; a HALF_POWER in progress through moves and
restores (R302 to R306); charge that passes between the wardens (R308 to R310).
-/

set_option Elab.async false

namespace Sys2Proof.Machine

/-! ## The end of a SELFTEST, and RECOVERY -/

/-- The reeds that were under test released. -/
def testReedsFreed (was : Bool) (h : Hub) : Hub :=
  h.onComp fun c =>
    { c with reeds := c.reeds.map fun r =>
        if r.state == .test then { r with state := r.bad.getD (if was then .failed else .free), bad := none } else r }

theorem testReedsFreed_reseats (was : Bool) (h : Hub) : Reseats h (testReedsFreed was h) where
  tasks _ _ := rfl
  reeds n _ hn := by
    have hbeq : (h.comp.reeds[n].state == ReedState.test) = false := beq_eq_false_iff_ne.mpr hn
    have hmap : (testReedsFreed was h).comp.reeds[n] = if h.comp.reeds[n].state == .test then
        { h.comp.reeds[n] with state := h.comp.reeds[n].bad.getD (if was then .failed else .free), bad := none } else h.comp.reeds[n] :=
      Vector.getElem_map ..
    rw [hmap, hbeq]
    exact if_neg Bool.false_ne_true
  frame := rfl
  evt _ e := e

theorem lanesRelease_comp (h : Hub) : (lanesRelease h).comp = h.comp := by
  have o : Only { parts := [.tdc], evts := any, refs := any } h (lanesRelease h) :=
    (lanesRelease_kept (fun _ hp => hp) every every (.refl h)).only
  exact o.eq_comp (by decide) (fun _ hk => hk) (fun _ hk => hk) fun _ hk => hk

theorem linkStart_comp (n : Fin 48) (fresh : Bool) (h : Hub) : (linkStart n fresh h).comp = h.comp := by
  have o : Only { parts := [.msix, .hier, .bus, .free], links := any } h (linkStart n fresh h) :=
    (linkStart_kept (fun _ hp => hp) trivial (.refl h)).only
  exact o.eq_comp (by decide) (fun _ hk => hk) (fun _ hk => hk) fun _ hk => hk

theorem selftestRelease_reseats (h : Hub) : Reseats h (selftestRelease h) := by
  have hclk : ∀ b c g, Reseats g (if b = true then Hub.onClk (fun k => { k with aState := .faulted }) g
      else if c = true then Hub.onClk (fun k => { k with bState := .faulted }) g else g) := fun b c g => by
    cases b <;> cases c <;> exact .of_comp rfl
  have hports : ∀ g, Reseats g (forEach (allFin 48) (fun n h =>
      if h.links[n].held then linkStart n false (h.onLink n fun l => { l with held := false }) else h) g) := fun g => by
    refine .of_comp (forEach_keeps (F := Hub.comp) (fun n g => ?_) _ g)
    split
    · exact linkStart_comp ..
    · rfl
  unfold selftestRelease
  exact (testReedsFreed_reseats h.flt.testFailed h).trans ((hclk ..).trans ((Reseats.of_comp (lanesRelease_comp _)).trans
    ((resumeTasks_reseats _).trans (hports _))))

theorem selftestEnd_reseats (st : Status) (h : Hub) : Reseats h (selftestEnd st h) := by
  unfold selftestEnd
  split
  · exact .refl h
  · have hflt : ∀ f g, Reseats g (Hub.onFlt f g) := fun _ _ => .of_comp rfl
    exact (selftestRelease_reseats h).trans ((hflt _ _).trans (.of_comp (completeWith_comp ..)))

theorem enterRecovery_reseats (h : Hub) : Reseats h (enterRecovery h) := by
  have htop : ∀ f g, Reseats g (Hub.onTop f g) := fun _ _ => .of_comp rfl
  have htested : ∀ b, Reseats h (if b = true then selftestEnd .aborted h else h) := fun b => by
    cases b
    · exact .refl h
    · exact selftestEnd_reseats ..
  unfold enterRecovery
  split
  · exact (htested _).trans ((htop _ _).trans (htop _ _))
  · exact (htested _).trans ((htop _ _).trans (htop _ _))
  · exact htop ..
  all_goals exact .refl h

theorem enterRecovery_mode {h : Hub} (hm : h.inMode .service = true) : (enterRecovery h).top.mode = .recovery := by
  unfold enterRecovery
  rw [beq_iff_eq.mp hm]
  rfl

/-- What the way into RECOVERY touches. -/
def Touch.recovered : Touch :=
  { parts := [.top, .clk, .cplRings, .msix, .books, .tdc, .hier, .runs, .comp, .profile, .shimEvt, .flt, .bus, .free]
    evts := any, refs := any, links := any, tasks := any, reeds := any }

theorem enterRecovery_only (h : Hub) : Only .recovered h (enterRecovery h) :=
  (enterRecovery_kept (A := .recovered) (fun _ hp => hp) every every every every every (.refl h)).only

theorem enterRecovery_queue (h : Hub) : (enterRecovery h).flt.queue = h.flt.queue := (enterRecovery_only h).queue (by decide)

theorem selftestEnd_mode (st : Status) (h : Hub) : (selftestEnd st h).top.mode = h.top.mode := by
  have o : Only { parts := [.clk, .cplRings, .msix, .books, .tdc, .hier, .runs, .comp, .profile, .shimEvt, .flt, .bus, .free]
                  evts := any, refs := any, links := any, tasks := any, reeds := any } h (selftestEnd st h) :=
    (selftestEnd_kept (fun _ hp => hp) every every every every every (.refl h)).only
  exact o.mode (by simp)

/-! ## The HALF_POWER in progress, and the mode, through moves and restores -/

/-- From h to t the HALF_POWER in progress is the same, and SERVICE is not left. -/
structure Powers (h t : Hub) : Prop where
  job : t.comp.job = h.comp.job
  service : h.inMode .service = true → t.inMode .service = true

theorem Powers.refl (h : Hub) : Powers h h := ⟨rfl, fun e => e⟩

theorem Powers.trans {a b c : Hub} (p : Powers a b) (q : Powers b c) : Powers a c := ⟨q.job.trans p.job, fun e => q.service (p.service e)⟩

theorem Powers.of_top {h t : Hub} (hj : t.comp.job = h.comp.job) (ht : t.top.mode = h.top.mode) : Powers h t :=
  ⟨hj, fun e => by unfold Hub.inMode; rw [ht]; exact e⟩

theorem forEach_powers {α : Type} (l : List α) {f : α → Hub → Hub} (hf : ∀ a g, Powers g (f a g)) (h : Hub) : Powers h (forEach l f h) := by
  induction l generalizing h with
  | nil => exact .refl h
  | cons a l ih => exact (hf a h).trans (ih (f a h))

section
variable (t : Fin 126) (h : Hub)

theorem Hub.onTask_powers (f : Task → Task) : Powers h (h.onTask t f) := .of_top rfl rfl

theorem startMove_powers (n : Fin 192) (id : Option Nat) : Powers h (startMove t n id h) := .of_top rfl rfl

theorem seat_powers (n : Fin 192) (st : TaskState) : Powers h (seat t n st h) := .of_top rfl rfl

theorem unseat_powers : Powers h (unseat t h) := by
  unfold unseat
  split
  · exact .of_top rfl rfl
  · exact .refl h

theorem forgetTask_powers (u : Nat) : Powers h (forgetTask u h) := by
  unfold forgetTask
  split
  · exact .of_top rfl rfl
  · exact .of_top rfl rfl
  · split
    · exact .of_top rfl rfl
    · exact .refl h
  · exact .refl h

theorem raiseReed_powers (b : BitVec 16) : Powers h (raiseReed b h) :=
  .of_top (by rw [raiseReed_comp]) (by rw [raiseReed_irqIf, irqIf_top]; rfl)

theorem taskFail_powers (reed : Option (Fin 192)) (u : Option (Fin 126)) (cause : Nat) : Powers h (taskFail reed u cause h) := by
  have hsend : ∀ src k acc ms ad g, Powers g (sendFault src k acc ms ad g) := fun src k acc ms ad g =>
    .of_top (by rw [sendFault_comp]) (by rw [sendFault_top])
  unfold taskFail
  cases reed with
  | none => exact hsend ..
  | some n => exact Powers.trans (b := h.onReed n fun r => { r with lastCause := BitVec.ofNat 8 cause }) (.of_top rfl rfl) (hsend ..)

theorem shed_powers : Powers h (shed t h) := by
  have hcount : ∀ g, Powers g (Hub.onComp (fun c => { c with shedCnt := satAdd 65535 c.shedCnt 1 }) g) := fun _ => .of_top rfl rfl
  unfold shed
  exact (forgetTask_powers ..).trans ((unseat_powers ..).trans ((Hub.onTask_powers ..).trans ((hcount _).trans
    ((taskFail_powers ..).trans (raiseReed_powers ..)))))

theorem suspend_powers : Powers h (suspend t h) := by
  unfold suspend
  exact (unseat_powers ..).trans ((Hub.onTask_powers ..).trans ((taskFail_powers ..).trans (raiseReed_powers ..)))

theorem moveAway_powers (s : Side) : Powers h (moveAway s t h) := by
  unfold moveAway
  dsimp only
  split
  · exact .refl h
  · split
    · exact startMove_powers ..
    · split
      · exact shed_powers ..
      · split
        · split
          · exact (shed_powers ..).trans (startMove_powers ..)
          · exact suspend_powers ..
        · exact suspend_powers ..

theorem restoreLost_powers : Powers h (restoreLost t h) := by
  unfold restoreLost
  extract_lets reed g lost
  have hg : Powers h g := (unseat_powers ..).trans ((Hub.onTask_powers ..).trans (taskFail_powers ..))
  have hlost : ∀ g, Powers g (lost g) := fun g => (Hub.onTask_powers ..).trans ((taskFail_powers ..).trans (raiseReed_powers ..))
  split
  · exact hg.trans (seat_powers ..)
  · split
    · split
      · exact hg.trans ((shed_powers ..).trans (seat_powers ..))
      · exact hg.trans (hlost g)
    · exact hg.trans (hlost g)

theorem moveFails_powers : Powers h (moveFails t h) := by
  unfold moveFails
  extract_lets id tested g1 g2 g3
  have h1 : Powers h g1 := Hub.onTask_powers ..
  have h2 : Powers g1 g2 := .of_top (by unfold g2; rw [completeOpt_comp]) ((completeOpt_only id .noResource g1).mode (by decide))
  have h3 : Powers g2 g3 := .of_top (selftestEnd_reseats ..).job (selftestEnd_mode ..)
  have h4 : Powers g3 (if g3.inMode .test = true then setMode .service g3 else g3) := by
    split
    · exact ⟨rfl, fun _ => rfl⟩
    · exact .refl g3
  split
  · exact h1.trans (h2.trans (h3.trans h4))
  · exact h1.trans h2

end

theorem drainWhenEmpty_powers (h : Hub) : Powers h (drainWhenEmpty h) := by
  unfold drainWhenEmpty
  split
  · split
    · exact .of_top rfl rfl
    · exact .refl h
  · exact .refl h

/-! ## HALF_POWER (R304, R306) -/

theorem halfPowerOffEff_begins {d : Desc} {h : Hub} {x : Side} (hx : halfField d.payload = some x) (hj : h.comp.job = none)
    (hp : h.comp.power x ≠ .off) (hm : h.mayPowerOff x = true) (ht : h.tasksOn x = [] ∨ pb d.payload 1 1 = true) :
    halfPowerOffEff d h = beginOff x (some d.id) h := by
  unfold halfPowerOffEff
  rw [hx]
  refine (if_neg hp).trans ((if_neg ?_).trans (if_neg ?_))
  · rw [hj, hm]
    decide
  · rintro ⟨he, hf⟩
    rcases ht with ht | ht
    · rw [ht] at he
      cases he
    · rw [ht] at hf
      cases hf

theorem halfPowerOnEff_begins {d : Desc} {h : Hub} {x : Side} (hx : halfField d.payload = some x) (hj : h.comp.job = none)
    (hp : h.comp.power x ≠ .on) : halfPowerOnEff d h = beginOn x (some d.id) h := by
  unfold halfPowerOnEff
  rw [hx]
  refine (if_neg hp).trans (if_neg ?_)
  rw [hj]
  decide

theorem beginOff_job (x : Side) (desc : Option Nat) (h : Hub) :
    (beginOff x desc h).comp.job = some { half := x, on := false, desc } := by
  unfold beginOff
  extract_lets g on1 g1 g2
  have hmoves : ∀ l g, Powers g (forEach l (moveAway x) g) := fun l g => forEach_powers l (fun t g => moveAway_powers t g x) g
  exact ((hmoves _ g).trans ((hmoves _ g1).trans ((hmoves _ g2).trans (drainWhenEmpty_powers _)))).job

theorem byRank_nil (h : Hub) (cls : Nat) : h.byRank cls [] = [] := by
  rw [Hub.byRank, List.filter_nil, List.mergeSort_nil]

/-- A half to be powered down that has no tasks drains. -/
theorem drainWhenEmpty_empty {h : Hub} {j : HalfJob} (hj : h.comp.job = some j) (ho : j.on = false) (ht : h.tasksOn j.half = []) :
    (drainWhenEmpty h).comp.power j.half = .draining := by
  unfold drainWhenEmpty
  rw [hj]
  dsimp only
  rw [ho, ht]
  refine (congrArg (fun g : Hub => g.comp.power j.half) (if_pos rfl)).trans ?_
  cases j.half <;> rfl

theorem beginOff_empty {x : Side} {h : Hub} (ht : h.tasksOn x = []) (desc : Option Nat) :
    (beginOff x desc h).comp.power x = .draining := by
  have hon : (h.onComp fun c => { c with job := some { half := x, on := false, desc } }).tasksOn x = [] := ht
  unfold beginOff
  dsimp only
  rw [hon, byRank_nil, byRank_nil, byRank_nil]
  exact drainWhenEmpty_empty (j := { half := x, on := false, desc }) rfl rfl hon

theorem beginOn_shows (x : Side) (desc : Nat) (h : Hub) : (beginOn x (some desc) h).comp.power x = .starting ∧
    (beginOn x (some desc) h).comp.warden x = .booting ∧ ∀ n : Fin 192, (beginOn x (some desc) h).comp.reeds[n].state =
      if halfOf n = x then h.comp.reeds[n].bad.getD .loading else h.comp.reeds[n].state := by
  refine ⟨?_, ?_, fun n => ?_⟩
  · cases x <;> rfl
  · cases x <;> rfl
  · have hmap : (beginOn x (some desc) h).comp.reeds[n] =
        if halfOf n == x then { h.comp.reeds[n] with state := h.comp.reeds[n].bad.getD .loading, task := none } else h.comp.reeds[n] :=
      Vector.getElem_mapFinIdx ..
    rw [hmap]
    by_cases hn : halfOf n = x
    · rw [if_pos hn, if_pos (beq_iff_eq.mpr hn)]
    · rw [if_neg hn, if_neg fun hc => hn (beq_iff_eq.mp hc)]

/-! ## A half dark -/

theorem halfDark_posts (s : Side) (h : Hub) : (halfDark s h).comp.power s = .off ∧ (halfDark s h).comp.warden s = .off ∧
    (halfDark s h).comp.job = h.comp.job ∧ (halfDark s h).comp.charge = h.comp.charge ∧ (halfDark s h).comp.cevt = h.comp.cevt ∧
    (halfDark s h).comp.warden (otherSide s) = h.comp.warden (otherSide s) := by
  cases s <;> exact ⟨rfl, rfl, rfl, rfl, rfl, rfl⟩

theorem halfDark_reed {s : Side} {n : Fin 192} (hn : halfOf n = s) (h : Hub) : (halfDark s h).comp.reeds[n] = h.comp.reeds[n].dark := by
  have hmap : (halfDark s h).comp.reeds[n] = if halfOf n == s then h.comp.reeds[n].dark else h.comp.reeds[n] :=
    Vector.getElem_mapFinIdx ..
  rw [hmap, if_pos (beq_iff_eq.mpr hn)]

/-! ## HALF_POWER done (R304, R306) -/

theorem raiseCharge_comp (b : BitVec 16) (h : Hub) : (raiseCharge b h).comp = { h.comp with cevt := h.comp.cevt.raise b } := by
  rw [raiseCharge_irqIf, irqIf_comp]
  rfl

theorem setWarden_warden (s : Side) (w : WardenState) (c : Comp) : (setWarden s w c).warden s = w ∧
    (setWarden s w c).warden (otherSide s) = c.warden (otherSide s) := by
  cases s <;> exact ⟨rfl, rfl⟩

/-- Charge handed over by a half that is to be powered down. -/
def chargeHanded (s : Side) (h : Hub) : Hub :=
  if h.comp.charge = some s then
    raiseCharge (bit16 4) (h.onComp fun c => setWarden (otherSide s) .inCharge { c with charge := some (otherSide s) })
  else h

theorem halfPowerOffDone_due {j : HalfJob} {id : Nat} {h : Hub} (hj : h.comp.job = some j) (hr : h.runs = true) (ho : j.on = false)
    (ht : h.tasksOn j.half = []) (hd : j.desc = some id) : halfPowerOffDone h =
    complete id .ok ((halfDark j.half (chargeHanded j.half h)).onComp fun c => { c with job := none }) := by
  have hif : (h.runs && !j.on && (h.tasksOn j.half).isEmpty) = true := by rw [hr, ho, ht]; rfl
  unfold halfPowerOffDone
  rw [hj]
  refine (if_pos hif).trans ?_
  rw [hd]
  rfl

theorem chargeHanded_held {s : Side} {h : Hub} (hc : h.comp.charge = some s) : (chargeHanded s h).comp.charge = some (otherSide s) ∧
    (chargeHanded s h).comp.warden (otherSide s) = .inCharge ∧ (chargeHanded s h).comp.cevt.bits.getLsbD 4 = true := by
  unfold chargeHanded
  rw [if_pos hc, raiseCharge_comp]
  refine ⟨?_, ?_, Evt.raise_bit16 _ (by decide)⟩ <;> cases s <;> rfl

theorem chargeHanded_not {s : Side} {h : Hub} (hc : h.comp.charge ≠ some s) : chargeHanded s h = h := if_neg hc

/-- A half that is up: its reeds free, or under test, and its warden in SHADOW. -/
def halfUp (x : Side) (testing : Bool) (h : Hub) : Hub :=
  h.onComp fun c =>
    { c with
      job := none
      reeds := c.reeds.mapFinIdx fun n r _ =>
        if halfOf n == x then
          (if testing then { r with state := .test, task := none }
           else if r.state == .loading then { r with state := .free, task := none, bad := none } else { r with bad := none })
        else r
      aPower := if x = .a then .on else c.aPower, aState := if x = .a then .shadow else c.aState
      bPower := if x = .b then .on else c.bPower, bState := if x = .b then .shadow else c.bState }

/-- The bit of a warden that has booted. -/
def bootedBit : Side → Nat
  | .a => 2
  | .b => 3

theorem halfPowerOnDone_due {j : HalfJob} {h : Hub} (hj : h.comp.job = some j) (hr : h.runs = true) (ho : j.on = true) :
    halfPowerOnDone h = completeOpt j.desc .ok (resumeTasks (raiseCharge (bit16 (bootedBit j.half))
      (halfUp j.half (j.desc.isNone && h.flt.selftest.isSome) h))) := by
  have hif : (h.runs && j.on) = true := by rw [hr, ho]; rfl
  unfold halfPowerOnDone
  rw [hj]
  refine (if_pos hif).trans ?_
  cases j.half <;> rfl

theorem halfUp_inCharge {x : Side} {h : Hub} (hc : h.comp.charge ≠ some x) (b : Bool) : (halfUp x b h).inCharge = h.inCharge := by
  unfold halfUp Hub.inCharge
  dsimp only [Hub.onComp_comp]
  cases hw : h.comp.charge with
  | none => rfl
  | some w =>
    rw [hw] at hc
    cases w <;> cases x
    case a.a | b.b => exact absurd rfl hc
    all_goals rfl

/-- What a half that is up shows once SUSPENDED tasks have resumed. -/
theorem halfUp_shows (x : Side) (b : Bool) (h : Hub) {g : Hub} (hg : g = resumeTasks (raiseCharge (bit16 (bootedBit x)) (halfUp x b h))) :
    g.comp.job = none ∧ g.comp.power x = .on ∧ g.comp.warden x = .shadow ∧ g.comp.cevt.bits.getLsbD (bootedBit x) = true ∧
    g.host.inflight = h.host.inflight ∧ (h.comp.charge ≠ some x → g.inCharge = h.inCharge) := by
  subst hg
  have hbit : bootedBit x < 16 := by cases x <;> decide
  have r := resumeTasks_reseats (raiseCharge (bit16 (bootedBit x)) (halfUp x b h))
  have o := resumeTasks_only (raiseCharge (bit16 (bootedBit x)) (halfUp x b h))
  rw [r.job, r.power, r.warden, r.cevt, r.inCharge, o.inflight (by decide), raiseCharge_comp]
  refine ⟨rfl, ?_, ?_, Evt.raise_bit16 _ hbit, ?_, fun hc => ?_⟩
  · cases x <;> rfl
  · cases x <;> rfl
  · rw [raiseCharge_irqIf, irqIf_inflight]
    rfl
  · rw [raiseCharge_irqIf, Hub.inCharge_congr (irqIf_comp ..)]
    exact halfUp_inCharge hc b

/-! ## A half lost (R302, R303) -/

/-- The half without rails, and what that means for a HALF_POWER in progress. -/
def lossBegun (s : Side) (h : Hub) : Hub :=
  (jobAfterLoss s h).onComp fun c =>
    { c with
      aPower := if s = .a then .off else c.aPower, aState := if s = .a then .off else c.aState
      bPower := if s = .b then .off else c.bPower, bState := if s = .b then .off else c.bState }

/-- The tasks of the lost half shed, or restored on the other. -/
def tasksRehomed (l : List (Fin 126)) (h : Hub) : Hub :=
  let h := forEach (h.byRank 2 l) shedLost h
  let h := forEach (h.byRank 0 l) restoreLost h
  forEach (h.byRank 1 l) restoreLost h

/-- Moves to the lost half over. -/
def movesEnded (s : Side) (h : Hub) : Hub :=
  forEach ((allFin 126).filter fun t => match h.comp.tasks[t].target with
    | some n => halfOf n == s
    | none => false) moveFails h

theorem halfLost_due {s : Side} {h : Hub} (hr : h.runs = true) (hp : h.comp.power s ≠ .off) : halfLost s h =
    enterRecovery (raiseReed (bit16 8) (bumpCounter 9 (halfDark s (movesEnded s (tasksRehomed (h.tasksOn s) (lossBegun s h)))))) := by
  have hne : (h.comp.power s != .off) = true := bne_iff_ne.mpr hp
  unfold halfLost
  rw [hr, hne, Bool.and_self, when_true]
  rfl

theorem lossBegun_job (s : Side) (h : Hub) : (lossBegun s h).comp.job = match h.comp.job with
    | some j => if j.on && j.half != s then some j else none
    | none => none := by
  have hjob : (jobAfterLoss s h).comp.job = match h.comp.job with
      | some j => if j.on && j.half != s then some j else none
      | none => none := by
    unfold jobAfterLoss
    cases hj : h.comp.job with
    | none => exact hj
    | some j =>
      dsimp only
      cases hc : (j.on && j.half != s)
      · rw [if_neg Bool.false_ne_true, completeOpt_comp]
        rfl
      · exact hj
  exact hjob

theorem lossBegun_mode (s : Side) (h : Hub) : (lossBegun s h).top.mode = h.top.mode := by
  have hmode : (jobAfterLoss s h).top.mode = h.top.mode := by
    unfold jobAfterLoss
    split
    · rfl
    · split
      · rfl
      · exact (completeOpt_only ..).mode (by decide)
  exact hmode

theorem tasksRehomed_powers (l : List (Fin 126)) (h : Hub) : Powers h (tasksRehomed l h) := by
  have hshed : ∀ l g, Powers g (forEach l shedLost g) := fun l g => forEach_powers l (fun t g => shed_powers t g) g
  have hrestore : ∀ l g, Powers g (forEach l restoreLost g) := fun l g => forEach_powers l (fun t g => restoreLost_powers t g) g
  unfold tasksRehomed
  exact (hshed ..).trans ((hrestore ..).trans (hrestore ..))

theorem movesEnded_powers (s : Side) (h : Hub) : Powers h (movesEnded s h) := forEach_powers _ (fun t g => moveFails_powers t g) h

theorem halfDark_powers (s : Side) (h : Hub) : Powers h (halfDark s h) := .of_top rfl rfl

theorem bumpCounter_comp (k : Nat) (h : Hub) : (bumpCounter k h).comp = h.comp :=
  (bumpCounter_only k h).eq_comp (by decide) (fun _ hk => hk) (fun _ hk => hk) fun _ hk => hk

theorem bumpCounter_powers (k : Nat) (h : Hub) : Powers h (bumpCounter k h) :=
  .of_top (by rw [bumpCounter_comp]) ((bumpCounter_only k h).mode (by decide))

/-- What the loss of a half shows. -/
theorem halfLost_shows {s : Side} {h : Hub} (hr : h.runs = true) (hp : h.comp.power s ≠ .off) :
    (halfLost s h).comp.power s = .off ∧ (halfLost s h).comp.warden s = .off ∧
    (halfLost s h).comp.job = (lossBegun s h).comp.job ∧
    (∀ n : Fin 192, halfOf n = s → (halfLost s h).comp.reeds[n].state = .off ∧ (halfLost s h).comp.reeds[n].task = none) ∧
    (halfLost s h).comp.evt.bits.getLsbD 8 = true ∧ (h.inMode .service = true → (halfLost s h).top.mode = .recovery) := by
  have pbegun : ∀ g, Powers (lossBegun s h) g → h.inMode .service = true → g.inMode .service = true := fun g p hm =>
    p.service (by unfold Hub.inMode; rw [lossBegun_mode]; exact hm)
  have pmoved := (tasksRehomed_powers (h.tasksOn s) (lossBegun s h)).trans (movesEnded_powers s _)
  rw [halfLost_due hr hp]
  generalize movesEnded s (tasksRehomed (h.tasksOn s) (lossBegun s h)) = g at pmoved
  obtain ⟨hpower, hwarden, -, -, -, -⟩ := halfDark_posts s g
  have pdark := pmoved.trans (halfDark_powers s g)
  have hreed : ∀ n : Fin 192, halfOf n = s → (halfDark s g).comp.reeds[n] = g.comp.reeds[n].dark := fun n hn => halfDark_reed hn g
  generalize halfDark s g = k at pdark hpower hwarden hreed
  have pcount := pdark.trans (bumpCounter_powers 9 k)
  have rcount : Reseats k (bumpCounter 9 k) := .of_comp (bumpCounter_comp ..)
  generalize bumpCounter 9 k = m at pcount rcount
  have rraise := rcount.trans (raiseReed_reseats (bit16 8) m)
  have hevt : (raiseReed (bit16 8) m).comp.evt.bits.getLsbD 8 = true := by
    rw [raiseReed_comp]
    exact Evt.raise_bit16 _ (by decide)
  have praise := pcount.trans (raiseReed_powers m (bit16 8))
  generalize raiseReed (bit16 8) m = u at rraise hevt praise
  have rend := rraise.trans (enterRecovery_reseats u)
  refine ⟨(rend.power s).trans hpower, (rend.warden s).trans hwarden, ?_, fun n hn => ?_, (enterRecovery_reseats u).evt 8 hevt,
    fun hm => enterRecovery_mode (pbegun u praise hm)⟩
  · exact (enterRecovery_reseats u).job.trans praise.job
  · have hdark : k.comp.reeds[n].state = .off ∧ k.comp.reeds[n].task = none := by
      rw [hreed n hn]
      exact ⟨rfl, rfl⟩
    have hfree : k.comp.freeReed n = false := by
      unfold Comp.freeReed
      rw [hdark.1]
      rfl
    rw [rend.reeds n hfree (by rw [hdark.1]; exact fun hc => nomatch hc)]
    exact hdark

end Sys2Proof.Machine
end

section
/-!
SUPPORT. Charge that is claimed, revoked and taken over (R308 to R310), and reservations that are broken (R311, R312).
-/

set_option Elab.async false

namespace Sys2Proof.Machine

/-! ## Charge taken (R308, R309) -/

/-- What waited for a warden, written. -/
def waitedWritten (h : Hub) : Hub := forEach (allFin 32) ivuFlush (flushHeld h)

theorem waitedWritten_only (h : Hub) :
    Only { parts := [.cplRings, .msix, .books, .runs, .profile, .shimEvt, .bus], ivus := any } h (waitedWritten h) :=
  (forEach_kept (flushHeld_kept (A := { parts := [.cplRings, .msix, .books, .runs, .profile, .shimEvt, .bus], ivus := any })
    (fun _ hp => hp) (.refl h)) fun _ _ k => ivuFlush_kept (fun _ hp => hp) trivial k).only

/-- The charge given to the warden of a side. -/
def charged (s : Side) (c : Comp) : Comp := setWarden s .inCharge { c with charge := some s }

theorem takeCharge_leaves (s : Side) (h : Hub) : (takeCharge s h).comp = charged s h.comp ∧ (takeCharge s h).flt = h.flt ∧
    (takeCharge s h).top = h.top := by
  have o := waitedWritten_only ((h.onComp (charged s)).onHost fun x => { x with inflight := x.inflight.map fun d => { d with replayed := true } })
  exact ⟨o.eq_comp (by decide) (fun _ hk => hk) (fun _ hk => hk) fun _ hk => hk,
    o.eq_flt (by decide) (by decide) (by decide), o.eq_top (by decide) (by decide)⟩

theorem charged_posts (s : Side) (c : Comp) : (charged s c).charge = some s ∧ (charged s c).warden s = .inCharge ∧
    (charged s c).warden (otherSide s) = c.warden (otherSide s) := by
  cases s <;> exact ⟨rfl, rfl, rfl⟩

theorem refreshExec_leaves (h : Hub) : (refreshExec h).comp = h.comp ∧ (refreshExec h).flt = h.flt ∧ (refreshExec h).top = h.top :=
  ⟨rfl, rfl, rfl⟩

theorem raiseCharge_leaves (b : BitVec 16) (h : Hub) : (raiseCharge b h).flt = h.flt ∧ (raiseCharge b h).top = h.top := by
  rw [raiseCharge_irqIf, irqIf_flt, irqIf_top]
  exact ⟨rfl, rfl⟩

/-! ## The warden in charge held (R308) -/

/-- The message and the image of a warden that a fetch error has stopped. -/
def fetchMarked (s : Side) (h : Hub) : Hub :=
  invalidateImage (h.imageOfWarden s)
    (match h.shim.damage.find? fun d => d.2 == .uncorrectable && decide (imageBase (h.imageOfWarden s) ≤ 16 * d.1)
        && decide (16 * d.1 < imageBase (h.imageOfWarden s) + 0x100000) with
    | some d => readGroup accFetch (wardenCode s) d.1 h
    | none => sendFault srcShim .eccUe accFetch (wardenCode s) (imageBase (h.imageOfWarden s)) h)

theorem fetchError_eq (s : Side) (h : Hub) : fetchError s h = (fetchMarked s h).onComp fun c =>
    { c with aOther := if s = .a then !c.aOther else c.aOther, bOther := if s = .b then !c.bOther else c.bOther } := rfl

/-- What a read for a fetch, and the message of it, may touch. -/
def Touch.fetched : Touch := { parts := [.msix, .store, .counters, .shimEvt, .shim, .collector, .fltEvt, .bus] }

theorem fetchMarked_leaves (s : Side) (h : Hub) : (fetchMarked s h).comp = h.comp ∧ Collects h (fetchMarked s h) ∧
    (fetchMarked s h).top = h.top := by
  have hhas : Touch.fetched.has [.msix, .store, .counters, .shimEvt, .shim, .collector, .fltEvt, .bus] := fun _ hp => hp
  have hread : ∀ i g, Only .fetched h g → Collects h g → (invalidateImage i g).comp = h.comp ∧ Collects h (invalidateImage i g) ∧
      (invalidateImage i g).top = h.top := fun i g o c => by
    have o2 : Only .fetched h (invalidateImage i g) := o.trans (invalidateImage_kept hhas (.refl g)).only
    refine ⟨o2.eq_comp (by simp [Touch.fetched]) (fun _ hk => hk) (fun _ hk => hk) fun _ hk => hk, c.trans ?_,
      o2.eq_top (by simp [Touch.fetched]) (by simp [Touch.fetched])⟩
    unfold invalidateImage setImageState
    split
    · exact (journalNow_journals ..).queue.trans (raiseShim_journals ..).queue
    · exact List.prefix_rfl
  unfold fetchMarked
  split
  · exact hread _ _ (readGroup_kept hhas (.refl h)).only (readGroup_journals ..).queue
  · exact hread _ _ (sendFault_kept (hhas.of rfl) (.refl h)).only (sendFault_collects ..)

theorem fetchError_leaves (s : Side) (h : Hub) : (∀ x, (fetchError s h).comp.warden x = h.comp.warden x) ∧
    Collects h (fetchError s h) ∧ (fetchError s h).top = h.top := by
  obtain ⟨h1, h2, h3⟩ := fetchMarked_leaves s h
  have hw : ∀ (c : Comp) x, ({ c with aOther := if s = .a then !c.aOther else c.aOther
                                      bOther := if s = .b then !c.bOther else c.bOther } : Comp).warden x = c.warden x := fun c x => by
    cases x <;> rfl
  rw [fetchError_eq]
  generalize fetchMarked s h = g at h1 h2 h3
  exact ⟨fun x => (hw _ x).trans (congrArg (fun c : Comp => c.warden x) h1), h2, h3⟩

theorem fetchErrorIf_leaves (b : Bool) (s : Side) (h : Hub) : (∀ x, (if b then fetchError s h else h).comp.warden x = h.comp.warden x) ∧
    Collects h (if b then fetchError s h else h) ∧ (if b then fetchError s h else h).top = h.top := by
  cases b
  · exact ⟨fun _ => rfl, List.prefix_rfl, rfl⟩
  · exact fetchError_leaves s h

/-- Charge revoked from the warden of a side, with the message of it. -/
def chargeRevoked (fetchErr : Bool) (w : Side) (h : Hub) : Hub :=
  let h := sendFault srcCharge .watchdog accNone mInternal 0 h
  let h := if fetchErr then fetchError w h else h
  h.onComp fun c => setWarden w (if c.warden w == .off then .off else .held) { c with charge := none }

/-- Charge taken over by the warden in SHADOW. -/
def takenOver (w : Side) (h : Hub) : Hub := raiseCharge (bit16 0) (bumpCounter 8 (takeCharge w h))

theorem wardenHeartbeatTimeout_due {b : Bool} {w : Side} {h : Hub} (hr : h.runs = true) (hc : h.comp.charge = some w) :
    wardenHeartbeatTimeout b h = refreshExec (if (chargeRevoked b w h).comp.warden (otherSide w) == .shadow then
      enterRecovery (takenOver (otherSide w) (chargeRevoked b w h)) else chargeRevoked b w h) := by
  unfold wardenHeartbeatTimeout
  rw [hc]
  exact if_pos hr

theorem chargeRevoked_shows {b : Bool} {w : Side} {h : Hub} (hr : h.runs = true) (hw : h.comp.warden w ≠ .off)
    (hq : h.flt.queue.length < 64) : (chargeRevoked b w h).comp.charge = none ∧ (chargeRevoked b w h).comp.warden w = .held ∧
    (chargeRevoked b w h).comp.warden (otherSide w) = h.comp.warden (otherSide w) ∧ (chargeRevoked b w h).top = h.top ∧
    ∃ m l, (chargeRevoked b w h).flt.queue = h.flt.queue ++ m :: l ∧ m.msg.source = 0x322 ∧ m.msg.kind = .watchdog := by
  obtain ⟨m, hm, hmsg⟩ := sendFault_enters srcCharge .watchdog accNone mInternal 0 (g := h) (h := h) rfl rfl hr hq
  have hsc : (sendFault srcCharge .watchdog accNone mInternal 0 h).comp = h.comp := sendFault_comp ..
  have hst : (sendFault srcCharge .watchdog accNone mInternal 0 h).top = h.top := sendFault_top ..
  unfold chargeRevoked
  generalize sendFault srcCharge .watchdog accNone mInternal 0 h = g at hm hsc hst
  obtain ⟨h1, ⟨l, hl⟩, h3⟩ := fetchErrorIf_leaves b w g
  dsimp only
  generalize (if b = true then fetchError w g else g) = k at h1 hl h3
  have hoff : (k.comp.warden w == .off) = false := beq_eq_false_iff_ne.mpr (by rw [h1, hsc]; exact hw)
  obtain ⟨w1, w2⟩ := setWarden_warden w (if k.comp.warden w == .off then .off else .held) { k.comp with charge := none }
  refine ⟨?_, w1.trans (by rw [hoff]; rfl), w2.trans ((h1 _).trans (by rw [hsc])), h3.trans hst, m, l, ?_, by rw [hmsg]; rfl, by rw [hmsg]; rfl⟩
  · cases w <;> rfl
  · rw [Hub.onComp_flt, ← hl, hm, List.append_assoc]
    rfl

theorem takenOver_shows (w : Side) (h : Hub) : (takenOver w h).comp.charge = some w ∧ (takenOver w h).comp.warden w = .inCharge ∧
    (takenOver w h).comp.warden (otherSide w) = h.comp.warden (otherSide w) ∧ (takenOver w h).comp.cevt.bits.getLsbD 0 = true ∧
    (takenOver w h).top = h.top ∧ (takenOver w h).flt = h.flt := by
  obtain ⟨t1, t2, t3⟩ := takeCharge_leaves w h
  obtain ⟨c1, c2, c3⟩ := charged_posts w h.comp
  obtain ⟨r1, r2⟩ := raiseCharge_leaves (bit16 0) (bumpCounter 8 (takeCharge w h))
  have hcount := bumpCounter_only 8 (takeCharge w h)
  unfold takenOver
  rw [r1, r2, raiseCharge_comp, bumpCounter_comp, t1]
  exact ⟨c1, c2, c3, Evt.raise_bit16 _ (by decide), (hcount.eq_top (by decide) (by decide)).trans t3,
    (hcount.eq_flt (by decide) (by decide) (by decide)).trans t2⟩

/-! ## Claims (R308, R310) -/

/-- A warden that may claim charge. -/
def Hub.mayClaim (h : Hub) (x : Side) : Bool := h.comp.power x == .on && (h.comp.warden x == .booting || h.comp.warden x == .shadow)

/-- What the claims of one cycle do to charge. -/
def claimed (a b : Bool) (h : Hub) : Hub :=
  match h.comp.charge with
  | some _ => h.onComp fun c => { c with aState := if a then .shadow else c.aState, bState := if b then .shadow else c.bState }
  | none =>
    if a && b then
      let w : Side := if h.top.strapCharge then .b else .a
      (takeCharge w h).onComp (setWarden (otherSide w) .shadow)
    else if a then takeCharge .a h
    else if b then takeCharge .b h
    else h

theorem chargeClaim_eq {a b : Bool} {h : Hub} (hr : h.runs = true) :
    chargeClaim a b h = refreshExec (claimed (a && h.mayClaim .a) (b && h.mayClaim .b) h) := if_pos hr

theorem Hub.mayClaim_of {h : Hub} {w : Side} (hp : h.comp.power w = .on) (hw : h.comp.warden w = .booting ∨ h.comp.warden w = .shadow) :
    h.mayClaim w = true := by
  unfold Hub.mayClaim
  rcases hw with hw | hw <;> rw [hp, hw] <;> rfl

/-- One warden claims charge that is held. -/
theorem claimed_held {w : Side} {h : Hub} (hc : h.comp.charge ≠ none) : claimed (w == .a) (w == .b) h = h.onComp (setWarden w .shadow) := by
  obtain ⟨x, hx⟩ := Option.ne_none_iff_exists'.mp hc
  unfold claimed
  rw [hx]
  cases w <;> rfl

/-- One warden claims charge that none holds. -/
theorem claimed_first {w : Side} {h : Hub} (hc : h.comp.charge = none) : claimed (w == .a) (w == .b) h = takeCharge w h := by
  unfold claimed
  rw [hc]
  cases w <;> rfl

/-- Both wardens claim charge in one cycle: the strap decides. -/
theorem claimed_both {h : Hub} (hc : h.comp.charge = none) : claimed true true h =
    (takeCharge (if h.top.strapCharge then .b else .a) h).onComp
      (setWarden (otherSide (if h.top.strapCharge then .b else .a)) .shadow) := by
  unfold claimed
  rw [hc]
  rfl

theorem chargeClaim_one {w : Side} {h : Hub} (hr : h.runs = true) (hw : h.mayClaim w = true) :
    chargeClaim (w == .a) (w == .b) h = refreshExec (claimed (w == .a) (w == .b) h) := by
  have hand : ∀ x : Side, ((w == x) && h.mayClaim x) = (w == x) := fun x => by
    by_cases hx : w = x
    · rw [← hx, hw, Bool.and_true]
    · rw [beq_eq_false_iff_ne.mpr hx, Bool.false_and]
  rw [chargeClaim_eq hr, hand, hand]

/-- A claim in BOOT may free the reeds that have loaded; the wardens and the charge it leaves. -/
theorem bootChargeClaim_posts {h : Hub} (ha : h.awake = true) (a b : Bool) :
    (bootChargeClaim a b h).comp.charge = (chargeClaim a b h).comp.charge ∧
    ∀ x, (bootChargeClaim a b h).comp.warden x = (chargeClaim a b h).comp.warden x := by
  unfold bootChargeClaim
  rw [ensureBegun_awake ha]
  generalize chargeClaim a b h = g
  dsimp only
  split
  · exact ⟨rfl, fun x => by cases x <;> rfl⟩
  · exact ⟨rfl, fun _ => rfl⟩

/-! ## Wardens released, and split claims (R308, R310) -/

theorem wardenRelease_due {w : Side} {h : Hub} (hr : h.runs = true) (hw : h.comp.warden w = .held) (hp : h.comp.power w = .on)
    (hs : h.comp.split = false) (hi : h.shim.imageValid (h.imageOfWarden w) = true) :
    wardenRelease w h = refreshExec (raiseCharge (bit16 (bootedBit w)) (h.onComp (setWarden w .shadow))) := by
  unfold wardenRelease
  rw [hr, hw, hp, hs, hi]
  refine (when_true ..).trans ?_
  cases w <;> rfl

/-- The message of a split claim. -/
theorem splitCharge_due {w : Side} {h : Hub} (hr : h.runs = true) (hc : ∀ x, h.comp.warden x = .inCharge ∨ h.comp.warden x = .shadow)
    (hw : w = (if h.comp.power (if h.top.strapCharge then .b else .a) = .on then (if h.top.strapCharge then .b else .a)
      else otherSide (if h.top.strapCharge then .b else .a))) : splitCharge h =
    refreshExec (sendFault srcCharge .splitCharge accNone mInternal 0 (raiseCharge (bit16 1)
      ((takeCharge w h).onComp fun c => setWarden (otherSide w) .held { c with split := true }))) := by
  have hclaims : ∀ x, (h.comp.warden x == .inCharge || h.comp.warden x == .shadow) = true := fun x => by
    rcases hc x with e | e <;> rw [e] <;> rfl
  have hside : (if (h.comp.power (if h.top.strapCharge then .b else .a) == .on) = true then (if h.top.strapCharge then Side.b else .a)
      else otherSide (if h.top.strapCharge then .b else .a)) = w := by
    rw [hw]
    exact if_congr beq_iff_eq rfl rfl
  unfold splitCharge
  dsimp only
  rw [hr, hclaims, hclaims, Bool.and_self, Bool.and_self, when_true, hside]

theorem heldBeside_posts (w : Side) (c : Comp) : (setWarden (otherSide w) .held { charged w c with split := true }).charge = some w ∧
    (setWarden (otherSide w) .held { charged w c with split := true }).warden w = .inCharge ∧
    (setWarden (otherSide w) .held { charged w c with split := true }).warden (otherSide w) = .held ∧
    (setWarden (otherSide w) .held { charged w c with split := true }).split = true := by
  cases w <;> exact ⟨rfl, rfl, rfl, rfl⟩

/-! ## Reservations (R311, R312) -/

/-- Source and master of a holder's messages. -/
def holderSrc : CoreId → Nat
  | .reed n => srcReed n
  | .warden w => srcWarden w

def holderMaster : CoreId → Nat
  | .reed n => mReed n
  | .warden w => wardenCode w

/-- The reservations of a holder gone. -/
def unreserved (c : CoreId) (h : Hub) : Hub := h.onComp fun x => { x with resv := x.resv.filter fun r => r.core != c }

theorem reservationAgeTimeout_due {c : CoreId} {r : Reservation} {h : Hub} (hr : h.runs = true)
    (hf : (h.comp.resv.find? fun x => x.core == c) = some r) : reservationAgeTimeout c h =
    raiseReed (bit16 5) (sendFault (holderSrc c) .lockBroken accRmw (holderMaster c) r.granule.toNat (unreserved c h)) := by
  unfold reservationAgeTimeout
  rw [hf]
  refine (if_pos hr).trans ?_
  cases c <;> rfl

end Sys2Proof.Machine

namespace Sys2Proof

open Machine

/-- Settles O28: what a half or warden does shows in the stages it goes through, each of which leaves the posts of the others. -/
theorem halvesAndWardens : Obligations.HalvesAndWardens := by
  unfold Obligations.HalvesAndWardens
  refine ⟨⟨fun o d s x S hop hx hj => ⟨fun hb hp hm ht => ?off, fun hb hp => ?on⟩,
    fun s j hr hj => ⟨fun ho ht hd => ?offDone, fun ho hd => ?onDone⟩, fun s x hr hp => ?lost⟩,
    fun s hr => ⟨fun w b hc hw hq => ?heartbeat, fun w ha hp hw => ?claim, fun w ha hw hpa hpb hwa hwb hc => ?double,
      fun w hw hp hs hi => ?release, fun named w hc hq hn hw => ?split⟩,
    fun s c r hr hq hf => ?reserved⟩
  case off =>
    refine ⟨_, exec_served (c := .halfPowerOff o) S (fun _ => rfl) (isOpSub_of hop (by rw [hb]; rfl)) (by rw [hop]; rfl)
      (halfPowerOffEff_begins (h := markApplied d.id s.toHub) hx hj hp hm ht), beginOff_job .., fun he => ?_⟩
    exact beginOff_empty (h := markApplied d.id s.toHub) he _
  case on =>
    exact ⟨_, exec_served (c := .halfPowerOn o) S (fun _ => rfl) (isOpSub_of hop hb) (by rw [hop]; rfl)
      (halfPowerOnEff_begins (h := markApplied d.id s.toHub) hx hj hp), rfl, beginOn_shows x d.id (markApplied d.id s.toHub)⟩
  case offDone =>
    obtain ⟨id, hid⟩ := Option.isSome_iff_exists.mp hd
    refine ⟨_, exec_run (fun _ => rfl) (halfPowerOffDone_due (h := s.toHub) hj hr ho ht hid), ?_⟩
    obtain ⟨h1, h2, -, h4, h5, h6⟩ := halfDark_posts j.half (chargeHanded j.half s.toHub)
    have hreed : ∀ n : Fin 192, halfOf n = j.half → (halfDark j.half (chargeHanded j.half s.toHub)).comp.reeds[n].state = .off :=
      fun n hn => by rw [halfDark_reed hn]; rfl
    generalize halfDark j.half (chargeHanded j.half s.toHub) = g at h1 h2 h4 h5 h6 hreed
    dsimp only
    rw [complete, completeWith_comp]
    refine ⟨rfl, Eq.trans ?_ h1, Eq.trans ?_ h2, hreed, fun hc => ?_, fun hc => ?_⟩
    · cases j.half <;> rfl
    · cases j.half <;> rfl
    · obtain ⟨k1, k2, k3⟩ := chargeHanded_held hc
      refine ⟨h4.trans k1, Eq.trans ?_ (h6.trans k2), (congrArg (fun e : Evt => e.bits.getLsbD 4) h5).trans k3⟩
      cases otherSide j.half <;> rfl
    · rw [chargeHanded_not hc] at h4
      exact h4
  case onDone =>
    obtain ⟨h1, h2, h3, h4, h5, h6⟩ := halfUp_shows j.half (j.desc.isNone && s.flt.selftest.isSome) s.toHub rfl
    have heff := halfPowerOnDone_due (h := s.toHub) hj hr ho
    generalize resumeTasks (raiseCharge (bit16 (bootedBit j.half)) (halfUp j.half (j.desc.isNone && s.flt.selftest.isSome) s.toHub)) = g
      at heff h1 h2 h3 h4 h5 h6
    refine ⟨_, exec_run (fun _ => rfl) heff, ?_⟩
    dsimp only
    rw [completeOpt_comp]
    refine ⟨h1, h2, h3, ?_, fun e q hin hc hi he hm hq hx => ⟨0, ?_⟩⟩
    · refine Eq.trans ?_ h4
      cases j.half <;> rfl
    · rw [he]
      exact completeWith_posted_after hin hi hm hq hx h5 (h6 hc) .ok 0
  case lost =>
    obtain ⟨h1, h2, h3, h4, h5, h6⟩ := halfLost_shows (h := s.toHub) hr hp
    exact ⟨_, exec_run (fun _ => rfl) rfl, h1, h2, h3.trans (lossBegun_job x s.toHub), h4, h5, h6⟩
  case heartbeat =>
    obtain ⟨h1, h2, h3, h4, h5⟩ := chargeRevoked_shows (b := b) (h := s.toHub) hr hw hq
    have heff := wardenHeartbeatTimeout_due (b := b) (h := s.toHub) hr hc
    generalize chargeRevoked b w s.toHub = g at heff h1 h2 h3 h4 h5
    obtain ⟨t1, t2, t3, t4, t5, t6⟩ := takenOver_shows (otherSide w) g
    rw [otherSide_otherSide] at t3
    generalize takenOver (otherSide w) g = k at heff t1 t2 t3 t4 t5 t6
    have r := enterRecovery_reseats k
    refine ⟨_, exec_run (fun _ => rfl) heff, ?_⟩
    dsimp only
    by_cases ho : s.comp.warden (otherSide w) = .shadow
    · rw [if_pos (beq_iff_eq.mpr (h3.trans ho))]
      obtain ⟨e1, e2, e3⟩ := refreshExec_leaves (enterRecovery k)
      rw [e1, e2, e3, enterRecovery_queue, t6]
      refine ⟨(r.warden w).trans (t3.trans h2), h5, fun _ => ⟨r.charge.trans t1, (r.warden _).trans t2, ?_, fun hm => ?_⟩,
        fun hc => absurd ho hc⟩
      · rw [r.cevt]
        exact t4
      · exact enterRecovery_mode (by unfold Hub.inMode; rw [t5, h4]; exact hm)
    · rw [if_neg fun hc => ho (h3.symm.trans (beq_iff_eq.mp hc))]
      obtain ⟨e1, e2, -⟩ := refreshExec_leaves g
      rw [e1, e2]
      exact ⟨h2, h5, fun hc => absurd hc ho, fun _ => h1⟩
  case claim =>
    obtain ⟨p1, p2⟩ := bootChargeClaim_posts ha (w == .a) (w == .b)
    rw [chargeClaim_one (h := s.toHub) hr (Hub.mayClaim_of hp hw)] at p1 p2
    refine ⟨_, exec_run (fun _ => rfl) rfl, fun hc => ?_, fun hc => ?_⟩
    · obtain ⟨t1, -, -⟩ := takeCharge_leaves w s.toHub
      obtain ⟨c1, c2, -⟩ := charged_posts w s.comp
      rw [claimed_first hc] at p1 p2
      have hcomp : (refreshExec (takeCharge w s.toHub)).comp = charged w s.comp := (refreshExec_leaves _).1.trans t1
      rw [hcomp] at p1 p2
      exact ⟨p1.trans c1, (p2 w).trans c2⟩
    · rw [claimed_held hc] at p1 p2
      refine ⟨p1.trans ?_, (p2 w).trans (setWarden_warden w .shadow s.comp).1⟩
      cases w <;> rfl
  case double =>
    obtain ⟨p1, p2⟩ := bootChargeClaim_posts ha true true
    obtain ⟨t1, -, -⟩ := takeCharge_leaves w s.toHub
    rw [chargeClaim_eq (h := s.toHub) hr, Hub.mayClaim_of hpa (.inl hwa), Hub.mayClaim_of hpb (.inl hwb), Bool.and_self,
      claimed_both hc, ← hw] at p1 p2
    have hcomp : (refreshExec ((takeCharge w s.toHub).onComp (setWarden (otherSide w) .shadow))).comp =
      setWarden (otherSide w) .shadow (charged w s.comp) := (refreshExec_leaves _).1.trans (congrArg (setWarden (otherSide w) .shadow) t1)
    rw [hcomp] at p1 p2
    refine ⟨_, exec_run (fun _ => rfl) rfl, p1.trans ?_, (p2 _).trans ?_, (p2 _).trans (setWarden_warden (otherSide w) ..).1⟩
    · clear hw
      cases w <;> rfl
    · clear hw
      cases w <;> rfl
  case release =>
    refine ⟨_, exec_run (fun _ => rfl) (wardenRelease_due (h := s.toHub) hr hw hp hs hi), ?_⟩
    obtain ⟨e1, -, -⟩ := refreshExec_leaves (raiseCharge (bit16 (bootedBit w)) (s.toHub.onComp (setWarden w .shadow)))
    dsimp only
    rw [e1, raiseCharge_comp]
    refine ⟨Eq.trans ?_ (setWarden_warden w .shadow s.comp).1, ?_⟩
    · cases w <;> rfl
    · cases w <;> exact Evt.raise_bit16 _ (by decide)
  case split =>
    subst hn
    obtain ⟨t1, t2, t3⟩ := takeCharge_leaves w s.toHub
    obtain ⟨c1, c2, c3, c4⟩ := heldBeside_posts w s.comp
    have heff := splitCharge_due (h := s.toHub) hr hc hw
    have hcomp : ((takeCharge w s.toHub).onComp fun c => setWarden (otherSide w) .held { c with split := true }).comp =
      setWarden (otherSide w) .held { charged w s.comp with split := true } := by rw [Hub.onComp_comp, t1]
    have hflt : ((takeCharge w s.toHub).onComp fun c => setWarden (otherSide w) .held { c with split := true }).flt = s.flt :=
      (Hub.onComp_flt ..).trans t2
    have htop : ((takeCharge w s.toHub).onComp fun c => setWarden (otherSide w) .held { c with split := true }).top = s.top :=
      (Hub.onComp_top ..).trans t3
    generalize ((takeCharge w s.toHub).onComp fun c => setWarden (otherSide w) .held { c with split := true }) = g at heff hcomp hflt htop
    obtain ⟨r1, r2⟩ := raiseCharge_leaves (bit16 1) g
    have hevt := raiseCharge_comp (bit16 1) g
    generalize raiseCharge (bit16 1) g = k at heff r1 r2 hevt
    obtain ⟨m, hm, hmsg⟩ := sendFault_enters srcCharge .splitCharge accNone mInternal 0 (g := k) (h := s.toHub) (r2.trans htop)
      (r1.trans hflt) hr hq
    obtain ⟨e1, e2, -⟩ := refreshExec_leaves (sendFault srcCharge .splitCharge accNone mInternal 0 k)
    refine ⟨_, exec_run (fun _ => rfl) heff, ?_⟩
    dsimp only
    rw [e1, e2, sendFault_comp, hevt, hcomp]
    exact ⟨c1, Eq.trans (by cases w <;> rfl) c2, Eq.trans (by cases w <;> rfl) c3, c4, Evt.raise_bit16 _ (by decide), m, [], hm,
      by rw [hmsg]; rfl, by rw [hmsg]; rfl⟩
  case reserved =>
    have heff := reservationAgeTimeout_due (h := s.toHub) hr hf
    obtain ⟨m, hm, hmsg⟩ := sendFault_enters (holderSrc c) .lockBroken accRmw (holderMaster c) r.granule.toNat (g := unreserved c s.toHub)
      (h := s.toHub) rfl rfl hr hq
    refine ⟨_, exec_run (fun _ => rfl) heff, ?_⟩
    dsimp only
    rw [raiseReed_comp, sendFault_comp]
    refine ⟨fun x => ?_, Evt.raise_bit16 _ (by decide), m, ?_, by rw [hmsg]; rfl, by rw [hmsg]; rfl, ?_⟩
    · exact List.mem_filter.trans (and_congr_right fun _ => bne_iff_ne)
    · rw [raiseReed_irqIf, irqIf_flt]
      exact hm
    · rw [hmsg]
      exact BitVec.ofNat_toNat 32 r.granule |>.trans (BitVec.setWidth_eq _)

end Sys2Proof
end

section
/-!
SUPPORT. A SELFTEST's beginning on each target and its end (R427 to R429, R35).
-/

set_option Elab.async false

namespace Sys2Proof.Machine

/-! ## Beginning -/

/-- From h to t the SELFTEST of a descriptor has begun (R35). -/
structure Begins (id : Nat) (h t : Hub) : Prop where
  selftest : t.flt.selftest = some id
  mode : h.inMode .service = true → t.top.mode = .test

theorem testBegin_begins (id : Nat) (b : Bool) (h : Hub) : Begins id h (testBegin id b h) := by
  unfold testBegin
  dsimp only
  split
  · exact ⟨rfl, fun _ => rfl⟩
  · rename_i hm
    exact ⟨rfl, fun hc => absurd hc hm⟩

theorem testBegin_leaves (id : Nat) (b : Bool) (h : Hub) : (testBegin id b h).comp = h.comp ∧ (testBegin id b h).clk = h.clk ∧
    (testBegin id b h).links = h.links := by
  unfold testBegin
  dsimp only
  split <;> exact ⟨rfl, rfl, rfl⟩

theorem Only.selftest {A : Touch} {h t : Hub} (o : Only A h t) (hf : .flt ∉ A.parts) : t.flt.selftest = h.flt.selftest :=
  (congrArg Flt.selftest (o.flt.resolve_left hf) : t.flt.rest.selftest = h.flt.rest.selftest)

/-- What follows does not end the test. -/
theorem Begins.go {id : Nat} {h a t : Hub} {A : Touch} (b : Begins id h a) (o : Only A a t) (hf : .flt ∉ A.parts) (ht : .top ∉ A.parts) :
    Begins id h t :=
  ⟨(o.selftest hf).trans b.selftest, fun hm => (o.mode ht).trans (b.mode hm)⟩

/-- What a profile makes of the end of a descriptor is nothing to these. -/
theorem profEnd_leaves (id : Nat) (b : Bool) (h : Hub) : (profEnd id b h).comp = h.comp ∧ (profEnd id b h).clk = h.clk ∧
    (profEnd id b h).links = h.links ∧ (profEnd id b h).flt = h.flt :=
  have o := profEnd_only id b h
  ⟨o.eq_comp (by decide) (fun _ hk => hk) (fun _ hk => hk) fun _ hk => hk, o.eq_clk (by decide) (by decide),
    o.eq_links fun _ hk => hk, o.eq_flt (by decide) (by decide) (by decide)⟩

theorem testing_of_open {f : Desc → Hub → Hub} {d : Desc} {h : Hub} (ht : h.inMode .test = false) (hr : h.inMode .recovery = false)
    (hs : h.flt.selftest = none) : testing_ f d h = f d h := by
  unfold testing_
  rw [ht, hr, hs]
  exact if_neg Bool.false_ne_true

/-! ## REED (R427, R428) -/

section
variable {d : Desc} {n : Fin 192} {h : Hub} (ht : testTarget d.payload = 0) (hn : testIndex d.payload 0 = n.val)
include ht hn

theorem selftestReedEff_at : selftestReedEff d h =
    (let r := h.comp.reeds[n]
     if !h.comp.reaches (halfOf n) then complete d.id .domainOff h
     else match r.state, r.task with
      | .halted, _ => complete d.id .denied h
      | .running, some t =>
        if h.comp.tasks[t].state != .running || h.comp.tasks[t].reed != some n then complete d.id .busy h
        else match h.comp.spareFor (halfOf n) with
          | none => complete d.id .noResource h
          | some m => startMove t m none (testBegin d.id false h)
      | .free, none => (testBegin d.id false h).onReed n fun r => { r with state := .test }
      | .failed, _ => (testBegin d.id true h).onReed n fun r => { r with state := .test }
      | .off, _ => complete d.id .domainOff h
      | .free, some _ => complete d.id .busy h
      | .running, none => complete d.id .busy h
      | .test, _ => complete d.id .busy h
      | .loading, _ => complete d.id .busy h) := by
  unfold selftestReedEff
  rw [ht, withFin_val hn]
  exact if_neg (by decide)

theorem selftestReedEff_still (hr : h.comp.reaches (halfOf n) = true)
    (hs : h.comp.reeds[n].state = .free ∧ h.comp.reeds[n].task = none ∨ h.comp.reeds[n].state = .failed) :
    ∃ b, selftestReedEff d h = (testBegin d.id b h).onReed n fun r => { r with state := .test } := by
  have hreach : ¬(!h.comp.reaches (halfOf n)) = true := by rw [hr]; decide
  rw [selftestReedEff_at ht hn]
  rcases hs with ⟨hs, hk⟩ | hs
  · refine ⟨false, (if_neg hreach).trans ?_⟩
    rw [hs, hk]
  · refine ⟨true, (if_neg hreach).trans ?_⟩
    rw [hs]

theorem selftestReedEff_moves {m : Fin 192} {k : Fin 126} (hr : h.comp.reaches (halfOf n) = true) (hs : h.comp.reeds[n].state = .running)
    (hk : h.comp.reeds[n].task = some k) (hks : h.comp.tasks[k].state = .running) (hkr : h.comp.tasks[k].reed = some n)
    (hm : h.comp.spareFor (halfOf n) = some m) : selftestReedEff d h = startMove k m none (testBegin d.id false h) := by
  have hreach : ¬(!h.comp.reaches (halfOf n)) = true := by rw [hr]; decide
  have hbusy : ¬(h.comp.tasks[k].state != .running || h.comp.tasks[k].reed != some n) = true := by
    rw [hks, hkr, bne_self_eq_false, bne_self_eq_false]
    decide
  rw [selftestReedEff_at ht hn]
  refine (if_neg hreach).trans ?_
  rw [hs, hk]
  refine (if_neg hbusy).trans ?_
  rw [hm]

theorem selftestReedEff_off (hp : h.comp.power (halfOf n) = .off ∨ h.comp.power (halfOf n) = .draining) :
    selftestReedEff d h = complete d.id .domainOff h := by
  rw [selftestReedEff_at ht hn]
  refine if_pos ?_
  unfold Comp.reaches
  rcases hp with hp | hp <;> rw [hp] <;> rfl

end

/-! ## LANE, ROOT, HALF and LINK (R98, R45, R304, R252) -/

theorem selftestLaneEff_begins {d : Desc} {h : Hub} (hc : inRange (testCount d.payload) 1 6 = true)
    (hn : noRepeat (testLanes d.payload) = true) (hl : ∀ l ∈ testLanes d.payload, l ≤ 191)
    (hb : ∀ k : Fin 6, 186 + k.val ∈ testLanes d.payload → h.tdc.cw[k].busy = false)
    (hf : ((testLanes d.payload).filter fun l => !laneAlone l && (h.carrier l).isNone).length ≤
      ((allFin 6).filter fun (k : Fin 6) => !h.tdc.cw[k].busy && !(testLanes d.payload).contains (186 + k.val)).length) :
    selftestLaneEff d h = forEach (testLanes d.payload) carry (testBegin d.id false h) := by
  have hany : (testLanes d.payload).any (fun l => decide (191 < l)) = false :=
    List.any_eq_false.mpr fun l hm => by rw [decide_eq_true_eq]; exact Nat.not_lt.mpr (hl l hm)
  have hbusy : (allFin 6).any (fun (k : Fin 6) => (testLanes d.payload).contains (186 + k.val) && h.tdc.cw[k].busy) = false := by
    refine List.any_eq_false.mpr fun k _ => ?_
    rw [Bool.and_eq_true, List.contains_iff_mem]
    rintro ⟨hk, hx⟩
    exact absurd ((hb k hk).symm.trans hx) (by decide)
  unfold selftestLaneEff
  dsimp only
  rw [hc, hany, hn, hbusy]
  exact if_neg (Nat.not_lt.mpr hf)

theorem lanes_only (l : List Nat) (h : Hub) : Only { parts := [.tdc] } h (forEach l carry h) :=
  (forEach_kept (.refl h) fun _ _ k => carry_kept (fun _ hp => hp) k).only

theorem setRoot_root (r : Side) (st : RootState) (locked : Bool) (c : Clk) : (setRoot r st locked c).root r = st ∧
    (setRoot r st locked c).root (otherSide r) = c.root (otherSide r) := by
  cases r <;> exact ⟨rfl, rfl⟩

/-- A root that is not ACTIVE under test: it locks anew, or stays FAULTED. -/
def rootUnderTest (r : Side) (was : Bool) (c : Clk) : Clk :=
  { setRoot r (if was then .faulted else .locking) false c with relValid := false, jumpHeld := false }

theorem selftestRootEff_standby {d : Desc} {h : Hub} {x : Side} (hx : sideOf d.payload = some x) (hr : h.clk.root x ≠ .active) :
    selftestRootEff d h = (testBegin d.id (h.clk.root x == .faulted) h).onClk (rootUnderTest x (h.clk.root x == .faulted)) := by
  unfold selftestRootEff
  rw [hx]
  exact if_neg fun hc => hr (beq_iff_eq.mp hc)

theorem rootUnderTest_shows (r : Side) (c : Clk) : (rootUnderTest r (c.root r == .faulted) c).root r =
      (if c.root r = .faulted then .faulted else .locking) ∧ (rootUnderTest r (c.root r == .faulted) c).relValid = false ∧
    (rootUnderTest r (c.root r == .faulted) c).root (otherSide r) = c.root (otherSide r) := by
  obtain ⟨h1, h2⟩ := setRoot_root r (if (c.root r == .faulted) = true then .faulted else .locking) false c
  have hroot : ∀ x, (rootUnderTest r (c.root r == .faulted) c).root x =
      (setRoot r (if (c.root r == .faulted) = true then .faulted else .locking) false c).root x := fun x => by cases x <;> rfl
  exact ⟨(hroot r).trans (h1.trans (if_congr beq_iff_eq rfl rfl)), rfl, (hroot _).trans h2⟩

theorem selftestRootEff_active {d : Desc} {h : Hub} {x : Side} (hx : sideOf d.payload = some x) (hr : h.clk.root x = .active)
    (ho : h.clk.root (otherSide x) = .ready) : selftestRootEff d h = checkRots (changeover .locking (testBegin d.id false h)) := by
  unfold selftestRootEff
  rw [hx]
  exact (if_pos (beq_iff_eq.mpr hr)).trans (if_pos (beq_iff_eq.mpr ho))

/-- What a changeover touches. -/
def Touch.changed : Touch := { parts := [.now, .clk, .msix, .counters, .collector, .fltEvt, .bus], doms := any }

theorem changeover_only (old : RootState) (h : Hub) : Only .changed h (checkRots (changeover old h)) :=
  (checkRots_kept (A := .changed) (fun _ hp => by revert hp; simp [Touch.changed]; tauto) every
    (changeover_kept (fun _ hp => by revert hp; simp [Touch.changed]; tauto) every (.refl h))).only

theorem changeover_roots {old : RootState} {h : Hub} {x : Side} (hs : h.activeSide = x) :
    (checkRots (changeover old h)).clk.root x = old ∧ (checkRots (changeover old h)).clk.root (otherSide x) = .active := by
  obtain ⟨⟨e, hclk⟩, -, -⟩ := checkRots_checked (changeover old h)
  obtain ⟨ci, nt, hch⟩ := changeover_clk (old := old) hs
  rw [hclk, hch]
  cases x <;> exact ⟨rfl, rfl⟩

theorem selftestHalfEff_begins {d : Desc} {h : Hub} {x : Side} (hx : sideOf d.payload = some x) (hj : h.comp.job = none)
    (hm : h.mayPowerOff x = true) : selftestHalfEff d h = if h.comp.power x == .off then beginOn x none (testBegin d.id false h)
      else beginOff x none (testBegin d.id false h) := by
  unfold selftestHalfEff
  rw [hx]
  exact if_neg (by rw [hj, hm]; decide)

/-- A half's test begun: HALF_POWER in progress, whichever way. -/
theorem halfTest_begins {id : Nat} {h g : Hub} (b : Begins id h g) (x : Side) (off : Bool) :
    Begins id h (if off then beginOn x none g else beginOff x none g) ∧
    (if off then beginOn x none g else beginOff x none g).comp.job = some { half := x, on := off, desc := none } := by
  cases off
  · have o : Only { parts := [.msix, .comp, .collector, .fltEvt, .bus], refs := any, links := any, tasks := any, reeds := any, evTasks := any }
        g (beginOff x none g) := (beginOff_kept (fun _ hp => hp) every every every every every (.refl g)).only
    exact ⟨b.go o (by simp) (by simp), beginOff_job ..⟩
  · have o : Only { parts := [.comp], reeds := any } g (beginOn x none g) := (beginOn_kept (fun _ hp => hp) every (.refl g)).only
    exact ⟨b.go o (by simp) (by simp), rfl⟩

/-- A port held OFF for its test. -/
def portHeld (n : Fin 48) (timed : Bool) (h : Hub) : Hub :=
  ptpLink n (linkStop n ((if timed then leaveTimed n (some (Config.downCause n).toNat) h else h).onLink n fun l => { l with held := true }))

theorem selftestLinkEff_begins {d : Desc} {n : Fin 48} {h : Hub} (hn : testIndex d.payload 0 = n.val) :
    selftestLinkEff d h = portHeld n (h.links[n].state == .timed) (testBegin d.id false h) := by
  unfold selftestLinkEff
  rw [withFin_val hn]
  rfl

/-- What a port's way to OFF touches. -/
def Touch.portHeld (n : Fin 48) : Touch :=
  { parts := [.cplRings, .msix, .books, .hier, .runs, .counters, .profile, .shimEvt, .collector, .fltEvt, .bus]
    refs := any, doms := any, links := (· = n), ptp := (· = n) }

theorem portHeld_only (n : Fin 48) (b : Bool) (h : Hub) : Only (.portHeld n) h (portHeld n b h) := by
  have hhas : (Touch.portHeld n).has [.cplRings, .msix, .books, .hier, .runs, .counters, .profile, .shimEvt, .collector, .fltEvt, .bus] :=
    fun _ hp => hp
  have hleft : Kept (.portHeld n) h (if b then leaveTimed n (some (Config.downCause n).toNat) h else h) :=
    .ite (leaveTimed_kept (hhas.of rfl) every every rfl (.refl h)) (.refl h)
  exact (ptpLink_kept (hhas.of rfl) every every rfl (linkStop_kept (hhas.of rfl) rfl (Hub.onLink_kept rfl hleft))).only

theorem portHeld_link (n : Fin 48) (b : Bool) (h : Hub) : (portHeld n b h).links[n].state = .off ∧
    (portHeld n b h).links[n].held = true ∧ (portHeld n b h).links[n].squelch = true := by
  have hheld : ∃ l : Link, (portHeld n b h).links[n] =
      Link.entered .off { { l with held := true }.clearAll with squelch := true, txDis := true } := by
    unfold portHeld linkStop
    rw [ptpLink_links, enterLink_links, Hub.onLink_links, Hub.onLink_links, upd_upd, upd_upd]
    exact ⟨_, upd_same ..⟩
  obtain ⟨l, hl⟩ := hheld
  rw [hl]
  exact ⟨rfl, rfl, rfl⟩

end Sys2Proof.Machine

namespace Sys2Proof

open Machine

/-- SELFTEST: the targets are served alike. -/
theorem exec_selftest {o : Origin} {d : Desc} {s : State} {c : Instr} {fits : Payload → Bool} {eff : Desc → Hub → Hub} {g : Hub}
    (S : s.Serves o d) (hop : d.opcode = 0xF0) (ht : s.inMode .test = false) (hr : s.inMode .recovery = false)
    (hs : s.flt.selftest = none) (he : ∀ s, exec c s = run (serve o (isOpSub 0xF0 fits) (testing_ eff)) s) (hf : fits d.payload = true)
    (hg : eff d (markApplied d.id s.toHub) = g) : exec c s = .next { toHub := profEnd d.id false g, pending := s.pending } := by
  rw [exec_serve' S he (isOpSub_of hop hf) (by rw [hop]; rfl), testing_of_open (h := markApplied d.id s.toHub) ht hr hs, hg]

end Sys2Proof
end

section
/-!
SUPPORT. The end of a SELFTEST (R428, R35).
-/

set_option Elab.async false

namespace Sys2Proof.Machine

/-! ## The test ended -/

/-- From h to t a test has been judged, and not ended yet. -/
structure Judges (h t : Hub) : Prop where
  selftest : t.flt.selftest = h.flt.selftest
  mode : t.top.mode = h.top.mode
  inflight : t.host.inflight = h.host.inflight
  charge : t.inCharge = h.inCharge

theorem Judges.refl (h : Hub) : Judges h h := ⟨rfl, rfl, rfl, rfl⟩

theorem Judges.trans {a b c : Hub} (p : Judges a b) (q : Judges b c) : Judges a c :=
  ⟨q.selftest.trans p.selftest, q.mode.trans p.mode, q.inflight.trans p.inflight, q.charge.trans p.charge⟩

theorem Judges.of_only {A : Touch} {h t : Hub} (o : Only A h t) (hf : .flt ∉ A.parts) (ht : .top ∉ A.parts) (hb : .books ∉ A.parts)
    (hc : .comp ∉ A.parts) : Judges h t :=
  ⟨o.selftest hf, o.mode ht, o.inflight hb, o.inCharge hc⟩

/-- The test no longer in progress. -/
def testOver (h : Hub) : Hub :=
  let h := h.onFlt fun f => { f with selftest := none, testFailed := false }
  if h.inMode .test then setMode .service h else h

theorem testEnd_eq {id : Nat} {h : Hub} (hs : h.flt.selftest = some id) (pass : Bool) (detail lanes : Nat) :
    testEnd pass detail lanes h = completeWith id .ok (testResult pass detail lanes) (testOver h) := by
  unfold testEnd
  rw [hs]
  rfl

theorem testOver_shows (h : Hub) : (testOver h).flt.selftest = none ∧ (h.inMode .test = true → (testOver h).top.mode = .service) ∧
    (h.inMode .test = false → (testOver h).top.mode = h.top.mode) ∧ (testOver h).host = h.host ∧ (testOver h).comp = h.comp ∧
    (testOver h).clk = h.clk ∧ (testOver h).links = h.links := by
  have hin : (h.onFlt fun f => { f with selftest := none, testFailed := false }).inMode .test = h.inMode .test := rfl
  unfold testOver
  dsimp only
  rw [hin]
  cases h.inMode .test
  · exact ⟨rfl, (fun hc => nomatch hc), fun _ => rfl, rfl, rfl, rfl, rfl⟩
  · exact ⟨rfl, fun _ => rfl, (fun hc => nomatch hc), rfl, rfl, rfl, rfl⟩

/-! ## Verdicts -/

/-- Reeds as a test has found them. -/
def reedsJudged (bad : List (Fin 192)) (h : Hub) : Hub :=
  h.onComp fun c =>
    { c with reeds := c.reeds.mapFinIdx fun n r p =>
        if r.state == .test then { r with state := if bad.contains ⟨n, p⟩ then .failed else .free, task := none, bad := none } else r }

theorem reedsTested_eq (bad : List (Fin 192)) (h : Hub) : reedsTested bad h =
    resumeTasks (if (allFin 192).any fun n => h.comp.reeds[n].state == .test && bad.contains n then
      raiseReed (bit16 6) (reedsJudged bad h) else reedsJudged bad h) := rfl

theorem raiseReedIf_judges (b : Bool) (e : BitVec 16) (h : Hub) : Judges h (if b then raiseReed e h else h) := by
  cases b
  · exact .refl h
  · refine ⟨?_, ?_, ?_, (raiseReed_reseats e h).inCharge⟩
    · exact congrArg Flt.selftest ((congrArg Hub.flt (raiseReed_irqIf ..)).trans (irqIf_flt ..))
    · exact congrArg (fun t : Top => t.mode) ((congrArg Hub.top (raiseReed_irqIf ..)).trans (irqIf_top ..))
    · exact (congrArg (fun g : Hub => g.host.inflight) (raiseReed_irqIf ..)).trans (irqIf_inflight ..)

theorem resumeTasks_judges (h : Hub) : Judges h (resumeTasks h) :=
  have o := resumeTasks_only h
  ⟨o.selftest (by decide), o.mode (by decide), o.inflight (by decide), (resumeTasks_reseats h).inCharge⟩

theorem reedsTested_judges (bad : List (Fin 192)) (h : Hub) : Judges h (reedsTested bad h) := by
  have hjudged : Judges h (reedsJudged bad h) := ⟨rfl, rfl, rfl, rfl⟩
  rw [reedsTested_eq]
  exact hjudged.trans ((raiseReedIf_judges ..).trans (resumeTasks_judges _))

/-- A reed under test that is bad is FAILED, and shows it. -/
theorem reedsTested_failed {bad : List (Fin 192)} {n : Fin 192} {h : Hub} (hs : h.comp.reeds[n].state = .test) (hn : n ∈ bad) :
    (reedsTested bad h).comp.reeds[n].state = .failed ∧ (reedsTested bad h).comp.evt.bits.getLsbD 6 = true := by
  have hbad : bad.contains n = true := List.contains_iff_mem.mpr hn
  have htest : (h.comp.reeds[n].state == .test) = true := beq_iff_eq.mpr hs
  have hany : ((allFin 192).any fun n => h.comp.reeds[n].state == .test && bad.contains n) = true :=
    List.any_eq_true.mpr ⟨n, List.mem_finRange n, by rw [htest, hbad, Bool.and_self]⟩
  have hmap : (reedsJudged bad h).comp.reeds[n] = if h.comp.reeds[n].state == .test then
      { h.comp.reeds[n] with state := if bad.contains n then .failed else .free, task := none, bad := none } else h.comp.reeds[n] :=
    Vector.getElem_mapFinIdx ..
  rw [htest, hbad] at hmap
  have hraised := raiseReed_comp (bit16 6) (reedsJudged bad h)
  have hreed : (raiseReed (bit16 6) (reedsJudged bad h)).comp.reeds[n].state = .failed := by
    rw [hraised]
    exact (congrArg Reed.state hmap).trans rfl
  have hevt : (raiseReed (bit16 6) (reedsJudged bad h)).comp.evt.bits.getLsbD 6 = true := by
    rw [hraised]
    exact Evt.raise_bit16 _ (by decide)
  rw [reedsTested_eq, hany, if_pos rfl]
  generalize raiseReed (bit16 6) (reedsJudged bad h) = g at hreed hevt
  have r := resumeTasks_reseats g
  refine ⟨?_, r.evt 6 hevt⟩
  rw [r.reeds n (by unfold Comp.freeReed; rw [hreed]; rfl) (by rw [hreed]; exact fun hc => nomatch hc)]
  exact hreed

/-- What the verification of lanes touches. -/
theorem verified_only (l : List (LaneTest × Nat × Nat)) (h : Hub) :
    Only { parts := [.tdc] } h (forEach l (fun x h => if x.1.verified then noteVerify x.1 x.2 h else h) h) :=
  (forEach_kept (.refl h) fun _ _ k => .ite (noteVerify_kept (fun _ hp => hp) k) k).only

/-- The lanes under test, each with what was found of it. -/
def lanesFound (v : Verdict) (h : Hub) : List (LaneTest × Nat × Nat) := h.tdc.tests.zipIdx.map fun x => (x.1, v.dev.getD x.2 (0, 0))

/-- The verifications noted, and no lane under test. -/
def lanesJudged (v : Verdict) (h : Hub) : Hub :=
  (forEach (lanesFound v h) (fun x h => if x.1.verified then noteVerify x.1 x.2 h else h) h).onTdc fun t => { t with tests := [] }

theorem lanesJudged_judges (v : Verdict) (h : Hub) : Judges h (lanesJudged v h) := by
  have hdone : ∀ g, Judges g (Hub.onTdc (fun t => { t with tests := [] }) g) := fun _ => ⟨rfl, rfl, rfl, rfl⟩
  exact (Judges.of_only (verified_only ..) (by decide) (by decide) (by decide) (by decide)).trans (hdone _)

/-- A root that has passed its test locks; one that has not is withdrawn, with LOCK_LOST where it lost lock. -/
def rootJudged (r : Side) (v : Verdict) (h : Hub) : Hub :=
  if v.pass then (if h.clk.root r == .locking || h.clk.root r == .faulted then h.onClk (setRoot r .locking false) else h)
  else if v.detail == 1 then raiseRoot (rootFaultBit r) (rootLost r 1 (h.onClk (withdraw r)))
  else h.onClk (withdraw r)

theorem rootLost_only (r : Side) (cause : Nat) (h : Hub) : Only { parts := [.clk, .msix, .collector, .fltEvt, .bus] } h (rootLost r cause h) :=
  (rootLost_kept (fun _ hp => hp) (.refl h)).only

theorem raiseRoot_only (b : BitVec 16) (h : Hub) : Only { parts := [.clk, .msix, .bus] } h (raiseRoot b h) :=
  (raiseRoot_kept (fun _ hp => hp) (.refl h)).only

theorem rootJudged_judges (r : Side) (v : Verdict) (h : Hub) : Judges h (rootJudged r v h) := by
  have hclk : ∀ f g, Judges g (Hub.onClk f g) := fun _ _ => ⟨rfl, rfl, rfl, rfl⟩
  unfold rootJudged
  split
  · split
    · exact hclk ..
    · exact .refl h
  · split
    · exact (hclk ..).trans ((Judges.of_only (rootLost_only ..) (by decide) (by decide) (by decide) (by decide)).trans
        (.of_only (raiseRoot_only ..) (by decide) (by decide) (by decide) (by decide)))
    · exact hclk ..

theorem rootJudged_failed {r : Side} {v : Verdict} (hv : v.pass = false) (h : Hub) : (rootJudged r v h).clk.root r = .faulted ∧
    (rootJudged r v h).clk.relValid = false := by
  have hdrawn : ∀ c : Clk, (withdraw r c).root r = .faulted ∧ (withdraw r c).relValid = false := fun c => by cases r <;> exact ⟨rfl, rfl⟩
  have hlost : ∀ g : Hub, (rootLost r 1 g).clk = { g.clk with lastCause := BitVec.ofNat 3 1 } := fun g => by
    unfold rootLost
    rw [sendFault_clk]
    rfl
  unfold rootJudged
  rw [hv, if_neg Bool.false_ne_true]
  split
  · rw [raiseRoot_clk, hlost, Hub.onClk_clk]
    obtain ⟨h1, h2⟩ := hdrawn h.clk
    exact ⟨Eq.trans (by cases r <;> rfl) h1, h2⟩
  · exact hdrawn h.clk

/-- An image as its test has found it. -/
def imageJudged (i : Side) (h : Hub) : Hub :=
  if (readWholeImage h.chargeCode i h).shim.imageReason i = 0 then readWholeImage h.chargeCode i h
  else invalidateImage i (readWholeImage h.chargeCode i h)

theorem imageJudged_judges (i : Side) (h : Hub) : Judges h (imageJudged i h) := by
  have o : Only .fetched h (imageJudged i h) := by
    have hhas : Touch.fetched.has [.msix, .store, .counters, .shimEvt, .shim, .collector, .fltEvt, .bus] := fun _ hp => hp
    have hread : Kept .fetched h (readWholeImage h.chargeCode i h) := readWholeImage_kept hhas (.refl h)
    exact (Kept.ite hread (invalidateImage_kept hhas hread)).only
  exact .of_only o (by simp [Touch.fetched]) (by simp [Touch.fetched]) (by simp [Touch.fetched]) (by simp [Touch.fetched])

/-- A port no longer held. -/
def portFreed (n : Fin 48) (h : Hub) : Hub := linkStart n false (h.onLink n fun l => { l with held := false })

theorem portFreed_judges (n : Fin 48) (h : Hub) : Judges h (portFreed n h) := by
  have o : Only { parts := [.msix, .hier, .bus, .free], links := (· = n) } h (portFreed n h) :=
    (linkStart_kept (fun _ hp => hp) rfl (Hub.onLink_kept rfl (.refl h))).only
  exact .of_only o (by simp) (by simp) (by simp) (by simp)

theorem linkStart_held (n : Fin 48) (h : Hub) : (linkStart n false h).links[n].held = h.links[n].held := by
  by_cases hm : (h.links[n].mode == 0 || h.links[n].held) = true
  · rw [linkStart_stays false hm]
  · have heff : linkStart n false h = linkRise n (enterLink n .down
        (h.onLink n fun l => { l with squelch := false, txDis := false, statDue := true })) := if_neg hm
    rw [heff, linkRise_links, enterLink_links, Hub.onLink_links, upd_upd, upd_upd]
    refine (congrArg Link.held (upd_same ..)).trans ?_
    unfold Link.risen
    split <;> rfl

theorem portFreed_held (n : Fin 48) (h : Hub) : (portFreed n h).links[n].held = false :=
  (linkStart_held ..).trans ((congrArg Link.held (upd_same ..)).trans rfl)

/-! ## SELFTEST_COMPLETE -/

/-- The side of index 0, or of any other. -/
def testSide (p : Payload) : Side := if testIndex p 0 = 0 then .a else .b

/-- What SELFTEST_COMPLETE finds of a target that is ready to be judged. -/
structure Found (p : Payload) (v : Verdict) (h g : Hub) : Prop where
  judges : Judges h g
  reed : ∀ n : Fin 192, testTarget p = 0 → testIndex p 0 = n.val → v.pass = false →
    g.comp.reeds[n].state = .failed ∧ g.comp.evt.bits.getLsbD 6 = true
  root : testTarget p = 2 → v.pass = false → g.clk.root (testSide p) = .faulted ∧ g.clk.relValid = false
  link : ∀ n : Fin 48, testTarget p = 5 → testIndex p 0 = n.val → g.links[n].held = false

/-- The target is ready to be judged. -/
structure Judgeable (p : Payload) (h : Hub) : Prop where
  target : testTarget p ≤ 5
  reed : testTarget p = 0 → ∃ n : Fin 192, testIndex p 0 = n.val ∧ h.comp.reeds[n].state = .test
  lanes : testTarget p = 1 → ∀ x ∈ h.tdc.tests, x.step = 6
  half : testTarget p = 3 → h.comp.job = none ∧ h.comp.power (testSide p) = .on
  port : testTarget p = 5 → testIndex p 0 < 48

/-- SELFTEST_COMPLETE ends the test with what it finds. -/
def EndsFound (p : Payload) (v : Verdict) (h : Hub) : Prop :=
  ∃ g pass detail lanes, selftestComplete v h = testEnd pass detail lanes g ∧ Found p v h g

section
variable {p : Payload} {v : Verdict} {h : Hub} (hp : h.testPayload = some p) (J : Judgeable p h)
include hp J

theorem selftestComplete_reed (ht : testTarget p = 0) : EndsFound p v h := by
  obtain ⟨n, hn, hs⟩ := J.reed ht
  have hbeq : (h.comp.reeds[n].state == .test) = true := beq_iff_eq.mpr hs
  refine ⟨reedsTested (if v.pass then [] else [n]) h, v.pass, v.detail.toNat, 0, ?_, reedsTested_judges .., fun m _ hm hv => ?_,
    fun hc => absurd (ht.symm.trans hc) (by decide), fun _ hc => absurd (ht.symm.trans hc) (by decide)⟩
  · unfold selftestComplete
    rw [hp]
    dsimp only
    rw [ht, finOf_val hn]
    exact if_pos hbeq
  · obtain rfl : n = m := Fin.ext (hn.symm.trans hm)
    rw [hv, if_neg Bool.false_ne_true]
    exact reedsTested_failed hs List.mem_cons_self

theorem selftestComplete_lanes (ht : testTarget p = 1) : EndsFound p v h := by
  have hfound : ((lanesFound v h).any fun x => x.1.step != 6) = false := by
    refine List.any_eq_false.mpr fun x hx => ?_
    obtain ⟨y, hy, rfl⟩ := List.mem_map.mp hx
    have hmem : y.1 ∈ h.tdc.tests := List.fst_mem_of_mem_zipIdx hy
    dsimp only
    rw [J.lanes ht _ hmem]
    decide
  have heff : ∃ pass detail lanes, selftestComplete v h = testEnd pass detail lanes (lanesJudged v h) := by
    unfold selftestComplete
    rw [hp]
    dsimp only
    rw [ht]
    exact ⟨_, _, _, if_neg (fun hc => absurd (hfound.symm.trans hc) (by decide))⟩
  obtain ⟨pass, detail, lanes, heff⟩ := heff
  exact ⟨_, pass, detail, lanes, heff, lanesJudged_judges v h, fun _ hc => absurd (ht.symm.trans hc) (by decide),
    fun hc => absurd (ht.symm.trans hc) (by decide), fun _ hc => absurd (ht.symm.trans hc) (by decide)⟩

omit J in
theorem selftestComplete_root (ht : testTarget p = 2) : EndsFound p v h := by
  refine ⟨rootJudged (testSide p) v h, v.pass, v.detail.toNat, 0, ?_, rootJudged_judges .., fun _ hc => absurd (ht.symm.trans hc) (by decide),
    fun _ hv => rootJudged_failed hv h, fun _ hc => absurd (ht.symm.trans hc) (by decide)⟩
  unfold selftestComplete
  rw [hp]
  dsimp only
  rw [ht]
  rfl

theorem selftestComplete_half (ht : testTarget p = 3) : EndsFound p v h := by
  obtain ⟨hj, hon⟩ := J.half ht
  refine ⟨reedsTested v.reeds h, v.pass && v.reeds.isEmpty, 1, 0, ?_, reedsTested_judges .., fun _ hc => absurd (ht.symm.trans hc) (by decide),
    fun hc => absurd (ht.symm.trans hc) (by decide), fun _ hc => absurd (ht.symm.trans hc) (by decide)⟩
  have hready : ¬(h.comp.job.isSome || h.comp.power (testSide p) != .on) = true := by
    rw [hj, hon]
    decide
  unfold selftestComplete
  rw [hp]
  dsimp only
  rw [ht]
  exact if_neg hready

omit J in
theorem selftestComplete_image (ht : testTarget p = 4) : EndsFound p v h := by
  have heff : ∃ pass detail, selftestComplete v h = testEnd pass detail 0 (imageJudged (testSide p) h) := by
    unfold selftestComplete imageJudged testSide
    rw [hp]
    dsimp only
    rw [ht]
    exact ⟨_, _, rfl⟩
  obtain ⟨pass, detail, heff⟩ := heff
  exact ⟨_, pass, detail, 0, heff, imageJudged_judges .., fun _ hc => absurd (ht.symm.trans hc) (by decide),
    fun hc => absurd (ht.symm.trans hc) (by decide), fun _ hc => absurd (ht.symm.trans hc) (by decide)⟩

theorem selftestComplete_link (ht : testTarget p = 5) : EndsFound p v h := by
  refine ⟨portFreed ⟨testIndex p 0, J.port ht⟩ h, v.pass, v.detail.toNat, 0, ?_, portFreed_judges ..,
    fun _ hc => absurd (ht.symm.trans hc) (by decide), fun hc => absurd (ht.symm.trans hc) (by decide), fun n _ hn => ?_⟩
  · unfold selftestComplete
    rw [hp]
    dsimp only
    rw [ht, finOf_val (n := 48) (k := ⟨testIndex p 0, J.port ht⟩) rfl]
    rfl
  · obtain rfl : (⟨testIndex p 0, J.port ht⟩ : Fin 48) = n := Fin.ext hn
    exact portFreed_held ..

/-- A test whose target is ready ends with what was found. -/
theorem selftestComplete_found : EndsFound p v h := by
  have hle := J.target
  rcases (by omega : testTarget p = 0 ∨ testTarget p = 1 ∨ testTarget p = 2 ∨ testTarget p = 3 ∨ testTarget p = 4 ∨ testTarget p = 5) with
    ht | ht | ht | ht | ht | ht
  · exact selftestComplete_reed hp J ht
  · exact selftestComplete_lanes hp J ht
  · exact selftestComplete_root hp ht
  · exact selftestComplete_half hp J ht
  · exact selftestComplete_image hp ht
  · exact selftestComplete_link hp J ht

end

end Sys2Proof.Machine

namespace Sys2Proof

open Machine

/-- Settles O29: what begins a test leaves it in progress, and what a test has found stands when it ends. -/
theorem selftests : Obligations.Selftests := by
  unfold Obligations.Selftests
  refine ⟨fun o d s i S hop htm hrm hst hi => ?begins, fun v s e i hst he hid hi ht hreed hlane hhalf hport => ?ends⟩
  case begins =>
    subst hi
    refine ⟨fun n ht hn hr hs => ?free, fun n m k ht hn hr hs hk hks hkr hm => ?moves, fun n ht hn hp => ?off,
      fun ht hc hn hl hb hf => ?lane, fun x ht hx hr => ?root, fun x ht hx hr ho hs => ?active, fun x ht hx hj hm => ?half,
      fun x ht hx => ?image, fun n ht hn => ?link⟩
    case free =>
      obtain ⟨b, heff⟩ := selftestReedEff_still (h := markApplied d.id s.toHub) ht hn hr hs
      obtain ⟨hc, -, -⟩ := testBegin_leaves d.id b (markApplied d.id s.toHub)
      obtain ⟨hself, hmode⟩ := testBegin_begins d.id b (markApplied d.id s.toHub)
      generalize testBegin d.id b (markApplied d.id s.toHub) = g at heff hc hself hmode
      obtain ⟨p1, -, -, p4⟩ := profEnd_leaves d.id false (g.onReed n fun r => { r with state := .test })
      have hpm := (profEnd_only d.id false (g.onReed n fun r => { r with state := .test })).mode (by decide)
      refine ⟨_, exec_selftest (c := .selftestReed o) S hop htm hrm hst (fun _ => rfl) (by rw [ht]; rfl) heff, ?_⟩
      dsimp only
      rw [p1, p4, hpm]
      refine ⟨hself, hmode, (Hub.onReed_same ..).trans ?_, fun j hj => (Hub.onReed_other hj ..).trans ?_⟩
      · rw [hc]
        rfl
      · rw [hc]
        rfl
    case moves =>
      have heff := selftestReedEff_moves (h := markApplied d.id s.toHub) ht hn hr hs hk hks hkr hm
      obtain ⟨hc, -, -⟩ := testBegin_leaves d.id false (markApplied d.id s.toHub)
      obtain ⟨hself, hmode⟩ := testBegin_begins d.id false (markApplied d.id s.toHub)
      generalize testBegin d.id false (markApplied d.id s.toHub) = g at heff hc hself hmode
      obtain ⟨p1, -, -, p4⟩ := profEnd_leaves d.id false (startMove k m none g)
      have hpm := (profEnd_only d.id false (startMove k m none g)).mode (by decide)
      refine ⟨_, exec_selftest (c := .selftestReed o) S hop htm hrm hst (fun _ => rfl) (by rw [ht]; rfl) heff, ?_⟩
      dsimp only
      rw [p1, p4, hpm, startMove_task, startMove_reed, hc]
      exact ⟨hself, hmode, rfl, rfl⟩
    case off =>
      have heff := selftestReedEff_off (h := markApplied d.id s.toHub) ht hn hp
      obtain ⟨p1, -, -, p4⟩ := profEnd_leaves d.id false (complete d.id .domainOff (markApplied d.id s.toHub))
      refine ⟨_, exec_selftest (c := .selftestReed o) S hop htm hrm hst (fun _ => rfl) (by rw [ht]; rfl) heff, ?_⟩
      dsimp only
      rw [p1, p4, complete, completeWith_comp, completeWith_flt]
      refine ⟨rfl, hst, fun q ho hx => ⟨0, ?_⟩⟩
      have hp := S.posted_after (g := markApplied d.id s.toHub) ho hx rfl rfl .domainOff 0
      have hnext : d.id < (completeWith d.id .domainOff 0 (markApplied d.id s.toHub)).host.nextId :=
        (S.ids.2 d S.mem).trans_le (completeWith_carries d.id .domainOff 0 (markApplied d.id s.toHub)).next
      exact hp.carried hnext (profEnd_carries (fun _ => True) ..)
    case lane =>
      have heff := selftestLaneEff_begins (h := markApplied d.id s.toHub) hc hn hl hb hf
      have b := (testBegin_begins d.id false (markApplied d.id s.toHub)).go (lanes_only (testLanes d.payload) _) (by decide) (by decide)
      generalize forEach (testLanes d.payload) carry (testBegin d.id false (markApplied d.id s.toHub)) = g at heff b
      obtain ⟨hself, hmode⟩ := b.go (profEnd_only d.id false g) (by decide) (by decide)
      exact ⟨_, exec_selftest (c := .selftestLane o) S hop htm hrm hst (fun _ => rfl) (by rw [ht]; rfl) heff, hself, hmode⟩
    case root =>
      have heff := selftestRootEff_standby (h := markApplied d.id s.toHub) hx hr
      obtain ⟨-, hc, -⟩ := testBegin_leaves d.id (s.clk.root x == .faulted) (markApplied d.id s.toHub)
      obtain ⟨hself, hmode⟩ := testBegin_begins d.id (s.clk.root x == .faulted) (markApplied d.id s.toHub)
      obtain ⟨r1, r2, r3⟩ := rootUnderTest_shows x s.clk
      have hclk : (s.clk.root x == .faulted) = ((markApplied d.id s.toHub).clk.root x == .faulted) := rfl
      rw [← hclk] at heff
      generalize testBegin d.id (s.clk.root x == .faulted) (markApplied d.id s.toHub) = g at heff hc hself hmode
      obtain ⟨-, p2, -, p4⟩ := profEnd_leaves d.id false (g.onClk (rootUnderTest x (s.clk.root x == .faulted)))
      have hpm := (profEnd_only d.id false (g.onClk (rootUnderTest x (s.clk.root x == .faulted)))).mode (by decide)
      refine ⟨_, exec_selftest (c := .selftestRoot o) S hop htm hrm hst (fun _ => rfl) (by rw [ht]; rfl) heff, ?_⟩
      dsimp only
      rw [p2, p4, hpm, Hub.onClk_clk, hc]
      exact ⟨hself, hmode, r1, r2, r3⟩
    case active =>
      have heff := selftestRootEff_active (h := markApplied d.id s.toHub) hx hr ho
      obtain ⟨-, hc, -⟩ := testBegin_leaves d.id false (markApplied d.id s.toHub)
      have hside : (testBegin d.id false (markApplied d.id s.toHub)).activeSide = x := by
        unfold Hub.activeSide at hs ⊢
        rw [hc]
        exact hs
      obtain ⟨r1, r2⟩ := changeover_roots (old := .locking) hside
      have b := (testBegin_begins d.id false (markApplied d.id s.toHub)).go (changeover_only .locking _) (by simp [Touch.changed])
        (by simp [Touch.changed])
      generalize checkRots (changeover .locking (testBegin d.id false (markApplied d.id s.toHub))) = g at heff r1 r2 b
      obtain ⟨-, p2, -, -⟩ := profEnd_leaves d.id false g
      obtain ⟨hself, hmode⟩ := b.go (profEnd_only d.id false g) (by decide) (by decide)
      refine ⟨_, exec_selftest (c := .selftestRoot o) S hop htm hrm hst (fun _ => rfl) (by rw [ht]; rfl) heff, hself, hmode, ?_⟩
      dsimp only
      rw [p2]
      exact ⟨r1, r2⟩
    case half =>
      have heff := selftestHalfEff_begins (h := markApplied d.id s.toHub) hx hj hm
      obtain ⟨b, hjob⟩ := halfTest_begins (testBegin_begins d.id false (markApplied d.id s.toHub)) x (s.comp.power x == .off)
      have hpower : (s.comp.power x == .off) = ((markApplied d.id s.toHub).comp.power x == .off) := rfl
      rw [← hpower] at heff
      generalize (if (s.comp.power x == .off) = true then beginOn x none (testBegin d.id false (markApplied d.id s.toHub))
        else beginOff x none (testBegin d.id false (markApplied d.id s.toHub))) = g at heff b hjob
      obtain ⟨p1, -, -, -⟩ := profEnd_leaves d.id false g
      obtain ⟨hself, hmode⟩ := b.go (profEnd_only d.id false g) (by decide) (by decide)
      refine ⟨_, exec_selftest (c := .selftestHalf o) S hop htm hrm hst (fun _ => rfl) (by rw [ht]; rfl) heff, hself, hmode, ?_⟩
      dsimp only
      rw [p1]
      exact hjob
    case image =>
      have heff : selftestImageEff d (markApplied d.id s.toHub) = testBegin d.id false (markApplied d.id s.toHub) := by
        unfold selftestImageEff
        rw [hx]
      have b := testBegin_begins d.id false (markApplied d.id s.toHub)
      generalize testBegin d.id false (markApplied d.id s.toHub) = g at heff b
      obtain ⟨hself, hmode⟩ := b.go (profEnd_only d.id false g) (by decide) (by decide)
      exact ⟨_, exec_selftest (c := .selftestImage o) S hop htm hrm hst (fun _ => rfl) (by rw [ht]; rfl) heff, hself, hmode⟩
    case link =>
      have heff := selftestLinkEff_begins (h := markApplied d.id s.toHub) hn
      obtain ⟨-, -, hc⟩ := testBegin_leaves d.id false (markApplied d.id s.toHub)
      have b := testBegin_begins d.id false (markApplied d.id s.toHub)
      generalize testBegin d.id false (markApplied d.id s.toHub) = g at heff hc b
      have hport := portHeld_only n ((markApplied d.id s.toHub).links[n].state == .timed) g
      obtain ⟨l1, l2, l3⟩ := portHeld_link n ((markApplied d.id s.toHub).links[n].state == .timed) g
      have hother : ∀ j, j ≠ n → (portHeld n ((markApplied d.id s.toHub).links[n].state == .timed) g).links[j] = s.links[j] :=
        fun j hj => ((hport.links j).resolve_left hj).trans (congrArg (·[j]) hc)
      have b2 := b.go hport (by simp [Touch.portHeld]) (by simp [Touch.portHeld])
      generalize portHeld n ((markApplied d.id s.toHub).links[n].state == .timed) g = k at heff l1 l2 l3 hother b2
      obtain ⟨-, -, p3, -⟩ := profEnd_leaves d.id false k
      obtain ⟨hself, hmode⟩ := b2.go (profEnd_only d.id false k) (by decide) (by decide)
      refine ⟨_, exec_selftest (c := .selftestLink o) S hop htm hrm hst (fun _ => rfl) (by rw [ht]; rfl) heff, hself, hmode, ?_⟩
      dsimp only
      rw [p3]
      exact ⟨l1, l2, l3, hother⟩
  case ends =>
    subst hi
    have hpay : s.testPayload = some e.payload := by
      unfold Hub.testPayload
      rw [hst, Option.bind_some, hid.desc he]
      rfl
    obtain ⟨g, pass, detail, lanes, heff, F⟩ := selftestComplete_found (v := v) hpay
      ⟨ht, hreed, hlane, hhalf, hport⟩
    obtain ⟨hself, hmode, hin, hch⟩ := F.judges
    have hinmode : ∀ m, g.inMode m = s.inMode m := fun m => by unfold Hub.inMode; rw [hmode]
    obtain ⟨o1, o2, o3, o4, o5, o6, o7⟩ := testOver_shows g
    rw [testEnd_eq (hself.trans hst)] at heff
    refine ⟨_, exec_run (fun _ => rfl) heff, ?_⟩
    dsimp only
    have hposted : ∀ q, s.inCharge = true → e.origin = .ring q → e.discard = false →
        (completeWith e.id .ok (testResult pass detail lanes) (testOver g)).Posted e .ok (testResult pass detail lanes) :=
      fun q hc ho hx => completeWith_posted_after hc hid he ho hx ((congrArg HostIf.inflight o4).trans hin)
        ((Hub.inCharge_congr o5).trans hch) _ _
    rw [completeWith_flt, completeWith_top, completeWith_comp, completeWith_clk, completeWith_links, o5, o6, o7]
    refine ⟨o1, fun hm => o2 ((hinmode _).trans hm), fun hm => (o3 ((hinmode _).trans hm)).trans hmode,
      fun q hc ho hx => ⟨_, hposted q hc ho hx⟩, F.reed, fun x h2 hx hv => ?_, F.link⟩
    subst hx
    exact F.root h2 hv

end Sys2Proof
end
